-- ==== Sys2Proof/Word.lean ====
section
/-!
DEFINITION. Word.lean: the machine's smallest data: bytes, 64-byte lines, and a sparse table kept as a plain list.
R2 (little-endian), R5, R7, R81 of the spec name the units used here.
-/
namespace Sys2Proof

/-- One byte. -/
abbrev Byte := BitVec 8

/-- One 64-byte line (R81): byte 0 is bits [7:0] (R2). -/
abbrev Line := BitVec 512

/-- A sparse table: key and value pairs in rising order of the key. -/
abbrev Tab (α : Type) := List (Nat × α)

/-- Whole units of `m` needed to hold `n` (rounded up). -/
def ceilDiv (n m : Nat) : Nat := (n + m - 1) / m

/-- Bytes of a MiB (R5). -/
abbrev mib : Nat := 1048576

/-- Counts modulo 2^32, as every 32-bit index of the spec is kept. -/
def wrap32 (n : Nat) : Nat := n % 4294967296

/-- The difference of two 32-bit indices, modulo 2^32. -/
def diff32 (a b : Nat) : Nat := (a + 4294967296 - b % 4294967296) % 4294967296

end Sys2Proof
end

