-- ==== Sys2Proof/Syntax.lean ====
section
/-!
DEFINITION. Syntax.lean: the commands of the block, one constructor per row of the opcode table, each with the operands its
rule names. An event row carries what only the outside can know (a measured value, whether a code decoded); a dictionary
command row carries the source it comes from.
-/
namespace Sys2Proof

/-- Where a dictionary access comes from (R459 to R464): the path and, through it, the master ID (R108). -/
inductive Src where
  | mailbox (h : Fin 4) (pasid : Option (BitVec 20) := none) | bar2 (h : Fin 4) (pasid : Option (BitVec 20) := none) | field | manager | debug
  deriving DecidableEq, Repr

/-- Who writes the timeline apertures (R23, R24). -/
inductive TlSrc where
  | bar2 (h : Fin 4) (pasid : Option (BitVec 20) := none) | cxl (h : Fin 4) | link (l : Fin 8) (pasid : Option (BitVec 20)) | hopper (ch : Fin 64)
  deriving DecidableEq, Repr

/-- The MetaValue of a CXL.mem request (R125). -/
inductive Meta where
  | a | s | i
  deriving DecidableEq, Repr

/-- The outcome of a tier's code on a line read (R276, R301 to R306, R340 to R342): an uncorrectable line says whether
the device's second read of it decodes; a corrected line gives the symbols corrected and the DDR5 device (R355). -/
inductive CodeRes where
  | ok | corrected (symbols : Nat) (device : Fin 16) | uncorrectable (rereadOk : Bool)
  deriving DecidableEq, Repr

/-- The outcome of a MAC check of a sealed line (R212). -/
inductive MacRes where
  | ok | refetchOk | fail
  deriving DecidableEq, Repr

/-- What a media package's answer to a read shows on the bus (R301, R304): how many of its bytes fail parity, or the answer of a package that
cannot serve the read. -/
inductive BusRes where
  | bytesLost (n : Nat) | refused
  deriving DecidableEq, Repr

/-- A working key of the vault (R219, R220): the set of a cask, or of a link's key slot. -/
inductive VaultKey where
  | cask (c : Fin 1024) | link (l : Fin 8) (slot : Fin 2)
  deriving DecidableEq, Repr

/-- A parity error met on the way (R336): where nothing is lost, or in data with no other copy. -/
inductive ParityRes where
  | ok | clean | dirty
  deriving DecidableEq, Repr

/-- What the device finds damaged in the state it holds, by its complement, its code or its parity (R345): a pending window record by
its place in the list, a debt level or maximum of a class, a DDR5 refresh balance, a block's trim or age held on chip (R346); a
snoop filter word that is corrected, an entry in the set of the line at `dla` that is not (R347); a cached queue state (R404); a
channel context (R409); the rights value of a master on a target (R114); the copies of a page record, or of the directory entry of its
block, that come to fail their complement (R83); the bits of a copy of the HBM key that flip (R204). -/
inductive Damage where
  | none
  | window (n : Nat)
  | debtLevel (k : Fin 5)
  | debtMax (k : Fin 5)
  | refreshBalance (ch : Fin 8)
  | blockRecord (ch : Fin 8) (block : BitVec 20)
  | filterWord
  | filterEntry (dla : BitVec 46)
  | queueState (q : Fin 1048576)
  | context (ch : Fin 64)
  | rights (target : BitVec 16) (master : BitVec 8)
  | record (dir : Bool) (page : BitVec 34) (copies : BitVec 5)
  | hbmKey (copy : Fin 3) (bits : BitVec 256)
  deriving DecidableEq, Repr

/-- What the physical path shows an access: record copies that fail their complement (bit 0 map cache, 1 HBM mirror, 2 DDR5 mirror, 3 and
4 the two copies of the map zone, R88, R164), a damaged rights value (R114), the tier code and, of grist, the stored sector it was found
at (R190), what a media read shows on the bus (R301), the MAC, the bits of stored grist found flipped past the code (R185, R188), parity,
the key, the latency class of a read (R31), and what MEM_READ, CRD_S and BURST_ISSUE find damaged in the device's own state as they begin.
`second` says that the second channel of a mirrored pair holds fewer reads (R279). `burst` and `bound` are the device's own note, made as
it accepts a read, of a read accepted in a BURST window and of one that R32 binds: what an operand holds there is not read. -/
structure Obs where
  recBad : BitVec 5 := 0
  dirBad : BitVec 5 := 0
  rightsBad : Bool := false
  code : CodeRes := .ok
  bus : BusRes := .bytesLost 0
  mac : MacRes := .ok
  grist : List (BitVec 12 × Byte) := []
  gsec : Fin 64 := 0
  parity : ParityRes := .ok
  keyBad : Bool := false
  over500 : Bool := false
  late : Bool := false
  second : Bool := false
  burst : Bool := false
  bound : Bool := false
  damage : Damage := .none
  deriving DecidableEq, Repr

/-- An IDE stream of a head and its mode (R53): 0 is CXL.mem, in containment mode when `contain`, else in skid mode; 1 is the PCIe link
stream, 2 and 3 the selective streams. -/
structure IdeStream where
  n : Fin 4
  contain : Bool := false
  deriving DecidableEq, Repr

/-- Where a page goes: a channel, and on the non-volatile tier the place that Kiln gives it there (R308). -/
structure PagePlace where
  ch : Fin 8
  loc : BitVec 35
  deriving DecidableEq, Repr

/-- A migration slot, and what the reads of its copy find, by line of the page (R153, R154). -/
structure SlotReads where
  slot : Fin 32
  reads : List (Fin 64 × Obs) := []
  deriving DecidableEq, Repr

/-- A page, and what the reads of its lines find. -/
structure PageReads where
  page : BitVec 34
  reads : List (Fin 64 × Obs) := []
  deriving DecidableEq, Repr

/-- How a program ended (R307, R309): done, or failed, with the place that Kiln gives the page next. -/
structure ProgEnd where
  done : Bool
  next : BitVec 35 := 0
  deriving DecidableEq, Repr

/-- The zero pool of a tier, and of DDR5 the share of a channel (R92). -/
structure PoolShare where
  tier : Fin 4
  ch : Fin 8 := 0
  deriving DecidableEq, Repr

/-- What is found altered in the map zone and the flushed journal at power-up (R166), each as bits that differ: journal entries by their
seq, and records by zone copy and target. -/
structure ZoneBad where
  entries : List (BitVec 32 × BitVec 256) := []
  records : List (Bool × BitVec 64 × BitVec 128) := []
  deriving DecidableEq, Repr

/-- A range of DLA named by an extent command or a mailbox command (R57, R170). -/
structure Ext where
  base : BitVec 64
  len : BitVec 64
  deriving DecidableEq, Repr

/-- The answer of a head to a back-invalidate snoop (R125). -/
inductive BiRsp where
  | i | s | e
  deriving DecidableEq, Repr

/-- One of the five event logs of a head (R55). -/
inductive EvLog where
  | info | warning | failure | fatal | dyncap
  deriving DecidableEq, Repr

/-- How a scheduled operation ended, where its owning chapter leaves the ending to what the hardware found: the DDR5
channels, by a bit each, that failed the last check of a frequency change (R287), or a failed bring-up (R536). -/
inductive OpEnd where
  | done | failed (chans : BitVec 8)
  deriving DecidableEq, Repr

/-- A Semund packet as its slots give it (R369): the header fields and the data bytes of its slots 1 and up. -/
structure Packet where
  kind : BitVec 8
  vc : BitVec 3
  poison : Bool := false
  cmpreq : Bool := false
  op : BitVec 8 := 0
  slotsM1 : BitVec 8 := 0
  pasid : BitVec 20 := 0
  tag : BitVec 12 := 0
  addr : BitVec 56 := 0
  lenM1 : BitVec 8 := 0
  data : List Byte := []
  deriving DecidableEq, Repr

/-- How busy a DDR5 rank is when a refresh interval falls due (R273): reads wait, the rank is idle, or neither. -/
inductive RankLoad where
  | busy | idle | other
  deriving DecidableEq, Repr

/-- The kinds of error that ALERT_N of a DDR5 channel reports (R275). -/
inductive DdrErr where
  | caParity | writeCrc
  deriving DecidableEq, Repr

/-- What firmware finds when it trains one DDR5 channel (R266, R267, R288): the DIMMs, whether they obey R266, package
ranks per DIMM, whether they are 3DS, GiB in all, and which set points pass. -/
structure DdrFound where
  ch : Fin 8
  dimms : Fin 3
  allowed : Bool
  ranks : Fin 3
  tds : Bool
  gib : Nat
  fsp0 : Bool
  fsp1 : Bool
  deriving DecidableEq, Repr

/-- What Kiln finds in TRAINING on one package (R292, R295, R296): FORMATTED and the bytes of both root copies. -/
structure PkgFound where
  formatted : Bool
  rootA : List Byte := []
  rootB : List Byte := []
  deriving DecidableEq, Repr

/-- What Kiln finds in TRAINING on one NVM channel (R292, R296, R313): the packages, whether they are of one type, the type in
GiB, the read latency in ns, and the best of the references −2, 0 and +2 for the witness lines of closed blocks, where it is not 0. -/
structure NvmFound where
  ch : Fin 8
  pkgs : List PkgFound
  sameType : Bool
  gib : Nat
  rlNs : Nat
  drift : List (BitVec 20 × Int) := []
  deriving DecidableEq, Repr

/-- Why Kiln writes a page (R309): a drain, or a rewrite whose stored bytes go verbatim (R311, R315, R349), or a rescue
(R306), or a scheduled repack of what a reserve or absorb drain captured. -/
inductive PgWhy where
  | drain | verbatim | rescue
  deriving DecidableEq, Repr

/-- What an ALERT_N pulse of a media package meant (R305): commands lost, by the programs among them and whether a READ
was among them, or a program buffer that failed parity. -/
inductive MediaAlert where
  | commandsLost (reads : Nat) (program : Bool)
  | bufferParity (prog : Nat)
  deriving DecidableEq, Repr

/-- Who writes a doorbell (R401). -/
inductive DbSrc where
  | cxl (h : Fin 4) | link (l : Fin 8) (pasid : BitVec 20) | hopper (ch : Fin 64)
  deriving DecidableEq, Repr

/-- What the sentry samples in one cycle (R525): both feeds in mV, the shunt current in mA, the sense diode in °C, and both
seat pins (`true`: low, seated). -/
structure PwrSample where
  feedA : Nat
  feedB : Nat
  current : Int
  diode : Int
  seatA : Bool
  seatB : Bool
  deriving DecidableEq, Repr

/-- A 1 µs sample of the powered states (R507, R509, R512). -/
structure CurSample where
  current : Int
  vbus : Nat
  vout : Nat
  vgs : Nat
  diode : Int
  deriving DecidableEq, Repr

/-- A reply to a helper command (R290): steps run, the value an MRR read, and eight bytes per lane. -/
structure HelperRun where
  steps : BitVec 16
  value : BitVec 8
  lanes : List (BitVec 64)
  deriving DecidableEq, Repr

/-- The commands and events of the block, in the order of the opcode table. -/
inductive Instr where
  /-- TB_SYNC_FRAME (R12): the frame, the TB_CLK rate over the last 1 µs, and the interval measured since the last
  valid frame when that frame was the one before (R587). -/
  | tbSyncFrame (frame : BitVec 112) (rateKhz : Nat) (intervalKhz : Option Nat)
  /-- FRAME_MISSED (R12). -/
  | frameMissed
  /-- TB_CLK_LOST (R15). -/
  | tbClkLost
  /-- HOLDOVER_EXPIRED (R14). -/
  | holdoverExpired
  /-- SLEW_END (R16). -/
  | slewEnd
  /-- WINDOWS_POST (R23): a record written to windows.post. -/
  | windowsPost (src : Src) (record : BitVec 256)
  /-- TIMELINE_APERTURE_WRITE (R24): bytes written to a timeline aperture at `off`. -/
  | timelineApertureWrite (src : TlSrc) (off : BitVec 12) (data : List Byte)
  /-- CANCEL_WINDOW (R27). -/
  | cancelWindow (src : Src) (tag epoch : BitVec 16)
  /-- WRITE_FENCE (R37) of the pending BURST window `tag`. -/
  | writeFence (tag : BitVec 16)
  /-- PROLOGUE (R37). -/
  | prologue (tag : BitVec 16)
  /-- WINDOW_START (R37). -/
  | windowStart (tag : BitVec 16)
  /-- WINDOW_END (R37). -/
  | windowEnd (tag : BitVec 16)
  /-- BARRIER_RETIRE (R29). -/
  | barrierRetire (tag : BitVec 16)
  /-- SCHEDULED_OP_START (R38). -/
  | scheduledOpStart
  /-- SCHEDULED_OP_END (R38). -/
  | scheduledOpEnd (result : OpEnd)
  /-- DEBT_MAX_REACHED (R44): class `k` stands at `level` and accrues `accrual` (R41). -/
  | debtMaxReached (k : Fin 5) (level accrual : Nat)
  /-- DEBT_OVERRUN (R45). -/
  | debtOverrun (k : Fin 5) (level accrual : Nat)
  /-- ABSORB_SPACE_FREED (R48). -/
  | absorbSpaceFreed
  /-- COUNTER_SNAPSHOT_DUE (R562). -/
  | counterSnapshotDue
  /-- DUMP_WRITE_OUT (R39). -/
  | dumpWriteOut
  /-- HEAD_TRAINED (R52): lanes, rate in GT/s, flit mode code, and whether CXL was negotiated. -/
  | headTrained (h : Fin 4) (width rate : Nat) (flit : Fin 4) (cxl : Bool)
  /-- HEAD_LINK_DOWN (R76). -/
  | headLinkDown (h : Fin 4)
  /-- HEAD_LOST (R77). -/
  | headLost (h : Fin 4)
  /-- HEAD_LINK_UP (R77). -/
  | headLinkUp (h : Fin 4)
  /-- MEM_READ (R61). -/
  | memRead (h : Fin 4) (tag : BitVec 16) (dla : BitVec 46) (mv : Meta) (obs : Obs)
  /-- MEM_WRITE (R61): `whole` says that the data was received whole, with its CRC and MAC (R77). -/
  | memWrite (h : Fin 4) (tag : BitVec 16) (dla : BitVec 46) (mv : Meta) (mask : BitVec 64) (data : Line)
      (poison whole : Bool) (obs : Obs)
  /-- MEM_CLEAN_EVICT (R125). -/
  | memCleanEvict (h : Fin 4) (tag : BitVec 16) (dla : BitVec 46)
  /-- BI_SNOOP_RESPONSE (R125). -/
  | biSnoopResponse (h : Fin 4) (dla : BitVec 46) (rsp : BiRsp)
  /-- BI_CONFLICT (R135). -/
  | biConflict (h : Fin 4) (dla : BitVec 46)
  /-- HDM_DECODER_COMMIT (R60), with the back-invalidate enable of the CXL 3.1 BI registers (R119). -/
  | hdmDecoderCommit (h : Fin 4) (dec : Fin 8) (base len : BitVec 64) (ways : Nat) (bi : Bool)
  /-- OFFER_TIMEOUT (R57). -/
  | offerTimeout (ext : Ext)
  /-- GET_EVENT_RECORDS (R66). -/
  | getEventRecords (h : Fin 4) (log : EvLog)
  /-- CLEAR_EVENT_RECORDS (R66): clears the `n` oldest records of the log. -/
  | clearEventRecords (h : Fin 4) (log : EvLog) (n : Nat)
  /-- GET_EVENT_INTERRUPT_POLICY (R66). -/
  | getEventInterruptPolicy (h : Fin 4)
  /-- SET_EVENT_INTERRUPT_POLICY (R66): one bit per event log, in the order of R55. -/
  | setEventInterruptPolicy (h : Fin 4) (policy : BitVec 5)
  /-- GET_FW_INFO (R66). -/
  | getFwInfo (h : Fin 4)
  /-- TRANSFER_FW (R485): a whole image, its header's seq, length and version, and whether its signature verifies. -/
  | transferFw (h : Fin 4) (seq length : BitVec 32) (version : BitVec 256) (sigOk : Bool)
  /-- ACTIVATE_FW (R485). -/
  | activateFw (h : Fin 4)
  /-- GET_TIMESTAMP (R66). -/
  | getTimestamp (h : Fin 4)
  /-- SET_TIMESTAMP (R66). -/
  | setTimestamp (h : Fin 4) (t : BitVec 64)
  /-- GET_SUPPORTED_LOGS (R66). -/
  | getSupportedLogs (h : Fin 4)
  /-- GET_LOG (R66). -/
  | getLog (h : Fin 4) (offset length : BitVec 32)
  /-- IDENTIFY_MEMORY_DEVICE (R53). -/
  | identifyMemoryDevice (h : Fin 4)
  /-- GET_HEALTH_INFO (R66). -/
  | getHealthInfo (h : Fin 4)
  /-- GET_POISON_LIST (R66). -/
  | getPoisonList (h : Fin 4) (range : Ext)
  /-- INJECT_POISON (R66). -/
  | injectPoison (h : Fin 4) (dla : BitVec 46)
  /-- CLEAR_POISON (R66): the line takes the data the command carries. -/
  | clearPoison (h : Fin 4) (dla : BitVec 46) (data : Line)
  /-- GET_DC_CONFIGURATION (R66). -/
  | getDcConfiguration (h : Fin 4)
  /-- GET_DC_EXTENT_LIST (R66). -/
  | getDcExtentList (h : Fin 4)
  /-- ADD_DC_RESPONSE (R57). -/
  | addDcResponse (h : Fin 4) (exts : List Ext)
  /-- RELEASE_DC (R58). -/
  | releaseDc (h : Fin 4) (exts : List Ext)
  /-- UNSUPPORTED_OPCODE (R66). -/
  | unsupportedOpcode (h : Fin 4) (opcode : BitVec 16)
  /-- DICTIONARY_READ (R68): the command's input bytes. -/
  | dictionaryRead (h : Fin 4) (input : List Byte)
  /-- DICTIONARY_WRITE (R69). -/
  | dictionaryWrite (h : Fin 4) (input : List Byte)
  /-- POST_WINDOW (R71). -/
  | postWindow (h : Fin 4) (input : List Byte)
  /-- POST_WINDOW_BATCH (R71). -/
  | postWindowBatch (h : Fin 4) (input : List Byte)
  /-- GET_FAILOVER_RECORD (R78). -/
  | getFailoverRecord (h : Fin 4) (input : List Byte)
  /-- IDE_KEY_PROGRAM (R53, R72). -/
  | ideKeyProgram (h : Fin 4) (stream : IdeStream)
  /-- IDE_INTEGRITY_FAILURE (R228). -/
  | ideIntegrityFailure (h : Fin 4) (stream : Fin 4)
  /-- PERST_ASSERT (R539) on port A (0) or B (1). -/
  | perstAssert (port : Fin 2)
  /-- HEAD_HOT_RESET (R539): a hot reset, or an FLR when `flr`. -/
  | headHotReset (h : Fin 4) (flr : Bool)
  /-- GPF_PHASE1 (R330). -/
  | gpfPhase1
  /-- GPF_PHASE2 (R330). -/
  | gpfPhase2
  /-- CASK_CREATE (R99). -/
  | caskCreate (src : Src) (c : Fin 1024)
  /-- CASK_QUIESCE (R100). -/
  | caskQuiesce (src : Src) (c : Fin 1024)
  /-- CASK_QUIESCED (R100). -/
  | caskQuiesced (c : Fin 1024)
  /-- CASK_QUIESCE_TIMEOUT (R100). -/
  | caskQuiesceTimeout (c : Fin 1024)
  /-- CASK_RESUME (R99). -/
  | caskResume (src : Src) (c : Fin 1024)
  /-- CASK_RESET (R101). -/
  | caskReset (src : Src) (c : Fin 1024)
  /-- CASK_RESET_COMPLETE (R101). -/
  | caskResetComplete (c : Fin 1024)
  /-- CASK_REMOVE (R102). -/
  | caskRemove (src : Src) (c : Fin 1024)
  /-- CASK_ABORT_QUIESCE (R99). -/
  | caskAbortQuiesce (src : Src) (c : Fin 1024)
  /-- CASK_LOG_CLEAR_OVERFLOW (R99). -/
  | caskLogClearOverflow (src : Src) (c : Fin 1024)
  /-- CASK_PASID_WRITE (R94). -/
  | caskPasidWrite (src : Src) (c : Fin 1024) (v : BitVec 32)
  /-- LOG_ENABLE_WRITE (R107). -/
  | logEnableWrite (src : Src) (c : Fin 1024) (v : BitVec 8)
  /-- ACCESS_EDIT (R116). -/
  | accessEdit (src : Src) (v : BitVec 32)
  /-- ACCESS_TABLE_WRITE (R116): the table of target `target` (R109). -/
  | accessTableWrite (src : Src) (target : BitVec 16) (table : BitVec 1024)
  /-- DISCARD_PAGE (R93). -/
  | discardPage (src : Src) (dla : BitVec 64)
  /-- DEFERRED_DISCARD (R93) of page number `page`. -/
  | deferredDiscard (page : BitVec 34)
  /-- MAP_RECORD_REPAIR (R88): the record of `page` is repaired, or lost when no copy passes. -/
  | mapRecordRepair (page : BitVec 34) (found : Bool)
  /-- CASK_DOMAIN_WRITE (R117): byte `c` of coh.cask_domain. -/
  | caskDomainWrite (src : Src) (c : Fin 1024) (d : BitVec 8)
  /-- DOMAIN_FORM (R142). -/
  | domainForm (src : Src) (d : Fin 64)
  /-- DOMAIN_REFORM (R143). -/
  | domainReform (src : Src) (d : Fin 64)
  /-- DOMAIN_RECALL (R143). -/
  | domainRecall (src : Src) (d : Fin 64)
  /-- DOMAIN_DISBAND (R142). -/
  | domainDisband (src : Src) (d : Fin 64)
  /-- RECALL_COMPLETE (R143). -/
  | recallComplete (d : Fin 64)
  /-- CRD_S (R129): `retry` says that the request came on the retry credit (R137), here and below. -/
  | crdS (l : Fin 8) (retry : Bool) (p : Packet) (obs : Obs)
  /-- CRD_E (R129). -/
  | crdE (l : Fin 8) (retry : Bool) (p : Packet) (obs : Obs)
  /-- CRD_CUR (R129). -/
  | crdCur (l : Fin 8) (retry : Bool) (p : Packet) (obs : Obs)
  /-- CWB (R132). -/
  | cwb (l : Fin 8) (p : Packet) (obs : Obs)
  /-- CEV (R124). -/
  | cev (l : Fin 8) (p : Packet)
  /-- CWR (R129): the first of the 16 data bytes of slot 1 are the mask, and slots 2 to 5 the line (R370). -/
  | cwr (l : Fin 8) (retry : Bool) (p : Packet) (obs : Obs)
  /-- CREL (R137). -/
  | crel (l : Fin 8) (p : Packet)
  /-- SRSP_I (R124). -/
  | srspI (l : Fin 8) (p : Packet) (obs : Obs)
  /-- SRSP_S (R124). -/
  | srspS (l : Fin 8) (p : Packet) (obs : Obs)
  /-- SRSP_I_D (R124). -/
  | srspID (l : Fin 8) (p : Packet) (obs : Obs)
  /-- SRSP_S_D (R124). -/
  | srspSD (l : Fin 8) (p : Packet) (obs : Obs)
  /-- SRSP_CUR_D (R124). -/
  | srspCurD (l : Fin 8) (p : Packet) (obs : Obs)
  /-- SNOOP_DEADLINE_MISS (R140): agent `a` missed the deadline of its snoop of the line at `dla`. -/
  | snoopDeadlineMiss (a : Fin 16) (dla : BitVec 46)
  /-- PULL_DEADLINE_MISS (R140). -/
  | pullDeadlineMiss (l : Fin 8)
  /-- HEAT_DECAY_PASS (R150). -/
  | heatDecayPass
  /-- FREE_SPACE_LOW (R148) on tier code 1 to 3. -/
  | freeSpaceLow (tier : Fin 4)
  /-- MIGRATION_START (R152): a page moves to a place on tier `tier`, through slot `slot`. -/
  | migrationStart (slot : Fin 32) (page : BitVec 34) (tier : Fin 4) (dst : PagePlace)
  /-- COPY_PASS_END (R152). -/
  | copyPassEnd (slot : SlotReads)
  /-- SWING (R152). -/
  | swing (slot : SlotReads)
  /-- SOURCE_RELEASE (R152). -/
  | sourceRelease (slot : Fin 32)
  /-- JOURNAL_SPACE_FREED (R165). -/
  | journalSpaceFreed
  /-- JOURNAL_DRAIN (R164): `n` entries leave the buffer; a CHECKPOINT follows when `checkpoint`. -/
  | journalDrain (n : Nat) (checkpoint : Bool)
  /-- MAP_REBUILD (R166): the number of journal entries found bad. -/
  | mapRebuild (bad : ZoneBad)
  /-- MAP_RESIDENT_WRITE (R147). -/
  | mapResidentWrite (src : Src) (r : Fin 8) (v : BitVec 8)
  /-- MAP_RESIDENT_EFFECT (R147). -/
  | mapResidentEffect (r : Fin 8)
  /-- MIRROR_WAIT_EXPIRY (R262). -/
  | mirrorWaitExpiry (page : BitVec 34)
  /-- CHAN_ONLINE (R167). -/
  | chanOnline (src : Src) (n : Fin 16)
  /-- CHAN_EVACUATE (R168). -/
  | chanEvacuate (src : Src) (n : Fin 16)
  /-- EVACUATION_COMPLETE (R168). -/
  | evacuationComplete (n : Fin 16)
  /-- CHAN_OFFLINE (R167). -/
  | chanOffline (src : Src) (n : Fin 16)
  /-- CHAN_CANCEL_EVACUATE (R167). -/
  | chanCancelEvacuate (src : Src) (n : Fin 16)
  /-- RETIRE (R169). -/
  | retire (src : Src) (v : BitVec 64)
  /-- RETIRE_COMPLETE (R169): done, or blocked. -/
  | retireComplete (blocked : Bool)
  /-- EXTENT_OFFER (R171). -/
  | extentOffer (src : Src) (region : Fin 8) (cask : Fin 1024) (group : Fin 4) (ext : Ext)
  /-- EXTENT_WITHDRAW (R172). -/
  | extentWithdraw (src : Src) (region : Fin 8) (ext : Ext)
  /-- EXTENT_REQUEST_RELEASE (R173). -/
  | extentRequestRelease (src : Src) (region : Fin 8) (ext : Ext)
  /-- EXTENT_FORCE_RELEASE (R173). -/
  | extentForceRelease (src : Src) (region : Fin 8) (ext : Ext)
  /-- BLOCK_STORAGE_FREE (R174): the 2 MiB block `blk`'s extent block. -/
  | blockStorageFree (blk : BitVec 25)
  /-- EXPANSION_COMPLETE (R193). -/
  | expansionComplete (page : PageReads)
  /-- REPACK_START (R195): `loc` is the place that Kiln gives a page of the non-volatile tier. -/
  | repackStart (slot : Fin 32) (page : BitVec 34) (loc : BitVec 35)
  /-- SPACE_AVAILABLE (R199). -/
  | spaceAvailable (page : BitVec 34)
  /-- SPACE_WAIT_EXPIRY (R199). -/
  | spaceWaitExpiry (page : BitVec 34)
  /-- CASK_KEY_BLOB_LOAD (R218). -/
  | caskKeyBlobLoad (src : Src) (c : Fin 1024) (blob : BitVec 1472)
  /-- ZEROISE (R222). -/
  | zeroise (src : Src) (c : Fin 1024)
  /-- ERASE_WALK_END (R222). -/
  | eraseWalkEnd (c : Fin 1024)
  /-- ZEROISE_ALL (R224). -/
  | zeroiseAll (src : Src) (v : BitVec 32)
  /-- KEY_REBUILD (R220): whether the blob store copy, and then the Seedbank copy, unwraps. -/
  | keyRebuild (key : VaultKey) (blobOk seedbankOk : Bool)
  /-- OWNER_ROOT_PROGRAM (R215). -/
  | ownerRootProgram (src : Src) (root : BitVec 256)
  /-- DEBUG_CLOSE (R226). -/
  | debugClose (src : Src) (v : BitVec 32)
  /-- LINK_SLOT_BLOB_LOAD (R231). -/
  | linkSlotBlobLoad (src : Src) (l : Fin 8) (slot : Fin 2) (blob : BitVec 1472)
  /-- SWITCH (R231). -/
  | switchKey (src : Src) (l : Fin 8) (v : BitVec 8)
  /-- CACHE_FLUSH (R252). -/
  | cacheFlush (src : Src) (v : BitVec 8)
  /-- CLEANER_WRITEBACK (R244). -/
  | cleanerWriteback (dla : BitVec 46)
  /-- SCRATCH_CLEAR (R255). -/
  | scratchClear (src : Src) (u : BitVec 8)
  /-- SCRATCH_WAYS_WRITE (R256). -/
  | scratchWaysWrite (src : Src) (n : BitVec 8)
  /-- WAY_ELIGIBLE (R242): in the set of the line at `dla`. -/
  | wayEligible (dla : BitVec 46)
  /-- STREAM_PREFETCH (R248): a prefetch read of the line at `dla` for `master`, killed when `killed` (R249). -/
  | streamPrefetch (master : BitVec 8) (dla : BitVec 46) (killed : Bool) (obs : Obs)
  /-- HBM_REFRESH (R259) of a pseudo-channel. -/
  | hbmRefresh (pc : Fin 16)
  /-- DDR_REFRESH (R272). -/
  | ddrRefresh (ch : Fin 8) (load : RankLoad)
  /-- DIMM_TEMP_POLL (R272): the hottest sensor of the channel's DIMMs. -/
  | dimmTempPoll (ch : Fin 8) (temp : BitVec 8)
  /-- HBM_TEMP_CHANGE (R265). -/
  | hbmTempChange (temp : BitVec 8)
  /-- DDR_ALERT (R275): how many retries the error took, and whether the last cleared it. -/
  | ddrAlert (ch : Fin 8) (err : DdrErr) (retries : Nat) (cleared : Bool)
  /-- FREEZE_LIMIT_EXPIRY (R283). -/
  | freezeLimitExpiry (ch : Fin 8)
  /-- DDR_RELEASE (R284). -/
  | ddrRelease (src : Src) (ch : Fin 8)
  /-- DDR_RETRAIN_RELEASE (R284). -/
  | ddrRetrainRelease (src : Src) (ch : Fin 8) (passed : Bool)
  /-- DDR_DECLARE_LOST (R284). -/
  | ddrDeclareLost (src : Src) (ch : Fin 8)
  /-- RESILVER (R280) of one stale granule. -/
  | resilver (ch : Fin 8) (granule : Nat)
  /-- DDR_FREQ_REQUEST (R287). -/
  | ddrFreqRequest (src : Src) (v : BitVec 16)
  /-- HELPER_WRITE_PATTERN (R289): bytes 1 to 31 of the command, here and below. -/
  | helperWritePattern (src : Src) (args : BitVec 248)
  /-- HELPER_READ_COMPARE (R289). -/
  | helperReadCompare (src : Src) (args : BitVec 248)
  /-- HELPER_SWEEP (R289). -/
  | helperSweep (src : Src) (args : BitVec 248)
  /-- HELPER_SET_DELAY (R289). -/
  | helperSetDelay (src : Src) (args : BitVec 248)
  /-- HELPER_MRW (R289). -/
  | helperMrw (src : Src) (args : BitVec 248)
  /-- HELPER_MRR (R289). -/
  | helperMrr (src : Src) (args : BitVec 248)
  /-- HELPER_COMPLETE (R290). -/
  | helperComplete (run : HelperRun)
  /-- PERSIST_RESERVE_WRITE (R264). -/
  | persistReserveWrite (src : Src) (v : BitVec 32)
  /-- PAGE_WRITE (R309): program `prog` writes page `page` to location `loc` of NVM channel `ch`. -/
  | pageWrite (prog : Fin 64) (page : BitVec 34) (why : PgWhy) (ch : Fin 8) (loc : BitVec 35) (obs : List (Fin 64 × Obs))
  /-- PROGRAM_COMPLETE (R309): STATUS shows the program done, or failed (R307). -/
  | programComplete (prog : Fin 64) (verified : ProgEnd)
  /-- MEDIA_ALERT (R305). -/
  | mediaAlert (ch : Fin 8) (what : MediaAlert)
  /-- PROGRAM_SUSPEND (R318). -/
  | programSuspend (prog : Fin 64)
  /-- PROGRAM_RESUME (R318). -/
  | programResume (prog : Fin 64)
  /-- PROGRAM_ABORT (R320): the page is programmed again at `loc`. -/
  | programAbort (prog : Fin 64) (loc : BitVec 35)
  /-- MEDIA_RESCUE (R306) of the line at `dla`: a re-read decoded, or not. -/
  | mediaRescue (dla : BitVec 46) (decoded : Bool)
  /-- WITNESS_SWEEP (R314): the ref of −4 to +4 that corrects the fewest symbols. -/
  | witnessSweep (ch : Fin 8) (block : BitVec 20) (best : Int)
  /-- REKILN (R315): a block's age in hours. -/
  | rekiln (ch : Fin 8) (block : BitVec 20) (age : Nat)
  /-- RETENTION_EXCEEDED (R315). -/
  | retentionExceeded (ch : Fin 8) (block : BitVec 20) (age : Nat)
  /-- RECLAIM (R311). -/
  | reclaim (ch : Fin 8) (block : BitVec 20)
  /-- BLOCK_CLOSE (R308): the hours the block has been open. -/
  | blockClose (ch : Fin 8) (block : BitVec 20) (openHours : Nat)
  /-- KILN_FORMAT (R333). -/
  | kilnFormat (src : Src) (ch : Fin 8)
  /-- PERSIST_FLUSH_END (R327). -/
  | persistFlushEnd
  /-- SCRUB_WRITE (R350) of the line at `dla`. -/
  | scrubWrite (dla : BitVec 46)
  /-- PATROL_READ (R349) of the line at `dla`. -/
  | patrolRead (dla : BitVec 46) (res : CodeRes)
  /-- PATROL_OVERDUE (R352) of tier 1 to 3. -/
  | patrolOverdue (tier : Fin 4)
  /-- POOL_ZERO (R353) of `n` pages of tier 1 (HBM) or 2 (DDR5). -/
  | poolZero (pool : PoolShare) (n : Nat)
  /-- COUNT_HALVING (R354). -/
  | countHalving
  /-- RETLOG_PERSIST (R358). -/
  | retlogPersist
  /-- TS_BLOCK (R362): a TS1 or TS2 ordered set of 16 bytes. -/
  | tsBlock (l : Fin 8) (block : BitVec 128)
  /-- TRAINING_STEP_TIMEOUT (R363). -/
  | trainingStepTimeout (l : Fin 8)
  /-- DATA_FLIT (R374): the 256 bytes of a flit. -/
  | dataFlit (l : Fin 8) (flit : BitVec 2048)
  /-- CONTROL_FLIT (R368): the 256 bytes of a flit. -/
  | controlFlit (l : Fin 8) (flit : BitVec 2048)
  /-- NAK (R375). -/
  | nak (l : Fin 8) (n : BitVec 12)
  /-- CREDIT (R379): four 16-bit limits of a VC group, lowest VC first. -/
  | credit (l : Fin 8) (group : Bool) (limits : BitVec 64)
  /-- CREDIT_RD (R380): the read credit limit the leader raises to. -/
  | creditRd (l : Fin 8) (limit : BitVec 16)
  /-- CREDIT_WB (R379): the writeback limit the leader raises to. -/
  | creditWb (l : Fin 8) (limit : BitVec 16)
  /-- CHANGE_REQ (R383). -/
  | changeReq (l : Fin 8) (id width speed reason : BitVec 8)
  /-- CHANGE_ACK (R382). -/
  | changeAck (l : Fin 8) (id : BitVec 8)
  /-- CHANGE_DEFER (R368). -/
  | changeDefer (l : Fin 8) (id : BitVec 8)
  /-- CHANGE_REFUSE (R385). -/
  | changeRefuse (l : Fin 8) (id : BitVec 8)
  /-- CHANGE_GO (R382). -/
  | changeGo (l : Fin 8) (id : BitVec 8) (seq : BitVec 12)
  /-- DOWN_RECORD (R389). -/
  | downRecord (l : Fin 8) (cause : BitVec 8)
  /-- CHANGE_REQ_TIMEOUT (R382). -/
  | changeReqTimeout (l : Fin 8)
  /-- CHANGE_TIMEOUT (R385). -/
  | changeTimeout (l : Fin 8)
  /-- CHANGE_COMPLETE (R382): the width and speed that work. -/
  | changeComplete (l : Fin 8) (width speed : BitVec 8)
  /-- REPLAY_TIMEOUT (R376): `parity` says that a held flit fails its parity as it is resent (R377). -/
  | replayTimeout (l : Fin 8) (parity : Bool)
  /-- LOSS_OF_SIGNAL (R389). -/
  | lossOfSignal (l : Fin 8)
  /-- AUTO_RETRAIN (R391). -/
  | autoRetrain (l : Fin 8)
  /-- CREDIT_REFRESH (R379). -/
  | creditRefresh (l : Fin 8)
  /-- UP (R391). -/
  | up (src : Src) (l : Fin 8)
  /-- DOWN (R389). -/
  | down (src : Src) (l : Fin 8)
  /-- CHANGE (R386). -/
  | change (src : Src) (l : Fin 8)
  /-- RD (R370). -/
  | rd (l : Fin 8) (p : Packet) (obs : Obs)
  /-- WR (R370). -/
  | wr (l : Fin 8) (p : Packet) (obs : Obs)
  /-- WRC (R421). -/
  | wrc (l : Fin 8) (p : Packet)
  /-- APPEND (R444). -/
  | append (l : Fin 8) (p : Packet) (obs : Obs)
  /-- FOLD (R433). -/
  | fold (l : Fin 8) (p : Packet)
  /-- FENCE (R373). -/
  | fence (l : Fin 8) (p : Packet)
  /-- EVT (R393). -/
  | evt (l : Fin 8) (p : Packet)
  /-- TBE (R394). -/
  | tbe (l : Fin 8) (p : Packet)
  /-- LOAD (R400). -/
  | load (src : Src) (q : Fin 1048576)
  /-- DISABLE (R400). -/
  | disable (src : Src) (q : Fin 1048576)
  /-- WRITEBACK (R400). -/
  | writeback (src : Src) (q : Fin 1048576)
  /-- DOORBELL_WRITE (R402): bytes written at `off` of the doorbell of queue `q`. -/
  | doorbellWrite (src : DbSrc) (q : Fin 1048576) (off : BitVec 5) (data : List Byte)
  /-- STATE_WAIT_RELEASE (R403): the queue whose cached state became idle. -/
  | stateWaitRelease (q : Fin 1048576)
  /-- START (R408). -/
  | start (src : Src) (ch : Fin 64)
  /-- STOP (R408). -/
  | stop (src : Src) (ch : Fin 64)
  /-- CHANNEL_STOPPED (R408). -/
  | channelStopped (ch : Fin 64)
  /-- RESUME (R408). -/
  | resume (src : Src) (ch : Fin 64)
  /-- SKIP (R424). -/
  | skip (src : Src) (ch : Fin 64)
  /-- CLEAR (R408). -/
  | clear (src : Src) (ch : Fin 64)
  /-- DESCRIPTOR_FETCH (R415). -/
  | descriptorFetch (ch : Fin 64) (obs : Obs)
  /-- BURST_ISSUE (R417): a burst of `n` elements. -/
  | burstIssue (ch : Fin 64) (n : Nat) (obs : Obs)
  /-- BURST_DURABLE (R421): the burst numbered `b`. -/
  | burstDurable (ch : Fin 64) (b : Nat)
  /-- EVENT_PULSE (R425). -/
  | eventPulse (src : Src) (line : BitVec 8)
  /-- EVT_IN_EDGE (R426). -/
  | evtInEdge (pin : Fin 8)
  /-- EVT_OUT_END (R428). -/
  | evtOutEnd (pin : Fin 8)
  /-- FOLD_ALIAS_WRITE (R437). -/
  | foldAliasWrite (h : Fin 4) (tag : BitVec 16) (dla : BitVec 46) (mask : BitVec 64) (data : Line) (poison : Bool)
  /-- FOLD_ALIAS_READ (R437). -/
  | foldAliasRead (h : Fin 4) (tag : BitVec 16) (dla : BitVec 46) (obs : Obs)
  /-- FOLD_FENCE (R438): a write, or a read, of an alias with op 0xF. -/
  | foldFence (h : Fin 4) (tag : BitVec 16) (dla : BitVec 46) (read : Bool)
  /-- FOLD_FENCE_DONE (R438): the oldest fence of head `h`. -/
  | foldFenceDone (h : Fin 4) (obs : Obs)
  /-- LINE_FOLD (R439): the line fold at place `n` of the fold queue. -/
  | lineFold (n : Nat) (obs : Obs)
  /-- APPEND_WAIT_EXPIRY (R446): the oldest waiting APPEND of the link. -/
  | appendWaitExpiry (l : Fin 8)
  /-- APPEND_ROOM (R446). -/
  | appendRoom (l : Fin 8) (obs : Obs)
  /-- WINDOW_CMD_READ (R463). -/
  | windowCmdRead (h : Fin 4) (idx : BitVec 16) (sub : BitVec 8) (offset length : BitVec 32)
  /-- WINDOW_CMD_WRITE (R463). -/
  | windowCmdWrite (h : Fin 4) (idx : BitVec 16) (sub : BitVec 8) (offset length : BitVec 32) (buffer : List Byte)
  /-- WINDOW_CMD_WRITE_FINAL (R463). -/
  | windowCmdWriteFinal (h : Fin 4) (idx : BitVec 16) (sub : BitVec 8) (offset length : BitVec 32) (buffer : List Byte)
  /-- PIECE_TIMEOUT (R456) of the sequence on the object. -/
  | pieceTimeout (idx : BitVec 16) (sub : BitVec 8)
  /-- REQ_READ (R469): a REQ frame to node `node`, the toggle bit and the bytes after byte 0, here and below. -/
  | reqRead (node : BitVec 7) (t : Bool) (rest : List Byte)
  /-- REQ_WRITE (R469). -/
  | reqWrite (node : BitVec 7) (t : Bool) (rest : List Byte)
  /-- WRITE_INIT (R471). -/
  | writeInit (node : BitVec 7) (t : Bool) (rest : List Byte)
  /-- WRITE_SEG (R471). -/
  | writeSeg (node : BitVec 7) (t : Bool) (rest : List Byte)
  /-- READ_SEG (R470). -/
  | readSeg (node : BitVec 7) (t : Bool) (rest : List Byte)
  /-- REQ_ABORT (R468). -/
  | reqAbort (node : BitVec 7) (t : Bool) (rest : List Byte)
  /-- REQ_RESERVED (R468): a reserved code. -/
  | reqReserved (node : BitVec 7) (cmd : BitVec 6) (t : Bool) (rest : List Byte)
  /-- TRANSFER_TIMEOUT (R472). -/
  | transferTimeout
  /-- HEARTBEAT_REQUEST (R476): a CONTROL frame's bytes after byte 0, here and below. -/
  | heartbeatRequest (node : BitVec 7) (rest : List Byte)
  /-- ALARM_RESEND (R476). -/
  | alarmResend (node : BitVec 7) (rest : List Byte)
  /-- HEARTBEAT_TIMER (R474). -/
  | heartbeatTimer
  /-- OFFER (R478): a CHAIN frame's bytes after byte 0. -/
  | offer (node : BitVec 7) (rest : List Byte)
  /-- CHAIN_IN_ASSERT (R478): the time in µs that CHAIN_IN_N has been asserted without a break; none: it is deasserted. -/
  | chainInAssert (us : Option Nat)
  /-- ADDRESS_CONFLICT (R479): a RSP, HEARTBEAT, ALARM or CLAIM frame with the node address `node`. -/
  | addressConflict (node : BitVec 7)
  /-- BUS_OFF (R473). -/
  | busOff
  /-- BUS_RECOVERY (R473). -/
  | busRecovery
  /-- RESTORE_DEFAULTS (R481). -/
  | restoreDefaults (src : Src) (v : BitVec 32)
  /-- OBJECT_WRITE (R460). -/
  | objectWrite (src : Src) (idx : BitVec 16) (sub : BitVec 8) (value : List Byte)
  /-- SEEDBANK_APPEND (R489): a record of kind 1 to 4 for a key; `verified` says that step 2 verified. -/
  | seedbankAppend (kind : Fin 5) (key : BitVec 32) (payload : List Byte) (verified : Bool)
  /-- COMPACTION (R493). -/
  | compaction
  /-- PROTECT_SET (R494). -/
  | protectSet (src : Src) (v : BitVec 8)
  /-- RECALL_END (R492): the scan's ms, whether the die answered, the bits of the record area that read otherwise than programmed (a
  sector, an offset and a mask each), which images verify (R485), and whether the entropy source passed its start-up tests (R203). -/
  | recallEnd (ms : Nat) (dieOk : Bool) (flips : List (Nat × Nat × Byte)) (imageA imageB entropyOk : Bool)
  /-- SENTRY_POWER_ON_RESET (R523). -/
  | sentryPowerOnReset
  /-- SENTRY_WAKE (R525). -/
  | sentryWake (smp : PwrSample)
  /-- SEAT_PIN_EDGE (R503): both seat pins after the edge (`true`: seated). -/
  | seatPinEdge (seatA seatB : Bool)
  /-- SEAT_TIMER_EXPIRY (R503). -/
  | seatTimerExpiry
  /-- PRECHECK_END (R504): how far VOUT rose in mV, the current in mA and the sense diode in °C. -/
  | precheckEnd (rise current diode : Int)
  /-- COOLDOWN_MET (R516). -/
  | cooldownMet
  /-- RAMP_END (R505): VOUT and V_BUS in mV. -/
  | rampEnd (vout vbus : Nat)
  /-- RAMP_TIMEOUT (R505): VOUT. -/
  | rampTimeout (vout : Nat)
  /-- ENHANCE_DONE (R506): V_GS in mV. -/
  | enhanceDone (vgs : Nat)
  /-- ENHANCE_TIMEOUT (R506). -/
  | enhanceTimeout
  /-- GATE_LOW_IN_ON (R506). -/
  | gateLowInOn
  /-- CURRENT_SAMPLE (R509). -/
  | currentSample (smp : CurSample)
  /-- CURVE_TRIP (R509) of point `k` + 1. -/
  | curveTrip (k : Fin 8)
  /-- INSTANT_TRIP (R510): the current in mA. -/
  | instantTrip (current : Int)
  /-- OVER_TEMP_TRIP (R511). -/
  | overTempTrip
  /-- BROWNOUT (R514): VOUT in mV over the last 100 µs, at most. -/
  | brownout (vout : Nat)
  /-- RETRY_CLEAR (R515): the seconds PG_OUT has stayed high. -/
  | retryClear (secs : Nat)
  /-- UNSEAT (R517). -/
  | unseat
  /-- FEED_INVALID (R501): feed A (0) or B (1) and its voltage in mV. -/
  | feedInvalid (f : Fin 2) (mv : Nat)
  /-- FEED_VALID (R499). -/
  | feedValid (f : Fin 2) (mv : Nat)
  /-- COMMANDED_TRIP (R518). -/
  | commandedTrip (src : Src) (v : BitVec 8)
  /-- CHIP_POWER_ON (R539): the strap pins' values, and the straps whose samples disagree (bit 7 is BUILD) (R570). -/
  | chipPowerOn (slot : BitVec 7) (build : Bool) (unstable : BitVec 8)
  /-- RAIL_LOSS (R574). -/
  | railLoss
  /-- TRAIN (R527). -/
  | train (src : Src)
  /-- TRAINING_END (R527): what training found on each populated channel. -/
  | trainingEnd (ddr : List DdrFound) (nvm : List NvmFound)
  /-- TRAIN_LIMIT_EXPIRY (R527): what the channels that did finish found. -/
  | trainLimitExpiry (ddr : List DdrFound) (nvm : List NvmFound)
  /-- CONFIGURE (R527). -/
  | configure (src : Src)
  /-- DRAIN (R530). -/
  | drain (src : Src)
  /-- DRAIN_STEP_COMPLETE (R530). -/
  | drainStepComplete
  /-- RESUME_MODE (R527). -/
  | resumeMode (src : Src)
  /-- UPDATE (R532). -/
  | update (src : Src)
  /-- EXIT_UPDATE (R527). -/
  | exitUpdate (src : Src)
  /-- CHIP_RESET (R539): whether its drain flush finished in time. -/
  | chipReset (src : Src) (flushed : Bool)
  /-- DOMAIN_OFF (R535). -/
  | domainOff (src : Src) (n : Fin 31)
  /-- DOMAIN_RETENTION (R535). -/
  | domainRetention (src : Src) (n : Fin 31)
  /-- DOMAIN_ON (R535). -/
  | domainOn (src : Src) (n : Fin 31)
  /-- DOMAIN_CHANGE_END (R536): what a bring-up found (R288, R296). -/
  | domainChangeEnd (n : Fin 31) (ddr : List DdrFound) (nvm : List NvmFound)
  /-- PAD_RELEASE (R538). -/
  | padRelease (src : Src) (v : BitVec 8)
  /-- FAULT_CLEAR (R547). -/
  | faultClear (src : Src) (v : BitVec 16)
  /-- FAULT_EDIT (R544). -/
  | faultEdit (src : Src) (v : BitVec 16)
  /-- FAULT_INTEGRITY_SCAN (R550): whether every word agrees with its complement. -/
  | faultIntegrityScan (ok : Bool)
  /-- LOCKSTEP_MISMATCH (R551). -/
  | lockstepMismatch
  /-- DUMP_NOW (R562). -/
  | dumpNow (src : Src) (v : BitVec 8)
  /-- DUMP_RECORDS_WRITE (R562). -/
  | dumpRecordsWrite (src : Src) (v : BitVec 16)
  /-- DUMP_SCHEDULE_WRITE (R562): dump_start_tc, or dump_period_tc when `period`. -/
  | dumpScheduleWrite (src : Src) (period : Bool) (v : BitVec 64)
  /-- FILTER_WRITE (R557): a filter, filter_select or counter_marks object. -/
  | filterWrite (src : Src) (idx : BitVec 16) (sub : BitVec 8) (value : List Byte)
  /-- TAP_RESET (R584). -/
  | tapReset
  /-- EXTEST (R584). -/
  | extest
  /-- IDCODE (R584). -/
  | idcode
  /-- SAMPLE (R584): the pins' values, in the order of the boundary register. -/
  | sample (pins : List Bool)
  /-- PRELOAD (R584): the cells shifted in. -/
  | preload (cells : List Bool)
  /-- CLAMP (R584). -/
  | clamp
  /-- HIGHZ (R584). -/
  | highz
  /-- BYPASS (R584): BYPASS itself, or another code (R226). -/
  | bypass (code : BitVec 8)
  /-- TB_CLK_RESTORED (R14). -/
  | tbClkRestored
  /-- FORCED_REPAYMENT_END (R44). -/
  | forcedRepaymentEnd (k : Fin 5) (level accrual : Nat)
  /-- SENTRY_POWER_LOSS (R574). -/
  | sentryPowerLoss
  /-- ORING_REVERSE (R500): feed, its voltage and V_BUS in mV. -/
  | oringReverse (f : Fin 2) (feed vbus : Nat)
  /-- WEAR_ALLOWANCE_RESTORED (R495). -/
  | wearAllowanceRestored
  deriving DecidableEq, Repr

end Sys2Proof
end

