-- ==== Sys2Proof/Machine/Tab.lean ====
section
/-!
DEFINITION. Machine/Tab.lean: reading and writing sparse tables and byte strings: the canonical form of every table
of State (keys strictly rising, no entry equal to what an unlisted key reads as), and little-endian packing (R2).
-/
namespace Sys2Proof.Machine

/-- The value listed at `k`, if any. -/
def Tab.find {α : Type} (t : Tab α) (k : Nat) : Option α :=
  match t with
  | [] => none
  | (k', v) :: r => if k' = k then some v else Tab.find r k

/-- What `k` reads as when an unlisted key reads as `d`. -/
def Tab.get {α : Type} (d : α) (t : Tab α) (k : Nat) : α := (Tab.find t k).getD d

/-- List `v` at `k`, keeping the keys rising. -/
def Tab.set {α : Type} (t : Tab α) (k : Nat) (v : α) : Tab α :=
  match t with
  | [] => [(k, v)]
  | (k', v') :: r =>
    if k' = k then (k, v) :: r
    else if k < k' then (k, v) :: (k', v') :: r
    else (k', v') :: Tab.set r k v

/-- Remove `k` from the table. -/
def Tab.del {α : Type} (t : Tab α) (k : Nat) : Tab α := t.filter (fun e => e.1 != k)

/-- Write `v` at `k` in a table whose unlisted keys read as `d`: the value `d` is never listed. -/
def Tab.put {α : Type} [DecidableEq α] (d : α) (t : Tab α) (k : Nat) (v : α) : Tab α :=
  if v = d then Tab.del t k else Tab.set t k v

/-- Apply `f` to the value at `k`. -/
def Tab.upd {α : Type} [DecidableEq α] (d : α) (t : Tab α) (k : Nat) (f : α → α) : Tab α :=
  Tab.put d t k (f (Tab.get d t k))

/-- The keys rise strictly. -/
def Tab.rising {α : Type} : Tab α → Bool
  | [] => true
  | [_] => true
  | a :: b :: r => decide (a.1 < b.1) && Tab.rising (b :: r)

/-- The canonical form: keys strictly rising, and the unlisted value never listed. -/
def Tab.wf {α : Type} [DecidableEq α] (d : α) (t : Tab α) : Bool :=
  Tab.rising t && t.all (fun e => decide (e.2 ≠ d))

/-- Little-endian bytes of a number (R2). -/
def bytesLE : Nat → Nat → List Byte
  | 0, _ => []
  | n + 1, v => BitVec.ofNat 8 v :: bytesLE n (v / 256)

/-- The number spelled by little-endian bytes (R2). -/
def natLE : List Byte → Nat
  | [] => 0
  | b :: r => b.toNat + 256 * natLE r

/-- `w` bits of `v` from bit `lo`. -/
def bitsOf (v lo w : Nat) : Nat := (v >>> lo) % 2 ^ w

/-- Bit `i` of `v`. -/
def bitOf (v i : Nat) : Bool := v.testBit i

/-- `v` with bit `i` set or cleared. -/
def setBit (v i : Nat) (b : Bool) : Nat :=
  if b then v ||| (1 <<< i) else if v.testBit i then v - (1 <<< i) else v

/-- `v` with its `w`-bit field at `lo` replaced by `x`. -/
def setField (v lo w x : Nat) : Nat :=
  v - (bitsOf v lo w) * 2 ^ lo + (x % 2 ^ w) * 2 ^ lo

/-- The items of a list for which `f` holds, counted. -/
def countIf {α : Type} (f : α → Bool) (l : List α) : Nat := (l.filter f).length

/-- Replace the first item for which `p` holds. -/
def modFirst {α : Type} (p : α → Bool) (f : α → α) : List α → List α
  | [] => []
  | a :: r => if p a then f a :: r else a :: modFirst p f r

/-- Read `n` bytes from `a` in a byte table whose unlisted bytes read as zero. -/
def Mem.read (m : Tab Byte) (a : Nat) : Nat → List Byte
  | 0 => []
  | n + 1 => Tab.get 0 m a :: Mem.read m (a + 1) n

/-- Write bytes from `a`; `none` leaves its byte as it is. -/
def Mem.write (m : Tab Byte) (a : Nat) : List (Option Byte) → Tab Byte
  | [] => m
  | none :: r => Mem.write m (a + 1) r
  | some b :: r => Mem.write (Tab.put 0 m a b) (a + 1) r

/-- Byte `i` of a line. -/
def lineByte (l : Line) (i : Nat) : Byte := l.extractLsb' (8 * i) 8

/-- The masked bytes of a line, from the number `i` left to do. -/
def maskedBytes (data : Line) (mask : BitVec 64) : Nat → Nat → List (Option Byte)
  | 0, _ => []
  | n + 1, i => (if mask.getLsbD i then some (lineByte data i) else none) :: maskedBytes data mask n (i + 1)

/-- The line at line address `a`. -/
def Mem.line (m : Tab Byte) (a : Nat) : Line := BitVec.ofNat 512 (natLE (Mem.read m a 64))

/-- Write the masked bytes of a line at line address `a`. -/
def Mem.writeLine (m : Tab Byte) (a : Nat) (mask : BitVec 64) (data : Line) : Tab Byte :=
  Mem.write m a (maskedBytes data mask 64 0)

/-- The 64 bytes of a line, byte 0 first. -/
def lineBytes (l : Line) : List Byte := bytesLE 64 l.toNat

/-- A line made of bytes, byte 0 first; missing bytes are zero. -/
def lineOf (bs : List Byte) : Line := BitVec.ofNat 512 (natLE (bs.take 64))

end Sys2Proof.Machine
end

