-- ==== Sys2Proof/Machine/Codes.lean ====
section
/-!
DEFINITION. Machine/Codes.lean: the cyclic checks that the spec gives to the bit (R11, R163, R182, R299, R362, R366, R562).
-/
namespace Sys2Proof.Machine

/-- One step of a CRC of width `w` (R11, R299, R366). -/
def crcStep (w poly : Nat) (c : Nat) (b : Bool) : Nat :=
  let fb := b != c.testBit (w - 1)
  let c := (c * 2) % 2 ^ w
  if fb then c ^^^ poly else c

/-- A CRC over the low `n` bits of `v`, bit 0 first. -/
def crcOf (w poly init n v : Nat) : Nat := (List.range n).foldl (fun c i => crcStep w poly c (v.testBit i)) init

/-- CRC-8 of the media bus and of training blocks (R299, R362). -/
def crc8 (n v : Nat) : Nat := crcOf 8 0x07 0xFF n v

/-- The CRC of R11 over bytes, each from its bit 0 on (R2; log entry 160). -/
def crcBytes (b : List Byte) : Nat := crcOf 16 0x1021 0xFFFF (8 * b.length) (natLE b)

/-- CRC-64 of a flit's first 248 bytes (R366). -/
def flitCrc (f : BitVec 2048) : Nat := crcOf 64 0x42F0E1EBA9EA3693 (2 ^ 64 - 1) 1984 f.toNat

/-- A field of `n` bytes at offset `off` of a byte string (R2); bytes past its end read as zero. -/
def fieldLE (b : List Byte) (off n : Nat) : Nat := natLE ((b.drop off).take n)

/-- A byte string with the bits of `x` flipped at byte `off`. -/
def flipBytes (b : List Byte) : List (Nat × Byte) → List Byte
  | [] => b
  | (off, x) :: r => flipBytes (b.set off (b.getD off 0 ^^^ x)) r

end Sys2Proof.Machine
end

