-- ==== Sys2Proof/Machine/Codewords.lean ====
section
/-!
DEFINITION. Machine/Codewords.lean: the words and codes that data is held and carried in (R298 to R304, R334, R337 to R340), and the records
and commands of the media packages (R294, R295, R299, R300), to the bit. What a stored word has turned into is for the outside to know: a read
brings its decoder's outcome as an operand.
-/
namespace Sys2Proof.Machine

/-! ### The on-chip word (R334) -/

/-- The number of ones in the low `n` bits. -/
def onesIn (n v : Nat) : Nat := countIf (fun i => v.testBit i) (List.range n)

/-- The bit that makes a byte's ones odd (R298, R334). -/
def oddParity (b : Byte) : Bool := decide (onesIn 8 b.toNat % 2 = 0)

/-- A 72-bit word of eight bytes (R334). -/
def word72 (b : List Byte) : BitVec 72 :=
  BitVec.ofNat 72 (natLE (b.take 8) + (List.range 8).foldl (fun a j => a + (oddParity (b.getD j 0)).toNat * 2 ^ (64 + j)) 0)

/-- Byte `j` of a word passes its parity (R334). -/
def parityOk (w : BitVec 72) (j : Nat) : Bool :=
  w.getLsbD (64 + j) == oddParity (w.extractLsb' (8 * j) 8)

/-! ### Arithmetic of the codes -/

/-- Product in GF(2^w) with field polynomial `poly`, its top term included. -/
def gfMul (w poly a b : Nat) : Nat :=
  (List.range w).foldl (fun acc i =>
    let acc := 2 * acc
    let acc := if acc.testBit w then acc ^^^ poly else acc
    if b.testBit (w - 1 - i) then acc ^^^ a else acc) 0

/-- A power of α in GF(2^w). -/
def gfAlpha (w poly : Nat) : Nat → Nat
  | 0 => 1
  | n + 1 => gfMul w poly (gfAlpha w poly n) 2

/-- The product of (x + α^j) for j below `n`, without its top term: coefficients from x^(n−1) down to x^0. -/
def rsGen (w poly : Nat) : Nat → List Nat
  | 0 => []
  | n + 1 =>
    let g := 1 :: rsGen w poly n
    let a := gfAlpha w poly n
    ((g ++ [0]).zip (0 :: g)).map (fun (e : Nat × Nat) => e.1 ^^^ gfMul w poly a e.2) |>.drop 1

/-- The remainder of the message, its symbols from the highest power on, by the generator of degree `n`: coefficients from x^(n−1) down. -/
def rsCheck (w poly n : Nat) (m : List Nat) : List Nat :=
  let g := rsGen w poly n
  m.foldl (fun r s =>
    let f := s ^^^ r.headD 0
    ((r.drop 1 ++ [0]).zip g).map (fun (e : Nat × Nat) => e.1 ^^^ gfMul w poly f e.2)) (List.replicate n 0)

/-- The value of a word, its symbols from the highest power on, at α^j. -/
def rsSyndrome (w poly j : Nat) (c : List Nat) : Nat :=
  let a := gfAlpha w poly j
  c.foldl (fun v s => gfMul w poly v a ^^^ s) 0

/-- How a word of a code with check polynomial (x + 1)(x + α) decodes (R337, R338): sound; one symbol, by its power, and what to add to it; or
not at all. -/
inductive RsRes where
  | sound
  | one (power value : Nat)
  | bad
  deriving DecidableEq, Repr

/-- The decoder of a code of two check symbols: `stored` powers may be corrected, those above are virtual. -/
def rsDecode (w poly stored : Nat) (c : List Nat) : RsRes :=
  let s0 := rsSyndrome w poly 0 c
  let s1 := rsSyndrome w poly 1 c
  if s0 = 0 ∧ s1 = 0 then .sound
  else match (List.range stored).find? (fun p => decide (s0 ≠ 0 ∧ gfMul w poly s0 (gfAlpha w poly p) = s1)) with
    | some p => .one p s0
    | none => .bad

/-- What a decoder makes of a stored line (R340): good, with the symbol corrected if any; stored as poisoned; or uncorrectable. -/
inductive LineRes where
  | good (fix : Option (Nat × Nat))
  | poisoned
  | uncorrectable
  deriving DecidableEq, Repr

/-- The order of R340: with the poison flag clear, then set. -/
def poisonOrder (clear set : RsRes) : LineRes :=
  match clear with
  | .sound => .good none
  | .one p v => .good (some (p, v))
  | .bad => match set with | .bad => .uncorrectable | _ => .poisoned

/-! ### HBM (R337) -/

/-- The field polynomial of the HBM code. -/
abbrev hbmPoly : Nat := 0x1100B

/-- The message of a burst: the virtual symbols and its 16 data symbols. -/
def hbmMessage (sector burst : Nat) (poison : Bool) (d : List Byte) : List Nat :=
  [sector % 2 ^ 16, bitsOf sector 16 12 + burst % 2 * 2 ^ 14 + poison.toNat * 2 ^ 15]
    ++ (List.range 16).map (fun i => fieldLE d (2 * i) 2)

/-- The check symbols c0 and c1 of a burst. -/
def hbmCheck (sector burst : Nat) (poison : Bool) (d : List Byte) : List Nat := rsCheck 16 hbmPoly 2 (hbmMessage sector burst poison d)

/-- What the decoder makes of a burst of 32 bytes and two check symbols. -/
def hbmDecode (sector burst : Nat) (d : List Byte) (c : List Nat) : LineRes :=
  poisonOrder (rsDecode 16 hbmPoly 18 (hbmMessage sector burst false d ++ c)) (rsDecode 16 hbmPoly 18 (hbmMessage sector burst true d ++ c))

/-! ### DDR5 (R338) -/

/-- The field polynomial of the DDR5 code. -/
abbrev ddrPoly : Nat := 2 ^ 64 + 0x1B

/-- The 64 bits of device `d` of a burst of 16 beats, each beat a number of 40 lanes: DQ[31:0], then CB[7:0]. -/
def ddrSymbol (beats : List Nat) (d : Nat) : Nat := (List.range 16).foldl (fun a b => a + bitsOf (beats.getD b 0) (4 * d) 4 * 2 ^ (4 * b)) 0

/-- The virtual symbol of a line. -/
def ddrVirtual (channel sector : Nat) (poison : Bool) : Nat := channel * 2 ^ 35 + sector + poison.toNat * 2 ^ 63

/-- The symbols of devices 8 and 9 of a line. -/
def ddrCheck (channel sector : Nat) (poison : Bool) (devs : List Nat) : List Nat :=
  rsCheck 64 ddrPoly 2 (ddrVirtual channel sector poison :: devs)

/-- What the decoder makes of the ten devices' symbols. -/
def ddrDecode (channel sector : Nat) (devs : List Nat) : LineRes :=
  poisonOrder (rsDecode 64 ddrPoly 10 (ddrVirtual channel sector false :: devs)) (rsDecode 64 ddrPoly 10 (ddrVirtual channel sector true :: devs))

/-! ### The media line (R298, R303, R304, R339) -/

/-- The field polynomial of the media line code. -/
abbrev mediaPoly : Nat := 0x11D

/-- The message of a media line: the eight virtual symbols of A, then the data (R303, R339). -/
def mediaMessage (channel loc : Nat) (poison : Bool) (d : List Byte) : List Nat :=
  (bytesLE 8 (ddrVirtual channel loc poison) ++ d.take 64).map (·.toNat)

/-- The 16 check bytes of a media line (R303). -/
def mediaCheck (channel loc : Nat) (poison : Bool) (d : List Byte) : List Byte :=
  (rsCheck 8 mediaPoly 16 (mediaMessage channel loc poison d)).map (BitVec.ofNat 8)

/-- The 80 bytes of a media line (R298). -/
def mediaLine (channel loc : Nat) (poison : Bool) (d : List Byte) : List Byte := d.take 64 ++ mediaCheck channel loc poison d

/-- A beat: four bytes on DQ[31:0] and their parity on DC[3:0] (R298). -/
def mediaBeat (b : List Byte) : BitVec 36 :=
  BitVec.ofNat 36 (natLE (b.take 4) + (List.range 4).foldl (fun a j => a + (oddParity (b.getD j 0)).toNat * 2 ^ (32 + j)) 0)

/-- The 20 beats of a media line (R298). -/
def mediaBeats (b : List Byte) : List (BitVec 36) := (List.range 20).map (fun i => mediaBeat (b.drop (4 * i)))

/-- The bytes of a read that fail parity (R298, R304): the erasures. -/
def beatErasures (beats : List (BitVec 36)) : List Nat :=
  (List.range (4 * beats.length)).filter (fun i =>
    let b := beats.getD (i / 4) 0
    b.getLsbD (32 + i % 4) != oddParity (b.extractLsb' (8 * (i % 4)) 8))

/-- A beat of all ones with every DC bit inverted, as a package answers a read that it cannot serve (R301). -/
def refusedBeat : BitVec 36 := mediaBeat [0xFF, 0xFF, 0xFF, 0xFF] ^^^ (0xF <<< 32)

/-- A read's answer is the one of R301. -/
def refusedAnswer (beats : List (BitVec 36)) : Bool := beats.all (fun b => decide (b = refusedBeat))

/-- The line `d` is what 80 received bytes with erasures decode to (R304): it is in e errors, none of them in a virtual symbol, and f
erasures, of which 2e + f is 16 at most. -/
def mediaDecodesTo (channel loc : Nat) (got : List Byte) (erased : List Nat) (poison : Bool) (d : List Byte) : Bool :=
  let c := mediaLine channel loc poison d
  let wrong := (List.range 80).filter (fun i => !erased.contains i && decide (got.getD i 0 ≠ c.getD i 0))
  decide (d.length = 64 ∧ 2 * wrong.length + erased.length ≤ 16)

/-! ### Packages (R294, R299, R300) -/

/-- Byte `j` of witness line 32,760 + `w` (R294). -/
def witnessByte (w j : Nat) : Byte := BitVec.ofNat 8 (37 * j + 11 * w)

/-- The commands of the media bus (R300). -/
inductive MediaOp where
  | read | load | program | suspend | resume | abort | status | blkInfo | blkSet | mrr | mrw | readPair | nop
  deriving DecidableEq, Repr

/-- Their opcodes (R300). -/
def MediaOp.code : MediaOp → Nat
  | .read => 0x01 | .load => 0x02 | .program => 0x03 | .suspend => 0x04 | .resume => 0x05 | .abort => 0x06 | .status => 0x07
  | .blkInfo => 0x08 | .blkSet => 0x09 | .mrr => 0x0A | .mrw => 0x0B | .readPair => 0x0C | .nop => 0x3F

/-- A command of 72 bits (R299): its fields, then the CRC-8 over them. -/
def mediaCommand (op : MediaOp) (bank line count : Nat) (ref : Int) : BitVec 72 :=
  let v := op.code + bank % 16 * 2 ^ 6 + line % 2 ^ 30 * 2 ^ 18 + count % 128 * 2 ^ 48 + (ref % 32).toNat * 2 ^ 55
  BitVec.ofNat 72 (v + crc8 64 v * 2 ^ 64)

/-- The six CA beats of a command (R299). -/
def commandBeats (c : BitVec 72) : List (BitVec 12) := (List.range 6).map (fun b => c.extractLsb' (12 * b) 12)

/-- The 16 bytes of a block record (R300): wear, age in 1/16 h, trim and OPEN. -/
def blockRecord (wear age16 : Nat) (trim : Int) (opened : Bool) : List Byte :=
  bytesLE 4 wear ++ bytesLE 4 age16 ++ bytesLE 1 (trim % 256).toNat ++ bytesLE 1 opened.toNat ++ bytesLE 6 0

/-- D(a) of the drift model (R300): the largest d from 0 to 15 with 10^(d / 4) ≤ 1 + a. -/
def driftSteps (a : Nat) : Nat := countIf (fun d => decide (10 ^ (d + 1) ≤ (1 + a) ^ 4)) (List.range 15)

/-- The reference that a read of a block applies (R300). -/
def readReference (a : Nat) (trim ref : Int) : Int := max (-32) (min 31 (driftSteps a + trim + ref))

/-! ### Root records (R295) -/

/-- The fields of a root record (R295). -/
structure Root where
  channel : Nat := 0
  package : Nat := 0
  mediaSet : Nat := 0
  generation : Nat := 0
  zone : Bool := false
  clean : Bool := false
  zoneChannels : Nat := 0
  ringFirst : Nat := 0
  ringHead : Nat := 0
  checkpoint : Nat := 0
  listCount : Nat := 0
  deriving DecidableEq, Repr

/-- The 64 bytes of a root record (R295). -/
def Root.image (r : Root) : List Byte :=
  let b := bytesLE 4 0x54524B47 ++ bytesLE 1 1 ++ bytesLE 1 (r.channel % 8 + r.package % 2 * 8) ++ bytesLE 2 0
    ++ bytesLE 8 r.mediaSet ++ bytesLE 4 r.generation ++ bytesLE 1 (r.zone.toNat + 2 * r.clean.toNat) ++ bytesLE 1 r.zoneChannels
    ++ bytesLE 2 0 ++ bytesLE 4 r.ringFirst ++ bytesLE 4 r.ringHead ++ bytesLE 4 r.checkpoint ++ bytesLE 4 r.listCount ++ bytesLE 22 0
  b ++ bytesLE 2 (crcBytes b)

/-- A copy of a root is intact (R295). -/
def rootIntact (b : List Byte) : Bool :=
  decide (fieldLE b 0 4 = 0x54524B47 ∧ fieldLE b 4 1 = 1 ∧ fieldLE b 0x3E 2 = crcBytes (b.take 0x3E))

/-- The root record that a copy holds (R295). -/
def Root.ofImage (b : List Byte) : Root :=
  { channel := bitsOf (fieldLE b 5 1) 0 3, package := bitsOf (fieldLE b 5 1) 3 1, mediaSet := fieldLE b 8 8, generation := fieldLE b 0x10 4
    zone := bitOf (fieldLE b 0x14 1) 0, clean := bitOf (fieldLE b 0x14 1) 1, zoneChannels := fieldLE b 0x15 1
    ringFirst := fieldLE b 0x18 4, ringHead := fieldLE b 0x1C 4, checkpoint := fieldLE b 0x20 4, listCount := fieldLE b 0x24 4 }

end Sys2Proof.Machine
end

