-- ==== Sys2Proof/Config.lean ====
section
/-!
DEFINITION. Config.lean: what each part fixes and what the spec leaves open, as constants without a body: no proof can see
a value of one. The numbered free values are applied to the counter `free` of the state (log entry 2).
-/
namespace Sys2Proof

/-- A choice of Mill's encoder (R183, R188): the restart entries with their offsets counted from the end of the header, the fill word, and
the streams' bytes. -/
structure GristPlan where
  entries : List (BitVec 16)
  fill : BitVec 64
  streams : List Byte
  deriving DecidableEq, Repr, Inhabited

end Sys2Proof

namespace Sys2Proof.Config

/-- The free value numbered `n`, where the spec leaves a number open. -/
opaque freeNat : Nat → Nat

/-- The free bytes numbered `n`, where the spec leaves a line's content open. -/
opaque freeLine : Nat → Line

/-- A free value that depends on `x`, at count `n`. -/
opaque freeNatAt (x n : Nat) : Nat

/-- The free bytes that address `x` holds at count `n`. -/
opaque freeLineAt (x n : Nat) : Line

/-- Fault event UUID (R65), which the spec leaves to the part. -/
opaque faultUuid : BitVec 128

/-- id.serial (R481). -/
opaque serial : BitVec 64

/-- The HBM key derived from the device root with the power-up count as context (R203). -/
opaque hbmFallback : Nat → BitVec 256

/-- AES-256: key and block to block. The cipher itself is outside the spec (R202). -/
opaque aes256 : BitVec 256 → BitVec 128 → BitVec 128

/-- The inverse of AES-256. -/
opaque aes256Inv : BitVec 256 → BitVec 128 → BitVec 128

/-- AES-CMAC with a 256-bit key (R208). -/
opaque aesCmac : BitVec 256 → List Byte → BitVec 128

/-- AES-256-GCM opening of a data flit (R229): key, salt, counter, header and body with its tag; none: the tag fails. -/
opaque gcmOpen : BitVec 256 → Nat → Nat → BitVec 64 → List Byte → Option (List Byte)

/-- AES key unwrap of the 176 wrapped bytes of a blob (R217, R218): the key and those bytes give the 168 inner bytes; none: the
check value fails. -/
opaque keyUnwrap : BitVec 256 → BitVec 1408 → Option (BitVec 1344)

/-- What Mill's encoder chooses for a page of plaintext: its choice among valid streams is not part of the contract (R188). -/
opaque gristPlan : List Line → GristPlan

/-- AES key wrap (R217, R219): the inverse of `keyUnwrap` with its check value. -/
opaque keyWrap : BitVec 256 → BitVec 1344 → BitVec 1408

/-- The device root in fuses, unique per part (R215). -/
opaque deviceRoot : BitVec 256

/-- The spare rows of the HBM stack that training can repair with (R359); the spec states no number (log entry 163). -/
opaque hbmSpareRows : Nat

end Sys2Proof.Config
end

