-- ==== Sys2Proof/Machine/ObjTable.lean ====
section
/-!
DEFINITION. Machine/ObjTable.lean: the object dictionary's rows, as the Objects tables of the spec give them (R49, R80,
R116, R144, R175, R201, R234, R258, R291, R332, R334, R360, R396, R429, R448, R481, R496, R522, R542, R566, R585), one
row per object family, and the key of each object.
-/
namespace Sys2Proof.Machine

/-- Type codes (R452). -/
inductive ObjTy where
  | bool | u8 | u16 | u32 | u64 | i8 | i16 | i32 | octets | text | domain
  deriving DecidableEq, Repr

/-- The code of a type (R452). -/
def ObjTy.code : ObjTy → Nat
  | .bool => 0x01 | .u8 => 0x10 | .u16 => 0x11 | .u32 => 0x12 | .u64 => 0x13
  | .i8 => 0x20 | .i16 => 0x21 | .i32 => 0x22 | .octets => 0x40 | .text => 0x41 | .domain => 0x42

/-- Access classes (R453). -/
inductive ObjAcc where
  | ro | wo | rw | rwp | const
  deriving DecidableEq, Repr

/-- The code of an access class (R453). -/
def ObjAcc.code : ObjAcc → Nat
  | .ro => 1 | .wo => 2 | .rw => 3 | .rwp => 4 | .const => 5

/-- The range an object's table row states: `live` ranges depend on other objects and `special` ones are stated by the
owning chapter; both are computed elsewhere. -/
inductive ObjRange where
  | any
  | span (lo hi : Nat)
  | step (lo hi m : Nat)
  | zeroOr (lo hi : Nat)
  | oneOf (vs : List Nat)
  | mask (m : Nat)
  | live
  | special
  deriving DecidableEq, Repr

/-- One row of an Objects table: `count` consecutive indices from `base` hold the object at sub-indices `sub` to
`sub + subs - 1`; `famBase` and `famCount` are the family of R457. -/
structure ObjRow where
  base : Nat
  count : Nat
  sub : Nat
  subs : Nat
  name : String
  ty : ObjTy
  acc : ObjAcc
  size : Nat
  dflt : Nat
  range : ObjRange
  unit : Nat
  extra : Bool
  deriving DecidableEq, Repr

/-- The key of object `idx:sub`. -/
abbrev objKey (idx sub : Nat) : Nat := idx * 256 + sub

/-- 0x4000:01 timebase.tc. -/
abbrev Obj.timebaseTc : Nat := 0x400001

/-- 0x4000:02 timebase.epoch. -/
abbrev Obj.timebaseEpoch : Nat := 0x400002

/-- 0x4000:03 timebase.state. -/
abbrev Obj.timebaseState : Nat := 0x400003

/-- 0x4000:04 timebase.nominal_khz. -/
abbrev Obj.timebaseNominalKhz : Nat := 0x400004

/-- 0x4000:05 timebase.measured_khz. -/
abbrev Obj.timebaseMeasuredKhz : Nat := 0x400005

/-- 0x4000:06 timebase.miss_limit. -/
abbrev Obj.timebaseMissLimit : Nat := 0x400006

/-- 0x4000:07 timebase.holdover_max_ms. -/
abbrev Obj.timebaseHoldoverMaxMs : Nat := 0x400007

/-- 0x4000:08 timebase.rate_margin_ppm. -/
abbrev Obj.timebaseRateMarginPpm : Nat := 0x400008

/-- 0x4000:09 timebase.crc_errors. -/
abbrev Obj.timebaseCrcErrors : Nat := 0x400009

/-- 0x4000:0A timebase.realign_count. -/
abbrev Obj.timebaseRealignCount : Nat := 0x40000A

/-- 0x4010:01 windows.post. -/
abbrev Obj.windowsPost : Nat := 0x401001

/-- 0x4010:02 windows.post_result. -/
abbrev Obj.windowsPostResult : Nat := 0x401002

/-- 0x4010:03 windows.pending. -/
abbrev Obj.windowsPending : Nat := 0x401003

/-- 0x4010:04 windows.current_class. -/
abbrev Obj.windowsCurrentClass : Nat := 0x401004

/-- 0x4010:05 windows.current_tag. -/
abbrev Obj.windowsCurrentTag : Nat := 0x401005

/-- 0x4010:06 windows.barrier_count. -/
abbrev Obj.windowsBarrierCount : Nat := 0x401006

/-- 0x4010:07 windows.post_dla. -/
abbrev Obj.windowsPostDla : Nat := 0x401007

/-- 0x4020:01 windows.write_fence_ns. -/
abbrev Obj.windowsWriteFenceNs : Nat := 0x402001

/-- 0x4020:02 windows.prologue_ns. -/
abbrev Obj.windowsPrologueNs : Nat := 0x402002

/-- 0x4020:03 windows.post_lead_ns. -/
abbrev Obj.windowsPostLeadNs : Nat := 0x402003

/-- 0x4020:04 windows.breach_count. -/
abbrev Obj.windowsBreachCount : Nat := 0x402004

/-- 0x4030:01 windows.absorb_limit_mib. -/
abbrev Obj.windowsAbsorbLimitMib : Nat := 0x403001

/-- 0x4030:02 windows.absorb_dirty_mib. -/
abbrev Obj.windowsAbsorbDirtyMib : Nat := 0x403002

/-- 0x4030:03 windows.absorb_committed_mib. -/
abbrev Obj.windowsAbsorbCommittedMib : Nat := 0x403003

/-- 0x4030:04 windows.drain_rate_mbs. -/
abbrev Obj.windowsDrainRateMbs : Nat := 0x403004

/-- 0x4030:05 windows.open_drain_pct. -/
abbrev Obj.windowsOpenDrainPct : Nat := 0x403005

/-- 0x4040:01 windows.debt.level. -/
abbrev Obj.windowsDebtLevel : Nat := 0x404001

/-- 0x4040:02 windows.debt.accrual. -/
abbrev Obj.windowsDebtAccrual : Nat := 0x404002

/-- 0x4040:03 windows.debt.max. -/
abbrev Obj.windowsDebtMax : Nat := 0x404003

/-- 0x4040:04 windows.debt.quiet_repay. -/
abbrev Obj.windowsDebtQuietRepay : Nat := 0x404004

/-- 0x4040:05 windows.debt.open_repay. -/
abbrev Obj.windowsDebtOpenRepay : Nat := 0x404005

/-- 0x4040:06 windows.debt.overruns. -/
abbrev Obj.windowsDebtOverruns : Nat := 0x404006

/-- 0x4800:01 ports.bifurcation_a. -/
abbrev Obj.portsBifurcationA : Nat := 0x480001

/-- 0x4800:02 ports.bifurcation_b. -/
abbrev Obj.portsBifurcationB : Nat := 0x480002

/-- 0x4800:03 ports.max_rate_gts. -/
abbrev Obj.portsMaxRateGts : Nat := 0x480003

/-- 0x4800:04 ports.failover_detect_us. -/
abbrev Obj.portsFailoverDetectUs : Nat := 0x480004

/-- 0x4800:05 ports.mailbox_payload. -/
abbrev Obj.portsMailboxPayload : Nat := 0x480005

/-- 0x4800:06 ports.fault_event_uuid. -/
abbrev Obj.portsFaultEventUuid : Nat := 0x480006

/-- 0x4800:07 ports.ide_aggregation. -/
abbrev Obj.portsIdeAggregation : Nat := 0x480007

/-- 0x4800:08 ports.offer_timeout_ms. -/
abbrev Obj.portsOfferTimeoutMs : Nat := 0x480008

/-- 0x4810:01 head.state. -/
abbrev Obj.headState : Nat := 0x481001

/-- 0x4810:02 head.width. -/
abbrev Obj.headWidth : Nat := 0x481002

/-- 0x4810:03 head.rate_gts. -/
abbrev Obj.headRateGts : Nat := 0x481003

/-- 0x4810:04 head.flit_mode. -/
abbrev Obj.headFlitMode : Nat := 0x481004

/-- 0x4810:05 head.group. -/
abbrev Obj.headGroup : Nat := 0x481005

/-- 0x4810:06 head.failover_count. -/
abbrev Obj.headFailoverCount : Nat := 0x481006

/-- 0x4810:07 head.read_credits. -/
abbrev Obj.headReadCredits : Nat := 0x481007

/-- 0x4820:01 dc.base. -/
abbrev Obj.dcBase : Nat := 0x482001

/-- 0x4820:02 dc.length. -/
abbrev Obj.dcLength : Nat := 0x482002

/-- 0x4820:03 dc.block_mib. -/
abbrev Obj.dcBlockMib : Nat := 0x482003

/-- 0x4820:04 dc.flags. -/
abbrev Obj.dcFlags : Nat := 0x482004

/-- 0x6800:01 map.page_tables. -/
abbrev Obj.mapPageTables : Nat := 0x680001

/-- 0x6800:03 map.record_errors. -/
abbrev Obj.mapRecordErrors : Nat := 0x680003

/-- 0x6800:04 map.records_lost. -/
abbrev Obj.mapRecordsLost : Nat := 0x680004

/-- 0x6800:05 map.pool_target_hbm. -/
abbrev Obj.mapPoolTargetHbm : Nat := 0x680005

/-- 0x6800:06 map.pool_target_ddr. -/
abbrev Obj.mapPoolTargetDdr : Nat := 0x680006

/-- 0x6800:07 map.pool_level_hbm. -/
abbrev Obj.mapPoolLevelHbm : Nat := 0x680007

/-- 0x6800:08 map.pool_level_ddr. -/
abbrev Obj.mapPoolLevelDdr : Nat := 0x680008

/-- 0x6800:09 map.pool_inline_zero. -/
abbrev Obj.mapPoolInlineZero : Nat := 0x680009

/-- 0x6800:0A map.discard_page. -/
abbrev Obj.mapDiscardPage : Nat := 0x68000A

/-- 0x9000:01 cask.state. -/
abbrev Obj.caskState : Nat := 0x900001

/-- 0x9000:02 cask.command. -/
abbrev Obj.caskCommand : Nat := 0x900002

/-- 0x9000:03 cask.pasid. -/
abbrev Obj.caskPasid : Nat := 0x900003

/-- 0x9000:04 cask.extent_mib. -/
abbrev Obj.caskExtentMib : Nat := 0x900004

/-- 0x9000:05 cask.quiesce_timeout_ms. -/
abbrev Obj.caskQuiesceTimeoutMs : Nat := 0x900005

/-- 0x9000:07 cask.log_enable. -/
abbrev Obj.caskLogEnable : Nat := 0x900007

/-- 0x9000:08 cask.log_base_dla. -/
abbrev Obj.caskLogBaseDla : Nat := 0x900008

/-- 0x9000:09 cask.log_pages. -/
abbrev Obj.caskLogPages : Nat := 0x900009

/-- 0x9000:0A cask.log_bitmap_dla. -/
abbrev Obj.caskLogBitmapDla : Nat := 0x90000A

/-- 0x9000:0B cask.log_ring_dla. -/
abbrev Obj.caskLogRingDla : Nat := 0x90000B

/-- 0x9000:0C cask.log_ring_order. -/
abbrev Obj.caskLogRingOrder : Nat := 0x90000C

/-- 0x9000:0D cask.log_producer. -/
abbrev Obj.caskLogProducer : Nat := 0x90000D

/-- 0x9000:0E cask.log_consumer. -/
abbrev Obj.caskLogConsumer : Nat := 0x90000E

/-- 0x9000:0F cask.log_status. -/
abbrev Obj.caskLogStatus : Nat := 0x90000F

/-- 0x9000:10 cask.access. -/
abbrev Obj.caskAccess : Nat := 0x900010

/-- 0x9000:12 cask.log_outside. -/
abbrev Obj.caskLogOutside : Nat := 0x900012

/-- 0x9400:01 access.table. -/
abbrev Obj.accessTable : Nat := 0x940001

/-- 0x94F0:01 access.edit. -/
abbrev Obj.accessEdit : Nat := 0x94F001

/-- 0x8800:01 coh.snoop_deadline_burst_ns. -/
abbrev Obj.cohSnoopDeadlineBurstNs : Nat := 0x880001

/-- 0x8800:02 coh.snoop_deadline_ns. -/
abbrev Obj.cohSnoopDeadlineNs : Nat := 0x880002

/-- 0x8800:03 coh.pull_deadline_ns. -/
abbrev Obj.cohPullDeadlineNs : Nat := 0x880003

/-- 0x8800:04 coh.sf_reserve_ways. -/
abbrev Obj.cohSfReserveWays : Nat := 0x880004

/-- 0x8800:05 coh.sf_entries_used. -/
abbrev Obj.cohSfEntriesUsed : Nat := 0x880005

/-- 0x8800:06 coh.sf_evictions. -/
abbrev Obj.cohSfEvictions : Nat := 0x880006

/-- 0x8800:07 coh.sf_downgrades. -/
abbrev Obj.cohSfDowngrades : Nat := 0x880007

/-- 0x8800:08 coh.cask_domain. -/
abbrev Obj.cohCaskDomain : Nat := 0x880008

/-- 0x8800:09 coh.retries_sent. -/
abbrev Obj.cohRetriesSent : Nat := 0x880009

/-- 0x8800:0A coh.trackers. -/
abbrev Obj.cohTrackers : Nat := 0x88000A

/-- 0x8800:0B coh.dead_agents. -/
abbrev Obj.cohDeadAgents : Nat := 0x88000B

/-- 0x8810:01 coh.link.vc. -/
abbrev Obj.cohLinkVc : Nat := 0x881001

/-- 0x8840:01 coh.domain.state. -/
abbrev Obj.cohDomainState : Nat := 0x884001

/-- 0x8840:02 coh.domain.command. -/
abbrev Obj.cohDomainCommand : Nat := 0x884002

/-- 0x8840:03 coh.domain.agents. -/
abbrev Obj.cohDomainAgents : Nat := 0x884003

/-- 0x8840:04 coh.domain.down_cause. -/
abbrev Obj.cohDomainDownCause : Nat := 0x884004

/-- 0x8840:05 coh.domain.dead_agent. -/
abbrev Obj.cohDomainDeadAgent : Nat := 0x884005

/-- 0x8840:06 coh.domain.poisoned_lines. -/
abbrev Obj.cohDomainPoisonedLines : Nat := 0x884006

/-- 0x8840:07 coh.domain.dropped_writes. -/
abbrev Obj.cohDomainDroppedWrites : Nat := 0x884007

/-- 0x8840:08 coh.domain.down_tc. -/
abbrev Obj.cohDomainDownTc : Nat := 0x884008

/-- 0x8840:09 coh.domain.down_count. -/
abbrev Obj.cohDomainDownCount : Nat := 0x884009

/-- 0x8840:0A coh.domain.recall_us. -/
abbrev Obj.cohDomainRecallUs : Nat := 0x88400A

/-- 0x6810:01 lauter.slots. -/
abbrev Obj.lauterSlots : Nat := 0x681001

/-- 0x6810:02 lauter.copy_rate_mbs. -/
abbrev Obj.lauterCopyRateMbs : Nat := 0x681002

/-- 0x6810:03 lauter.swing_max_lines. -/
abbrev Obj.lauterSwingMaxLines : Nat := 0x681003

/-- 0x6810:04 lauter.recopy_passes. -/
abbrev Obj.lauterRecopyPasses : Nat := 0x681004

/-- 0x6810:05 lauter.decay_period_ms. -/
abbrev Obj.lauterDecayPeriodMs : Nat := 0x681005

/-- 0x6810:06 lauter.decay_keep. -/
abbrev Obj.lauterDecayKeep : Nat := 0x681006

/-- 0x6810:07 lauter.promote_heat. -/
abbrev Obj.lauterPromoteHeat : Nat := 0x681007

/-- 0x6810:08 lauter.demote_heat. -/
abbrev Obj.lauterDemoteHeat : Nat := 0x681008

/-- 0x6810:09 lauter.free_low_pct. -/
abbrev Obj.lauterFreeLowPct : Nat := 0x681009

/-- 0x6810:0A lauter.migrations. -/
abbrev Obj.lauterMigrations : Nat := 0x68100A

/-- 0x6810:0B lauter.abandoned. -/
abbrev Obj.lauterAbandoned : Nat := 0x68100B

/-- 0x6810:0C lauter.heat_spill_dropped. -/
abbrev Obj.lauterHeatSpillDropped : Nat := 0x68100C

/-- 0x6810:0D lauter.journal_kib. -/
abbrev Obj.lauterJournalKib : Nat := 0x68100D

/-- 0x6810:0E lauter.journal_fill_kib. -/
abbrev Obj.lauterJournalFillKib : Nat := 0x68100E

/-- 0x6810:0F lauter.zone_channels. -/
abbrev Obj.lauterZoneChannels : Nat := 0x68100F

/-- 0x6810:10 lauter.retire. -/
abbrev Obj.lauterRetire : Nat := 0x681010

/-- 0x6810:11 lauter.retire_status. -/
abbrev Obj.lauterRetireStatus : Nat := 0x681011

/-- 0x6810:12 lauter.checkpoint_seq. -/
abbrev Obj.lauterCheckpointSeq : Nat := 0x681012

/-- 0x6820:01 policy.tiers. -/
abbrev Obj.policyTiers : Nat := 0x682001

/-- 0x6820:02 policy.home. -/
abbrev Obj.policyHome : Nat := 0x682002

/-- 0x6820:03 policy.mode. -/
abbrev Obj.policyMode : Nat := 0x682003

/-- 0x6820:04 policy.map_resident. -/
abbrev Obj.policyMapResident : Nat := 0x682004

/-- 0x6830:01 lauter.extent_command. -/
abbrev Obj.lauterExtentCommand : Nat := 0x683001

/-- 0x6830:02 lauter.releasing_mib. -/
abbrev Obj.lauterReleasingMib : Nat := 0x683002

/-- 0x6840:01 chan.state. -/
abbrev Obj.chanState : Nat := 0x684001

/-- 0x6840:02 chan.command. -/
abbrev Obj.chanCommand : Nat := 0x684002

/-- 0x6840:03 chan.resident_pages. -/
abbrev Obj.chanResidentPages : Nat := 0x684003

/-- 0x6840:04 chan.free_mib. -/
abbrev Obj.chanFreeMib : Nat := 0x684004

/-- 0x7400:01 mill.engines. -/
abbrev Obj.millEngines : Nat := 0x740001

/-- 0x7400:02 mill.compress_rate_mbs. -/
abbrev Obj.millCompressRateMbs : Nat := 0x740002

/-- 0x7400:03 mill.decompress_rate_mbs. -/
abbrev Obj.millDecompressRateMbs : Nat := 0x740003

/-- 0x7400:04 mill.repack_idle_ms. -/
abbrev Obj.millRepackIdleMs : Nat := 0x740004

/-- 0x7400:05 mill.min_gain_sectors. -/
abbrev Obj.millMinGainSectors : Nat := 0x740005

/-- 0x7400:06 mill.reserve_pct. -/
abbrev Obj.millReservePct : Nat := 0x740006

/-- 0x7400:07 mill.space_wait_ms. -/
abbrev Obj.millSpaceWaitMs : Nat := 0x740007

/-- 0x7400:08 mill.logical_mib. -/
abbrev Obj.millLogicalMib : Nat := 0x740008

/-- 0x7400:09 mill.stored_mib_ddr. -/
abbrev Obj.millStoredMibDdr : Nat := 0x740009

/-- 0x7400:0A mill.stored_mib_nvm. -/
abbrev Obj.millStoredMibNvm : Nat := 0x74000A

/-- 0x7400:0B mill.grist_pages. -/
abbrev Obj.millGristPages : Nat := 0x74000B

/-- 0x7400:0C mill.expansions. -/
abbrev Obj.millExpansions : Nat := 0x74000C

/-- 0x7400:0D mill.repacks. -/
abbrev Obj.millRepacks : Nat := 0x74000D

/-- 0x7400:0E mill.decode_errors. -/
abbrev Obj.millDecodeErrors : Nat := 0x74000E

/-- 0x7400:0F mill.space_waits. -/
abbrev Obj.millSpaceWaits : Nat := 0x74000F

/-- 0x7400:10 mill.space_poisoned. -/
abbrev Obj.millSpacePoisoned : Nat := 0x740010

/-- 0x7400:11 mill.capacity_low_pct. -/
abbrev Obj.millCapacityLowPct : Nat := 0x740011

/-- 0x7410:01 mill.region.mode. -/
abbrev Obj.millRegionMode : Nat := 0x741001

/-- 0x7410:02 mill.region.max_sectors. -/
abbrev Obj.millRegionMaxSectors : Nat := 0x741002

/-- 0x7410:03 mill.region.grist_pages. -/
abbrev Obj.millRegionGristPages : Nat := 0x741003

/-- 0x7000:01 husk.owner_root_state. -/
abbrev Obj.huskOwnerRootState : Nat := 0x700001

/-- 0x7000:02 husk.owner_root_program. -/
abbrev Obj.huskOwnerRootProgram : Nat := 0x700002

/-- 0x7000:03 husk.mac_failures. -/
abbrev Obj.huskMacFailures : Nat := 0x700003

/-- 0x7000:04 husk.mac_refetch_ok. -/
abbrev Obj.huskMacRefetchOk : Nat := 0x700004

/-- 0x7000:05 husk.partial_dropped. -/
abbrev Obj.huskPartialDropped : Nat := 0x700005

/-- 0x7000:06 husk.unwrap_failures. -/
abbrev Obj.huskUnwrapFailures : Nat := 0x700006

/-- 0x7000:07 husk.vault_errors. -/
abbrev Obj.huskVaultErrors : Nat := 0x700007

/-- 0x7010:01 husk.region.mode. -/
abbrev Obj.huskRegionMode : Nat := 0x701001

/-- 0x7020:01 husk.link.mode. -/
abbrev Obj.huskLinkMode : Nat := 0x702001

/-- 0x7020:02 husk.link.slot0_blob. -/
abbrev Obj.huskLinkSlot0Blob : Nat := 0x702002

/-- 0x7020:03 husk.link.slot1_blob. -/
abbrev Obj.huskLinkSlot1Blob : Nat := 0x702003

/-- 0x7020:04 husk.link.active_slot. -/
abbrev Obj.huskLinkActiveSlot : Nat := 0x702004

/-- 0x7020:05 husk.link.command. -/
abbrev Obj.huskLinkCommand : Nat := 0x702005

/-- 0x7020:06 husk.link.tag_failures. -/
abbrev Obj.huskLinkTagFailures : Nat := 0x702006

/-- 0x7020:07 husk.link.flits_sent. -/
abbrev Obj.huskLinkFlitsSent : Nat := 0x702007

/-- 0x9000:20 cask.key_blob. -/
abbrev Obj.caskKeyBlob : Nat := 0x900020

/-- 0x9000:21 cask.key_state. -/
abbrev Obj.caskKeyState : Nat := 0x900021

/-- 0x9000:22 cask.key_id. -/
abbrev Obj.caskKeyId : Nat := 0x900022

/-- 0x9000:23 cask.key_command. -/
abbrev Obj.caskKeyCommand : Nat := 0x900023

/-- 0xC000:01 security.debug_state. -/
abbrev Obj.securityDebugState : Nat := 0xC00001

/-- 0xC000:02 security.debug_close. -/
abbrev Obj.securityDebugClose : Nat := 0xC00002

/-- 0xC000:03 security.zeroise_all. -/
abbrev Obj.securityZeroiseAll : Nat := 0xC00003

/-- 0xC000:04 security.entropy_state. -/
abbrev Obj.securityEntropyState : Nat := 0xC00004

/-- 0xB000:01 cache.ways. -/
abbrev Obj.cacheWays : Nat := 0xB00001

/-- 0xB000:02 cache.scratch_ways. -/
abbrev Obj.cacheScratchWays : Nat := 0xB00002

/-- 0xB000:03 cache.scratch_base. -/
abbrev Obj.cacheScratchBase : Nat := 0xB00003

/-- 0xB000:04 cache.scratch_change_us. -/
abbrev Obj.cacheScratchChangeUs : Nat := 0xB00004

/-- 0xB000:05 cache.scratch_clear. -/
abbrev Obj.cacheScratchClear : Nat := 0xB00005

/-- 0xB000:06 cache.flush. -/
abbrev Obj.cacheFlush : Nat := 0xB00006

/-- 0xB000:07 cache.dirty_lines. -/
abbrev Obj.cacheDirtyLines : Nat := 0xB00007

/-- 0xB000:08 cache.bypass_fills. -/
abbrev Obj.cacheBypassFills : Nat := 0xB00008

/-- 0xB000:09 cache.heavy_lines. -/
abbrev Obj.cacheHeavyLines : Nat := 0xB00009

/-- 0xB000:0A cache.prefetch_issued. -/
abbrev Obj.cachePrefetchIssued : Nat := 0xB0000A

/-- 0xB000:0B cache.prefetch_used. -/
abbrev Obj.cachePrefetchUsed : Nat := 0xB0000B

/-- 0xB000:0C cache.prefetch_unused. -/
abbrev Obj.cachePrefetchUnused : Nat := 0xB0000C

/-- 0xB000:0D cache.prefetch_killed. -/
abbrev Obj.cachePrefetchKilled : Nat := 0xB0000D

/-- 0xB000:0E cache.prefetch_depth. -/
abbrev Obj.cachePrefetchDepth : Nat := 0xB0000E

/-- 0xB010:01 cache.region.policy. -/
abbrev Obj.cacheRegionPolicy : Nat := 0xB01001

/-- 0xB010:02 cache.region.prefetch. -/
abbrev Obj.cacheRegionPrefetch : Nat := 0xB01002

/-- 0x5000:01 ddr.mirror_pairs. -/
abbrev Obj.ddrMirrorPairs : Nat := 0x500001

/-- 0x5000:02 ddr.freeze_limit_us. -/
abbrev Obj.ddrFreezeLimitUs : Nat := 0x500002

/-- 0x5000:03 ddr.retry_limit. -/
abbrev Obj.ddrRetryLimit : Nat := 0x500003

/-- 0x5000:04 ddr.burst_subch_depth. -/
abbrev Obj.ddrBurstSubchDepth : Nat := 0x500004

/-- 0x5000:05 ddr.burst_bank_depth. -/
abbrev Obj.ddrBurstBankDepth : Nat := 0x500005

/-- 0x5000:06 ddr.freq_request. -/
abbrev Obj.ddrFreqRequest : Nat := 0x500006

/-- 0x5000:07 ddr.freq_change_us. -/
abbrev Obj.ddrFreqChangeUs : Nat := 0x500007

/-- 0x5000:08 ddr.frozen_channels. -/
abbrev Obj.ddrFrozenChannels : Nat := 0x500008

/-- 0x5010:01 ddr.chan.capacity_gib. -/
abbrev Obj.ddrChanCapacityGib : Nat := 0x501001

/-- 0x5010:02 ddr.chan.dimms. -/
abbrev Obj.ddrChanDimms : Nat := 0x501002

/-- 0x5010:03 ddr.chan.train_status. -/
abbrev Obj.ddrChanTrainStatus : Nat := 0x501003

/-- 0x5010:04 ddr.chan.fsp0_mts. -/
abbrev Obj.ddrChanFsp0Mts : Nat := 0x501004

/-- 0x5010:05 ddr.chan.fsp1_mts. -/
abbrev Obj.ddrChanFsp1Mts : Nat := 0x501005

/-- 0x5010:06 ddr.chan.active_fsp. -/
abbrev Obj.ddrChanActiveFsp : Nat := 0x501006

/-- 0x5010:07 ddr.chan.freeze_state. -/
abbrev Obj.ddrChanFreezeState : Nat := 0x501007

/-- 0x5010:08 ddr.chan.snapshot. -/
abbrev Obj.ddrChanSnapshot : Nat := 0x501008

/-- 0x5010:09 ddr.chan.command. -/
abbrev Obj.ddrChanCommand : Nat := 0x501009

/-- 0x5010:0A ddr.chan.poison_list_used. -/
abbrev Obj.ddrChanPoisonListUsed : Nat := 0x50100A

/-- 0x5010:0B ddr.chan.retries. -/
abbrev Obj.ddrChanRetries : Nat := 0x50100B

/-- 0x5010:0C ddr.chan.rereads_ok. -/
abbrev Obj.ddrChanRereadsOk : Nat := 0x50100C

/-- 0x5010:0D ddr.chan.freezes. -/
abbrev Obj.ddrChanFreezes : Nat := 0x50100D

/-- 0x5010:0E ddr.chan.resilver_mib. -/
abbrev Obj.ddrChanResilverMib : Nat := 0x50100E

/-- 0x5010:0F ddr.chan.temp_c. -/
abbrev Obj.ddrChanTempC : Nat := 0x50100F

/-- 0x5010:10 ddr.chan.refresh_balance. -/
abbrev Obj.ddrChanRefreshBalance : Nat := 0x501010

/-- 0x5020:01 ddr.region.mirror. -/
abbrev Obj.ddrRegionMirror : Nat := 0x502001

/-- 0x5080:01 ddr.helper.command. -/
abbrev Obj.ddrHelperCommand : Nat := 0x508001

/-- 0x5080:02 ddr.helper.result. -/
abbrev Obj.ddrHelperResult : Nat := 0x508002

/-- 0x5800:01 hbm.capacity_mib. -/
abbrev Obj.hbmCapacityMib : Nat := 0x580001

/-- 0x5800:02 hbm.persist_reserve_mib. -/
abbrev Obj.hbmPersistReserveMib : Nat := 0x580002

/-- 0x5800:03 hbm.reserve_dirty_mib. -/
abbrev Obj.hbmReserveDirtyMib : Nat := 0x580003

/-- 0x5800:04 hbm.resident_share_mib. -/
abbrev Obj.hbmResidentShareMib : Nat := 0x580004

/-- 0x5800:05 hbm.mirror_mib. -/
abbrev Obj.hbmMirrorMib : Nat := 0x580005

/-- 0x5800:06 hbm.hot_mib. -/
abbrev Obj.hbmHotMib : Nat := 0x580006

/-- 0x5800:07 hbm.reserve_change_us. -/
abbrev Obj.hbmReserveChangeUs : Nat := 0x580007

/-- 0x5800:08 hbm.temp_c. -/
abbrev Obj.hbmTempC : Nat := 0x580008

/-- 0x5800:09 hbm.mirror_waits. -/
abbrev Obj.hbmMirrorWaits : Nat := 0x580009

/-- 0x5800:0A hbm.reserve_waits. -/
abbrev Obj.hbmReserveWaits : Nat := 0x58000A

/-- 0x6000:01 kiln.channels_online. -/
abbrev Obj.kilnChannelsOnline : Nat := 0x600001

/-- 0x6000:02 kiln.media_set. -/
abbrev Obj.kilnMediaSet : Nat := 0x600002

/-- 0x6000:03 kiln.persist_time_us. -/
abbrev Obj.kilnPersistTimeUs : Nat := 0x600003

/-- 0x6000:04 kiln.holdup_us. -/
abbrev Obj.kilnHoldupUs : Nat := 0x600004

/-- 0x6000:05 kiln.persist_power_w. -/
abbrev Obj.kilnPersistPowerW : Nat := 0x600005

/-- 0x6000:06 kiln.persist_clean. -/
abbrev Obj.kilnPersistClean : Nat := 0x600006

/-- 0x6000:07 kiln.gpf_flushes. -/
abbrev Obj.kilnGpfFlushes : Nat := 0x600007

/-- 0x6000:08 kiln.reserve_dirty_limit_mib. -/
abbrev Obj.kilnReserveDirtyLimitMib : Nat := 0x600008

/-- 0x6010:01 kiln.rekiln_age_h. -/
abbrev Obj.kilnRekilnAgeH : Nat := 0x601001

/-- 0x6010:02 kiln.retention_h. -/
abbrev Obj.kilnRetentionH : Nat := 0x601002

/-- 0x6010:03 kiln.open_block_max_h. -/
abbrev Obj.kilnOpenBlockMaxH : Nat := 0x601003

/-- 0x6010:04 kiln.reclaim_live_pct. -/
abbrev Obj.kilnReclaimLivePct : Nat := 0x601004

/-- 0x6010:05 kiln.trim_symbols. -/
abbrev Obj.kilnTrimSymbols : Nat := 0x601005

/-- 0x6010:06 kiln.reread_max. -/
abbrev Obj.kilnRereadMax : Nat := 0x601006

/-- 0x6010:07 kiln.offline_drift_steps. -/
abbrev Obj.kilnOfflineDriftSteps : Nat := 0x601007

/-- 0x6010:08 kiln.endurance_cycles. -/
abbrev Obj.kilnEnduranceCycles : Nat := 0x601008

/-- 0x6010:09 kiln.wear_warn_pct. -/
abbrev Obj.kilnWearWarnPct : Nat := 0x601009

/-- 0x6010:0A kiln.spare_pct. -/
abbrev Obj.kilnSparePct : Nat := 0x60100A

/-- 0x6010:0B kiln.witness_dropped. -/
abbrev Obj.kilnWitnessDropped : Nat := 0x60100B

/-- 0x6040:01 kiln.chan.packages. -/
abbrev Obj.kilnChanPackages : Nat := 0x604001

/-- 0x6040:02 kiln.chan.package_gib. -/
abbrev Obj.kilnChanPackageGib : Nat := 0x604002

/-- 0x6040:03 kiln.chan.root_state. -/
abbrev Obj.kilnChanRootState : Nat := 0x604003

/-- 0x6040:04 kiln.chan.command. -/
abbrev Obj.kilnChanCommand : Nat := 0x604004

/-- 0x6040:05 kiln.chan.blocks_free. -/
abbrev Obj.kilnChanBlocksFree : Nat := 0x604005

/-- 0x6040:06 kiln.chan.spares. -/
abbrev Obj.kilnChanSpares : Nat := 0x604006

/-- 0x6040:07 kiln.chan.life_used_ppm. -/
abbrev Obj.kilnChanLifeUsedPpm : Nat := 0x604007

/-- 0x6040:08 kiln.chan.max_wear. -/
abbrev Obj.kilnChanMaxWear : Nat := 0x604008

/-- 0x6040:09 kiln.chan.oldest_age_h. -/
abbrev Obj.kilnChanOldestAgeH : Nat := 0x604009

/-- 0x6040:0A kiln.chan.uncorrectable. -/
abbrev Obj.kilnChanUncorrectable : Nat := 0x60400A

/-- 0x6040:0B kiln.chan.rescued. -/
abbrev Obj.kilnChanRescued : Nat := 0x60400B

/-- 0x6040:0C kiln.chan.program_fails. -/
abbrev Obj.kilnChanProgramFails : Nat := 0x60400C

/-- 0x6040:0D kiln.chan.bus_errors. -/
abbrev Obj.kilnChanBusErrors : Nat := 0x60400D

/-- 0x6040:0E kiln.chan.read_latency_ns. -/
abbrev Obj.kilnChanReadLatencyNs : Nat := 0x60400E

/-- 0x6120:01 kiln.max_programs. -/
abbrev Obj.kilnMaxPrograms : Nat := 0x612001

/-- 0x6120:02 kiln.suspend_wait_ns. -/
abbrev Obj.kilnSuspendWaitNs : Nat := 0x612002

/-- 0x6120:03 kiln.program_slice_ns. -/
abbrev Obj.kilnProgramSliceNs : Nat := 0x612003

/-- 0x6120:04 kiln.write_suspend_max. -/
abbrev Obj.kilnWriteSuspendMax : Nat := 0x612004

/-- 0x6120:05 kiln.suspends. -/
abbrev Obj.kilnSuspends : Nat := 0x612005

/-- 0x6120:06 kiln.suspend_aborts. -/
abbrev Obj.kilnSuspendAborts : Nat := 0x612006

/-- 0xB800:01 integrity.parity_clean. -/
abbrev Obj.integrityParityClean : Nat := 0xB80001

/-- 0xB800:02 integrity.parity_dirty. -/
abbrev Obj.integrityParityDirty : Nat := 0xB80002

/-- 0xB800:03 integrity.repair_dropped. -/
abbrev Obj.integrityRepairDropped : Nat := 0xB80003

/-- 0xB800:04 integrity.sf_corrected. -/
abbrev Obj.integritySfCorrected : Nat := 0xB80004

/-- 0xB800:05 integrity.hbm_uncorrectable. -/
abbrev Obj.integrityHbmUncorrectable : Nat := 0xB80005

/-- 0xB800:06 integrity.poisoned_lines. -/
abbrev Obj.integrityPoisonedLines : Nat := 0xB80006

/-- 0xB810:01 sparge.period_h_hbm. -/
abbrev Obj.spargePeriodHHbm : Nat := 0xB81001

/-- 0xB810:02 sparge.period_h_ddr. -/
abbrev Obj.spargePeriodHDdr : Nat := 0xB81002

/-- 0xB810:03 sparge.period_h_nvm. -/
abbrev Obj.spargePeriodHNvm : Nat := 0xB81003

/-- 0xB810:04 sparge.rate_hbm_mbs. -/
abbrev Obj.spargeRateHbmMbs : Nat := 0xB81004

/-- 0xB810:05 sparge.rate_ddr_mbs. -/
abbrev Obj.spargeRateDdrMbs : Nat := 0xB81005

/-- 0xB810:06 sparge.rate_nvm_mbs. -/
abbrev Obj.spargeRateNvmMbs : Nat := 0xB81006

/-- 0xB810:07 sparge.nvm_rewrite_symbols. -/
abbrev Obj.spargeNvmRewriteSymbols : Nat := 0xB81007

/-- 0xB810:08 sparge.zero_rate_hbm_mbs. -/
abbrev Obj.spargeZeroRateHbmMbs : Nat := 0xB81008

/-- 0xB810:09 sparge.zero_rate_ddr_mbs. -/
abbrev Obj.spargeZeroRateDdrMbs : Nat := 0xB81009

/-- 0xB819:01 sparge.tier.progress_ppm. -/
abbrev Obj.spargeTierProgressPpm : Nat := 0xB81901

/-- 0xB819:02 sparge.tier.last_pass_tc. -/
abbrev Obj.spargeTierLastPassTc : Nat := 0xB81902

/-- 0xB819:03 sparge.tier.debt. -/
abbrev Obj.spargeTierDebt : Nat := 0xB81903

/-- 0xB819:04 sparge.tier.corrected. -/
abbrev Obj.spargeTierCorrected : Nat := 0xB81904

/-- 0xB830:01 retlog.producer. -/
abbrev Obj.retlogProducer : Nat := 0xB83001

/-- 0xB830:02 retlog.consumer. -/
abbrev Obj.retlogConsumer : Nat := 0xB83002

/-- 0xB830:03 retlog.entries. -/
abbrev Obj.retlogEntries : Nat := 0xB83003

/-- 0xB830:04 retlog.lost. -/
abbrev Obj.retlogLost : Nat := 0xB83004

/-- 0xB830:05 retlog.page_threshold. -/
abbrev Obj.retlogPageThreshold : Nat := 0xB83005

/-- 0xB830:06 retlog.bank_threshold. -/
abbrev Obj.retlogBankThreshold : Nat := 0xB83006

/-- 0xB830:07 retlog.device_threshold. -/
abbrev Obj.retlogDeviceThreshold : Nat := 0xB83007

/-- 0xB830:08 retlog.halving_h. -/
abbrev Obj.retlogHalvingH : Nat := 0xB83008

/-- 0x8000:01 link.burst_read_slots. -/
abbrev Obj.linkBurstReadSlots : Nat := 0x800001

/-- 0x8000:02 link.read_slots. -/
abbrev Obj.linkReadSlots : Nat := 0x800002

/-- 0x8000:03 link.change_us. -/
abbrev Obj.linkChangeUs : Nat := 0x800003

/-- 0x8000:04 link.train_timeout_ms. -/
abbrev Obj.linkTrainTimeoutMs : Nat := 0x800004

/-- 0x8000:05 link.down_window_flits. -/
abbrev Obj.linkDownWindowFlits : Nat := 0x800005

/-- 0x8000:06 link.down_threshold. -/
abbrev Obj.linkDownThreshold : Nat := 0x800006

/-- 0x8000:07 link.retrain_threshold. -/
abbrev Obj.linkRetrainThreshold : Nat := 0x800007

/-- 0x8000:08 link.retrain_max. -/
abbrev Obj.linkRetrainMax : Nat := 0x800008

/-- 0x8000:09 link.replay_timeout_ns. -/
abbrev Obj.linkReplayTimeoutNs : Nat := 0x800009

/-- 0x8000:0A link.replay_max. -/
abbrev Obj.linkReplayMax : Nat := 0x80000A

/-- 0x8000:0B link.credit_interval_flits. -/
abbrev Obj.linkCreditIntervalFlits : Nat := 0x80000B

/-- 0x8000:0C link.rx_slots. -/
abbrev Obj.linkRxSlots : Nat := 0x80000C

/-- 0x8010:01 link.state. -/
abbrev Obj.linkState : Nat := 0x801001

/-- 0x8010:02 link.command. -/
abbrev Obj.linkCommand : Nat := 0x801002

/-- 0x8010:03 link.enable. -/
abbrev Obj.linkEnable : Nat := 0x801003

/-- 0x8010:04 link.max_speed. -/
abbrev Obj.linkMaxSpeed : Nat := 0x801004

/-- 0x8010:05 link.max_width. -/
abbrev Obj.linkMaxWidth : Nat := 0x801005

/-- 0x8010:06 link.vc_offer. -/
abbrev Obj.linkVcOffer : Nat := 0x801006

/-- 0x8010:07 link.vc_ordered. -/
abbrev Obj.linkVcOrdered : Nat := 0x801007

/-- 0x8010:08 link.event_vc. -/
abbrev Obj.linkEventVc : Nat := 0x801008

/-- 0x8010:09 link.wb_credits. -/
abbrev Obj.linkWbCredits : Nat := 0x801009

/-- 0x8010:0A link.auto_retrain. -/
abbrev Obj.linkAutoRetrain : Nat := 0x80100A

/-- 0x8010:0B link.down_hold_ms. -/
abbrev Obj.linkDownHoldMs : Nat := 0x80100B

/-- 0x8010:0C link.change_target. -/
abbrev Obj.linkChangeTarget : Nat := 0x80100C

/-- 0x8010:0D link.change_result. -/
abbrev Obj.linkChangeResult : Nat := 0x80100D

/-- 0x8010:0E link.width. -/
abbrev Obj.linkWidth : Nat := 0x80100E

/-- 0x8010:0F link.speed. -/
abbrev Obj.linkSpeed : Nat := 0x80100F

/-- 0x8010:10 link.vcs. -/
abbrev Obj.linkVcs : Nat := 0x801010

/-- 0x8010:11 link.endpoint_id. -/
abbrev Obj.linkEndpointId : Nat := 0x801011

/-- 0x8010:12 link.crc_errors. -/
abbrev Obj.linkCrcErrors : Nat := 0x801012

/-- 0x8010:13 link.protocol_errors. -/
abbrev Obj.linkProtocolErrors : Nat := 0x801013

/-- 0x8010:14 link.replays. -/
abbrev Obj.linkReplays : Nat := 0x801014

/-- 0x8010:15 link.retrains. -/
abbrev Obj.linkRetrains : Nat := 0x801015

/-- 0x8010:16 link.change_crossed. -/
abbrev Obj.linkChangeCrossed : Nat := 0x801016

/-- 0x8010:17 link.down_count. -/
abbrev Obj.linkDownCount : Nat := 0x801017

/-- 0x8010:18 link.down_cause. -/
abbrev Obj.linkDownCause : Nat := 0x801018

/-- 0x8010:19 link.events_dropped. -/
abbrev Obj.linkEventsDropped : Nat := 0x801019

/-- 0x7800:01 hopper.channels. -/
abbrev Obj.hopperChannels : Nat := 0x780001

/-- 0x7800:02 hopper.queue_table_dla. -/
abbrev Obj.hopperQueueTableDla : Nat := 0x780002

/-- 0x7800:03 hopper.queue_command. -/
abbrev Obj.hopperQueueCommand : Nat := 0x780003

/-- 0x7800:04 hopper.doorbell_base. -/
abbrev Obj.hopperDoorbellBase : Nat := 0x780004

/-- 0x7800:05 hopper.queues_loaded. -/
abbrev Obj.hopperQueuesLoaded : Nat := 0x780005

/-- 0x7800:06 hopper.states_cached. -/
abbrev Obj.hopperStatesCached : Nat := 0x780006

/-- 0x7800:07 hopper.state_waits. -/
abbrev Obj.hopperStateWaits : Nat := 0x780007

/-- 0x7800:08 hopper.queue_errors. -/
abbrev Obj.hopperQueueErrors : Nat := 0x780008

/-- 0x7800:09 hopper.burst_bytes. -/
abbrev Obj.hopperBurstBytes : Nat := 0x780009

/-- 0x7800:0A hopper.bursts_max. -/
abbrev Obj.hopperBurstsMax : Nat := 0x78000A

/-- 0x7800:0B hopper.refusals. -/
abbrev Obj.hopperRefusals : Nat := 0x78000B

/-- 0x7800:0C hopper.faults. -/
abbrev Obj.hopperFaults : Nat := 0x78000C

/-- 0x7840:01 hopper.chan.queue. -/
abbrev Obj.hopperChanQueue : Nat := 0x784001

/-- 0x7840:02 hopper.chan.priority. -/
abbrev Obj.hopperChanPriority : Nat := 0x784002

/-- 0x7840:03 hopper.chan.max_inflight. -/
abbrev Obj.hopperChanMaxInflight : Nat := 0x784003

/-- 0x7840:04 hopper.chan.state. -/
abbrev Obj.hopperChanState : Nat := 0x784004

/-- 0x7840:05 hopper.chan.command. -/
abbrev Obj.hopperChanCommand : Nat := 0x784005

/-- 0x7840:06 hopper.chan.context. -/
abbrev Obj.hopperChanContext : Nat := 0x784006

/-- 0x7840:07 hopper.chan.bytes. -/
abbrev Obj.hopperChanBytes : Nat := 0x784007

/-- 0x7880:01 hopper.event.pulse. -/
abbrev Obj.hopperEventPulse : Nat := 0x788001

/-- 0x7880:02 hopper.event.out_width_tc. -/
abbrev Obj.hopperEventOutWidthTc : Nat := 0x788002

/-- 0x7880:03 hopper.event.rejected. -/
abbrev Obj.hopperEventRejected : Nat := 0x788003

/-- 0x7880:04 hopper.event.merged. -/
abbrev Obj.hopperEventMerged : Nat := 0x788004

/-- 0x7900:01 hopper.event.line.input. -/
abbrev Obj.hopperEventLineInput : Nat := 0x790001

/-- 0x7900:02 hopper.event.line.route. -/
abbrev Obj.hopperEventLineRoute : Nat := 0x790002

/-- 0x7900:03 hopper.event.line.count. -/
abbrev Obj.hopperEventLineCount : Nat := 0x790003

/-- 0x9800:01 fold.alias_base. -/
abbrev Obj.foldAliasBase : Nat := 0x980001

/-- 0x9800:02 fold.lanes. -/
abbrev Obj.foldLanes : Nat := 0x980002

/-- 0x9800:03 fold.queue_lines. -/
abbrev Obj.foldQueueLines : Nat := 0x980003

/-- 0x9800:04 fold.line_folds. -/
abbrev Obj.foldLineFolds : Nat := 0x980004

/-- 0x9800:05 fold.dropped. -/
abbrev Obj.foldDropped : Nat := 0x980005

/-- 0x9800:06 fold.saturated. -/
abbrev Obj.foldSaturated : Nat := 0x980006

/-- 0x9800:07 fold.fences. -/
abbrev Obj.foldFences : Nat := 0x980007

/-- 0x9800:08 fold.alias_partial. -/
abbrev Obj.foldAliasPartial : Nat := 0x980008

/-- 0x9800:09 capture.wait_limit_us. -/
abbrev Obj.captureWaitLimitUs : Nat := 0x980009

/-- 0x9800:0A capture.records. -/
abbrev Obj.captureRecords : Nat := 0x98000A

/-- 0x9800:0B capture.dropped. -/
abbrev Obj.captureDropped : Nat := 0x98000B

/-- 0x9800:0C capture.rejected. -/
abbrev Obj.captureRejected : Nat := 0x98000C

/-- 0x9810:01 fold.alias.target. -/
abbrev Obj.foldAliasTarget : Nat := 0x981001

/-- 0x9810:02 fold.alias.length_kib. -/
abbrev Obj.foldAliasLengthKib : Nat := 0x981002

/-- 0x9820:01 capture.link.full_policy. -/
abbrev Obj.captureLinkFullPolicy : Nat := 0x982001

/-- 0x9820:02 capture.link.dropped. -/
abbrev Obj.captureLinkDropped : Nat := 0x982002

/-- 0x1000:01 id.vendor. -/
abbrev Obj.idVendor : Nat := 0x100001

/-- 0x1000:02 id.product. -/
abbrev Obj.idProduct : Nat := 0x100002

/-- 0x1000:03 id.revision. -/
abbrev Obj.idRevision : Nat := 0x100003

/-- 0x1000:04 id.serial. -/
abbrev Obj.idSerial : Nat := 0x100004

/-- 0x1000:05 id.firmware. -/
abbrev Obj.idFirmware : Nat := 0x100005

/-- 0x1000:06 id.dictionary_version. -/
abbrev Obj.idDictionaryVersion : Nat := 0x100006

/-- 0x1010:01 dict.restore_defaults. -/
abbrev Obj.dictRestoreDefaults : Nat := 0x101001

/-- 0x1010:02 dict.piece_timeout_ms. -/
abbrev Obj.dictPieceTimeoutMs : Nat := 0x101002

/-- 0x1010:03 dict.pieces_abandoned. -/
abbrev Obj.dictPiecesAbandoned : Nat := 0x101003

/-- 0x1020:01 field.node_address. -/
abbrev Obj.fieldNodeAddress : Nat := 0x102001

/-- 0x1020:02 field.address_source. -/
abbrev Obj.fieldAddressSource : Nat := 0x102002

/-- 0x1020:03 field.slot_straps. -/
abbrev Obj.fieldSlotStraps : Nat := 0x102003

/-- 0x1020:04 field.heartbeat_ms. -/
abbrev Obj.fieldHeartbeatMs : Nat := 0x102004

/-- 0x1020:05 field.alarm_min_severity. -/
abbrev Obj.fieldAlarmMinSeverity : Nat := 0x102005

/-- 0x1020:06 field.transfer_timeout_ms. -/
abbrev Obj.fieldTransferTimeoutMs : Nat := 0x102006

/-- 0x1020:07 field.bus_state. -/
abbrev Obj.fieldBusState : Nat := 0x102007

/-- 0x1020:08 field.tx_error_count. -/
abbrev Obj.fieldTxErrorCount : Nat := 0x102008

/-- 0x1020:09 field.rx_error_count. -/
abbrev Obj.fieldRxErrorCount : Nat := 0x102009

/-- 0x1020:0A field.bus_off_count. -/
abbrev Obj.fieldBusOffCount : Nat := 0x10200A

/-- 0x1020:0B field.frames_malformed. -/
abbrev Obj.fieldFramesMalformed : Nat := 0x10200B

/-- 0x1020:0C field.alarms_lost. -/
abbrev Obj.fieldAlarmsLost : Nat := 0x10200C

/-- 0x1020:0D field.transfers_abandoned. -/
abbrev Obj.fieldTransfersAbandoned : Nat := 0x10200D

/-- 0x1020:0E field.address_conflicts. -/
abbrev Obj.fieldAddressConflicts : Nat := 0x10200E

/-- 0x1800:01 desc.select. -/
abbrev Obj.descSelect : Nat := 0x180001

/-- 0x1800:02 desc.record. -/
abbrev Obj.descRecord : Nat := 0x180002

/-- 0x1800:03 desc.count. -/
abbrev Obj.descCount : Nat := 0x180003

/-- 0x3000:01 seedbank.state. -/
abbrev Obj.seedbankState : Nat := 0x300001

/-- 0x3000:02 seedbank.protect. -/
abbrev Obj.seedbankProtect : Nat := 0x300002

/-- 0x3000:03 seedbank.protect_set. -/
abbrev Obj.seedbankProtectSet : Nat := 0x300003

/-- 0x3000:04 seedbank.scan_ms. -/
abbrev Obj.seedbankScanMs : Nat := 0x300004

/-- 0x3000:05 seedbank.records_torn. -/
abbrev Obj.seedbankRecordsTorn : Nat := 0x300005

/-- 0x3000:06 seedbank.records_bad. -/
abbrev Obj.seedbankRecordsBad : Nat := 0x300006

/-- 0x3000:07 seedbank.conflicts. -/
abbrev Obj.seedbankConflicts : Nat := 0x300007

/-- 0x3000:08 seedbank.free_kib. -/
abbrev Obj.seedbankFreeKib : Nat := 0x300008

/-- 0x3000:09 seedbank.erased_sectors. -/
abbrev Obj.seedbankErasedSectors : Nat := 0x300009

/-- 0x3000:0A seedbank.compactions. -/
abbrev Obj.seedbankCompactions : Nat := 0x30000A

/-- 0x3000:0B seedbank.max_erase_count. -/
abbrev Obj.seedbankMaxEraseCount : Nat := 0x30000B

/-- 0x3000:0C seedbank.allowance_kib. -/
abbrev Obj.seedbankAllowanceKib : Nat := 0x30000C

/-- 0x3000:0D seedbank.log_deferred. -/
abbrev Obj.seedbankLogDeferred : Nat := 0x30000D

/-- 0x3000:0E seedbank.boot_image. -/
abbrev Obj.seedbankBootImage : Nat := 0x30000E

/-- 0x3000:0F seedbank.powerup_count. -/
abbrev Obj.seedbankPowerupCount : Nat := 0x30000F

/-- 0x2000:01 power.state. -/
abbrev Obj.powerState : Nat := 0x200001

/-- 0x2000:02 power.command. -/
abbrev Obj.powerCommand : Nat := 0x200002

/-- 0x2000:03 power.pg_out. -/
abbrev Obj.powerPgOut : Nat := 0x200003

/-- 0x2000:04 power.feed_a_mv. -/
abbrev Obj.powerFeedAMv : Nat := 0x200004

/-- 0x2000:05 power.feed_b_mv. -/
abbrev Obj.powerFeedBMv : Nat := 0x200005

/-- 0x2000:06 power.vout_mv. -/
abbrev Obj.powerVoutMv : Nat := 0x200006

/-- 0x2000:07 power.current_ma. -/
abbrev Obj.powerCurrentMa : Nat := 0x200007

/-- 0x2000:08 power.feed_status. -/
abbrev Obj.powerFeedStatus : Nat := 0x200008

/-- 0x2000:09 power.fet_temp_c. -/
abbrev Obj.powerFetTempC : Nat := 0x200009

/-- 0x2000:0A power.fet_model_c. -/
abbrev Obj.powerFetModelC : Nat := 0x20000A

/-- 0x2000:0B power.trip_record. -/
abbrev Obj.powerTripRecord : Nat := 0x20000B

/-- 0x2000:0C power.trip_count. -/
abbrev Obj.powerTripCount : Nat := 0x20000C

/-- 0x2000:0D power.retries. -/
abbrev Obj.powerRetries : Nat := 0x20000D

/-- 0x2010:01 power.curve. -/
abbrev Obj.powerCurve : Nat := 0x201001

/-- 0x2010:02 power.instant_ma. -/
abbrev Obj.powerInstantMa : Nat := 0x201002

/-- 0x2010:03 power.inrush_slew_mv_per_ms. -/
abbrev Obj.powerInrushSlewMvPerMs : Nat := 0x201003

/-- 0x2010:04 power.ramp_max_ms. -/
abbrev Obj.powerRampMaxMs : Nat := 0x201004

/-- 0x2010:05 power.gate_on_mv. -/
abbrev Obj.powerGateOnMv : Nat := 0x201005

/-- 0x2010:06 power.retry_ms. -/
abbrev Obj.powerRetryMs : Nat := 0x201006

/-- 0x2010:07 power.retry_max. -/
abbrev Obj.powerRetryMax : Nat := 0x201007

/-- 0x2010:08 power.retry_clear_s. -/
abbrev Obj.powerRetryClearS : Nat := 0x201008

/-- 0x2010:09 power.pg_vout_mv. -/
abbrev Obj.powerPgVoutMv : Nat := 0x201009

/-- 0x2010:0A power.brownout_mv. -/
abbrev Obj.powerBrownoutMv : Nat := 0x20100A

/-- 0x2010:0B power.feed_uv_mv. -/
abbrev Obj.powerFeedUvMv : Nat := 0x20100B

/-- 0x2010:0C power.feed_ov_mv. -/
abbrev Obj.powerFeedOvMv : Nat := 0x20100C

/-- 0x2020:01 power.fet_temp_source. -/
abbrev Obj.powerFetTempSource : Nat := 0x202001

/-- 0x2020:02 power.fet_rth_mc_per_w. -/
abbrev Obj.powerFetRthMcPerW : Nat := 0x202002

/-- 0x2020:03 power.fet_tau_ms. -/
abbrev Obj.powerFetTauMs : Nat := 0x202003

/-- 0x2020:04 power.ambient_c. -/
abbrev Obj.powerAmbientC : Nat := 0x202004

/-- 0x2020:05 power.fet_trip_c. -/
abbrev Obj.powerFetTripC : Nat := 0x202005

/-- 0x2020:06 power.fet_cool_c. -/
abbrev Obj.powerFetCoolC : Nat := 0x202006

/-- 0x2800:01 mode.current. -/
abbrev Obj.modeCurrent : Nat := 0x280001

/-- 0x2800:02 mode.command. -/
abbrev Obj.modeCommand : Nat := 0x280002

/-- 0x2800:03 mode.previous. -/
abbrev Obj.modePrevious : Nat := 0x280003

/-- 0x2800:04 mode.auto_train. -/
abbrev Obj.modeAutoTrain : Nat := 0x280004

/-- 0x2800:05 mode.train_limit_ms. -/
abbrev Obj.modeTrainLimitMs : Nat := 0x280005

/-- 0x2800:06 mode.drain_state. -/
abbrev Obj.modeDrainState : Nat := 0x280006

/-- 0x2800:07 mode.drain_absorb. -/
abbrev Obj.modeDrainAbsorb : Nat := 0x280007

/-- 0x2800:08 mode.build. -/
abbrev Obj.modeBuild : Nat := 0x280008

/-- 0x2800:09 mode.reset_cause. -/
abbrev Obj.modeResetCause : Nat := 0x280009

/-- 0x2800:0A mode.reset_count. -/
abbrev Obj.modeResetCount : Nat := 0x28000A

/-- 0x2800:0B domains.pad_release. -/
abbrev Obj.domainsPadRelease : Nat := 0x28000B

/-- 0x2800:0C domains.pads_held. -/
abbrev Obj.domainsPadsHeld : Nat := 0x28000C

/-- 0x2810:01 domain.state. -/
abbrev Obj.domainState : Nat := 0x281001

/-- 0x2810:02 domain.command. -/
abbrev Obj.domainCommand : Nat := 0x281002

/-- 0x2810:03 domain.change_us. -/
abbrev Obj.domainChangeUs : Nat := 0x281003

/-- 0xA000:01 fault.config. -/
abbrev Obj.faultConfig : Nat := 0xA00001

/-- 0xA000:02 fault.sticky. -/
abbrev Obj.faultSticky : Nat := 0xA00002

/-- 0xA000:03 fault.clear. -/
abbrev Obj.faultClear : Nat := 0xA00003

/-- 0xA000:04 fault.edit. -/
abbrev Obj.faultEdit : Nat := 0xA00004

/-- 0xA000:05 fault.worst. -/
abbrev Obj.faultWorst : Nat := 0xA00005

/-- 0xA000:06 fault.fault_n. -/
abbrev Obj.faultFaultN : Nat := 0xA00006

/-- 0xA000:07 fault.reset_limit. -/
abbrev Obj.faultResetLimit : Nat := 0xA00007

/-- 0xA000:08 fault.reset_window_s. -/
abbrev Obj.faultResetWindowS : Nat := 0xA00008

/-- 0xA000:09 fault.nmi_count. -/
abbrev Obj.faultNmiCount : Nat := 0xA00009

/-- 0xA000:0A fault.integrity_errors. -/
abbrev Obj.faultIntegrityErrors : Nat := 0xA0000A

/-- 0xA800:01 cnt.count. -/
abbrev Obj.cntCount : Nat := 0xA80001

/-- 0xA800:02 cnt.filter_select. -/
abbrev Obj.cntFilterSelect : Nat := 0xA80002

/-- 0xA800:03 cnt.filter_gen. -/
abbrev Obj.cntFilterGen : Nat := 0xA80003

/-- 0xA800:04 cnt.describe_select. -/
abbrev Obj.cntDescribeSelect : Nat := 0xA80004

/-- 0xA800:05 cnt.describe. -/
abbrev Obj.cntDescribe : Nat := 0xA80005

/-- 0xA800:10 cnt.dump_base. -/
abbrev Obj.cntDumpBase : Nat := 0xA80010

/-- 0xA800:11 cnt.dump_records. -/
abbrev Obj.cntDumpRecords : Nat := 0xA80011

/-- 0xA800:12 cnt.dump_start_tc. -/
abbrev Obj.cntDumpStartTc : Nat := 0xA80012

/-- 0xA800:13 cnt.dump_period_tc. -/
abbrev Obj.cntDumpPeriodTc : Nat := 0xA80013

/-- 0xA800:14 cnt.dump_now. -/
abbrev Obj.cntDumpNow : Nat := 0xA80014

/-- 0xA800:15 cnt.dump_producer. -/
abbrev Obj.cntDumpProducer : Nat := 0xA80015

/-- 0xA800:16 cnt.dump_consumer. -/
abbrev Obj.cntDumpConsumer : Nat := 0xA80016

/-- 0xA800:17 cnt.dumps_skipped. -/
abbrev Obj.cntDumpsSkipped : Nat := 0xA80017

/-- 0xA820:01 cnt.filter. -/
abbrev Obj.cntFilter : Nat := 0xA82001

/-- 0xA900:01 cnt.value. -/
abbrev Obj.cntValue : Nat := 0xA90001

/-- 0x9000:30 cask.counter_marks. -/
abbrev Obj.caskCounterMarks : Nat := 0x900030

/-- 0x1030:01 package.tj_c. -/
abbrev Obj.packageTjC : Nat := 0x103001

/-- 0x1030:02 package.tj_peak_c. -/
abbrev Obj.packageTjPeakC : Nat := 0x103002

/-- 0x1030:03 package.strap_unstable. -/
abbrev Obj.packageStrapUnstable : Nat := 0x103003

/-- The objects of the range from 0x1000. -/
def objRows1000 : List ObjRow :=
  [ ⟨0x1000, 1, 0x01, 1, "id.vendor", .text, .const, 16, 28273320372630873, .any, 2, false⟩,
    ⟨0x1000, 1, 0x02, 1, "id.product", .text, .const, 16, 55212680692807, .any, 2, false⟩,
    ⟨0x1000, 1, 0x03, 1, "id.revision", .text, .const, 4, 12354, .any, 2, false⟩,
    ⟨0x1000, 1, 0x04, 1, "id.serial", .u64, .const, 8, 0, .any, 0, false⟩,
    ⟨0x1000, 1, 0x05, 1, "id.firmware", .text, .ro, 32, 0, .any, 2, false⟩,
    ⟨0x1000, 1, 0x06, 1, "id.dictionary_version", .u16, .const, 2, 1, .any, 0, false⟩,
    ⟨0x1010, 1, 0x01, 1, "dict.restore_defaults", .u32, .wo, 4, 0, .span 1592647408 1592647408, 0, false⟩,
    ⟨0x1010, 1, 0x02, 1, "dict.piece_timeout_ms", .u32, .rwp, 4, 1000, .span 100 60000, 8, false⟩,
    ⟨0x1010, 1, 0x03, 1, "dict.pieces_abandoned", .u32, .ro, 4, 0, .any, 1, false⟩,
    ⟨0x1020, 1, 0x01, 1, "field.node_address", .u8, .ro, 1, 0, .span 0 126, 0, false⟩,
    ⟨0x1020, 1, 0x02, 1, "field.address_source", .u8, .ro, 1, 0, .span 0 2, 0, false⟩,
    ⟨0x1020, 1, 0x03, 1, "field.slot_straps", .u8, .ro, 1, 0, .span 0 127, 0, false⟩,
    ⟨0x1020, 1, 0x04, 1, "field.heartbeat_ms", .u16, .rwp, 2, 1000, .zeroOr 10 60000, 8, false⟩,
    ⟨0x1020, 1, 0x05, 1, "field.alarm_min_severity", .u8, .rwp, 1, 1, .span 0 3, 0, false⟩,
    ⟨0x1020, 1, 0x06, 1, "field.transfer_timeout_ms", .u16, .rwp, 2, 1000, .span 10 60000, 8, false⟩,
    ⟨0x1020, 1, 0x07, 1, "field.bus_state", .u8, .ro, 1, 0, .span 0 2, 0, false⟩,
    ⟨0x1020, 1, 0x08, 1, "field.tx_error_count", .u8, .ro, 1, 0, .any, 1, false⟩,
    ⟨0x1020, 1, 0x09, 1, "field.rx_error_count", .u8, .ro, 1, 0, .any, 1, false⟩,
    ⟨0x1020, 1, 0x0A, 1, "field.bus_off_count", .u32, .ro, 4, 0, .any, 1, false⟩,
    ⟨0x1020, 1, 0x0B, 1, "field.frames_malformed", .u32, .ro, 4, 0, .any, 1, false⟩,
    ⟨0x1020, 1, 0x0C, 1, "field.alarms_lost", .u32, .ro, 4, 0, .any, 1, false⟩,
    ⟨0x1020, 1, 0x0D, 1, "field.transfers_abandoned", .u32, .ro, 4, 0, .any, 1, false⟩,
    ⟨0x1020, 1, 0x0E, 1, "field.address_conflicts", .u32, .ro, 4, 0, .any, 1, false⟩,
    ⟨0x1030, 1, 0x01, 1, "package.tj_c", .i16, .ro, 2, 0, .any, 15, false⟩,
    ⟨0x1030, 1, 0x02, 1, "package.tj_peak_c", .i16, .ro, 2, 0, .any, 15, false⟩,
    ⟨0x1030, 1, 0x03, 1, "package.strap_unstable", .u8, .ro, 1, 0, .any, 1, false⟩ ]

/-- The objects of the range from 0x1800. -/
def objRows1800 : List ObjRow :=
  [ ⟨0x1800, 1, 0x01, 1, "desc.select", .u32, .rw, 4, 0, .mask 16777215, 0, false⟩,
    ⟨0x1800, 1, 0x02, 1, "desc.record", .domain, .ro, 96, 0, .any, 2, false⟩,
    ⟨0x1800, 1, 0x03, 1, "desc.count", .u32, .const, 4, 0, .any, 1, false⟩ ]

/-- The objects of the range from 0x2000. -/
def objRows2000 : List ObjRow :=
  [ ⟨0x2000, 1, 0x01, 1, "power.state", .u8, .ro, 1, 0, .span 0 7, 0, false⟩,
    ⟨0x2000, 1, 0x02, 1, "power.command", .u8, .wo, 1, 0, .span 1 1, 0, false⟩,
    ⟨0x2000, 1, 0x03, 1, "power.pg_out", .bool, .ro, 1, 0, .span 0 1, 0, false⟩,
    ⟨0x2000, 1, 0x04, 1, "power.feed_a_mv", .u16, .ro, 2, 0, .any, 255, false⟩,
    ⟨0x2000, 1, 0x05, 1, "power.feed_b_mv", .u16, .ro, 2, 0, .any, 255, false⟩,
    ⟨0x2000, 1, 0x06, 1, "power.vout_mv", .u16, .ro, 2, 0, .any, 255, false⟩,
    ⟨0x2000, 1, 0x07, 1, "power.current_ma", .i32, .ro, 4, 0, .any, 255, false⟩,
    ⟨0x2000, 1, 0x08, 1, "power.feed_status", .u8, .ro, 1, 0, .any, 0, false⟩,
    ⟨0x2000, 1, 0x09, 1, "power.fet_temp_c", .i16, .ro, 2, 0, .any, 15, false⟩,
    ⟨0x2000, 1, 0x0A, 1, "power.fet_model_c", .i16, .ro, 2, 150, .any, 15, false⟩,
    ⟨0x2000, 1, 0x0B, 1, "power.trip_record", .octets, .ro, 16, 0, .any, 2, false⟩,
    ⟨0x2000, 1, 0x0C, 1, "power.trip_count", .u32, .ro, 4, 0, .any, 1, false⟩,
    ⟨0x2000, 1, 0x0D, 1, "power.retries", .u8, .ro, 1, 0, .any, 1, false⟩,
    ⟨0x2010, 1, 0x01, 1, "power.curve", .octets, .rwp, 64, 0, .special, 2, false⟩,
    ⟨0x2010, 1, 0x02, 1, "power.instant_ma", .u32, .rwp, 4, 200000, .live, 255, false⟩,
    ⟨0x2010, 1, 0x03, 1, "power.inrush_slew_mv_per_ms", .u16, .rwp, 2, 500, .span 100 5000, 255, false⟩,
    ⟨0x2010, 1, 0x04, 1, "power.ramp_max_ms", .u16, .rwp, 2, 60, .span 10 500, 8, false⟩,
    ⟨0x2010, 1, 0x05, 1, "power.gate_on_mv", .u16, .rwp, 2, 10000, .span 6000 11000, 255, false⟩,
    ⟨0x2010, 1, 0x06, 1, "power.retry_ms", .u32, .rwp, 4, 1000, .span 100 600000, 8, false⟩,
    ⟨0x2010, 1, 0x07, 1, "power.retry_max", .u8, .rwp, 1, 5, .span 0 16, 0, false⟩,
    ⟨0x2010, 1, 0x08, 1, "power.retry_clear_s", .u16, .rwp, 2, 60, .span 1 3600, 255, false⟩,
    ⟨0x2010, 1, 0x09, 1, "power.pg_vout_mv", .u16, .const, 2, 11200, .any, 255, false⟩,
    ⟨0x2010, 1, 0x0A, 1, "power.brownout_mv", .u16, .rwp, 2, 9000, .span 8000 10500, 255, false⟩,
    ⟨0x2010, 1, 0x0B, 1, "power.feed_uv_mv", .u16, .rwp, 2, 10800, .span 9500 11400, 255, false⟩,
    ⟨0x2010, 1, 0x0C, 1, "power.feed_ov_mv", .u16, .rwp, 2, 14500, .span 13000 15000, 255, false⟩,
    ⟨0x2020, 1, 0x01, 1, "power.fet_temp_source", .u8, .rwp, 1, 0, .span 0 2, 0, false⟩,
    ⟨0x2020, 1, 0x02, 1, "power.fet_rth_mc_per_w", .u16, .rwp, 2, 2000, .span 100 20000, 255, false⟩,
    ⟨0x2020, 1, 0x03, 1, "power.fet_tau_ms", .u16, .rwp, 2, 100, .span 1 10000, 8, false⟩,
    ⟨0x2020, 1, 0x04, 1, "power.ambient_c", .i8, .rwp, 1, 55, .span 0 100, 15, false⟩,
    ⟨0x2020, 1, 0x05, 1, "power.fet_trip_c", .u8, .rwp, 1, 150, .span 100 175, 15, false⟩,
    ⟨0x2020, 1, 0x06, 1, "power.fet_cool_c", .u8, .rwp, 1, 80, .live, 15, false⟩ ]

/-- The objects of the range from 0x2800. -/
def objRows2800 : List ObjRow :=
  [ ⟨0x2800, 1, 0x01, 1, "mode.current", .u8, .ro, 1, 0, .span 0 11, 0, false⟩,
    ⟨0x2800, 1, 0x02, 1, "mode.command", .u8, .wo, 1, 0, .span 1 7, 0, true⟩,
    ⟨0x2800, 1, 0x03, 1, "mode.previous", .u8, .ro, 1, 0, .span 0 11, 0, false⟩,
    ⟨0x2800, 1, 0x04, 1, "mode.auto_train", .u8, .rwp, 1, 1, .span 0 1, 0, false⟩,
    ⟨0x2800, 1, 0x05, 1, "mode.train_limit_ms", .u32, .rwp, 4, 5000, .span 1000 60000, 8, false⟩,
    ⟨0x2800, 1, 0x06, 1, "mode.drain_state", .u8, .ro, 1, 0, .span 0 4, 0, false⟩,
    ⟨0x2800, 1, 0x07, 1, "mode.drain_absorb", .u8, .rwp, 1, 1, .span 0 1, 0, false⟩,
    ⟨0x2800, 1, 0x08, 1, "mode.build", .u8, .ro, 1, 0, .span 0 1, 0, false⟩,
    ⟨0x2800, 1, 0x09, 1, "mode.reset_cause", .u8, .ro, 1, 0, .span 0 4, 0, false⟩,
    ⟨0x2800, 1, 0x0A, 1, "mode.reset_count", .u32, .ro, 4, 0, .any, 1, false⟩,
    ⟨0x2800, 1, 0x0B, 1, "domains.pad_release", .u8, .wo, 1, 0, .span 3 24, 0, false⟩,
    ⟨0x2800, 1, 0x0C, 1, "domains.pads_held", .u32, .ro, 4, 0, .any, 0, false⟩,
    ⟨0x2810, 31, 0x01, 1, "domain.state", .u8, .ro, 1, 0, .span 0 5, 0, false⟩,
    ⟨0x2810, 31, 0x02, 1, "domain.command", .u8, .wo, 1, 0, .span 0 2, 0, false⟩,
    ⟨0x2810, 31, 0x03, 1, "domain.change_us", .u32, .ro, 4, 0, .any, 7, false⟩ ]

/-- The objects of the range from 0x3000. -/
def objRows3000 : List ObjRow :=
  [ ⟨0x3000, 1, 0x01, 1, "seedbank.state", .u8, .ro, 1, 0, .span 0 3, 0, false⟩,
    ⟨0x3000, 1, 0x02, 1, "seedbank.protect", .u8, .ro, 1, 0, .span 0 3, 0, false⟩,
    ⟨0x3000, 1, 0x03, 1, "seedbank.protect_set", .u8, .wo, 1, 0, .span 0 3, 0, true⟩,
    ⟨0x3000, 1, 0x04, 1, "seedbank.scan_ms", .u16, .ro, 2, 0, .any, 8, false⟩,
    ⟨0x3000, 1, 0x05, 1, "seedbank.records_torn", .u32, .ro, 4, 0, .any, 1, false⟩,
    ⟨0x3000, 1, 0x06, 1, "seedbank.records_bad", .u32, .ro, 4, 0, .any, 1, false⟩,
    ⟨0x3000, 1, 0x07, 1, "seedbank.conflicts", .u32, .ro, 4, 0, .any, 1, false⟩,
    ⟨0x3000, 1, 0x08, 1, "seedbank.free_kib", .u32, .ro, 4, 0, .any, 3, false⟩,
    ⟨0x3000, 1, 0x09, 1, "seedbank.erased_sectors", .u8, .ro, 1, 0, .span 0 64, 0, false⟩,
    ⟨0x3000, 1, 0x0A, 1, "seedbank.compactions", .u32, .ro, 4, 0, .any, 1, false⟩,
    ⟨0x3000, 1, 0x0B, 1, "seedbank.max_erase_count", .u32, .ro, 4, 0, .any, 29, false⟩,
    ⟨0x3000, 1, 0x0C, 1, "seedbank.allowance_kib", .i32, .ro, 4, 4096, .any, 3, false⟩,
    ⟨0x3000, 1, 0x0D, 1, "seedbank.log_deferred", .u32, .ro, 4, 0, .any, 1, false⟩,
    ⟨0x3000, 1, 0x0E, 1, "seedbank.boot_image", .u8, .ro, 1, 0, .span 0 1, 0, false⟩,
    ⟨0x3000, 1, 0x0F, 1, "seedbank.powerup_count", .u32, .ro, 4, 0, .any, 1, false⟩ ]

/-- The objects of the range from 0x4000. -/
def objRows4000 : List ObjRow :=
  [ ⟨0x4000, 1, 0x01, 1, "timebase.tc", .u64, .ro, 8, 0, .any, 10, false⟩,
    ⟨0x4000, 1, 0x02, 1, "timebase.epoch", .u16, .ro, 2, 0, .any, 0, false⟩,
    ⟨0x4000, 1, 0x03, 1, "timebase.state", .u8, .ro, 1, 0, .span 0 3, 0, false⟩,
    ⟨0x4000, 1, 0x04, 1, "timebase.nominal_khz", .u32, .rwp, 4, 200000, .span 50000 400000, 11, false⟩,
    ⟨0x4000, 1, 0x05, 1, "timebase.measured_khz", .u32, .ro, 4, 0, .any, 11, false⟩,
    ⟨0x4000, 1, 0x06, 1, "timebase.miss_limit", .u8, .rwp, 1, 2, .span 1 16, 255, false⟩,
    ⟨0x4000, 1, 0x07, 1, "timebase.holdover_max_ms", .u32, .rwp, 4, 1000, .span 10 60000, 8, false⟩,
    ⟨0x4000, 1, 0x08, 1, "timebase.rate_margin_ppm", .u32, .rwp, 4, 5000, .span 100 50000, 14, false⟩,
    ⟨0x4000, 1, 0x09, 1, "timebase.crc_errors", .u32, .ro, 4, 0, .any, 1, false⟩,
    ⟨0x4000, 1, 0x0A, 1, "timebase.realign_count", .u32, .ro, 4, 0, .any, 1, false⟩,
    ⟨0x4010, 1, 0x01, 1, "windows.post", .domain, .wo, 32, 0, .any, 2, true⟩,
    ⟨0x4010, 1, 0x02, 1, "windows.post_result", .u64, .ro, 8, 0, .any, 0, false⟩,
    ⟨0x4010, 1, 0x03, 1, "windows.pending", .u16, .ro, 2, 0, .span 0 4096, 0, false⟩,
    ⟨0x4010, 1, 0x04, 1, "windows.current_class", .u8, .ro, 1, 0, .span 0 2, 0, false⟩,
    ⟨0x4010, 1, 0x05, 1, "windows.current_tag", .u16, .ro, 2, 0, .any, 0, false⟩,
    ⟨0x4010, 1, 0x06, 1, "windows.barrier_count", .u32, .ro, 4, 0, .any, 1, false⟩,
    ⟨0x4010, 1, 0x07, 1, "windows.post_dla", .u64, .const, 8, 70368643510272, .any, 22, false⟩,
    ⟨0x4020, 1, 0x01, 1, "windows.write_fence_ns", .u32, .rwp, 4, 12000, .span 11000 100000, 6, false⟩,
    ⟨0x4020, 1, 0x02, 1, "windows.prologue_ns", .u32, .rwp, 4, 2000, .span 1000 10000, 6, false⟩,
    ⟨0x4020, 1, 0x03, 1, "windows.post_lead_ns", .u32, .rwp, 4, 20000, .span 20000 1000000000, 6, false⟩,
    ⟨0x4020, 1, 0x04, 1, "windows.breach_count", .u32, .ro, 4, 0, .any, 1, false⟩,
    ⟨0x4030, 1, 0x01, 1, "windows.absorb_limit_mib", .u32, .rwp, 4, 12288, .live, 4, false⟩,
    ⟨0x4030, 1, 0x02, 1, "windows.absorb_dirty_mib", .u32, .ro, 4, 0, .any, 4, false⟩,
    ⟨0x4030, 1, 0x03, 1, "windows.absorb_committed_mib", .u32, .ro, 4, 0, .any, 4, false⟩,
    ⟨0x4030, 1, 0x04, 1, "windows.drain_rate_mbs", .u32, .ro, 4, 0, .any, 12, false⟩,
    ⟨0x4030, 1, 0x05, 1, "windows.open_drain_pct", .u8, .rwp, 1, 50, .span 0 100, 13, false⟩,
    ⟨0x4040, 5, 0x01, 1, "windows.debt.level", .u64, .ro, 8, 0, .any, 17, false⟩,
    ⟨0x4040, 5, 0x02, 1, "windows.debt.accrual", .u32, .ro, 4, 0, .any, 18, false⟩,
    ⟨0x4040, 5, 0x03, 1, "windows.debt.max", .u64, .rwp, 8, 0, .span 0 1099511627776, 17, false⟩,
    ⟨0x4040, 5, 0x04, 1, "windows.debt.quiet_repay", .u32, .rwp, 4, 0, .span 0 1000000, 18, false⟩,
    ⟨0x4040, 5, 0x05, 1, "windows.debt.open_repay", .u32, .rwp, 4, 0, .span 0 1000000, 18, false⟩,
    ⟨0x4040, 5, 0x06, 1, "windows.debt.overruns", .u32, .ro, 4, 0, .any, 1, false⟩ ]

/-- The objects of the range from 0x4800. -/
def objRows4800 : List ObjRow :=
  [ ⟨0x4800, 1, 0x01, 1, "ports.bifurcation_a", .u8, .rwp, 1, 0, .span 0 1, 0, false⟩,
    ⟨0x4800, 1, 0x02, 1, "ports.bifurcation_b", .u8, .rwp, 1, 0, .span 0 1, 0, false⟩,
    ⟨0x4800, 1, 0x03, 1, "ports.max_rate_gts", .u8, .rwp, 1, 64, .oneOf [16, 32, 64], 19, false⟩,
    ⟨0x4800, 1, 0x04, 1, "ports.failover_detect_us", .u32, .rwp, 4, 2000, .span 100 100000, 7, false⟩,
    ⟨0x4800, 1, 0x05, 1, "ports.mailbox_payload", .u32, .const, 4, 4096, .any, 2, false⟩,
    ⟨0x4800, 1, 0x06, 1, "ports.fault_event_uuid", .octets, .const, 16, 0, .any, 2, false⟩,
    ⟨0x4800, 1, 0x07, 1, "ports.ide_aggregation", .u8, .rwp, 1, 4, .span 1 4, 27, false⟩,
    ⟨0x4800, 1, 0x08, 1, "ports.offer_timeout_ms", .u32, .rwp, 4, 10000, .span 100 600000, 8, false⟩,
    ⟨0x4810, 4, 0x01, 1, "head.state", .u8, .ro, 1, 0, .span 0 4, 0, false⟩,
    ⟨0x4810, 4, 0x02, 1, "head.width", .u8, .ro, 1, 0, .oneOf [0, 1, 2, 4, 8, 16], 255, false⟩,
    ⟨0x4810, 4, 0x03, 1, "head.rate_gts", .u8, .ro, 1, 0, .oneOf [0, 2, 5, 8, 16, 32, 64], 19, false⟩,
    ⟨0x4810, 4, 0x04, 1, "head.flit_mode", .u8, .ro, 1, 0, .span 0 3, 0, false⟩,
    ⟨0x4810, 4, 0x05, 1, "head.group", .u8, .rwp, 1, 0, .span 0 3, 0, false⟩,
    ⟨0x4810, 4, 0x06, 1, "head.failover_count", .u32, .ro, 4, 0, .any, 1, false⟩,
    ⟨0x4810, 4, 0x07, 1, "head.read_credits", .u16, .ro, 2, 1024, .any, 255, false⟩,
    ⟨0x4820, 8, 0x01, 1, "dc.base", .u64, .rwp, 8, 0, .special, 22, false⟩,
    ⟨0x4820, 8, 0x02, 1, "dc.length", .u64, .rwp, 8, 0, .special, 2, false⟩,
    ⟨0x4820, 8, 0x03, 1, "dc.block_mib", .u32, .rwp, 4, 256, .oneOf [2, 4, 8, 16, 32, 64, 128, 256, 512, 1024], 4, false⟩,
    ⟨0x4820, 8, 0x04, 1, "dc.flags", .u8, .rwp, 1, 0, .mask 3, 0, false⟩ ]

/-- The objects of the range from 0x5000. -/
def objRows5000 : List ObjRow :=
  [ ⟨0x5000, 1, 0x01, 1, "ddr.mirror_pairs", .u8, .rwp, 1, 0, .mask 15, 0, false⟩,
    ⟨0x5000, 1, 0x02, 1, "ddr.freeze_limit_us", .u32, .rwp, 4, 200, .span 10 100000, 7, false⟩,
    ⟨0x5000, 1, 0x03, 1, "ddr.retry_limit", .u8, .rwp, 1, 3, .span 1 8, 0, false⟩,
    ⟨0x5000, 1, 0x04, 1, "ddr.burst_subch_depth", .u8, .const, 1, 12, .any, 255, false⟩,
    ⟨0x5000, 1, 0x05, 1, "ddr.burst_bank_depth", .u8, .const, 1, 2, .any, 255, false⟩,
    ⟨0x5000, 1, 0x06, 1, "ddr.freq_request", .u16, .wo, 2, 0, .mask 511, 0, false⟩,
    ⟨0x5000, 1, 0x07, 1, "ddr.freq_change_us", .u32, .ro, 4, 25, .any, 7, false⟩,
    ⟨0x5000, 1, 0x08, 1, "ddr.frozen_channels", .u8, .ro, 1, 0, .any, 0, false⟩,
    ⟨0x5010, 8, 0x01, 1, "ddr.chan.capacity_gib", .u32, .ro, 4, 0, .any, 5, false⟩,
    ⟨0x5010, 8, 0x02, 1, "ddr.chan.dimms", .u8, .ro, 1, 0, .span 0 2, 0, false⟩,
    ⟨0x5010, 8, 0x03, 1, "ddr.chan.train_status", .u8, .ro, 1, 0, .span 0 3, 0, false⟩,
    ⟨0x5010, 8, 0x04, 1, "ddr.chan.fsp0_mts", .u16, .rwp, 2, 0, .oneOf [0, 4800, 5200, 5600, 6000, 6400], 21, false⟩,
    ⟨0x5010, 8, 0x05, 1, "ddr.chan.fsp1_mts", .u16, .rwp, 2, 4800, .oneOf [0, 4800, 5200, 5600, 6000, 6400], 21, false⟩,
    ⟨0x5010, 8, 0x06, 1, "ddr.chan.active_fsp", .u8, .ro, 1, 0, .span 0 1, 0, false⟩,
    ⟨0x5010, 8, 0x07, 1, "ddr.chan.freeze_state", .u8, .ro, 1, 0, .span 0 2, 0, false⟩,
    ⟨0x5010, 8, 0x08, 1, "ddr.chan.snapshot", .octets, .ro, 256, 0, .any, 2, false⟩,
    ⟨0x5010, 8, 0x09, 1, "ddr.chan.command", .u8, .wo, 1, 0, .span 1 3, 0, false⟩,
    ⟨0x5010, 8, 0x0A, 1, "ddr.chan.poison_list_used", .u16, .ro, 2, 0, .span 0 4096, 23, false⟩,
    ⟨0x5010, 8, 0x0B, 1, "ddr.chan.retries", .u32, .ro, 4, 0, .any, 1, false⟩,
    ⟨0x5010, 8, 0x0C, 1, "ddr.chan.rereads_ok", .u32, .ro, 4, 0, .any, 1, false⟩,
    ⟨0x5010, 8, 0x0D, 1, "ddr.chan.freezes", .u32, .ro, 4, 0, .any, 1, false⟩,
    ⟨0x5010, 8, 0x0E, 1, "ddr.chan.resilver_mib", .u32, .ro, 4, 0, .any, 4, false⟩,
    ⟨0x5010, 8, 0x0F, 1, "ddr.chan.temp_c", .i8, .ro, 1, 0, .any, 15, false⟩,
    ⟨0x5010, 8, 0x10, 1, "ddr.chan.refresh_balance", .i8, .ro, 1, 0, .any, 255, false⟩,
    ⟨0x5020, 8, 0x01, 1, "ddr.region.mirror", .u8, .rwp, 1, 0, .span 0 1, 0, false⟩,
    ⟨0x5080, 1, 0x01, 1, "ddr.helper.command", .domain, .wo, 32, 0, .special, 2, false⟩,
    ⟨0x5080, 1, 0x02, 1, "ddr.helper.result", .domain, .ro, 328, 0, .any, 2, false⟩ ]

/-- The objects of the range from 0x5800. -/
def objRows5800 : List ObjRow :=
  [ ⟨0x5800, 1, 0x01, 1, "hbm.capacity_mib", .u32, .const, 4, 16384, .any, 4, false⟩,
    ⟨0x5800, 1, 0x02, 1, "hbm.persist_reserve_mib", .u32, .rwp, 4, 256, .step 64 1024 64, 4, false⟩,
    ⟨0x5800, 1, 0x03, 1, "hbm.reserve_dirty_mib", .u32, .ro, 4, 0, .any, 4, false⟩,
    ⟨0x5800, 1, 0x04, 1, "hbm.resident_share_mib", .u32, .ro, 4, 3840, .any, 4, false⟩,
    ⟨0x5800, 1, 0x05, 1, "hbm.mirror_mib", .u32, .ro, 4, 0, .any, 4, false⟩,
    ⟨0x5800, 1, 0x06, 1, "hbm.hot_mib", .u32, .ro, 4, 0, .any, 4, false⟩,
    ⟨0x5800, 1, 0x07, 1, "hbm.reserve_change_us", .u32, .ro, 4, 20, .any, 7, false⟩,
    ⟨0x5800, 1, 0x08, 1, "hbm.temp_c", .i8, .ro, 1, 0, .any, 15, false⟩,
    ⟨0x5800, 1, 0x09, 1, "hbm.mirror_waits", .u32, .ro, 4, 0, .any, 1, false⟩,
    ⟨0x5800, 1, 0x0A, 1, "hbm.reserve_waits", .u32, .ro, 4, 0, .any, 1, false⟩ ]

/-- The objects of the range from 0x6000. -/
def objRows6000 : List ObjRow :=
  [ ⟨0x6000, 1, 0x01, 1, "kiln.channels_online", .u8, .ro, 1, 0, .span 0 8, 0, false⟩,
    ⟨0x6000, 1, 0x02, 1, "kiln.media_set", .u64, .ro, 8, 0, .any, 0, false⟩,
    ⟨0x6000, 1, 0x03, 1, "kiln.persist_time_us", .u32, .ro, 4, 2000, .any, 7, false⟩,
    ⟨0x6000, 1, 0x04, 1, "kiln.holdup_us", .u32, .rwp, 4, 25000, .span 5000 200000, 7, false⟩,
    ⟨0x6000, 1, 0x05, 1, "kiln.persist_power_w", .u8, .const, 1, 44, .any, 16, false⟩,
    ⟨0x6000, 1, 0x06, 1, "kiln.persist_clean", .u8, .ro, 1, 1, .span 0 1, 0, false⟩,
    ⟨0x6000, 1, 0x07, 1, "kiln.gpf_flushes", .u32, .ro, 4, 0, .any, 1, false⟩,
    ⟨0x6000, 1, 0x08, 1, "kiln.reserve_dirty_limit_mib", .u32, .ro, 4, 240, .any, 4, false⟩,
    ⟨0x6010, 1, 0x01, 1, "kiln.rekiln_age_h", .u32, .rwp, 4, 2160, .span 24 4380, 9, false⟩,
    ⟨0x6010, 1, 0x02, 1, "kiln.retention_h", .u32, .const, 4, 8760, .any, 9, false⟩,
    ⟨0x6010, 1, 0x03, 1, "kiln.open_block_max_h", .u16, .rwp, 2, 24, .span 1 168, 9, false⟩,
    ⟨0x6010, 1, 0x04, 1, "kiln.reclaim_live_pct", .u8, .rwp, 1, 25, .span 5 25, 13, false⟩,
    ⟨0x6010, 1, 0x05, 1, "kiln.trim_symbols", .u8, .rwp, 1, 4, .span 1 8, 255, false⟩,
    ⟨0x6010, 1, 0x06, 1, "kiln.reread_max", .u8, .rwp, 1, 4, .span 0 4, 0, false⟩,
    ⟨0x6010, 1, 0x07, 1, "kiln.offline_drift_steps", .u8, .rwp, 1, 2, .span 1 8, 0, false⟩,
    ⟨0x6010, 1, 0x08, 1, "kiln.endurance_cycles", .u32, .const, 4, 10000000, .any, 29, false⟩,
    ⟨0x6010, 1, 0x09, 1, "kiln.wear_warn_pct", .u8, .rwp, 1, 80, .span 50 95, 13, false⟩,
    ⟨0x6010, 1, 0x0A, 1, "kiln.spare_pct", .u8, .rwp, 1, 3, .span 1 10, 13, false⟩,
    ⟨0x6010, 1, 0x0B, 1, "kiln.witness_dropped", .u32, .ro, 4, 0, .any, 1, false⟩,
    ⟨0x6040, 8, 0x01, 1, "kiln.chan.packages", .u8, .ro, 1, 0, .span 0 2, 0, false⟩,
    ⟨0x6040, 8, 0x02, 1, "kiln.chan.package_gib", .u16, .ro, 2, 0, .oneOf [0, 512], 5, false⟩,
    ⟨0x6040, 8, 0x03, 1, "kiln.chan.root_state", .u8, .ro, 1, 0, .span 0 4, 0, false⟩,
    ⟨0x6040, 8, 0x04, 1, "kiln.chan.command", .u8, .wo, 1, 0, .span 1 1, 0, false⟩,
    ⟨0x6040, 8, 0x05, 1, "kiln.chan.blocks_free", .u32, .ro, 4, 0, .any, 255, false⟩,
    ⟨0x6040, 8, 0x06, 1, "kiln.chan.spares", .u32, .ro, 4, 0, .any, 255, false⟩,
    ⟨0x6040, 8, 0x07, 1, "kiln.chan.life_used_ppm", .u32, .ro, 4, 0, .any, 14, false⟩,
    ⟨0x6040, 8, 0x08, 1, "kiln.chan.max_wear", .u32, .ro, 4, 0, .any, 29, false⟩,
    ⟨0x6040, 8, 0x09, 1, "kiln.chan.oldest_age_h", .u32, .ro, 4, 0, .any, 9, false⟩,
    ⟨0x6040, 8, 0x0A, 1, "kiln.chan.uncorrectable", .u32, .ro, 4, 0, .any, 1, false⟩,
    ⟨0x6040, 8, 0x0B, 1, "kiln.chan.rescued", .u32, .ro, 4, 0, .any, 1, false⟩,
    ⟨0x6040, 8, 0x0C, 1, "kiln.chan.program_fails", .u32, .ro, 4, 0, .any, 1, false⟩,
    ⟨0x6040, 8, 0x0D, 1, "kiln.chan.bus_errors", .u32, .ro, 4, 0, .any, 1, false⟩,
    ⟨0x6040, 8, 0x0E, 1, "kiln.chan.read_latency_ns", .u16, .ro, 2, 0, .any, 6, false⟩,
    ⟨0x6120, 1, 0x01, 1, "kiln.max_programs", .u8, .const, 1, 6, .any, 255, false⟩,
    ⟨0x6120, 1, 0x02, 1, "kiln.suspend_wait_ns", .u16, .rwp, 2, 500, .span 200 1000, 6, false⟩,
    ⟨0x6120, 1, 0x03, 1, "kiln.program_slice_ns", .u16, .rwp, 2, 1500, .span 500 2500, 6, false⟩,
    ⟨0x6120, 1, 0x04, 1, "kiln.write_suspend_max", .u32, .rwp, 4, 10000, .span 100 60000, 8, false⟩,
    ⟨0x6120, 1, 0x05, 1, "kiln.suspends", .u32, .ro, 4, 0, .any, 1, false⟩,
    ⟨0x6120, 1, 0x06, 1, "kiln.suspend_aborts", .u32, .ro, 4, 0, .any, 1, false⟩ ]

/-- The objects of the range from 0x6800. -/
def objRows6800 : List ObjRow :=
  [ ⟨0x6800, 1, 0x01, 1, "map.page_tables", .u32, .ro, 4, 0, .any, 1, false⟩,
    ⟨0x6800, 1, 0x03, 1, "map.record_errors", .u32, .ro, 4, 0, .any, 1, false⟩,
    ⟨0x6800, 1, 0x04, 1, "map.records_lost", .u32, .ro, 4, 0, .any, 1, false⟩,
    ⟨0x6800, 1, 0x05, 1, "map.pool_target_hbm", .u32, .rwp, 4, 65536, .span 0 1048576, 24, false⟩,
    ⟨0x6800, 1, 0x06, 1, "map.pool_target_ddr", .u32, .rwp, 4, 262144, .span 0 16777216, 24, false⟩,
    ⟨0x6800, 1, 0x07, 1, "map.pool_level_hbm", .u32, .ro, 4, 0, .any, 24, false⟩,
    ⟨0x6800, 1, 0x08, 1, "map.pool_level_ddr", .u32, .ro, 4, 0, .any, 24, false⟩,
    ⟨0x6800, 1, 0x09, 1, "map.pool_inline_zero", .u32, .ro, 4, 0, .any, 1, false⟩,
    ⟨0x6800, 1, 0x0A, 1, "map.discard_page", .u64, .wo, 8, 0, .any, 22, true⟩,
    ⟨0x6810, 1, 0x01, 1, "lauter.slots", .u8, .const, 1, 32, .any, 26, false⟩,
    ⟨0x6810, 1, 0x02, 1, "lauter.copy_rate_mbs", .u32, .const, 4, 16000, .any, 12, false⟩,
    ⟨0x6810, 1, 0x03, 1, "lauter.swing_max_lines", .u8, .rwp, 1, 8, .span 1 64, 23, false⟩,
    ⟨0x6810, 1, 0x04, 1, "lauter.recopy_passes", .u8, .rwp, 1, 4, .span 1 16, 0, false⟩,
    ⟨0x6810, 1, 0x05, 1, "lauter.decay_period_ms", .u32, .rwp, 4, 1000, .span 100 3600000, 8, false⟩,
    ⟨0x6810, 1, 0x06, 1, "lauter.decay_keep", .u8, .rwp, 1, 12, .span 0 16, 255, false⟩,
    ⟨0x6810, 1, 0x07, 1, "lauter.promote_heat", .u8, .rwp, 1, 64, .span 1 255, 0, false⟩,
    ⟨0x6810, 1, 0x08, 1, "lauter.demote_heat", .u8, .rwp, 1, 4, .span 0 254, 0, false⟩,
    ⟨0x6810, 1, 0x09, 1, "lauter.free_low_pct", .u8, .rwp, 1, 5, .span 1 25, 13, false⟩,
    ⟨0x6810, 1, 0x0A, 1, "lauter.migrations", .u32, .ro, 4, 0, .any, 1, false⟩,
    ⟨0x6810, 1, 0x0B, 1, "lauter.abandoned", .u32, .ro, 4, 0, .any, 1, false⟩,
    ⟨0x6810, 1, 0x0C, 1, "lauter.heat_spill_dropped", .u32, .ro, 4, 0, .any, 1, false⟩,
    ⟨0x6810, 1, 0x0D, 1, "lauter.journal_kib", .u32, .rwp, 4, 16384, .live, 3, false⟩,
    ⟨0x6810, 1, 0x0E, 1, "lauter.journal_fill_kib", .u32, .ro, 4, 0, .any, 3, false⟩,
    ⟨0x6810, 1, 0x0F, 1, "lauter.zone_channels", .u8, .rwp, 1, 64, .special, 0, false⟩,
    ⟨0x6810, 1, 0x10, 1, "lauter.retire", .u64, .wo, 8, 0, .special, 0, false⟩,
    ⟨0x6810, 1, 0x11, 1, "lauter.retire_status", .u8, .ro, 1, 0, .span 0 3, 0, false⟩,
    ⟨0x6810, 1, 0x12, 1, "lauter.checkpoint_seq", .u32, .ro, 4, 0, .any, 255, false⟩,
    ⟨0x6820, 8, 0x01, 1, "policy.tiers", .u8, .rwp, 1, 6, .mask 7, 0, false⟩,
    ⟨0x6820, 8, 0x02, 1, "policy.home", .u8, .rwp, 1, 3, .span 1 3, 0, false⟩,
    ⟨0x6820, 8, 0x03, 1, "policy.mode", .u8, .rwp, 1, 1, .span 0 1, 0, false⟩,
    ⟨0x6820, 8, 0x04, 1, "policy.map_resident", .u8, .rwp, 1, 1, .span 0 1, 0, false⟩,
    ⟨0x6830, 1, 0x01, 1, "lauter.extent_command", .domain, .wo, 32, 0, .special, 2, false⟩,
    ⟨0x6830, 1, 0x02, 1, "lauter.releasing_mib", .u32, .ro, 4, 0, .any, 4, false⟩,
    ⟨0x6840, 16, 0x01, 1, "chan.state", .u8, .ro, 1, 0, .span 0 4, 0, false⟩,
    ⟨0x6840, 16, 0x02, 1, "chan.command", .u8, .wo, 1, 0, .span 1 4, 0, false⟩,
    ⟨0x6840, 16, 0x03, 1, "chan.resident_pages", .u32, .ro, 4, 0, .any, 24, false⟩,
    ⟨0x6840, 16, 0x04, 1, "chan.free_mib", .u32, .ro, 4, 0, .any, 4, false⟩ ]

/-- The objects of the range from 0x7000. -/
def objRows7000 : List ObjRow :=
  [ ⟨0x7000, 1, 0x01, 1, "husk.owner_root_state", .u8, .ro, 1, 0, .span 0 1, 0, false⟩,
    ⟨0x7000, 1, 0x02, 1, "husk.owner_root_program", .octets, .wo, 32, 0, .any, 2, false⟩,
    ⟨0x7000, 1, 0x03, 1, "husk.mac_failures", .u32, .ro, 4, 0, .any, 1, false⟩,
    ⟨0x7000, 1, 0x04, 1, "husk.mac_refetch_ok", .u32, .ro, 4, 0, .any, 1, false⟩,
    ⟨0x7000, 1, 0x05, 1, "husk.partial_dropped", .u32, .ro, 4, 0, .any, 1, false⟩,
    ⟨0x7000, 1, 0x06, 1, "husk.unwrap_failures", .u32, .ro, 4, 0, .any, 1, false⟩,
    ⟨0x7000, 1, 0x07, 1, "husk.vault_errors", .u32, .ro, 4, 0, .any, 1, false⟩,
    ⟨0x7010, 8, 0x01, 1, "husk.region.mode", .u8, .rwp, 1, 0, .span 0 2, 0, false⟩,
    ⟨0x7020, 8, 0x01, 1, "husk.link.mode", .u8, .rwp, 1, 0, .span 0 1, 0, false⟩,
    ⟨0x7020, 8, 0x02, 1, "husk.link.slot0_blob", .domain, .wo, 184, 0, .any, 2, true⟩,
    ⟨0x7020, 8, 0x03, 1, "husk.link.slot1_blob", .domain, .wo, 184, 0, .any, 2, true⟩,
    ⟨0x7020, 8, 0x04, 1, "husk.link.active_slot", .u8, .ro, 1, 0, .span 0 1, 0, false⟩,
    ⟨0x7020, 8, 0x05, 1, "husk.link.command", .u8, .wo, 1, 0, .span 1 1, 0, true⟩,
    ⟨0x7020, 8, 0x06, 1, "husk.link.tag_failures", .u32, .ro, 4, 0, .any, 1, false⟩,
    ⟨0x7020, 8, 0x07, 1, "husk.link.flits_sent", .u64, .ro, 8, 0, .any, 27, false⟩,
    ⟨0x7400, 1, 0x01, 1, "mill.engines", .u8, .const, 1, 8, .any, 255, false⟩,
    ⟨0x7400, 1, 0x02, 1, "mill.compress_rate_mbs", .u32, .const, 4, 128000, .any, 12, false⟩,
    ⟨0x7400, 1, 0x03, 1, "mill.decompress_rate_mbs", .u32, .const, 4, 256000, .any, 12, false⟩,
    ⟨0x7400, 1, 0x04, 1, "mill.repack_idle_ms", .u32, .rwp, 4, 10000, .span 100 3600000, 8, false⟩,
    ⟨0x7400, 1, 0x05, 1, "mill.min_gain_sectors", .u8, .rwp, 1, 8, .span 1 63, 25, false⟩,
    ⟨0x7400, 1, 0x06, 1, "mill.reserve_pct", .u8, .rwp, 1, 2, .span 1 20, 13, false⟩,
    ⟨0x7400, 1, 0x07, 1, "mill.space_wait_ms", .u32, .rwp, 4, 100, .span 1 10000, 8, false⟩,
    ⟨0x7400, 1, 0x08, 1, "mill.logical_mib", .u64, .ro, 8, 0, .any, 4, false⟩,
    ⟨0x7400, 1, 0x09, 1, "mill.stored_mib_ddr", .u32, .ro, 4, 0, .any, 4, false⟩,
    ⟨0x7400, 1, 0x0A, 1, "mill.stored_mib_nvm", .u32, .ro, 4, 0, .any, 4, false⟩,
    ⟨0x7400, 1, 0x0B, 1, "mill.grist_pages", .u64, .ro, 8, 0, .any, 24, false⟩,
    ⟨0x7400, 1, 0x0C, 1, "mill.expansions", .u32, .ro, 4, 0, .any, 1, false⟩,
    ⟨0x7400, 1, 0x0D, 1, "mill.repacks", .u32, .ro, 4, 0, .any, 1, false⟩,
    ⟨0x7400, 1, 0x0E, 1, "mill.decode_errors", .u32, .ro, 4, 0, .any, 1, false⟩,
    ⟨0x7400, 1, 0x0F, 1, "mill.space_waits", .u32, .ro, 4, 0, .any, 1, false⟩,
    ⟨0x7400, 1, 0x10, 1, "mill.space_poisoned", .u32, .ro, 4, 0, .any, 1, false⟩,
    ⟨0x7400, 1, 0x11, 1, "mill.capacity_low_pct", .u8, .rwp, 1, 10, .span 1 50, 13, false⟩,
    ⟨0x7410, 8, 0x01, 1, "mill.region.mode", .u8, .rwp, 1, 0, .span 0 1, 0, false⟩,
    ⟨0x7410, 8, 0x02, 1, "mill.region.max_sectors", .u8, .rwp, 1, 8, .live, 25, false⟩,
    ⟨0x7410, 8, 0x03, 1, "mill.region.grist_pages", .u64, .ro, 8, 0, .any, 24, false⟩ ]

/-- The objects of the range from 0x7800. -/
def objRows7800 : List ObjRow :=
  [ ⟨0x7800, 1, 0x01, 1, "hopper.channels", .u8, .const, 1, 64, .any, 255, false⟩,
    ⟨0x7800, 1, 0x02, 1, "hopper.queue_table_dla", .u64, .rwp, 8, 0, .mask 9223442405598949376, 0, false⟩,
    ⟨0x7800, 1, 0x03, 1, "hopper.queue_command", .u32, .wo, 4, 0, .special, 0, true⟩,
    ⟨0x7800, 1, 0x04, 1, "hopper.doorbell_base", .u64, .const, 8, 70368677068800, .any, 22, false⟩,
    ⟨0x7800, 1, 0x05, 1, "hopper.queues_loaded", .u32, .ro, 4, 0, .any, 255, false⟩,
    ⟨0x7800, 1, 0x06, 1, "hopper.states_cached", .u16, .ro, 2, 0, .span 0 8192, 0, false⟩,
    ⟨0x7800, 1, 0x07, 1, "hopper.state_waits", .u32, .ro, 4, 0, .any, 1, false⟩,
    ⟨0x7800, 1, 0x08, 1, "hopper.queue_errors", .u32, .ro, 4, 0, .any, 1, false⟩,
    ⟨0x7800, 1, 0x09, 1, "hopper.burst_bytes", .u16, .const, 2, 512, .any, 2, false⟩,
    ⟨0x7800, 1, 0x0A, 1, "hopper.bursts_max", .u16, .const, 2, 256, .any, 255, false⟩,
    ⟨0x7800, 1, 0x0B, 1, "hopper.refusals", .u32, .ro, 4, 0, .any, 1, false⟩,
    ⟨0x7800, 1, 0x0C, 1, "hopper.faults", .u32, .ro, 4, 0, .any, 1, false⟩,
    ⟨0x7840, 64, 0x01, 1, "hopper.chan.queue", .u32, .rw, 4, 0, .mask 2148532223, 0, false⟩,
    ⟨0x7840, 64, 0x02, 1, "hopper.chan.priority", .u8, .rw, 1, 0, .span 0 7, 0, false⟩,
    ⟨0x7840, 64, 0x03, 1, "hopper.chan.max_inflight", .u8, .rw, 1, 16, .span 1 32, 255, false⟩,
    ⟨0x7840, 64, 0x04, 1, "hopper.chan.state", .u8, .ro, 1, 0, .span 0 6, 0, false⟩,
    ⟨0x7840, 64, 0x05, 1, "hopper.chan.command", .u8, .wo, 1, 0, .span 1 5, 0, true⟩,
    ⟨0x7840, 64, 0x06, 1, "hopper.chan.context", .octets, .ro, 64, 0, .any, 2, false⟩,
    ⟨0x7840, 64, 0x07, 1, "hopper.chan.bytes", .u64, .ro, 8, 0, .any, 2, false⟩,
    ⟨0x7880, 1, 0x01, 1, "hopper.event.pulse", .u8, .wo, 1, 0, .span 0 255, 0, false⟩,
    ⟨0x7880, 1, 0x02, 1, "hopper.event.out_width_tc", .u8, .rwp, 1, 4, .span 1 255, 10, false⟩,
    ⟨0x7880, 1, 0x03, 1, "hopper.event.rejected", .u32, .ro, 4, 0, .any, 1, false⟩,
    ⟨0x7880, 1, 0x04, 1, "hopper.event.merged", .u32, .ro, 4, 0, .any, 1, false⟩,
    ⟨0x7900, 256, 0x01, 1, "hopper.event.line.input", .u8, .rwp, 1, 0, .oneOf [0, 16, 17, 18, 19, 20, 21, 22, 23, 32, 33, 34, 35, 36, 37, 38, 39], 0, false⟩,
    ⟨0x7900, 256, 0x02, 1, "hopper.event.line.route", .u16, .rwp, 2, 0, .any, 0, false⟩,
    ⟨0x7900, 256, 0x03, 1, "hopper.event.line.count", .u32, .ro, 4, 0, .any, 255, false⟩ ]

/-- The objects of the range from 0x8000. -/
def objRows8000 : List ObjRow :=
  [ ⟨0x8000, 1, 0x01, 1, "link.burst_read_slots", .u16, .const, 2, 48, .any, 26, false⟩,
    ⟨0x8000, 1, 0x02, 1, "link.read_slots", .u16, .rwp, 2, 1024, .span 48 2048, 26, false⟩,
    ⟨0x8000, 1, 0x03, 1, "link.change_us", .u32, .const, 4, 15, .any, 7, false⟩,
    ⟨0x8000, 1, 0x04, 1, "link.train_timeout_ms", .u16, .rwp, 2, 5, .span 1 100, 8, false⟩,
    ⟨0x8000, 1, 0x05, 1, "link.down_window_flits", .u32, .rwp, 4, 4096, .span 1024 65536, 27, false⟩,
    ⟨0x8000, 1, 0x06, 1, "link.down_threshold", .u16, .rwp, 2, 64, .span 1 1024, 0, false⟩,
    ⟨0x8000, 1, 0x07, 1, "link.retrain_threshold", .u16, .rwp, 2, 8, .live, 0, false⟩,
    ⟨0x8000, 1, 0x08, 1, "link.retrain_max", .u8, .rwp, 1, 4, .span 1 16, 255, false⟩,
    ⟨0x8000, 1, 0x09, 1, "link.replay_timeout_ns", .u32, .rwp, 4, 2000, .span 500 100000, 6, false⟩,
    ⟨0x8000, 1, 0x0A, 1, "link.replay_max", .u8, .rwp, 1, 8, .span 2 32, 0, false⟩,
    ⟨0x8000, 1, 0x0B, 1, "link.credit_interval_flits", .u16, .rwp, 2, 64, .span 16 1024, 27, false⟩,
    ⟨0x8000, 1, 0x0C, 1, "link.rx_slots", .u16, .const, 2, 2048, .any, 26, false⟩,
    ⟨0x8010, 8, 0x01, 1, "link.state", .u8, .ro, 1, 0, .span 0 4, 0, false⟩,
    ⟨0x8010, 8, 0x02, 1, "link.command", .u8, .wo, 1, 0, .span 1 3, 0, false⟩,
    ⟨0x8010, 8, 0x03, 1, "link.enable", .u8, .rwp, 1, 1, .span 0 1, 0, false⟩,
    ⟨0x8010, 8, 0x04, 1, "link.max_speed", .u8, .rwp, 1, 32, .oneOf [8, 16, 32], 20, false⟩,
    ⟨0x8010, 8, 0x05, 1, "link.max_width", .u8, .rwp, 1, 4, .oneOf [1, 2, 4], 255, false⟩,
    ⟨0x8010, 8, 0x06, 1, "link.vc_offer", .u8, .rwp, 1, 8, .span 2 8, 0, false⟩,
    ⟨0x8010, 8, 0x07, 1, "link.vc_ordered", .u8, .rwp, 1, 0, .any, 0, false⟩,
    ⟨0x8010, 8, 0x08, 1, "link.event_vc", .u8, .rwp, 1, 0, .span 0 7, 0, false⟩,
    ⟨0x8010, 8, 0x09, 1, "link.wb_credits", .u8, .rwp, 1, 32, .span 4 64, 255, false⟩,
    ⟨0x8010, 8, 0x0A, 1, "link.auto_retrain", .u8, .rwp, 1, 1, .span 0 1, 0, false⟩,
    ⟨0x8010, 8, 0x0B, 1, "link.down_hold_ms", .u16, .rwp, 2, 100, .span 1 60000, 8, false⟩,
    ⟨0x8010, 8, 0x0C, 1, "link.change_target", .u8, .rw, 1, 36, .special, 0, false⟩,
    ⟨0x8010, 8, 0x0D, 1, "link.change_result", .u8, .ro, 1, 0, .span 0 3, 0, false⟩,
    ⟨0x8010, 8, 0x0E, 1, "link.width", .u8, .ro, 1, 0, .oneOf [0, 1, 2, 4], 0, false⟩,
    ⟨0x8010, 8, 0x0F, 1, "link.speed", .u8, .ro, 1, 0, .oneOf [0, 8, 16, 32], 20, false⟩,
    ⟨0x8010, 8, 0x10, 1, "link.vcs", .u8, .ro, 1, 0, .oneOf [0, 2, 3, 4, 5, 6, 7, 8], 0, false⟩,
    ⟨0x8010, 8, 0x11, 1, "link.endpoint_id", .u32, .ro, 4, 0, .any, 0, false⟩,
    ⟨0x8010, 8, 0x12, 1, "link.crc_errors", .u32, .ro, 4, 0, .any, 1, false⟩,
    ⟨0x8010, 8, 0x13, 1, "link.protocol_errors", .u32, .ro, 4, 0, .any, 1, false⟩,
    ⟨0x8010, 8, 0x14, 1, "link.replays", .u32, .ro, 4, 0, .any, 1, false⟩,
    ⟨0x8010, 8, 0x15, 1, "link.retrains", .u32, .ro, 4, 0, .any, 1, false⟩,
    ⟨0x8010, 8, 0x16, 1, "link.change_crossed", .u32, .ro, 4, 0, .any, 1, false⟩,
    ⟨0x8010, 8, 0x17, 1, "link.down_count", .u32, .ro, 4, 0, .any, 1, false⟩,
    ⟨0x8010, 8, 0x18, 1, "link.down_cause", .u8, .ro, 1, 0, .span 0 9, 0, false⟩,
    ⟨0x8010, 8, 0x19, 1, "link.events_dropped", .u32, .ro, 4, 0, .any, 1, false⟩ ]

/-- The objects of the range from 0x8800. -/
def objRows8800 : List ObjRow :=
  [ ⟨0x8800, 1, 0x01, 1, "coh.snoop_deadline_burst_ns", .u32, .rwp, 4, 400, .span 100 400, 6, false⟩,
    ⟨0x8800, 1, 0x02, 1, "coh.snoop_deadline_ns", .u32, .rwp, 4, 500, .span 100 500, 6, false⟩,
    ⟨0x8800, 1, 0x03, 1, "coh.pull_deadline_ns", .u32, .rwp, 4, 2000, .span 500 10000, 6, false⟩,
    ⟨0x8800, 1, 0x04, 1, "coh.sf_reserve_ways", .u8, .rwp, 1, 2, .span 0 8, 255, false⟩,
    ⟨0x8800, 1, 0x05, 1, "coh.sf_entries_used", .u32, .ro, 4, 0, .any, 28, false⟩,
    ⟨0x8800, 1, 0x06, 1, "coh.sf_evictions", .u32, .ro, 4, 0, .any, 1, false⟩,
    ⟨0x8800, 1, 0x07, 1, "coh.sf_downgrades", .u32, .ro, 4, 0, .any, 1, false⟩,
    ⟨0x8800, 1, 0x08, 1, "coh.cask_domain", .octets, .rw, 1024, 0, .special, 2, false⟩,
    ⟨0x8800, 1, 0x09, 1, "coh.retries_sent", .u32, .ro, 4, 0, .any, 1, false⟩,
    ⟨0x8800, 1, 0x0A, 1, "coh.trackers", .u16, .const, 2, 4096, .any, 255, false⟩,
    ⟨0x8800, 1, 0x0B, 1, "coh.dead_agents", .u16, .ro, 2, 0, .any, 0, false⟩,
    ⟨0x8810, 8, 0x01, 1, "coh.link.vc", .u8, .rwp, 1, 7, .span 0 7, 0, false⟩,
    ⟨0x8840, 64, 0x01, 1, "coh.domain.state", .u8, .ro, 1, 0, .span 0 3, 0, false⟩,
    ⟨0x8840, 64, 0x02, 1, "coh.domain.command", .u8, .wo, 1, 0, .span 1 4, 0, false⟩,
    ⟨0x8840, 64, 0x03, 1, "coh.domain.agents", .u16, .rw, 2, 0, .special, 0, false⟩,
    ⟨0x8840, 64, 0x04, 1, "coh.domain.down_cause", .u8, .ro, 1, 0, .span 0 4, 0, false⟩,
    ⟨0x8840, 64, 0x05, 1, "coh.domain.dead_agent", .u8, .ro, 1, 255, .any, 255, false⟩,
    ⟨0x8840, 64, 0x06, 1, "coh.domain.poisoned_lines", .u32, .ro, 4, 0, .any, 1, false⟩,
    ⟨0x8840, 64, 0x07, 1, "coh.domain.dropped_writes", .u32, .ro, 4, 0, .any, 1, false⟩,
    ⟨0x8840, 64, 0x08, 1, "coh.domain.down_tc", .u64, .ro, 8, 0, .any, 255, false⟩,
    ⟨0x8840, 64, 0x09, 1, "coh.domain.down_count", .u32, .ro, 4, 0, .any, 1, false⟩,
    ⟨0x8840, 64, 0x0A, 1, "coh.domain.recall_us", .u32, .ro, 4, 2, .any, 7, false⟩ ]

/-- The objects of the range from 0x9000. -/
def objRows9000 : List ObjRow :=
  [ ⟨0x9000, 1024, 0x01, 1, "cask.state", .u8, .ro, 1, 0, .span 0 4, 0, false⟩,
    ⟨0x9000, 1024, 0x02, 1, "cask.command", .u8, .wo, 1, 0, .span 1 7, 0, true⟩,
    ⟨0x9000, 1024, 0x03, 1, "cask.pasid", .u32, .rw, 4, 0, .mask 2148532223, 0, false⟩,
    ⟨0x9000, 1024, 0x04, 1, "cask.extent_mib", .u32, .ro, 4, 0, .any, 4, false⟩,
    ⟨0x9000, 1024, 0x05, 1, "cask.quiesce_timeout_ms", .u32, .rw, 4, 100, .span 1 60000, 8, false⟩,
    ⟨0x9000, 1024, 0x07, 1, "cask.log_enable", .u8, .rw, 1, 0, .span 0 1, 0, false⟩,
    ⟨0x9000, 1024, 0x08, 1, "cask.log_base_dla", .u64, .rw, 8, 0, .step 0 70368744177663 4096, 22, false⟩,
    ⟨0x9000, 1024, 0x09, 1, "cask.log_pages", .u32, .rw, 4, 0, .span 1 4294967295, 24, false⟩,
    ⟨0x9000, 1024, 0x0A, 1, "cask.log_bitmap_dla", .u64, .rw, 8, 0, .step 0 70368744177663 64, 22, false⟩,
    ⟨0x9000, 1024, 0x0B, 1, "cask.log_ring_dla", .u64, .rw, 8, 0, .step 0 70368744177663 4096, 22, false⟩,
    ⟨0x9000, 1024, 0x0C, 1, "cask.log_ring_order", .u8, .rw, 1, 12, .span 9 24, 0, false⟩,
    ⟨0x9000, 1024, 0x0D, 1, "cask.log_producer", .u32, .ro, 4, 0, .any, 28, false⟩,
    ⟨0x9000, 1024, 0x0E, 1, "cask.log_consumer", .u32, .rw, 4, 0, .any, 28, false⟩,
    ⟨0x9000, 1024, 0x0F, 1, "cask.log_status", .u8, .ro, 1, 0, .any, 0, false⟩,
    ⟨0x9000, 1024, 0x10, 1, "cask.access", .octets, .rw, 128, 0, .special, 2, true⟩,
    ⟨0x9000, 1024, 0x12, 1, "cask.log_outside", .u32, .ro, 4, 0, .any, 1, false⟩,
    ⟨0x9000, 1024, 0x20, 1, "cask.key_blob", .domain, .wo, 184, 0, .any, 2, true⟩,
    ⟨0x9000, 1024, 0x21, 1, "cask.key_state", .u8, .ro, 1, 0, .span 0 4, 0, false⟩,
    ⟨0x9000, 1024, 0x22, 1, "cask.key_id", .u32, .ro, 4, 0, .any, 0, false⟩,
    ⟨0x9000, 1024, 0x23, 1, "cask.key_command", .u8, .wo, 1, 0, .span 1 1, 0, true⟩,
    ⟨0x9000, 1024, 0x30, 1, "cask.counter_marks", .u8, .rw, 1, 0, .mask 15, 0, true⟩,
    ⟨0x9400, 23, 0x01, 1, "access.table", .octets, .rwp, 128, 0, .special, 2, true⟩,
    ⟨0x9420, 5, 0x01, 1, "access.table", .octets, .rwp, 128, 0, .special, 2, true⟩,
    ⟨0x94F0, 1, 0x01, 1, "access.edit", .u32, .wo, 4, 0, .special, 0, true⟩ ]

/-- The objects of the range from 0x9800. -/
def objRows9800 : List ObjRow :=
  [ ⟨0x9800, 1, 0x01, 1, "fold.alias_base", .u64, .const, 8, 68169720922112, .any, 22, false⟩,
    ⟨0x9800, 1, 0x02, 1, "fold.lanes", .u8, .const, 1, 8, .any, 255, false⟩,
    ⟨0x9800, 1, 0x03, 1, "fold.queue_lines", .u16, .const, 2, 2048, .any, 255, false⟩,
    ⟨0x9800, 1, 0x04, 1, "fold.line_folds", .u64, .ro, 8, 0, .any, 1, false⟩,
    ⟨0x9800, 1, 0x05, 1, "fold.dropped", .u32, .ro, 4, 0, .any, 1, false⟩,
    ⟨0x9800, 1, 0x06, 1, "fold.saturated", .u64, .ro, 8, 0, .any, 1, false⟩,
    ⟨0x9800, 1, 0x07, 1, "fold.fences", .u32, .ro, 4, 0, .any, 1, false⟩,
    ⟨0x9800, 1, 0x08, 1, "fold.alias_partial", .u32, .ro, 4, 0, .any, 1, false⟩,
    ⟨0x9800, 1, 0x09, 1, "capture.wait_limit_us", .u32, .rwp, 4, 100, .span 0 100000, 7, false⟩,
    ⟨0x9800, 1, 0x0A, 1, "capture.records", .u64, .ro, 8, 0, .any, 1, false⟩,
    ⟨0x9800, 1, 0x0B, 1, "capture.dropped", .u32, .ro, 4, 0, .any, 1, false⟩,
    ⟨0x9800, 1, 0x0C, 1, "capture.rejected", .u32, .ro, 4, 0, .any, 1, false⟩,
    ⟨0x9810, 16, 0x01, 1, "fold.alias.target", .u64, .rwp, 8, 0, .mask 9223442405598949376, 0, false⟩,
    ⟨0x9810, 16, 0x02, 1, "fold.alias.length_kib", .u32, .rwp, 4, 4, .step 4 4194304 4, 3, false⟩,
    ⟨0x9820, 8, 0x01, 1, "capture.link.full_policy", .u8, .rwp, 1, 0, .span 0 1, 0, false⟩,
    ⟨0x9820, 8, 0x02, 1, "capture.link.dropped", .u32, .ro, 4, 0, .any, 1, false⟩ ]

/-- The objects of the range from 0xA000. -/
def objRowsA000 : List ObjRow :=
  [ ⟨0xA000, 1, 0x01, 1, "fault.config", .octets, .rwp, 256, 0, .special, 2, false⟩,
    ⟨0xA000, 1, 0x02, 1, "fault.sticky", .octets, .ro, 32, 0, .any, 2, false⟩,
    ⟨0xA000, 1, 0x03, 1, "fault.clear", .u16, .wo, 2, 0, .special, 0, false⟩,
    ⟨0xA000, 1, 0x04, 1, "fault.edit", .u16, .wo, 2, 0, .special, 0, true⟩,
    ⟨0xA000, 1, 0x05, 1, "fault.worst", .u8, .ro, 1, 255, .span 0 3, 0, false⟩,
    ⟨0xA000, 1, 0x06, 1, "fault.fault_n", .bool, .ro, 1, 0, .span 0 1, 0, false⟩,
    ⟨0xA000, 1, 0x07, 1, "fault.reset_limit", .u8, .rwp, 1, 3, .span 1 16, 0, false⟩,
    ⟨0xA000, 1, 0x08, 1, "fault.reset_window_s", .u32, .rwp, 4, 3600, .span 60 86400, 255, false⟩,
    ⟨0xA000, 1, 0x09, 1, "fault.nmi_count", .u32, .ro, 4, 0, .any, 1, false⟩,
    ⟨0xA000, 1, 0x0A, 1, "fault.integrity_errors", .u32, .ro, 4, 0, .any, 1, false⟩ ]

/-- The objects of the range from 0xA800. -/
def objRowsA800 : List ObjRow :=
  [ ⟨0xA800, 1, 0x01, 1, "cnt.count", .u16, .const, 2, 2048, .any, 255, false⟩,
    ⟨0xA800, 1, 0x02, 1, "cnt.filter_select", .octets, .rwp, 2048, 0, .special, 2, false⟩,
    ⟨0xA800, 1, 0x03, 1, "cnt.filter_gen", .u32, .ro, 4, 0, .any, 1, false⟩,
    ⟨0xA800, 1, 0x04, 1, "cnt.describe_select", .u16, .rw, 2, 0, .span 0 2047, 0, false⟩,
    ⟨0xA800, 1, 0x05, 1, "cnt.describe", .domain, .ro, 32, 0, .any, 2, false⟩,
    ⟨0xA800, 1, 0x10, 1, "cnt.dump_base", .u64, .const, 8, 70368643514368, .any, 22, false⟩,
    ⟨0xA800, 1, 0x11, 1, "cnt.dump_records", .u16, .rwp, 2, 64, .oneOf [0, 2, 4, 8, 16, 32, 64, 128, 256, 512, 1024, 2048], 0, false⟩,
    ⟨0xA800, 1, 0x12, 1, "cnt.dump_start_tc", .u64, .rw, 8, 0, .any, 10, false⟩,
    ⟨0xA800, 1, 0x13, 1, "cnt.dump_period_tc", .u64, .rw, 8, 0, .zeroOr 65536 137438953472, 10, false⟩,
    ⟨0xA800, 1, 0x14, 1, "cnt.dump_now", .u8, .wo, 1, 0, .span 1 1, 0, false⟩,
    ⟨0xA800, 1, 0x15, 1, "cnt.dump_producer", .u32, .ro, 4, 0, .any, 255, false⟩,
    ⟨0xA800, 1, 0x16, 1, "cnt.dump_consumer", .u32, .rw, 4, 0, .any, 255, false⟩,
    ⟨0xA800, 1, 0x17, 1, "cnt.dumps_skipped", .u32, .ro, 4, 0, .any, 1, false⟩,
    ⟨0xA820, 32, 0x01, 1, "cnt.filter", .domain, .rwp, 32, 0, .special, 2, false⟩,
    ⟨0xA900, 16, 0x01, 128, "cnt.value", .u64, .ro, 8, 0, .any, 1, false⟩ ]

/-- The objects of the range from 0xB000. -/
def objRowsB000 : List ObjRow :=
  [ ⟨0xB000, 1, 0x01, 1, "cache.ways", .u8, .const, 1, 12, .any, 255, false⟩,
    ⟨0xB000, 1, 0x02, 1, "cache.scratch_ways", .u8, .rwp, 1, 0, .span 0 8, 255, false⟩,
    ⟨0xB000, 1, 0x03, 1, "cache.scratch_base", .u64, .const, 8, 70368710623232, .any, 22, false⟩,
    ⟨0xB000, 1, 0x04, 1, "cache.scratch_change_us", .u32, .ro, 4, 20, .any, 7, false⟩,
    ⟨0xB000, 1, 0x05, 1, "cache.scratch_clear", .u8, .wo, 1, 0, .span 0 7, 0, false⟩,
    ⟨0xB000, 1, 0x06, 1, "cache.flush", .u8, .wo, 1, 0, .span 1 1, 0, false⟩,
    ⟨0xB000, 1, 0x07, 1, "cache.dirty_lines", .u32, .ro, 4, 0, .any, 23, false⟩,
    ⟨0xB000, 1, 0x08, 1, "cache.bypass_fills", .u32, .ro, 4, 0, .any, 1, false⟩,
    ⟨0xB000, 1, 0x09, 1, "cache.heavy_lines", .u32, .ro, 4, 0, .any, 23, false⟩,
    ⟨0xB000, 1, 0x0A, 1, "cache.prefetch_issued", .u32, .ro, 4, 0, .any, 1, false⟩,
    ⟨0xB000, 1, 0x0B, 1, "cache.prefetch_used", .u32, .ro, 4, 0, .any, 1, false⟩,
    ⟨0xB000, 1, 0x0C, 1, "cache.prefetch_unused", .u32, .ro, 4, 0, .any, 1, false⟩,
    ⟨0xB000, 1, 0x0D, 1, "cache.prefetch_killed", .u32, .ro, 4, 0, .any, 1, false⟩,
    ⟨0xB000, 1, 0x0E, 1, "cache.prefetch_depth", .u8, .rwp, 1, 4, .span 0 16, 23, false⟩,
    ⟨0xB010, 8, 0x01, 1, "cache.region.policy", .u8, .rwp, 1, 0, .span 0 2, 0, false⟩,
    ⟨0xB010, 8, 0x02, 1, "cache.region.prefetch", .u8, .rwp, 1, 1, .span 0 1, 0, false⟩ ]

/-- The objects of the range from 0xB800. -/
def objRowsB800 : List ObjRow :=
  [ ⟨0xB800, 1, 0x01, 1, "integrity.parity_clean", .u32, .ro, 4, 0, .any, 1, false⟩,
    ⟨0xB800, 1, 0x02, 1, "integrity.parity_dirty", .u32, .ro, 4, 0, .any, 1, false⟩,
    ⟨0xB800, 1, 0x03, 1, "integrity.repair_dropped", .u32, .ro, 4, 0, .any, 1, false⟩,
    ⟨0xB800, 1, 0x04, 1, "integrity.sf_corrected", .u32, .ro, 4, 0, .any, 1, false⟩,
    ⟨0xB800, 1, 0x05, 1, "integrity.hbm_uncorrectable", .u32, .ro, 4, 0, .any, 1, false⟩,
    ⟨0xB800, 1, 0x06, 1, "integrity.poisoned_lines", .u64, .ro, 8, 0, .any, 1, false⟩,
    ⟨0xB810, 1, 0x01, 1, "sparge.period_h_hbm", .u16, .rwp, 2, 1, .span 1 24, 9, false⟩,
    ⟨0xB810, 1, 0x02, 1, "sparge.period_h_ddr", .u16, .rwp, 2, 24, .span 1 168, 9, false⟩,
    ⟨0xB810, 1, 0x03, 1, "sparge.period_h_nvm", .u16, .rwp, 2, 168, .span 24 720, 9, false⟩,
    ⟨0xB810, 1, 0x04, 1, "sparge.rate_hbm_mbs", .u32, .const, 4, 16000, .any, 12, false⟩,
    ⟨0xB810, 1, 0x05, 1, "sparge.rate_ddr_mbs", .u32, .const, 4, 2000, .any, 255, false⟩,
    ⟨0xB810, 1, 0x06, 1, "sparge.rate_nvm_mbs", .u32, .const, 4, 1000, .any, 255, false⟩,
    ⟨0xB810, 1, 0x07, 1, "sparge.nvm_rewrite_symbols", .u8, .rwp, 1, 6, .span 1 8, 255, false⟩,
    ⟨0xB810, 1, 0x08, 1, "sparge.zero_rate_hbm_mbs", .u32, .const, 4, 8000, .any, 12, false⟩,
    ⟨0xB810, 1, 0x09, 1, "sparge.zero_rate_ddr_mbs", .u32, .const, 4, 1000, .any, 255, false⟩,
    ⟨0xB819, 3, 0x01, 1, "sparge.tier.progress_ppm", .u32, .ro, 4, 0, .span 0 1000000, 14, false⟩,
    ⟨0xB819, 3, 0x02, 1, "sparge.tier.last_pass_tc", .u64, .ro, 8, 0, .any, 255, false⟩,
    ⟨0xB819, 3, 0x03, 1, "sparge.tier.debt", .u64, .ro, 8, 0, .any, 17, false⟩,
    ⟨0xB819, 3, 0x04, 1, "sparge.tier.corrected", .u32, .ro, 4, 0, .any, 1, false⟩,
    ⟨0xB830, 1, 0x01, 1, "retlog.producer", .u32, .ro, 4, 0, .any, 28, false⟩,
    ⟨0xB830, 1, 0x02, 1, "retlog.consumer", .u32, .rw, 4, 0, .any, 28, false⟩,
    ⟨0xB830, 1, 0x03, 1, "retlog.entries", .domain, .ro, 131072, 0, .any, 2, false⟩,
    ⟨0xB830, 1, 0x04, 1, "retlog.lost", .u32, .ro, 4, 0, .any, 1, false⟩,
    ⟨0xB830, 1, 0x05, 1, "retlog.page_threshold", .u16, .rwp, 2, 4, .span 1 1000, 0, false⟩,
    ⟨0xB830, 1, 0x06, 1, "retlog.bank_threshold", .u16, .rwp, 2, 64, .span 1 10000, 0, false⟩,
    ⟨0xB830, 1, 0x07, 1, "retlog.device_threshold", .u16, .rwp, 2, 32, .span 1 10000, 0, false⟩,
    ⟨0xB830, 1, 0x08, 1, "retlog.halving_h", .u16, .rwp, 2, 24, .span 1 8760, 9, false⟩ ]

/-- The objects of the range from 0xC000. -/
def objRowsC000 : List ObjRow :=
  [ ⟨0xC000, 1, 0x01, 1, "security.debug_state", .u8, .ro, 1, 0, .span 0 1, 0, false⟩,
    ⟨0xC000, 1, 0x02, 1, "security.debug_close", .u32, .wo, 4, 0, .span 3736125701 3736125701, 0, false⟩,
    ⟨0xC000, 1, 0x03, 1, "security.zeroise_all", .u32, .wo, 4, 0, .span 3802521600 3802521600, 0, true⟩,
    ⟨0xC000, 1, 0x04, 1, "security.entropy_state", .u8, .ro, 1, 0, .span 0 1, 0, false⟩ ]

/-- The rows of the owner range that holds index `idx` (R449). -/
def objRowsOf (idx : Nat) : List ObjRow :=
  match idx / 0x800 with
  | 2 => objRows1000
  | 3 => objRows1800
  | 4 => objRows2000
  | 5 => objRows2800
  | 6 => objRows3000
  | 8 => objRows4000
  | 9 => objRows4800
  | 10 => objRows5000
  | 11 => objRows5800
  | 12 => objRows6000
  | 13 => objRows6800
  | 14 => objRows7000
  | 15 => objRows7800
  | 16 => objRows8000
  | 17 => objRows8800
  | 18 => objRows9000
  | 19 => objRows9800
  | 20 => objRowsA000
  | 21 => objRowsA800
  | 22 => objRowsB000
  | 23 => objRowsB800
  | 24 => objRowsC000
  | _ => []

/-- The row that holds index `idx` and sub-index `sub`. -/
def objRow? (idx sub : Nat) : Option ObjRow :=
  (objRowsOf idx).find? (fun r => decide (r.base ≤ idx) && decide (idx < r.base + r.count)
    && decide (r.sub ≤ sub) && decide (sub < r.sub + r.subs))

/-- Some object exists at index `idx` (R450). -/
def objIndexExists (idx : Nat) : Bool :=
  (objRowsOf idx).any (fun r => decide (r.base ≤ idx) && decide (idx < r.base + r.count))

/-- The highest sub-index at `idx`, the value of sub-index 0 (R450). -/
def objHighestSub (idx : Nat) : Nat :=
  (objRowsOf idx).foldl (fun a r =>
    if r.base ≤ idx ∧ idx < r.base + r.count then max a (r.sub + r.subs - 1) else a) 0

end Sys2Proof.Machine
end

