-- ==== Sys2Proof/Machine/Types.lean ====
section
/-!
DEFINITION. Machine/Types.lean: the records that State is made of, block by block, each named by the rules it holds.
Every field's default is its reset value; where the spec states none, the value is zero or empty (log entry 1).
-/
namespace Sys2Proof.Machine

/-! ### Timebase and windows (R8 to R49) -/

/-- The timebase states (R14). -/
inductive TbState where
  | unlocked | locked | holdover | expired
  deriving DecidableEq, Repr

/-- The timebase unit (R8 to R18, R587): `prev` is the last valid frame's tc and epoch; `ahead` the TC cycles a running
backward slew (`slewing`) has still to give back and `edge` the edges since it last held; `lastDue` the due point last settled. -/
structure Timebase where
  tc : Nat := 0
  epoch : Nat := 0
  state : TbState := .unlocked
  clk : Bool := false
  measuredKhz : Nat := 0
  lockKhz : Nat := 0
  misses : Nat := 0
  crcErrors : Nat := 0
  realigns : Nat := 0
  prev : Option (Nat × Nat) := none
  ahead : Nat := 0
  edge : Nat := 0
  slewing : Bool := false
  lastDue : Option Nat := none
  deriving DecidableEq, Repr

/-- The classes a pending window may have (R19). -/
inductive WinClass where
  | opn | quiet | burst | barrier
  deriving DecidableEq, Repr

/-- A pending window (R21), with its fence and prologue as TC counts kept at acceptance (R588), its acceptance number,
and which of its timeline actions are done (R37). -/
structure Window where
  cls : WinClass
  start : Nat
  stop : Nat
  tag : Nat
  noChange : Bool
  evtStart : Bool
  evtEnd : Bool
  absorb : Bool
  absorbMib : Nat
  line : Nat
  fence : Nat
  prologue : Nat
  fenced : Bool := false
  prologued : Bool := false
  active : Bool := false
  deriving DecidableEq, Repr

/-- What a scheduled operation does (R38): the owning chapters are 04, 08, 09, 12 and 18. -/
inductive OpKind where
  | caskDomain (c d : Nat)
  | recall (d : Nat)
  | scratchWays (old new : Nat)
  | reserve (old new : Nat)
  | ddrFreq (mask fsp : Nat)
  | linkChange (l target : Nat)
  | domain (n target : Nat)
  | bringUp (n : Nat)
  deriving DecidableEq, Repr

/-- The activities of its own that the device places on the timeline (R36). -/
inductive Activity where
  | allBankRefresh | drain | rekilning | patrol | zeroing | migration | calibration | scheduled | dumpWriteOut
  deriving DecidableEq, Repr

/-- A requested scheduled operation, its duration in µs, and the TC at which it started. -/
structure SchedOp where
  kind : OpKind
  us : Nat
  since : Nat := 0
  deriving DecidableEq, Repr

/-- The window scheduler (R19 to R48). Bit `k` of `forced` marks a class under forced repayment (R44), of `overrun` one that has counted
its overrun in the BURST window in effect (R45); `debtRest` keeps the fraction of each debt below one work-µs. `fenceOn` and `prologueOn`
say that a write fence or a prologue is in effect (R37). -/
structure WinUnit where
  pending : List Window := []
  results : Tab Nat := []
  barriers : Nat := 0
  breaches : Nat := 0
  debtLevel : Tab Nat := []
  debtAccrual : Tab Nat := []
  debtRest : Tab Nat := []
  debtOverruns : Tab Nat := []
  forced : Nat := 0
  overrun : Nat := 0
  fenceOn : Bool := false
  prologueOn : Bool := false
  ops : List SchedOp := []
  running : Option SchedOp := none
  deriving DecidableEq, Repr

/-! ### Fault collector and counters (R543 to R566) -/

/-- The block a fault source resets (R540, R551). -/
inductive Block where
  | head (h : Nat) | link (l : Nat) | chan (c : Nat) | none
  deriving DecidableEq, Repr

/-- The fault collector (R543 to R550): sticky bits as a 256-bit number, the counts, the chip resets counted by the
history, the sources set while the core is dark (R546), the reactions still to act, and a held SAFE request (R528). -/
structure FaultUnit where
  sticky : Nat := 0
  nmis : Nat := 0
  integrityErrors : Nat := 0
  history : Nat := 0
  dark : Nat := 0
  wantBlocks : List Block := []
  wantChip : Bool := false
  wantSafe : Bool := false
  safeHeld : Bool := false
  deriving DecidableEq, Repr

/-- A dump record (R564): `rest` holds, as one number, the counters whose events the model does not hold (`counterHidden`). -/
structure DumpRec where
  seq : Nat
  epoch : Nat
  tbState : Nat
  commanded : Bool
  tc : Nat
  clocks : Nat
  window : Nat
  skipped : Nat
  filterGen : Nat
  rest : Nat
  counters : Tab Nat
  deriving DecidableEq, Repr

/-- The event counters, the filters' generation, and the dump ring (R552 to R565). -/
structure CntUnit where
  vals : Tab Nat := []
  filterGen : Nat := 0
  describe : Tab Nat := []
  ring : Tab DumpRec := []
  latched : Option DumpRec := none
  nextSeq : Nat := 0
  producer : Nat := 0
  skipped : Nat := 0
  skippedSince : Nat := 0
  nextDue : Option Nat := none
  clocks : Nat := 0
  kills : Tab Nat := []
  deriving DecidableEq, Repr

/-! ### Heads (R50 to R80) -/

/-- Head states (R80). -/
inductive HeadState where
  | absent | down | ioOnly | active | lost
  deriving DecidableEq, Repr

/-- The body of a vendor event record (R65) with the CXL timestamp it was given (R66). -/
structure EvRec where
  source : Nat
  severity : Nat
  master : Nat
  epoch : Nat
  tc : Nat
  dla : Nat
  stamp : Nat
  deriving DecidableEq, Repr

/-- The kinds of a dynamic capacity record (R57, R58, R173). -/
inductive DcKind where
  | add | release | forced
  deriving DecidableEq, Repr

/-- One record of an event log: a vendor record, or a dynamic capacity record with its extent and its tag's cask (R97). -/
inductive LogRec where
  | vendor (r : EvRec)
  | dc (kind : DcKind) (base len cask : Nat)
  deriving DecidableEq, Repr

/-- An event log of a head: at most 64 records, the overflow flag and the lost count (R65). -/
structure EvLogSt where
  recs : List LogRec := []
  overflow : Bool := false
  lost : Nat := 0
  deriving DecidableEq, Repr

/-- A message the device sends to a head (R61, R77, R125). -/
inductive HeadMsg where
  | data (tag : Nat) (data : Line) (poison metaI : Bool)
  | cmp (tag : Nat)
  | snoop (kind : Nat) (dla : Nat)
  | conflictAck (dla : Nat)
  deriving DecidableEq, Repr

/-- The return codes that the spec names (R66, R67, R485). -/
inductive MboxRc where
  | success | invalidInput | unsupported | invalidSlot
  deriving DecidableEq, Repr

/-- What a mailbox output payload carries: bytes of a vendor command, or the named content of a standard one. -/
inductive MboxOut where
  | none
  | bytes (b : List Byte)
  | events (recs : List LogRec) (overflow : Bool) (lost : Nat)
  | policy (p : BitVec 5)
  | fwInfo (running : Nat) (a b : Nat)
  | time (t : Nat)
  | logs
  | log (content : Nat)
  | identity (staticVolatile staticPersistent : Nat)
  | health (worst : Nat)
  | lines (dlas : List Nat)
  | dcConfig (regions : List (Nat × Nat × Nat × Nat))
  | dcExtents (exts : List (Nat × Nat × Nat))
  deriving DecidableEq, Repr

/-- A head's mailbox: the opcode answered last and its answer. -/
structure Mbox where
  opcode : Nat := 0
  rc : MboxRc := .success
  out : MboxOut := .none
  deriving DecidableEq, Repr

/-- The failover record of R78. -/
structure FailRec where
  reads : Nat
  tc : Nat
  writes : List (Nat × Bool)
  deriving DecidableEq, Repr

/-- An HDM decoder of a head (R60). -/
structure Hdm where
  base : Nat := 0
  len : Nat := 0
  committed : Bool := false
  notCommitted : Bool := false
  deriving DecidableEq, Repr

/-- The registers of a head's BAR2 dictionary window (R462). -/
structure Bar2 where
  index : Nat := 0
  sub : Nat := 0
  offset : Nat := 0
  length : Nat := 0
  status : Nat := 0
  abort : Nat := 0
  size : Nat := 0
  len : Nat := 0
  type : Nat := 0
  buffer : List Byte := []
  deriving DecidableEq, Repr

/-- A head (R50 to R80): `detect` while the failover detection interval runs (R76); `ideKeyed` and `ideInsecure` have a
bit per IDE stream (R72, R228); `msix` a bit per pending vector (R55); `sent` what the device sent, oldest
first, and `owed` what waits through a detection interval. `ideContain` is containment mode of CXL.mem IDE, with the flits sent since the
last MAC and the MACs sent (R73); `ras` the CXL RAS capability's status, bit 0 for an IDE failure (R64). -/
structure Head where
  state : HeadState := .absent
  width : Nat := 0
  rate : Nat := 0
  flit : Nat := 0
  failovers : Nat := 0
  detect : Bool := false
  bi : Bool := false
  info : EvLogSt := {}
  warning : EvLogSt := {}
  failure : EvLogSt := {}
  fatal : EvLogSt := {}
  dyncap : EvLogSt := {}
  policy : BitVec 5 := 0x1F
  msix : Nat := 0
  mbox : Mbox := {}
  stamp : Nat := 0
  hdm : Tab Hdm := []
  ideKeyed : Nat := 0
  ideInsecure : Nat := 0
  ideContain : Bool := false
  flitsToMac : Nat := 0
  macs : Nat := 0
  ras : Nat := 0
  failRec : Option FailRec := none
  bar2 : Bar2 := {}
  sent : List HeadMsg := []
  owed : List HeadMsg := []
  deriving DecidableEq, Repr

/-! ### One access to a line, and where its answer goes -/

/-- How a request is bound to a cask (R95, R96): by the directory entry (CXL.mem), by a PASID (`none`: bound to no
slot), or not at all. -/
inductive Binding where
  | byDir
  | pasid (slot : Option Nat)
  | raw
  deriving DecidableEq, Repr

/-- What an access does to its line. -/
inductive AccKind where
  | read | write | fold | append
  deriving DecidableEq, Repr

/-- Where the answer of an access goes: to a head, to request `id` of a link, to the home's transaction of a line, to the home that holds
an owner's data of a line until it is stored (R130), to a burst of a Hopper channel, to the append `id` of link `l` that starts at `start`
in capture queue `q`, or to the running line fold `id`. -/
inductive Ret where
  | none
  | head (h tag : Nat) (mv : Meta)
  | link (l id : Nat)
  | coh (line : Nat)
  | held (line : Nat)
  | hopper (ch burst : Nat)
  | append (q start l id : Nat)
  | fold (id : Nat)
  deriving DecidableEq, Repr

/-- One access to one line: `dla` is the line's address, `mask` the bytes written, `op` the fold code of a fold, whose operand
is `data` (R430). -/
structure Access where
  master : Nat
  bind : Binding
  kind : AccKind
  dla : Nat
  mask : BitVec 64
  data : Line
  poison : Bool
  whole : Bool := true
  op : Nat := 0
  ret : Ret
  deriving DecidableEq, Repr

/-- The windows of the DLA space that are no memory: timeline aperture (R24), counter dump (R561), doorbells (R401),
scratchpad (R253), fold aliases (R434). -/
inductive DlaWin where
  | timeline | dump | doorbell | scratch | foldAlias | memory
  deriving DecidableEq, Repr

/-- Why an access waits: its channel is frozen (R283), its page's record is held by an allocation, swing, repair,
expansion or erase (R88, R91, R156, R193), it needs absorb space (R48), reserve space (R263), capacity (R199), mirror
space (R262), journal room (R165), a cache way (R242), a transaction tracker (R138), its key's rebuild (R220), its head is in
failover detection (R76), an earlier access of its master to its line waits (R62, R269), or a scheduled operation has taken its
cache way, DDR5 channel, scratchpad unit or cask offline (R33, R117, R256, R287), or its entry of the dirty-page log cannot be made yet
(R104). -/
inductive WaitWhy where
  | frozen | hold | repair | expansion | absorb | reserve | space | mirror | journal | way | tracker | key | detect | order
  | offline | unit | assign | log
  deriving DecidableEq, Repr

/-- A waiting access, accepted at `tc` (R29). -/
structure Wait where
  why : WaitWhy
  acc : Access
  obs : Obs
  tc : Nat := 0
  deriving DecidableEq, Repr

/-! ### Map, casks and access (R81 to R116) -/

/-- The states of an extent, and so of its directory entries (R84). -/
inductive ExtState where
  | offered | accepted | releasing
  deriving DecidableEq, Repr

/-- An extent: its directory entries carry the cask, state, group and region (R84); `freed` are the blocks, by their
number within the extent, whose entries are UNMAPPED again (R174). -/
structure Extent where
  base : Nat
  len : Nat
  cask : Nat
  group : Nat
  region : Nat
  st : ExtState
  freed : List Nat := []
  deriving DecidableEq, Repr

/-- The states of a page record (R85). -/
inductive PgState where
  | unwritten | hbm | ddr | nvm | migrating | poisoned
  deriving DecidableEq, Repr

/-- A page record's payload (R85); `sectors` is the stored size in sectors minus one. -/
structure PageRec where
  st : PgState := .unwritten
  grist : Bool := false
  sectors : Nat := 63
  ch : Nat := 0
  loc : Nat := 0
  heat : Nat := 0
  gen : Nat := 0
  deriving DecidableEq, Repr

/-- The map (R81 to R93): extents, page tables by block, page records, the pools, records under repair, pages whose discard waits with the
master that asked, and the regions whose page tables the HBM mirror holds now (R147). `cache` is the map cache (R86): by set, the numbers
of the records it holds, most recently used first; `badRecs` has, by record number, a bit per copy that fails its complement (R83):
0 map cache, 1 HBM mirror, 2 DDR5 mirror, 3 and 4 the two copies of the map zone. `poolDdr` is by channel (R92). `wrote` has the TC of the
last write to each page (R195). -/
structure MapUnit where
  extents : List Extent := []
  tables : Tab Nat := []
  nextTable : Nat := 0
  pages : Tab PageRec := []
  recordErrors : Nat := 0
  recordsLost : Nat := 0
  cache : Tab (List Nat) := []
  badRecs : Tab Nat := []
  wrote : Tab Nat := []
  poolHbm : Nat := 0
  poolDdr : Tab Nat := []
  inlineZero : Nat := 0
  repairing : List Nat := []
  discards : List (Nat × Nat) := []
  resident : Nat := 0xFF
  deriving DecidableEq, Repr

/-- The states of a cask (R98). -/
inductive CaskState where
  | free | active | quiescing | quiesced | resetting
  deriving DecidableEq, Repr

/-- The states of a cask's keys (R221). -/
inductive KeyState where
  | empty | loaded | erasing | erased | fault
  deriving DecidableEq, Repr

/-- The five keys of a CASK blob (R217). -/
structure KeySet where
  a : BitVec 256
  b : BitVec 256
  c : BitVec 256
  d : BitVec 256
  e : BitVec 256
  deriving DecidableEq, Repr

/-- A cask slot (R94 to R107, R221): `blob` is the blob store's copy (R219); Seedbank's is a record. `cut` is the TC of the cut point of its
last QUIESCE, and `cutFold` the first line fold after it (R100). -/
structure Cask where
  state : CaskState := .free
  producer : Nat := 0
  status : Nat := 0
  outside : Nat := 0
  keyState : KeyState := .empty
  keyId : Nat := 0
  keys : Option KeySet := none
  blob : Option (BitVec 1472) := none
  cut : Nat := 0
  cutFold : Nat := 0
  deriving DecidableEq, Repr

/-! ### Coherence (R117 to R144) -/

/-- A snoop filter entry (R121): the owner, or the sharers as a bit set of agents; `lru` rises with use. -/
structure FilterEnt where
  owner : Option Nat
  sharers : Nat
  domain : Nat
  lru : Nat
  deriving DecidableEq, Repr

/-- What a coherent request asks of the home (R129); `evict` and `recall` are the home's own (R122, R143). -/
inductive CohKind where
  | cur | shared | own | write | evict | recall
  deriving DecidableEq, Repr

/-- A coherent request at the home: its agent (`none`: device-side), its access, and whether it came with the retry
credit of its agent (R137); `tc` is when it was accepted (R29). -/
structure CohReq where
  agent : Option Nat
  kind : CohKind
  acc : Access
  obs : Obs := {}
  reserved : Bool := false
  tc : Nat := 0
  deriving DecidableEq, Repr

/-- A snoop whose answer is owed (R133): the agent, the snoop's code, and the head it went through. -/
structure SnoopOut where
  agent : Nat
  kind : Nat
  via : Nat := 0
  deriving DecidableEq, Repr

/-- The active transaction of a line (R127): the snoops whose answer is owed, the data an owner returned (R130), and the poison of it;
`replied` that the requester has its
data already (R130, R132); `issued` says that its memory access has gone below the home (R131), `done` what that answered, `event` that it
read a poisoned line (R64). -/
structure CohTxn where
  line : Nat
  domain : Nat
  req : CohReq
  owed : List SnoopOut
  data : Option (Line × Bool) := none
  event : Bool := false
  replied : Bool := false
  issued : Bool := false
  done : Option (Line × Bool) := none
  deriving DecidableEq, Repr

/-- The states of a coherence domain (R142). -/
inductive DomState where
  | unused | active | down | recalling
  deriving DecidableEq, Repr

/-- A coherence domain (R140 to R144); `reform` says that a recall belongs to REFORM (R143). -/
structure CohDomain where
  state : DomState := .unused
  cause : Nat := 0
  dead : Nat := 0xFF
  poisoned : Nat := 0
  dropped : Nat := 0
  downTc : Nat := 0
  downs : Nat := 0
  reform : Bool := false
  deriving DecidableEq, Repr

/-- The home (R117 to R144): `queue` is the lines' queues, in arrival order, and `devQueue` the device queue, whose requests wait for the
device slot of their line (R127); `held` is the owners' data that is not stored yet, by line (R130); `retried` lists, per agent, the code,
tag and line of the requests answered with RETRY and not reissued, oldest first; `pulled` has a bit per agent that owes a PULL its answer,
`retrySince` a bit per agent that was sent a RETRY since its last reissue on the retry credit (R137). -/
structure CohUnit where
  filter : Tab FilterEnt := []
  txns : List CohTxn := []
  queue : List CohReq := []
  devQueue : List CohReq := []
  held : Tab (Line × Bool) := []
  domains : Tab CohDomain := []
  dead : Nat := 0
  evictions : Nat := 0
  downgrades : Nat := 0
  retries : Nat := 0
  retried : Tab (List (Nat × Nat × Nat)) := []
  pulled : Nat := 0
  retrySince : Nat := 0
  clock : Nat := 0
  deriving DecidableEq, Repr

/-! ### Lauter and Mill (R145 to R201) -/

/-- How far a migration has come (R152). -/
inductive MigStage where
  | copying | holding | swung
  deriving DecidableEq, Repr

/-- A migration slot (R152): the page, its source record, the destination, the catch mask, the passes made, and whether
it is paused (R158, R159) or a repack (R195); `pass` are the lines that the pass in progress copies, `bad` the lines that the copies made
so far leave poisoned at the destination (R153, R154). -/
structure Slot where
  page : Nat
  src : PageRec
  dst : PageRec
  mask : Nat := 0
  passes : Nat := 0
  stage : MigStage := .copying
  paused : Bool := false
  repack : Bool := false
  since : Nat := 0
  pass : Nat := 0xFFFFFFFFFFFFFFFF
  bad : Nat := 0
  deriving DecidableEq, Repr

/-- A journal entry (R163): kind 1 PAGE, 2 DIR, 3 CHECKPOINT, 4 MIGRATE. -/
structure JEntry where
  seq : Nat
  kind : Nat
  aux : Nat
  target : Nat
  payload : Nat
  deriving DecidableEq, Repr

/-- A copy of the map zone (R164): the journal ring from its oldest entry still needed, which stands at place `head`, the base tables'
payloads by their target (`JEntry.key`), and how many drains it has taken, by which the newer of two copies is told (R164, R166). -/
structure Zone where
  ring : List JEntry := []
  head : Nat := 0
  base : Tab Nat := []
  stamp : Nat := 0
  deriving DecidableEq, Repr

/-- The states of a DDR5 or NVM channel for Lauter (R167). -/
inductive ChanState where
  | absent | offline | online | evacuating | evacuated
  deriving DecidableEq, Repr

/-- Lauter (R145 to R175): channel states by number 0 to 15 and their placement capacity in pages, heat counts by page
with the spill queue, the candidates of the last decay pass and those of low space (`low`, R148), the pages that no move takes before the
next decay pass (`barred`, R160), the slots, the bytes queued for copy in the last 60 s with their TC (R151), the journal buffer, the
updates that wait for room in it (R165), the zone copies by NVM channel (R164), whether the map has been rebuilt since power-up (R166), and
the retirement in progress, which began at `retireTc` (R29). -/
structure LauterUnit where
  chan : Tab ChanState := []
  capPages : Tab Nat := []
  heat : Tab Nat := []
  spill : List (Nat × Nat) := []
  promote : List Nat := []
  demote : List Nat := []
  low : List Nat := []
  barred : List Nat := []
  slots : Tab Slot := []
  copied : List (Nat × Nat) := []
  migrations : Nat := 0
  abandoned : Nat := 0
  spillDropped : Nat := 0
  journal : List JEntry := []
  backlog : List JEntry := []
  zones : Tab Zone := []
  rebuilt : Bool := false
  jseq : Nat := 0
  checkpoint : Nat := 0
  retireStatus : Nat := 0
  retireUnit : Nat := 0
  retireTc : Nat := 0
  excluded : List Nat := []
  deriving DecidableEq, Repr

/-- Mill (R176 to R201): `pages` the stored grist of each grist page before Husk's encryption (R181); pages being expanded, each with the
cached lines whose writeback started it and the TC of its start (R29), and the counts. -/
structure MillUnit where
  pages : Tab (List Byte) := []
  expanding : Tab (List Nat) := []
  expandTc : Tab Nat := []
  expansions : Nat := 0
  repacks : Nat := 0
  decodeErrors : Nat := 0
  spaceWaits : Nat := 0
  spacePoisoned : Nat := 0
  deriving DecidableEq, Repr

/-! ### Husk (R202 to R234) -/

/-- A LINK key slot (R217, R230, R231). -/
structure LinkSlot where
  loaded : Bool := false
  keyId : Nat := 0
  down : BitVec 256 := 0
  up : BitVec 256 := 0
  saltDown : Nat := 0
  saltUp : Nat := 0
  sent : Nat := 0
  received : Nat := 0
  deriving DecidableEq, Repr

/-- Husk (R202 to R234): the owner root, the power-up's HBM key number, `hbmOff` how each of the key's three copies differs from what was drawn
(R204), the counts, the debug fuse; per link `l` the slots
at keys 2l and 2l + 1, the active slot, and whether the endpoint has not yet sent under it (R231). -/
structure HuskUnit where
  rootDone : Bool := false
  root : BitVec 256 := 0
  hbmKey : Nat := 0
  hbmOff : Tab (BitVec 256) := []
  macFailures : Nat := 0
  macRefetchOk : Nat := 0
  partialDropped : Nat := 0
  unwrapFailures : Nat := 0
  vaultErrors : Nat := 0
  linkSlots : Tab LinkSlot := []
  active : Nat := 0
  switching : Nat := 0
  tagFailures : Tab Nat := []
  debugClosed : Bool := false
  entropyFailed : Bool := false
  deriving DecidableEq, Repr

/-! ### Cache, side buffer and scratchpad (R235 to R258) -/

/-- A cached line's state (R235): `gen` is the page generation of the translation that dirtied it (R246), `tc` the TC at which it became
dirty (R29). -/
structure CLine where
  way : Nat
  dirty : Bool := false
  heavy : Bool := false
  age : Nat := 0
  gen : Nat := 0
  tc : Nat := 0
  deriving DecidableEq, Repr

/-- A stream tracker (R248): the master, its page, the last demand line, whether it has started, and how the master's demands are bound,
by which its prefetches are checked (R249). -/
structure Tracker where
  master : Nat
  page : Nat
  last : Nat
  started : Bool
  bind : Binding := .raw
  deriving DecidableEq, Repr

/-- The on-die cache, side buffer and scratchpad (R235 to R258): lines by line number DLA[45:6], MAC lines by the first
data line of the eight they cover, the side buffer oldest first, and the valid words of the scratchpad by word number.
`ways` are the ways now converted. -/
structure CacheUnit where
  lines : Tab CLine := []
  macLines : Tab CLine := []
  side : List Nat := []
  trackers : List Tracker := []
  flushing : Bool := false
  ways : Nat := 0
  words : Tab Bool := []
  bypass : Nat := 0
  prefIssued : Nat := 0
  prefUsed : Nat := 0
  prefUnused : Nat := 0
  prefKilled : Nat := 0
  deriving DecidableEq, Repr

/-! ### Modes and domains (R523 to R542) -/

/-- The twelve device modes (R526). -/
inductive Mode where
  | unseated | inserting | recall | unaddressed | configuring | training
  | service | persist | drain | diagnosis | safe | update
  deriving DecidableEq, Repr

/-- The states of a power domain (R533). -/
inductive DomPower where
  | off | retention | on | onHeld | changing | duty
  deriving DecidableEq, Repr

/-- Mode control, power domains and reset (R523 to R542): `updateFrom` is the mode that the present UPDATE was entered from, `bootUpdate`
marks a boot-failure UPDATE; `target` says what a changing domain goes to; `strap*` are the latched pins, `strapsTaken` that they were
latched since the sentry's power-on (R570); `gpf*` count the resets. -/
structure ModeUnit where
  current : Mode := .unseated
  previous : Mode := .unseated
  updateFrom : Mode := .unseated
  bootUpdate : Bool := false
  drainState : Nat := 0
  build : Nat := 0
  strapsTaken : Bool := false
  resetCause : Nat := 0
  resetCount : Nat := 0
  domains : Tab DomPower := []
  target : Tab Nat := []
  padsHeld : Nat := 0
  railsUp : Bool := false
  drainStopped : List Nat := []
  deriving DecidableEq, Repr

/-! ### HBM and DDR5 (R259 to R291) -/

/-- A DDR5 channel (R266 to R291): `fspOk` has a bit per trained set point; `ce` counts corrections by 10 × sub-channel +
device (R282); `poisonList` holds lines by their DLA; `stale` granules not yet resilvered (R280), since `resilverTc` (R29); `limit` says that
ddr.freeze_limit_us has passed in the present freeze (R283). -/
structure DdrChan where
  dimms : Nat := 0
  ranks : Nat := 0
  tds : Bool := false
  gib : Nat := 0
  train : Nat := 0
  fspOk : Nat := 0
  fsp : Nat := 0
  freeze : Nat := 0
  cause : Nat := 0
  limit : Bool := false
  snapshot : List Byte := []
  poisonList : List Nat := []
  retries : Nat := 0
  rereadsOk : Nat := 0
  freezes : Nat := 0
  stale : List Nat := []
  resilverTc : Nat := 0
  temp : Int := 0
  balance : Int := 0
  ce : Tab Nat := []
  deriving DecidableEq, Repr

/-- The training helper (R289, R290): the running or last command, its result, and what the helpers have set: parameters
by channel, set point, sub-channel, parameter and lane, and mode registers by channel, rank and register. -/
structure HelperSt where
  status : Nat := 0
  cmd : Nat := 0
  steps : Nat := 0
  value : Nat := 0
  lanes : List (BitVec 64) := []
  params : Tab Nat := []
  modeRegs : Tab Nat := []
  deriving DecidableEq, Repr

/-- The DRAM controllers (R259 to R291): `reserveWas` is the size the persist reserve changes from (R264), `alone` has a
bit per mirrored pair that one channel carries alone (R284), `doubled` says that the HBM refresh rate is doubled, and
`hbmRefreshes` counts the per-bank refreshes issued per pseudo-channel. -/
structure DramUnit where
  ddr : Tab DdrChan := []
  hbmTemp : Int := 0
  doubled : Bool := false
  hbmRefreshes : Tab Nat := []
  mirrorWaits : Nat := 0
  reserveWaits : Nat := 0
  reserveWas : Option Nat := none
  alone : Nat := 0
  helper : HelperSt := {}
  deriving DecidableEq, Repr

/-! ### Kiln (R292 to R333) -/

/-- The absorbed lines of a page (R321, R322), by a bit per line; `since` rises with the first absorption (R323), which came at `tc`
(R29). -/
structure AbsPage where
  mask : Nat
  since : Nat
  persist : Bool
  tc : Nat
  deriving DecidableEq, Repr

/-- A program in progress (R309, R317 to R320): the page it writes, the record it was captured against and the new place, the
lines captured and those changed since, the data captured, the lines that reach the medium poisoned, and the grist built for a page that
Mill compresses; `pending` says that an
ABORT waits for end_tc, and `since` is the TC of its start (R29). -/
structure Prog where
  page : Nat
  why : PgWhy
  old : PageRec
  ch : Nat
  loc : Nat
  grist : Bool
  sectors : Nat
  captured : Nat
  changed : Nat
  data : Tab Line
  poison : List Nat
  suspended : Bool := false
  pending : Bool := false
  since : Nat := 0
  image : List Byte := []
  deriving DecidableEq, Repr

/-- The old place of a page whose commit has not reached the journal ring (R309 step 7): the journal entry, the old record, and
what the medium held there of the lines that the commit changed, and its grist. -/
structure OldPage where
  page : Nat
  seq : Nat
  old : PageRec
  lines : Tab Line
  poison : List Nat
  image : List Byte := []
  deriving DecidableEq, Repr

/-- A block of the medium (R299, R300, R308): lines programmed since manufacture, its age in hours, its trim and how far that has
moved since the block was opened, the next line to fill while it is open, and whether it is SUSPECT (R307) or being rewritten (R311,
R315). -/
structure Blk where
  lines : Nat := 0
  age : Nat := 0
  trim : Int := 0
  moved : Nat := 0
  opened : Bool := false
  next : Nat := 0
  suspect : Bool := false
  rewrite : Bool := false
  deriving DecidableEq, Repr

/-- What a package says of itself (R295, R296): FORMATTED, and the 64 bytes of each copy of its root record. -/
structure RootRec where
  formatted : Bool
  copyA : List Byte := []
  copyB : List Byte := []
  deriving DecidableEq, Repr

/-- An NVM channel (R292, R296, R332). -/
structure NvmChan where
  gib : Nat := 0
  rlNs : Nat := 0
  rootState : Nat := 0
  passed : Bool := false
  roots : List RootRec := []
  uncorrectable : Nat := 0
  rescued : Nat := 0
  programFails : Nat := 0
  busErrors : Nat := 0
  deriving DecidableEq, Repr

/-- Kiln (R292 to R333): `media` holds, by line number, what the medium holds of each absorbed line, and `mediaPoison` which
of these are poisoned there (R325); `blocks` is by channel and block number; `olds` the old places not yet free, `rewrites` pages to
write again (R306, R349), `rescue` lines and `witness` blocks queued; `flushing` a flush of R327, begun in PERSIST or by GPF Phase 2
(`gpf`). -/
structure KilnUnit where
  chans : Tab NvmChan := []
  absorbed : Tab AbsPage := []
  media : Tab Line := []
  mediaPoison : Tab Bool := []
  progs : Tab Prog := []
  blocks : Tab Blk := []
  olds : List OldPage := []
  rewrites : List Nat := []
  rescue : List Nat := []
  witness : List Nat := []
  witnessDropped : Nat := 0
  suspends : Nat := 0
  suspendAborts : Nat := 0
  persistClean : Bool := true
  gpfFlushes : Nat := 0
  flushing : Bool := false
  gpf : Bool := false
  clock : Nat := 0
  deriving DecidableEq, Repr

/-! ### Integrity, Sparge and the retirement log (R334 to R360) -/

/-- A retirement log entry (R356). -/
structure RetEnt where
  seq : Nat
  kind : Nat
  tier : Nat
  channel : Nat
  origin : Nat
  symbols : Nat
  tc : Nat
  retire : Nat
  page : Nat
  device : Nat
  count : Nat
  deriving DecidableEq, Repr

/-- Data integrity and Sparge (R334 to R360): repair queues of HBM and DDR5 lines; page and block counts, the most recently counted first;
bank and device counts; the log ring by place; `kept` entries already written to Seedbank (R358); each tier's patrol debt, and the
fraction of it below one work-µs (R351); `hbmSeen` log entries that training has repaired from, with `hbmSpent` spare rows (R359). -/
structure IntegUnit where
  parityClean : Nat := 0
  parityDirty : Nat := 0
  repairDropped : Nat := 0
  sfCorrected : Nat := 0
  hbmUncorrectable : Nat := 0
  poisonedLines : Nat := 0
  repairHbm : List Nat := []
  repairDdr : List Nat := []
  pageCnt : List (Nat × Nat) := []
  bankCnt : Tab Nat := []
  devCnt : Tab Nat := []
  ring : Tab RetEnt := []
  producer : Nat := 0
  lost : Nat := 0
  lostSince : Nat := 0
  kept : Nat := 0
  lastPass : Tab Nat := []
  corrected : Tab Nat := []
  progress : Tab Nat := []
  hbmSeen : Nat := 0
  hbmSpent : Nat := 0
  tierDebt : Tab Nat := []
  tierRest : Tab Nat := []
  deriving DecidableEq, Repr

/-! ### Semund links (R361 to R396) -/

/-- Link states (R396). -/
inductive LinkState where
  | disabled | training | active | changing | down
  deriving DecidableEq, Repr

/-- Training steps (R363). -/
inductive TrainStep where
  | none | detect | lock | config | speed | init
  deriving DecidableEq, Repr

/-- A data flit the leader holds until it is acknowledged (R365, R375). -/
structure TxFlit where
  seq : Nat
  starts : Nat
  slots : List (BitVec 128)
  ack : Nat
  enc : Bool
  ks : Bool
  deriving DecidableEq, Repr

/-- A control record (R368). -/
inductive CtlRec where
  | empty
  | nak (n : Nat)
  | credit (group : Nat) (limits : List Nat)
  | creditRd (limit : Nat)
  | creditWb (limit : Nat)
  | changeReq (id width speed reason : Nat)
  | changeAck (id : Nat)
  | changeDefer (id : Nat)
  | changeRefuse (id : Nat)
  | changeGo (id seq : Nat)
  | down (cause : Nat)
  deriving DecidableEq, Repr

/-- What the leader puts on the lanes: a data flit, a control record with its ack, or a training block. -/
inductive LinkTx where
  | flit (f : TxFlit)
  | ctl (r : CtlRec) (ack : Nat)
  | ts (type flags : Nat)
  deriving DecidableEq, Repr

/-- A change in progress (R381 to R385): the leader's own or the endpoint's, how often it was asked for, whether it was
acknowledged (step 3) and whether the lanes retrain (steps 4 and 5). -/
structure LinkChange where
  id : Nat
  width : Nat
  speed : Nat
  planned : Bool
  leader : Bool
  sends : Nat := 1
  acked : Bool := false
  retraining : Bool := false
  deriving DecidableEq, Repr

/-- A request of a link being served (R370): `left` line accesses are not done; `got` holds a read's lines by number. -/
structure LinkReq where
  id : Nat
  vc : Nat
  tag : Nat
  read : Bool
  cmp : Bool
  addr : Nat
  len : Nat
  left : Nat
  got : Tab Line := []
  poison : Bool := false
  error : Bool := false
  deriving DecidableEq, Repr

/-- A FENCE not yet answered (R373): it waits for the link's writes numbered below `req` and line folds below `fold`. -/
structure LinkFence where
  vc : Nat
  tag : Nat
  req : Nat
  fold : Nat
  deriving DecidableEq, Repr

/-- A Semund link at the leader (R361 to R396). Received side: `e` the expected seq, `nakSent` for this e, the slots of a packet not yet
whole, whole packets not yet carried out, slots received per VC and the limits advertised, read credit (R380) and writeback credit. Sent
side: the next seq, held flits oldest first, packets that wait for credit, limit and used per VC, the VC last served, replays of the
oldest flit. `errs`, `crcs` are the flit numbers of the errors in the window (R387, R388) and `retrainTcs` the TCs of error-driven
retrains; `wrTags` the tag, channel and burst of each leader WR not yet answered; `want` a cause for which the link goes down at the end
of the command. -/
structure Link where
  st : LinkState := .disabled
  step : TrainStep := .none
  tries : Nat := 0
  lanes : Nat := 0
  width : Nat := 0
  speed : Nat := 0
  vcs : Nat := 0
  endpointId : Nat := 0
  peerSpeeds : Nat := 0
  initGot : Nat := 0
  crcErrors : Nat := 0
  protocolErrors : Nat := 0
  replays : Nat := 0
  retrains : Nat := 0
  changeCrossed : Nat := 0
  downCount : Nat := 0
  downCause : Nat := 0
  eventsDropped : Nat := 0
  changeResult : Nat := 0
  e : Nat := 0
  nakSent : Bool := false
  flits : Nat := 0
  errs : List Nat := []
  crcs : List Nat := []
  retrainTcs : List Nat := []
  partialSlots : List (BitVec 128) := []
  resync : Bool := false
  rx : List Packet := []
  recv : Tab Nat := []
  adv : Tab Nat := []
  readLimit : Nat := 0
  readUsed : Nat := 0
  wbLimit : Nat := 0
  wbUsed : Nat := 0
  nextSeq : Nat := 0
  held : List TxFlit := []
  tx : List Packet := []
  limit : Tab Nat := []
  used : Tab Nat := []
  lastVc : Nat := 0
  resent : Nat := 0
  nextTag : Nat := 0
  wrTags : List (Nat × Nat × Nat) := []
  reqs : List LinkReq := []
  nextReq : Nat := 0
  fences : List LinkFence := []
  change : Option LinkChange := none
  want : Option Nat := none
  queued : Option (Nat × Nat) := none
  nextId : Nat := 0
  sent : List LinkTx := []
  deriving DecidableEq, Repr

/-! ### Hopper and events (R397 to R429) -/

/-- A loaded queue (R399, R403): indices in queue units; `cached` whether its state is on chip, `dirty` whether the indices
changed since it was loaded or written back, `lru` rises with use, `fault` FAULT (R404); `accepted` is the position up to which a
capture queue has accepted appends (R445). -/
structure QState where
  kind : Nat
  order : Nat
  link : Nat
  vc : Nat
  pv : Bool
  pasid : Nat
  base : Nat
  prod : Nat
  cons : Nat
  high : Nat
  low : Nat
  cached : Bool := true
  dirty : Bool := false
  lru : Nat := 0
  fault : Bool := false
  accepted : Nat := 0
  deriving DecidableEq, Repr

/-- A side of a descriptor (R413). -/
structure Side where
  kind : Nat
  link : Nat
  vc : Nat
  queue : Nat
  base : Nat
  len : Nat
  offset : Nat
  lineLen : Nat
  lineCount : Nat
  stride : Nat
  deriving DecidableEq, Repr

/-- A descriptor (R412). -/
structure Desc where
  op : Nat
  evtDone : Bool
  order : Nat
  foldOp : Nat
  line : Nat
  deadline : Nat
  src : Side
  dst : Side
  deriving DecidableEq, Repr

/-- A descriptor in progress (R415, R416): its index, the ready state of its sides, whether every element has issued, whether
SKIP abandoned it, and whether it is to be fetched again before its issue goes on (R408). -/
structure DescRun where
  index : Nat
  d : Desc
  srcReady : Bool
  dstReady : Bool
  issued : Bool := false
  abandoned : Bool := false
  refetch : Bool := false
  deriving DecidableEq, Repr

/-- A burst of a descriptor (R417, R421), or the fetch of one: its first element and count, its addresses and bytes, how its channel was
bound, its fold code, the link and channel of a LINK or LINK_DATA destination, the queues it takes from and puts into, the line
accesses or WR packets not yet done, the source lines read and those poisoned, whether its writes have gone out, and whether it is
durable or has failed, with the error kind (R424). `dead` marks a burst at or behind a failed one, which RESUME sends again or SKIP
counts; `gone` one that only runs to its end. -/
structure Burst where
  id : Nat
  index : Nat
  first : Nat
  count : Nat
  srcAddr : Nat
  dstAddr : Nat
  bytes : Nat
  bind : Binding := .raw
  pasid : Nat := 0
  foldOp : Nat := 0
  link : Option (Nat × Nat) := none
  srcQ : Option Nat := none
  dstQ : Option Nat := none
  left : Nat := 0
  got : Tab Line := []
  poison : List Nat := []
  wrote : Bool := false
  durable : Bool := false
  failed : Nat := 0
  fetch : Bool := false
  dead : Bool := false
  gone : Bool := false
  deriving DecidableEq, Repr

/-- Channel states (R407). -/
inductive ChState where
  | off | idle | run | stalled | fault | refused | error
  deriving DecidableEq, Repr

/-- A Hopper channel (R406 to R411): its context, the descriptors in progress oldest first, its bursts, whether it is
stopping, the fetch ready state of its descriptor queue, and the queue and ready state last held by its source and destination
(R416). -/
structure HopChan where
  st : ChState := .off
  reason : Nat := 0
  queue : Nat := 0
  done : Nat := 0
  issue : Nat := 0
  element : Nat := 0
  stopAddr : Nat := 0
  tc : Nat := 0
  epoch : Nat := 0
  kept : Bool := false
  bytes : Nat := 0
  descs : List DescRun := []
  bursts : List Burst := []
  stopping : Bool := false
  fetchReady : Bool := false
  lastSrc : Option (Nat × Bool) := none
  lastDst : Option (Nat × Bool) := none
  deriving DecidableEq, Repr

/-- An access to a queue that waits for a slot of the queue-state cache (R403). -/
inductive StateWait where
  | doorbell (m : Nat) (bind : Binding) (q off : Nat) (data : List Byte) (ret : Ret)
  | append (l id : Nat) (p : Packet) (obs : Obs)
  deriving DecidableEq, Repr

/-- Hopper and the event fabric (R397 to R429): `rr` the channel last chosen at each priority, pulses per line, the clock
of a line's last pulse, and the EVT_OUT pins now high. -/
structure HopUnit where
  queues : Tab QState := []
  chans : Tab HopChan := []
  stateWaits : Nat := 0
  queueErrors : Nat := 0
  refusals : Nat := 0
  faults : Nat := 0
  rr : Tab Nat := []
  nextBurst : Nat := 0
  clock : Nat := 0
  waiting : List StateWait := []
  lineCount : Tab Nat := []
  lastPulse : Tab Nat := []
  rejected : Nat := 0
  merged : Nat := 0
  pins : Nat := 0
  deriving DecidableEq, Repr

/-! ### Folds and capture (R430 to R448) -/

/-- A line fold in the queue (R432, R440), accepted at `tc` (R29); `vc` is the channel of a link's packet. -/
structure FoldReq where
  id : Nat
  master : Nat
  bind : Binding
  dla : Nat
  op : Nat
  mask : BitVec 64
  data : Line
  poison : Bool
  ret : Ret
  tc : Nat := 0
  vc : Nat := 0
  deriving DecidableEq, Repr

/-- A fold fence (R438): it waits for every line fold with a number below `upto`; `burst` and `bound` are the device's note of a read as it
accepted it (R32). -/
structure FoldFence where
  h : Nat
  tag : Nat
  dla : Nat
  read : Bool
  upto : Nat
  burst : Bool := false
  bound : Bool := false
  deriving DecidableEq, Repr

/-- The fold unit and capture (R430 to R448): line folds queued, waiting for the queue (R440) and running; `appends` are the APPENDs
waiting for room, oldest first, by link and number (R446). -/
structure FoldUnit where
  queue : List FoldReq := []
  waiting : List FoldReq := []
  running : List FoldReq := []
  fences : List FoldFence := []
  nextId : Nat := 0
  lineFolds : Nat := 0
  dropped : Nat := 0
  saturated : Nat := 0
  fenceCount : Nat := 0
  aliasPartial : Nat := 0
  records : Nat := 0
  recDropped : Nat := 0
  recRejected : Nat := 0
  linkDropped : Tab Nat := []
  appends : List (Nat × Nat × Packet) := []
  deriving DecidableEq, Repr

/-! ### Dictionary engine and field port (R449 to R481) -/

/-- A piece sequence in progress (R456): the object, its owner's master and path, and the bytes so far. -/
structure PieceSeq where
  key : Nat
  master : Nat
  path : Nat
  buf : List Byte
  deriving DecidableEq, Repr

/-- The dictionary engine (R455 to R457): sequences, the selection of each master, and the abort code last given to the
management controller and the debug port, by their master ID. -/
structure DictUnit where
  seqs : List PieceSeq := []
  select : Tab Nat := []
  abandoned : Nat := 0
  last : Tab Nat := []
  deriving DecidableEq, Repr

/-- A segmented transfer of the field port (R470, R471): the copy taken at READ, the bytes moved so far, the total and the
next toggle. -/
structure Xfer where
  read : Bool
  idx : Nat
  sub : Nat
  size : Nat
  buf : List Byte
  pos : Nat
  t : Bool
  deriving DecidableEq, Repr

/-- A CAN FD frame the device sent (R466). -/
structure CanFrame where
  fn : Nat
  node : Nat
  data : List Byte
  deriving DecidableEq, Repr

/-- The field port (R465 to R479): `chainIn` is how long CHAIN_IN_N has been asserted, in µs. -/
structure FieldUnit where
  addr : Nat := 0
  source : Nat := 0
  busState : Nat := 0
  txErr : Nat := 0
  rxErr : Nat := 0
  busOffs : Nat := 0
  malformed : Nat := 0
  alarmsLost : Nat := 0
  abandoned : Nat := 0
  conflicts : Nat := 0
  xfer : Option Xfer := none
  alarms : List (List Byte) := []
  hbSeq : Nat := 0
  chainIn : Option Nat := none
  chainOut : Bool := false
  sent : List CanFrame := []
  deriving DecidableEq, Repr

/-! ### Seedbank (R482 to R496) -/

/-- A record (R487): `intact` says that crc, complement and reserved fields pass (R490). -/
structure SbRec where
  sector : Nat
  kind : Nat
  key : Nat
  seq : Nat
  payload : List Byte
  commit : Bool
  intact : Bool := true
  deriving DecidableEq, Repr

/-- Sector states (R486). -/
inductive SecState where
  | erased | opened | full | retiring
  deriving DecidableEq, Repr

/-- A sector of the record area (R486). -/
structure Sector where
  st : SecState := .erased
  gen : Nat := 0
  used : Nat := 0
  erases : Nat := 0
  deriving DecidableEq, Repr

/-- Image states (R484). -/
inductive ImgState where
  | blank | loaded | activated | rejected
  deriving DecidableEq, Repr

/-- An image area (R484): the header and whether the signature verifies. -/
structure Image where
  st : ImgState := .blank
  seq : Nat := 0
  length : Nat := 0
  version : BitVec 256 := 0
  sigOk : Bool := false
  deriving DecidableEq, Repr

/-- Seedbank (R482 to R496): the record area's sectors 64 to 127, records in the order appended or read, the allowance in bytes
(R495) with the rest of a byte that has accrued, and appends held on chip. -/
structure SbUnit where
  st : Nat := 0
  protect : Nat := 0
  scanMs : Nat := 0
  torn : Nat := 0
  bad : Nat := 0
  conflicts : Nat := 0
  compactions : Nat := 0
  allowance : Int := 4194304
  allowRest : Nat := 0
  deferred : Nat := 0
  held : List (Nat × Nat × List Byte) := []
  boot : Nat := 0
  powerups : Nat := 0
  recs : List SbRec := []
  sectors : Tab Sector := []
  imgA : Image := {}
  imgB : Image := {}
  deriving DecidableEq, Repr

/-! ### Power entry (R497 to R522) -/

/-- Power entry states (R502). -/
inductive PwrState where
  | unseated | seating | precheck | ramp | enhance | on | tripped | latched
  deriving DecidableEq, Repr

/-- The trip record (R514). -/
structure TripRec where
  cause : Nat := 0
  point : Nat := 0
  causes : Nat := 0
  peakMa : Nat := 0
  temp : Int := 0
  vout : Nat := 0
  retries : Nat := 0
  state : Nat := 0
  deriving DecidableEq, Repr

/-- The power entry controller (R497 to R522): `status` is feed_status, `regs` are the sentry registers by object (R520), `tModel`
is t_model in 10^−9 °C, `fetTemp` T_FET in °C as last sampled, `timers` the fault timers c_k in µs, `vgsUs` how long V_GS has been at
gate_on_mv, `recent` the currents sampled in the last 1 ms, newest first, `cooldown` says that power.retry_ms may not have passed since
the last trip (R516), `noRetry` a COMMANDED trip (R516), `exhausted` a RETRIES latch, `checksPassed` a PRECHECK that passed all but
cooldown, `diodeBad` a diode that BOTH ignores (R504), `away` an unseating not yet followed by a reseat (R517), and `lost` that the
sentry is not powered (R574). -/
structure PowerUnit where
  st : PwrState := .unseated
  pg : Bool := false
  feedA : Nat := 0
  feedB : Nat := 0
  status : Nat := 0
  vout : Nat := 0
  vbus : Nat := 0
  current : Int := 0
  diode : Int := 0
  tModel : Int := 150000000000
  fetTemp : Int := 0
  trip : TripRec := {}
  tripCount : Nat := 0
  retries : Nat := 0
  timers : Tab Nat := []
  seatA : Bool := false
  seatB : Bool := false
  seatRuns : Bool := false
  away : Bool := false
  vgsUs : Nat := 0
  recent : List Int := []
  diodeBad : Bool := false
  cooldown : Bool := false
  noRetry : Bool := false
  exhausted : Bool := false
  checksPassed : Bool := false
  lost : Bool := false
  regs : Tab Nat := []
  deriving DecidableEq, Repr

/-! ### Package and TAP (R567 to R585) -/

/-- The package sensors and latched straps (R570, R585). -/
structure PkgUnit where
  tj : Int := 0
  tjPeak : Int := 0
  strapUnstable : Nat := 0
  slot : Nat := 0
  deriving DecidableEq, Repr

/-- The TAP's instructions (R584). -/
inductive TapInstr where
  | extest | idcode | sample | preload | clamp | highz | bypass
  deriving DecidableEq, Repr

/-- The TAP (R584): the instruction, the register between TDI and TDO as a number of `drLen` bits, the boundary cells, whether
they drive the pins, and whether the pins float. -/
structure Tap where
  instr : TapInstr := .idcode
  dr : Nat := 0x1847225F
  drLen : Nat := 32
  cells : List Bool := []
  driving : Bool := false
  floating : Bool := false
  deriving DecidableEq, Repr

end Sys2Proof.Machine
end

