-- ==== Sys2Proof/Machine/State.lean ====
section
/-!
DEFINITION. Machine/State.lean: the whole state as plain data, the reasons a step can stop, and the state after reset.
`Chip` holds every register, buffer, queue, counter and pin the spec gives the device; `State` adds the test access port,
which no device operation touches, and the queue of waiting commands.
-/
namespace Sys2Proof.Machine

/-- Everything the spec gives the device but its test access port. The object dictionary's RW values are in `rw` and its RWP
values in `rwp`, by object key, where they differ from their defaults (R453); `accBad` lists the access table values that
fail their complement, by target and master (R114). `mem` is device memory as bound masters read it, by DLA (R81); a byte
not listed reads as zero (R89). `poison` marks lines by line number (R64, R343); `macs` has, by line number, a stored MAC that is not the
one Husk would store, which an unbound master's write leaves behind (R208, R225). `waits` holds the accesses that wait, oldest first. `bifur` is the bifurcation in force (R50). `free`
counts the free values taken (log entry 2): the model's own, not the spec's. -/
structure Chip where
  tb : Timebase := {}
  win : WinUnit := {}
  rw : Tab Nat := []
  rwp : Tab Nat := []
  accBad : List (Nat × Nat) := []
  fault : FaultUnit := {}
  cnt : CntUnit := {}
  heads : Tab Head := []
  bifur : Nat := 0
  map : MapUnit := {}
  mem : Tab Byte := []
  poison : Tab Bool := []
  macs : Tab (BitVec 64) := []
  waits : List Wait := []
  casks : Tab Cask := []
  coh : CohUnit := {}
  lauter : LauterUnit := {}
  mill : MillUnit := {}
  husk : HuskUnit := {}
  cache : CacheUnit := {}
  dram : DramUnit := {}
  kiln : KilnUnit := {}
  integ : IntegUnit := {}
  links : Tab Link := []
  hop : HopUnit := {}
  fold : FoldUnit := {}
  dict : DictUnit := {}
  field : FieldUnit := {}
  sb : SbUnit := {}
  power : PowerUnit := {}
  mode : ModeUnit := {}
  pkg : PkgUnit := {}
  free : Nat := 0
  deriving DecidableEq, Repr

/-- The machine: the device, its test access port (R584), and the commands that wait, first in, first out. -/
structure State where
  pending : List Instr := []
  tap : Tap := {}
  chip : Chip := {}
  deriving DecidableEq, Repr

/-- The faults. There is none: every command of the table answers a next state or a refusal by name, since the spec turns a
request it does not allow into an abort code, a violation or poison. -/
inductive Fault where
  deriving DecidableEq, Repr

/-- The refusals. -/
inductive Refusal where
  /-- Raised by an arm of `exec` whose command has no meaning yet, with its mnemonic. Safe: no claim is proved of it. -/
  | notModelled (mnemonic : String)
  /-- Raised by BYPASS with a private instruction code before closure: R584 gives the code no effect. Safe. -/
  | privateTapInstruction
  deriving DecidableEq, Repr

/-- The state right after the sentry's power-on reset (R523): mode UNSEATED, every domain but SENTRY off, every object at
its default, no memory listed and no command waiting. -/
def State.reset : State := {}

end Sys2Proof.Machine
end

