-- ==== Sys2Proof/Machine/Ops.lean ====
section
/-!
DEFINITION. Machine/Ops.lean: the named operations over the object store, time and the records of the device, which every
block uses.
-/
namespace Sys2Proof.Machine

/-! ### Objects -/

/-- The key of member `i` of the family whose first member has key `k` (R457). -/
def objAt (k i : Nat) : Nat := k + 256 * i

/-- A master that holds every right on every target (R111). -/
def isEngine (m : Nat) : Bool := decide (0x60 ≤ m ∧ m ≤ 0x63)

/-- The rights value of master `m` on target `t` at reset (R115). -/
def rightsDefault (t m : Nat) : Nat :=
  if isEngine m then 15
  else if m < 4 ∨ m = 0x70 then
    (if t < 0x400 then 0 else if t = 0x500 then 8 else if t = 0x502 then 15 else 11)
  else 0

/-- The first `n` nibbles of an access table at reset, as a number (R110). -/
def tableDefault (t : Nat) : Nat → Nat
  | 0 => 0
  | n + 1 => tableDefault t n + rightsDefault t n * 16 ^ n

/-- The key of the access table of target `t` (R109, R116). -/
def tableKey (t : Nat) : Nat :=
  if t < 0x400 then objAt Obj.caskAccess t
  else if t < 0x500 then objAt Obj.accessTable (t - 0x400)
  else objAt Obj.accessTable (0x20 + (t - 0x500))

/-- The target whose access table stands at index `idx` (R116). -/
def tableTarget (idx : Nat) : Nat :=
  if idx < 0x9400 then idx - 0x9000
  else if idx < 0x9420 then 0x400 + (idx - 0x9400)
  else 0x500 + (idx - 0x9420)

/-- Fault sources whose default severity is INFO (R551). -/
def infoSources : List Nat := [32, 33, 34, 35, 36, 53, 85, 128, 130, 144]

/-- Fault sources whose default severity is DEGRADED (R551). -/
def degradedSources : List Nat :=
  [0, 2, 3, 16, 17, 48, 51, 52, 54, 56, 57, 58, 82, 86, 98, 99, 101, 104, 107, 109, 131, 146, 147, 148, 150, 151,
   160, 162, 163, 165, 176, 177, 178, 184, 185]

/-- Fault sources whose default severity is ERROR (R551), 19, 80 and 193 apart, whose bytes have an extra reaction. -/
def errorSources : List Nat :=
  [1, 4, 5, 18, 37, 49, 50, 55, 59, 60, 64, 65, 66, 81, 83, 84, 96, 97, 100, 102, 103, 105, 106, 108, 110, 129, 145,
   149, 161, 164, 166, 179, 180, 181, 182, 183]

/-- The default configuration byte of source `n`; none: the number is reserved (R551). -/
def faultDefault (n : Nat) : Option Nat :=
  if infoSources.contains n then some 0x00
  else if degradedSources.contains n then some 0x05
  else if errorSources.contains n then some 0x46
  else if n = 19 ∨ n = 80 then some 0x4E
  else if n = 192 then some 0x43
  else if n = 193 then some 0x66
  else if n = 194 then some 0x47
  else none

/-- The first `n` bytes of fault.config at its default, as a number. -/
def faultConfigDefault : Nat → Nat
  | 0 => 0
  | n + 1 => faultConfigDefault n + (faultDefault n).getD 0 * 256 ^ n

/-- The default breaker curve (R508): currents in mA and times in µs. -/
def curveDefault : List (Nat × Nat) :=
  [(84000, 1000000), (90000, 200000), (100000, 50000), (110000, 20000), (120000, 10000), (130000, 5000), (140000, 2000),
   (150000, 1000)]

/-- A breaker curve as the 64 bytes of power.curve, as a number (R508). -/
def packCurve : List (Nat × Nat) → Nat
  | [] => 0
  | (i, t) :: r => i + t * 2 ^ 32 + 2 ^ 64 * packCurve r

/-- The filter set that matches every request (R555). -/
def filterDefault : Nat :=
  0xF + 0xFF * 2 ^ 8 + 0xFF * 2 ^ 24 + 7 * 2 ^ 32 + (2 ^ 46 - 1) * 2 ^ 128

/-- Debt class defaults (R40): maximum and repay rates. -/
def debtDefault (k sub : Nat) : Nat :=
  match sub, k with
  | 3, 0 => 30000000 | 3, 1 => 10000000 | 3, 2 => 600000
  | 4, _ => 1000000
  | 5, 0 => 0 | 5, 1 => 0 | 5, _ => 250000
  | _, _ => 0

/-- The default of an object whose table row names it elsewhere; none: the row gives it. -/
def specialDefault (key : Nat) : Option Nat :=
  let idx := key / 256
  let sub := key % 256
  if 0x4040 ≤ idx ∧ idx ≤ 0x4044 ∧ 3 ≤ sub ∧ sub ≤ 5 then some (debtDefault (idx - 0x4040) sub)
  else if sub = Obj.headGroup % 256 ∧ Obj.headGroup / 256 ≤ idx ∧ idx < Obj.headGroup / 256 + 4 then
    some (idx - Obj.headGroup / 256)
  else if 0x9000 ≤ idx ∧ idx < 0x9400 ∧ sub = 0x10 then some (tableDefault 0 256)
  else if 0x9400 ≤ idx ∧ idx ≤ 0x9424 ∧ sub = 1 then some (tableDefault (tableTarget idx) 256)
  else if key = Obj.faultConfig then some (faultConfigDefault 256)
  else if key = Obj.powerCurve then some (packCurve curveDefault)
  else if key = Obj.cntFilterSelect then some ((256 ^ 2048 - 1) / 255 * 0x3F)
  else if 0xA820 ≤ idx ∧ idx < 0xA840 ∧ sub = 1 then some filterDefault
  else if key = Obj.cohCaskDomain then some (2 ^ 8192 - 1)
  else none

/-- The default of an object. -/
def objDefault (key : Nat) : Nat :=
  match specialDefault key with
  | some v => v
  | none => match objRow? (key / 256) (key % 256) with
    | some r => r.dflt
    | none => 0

/-- The value of an RW or RWP object now (R453). -/
def Chip.cfg (s : Chip) (key : Nat) : Nat :=
  match Tab.find s.rw key with
  | some v => v
  | none => match Tab.find s.rwp key with
    | some v => v
    | none => objDefault key

/-- The value of member `i` of a family. -/
def Chip.cfgAt (s : Chip) (key i : Nat) : Nat := s.cfg (objAt key i)

/-- An RW object takes a value. -/
def Chip.setRw (s : Chip) (key v : Nat) : Chip := { s with rw := Tab.set s.rw key v }

/-- An RWP object takes a value. -/
def Chip.setRwp (s : Chip) (key v : Nat) : Chip := { s with rwp := Tab.set s.rwp key v }

/-! ### Free values -/

/-- The next free number, and the state that has taken it (log entry 2). -/
def Chip.takeNat (s : Chip) : Nat × Chip := (Config.freeNat s.free, { s with free := s.free + 1 })

/-- The next free line, and the state that has taken it (log entry 2). -/
def Chip.takeLine (s : Chip) : Line × Chip := (Config.freeLine s.free, { s with free := s.free + 1 })

/-! ### Time and windows -/

/-- TC as records carry it: zero while UNLOCKED (R65, R282). -/
def Chip.tcRec (s : Chip) : Nat := if s.tb.state = .unlocked then 0 else s.tb.tc

/-- The window in effect, if any (R20). -/
def Chip.window (s : Chip) : Option Window :=
  s.win.pending.find? (fun w => w.active && decide (w.cls ≠ .barrier))

/-- A BURST window is in effect. -/
def Chip.inBurst (s : Chip) : Bool := match s.window with | some w => decide (w.cls = .burst) | none => false

/-- A QUIET window is in effect. -/
def Chip.inQuiet (s : Chip) : Bool := match s.window with | some w => decide (w.cls = .quiet) | none => false

/-- DDR5 refresh is same-bank only (R36, R37): from the write fence of a BURST window to its end. -/
def Chip.sameBankRefresh (s : Chip) : Bool := s.inBurst || s.win.fenceOn

/-- Neither BURST nor QUIET: OPEN time (R20). -/
def Chip.inOpen (s : Chip) : Bool := !s.inBurst && !s.inQuiet

/-- An activity may run now (R36, R37): what is deferred waits out a BURST window; refresh and migration stop at its write fence;
rekilning and patrol run in QUIET time, and in OPEN time only when forced (R44); scheduled operations need QUIET time. -/
def Chip.permits (s : Chip) (a : Activity) : Bool :=
  match a with
  | .allBankRefresh => !s.sameBankRefresh
  | .migration => !s.inBurst && !s.win.fenceOn
  | .rekilning => !s.inBurst && (s.inQuiet || bitOf s.win.forced 0)
  | .patrol => !s.inBurst && (s.inQuiet || bitOf s.win.forced 1)
  | .scheduled => s.inQuiet
  | .drain | .zeroing | .calibration | .dumpWriteOut => !s.inBurst

/-! ### Records of the blocks -/

/-- Head `h`. -/
def Chip.head (s : Chip) (h : Nat) : Head := Tab.get {} s.heads h

/-- Replace head `h`. -/
def Chip.setHead (s : Chip) (h : Nat) (x : Head) : Chip := { s with heads := Tab.put {} s.heads h x }

/-- Link `l`. -/
def Chip.link (s : Chip) (l : Nat) : Link := Tab.get {} s.links l

/-- Replace link `l`. -/
def Chip.setLink (s : Chip) (l : Nat) (x : Link) : Chip := { s with links := Tab.put {} s.links l x }

/-- Cask slot `c`. -/
def Chip.cask (s : Chip) (c : Nat) : Cask := Tab.get {} s.casks c

/-- Replace cask slot `c`. -/
def Chip.setCask (s : Chip) (c : Nat) (x : Cask) : Chip := { s with casks := Tab.put {} s.casks c x }

/-- DDR5 channel `n`. -/
def Chip.ddr (s : Chip) (n : Nat) : DdrChan := Tab.get {} s.dram.ddr n

/-- Replace DDR5 channel `n`. -/
def Chip.setDdr (s : Chip) (n : Nat) (x : DdrChan) : Chip :=
  { s with dram := { s.dram with ddr := Tab.put {} s.dram.ddr n x } }

/-- NVM channel `n`. -/
def Chip.nvm (s : Chip) (n : Nat) : NvmChan := Tab.get {} s.kiln.chans n

/-- Replace NVM channel `n`. -/
def Chip.setNvm (s : Chip) (n : Nat) (x : NvmChan) : Chip :=
  { s with kiln := { s.kiln with chans := Tab.put {} s.kiln.chans n x } }

/-- Lauter's state of channel `n`: DDR5 0 to 7, NVM 8 to 15 (R167). -/
def Chip.chanState (s : Chip) (n : Nat) : ChanState := Tab.get .absent s.lauter.chan n

/-- Set Lauter's state of channel `n`. -/
def Chip.setChanState (s : Chip) (n : Nat) (x : ChanState) : Chip :=
  { s with lauter := { s.lauter with chan := Tab.put .absent s.lauter.chan n x } }

/-- Hopper channel `c`. -/
def Chip.hchan (s : Chip) (c : Nat) : HopChan := Tab.get {} s.hop.chans c

/-- Replace Hopper channel `c`. -/
def Chip.setHchan (s : Chip) (c : Nat) (x : HopChan) : Chip :=
  { s with hop := { s.hop with chans := Tab.put {} s.hop.chans c x } }

/-- A loaded queue. -/
def Chip.queue (s : Chip) (q : Nat) : Option QState := Tab.find s.hop.queues q

/-- Replace a loaded queue. -/
def Chip.setQueue (s : Chip) (q : Nat) (x : QState) : Chip :=
  { s with hop := { s.hop with queues := Tab.set s.hop.queues q x } }

/-- Coherence domain `d`. -/
def Chip.dom (s : Chip) (d : Nat) : CohDomain := Tab.get {} s.coh.domains d

/-- Replace coherence domain `d`. -/
def Chip.setDom (s : Chip) (d : Nat) (x : CohDomain) : Chip :=
  { s with coh := { s.coh with domains := Tab.put {} s.coh.domains d x } }

/-- The state of power domain `n` (R533): SENTRY is ON or DUTY (R525). -/
def Chip.domain (s : Chip) (n : Nat) : DomPower :=
  if n = 0 then
    (match s.power.st with
     | .seating | .precheck | .ramp | .enhance | .on => .on
     | _ => .duty)
  else Tab.get .off s.mode.domains n

/-- Power domain `n` takes a state. -/
def Chip.setDomain (s : Chip) (n : Nat) (x : DomPower) : Chip :=
  { s with mode := { s.mode with domains := Tab.put .off s.mode.domains n x } }

/-- The power domain of link `l` (R533). -/
def linkDomain (l : Nat) : Nat := 5 + l / 2

/-- Advance event counter `k` (R552). -/
def Chip.count (s : Chip) (k n : Nat) : Chip :=
  { s with cnt := { s.cnt with vals := Tab.upd 0 s.cnt.vals k (fun v => (v + n) % 2 ^ 48) } }

/-- Count event `e` of head `h` (R554). -/
def Chip.countHead (s : Chip) (h e n : Nat) : Chip := s.count (64 * h + e) n

/-- Count event `e` of link `l` (R554). -/
def Chip.countLink (s : Chip) (l e n : Nat) : Chip := s.count (256 + 64 * l + e) n

/-- Counters whose events no command shows: those without a stated numbering (R553), clocks with credit withheld, MACs, TLPs and replayed
flits of a head (R554), the slots of a head, and the slots of a link that pass with time alone, with the sums that hold them
(R558). -/
def counterHidden (n : Nat) : Bool :=
  decide (1152 ≤ n)
    || (decide (n < 256) && ([10, 11, 12, 15] : List Nat).contains (n % 64))
    || decide (768 ≤ n ∧ n < 896)
    || (decide (896 ≤ n) && decide (n % 16 = 0 ∨ 5 ≤ n % 16))

/-- Charge `n` slots of port `p`, direction `d`, to `k` (R558). -/
def Chip.charge (s : Chip) (p d k n : Nat) : Chip :=
  let s := s.count (768 + 32 * p + 16 * d + k) n
  let s := if k < 14 then s.count (768 + 32 * p + 16 * d) n else s
  if s.inBurst && decide (k < 14) then s.count (768 + 32 * p + 16 * d + 15) n else s

/-! ### Addresses (R81) -/

/-- The line number of a DLA. -/
def lineNo (dla : Nat) : Nat := dla / 64

/-- The page number of a DLA. -/
def pageNo (dla : Nat) : Nat := dla / 4096

/-- The 2 MiB block of a DLA. -/
def blockNo (dla : Nat) : Nat := dla / 2097152

/-- The first DLA of the line that holds `dla`. -/
def lineBase (dla : Nat) : Nat := dla / 64 * 64

/-- The DC region that holds a DLA (R56): region r spans dc.length blocks of dc.block_mib MiB at dc.base. -/
def Chip.regionOf (s : Chip) (dla : Nat) : Option Nat :=
  (List.range 8).find? (fun r =>
    let b := s.cfgAt Obj.dcBase r
    decide (b ≤ dla ∧ dla < b + s.cfgAt Obj.dcLength r))

/-- The extent that holds a DLA, unless its block has left it (R84, R174). -/
def Chip.extentOf (s : Chip) (dla : Nat) : Option Extent :=
  s.map.extents.find? (fun e =>
    decide (e.base ≤ dla ∧ dla < e.base + e.len) && !e.freed.contains ((dla - e.base) / 2097152))

/-- The page record of a page (R85). -/
def Chip.page (s : Chip) (p : Nat) : PageRec := Tab.get {} s.map.pages p

/-- A page record takes a value. -/
def Chip.setPage (s : Chip) (p : Nat) (r : PageRec) : Chip :=
  { s with map := { s.map with pages := Tab.put {} s.map.pages p r } }

/-- The line at line address `a`, as bound masters read it. -/
def Chip.line (s : Chip) (a : Nat) : Line := Mem.line s.mem (lineBase a)

/-- The line at `a` carries poison (R64). -/
def Chip.poisoned (s : Chip) (a : Nat) : Bool := Tab.get false s.poison (lineNo a)

/-- Set or clear the poison of the line at `a`; a line newly stored with a marker is counted (R360). -/
def Chip.setPoison (s : Chip) (a : Nat) (b : Bool) : Chip :=
  let s := if b && !s.poisoned a then
      { s with integ := { s.integ with poisonedLines := s.integ.poisonedLines + 1 } } else s
  { s with poison := Tab.put false s.poison (lineNo a) b }

end Sys2Proof.Machine
end

