-- ==== Sys2Proof/Machine/Flags.lean ====
section
/-!
DEFINITION. Machine/Flags.lean: the device's flags are its sticky fault bits. Raising a source sets its bit and starts its
reactions (R543 to R550); block resets, chip resets and SAFE requests are recorded here and act at the end of the command
(`settle`).
-/
namespace Sys2Proof.Machine

/-- The configuration byte of source `n` (R544). -/
def Chip.faultByte (s : Chip) (n : Nat) : Nat := bitsOf (s.cfg Obj.faultConfig) (8 * n) 8

/-- The severity of source `n`. -/
def Chip.severity (s : Chip) (n : Nat) : Nat := s.faultByte n % 4

/-- The sticky bit of source `n` is set. -/
def Chip.sticky (s : Chip) (n : Nat) : Bool := bitOf s.fault.sticky n

/-- CORE and MGMT are ON, so the collector works (R546). -/
def Chip.coreOn (s : Chip) : Bool := decide (s.domain 1 = .on)

/-- The link of a head is up (R80), and has not left L0 (R76). -/
def Head.up (x : Head) : Bool := decide (x.state = .ioOnly ∨ x.state = .active) && !x.detect

/-- The mode serves CXL.mem and Semund traffic (R529); in DRAIN what was accepted before completes (R530). -/
def Chip.serving (s : Chip) : Bool :=
  match s.mode.current with
  | .service | .diagnosis | .safe => true
  | .update => !s.mode.bootUpdate
  | .drain => decide (s.mode.drainState = 1)
  | _ => false

/-- The mode runs all work that the device starts itself (R529). -/
def Chip.workMode (s : Chip) : Bool :=
  match s.mode.current with
  | .service | .diagnosis => true
  | .update => !s.mode.bootUpdate
  | _ => false

/-- Link `l` carries traffic now. -/
def Chip.linkLive (s : Chip) (l : Nat) : Bool := s.serving && decide ((s.link l).st = .active)

/-- The body of a vendor event record (R65): 24 bytes, reserved fields zero. -/
def EvRec.body (r : EvRec) : List Byte :=
  bytesLE 1 r.source ++ bytesLE 1 r.severity ++ bytesLE 1 r.master ++ bytesLE 1 0 ++ bytesLE 2 r.epoch ++ bytesLE 2 0
    ++ bytesLE 8 r.tc ++ bytesLE 8 (r.dla % 2 ^ 46)

/-- A vendor event record as a host reads it (R65): the UUID of ports.fault_event_uuid, then its body. -/
def EvRec.bytes (r : EvRec) : List Byte := bytesLE 16 Config.faultUuid.toNat ++ r.body

/-- Append to an event log: at most 64 records, then the overflow flag and the lost count (R65). -/
def EvLogSt.post (l : EvLogSt) (r : LogRec) : EvLogSt :=
  if l.recs.length < 64 then { l with recs := l.recs ++ [r] }
  else { l with overflow := true, lost := l.lost + 1 }

/-- Log `k` of a head: 0 informational, 1 warning, 2 failure, 3 fatal, 4 dynamic capacity. -/
def Head.evLog (x : Head) : Nat → EvLogSt
  | 0 => x.info
  | 1 => x.warning
  | 2 => x.failure
  | 3 => x.fatal
  | _ => x.dyncap

/-- Replace log `k` of a head. -/
def Head.setEvLog (x : Head) (k : Nat) (l : EvLogSt) : Head :=
  match k with
  | 0 => { x with info := l }
  | 1 => { x with warning := l }
  | 2 => { x with failure := l }
  | 3 => { x with fatal := l }
  | _ => { x with dyncap := l }

/-- Post a record to log `k` of a head and signal its vector (R55), if the interrupt policy allows it. -/
def Head.postLog (x : Head) (k : Nat) (r : LogRec) : Head :=
  let x := x.setEvLog k ((x.evLog k).post r)
  if x.policy.getLsbD k then { x with msix := setBit x.msix (k + 1) true } else x

/-- Post a vendor record to every head of `heads` whose link is up (R65, R545). -/
def Chip.postEvent (s : Chip) (heads : List Nat) (sev : Nat) (r : Nat → LogRec) : Chip :=
  heads.foldl (fun s h =>
    let x := s.head h
    if x.up then s.setHead h (x.postLog sev (r x.stamp)) else s) s

/-- The 16 bytes of an ALARM frame (R475): bytes 0x00 to 0x0F of the record of R65. -/
def Chip.alarmBytes (s : Chip) (n master : Nat) : List Byte :=
  bytesLE 1 n ++ bytesLE 1 (s.severity n) ++ bytesLE 1 master ++ [0] ++ bytesLE 2 s.tb.epoch ++ [0, 0] ++ bytesLE 8 s.tcRec

/-- Queue an ALARM frame: the queue holds 32 (R475). -/
def Chip.queueAlarm (s : Chip) (f : List Byte) : Chip :=
  if s.field.alarms.length < 32 then { s with field := { s.field with alarms := s.field.alarms ++ [f] } }
  else { s with field := { s.field with alarmsLost := s.field.alarmsLost + 1 } }

/-- The reactions of an occurrence of source `n` while the collector works (R545, R475): `rise` says that the sticky bit
went from 0 to 1. -/
def Chip.react (s : Chip) (n master dla : Nat) (blk : Block) (rise : Bool) (heads : List Nat := [0, 1, 2, 3]) : Chip :=
  let b := s.faultByte n
  let s := if rise && bitOf b 2 then
      s.postEvent heads (b % 4) (fun stamp => .vendor ⟨n, b % 4, master, s.tb.epoch, s.tcRec, dla, Config.freeNatAt stamp s.free % 2 ^ 64⟩) else s
  let s := if bitOf b 3 then { s with fault := { s.fault with nmis := s.fault.nmis + 1 } } else s
  let s := if rise && decide (s.cfg Obj.fieldAlarmMinSeverity ≤ b % 4) then s.queueAlarm (s.alarmBytes n master) else s
  let s := if bitOf b 4 then { s with fault := { s.fault with wantBlocks := s.fault.wantBlocks ++ [blk] } } else s
  let s := if bitOf b 5 then { s with fault := { s.fault with wantChip := true } } else s
  if b % 4 = 3 ∧ !bitOf b 5 then { s with fault := { s.fault with wantSafe := true } } else s

/-- An occurrence of source `n` (R543 to R546): `master` and `dla` as the record of R65 names them, `blk` the block that
raised it, `heads` the heads whose logs take a record. While CORE is not ON the reactions wait until the device leaves RECALL. -/
def Chip.raise (s : Chip) (n : Nat) (master : Nat := 0xFF) (dla : Nat := 0) (blk : Block := .none)
    (heads : List Nat := [0, 1, 2, 3]) : Chip :=
  let rise := !s.sticky n
  let s := { s with fault := { s.fault with sticky := setBit s.fault.sticky n true } }
  if s.coreOn && decide (s.mode.current ≠ .recall) then s.react n master dla blk rise heads
  else if rise then { s with fault := { s.fault with dark := setBit s.fault.dark n true } }
  else s

/-- FAULT_N is asserted (R548). -/
def Chip.faultN (s : Chip) : Bool :=
  decide (s.mode.current = .safe) ||
    (List.range 256).any (fun n => s.sticky n && bitOf (s.faultByte n) 6)

/-- The highest severity among sources whose sticky bit is set; 0xFF for none (R474). -/
def Chip.worst (s : Chip) : Nat :=
  (List.range 256).foldl (fun a n => if s.sticky n then (if a = 0xFF then s.severity n else max a (s.severity n)) else a) 0xFF

/-- The access violation source of a master's class (R112). -/
def violationSource (m : Nat) : Nat :=
  if m < 0x10 then 32 else if m < 0x20 then 33 else if m < 0x60 then 34 else if m = 0x7F then 36 else 35

/-- A silent violation of master `m` (R112): the sticky bit of its class, and the port's count (R554). -/
def Chip.violation (s : Chip) (m : Nat) : Chip :=
  let s := if m < 4 then s.countHead m 14 1 else if 0x10 ≤ m ∧ m < 0x18 then s.countLink (m - 0x10) 15 1 else s
  s.raise (violationSource m) m

end Sys2Proof.Machine
end

