-- ==== Sys2Proof/Machine/LinkTx.lean ====
section
/-!
DEFINITION. Machine/LinkTx.lean: what the leader sends on a Semund link: packets as slots (R369), credits (R379), flits and
the replay buffer (R365, R375), and event pulses, which may leave on links (R425 to R428).
-/
namespace Sys2Proof.Machine

/-- The virtual channel a link's coherent packets use (R134). -/
def Chip.cohVc (s : Chip) (l : Nat) : Nat := s.cfgAt Obj.cohLinkVc l

/-- Payload encryption is on (R229). -/
def Chip.linkEnc (s : Chip) (l : Nat) : Bool := decide (s.cfgAt Obj.huskLinkMode l = 1)

/-- The 128-bit header slot of a packet (R369). -/
def packetHeader (p : Packet) : BitVec 128 :=
  BitVec.ofNat 128 (p.kind.toNat + p.vc.toNat * 2 ^ 8 + p.poison.toNat * 2 ^ 11 + p.cmpreq.toNat * 2 ^ 12
    + p.op.toNat * 2 ^ 16 + p.slotsM1.toNat * 2 ^ 24 + p.pasid.toNat * 2 ^ 32 + p.tag.toNat * 2 ^ 52
    + p.addr.toNat * 2 ^ 64 + p.lenM1.toNat * 2 ^ 120)

/-- Data slots of 16 bytes, padded with zeros (R370); `n` slots. -/
def dataSlots : Nat → List Byte → List (BitVec 128)
  | 0, _ => []
  | n + 1, d => BitVec.ofNat 128 (natLE (d.take 16)) :: dataSlots n (d.drop 16)

/-- The slots of a packet (R369, R370). -/
def packetSlots (p : Packet) : List (BitVec 128) := packetHeader p :: dataSlots p.slotsM1.toNat p.data

/-- The DLA of a packet (R369): header bits [109:64]; what its reserved bits [119:110] hold is ignored (R3). -/
def pktDla (p : Packet) : Nat := p.addr.toNat % 70368744177664

/-- The slots a packet takes. -/
def packetSize (p : Packet) : Nat := p.slotsM1.toNat + 1

/-- A packet from the leader. -/
def mkPacket (kind vc op tag pasid addr : Nat) (data : List Byte) (slots : Nat) (poison cmpreq : Bool := false)
    (len : Nat := 0) : Packet :=
  { kind := BitVec.ofNat 8 kind, vc := BitVec.ofNat 3 vc, poison := poison, cmpreq := cmpreq, op := BitVec.ofNat 8 op,
    slotsM1 := BitVec.ofNat 8 (slots - 1), pasid := BitVec.ofNat 20 pasid, tag := BitVec.ofNat 12 tag,
    addr := BitVec.ofNat 56 addr, lenM1 := BitVec.ofNat 8 (len - 1), data := data }

/-- A data packet of `data.length` bytes: a header slot and its data slots (R370). -/
def mkData (kind vc op tag pasid addr : Nat) (data : List Byte) (poison cmpreq : Bool := false) : Packet :=
  mkPacket kind vc op tag pasid addr data (1 + ceilDiv data.length 16) poison cmpreq data.length

/-- Data slots of a flit: 15, or 14 with payload encryption (R364, R392). -/
def flitSlots (enc : Bool) : Nat := if enc then 14 else 15

/-- Cut slots into flits of `n`; `fuel` bounds the flits. -/
def cutFlits (n : Nat) : Nat → List (BitVec 128) → List (List (BitVec 128))
  | 0, _ => []
  | _, [] => []
  | fuel + 1, l => l.take n :: cutFlits n fuel (l.drop n)

/-- Credit covers the packet on its channel (R378, R379). -/
def Link.covered (k : Link) (p : Packet) : Bool :=
  let v := p.vc.toNat
  let free := (Tab.get 0 k.limit v + 65536 - Tab.get 0 k.used v % 65536) % 65536
  decide (packetSize p ≤ free)

/-- The oldest packet of channel `v`, where credit covers it: one that waits for credit holds those of its channel behind it (R378). -/
def Link.ready (k : Link) (v : Nat) : Option Packet := (k.tx.find? (fun p => decide (p.vc.toNat = v))).filter k.covered

/-- The channels in the order of arbitration: the coherent one first, then round robin from the one last served (R378). -/
def Link.vcOrder (k : Link) (coh : Nat) : List Nat :=
  coh :: ((List.range 8).map (fun i => (k.lastVc + 1 + i) % 8)).filter (fun v => decide (v ≠ coh))

/-- The packet that leaves next, and the rest (R378). -/
def Link.pick (k : Link) (coh : Nat) : Option (Packet × List Packet) :=
  ((k.vcOrder coh).findSome? k.ready).map (fun p => (p, k.tx.erase p))

/-- Put one data flit on the lanes and hold it (R375). -/
def Link.sendFlit (k : Link) (starts : Nat) (slots : List (BitVec 128)) (enc ks : Bool) : Link :=
  let f : TxFlit := ⟨k.nextSeq, starts, slots, (k.e + 4095) % 4096, enc, ks⟩
  { k with nextSeq := (k.nextSeq + 1) % 4096, held := k.held ++ [f], sent := k.sent ++ [.flit f] }

/-- The active key slot of a link (R231). -/
def Chip.activeSlot (s : Chip) (l : Nat) : Nat := if bitOf s.husk.active l then 1 else 0

/-- One new flit is sent under the active key slot: its counter advances, and at 2^48 the key is aged (R230). -/
def Chip.flitCounted (s : Chip) (l : Nat) : Chip :=
  if s.linkEnc l then
    let k := 2 * l + s.activeSlot l
    let x := Tab.get {} s.husk.linkSlots k
    let s := { s with husk := { s.husk with linkSlots := Tab.put {} s.husk.linkSlots k { x with sent := x.sent + 1 } } }
    if x.sent + 1 = 2 ^ 48 then s.raise 85 (0x10 + l) 0 (.link l) else s
  else s

/-- Send one packet in flits of its own, spending its credit (R378, R379; log entry 4). -/
def Chip.sendPacket (s : Chip) (l : Nat) (p : Packet) : Chip :=
  let k := s.link l
  let enc := s.linkEnc l
  let fl := cutFlits (flitSlots enc) 32 (packetSlots p)
  let k := { k with used := Tab.upd 0 k.used p.vc.toNat (fun u => (u + packetSize p) % 65536) }
  let k := (fl.zip (List.range fl.length)).foldl
    (fun k (f, i) => k.sendFlit (if i = 0 then 1 else 0) f enc (decide (s.activeSlot l = 1))) k
  let s := s.setLink l k
  let s := fl.foldl (fun s _ => s.flitCounted l) s
  let s := s.charge (4 + l) 0 (if p.poison then 4 else 1) fl.length
  match p.kind.toNat with
  | 0x03 => s.countLink l 2 1
  | 0x09 => s.countLink l 6 1
  | 0x0A => s.countLink l 8 1
  | _ => s

/-- Send every packet that credit and the replay buffer allow (R375, R378); `fuel` bounds the packets. -/
def Chip.pumpLink (s : Chip) (l : Nat) : Nat → Chip
  | 0 => s
  | n + 1 =>
    let k := s.link l
    if k.st = .active then
      match k.pick (s.cohVc l) with
      | some (p, r) =>
        if k.held.length + ceilDiv (packetSize p) (flitSlots (s.linkEnc l)) ≤ 256 then
          let last := if p.vc.toNat = s.cohVc l then k.lastVc else p.vc.toNat
          Chip.pumpLink ((s.setLink l { k with tx := r, lastVc := last }).sendPacket l p) l n
        else s
      | none => s
    else s

/-- Send what can be sent on link `l`. -/
def Chip.pump (s : Chip) (l : Nat) : Chip := s.pumpLink l (s.link l).tx.length

/-- Queue a packet for link `l` and send what can be sent. -/
def Chip.queuePacket (s : Chip) (l : Nat) (p : Packet) : Chip :=
  let k := s.link l
  (s.setLink l { k with tx := k.tx ++ [p] }).pump l

/-- Send a control record with the current ack (R368). -/
def Chip.sendCtl (s : Chip) (l : Nat) (r : CtlRec) : Chip :=
  let k := s.link l
  s.setLink l { k with sent := k.sent ++ [.ctl r ((k.e + 4095) % 4096)] }

/-! ### Event lines -/

/-- Drive EVT_OUT pin `p`: a pulse while it is high is merged (R428). -/
def Chip.drivePin (s : Chip) (p : Nat) : Chip :=
  let s := if bitOf s.hop.pins p then { s with hop := { s.hop with merged := s.hop.merged + 1 } } else s
  { s with hop := { s.hop with pins := setBit s.hop.pins p true } }

/-- Send an EVT packet of line `n` on link `l`; it is dropped on a link that is not ACTIVE (R393, R427). -/
def Chip.sendEvt (s : Chip) (l n : Nat) : Chip :=
  let k := s.link l
  if k.st = .active then
    s.queuePacket l (mkPacket 0x0A (s.cfgAt Obj.linkEventVc l) n 0 0 0 (bytesLE 8 s.tcRec ++ bytesLE 8 s.tb.epoch) 2)
  else s.setLink l { k with eventsDropped := k.eventsDropped + 1 }

/-- A pulse of event line `n` (R425 to R428): pulses on one clock are one; each goes to the line's outputs. -/
def Chip.pulse (s : Chip) (n : Nat) : Chip :=
  let now := s.cnt.clocks * 2 ^ 64 + s.tb.tc
  if Tab.find s.hop.lastPulse n = some now ∧ s.tb.state ≠ .unlocked then s
  else
    let s := { s with hop := { s.hop with
      lineCount := Tab.upd 0 s.hop.lineCount n (· + 1), lastPulse := Tab.set s.hop.lastPulse n now } }
    let r := s.cfgAt Obj.hopperEventLineRoute n
    let s := (List.range 8).foldl (fun s p => if bitOf r p then s.drivePin p else s) s
    (List.range 8).foldl (fun s l => if bitOf r (8 + l) then s.sendEvt l n else s) s

end Sys2Proof.Machine
end

