-- ==== Sys2Proof/Machine/Operands.lean ====
section
/-!
DEFINITION. Machine/Operands.lean: the operand forms every command shares: abort codes (R480), addresses and their windows,
byte ranges cut into lines (R81), and the rights of a master on a target (R110, R111).
-/
namespace Sys2Proof.Machine

/-! ### Abort codes (R480) -/

abbrev Abort.objectAbsent : Nat := 0x00010001
abbrev Abort.subAbsent : Nat := 0x00010002
abbrev Abort.offset : Nat := 0x00010003
abbrev Abort.readOnly : Nat := 0x00020001
abbrev Abort.writeOnly : Nat := 0x00020002
abbrev Abort.outOfRange : Nat := 0x00030001
abbrev Abort.length : Nat := 0x00030002
abbrev Abort.keyUnwrap : Nat := 0x00030003
abbrev Abort.resourceOwned : Nat := 0x00040001
abbrev Abort.caskState : Nat := 0x00040002
abbrev Abort.channelState : Nat := 0x00040003
abbrev Abort.domainState : Nat := 0x00040004
abbrev Abort.wrongMode : Nat := 0x00040005
abbrev Abort.busyRecall : Nat := 0x00040006
abbrev Abort.segmentSequence : Nat := 0x00050001
abbrev Abort.transferTimeout : Nat := 0x00050002
abbrev Abort.unknownCommand : Nat := 0x00050003
abbrev Abort.storeFailed : Nat := 0x00060001

/-! ### Sources -/

/-- The master ID of a dictionary access source (R108, R465). -/
def srcMaster : Src → Nat
  | .mailbox h _ => h.val
  | .bar2 h _ => h.val
  | .field => 0x70
  | .manager => 0x60
  | .debug => 0x7F

/-- The PASID that a CXL.io request of a source carries (R53, R95). -/
def srcPasid : Src → Option (BitVec 20)
  | .mailbox _ p => p
  | .bar2 _ p => p
  | _ => none

/-- The path of a dictionary access source (R464): a sequence begun on one path is continued only there. -/
def srcPath : Src → Nat
  | .mailbox h _ => h.val
  | .bar2 h _ => 8 + h.val
  | .field => 16
  | .manager => 17
  | .debug => 18

/-! ### Addresses -/

/-- The DLA space has 46 bits (R7, R81). -/
abbrev dlaEnd : Nat := 0x400000000000

/-- The window that holds a DLA (R24, R253, R401, R434, R561). -/
def dlaWin (a : Nat) : DlaWin :=
  if 0x3FFFF9FFF000 ≤ a ∧ a < 0x3FFFFA000000 then .timeline
  else if 0x3FFFFA000000 ≤ a ∧ a < 0x3FFFFC000000 then .dump
  else if 0x3FFFFC000000 ≤ a ∧ a < 0x3FFFFE000000 then .doorbell
  else if 0x3FFFFE000000 ≤ a ∧ a < dlaEnd then .scratch
  else if 0x3E0000000000 ≤ a ∧ a < 0x3F0000000000 then .foldAlias
  else .memory

/-- Two byte ranges overlap. -/
def overlaps (a n b m : Nat) : Bool := decide (a < b + m ∧ b < a + n ∧ 0 < n ∧ 0 < m)

/-- One line's share of a byte range: the line address, the bytes it covers, and their image. -/
structure LinePart where
  addr : Nat
  mask : BitVec 64
  data : Line
  deriving DecidableEq, Repr

/-- The share of line `a` in the bytes `d` from address `at`. -/
def linePart (a start : Nat) (d : List Byte) : LinePart :=
  let lo := max a start
  let hi := min (a + 64) (start + d.length)
  let bs := (d.drop (lo - start)).take (hi - lo)
  ⟨a, BitVec.ofNat 64 ((2 ^ (hi - lo) - 1) * 2 ^ (lo - a)), BitVec.ofNat 512 (natLE bs * 2 ^ (8 * (lo - a)))⟩

/-- A byte range cut into its lines, in ascending address order (R432). -/
def lineParts (start : Nat) (d : List Byte) : List LinePart :=
  if d.length = 0 then []
  else (List.range ((start + d.length - 1) / 64 - start / 64 + 1)).map
    (fun i => linePart (start / 64 * 64 + 64 * i) start d)

/-- The line addresses of a byte range. -/
def lineAddrs (start len : Nat) : List Nat :=
  if len = 0 then []
  else (List.range ((start + len - 1) / 64 - start / 64 + 1)).map (fun i => start / 64 * 64 + 64 * i)

/-- The bytes of a range out of lines given by line number; a missing line reads as zeros. -/
def gatherBytes (got : Tab Line) (start : Nat) : Nat → List Byte
  | 0 => []
  | n + 1 => lineByte (Tab.get 0 got (start / 64)) (start % 64) :: gatherBytes got (start + 1) n

/-- Merge the masked bytes of `new` into `old`. -/
def mergeBytes (old new : Line) (mask : BitVec 64) : Nat → Nat → Nat
  | 0, _ => 0
  | n + 1, i =>
    (if mask.getLsbD i then (lineByte new i).toNat else (lineByte old i).toNat) * 256 ^ i + mergeBytes old new mask n (i + 1)

/-- Merge the masked bytes of `new` into `old`. -/
def mergeLine (old new : Line) (mask : BitVec 64) : Line := BitVec.ofNat 512 (mergeBytes old new mask 64 0)

/-- Every byte of the line is enabled: a full-line write (R64). -/
def fullMask : BitVec 64 := BitVec.allOnes 64

/-! ### Rights -/

/-- The rights value of master `m` on target `t` (R110, R111): admin on target 0x0410 is admin on every cask. -/
def Chip.rights (s : Chip) (t m : Nat) : Nat :=
  if isEngine m then 15
  else
    let r := bitsOf (s.cfg (tableKey t)) (4 * m) 4
    if t < 0x400 ∧ bitOf (bitsOf (s.cfg (tableKey 0x410)) (4 * m) 4) 3 then setBit r 3 true else r

/-- Master `m` holds right `b` (0 read, 1 write, 2 fold, 3 admin) on target `t`. -/
def Chip.hasRight (s : Chip) (t m b : Nat) : Bool := bitOf (s.rights t m) b

/-- The rights value of master `m` on target `t` is found damaged (R114); an engine's nibble always reads 0xF (R111). -/
def Chip.rightDamaged (s : Chip) (t m : Nat) : Bool := !isEngine m && s.accBad.contains (t, m)

/-- A damaged rights value is found: it stays so until an entry of its target is written (R114). -/
def Chip.markDamaged (s : Chip) (t m : Nat) : Chip :=
  { s with accBad := if s.accBad.contains (t, m) then s.accBad else s.accBad ++ [(t, m)] }

/-- The bit of right `b` is held and its value is sound (R110, R114). -/
def Chip.may (s : Chip) (t m b : Nat) : Bool := s.hasRight t m b && !s.rightDamaged t m

/-- An access without its right: a silent violation, or the integrity fault of a damaged value (R112, R114). -/
def Chip.deny (s : Chip) (t m : Nat) : Chip := if s.rightDamaged t m then s.raise 37 m else s.violation m

/-- The cask slot bound to a PASID (R94). -/
def Chip.slotOf (s : Chip) (pasid : Nat) : Option Nat :=
  match s.rw.find? (fun e => decide (Obj.caskPasid ≤ e.1 ∧ e.1 ≤ objAt Obj.caskPasid 1023 ∧ e.1 % 256 = Obj.caskPasid % 256
      ∧ e.2 = 0x80000000 + pasid)) with
  | some e => some (e.1 / 256 - 0x9000)
  | none => none

/-- A request with a PASID bound to no slot, or to a cask that is not ACTIVE, is a violation (R95, R96, R98). -/
def Chip.pasidDenied (s : Chip) (p : Option (BitVec 20)) : Bool :=
  match p with
  | some p => (match s.slotOf p.toNat with | some c => decide ((s.cask c).state ≠ .active) | none => true)
  | none => false

/-- The coherence domain of a cask (R117). -/
def Chip.caskDomain (s : Chip) (c : Nat) : Option Nat :=
  let d := bitsOf (s.cfg Obj.cohCaskDomain) (8 * c) 8
  if d < 64 then some d else none

end Sys2Proof.Machine
end

