-- ==== Sys2Proof/Machine/Deliver.lean ====
section
/-!
DEFINITION. Machine/Deliver.lean: where the answer of a line access goes: a head's response queue, a link request that
collects its lines, the home's transaction, a Hopper burst, or a capture append.
-/
namespace Sys2Proof.Machine

/-- Replace request `id` of a link. -/
def Link.modReq (k : Link) (id : Nat) (f : LinkReq → LinkReq) : Link :=
  { k with reqs := modFirst (fun r => decide (r.id = id)) f k.reqs }

/-- The access is a record of an append of link `l` numbered below `n`. -/
def Ret.appendBelow (r : Ret) (l n : Nat) : Bool :=
  match r with
  | .append _ _ l' id => decide (l' = l ∧ id < n)
  | _ => false

/-- Line folds that are not visible yet: queued, waiting or running. -/
def FoldUnit.open (u : FoldUnit) : List FoldReq := u.queue ++ u.waiting ++ u.running

/-- Answer a FENCE whose earlier writes, folds and appends are visible (R373). -/
def Chip.answerFences (s : Chip) (l : Nat) : Chip :=
  let k := s.link l
  let ready := fun (f : LinkFence) =>
    k.reqs.all (fun r => r.read || decide (f.req ≤ r.id))
      && s.fold.open.all (fun q => decide (q.master ≠ 0x10 + l) || decide (f.fold ≤ q.id))
      && s.fold.appends.all (fun a => decide (a.1 ≠ l ∨ f.req ≤ a.2.1))
      && s.waits.all (fun w => !w.acc.ret.appendBelow l f.req)
  let go := k.fences.filter ready
  let s := s.setLink l { k with fences := k.fences.filter (fun f => !ready f) }
  go.foldl (fun s f => s.queuePacket l (mkPacket 0x08 f.vc 0 f.tag 0 0 [] 1)) s

/-- A link request whose lines are all done is answered: RDC with its data, WRC if it asked for one (R370). -/
def Chip.finishReq (s : Chip) (l id : Nat) : Chip :=
  let k := s.link l
  match k.reqs.find? (fun r => decide (r.id = id)) with
  | none => s
  | some r =>
    if r.left = 0 then
      let s := s.setLink l { k with reqs := k.reqs.filter (fun q => decide (q.id ≠ id)) }
      let s :=
        if r.read then
          if r.error then s.queuePacket l (mkPacket 0x02 r.vc 1 r.tag 0 0 [] 1)
          else s.queuePacket l (mkData 0x02 r.vc 0 r.tag 0 0 (gatherBytes r.got r.addr r.len) r.poison)
        else if r.cmp then s.queuePacket l (mkPacket 0x04 r.vc (if r.error then 1 else 0) r.tag 0 0 [] 1)
        else s
      s.answerFences l
    else s

/-- A line access of a link request is done. -/
def Chip.reqDone (s : Chip) (l id a : Nat) (data : Line) (poison : Bool) : Chip :=
  let k := s.link l
  let k := k.modReq id (fun r =>
    { r with left := r.left - 1, got := if r.read then Tab.set r.got (lineNo a) data else r.got, poison := r.poison || poison })
  (s.setLink l k).finishReq l id

/-- The durable producer of a capture queue covers the longest prefix of visible records (R445): up to the first append that
still waits, else up to the last accepted one. -/
def Chip.appendDone (s : Chip) (q : Nat) : Chip :=
  match s.queue q with
  | some x =>
    let starts := s.waits.filterMap (fun w => match w.acc.ret with | .append q' n _ _ => if q' = q then some n else none | _ => none)
    let prod := match starts with | [] => x.accepted | n :: _ => n
    s.setQueue q { x with prod := prod, dirty := true }
  | none => s

/-- Change burst `b` of a Hopper channel. -/
def Chip.modBurst (s : Chip) (ch b : Nat) (f : Burst → Burst) : Chip :=
  let c := s.hchan ch
  s.setHchan ch { c with bursts := modFirst (fun x => decide (x.id = b)) f c.bursts }

/-- The flits after which the device sends a MAC in containment mode (R73). -/
def Chip.macInterval (s : Chip) : Nat := if s.inBurst then 1 else s.cfg Obj.portsIdeAggregation

/-- A flit leaves under IDE: in containment mode a MAC follows after at most the interval (R73; log entry 140). -/
def Chip.ideFlit (s : Chip) (x : Head) : Head :=
  if !x.ideContain || !bitOf x.ideKeyed 0 then x
  else if s.macInterval ≤ x.flitsToMac + 1 then { x with flitsToMac := 0, macs := x.macs + 1 }
  else { x with flitsToMac := x.flitsToMac + 1 }

/-- A message leaves for head `h`; while its link is out of L0 it waits (R76). -/
def Chip.sendHead (s : Chip) (h : Nat) (m : HeadMsg) : Chip :=
  let x := s.head h
  if x.detect then s.setHead h { x with owed := x.owed ++ [m] } else s.setHead h (s.ideFlit { x with sent := x.sent ++ [m] })

/-- The answer of the line access at `a` reaches its requester; an owner's data that the home held is stored now (R130). -/
def Chip.deliverTo (s : Chip) (r : Ret) (kind : AccKind) (a : Nat) (data : Line) (poison : Bool) : Chip :=
  match r with
  | .none => s
  | .head h tag mv =>
    let s := s.sendHead h (if kind = .read then .data tag data poison (decide (mv = .i)) else .cmp tag)
    if kind = .read ∧ poison then s.countHead h 7 1 else s
  | .link l id => s.reqDone l id a data poison
  | .coh line =>
    let txns := modFirst (fun t : CohTxn => decide (t.line = line)) (fun t => { t with done := some (data, poison) }) s.coh.txns
    { s with coh := { s.coh with txns := txns } }
  | .held line => { s with coh := { s.coh with held := Tab.del s.coh.held line } }
  | .hopper ch b =>
    s.modBurst ch b (fun x => { x with
      left := x.left - 1
      got := if kind = .read then Tab.set x.got (lineNo a) data else x.got
      poison := if kind = .read ∧ poison then x.poison ++ [lineNo a] else x.poison })
  | .append q _ l _ => (s.appendDone q).answerFences l
  | .fold _ => s

/-- The answer of the line access at `a` reaches its requester; a running line fold ends with it (R438). -/
def Chip.deliver (s : Chip) (r : Ret) (kind : AccKind) (a : Nat) (data : Line) (poison : Bool) : Chip :=
  match r with
  | .fold id =>
    match s.fold.running.find? (fun q => decide (q.id = id)) with
    | some q =>
      let s := { s with fold := { s.fold with running := s.fold.running.filter (fun q => decide (q.id ≠ id)) } }
      let s := s.deliverTo q.ret kind a data poison
      if 0x10 ≤ q.master ∧ q.master < 0x18 then s.answerFences (q.master - 0x10) else s
    | none => s
  | r => s.deliverTo r kind a data poison

end Sys2Proof.Machine
end

