-- ==== Sys2Proof/Machine/Space.lean ====
section
/-!
DEFINITION. Machine/Space.lean: regions and their policies, the space each tier has and uses (R148, R196 to R199, R261 to
R264, R328), and the journal (R162, R163).
-/
namespace Sys2Proof.Machine

/-- How an operation on a page ended: it went on, or it waits. -/
inductive Res where
  | go (s : Chip)
  | wait (why : WaitWhy) (s : Chip)
  deriving DecidableEq, Repr

/-! ### Regions -/

/-- The memory mode of a region (R202): 0 SCRAMBLE, 1 XTS, 2 SEALED. -/
def Chip.regMode (s : Chip) (r : Nat) : Nat := s.cfgAt Obj.huskRegionMode r

/-- The region is persistent (dc.flags bit [0]). -/
def Chip.persistent (s : Chip) (r : Nat) : Bool := bitOf (s.cfgAt Obj.dcFlags r) 0

/-- The region is sharable (dc.flags bit [1]). -/
def Chip.sharable (s : Chip) (r : Nat) : Bool := bitOf (s.cfgAt Obj.dcFlags r) 1

/-- The region compresses (R176). -/
def Chip.compressing (s : Chip) (r : Nat) : Bool := decide (s.cfgAt Obj.millRegionMode r = 1)

/-- The region's pages may rest on the tier with code `t` (R145). -/
def Chip.tierAllowed (s : Chip) (r t : Nat) : Bool := bitOf (s.cfgAt Obj.policyTiers r) (t - 1)

/-- The HBM mirror holds the region's page tables (R87, R147): a change takes effect at its end, and until then the region is treated as
not map-resident. -/
def Chip.mapResident (s : Chip) (r : Nat) : Bool := bitOf s.map.resident r && decide (s.cfgAt Obj.policyMapResident r = 1)

/-- The region an address belongs to: its extent's, else the region that spans it. -/
def Chip.accessRegion (s : Chip) (dla : Nat) : Nat :=
  match s.extentOf dla with
  | some e => e.region
  | none => (s.regionOf dla).getD 0

/-- The region has an offered, accepted or releasing extent. -/
def Chip.regionBusy (s : Chip) (r : Nat) : Bool := s.map.extents.any (fun e => decide (e.region = r))

/-- cask.extent_mib: offered, accepted and releasing blocks of the cask, in MiB (R98). -/
def Chip.extentMib (s : Chip) (c : Nat) : Nat :=
  s.map.extents.foldl (fun a e => if e.cask = c then a + e.len / mib - 2 * e.freed.length else a) 0

/-! ### Records -/

/-- The code of a page record's state (R85). -/
def PgState.code : PgState → Nat
  | .unwritten => 0 | .hbm => 1 | .ddr => 2 | .nvm => 3 | .migrating => 4 | .poisoned => 5

/-- The tier with a code (R145). -/
def tierOfCode (t : Nat) : PgState := if t = 1 then .hbm else if t = 2 then .ddr else .nvm

/-- The 64-bit payload of a page record (R85). -/
def PageRec.payload (r : PageRec) : Nat :=
  r.st.code + r.grist.toNat * 8 + r.sectors * 16 + r.ch * 2 ^ 10 + r.loc * 2 ^ 13 + r.heat * 2 ^ 48 + r.gen * 2 ^ 56

/-- The location that is pending and names no media (R321). -/
abbrev pendingLoc : Nat := 0x7FFFFFFFF

/-- The migration of a page, with its slot number (R152). -/
def Chip.migOf (s : Chip) (p : Nat) : Option (Nat × Slot) := s.lauter.slots.find? (fun e => decide (e.2.page = p))

/-- The record a read of the page is served from: its source while it migrates (R85, R152). -/
def Chip.srcRec (s : Chip) (p : Nat) : PageRec :=
  let r := s.page p
  if r.st = .migrating then (match s.migOf p with | some (_, x) => x.src | none => r) else r

/-- The tier a page rests on. -/
def Chip.tierOf (s : Chip) (p : Nat) : PgState := (s.srcRec p).st

/-! ### Space -/

/-- The slot class that holds a grist page of `n` sectors, in sectors: the smallest (R196). -/
def slotClass (n : Nat) : Nat := (([1, 2, 3, 4, 6, 8, 12, 16, 24, 32, 48] : List Nat).find? (fun k => decide (n ≤ k))).getD 64

/-- Slots of a class per 4 KiB page (R196): a slot never crosses a page. -/
def slotsPerPage (k : Nat) : Nat := 64 / k

/-- Pages resting on a tier and channel, with their records. -/
def Chip.pagesOn (s : Chip) (t : PgState) (ch : Nat) : Tab PageRec :=
  s.map.pages.filter (fun e => decide (s.tierOf e.1 = t) && (decide (t = .hbm) || decide (e.2.ch = ch)))

/-- The records that hold space on a tier and channel: those of the pages that rest there, and the other place of each migration: its
destination, or its source until that is free (R152 steps 1 and 7). -/
def Chip.placesOn (s : Chip) (t : PgState) (ch : Nat) : Tab PageRec :=
  (s.map.pages.map (fun e => (e.1, s.srcRec e.1))
      ++ s.lauter.slots.map (fun e => (e.2.page, if e.2.stage = .swung then e.2.src else e.2.dst))).filter
    (fun e => decide (e.2.st = t) && (decide (t = .hbm) || decide (e.2.ch = ch)))

/-- The page is stored as a sealed frame where it is plain on DDR5 or the non-volatile tier (R209). -/
def Chip.sealedRegion (s : Chip) (p : Nat) : Bool := decide (s.regMode (s.accessRegion (4096 * p)) = 2)

/-- The sectors that page `p`, stored as `r`, keeps others out of: its frame of 64; on DDR5 the group of eight sealed frames in nine
pages (R209; groups are aligned, log entry 6), or the page that its slot is carved from (R196). -/
def Chip.spanOf (s : Chip) (p : Nat) (r : PageRec) : Nat × Nat :=
  if r.st = .ddr ∧ r.grist then (r.loc / 64 * 64, 64)
  else if r.st = .ddr ∧ s.sealedRegion p then (r.loc / 576 * 576, 576)
  else (r.loc, 64)

/-- Spans listed once each. -/
def distinctSpans : List (Nat × Nat) → List (Nat × Nat)
  | [] => []
  | x :: r => if r.contains x then distinctSpans r else x :: distinctSpans r

/-- The spans of a DDR5 channel, or of HBM, that are in use. -/
def Chip.spansOn (s : Chip) (t : PgState) (ch : Nat) : List (Nat × Nat) :=
  distinctSpans ((s.placesOn t ch).map (fun e => s.spanOf e.1 e.2))

/-- 4 KiB pages used on a DDR5 channel: a page for each that slots are carved from (R196), nine for a group of sealed frames (R209). -/
def Chip.ddrUsed (s : Chip) (ch : Nat) : Nat := (s.spansOn .ddr ch).foldl (fun a e => a + e.2 / 64) 0

/-- Media lines that page `p` takes in a form (R308). -/
def Chip.unitLines (s : Chip) (p : Nat) (form : Bool × Nat) : Nat :=
  if form.1 then form.2 + 1 else if s.sealedRegion p then 72 else 64

/-- Media lines used on an NVM channel (R308): by the pages, by page writes in progress, and by the old places not yet free (R309). -/
def Chip.nvmUsed (s : Chip) (ch : Nat) : Nat :=
  (s.placesOn .nvm ch).foldl (fun a e => a + s.unitLines e.1 (e.2.grist, e.2.sectors)) 0
    + s.kiln.progs.foldl (fun a e => if e.2.ch = ch then a + s.unitLines e.2.page (e.2.grist, e.2.sectors) else a) 0
    + s.kiln.olds.foldl (fun a o => if o.old.st = .nvm ∧ o.old.ch = ch ∧ o.old.loc ≠ pendingLoc
        ∧ (s.lauter.journal ++ s.lauter.backlog).any (fun e => decide (e.seq = o.seq)) then
          a + s.unitLines o.page (o.old.grist, o.old.sectors) else a) 0

/-- Blocks of a bank of a media package (R292). -/
def nvmBankBlocks (gib : Nat) : Nat := if gib = 1024 then 32768 else 16384

/-- Spare blocks kept of each bank (R312). -/
def Chip.spareBlocks (s : Chip) (ch : Nat) : Nat := nvmBankBlocks (s.nvm ch).gib * s.cfg Obj.kilnSparePct / 100

/-- The pages that a channel holds: DDR5 without the training area of each logical rank (R268); NVM without witness lines, the system
blocks and the spares (R294, R312). -/
def Chip.chanCap (s : Chip) (n : Nat) : Nat :=
  if n < 8 then
    let d := s.ddr n
    d.gib * 262144 - 512 * (d.dimms * d.ranks * (if d.tds then 2 else 1))
  else
    let c := s.nvm (n - 8)
    let pk := c.roots.length
    (pk * 16 * (nvmBankBlocks c.gib - s.spareBlocks (n - 8)) - pk) * 32760 / 64

/-- Free pages of channel `n` (R175): DDR5 0 to 7, NVM 8 to 15. -/
def Chip.chanFree (s : Chip) (n : Nat) : Nat :=
  Tab.get 0 s.lauter.capPages n - (if n < 8 then s.ddrUsed n else ceilDiv (s.nvmUsed (n - 8)) 64)

/-- The ONLINE channels of a tier (R148). -/
def Chip.onlineChans (s : Chip) (t : PgState) : List Nat :=
  match t with
  | .ddr => (List.range 8).filter (fun n => decide (s.chanState n = .online))
  | .nvm => [8, 9, 10, 11, 12, 13, 14, 15].filter (fun n => decide (s.chanState n = .online))
  | _ => []

/-- Blocks of 2 MiB of every non-zero DC region. -/
def Chip.directoryBlocks (s : Chip) : Nat :=
  (List.range 8).foldl (fun a r => a + s.cfgAt Obj.dcLength r / 2097152) 0

/-- The HBM map mirror in use, in bytes (R262). -/
def Chip.mirrorBytes (s : Chip) : Nat :=
  16 * s.directoryBlocks + 8192 * countIf (fun e => bitOf s.map.resident (s.accessRegion (2097152 * e.1))) s.map.tables

/-- The persist reserve's size, in MiB, until a change of it ends (R264). -/
def Chip.reserveMib (s : Chip) : Nat := s.dram.reserveWas.getD (s.cfg Obj.hbmPersistReserveMib)

/-- The smaller of the old and new reserve (R264). -/
def Chip.reserveMin (s : Chip) : Nat := min s.reserveMib (s.cfg Obj.hbmPersistReserveMib)

/-- The resident share in MiB (R261). -/
def Chip.residentMib (s : Chip) : Nat := 16384 - s.reserveMib - s.cfg Obj.windowsAbsorbLimitMib

/-- The reserve as its change takes or gives space: the larger of the old and new size, so that a grow finds its space empty (R264). -/
def Chip.reserveMax (s : Chip) : Nat := max s.reserveMib (s.cfg Obj.hbmPersistReserveMib)

/-- Pages that the HBM placement capacity holds (R148, R261, R264, R561): the share without the mirror and the dump ring. -/
def Chip.hbmCapPages (s : Chip) : Nat :=
  ((16384 - s.reserveMax - s.cfg Obj.windowsAbsorbLimitMib) * mib - s.mirrorBytes - 16384 * s.cfg Obj.cntDumpRecords) / 4096

/-- The placement capacity of a tier, in pages (R148). -/
def Chip.tierCap (s : Chip) (t : PgState) : Nat :=
  match t with
  | .hbm => s.hbmCapPages
  | _ => (s.onlineChans t).foldl (fun a n => a + Tab.get 0 s.lauter.capPages n) 0

/-- The free space of a tier, in pages. -/
def Chip.tierFree (s : Chip) (t : PgState) : Nat :=
  match t with
  | .hbm => s.hbmCapPages - (s.placesOn .hbm 0).length
  | _ => (s.onlineChans t).foldl (fun a n => a + s.chanFree n) 0

/-- The tier reserve, in pages (R198); HBM keeps none. -/
def Chip.tierReserve (s : Chip) (t : PgState) : Nat :=
  match t with
  | .hbm => 0
  | _ => ceilDiv (s.tierCap t * s.cfg Obj.millReservePct) 100

/-- A tier has room for one more page; `inReserve` says that the reserve may be used (R198). -/
def Chip.tierRoom (s : Chip) (t : PgState) (inReserve : Bool) : Bool :=
  decide ((if inReserve then 0 else s.tierReserve t) < s.tierFree t)

/-! ### Persist reserve and absorb space -/

/-- ONLINE NVM channels. -/
def Chip.nvmOnline (s : Chip) : Nat := (s.onlineChans .nvm).length

/-- The journal's size in bytes. -/
def Chip.journalBytes (s : Chip) : Nat := s.cfg Obj.lauterJournalKib * 1024

/-- The largest dirty limit that the hold-up time allows, rounded down to a page (R328). -/
def budgetLimit (n holdup j : Nat) : Nat := (64 * (holdup - 2000) * 24576 * n - 1280 * j) / 650 / 4096 * 4096

/-- D of R328: the reserve's dirty limit in bytes. -/
def Chip.dirtyLimit (s : Chip) : Nat :=
  let d := s.reserveMin * mib - s.journalBytes
  if s.nvmOnline = 0 then 0 else min d (budgetLimit s.nvmOnline (s.cfg Obj.kilnHoldupUs) s.journalBytes)

/-- The hold-up time lowers D (R328). -/
def Chip.budgetLimited (s : Chip) : Bool :=
  decide (0 < s.nvmOnline ∧ s.dirtyLimit < s.reserveMin * mib - s.journalBytes)

/-- kiln.persist_time_us (R328); 2,000 with no channel ONLINE. -/
def Chip.persistTime (s : Chip) : Nat :=
  if s.nvmOnline = 0 then 2000
  else 2000 + ceilDiv (10 * (65 * s.dirtyLimit + 128 * s.journalBytes)) (64 * 24576 * s.nvmOnline)

/-- Dirty bytes of absorb space, or of the reserve (R321, R586). -/
def Chip.absorbBytes (s : Chip) (persist : Bool) : Nat :=
  4096 * countIf (fun e => decide (e.2.persist = persist)) s.kiln.absorbed

/-- The page can take an absorbed line: it is charged already, or a new charge fits (R48, R263). -/
def Chip.absorbRoom (s : Chip) (p : Nat) (persist : Bool) : Bool :=
  (Tab.find s.kiln.absorbed p).isSome
    || decide (s.absorbBytes persist + 4096 ≤ (if persist then s.dirtyLimit else s.cfg Obj.windowsAbsorbLimitMib * mib))

/-- Absorb space committed to accepted BURST windows, in MiB (R46). -/
def Chip.committedMib (s : Chip) : Nat :=
  s.win.pending.foldl (fun a w => if w.cls = .burst then a + w.absorbMib else a) 0

/-- windows.drain_rate_mbs (R49). -/
def Chip.drainRate (s : Chip) : Nat := 3000 * s.nvmOnline

/-! ### Root records (R295, R327) -/

/-- The copy of a root record that is intact, the newer of two (R295). -/
def newestRoot (a b : List Byte) : Option Root :=
  let x := Root.ofImage a
  let y := Root.ofImage b
  match rootIntact a, rootIntact b with
  | true, true => some (if diff32 x.generation y.generation < 2 ^ 31 then x else y)
  | true, false => some x
  | false, true => some y
  | false, false => none

/-- The root record of a package. -/
def RootRec.newest (x : RootRec) : Option Root := newestRoot x.copyA x.copyB

/-- The root says that the package holds a copy of the map zone. -/
def RootRec.zone (x : RootRec) : Bool := x.newest.any (·.zone)

/-- The root says that the last flush completed. -/
def RootRec.clean (x : RootRec) : Bool := x.newest.any (·.clean)

/-- The root record is rewritten (R295): its generation advances, and the copy with the lower one takes it. -/
def RootRec.rewrite (x : RootRec) (f : Root → Root) : RootRec :=
  match x.newest with
  | none => x
  | some r =>
    let b := ({ f r with generation := wrap32 (r.generation + 1) } : Root).image
    if rootIntact x.copyA && decide ((Root.ofImage x.copyA).generation = r.generation) then { x with copyB := b } else { x with copyA := b }

/-! ### Journal and map updates (R162, R163) -/

/-- The channels that hold a copy of the map zone (R164). -/
def Chip.zoneChans (s : Chip) : List Nat := [bitsOf (s.cfg Obj.lauterZoneChannels) 0 3, bitsOf (s.cfg Obj.lauterZoneChannels) 4 3]

/-- The zone channels that are ONLINE. -/
def Chip.zoneOnline (s : Chip) : List Nat := s.zoneChans.filter (fun c => decide (s.chanState (8 + c) = .online))

/-- No copy of the map zone gives a record of which the copies `bad` fail (R164): with one channel ONLINE the other's copy is not read. -/
def Chip.zoneBad (s : Chip) (bad : Nat) : Bool :=
  let gone := fun (i : Nat) => decide (s.zoneOnline ≠ []) && (s.zoneChans[i]?).any (fun c => !s.zoneOnline.contains c)
  (bitOf bad 3 || gone 0) && (bitOf bad 4 || gone 1)

/-- The journal buffer takes `n` more entries of 32 bytes, ahead of none that waits (R165). -/
def Chip.journalRoom (s : Chip) (n : Nat) : Bool :=
  s.lauter.backlog.isEmpty && decide (32 * (s.lauter.journal.length + n) ≤ s.journalBytes)

/-- Entries that waited enter the journal buffer as far as it has room (R165). -/
def Chip.journalFill (s : Chip) : Chip :=
  let n := s.journalBytes / 32 - s.lauter.journal.length
  { s with lauter := { s.lauter with
    journal := s.lauter.journal ++ s.lauter.backlog.take n, backlog := s.lauter.backlog.drop n } }

/-- Append a journal entry (R162 step 1); one that finds the buffer full waits for room (R165; log entry 158). The first one after a
power-up clears CLEAN (R327). -/
def Chip.jAppend (s : Chip) (kind aux target payload : Nat) : Chip :=
  let e : JEntry := ⟨s.lauter.jseq, kind, aux, target, payload⟩
  let room := s.journalRoom 1
  let chans := if s.kiln.chans.any (fun c => c.2.roots.any (·.clean)) then
      s.kiln.chans.map (fun (n, c) => (n, { c with roots := c.roots.map (fun x => x.rewrite (fun r => { r with clean := false })) }))
    else s.kiln.chans
  { s with
    lauter := { s.lauter with
      journal := if room then s.lauter.journal ++ [e] else s.lauter.journal
      backlog := if room then s.lauter.backlog else s.lauter.backlog ++ [e], jseq := wrap32 (s.lauter.jseq + 1) }
    kiln := { s.kiln with chans := chans } }

/-- Where the base tables keep the record of an entry: by its target, directory entries behind the page tables (R163, R164). -/
def JEntry.key (e : JEntry) : Nat := if e.kind = 2 then 2 ^ 40 + e.aux * 2 ^ 25 + e.target else e.target

/-- The 128-bit record of a payload: payload, then complement (R83). -/
def recOf (payload : Nat) : Nat := payload % 2 ^ 64 + 2 ^ 64 * (2 ^ 64 - 1 - payload % 2 ^ 64)

/-- The 32 bytes of an entry (R163), its crc field excepted. -/
def JEntry.body (e : JEntry) : List Byte × List Byte :=
  (bytesLE 4 e.seq ++ bytesLE 1 e.kind ++ bytesLE 1 e.aux,
   bytesLE 8 (e.target % 2 ^ 34) ++ bytesLE 16 (if e.kind = 3 then 0 else recOf e.payload))

/-- The 32 bytes of an entry (R163). -/
def JEntry.image (e : JEntry) : List Byte := e.body.1 ++ bytesLE 2 (crcBytes (e.body.1 ++ e.body.2)) ++ e.body.2

/-- An entry's bytes pass their crc and the check of their record (R83, R163). -/
def jIntact (b : List Byte) : Bool :=
  decide (fieldLE b 6 2 = crcBytes (b.take 6 ++ b.drop 8))
    && (decide (fieldLE b 4 1 = 3) || decide (fieldLE b 0x10 16 = recOf (fieldLE b 0x10 8)))

/-- The journal target of a page: its table and its record index (R163). -/
def Chip.pageTarget (s : Chip) (p : Nat) : Nat := Tab.get 0 s.map.tables (p / 512) + (p % 512) * 2 ^ 25

/-- The number of the directory entry of block `b` among the records: page records have their page's number. -/
def dirRecNo (b : Nat) : Nat := 2 ^ 34 + b

/-- A record is written to every copy, payload and complement together (R83, R162): none fails its check. -/
def Chip.recWritten (s : Chip) (k : Nat) : Chip := { s with map := { s.map with badRecs := Tab.del s.map.badRecs k } }

/-- A page record takes a value by a map update: journal entry, mirrors, map cache (R162). -/
def Chip.commitPage (s : Chip) (p : Nat) (r : PageRec) : Chip :=
  let src := if r.st = .migrating then (s.srcRec p).st.code else 0
  ((s.jAppend (if r.st = .migrating then 4 else 1) src (s.pageTarget p) r.payload).setPage p r).recWritten p

/-- The code of an extent state (R84). -/
def ExtState.code : ExtState → Nat
  | .offered => 1 | .accepted => 2 | .releasing => 3

/-- The 64-bit payload of the directory entry of block `b` (R84). -/
def Chip.dirPayload (s : Chip) (b : Nat) : Nat :=
  match s.extentOf (2097152 * b) with
  | none => 0
  | some e =>
    let t := Tab.find s.map.tables b
    (if t.isSome then 2 else 1) + e.cask * 4 + e.st.code * 2 ^ 12 + e.group * 2 ^ 14 + e.region * 2 ^ 16 + t.getD 0 * 2 ^ 20

/-- The directory entry of block `b` is journalled as it now stands (R162, R163). -/
def Chip.commitDir (s : Chip) (b : Nat) : Chip :=
  let r := (s.regionOf (2097152 * b)).getD 0
  (s.jAppend 2 r (b - s.cfgAt Obj.dcBase r / 2097152) (s.dirPayload b)).recWritten (dirRecNo b)

/-- The block of a page has a page table; the first write to it allocates one (R82). -/
def Chip.withTable (s : Chip) (p : Nat) : Chip :=
  if (Tab.find s.map.tables (p / 512)).isSome then s
  else
    let m := { s.map with
      tables := Tab.set s.map.tables (p / 512) s.map.nextTable, nextTable := (s.map.nextTable + 1) % 2 ^ 25 }
    let s := { s with map := m }
    s.commitDir (p / 512)

end Sys2Proof.Machine
end

