-- ==== Sys2Proof/Machine/Places.lean ====
section
/-!
DEFINITION. Machine/Places.lean: the units of R169 and R268, where pages may be placed (R90, R92, R148, R169, R196, R209, R268, R278), and
the allocation of a page on its first write (R90, R91).
-/
namespace Sys2Proof.Machine

/-! ### Units (R169, R268) -/

/-- The DRAM coordinates of a sector (R268): sub-channel, bank group, bank, logical rank and DIMM. -/
def Chip.ddrCoords (s : Chip) (ch sector : Nat) : Nat × Nat × Nat × Nat × Nat :=
  let d := s.ddr ch
  let chip := if d.tds then 1 else 0
  let rank := if d.ranks = 2 then 1 else 0
  let dimm := if d.dimms = 2 then 1 else 0
  let c := bitsOf sector 13 chip
  let r := bitsOf sector (13 + chip) rank
  (bitsOf sector 0 1, bitsOf sector 1 3, bitsOf sector 11 2, 2 * r + c, bitsOf sector (13 + chip + rank) dimm)

/-- The lauter.retire value of a unit of DDR5 (R169): scope 1 PAGE, 2 BANK, 3 RANK. -/
def Chip.ddrUnit (s : Chip) (ch scope sector : Nat) : Nat :=
  let (sub, bg, bank, rank, dimm) := s.ddrCoords ch sector
  2 + ch * 16 + scope * 256
    + (if scope = 1 then sector * 2 ^ 12
       else sub * 2 ^ 12 + dimm * 2 ^ 13 + rank * 2 ^ 14 + (if scope = 2 then bg * 2 ^ 16 + bank * 2 ^ 19 else 0))

/-- The lauter.retire value of a unit of an NVM channel (R169): scope 1 PAGE, 2 BLOCK. -/
def nvmUnit (ch scope loc : Nat) : Nat := 3 + ch * 16 + scope * 256 + (if scope = 1 then loc else loc / 32768) * 2 ^ 12

/-- The page lies in the unit that a lauter.retire value names (R169). -/
def Chip.inUnit (s : Chip) (v : Nat) (r : PageRec) : Bool :=
  let scope := bitsOf v 8 4
  let unit := bitsOf v 12 35
  decide (r.st.code = bitsOf v 0 4 ∧ r.ch = bitsOf v 4 4) &&
    (if scope = 1 then decide (r.loc ≤ unit ∧ unit < r.loc + 64)
     else if r.st = .nvm then decide (r.loc / 32768 = unit)
     else (List.range 64).any (fun i => decide (s.ddrUnit r.ch scope (r.loc + i) = v)))

/-- The sector lies in the training area of its logical rank: the last 2 MiB, four rows (R268). -/
def Chip.inTraining (s : Chip) (ch sector : Nat) : Bool :=
  let d := s.ddr ch
  let w := 13 + (if d.tds then 1 else 0) + (if d.ranks = 2 then 1 else 0) + (if d.dimms = 2 then 1 else 0)
  decide (d.gib * 16777216 ≤ (sector >>> w + 4) * 2 ^ w)

/-! ### Allocation -/

/-- The channels where a page of region `r` may be placed: ONLINE, with room, and mirrored or not as the region asks (R278). -/
def Chip.placeChans (s : Chip) (t : PgState) (r : Nat) : List Nat :=
  (s.onlineChans t).filter (fun n => decide (0 < s.chanFree n) &&
    (decide (t ≠ .ddr) || (bitOf (s.cfg Obj.ddrMirrorPairs) (n / 2) == decide (s.cfgAt Obj.ddrRegionMirror r = 1))))

/-- One of several channels, by a free value: the spec leaves the choice to the device (log entry 6). -/
def Chip.chooseChan (s : Chip) (l : List Nat) : Option Nat × Chip :=
  match l with
  | [] => (none, s)
  | [c] => (some c, s)
  | _ => let (v, s) := s.takeNat; (l[v % l.length]?, s)

/-- A tier can take a first write of region `r`. -/
def Chip.canPlace (s : Chip) (t : PgState) (r : Nat) (inReserve : Bool) : Bool :=
  s.tierRoom t inReserve && (decide (t = .hbm) || decide (s.placeChans t r ≠ []))

/-- The tiers a first write tries, in order: in a BURST window a region that may rest on the non-volatile tier is backed by it;
otherwise the home tier, then the other allowed tiers from the top (R90, R199; log entry 7). -/
def Chip.firstTiers (s : Chip) (r : Nat) : List Nat :=
  if s.inBurst && s.tierAllowed r 3 then [3]
  else
    let h := s.cfgAt Obj.policyHome r
    (h :: [1, 2, 3].filter (fun t => decide (t ≠ h))).filter (s.tierAllowed r)

/-- Pre-zeroed pages of a DDR5 channel's share of the pool (R92). -/
def Chip.poolShare (s : Chip) (ch : Nat) : Nat := Tab.get 0 s.map.poolDdr ch

/-- The DDR5 pool's level (R92). -/
def Chip.poolLevelDdr (s : Chip) : Nat := s.map.poolDdr.foldl (fun a e => a + e.2) 0

/-- The channel that a DDR5 page is drawn from (R92): the one that placement chose, or another of the same tier where its share is empty. -/
def Chip.poolChan (s : Chip) (ch : Nat) (others : List Nat) : Nat :=
  if 0 < s.poolShare ch then ch else (others.find? (fun n => decide (0 < s.poolShare n))).getD ch

/-- A page is zeroed in line, since the pool is empty (R92). -/
def Chip.zeroInline (s : Chip) : Chip :=
  ({ s with map := { s.map with inlineZero := wrap32 (s.map.inlineZero + 1) } } : Chip).raise 53

/-- A page of the pool of HBM, or of DDR5 channel `ch`, or one zeroed in line (R92). -/
def Chip.takePool (s : Chip) (t : PgState) (ch : Nat) : Chip :=
  match t with
  | .hbm => if 0 < s.map.poolHbm then { s with map := { s.map with poolHbm := s.map.poolHbm - 1 } } else s.zeroInline
  | .ddr => if 0 < s.poolShare ch then { s with map := { s.map with poolDdr := Tab.put 0 s.map.poolDdr ch (s.poolShare ch - 1) } }
            else s.zeroInline
  | _ => s

/-- The pages of a DDR5 channel, or of the HBM stack, by the number of their frame of 64 sectors. -/
def Chip.frames (s : Chip) (t : PgState) (ch : Nat) : Nat := if t = .hbm then 4194304 else (s.ddr ch).gib * 262144

/-- Sectors `lo` to `lo + n − 1` may be given to a page: no other holds them, no unit of them is excluded (R169), and none lies in a
training area (R268). -/
def Chip.spanFree (s : Chip) (t : PgState) (ch lo n : Nat) : Bool :=
  (s.spansOn t ch).all (fun e => !overlaps e.1 e.2 lo n)
    && (decide (t = .hbm) || (List.range n).all (fun i => !s.inTraining ch (lo + i)
        && s.lauter.excluded.all (fun v => !s.inUnit v { st := .ddr, ch := ch, loc := lo + i / 64 * 64 })))

/-- The frames where a plain page may be placed, and the groups of sealed frames. -/
def Chip.freeFrames (s : Chip) (t : PgState) (ch size : Nat) : List Nat :=
  ((List.range (64 * s.frames t ch / size)).map (· * size)).filter (fun lo => s.spanFree t ch lo size)

/-- The places left in frames of a channel that are carved already: slots of class `k`, or sealed frames (`k` = 72), of `n` to a frame. -/
def Chip.carvedPlaces (s : Chip) (ch k n : Nat) (mine : Nat × PageRec → Bool) : List Nat :=
  let held := ((s.placesOn .ddr ch).filter mine).map (fun e => (s.spanOf e.1 e.2).1)
  let taken := (s.placesOn .ddr ch).map (·.2.loc)
  (held.flatMap (fun f => (List.range n).map (fun i => f + k * i))).filter (fun l => !taken.contains l)

/-- A place on DDR5 channel `ch` for page `p` in a form, and whether it takes a page of the pool (R92): a slot of its class in a page that
is carved already, a sealed frame of a group that is, or else a free page or group. Which one is the device's choice (log entry 6). -/
def Chip.placeDdr (s : Chip) (p ch : Nat) (form : Bool × Nat) : Nat × Bool × Chip :=
  let (v, s) := s.takeNat
  let pick := fun (l : List Nat) => l.getD (v % l.length) 0
  let k := slotClass (form.2 + 1)
  let carved :=
    if form.1 then s.carvedPlaces ch k (slotsPerPage k) (fun e => e.2.grist && decide (slotClass (e.2.sectors + 1) = k))
    else if s.sealedRegion p then s.carvedPlaces ch 72 8 (fun e => !e.2.grist && s.sealedRegion e.1)
    else []
  if carved ≠ [] then (pick carved, false, s)
  else (pick (s.freeFrames .ddr ch (if !form.1 && s.sealedRegion p then 576 else 64)), true, s)

/-- Storage for page `p` on HBM or DDR5 channel `ch`, in a form: its record there, and the state that has taken it. -/
def Chip.placeAt (s : Chip) (p : Nat) (t : PgState) (ch : Nat) (form : Bool × Nat) (old : PageRec) : PageRec × Chip :=
  match t with
  | .ddr =>
    let (loc, fresh, s) := s.placeDdr p ch form
    ({ old with st := .ddr, grist := form.1, sectors := form.2, ch := ch, loc := loc }, if fresh then s.takePool .ddr ch else s)
  | _ =>
    let (v, s) := s.takeNat
    let l := s.freeFrames .hbm 0 64
    ({ old with st := .hbm, grist := false, sectors := 63, ch := 0, loc := l.getD (v % l.length) 0 }, s.takePool .hbm 0)

/-- "capacity low" where a tier's free space has passed below the mark since `before` (R197). -/
def Chip.capacityLow (s : Chip) (t : PgState) : Bool := decide (100 * s.tierFree t < s.tierCap t * s.cfg Obj.millCapacityLowPct)

/-- "capacity low" for DDR5 and the non-volatile tier (R197). -/
def Chip.watchCapacity (s before : Chip) : Chip :=
  if (!before.capacityLow .ddr && s.capacityLow .ddr) || (!before.capacityLow .nvm && s.capacityLow .nvm) then s.raise 58 else s

/-- Storage for page `p` on tier `t`: its record there, and the state that has taken it. A page of the non-volatile tier gets no
location yet (R321). -/
def Chip.newRecord (s : Chip) (p : Nat) (t : PgState) (r : Nat) (old : PageRec) : PageRec × Chip :=
  match t with
  | .nvm =>
    let (c, s) := s.chooseChan (s.placeChans .nvm r)
    ({ old with st := .nvm, grist := false, sectors := 63, ch := c.getD 8 - 8, loc := pendingLoc }, s)
  | .ddr =>
    let (c, s) := s.chooseChan (s.placeChans .ddr r)
    s.placeAt p .ddr (s.poolChan (c.getD 0) (s.placeChans .ddr r)) (false, 63) old
  | _ => s.placeAt p .hbm 0 (false, 63) old

/-- The first write to page `p` of region `r` allocates it (R90, R91); `first` says that it did not wait before. -/
def Chip.allocate (s : Chip) (p r : Nat) (first : Bool) : Res :=
  let needTable := (Tab.find s.map.tables (p / 512)).isNone
  if needTable && s.mapResident r && decide (s.residentMib * mib < s.mirrorBytes + 8192) then
    .wait .mirror (if first then
      ({ s with dram := { s.dram with mirrorWaits := s.dram.mirrorWaits + 1 } } : Chip).raise 52 else s)
  else if !s.journalRoom 2 then .wait .journal s
  else
    match (s.firstTiers r).find? (fun t => s.canPlace (tierOfCode t) r false) with
    | none =>
      .wait .space (if first then
        ({ s with mill := { s.mill with spaceWaits := s.mill.spaceWaits + 1 } } : Chip).raise 59 else s)
    | some t =>
      let t := tierOfCode t
      let before := s
      let s := s.withTable p
      let (rec, s) := s.newRecord p t r (s.page p)
      .go ((s.commitPage p rec).watchCapacity before)

end Sys2Proof.Machine
end

