-- ==== Sys2Proof/Machine/Retire.lean ====
section
/-!
DEFINITION. Machine/Retire.lean: the retirement log (R356, R357), the counts of corrected errors (R354, R355), repair queues
(R341), and the mode changes of a DDR5 freeze (R281, R282, R527).
-/
namespace Sys2Proof.Machine

/-! ### Retirement log -/

/-- The log has room (R357). -/
def Chip.retRoom (s : Chip) : Bool := decide (diff32 s.integ.producer (s.cfg Obj.retlogConsumer) < 4096)

/-- Place an entry in the ring. -/
def Chip.retPlace (s : Chip) (e : RetEnt) : Chip :=
  { s with integ := { s.integ with
    ring := Tab.set s.integ.ring (s.integ.producer % 4096) { e with seq := s.integ.producer }
    producer := wrap32 (s.integ.producer + 1) } }

/-- Append to the retirement log: dropped when full; the first append after a loss is LOG_LOST (R357). -/
def Chip.retAppend (s : Chip) (e : RetEnt) : Chip :=
  let drop := fun (s : Chip) =>
    { s with integ := { s.integ with lost := s.integ.lost + 1, lostSince := s.integ.lostSince + 1 } }
  if !s.retRoom then drop s
  else
    let s := if 0 < s.integ.lostSince then
        let n := min s.integ.lostSince 65535
        let s := ({ s with integ := { s.integ with lostSince := 0 } } : Chip)
        s.retPlace ⟨0, 12, 0, 0, 4, 0, s.tcRec, 0, 0, 0xFF, n⟩
      else s
    if s.retRoom then s.retPlace e else drop s

/-- An entry with the present TC. -/
def Chip.retEntry (s : Chip) (kind tier ch origin symbols retire page device count : Nat) : Chip :=
  s.retAppend ⟨0, kind, tier, ch, origin, symbols, s.tcRec, retire, page, device, count⟩

/-- A parity error in data with no other copy (R336, R355) is counted, logged and raised. -/
def Chip.parityLost (s : Chip) (page master dla : Nat) : Chip :=
  let s := { s with integ := { s.integ with parityDirty := s.integ.parityDirty + 1 } }
  (s.retEntry 9 0 0 4 0 0 page 0xFF 0).raise 129 master dla

/-! ### Counts -/

/-- Count one more against key `k` of a list kept most recent first, of at most `n` (R354). -/
def bumpCount (l : List (Nat × Nat)) (k n : Nat) : Nat × List (Nat × Nat) :=
  let c := min 65535 (((l.find? (fun e => decide (e.1 = k))).map (·.2)).getD 0 + 1)
  (c, ((k, c) :: l.filter (fun e => decide (e.1 ≠ k))).take n)

/-- A count that reaches its threshold or a further multiple of it adds an entry (R355). -/
def Chip.atThreshold (s : Chip) (c thr kind tier ch origin symbols retire page device : Nat) : Chip :=
  if c % thr = 0 ∧ 0 < c then s.retEntry kind tier ch origin symbols retire page device c else s

/-- A correction counted against its page, bank or block, and DDR5 device (R354, R355). -/
def Chip.countCE (s : Chip) (t : PgState) (ch page loc line origin symbols device : Nat) : Chip :=
  let sector := loc + line
  let tc := t.code
  let hch := bitsOf sector 1 3
  let logCh := if t = .hbm then hch else ch
  let (c, l) := bumpCount s.integ.pageCnt (((tc * 8 + ch) * 2 ^ 35 + loc) * 2) 8192
  let s := { s with integ := { s.integ with pageCnt := l } }
  let unit := match t with | .ddr => s.ddrUnit ch 1 loc | .nvm => nvmUnit ch 1 loc | _ => 0
  let dev := if t = .ddr then device else 0xFF
  let s := s.atThreshold c (s.cfg Obj.retlogPageThreshold) 1 tc logCh origin symbols unit page dev
  match t with
  | .nvm =>
    let (c, l) := bumpCount s.integ.pageCnt (((tc * 8 + ch) * 2 ^ 35 + sector / 32768) * 2 + 1) 8192
    let s := { s with integ := { s.integ with pageCnt := l } }
    s.atThreshold c (s.cfg Obj.retlogBankThreshold) 2 tc ch origin symbols (nvmUnit ch 2 sector) page dev
  | .ddr =>
    let bank := s.ddrUnit ch 2 sector
    let bk := min 65535 (Tab.get 0 s.integ.bankCnt bank + 1)
    let rank := s.ddrUnit ch 3 sector
    let dk := rank * 16 + device
    let dc := min 65535 (Tab.get 0 s.integ.devCnt dk + 1)
    let x := s.ddr ch
    let ce := Tab.upd 0 x.ce (10 * bitsOf sector 0 1 + device) (fun v => min 255 (v + 1))
    let s := (({ s with integ := { s.integ with
      bankCnt := Tab.put 0 s.integ.bankCnt bank bk, devCnt := Tab.put 0 s.integ.devCnt dk dc } } : Chip)).setDdr ch { x with ce := ce }
    let s := s.atThreshold bk (s.cfg Obj.retlogBankThreshold) 2 tc ch origin symbols bank page dev
    s.atThreshold dc (s.cfg Obj.retlogDeviceThreshold) 3 tc ch origin symbols rank page dev
  | _ =>
    let bank := 1 + bitsOf sector 0 8 * 16
    let bk := min 65535 (Tab.get 0 s.integ.bankCnt bank + 1)
    let s := ({ s with integ := { s.integ with bankCnt := Tab.put 0 s.integ.bankCnt bank bk } } : Chip)
    s.atThreshold bk (s.cfg Obj.retlogBankThreshold) 2 tc hch origin symbols 0 page dev

/-- Queue an HBM or DDR5 line for repair: 1,024 lines per tier (R341). -/
def Chip.queueRepair (s : Chip) (t : PgState) (line : Nat) : Chip :=
  let q := if t = .hbm then s.integ.repairHbm else s.integ.repairDdr
  if q.contains line then s
  else if q.length < 1024 then
    if t = .hbm then { s with integ := { s.integ with repairHbm := q ++ [line] } }
    else { s with integ := { s.integ with repairDdr := q ++ [line] } }
  else { s with integ := { s.integ with repairDropped := s.integ.repairDropped + 1 } }

/-! ### DDR5 freeze (R281 to R283) -/

/-- DDR5 channel `n` is frozen. -/
def Chip.frozen (s : Chip) (n : Nat) : Bool := decide ((s.ddr n).freeze = 1)

/-- ddr.frozen_channels. -/
def Chip.frozenMask (s : Chip) : Nat :=
  (List.range 8).foldl (fun a n => if s.frozen n then a + 2 ^ n else a) 0

/-- The mirror partner of a channel, unless one of the pair carries it alone (R277, R284). -/
def Chip.partner (s : Chip) (n : Nat) : Option Nat :=
  if bitOf (s.cfg Obj.ddrMirrorPairs) (n / 2) && !bitOf s.dram.alone (n / 2) then some (if n % 2 = 0 then n + 1 else n - 1)
  else none

/-- The channels that hold what page records place on channel `n`: both of a mirrored pair, the one that carries it alone, or the channel
itself (R277, R284). -/
def Chip.copies (s : Chip) (n : Nat) : List Nat :=
  if bitOf (s.cfg Obj.ddrMirrorPairs) (n / 2) then
    let pair := [n / 2 * 2, n / 2 * 2 + 1]
    if bitOf s.dram.alone (n / 2) then pair.filter (fun k => decide ((s.ddr k).freeze ≠ 2)) else pair
  else [n]

/-- What page records place on channel `n` is out of reach: every channel that holds it is frozen (R280, R285). -/
def Chip.stopped (s : Chip) (n : Nat) : Bool := (s.copies n).all s.frozen

/-- DIAGNOSIS while any channel is frozen, SERVICE again when none is (R527, R528). -/
def Chip.refreshDiagnosis (s : Chip) : Chip :=
  if s.mode.current = .service ∧ s.frozenMask ≠ 0 then { s with mode := { s.mode with current := .diagnosis } }
  else if s.mode.current = .diagnosis ∧ s.frozenMask = 0 then { s with mode := { s.mode with current := .service } }
  else s

/-- The snapshot of a freeze (R282): what the spec states of it, with the failing command's own fields free (log entry 8). -/
def Chip.snapshotBytes (s : Chip) (n cause sector : Nat) : List Byte × Chip :=
  let (a, s) := s.takeNat
  let (b, s) := s.takeNat
  let flags := (if cause = 1 then 1 else 0) + (if 2 ≤ cause ∧ a % 2 = 1 then 2 else 0) + (if (s.partner n).isSome then 4 else 0)
  (bytesLE 1 cause ++ bytesLE 1 (bitsOf sector 0 1) ++ bytesLE 1 (bitsOf a 8 8) ++ bytesLE 1 flags ++ bytesLE 2 s.tb.epoch
    ++ [0, 0] ++ bytesLE 8 s.tcRec ++ bytesLE 8 sector ++ bytesLE 6 (a / 65536) ++ [0, 0] ++ bytesLE 32 (a / 2 ^ 64)
    ++ (List.range 20).map (fun i => BitVec.ofNat 8 (Tab.get 0 (s.ddr n).ce i)) ++ bytesLE 12 0 ++ bytesLE 160 b, s)

/-- A DDR5 channel freezes (R281): a channel already frozen counts a repeat. A helper command on it is aborted (R289), and a
migration with a side that it puts out of reach pauses (R158; log entry 162). -/
def Chip.freeze (s : Chip) (n cause sector : Nat) : Chip :=
  let x := s.ddr n
  if x.freeze = 1 then s.setDdr n { x with freezes := x.freezes + 1 }
  else
    let (snap, s) := s.snapshotBytes n cause sector
    let s := s.setDdr n { x with freeze := 1, cause := cause, limit := false, snapshot := snap, freezes := x.freezes + 1 }
    let s := if s.dram.helper.status = 1 ∧ bitsOf s.dram.helper.cmd 8 3 = n then
        { s with dram := { s.dram with helper := { s.dram.helper with status := 3 } } } else s
    let hits := fun (r : PageRec) => decide (r.st = .ddr) && (s.copies r.ch).contains n && s.stopped r.ch
    let slots := s.lauter.slots.map (fun (i, m) => (i, if hits m.src || hits m.dst then { m with paused := true } else m))
    (({ s with lauter := { s.lauter with slots := slots } } : Chip).raise 96).refreshDiagnosis

/-- A line joins the poison list of a channel, whose 4,096 places once full give way to the page's POISONED state (R283). -/
def Chip.poisonListAdd (s : Chip) (n dla : Nat) : Chip :=
  let x := s.ddr n
  if x.poisonList.contains (lineBase dla) then s
  else if x.poisonList.length < 4096 then s.setDdr n { x with poisonList := x.poisonList ++ [lineBase dla] }
  else s.commitPage (pageNo dla) { s.page (pageNo dla) with st := .poisoned }

end Sys2Proof.Machine
end

