-- ==== Sys2Proof/Machine/Blocks.lean ====
section
/-!
DEFINITION. Machine/Blocks.lean: the blocks of the non-volatile media, their wear, and where pages are placed in them (R292 to R294, R299,
R307, R308, R331).
-/
namespace Sys2Proof.Machine

/-! ### Blocks (R293, R294, R299, R308, R331) -/

/-- The record of block `b` of a channel. -/
def Chip.blk (s : Chip) (ch b : Nat) : Blk := Tab.get {} s.kiln.blocks (ch * 2 ^ 20 + b)

/-- The record of a block takes a value. -/
def Chip.setBlk (s : Chip) (ch b : Nat) (x : Blk) : Chip :=
  { s with kiln := { s.kiln with blocks := Tab.put {} s.kiln.blocks (ch * 2 ^ 20 + b) x } }

/-- The wear of a block (R300). -/
def Blk.wear (x : Blk) : Nat := x.lines / 32768

/-- A page record lies in block `b` of a channel. -/
def PageRec.inBlock (r : PageRec) (ch b : Nat) : Bool := decide (r.st = .nvm ∧ r.ch = ch ∧ r.loc ≠ pendingLoc ∧ r.loc / 32768 = b)

/-- The pages that a block holds. -/
def Chip.blockPages (s : Chip) (ch b : Nat) : List Nat :=
  (s.map.pages.filter (fun e => (s.srcRec e.1).inBlock ch b)).map (·.1)

/-- Live lines of a block. -/
def Chip.blockLive (s : Chip) (ch b : Nat) : Nat :=
  (s.blockPages ch b).foldl (fun a p => a + s.unitLines p ((s.srcRec p).grist, (s.srcRec p).sectors)) 0

/-- The journal entry numbered `q` has not been written to the zone's ring yet (R309 step 7). -/
def Chip.unwritten (s : Chip) (q : Nat) : Bool := (s.lauter.journal ++ s.lauter.backlog).any (fun e => decide (e.seq = q))

/-- The old places that are not free yet (R309 step 7). -/
def Chip.pruneOlds (s : Chip) : Chip :=
  { s with kiln := { s.kiln with olds := s.kiln.olds.filter (fun o => s.unwritten o.seq) } }

/-- Something is kept in the block: a page, a program's target, or an old place that is not free. -/
def Chip.blockUsed (s : Chip) (ch b : Nat) : Bool :=
  (s.blockPages ch b ≠ []) || s.kiln.progs.any (fun e => decide (e.2.ch = ch ∧ e.2.loc / 32768 = b))
    || s.kiln.olds.any (fun o => o.old.inBlock ch b && s.unwritten o.seq)

/-- Block 0 of bank 0 of a package is the system block (R294). -/
def systemBlock (b : Nat) : Bool := decide (b % 524288 = 0)

/-- The media has the block (R292). -/
def Chip.hasBlock (s : Chip) (ch b : Nat) : Bool :=
  decide (b / 524288 < (s.nvm ch).roots.length ∧ b % 32768 < nvmBankBlocks (s.nvm ch).gib)

/-- Software retired the block, or its wear has reached its rating (R312, R331). -/
def Chip.blockRetired (s : Chip) (ch b : Nat) : Bool :=
  s.lauter.excluded.contains (nvmUnit ch 2 (32768 * b)) || decide (s.cfg Obj.kilnEnduranceCycles ≤ (s.blk ch b).wear)

/-- The block may be opened (R307, R308). -/
def Chip.blockFree (s : Chip) (ch b : Nat) : Bool :=
  let x := s.blk ch b
  s.hasBlock ch b && !systemBlock b && !x.opened && !x.suspect && !s.blockRetired ch b && !s.blockUsed ch b

/-- The bank's open block. -/
def Chip.openBlock (s : Chip) (ch bank : Nat) : Option Nat :=
  (List.range (nvmBankBlocks (s.nvm ch).gib)).map (fun i => 32768 * bank + i) |>.find? (fun b => (s.blk ch b).opened)

/-- A unit of `n` lines may be placed at `loc` (R308): next in its bank's open block; or at the start of a new one, the free block of
the bank with the lowest wear, once the open block has no room. No unit crosses a block or a witness line. -/
def Chip.placeOk (s : Chip) (ch loc n : Nat) : Bool :=
  let b := loc / 32768
  let bank := b / 32768
  let x := s.blk ch b
  let page := fun (u : Nat) => decide (loc ≤ u ∧ u < loc + n)
  decide (loc % 32768 + n ≤ 32760) && !s.lauter.excluded.any (fun v =>
      decide (bitsOf v 0 4 = 3 ∧ bitsOf v 4 4 = ch ∧ bitsOf v 8 4 = 1) && page (bitsOf v 12 35))
    && (if x.opened then decide (loc % 32768 = x.next)
        else decide (loc % 32768 = 0) && s.blockFree ch b
          && (match s.openBlock ch bank with | some o => decide (32760 < (s.blk ch o).next + n) | none => true)
          && (List.range (nvmBankBlocks (s.nvm ch).gib)).all (fun i =>
               let k := 32768 * bank + i
               decide (x.wear ≤ (s.blk ch k).wear) || !s.blockFree ch k))

/-- Lines are programmed in a block; "NVM wear" as its life used passes the mark (R331). -/
def Chip.addWear (s : Chip) (ch b n : Nat) : Chip :=
  let x := s.blk ch b
  let mark := s.cfg Obj.kilnEnduranceCycles * s.cfg Obj.kilnWearWarnPct
  let y := { x with lines := x.lines + n }
  let s := s.setBlk ch b y
  if 100 * x.wear < mark ∧ mark ≤ 100 * y.wear then s.raise 107 else s

/-- Close a block. -/
def Chip.closeBlk (s : Chip) (ch b : Nat) : Chip := s.setBlk ch b { s.blk ch b with opened := false, next := 0 }

/-- A unit of `n` lines takes its place; opening a block programs its witness lines and starts its age (R294, R300, R308). -/
def Chip.placeUnit (s : Chip) (ch loc n : Nat) : Chip :=
  let b := loc / 32768
  let s := if (s.blk ch b).opened then s
    else
      let s := match s.openBlock ch (b / 32768) with | some o => s.closeBlk ch o | none => s
      (s.setBlk ch b { s.blk ch b with opened := true, age := 0, moved := 0, rewrite := false }).addWear ch b 8
  (s.setBlk ch b { s.blk ch b with next := loc % 32768 + n }).addWear ch b n

end Sys2Proof.Machine
end

