-- ==== Sys2Proof/Machine/Grist.lean ====
section
/-!
DEFINITION. Machine/Grist.lean: the grist format (R181 to R189), as pure functions of a page's stored plaintext bytes: the header, the
restart entries, the conditions of an intact page, the token decoder, and the building of a page from the encoder's choices.
-/
namespace Sys2Proof.Machine

/-! ### The header (R181 to R183) -/

/-- Header sectors of a page (R181). -/
def gristH (isSealed : Bool) : Nat := if isSealed then 3 else 1

/-- The header's version (R182). -/
def gristVersion (g : List Byte) : Nat := bitsOf (fieldLE g 0 1) 0 4
/-- The header's SEALED bit (R182). -/
def gristSealed (g : List Byte) : Bool := bitOf (fieldLE g 0 1) 4
/-- The header's count of sectors, minus one (R182). -/
def gristNm1 (g : List Byte) : Nat := fieldLE g 1 1
/-- The header's count of bytes in use (R182). -/
def gristBytes (g : List Byte) : Nat := fieldLE g 2 2
/-- Restart entry of segment `k` (R182, R183). -/
def gristEntry (g : List Byte) (k : Nat) : Nat := fieldLE g (4 + 2 * k) 2
/-- The fill word (R182). -/
def gristFill (g : List Byte) : Nat := fieldLE g 0x24 8
/-- The poison field: a bit per line (R182). -/
def gristPoison (g : List Byte) : Nat := fieldLE g 0x2C 8

/-- The kinds of a segment (R183). -/
inductive SegKind where
  | stream | zero | fill | reserved
  deriving DecidableEq, Repr

/-- The kind of segment `k` (R183). -/
def gristKind (g : List Byte) (k : Nat) : SegKind :=
  match bitsOf (gristEntry g k) 12 2 with
  | 0 => .stream | 1 => .zero | 2 => .fill | _ => .reserved

/-- The offset of segment `k`'s stream (R183). -/
def gristOffset (g : List Byte) (k : Nat) : Nat := bitsOf (gristEntry g k) 0 12

/-- The offsets of the STREAM entries. -/
def gristStreams (g : List Byte) : List Nat :=
  ((List.range 16).filter (fun k => decide (gristKind g k = .stream))).map (gristOffset g)

/-- Where a stream that starts at `off` ends (R183): at the next greater offset, or at data_bytes. -/
def gristEnd (g : List Byte) (off : Nat) : Nat :=
  ((gristStreams g).filter (fun o => decide (off < o))).foldl min (gristBytes g)

/-- The page is intact (R185): `n` sectors by its record, in a region that is sealed or not. -/
def gristIntact (g : List Byte) (n : Nat) (isSealed : Bool) : Bool :=
  let h := 64 * gristH isSealed
  let d := gristBytes g
  decide (gristVersion g = 1)
    && decide (fieldLE g 0x3E 2 = crcBytes (g.take 0x3E))
    && decide (gristNm1 g + 1 = n)
    && (gristSealed g == isSealed)
    && decide (h ≤ d ∧ d ≤ 64 * n ∧ 64 * (n - 1) < d)
    && (gristStreams g).all (fun o => decide (h ≤ o ∧ o + 1 ≤ d))
    && (List.range 16).all (fun k => decide (gristKind g k ≠ .reserved ∧ bitsOf (gristEntry g k) 14 2 = 0))
    && (gristStreams g).all (fun o => decide (gristEnd g o - o ≤ 272))

/-! ### Tokens (R186 to R188) -/

/-- COPY and COPYL (R187): `m` bytes, each the one `d` before it. -/
def copyBytes (out : List Byte) (d : Nat) : Nat → List Byte
  | 0 => out
  | m + 1 => copyBytes (out ++ [out.getD (out.length - d) 0]) d m

/-- The entries of a SPARSE token (R187), whose offsets must ascend: the bytes it puts out beyond `out`, of which `done` are out. -/
def sparseBytes : Nat → List Byte → List Byte → Nat → Option (List Byte × List Byte)
  | 0, r, out, _ => some (out, r)
  | k + 1, o :: v :: r, out, done =>
    if o.toNat < done then none
    else sparseBytes k r (out ++ List.replicate (o.toNat - done) 0 ++ [v]) (o.toNat + 1)
  | _ + 1, _, _, _ => none

/-- One token (R186): the output with what it adds, and the rest of the stream; none: a decode error. -/
def gristToken (out : List Byte) : List Byte → Option (List Byte × List Byte)
  | [] => none
  | c :: r =>
    let op := c.toNat
    if op < 0x40 then some (out ++ List.replicate (op + 1) 0, r)
    else if op < 0x80 then
      let m := op - 0x3F
      if r.length < m then none else some (out ++ r.take m, r.drop m)
    else if op < 0xC0 then
      match r with
      | d :: r => if d.toNat = 0 ∨ out.length < d.toNat then none else some (copyBytes out d.toNat (op - 0x7F), r)
      | [] => none
    else if op < 0xE0 then sparseBytes (op - 0xBF) r out 0
    else if op = 0xE0 then
      match r with
      | m :: d :: r => if d.toNat = 0 ∨ out.length < d.toNat then none else some (copyBytes out d.toNat (m.toNat + 1), r)
      | _ => none
    else if op = 0xFF then some (out ++ List.replicate (256 - out.length) 0, r)
    else none

/-- A stream decoded (R187): the 256 bytes of its segment, or none where it breaks the rules (R188). -/
def gristTokens : Nat → List Byte → List Byte → Option (List Byte)
  | 0, _, _ => none
  | n + 1, bs, out =>
    if out.length = 256 then (if bs = [] then some out else none)
    else match gristToken out bs with
      | some (out, r) => if 256 < out.length then none else gristTokens n r out
      | none => none

/-- The bytes of a stream that decodes: every token puts out a byte at least. -/
def decodeStream (bs : List Byte) : Option (List Byte) := gristTokens 257 bs []

/-- Segment `k` of a page, decoded (R183, R187, R189). -/
def gristSegment (g : List Byte) (k : Nat) : Option (List Byte) :=
  match gristKind g k with
  | .zero => some (List.replicate 256 0)
  | .fill => some ((List.replicate 32 (bytesLE 8 (gristFill g))).flatten)
  | .stream => let o := gristOffset g k; decodeStream ((g.drop o).take (gristEnd g o - o))
  | .reserved => none

/-- The four lines of a decoded segment (R189). -/
def segLines (b : List Byte) : List Line := (List.range 4).map (fun i => lineOf (b.drop (64 * i)))

/-- The sectors that a read of segment `k` fetches from DDR5 (R190): the header, the MAC sector of a sealed page, the stream's. -/
def gristFetch (g : List Byte) (isSealed : Bool) (k : Nat) : List Nat :=
  let o := gristOffset g k
  let e := gristEnd g o
  0 :: (if isSealed then [1 + k / 8] else [])
    ++ (if gristKind g k = .stream then (List.range 64).filter (fun j => decide (o / 64 ≤ j ∧ j ≤ (e - 1) / 64)) else [])

/-- The MAC slot of segment `k` (R184). -/
def gristMac (g : List Byte) (k : Nat) : BitVec 64 := BitVec.ofNat 64 (fieldLE g (64 * (1 + k / 8) + 8 * (k % 8)) 8)

/-! ### Building a page -/

/-- The first 62 bytes of a header (R182), of `d` bytes in use. -/
def gristHead (p : GristPlan) (isSealed : Bool) (d poison : Nat) : List Byte :=
  let h := 64 * gristH isSealed
  bytesLE 1 (1 + 16 * isSealed.toNat) ++ bytesLE 1 (ceilDiv d 64 - 1) ++ bytesLE 2 d
    ++ (List.range 16).flatMap (fun k =>
      let e := (p.entries.getD k 0x1000).toNat
      bytesLE 2 (if bitsOf e 12 2 = 0 then e + h else e))
    ++ bytesLE 8 p.fill.toNat ++ bytesLE 8 poison ++ bytesLE 10 0

/-- A grist page (R181): the header with its CRC, the MACs of a sealed page, the streams, and zeros to a whole sector. -/
def gristBuild (p : GristPlan) (isSealed : Bool) (poison : Nat) (macs : List (BitVec 64)) : List Byte :=
  let d := 64 * gristH isSealed + p.streams.length
  let b := gristHead p isSealed d poison
  b ++ bytesLE 2 (crcBytes b) ++ (if isSealed then macs.flatMap (fun m => bytesLE 8 m.toNat) else []) ++ p.streams
    ++ bytesLE (64 * ceilDiv d 64 - d) 0

/-- Sectors of a built page. -/
def gristSectors (g : List Byte) : Nat := g.length / 64

/-- The page is intact and every segment decodes to the plaintext it was built from (R185, R187). -/
def gristHolds (g : List Byte) (isSealed : Bool) (ls : List Line) : Bool :=
  gristIntact g (gristSectors g) isSealed
    && (List.range 16).all (fun k => match gristSegment g k with
      | some b => decide (segLines b = (ls.drop (4 * k)).take 4)
      | none => false)

end Sys2Proof.Machine
end

