-- ==== Sys2Proof/Machine/Husk.lean ====
section
/-!
DEFINITION. Machine/Husk.lean: the memory cipher's transforms and MACs (R202 to R208), as unbound masters meet them (R225), and the
stored form of grist (R177, R181, R184). AES itself is a constant of Config.
-/
namespace Sys2Proof.Machine

/-- The tweak value of a unit (R205): form in bits [41:40], block in bits [97:96]. -/
def tweak (form unit block : Nat) : BitVec 128 := BitVec.ofNat 128 (unit % 2 ^ 40 + form * 2 ^ 40 + block * 2 ^ 96)

/-- Block `b` of a line. -/
def lineBlock (l : Line) (b : Nat) : BitVec 128 := l.extractLsb' (128 * b) 128

/-- A line of its four blocks. -/
def lineOfBlocks (f : Nat → BitVec 128) : Line := f 3 ++ f 2 ++ f 1 ++ f 0

/-- The scramble (R206): its own inverse. -/
def scramble (key : BitVec 256) (form unit : Nat) (l : Line) : Line :=
  lineOfBlocks (fun b => lineBlock l b ^^^ Config.aes256 key (tweak form unit b))

/-- Multiplication by alpha in GF(2^128), as IEEE 1619 multiplies tweaks. -/
def mulAlpha (t : BitVec 128) : BitVec 128 := (t <<< 1) ^^^ (if t.getLsbD 127 then 0x87 else 0)

/-- The tweak of block `b` of a data unit (R207). -/
def xtsTweak (key : BitVec 256) (form unit : Nat) : Nat → BitVec 128
  | 0 => Config.aes256 key (tweak form unit 0)
  | b + 1 => mulAlpha (xtsTweak key form unit b)

/-- XTS encryption of a line (R207). -/
def xtsEnc (ka kb : BitVec 256) (form unit : Nat) (l : Line) : Line :=
  lineOfBlocks (fun b =>
    let t := xtsTweak kb form unit b
    Config.aes256 ka (lineBlock l b ^^^ t) ^^^ t)

/-- XTS decryption of a line (R207). -/
def xtsDec (ka kb : BitVec 256) (form unit : Nat) (l : Line) : Line :=
  lineOfBlocks (fun b =>
    let t := xtsTweak kb form unit b
    Config.aes256Inv ka (lineBlock l b ^^^ t) ^^^ t)

/-- The HBM scramble key as drawn for this power-up (R203): random, so free. -/
def Chip.hbmDrawn (s : Chip) : BitVec 256 :=
  if s.husk.entropyFailed then Config.hbmFallback s.sb.powerups else BitVec.ofNat 256 (Config.freeNat s.husk.hbmKey)

/-- What two of the three copies of the HBM key agree on, as it differs from the key drawn, and whether the third is to be rewritten (R204);
none: all three disagree. -/
def HuskUnit.hbmVote (x : HuskUnit) : Option (BitVec 256 × Bool) :=
  let a := Tab.get 0 x.hbmOff 0
  let b := Tab.get 0 x.hbmOff 1
  let c := Tab.get 0 x.hbmOff 2
  if a = b then some (a, decide (c ≠ a)) else if a = c then some (a, true) else if b = c then some (b, true) else none

/-- The HBM scramble key in use (R203, R204). -/
def Chip.hbmKey (s : Chip) : BitVec 256 := s.hbmDrawn ^^^ ((s.husk.hbmVote.map (·.1)).getD 0)

/-- The three copies of the HBM key are compared at a use (R204): one that disagrees is rewritten and counted; three that disagree leave no
key, a FAULT (R220). -/
def Chip.useHbmKey (s : Chip) : Bool × Chip :=
  match s.husk.hbmVote with
  | some (_, false) => (true, s)
  | some (k, true) =>
    (true, { s with husk := { s.husk with
      hbmOff := if k = 0 then [] else [(0, k), (1, k), (2, k)], vaultErrors := s.husk.vaultErrors + 1 } })
  | none => (false, s.raise 83)

/-- A line is stored in HBM under the key (R203); without one it is stored as poisoned (R204, R220). -/
def Chip.storeHbm (s : Chip) (ln : Nat) : Chip :=
  match s.useHbmKey with
  | (true, s) => s
  | (false, s) => s.setPoison (64 * ln) true

/-- The stored form of a 64-byte unit of `form` under a region's mode and a cask's keys (R205 to R207). -/
def huskUnit (mode : Nat) (k : KeySet) (form unit : Nat) (l : Line) : Line :=
  if mode = 0 then scramble k.e form unit l else xtsEnc k.a k.b form unit l

/-- The stored form of a plain line under a region's mode and a cask's keys. -/
def huskOut (mode : Nat) (k : KeySet) (dla : Nat) (l : Line) : Line := huskUnit mode k 0 (dla / 64) l

/-- The plaintext of a plain line's stored form. -/
def huskIn (mode : Nat) (k : KeySet) (dla : Nat) (l : Line) : Line :=
  if mode = 0 then scramble k.e 0 (dla / 64) l else xtsDec k.a k.b 0 (dla / 64) l

/-! ### MACs (R184, R208) -/

/-- `z` times alpha to the `n` (R208). -/
def mulAlphas (z : BitVec 128) : Nat → BitVec 128
  | 0 => z
  | n + 1 => mulAlpha (mulAlphas z n)

/-- The MAC of a unit at DLA `a`: `kind` 0 a line, 1 a grist segment; `p` its 128-bit blocks (R208). -/
def huskMac (k : KeySet) (a kind : Nat) (p : List (BitVec 128)) : BitVec 64 :=
  let z := Config.aes256 k.c (BitVec.ofNat 128 (a % 2 ^ 46 + kind * 2 ^ 46))
  let s := (List.range p.length).foldl (fun s b => s ^^^ Config.aes256 k.c (p.getD b 0 ^^^ mulAlphas z (b + 1))) 0
  (Config.aes256 k.d (s ^^^ z)).extractLsb' 0 64

/-- The four blocks of a line. -/
def lineBlocks (l : Line) : List (BitVec 128) := (List.range 4).map (lineBlock l)

/-- The MAC of a line (R208). -/
def lineMac (k : KeySet) (dla : Nat) (l : Line) : BitVec 64 := huskMac k dla 0 (lineBlocks l)

/-- The MAC of segment `g` of page `p`, of its four lines (R184, R208). -/
def segMac (k : KeySet) (p g : Nat) (ls : List Line) : BitVec 64 := huskMac k (4096 * p + 256 * g) 1 (ls.flatMap lineBlocks)

/-- MAC sector `k` of a sealed frame, of the MACs of lines 8k to 8k + 7, as it is stored (R205, R208, R209): a unit of form 2. -/
def macSector (ks : KeySet) (p k : Nat) (ls : List Line) : Line :=
  let macs := (List.range 8).flatMap (fun i => bytesLE 8 (lineMac ks (4096 * p + 64 * (8 * k + i)) (ls.getD i 0)).toNat)
  xtsEnc ks.a ks.b 2 (8 * p + k) (lineOf macs)

/-- The line at `dla` is absorbed in HBM (R322). -/
def Chip.isAbsorbed (s : Chip) (dla : Nat) : Bool :=
  match Tab.find s.kiln.absorbed (pageNo dla) with
  | some x => bitOf x.mask (lineNo dla % 64)
  | none => false

/-- The keys of the cask that owns an address. -/
def Chip.keysAt (s : Chip) (dla : Nat) : Option KeySet :=
  match s.extentOf dla with
  | some e => (s.cask e.cask).keys
  | none => none

/-! ### Grist pages as they are stored (R176 to R178, R181, R184) -/

/-- The stored grist of a page; none where it is stored plain. -/
def Chip.gristOf (s : Chip) (p : Nat) : List Byte := Tab.get [] s.mill.pages p

/-- The page's stored grist becomes `g`, or it is stored plain. -/
def Chip.setGrist (s : Chip) (p : Nat) (g : List Byte) : Chip := { s with mill := { s.mill with pages := Tab.put [] s.mill.pages p g } }

/-- The plaintext lines of a page. -/
def Chip.pageLines (s : Chip) (p : Nat) : List Line := (List.range 64).map (fun i => s.line (4096 * p + 64 * i))

/-- The lines of a page that carry poison, a bit each (R182). -/
def Chip.poisonBits (s : Chip) (p : Nat) : Nat :=
  (List.range 64).foldl (fun a i => if s.poisoned (4096 * p + 64 * i) then a + 2 ^ i else a) 0

/-- The MACs of a page's segments (R184). -/
def Chip.pageMacs (s : Chip) (p : Nat) : List (BitVec 64) :=
  (List.range 16).map (fun g => match s.keysAt (4096 * p) with
    | some k => segMac k p g (((s.pageLines p).drop (4 * g)).take 4)
    | none => 0)

/-- What Mill's encoder makes of a page now. -/
def Chip.encodePage (s : Chip) (p : Nat) : List Byte :=
  gristBuild (Config.gristPlan (s.pageLines p)) (s.sealedRegion p) (s.poisonBits p) (s.pageMacs p)

/-- The form in which Mill stores page `p` of region `r` now (R176 to R178): its grist where that holds the page and needs few enough
sectors; none: plain. -/
def Chip.storedGrist (s : Chip) (p r : Nat) : List Byte :=
  if !s.compressing r ∨ s.mode.current = .persist then []
  else
    let g := s.encodePage p
    if gristHolds g (s.sealedRegion p) (s.pageLines p) ∧ 1 ≤ gristSectors g ∧ gristSectors g ≤ s.cfgAt Obj.millRegionMaxSectors r
        ∧ gristSectors g ≤ 64 then g
    else []

/-- The grist and sectors fields of a stored form (R85). -/
def gristForm (g : List Byte) : Bool × Nat := if g = [] then (false, 63) else (true, gristSectors g - 1)

/-- What an unbound master reads of a written line (R225): the stored bytes. Those of absorbed lines, whose place in HBM the spec does not
fix, of a cask without keys, and behind the last sector of grist are free (log entry 9). -/
def Chip.storedLine (s : Chip) (dla : Nat) : Line × Chip :=
  let r := s.srcRec (pageNo dla)
  let l := s.line dla
  let n := lineNo dla % 64
  if s.isAbsorbed dla then s.takeLine
  else match r.st with
    | .hbm => (scramble s.hbmKey 3 (r.loc + n) l, s)
    | _ =>
      match s.keysAt dla with
      | some k =>
        let mode := s.regMode (s.accessRegion dla)
        let g := s.gristOf (pageNo dla)
        if !r.grist then (huskOut mode k dla l, s)
        else if n < gristSectors g then (huskUnit mode k 1 (dla / 64) (lineOf (g.drop (64 * n))), s)
        else s.takeLine
      | none => s.takeLine

/-- What bound masters read of a line after an unbound master has stored `l` there (R225). -/
def Chip.rawPlain (s : Chip) (dla : Nat) (l : Line) : Line × Chip :=
  let r := s.srcRec (pageNo dla)
  match r.st with
  | .hbm => (scramble s.hbmKey 3 (r.loc + lineNo dla % 64) l, s)
  | _ =>
    match s.keysAt dla with
    | some k => (huskIn (s.regMode (s.accessRegion dla)) k dla l, s)
    | none => s.takeLine

end Sys2Proof.Machine
end

