-- ==== Sys2Proof/Machine/Cache.lean ====
section
/-!
DEFINITION. Machine/Cache.lean: the on-die cache and its side buffer (R235 to R252), lines handed to their tiers (R238, R240,
R155, R321), and what a tier answers to a read (R276, R301 to R306, R340 to R342, R185 to R188, R212).
-/
namespace Sys2Proof.Machine

/-! ### Sets and ways -/

/-- The set of a line number (R235): DLA[21:6] XOR DLA[37:22]. -/
def cacheSet (ln : Nat) : Nat := bitsOf ln 0 16 ^^^ bitsOf ln 16 16

/-- The scratchpad units that the running operation converts, from and up to (R256): they and their ways are offline. -/
def Chip.unitsMoving (s : Chip) : Nat × Nat :=
  match s.win.running with
  | some o => (match o.kind with | .scratchWays _ n => (min s.cache.ways n, max s.cache.ways n) | _ => (0, 0))
  | none => (0, 0)

/-- Scratchpad unit `u`, or way 11 − `u`, is offline (R33, R256). -/
def Chip.unitOffline (s : Chip) (u : Nat) : Bool := decide (s.unitsMoving.1 ≤ u ∧ u < s.unitsMoving.2)

/-- The ways that are cache now: not scratchpad (R253), their CACHE domain ON (R257), and not being converted (R256). -/
def Chip.cacheWays (s : Chip) : List Nat :=
  (List.range (12 - s.cache.ways)).filter (fun w => decide (s.domain (28 + w / 4) = .on) && !s.unitOffline (11 - w))

/-- The line is in a cache way. -/
def Chip.cached (s : Chip) (dla : Nat) : Option CLine := Tab.find s.cache.lines (lineNo dla)

/-- The line is cached and dirty. -/
def Chip.cachedDirty (s : Chip) (dla : Nat) : Bool := match s.cached dla with | some c => c.dirty | none => false

/-- The MAC line of a data line: known by the first of the eight data lines it covers (R245). -/
def macOf (ln : Nat) : Nat := ln / 8 * 8

/-- The page is a plain page of a SEALED region on DDR5 (R245). -/
def Chip.sealedDdr (s : Chip) (p : Nat) : Bool :=
  let r := s.srcRec p
  decide (r.st = .ddr) && !r.grist && decide (s.regMode (s.accessRegion (4096 * p)) = 2)

/-- The line stands in a way that is offline (R33, R256). -/
def Chip.wayOffline (s : Chip) (dla : Nat) : Bool := match s.cached dla with | some c => s.unitOffline (11 - c.way) | none => false

/-- DDR5 channel `n` is offline for a frequency change (R287). -/
def Chip.ddrMoving (s : Chip) (n : Nat) : Bool :=
  match s.win.running with
  | some o => (match o.kind with | .ddrFreq mask _ => bitOf mask n | _ => false)
  | none => false

/-- DDR5 channel `n` itself serves nothing now: it is frozen, or offline for a frequency change (R283, R287). -/
def Chip.ddrAway (s : Chip) (n : Nat) : Bool := s.frozen n || s.ddrMoving n

/-- A DDR5 channel serves nothing now, and no mirror copy stands in (R280). -/
def Chip.ddrBlocked (s : Chip) (n : Nat) : Bool := (s.copies n).all s.ddrAway

/-- A DDR5 channel takes no write now: no copy of it serves, or one is offline for a frequency change, since a write goes to both (R279,
R280, R287). -/
def Chip.ddrShut (s : Chip) (n : Nat) : Bool := s.ddrBlocked n || (s.copies n).any s.ddrMoving

/-- Accesses that wait directly for a frozen channel end now: the freeze limit has passed (R283). -/
def Chip.freezeOver (s : Chip) (n : Nat) : Bool := (s.copies n).all (fun k => s.frozen k && (s.ddr k).limit)

/-- The 2 MiB granule of a DDR5 sector, as R280 marks it stale. -/
def granuleOf (sector : Nat) : Nat := sector / 32768

/-- The channels that can serve a read of a DDR5 sector: neither away nor stale there, while any is (R280). -/
def Chip.ddrServing (s : Chip) (n sector : Nat) : List Nat :=
  let up := (s.copies n).filter (fun k => !s.ddrAway k)
  let fresh := up.filter (fun k => !(s.ddr k).stale.contains (granuleOf sector))
  if fresh = [] then up else fresh

/-- The page's record is held by a swing (R156). -/
def Chip.held (s : Chip) (p : Nat) : Bool := match s.migOf p with | some (_, m) => decide (m.stage = .holding) | none => false

/-! ### The map cache (R86) -/

/-- The set of the map cache that a record stands in (R86; DESIGN CHOICE, log entry 154). -/
def mapSet (k : Nat) : Nat := k % 65536

/-- The records of a set of the map cache, most recently used first (R86). -/
def Chip.mapWays (s : Chip) (k : Nat) : List Nat := Tab.get [] s.map.cache (mapSet k)

/-- The map cache holds record `k` (R86). -/
def Chip.mapHolds (s : Chip) (k : Nat) : Bool := (s.mapWays k).contains k

/-- A first write to page `p` has locked its record and waits for room (R91, R165, R199, R262). -/
def Chip.pageLocked (s : Chip) (p : Nat) : Bool :=
  s.waits.any (fun w => (match w.why with | .mirror | .journal | .space => true | _ => false) && decide (pageNo w.acc.dla = p))

/-- Record `k` is locked by an allocation or a swing in progress (R86, R91, R156). -/
def Chip.recLocked (s : Chip) (k : Nat) : Bool := decide (k < 2 ^ 34) && (s.held k || s.pageLocked k)

/-- The record of a set that gives way: the least recently used that is not locked (R86). -/
def Chip.mapVictim (s : Chip) (ways : List Nat) : Option Nat := ways.reverse.find? (fun k => !s.recLocked k)

/-- Record `k` is used: it moves to the front of its set of 16 ways (R86); where every way is locked, it is not cached. -/
def Chip.mapTouch (s : Chip) (k : Nat) : Chip :=
  let ways := (s.mapWays k).filter (fun x => decide (x ≠ k))
  let put := fun (l : List Nat) => ({ s with map := { s.map with cache := Tab.put [] s.map.cache (mapSet k) l } } : Chip)
  if ways.length < 16 then put (k :: ways)
  else match s.mapVictim ways with
    | some v => put (k :: ways.filter (fun x => decide (x ≠ v)))
    | none => s

/-- The map cache drops record `k` (R88). -/
def Chip.mapDrop (s : Chip) (k : Nat) : Chip :=
  { s with map := { s.map with cache := Tab.put [] s.map.cache (mapSet k) ((s.mapWays k).filter (fun x => decide (x ≠ k))) } }

/-! ### Heavy lines (R241) -/

/-- A dirty line is heavy now (R241): its writeback cannot be handed to a controller at once. -/
def Chip.heavyNow (s : Chip) (ln : Nat) : Bool :=
  let p := ln / 64
  let r := s.srcRec p
  s.held p
  || !s.mapHolds p
  || s.map.repairing.contains p || s.map.repairing.contains (dirRecNo (p / 512))
  || (match r.st with
      | .ddr => r.grist || s.ddrShut r.ch || (s.sealedDdr p && (Tab.find s.cache.macLines (macOf ln)).isNone)
      | .nvm => !s.absorbRoom p (s.persistent (s.accessRegion (4096 * p)))
      | _ => false)

/-! ### Lines reaching their tier -/

/-- Keep what the medium holds of a line before it first changes (R325). -/
def Chip.saveMedia (s : Chip) (dla : Nat) : Chip :=
  let r := s.srcRec (pageNo dla)
  if r.st = .nvm ∧ r.loc ≠ pendingLoc ∧ (Tab.find s.kiln.media (lineNo dla)).isNone then
    { s with kiln := { s.kiln with
      media := Tab.set s.kiln.media (lineNo dla) (s.line dla)
      mediaPoison := Tab.put false s.kiln.mediaPoison (lineNo dla) (s.poisoned dla) } }
  else s

/-- A heat count of an access that reaches a tier (R149): 65,536 buffer entries, of which one is displaced to the spill queue of 4,096;
which one is free (log entry 11). An entry that finds the queue full drops every count it holds. -/
def Chip.heatCount (s : Chip) (p master : Nat) : Chip :=
  if 0x5F < master then s
  else
    match Tab.find s.lauter.heat p with
    | some v => { s with lauter := { s.lauter with heat := Tab.set s.lauter.heat p (min 255 (v + 1)) } }
    | none =>
      if s.lauter.heat.length < 65536 then { s with lauter := { s.lauter with heat := Tab.set s.lauter.heat p 1 } }
      else match s.lauter.heat[Config.freeNatAt p s.free % s.lauter.heat.length]? with
        | none => s
        | some e =>
          let l := { s.lauter with heat := Tab.set (Tab.del s.lauter.heat e.1) p 1 }
          if l.spill.length < 4096 then { s with lauter := { l with spill := l.spill ++ [e] } }
          else { s with lauter := { l with spillDropped := l.spillDropped + e.2 } }

/-- A change at the source of a migration sets its mask bit, or all of them for grist (R155). -/
def Chip.catchMask (s : Chip) (ln : Nat) : Chip :=
  match s.migOf (ln / 64) with
  | some (i, m) =>
    if m.stage = .swung then s
    else
      let mask := if m.src.grist then 2 ^ 64 - 1 else m.mask ||| 2 ^ (ln % 64)
      { s with lauter := { s.lauter with slots := Tab.set s.lauter.slots i { m with mask := mask } } }
  | none => s

/-- The keys that a line would be stored under are in FAULT (R220). -/
def Chip.keyFault (s : Chip) (ln : Nat) : Bool :=
  match s.extentOf (64 * ln) with | some e => decide ((s.cask e.cask).keyState = .fault) | none => false

/-- A line handed to its tier (R238, R240): absorbed in HBM where its page is on the non-volatile tier (R321), stored there under the HBM
key (R203), poisoned where the keys it would be stored under are in FAULT (R220), its granule marked stale on a frozen mirror channel
(R280), its MAC line dirty (R245), the catch mask set (R155). -/
def Chip.tierWrite (s : Chip) (ln : Nat) : Chip :=
  let p := ln / 64
  let r := s.srcRec p
  let s := s.catchMask ln
  match r.st with
  | .nvm =>
    let bit := ln % 64
    let x := (Tab.find s.kiln.absorbed p).getD ⟨0, s.kiln.clock, s.persistent (s.accessRegion (4096 * p)), s.tb.tc⟩
    let progs := s.kiln.progs.map (fun (i, g) => (i, if g.page = p then { g with changed := setBit g.changed bit true } else g))
    ({ s with kiln := { s.kiln with
      absorbed := Tab.set s.kiln.absorbed p { x with mask := setBit x.mask bit true }, clock := s.kiln.clock + 1, progs := progs } } : Chip)
      |>.storeHbm ln
  | .hbm => s.storeHbm ln
  | .ddr =>
    let s := if s.keyFault ln then s.setPoison (64 * ln) true else s
    let s := match s.partner r.ch with
      | some q =>
        let g := granuleOf (r.loc + ln % 64)
        let mark := fun (s : Chip) (n : Nat) =>
          let x := s.ddr n
          if x.freeze = 1 ∧ !x.stale.contains g then s.setDdr n { x with stale := x.stale ++ [g] } else s
        mark (mark s r.ch) q
      | none => s
    match Tab.find s.cache.macLines (macOf ln) with
    | some c => { s with cache := { s.cache with macLines := Tab.set s.cache.macLines (macOf ln) { c with dirty := true } } }
    | none => s
  | _ => s

/-- Why a line cannot be handed to its tier now (R156, R194, R263, R48, R283). -/
def Chip.tierWait (s : Chip) (dla : Nat) : Option WaitWhy :=
  let p := pageNo dla
  let r := s.srcRec p
  let persist := s.persistent (s.accessRegion dla)
  if s.held p then some .hold
  else if (Tab.find s.mill.expanding p).isSome then some .expansion
  else match r.st with
    | .nvm => if s.absorbRoom p persist then none else some (if persist then .reserve else .absorb)
    | .ddr => if s.ddrShut r.ch then some .frozen else if r.grist then some .expansion else none
    | _ => none

/-! ### Victims and fills (R242) -/

/-- Drop a line from its way. -/
def Chip.dropCached (s : Chip) (ln : Nat) : Chip :=
  { s with cache := { s.cache with lines := Tab.del s.cache.lines ln } }

/-- A line whose page has changed its generation since the line was dirtied translates again (R157, R246). -/
def Chip.retranslate (s : Chip) (ln gen : Nat) : Chip :=
  if gen = (s.page (ln / 64)).gen then s else (s.mapTouch (dirRecNo (ln / 64 / 512))).mapTouch (ln / 64)

/-- A dirty line leaves for its tier and stays, clean (R243, R244, R246). -/
def Chip.cleanLine (s : Chip) (ln : Nat) : Chip :=
  match Tab.find s.cache.lines ln with
  | some c =>
    if c.dirty then
      let s := (s.retranslate ln c.gen).tierWrite ln
      { s with cache := { s.cache with lines := Tab.set s.cache.lines ln { c with dirty := false, heavy := false } } }
    else s
  | none => s

/-- What holds a way of a set: a data line or a MAC line, with its key. -/
def Chip.wayOf (s : Chip) (set w : Nat) : Option (Bool × Nat × CLine) :=
  match s.cache.lines.find? (fun e => decide (cacheSet e.1 = set ∧ e.2.way = w)) with
  | some (k, c) => some (false, k, c)
  | none => (s.cache.macLines.find? (fun e => decide (cacheSet e.1 = set ∧ e.2.way = w))).map (fun (k, c) => (true, k, c))

/-- A way's line may be a victim: not heavy, and no MAC line of a dirty data line (R242, R245). -/
def Chip.eligible (s : Chip) (mac : Bool) (k : Nat) (c : CLine) : Bool :=
  if mac then (List.range 8).all (fun i => !s.cachedDirty (64 * (k + i)))
  else !c.dirty || !s.heavyNow k

/-- The older of two candidates. -/
def older (a b : Option (Nat × Bool × Nat × CLine)) : Option (Nat × Bool × Nat × CLine) :=
  match a, b with
  | some x, some y => if x.2.2.2.age < y.2.2.2.age then some y else some x
  | some x, none => some x
  | none, y => y

/-- Free a way of a set for a fill (R242): an empty way, or the victim's; none where no way is eligible. -/
def Chip.freeWay (s : Chip) (set : Nat) : Option (Nat × Chip) :=
  let ways := s.cacheWays
  match ways.find? (fun w => (s.wayOf set w).isNone) with
  | some w => some (w, s)
  | none =>
    let cands := ways.filterMap (fun w => match s.wayOf set w with
      | some (m, k, c) => if s.eligible m k c then some (w, m, k, c) else none
      | none => none)
    let clean := (cands.filter (fun c => !c.2.2.2.dirty)).foldl (fun a c => older a (some c)) none
    let dirty := (cands.filter (fun c => c.2.2.2.dirty)).foldl (fun a c => older a (some c)) none
    let pick := match clean, dirty with
      | some c, some d => if d.2.2.2.age ≤ c.2.2.2.age then some c else some d
      | some c, none => some c
      | none, d => d
    match pick with
    | none => none
    | some (w, m, k, c) =>
      if m then some (w, { s with cache := { s.cache with macLines := Tab.del s.cache.macLines k } })
      else some (w, (if c.dirty then s.cleanLine k else s).dropCached k)

/-- The other lines of a set grow older, by how much is free (R235; log entry 12). -/
def Chip.ageSet (s : Chip) (set : Nat) : Chip :=
  let age := fun (t : Tab CLine) =>
    t.map (fun (k, c) => (k, if cacheSet k = set then { c with age := max c.age (Config.freeNatAt k s.free % 16) } else c))
  { s with cache := { s.cache with lines := age s.cache.lines, macLines := age s.cache.macLines } }

/-- A line enters a way, or is touched there (R238, R242); none where no way is eligible. -/
def Chip.fill (s : Chip) (ln : Nat) : Option Chip :=
  match Tab.find s.cache.lines ln with
  | some c =>
    let s := s.ageSet (cacheSet ln)
    some { s with cache := { s.cache with lines := Tab.set s.cache.lines ln { c with age := 0 } } }
  | none =>
    match s.freeWay (cacheSet ln) with
    | none => none
    | some (w, s) =>
      let s := s.ageSet (cacheSet ln)
      some { s with cache := { s.cache with
        lines := Tab.set s.cache.lines ln { way := w }, side := s.cache.side.filter (fun l => decide (l ≠ ln)) } }

/-- The MAC sector of a line that becomes dirty enters a way as a MAC line (R245); its set is a DESIGN CHOICE (log entry 153). -/
def Chip.fetchMac (s : Chip) (ln : Nat) : Chip :=
  if s.sealedDdr (ln / 64) && (Tab.find s.cache.macLines (macOf ln)).isNone then
    match s.freeWay (cacheSet (macOf ln)) with
    | some (w, s) =>
      { s with cache := { s.cache with macLines := Tab.set s.cache.macLines (macOf ln) { way := w } } }
    | none => s
  else s

/-- A cached line becomes dirty under the translation of now (R241, R245, R246). -/
def Chip.makeDirty (s : Chip) (ln : Nat) : Chip :=
  let s := match Tab.find s.cache.lines ln with
    | some c =>
      { s with cache := { s.cache with lines := Tab.set s.cache.lines ln { c with
        dirty := true, gen := (s.page (ln / 64)).gen, tc := if c.dirty then c.tc else s.tb.tc } } }
    | none => s
  let s := s.fetchMac ln
  match Tab.find s.cache.lines ln with
  | some c => { s with cache := { s.cache with lines := Tab.set s.cache.lines ln { c with heavy := s.heavyNow ln } } }
  | none => s

/-! ### Side buffer (R247 to R250) -/

/-- A line of shared-coherent memory (R117, R248). -/
def Chip.sharedLine (s : Chip) (ln : Nat) : Bool :=
  match s.extentOf (64 * ln) with | some e => (s.caskDomain e.cask).isSome | none => false

/-- A prefetched line enters the side buffer: 16 ways per set of DLA[16:6], first in, first out (R247); never a poisoned, cached or
shared-coherent line (R248). -/
def Chip.sideAdd (s : Chip) (ln : Nat) : Chip :=
  if s.poisoned (64 * ln) || (Tab.find s.cache.lines ln).isSome || s.cache.side.contains ln || s.sharedLine ln then s
  else
    let same := s.cache.side.filter (fun k => decide (k % 2048 = ln % 2048))
    let s := if 16 ≤ same.length then
        match same with
        | k :: _ => { s with cache := { s.cache with side := s.cache.side.erase k, prefUnused := s.cache.prefUnused + 1 } }
        | [] => s
      else s
    { s with cache := { s.cache with side := s.cache.side ++ [ln] } }

/-- Drop every line of a range of line numbers, without writeback, from the ways and the side buffer (R251). -/
def Chip.dropLines (s : Chip) (lo n : Nat) : Chip :=
  let out := fun (k : Nat) => !decide (lo ≤ k ∧ k < lo + n)
  { s with cache := { s.cache with
    lines := s.cache.lines.filter (fun e => out e.1)
    macLines := s.cache.macLines.filter (fun e => out e.1)
    side := s.cache.side.filter out } }

/-- A demand of a master for a line, which missed or not, moves the stream trackers (R248): 64, the oldest first. Only misses start one. -/
def Chip.trackDemand (s : Chip) (master ln : Nat) (bind : Binding) (miss : Bool) : Chip :=
  let p := ln / 64
  let same := fun (t : Tracker) => decide (t.master = master ∧ t.page = p)
  if s.cfgAt Obj.cacheRegionPrefetch (s.accessRegion (64 * ln)) ≠ 1 then s
  else match s.cache.trackers.find? same with
    | some t =>
      let x := { t with last := ln, started := t.started || (miss && decide (ln = t.last + 1)), bind := bind }
      if miss || t.started then { s with cache := { s.cache with trackers := s.cache.trackers.filter (fun x => !same x) ++ [x] } } else s
    | none =>
      let ts := s.cache.trackers ++ [(⟨master, p, ln, false, bind⟩ : Tracker)]
      if miss then { s with cache := { s.cache with trackers := ts.drop (ts.length - 64) } } else s

/-! ### Reading a tier -/

/-- What a tier gives for a read. -/
inductive Got where
  | good
  | poison
  | macFail
  | frozen
  deriving DecidableEq, Repr

/-- Queue a line for rescue (R306). -/
def Chip.queueRescue (s : Chip) (ln : Nat) : Chip :=
  if s.kiln.rescue.contains ln then s else { s with kiln := { s.kiln with rescue := s.kiln.rescue ++ [ln] } }

/-- Queue a witness sweep of a block: 256 blocks (R314). -/
def Chip.queueWitness (s : Chip) (blk : Nat) : Chip :=
  if s.kiln.witness.contains blk then s
  else if s.kiln.witness.length < 256 then { s with kiln := { s.kiln with witness := s.kiln.witness ++ [blk] } }
  else { s with kiln := { s.kiln with witnessDropped := s.kiln.witnessDropped + 1 } }

/-- The number of a block over all channels. -/
def blkKey (ch loc : Nat) : Nat := ch * 2 ^ 20 + loc / 32768

/-- An HBM line, at sector `at'`, that decodes, or not (R340 to R342); without a key it is poison (R204, R220). -/
def Chip.readHbm (s : Chip) (ln at' : Nat) (o : CodeRes) (origin : Nat) : Got × Chip :=
  match s.useHbmKey with
  | (false, s) => (.poison, s)
  | (true, s) =>
  match o with
  | .ok => (.good, s)
  | .corrected n _ => (.good, (s.countCE .hbm 0 (ln / 64) (at' - ln % 64) (ln % 64) origin n 0xFF).queueRepair .hbm ln)
  | .uncorrectable true => (.good, s.queueRepair .hbm ln)
  | .uncorrectable false =>
    let s := s.setPoison (64 * ln) true
    let s := { s with integ := { s.integ with hbmUncorrectable := s.integ.hbmUncorrectable + 1 } }
    let s := s.retEntry 5 1 (bitsOf at' 1 3) origin 0 0 (ln / 64) 0xFF 0
    (.poison, s.raise 100 0xFF (64 * ln))

/-- A true uncorrectable error of a DDR5 line (R276, R281, R355): the channel freezes and the line joins its poison list. -/
def Chip.trueUe (s : Chip) (ln ch sector origin : Nat) : Chip :=
  let s := s.freeze ch 1 sector
  let s := s.poisonListAdd ch (64 * ln)
  s.retEntry 4 2 ch origin 0 (s.ddrUnit ch 3 sector) (ln / 64) 0xFF 0

/-- A re-read of a line on channel `n` decoded (R276). -/
def Chip.rereadOk (s : Chip) (n : Nat) : Chip := s.setDdr n { s.ddr n with rereadsOk := (s.ddr n).rereadsOk + 1 }

/-- A DDR5 line at sector `i` of its page's place (R276, R279, R280, R283). The read goes to a copy that serves, the second where it holds
fewer reads; an uncorrectable line takes the other copy's data meanwhile. `late` of the observation says that no recovery action fits
before the bound of R32. -/
def Chip.readDdr (s : Chip) (ln ch loc i : Nat) (o : Obs) (origin : Nat) : Got × Chip :=
  if s.ddrBlocked ch then (if s.freezeOver ch then .poison else .frozen, s)
  else
    let serving := s.ddrServing ch (loc + i)
    let c := if o.second then serving.getLastD ch else serving.headD ch
    match o.code with
    | .ok => (.good, s)
    | .corrected n d => (.good, (s.countCE .ddr c (ln / 64) loc i origin n d.val).queueRepair .ddr ln)
    | .uncorrectable again =>
      if 1 < serving.length then (.good, if again then s.rereadOk c else s.freeze c 1 (loc + i))
      else if again then (if s.inBurst && o.late then .poison else .good, s.rereadOk c)
      else (.poison, s.trueUe ln c (loc + i) origin)

/-- What a media answer adds to kiln.chan.bus_errors (R301, R332): each byte that fails parity; an answer of a package that cannot serve the
read is one protocol error. -/
def Chip.busCount (s : Chip) (ch : Nat) (b : BusRes) : Chip :=
  match b with
  | .bytesLost 0 => s
  | .bytesLost n => s.setNvm ch { s.nvm ch with busErrors := (s.nvm ch).busErrors + n }
  | .refused => s.setNvm ch { s.nvm ch with busErrors := (s.nvm ch).busErrors + 1 }

/-- How a media line decodes: an answer of which every byte fails parity does not (R301, R304). -/
def mediaCode (o : Obs) : CodeRes :=
  match o.bus, o.code with
  | .refused, .uncorrectable again => .uncorrectable again
  | .refused, _ => .uncorrectable true
  | .bytesLost n, c => if n ≤ 16 then c else .uncorrectable (match c with | .uncorrectable again => again | _ => true)

/-- A media line at sector `i` of its page's place (R301, R304 to R306, R314). -/
def Chip.readNvm (s : Chip) (ln ch loc i : Nat) (o : Obs) (origin : Nat) : Got × Chip :=
  let s := s.busCount ch o.bus
  match mediaCode o with
  | .ok => (.good, s)
  | .corrected n _ =>
    let s := s.countCE .nvm ch (ln / 64) loc i origin n 0xFF
    (.good, if s.cfg Obj.kilnTrimSymbols ≤ n then s.queueWitness (blkKey ch (loc + i)) else s)
  | .uncorrectable again =>
    if again && !s.inBurst && decide (0 < s.cfg Obj.kilnRereadMax) then (.good, s) else (.poison, s.queueRescue ln)

/-! ### The Mill decoder and Husk's check (R185 to R191, R208, R210 to R213) -/

/-- How a check of sealed data ends (R212): the outcome of its second try is counted; a MAC that is not the data's fails both. -/
def Chip.macCheck (s : Chip) (sound : Bool) (o : MacRes) : Got × Chip :=
  if !sound then (.macFail, s)
  else match o with
    | .ok => (.good, s)
    | .refetchOk => (.good, { s with husk := { s.husk with macRefetchOk := s.husk.macRefetchOk + 1 } })
    | .fail => (.macFail, s)

/-- The stored MAC of a line is the one of its plaintext (R208, R209): Husk stores no other, but an unbound write leaves an older one. -/
def Chip.lineMacOk (s : Chip) (ln : Nat) : Bool :=
  match Tab.find s.macs ln, s.keysAt (64 * ln) with
  | some m, some k => decide (m = lineMac k (64 * ln) (s.line (64 * ln)))
  | some _, none => false
  | none, _ => true

/-- A grist decode error (R188). -/
def Chip.decodeError (s : Chip) (dla : Nat) : Chip :=
  ({ s with mill := { s.mill with decodeErrors := s.mill.decodeErrors + 1 } } : Chip).raise 60 0xFF dla

/-- Stored grist comes to differ from what was written, past what the tier's code finds. -/
def Chip.damageGrist (s : Chip) (p : Nat) (x : List (BitVec 12 × Byte)) : Chip :=
  if x = [] then s else s.setGrist p (flipBytes (s.gristOf p) (x.map (fun e => (e.1.toNat, e.2))))

/-- A decoded segment is what bound masters read of its lines, but of those that HBM or the cache holds newer (R189, R322). -/
def Chip.takeSegment (s : Chip) (p k : Nat) (ls : List Line) : Chip :=
  (List.range 4).foldl (fun (s : Chip) i =>
    let ln := 64 * p + 4 * k + i
    let x := ls.getD i 0
    if s.isAbsorbed (64 * ln) || (Tab.find s.cache.lines ln).isSome || s.cache.side.contains ln || decide (s.line (64 * ln) = x) then s
    else { s with mem := Mem.writeLine s.mem (64 * ln) fullMask x }) s

/-- Segment `k` of grist page `p` is decoded, and in a sealed page its MAC is checked (R185, R188, R189, R210). -/
def Chip.decodeSegment (s : Chip) (p k : Nat) (mac : MacRes) : Got × Chip :=
  let g := s.gristOf p
  let isSealed := s.sealedRegion p
  match (if gristIntact g ((s.srcRec p).sectors + 1) isSealed then gristSegment g k else none) with
  | none => (.poison, s.decodeError (4096 * p + 256 * k))
  | some b =>
    let (r, s) := if isSealed then
        s.macCheck (match s.keysAt (4096 * p) with | some x => decide (gristMac g k = segMac x p k (segLines b)) | none => false) mac
      else (.good, s)
    (r, if r = .good then s.takeSegment p k (segLines b) else s)

/-- Mill offers the three other lines of a decoded segment to the cache (R191). -/
def Chip.offerSegment (s : Chip) (ln : Nat) : Chip :=
  ((List.range 4).filter (fun i => decide (ln / 4 * 4 + i ≠ ln))).foldl (fun s i => s.sideAdd (ln / 4 * 4 + i)) s

/-- The Mill decoder and Husk's MAC check on what a tier gave of a line (R185 to R191, R212). A line whose poison bit is set is not decoded
(R189), and HBM holds plain lines (R176). `bound` is false for unbound masters, which see stored bytes (R210, R225). -/
def Chip.decodeLine (s : Chip) (ln : Nat) (r : PageRec) (o : Obs) (bound : Bool) : Got × Chip :=
  if !bound || s.isAbsorbed (64 * ln) then (.good, s)
  else if r.grist then
    let s := s.damageGrist (ln / 64) o.grist
    if bitOf (gristPoison (s.gristOf (ln / 64))) (ln % 64) then (.poison, s)
    else
      let (g, s) := s.decodeSegment (ln / 64) (ln % 64 / 4) o.mac
      (g, if g = .good then s.offerSegment ln else s)
  else if s.sealedRegion (ln / 64) ∧ (r.st = .ddr ∨ r.st = .nvm) then s.macCheck (s.lineMacOk ln) o.mac
  else (.good, s)

/-- The sector, from the page's first, at which a code result was found: the line's own; of grist, one of those that the read fetches
(R190): on the non-volatile tier every sector, on DDR5 the header's, the MACs' and the stream's. -/
def Chip.sectorRead (s : Chip) (ln : Nat) (r : PageRec) (o : Obs) : Nat :=
  let p := ln / 64
  let fetched := if r.st = .nvm then List.range (r.sectors + 1) else gristFetch (s.gristOf p) (s.sealedRegion p) (ln % 64 / 4)
  if !r.grist then ln % 64 else if fetched.contains o.gsec.val then o.gsec.val else 0

/-- A line as its tier's code gives it; what is stored as poisoned is no error of the code (R340). -/
def Chip.tierFetch (s : Chip) (ln : Nat) (o : Obs) (origin : Nat) : Got × Chip :=
  let r := s.srcRec (ln / 64)
  if s.poisoned (64 * ln) && (!r.grist || s.isAbsorbed (64 * ln)) then (.poison, s)
  else if s.isAbsorbed (64 * ln) then s.readHbm ln (ln % 64) o.code origin
  else match r.st with
    | .hbm => s.readHbm ln (r.loc + ln % 64) o.code origin
    | .ddr => s.readDdr ln r.ch r.loc (s.sectorRead ln r o) o origin
    | .nvm => if r.loc = pendingLoc then (.good, s) else s.readNvm ln r.ch r.loc (s.sectorRead ln r o) o origin
    | _ => (.good, s)

/-- A line read from its tier below the cache. -/
def Chip.tierRead (s : Chip) (ln : Nat) (o : Obs) (bound : Bool) (origin : Nat) : Got × Chip :=
  let r := s.srcRec (ln / 64)
  let (g, s) := s.tierFetch ln o origin
  match g with
  | .good => if r.loc = pendingLoc then (.good, s) else s.decodeLine ln r o bound
  | _ => (g, s)

end Sys2Proof.Machine
end

