-- ==== Sys2Proof/Machine/FoldOps.lean ====
section
/-!
DEFINITION. Machine/FoldOps.lean: the fold operations on one line (R430, R431).
-/
namespace Sys2Proof.Machine

/-- The field size of a fold operation (R430); 0 for a reserved code. -/
def foldField (op : Nat) : Nat :=
  match op with
  | 1 | 2 | 3 => 1
  | 4 | 5 | 6 => 2
  | 7 => 8
  | _ => 0

/-- One field folded: the result, and whether it saturated (R430). -/
def foldField1 (op t v : Nat) : Nat × Bool :=
  match op with
  | 1 => (t ||| v, false)
  | 2 => (t - (t &&& v), false)
  | 3 => (min 255 (t + v), decide (255 < t + v))
  | 4 => (min 65535 (t + v), decide (65535 < t + v))
  | 5 => (min t v, false)
  | 6 => (max t v, false)
  | 7 => (if t = 0 then v else t, false)
  | _ => (t, false)

/-- Fold the wholly enabled fields of `v` into `t`, `n` fields from number `i`; the line as a number, and the fields that
saturated. -/
def foldFields (op f : Nat) (t v mask : Nat) : Nat → Nat → Nat × Nat
  | 0, _ => (0, 0)
  | n + 1, i =>
    let (rest, sat) := foldFields op f t v mask n (i + 1)
    let old := bitsOf t (8 * f * i) (8 * f)
    let (x, b) := if bitsOf mask (f * i) f = 2 ^ f - 1 then foldField1 op old (bitsOf v (8 * f * i) (8 * f)) else (old, false)
    (x * 2 ^ (8 * f * i) + rest, sat + b.toNat)

/-- A line after a fold, and the fields that saturated. -/
def foldLine (op : Nat) (t v : Line) (mask : BitVec 64) : Line × Nat :=
  let f := foldField op
  if f = 0 then (t, 0)
  else
    let r := foldFields op f t.toNat v.toNat mask.toNat (64 / f) 0
    (BitVec.ofNat 512 r.1, r.2)

/-- Fields of a fold alias write that are neither wholly enabled nor wholly disabled (R431). -/
def foldPartial (op : Nat) (mask : BitVec 64) : Nat :=
  let f := foldField op
  if f = 0 then 0
  else countIf (fun i => let m := bitsOf mask.toNat (f * i) f; decide (m ≠ 0 ∧ m ≠ 2 ^ f - 1)) (List.range (64 / f))

end Sys2Proof.Machine
end

