-- ==== Sys2Proof/Machine/Access.lean ====
section
/-!
DEFINITION. Machine/Access.lean: one access to one line below the home: the access check (R59, R95, R96, R111, R114), the map
record (R83 to R91), reads and writes through the cache (R238 to R250), poison (R64, R344), unbound masters (R225), the
dirty-page log (R103 to R107), and accesses that wait.
-/
namespace Sys2Proof.Machine

/-! ### Counter filters (R555) -/

/-- A request as a counter filter sees it: its cask, master, class bit (R556) and DLA. -/
structure Ask where
  cask : Option Nat
  master : Nat
  cls : Nat
  dla : Option Nat
  deriving DecidableEq, Repr

/-- The request passes the filter set of counter `k` (R555). -/
def Chip.passes (s : Chip) (k : Nat) (q : Ask) : Bool :=
  let f := bitsOf (s.cfg Obj.cntFilterSelect) (8 * k) 6
  if f = 0x3F then true
  else
    let v := s.cfgAt Obj.cntFilter f
    let priv := if q.cask.isSome then 0 else if q.master < 0x60 then 1
      else if 0x61 ≤ q.master ∧ q.master ≤ 0x63 then 2 else 3
    let marks := bitsOf v 4 4
    let have' := match q.cask with | some c => s.cfgAt Obj.caskCounterMarks c | none => 0
    let lo := bitsOf v 64 46
    let hi := bitsOf v 128 46
    bitOf v priv && decide (marks &&& have' = marks) && bitOf v (8 + q.cls)
      && decide (bitsOf v 16 8 ≤ q.master ∧ q.master ≤ bitsOf v 24 8)
      && bitOf v (32 + (if s.inBurst then 2 else if s.inQuiet then 1 else 0))
      && (match q.dla with
          | some a => decide (lo ≤ a ∧ a ≤ hi)
          | none => decide (lo = 0 ∧ hi = 2 ^ 46 - 1))

/-- Count a request (R554, R555). -/
def Chip.countAsk (s : Chip) (k : Nat) (q : Ask) (n : Nat := 1) : Chip := if s.passes k q then s.count k n else s

/-- The traffic class of an access (R556). -/
def AccKind.cls : AccKind → Nat
  | .read => 0 | .write => 1 | .fold => 2 | .append => 3

/-- The cask a request is bound to (R95). -/
def Chip.boundCask (s : Chip) (a : Access) : Option Nat :=
  match a.bind with
  | .byDir => (s.extentOf a.dla).map (·.cask)
  | .pasid c => c
  | .raw => none

/-- The filter's view of an access. -/
def Chip.askOf (s : Chip) (a : Access) : Ask := ⟨s.boundCask a, a.master, a.kind.cls, some a.dla⟩

/-! ### The access check -/

/-- The outcome of the access check. -/
inductive Verdict where
  | ok (cask : Nat)
  | violation
  | damaged (target : Nat)
  deriving DecidableEq, Repr

/-- The right an access needs (R110). -/
def AccKind.right : AccKind → Nat
  | .read => 0 | .write => 1 | .fold => 2 | .append => 1

/-- What an access belongs to reached translation before the cut point of cask `c`'s QUIESCE (R98, R100): an APPEND past its checks, a burst,
or a line fold of either, or one accepted before. -/
def Chip.beforeCut (s : Chip) (c : Nat) (a : Access) : Bool :=
  match a.ret with
  | .append .. | .hopper .. => true
  | .fold id => s.fold.running.any (fun q => decide (q.id = id) &&
      (decide (id < (s.cask c).cutFold) || (match q.ret with | .hopper .. => true | _ => false)))
  | _ => false

/-- Cask `c` serves an access bound to it (R98, R100). -/
def Chip.caskTakes (s : Chip) (c : Nat) (a : Access) : Bool :=
  match (s.cask c).state with
  | .active => true
  | .quiescing => s.beforeCut c a
  | _ => false

/-- The check of an access to memory (R59, R96, R98, R111, R114). -/
def Chip.verdict (s : Chip) (a : Access) (o : Obs) : Verdict :=
  match s.extentOf a.dla with
  | none => .violation
  | some e =>
    let bound := match a.bind with
      | .byDir => decide (e.group = s.cfgAt Obj.headGroup a.master)
      | .pasid (some c) => decide (e.cask = c) && s.caskTakes c a
      | .pasid none => false
      | .raw => true
    if isEngine a.master then .ok e.cask
    else if !bound || decide (e.st ≠ .accepted) then .violation
    else if o.rightsBad || s.rightDamaged e.cask a.master then .damaged e.cask
    else if s.hasRight e.cask a.master a.kind.right then .ok e.cask
    else .violation

/-! ### Statistics (R31, R35, R554) -/

/-- A head is bound by R32: trained to at least 27 GB/s (R79). -/
def Head.fast (x : Head) : Bool := decide (256 ≤ x.width * x.rate)

/-- A link is bound by R32: flits of at most 65 ns (R380). -/
def Link.fast (k : Link) : Bool := decide (32 ≤ k.width * k.speed)

/-- A read as the device accepts it (R32): it notes the BURST window in effect, and whether the bound of 1 µs binds the read. -/
def Chip.noteRead (s : Chip) (m dla : Nat) (o : Obs) : Obs :=
  let fast := if m < 4 then (s.head m).fast else (s.link (m - 0x10)).fast
  { o with burst := s.inBurst, bound := s.inBurst && s.mapResident (s.accessRegion dla) && fast }

/-- The access is the last of its request that is not done: a link's read has one per line. -/
def Chip.lastOf (s : Chip) (a : Access) : Bool :=
  match a.ret with
  | .link l id => (s.link l).reqs.all (fun r => decide (r.id ≠ id ∨ r.left ≤ 1))
  | _ => true

/-- The latency of a read that completes is counted for its port, whose events start at `b` (R554), and a late one that R32 binds is a
window breach (R35). -/
def Chip.lateStats (s : Chip) (a : Access) (o : Obs) (slow late : Nat) : Chip :=
  let q := s.askOf a
  let s := if o.over500 || o.late then s.countAsk slow q else s
  let s := if o.burst && o.late then s.countAsk late q else s
  if o.bound && o.late then
    ({ s with win := { s.win with breaches := s.win.breaches + 1 } } : Chip).raise 4 a.master a.dla else s

/-- A line of a read of a head or link completes (R35, R554); a read counts once, with its last line. -/
def Chip.readStats (s : Chip) (a : Access) (o : Obs) : Chip :=
  if a.master < 4 then
    let h := 64 * a.master
    (s.countAsk (h + 2) (s.askOf a)).lateStats a o (h + 6) (h + 5)
  else if 0x10 ≤ a.master ∧ a.master < 0x18 ∧ s.lastOf a then
    let b := 256 + 64 * (a.master - 0x10)
    s.lateStats a o (b + 13) (b + 14)
  else s

/-- The home made the access for a transaction of its own (R129, R131): what the requester sees of it comes later. -/
def Ret.isHome (r : Ret) : Bool := match r with | .coh _ | .held _ => true | _ => false

/-- A read completes; one that the home made counts when the home answers it (R131). -/
def Chip.finishRead (s : Chip) (a : Access) (o : Obs) (data : Line) (poison : Bool) : Chip :=
  (if a.ret.isHome then s else s.readStats a o).deliver a.ret .read a.dla data poison

/-- A read completes with poison: its data bytes mean nothing and are free (log entry 2). -/
def Chip.finishPoison (s : Chip) (a : Access) (o : Obs) : Chip :=
  let (x, s) := s.takeLine
  s.finishRead a o x true

/-- A head's read of a poisoned line, or one that the media cannot give: a record in its Failure log (R64), posted with the answer where the
home reads for it. The source it names is free (log entry 141). -/
def Chip.poisonEvent (s : Chip) (a : Access) : Chip :=
  let x := s.head a.master
  match a.ret with
  | .coh ln =>
    { s with coh := { s.coh with txns := modFirst (fun t : CohTxn => decide (t.line = ln)) (fun t => { t with event := true }) s.coh.txns } }
  | _ =>
  if a.master < 4 ∧ x.up then
    let r : EvRec := ⟨Config.freeNatAt a.dla s.free % 256, 2, a.master, s.tb.epoch, s.tcRec, a.dla, Config.freeNatAt x.stamp s.free % 2 ^ 64⟩
    s.setHead a.master (x.postLog 2 (.vendor r))
  else s

/-- A read of a line that carries poison completes (R64). -/
def Chip.finishStored (s : Chip) (a : Access) (o : Obs) : Chip := (s.poisonEvent a).finishPoison a o

/-- A write, fold or append completes. -/
def Chip.finishWrite (s : Chip) (a : Access) : Chip :=
  let own := match a.ret with | .held _ => true | _ => false
  let s := if a.master < 4 ∧ !own then s.countAsk (64 * a.master + 3) (s.askOf a) else s
  s.deliver a.ret a.kind a.dla 0 false

/-- A violation: zeros without poison, or nothing changed, and the sticky bit (R112). -/
def Chip.violate (s : Chip) (a : Access) : Chip := (s.violation a.master).deliver a.ret a.kind a.dla 0 false

/-- An access waits. -/
def Chip.park (s : Chip) (why : WaitWhy) (a : Access) (o : Obs) : Chip := 
  { s with waits := s.waits ++ [{ why := why, acc := a, obs := o, tc := s.tb.tc }] }

/-- A dropped fold is counted (R441). -/
def Chip.dropFold (s : Chip) (a : Access) : Chip :=
  if a.kind = .fold then { s with fold := { s.fold with dropped := s.fold.dropped + 1 } } else s

/-! ### Map records (R88) -/

/-- An abandoned migration (R160): the source record returns, the destination is free again, and the page is no candidate before the next
decay pass. -/
def Chip.abandon (s : Chip) (i : Nat) : Chip :=
  match Tab.find s.lauter.slots i with
  | none => s
  | some m =>
    let now := s.page m.page
    let s := { s with lauter := { s.lauter with
      slots := Tab.del s.lauter.slots i, abandoned := s.lauter.abandoned + 1
      barred := if s.lauter.barred.contains m.page then s.lauter.barred else s.lauter.barred ++ [m.page] } }
    if now.st = .migrating then s.commitPage m.page { now with st := m.src.st } else s

/-- Abandon the migration of a page, if there is one whose swing has not taken effect. -/
def Chip.abandonPage (s : Chip) (p : Nat) : Chip :=
  match s.migOf p with | some (i, m) => if m.stage = .swung then s else s.abandon i | none => s

/-- The expansion of a grist page starts (R193); a migration of the page is abandoned first (R194). -/
def Chip.beginExpansion (s : Chip) (p : Nat) (lines : List Nat) : Chip :=
  let s := s.abandonPage p
  { s with mill := { s.mill with expanding := Tab.set s.mill.expanding p lines, expandTc := Tab.set s.mill.expandTc p s.tb.tc } }

/-- A line's writeback starts the expansion of its grist page, or joins it (R193). -/
def Chip.startExpansion (s : Chip) (ln : Nat) : Chip :=
  let p := ln / 64
  match Tab.find s.mill.expanding p with
  | some l => if l.contains ln then s else { s with mill := { s.mill with expanding := Tab.set s.mill.expanding p (l ++ [ln]) } }
  | none => s.beginExpansion p [ln]

/-- What the check of a record found. -/
inductive RecOut where
  | good
  | poisonNow
  | lost
  deriving DecidableEq, Repr

/-- A record as each copy holds it (R83): payload in bytes 0 to 7, its complement in bytes 8 to 15. -/
def recImage (payload : Nat) : BitVec 128 := (~~~(BitVec.ofNat 64 payload)) ++ BitVec.ofNat 64 payload

/-- A record is intact (R83): payload and complement differ in every bit. -/
def recIntact (x : BitVec 128) : Bool := decide (x.extractLsb' 0 64 ^^^ x.extractLsb' 64 64 = BitVec.allOnes 64)

/-- `n` copies of record `k`, of the page at `dla`, are repaired (R88): each is counted. -/
def Chip.recRepaired (s : Chip) (k dla n : Nat) : Chip :=
  if n = 0 then s
  else ({ s with map := { s.map with
    recordErrors := wrap32 (s.map.recordErrors + n), badRecs := Tab.del s.map.badRecs k } } : Chip).raise 48 0xFF dla

/-- A use of record `k` past the map cache (R88), with the failed copies `bad`: the HBM mirror where it holds the record, then the DDR5
mirror, then the map zone, which in a BURST window is read only after the access. `n` copies are repaired already. -/
def Chip.recFetch (s : Chip) (k dla : Nat) (hbm : Bool) (bad n : Nat) : RecOut × Chip :=
  if hbm && !bitOf bad 1 then (.good, s.recRepaired k dla n)
  else if !bitOf bad 2 then (.good, s.recRepaired k dla (n + hbm.toNat))
  else if hbm && s.inBurst then
    let s := s.recRepaired k dla n
    (.poisonNow, { s with map := { s.map with repairing := if s.map.repairing.contains k then s.map.repairing else s.map.repairing ++ [k] } })
  else if s.zoneBad bad then
    (.lost, ({ s with map := { s.map with recordsLost := wrap32 (s.map.recordsLost + 1) } } : Chip).raise 49 0xFF dla)
  else (.good, s.recRepaired k dla (n + hbm.toNat + 1))

/-- Every use of record `k` checks it (R83, R88), wherever it is read from: `found` are the copies found to fail now, beside those known
to. `hbm` says that the HBM mirror holds the record. -/
def Chip.useRec (s : Chip) (k dla : Nat) (hbm : Bool) (found : BitVec 5) : RecOut × Chip :=
  let bad := found.toNat ||| Tab.get 0 s.map.badRecs k
  if s.mapHolds k && !bitOf bad 0 then (.good, s.mapTouch k)
  else
    let n := (s.mapHolds k && bitOf bad 0).toNat
    let (g, s) := (s.mapDrop k).recFetch k dla hbm bad n
    (g, if g = .good then s.mapTouch k else s)

/-- A use of the directory entry of a page's block (R87: the HBM mirror holds every one). -/
def Chip.useDir (s : Chip) (p : Nat) (found : BitVec 5) : RecOut × Chip := s.useRec (dirRecNo (p / 512)) (4096 * p) true found

/-- A use of a page's record (R87, R88); a record that fails ends a migration of its page first (R158). -/
def Chip.usePage (s : Chip) (p : Nat) (found : BitVec 5) : RecOut × Chip :=
  let bad := found.toNat ||| Tab.get 0 s.map.badRecs p
  let s := if bad = 0 then s else s.abandonPage p
  s.useRec p (4096 * p) (s.mapResident (s.accessRegion (4096 * p))) found

/-- The page's record, or its block's directory entry, is under repair (R88). -/
def Chip.underRepair (s : Chip) (p : Nat) : Bool := s.map.repairing.contains p || s.map.repairing.contains (dirRecNo (p / 512))

/-- A page's record becomes POISONED (R85). -/
def Chip.poisonPage (s : Chip) (p : Nat) : Chip := s.commitPage p { s.page p with st := .poisoned }

/-- Every page of a block becomes POISONED (R88). -/
def Chip.poisonBlock (s : Chip) (b : Nat) : Chip := (List.range 512).foldl (fun s i => s.poisonPage (512 * b + i)) s

/-- The records of a page are used by the device's own work on it (R83): its directory entry and its page record. What is lost is poisoned
(R88); the answer says that the page's record can be used now. -/
def Chip.useOwn (s : Chip) (p : Nat) : Bool × Chip :=
  match s.useDir p 0 with
  | (.poisonNow, s) => (false, s)
  | (.lost, s) => (false, s.poisonBlock (p / 512))
  | (.good, s) =>
    match s.usePage p 0 with
    | (.poisonNow, s) => (false, s)
    | (.lost, s) => (false, s.poisonPage p)
    | (.good, s) => (true, s)

/-! ### Reads -/

/-- A parity error of a clean line (R336). -/
def Chip.parityClean (s : Chip) (dla : Nat) : Chip :=
  ({ s with integ := { s.integ with parityClean := s.integ.parityClean + 1 } } : Chip).raise 128 0xFF dla

/-- A parity error of a dirty line (R336, R355): the line is poisoned. -/
def Chip.parityDirty (s : Chip) (dla : Nat) : Chip := (s.setPoison dla true).parityLost (pageNo dla) 0xFF dla

/-- Unbound masters need no key (R225); for others a key must be LOADED (R223). -/
def Chip.keyAbsent (s : Chip) (a : Access) : Bool :=
  decide (a.bind ≠ .raw) && !isEngine a.master &&
    (match s.extentOf a.dla with | some e => decide ((s.cask e.cask).keyState ≠ .loaded) | none => false)

/-- A read that misses the cache and the side buffer (R238, R242, R243, R191). -/
def Chip.readMiss (s : Chip) (a : Access) (o : Obs) : Chip :=
  let ln := lineNo a.dla
  let p := ln / 64
  let r := s.srcRec p
  let known := s.poisoned a.dla
  let (g, s) := s.tierRead ln o true 0
  match g with
  | .frozen => s.park .frozen a o
  | .poison => (if known ∨ (r.st = .nvm ∧ !s.isAbsorbed a.dla) then s.poisonEvent a else s).heatCount p a.master |>.finishPoison a o
  | .macFail =>
    let s := { s with husk := { s.husk with macFailures := s.husk.macFailures + 1 } }
    ((s.raise 80 a.master a.dla).heatCount p a.master).finishPoison a o
  | .good =>
    let s := (s.heatCount p a.master).trackDemand a.master ln a.bind true
    if s.poisoned a.dla then s.finishStored a o
    else
      let s := if s.cfgAt Obj.cacheRegionPolicy (s.accessRegion a.dla) = 2 then s
        else match s.fill ln with
          | some s => s
          | none => { s with cache := { s.cache with bypass := s.cache.bypass + 1 } }
      s.finishRead a o (s.line a.dla) false

/-- A read of a written page by a bound master. -/
def Chip.readCached (s : Chip) (a : Access) (o : Obs) : Chip :=
  let ln := lineNo a.dla
  match Tab.find s.cache.lines ln with
  | some c =>
    if o.parity ≠ .ok ∧ c.dirty then (s.parityDirty a.dla).finishPoison a o
    else if o.parity ≠ .ok then (((s.dropCached ln).parityClean a.dla)).readMiss a { o with parity := .ok }
    else
      let s := ((s.fill ln).getD s).trackDemand a.master ln a.bind false
      if s.poisoned a.dla then s.finishStored a o else s.finishRead a o (s.line a.dla) false
  | none =>
    if s.cache.side.contains ln then
      if o.parity ≠ .ok then
        let s := { s with cache := { s.cache with side := s.cache.side.erase ln } }
        (s.parityClean a.dla).readMiss a { o with parity := .ok }
      else
        let s := { s with cache := { s.cache with prefUsed := s.cache.prefUsed + 1 } }
        let s := ((s.fill ln).getD s).trackDemand a.master ln a.bind false
        if s.poisoned a.dla then s.finishStored a o else s.finishRead a o (s.line a.dla) false
    else match o.parity with
      | .ok => s.readMiss a o
      | .clean => (s.parityClean a.dla).readMiss a o
      | .dirty => (s.parityClean a.dla).finishPoison a o

/-- What an unbound master's access waits for before a dirty line of its own is written back (R251, R156, R193, R48): nothing where the
line is clean, or where its channel is frozen, which the access itself meets (R283; log entry 142). -/
def Chip.flushWait (s : Chip) (dla : Nat) : Option WaitWhy :=
  if s.cachedDirty dla then (match s.tierWait dla with | some .frozen => none | w => w) else none

/-- The dirty line of an unbound master's access is written back (R251). -/
def Chip.flushLine (s : Chip) (dla : Nat) : Chip :=
  match s.tierWait dla with | none => s.cleanLine (lineNo dla) | some _ => s

/-- A read by an unbound master (R225, R251). -/
def Chip.readStored (s : Chip) (a : Access) (o : Obs) : Chip :=
  let ln := lineNo a.dla
  let s := s.flushLine a.dla
  let (g, s) := s.tierRead ln o false 0
  match g with
  | .frozen => s.park .frozen a o
  | .good =>
    let s := s.heatCount (ln / 64) a.master
    if s.poisoned a.dla then s.finishStored a o
    else
      let (x, s) := s.storedLine a.dla
      s.finishRead a o x false
  | _ => s.finishPoison a o

/-- A read by an unbound master: it waits with the writeback of a dirty line (R251), which expands a grist page (R193). -/
def Chip.readRaw (s : Chip) (a : Access) (o : Obs) : Chip :=
  match s.flushWait a.dla with
  | none => s.readStored a o
  | some .expansion => (s.startExpansion (lineNo a.dla)).park .expansion a o
  | some w => s.park w a o

/-- A read below the home. -/
def Chip.readBelow (s : Chip) (a : Access) (o : Obs) : Chip :=
  let p := pageNo a.dla
  let r := s.srcRec p
  if (s.page p).st = .poisoned then s.finishStored a o
  else if r.st = .unwritten then s.finishRead a o 0 false
  else if s.underRepair p then (if s.inBurst then s.finishPoison a o else s.park .repair a o)
  else if a.bind = .raw then s.readRaw a o
  else if s.keyAbsent a then (s.raise 84 a.master a.dla).finishPoison a o
  else if o.keyBad then s.finishPoison a o
  else s.readCached a o

/-! ### Writes -/

/-- A line takes new content as bound masters read it, and its page the time of its last write (R195). Husk stores the MAC of what it
stores (R210). -/
def Chip.putLine (s : Chip) (dla : Nat) (data : Line) (poison : Bool) : Chip :=
  let s := s.saveMedia dla
  let s := { s with
    mem := Mem.writeLine s.mem (lineBase dla) fullMask data, macs := Tab.del s.macs (lineNo dla)
    map := { s.map with wrote := Tab.set s.map.wrote (pageNo dla) s.tb.tc } }
  s.setPoison dla poison

/-- A stored line follows its region's write policy (R238, R239): dirty in its way, or handed to its tier. -/
def Chip.applyPolicy (s : Chip) (ln master : Nat) (pol : Nat) : Chip :=
  if pol = 0 then s.makeDirty ln
  else
    let s := (s.tierWrite ln).heatCount (ln / 64) master
    if pol = 2 then s.dropCached ln else s

/-- The write policy in force for a line: a persistent region writes through (R238, R239). -/
def Chip.policyOf (s : Chip) (dla : Nat) : Nat :=
  let r := s.accessRegion dla
  let p := s.cfgAt Obj.cacheRegionPolicy r
  if p = 0 ∧ s.persistent r then 1 else p

/-- A write or fold that meets a poisoned line is dropped (R64, R344). -/
def Chip.poisonMerge (s : Chip) (a : Access) : Bool × Chip :=
  (false, ((s.raise 130 a.master a.dla).dropFold a).finishWrite a)

/-- A line fold is applied: it is counted, with its fields that saturated (R430, R448). -/
def Chip.countFold (s : Chip) (sat : Nat) : Chip :=
  { s with fold := { s.fold with lineFolds := s.fold.lineFolds + 1, saturated := s.fold.saturated + sat } }

/-- A write or fold merged into its line in a cache way (R214, R236, R439): `fresh` says that the page was allocated for it. A write
through waits where a victim of its own fill took the last absorb space (R48). -/
def Chip.mergeStore (s : Chip) (a : Access) (o : Obs) (fresh : Bool) : Bool × Chip :=
  let ln := lineNo a.dla
  let full := decide (a.mask = fullMask ∧ a.kind ≠ .fold)
  let near := (Tab.find s.cache.lines ln).isSome || s.cache.side.contains ln
  let (g, s) := if full || near || fresh then (Got.good, s) else s.tierRead ln o true 0
  let counts := !(full || near || fresh) && (decide (s.policyOf a.dla = 0) || decide (g = .poison ∨ g = .macFail))
  let s := if counts then s.heatCount (ln / 64) a.master else s
  match g with
  | .frozen => (false, s.park .frozen a o)
  | .poison => s.poisonMerge a
  | .macFail =>
    let s := { s with husk := { s.husk with partialDropped := s.husk.partialDropped + 1 } }
    (false, ((((s.setPoison a.dla true).raise 80 a.master a.dla).dropFold a).finishWrite a))
  | .good =>
    match s.fill ln with
    | none => (false, s.park .way a o)
    | some s =>
      let late := if s.policyOf a.dla = 0 then none else s.tierWait a.dla
      if late.isSome then (false, s.park (late.getD .way) a o)
      else if a.poison then
        if a.kind = .fold then (s.setPoison a.dla true).poisonMerge a
        else
          let s := (s.putLine a.dla (mergeLine (s.line a.dla) a.data a.mask) true).applyPolicy ln a.master (s.policyOf a.dla)
          (true, s.finishWrite a)
      else if s.poisoned a.dla && !full then s.poisonMerge a
      else
        let old := s.line a.dla
        let (x, sat) := if a.kind = .fold then foldLine a.op old a.data a.mask else (mergeLine old a.data a.mask, 0)
        let s := if a.kind = .fold then s.countFold sat else s
        let s := (s.putLine a.dla x false).applyPolicy ln a.master (s.policyOf a.dla)
        (true, s.finishWrite a)

/-- The MAC that stays stored for a line of a sealed frame when an unbound master writes the line (R225). -/
def Chip.keptMac (s : Chip) (dla : Nat) : Option (BitVec 64) :=
  if !s.sealedRegion (pageNo dla) ∨ s.isAbsorbed dla then none
  else match Tab.find s.macs (lineNo dla), s.keysAt dla with
    | some m, _ => some m
    | none, some k => some (lineMac k dla (s.line dla))
    | none, none => none

/-- A write or fold by an unbound master: what is stored takes it, without Husk and without a MAC (R225, R251). -/
def Chip.storeRaw (s : Chip) (a : Access) : Bool × Chip :=
  let ln := lineNo a.dla
  let s := (s.flushLine a.dla).dropLines ln 1
  let fold := decide (a.kind = .fold)
  if a.poison then
    let s := ((s.putLine a.dla (s.line a.dla) true).tierWrite ln).heatCount (ln / 64) a.master
    if fold then s.poisonMerge a else (true, s.finishWrite a)
  else if s.poisoned a.dla && (fold || decide (a.mask ≠ fullMask)) then s.poisonMerge a
  else
    let (old, s) := if a.mask = fullMask && !fold then (a.data, s) else s.storedLine a.dla
    let (x, sat) := if fold then foldLine a.op old a.data a.mask else (mergeLine old a.data a.mask, 0)
    let s := if fold then s.countFold sat else s
    let (x, s) := s.rawPlain a.dla x
    let kept := s.keptMac a.dla
    let s := ((s.putLine a.dla x false).tierWrite ln).heatCount (ln / 64) a.master
    (true, (kept.elim s (fun m => { s with macs := Tab.set s.macs ln m })).finishWrite a)

/-- The parity of the line or of the data is checked (R336), and the line is stored. -/
def Chip.storeLine (s : Chip) (a : Access) (o : Obs) (fresh : Bool) : Bool × Chip :=
  let ln := lineNo a.dla
  if o.parity = .dirty ∨ (o.parity = .clean ∧ s.cachedDirty a.dla) then
    let s := s.saveMedia a.dla
    (false, (((s.parityDirty a.dla).dropFold a).finishWrite a))
  else if a.bind = .raw then s.storeRaw a
  else if o.parity = .clean then ((s.dropCached ln).parityClean a.dla).mergeStore a o fresh
  else s.mergeStore a o fresh

/-- A partial write or a fold that misses needs the whole of a grist page on DDR5 decoded before its merge (R193, R214). -/
def Chip.mergesGrist (s : Chip) (a : Access) : Bool :=
  let ln := lineNo a.dla
  let r := s.srcRec (ln / 64)
  decide (r.st = .ddr) && r.grist && !decide (a.mask = fullMask ∧ a.kind ≠ .fold)
    && (Tab.find s.cache.lines ln).isNone && !s.cache.side.contains ln

/-- A write to a page that holds storage (R156, R194, R238, R263, R283): it is stored, or it waits. -/
def Chip.writePage (s : Chip) (a : Access) (o : Obs) (first fresh : Bool) : Bool × Chip :=
  let p := pageNo a.dla
  let through := decide (s.policyOf a.dla ≠ 0 ∨ a.bind = .raw) || s.mergesGrist a
  match if through then s.tierWait a.dla else none with
  | none => s.storeLine a o fresh
  | some .frozen =>
    let n := (s.srcRec p).ch
    if s.freezeOver n then (false, (((s.poisonListAdd ((s.copies n).headD n) a.dla).dropFold a).finishWrite a))
    else (false, s.park .frozen a o)
  | some .reserve =>
    let s := if first then { s with dram := { s.dram with reserveWaits := s.dram.reserveWaits + 1 } } else s
    (false, s.park .reserve a o)
  | some .expansion =>
    let s := if (Tab.find s.mill.expanding p).isSome then s else s.beginExpansion p []
    (false, s.park .expansion a o)
  | some w => (false, s.park w a o)

/-- A write, fold or append below the home, and whether it changed its page. -/
def Chip.writeCore (s : Chip) (a : Access) (o : Obs) (first : Bool) : Bool × Chip :=
  let p := pageNo a.dla
  let r := s.srcRec p
  let written := decide (r.st ≠ .unwritten)
  if (s.page p).st = .poisoned then (false, (s.dropFold a).finishWrite a)
  else if s.underRepair p then (false, s.park .repair a o)
  else if written && s.keyAbsent a then (false, ((s.raise 84 a.master a.dla).dropFold a).finishWrite a)
  else if written && o.keyBad && decide (a.bind ≠ .raw) then (false, s.park .key a o)
  else if s.held p then (false, s.park .hold a o)
  else if (Tab.find s.mill.expanding p).isSome then (false, s.park .expansion a o)
  else if written then s.writePage a o first false
  else match s.allocate p (s.accessRegion a.dla) first with
    | .wait w s => (false, s.park w a o)
    | .go s => s.writePage a o first true

/-! ### Dirty-page log (R103 to R107) -/

/-- A log write that lies outside every accepted extent stops the log (R107). -/
def Chip.logFault (s : Chip) (c : Nat) : Chip :=
  let k := s.cask c
  (((s.setCask c { k with status := setBit k.status 1 true }).setRw (objAt Obj.caskLogEnable c) 0)).raise 55

/-- The address lies in an extent accepted for some cask. -/
def Chip.acceptedAt (s : Chip) (dla : Nat) : Bool :=
  match s.extentOf dla with | some e => decide (e.st = .accepted) | none => false

/-- The device writes bytes below the access check: engine rights, no log of its own. -/
def Chip.logWrite (s : Chip) (dla : Nat) (d : List Byte) : Chip :=
  (lineParts dla d).foldl (fun s x =>
    (s.writeCore ⟨0x60, .byDir, .write, x.addr, x.mask, x.data, false, true, 0, .none⟩ {} true).2) s

/-- No agent holds a copy of the line, and no transaction of it runs (R120, R121, R130). -/
def Chip.homeClear (s : Chip) (ln : Nat) : Bool :=
  (Tab.find s.coh.filter ln).isNone && (Tab.find s.coh.held ln).isNone && s.coh.txns.all (fun t => decide (t.line ≠ ln))

/-- A request of the home itself on a line: an eviction or a recall (R122, R143). -/
def homeReq (k : CohKind) (ln : Nat) : CohReq :=
  { agent := none, kind := k, acc := ⟨0x60, .byDir, .read, 64 * ln, 0, 0, false, true, 0, .none⟩ }

/-- Trackers in use that are shared (R136). -/
def Chip.sharedTrackers (s : Chip) : Nat :=
  countIf (fun t => !t.req.reserved) s.coh.txns + countIf (fun q => !q.reserved) s.coh.queue + s.coh.devQueue.length

/-- The home is asked to take back every copy of a line, for a fold of the device itself (R104, R120). -/
def Chip.homeFetch (s : Chip) (ln : Nat) : Chip :=
  if s.homeClear ln || decide (4084 ≤ s.sharedTrackers) || (s.coh.queue ++ s.coh.devQueue).any (fun q => decide (q.kind = .recall ∧ lineNo q.acc.dla = ln)) then s
  else { s with coh := { s.coh with devQueue := s.coh.devQueue ++ [homeReq .recall ln] } }

/-- A write of the dirty-page log (R104, R105): stored now, or not at all. -/
def Chip.logStore (s : Chip) (dla : Nat) (d : List Byte) : Option Chip :=
  if (lineAddrs dla d.length).all (fun x => s.homeClear (lineNo x)) then
    let t := s.logWrite dla d
    if t.waits.length ≤ s.waits.length then some t else none
  else none

/-- A change of page `p` by `master` is logged for cask `c` (R103 to R106): the bit is set by an OR fold, and a bit newly set appends a ring
entry. None: the log cannot take it yet. A discard outside the span counts as well (DESIGN CHOICE, log entry 145). -/
def Chip.logPage (s : Chip) (c p master : Nat) : Option Chip :=
  if s.cfgAt Obj.caskLogEnable c ≠ 1 then some s
  else
    let base := s.cfgAt Obj.caskLogBaseDla c
    let i := (4096 * p - base) / 4096
    let k := s.cask c
    if 4096 * p < base ∨ s.cfgAt Obj.caskLogPages c ≤ i then some (s.setCask c { k with outside := k.outside + 1 })
    else
      let at' := s.cfgAt Obj.caskLogBitmapDla c + i / 8
      if !s.acceptedAt at' then some (s.logFault c)
      else
        let b := (Tab.get 0 s.mem at').toNat
        if s.homeClear (lineNo at') && b.testBit (i % 8) then some s
        else match s.logStore at' [BitVec.ofNat 8 (b ||| 2 ^ (i % 8))] with
          | none => none
          | some s =>
            let k := s.cask c
            let ring := 2 ^ s.cfgAt Obj.caskLogRingOrder c
            if diff32 k.producer (s.cfgAt Obj.caskLogConsumer c) = ring then some (s.setCask c { k with status := setBit k.status 0 true })
            else
              let e := s.cfgAt Obj.caskLogRingDla c + 8 * (k.producer % ring)
              if !s.acceptedAt e then some (s.logFault c)
              else (s.logStore e (bytesLE 8 (p + master * 2 ^ 40 + (k.producer % 65536) * 2 ^ 48))).map
                (fun s => s.setCask c { s.cask c with producer := wrap32 (k.producer + 1) })

/-- The home takes back the copies of the log's lines that a change of page `p` touches (R120). -/
def Chip.logFetch (s : Chip) (c p : Nat) : Chip :=
  let at' := s.cfgAt Obj.caskLogBitmapDla c + (4096 * p - s.cfgAt Obj.caskLogBaseDla c) / 4096 / 8
  let e := s.cfgAt Obj.caskLogRingDla c + 8 * ((s.cask c).producer % 2 ^ s.cfgAt Obj.caskLogRingOrder c)
  (s.homeFetch (lineNo at')).homeFetch (lineNo e)

/-- The access is one that the log records (R103). -/
def Access.logged (a : Access) : Bool := decide (a.kind = .fold ∨ (0x10 ≤ a.master ∧ a.master ≤ 0x5F))

/-- A write, fold or append below the home, logged where R103 says; the change becomes visible with its log bit, or waits for it (R104). -/
def Chip.writeBelow (s : Chip) (a : Access) (o : Obs) (first : Bool) : Chip :=
  let (ch, t) := s.writeCore a o first
  match (if ch && a.logged then (s.extentOf a.dla).map (·.cask) else none) with
  | some c => (t.logPage c (pageNo a.dla) a.master).getD ((s.logFetch c (pageNo a.dla)).park .log a o)
  | none => t

/-! ### Below the home -/

/-- A read or write past translation and below the home; it waits while its line's way is offline (R33). -/
def Chip.below (s : Chip) (a : Access) (o : Obs) (first : Bool) : Chip :=
  if s.wayOffline a.dla then s.park .offline a o
  else if a.kind = .read then s.readBelow a o else s.writeBelow a o first

/-- Access `w` waits ahead of `a` (R62, R269, R91, R130): an earlier one of the same master to the same line, an owner's data of the line
that is not stored yet, or, ahead of a write or fold, the first write that has locked the page. -/
def Wait.ahead (w : Wait) (a : Access) : Bool :=
  let line := decide (lineNo w.acc.dla = lineNo a.dla)
  (line && decide (w.acc.master = a.master) && !w.acc.ret.isHome && !a.ret.isHome)
    || (line && decide (w.acc.ret = .held (lineNo a.dla)))
    || (decide (a.kind ≠ .read ∧ pageNo w.acc.dla = pageNo a.dla) && (match w.why with | .mirror | .journal | .space => true | _ => false))

/-- An access waits ahead of this one; `held` leaves out those that only wait their turn. -/
def Chip.behind (s : Chip) (a : Access) (held : Bool) : Bool :=
  s.waits.any (fun w => w.ahead a && !(held && decide (w.why = .order)))

/-- The records of an access are checked (R88), and it goes on. -/
def Chip.enterNow (s : Chip) (a : Access) (o : Obs) : Chip :=
  let p := pageNo a.dla
  let poisonOr := fun (s : Chip) =>
    if a.kind = .read then s.finishPoison a o else s.park .repair a { o with recBad := 0, dirBad := 0 }
  let (d, s) := s.useDir p o.dirBad
  match d with
  | .poisonNow => poisonOr s
  | .lost => (s.poisonBlock (p / 512)).below a o true
  | .good =>
    let (g, s) := s.usePage p o.recBad
    match g with
    | .poisonNow => poisonOr s
    | .lost => (s.poisonPage p).below a o true
    | .good => s.below a o true

/-- An access enters below the home, in its turn (R62, R269). -/
def Chip.enter (s : Chip) (a : Access) (o : Obs) : Chip := if s.behind a false then s.park .order a o else s.enterNow a o

/-- A damaged rights value (R114): an integrity failure, closed and loud. -/
def Chip.damagedAccess (s : Chip) (a : Access) (o : Obs) (t : Nat) : Chip :=
  let s := (s.markDamaged t a.master).raise 37 a.master a.dla
  if a.kind = .read then s.finishPoison a o else s.deliver a.ret a.kind a.dla 0 false

/-! ### Accesses that wait -/

/-- What waits again was accepted when it first came (R29): the waits from place `n` on take that TC. -/
def Chip.keepTc (s : Chip) (n tc : Nat) : Chip :=
  { s with waits := s.waits.take n ++ (s.waits.drop n).map (fun w => { w with tc := tc }) }

/-- Accesses that wait for a reason, and of which `ok` holds, go on in arrival order; what must wait again waits behind. -/
def Chip.rerun (s : Chip) (ok : Wait → Bool) : Chip :=
  let go := s.waits.filter ok
  let s := { s with waits := s.waits.filter (fun w => !ok w) }
  go.foldl (fun s w =>
    (if w.why = .order then (if s.behind w.acc true then s.park .order w.acc w.obs else s.enterNow w.acc w.obs)
     else s.below w.acc { w.obs with keyBad := false } false).keepTc s.waits.length w.tc) s

/-- The reason of a wait has passed by itself: its hold, repair, expansion or freeze is over, or its way online again (R156, R88, R193,
R283, R256). -/
def Chip.waitOver (s : Chip) (w : Wait) : Bool :=
  let p := pageNo w.acc.dla
  match w.why with
  | .hold => !s.held p
  | .repair => !s.underRepair p
  | .expansion => (Tab.find s.mill.expanding p).isNone
  | .frozen => let n := (s.srcRec p).ch; !(if w.acc.kind ≠ .read then s.ddrShut n else s.ddrBlocked n) || s.freezeOver n
  | .offline => !s.wayOffline w.acc.dla
  | .log => match s.extentOf w.acc.dla with
    | some e => (s.logPage e.cask p w.acc.master).isSome
    | none => true
  | .order => !s.behind w.acc true
  | _ => false

/-- Let go on what waits for a reason that has passed. -/
def Chip.wake (s : Chip) : Chip := if s.waits.any s.waitOver then s.rerun s.waitOver else s

end Sys2Proof.Machine
end

