-- ==== Sys2Proof/Machine/Links.lean ====
section
/-!
DEFINITION. Machine/Links.lean: the Semund link layer (R361 to R396): training, flits, control records, credits, changes and
retrains. What a link-down does to the device stands in Settle.lean.
-/
namespace Sys2Proof.Machine

/-- TC cycles in a second: 5 ns each until a rate has been measured (R428). -/
def Chip.tcPerSecond (s : Chip) : Nat := if s.tb.measuredKhz = 0 then 200000000 else s.tb.measuredKhz * 1000

/-- A scheduled operation is requested (R38). -/
def Chip.requestOp (s : Chip) (k : OpKind) (us : Nat) : Chip :=
  { s with win := { s.win with ops := s.win.ops ++ [{ kind := k, us := us }] } }

/-! ### Down, retrain and errors -/

/-- The link goes down with a cause, once the command's other effects are done (R389). -/
def Chip.wantDown (s : Chip) (l cause : Nat) : Chip :=
  let k := s.link l
  if k.want = none ∧ (k.st = .training ∨ k.st = .active ∨ k.st = .changing) then s.setLink l { k with want := some cause }
  else s

/-- The leader starts an error-driven retrain (R387), or follows the endpoint's: REPAIR at the current width and speed. -/
def Chip.retrain (s : Chip) (l : Nat) (leader : Bool) : Chip :=
  let k := s.link l
  if k.st = .active ∨ (k.st = .changing ∧ (k.change.map (·.retraining)) ≠ some true) then
    let recent := k.retrainTcs.filter (fun t => decide (s.tb.tc < t + s.tcPerSecond)) ++ [s.tb.tc]
    let planned := match k.change with | some c => c.planned && c.leader | none => false
    let k := { k with
      st := .changing, step := .lock, lanes := 0, retrains := k.retrains + 1, retrainTcs := recent, crcs := []
      changeResult := if planned then 3 else k.changeResult
      change := some { id := 0, width := k.width, speed := k.speed, planned := false, leader := leader, acked := true, retraining := true }
      sent := k.sent ++ [.ts 0x2D 4] }
    let s := (s.setLink l k).raise 144 (0x10 + l) 0 (.link l)
    if s.cfg Obj.linkRetrainMax < recent.length then s.wantDown l 3 else s
  else s

/-- An error counted toward the down criterion (R388): more than down_threshold of them within the window take the link
down; retrain_threshold CRC errors start a retrain (R387). -/
def Chip.linkError (s : Chip) (l : Nat) (protocol crc : Bool) : Chip :=
  let k := s.link l
  let old := fun n => decide (k.flits < n + s.cfg Obj.linkDownWindowFlits)
  let errs := k.errs.filter old ++ [k.flits]
  let crcs := if crc then k.crcs.filter old ++ [k.flits] else k.crcs
  let s := s.setLink l { k with
    crcErrors := k.crcErrors + 1, protocolErrors := if protocol then k.protocolErrors + 1 else k.protocolErrors
    errs := errs, crcs := crcs }
  let s := if s.cfg Obj.linkDownThreshold < errs.length then s.wantDown l 1 else s
  if crc && decide (s.cfg Obj.linkRetrainThreshold ≤ crcs.length) then s.retrain l true else s

/-! ### Training -/

/-- The leader starts training from step 1 (R363). -/
def Chip.startTraining (s : Chip) (l tries : Nat) : Chip :=
  let k := s.link l
  s.setLink l { k with
    st := .training, step := .detect, tries := tries, lanes := 0, initGot := 0, width := 0, speed := 0, vcs := 0
    sent := k.sent ++ [.ts 0x2D 0] }

/-- The widest width among locked lanes, offered by both ends (R361, R363). -/
def widest (lanes offered maxWidth : Nat) : Nat :=
  if maxWidth = 4 ∧ bitOf offered 2 ∧ lanes % 16 = 15 then 4
  else if 2 ≤ maxWidth ∧ bitOf offered 1 ∧ (lanes % 4 = 3 ∨ bitsOf lanes 2 2 = 3) then 2
  else if bitOf offered 0 ∧ lanes % 16 ≠ 0 then 1
  else 0

/-- The highest speed both ends offer, up to link.max_speed (R363): bit 0: 8, bit 1: 16, bit 2: 32 Gb/s. -/
def highestSpeed (offered maxSpeed : Nat) : Nat :=
  if bitOf offered 2 ∧ 32 ≤ maxSpeed then 32
  else if bitOf offered 1 ∧ 16 ≤ maxSpeed then 16
  else if bitOf offered 0 then 8 else 0

/-- Slots of the leader's buffer per negotiated channel (R378). -/
def Chip.slotsPerVc (s : Chip) (l : Nat) : Nat := if (s.link l).vcs = 0 then 0 else 2048 / (s.link l).vcs

/-- A writeback or a snoop response: it arrives outside the credits of its channel (R133). -/
def packetFree (p : Packet) : Bool := decide (p.kind = 9 ∧ (p.op = 0x04 ∨ 0x18 ≤ p.op.toNat ∧ p.op.toNat ≤ 0x1C))

/-- Slots of channel `v` held by packets not yet carried out. -/
def Link.heldSlots (k : Link) (v : Nat) : Nat :=
  (k.rx.filter (fun p => decide (p.vc.toNat = v) && !packetFree p)).foldl (fun a p => a + packetSize p) 0

/-- A WR of a link waits for space (R48, R199, R263): its credit is withheld (R34). -/
def Chip.writeWaits (s : Chip) (l id : Nat) : Bool :=
  s.waits.any (fun w => decide (w.acc.ret = .link l id)
    && (match w.why with | .absorb | .reserve | .space | .mirror | .journal => true | _ => false))

/-- Slots that a line fold of a link's packet holds: a header's and those of its operand. -/
def FoldReq.slots (q : FoldReq) : Nat := 1 + ceilDiv (countIf (fun i => q.mask.getLsbD i) (List.range 64)) 16

/-- Slots of channel `v` that waiting FOLDs (R440), APPENDs (R446) and WRs (R48, R199, R263) of a link hold. -/
def Chip.waitingSlots (s : Chip) (l v : Nat) : Nat :=
  s.fold.appends.foldl (fun n a => if a.1 = l ∧ a.2.2.vc.toNat = v then n + packetSize a.2.2 else n) 0
    + s.fold.waiting.foldl (fun n q => if q.master = 0x10 + l ∧ q.vc = v then n + q.slots else n) 0
    + (s.link l).reqs.foldl (fun n r => if !r.read ∧ r.vc = v ∧ s.writeWaits l r.id then n + 1 + ceilDiv r.len 16 else n) 0

/-- The limit to advertise for channel `v`: slots received plus free space, never decreasing (R379). -/
def Chip.creditLimit (s : Chip) (l v : Nat) : Nat :=
  let k := s.link l
  if v < k.vcs then max (Tab.get 0 k.adv v) (Tab.get 0 k.recv v + (s.slotsPerVc l - k.heldSlots v - s.waitingSlots l v)) else 0

/-- Send CREDIT records for every negotiated channel (R379). -/
def Chip.sendCredits (s : Chip) (l : Nat) : Chip :=
  let k := s.link l
  let lim := s.creditLimit l
  let s := s.setLink l { k with adv := (List.range 8).foldl (fun a v => Tab.put 0 a v (lim v)) k.adv }
  let s := s.sendCtl l (.credit 0 ([0, 1, 2, 3].map (fun v => lim v % 65536)))
  s.sendCtl l (.credit 1 ([4, 5, 6, 7].map (fun v => lim v % 65536)))

/-- An eighth of a channel's buffer has been freed since its last CREDIT record (R379). -/
def Chip.creditDue (s : Chip) (l : Nat) : Bool :=
  decide ((s.link l).st = .active) && (List.range 8).any (fun v =>
    decide (v < (s.link l).vcs ∧ s.slotsPerVc l ≤ 8 * (s.creditLimit l v - Tab.get 0 (s.link l).adv v)))

/-- CREDIT records leave where they are due by freed space (R379). -/
def Chip.creditFreed (s : Chip) (l : Nat) : Chip := if s.creditDue l then s.sendCredits l else s

/-- Answer slots a read spends (R380). -/
def answerSlots (p : Packet) : Nat :=
  match p.kind.toNat with
  | 0x01 => 1 + ceilDiv (p.lenM1.toNat + 1) 16
  | 0x09 => if p.op = 0x01 ∨ p.op = 0x02 ∨ p.op = 0x03 then 5 else 0
  | _ => 0

/-- F: the answer slots of reads accepted on a link and not yet fully sent (R380): of reads not yet carried out, of those being served, of
coherent reads at the home, and of answers that wait to leave. -/
def Chip.answersOwed (s : Chip) (l : Nat) : Nat :=
  let k := s.link l
  let mine := fun (q : CohReq) => decide (q.acc.master = 0x10 + l ∧ (q.kind = .cur ∨ q.kind = .shared ∨ q.kind = .own))
  k.rx.foldl (fun n p => n + answerSlots p) 0
    + k.reqs.foldl (fun n r => if r.read then n + 1 + ceilDiv r.len 16 else n) 0
    + 5 * (countIf mine s.coh.queue + countIf (fun (t : CohTxn) => mine t.req && !t.replied) s.coh.txns)
    + k.tx.foldl (fun n p => if p.kind = 2 ∨ (p.kind = 9 ∧ 0x20 ≤ p.op.toNat ∧ p.op.toNat ≤ 0x22) then n + packetSize p else n) 0

/-- The read credit ceiling (R380): from a BURST's write fence to its end, the burst ceiling, lowered with the flit time. -/
def Chip.readCeiling (s : Chip) (l : Nat) : Nat :=
  if s.win.fenceOn || s.inBurst then
    let k := s.link l
    let rate := k.width * k.speed
    if 128 ≤ rate then 48 else if 64 ≤ rate then 24 else 17
  else s.cfg Obj.linkReadSlots

/-- Advertise the first read and writeback credit (R363 step 5). -/
def Chip.sendReadCredit (s : Chip) (l : Nat) : Chip :=
  let k := s.link l
  let rl := max k.readLimit (k.readUsed + (min 48 (s.readCeiling l) - s.answersOwed l))
  let wl := max k.wbLimit (k.wbUsed + s.cfgAt Obj.linkWbCredits l)
  let s := s.setLink l { k with readLimit := rl, wbLimit := wl }
  (s.sendCtl l (.creditRd (rl % 65536))).sendCtl l (.creditWb (wl % 65536))

/-- The link comes up: counters start at zero and credits go out (R363 step 5, R378). -/
def Chip.enterInit (s : Chip) (l speed : Nat) : Chip :=
  let k := s.link l
  let s := s.setLink l { k with
    step := .init, speed := speed, initGot := 0, e := 0, nakSent := false, nextSeq := 0, held := [], limit := [], used := []
    recv := [], adv := [], readLimit := 0, readUsed := 0, lastVc := 0, wbLimit := 0, wbUsed := 0, errs := [], crcs := []
    flits := 0, partialSlots := [], resync := false, resent := 0 }
  (s.sendCredits l).sendReadCredit l

/-- Key slot 0 of the link holds a blob (R363). -/
def Chip.slotLoaded (s : Chip) (l slot : Nat) : Bool := (Tab.get {} s.husk.linkSlots (2 * l + slot)).loaded

/-- TS_BLOCK (R362, R363): TS1 and TS2 drive the training steps. -/
def Chip.tsBlock (s : Chip) (l : Nat) (b : BitVec 128) : Chip :=
  let v := b.toNat
  let k := s.link l
  if crc8 120 v ≠ bitsOf v 120 8 ∨ bitsOf v 8 8 ≠ l then s
  else
    let lane := bitsOf v 16 8
    let flags := bitsOf v 48 8
    let lanes := if lane < 4 then setBit k.lanes lane true else k.lanes
    match k.st with
    | .active => if bitOf flags 2 ∧ bitsOf v 0 8 = 0x2D then s.retrain l false else s
    | .changing => s.setLink l { k with lanes := lanes }
    | .training =>
      if bitsOf v 0 8 = 0x2D then
        match k.step with
        | .detect | .lock => s.setLink l { k with step := .lock, lanes := lanes }
        | _ => s
      else if bitsOf v 0 8 = 0x45 then
        match k.step with
        | .lock => s.setLink l { k with step := .config }
        | .config =>
          let w := widest k.lanes (bitsOf v 32 3) (s.cfgAt Obj.linkMaxWidth l)
          let enc := s.linkEnc l
          if w = 0 ∨ bitOf flags 0 ≠ enc ∨ (enc ∧ !s.slotLoaded l 0) then s
          else s.setLink l { k with
            step := .speed, width := w, vcs := min (s.cfgAt Obj.linkVcOffer l) (bitsOf v 40 8)
            endpointId := bitsOf v 64 32, peerSpeeds := bitsOf v 24 3 }
        | .speed =>
          let speed := highestSpeed k.peerSpeeds (s.cfgAt Obj.linkMaxSpeed l)
          if speed = 0 then s else s.enterInit l speed
        | _ => s
      else s
    | _ => s

/-- TRAINING_STEP_TIMEOUT (R363): lanes that did not lock are excluded; otherwise training starts again, and the third
failure takes the link down with cause 2. CONFIG's limit does not run while it waits for a key. -/
def Chip.trainingTimeout (s : Chip) (l : Nat) : Chip :=
  let k := s.link l
  if k.st ≠ .training then s
  else if k.step = .config ∧ s.linkEnc l ∧ !s.slotLoaded l 0 then s
  else if k.step = .lock ∧ k.lanes ≠ 0 then s.setLink l { k with step := .config }
  else if 2 ≤ k.tries then (s.setLink l { k with tries := 0 }).wantDown l 2
  else s.startTraining l (k.tries + 1)

/-! ### Acknowledgement and replay (R374 to R377) -/

/-- Resend held flits from `from` on (R375): counted as a replay; too many of the same oldest flit start a retrain. -/
def Chip.replayFrom (s : Chip) (l : Nat) (l0 : List TxFlit) : Chip :=
  let k := s.link l
  let oldest := match k.held, l0 with | a :: _, b :: _ => decide (a.seq = b.seq) | _, _ => false
  let resent := if oldest then k.resent + 1 else k.resent
  let s := s.setLink l { k with replays := k.replays + 1, resent := resent, sent := k.sent ++ l0.map .flit }
  let s := (s.countLink l 11 l0.length).charge (4 + l) 0 2 l0.length
  if oldest && decide (s.cfg Obj.linkReplayMax ≤ resent) then s.retrain l true else s

/-- A received ack (R375). -/
def Chip.applyAck (s : Chip) (l a : Nat) : Chip :=
  let k := s.link l
  match k.held with
  | [] => s
  | f :: _ =>
    let d := (a + 4096 - f.seq) % 4096
    if d < k.held.length then (s.setLink l { k with held := k.held.drop (d + 1), resent := 0 }).pump l
    else if 2048 ≤ d then s
    else s.linkError l true false

/-- NAK (R375): it acknowledges n − 1, and every held flit from n is resent. -/
def Chip.linkNak (s : Chip) (l n : Nat) : Chip :=
  if (s.link l).st = .active ∨ (s.link l).st = .changing then
    let s := (s.countLink l 10 1).applyAck l ((n + 4095) % 4096)
    let held := (s.link l).held
    let r := held.dropWhile (fun f => decide (f.seq ≠ n))
    if r = [] then s else s.replayFrom l r
  else s

/-- REPLAY_TIMEOUT (R376, R377). -/
def Chip.replayTimeout (s : Chip) (l : Nat) (parity : Bool) : Chip :=
  let k := s.link l
  if k.st = .active ∧ k.held ≠ [] then
    if parity then (s.parityLost 0 (0x10 + l) 0).wantDown l 8 else s.replayFrom l k.held
  else s

/-- Send NAK e (R374). -/
def Chip.nakNow (s : Chip) (l : Nat) : Chip :=
  let k := s.link l
  ((s.setLink l { k with nakSent := true }).sendCtl l (.nak k.e)).countLink l 9 1

/-- Send NAK e, once per e (R374). -/
def Chip.sendNak (s : Chip) (l : Nat) : Chip := if (s.link l).nakSent then s else s.nakNow l

/-! ### Credits (R379, R380) -/

/-- CREDIT (R379): a limit is taken if newer. In INIT it counts toward ACTIVE (R363). -/
def Chip.linkCredit (s : Chip) (l g : Nat) (limits : Nat) : Chip :=
  let k := s.link l
  if k.st = .active ∨ k.st = .changing ∨ (k.st = .training ∧ k.step = .init) then
    let lim := (List.range 4).foldl (fun t i =>
      let v := 4 * g + i
      let n := bitsOf limits (16 * i) 16
      if v < k.vcs ∧ (n + 65536 - Tab.get 0 t v) % 65536 < 32768 then Tab.put 0 t v n else t) k.limit
    let got := k.initGot ||| (2 ^ g)
    let up := k.st = .training ∧ bitOf got 0 ∧ (k.vcs ≤ 4 ∨ bitOf got 1)
    let s := s.setLink l { k with
      limit := lim, initGot := got, st := if up then .active else k.st, step := if up then .none else k.step
      tries := if up then 0 else k.tries }
    s.pump l
  else s

/-- CREDIT_RD (R380): the leader raises the read limit to `n` only within the ceiling, and never lowers it. -/
def Chip.raiseReadLimit (s : Chip) (l n : Nat) : Chip :=
  let k := s.link l
  let up := (n + 65536 - k.readLimit % 65536) % 65536
  let rl := k.readLimit + up
  if k.st = .active ∧ 0 < up ∧ up < 32768 ∧ rl - k.readUsed ≤ 48 ∧ rl - k.readUsed + s.answersOwed l ≤ s.readCeiling l then
    (s.setLink l { k with readLimit := rl }).sendCtl l (.creditRd n)
  else s

/-- CREDIT_WB (R379): the leader raises the writeback limit to `n`, up to link.wb_credits packets ahead. -/
def Chip.raiseWbLimit (s : Chip) (l n : Nat) : Chip :=
  let k := s.link l
  let up := (n + 65536 - k.wbLimit % 65536) % 65536
  let wl := k.wbLimit + up
  if k.st = .active ∧ 0 < up ∧ up < 32768 ∧ wl - k.wbUsed ≤ s.cfgAt Obj.linkWbCredits l then
    (s.setLink l { k with wbLimit := wl }).sendCtl l (.creditWb n)
  else s

/-- CREDIT_REFRESH (R379). -/
def Chip.creditRefresh (s : Chip) (l : Nat) : Chip :=
  if (s.link l).st = .active then s.sendCredits l else s

/-! ### Changes (R381 to R387) -/

/-- A width and speed both ends can take (R361, R382). -/
def Chip.changeOk (s : Chip) (l w sp : Nat) : Bool :=
  decide ((w = 1 ∨ w = 2 ∨ w = 4) ∧ (sp = 8 ∨ sp = 16 ∨ sp = 32) ∧ w ≤ s.cfgAt Obj.linkMaxWidth l
    ∧ sp ≤ s.cfgAt Obj.linkMaxSpeed l)
  && bitOf (s.link l).peerSpeeds (if sp = 8 then 0 else if sp = 16 then 1 else 2)

/-- The leader starts its own planned change (R382 step 1). -/
def Chip.startChange (s : Chip) (l w sp : Nat) : Chip :=
  let k := s.link l
  if k.st = .active ∧ k.change = none then
    let id := k.nextId % 256
    let s := s.setLink l { k with
      nextId := k.nextId + 1, queued := none, change := some { id := id, width := w, speed := sp, planned := true, leader := true } }
    s.sendCtl l (.changeReq id w sp 1)
  else s

/-- Step 3 of a change: CHANGE_GO goes out and new data flits stop (R382). -/
def Chip.goChange (s : Chip) (l : Nat) (c : LinkChange) : Chip :=
  let k := s.link l
  (s.setLink l { k with st := .changing, change := some { c with acked := true } }).sendCtl l (.changeGo c.id k.nextSeq)

/-- CHANGE_REQ from the endpoint (R383, R384). -/
def Chip.changeReq (s : Chip) (l id w sp reason : Nat) : Chip :=
  let k := s.link l
  if k.st ≠ .active ∧ k.st ≠ .changing then s
  else if reason ≠ 1 ∧ reason ≠ 2 then s.linkError l true false
  else
    match k.change with
    | some c => if c.leader ∧ !c.acked then s.setLink l { k with changeCrossed := k.changeCrossed + 1 } else s
    | none =>
      if k.st = .changing then s
      else if !s.changeOk l w sp then s.sendCtl l (.changeRefuse id)
      else if reason = 1 then
        let s := s.setLink l { k with queued := some (w, sp) }
        let ops := s.win.ops.filter (fun o => match o.kind with | .linkChange l' _ => decide (l' ≠ l) | _ => true)
        let s := { s with win := { s.win with ops := ops } }
        (s.sendCtl l (.changeDefer id)).requestOp (.linkChange l (w + 256 * sp)) 15
      else
        (s.sendCtl l (.changeAck id)).goChange l
          { id := id, width := w, speed := sp, planned := false, leader := false }

/-- CHANGE_ACK (R382 step 3). -/
def Chip.changeAck (s : Chip) (l id : Nat) : Chip :=
  match (s.link l).change with
  | some c => if c.leader ∧ !c.acked ∧ c.id = id then s.goChange l c else s
  | none => s

/-- CHANGE_REFUSE (R385): a planned change ends without a change. -/
def Chip.changeRefuse (s : Chip) (l id : Nat) : Chip :=
  let k := s.link l
  match k.change with
  | some c => if c.leader ∧ !c.acked ∧ c.id = id then s.setLink l { k with change := none, changeResult := 2 } else s
  | none => s

/-- CHANGE_GO from the partner (R382 step 4): the lanes retrain at the target. -/
def Chip.changeGo (s : Chip) (l id : Nat) : Chip :=
  let k := s.link l
  match k.change with
  | some c =>
    if c.acked ∧ !c.retraining ∧ c.id = id then
      s.setLink l { k with
        st := .changing, step := .lock, lanes := 0, change := some { c with retraining := true }, sent := k.sent ++ [.ts 0x2D 2] }
    else s
  | none => s

/-- CHANGE_REQ_TIMEOUT (R382 step 1): resent with the same id; after four sends, an error-driven retrain. -/
def Chip.changeReqTimeout (s : Chip) (l : Nat) : Chip :=
  let k := s.link l
  match k.change with
  | some c =>
    if c.leader ∧ !c.acked then
      if c.sends < 4 then
        (s.setLink l { k with change := some { c with sends := c.sends + 1 } }).sendCtl l (.changeReq c.id c.width c.speed 1)
      else s.retrain l true
    else s
  | none => s

/-- CHANGE_TIMEOUT (R385): steps 3 to 5 passed link.train_timeout_ms. -/
def Chip.changeTimeout (s : Chip) (l : Nat) : Chip :=
  let k := s.link l
  match k.change with
  | some c =>
    if c.acked then
      (s.setLink l { k with changeResult := if c.planned ∧ c.leader then 3 else k.changeResult }).wantDown l 3
    else s
  | none => s

/-- CHANGE_COMPLETE (R382 steps 5 and 6): the width that works, no wider than the target; every held flit is replayed. -/
def Chip.changeComplete (s : Chip) (l w sp : Nat) : Chip :=
  let k := s.link l
  match k.change with
  | some c =>
    if c.retraining ∧ (w = 1 ∨ w = 2 ∨ w = 4) ∧ w ≤ c.width ∧ sp = c.speed then
      let s := s.setLink l { k with
        st := .active, step := .none, width := w, speed := sp, change := none, nakSent := false
        changeResult := if c.planned ∧ c.leader then 1 else k.changeResult }
      let s := if k.held = [] then s else s.replayFrom l k.held
      s.pump l
    else s
  | none => s

/-! ### Flits -/

/-- A control record received (R368), in its slot's 16 bytes. -/
def Chip.ctlRecord (s : Chip) (l : Nat) (r : Nat) : Chip :=
  let b := fun i n => bitsOf r (8 * i) n
  match b 0 8 with
  | 0x00 => s
  | 0x01 => s.linkNak l (b 2 12)
  | 0x02 => s.linkCredit l (b 1 1) (b 2 64)
  | 0x05 => s.changeReq l (b 1 8) (b 2 8) (b 3 8) (b 4 8)
  | 0x06 => s.changeAck l (b 1 8)
  | 0x08 => s.changeRefuse l (b 1 8)
  | 0x09 => s.changeGo l (b 1 8)
  | 0x0A => s.wantDown l 5
  | _ => s.linkError l true false

/-- CONTROL_FLIT (R368): not sequenced; its records are taken in slot order, and its ack counts (R374). -/
def Chip.controlFlit (s : Chip) (l : Nat) (f : BitVec 2048) : Chip :=
  let k := s.link l
  let v := f.toNat
  if k.st = .active ∨ k.st = .changing ∨ (k.st = .training ∧ k.step = .init) then
    let s := s.setLink l { k with flits := k.flits + 1 }
    if flitCrc f ≠ bitsOf v 1984 64 then (s.linkError l false true).sendNak l
    else if !bitOf v 12 then s
    else
      let s := if bitOf v 28 then s.applyAck l (bitsOf v 16 12) else s
      (List.range 15).foldl (fun s i => s.ctlRecord l (bitsOf v (64 + 128 * i) 128)) s
  else s

/-- The packet of its slots (R369): header fields and data bytes. -/
def packetOf (slots : List (BitVec 128)) : Packet :=
  match slots with
  | [] => { kind := 0, vc := 0 }
  | h :: d =>
    let v := h.toNat
    { kind := BitVec.ofNat 8 v, vc := BitVec.ofNat 3 (v >>> 8), poison := bitOf v 11, cmpreq := bitOf v 12
      op := BitVec.ofNat 8 (v >>> 16), slotsM1 := BitVec.ofNat 8 (v >>> 24), pasid := BitVec.ofNat 20 (v >>> 32)
      tag := BitVec.ofNat 12 (v >>> 52), addr := BitVec.ofNat 56 (v >>> 64), lenM1 := BitVec.ofNat 8 (v >>> 120)
      data := d.flatMap (fun x => bytesLE 16 x.toNat) }

/-- The packet keeps the limits of R370, R371 and R431 and travels in the right direction. -/
def packetOk (vcs coh : Nat) (p : Packet) : Bool :=
  let len := p.lenM1.toNat + 1
  let slots := packetSize p
  let a := pktDla p
  let op := p.op.toNat
  let spans := decide (a % 4096 + len ≤ 4096)
  decide (p.vc.toNat < vcs) && (decide (p.kind = 9) || decide (p.vc.toNat ≠ coh)) &&
  (match p.kind.toNat with
   | 0x01 => spans && decide (slots = 1 ∧ op = 0)
   | 0x03 => spans && decide (slots = 1 + ceilDiv len 16 ∧ op = 0)
   | 0x04 => decide (slots = 1 ∧ op ≤ 1)
   | 0x05 => decide (len % 16 = 0 ∧ slots = 1 + len / 16 ∧ op = 0)
   | 0x06 => spans && decide (slots = 1 + ceilDiv len 16 ∧ foldField op ≠ 0)
              && decide (a % foldField op = 0 ∧ len % foldField op = 0)
   | 0x07 => decide (slots = 1 ∧ op = 0)
   | 0x09 => (if op ∈ [0x04, 0x1A, 0x1B, 0x1C] then decide (slots = 5)
              else if op = 0x06 then decide (slots = 6) else !(op ∈ [0x01, 0x02, 0x03, 0x05, 0x07, 0x18, 0x19]) || decide (slots = 1))
   | 0x0A => decide (slots = 2)
   | 0x0B => decide (slots = 2 ∧ op = 0)
   | _ => false)

/-- A whole packet has arrived: it joins the receive buffer and spends its credit (R371, R378 to R380). -/
def Chip.takePacket (s : Chip) (l : Nat) (p : Packet) : Chip :=
  let k := s.link l
  if packetOk k.vcs (s.cohVc l) p then
    let wb := decide (p.kind = 9 ∧ p.op = 0x04)
    s.setLink l { k with
      rx := k.rx ++ [p], recv := if packetFree p then k.recv else Tab.upd 0 k.recv p.vc.toNat (· + packetSize p)
      wbUsed := if wb then k.wbUsed + 1 else k.wbUsed, readUsed := k.readUsed + answerSlots p }
  else s.linkError l true false

/-- One slot of an accepted flit (R367): `start` its starts bit. -/
def Chip.takeSlot (s : Chip) (l : Nat) (x : BitVec 128) (start : Bool) : Chip :=
  let k := s.link l
  let begin := fun (s : Chip) =>
    let k := s.link l
    if bitsOf x.toNat 24 8 = 0 then (s.setLink l { k with partialSlots := [], resync := false }).takePacket l (packetOf [x])
    else s.setLink l { k with partialSlots := [x], resync := false }
  match k.partialSlots with
  | [] =>
    if start then begin s
    else if k.resync ∨ x = 0 then s
    else (s.setLink l { k with resync := true }).linkError l true false
  | h :: _ =>
    if start then begin ((s.setLink l { k with partialSlots := [] }).linkError l true false)
    else
      let ps := k.partialSlots ++ [x]
      if ps.length = bitsOf h.toNat 24 8 + 1 then (s.setLink l { k with partialSlots := [] }).takePacket l (packetOf ps)
      else s.setLink l { k with partialSlots := ps }

/-- The slots of an accepted flit, decrypted where the link encrypts (R392); none: the tag fails. Under a key change the
endpoint's first flit under the new slot ends the acceptance of the old one (R231). -/
def Chip.openFlit (s : Chip) (l : Nat) (v : Nat) : Option (List (BitVec 128) × Chip) :=
  if s.linkEnc l then
    let ks := if bitOf v 14 then 1 else 0
    let active := s.activeSlot l
    if ks ≠ active ∧ !bitOf s.husk.switching l then none
    else
      let x := Tab.get {} s.husk.linkSlots (2 * l + ks)
      match Config.gcmOpen x.up x.saltUp x.received (BitVec.ofNat 64 v) (bytesLE 240 (v >>> 64)) with
      | none => none
      | some body =>
        let hk := { s.husk with
          linkSlots := Tab.put {} s.husk.linkSlots (2 * l + ks) { x with received := x.received + 1 }
          switching := if ks = active then setBit s.husk.switching l false else s.husk.switching }
        let s := { s with husk := hk }
        some (dataSlots 14 body, if x.received + 1 = 2 ^ 48 then s.raise 85 (0x10 + l) 0 (.link l) else s)
  else some ((List.range 15).map (fun i => BitVec.ofNat 128 (v >>> (64 + 128 * i))), s)

/-- The receive charge of an accepted flit (R558): poisoned, empty or carried. -/
def flitCharge (ps : List Packet) (slots : List (BitVec 128)) : Nat :=
  if slots.all (· = 0) then 6
  else if ps ≠ [] ∧ ps.all (·.poison) then 4
  else 1

/-- DATA_FLIT (R374): checked by CRC and sequence, then accepted, discarded or NAKed, and its packets parsed. -/
def Chip.dataFlit (s : Chip) (l : Nat) (f : BitVec 2048) : Chip :=
  let k := s.link l
  let v := f.toNat
  if k.st = .active ∨ (k.st = .changing ∧ (k.change.map (·.retraining)) ≠ some true) then
    let s := s.setLink l { k with flits := k.flits + 1 }
    if flitCrc f ≠ bitsOf v 1984 64 then ((s.charge (4 + l) 1 2 1).linkError l false true).sendNak l
    else if bitOf v 12 then s
    else
      let d := (bitsOf v 0 12 + 4096 - k.e) % 4096
      let ack := fun (s : Chip) => if bitOf v 28 then s.applyAck l (bitsOf v 16 12) else s
      if d = 0 then
        if bitOf v 13 ≠ s.linkEnc l then ((s.charge (4 + l) 1 2 1).linkError l false true).nakNow l
        else match s.openFlit l v with
          | none =>
            let s := { s with husk := { s.husk with tagFailures := Tab.upd 0 s.husk.tagFailures l (· + 1) } }
            (((s.charge (4 + l) 1 2 1).raise 81 (0x10 + l) 0 (.link l)).linkError l false true).nakNow l
          | some (slots, s) =>
            let n := (s.link l).rx.length
            let s := s.setLink l { s.link l with e := (k.e + 1) % 4096, nakSent := false }
            let s := (slots.zip (List.range 15)).foldl (fun s (x, i) => s.takeSlot l x (bitOf v (32 + i))) s
            let s := s.charge (4 + l) 1 (flitCharge ((s.link l).rx.drop n) slots) 1
            (ack s).sendCtl l .empty
      else if d < 2048 then (ack (s.charge (4 + l) 1 2 1)).sendNak l
      else (ack (s.charge (4 + l) 1 2 1)).sendCtl l .empty
  else s

/-- CHANGE_DEFER (R368) is sent by the leader only: receiving one is a protocol error (log entry 5). -/
def Chip.wrongWay (s : Chip) (l : Nat) : Chip :=
  if (s.link l).st = .active ∨ (s.link l).st = .changing then s.linkError l true false else s

/-- UP (R391), once the checks have passed: a disabled or down link starts training. -/
def Chip.linkUp (s : Chip) (l : Nat) : Chip :=
  if (s.link l).st = .disabled ∨ (s.link l).st = .down then s.startTraining l 0 else s

/-- AUTO_RETRAIN (R391): link.down_hold_ms after going down, with link.auto_retrain 1 and the SL domain ON. -/
def Chip.autoRetrain (s : Chip) (l : Nat) : Chip :=
  if (s.link l).st = .down ∧ s.cfgAt Obj.linkAutoRetrain l = 1 ∧ s.domain (linkDomain l) = .on then s.startTraining l 0
  else s

end Sys2Proof.Machine
end

