-- ==== Sys2Proof/Machine/Home.lean ====
section
/-!
DEFINITION. Machine/Home.lean: the home (R117 to R138): agents and their messages, the snoop filter, an owner's data that is held until it
is stored, the transactions of a line, trackers, and an access to memory as a port or device-side master makes it.
-/
namespace Sys2Proof.Machine

/-! ### Agents and messages -/

/-- The agent of a head: its group (R118). -/
def Chip.headAgent (s : Chip) (h : Nat) : Nat := s.cfgAt Obj.headGroup h

/-- The agent of a link (R118). -/
def linkAgent (l : Nat) : Nat := 8 + l

/-- A master ID that stands for an agent's own writes to memory: its link's, or its group number for heads. -/
def agentMaster (a : Nat) : Nat := if 8 ≤ a then 0x10 + (a - 8) else a

/-- The agent belongs to the domain. -/
def Chip.isMember (s : Chip) (d a : Nat) : Bool := bitOf (s.cfgAt Obj.cohDomainAgents d) a

/-- The agent is dead (R140). -/
def Chip.agentIsDead (s : Chip) (a : Nat) : Bool := bitOf s.coh.dead a

/-- The heads of a group that are up and not in failover detection first, then those in detection (R76, R125). -/
def Chip.groupHead (s : Chip) (g : Nat) : Option Nat :=
  let up := fun (h : Nat) => decide (s.headAgent h = g ∧ (s.head h).state = .active)
  match [0, 1, 2, 3].find? (fun h => up h && !(s.head h).detect) with
  | some h => some h
  | none => [0, 1, 2, 3].find? up

/-- Send a coherent message to a link (R124, R134), with data where its code carries it. -/
def Chip.cohSend (s : Chip) (l op tag a : Nat) (data : Option (Line × Bool)) : Chip :=
  if s.agentIsDead (linkAgent l) then s
  else match data with
    | some (x, p) => s.queuePacket l (mkPacket 0x09 (s.cohVc l) op tag 0 a (lineBytes x) 5 p)
    | none => s.queuePacket l (mkPacket 0x09 (s.cohVc l) op tag 0 a [] 1)

/-- The head that a snoop of agent `a` goes through (R125); a link's goes through none. -/
def Chip.snoopVia (s : Chip) (a : Nat) : Nat := (s.groupHead a).getD 0

/-- Send a snoop to an agent (R124, R125): 0 SNP_INV, 1 SNP_DATA, 2 SNP_CUR. -/
def Chip.sendSnoop (s : Chip) (a kind ln : Nat) : Chip :=
  if s.agentIsDead a then s
  else if 8 ≤ a then s.cohSend (a - 8) (0x10 + kind) 0 (64 * ln) none
  else match s.groupHead a with
    | some h => (s.sendHead h (.snoop kind (64 * ln))).countHead h 8 1
    | none => s

/-- The coherence domain of a line (R117). -/
def Chip.lineDomain (s : Chip) (ln : Nat) : Option Nat := (s.extentOf (64 * ln)).bind (fun e => s.caskDomain e.cask)

/-- A change of the cask's assignment is running: its lines are offline (R117, R143). -/
def Chip.assigning (s : Chip) (c : Nat) : Bool :=
  match s.win.running with
  | some o => (match o.kind with | .caskDomain c' _ => decide (c' = c) | _ => false)
  | none => false

/-- The line belongs to a cask whose assignment is changing. -/
def Chip.lineAssigning (s : Chip) (ln : Nat) : Bool :=
  match s.extentOf (64 * ln) with | some e => s.assigning e.cask | none => false

/-- The answer of a coherent request to its requester: `op` is the link message of it, `metaI` that no copy is granted. -/
def Chip.cohAnswer (s : Chip) (q : CohReq) (op : Nat) (metaI : Bool) (data : Option (Line × Bool)) : Chip :=
  let (x, p) := data.getD (0, false)
  match q.acc.ret with
  | .link l tag => if q.agent.isSome then s.cohSend l op tag (lineBase q.acc.dla) data else s.deliver (.link l tag) q.acc.kind q.acc.dla x p
  | .head h tag mv => s.deliver (.head h tag (if metaI then .i else mv)) q.acc.kind q.acc.dla x p
  | r => s.deliver r q.acc.kind q.acc.dla x p

/-- A write, fold or ownership read that a domain drops is counted (R141). -/
def Chip.dropRequest (s : Chip) (d : Nat) (q : CohReq) : Chip :=
  if q.acc.kind ≠ .read ∨ q.kind = .own then s.setDom d { s.dom d with dropped := (s.dom d).dropped + 1 } else s

/-- An error completion (R141): ERR to an endpoint, poison or a bare completion to others, and nothing to a dead agent. -/
def Chip.cohError (s : Chip) (d : Nat) (q : CohReq) : Chip :=
  let s := s.dropRequest d q
  if q.agent.any s.agentIsDead then s
  else match q.agent, q.acc.ret with
  | some _, .link l tag => s.cohSend l 0x26 tag (lineBase q.acc.dla) none
  | _, r =>
    if q.acc.kind = .read then
      let (x, s) := s.takeLine
      s.deliver r .read q.acc.dla x true
    else (s.dropFold q.acc).deliver r q.acc.kind q.acc.dla 0 false

/-! ### Filter -/

/-- The filter entry of a line. -/
def Chip.ent (s : Chip) (ln : Nat) : Option FilterEnt := Tab.find s.coh.filter ln

/-- A line's entry takes a value, or leaves the filter when no copy is left (R121); a use is a change of the entry (DESIGN CHOICE, log
entry 150). -/
def Chip.setEnt (s : Chip) (ln : Nat) (owner : Option Nat) (sharers d : Nat) : Chip :=
  if owner = none ∧ sharers = 0 then { s with coh := { s.coh with filter := Tab.del s.coh.filter ln } }
  else { s with coh := { s.coh with
    filter := Tab.set s.coh.filter ln ⟨owner, sharers, d, s.coh.clock⟩, clock := s.coh.clock + 1 } }

/-- An agent no longer holds the line. -/
def Chip.dropCopy (s : Chip) (a ln : Nat) : Chip :=
  match s.ent ln with
  | some e =>
    if e.owner = some a then s.setEnt ln none 0 e.domain
    else if bitOf e.sharers a then s.setEnt ln e.owner (setBit e.sharers a false) e.domain
    else s
  | none => s

/-- An owner keeps a clean copy only. -/
def Chip.shareCopy (s : Chip) (a ln : Nat) : Chip :=
  match s.ent ln with
  | some e => if e.owner = some a then s.setEnt ln none (2 ^ a) e.domain else s
  | none => s

/-- An agent's copy becomes what its answer or writeback says (R124, R125, R129): 0 invalid, 1 shared, else unchanged. -/
def Chip.keepCopy (s : Chip) (a ln keep : Nat) : Chip :=
  match keep with
  | 0 => s.dropCopy a ln
  | 1 => s.shareCopy a ln
  | _ => s

/-- Entries in the set of a line (R122): DLA[23:6]. -/
def Chip.setCount (s : Chip) (ln : Nat) : Nat := countIf (fun e => decide (e.1 % 262144 = ln % 262144)) s.coh.filter

/-- A copy can be granted: the line has an entry, or its set a free way (R123). -/
def Chip.canGrant (s : Chip) (ln : Nat) : Bool := (s.ent ln).isSome || decide (s.setCount ln < 16)

/-- A transaction is active on the line (R127). -/
def Chip.txnOf (s : Chip) (ln : Nat) : Option CohTxn := s.coh.txns.find? (fun t => decide (t.line = ln))

/-- Change the active transaction of a line. -/
def Chip.modTxn (s : Chip) (ln : Nat) (f : CohTxn → CohTxn) : Chip :=
  { s with coh := { s.coh with txns := modFirst (fun t => decide (t.line = ln)) f s.coh.txns } }

/-- A request takes its place: in its line's queue, or, from the device's side, in the device queue (R127). -/
def Chip.queueReq (s : Chip) (q : CohReq) : Chip :=
  match q.agent with
  | some _ => { s with coh := { s.coh with queue := s.coh.queue ++ [q] } }
  | none => { s with coh := { s.coh with devQueue := s.coh.devQueue ++ [q] } }

/-- An eviction or a recall of the line is on its way. -/
def Chip.takingBack (s : Chip) (ln : Nat) : Bool :=
  let mine := fun (q : CohReq) => decide (q.kind = .evict ∨ q.kind = .recall) && decide (lineNo q.acc.dla = ln)
  (s.coh.queue ++ s.coh.devQueue).any mine || s.coh.txns.any (fun t => mine t.req)

/-- A filter entry before those used later. -/
def insertLru (e : Nat × FilterEnt) : List (Nat × FilterEnt) → List (Nat × FilterEnt)
  | [] => [e]
  | x :: r => if e.2.lru < x.2.lru then e :: x :: r else x :: insertLru e r

/-- The filter's entries, least recently used first. -/
def Chip.byLru (s : Chip) : List (Nat × FilterEnt) := s.coh.filter.foldl (fun l e => insertLru e l) []

/-- The line's set has too few free ways, those on their way counted (R122). -/
def Chip.setShort (s : Chip) (ln : Nat) : Bool :=
  let going := countIf (fun (e : Nat × FilterEnt) => decide (e.1 % 262144 = ln % 262144) && s.takingBack e.1) s.coh.filter
  decide (16 - s.setCount ln + going < s.cfg Obj.cohSfReserveWays)

/-- The entry may be evicted now (R122, R136): its set is short, no transaction of its line is active, and a tracker is free. -/
def Chip.evictable (s : Chip) (ln : Nat) : Bool :=
  (s.txnOf ln).isNone && !s.takingBack ln && decide (s.sharedTrackers < 4084) && s.setShort ln

/-- Every short set evicts, from its least recently used entry (R122). -/
def Chip.evictPass (s : Chip) : Chip :=
  s.byLru.foldl (fun s e =>
    if s.evictable e.1 then
      ({ s with coh := { s.coh with evictions := s.coh.evictions + 1 } } : Chip).queueReq (homeReq .evict e.1)
    else s) s

/-- The entry must be recalled (R143): its domain is RECALLING, or its cask's assignment changes. -/
def Chip.recalled (s : Chip) (ln d : Nat) : Bool := decide ((s.dom d).state = .recalling) || s.lineAssigning ln

/-- Every tracked line under a recall is asked back, as trackers come free (R136, R143). -/
def Chip.recallPass (s : Chip) : Chip :=
  s.coh.filter.foldl (fun s e =>
    if s.recalled e.1 e.2.domain && !s.takingBack e.1 && decide (s.sharedTrackers < 4084) then s.queueReq (homeReq .recall e.1) else s) s

/-! ### An owner's data (R130) -/

/-- The line as the home serves it (R130): the data it holds, or memory, and whether it carries poison. -/
def Chip.homeLine (s : Chip) (ln : Nat) : Line × Bool :=
  (Tab.find s.coh.held ln).getD (s.line (64 * ln), s.poisoned (64 * ln))

/-- The whole line that an owner's write leaves: its own bytes over what the home serves. -/
def Chip.ownerLine (s : Chip) (a : Access) : Line × Bool :=
  let (y, q) := s.homeLine (lineNo a.dla)
  if a.mask = fullMask then (a.data, a.poison) else (mergeLine y a.data a.mask, a.poison || q)

/-- A write that waits takes a later one of its line. -/
def Access.join (w a : Access) : Access :=
  { w with mask := w.mask ||| a.mask, data := mergeLine w.data a.data a.mask, poison := if a.mask = fullMask then a.poison else w.poison || a.poison }

/-- An owner's data goes to memory through the cache (R130); until it is stored, the home holds the line. -/
def Chip.storeHeld (s : Chip) (a : Access) (o : Obs) : Chip :=
  let ln := lineNo a.dla
  let mine := fun (w : Wait) => decide (w.acc.ret = .held ln)
  let s' : Chip := { s with coh := { s.coh with held := Tab.set s.coh.held ln (s.ownerLine a) } }
  if s.waits.any mine then { s' with waits := s.waits.map (fun w => if mine w then { w with acc := w.acc.join a } else w) }
  else s'.enter { a with ret := .held ln } o

/-- The write of a whole line that agent `a` returned. -/
def ownerStore (a ln : Nat) (d : Line × Bool) : Access :=
  ⟨agentMaster a, .byDir, .write, 64 * ln, fullMask, d.1, d.2, true, 0, .none⟩

/-! ### Transactions (R127 to R132) -/

/-- A read of a line. -/
def CohKind.reads (k : CohKind) : Bool := decide (k = .cur ∨ k = .shared ∨ k = .own)

/-- The holders of a line other than the requester, with the snoop each gets for a request (R129). -/
def snoopsFor (k : CohKind) (me : Option Nat) (e : Option FilterEnt) : List (Nat × Nat) :=
  match e with
  | none => []
  | some e =>
    let others := (List.range 16).filter (fun a => bitOf e.sharers a && decide (some a ≠ me))
    match e.owner with
    | some a =>
      if some a = me ∧ k ≠ .evict ∧ k ≠ .recall then []
      else match k with
        | .cur => [(a, 2)]
        | .shared => [(a, 1)]
        | _ => [(a, 0)]
    | none => match k with
      | .cur | .shared => []
      | _ => others.map (fun a => (a, 0))

/-- What a request asks in the window now in effect (R126): no ownership in BURST. -/
def Chip.effKind (s : Chip) (q : CohReq) : CohKind :=
  if q.kind = .own ∧ s.inBurst then (match q.acc.ret with | .head _ _ _ => .cur | _ => .shared) else q.kind

/-- No copy is granted where the set has no free way (R123). -/
def Chip.downgrade (s : Chip) : CohKind × Chip := (.cur, { s with coh := { s.coh with downgrades := s.coh.downgrades + 1 } })

/-- The home state after a request that granted `k` (R126, R129), whose snoops have set the entry as they were answered; a copy that finds
no way is not granted (R123); a shared read by the owner leaves it the owner (DESIGN CHOICE, log entry 149). -/
def Chip.grant (s : Chip) (t : CohTxn) : CohKind × Chip :=
  let ln := t.line
  let e := (s.ent ln).getD ⟨none, 0, t.domain, 0⟩
  match t.req.agent, s.effKind t.req with
  | _, .write => (.write, s.setEnt ln none 0 t.domain)
  | _, .evict => (.evict, s.setEnt ln none 0 t.domain)
  | _, .recall => (.recall, s.setEnt ln none 0 t.domain)
  | some a, .shared =>
    if e.owner = some a then (.shared, s.setEnt ln (some a) 0 t.domain)
    else if s.canGrant ln then (.shared, s.setEnt ln none (setBit e.sharers a true) t.domain)
    else s.downgrade
  | some a, .own => if s.canGrant ln then (.own, s.setEnt ln (some a) 0 t.domain) else s.downgrade
  | _, _ => (.cur, s)

/-- The link message that answers a granted kind (R124). -/
def cmpCode : CohKind → Nat
  | .shared => 0x20 | .own => 0x21 | .cur => 0x22 | _ => 0x23

/-- A read that the home answers counts for its port (R35, R554), and one of a poisoned line is recorded (R64). -/
def Chip.homeStats (s : Chip) (t : CohTxn) : Chip :=
  let s := s.readStats { t.req.acc with ret := .none } t.req.obs
  if t.event then s.poisonEvent { t.req.acc with ret := .none } else s

/-- Answer a transaction's requester and set the home state. -/
def Chip.replyTxn (s : Chip) (t : CohTxn) (data : Option (Line × Bool)) : Chip :=
  let (g, s) := s.grant t
  match t.req.kind with
  | .evict | .recall => s
  | .write => s.cohAnswer t.req 0x23 false none
  | _ => (s.homeStats t).cohAnswer t.req (cmpCode g) (decide (g = .cur)) data

/-- A transaction ends; a memory read of it that is still out is discarded (R131). -/
def Chip.endTxn (s : Chip) (ln : Nat) : Chip :=
  { s with
    coh := { s.coh with txns := s.coh.txns.filter (fun u => decide (u.line ≠ ln)) }
    waits := s.waits.filter (fun w => decide (w.acc.ret ≠ .coh ln)) }

/-- The access below the home that a transaction makes (R130, R131). -/
def Chip.issueTxn (s : Chip) (ln : Nat) (q : CohReq) : Chip :=
  (s.modTxn ln (fun u => { u with issued := true })).enter { q.acc with ret := .coh ln } q.obs

/-- The data that answers a read: an owner's before memory's (R131). -/
def CohTxn.answer (t : CohTxn) : Option (Line × Bool) := match t.data with | some d => some d | none => t.done

/-- A transaction can move: its snoops are answered, its data is there, and a write or an eviction finds the owner's data stored (R122, R130). -/
def Chip.canMove (s : Chip) (t : CohTxn) : Bool :=
  let stored := (Tab.find s.coh.held t.line).isNone
  t.owed.isEmpty &&
    (match t.req.kind with
     | .evict | .recall => stored
     | .write => if t.issued then t.done.isSome else stored
     | _ => t.replied || t.answer.isSome)

/-- One move of a transaction that can move: the access of a write, or its end. -/
def Chip.moveTxn (s : Chip) (t : CohTxn) : Chip :=
  match t.req.kind with
  | .evict | .recall => (s.replyTxn t none).endTxn t.line
  | .write => if t.issued then (s.replyTxn t none).endTxn t.line else s.issueTxn t.line t.req
  | _ => (if t.replied then s else s.replyTxn t t.answer).endTxn t.line

/-- The request can start: its line is idle and not offline (R143), and no agent it would snoop has 64 snoops outstanding (R133). -/
def Chip.canStart (s : Chip) (q : CohReq) : Bool :=
  let ln := lineNo q.acc.dla
  let busy := fun (a : Nat) => decide (64 ≤ countIf (fun t => t.owed.any (fun o => decide (o.agent = a))) s.coh.txns)
  let offline := s.lineAssigning ln || (match s.lineDomain ln with | some d => decide ((s.dom d).state = .recalling) | none => false)
  (s.txnOf ln).isNone
    && (decide (q.kind = .recall ∨ q.kind = .evict) || !offline)
    && !(snoopsFor (s.effKind q) q.agent (s.ent ln)).any (fun o => busy o.1)

/-- The first request of the queue that can start (R127): arrival order per line; in a BURST window a waiting read goes ahead of
other agents' waiting writes and ownership reads of its line. -/
def Chip.nextStart (s : Chip) : Option CohReq :=
  let q := s.coh.queue
  let isRead := fun (r : CohReq) => decide (r.kind = .cur ∨ r.kind = .shared)
  let ahead := fun (r : CohReq) (b : CohReq) =>
    decide (lineNo b.acc.dla = lineNo r.acc.dla) && !(s.inBurst && isRead r && !isRead b && decide (b.agent ≠ r.agent))
  q.find? (fun r => s.canStart r && !(q.takeWhile (fun b => decide (b ≠ r))).any (ahead r))

/-- Start a request: its snoops go out (R129), and a read's memory access with them (R131), but for data that the home holds (R130). -/
def Chip.startReq (s : Chip) (q : CohReq) : Chip :=
  let ln := lineNo q.acc.dla
  let d := (s.lineDomain ln).getD ((s.ent ln).map (·.domain) |>.getD 64)
  let q' := { q with kind := s.effKind q }
  let owed := (snoopsFor q'.kind q'.agent (s.ent ln)).map (fun x => (⟨x.1, x.2, s.snoopVia x.1⟩ : SnoopOut))
  let data := if q'.kind.reads then Tab.find s.coh.held ln else none
  let s := { s with coh := { s.coh with
    queue := s.coh.queue.erase q, txns := s.coh.txns ++ [{ line := ln, domain := d, req := q', owed := owed, data := data }] } }
  let s := owed.foldl (fun s o => s.sendSnoop o.agent o.kind ln) s
  if q'.kind.reads && data.isNone then s.issueTxn ln q' else s

/-- The device slot of a line is free (R127). -/
def Chip.slotFree (s : Chip) (ln : Nat) : Bool :=
  s.coh.queue.all (fun q => q.agent.isSome || decide (lineNo q.acc.dla ≠ ln)) && s.coh.txns.all (fun t => t.req.agent.isSome || decide (t.line ≠ ln))

/-- The first request of the device queue whose line's device slot is free (R127). -/
def Chip.nextAdmit (s : Chip) : Option CohReq := s.coh.devQueue.find? (fun q => s.slotFree (lineNo q.acc.dla))

/-- A device-side request enters its line's queue. -/
def Chip.admitReq (s : Chip) (q : CohReq) : Chip :=
  { s with coh := { s.coh with devQueue := s.coh.devQueue.erase q, queue := s.coh.queue ++ [q] } }

/-- PULL goes to a link whose reserved tracker is free and which was sent a RETRY since its last reissue on it (R137). -/
def Chip.maybePull (s : Chip) (l : Nat) : Chip :=
  let a := linkAgent l
  let usesReserved := fun (q : CohReq) => q.reserved && decide (q.agent = some a)
  if bitOf s.coh.retrySince a && !bitOf s.coh.pulled a && !s.agentIsDead a
      && !s.coh.queue.any usesReserved && !s.coh.txns.any (fun t => usesReserved t.req) then
    let s := { s with coh := { s.coh with pulled := setBit s.coh.pulled a true } }
    s.cohSend l 0x25 0 0 none
  else s

/-- The home's own work: recalls, then evictions (R122, R143). -/
def Chip.homeWork (s : Chip) : Chip := s.recallPass.evictPass

/-- Move transactions, take requests in, start and add the home's own work until nothing can move; `fuel` bounds the moves. -/
def Chip.cohLoop (s : Chip) : Nat → Chip
  | 0 => s
  | n + 1 =>
    match s.coh.txns.find? s.canMove with
    | some t => Chip.cohLoop (s.moveTxn t) n
    | none => match s.nextAdmit with
      | some q => Chip.cohLoop (s.admitReq q) n
      | none => match s.nextStart with
        | some q => Chip.cohLoop (s.startReq q) n
        | none =>
          let s' := s.homeWork
          if s'.coh.devQueue.length = s.coh.devQueue.length then s else Chip.cohLoop s' n

/-- Move every transaction as far as it goes, then send the PULLs that are due. -/
def Chip.cohPump (s : Chip) : Chip :=
  let s := s.cohLoop (6 * (s.coh.txns.length + s.coh.queue.length + s.coh.devQueue.length + s.coh.filter.length) + 8)
  (List.range 8).foldl (fun s l => s.maybePull l) s

/-! ### Requests -/

/-- A group's reserved tracker is free (R138). -/
def Chip.reservedFree (s : Chip) (a : Nat) : Bool :=
  !s.coh.txns.any (fun t => t.req.reserved && decide (t.req.agent = some a))
    && !s.coh.queue.any (fun q => q.reserved && decide (q.agent = some a))

/-- The domain serves requests: ACTIVE, unused, or in a RECALL, where they wait (R141, R143). -/
def Chip.domServes (s : Chip) (d : Nat) : Bool :=
  match (s.dom d).state with
  | .down => false
  | .recalling => !(s.dom d).reform
  | _ => true

/-- The group whose head made an access. -/
def Chip.groupOf (s : Chip) (a : Access) : Option Nat := if a.master < 4 then some (s.headAgent a.master) else none

/-- A request waits for a tracker that comes before one of `who`'s (R138): any request for a shared tracker, its own group's for the reserved. -/
def Chip.trackerWaits (s : Chip) (who : Option Nat) : Bool :=
  s.waits.any (fun w => decide (w.why = .tracker) && (who.isNone || decide (s.groupOf w.acc = who)))

/-- A request of a head or a device-side master reaches the home (R136, R138). -/
def Chip.cohRequest (s : Chip) (d : Nat) (q : CohReq) : Chip :=
  if !s.domServes d then s.cohError d q
  else if s.sharedTrackers < 4084 ∧ !s.trackerWaits none then s.queueReq q
  else match q.agent with
    | some a =>
      if s.reservedFree a ∧ !s.trackerWaits (some a) then s.queueReq { q with reserved := true } else s.park .tracker q.acc q.obs
    | none => s.park .tracker q.acc q.obs

/-- A snoop to agent `a` is outstanding in a transaction. -/
def CohTxn.owes (t : CohTxn) (a : Nat) : Bool := t.owed.any (fun x => decide (x.agent = a))

/-- A transaction of the line waits for the snoop answer of `a`. -/
def Chip.snooped (s : Chip) (a ln : Nat) : Option CohTxn := (s.txnOf ln).filter (fun t => t.owes a)

/-- The data that agent `a` returned is forwarded at once, where nothing else is outstanding (R130, R132). -/
def Chip.forward (s : Chip) (a : Nat) (t : CohTxn) (d : Line × Bool) : Chip :=
  let s := s.modTxn t.line (fun u => { u with data := some d })
  if t.req.kind.reads && !t.replied && t.owed.all (fun x => decide (x.agent = a)) then
    (s.modTxn t.line (fun u => { u with replied := true })).replyTxn t (some d)
  else s

/-- A writeback from the owner (R125, R129, R132): it is complete, stored from the home, and supplies the data of a snoop outstanding
to that owner. `keep` says what copy stays: 0 none, 1 S, 2 the same (log entry 155). -/
def Chip.ownerWrite (s : Chip) (a : Nat) (acc : Access) (o : Obs) (keep : Nat) : Chip :=
  let ln := lineNo acc.dla
  let d := s.ownerLine acc
  let t := s.snooped a ln
  let s := (s.keepCopy a ln keep).storeHeld { acc with ret := .none } o
  let s := s.deliver acc.ret .write acc.dla 0 false
  match t with
  | some t => s.forward a t d
  | none => s

/-- A head's access to a line of domain `d` (R119, R125, R141). -/
def Chip.headAccess (s : Chip) (d : Nat) (a : Access) (o : Obs) (tc : Nat) : Chip :=
  let g := s.headAgent a.master
  let owner := decide ((s.ent (lineNo a.dla)).bind (·.owner) = some g)
  let mv := match a.ret with | .head _ _ mv => mv | _ => .i
  if !s.isMember d g || !(s.head a.master).bi then s.violate a
  else if a.kind = .write ∧ owner ∧ !s.agentIsDead g then
    (s.ownerWrite g a o (match mv with | .i => 0 | .s => 1 | .a => 2)).cohPump
  else
    let k : CohKind := if a.kind ≠ .read then .write else match mv with | .a => .own | .s => .shared | .i => .cur
    let q : CohReq := { agent := some g, kind := k, acc := a, obs := o, tc := tc }
    if s.agentIsDead g then s.dropRequest d q else (s.cohRequest d q).cohPump

/-- An access to memory by DLA: checked (R111), then through the home where the memory is shared-coherent (R117 to R120); the lines of a
cask whose assignment changes are offline (R143). `tc` is when it was accepted. -/
def Chip.access (s : Chip) (a : Access) (o : Obs) (tc : Option Nat := none) : Chip :=
  match s.verdict a o with
  | .violation => s.violate a
  | .damaged t => s.damagedAccess a o t
  | .ok c =>
    if s.assigning c then s.park .assign a o
    else match s.caskDomain c with
    | none => s.enter a o
    | some d =>
      if a.master < 4 then s.headAccess d a o (tc.getD s.tb.tc)
      else if 0x10 ≤ a.master ∧ a.master < 0x18 ∧ a.kind ≠ .fold then s.violate a
      else (s.cohRequest d { agent := none, kind := if a.kind = .read then .cur else .write, acc := a, obs := o, tc := tc.getD s.tb.tc }).cohPump

/-- The wait may be over: for a tracker of its own or a shared one (R138), or as its cask's assignment is done (R143). -/
def Chip.admissible (s : Chip) (w : Wait) : Bool :=
  match w.why with
  | .tracker => decide (s.sharedTrackers < 4084) || (match s.groupOf w.acc with | some a => s.reservedFree a | none => false)
  | .assign => !s.lineAssigning (lineNo w.acc.dla)
  | _ => false

/-- The wait is one for a tracker or an assignment. -/
def Wait.atHome (w : Wait) : Bool := decide (w.why = .tracker ∨ w.why = .assign)

/-- Waiting requests take trackers as they come free, oldest first (R138), and lines whose cask is assigned are served again. -/
def Chip.wakeTrackers (s : Chip) : Chip :=
  if s.waits.any s.admissible then
    let go := s.waits.filter Wait.atHome
    go.foldl (fun s w => (s.access w.acc w.obs (some w.tc)).keepTc s.waits.length w.tc) { s with waits := s.waits.filter (fun w => !w.atHome) }
  else s

/-- What waits in the queues of a cask's lines is served under the new assignment (R117). -/
def Chip.rerouteCask (s : Chip) (c : Nat) : Chip :=
  let mine := fun (q : CohReq) => match s.extentOf q.acc.dla with | some e => decide (e.cask = c) | none => false
  let go := (s.coh.queue ++ s.coh.devQueue).filter mine
  let s := { s with coh := { s.coh with queue := s.coh.queue.filter (fun q => !mine q), devQueue := s.coh.devQueue.filter (fun q => !mine q) } }
  go.foldl (fun s q => match q.acc.ret with
    | .link l tag => if q.agent.isSome then (s.violation (0x10 + l)).cohSend l (if q.kind = .write then 0x23 else 0x22) tag (lineBase q.acc.dla)
        (if q.kind = .write then none else some (0, false)) else s.access q.acc q.obs (some q.tc)
    | _ => if q.kind = .evict ∨ q.kind = .recall then s else s.access q.acc q.obs (some q.tc)) s

end Sys2Proof.Machine
end

