-- ==== Sys2Proof/Machine/Coherence.lean ====
section
/-!
DEFINITION. Machine/Coherence.lean: dead agents and domain-down (R140, R141), coherent packets of links and snoop answers (R124, R132,
R133, R135, R137), recall and the commands of domains (R142, R143).
-/
namespace Sys2Proof.Machine

/-! ### Dead agents (R140, R141) -/

/-- A line of a dead owner is stored as poisoned (R64, R141 step 1); a copy of its page catches the change (R158). -/
def Chip.poisonOwned (s : Chip) (ln : Nat) : Chip :=
  (s.catchMask ln).storeHeld ⟨0x60, .byDir, .write, 64 * ln, fullMask, s.line (64 * ln), true, true, 0, .none⟩ {}

/-- A transaction of a domain that goes DOWN ends (R141 steps 2 and 4): what is answered stays so, a write that is stored completes, and
the rest completes with an error. -/
def Chip.failTxn (s : Chip) (d : Nat) (t : CohTxn) : Chip :=
  let s := s.endTxn t.line
  match t.req.kind with
  | .evict | .recall => s
  | .write => if t.done.isSome then s.cohAnswer t.req 0x23 false none else s.cohError d t.req
  | _ => if t.replied then s else s.cohError d t.req

/-- A domain goes DOWN (R141). -/
def Chip.domainDown (s : Chip) (d a cause : Nat) : Chip :=
  let owned := s.coh.filter.filter (fun e => decide (e.2.domain = d ∧ e.2.owner = some a))
  let s := owned.foldl (fun s e => s.poisonOwned e.1) s
  let filter := s.coh.filter.filterMap (fun (ln, e) =>
    if e.domain = d then
      if e.owner = some a then none
      else if e.owner = none ∧ setBit e.sharers a false = 0 then none
      else some (ln, { e with sharers := setBit e.sharers a false })
    else some (ln, e))
  let x := s.dom d
  let s := s.setDom d { x with
    state := .down, cause := cause, dead := a, poisoned := x.poisoned + owned.length, downTc := s.tb.tc, downs := x.downs + 1
    reform := false }
  let mine := fun (q : CohReq) => decide (s.lineDomain (lineNo q.acc.dla) = some d)
  let txns := s.coh.txns.filter (fun t => decide (t.domain = d))
  let fail := (s.coh.queue ++ s.coh.devQueue).filter mine
  let s := { s with coh := { s.coh with
    filter := filter, queue := s.coh.queue.filter (fun q => !mine q), devQueue := s.coh.devQueue.filter (fun q => !mine q) } }
  let s := txns.foldl (fun s t => s.failTxn d t) s
  let s := fail.foldl (fun s q => if q.kind = .evict ∨ q.kind = .recall then s else s.cohError d q) s
  s.raise (if cause = 4 then 65 else 64) (agentMaster a)

/-- An agent dies: every ACTIVE or RECALLING domain that has it goes DOWN (R140, R141). -/
def Chip.agentDead (s : Chip) (a cause : Nat) : Chip :=
  let s := { s with coh := { s.coh with dead := setBit s.coh.dead a true, pulled := setBit s.coh.pulled a false } }
  ((List.range 64).filter (fun d => s.isMember d a && decide ((s.dom d).state = .active ∨ (s.dom d).state = .recalling))).foldl
    (fun s d => s.domainDown d a cause) s

/-! ### Coherent packets (R124, R129, R137) -/

/-- A request reissued on the retry credit spends neither slots of its channel nor read credit (R137, R379). -/
def Chip.onRetryCredit (s : Chip) (l : Nat) (p : Packet) : Chip :=
  let k := s.link l
  if k.rx.contains p then
    s.setLink l { k with
      recv := Tab.upd 0 k.recv p.vc.toNat (· - packetSize p), readUsed := k.readUsed - answerSlots p }
  else s

/-- Take a packet of a row out of the receive buffer, where it stands there (R371, R378). -/
def Chip.takeRx (s : Chip) (l : Nat) (p : Packet) : Chip :=
  let k := s.link l
  s.setLink l { k with rx := k.rx.erase p }

/-- The domain of a line, where the link is a member of it and the packet stands on its coherent channel (R119). -/
def Chip.linkDomainOf (s : Chip) (l : Nat) (p : Packet) : Option Nat :=
  let c := s.slotOf p.pasid.toNat
  match s.extentOf (pktDla p) with
  | some e =>
    if e.st = .accepted ∧ c = some e.cask ∧ (s.cask e.cask).state = .active ∧ p.vc.toNat = s.cohVc l then
      (s.caskDomain e.cask).filter (fun d => s.isMember d (linkAgent l))
    else none
  | none => none

/-- A coherent request of a link (R129): CRD_S, CRD_E, CRD_CUR and CWR. `retry` says that it came on the retry credit. -/
def Chip.linkCoh (s : Chip) (l : Nat) (retry : Bool) (p : Packet) (k : CohKind) (o : Obs) : Chip :=
  let a := linkAgent l
  if !s.linkLive l ∨ s.agentIsDead a then s
  else
    let s := (if retry then s.onRetryCredit l p else s).takeRx l p
    let dla := lineBase (pktDla p)
    let tag := p.tag.toNat
    let write := decide (k = .write)
    let acc : Access := ⟨0x10 + l, .pasid (s.slotOf p.pasid.toNat), if write then .write else .read, dla,
      if write then BitVec.ofNat 64 (natLE (p.data.take 8)) else 0, if write then lineOf (p.data.drop 16) else 0, p.poison, true, 0,
      .link l tag⟩
    let me := (p.op.toNat, tag, dla)
    let old := Tab.get [] s.coh.retried a
    let answer := fun (s : Chip) (data : Option (Line × Bool)) => s.cohSend l (if write then 0x23 else 0x22) tag dla data
    if retry && (!bitOf s.coh.pulled a || decide (old.head? ≠ some me)) then (s.agentDead a 4).cohPump
    else
      let s := { s with coh := { s.coh with retried := Tab.put [] s.coh.retried a (old.erase me) } }
      let s := if retry then { s with coh := { s.coh with
          pulled := setBit s.coh.pulled a false, retrySince := setBit s.coh.retrySince a false } } else s
      match s.linkDomainOf l p with
      | none => answer (s.violation (0x10 + l)) (if write then none else some (0, false))
      | some d =>
        match s.verdict acc o with
        | .violation => answer (s.violation (0x10 + l)) (if write then none else some (0, false))
        | .damaged t =>
          let (x, s) := ((s.markDamaged t acc.master).raise 37 acc.master dla).takeLine
          answer s (if write then none else some (x, true))
        | .ok _ =>
          let q : CohReq := { agent := some a, kind := k, acc := acc, obs := if write then o else s.noteRead (0x10 + l) dla o, reserved := retry
                              tc := s.tb.tc }
          if !s.domServes d then s.cohError d q
          else if retry || decide (s.sharedTrackers < 4084) then
            ({ s with coh := { s.coh with queue := s.coh.queue ++ [q] } } : Chip).cohPump
          else
            let s := { s with coh := { s.coh with
              retries := s.coh.retries + 1, retrySince := setBit s.coh.retrySince a true
              retried := Tab.put [] s.coh.retried a (Tab.get [] s.coh.retried a ++ [me]) } }
            (s.cohSend l 0x24 tag dla none).maybePull l

/-- A writeback or a clean drop stands on the coherent channel of a link that is an agent of the line's domain (R119). -/
def Chip.linkMay (s : Chip) (l : Nat) (p : Packet) : Bool :=
  decide (p.vc.toNat = s.cohVc l) && (match s.lineDomain (lineNo (pktDla p)) with | some d => s.isMember d (linkAgent l) | none => false)

/-- CWB (R119, R129, R132, R140): from the owner it is stored; from another agent of the domain it is a protocol error, and from a link
that is none a violation (DESIGN CHOICE, log entry 156). -/
def Chip.linkCwb (s : Chip) (l : Nat) (p : Packet) (o : Obs) : Chip :=
  let a := linkAgent l
  if !s.linkLive l ∨ s.agentIsDead a then s
  else
    let s := s.takeRx l p
    let ln := lineNo (pktDla p)
    if !s.linkMay l p then ((s.violation (0x10 + l)).cohSend l 0x23 p.tag.toNat (64 * ln) none).cohPump
    else if (s.ent ln).bind (·.owner) ≠ some a then (s.agentDead a 4).cohPump
    else
      let acc : Access := ⟨0x10 + l, .byDir, .write, 64 * ln, fullMask, lineOf p.data, p.poison, true, 0, .none⟩
      let s := s.ownerWrite a acc o 0
      (s.cohSend l 0x23 p.tag.toNat (64 * ln) none).cohPump

/-- CEV (R119, R124). -/
def Chip.linkCev (s : Chip) (l : Nat) (p : Packet) : Chip :=
  let a := linkAgent l
  if !s.linkLive l ∨ s.agentIsDead a then s
  else
    let s := s.takeRx l p
    let ln := lineNo (pktDla p)
    let s := if s.linkMay l p then s.dropCopy a ln else s.violation (0x10 + l)
    (s.cohSend l 0x23 p.tag.toNat (64 * ln) none).cohPump

/-- CREL (R137): the answer to PULL when no retried request waits; one that answers no PULL is a protocol error (DEDUCED, log entry 147). -/
def Chip.linkCrel (s : Chip) (l : Nat) (p : Packet) : Chip :=
  let a := linkAgent l
  if !s.linkLive l ∨ s.agentIsDead a then s
  else
    let s := s.takeRx l p
    if bitOf s.coh.pulled a then
      { s with coh := { s.coh with
        pulled := setBit s.coh.pulled a false, retrySince := setBit s.coh.retrySince a false
        retried := Tab.put [] s.coh.retried a [] } }
    else (s.agentDead a 4).cohPump

/-- A snoop of transaction `t` is answered (R129, R130, R132, R133): the copy becomes what the answer says, I where the snoop took it back;
returned data is forwarded and stored. -/
def Chip.snoopDone (s : Chip) (a keep : Nat) (t : CohTxn) (data : Option (Line × Bool)) (o : Obs) : Chip :=
  let ln := t.line
  let taken := t.owed.any (fun x => decide (x.agent = a ∧ x.kind = 0))
  let s := s.modTxn ln (fun u => { u with owed := u.owed.filter (fun x => decide (x.agent ≠ a)) })
  let s := s.keepCopy a ln (if taken then 0 else keep)
  match data with
  | some d => (s.modTxn ln (fun u => { u with data := some d })).storeHeld (ownerStore a ln d) o
  | none => s

/-- A snoop answer with no transaction that owes it (R140, R141): a domain that is DOWN still takes it and stores an owner's data; else it
is a protocol error. -/
def Chip.strayAnswer (s : Chip) (a ln keep : Nat) (data : Option (Line × Bool)) (o : Obs) : Chip :=
  if (s.lineDomain ln).all s.domServes then (s.agentDead a 4).cohPump
  else
    let owner := decide ((s.ent ln).bind (·.owner) = some a)
    let s := s.keepCopy a ln keep
    match data with
    | some d => if owner then s.storeHeld (ownerStore a ln d) o else s
    | none => s

/-- A snoop is answered (R124, R132, R133): `keep` 0 invalid, 1 S, 2 unchanged. -/
def Chip.snoopAnswer (s : Chip) (a ln keep : Nat) (data : Option (Line × Bool)) (o : Obs) : Chip :=
  match s.snooped a ln with
  | some t => (s.snoopDone a keep t data o).cohPump
  | none => s.strayAnswer a ln keep data o

/-- A snoop response of a link (R124). -/
def Chip.linkSrsp (s : Chip) (l : Nat) (p : Packet) (o : Obs) : Chip :=
  let a := linkAgent l
  if !s.linkLive l ∨ s.agentIsDead a then s
  else
    let s := s.takeRx l p
    let ln := lineNo (pktDla p)
    let d := some (lineOf p.data, p.poison)
    match p.op.toNat with
    | 0x18 => s.snoopAnswer a ln 0 none o
    | 0x19 => s.snoopAnswer a ln 1 none o
    | 0x1A => s.snoopAnswer a ln 0 d o
    | 0x1B => s.snoopAnswer a ln 1 d o
    | 0x1C => s.snoopAnswer a ln 2 d o
    | _ => (s.agentDead a 4).cohPump

/-- The deadline of a snoop runs (R133): it pauses while the head it went through is outside L0. -/
def Chip.deadlineRuns (s : Chip) (x : SnoopOut) : Bool :=
  decide (8 ≤ x.agent) || (decide ((s.head x.via).state = .active) && !(s.head x.via).detect)

/-- SNOOP_DEADLINE_MISS (R133, R140). -/
def Chip.snoopMiss (s : Chip) (a ln : Nat) : Chip :=
  match s.txnOf ln with
  | some t => if t.owed.any (fun x => decide (x.agent = a) && s.deadlineRuns x) then (s.agentDead a 2).cohPump else s
  | none => s

/-- PULL_DEADLINE_MISS (R137, R140). -/
def Chip.pullMiss (s : Chip) (l : Nat) : Chip :=
  if bitOf s.coh.pulled (linkAgent l) then (s.agentDead (linkAgent l) 3).cohPump else s

/-- BI_CONFLICT (R135): answered with BIConflictAck; a dead agent gets nothing (R141). -/
def Chip.biConflict (s : Chip) (h dla : Nat) : Chip :=
  let x := s.head h
  if x.state = .active ∧ !s.agentIsDead (s.headAgent h) then (s.sendHead h (.conflictAck dla)).countHead h 9 1 else s

/-! ### Recall and domains (R142, R143) -/

/-- Every line tracked in a domain is recalled (R143). -/
def Chip.recallDomain (s : Chip) (d : Nat) (reform : Bool) : Chip :=
  (s.setDom d { s.dom d with state := .recalling, reform := reform }).cohPump

/-- RECALL_COMPLETE (R143): no line of the domain is tracked any more, and it is ACTIVE. -/
def Chip.recallComplete (s : Chip) (d : Nat) : Chip :=
  if (s.dom d).state = .recalling ∧ s.coh.filter.all (fun e => decide (e.2.domain ≠ d))
      ∧ s.coh.txns.all (fun t => decide (t.domain ≠ d)) then
    (s.setDom d { s.dom d with state := .active, reform := false }).cohPump
  else s

/-- coh.domain.recall_us (R143): 2 µs plus 10 ns for each tracked line, rounded up to a µs. -/
def Chip.recallUs (s : Chip) (d : Nat) : Nat :=
  2 + ceilDiv (10 * countIf (fun e => decide (e.2.domain = d)) s.coh.filter) 1000

/-- An agent is up: a group with a head that is, or an ACTIVE link. -/
def Chip.agentUp (s : Chip) (a : Nat) : Bool :=
  if 8 ≤ a then decide ((s.link (a - 8)).st = .active) else (s.groupHead a).isSome

/-- A set names one to four agents (R118, R144). -/
def agentCountOk (m : Nat) : Bool :=
  let n := countIf (fun a => bitOf m a) (List.range 16)
  decide (1 ≤ n ∧ n ≤ 4)

/-- The agent set can form a domain (R142): one to four agents, none of them dead. One that is up again is not (R140). -/
def Chip.agentsOk (s : Chip) (d : Nat) : Bool :=
  let m := s.cfgAt Obj.cohDomainAgents d
  agentCountOk m && (List.range 16).all (fun a => !bitOf m a || !s.agentIsDead a || s.agentUp a)

/-- The agents that a formed domain names live again (R140). -/
def Chip.revive (s : Chip) (d : Nat) : Chip :=
  let m := s.cfgAt Obj.cohDomainAgents d
  { s with coh := { s.coh with dead := (List.range 16).foldl (fun x a => if bitOf m a then setBit x a false else x) s.coh.dead } }

/-- DOMAIN_FORM (R142). -/
def Chip.domForm (s : Chip) (d : Nat) : Nat × Chip :=
  if (s.dom d).state ≠ .unused then (Abort.domainState, s)
  else if !s.agentsOk d then (Abort.outOfRange, s)
  else
    let s := s.revive d
    (0, s.setDom d { s.dom d with state := .active })

/-- DOMAIN_REFORM (R142, R143). -/
def Chip.domReform (s : Chip) (d : Nat) : Nat × Chip :=
  if (s.dom d).state ≠ .down then (Abort.domainState, s)
  else if !s.agentsOk d then (Abort.outOfRange, s)
  else (0, (s.revive d).recallDomain d true)

/-- DOMAIN_RECALL (R142, R143): a scheduled operation. -/
def Chip.domRecall (s : Chip) (d : Nat) : Nat × Chip :=
  if (s.dom d).state ≠ .active then (Abort.domainState, s)
  else (0, s.requestOp (.recall d) (s.recallUs d))

/-- DOMAIN_DISBAND (R142): with no cask assigned; every filter entry of the domain is dropped. -/
def Chip.domDisband (s : Chip) (d : Nat) : Nat × Chip :=
  if ((s.dom d).state ≠ .active ∧ (s.dom d).state ≠ .down) ∨ (List.range 1024).any (fun c => decide (s.caskDomain c = some d)) then
    (Abort.domainState, s)
  else
    let s := { s with coh := { s.coh with filter := s.coh.filter.filter (fun e => decide (e.2.domain ≠ d)) } }
    (0, s.setDom d { s.dom d with state := .unused })

/-- A COH packet with a reserved message code makes its link a dead agent (R140); so are the home's own codes (DEDUCED, log entry 148). -/
def Chip.cohReserved (s : Chip) (l : Nat) : Chip :=
  let known := [0x01, 0x02, 0x03, 0x04, 0x05, 0x06, 0x07, 0x18, 0x19, 0x1A, 0x1B, 0x1C]
  match (s.link l).rx.find? (fun p => decide (p.kind = 9) && !known.contains p.op.toNat) with
  | some p => ((s.takeRx l p).agentDead (linkAgent l) 4).cohPump
  | none => s

end Sys2Proof.Machine
end

