-- ==== Sys2Proof/Machine/Hopper.lean ====
section
/-!
DEFINITION. Machine/Hopper.lean: Hopper queues (R397 to R405): the queue table, LOAD, DISABLE and WRITEBACK, the queue-state cache
and doorbells.
-/
namespace Sys2Proof.Machine

/-! ### Rights -/

/-! ### The queue table (R398, R399) -/

/-- The device's own read of memory below the access check: the bytes, and whether any of them is poison. -/
def Chip.devRead (s : Chip) (a n : Nat) : List Byte × Bool :=
  let bad := fun (x : Nat) => s.poisoned x || decide ((s.page (pageNo x)).st = .poisoned)
    || (match s.extentOf x with | some e => decide ((s.cask e.cask).keyState ≠ .loaded ∧ (s.page (pageNo x)).st ≠ .unwritten) | none => false)
  (Mem.read s.mem a n, (lineAddrs a n).any bad)

/-- The queue table is valid (R405). -/
def Chip.tableValid (s : Chip) : Bool := bitOf (s.cfg Obj.hopperQueueTableDla) 63

/-- The DLA of the table entry of queue `q` (R398). -/
def Chip.entryDla (s : Chip) (q : Nat) : Nat := bitsOf (s.cfg Obj.hopperQueueTableDla) 0 46 + 64 * q

/-- A table entry's 64 bytes as a state (R399); the flag says that every reserved field is zero. -/
def queueEntry (v : Nat) : QState × Bool :=
  ({ kind := bitsOf v 0 4, order := bitsOf v 8 6, link := bitsOf v 16 3, vc := bitsOf v 19 3, pasid := bitsOf v 32 20
     pv := bitOf v 63, base := bitsOf v 64 64, prod := bitsOf v 128 64, cons := bitsOf v 192 64, high := bitsOf v 256 32
     low := bitsOf v 288 32, accepted := bitsOf v 128 64 },
   decide (bitsOf v 4 4 = 0 ∧ bitsOf v 14 2 = 0 ∧ bitsOf v 22 2 = 0 ∧ bitsOf v 24 8 = 0 ∧ bitsOf v 52 11 = 0 ∧ bitsOf v 320 192 = 0
     ∧ (bitsOf v 0 4 = 3 ∨ bitsOf v 16 6 = 0)))

/-- A state as its table entry (R399). -/
def QState.entry (x : QState) : Nat :=
  x.kind + x.order * 2 ^ 8 + x.link * 2 ^ 16 + x.vc * 2 ^ 19 + x.pasid * 2 ^ 32 + (if x.pv then 2 ^ 63 else 0) + x.base * 2 ^ 64
    + x.prod * 2 ^ 128 + x.cons * 2 ^ 192 + x.high * 2 ^ 256 + x.low * 2 ^ 288

/-- Ring size in bytes. -/
def QState.ring (x : QState) : Nat := 2 ^ x.order

/-- Capacity in queue units (R399). -/
def QState.capacity (x : QState) : Nat := if x.kind = 1 then 2 ^ (x.order - 7) else 2 ^ x.order

/-- The difference of two 64-bit indices. -/
def diff64 (a b : Nat) : Nat := (a + 2 ^ 64 - b % 2 ^ 64) % 2 ^ 64

/-- Fill in queue units (R399). -/
def QState.fill (x : QState) : Nat := diff64 x.prod x.cons

/-- A range lies wholly within accepted extents, of one cask where `c` names it (R398, R400). -/
def Chip.covered (s : Chip) (a n : Nat) (c : Option Nat) : Bool :=
  let got := s.map.extents.foldl (fun t e =>
    if e.st = .accepted ∧ (c = none ∨ c = some e.cask) then t + (min (a + n) (e.base + e.len) - max a e.base) else t) 0
  decide (got = n)

/-- The checks of an entry that a LOAD makes (R400). -/
def Chip.entryOk (s : Chip) (x : QState) (zero : Bool) : Bool :=
  let c := s.slotOf x.pasid
  zero && decide (1 ≤ x.kind ∧ x.kind ≤ 4 ∧ 12 ≤ x.order ∧ x.order ≤ 40 ∧ x.base % 4096 = 0 ∧ 0 < x.high ∧ x.low < x.high
      ∧ x.high ≤ x.capacity ∧ x.fill ≤ x.capacity)
    && (!x.pv || c.isSome)
    && (decide (x.kind = 3) || s.covered x.base x.ring (if x.pv then c else none))

/-- The table entry of queue `q` as it stands: the state, or none where it is poisoned or breaks a check. -/
def Chip.readEntry (s : Chip) (q : Nat) : Option QState :=
  let (d, bad) := s.devRead (s.entryDla q) 64
  let (x, zero) := queueEntry (natLE d)
  if !s.tableValid || bad || !s.entryOk x zero then none else some x

/-! ### The queue-state cache (R403, R404) -/

/-- A side of a descriptor names queue `q`. -/
def Side.names (x : Side) (q : Nat) : Bool := decide (x.kind = 1 ∧ x.queue = q)

/-- The descriptor names queue `q` as its source, or as its destination. -/
def Desc.uses (d : Desc) (q : Nat) (src : Bool) : Bool := (d.op = 1 || d.op = 2) && (if src then d.src else d.dst).names q

/-- A descriptor in progress, of any channel that `p` accepts, names queue `q` in the role. -/
def Chip.inProgress (s : Chip) (q : Nat) (src : Bool) : Bool :=
  s.hop.chans.any (fun e => e.2.descs.any (fun r => r.d.uses q src))

/-- A queue's state is active (R403). -/
def Chip.queueActive (s : Chip) (q : Nat) : Bool :=
  s.inProgress q true || s.inProgress q false
    || s.hop.chans.any (fun e => decide (e.2.queue = q ∧ (e.2.st = .idle ∨ e.2.st = .run ∨ e.2.st = .stalled)))

/-- States in the cache. -/
def Chip.statesCached (s : Chip) : Nat := countIf (fun e => e.2.cached) s.hop.queues

/-- A channel stops with a reason, its stop recorded in its context (R409, R423). -/
def Chip.chanStop (s : Chip) (ch : Nat) (st : ChState) (reason addr : Nat) : Chip :=
  let c := s.hchan ch
  s.setHchan ch { c with st := st, reason := reason, stopAddr := addr, tc := s.tcRec, epoch := s.tb.epoch }

/-- A queue goes to FAULT: channels whose descriptors name it go to ERROR with kind 0x33 (R404, R424). -/
def Chip.queueFault (s : Chip) (q : Nat) (x : QState) : Chip :=
  let s := s.setQueue q { x with fault := true, cached := true }
  let hit := (s.hop.chans.filter (fun e => decide (e.2.st ≠ .off) &&
    (decide (e.2.queue = q) || e.2.descs.any (fun r => r.d.uses q true || r.d.uses q false)))).map (·.1)
  (hit.foldl (fun s c => s.chanStop c .error 0x33 0) s).raise 129

/-- Write a cached state back to its table entry (R400, R403). -/
def Chip.saveQueue (s : Chip) (q : Nat) : Chip :=
  match s.queue q with
  | some x =>
    if x.cached && !x.fault then (s.logWrite (s.entryDla q) (bytesLE 64 x.entry)).setQueue q { x with dirty := false } else s
  | none => s

/-- Make room for one state: the least recently used idle state is written back and replaced; none: every cached one is active. -/
def Chip.makeSlot (s : Chip) : Option Chip :=
  if s.statesCached < 8192 then some s
  else
    let idle := s.hop.queues.filter (fun e => e.2.cached && !e.2.fault && !s.queueActive e.1)
    match idle with
    | [] => none
    | e :: r =>
      let v := r.foldl (fun a b => if b.2.lru < a.2.lru then b else a) e
      let s := s.saveQueue v.1
      some (match s.queue v.1 with | some x => s.setQueue v.1 { x with cached := false } | none => s)

/-- Note a use of a cached state. -/
def Chip.touchQueue (s : Chip) (q : Nat) : Chip :=
  match s.queue q with
  | some x => { s.setQueue q { x with lru := s.hop.clock } with hop := { (s.setQueue q { x with lru := s.hop.clock }).hop with
      clock := s.hop.clock + 1 } }
  | none => s

/-- Bring a loaded queue's state into the cache (R403); false: the access must wait for a slot, which is counted. -/
def Chip.bringIn (s : Chip) (q : Nat) (first : Bool) : Bool × Chip :=
  match s.queue q with
  | none => (true, s)
  | some x =>
    if x.cached then (true, s.touchQueue q)
    else match s.makeSlot with
      | none => (false, if first then { s with hop := { s.hop with stateWaits := s.hop.stateWaits + 1 } } else s)
      | some s =>
        match s.readEntry q with
        | some y => (true, (s.setQueue q y).touchQueue q)
        | none => (true, s.queueFault q x)

/-! ### Queue commands (R400) -/

/-- LOAD (R400): an abort code, or zero, and the state. -/
def Chip.queueLoad (s : Chip) (q : Nat) : Nat × Chip :=
  if (s.queue q).isSome then (Abort.resourceOwned, s)
  else match s.readEntry q with
    | none => (Abort.outOfRange, s)
    | some x =>
      match s.makeSlot with
      | some s => (0, (s.setQueue q x).touchQueue q)
      | none => (0, s.setQueue q { x with cached := false })

/-- DISABLE (R400): always accepted for a FAULT queue, whose state is not written back (R404). -/
def Chip.queueDisable (s : Chip) (q : Nat) : Nat × Chip :=
  match s.queue q with
  | none => (0, s)
  | some x =>
    let owned := s.inProgress q true || s.inProgress q false
      || s.hop.chans.any (fun e => decide (e.2.queue = q ∧ e.2.st ≠ .off))
    if owned && !x.fault then (Abort.resourceOwned, s)
    else
      let s := s.saveQueue q
      (0, { s with hop := { s.hop with queues := Tab.del s.hop.queues q } })

/-- WRITEBACK (R400). -/
def Chip.queueWriteback (s : Chip) (q : Nat) : Nat × Chip := (0, s.saveQueue q)

/-! ### Doorbells (R401, R402) -/

/-- The state code of a doorbell (R401). -/
def Chip.queueState (s : Chip) (q : Nat) : Nat :=
  match s.queue q with
  | none => 0
  | some x => if x.fault then 3 else if s.queueActive q then 2 else 1

/-- The binding of a request names a slot that serves it, or the request carries none (R96, R98). -/
def Chip.bindOk (s : Chip) (b : Binding) : Bool :=
  match b with
  | .pasid none => false
  | .pasid (some c) => decide ((s.cask c).state = .active)
  | _ => true

/-- A doorbell access passes its check (R401): the target whose right was missing, or none. -/
def Chip.doorbellCheck (s : Chip) (m : Nat) (b : Binding) (q right : Nat) : Option Nat :=
  let raw := if s.may 0x40D m right && decide (b ≠ .pasid none) then none else some 0x40D
  match s.queue q with
  | none => raw
  | some x =>
    if x.pv then
      match s.slotOf x.pasid with
      | some c =>
        let same := match b with | .pasid p => decide (p = some c) && s.bindOk b | _ => true
        if same && s.may c m right then none else some c
      | none => some 0x40D
    else raw

/-- The indices a doorbell read returns: those of the table entry while the state is not cached (R403). -/
def Chip.doorbellQueue (s : Chip) (q : Nat) : Option QState :=
  match s.queue q with
  | none => none
  | some x =>
    if x.cached then some x
    else
      let y := (queueEntry (natLE (s.devRead (s.entryDla q) 64).1)).1
      some { x with prod := y.prod, cons := y.cons }

/-- The 32 bytes of a doorbell (R401), as a number. -/
def Chip.doorbellValue (s : Chip) (q : Nat) : Nat :=
  match s.doorbellQueue q with
  | none => 0
  | some x => x.prod + x.cons * 2 ^ 64 + x.fill * 2 ^ 128 + s.queueState q * 2 ^ 192 + x.kind * 2 ^ 200

/-- The index at `off` of the doorbell is written by the doorbell (R402). -/
def Chip.doorbellOwns (s : Chip) (q off : Nat) (x : QState) : Bool :=
  match x.kind with
  | 1 => decide (off = 0)
  | 2 => if off = 0 then !s.inProgress q false else !s.inProgress q true
  | 3 => decide (off = 8)
  | _ => false

/-- A doorbell write that is ignored and counted (R402). -/
def Chip.doorbellIgnored (s : Chip) : Chip :=
  ({ s with hop := { s.hop with queueErrors := s.hop.queueErrors + 1 } } : Chip).raise 146

/-- The master of a doorbell write (R401). -/
def dbMaster : DbSrc → Nat
  | .cxl h => h.val
  | .link l _ => 0x10 + l.val
  | .hopper c => 0x20 + c.val

/-- The binding of a doorbell write (R95): a link's PASID, or that of a channel's descriptor queue. -/
def Chip.dbBind (s : Chip) (src : DbSrc) : Binding :=
  match src with
  | .cxl _ => .byDir
  | .link _ p => .pasid (s.slotOf p.toNat)
  | .hopper c =>
    match s.queue (s.hchan c).queue with
    | some x => if x.pv then .pasid (s.slotOf x.pasid) else .raw
    | none => .raw

/-- A doorbell write past its check, with its state in the cache (R402). -/
def Chip.applyDoorbell (s : Chip) (q off : Nat) (d : List Byte) : Chip :=
  match s.queue q with
  | none => s.doorbellIgnored
  | some x =>
    let v := natLE d
    let old := if off = 0 then x.prod else x.cons
    let y := if off = 0 then { x with prod := v, dirty := true } else { x with cons := v, dirty := true }
    if d.length = 8 ∧ (off = 0 ∨ off = 8) ∧ !x.fault ∧ s.doorbellOwns q off x ∧ diff64 v old < 2 ^ 63 ∧ y.fill ≤ x.capacity then
      s.setQueue q y
    else s.doorbellIgnored

/-- A doorbell write of master `m` (R401 to R403): it waits where its state finds no slot. -/
def Chip.doorbellPut (s : Chip) (m : Nat) (b : Binding) (q off : Nat) (d : List Byte) (ret : Ret) (first : Bool) : Chip :=
  match s.doorbellCheck m b q 1 with
  | some t => (s.deny t m).deliver ret .write 0 0 false
  | none =>
    let (ok, s) := s.bringIn q first
    if ok then (s.applyDoorbell q off d).deliver ret .write 0 0 false
    else { s with hop := { s.hop with waiting := s.hop.waiting ++ [.doorbell m b q off d ret] } }

/-- DOORBELL_WRITE (R402). -/
def Chip.doorbellWrite (s : Chip) (src : DbSrc) (q off : Nat) (d : List Byte) : Chip :=
  s.doorbellPut (dbMaster src) (s.dbBind src) q off d .none true

end Sys2Proof.Machine
end

