-- ==== Sys2Proof/Machine/Patrol.lean ====
section
/-!
DEFINITION. Machine/Patrol.lean: what a patrol pass walks, the debt that each tier's patrol owes, and the other
rates that run with TC (R348, R351, R495).
-/
namespace Sys2Proof.Machine

/-- Lines that a pass of tier `t` walks (R348, R351). -/
def Chip.patrolLines (s : Chip) (t : Nat) : Nat :=
  if t = 1 then 268435456
  else if t = 2 then (s.onlineChans .ddr).foldl (fun a n => a + 64 * s.chanCap n) 0
  else 32768 * countIf (fun k => s.hasBlock (k / 2 ^ 20) (k % 2 ^ 20)) (s.kiln.blocks.map (·.1))

/-- R_t: a tier's patrol rate in bytes per µs (R351). -/
def Chip.patrolRate (s : Chip) (t : Nat) : Nat :=
  match t with
  | 1 => s.cfg Obj.spargeRateHbmMbs
  | 2 => s.cfg Obj.spargeRateDdrMbs * (s.onlineChans .ddr).length
  | _ => s.cfg Obj.spargeRateNvmMbs * (s.onlineChans .nvm).length

/-- P_t: a tier's patrol period in seconds (R348). -/
def Chip.patrolPeriod (s : Chip) (t : Nat) : Nat :=
  3600 * s.cfg (match t with | 1 => Obj.spargePeriodHHbm | 2 => Obj.spargePeriodHDdr | _ => Obj.spargePeriodHNvm)

/-- The accrual a_t of a tier as a fraction, in work-µs per second (R351): none while no channel of it is ONLINE. -/
def Chip.tierAccrual (s : Chip) (t : Nat) : Nat × Nat :=
  let d := s.patrolRate t * s.patrolPeriod t
  if d = 0 then (0, 1) else (64 * s.patrolLines t, d)

/-- SCRUB's published accrual: the largest a_t, rounded up (R351). -/
def Chip.scrubAccrual (s : Chip) : Nat :=
  [1, 2, 3].foldl (fun a t => max a (ceilDiv (s.tierAccrual t).1 (s.tierAccrual t).2)) 0

/-- A tier's patrol debt (R351). -/
def Chip.tierDebt (s : Chip) (t : Nat) : Nat := Tab.get 0 s.integ.tierDebt t

/-- SCRUB's level: the largest tier debt (R351). -/
def Chip.scrubLevel (s : Chip) : Nat := [1, 2, 3].foldl (fun a t => max a (s.tierDebt t)) 0

/-- A debt and its rest after one TC cycle of `den` / 1,000,000 µs at accrual `a` and repayment `r`, never below zero (R41). -/
def debtStep (level rest a r den : Nat) : Nat × Nat :=
  let x := level * den + rest + a - r
  (x / den, x % den)

/-- A tier's debt over one TC cycle, repaid at `repay` (R351); `den` is as `debtStep` has it. -/
def Chip.tierTick (s : Chip) (repay den t : Nat) : Chip :=
  let (a, d) := s.tierAccrual t
  let x := debtStep (s.tierDebt t) (Tab.get 0 s.integ.tierRest t) a (repay * d) (den * d)
  { s with integ := { s.integ with tierDebt := Tab.put 0 s.integ.tierDebt t x.1, tierRest := Tab.put 0 s.integ.tierRest t x.2 } }

/-- Every tier's debt over one TC cycle: a work-µs repaid reduces each of them (R351). -/
def Chip.tierTicks (s : Chip) (repay den : Nat) : Chip := [1, 2, 3].foldl (fun s t => s.tierTick repay den t) s

/-- Every tier's debt at one level. -/
def Chip.setTierDebts (s : Chip) (v : Nat) : Chip :=
  { s with integ := { s.integ with tierDebt := [1, 2, 3].foldl (fun t k => Tab.put 0 t k v) s.integ.tierDebt, tierRest := [] } }

/-- The wear allowance of Seedbank over one TC cycle of `den` / 1,000,000 µs (R495): 311 B/s, up to 4 MiB. -/
def Chip.allowTick (s : Chip) : Chip :=
  let den := 1000 * s.tb.measuredKhz
  if den = 0 ∨ 4194304 ≤ s.sb.allowance then s
  else
    let x := s.sb.allowRest + 311
    { s with sb := { s.sb with allowance := s.sb.allowance + (x / den : Nat), allowRest := x % den } }

end Sys2Proof.Machine
end

