-- ==== Sys2Proof/Machine/Windows.lean ====
section
/-!
DEFINITION. Machine/Windows.lean: the timebase (R8 to R18, R587), window records and their posting (R19 to R30), the fence and
prologue (R37, R588), debts (R40 to R45) and the admission walk (R43).
-/
namespace Sys2Proof.Machine

/-! ### Window edges -/

/-- A scheduled window of class OPEN, QUIET or BURST. -/
def Window.span (w : Window) : Bool := decide (w.cls ≠ .barrier)

/-- The BURST window directly follows another pending BURST window (R37). -/
def Chip.follows (s : Chip) (w : Window) : Bool :=
  decide (w.cls = .burst) && s.win.pending.any (fun v => decide (v.cls = .burst ∧ v.stop = w.start))

/-- Remove the pending window with this tag. -/
def Chip.dropWindow (s : Chip) (tag : Nat) : Chip :=
  { s with win := { s.win with pending := s.win.pending.filter (fun w => decide (w.tag ≠ tag)) } }

/-- Change the pending window with this tag. -/
def Chip.modWindow (s : Chip) (tag : Nat) (f : Window → Window) : Chip :=
  { s with win := { s.win with pending := modFirst (fun w => decide (w.tag = tag)) f s.win.pending } }

/-- A fence point has passed (R37). -/
def Chip.passedBy (s : Chip) (start lead : Nat) : Bool := decide (start ≤ s.tb.tc + lead)

/-- A fence and a prologue are in effect while a BURST window that has passed them waits to start (R37). -/
def Chip.refreshFence (s : Chip) : Chip :=
  let ahead := s.win.pending.filter (fun w => decide (w.cls = .burst) && !w.active)
  { s with win := { s.win with fenceOn := ahead.any (·.fenced), prologueOn := ahead.any (·.prologued) } }

/-- The window takes effect (R20, R37): its class rules from now on. -/
def Chip.startWindow (s : Chip) (w : Window) : Chip :=
  let s := (s.modWindow w.tag (fun w => { w with active := true })).refreshFence
  if w.evtStart then s.pulse w.line else s

/-- Every owed all-bank refresh is issued (R273): each balance of a channel that is not frozen is brought to at least 0, or to 0 at
the end of a BURST window (R274). -/
def Chip.settleRefresh (s : Chip) (exact : Bool) : Chip :=
  { s with dram := { s.dram with ddr := (s.dram.ddr.map (fun (n, x) =>
      (n, if x.freeze ≠ 0 then x else { x with balance := if exact then 0 else max 0 x.balance }))).filter (fun e => decide (e.2 ≠ {})) } }

/-- Every program still running is suspended, and each suspension counted (R37, R319). -/
def Chip.suspendPrograms (s : Chip) : Chip :=
  let n := countIf (fun (e : Nat × Prog) => !e.2.suspended) s.kiln.progs
  { s with kiln := { s.kiln with
    suspends := s.kiln.suspends + n, progs := s.kiln.progs.map (fun (i, (g : Prog)) => (i, { g with suspended := true })) } }

/-- Every suspended program resumes, but one whose ABORT is to come (R37, R319, R320). -/
def Chip.resumePrograms (s : Chip) : Chip :=
  { s with kiln := { s.kiln with
    progs := s.kiln.progs.map (fun (i, (g : Prog)) => (i, { g with suspended := g.suspended && g.pending })) } }

/-- The write fence of a pending BURST window takes effect (R37, R273). -/
def Chip.fenceWindow (s : Chip) (tag : Nat) : Chip :=
  ((s.modWindow tag (fun w => { w with fenced := true })).refreshFence).settleRefresh false

/-- The prologue of a pending BURST window takes effect (R37, R319). -/
def Chip.prologueWindow (s : Chip) (tag : Nat) : Chip :=
  ((s.modWindow tag (fun w => { w with prologued := true })).refreshFence).suspendPrograms

/-- A pending BURST window that follows no other acts on the fence and prologue points that TC has reached, with `slack` TC to spare
(R17, R37). -/
def Chip.armWindow (s : Chip) (w : Window) (slack : Nat) : Chip :=
  let arm := w.cls = .burst ∧ !w.active ∧ !s.follows w
  let s' := if arm ∧ !w.fenced ∧ s.passedBy w.start (w.fence + slack) then s.fenceWindow w.tag else s
  if arm ∧ !w.prologued ∧ s.passedBy w.start (w.prologue + slack) then s'.prologueWindow w.tag else s'

/-- A BURST window directly follows this one (R37). -/
def Chip.followed (s : Chip) (w : Window) : Bool :=
  decide (w.cls = .burst) && s.win.pending.any (fun v => decide (v.cls = .burst ∧ v.start = w.stop))

/-- The end_tc actions of a BURST window (R37, R274, R319): a class that overran its maximum goes under forced repayment (R45); refresh
settles and programs resume, unless a BURST window follows directly (`stay`), or a fence or prologue in effect forbids it. -/
def Chip.leaveBurst (s : Chip) (stay : Bool) : Chip :=
  let s := { s with win := { s.win with forced := s.win.forced ||| s.win.overrun, overrun := 0 } }
  let s := if stay || s.win.fenceOn then s else s.settleRefresh true
  if stay || s.win.prologueOn then s else s.resumePrograms

/-- The window ends, by its end TC or earlier (R20, R21). -/
def Chip.endWindow (s : Chip) (w : Window) (stay : Bool := false) : Chip :=
  let s := s.dropWindow w.tag
  let s := if w.cls = .burst then s.leaveBurst stay else s
  if w.evtEnd then s.pulse w.line else s

/-- A BURST window that a forward step skips, or that is cancelled, leaves its fence and prologue (R16, R37). -/
def Chip.unfence (s : Chip) (w : Window) : Chip :=
  let s := (s.dropWindow w.tag).refreshFence
  if w.cls = .burst ∧ (w.fenced ∨ w.prologued) then s.leaveBurst (s.followed w) else s

/-- Cancel one pending window (R27): in effect, it ends now. A BURST window that directly followed it arms its fence and prologue first
(R37): what the removed window had set before its start stays in effect, and points already passed act at once. -/
def Chip.cancelOne (s : Chip) (w : Window) : Chip :=
  match (if w.cls = .burst then s.win.pending.find? (fun v => decide (v.cls = .burst ∧ v.start = w.stop ∧ !v.active)) else none) with
  | some n =>
    let n' := { n with fenced := n.fenced || (!w.active && w.fenced), prologued := n.prologued || (!w.active && w.prologued) }
    let s := s.modWindow n.tag (fun _ => n')
    let s' := (({ s with win := { s.win with pending := s.win.pending.filter (fun v => decide (v.tag ≠ w.tag)) } } : Chip).refreshFence).armWindow n' 0
    if w.active then s'.endWindow w else s'
  | none => if w.active then (s.endWindow w).refreshFence else s.unfence w

/-- Every pending window is cancelled (R16, R30): one in effect ends now, and no fence stays. -/
def Chip.cancelAll (s : Chip) : Chip :=
  let was := s.win.pending
  let s := { s with win := { s.win with pending := [], fenceOn := false, prologueOn := false } }
  was.foldl (fun s w =>
    if w.active then s.endWindow w
    else if w.cls = .burst ∧ (w.fenced ∨ w.prologued) then s.leaveBurst false else s) s

/-- Windows are cancelled as the device leaves SERVICE or DIAGNOSIS; a BURST in effect or pending is a breach (R30). -/
def Chip.leaveService (s : Chip) : Chip :=
  let burst := s.win.pending.any (fun w => decide (w.cls = .burst))
  let s := s.cancelAll
  if burst then s.raise 4 else s

/-- Insert a window in order of start. -/
def insertWindow (w : Window) : List Window → List Window
  | [] => [w]
  | v :: r => if w.start < v.start then w :: v :: r else v :: insertWindow w r

/-- Windows in order of start. -/
def byStart (ws : List Window) : List Window := ws.foldl (fun l w => insertWindow w l) []

/-- TC has reached edges of a window (R16): it ends, is skipped whole, takes effect, or, as a BARRIER, pulses its start once. -/
def Chip.passEdge (s : Chip) (w : Window) : Chip :=
  if w.cls = .barrier then
    (if w.start ≤ s.tb.tc ∧ w.evtStart ∧ !w.fenced then (s.modWindow w.tag (fun w => { w with fenced := true })).pulse w.line else s)
  else if w.active then (if w.stop ≤ s.tb.tc then s.endWindow w (s.followed w) else s)
  else if w.stop ≤ s.tb.tc then
    (let s := s.unfence w
     if w.cls = .burst then s.raise 4 else s)
  else if w.start ≤ s.tb.tc then s.startWindow w
  else s

/-- Every edge, fence and prologue that TC has reached acts, in order of TC (R16, R17, R37). -/
def Chip.passEdges (s : Chip) : Chip :=
  let s := (byStart s.win.pending).foldl (fun s w => s.passEdge w) s
  (byStart s.win.pending).foldl (fun s w => s.armWindow w 0) s

/-! ### The timebase -/

/-- The unit enters LOCKED: misses start again, no slew runs, and the rate at lock is kept for R42. -/
def Timebase.lock (t : Timebase) : Timebase :=
  { t with
    state := .locked, misses := 0, lockKhz := if t.state = .locked then t.lockKhz else t.measuredKhz, ahead := 0, edge := 0
    slewing := false }

/-- A frame pair with value `v` is applied (R13, R16). -/
def Chip.applyPair (s : Chip) (v e : Nat) : Chip :=
  let t := s.tb
  if t.state = .unlocked then { s with tb := { t.lock with tc := v, epoch := e } }
  else if e = t.epoch ∧ v = t.tc then { s with tb := t.lock }
  else if e = t.epoch ∧ t.tc < v ∧ v - t.tc ≤ 4294967296 then
    ({ s with tb := { t.lock with tc := v, realigns := t.realigns + 1 } } : Chip).passEdges
  else if e = t.epoch ∧ v < t.tc ∧ t.tc - v ≤ 1048576 then
    { s with tb := { t with
      misses := 0, realigns := if t.slewing then t.realigns else t.realigns + 1, ahead := t.tc - v, slewing := true
      edge := if t.slewing then t.edge else 0 } }
  else
    (({ s with tb := { t.lock with tc := v, epoch := e } } : Chip).cancelAll).raise 2

/-- The measured rate has drifted from the rate at lock by more than the margin (R42). -/
def Chip.rateDrift (s : Chip) : Bool :=
  let m := s.tb.measuredKhz
  let l := s.tb.lockKhz
  decide (s.tb.state ≠ .unlocked ∧ l ≠ 0 ∧ m ≠ 0 ∧ s.cfg Obj.timebaseRateMarginPpm * m < ((l - m) + (m - l)) * 1000000)

/-- This is the edge at which a frame's bit 111 is due (R12): TC[15:0] is 111. -/
def Timebase.atDue (t : Timebase) : Bool := decide (t.state ≠ .unlocked ∧ t.tc % 65536 = 111)

/-- One missed frame (R12, R14): at the due edge, once, unless a valid frame came there. -/
def Chip.missFrame (s : Chip) : Chip :=
  let t := s.tb
  let due := some (t.tc / 65536)
  if !t.atDue ∨ t.lastDue = due then s
  else
    let s := { s with tb := { t with misses := t.misses + 1, lastDue := due } }
    if t.state = .locked ∧ s.cfg Obj.timebaseMissLimit < t.misses + 1 then
      ({ s with tb := { s.tb with state := .holdover } } : Chip).raise 0
    else s

/-- The sync field of a frame (R9). -/
abbrev frameSync (f : BitVec 112) : Nat := bitsOf f.toNat 0 16
/-- The tc field of a frame (R9). -/
abbrev frameTc (f : BitVec 112) : Nat := bitsOf f.toNat 16 64
/-- The epoch field of a frame (R9). -/
abbrev frameEpoch (f : BitVec 112) : Nat := bitsOf f.toNat 80 16
/-- The crc field of a frame (R9). -/
abbrev frameCrc (f : BitVec 112) : Nat := bitsOf f.toNat 96 16

/-- The CRC over frame bits 16 to 95 in transmission order (R11). -/
def frameCrcOf (f : BitVec 112) : Nat := crcOf 16 0x1021 0xFFFF 80 (f.toNat >>> 16)

/-- The frame is valid at the measured rate (R12). -/
def frameValid (f : BitVec 112) (rateKhz : Nat) : Bool :=
  decide (frameSync f = 0x7A35 ∧ frameCrc f = frameCrcOf f ∧ frameTc f % 65536 = 0 ∧ 49000 ≤ rateKhz ∧ rateKhz ≤ 408000)

/-- TB_CLK is lost (R14, R15). -/
def Chip.clkLost (s : Chip) : Chip :=
  let s := { s with tb := { s.tb with clk := false, prev := none } }
  if s.tb.state = .locked then ({ s with tb := { s.tb with state := .holdover } } : Chip).raise 0 else s

/-- A valid frame with tc `f` and epoch `e` (R12, R13, R587): sampled on the due edge, it is the frame that was due. Two consecutive valid
frames measure the rate where the interval between them was timed (log entry 139), and make a pair where their tc fields differ by 65,536
and their epochs agree. -/
def Chip.goodFrame (s : Chip) (f e rateKhz : Nat) (intervalKhz : Option Nat) : Chip :=
  let t := s.tb
  let pair := decide (t.prev = some ((f + 18446744073709486080) % 18446744073709551616, e))
  let khz := match t.prev, intervalKhz with
    | some _, some k => if k = 0 then t.measuredKhz else k
    | _, _ => t.measuredKhz
  let s := { s with tb := { t with
    prev := some (f, e), measuredKhz := if pair && decide (khz = 0) then rateKhz else khz, clk := true
    misses := if t.atDue then 0 else t.misses, lastDue := if t.atDue then some (t.tc / 65536) else t.lastDue } }
  let s := if pair then
      (let s := s.applyPair ((f + 111) % 18446744073709551616) e
       { s with tb := { s.tb with lastDue := some (s.tb.tc / 65536) } })
    else s
  if s.rateDrift then s.raise 3 else s

/-- TB_SYNC_FRAME (R12, R13, R15): a rate outside its limits loses TB_CLK; an invalid frame on the due edge is a missed one. -/
def Chip.syncFrame (s : Chip) (f : BitVec 112) (rateKhz : Nat) (intervalKhz : Option Nat) : Chip :=
  let s := if frameCrc f ≠ frameCrcOf f then { s with tb := { s.tb with crcErrors := s.tb.crcErrors + 1 } } else s
  let s := if rateKhz < 49000 ∨ 408000 < rateKhz then s.clkLost else s
  if frameValid f rateKhz then s.goodFrame (frameTc f) (frameEpoch f) rateKhz intervalKhz
  else ({ s with tb := { s.tb with prev := none } } : Chip).missFrame

/-- TB_CLK_RESTORED (R14): TC follows TB_CLK again; the state waits for a frame pair. -/
def Chip.clkRestored (s : Chip) : Chip := { s with tb := { s.tb with clk := true } }

/-- HOLDOVER_EXPIRED (R14). -/
def Chip.holdoverExpired (s : Chip) : Chip :=
  if s.tb.state = .holdover then ({ s with tb := { s.tb with state := .expired } } : Chip).raise 1 else s

/-- SLEW_END (R16): once the values agree, the state is LOCKED. -/
def Chip.slewEnd (s : Chip) : Chip :=
  if s.tb.slewing ∧ s.tb.ahead = 0 ∧ s.tb.state ≠ .unlocked then { s with tb := s.tb.lock } else s

/-- One TC edge of the timebase (R8, R16): TC reads zero while UNLOCKED, and a backward slew holds it on one edge in sixteen until the
values agree. -/
def Timebase.edgeOn (t : Timebase) : Timebase :=
  if t.state = .unlocked then t
  else if t.ahead ≠ 0 ∧ t.edge = 15 then { t with ahead := t.ahead - 1, edge := 0 }
  else
    let t := if t.slewing ∧ t.ahead = 0 then t.lock else t
    { t with tc := (t.tc + 1) % 18446744073709551616, edge := if t.slewing then t.edge + 1 else 0 }

/-! ### Admission (R42, R43) -/

/-- A span of the walk: its class, length in TC, absorb reservation and, for a BURST, its tag. -/
structure Span where
  cls : WinClass
  len : Nat
  mib : Nat
  tag : Nat
  deriving DecidableEq, Repr

/-- The spans from `t` on (R43): uncovered time is OPEN, and the walk ends with the last BURST. -/
def spansFrom (t : Nat) : List Window → List Span
  | [] => []
  | w :: r =>
    if r.any (fun v => decide (v.cls = .burst)) || decide (w.cls = .burst) then
      (if t < w.start then [⟨.opn, w.start - t, 0, 0⟩] else []) ++
        ⟨w.cls, w.stop - max t w.start, if w.cls = .burst then w.absorbMib else 0, w.tag⟩ :: spansFrom (max t w.stop) r
    else []

/-- A failure of the walk: the debt class, or none for absorb space. -/
structure WalkFail where
  debt : Option Nat
  burst : Nat
  deriving DecidableEq, Repr

/-- The tag of the first BURST among spans. -/
def firstBurst : List Span → Nat
  | [] => 0
  | x :: r => if x.cls = .burst then x.tag else firstBurst r

/-- What the walk knows: per class the accrual, QUIET and OPEN repay rates and the maximum; rates and limits. -/
structure WalkCfg where
  accrual : List Nat
  quiet : List Nat
  opn : List Nat
  max : List Nat
  limit : Nat
  drainMbs : Nat
  openPct : Nat
  khz : Nat
  ppm : Nat
  deriving DecidableEq, Repr

/-- The debts after a span, in work-µs times `1000 · khz · 1,000,000` (R43), for classes from number `k`. -/
def WalkCfg.debts (c : WalkCfg) (x : Span) : Nat → List Nat → List Nat
  | _, [] => []
  | k, d :: r =>
    let up := d + c.accrual.getD k 0 * x.len * (1000000 + c.ppm)
    let down := match x.cls with
      | .burst => 0
      | .quiet => c.quiet.getD k 0 * x.len * (1000000 - c.ppm)
      | _ => c.opn.getD k 0 * x.len * (1000000 - c.ppm)
    (up - down) :: c.debts x (k + 1) r

/-- The admission walk (R43). -/
def WalkCfg.walk (c : WalkCfg) (absorb : Nat) (debt : List Nat) : List Span → Option WalkFail
  | [] => none
  | x :: r =>
    let unit := 1000000000 * c.khz
    let pct := match x.cls with | .quiet => 100 | _ => c.openPct
    let drained := c.drainMbs * pct * 10000 * x.len * (1000000 - c.ppm) / (unit * 1048576)
    let absorb := if x.cls = .burst then absorb + x.mib else absorb - drained
    if x.cls = .burst ∧ c.limit < absorb then some ⟨none, x.tag⟩
    else
      let debt := c.debts x 0 debt
      match [0, 1, 2, 3, 4].find? (fun k => decide (0 < c.max.getD k 0 ∧ c.max.getD k 0 * unit < debt.getD k 0)) with
      | some k => some ⟨some k, firstBurst (x :: r)⟩
      | none => c.walk absorb debt r

/-- windows.absorb_dirty_mib (R586). -/
def Chip.absorbDirtyMib (s : Chip) : Nat := ceilDiv (s.absorbBytes false) mib

/-- A class's accrual rate as it is published (R41): SCRUB's follows from what patrol walks (R351). -/
def Chip.accrual (s : Chip) (k : Nat) : Nat := if k = 1 then s.scrubAccrual else Tab.get 0 s.win.debtAccrual k

/-- The walk over a set of windows, from now. -/
def Chip.admitted (s : Chip) (ws : List Window) : Option WalkFail :=
  let cls := [0, 1, 2, 3, 4]
  let c : WalkCfg := {
    accrual := cls.map s.accrual, quiet := cls.map (s.cfgAt Obj.windowsDebtQuietRepay)
    opn := cls.map (s.cfgAt Obj.windowsDebtOpenRepay), max := cls.map (s.cfgAt Obj.windowsDebtMax)
    limit := s.cfg Obj.windowsAbsorbLimitMib, drainMbs := s.drainRate, openPct := s.cfg Obj.windowsOpenDrainPct
    khz := s.tb.measuredKhz, ppm := s.cfg Obj.timebaseRateMarginPpm }
  let order := byStart (ws.filter Window.span)
  c.walk s.absorbDirtyMib (cls.map (fun k => Tab.get 0 s.win.debtLevel k * (1000000000 * c.khz))) (spansFrom s.tb.tc order)

/-- Nanoseconds as TC cycles, at the measured period shortened by the margin, rounded up (R588). -/
def Chip.nsToTc (s : Chip) (ns : Nat) : Nat := ceilDiv (ns * s.tb.measuredKhz) (1000000 - s.cfg Obj.timebaseRateMarginPpm)

/-! ### Posting (R21 to R27) -/

/-- The statuses of a result word (R25). -/
abbrev Post.accepted : Nat := 1
abbrev Post.debt : Nat := 2
abbrev Post.absorb : Nat := 3
abbrev Post.later : Nat := 4
abbrev Post.overlap : Nat := 5
abbrev Post.late : Nat := 6
abbrev Post.full : Nat := 7
abbrev Post.epoch : Nat := 8
abbrev Post.timebase : Nat := 9
abbrev Post.mode : Nat := 10
abbrev Post.format : Nat := 11
abbrev Post.tag : Nat := 12

/-- A window record's fields (R21), out of its 32 bytes as a number. -/
structure PostRec where
  start : Nat
  stop : Nat
  cls : Nat
  flags : Nat
  epoch : Nat
  mib : Nat
  tag : Nat
  line : Nat
  zero : Bool
  deriving DecidableEq, Repr

/-- Read a window record (R21). -/
def postRec (v : Nat) : PostRec :=
  { start := bitsOf v 0 64, stop := bitsOf v 64 64, cls := bitsOf v 128 8, flags := bitsOf v 136 8, epoch := bitsOf v 144 16
    mib := bitsOf v 160 32, tag := bitsOf v 192 16, line := bitsOf v 208 8
    zero := decide (bitsOf v 140 4 = 0 ∧ bitsOf v 216 40 = 0) }

/-- The record is well formed (R22); what reserved fields hold is ignored (R3). -/
def Chip.wellFormed (s : Chip) (r : PostRec) : Bool :=
  let absorb := bitOf r.flags 0
  decide (r.cls ≤ 4)
    && (match r.cls with
        | 3 => decide (r.stop = r.start)
        | 4 => decide (r.start = 0 ∧ r.stop = 0)
        | _ => decide (r.start < r.stop ∧ r.stop - r.start ≤ 1099511627776))
    && (!absorb || decide (r.cls = 2))
    && (if absorb then decide (r.mib ≤ s.cfg Obj.windowsAbsorbLimitMib) else decide (r.mib = 0))
    && (!bitOf r.flags 1 || decide (r.cls = 1))

/-- The class of a record that names a window. -/
def classOf (c : Nat) : WinClass :=
  match c with
  | 1 => .quiet | 2 => .burst | 3 => .barrier | _ => .opn

/-- The window a record asks for, with its fence and prologue converted now (R588). -/
def Chip.asWindow (s : Chip) (r : PostRec) : Window :=
  { cls := classOf r.cls, start := r.start, stop := r.stop, tag := r.tag, noChange := bitOf r.flags 1, evtStart := bitOf r.flags 2
    evtEnd := bitOf r.flags 3, absorb := bitOf r.flags 0, absorbMib := r.mib, line := r.line
    fence := s.nsToTc (s.cfg Obj.windowsWriteFenceNs), prologue := s.nsToTc (s.cfg Obj.windowsPrologueNs) }

/-- A decision: status, debt class, the other tag. -/
abbrev Decision : Type := Nat × Nat × Nat

/-- A failure of the walk as a decision: the candidate's own, or a later BURST's (R43). -/
def walkDecision (own : Option Nat) (f : WalkFail) : Decision :=
  if own = some f.burst then (match f.debt with | some k => (Post.debt, k, 0) | none => (Post.absorb, 0xFF, 0))
  else (Post.later, f.debt.getD 0xFF, f.burst)

/-- The decision on a CANCEL (R27). -/
def Chip.decideCancel (s : Chip) (r : PostRec) : Decision :=
  match s.win.pending.find? (fun w => decide (w.tag = r.tag)) with
  | none => (Post.tag, 0xFF, 0)
  | some w =>
    if w.cls = .quiet then
      match s.admitted (s.win.pending.filter (fun v => decide (v.tag ≠ r.tag))) with
      | some f => walkDecision none f
      | none => (Post.accepted, 0xFF, 0)
    else (Post.accepted, 0xFF, 0)

/-- A BURST record is too late (R25): it needs its lead, unless it directly follows an accepted BURST. -/
def Chip.lateBurst (s : Chip) (r : PostRec) : Bool :=
  decide (r.start < s.tb.tc + max (s.nsToTc (s.cfg Obj.windowsPostLeadNs)) (s.nsToTc (s.cfg Obj.windowsWriteFenceNs)))
    && !s.win.pending.any (fun w => decide (w.cls = .burst ∧ w.stop = r.start))

/-- The accepted window with the earliest start that the record overlaps (R25). -/
def Chip.overlapped (s : Chip) (r : PostRec) : Option Window :=
  let ws := s.win.pending.filter (fun w => w.span && decide (w.start < r.stop ∧ r.start < w.stop))
  (byStart ws).head?

/-- The decision on a record, by the checks in the order of R26. -/
def Chip.decidePost (s : Chip) (r : PostRec) : Decision :=
  if !s.wellFormed r then (Post.format, 0xFF, 0)
  else if s.mode.current ≠ .service ∧ s.mode.current ≠ .diagnosis then (Post.mode, 0xFF, 0)
  else if s.tb.state = .unlocked ∨ (s.tb.state = .expired ∧ r.cls ≠ 4) then (Post.timebase, 0xFF, 0)
  else if r.epoch ≠ s.tb.epoch then (Post.epoch, 0xFF, 0)
  else if r.cls = 4 then s.decideCancel r
  else if s.win.pending.any (fun w => decide (w.tag = r.tag)) then (Post.tag, 0xFF, r.tag)
  else if (if r.cls = 2 then s.lateBurst r else decide (r.start ≤ s.tb.tc)) then (Post.late, 0xFF, 0)
  else match (if r.cls = 3 then none else s.overlapped r) with
    | some w => (Post.overlap, 0xFF, w.tag)
    | none =>
      if 4096 ≤ s.win.pending.length then (Post.full, 0xFF, 0)
      else if r.cls = 2 then
        match s.admitted (s.asWindow r :: s.win.pending) with
        | some f => walkDecision (some r.tag) f
        | none => (Post.accepted, 0xFF, 0)
      else (Post.accepted, 0xFF, 0)

/-- The effect of an accepted record. -/
def Chip.applyPost (s : Chip) (r : PostRec) : Chip :=
  if r.cls = 4 then
    match s.win.pending.find? (fun w => decide (w.tag = r.tag)) with
    | some w => s.cancelOne w
    | none => s
  else { s with win := { s.win with pending := s.win.pending ++ [s.asWindow r] } }

/-- The result word (R25). -/
def resultWord (d : Decision) (tag pending : Nat) : Nat :=
  d.1 + d.2.1 * 2 ^ 8 + tag * 2 ^ 16 + d.2.2 * 2 ^ 32 + (pending % 65536) * 2 ^ 48

/-- Keep the result word of a master (R23). -/
def Chip.setResult (s : Chip) (m v : Nat) : Chip := { s with win := { s.win with results := Tab.put 0 s.win.results m v } }

/-- The result word of a master's last posting (R23). -/
def Chip.resultOf (s : Chip) (m : Nat) : Nat := Tab.get 0 s.win.results m

/-- Master `m` may post (R23): write right on the timeline queue. -/
def Chip.mayPost (s : Chip) (m : Nat) : Bool := s.may 0x504 m 1

/-- A posting by master `m`, past the access check: the decision, its effect and the result word. -/
def Chip.postWindow (s : Chip) (m v : Nat) : Chip :=
  let r := postRec v
  let d := s.decidePost r
  let s := if d.1 = Post.accepted then s.applyPost r else s
  s.setResult m (resultWord d r.tag s.win.pending.length)

/-- A posting that violates access: its word reads NONE (R25, R112). -/
def Chip.postViolation (s : Chip) (m : Nat) : Chip := (s.setResult m 0).violation m

/-- A write to a timeline aperture by master `m` (R23, R24): only 32 bytes at offset 0 are a record; the tag of a record that did not
come whole is free (log entry 2). -/
def Chip.apertureWrite (s : Chip) (m off : Nat) (d : List Byte) : Chip :=
  if s.rightDamaged 0x504 m then s.deny 0x504 m
  else if !s.mayPost m then s.postViolation m
  else if off ≠ 0 then s
  else if d.length = 32 then s.postWindow m (natLE d)
  else
    let (t, s) := s.takeNat
    s.setResult m (resultWord (Post.format, 0xFF, 0) (t % 65536) s.win.pending.length)

/-- The bytes of a timeline aperture (R24): the reader's result word at 0x20, zeros elsewhere. -/
def Chip.apertureByte (s : Chip) (m off : Nat) : Byte :=
  if 0x20 ≤ off ∧ off < 0x28 then BitVec.ofNat 8 (bitsOf (s.resultOf m) (8 * (off - 0x20)) 8) else 0

/-- TIMELINE_APERTURE_WRITE (R23, R24): BAR2 and CXL.mem of a head, an endpoint's WR, or a Hopper channel, which violates. -/
def Chip.timelineWrite (s : Chip) (src : TlSrc) (off : Nat) (d : List Byte) : Chip :=
  match src with
  | .bar2 h p => if (s.head h).up then (if s.pasidDenied p then s.postViolation h else s.apertureWrite h off d) else s
  | .cxl h => if s.serving ∧ (s.head h).state = .active then s.apertureWrite h off d else s
  | .link l p =>
    if s.linkLive l then (if s.pasidDenied p then s.postViolation (0x10 + l) else s.apertureWrite (0x10 + l) off d) else s
  | .hopper c => s.postViolation (0x20 + c)

/-- The 32 bytes of a CANCEL record (R21, R27). -/
def cancelRecord (tag epoch : Nat) : Nat := 4 * 2 ^ 128 + epoch * 2 ^ 144 + tag * 2 ^ 192

/-! ### Window events (R29, R37) -/

/-- The pending window of a tag that is not in effect. -/
def Chip.waitingWindow (s : Chip) (tag : Nat) : Option Window :=
  s.win.pending.find? (fun w => decide (w.tag = tag) && !w.active)

/-- WRITE_FENCE (R37): no fence of its own for a BURST that directly follows another. -/
def Chip.writeFence (s : Chip) (tag : Nat) : Chip :=
  match s.waitingWindow tag with
  | some w =>
    if w.cls = .burst ∧ !s.follows w ∧ !w.fenced ∧ s.passedBy w.start (w.fence + 2) then s.fenceWindow tag else s
  | none => s

/-- PROLOGUE (R37). -/
def Chip.windowPrologue (s : Chip) (tag : Nat) : Chip :=
  match s.waitingWindow tag with
  | some w =>
    if w.cls = .burst ∧ !s.follows w ∧ !w.prologued ∧ s.passedBy w.start (w.prologue + 2) then s.prologueWindow tag else s
  | none => s

/-- WINDOW_START (R37): at start_tc, within 2 TC; a window still in effect ends first. A BARRIER only pulses, once; its `fenced` keeps
that it did. -/
def Chip.windowStart (s : Chip) (tag : Nat) : Chip :=
  match s.waitingWindow tag with
  | some w =>
    if w.cls = .barrier then
      if s.passedBy w.start 2 ∧ w.evtStart ∧ !w.fenced then (s.modWindow tag (fun w => { w with fenced := true })).pulse w.line
      else s
    else if s.passedBy w.start 2 ∧ s.tb.tc < w.stop then
      match s.window with
      | some v => if v.stop ≤ w.start then (s.endWindow v (s.followed v)).startWindow w else s
      | none => s.startWindow w
    else s
  | none => s

/-- WINDOW_END (R37): at end_tc, within 2 TC. -/
def Chip.windowEnd (s : Chip) (tag : Nat) : Chip :=
  match s.win.pending.find? (fun w => decide (w.tag = tag) && w.active) with
  | some w => if s.passedBy w.stop 2 then s.endWindow w (s.followed w) else s
  | none => s

/-- Every write accepted before `t` has left absorb space (R29): none is absorbed, dirty in the cache above the non-volatile tier, or still
on its way there. -/
def Chip.writesGone (s : Chip) (t : Nat) : Bool :=
  s.kiln.absorbed.all (fun e => e.2.persist || decide (t ≤ e.2.tc))
    && s.cache.lines.all (fun e => !e.2.dirty || decide (t ≤ e.2.tc) || decide ((s.srcRec (e.1 / 64)).st ≠ .nvm))
    && s.waits.all (fun w => decide (w.acc.kind = .read ∨ t ≤ w.tc))
    && (s.coh.queue ++ s.coh.devQueue).all (fun q => decide (q.acc.kind = .read ∨ t ≤ q.tc))
    && s.coh.txns.all (fun x => decide (x.req.acc.kind = .read ∨ t ≤ x.req.tc))
    && s.fold.open.all (fun q => decide (t ≤ q.tc))

/-- Every background task and scheduled operation that started before `t` has finished (R29): migrations and repacks, programs,
expansions, a retirement, a resilver, and the running operation. -/
def Chip.tasksDone (s : Chip) (t : Nat) : Bool :=
  s.lauter.slots.all (fun e => decide (t ≤ e.2.since))
    && s.kiln.progs.all (fun e => decide (t ≤ e.2.since))
    && s.mill.expandTc.all (fun e => decide (t ≤ e.2))
    && (decide (s.lauter.retireStatus ≠ 1) || decide (t ≤ s.lauter.retireTc))
    && s.dram.ddr.all (fun e => e.2.stale.isEmpty || decide (e.2.freeze ≠ 0 ∨ t ≤ e.2.resilverTc))
    && (match s.win.running with | some o => decide (t ≤ o.since) | none => true)

/-- Everything a BARRIER at `t` waits for is done (R29). -/
def Chip.barrierClear (s : Chip) (t : Nat) : Bool := s.writesGone t && s.tasksDone t

/-- BARRIER_RETIRE (R29). -/
def Chip.barrierRetire (s : Chip) (tag : Nat) : Chip :=
  match s.waitingWindow tag with
  | some w =>
    if w.cls = .barrier ∧ w.start ≤ s.tb.tc ∧ s.barrierClear w.start then
      let s := s.dropWindow tag
      let s := { s with win := { s.win with barriers := s.win.barriers + 1 } }
      let s := if w.evtStart ∧ !w.fenced then s.pulse w.line else s
      if w.evtEnd then s.pulse w.line else s
    else s
  | none => s

/-! ### Debts (R41, R44, R45) -/

/-- A class publishes its debt and accrual rate (R41); MIGRATE's rate is the one its queued bytes give (R151), and SCRUB's level and rate
are those of its tiers (R351). -/
def Chip.publishDebt (s : Chip) (k level accrual : Nat) : Chip :=
  if k = 1 then s else
  { s with win := { s.win with
    debtLevel := Tab.put 0 s.win.debtLevel k level
    debtAccrual := if k = 3 then s.win.debtAccrual else Tab.put 0 s.win.debtAccrual k accrual
    debtRest := Tab.put 0 s.win.debtRest k 0 } }

/-- What a class's debt asks for where it stands (R44, R45): forced repayment from its maximum down to half of it outside a BURST window,
and at most one overrun per BURST window above the maximum in one. -/
def Chip.debtCheck (s : Chip) (k : Nat) : Chip :=
  let level := Tab.get 0 s.win.debtLevel k
  let m := s.cfgAt Obj.windowsDebtMax k
  let past := s.inBurst ∧ 0 < m ∧ m < level ∧ !bitOf s.win.overrun k
  let s := if past then
      { s with win := { s.win with
        debtOverruns := Tab.upd 0 s.win.debtOverruns k (· + 1), overrun := setBit s.win.overrun k true } }
    else s
  if !s.inBurst ∧ 0 < m ∧ m ≤ level then { s with win := { s.win with forced := setBit s.win.forced k true } }
  else if 2 * level ≤ m then { s with win := { s.win with forced := setBit s.win.forced k false } }
  else s

/-- DEBT_MAX_REACHED, DEBT_OVERRUN and FORCED_REPAYMENT_END (R41, R44, R45): the class publishes its debt, which asks for what it asks. -/
def Chip.debtReport (s : Chip) (k level accrual : Nat) : Chip := (s.publishDebt k level accrual).debtCheck k

/-- The rate at which a class repays now (R40, R41, R44), in work-µs per second; none of the work runs outside the modes of R529. -/
def Chip.repayRate (s : Chip) (k : Nat) : Nat :=
  if s.inBurst || !s.workMode then 0
  else if s.inQuiet || bitOf s.win.forced k then s.cfgAt Obj.windowsDebtQuietRepay k
  else s.cfgAt Obj.windowsDebtOpenRepay k

/-- A class other than SCRUB over one TC cycle (R41): the rest is kept in work-µs / (1,000 · kHz) (log entry 129). -/
def Chip.classTick (s : Chip) (k den : Nat) : Chip :=
  let x := debtStep (Tab.get 0 s.win.debtLevel k) (Tab.get 0 s.win.debtRest k) (s.accrual k) (s.repayRate k) den
  { s with win := { s.win with debtLevel := Tab.put 0 s.win.debtLevel k x.1, debtRest := Tab.put 0 s.win.debtRest k x.2 } }

/-- SCRUB over one TC cycle: its level is its largest tier debt (R351). -/
def Chip.scrubTick (s : Chip) (den : Nat) : Chip :=
  let s := s.tierTicks (s.repayRate 1) den
  { s with win := { s.win with debtLevel := Tab.put 0 s.win.debtLevel 1 s.scrubLevel } }

/-- The debt of a class over one TC cycle at the measured period (R41). -/
def Chip.debtTick (s : Chip) (k : Nat) : Chip :=
  let den := 1000 * s.tb.measuredKhz
  if den = 0 then s else (if k = 1 then s.scrubTick den else s.classTick k den).debtCheck k

/-! ### One TC cycle -/

/-- The bytes queued for copy in the last 60 s give MIGRATE's accrual rate (R41, R151): at lauter.copy_rate_mbs, averaged. -/
def Chip.rollCopied (s : Chip) : Chip :=
  let l := s.lauter.copied.filter (fun e => decide (e.1 ≤ s.tb.tc ∧ s.tb.tc < e.1 + 60 * s.tcPerSecond))
  let a := l.foldl (fun n e => n + e.2) 0 / s.cfg Obj.lauterCopyRateMbs / 60
  { s with
    lauter := { s.lauter with copied := l }
    win := { s.win with debtAccrual := Tab.put 0 s.win.debtAccrual 3 a } }

/-- Bytes are queued for copy (R151). -/
def Chip.queueCopy (s : Chip) (n : Nat) : Chip :=
  if n = 0 then s else ({ s with lauter := { s.lauter with copied := (s.tb.tc, n) :: s.lauter.copied } } : Chip).rollCopied

/-- One TC edge, as an idle step takes it (R8, R12, R16, R17, R41; log entry 3): a due frame that has not come by the end of its edge is
missed; TC advances; every window edge it reaches acts; and the debts move. -/
def Chip.tick (s : Chip) : Chip :=
  let s := { s with cnt := { s.cnt with clocks := s.cnt.clocks + 1 } }
  let s := s.missFrame
  let s := { s with tb := s.tb.edgeOn }
  if s.tb.state = .unlocked then s
  else
    let s := if s.win.pending.isEmpty then s else s.passEdges
    let s := if s.lauter.copied.isEmpty then s else s.rollCopied
    ([0, 1, 2, 3, 4].foldl (fun s k => s.debtTick k) s).allowTick

end Sys2Proof.Machine
end

