-- ==== Sys2Proof/Machine/Requests.lean ====
section
/-!
DEFINITION. Machine/Requests.lean: where a line access goes by its DLA: memory, the scratchpad (R253 to R255), the timeline aperture
(R24), the counter dump window (R561), doorbells (R401) and fold aliases (R434 to R437); and the fold unit (R438 to R441).
-/
namespace Sys2Proof.Machine

/-! ### The scratchpad -/

/-- The access is past a missing or unbound PASID (R96). -/
def Access.unbound (a : Access) : Bool := decide (a.bind = .pasid none)

/-- Mark the words that a mask touches as valid (R255). -/
def validWords (t : Tab Bool) (dla : Nat) (mask : BitVec 64) : Tab Bool :=
  (List.range 8).foldl (fun t i => if bitsOf mask.toNat (8 * i) 8 ≠ 0 then Tab.put false t (dla / 8 + i) true else t) t

/-- Any word of the line at `dla` is valid (R255). -/
def Chip.anyWord (s : Chip) (dla : Nat) : Bool := (List.range 8).any (fun i => Tab.get false s.cache.words (lineBase dla / 8 + i))

/-- A scratchpad line takes bytes (R254, R255, R441). -/
def Chip.scratchStore (s : Chip) (a : Access) : Chip :=
  let full := decide (a.mask = fullMask ∧ a.kind ≠ .fold)
  if s.poisoned a.dla && !full || (a.poison && decide (a.kind = .fold)) then
    ((if a.poison then s.setPoison a.dla true else s).poisonMerge a).2
  else
    let old := s.line a.dla
    let (x, sat) := if a.kind = .fold then foldLine a.op old a.data a.mask else (mergeLine old a.data a.mask, 0)
    let s := if a.kind = .fold then s.countFold sat else s
    let s := { s with mem := Mem.writeLine s.mem (lineBase a.dla) fullMask x }
    let s := { s with cache := { s.cache with words := validWords s.cache.words (lineBase a.dla) a.mask } }
    (s.setPoison a.dla a.poison).finishWrite a

/-- An access to the scratchpad (R253 to R255): by master ID on target 0x0502. It waits while its unit is offline (R33, R256). -/
def Chip.scratchAccess (s : Chip) (a : Access) (o : Obs) : Chip :=
  if s.unitOffline ((a.dla - 0x3FFFFE000000) / 4194304) then s.park .unit a o
  else if a.unbound || decide (s.cache.ways ≤ (a.dla - 0x3FFFFE000000) / 4194304) then s.violate a
  else if !isEngine a.master && (o.rightsBad || s.rightDamaged 0x502 a.master) then s.damagedAccess a o 0x502
  else if !s.hasRight 0x502 a.master a.kind.right then s.violate a
  else
    let s := if o.parity ≠ .ok && s.anyWord a.dla then
        (let s := s.setPoison a.dla true
         ({ s with integ := { s.integ with parityDirty := s.integ.parityDirty + 1 } } : Chip).raise 129 0xFF a.dla)
      else s
    if a.kind = .read then
      if s.poisoned a.dla then s.finishStored a o else s.finishRead a o (s.line a.dla) false
    else s.scratchStore a

/-- Accesses whose scratchpad unit is online again go on (R33, R256). -/
def Chip.wakeUnits (s : Chip) : Chip :=
  let up := fun (w : Wait) => decide (w.why = .unit) && !s.unitOffline ((w.acc.dla - 0x3FFFFE000000) / 4194304)
  (s.waits.filter up).foldl (fun s w => s.scratchAccess w.acc w.obs) { s with waits := s.waits.filter (fun w => !up w) }

/-! ### The counter dump window (R561 to R564) -/

/-- A dump record's bytes 0x00 to 0x37 (R564), as a number. -/
def DumpRec.head (r : DumpRec) : Nat :=
  r.seq + r.epoch * 2 ^ 32 + r.tbState * 2 ^ 48 + (if r.commanded then 2 ^ 56 else 0) + r.tc * 2 ^ 64 + r.clocks * 2 ^ 128
    + 2048 * 2 ^ 192 + r.window * 2 ^ 208 + r.skipped * 2 ^ 224 + r.filterGen * 2 ^ 256

/-- A dump record's counters (R564), as a number. -/
def DumpRec.body (r : DumpRec) : Nat :=
  (List.range 2048).foldl (fun v n =>
    v + (if counterHidden n then bitsOf r.rest (48 * n) 48 else Tab.get 0 r.counters n % 2 ^ 48) * 2 ^ (48 * n)) 0

/-- A dump record's checksum (R564): the CRC-64 of R366 over its bytes but the checksum. -/
def DumpRec.check (r : DumpRec) : Nat :=
  crcOf 64 0x42F0E1EBA9EA3693 (2 ^ 64 - 1) (8 * (0x38 + 0x3FC0)) (r.head + r.body * 2 ^ (8 * 0x38))

/-- `n` bytes of a dump record from `off`, as a number. -/
def DumpRec.bytes (r : DumpRec) (off : Nat) : Nat :=
  if off = 0 then r.head + r.check * 2 ^ (8 * 0x38) else bitsOf r.body (8 * (off - 0x40)) 512

/-- A line of the dump window: the stored bytes of the ring; where it holds no record, what is stored is free (log entry 43). -/
def Chip.dumpLine (s : Chip) (dla : Nat) : Line :=
  let x := lineBase dla - 0x3FFFFA000000
  if x / 16384 < s.cfg Obj.cntDumpRecords then
    match Tab.find s.cnt.ring (x / 16384) with
    | some r => BitVec.ofNat 512 (r.bytes (x % 16384))
    | none => Config.freeLineAt (lineBase dla) s.free
  else Config.freeLineAt (lineBase dla) s.free

/-- An access to the dump window (R561): reads need read right on target 0x0503, and every write is a violation. -/
def Chip.dumpAccess (s : Chip) (a : Access) (o : Obs) : Chip :=
  if a.kind ≠ .read ∨ a.unbound ∨ s.cfg Obj.cntDumpRecords = 0 then s.violate a
  else if !isEngine a.master && (o.rightsBad || s.rightDamaged 0x503 a.master) then s.damagedAccess a o 0x503
  else if s.hasRight 0x503 a.master 0 then s.finishRead a o (s.dumpLine a.dla) false
  else s.violate a

/-! ### The timeline aperture and doorbells -/

/-- The bytes a mask enables, where they lie together: the first offset and the bytes; none: no byte, or bytes apart. -/
def maskRun (mask : BitVec 64) (data : Line) : Option (Nat × List Byte) :=
  match (List.range 64).find? (fun i => mask.getLsbD i) with
  | none => none
  | some i =>
    let n := countIf (fun k => mask.getLsbD k) (List.range 64)
    if mask.toNat = (2 ^ n - 1) * 2 ^ i then some (i, (lineBytes data).drop i |>.take n) else none

/-- An access to the timeline aperture by CXL.mem or a link (R24); a Hopper channel's is a violation. -/
def Chip.timelineAccess (s : Chip) (a : Access) (o : Obs) : Chip :=
  let off := lineBase a.dla - 0x3FFFF9FFF000
  let m := a.master
  if a.unbound || decide (a.kind = .fold ∨ (0x20 ≤ m ∧ m < 0x60)) then
    (if a.kind = .read then s else s.setResult m 0).violate a
  else if !isEngine m && (o.rightsBad || s.rightDamaged 0x504 m) then s.damagedAccess a o 0x504
  else if a.kind = .read then
    if s.may 0x504 m 0 then s.finishRead a o (lineOf ((List.range 64).map (fun i => s.apertureByte m (off + i)))) false
    else (s.deny 0x504 m).deliver a.ret .read a.dla 0 false
  else
    let s := match maskRun a.mask a.data with
      | some (i, d) => s.apertureWrite m (off + i) d
      | none => if a.mask = 0 then s else s.apertureWrite m off []
    s.deliver a.ret .write a.dla 0 false

/-- One doorbell of a line read: its bytes as a number; without the right, zeros and a violation (R401), and where the rights value is
damaged, also poison (R114). -/
def Chip.doorbellRead (s : Chip) (a : Access) (q : Nat) : Nat × Bool × Chip :=
  match s.doorbellCheck a.master a.bind q 0 with
  | some t => (0, s.rightDamaged t a.master, s.deny t a.master)
  | none => (s.doorbellValue q, false, s)

/-- An access to the doorbell window (R401, R402): a line holds two doorbells. -/
def Chip.doorbellAccess (s : Chip) (a : Access) (o : Obs) : Chip :=
  let q := (lineBase a.dla - 0x3FFFFC000000) / 32
  if a.kind = .fold then s.violate a
  else if a.kind = .read then
    let (x, bad, s) := s.doorbellRead a q
    let (y, worse, s) := s.doorbellRead a (q + 1)
    if bad || worse then s.finishPoison a o else s.finishRead a o (BitVec.ofNat 512 (x + y * 2 ^ 256)) false
  else
    let lo := BitVec.ofNat 64 (a.mask.toNat % 2 ^ 32)
    let hi := BitVec.ofNat 64 (a.mask.toNat / 2 ^ 32)
    let put := fun (s : Chip) (q : Nat) (mask : BitVec 64) (x : Line) (ret : Ret) =>
      if mask = 0 then s.deliver ret .write a.dla 0 false
      else match maskRun mask x with
        | some (i, d) => s.doorbellPut a.master a.bind q i d ret true
        | none => s.doorbellPut a.master a.bind q 0 [] ret true
    let s := if lo = 0 then s else put s q lo a.data (if hi = 0 then a.ret else .none)
    if hi = 0 ∧ lo ≠ 0 then s else put s (q + 1) hi (a.data >>> 256) a.ret

/-! ### The fold unit (R438 to R440) -/

/-- Move waiting line folds into the queue of 2,048 (R440). -/
def Chip.foldRefill (s : Chip) : Chip :=
  let n := 2048 - s.fold.queue.length
  { s with fold := { s.fold with queue := s.fold.queue ++ s.fold.waiting.take n, waiting := s.fold.waiting.drop n } }

/-- A line fold arrives (R432, R440): it waits while the queue is full. -/
def Chip.queueFold (s : Chip) (m : Nat) (b : Binding) (dla op : Nat) (mask : BitVec 64) (data : Line) (poison : Bool) (ret : Ret)
    (vc : Nat := 0) : Chip :=
  let q : FoldReq := {
    id := s.fold.nextId, master := m, bind := b, dla := dla, op := op, mask := mask, data := data, poison := poison, ret := ret
    tc := s.tb.tc, vc := vc }
  ({ s with fold := { s.fold with waiting := s.fold.waiting ++ [q], nextId := s.fold.nextId + 1 } } : Chip).foldRefill

/-- The alias of a DLA (R436): the operation and the target; none: an invalid range, offset or operation (R437). -/
def Chip.aliasOf (s : Chip) (dla : Nat) : Option (Nat × Nat) :=
  let r := bitsOf dla 36 4
  let op := bitsOf dla 32 4
  let off := bitsOf dla 0 32
  let t := s.cfgAt Obj.foldAliasTarget r
  if bitOf t 63 ∧ off < 1024 * s.cfgAt Obj.foldAliasLengthKib r ∧ ((1 ≤ op ∧ op ≤ 7) ∨ op = 15) then
    some (op, bitsOf t 0 46 + off)
  else none

/-- The mask of the wholly enabled fields of a fold (R431). -/
def wholeFields (op : Nat) (mask : BitVec 64) : BitVec 64 :=
  let f := foldField op
  BitVec.ofNat 64 ((List.range (64 / f)).foldl (fun m i =>
    if bitsOf mask.toNat (f * i) f = 2 ^ f - 1 then m + (2 ^ f - 1) * 2 ^ (f * i) else m) 0)

/-- FOLD_ALIAS_WRITE (R437) of a line by head `h`: partial fields are skipped and counted (R431). -/
def Chip.aliasWrite (s : Chip) (a : Access) : Chip :=
  match s.aliasOf a.dla with
  | none => s.violate a
  | some (op, t) =>
    if op = 15 then
      match a.ret with
      | .head h tag _ =>
        { s with fold := { s.fold with
          fences := s.fold.fences ++ [{ h := h, tag := tag, dla := t, read := false, upto := s.fold.nextId }], fenceCount := s.fold.fenceCount + 1 } }
      | _ => s.violate a
    else
      let s := { s with fold := { s.fold with aliasPartial := s.fold.aliasPartial + foldPartial op a.mask } }
      let m := wholeFields op a.mask
      if m = 0 then s.finishWrite a else s.queueFold a.master a.bind t op m a.data a.poison a.ret

/-- FOLD_FENCE (R438): a write or a read of an alias with op 0xF. -/
def Chip.foldFence (s : Chip) (a : Access) (o : Obs) : Chip :=
  match s.aliasOf a.dla, a.ret with
  | some (15, t), .head h tag _ =>
    { s with fold := { s.fold with
      fences := s.fold.fences ++
        [{ h := h, tag := tag, dla := t, read := decide (a.kind = .read), upto := s.fold.nextId, burst := o.burst, bound := o.bound }]
      fenceCount := s.fold.fenceCount + 1 } }
  | _, _ => s.violate a

/-- An access by its DLA, but for an alias's target. -/
def Chip.requestAt (s : Chip) (a : Access) (o : Obs) : Chip :=
  match dlaWin a.dla with
  | .memory => s.access a o
  | .scratch => s.scratchAccess a o
  | .timeline => s.timelineAccess a o
  | .dump => s.dumpAccess a o
  | .doorbell => s.doorbellAccess a o
  | .foldAlias => s.violate a

/-- An access to the alias window by a head (R437); from any other master it is a violation. -/
def Chip.aliasAccess (s : Chip) (a : Access) (o : Obs) : Chip :=
  if 4 ≤ a.master ∨ a.kind = .fold then s.violate a
  else match s.aliasOf a.dla with
    | none => s.violate a
    | some (op, t) =>
      if op = 15 then s.foldFence a o
      else if a.kind = .read then s.requestAt { a with dla := t } o
      else s.aliasWrite a

/-- One access to one line, by its DLA. -/
def Chip.request (s : Chip) (a : Access) (o : Obs) : Chip :=
  match dlaWin a.dla with
  | .foldAlias => s.aliasAccess a o
  | _ => s.requestAt a o

/-- LINE_FOLD (R438, R439): the fold at place `n` of the queue, unless one to its line is before it. Of the windows, only the scratchpad takes
folds (R433). -/
def Chip.lineFold (s : Chip) (n : Nat) (o : Obs) : Chip :=
  match s.fold.queue[n]? with
  | none => s
  | some q =>
    let same := fun (x : FoldReq) => decide (lineNo x.dla = lineNo q.dla)
    if (s.fold.queue.take n).any same || s.fold.running.any same then s
    else
      let s := { s with fold := { s.fold with queue := s.fold.queue.eraseIdx n, running := s.fold.running ++ [q] } }
      let a : Access := ⟨q.master, q.bind, .fold, lineBase q.dla, q.mask, q.data, q.poison, true, q.op, .fold q.id⟩
      (s.requestAt a o).foldRefill

/-- FOLD_FENCE_DONE (R438): the oldest fence of head `h`, once every line fold accepted before it is visible. -/
def Chip.foldFenceDone (s : Chip) (h : Nat) (o : Obs) : Chip :=
  match s.fold.fences.find? (fun f => decide (f.h = h)) with
  | none => s
  | some f =>
    if s.fold.open.all (fun q => decide (f.upto ≤ q.id)) then
      let s := { s with fold := { s.fold with fences := s.fold.fences.erase f } }
      let a : Access := ⟨h, .byDir, if f.read then .read else .write, lineBase f.dla, 0, 0, false, true, 0, .head h f.tag .i⟩
      if f.read then s.requestAt a { o with burst := f.burst, bound := f.bound } else s.deliver a.ret .write a.dla 0 false
    else s

end Sys2Proof.Machine
end

