-- ==== Sys2Proof/Machine/HopChan.lean ====
section
/-!
DEFINITION. Machine/HopChan.lean: Hopper channels (R406 to R424): descriptors, their checks, readiness, bursts, durability, faults and
errors; and the event lines' external inputs (R425 to R428).
-/
namespace Sys2Proof.Machine

/-! ### Descriptors (R412 to R415) -/

/-- A side out of its 56 bytes (R413). -/
def sideOf (v : Nat) : Side :=
  { kind := bitsOf v 0 2, link := bitsOf v 8 3, vc := bitsOf v 11 3, queue := bitsOf v 32 20, base := bitsOf v 64 64
    len := bitsOf v 128 64, offset := bitsOf v 192 64, lineLen := bitsOf v 256 32, lineCount := bitsOf v 288 32
    stride := bitsOf v 320 64 }

/-- The reserved fields of a side are zero, and so are those its kind does not use (R413, R415). -/
def sideZero (v : Nat) : Bool :=
  let x := sideOf v
  decide (bitsOf v 2 6 = 0 ∧ bitsOf v 14 18 = 0 ∧ bitsOf v 52 12 = 0 ∧ bitsOf v 384 64 = 0) &&
  (match x.kind with
   | 0 => decide (x.link = 0 ∧ x.vc = 0 ∧ x.queue = 0)
   | 1 => decide (x.link = 0 ∧ x.vc = 0 ∧ x.base = 0 ∧ x.len = 0 ∧ x.offset = 0 ∧ x.stride = 0)
   | 2 => decide (x.queue = 0)
   | _ => true)

/-- A descriptor out of its 128 bytes (R412). -/
def descOf (v : Nat) : Desc :=
  { op := bitsOf v 0 8, evtDone := bitOf v 8, order := bitsOf v 16 3, foldOp := bitsOf v 24 8, line := bitsOf v 32 8
    deadline := bitsOf v 64 64, src := sideOf (bitsOf v 128 448), dst := sideOf (bitsOf v 576 448) }

/-- Element size (R412). -/
def Desc.esize (d : Desc) : Nat := 2 ^ d.order

/-- Elements of a side (R413); zero: unbounded. -/
def Side.n (x : Side) : Nat := x.lineLen * x.lineCount

/-- The address of element `n` of a MEM or LINK side (R413). -/
def Side.addr (x : Side) (esize n : Nat) : Nat := x.base + x.offset + (n / x.lineLen) * x.stride + (n % x.lineLen) * esize

/-- Reason 0x01 (R415): op, reserved and unused fields. -/
def descZero (v : Nat) : Bool :=
  let d := descOf v
  decide (1 ≤ d.op ∧ d.op ≤ 4 ∧ bitsOf v 9 7 = 0 ∧ bitsOf v 19 5 = 0 ∧ bitsOf v 40 24 = 0)
    && decide (d.op = 2 ∨ d.foldOp = 0) && decide (d.op = 4 ∨ d.evtDone ∨ d.line = 0)
    && (if 3 ≤ d.op then decide (d.order = 0 ∧ bitsOf v 128 896 = 0) else sideZero (bitsOf v 128 448) && sideZero (bitsOf v 576 448))

/-- The descriptor queue of a channel. -/
def Chip.descQueue (s : Chip) (ch : Nat) : Option QState := s.queue (s.hchan ch).queue

/-- How a channel is bound (R406). -/
def Chip.chanBind (s : Chip) (ch : Nat) : Binding :=
  match s.descQueue ch with
  | some x => if x.pv then .pasid (s.slotOf x.pasid) else .raw
  | none => .raw

/-- A bound channel issues only while its cask is ACTIVE (R410). -/
def Chip.caskServes (s : Chip) (ch : Nat) : Bool := s.bindOk (s.chanBind ch)

/-- Another descriptor in progress names queue `q`: in the same role on another channel, or in the other role on any (R415). -/
def Chip.queueTaken (s : Chip) (ch q : Nat) (src : Bool) : Bool :=
  s.hop.chans.any (fun e => e.2.descs.any (fun r =>
    !(r.refetch && decide (e.1 = ch)) && ((decide (e.1 ≠ ch) && r.d.uses q src) || r.d.uses q (!src))))

/-- A QUEUE side is fit (R415, reason 0x09). -/
def Chip.queueFit (s : Chip) (ch : Nat) (x : Side) (src : Bool) : Bool :=
  match s.queue x.queue, s.descQueue ch with
  | some q, some dq =>
    !q.fault && decide (q.pv = dq.pv ∧ q.pasid = dq.pasid ∧ (q.kind = 2 ∨ (src ∧ q.kind = 4) ∨ (!src ∧ q.kind = 3)))
      && !s.queueTaken ch x.queue src
  | _, _ => false

/-- One side's checks of R415: the reason of the first that fails among those it is asked, or none. -/
def Chip.sideOk (s : Chip) (ch : Nat) (d : Desc) (src : Bool) (reason : Nat) : Bool :=
  let x := if src then d.src else d.dst
  let e := d.esize
  let flat := decide (x.kind = 0 ∨ x.kind = 2)
  match reason with
  | 0x03 => decide (x.lineLen ≠ 0 ∧ x.lineLen ≤ 2 ^ 24)
  | 0x05 => !flat || decide (x.base % e = 0 ∧ x.offset % e = 0 ∧ x.stride % e = 0)
  | 0x06 => !flat || decide (x.offset + (x.lineCount - 1) * x.stride + x.lineLen * e ≤ x.len)
  | 0x07 =>
    if x.kind = 0 then decide (x.base + x.len ≤ dlaEnd) && !overlaps x.base x.len 0x3FFFFC000000 0x2000000
    else if x.kind = 2 then decide (x.base + x.len ≤ 2 ^ 64) else true
  | 0x08 => if src then decide (x.kind ≤ 1) else if d.op = 2 then decide (x.kind = 0) else decide (x.kind ≤ 2)
  | 0x09 => x.kind ≠ 1 || s.queueFit ch x src
  | 0x0A => x.kind ≠ 2 ||
      decide (s.cfgAt Obj.linkEnable x.link = 1 ∧ x.vc < s.cfgAt Obj.linkVcOffer x.link ∧ x.vc ≠ s.cohVc x.link)
  | _ => true

/-- The checks of a fetched descriptor in the order of R415: the first reason that applies. -/
def Chip.descRefusal (s : Chip) (ch v : Nat) (poison : Bool) : Option Nat :=
  let d := descOf v
  let both := fun (r : Nat) => s.sideOk ch d true r && s.sideOk ch d false r
  let flat := fun (x : Side) => decide (x.kind ≠ 1)
  if poison then some 0x0D
  else if !descZero v then some 0x01
  else if 3 ≤ d.op then none
  else if 6 < d.order then some 0x02
  else if !both 0x03 then some 0x03
  else if (flat d.src && decide (d.src.lineCount = 0)) || (flat d.dst && decide (d.dst.lineCount = 0))
      || decide (d.src.n ≠ d.dst.n) then some 0x04
  else if !both 0x05 then some 0x05
  else if !both 0x06 then some 0x06
  else if !both 0x07 then some 0x07
  else if !both 0x08 then some 0x08
  else if !both 0x09 || decide (d.src.kind = 1 ∧ d.dst.kind = 1 ∧ d.src.queue = d.dst.queue) then some 0x09
  else if !both 0x0A then some 0x0A
  else if d.op = 1 ∧ d.dst.kind ≠ 1 ∧ 1 < d.dst.lineCount ∧ d.dst.stride < d.dst.lineLen * d.esize then some 0x0B
  else if d.op = 2 ∧ (foldField d.foldOp = 0 ∨ d.esize < foldField d.foldOp) then some 0x0C
  else none

/-! ### Fill and readiness (R416) -/

/-- Bytes of live bursts that take from (or put into) queue `q`. -/
def Chip.issuedBytes (s : Chip) (q : Nat) (src : Bool) : Nat :=
  s.hop.chans.foldl (fun t e => e.2.bursts.foldl (fun t b =>
    if !b.dead && !b.gone && decide ((if src then b.srcQ else b.dstQ) = some q) then t + b.bytes else t) t) 0

/-- A source queue's bytes not yet issued. -/
def Chip.srcFill (s : Chip) (q : Nat) : Nat :=
  match s.queue q with | some x => diff64 x.prod (x.cons + s.issuedBytes q true) | none => 0

/-- A destination queue's bytes issued and not yet consumed. -/
def Chip.dstFill (s : Chip) (q : Nat) : Nat :=
  match s.queue q with | some x => diff64 (x.prod + s.issuedBytes q false) x.cons | none => 0

/-- Hysteresis of a source: ready at high_mark, not ready at low_mark (R416). -/
def srcHyst (x : QState) (fill : Nat) (old : Bool) : Bool := if x.high ≤ fill then true else if fill ≤ x.low then false else old

/-- Hysteresis of a destination (R416). -/
def dstHyst (x : QState) (fill : Nat) (old : Bool) : Bool := if fill ≤ x.low then true else if x.high ≤ fill then false else old

/-- The descriptor at issue_index, if it has been fetched and is not to be fetched again. -/
def HopChan.current (c : HopChan) : Option DescRun :=
  c.descs.find? (fun r => decide (r.index = c.issue) && !r.refetch && !r.issued)

/-- Update the ready states of a channel (R416). -/
def Chip.updateReady (s : Chip) (ch : Nat) : Chip :=
  let c := s.hchan ch
  let up := fun (x : Side) (src old : Bool) =>
    if x.kind = 1 then
      match s.queue x.queue with
      | some q => if src then srcHyst q (s.srcFill x.queue) old else dstHyst q (s.dstFill x.queue) old
      | none => false
    else true
  let descs := c.descs.map (fun r =>
    if r.index = c.issue ∧ r.d.op ≤ 2 then { r with srcReady := up r.d.src true r.srcReady, dstReady := up r.d.dst false r.dstReady } else r)
  let fetched := (if (c.descs.any (fun r => decide (r.index = c.issue))) then 1 else 0)
  let fr := match s.descQueue ch with
    | some q => srcHyst q (diff64 q.prod (c.issue + fetched)) c.fetchReady
    | none => false
  let keep := fun (x : Side) (rd : Bool) (old : Option (Nat × Bool)) => if x.kind = 1 then some (x.queue, rd) else old
  let (ls, ld) := match descs.find? (fun r => decide (r.index = c.issue ∧ r.d.op ≤ 2)) with
    | some r => (keep r.d.src r.srcReady c.lastSrc, keep r.d.dst r.dstReady c.lastDst)
    | none => (c.lastSrc, c.lastDst)
  s.setHchan ch { c with descs := descs, fetchReady := fr, lastSrc := ls, lastDst := ld }

/-- The source side is ready (R416): the last elements of a bounded descriptor issue below the mark too. -/
def Chip.srcIsReady (s : Chip) (c : HopChan) (r : DescRun) : Bool :=
  r.srcReady || (decide (r.d.src.kind = 1 ∧ r.d.src.n ≠ 0) && decide ((r.d.src.n - c.element) * r.d.esize ≤ s.srcFill r.d.src.queue))

/-- The destination side is ready (R416): a LINK side while its link is ACTIVE, and so the link of a LINK_DATA queue. -/
def Chip.dstIsReady (s : Chip) (r : DescRun) : Bool :=
  let x := r.d.dst
  if x.kind = 2 then decide ((s.link x.link).st = .active)
  else if x.kind = 1 then
    r.dstReady && (match s.queue x.queue with | some q => decide (q.kind ≠ 3 ∨ (s.link q.link).st = .active) | none => false)
  else true

/-! ### Bursts (R417 to R419) -/

/-- The address of the next bytes of a QUEUE side. -/
def Chip.ringAddr (s : Chip) (q : Nat) (src : Bool) : Nat :=
  match s.queue q with
  | some x => x.base + ((if src then x.cons else x.prod) + s.issuedBytes q src) % x.ring
  | none => 0

/-- The address of element `n` of a side, where the first to issue is element `first`. -/
def Chip.elemAddr (s : Chip) (d : Desc) (src : Bool) (first n : Nat) : Nat :=
  let x := if src then d.src else d.dst
  if x.kind = 1 then s.ringAddr x.queue src + (n - first) * d.esize else x.addr d.esize n

/-- A run of `n` elements from `first` keeps the limits of R417. -/
def Chip.burstOk (s : Chip) (d : Desc) (first n : Nat) : Bool :=
  let e := d.esize
  let bytes := n * e
  let side := fun (src : Bool) =>
    let a := s.elemAddr d src first first
    decide (a % 4096 + bytes ≤ 4096) && (List.range n).all (fun i => decide (s.elemAddr d src first (first + i) = a + i * e))
  decide (1 ≤ n ∧ bytes ≤ 512 ∧ (d.src.n = 0 ∨ first + n ≤ d.src.n)) && side true && side false
    && (decide (d.src.kind ≠ 1) || decide (bytes ≤ s.srcFill d.src.queue))
    && (decide (d.dst.kind ≠ 1) || (match s.queue d.dst.queue with
        | some q => decide (s.dstFill d.dst.queue + bytes ≤ q.ring) | none => false))

/-- Bursts of a channel in flight. -/
def HopChan.inflight (c : HopChan) : Nat := countIf (fun b => !b.fetch) c.bursts

/-- A burst may issue on a channel (R408, R410, R416, R418, R420). -/
def Chip.mayIssue (s : Chip) (ch : Nat) : Bool :=
  let c := s.hchan ch
  match c.current with
  | some r =>
    s.workMode && decide (c.st = .idle ∨ c.st = .run ∨ c.st = .stalled) && !c.stopping && decide (r.d.op ≤ 2) && !c.descs.any (fun r => decide (r.d.op = 3))
      && s.caskServes ch && s.srcIsReady c r && s.dstIsReady r && s.burstOk r.d c.element 1
      && decide (c.inflight < s.cfgAt Obj.hopperChanMaxInflight ch)
      && decide (s.hop.chans.foldl (fun t e => t + e.2.inflight) 0 < 256)
  | none => false

/-- Slack of a channel (R418); none: more than any other. -/
def Chip.slack (s : Chip) (ch : Nat) : Option Int :=
  match (s.hchan ch).current with
  | some r => if r.d.deadline = 0 ∨ s.tb.state = .unlocked then none else some ((r.d.deadline : Int) - (s.tb.tc : Int))
  | none => none

/-- Channel `a` goes before channel `b` (R418): priority, then slack, then round robin. -/
def Chip.goesBefore (s : Chip) (a b : Nat) : Bool :=
  let pa := s.cfgAt Obj.hopperChanPriority a
  let pb := s.cfgAt Obj.hopperChanPriority b
  let turn := fun (c p : Nat) => (c + 64 - Tab.get 63 s.hop.rr p - 1) % 64
  if pa ≠ pb then decide (pb < pa)
  else match s.slack a, s.slack b with
    | some x, some y => if x = y then decide (turn a pa < turn b pb) else decide (x < y)
    | some _, none => true
    | none, some _ => false
    | none, none => decide (turn a pa < turn b pb)

/-- The channel chosen next is `ch` (R418). -/
def Chip.chosen (s : Chip) (ch : Nat) : Bool :=
  s.mayIssue ch && s.hop.chans.all (fun e => decide (e.1 = ch) || !s.mayIssue e.1 || s.goesBefore ch e.1)

/-- The fault kind that a MEM element meets at translation (R422); none: it translates. -/
def Chip.elemFault (s : Chip) (a : Nat) : Option Nat :=
  if dlaWin a ≠ .memory then none
  else match s.extentOf a with
    | none => some 0x21
    | some e => match e.st with
      | .offered => some 0x22
      | .releasing => some 0x23
      | .accepted => none

/-- What stops issue at an element: a fault kind, or a Lauter hold as 0. -/
def Chip.elemStop (s : Chip) (d : Desc) (first n : Nat) : Option (Nat × Nat) :=
  let one := fun (src : Bool) =>
    let x := if src then d.src else d.dst
    let a := s.elemAddr d src first n
    if x.kind ≠ 0 then none
    else match s.elemFault a with
      | some k => some (k, a)
      | none => if dlaWin a = .memory ∧ s.held (pageNo a) then some (0, a) else none
  match one true with
  | some r => some r
  | none => one false

/-- The line accesses of a burst's source, or of a fetch (R406): bound by PASID, or raw. -/
def Chip.burstReads (s : Chip) (ch : Nat) (b : Burst) (o : Obs) : Chip :=
  (lineAddrs b.srcAddr b.bytes).foldl (fun s a =>
    s.request ⟨0x20 + ch, b.bind, .read, a, 0, 0, false, true, 0, .hopper ch b.id⟩ o) s

/-- A burst of `n` elements goes out (R417): its reads are issued. -/
def Chip.sendBurst (s : Chip) (ch : Nat) (r : DescRun) (n : Nat) (o : Obs) : Chip :=
  let c := s.hchan ch
  let d := r.d
  let dq := s.descQueue ch
  let pasid := match dq with | some q => if q.pv then q.pasid else 0 | none => 0
  let dst := s.elemAddr d false c.element c.element
  let src := s.elemAddr d true c.element c.element
  let link := if d.dst.kind = 2 then some (d.dst.link, d.dst.vc)
    else if d.dst.kind = 1 then (match s.queue d.dst.queue with
      | some q => if q.kind = 3 then some (q.link, q.vc) else none
      | none => none)
    else none
  let b : Burst := { id := s.hop.nextBurst, index := r.index, first := c.element, count := n, srcAddr := src, dstAddr := dst
                     bytes := n * d.esize, bind := s.chanBind ch, pasid := pasid, foldOp := if d.op = 2 then d.foldOp else 0
                     link := link, srcQ := if d.src.kind = 1 then some d.src.queue else none
                     dstQ := if d.dst.kind = 1 then some d.dst.queue else none
                     left := (lineAddrs src (n * d.esize)).length }
  let last := decide (d.src.n ≠ 0 ∧ c.element + n = d.src.n)
  let descs := if last then modFirst (fun x : DescRun => decide (x.index = r.index)) (fun x => { x with issued := true }) c.descs else c.descs
  let s := { s with hop := { s.hop with nextBurst := s.hop.nextBurst + 1 } }
  let s := s.setHchan ch { c with
    bursts := c.bursts ++ [b], descs := descs, issue := if last then (c.issue + 1) % 2 ^ 64 else c.issue
    element := if last then 0 else c.element + n, st := .run }
  s.burstReads ch b o

/-- BURST_ISSUE (R417 to R423): the chosen channel issues a burst of `n` elements, cut before an element that stops issue. -/
def Chip.burstIssue (s : Chip) (ch n : Nat) (o : Obs) : Chip :=
  let c := s.hchan ch
  match c.current with
  | none => s
  | some r =>
    if !s.chosen ch || !s.burstOk r.d c.element n then s
    else
      let sides := [(r.d.src), (r.d.dst)].filter (fun x => decide (x.kind = 1))
      let (ok, s) := sides.foldl (fun (ok, s) x => if ok then s.bringIn x.queue (decide (c.st ≠ .stalled)) else (ok, s)) (true, s)
      let s := { s with hop := { s.hop with rr := Tab.set s.hop.rr (s.cfgAt Obj.hopperChanPriority ch) ch } }
      if !ok then s.setHchan ch { s.hchan ch with st := .stalled }
      else if sides.any (fun x => match s.queue x.queue with | some q => q.fault | none => true) then s
      else
        let stops := (List.range n).find? (fun i => (s.elemStop r.d c.element (c.element + i)).isSome)
        match stops with
        | none => s.sendBurst ch r n o
        | some k =>
          let why := (s.elemStop r.d c.element (c.element + k)).getD (0, 0)
          let s := if k = 0 then s else s.sendBurst ch r k o
          if why.1 = 0 then s.setHchan ch { s.hchan ch with st := .stalled }
          else
            let s := s.chanStop ch .fault why.1 why.2
            ({ s with hop := { s.hop with faults := s.hop.faults + 1 } } : Chip).raise 148 (0x20 + ch) why.2 (.chan ch)

/-! ### Writes of a burst (R417, R421, R344) -/

/-- A tag of a leader's WR that is not in use on the link. -/
def Link.freeTag (k : Link) : Nat :=
  let used := k.wrTags.map (·.1)
  (((List.range (used.length + 1)).map (fun i => (k.nextTag + i) % 4096)).find? (fun t => !used.contains t)).getD 0

/-- The source bytes from `lo` to `hi` of a burst hold poison. -/
def Burst.poisonedAt (b : Burst) (lo n : Nat) : Bool := (lineAddrs (b.srcAddr + lo) n).any (fun a => b.poison.contains (lineNo a))

/-- Send a burst as WR packets of at most 256 bytes, each with CMPREQ (R417). -/
def Chip.sendWrs (s : Chip) (ch : Nat) (b : Burst) (l vc : Nat) (d : List Byte) : Chip :=
  (List.range (ceilDiv b.bytes 256)).foldl (fun s i =>
    let part := (d.drop (256 * i)).take 256
    let k := s.link l
    let t := k.freeTag
    let s := s.setLink l { k with nextTag := (t + 1) % 4096, wrTags := k.wrTags ++ [(t, ch, b.id)] }
    s.queuePacket l (mkData 0x03 vc 0 t b.pasid (b.dstAddr + 256 * i) part (b.poisonedAt (256 * i) part.length) true)) s

/-- A burst's reads are done: its writes, folds or WR packets go out. -/
def Chip.burstWrites (s : Chip) (ch : Nat) (b : Burst) : Chip :=
  let d := gatherBytes b.got b.srcAddr b.bytes
  let parts := lineParts b.dstAddr d
  let mark := fun (s : Chip) (n : Nat) => s.modBurst ch b.id (fun x => { x with wrote := true, left := n, got := [] })
  match b.link with
  | some (l, vc) =>
    if (s.link l).st = .active then (mark s (ceilDiv b.bytes 256)).sendWrs ch b l vc d else s
  | none =>
    parts.foldl (fun s p =>
      let lo := max p.addr b.dstAddr - b.dstAddr
      let n := countIf (fun k => p.mask.getLsbD k) (List.range 64)
      let bad := b.poisonedAt lo n
      if b.foldOp ≠ 0 then s.queueFold (0x20 + ch) b.bind p.addr b.foldOp p.mask p.data bad (.hopper ch b.id)
      else s.request ⟨0x20 + ch, b.bind, .write, p.addr, p.mask, p.data, bad, true, 0, .hopper ch b.id⟩ {}) (mark s parts.length)

/-! ### Errors (R424) -/

/-- The descriptor at `index` was abandoned by SKIP. -/
def HopChan.skipped (c : HopChan) (index : Nat) : Bool := c.descs.any (fun r => decide (r.index = index) && r.abandoned)

/-- A burst failed or was dropped (R424): issue stops, and the context goes back to it; in an abandoned descriptor it only ends. -/
def Chip.burstFail (s : Chip) (ch b kind : Nat) : Chip :=
  let c := s.hchan ch
  match c.bursts.find? (fun x => decide (x.id = b)) with
  | none => s
  | some x =>
    let s := s.modBurst ch b (fun y => { y with failed := kind })
    let s := if x.gone ∨ x.dead ∨ c.skipped x.index then s
      else
        let c := s.hchan ch
        let bursts := c.bursts.map (fun y => if x.id ≤ y.id && !y.gone && !y.fetch then { y with dead := true } else y)
        let descs := (c.descs.filter (fun r => decide (diff64 r.index c.done ≤ diff64 x.index c.done))).map
          (fun r => if r.index = x.index then { r with issued := false } else r)
        let s := s.setHchan ch { c with
          bursts := bursts.map (fun y => if y.fetch then { y with gone := true } else y), descs := descs
          issue := x.index, element := x.first, stopping := false }
        s.chanStop ch .error kind x.dstAddr
    s.raise 149 (0x20 + ch) 0 (.chan ch)

/-! ### Progress (R420, R421) -/

/-- A queue index advances. -/
def Chip.advanceQueue (s : Chip) (q : Option Nat) (n : Nat) (cons : Bool) : Chip :=
  match q with
  | none => s
  | some q => match s.queue q with
    | some x =>
      s.setQueue q (if cons then { x with cons := (x.cons + n) % 2 ^ 64, dirty := true } else { x with prod := (x.prod + n) % 2 ^ 64, dirty := true })
    | none => s

/-- The oldest burst that counts has ended: the indices of its queues advance (R421); `fuel` bounds the bursts. -/
def Chip.creditBursts (s : Chip) (ch : Nat) : Nat → Chip
  | 0 => s
  | n + 1 =>
    let c := s.hchan ch
    match c.bursts.find? (fun b => !b.gone && !b.fetch) with
    | none => s
    | some b =>
      if !b.dead && (b.durable || (decide (b.failed ≠ 0) && c.skipped b.index)) then
        let s := s.setHchan ch { c with
          bursts := c.bursts.erase b, bytes := if b.durable then (c.bytes + b.bytes) % 2 ^ 64 else c.bytes }
        Chip.creditBursts ((s.advanceQueue b.srcQ b.bytes true).advanceQueue b.dstQ b.bytes false) ch n
      else s

/-- Descriptors complete in order (R420, R421); `fuel` bounds them. -/
def Chip.completeDescs (s : Chip) (ch : Nat) : Nat → Chip
  | 0 => s
  | n + 1 =>
    let c := s.hchan ch
    match c.descs with
    | [] => s
    | r :: rest =>
      if r.issued && !c.bursts.any (fun b => decide (b.index = r.index) && !b.gone) then
        let s := s.setHchan ch { c with descs := rest, done := (r.index + 1) % 2 ^ 64 }
        let s := s.advanceQueue (some c.queue) 1 true
        let s := if !r.abandoned && (r.d.evtDone || decide (r.d.op = 4)) then s.pulse r.d.line else s
        Chip.completeDescs s ch n
      else s

/-- Bursts that only run to their end leave when they have. -/
def HopChan.dropGone (c : HopChan) : HopChan :=
  { c with bursts := c.bursts.filter (fun b => !(b.gone && decide (b.left = 0) && (b.wrote || b.fetch))) }

/-- A channel that runs is RUN while bursts are in flight or may issue, else IDLE (R407, R410). -/
def Chip.chanRefresh (s : Chip) (ch : Nat) : Chip :=
  let c := s.hchan ch
  let busy := decide (c.bursts ≠ []) || s.mayIssue ch
  if c.st = .idle ∨ c.st = .run ∨ (c.st = .stalled ∧ !s.caskServes ch) then
    s.setHchan ch { c with st := if busy then .run else .idle }
  else s

/-! ### Fetch (R415, R416) -/

/-- DESCRIPTOR_FETCH (R415): the descriptor at issue_index, when the marks of the descriptor queue say so, or when it is to be fetched
again. -/
def Chip.descriptorFetch (s : Chip) (ch : Nat) (o : Obs) : Chip :=
  let c := s.hchan ch
  match s.descQueue ch with
  | none => s
  | some q =>
    let again := c.descs.any (fun r => decide (r.index = c.issue) && r.refetch) || decide (c.element ≠ 0)
    let have' := c.descs.any (fun r => decide (r.index = c.issue) && !r.refetch)
    let waiting := 0 < diff64 q.prod c.issue ∧ (again ∨ c.fetchReady)
    if s.workMode ∧ (c.st = .idle ∨ c.st = .run ∨ c.st = .stalled) ∧ !c.stopping ∧ !q.fault ∧ !have' ∧ waiting ∧ s.caskServes ch
        ∧ !c.bursts.any (·.fetch) then
      let (ok, s) := s.bringIn c.queue (decide (c.st ≠ .stalled))
      match s.descQueue ch with
      | none => s
      | some q =>
        if !ok then s.setHchan ch { c with st := .stalled }
        else if q.fault then s
        else
          let c := s.hchan ch
          let b : Burst := { id := s.hop.nextBurst, index := c.issue, first := 0, count := 0
                             srcAddr := q.base + 128 * (c.issue % q.capacity), dstAddr := 0, bytes := 128, bind := s.chanBind ch
                             left := 2, fetch := true }
          let s := { s with hop := { s.hop with nextBurst := s.hop.nextBurst + 1 } }
          let s := s.setHchan ch { c with bursts := c.bursts ++ [b], st := if c.st = .idle then .run else c.st }
          s.burstReads ch b o
    else s

/-- The ready state of a side as its queue's fill stands now (R416). -/
def Chip.freshReady (s : Chip) (x : Side) (src : Bool) : Bool :=
  match s.queue x.queue with
  | some q => if src then decide (q.high ≤ s.srcFill x.queue) else decide (s.dstFill x.queue < q.high)
  | none => false

/-- The ready state a side starts with (R416): that of the descriptor before it on the same queue, or as the fill stands now. -/
def Chip.startReady (s : Chip) (x : Side) (src : Bool) (last : Option (Nat × Bool)) : Bool :=
  if x.kind ≠ 1 then true
  else match last with
    | some (q, r) => if q = x.queue then r else s.freshReady x src
    | none => s.freshReady x src

/-- A fetched descriptor is taken, or refused with its reason (R415). -/
def Chip.takeDesc (s : Chip) (ch : Nat) (b : Burst) : Chip :=
  let c := s.hchan ch
  let s := s.setHchan ch { c with bursts := c.bursts.erase b }
  if b.gone ∨ b.index ≠ c.issue then s
  else
    let v := natLE (gatherBytes b.got b.srcAddr 128)
    match s.descRefusal ch v (b.poison ≠ []) with
    | some r =>
      let s := { s with hop := { s.hop with refusals := s.hop.refusals + 1 } }
      (s.chanStop ch .refused r 0).raise 147 (0x20 + ch) 0 (.chan ch)
    | none =>
      let d := descOf v
      let c := s.hchan ch
      let whole := decide (3 ≤ d.op ∨ (d.src.n ≠ 0 ∧ d.src.n ≤ c.element))
      let run : DescRun := { index := b.index, d := d, srcReady := s.startReady d.src true c.lastSrc
                             dstReady := s.startReady d.dst false c.lastDst, issued := whole }
      let descs := if c.descs.any (fun r => decide (r.index = b.index)) then
          c.descs.map (fun r => if r.index = b.index then run else r) else c.descs ++ [run]
      s.setHchan ch { c with descs := descs, issue := if whole then (c.issue + 1) % 2 ^ 64 else c.issue
                             element := if whole then 0 else c.element }

/-- One channel goes on: fetched descriptors are taken, bursts that were read are written, ended ones count, descriptors complete
(R415 to R421). -/
def Chip.hopStep (s : Chip) (ch : Nat) : Chip :=
  let s := ((s.hchan ch).bursts.filter (fun b => b.fetch && decide (b.left = 0))).foldl (fun s b => s.takeDesc ch b) s
  let s := ((s.hchan ch).bursts.filter (fun b => !b.fetch && !b.wrote && decide (b.left = 0 ∧ b.failed = 0))).foldl
    (fun s b => s.burstWrites ch b) s
  let s := s.setHchan ch (s.hchan ch).dropGone
  let s := s.creditBursts ch (s.hchan ch).bursts.length
  let s := s.completeDescs ch (s.hchan ch).descs.length
  (s.updateReady ch).chanRefresh ch

/-- Every channel goes on. -/
def Chip.hopPump (s : Chip) : Chip :=
  (s.hop.chans.filter (fun e => decide (e.2.st ≠ .off) || decide (e.2.bursts ≠ []))).foldl (fun s e => s.hopStep e.1) s

/-- BURST_DURABLE (R421): every line of the burst is visible, or every WR answered OK. -/
def Chip.burstDurable (s : Chip) (ch b : Nat) : Chip :=
  match (s.hchan ch).bursts.find? (fun x => decide (x.id = b)) with
  | some x =>
    if x.wrote ∧ x.left = 0 ∧ x.failed = 0 ∧ !x.fetch then s.modBurst ch b (fun y => { y with durable := true }) else s
  | none => s

/-! ### Channel commands (R408) -/

/-- A context without content (R409): at the queue's consumer index. -/
def Chip.emptyContext (s : Chip) (ch : Nat) : Chip :=
  let c := s.hchan ch
  let i := match s.queue c.queue with | some q => q.cons | none => 0
  s.setHchan ch { c with
    done := i, issue := i, element := 0, kept := false, reason := 0, stopAddr := 0, tc := 0, epoch := 0, descs := [], stopping := false
    bursts := c.bursts.map (fun b => { b with gone := true }), lastSrc := none, lastDst := none, fetchReady := false }

/-- START (R408). -/
def Chip.chanStart (s : Chip) (ch : Nat) : Nat × Chip :=
  let c := s.hchan ch
  let v := s.cfgAt Obj.hopperChanQueue ch
  let q := bitsOf v 0 20
  match s.queue q with
  | none => (Abort.channelState, s)
  | some x =>
    if c.st ≠ .off ∨ !bitOf v 31 ∨ x.kind ≠ 1 ∨ x.fault then (Abort.channelState, s)
    else if s.hop.chans.any (fun e => decide (e.1 ≠ ch ∧ e.2.st ≠ .off ∧ e.2.queue = q)) then (Abort.resourceOwned, s)
    else
      let c := if c.kept ∧ c.queue = q then c else { c with done := x.cons, issue := x.cons, element := 0 }
      let fill := diff64 x.prod c.issue
      (0, s.setHchan ch { c with
        st := .idle, reason := 0, stopAddr := 0, tc := 0, epoch := 0, queue := q, kept := false, descs := [], stopping := false
        fetchReady := decide (x.high ≤ fill), lastSrc := none, lastDst := none })

/-- The channel is OFF with its context kept (R408). -/
def Chip.chanOff (s : Chip) (ch : Nat) : Chip :=
  let c := s.hchan ch
  s.setHchan ch { c with st := .off, stopping := false, kept := true, descs := [] }

/-- STOP (R408): OFF once the bursts in flight have ended. -/
def Chip.chanStopCmd (s : Chip) (ch : Nat) : Nat × Chip :=
  let c := s.hchan ch
  if c.st = .idle ∨ c.st = .run ∨ c.st = .stalled then
    (0, if c.bursts = [] then s.chanOff ch else s.setHchan ch { c with stopping := true })
  else (Abort.channelState, s)

/-- CHANNEL_STOPPED (R408). -/
def Chip.chanStopped (s : Chip) (ch : Nat) : Chip :=
  let c := s.hchan ch
  if c.stopping ∧ c.bursts = [] then s.chanOff ch else s

/-- The channel stands in FAULT, REFUSED or ERROR. -/
def HopChan.stopped (c : HopChan) : Bool := decide (c.st = .fault ∨ c.st = .refused ∨ c.st = .error)

/-- RESUME (R408): the descriptor at issue_index is fetched and checked again. -/
def Chip.chanResume (s : Chip) (ch : Nat) : Nat × Chip :=
  let c := s.hchan ch
  if c.stopped then
    (0, s.setHchan ch { c with
      st := .idle, reason := 0, stopAddr := 0, tc := 0, epoch := 0
      descs := c.descs.map (fun r => if r.index = c.issue then { r with refetch := true } else r)
      bursts := c.bursts.map (fun b => if b.dead then { b with gone := true, dead := false } else b) })
  else (Abort.channelState, s)

/-- SKIP (R408, R424): the descriptor at issue_index is abandoned; its bursts count as they end. -/
def Chip.chanSkip (s : Chip) (ch : Nat) : Nat × Chip :=
  let c := s.hchan ch
  if c.stopped then
    let zero : Side := ⟨0, 0, 0, 0, 0, 0, 0, 0, 0, 0⟩
    let empty : DescRun := { index := c.issue, d := ⟨3, false, 0, 0, 0, 0, zero, zero⟩, srcReady := true, dstReady := true
                             issued := true, abandoned := true }
    let descs := if c.descs.any (fun r => decide (r.index = c.issue)) then
        c.descs.map (fun r => if r.index = c.issue then { r with issued := true, abandoned := true, refetch := false } else r)
      else c.descs ++ [empty]
    (0, s.setHchan ch { c with
      st := .idle, reason := 0, stopAddr := 0, tc := 0, epoch := 0, descs := descs, issue := (c.issue + 1) % 2 ^ 64, element := 0
      bursts := c.bursts.map (fun b =>
        if b.dead then (if b.index = c.issue then { b with dead := false } else { b with gone := true, dead := false }) else b) })
  else (Abort.channelState, s)

/-- CLEAR (R408): OFF with an empty context. -/
def Chip.chanClear (s : Chip) (ch : Nat) : Nat × Chip :=
  let c := s.hchan ch
  if c.st = .off ∨ c.stopped then
    (0, (s.setHchan ch { c with st := .off }).emptyContext ch)
  else (Abort.channelState, s)

/-- hopper.chan.context (R409), as a number. -/
def HopChan.context (c : HopChan) : Nat :=
  let st := match c.st with | .off => 0 | .idle => 1 | .run => 2 | .stalled => 3 | .fault => 4 | .refused => 5 | .error => 6
  st + c.reason * 2 ^ 8 + c.inflight * 2 ^ 16 + c.queue * 2 ^ 32 + c.done * 2 ^ 64 + c.issue * 2 ^ 128 + c.element * 2 ^ 192
    + (c.stopAddr % 2 ^ 64) * 2 ^ 256 + c.tc * 2 ^ 320 + c.epoch * 2 ^ 384

/-! ### Event lines (R425, R426, R428) -/

/-- EVT_IN_EDGE (R426): the line whose input the pin is. -/
def Chip.evtIn (s : Chip) (pin : Nat) : Chip :=
  match (List.range 256).find? (fun n => decide (s.cfgAt Obj.hopperEventLineInput n = 0x10 + pin)) with
  | some n => s.pulse n
  | none => s

/-- EVT_OUT_END (R428). -/
def Chip.evtOutEnd (s : Chip) (pin : Nat) : Chip := { s with hop := { s.hop with pins := setBit s.hop.pins pin false } }

end Sys2Proof.Machine
end

