-- ==== Sys2Proof/Machine/Records.lean ====
section
/-!
DEFINITION. Machine/Records.lean: the bytes of Seedbank's image headers, sector headers and records, and the walk that reads a
sector (R484, R486, R487, R490).
-/
namespace Sys2Proof.Machine

/-- Bytes a record with `n` payload bytes takes (R487). -/
def recSize (n : Nat) : Nat := (16 + 2 * n + 15) / 16 * 16

/-- The key is one that R487 and R488 give its kind; other item codes and streams, and the key's reserved bits, are reserved. -/
def recKeyOk (kind key : Nat) : Bool :=
  match kind with
  | 1 => decide (key < 2 ^ 24)
  | 2 => decide (1 ≤ key ∧ key ≤ 3 ∨ 0x100 ≤ key ∧ key ≤ 0x1FF)
  | 3 => decide (key < 1024)
  | 4 => decide (key = 1)
  | _ => false

/-- Header bytes 0x00 to 0x0B of a record (R487). -/
def SbRec.head (r : SbRec) : List Byte :=
  [BitVec.ofNat 8 r.kind, 0] ++ bytesLE 2 r.payload.length ++ bytesLE 4 r.key ++ bytesLE 4 r.seq

/-- A payload and its bitwise complement. -/
def SbRec.body (r : SbRec) : List Byte := r.payload ++ r.payload.map (fun b => ~~~b)

/-- The bytes of a record (R487): a record already found damaged stands with a crc that does not match, a torn one without its commit
byte. -/
def SbRec.bytes (r : SbRec) : List Byte :=
  let crc := crcBytes (r.head ++ r.body)
  let b := r.head ++ bytesLE 2 (if r.intact then crc else crc ^^^ 0xFFFF) ++ [0, if r.commit then 0xA5 else 0xFF] ++ r.body
  b ++ List.replicate (recSize r.payload.length - b.length) 0xFF

/-- The 32-byte header of a sector that has been opened (R486). -/
def Sector.header (x : Sector) : List Byte :=
  let a := bytesLE 4 0x4B4E4253 ++ bytesLE 4 x.gen
  let c := bytesLE 4 x.erases
  let st : Byte := match x.st with | .erased => 0xFF | .opened => 0xFE | .full => 0xFC | .retiring => 0xF8
  a ++ [st, 0] ++ bytesLE 2 (crcBytes (a ++ c)) ++ c ++ List.replicate 16 0

/-- The bytes of a sector as far as the scan walks them: its header, its records, and one unprogrammed header behind them. -/
def sectorBytes (x : Sector) (recs : List SbRec) : List Byte :=
  if x.st = .erased then List.replicate 48 0xFF
  else (x.header ++ recs.flatMap SbRec.bytes ++ List.replicate 16 0xFF).take 65536

/-- A sector's magic and crc hold (R486). -/
def sectorHeadOk (b : List Byte) : Bool :=
  decide (fieldLE b 0 4 = 0x4B4E4253 ∧ fieldLE b 10 2 = crcBytes (b.take 8 ++ (b.drop 12).take 4))

/-- What the walk finds at a header (R490). -/
inductive Found where
  | last
  | malformed
  | record (r : SbRec)
  deriving DecidableEq, Repr

/-- The record at the front of `b`, in sector `k` with `room` bytes left (R487, R490; log entry 164). Kind 0xFF ends the records. A
reserved kind, a length outside 1 to 4,096 or past the sector's end, or a reserved field of a torn record is malformed; `intact` of a
committed record says that its crc, its complement and its reserved fields pass. -/
def parseRec (k room : Nat) (b : List Byte) : Found :=
  let kind := fieldLE b 0 1
  let n := fieldLE b 2 2
  let key := fieldLE b 4 4
  let commit := decide (fieldLE b 15 1 = 0xA5)
  let clean := decide (fieldLE b 1 1 = 0 ∧ fieldLE b 14 1 = 0) && recKeyOk kind key
  let pay := (b.drop 16).take n
  let comp := (b.drop (16 + n)).take n
  if kind = 0xFF ∨ room < 16 then .last
  else if kind = 0 ∨ 4 < kind ∨ n = 0 ∨ 4096 < n ∨ room < recSize n ∨ (!commit && !clean) then .malformed
  else .record ⟨k, kind, key, fieldLE b 8 4, pay, commit,
    clean && decide (fieldLE b 12 2 = crcBytes (b.take 12 ++ pay ++ comp) ∧ comp = pay.map (fun x => ~~~x))⟩

/-- The walk of a sector's records (R490): the records in their order, and whether it ended at a malformed header. At most 4,096
records stand in a sector. -/
def walkRecs (k : Nat) : Nat → Nat → List Byte → List SbRec × Bool
  | 0, _, _ => ([], false)
  | fuel + 1, room, b =>
    match parseRec k room b with
    | .last => ([], false)
    | .malformed => ([], true)
    | .record r =>
      let n := recSize r.payload.length
      let rest := walkRecs k fuel (room - n) (b.drop n)
      (r :: rest.1, rest.2)

/-- The walk of the record area of a sector whose bytes read `b`. -/
def walkSector (k : Nat) (b : List Byte) : List SbRec × Bool := walkRecs k 4096 65504 (b.drop 32)

/-- The 64-byte header of an image area (R484); the version field's byte at the lowest offset is its lowest. -/
def Image.header (x : Image) : List Byte :=
  let st : Byte := match x.st with | .blank => 0xFF | .loaded => 0xFE | .activated => 0xFC | .rejected => 0xF8
  bytesLE 4 0x474D4946 ++ bytesLE 4 x.length ++ bytesLE 4 x.seq ++ [st, 0, 0, 0] ++ bytesLE 32 x.version.toNat ++ List.replicate 16 0

end Sys2Proof.Machine
end

