-- ==== Sys2Proof/Machine/Seedbank.lean ====
section
/-!
DEFINITION. Machine/Seedbank.lean: the parameter store (R482 to R496): records and their live copies, appends, recall,
compaction, protection, the wear allowance, and the firmware images.
-/
namespace Sys2Proof.Machine

/-! ### Sectors and records -/

/-- Sector `k` of the record area. -/
def Chip.sec (s : Chip) (k : Nat) : Sector := Tab.get {} s.sb.sectors k

/-- Replace sector `k`. -/
def Chip.setSec (s : Chip) (k : Nat) (x : Sector) : Chip := { s with sb := { s.sb with sectors := Tab.put {} s.sb.sectors k x } }

/-- The sectors of the record area (R482). -/
def recordSectors : List Nat := (List.range 64).map (· + 64)

/-- The erased sectors. -/
def Chip.erasedSectors (s : Chip) : List Nat := recordSectors.filter (fun k => decide ((s.sec k).st = .erased))

/-- The open sector. -/
def Chip.openSector (s : Chip) : Option Nat := recordSectors.find? (fun k => decide ((s.sec k).st = .opened))

/-- seedbank.free_kib: unused space of the record area. -/
def Chip.sbFreeKib (s : Chip) : Nat :=
  recordSectors.foldl (fun a k =>
    a + (match (s.sec k).st with | .erased => 65536 | .opened => 65536 - (s.sec k).used | _ => 0)) 0 / 1024

/-- A copy that the scan takes as valid (R490). -/
def SbRec.valid (r : SbRec) : Bool := r.commit && r.intact && recKeyOk r.kind r.key

/-- Record `a` stands before record `b` of the same key (R490, R491): a higher seq, then a sector of higher generation. -/
def Chip.sbBefore (s : Chip) (a b : SbRec) : Bool :=
  decide (b.seq < a.seq ∨ (a.seq = b.seq ∧ (s.sec b.sector).gen < (s.sec a.sector).gen))

/-- The valid copies of a key. -/
def Chip.sbCopies (s : Chip) (kind key : Nat) : List SbRec :=
  s.sb.recs.filter (fun r => r.valid && decide (r.kind = kind ∧ r.key = key))

/-- Another valid copy of equal seq, in a sector of equal generation, with other contents (R491). -/
def Chip.sbClash (s : Chip) (r : SbRec) : Bool :=
  (s.sbCopies r.kind r.key).any (fun x =>
    decide (x.seq = r.seq ∧ (s.sec x.sector).gen = (s.sec r.sector).gen ∧ x.payload ≠ r.payload))

/-- The copy of a key that stands before every other (R490). -/
def Chip.sbFirst (s : Chip) (kind key : Nat) : Option SbRec :=
  match s.sbCopies kind key with
  | [] => none
  | r :: l => some (l.foldl (fun a b => if s.sbBefore b a then b else a) r)

/-- The live copy of a key (R490): none where copies conflict (R491). -/
def Chip.sbLive (s : Chip) (kind key : Nat) : Option SbRec :=
  match s.sbFirst kind key with
  | none => none
  | some r => if s.sbClash r then none else some r

/-- The key's first copy conflicts with another (R491). -/
def Chip.sbConflict (s : Chip) (kind key : Nat) : Bool :=
  match s.sbFirst kind key with
  | none => false
  | some r => s.sbClash r

/-- A LOG record is live while it holds one of the newest 4,096 entries of its stream (R493) and no other copy conflicts with it
(R491). -/
def Chip.logLive (s : Chip) (r : SbRec) : Bool :=
  !s.sbClash r && decide ((s.sb.recs.filter (fun x => x.valid && decide (x.kind = 4 ∧ x.key = r.key ∧ r.seq < x.seq))).foldl
    (fun a x => a + x.payload.length / 32) 0 < 4096)

/-- The record is live. -/
def Chip.sbIsLive (s : Chip) (r : SbRec) : Bool :=
  r.valid && (if r.kind = 4 then s.logLive r else decide (s.sbLive r.kind r.key = some r))

/-- Bytes of live records. -/
def Chip.sbLiveBytes (s : Chip) : Nat := (s.sb.recs.filter s.sbIsLive).foldl (fun a r => a + recSize r.payload.length) 0

/-- The next seq of a key (R489). -/
def Chip.sbNextSeq (s : Chip) (kind key : Nat) : Nat :=
  (s.sb.recs.filter (fun r => decide (r.kind = kind ∧ r.key = key))).foldl (fun a r => max a r.seq) 0 + 1

/-- The open sector takes a record, or the erased sector with the lowest erase count is opened for it (R489). -/
def Chip.sbPlace (s : Chip) (kind key seq : Nat) (payload : List Byte) (commit : Bool) : Option Chip :=
  let n := recSize payload.length
  let put := fun (s : Chip) (k : Nat) =>
    let x := s.sec k
    let s := s.setSec k { x with used := x.used + n }
    { s with sb := { s.sb with recs := s.sb.recs ++ [(⟨k, kind, key, seq, payload, commit, true⟩ : SbRec)] } }
  let fresh := fun (s : Chip) =>
    match s.erasedSectors with
    | [] => none
    | e :: r =>
      let k := r.foldl (fun a b => if (s.sec b).erases < (s.sec a).erases then b else a) e
      let g := recordSectors.foldl (fun a b => max a (s.sec b).gen) 0
      some (put (s.setSec k { s.sec k with st := .opened, gen := g + 1, used := 32 }) k)
  match s.openSector with
  | some k => if (s.sec k).used + n ≤ 65536 then some (put s k) else fresh (s.setSec k { s.sec k with st := .full })
  | none => fresh s

/-- Every appended byte spends the allowance (R495). -/
def Chip.sbSpend (s : Chip) (n : Nat) : Chip :=
  let was := s.sb.allowance
  let s := { s with sb := { s.sb with allowance := was - n } }
  if 0 ≤ was ∧ was < n then s.raise 165 else s

/-- An append (R489): whether its record is committed. The die failed, the area is protected, the seq or the space runs out, or
PERSIST lets none start: it is refused. -/
def Chip.sbAppend (s : Chip) (kind key : Nat) (payload : List Byte) : Bool × Chip :=
  let n := recSize payload.length
  let seq := s.sbNextSeq kind key
  let old := match s.sbLive kind key with | some r => if kind = 4 then 0 else recSize r.payload.length | none => 0
  if s.sb.st = 2 ∨ s.sb.protect = 3 ∨ s.mode.current = .persist ∨ 0xFFFFFFFF < seq ∨ 62 * 65504 < s.sbLiveBytes + n - old then (false, s)
  else match s.sbPlace kind key seq payload true with
    | some s => (true, s.sbSpend n)
    | none => (false, s)

/-- LOG and count-slice appends wait on chip: the area is protected, the allowance is negative, or the mode is UPDATE (R494, R495,
R532). -/
def Chip.sbHolds (s : Chip) : Bool := decide (s.sb.protect = 3 ∨ s.sb.allowance < 0 ∨ s.mode.current = .update)

/-- A LOG or count-slice append. -/
def Chip.sbLog (s : Chip) (kind key : Nat) (payload : List Byte) : Chip :=
  if s.sbHolds then
    { s with sb := { s.sb with held := s.sb.held ++ [(kind, key, payload)], deferred := s.sb.deferred + 1 } }
  else (s.sbAppend kind key payload).2

/-- The held appends proceed (R495). -/
def Chip.sbRelease (s : Chip) : Chip :=
  if s.sbHolds then s
  else
    let held := s.sb.held
    held.foldl (fun s (k, key, p) => (s.sbAppend k key p).2) { s with sb := { s.sb with held := [] } }

/-! ### Values -/

/-- The record key of an object (R487). -/
def paramKey (key : Nat) : Nat := key / 256 + key % 256 * 65536

/-- The object of a record key. -/
def paramObj (k : Nat) : Nat := k % 65536 * 256 + k / 65536 % 256

/-- An RWP object takes a value once its record is committed (R454); else the store-failed abort code 0x00060001. -/
def Chip.commitRwp (s : Chip) (key size v : Nat) : Nat × Chip :=
  let (ok, s') := s.sbAppend 1 (paramKey key) (bytesLE size v)
  if ok then (0, s'.setRwp key v) else (0x00060001, s)

/-- The RWP object that a record names, with its row. -/
def rwpRow? (k : Nat) : Option ObjRow :=
  match objRow? (paramObj k / 256) (paramObj k % 256) with
  | some r => if r.acc = .rwp then some r else none
  | none => none

/-- SEEDBANK_APPEND (R489): a record of kinds 1 to 4; one whose step 2 does not verify stays torn. An RWP object takes its value when
the record is committed. -/
def Chip.seedbankAppend (s : Chip) (kind key : Nat) (payload : List Byte) (verified : Bool) : Chip :=
  if kind = 0 ∨ payload.length = 0 ∨ 4096 < payload.length then s
  else if !verified then
    if s.sb.st = 2 ∨ s.sb.protect = 3 ∨ s.mode.current = .persist then s
    else match s.sbPlace kind key (s.sbNextSeq kind key) payload false with
      | some s => s.sbSpend (recSize payload.length)
      | none => s
  else if kind = 4 ∨ (kind = 2 ∧ 0x100 ≤ key ∧ key ≤ 0x1FF) then s.sbLog kind key payload
  else
    let (ok, s) := s.sbAppend kind key payload
    match kind, rwpRow? key with
    | 1, some r => if ok ∧ payload.length = r.size then s.setRwp (paramObj key) (natLE payload) else s
    | _, _ => s

/-- WEAR_ALLOWANCE_RESTORED (R495). -/
def Chip.wearRestored (s : Chip) : Chip :=
  ({ s with sb := { s.sb with allowance := max 0 s.sb.allowance } } : Chip).sbRelease

/-! ### Compaction and protection (R493, R494) -/

/-- Copy the live records of a sector to the open sector, with the same seq, and erase it. -/
def Chip.retireSector (s : Chip) (k : Nat) : Chip :=
  let live := s.sb.recs.filter (fun r => decide (r.sector = k) && s.sbIsLive r)
  let s := live.foldl (fun s r => (s.sbPlace r.kind r.key r.seq r.payload true).getD s) s
  let s := { s with sb := { s.sb with recs := s.sb.recs.filter (fun r => decide (r.sector ≠ k)) } }
  s.setSec k { erases := (s.sec k).erases + 1, gen := (s.sec k).gen, st := .erased, used := 0 }

/-- Live bytes of a sector. -/
def Chip.sectorLive (s : Chip) (k : Nat) : Nat :=
  (s.sb.recs.filter (fun r => decide (r.sector = k) && s.sbIsLive r)).foldl (fun a r => a + recSize r.payload.length) 0

/-- COMPACTION (R493, R532): with four or fewer sectors erased, the FULL sector with the fewest live bytes is copied and erased. -/
def Chip.compaction (s : Chip) : Chip :=
  if 4 < s.erasedSectors.length ∨ s.sb.protect = 3 ∨ s.sb.st = 2 ∨ s.mode.current = .update then s
  else
    let full := recordSectors.filter (fun k => decide ((s.sec k).st = .full))
    match full with
    | [] => s
    | e :: r =>
      let k := r.foldl (fun a b =>
        if s.sectorLive b < s.sectorLive a ∨ (s.sectorLive b = s.sectorLive a ∧ (s.sec b).gen < (s.sec a).gen) then b else a) e
      let s := s.retireSector k
      { s with sb := { s.sb with compactions := s.sb.compactions + 1 } }

/-- PROTECT_SET (R494): an abort code, or zero, and the state. -/
def Chip.protectSet (s : Chip) (v : Nat) : Nat × Chip :=
  if 3 < v then (0x00030001, s)
  else if v < s.sb.protect ∧ s.mode.current ≠ .configuring ∧ s.mode.current ≠ .update then (0x00040005, s)
  else
    let st := if s.sb.st = 1 ∧ v = 3 then 3 else if s.sb.st = 3 ∧ v < 3 then 1 else s.sb.st
    (0, ({ s with sb := { s.sb with protect := v, st := st } } : Chip).sbRelease)

/-! ### Recall (R490 to R492) -/

/-- The keys of one kind in the record area. -/
def Chip.sbKeys (s : Chip) (kind : Nat) : List Nat :=
  ((s.sb.recs.filter (fun r => decide (r.kind = kind))).map (·.key)).eraseDups

/-- The conflicts of the area (R491): one for each PARAM, DEVICE or BLOB key whose first copies differ, and one for each seq of a LOG
stream. -/
def Chip.sbConflicts (s : Chip) : List (Nat × Nat) :=
  [1, 2, 3].flatMap (fun k => ((s.sbKeys k).filter (s.sbConflict k)).map (fun key => (k, key)))
    ++ (((s.sb.recs.filter (fun r => r.valid && decide (r.kind = 4) && s.sbClash r)).map (fun r => (r.key, r.seq))).eraseDups).map
      (fun x => (4, x.1))

/-- Keys whose copies conflict take their default, which is appended after RECALL at the next seq; a DEVICE, BLOB or LOG key has none,
and its copies are not live (R491). -/
def Chip.settleConflicts (s : Chip) : Chip :=
  s.sbConflicts.foldl (fun s (k, key) =>
    let s := { s with sb := { s.sb with conflicts := s.sb.conflicts + 1 } }
    let s := s.raise 163
    match k, rwpRow? key with
    | 1, some r => (s.sbAppend 1 key (bytesLE r.size (objDefault (paramObj key)))).2
    | _, _ => s) s

/-- The values that the live PARAM records give the RWP objects. -/
def Chip.recalledValues (s : Chip) : Tab Nat :=
  (s.sbKeys 1).foldl (fun t k =>
    match rwpRow? k, s.sbLive 1 k with
    | some r, some x => if x.payload.length = r.size then Tab.set t (paramObj k) (natLE x.payload) else t
    | _, _ => t) []

/-- What sector `k` reads as, with bits that read otherwise than they were programmed. -/
def Chip.readSector (s : Chip) (k : Nat) (flips : List (Nat × Nat × Byte)) : List Byte :=
  flipBytes (sectorBytes (s.sec k) (s.sb.recs.filter (fun r => decide (r.sector = k))))
    ((flips.filter (fun f => decide (f.1 = k))).map (·.2))

/-- The scan of one sector (R486, R490): its records, the sector after RECALL, and whether it counts in seedbank.records_bad. A sector
whose magic or crc fails and that is not wholly 0xFF is erased; a malformed header leaves its sector FULL. -/
def Chip.scanSector (s : Chip) (flips : List (Nat × Nat × Byte)) (k : Nat) : List SbRec × Sector × Bool :=
  let x := s.sec k
  let b := s.readSector k flips
  if b.all (fun y => decide (y = 0xFF)) then ([], { x with st := .erased, used := 0 }, false)
  else if !sectorHeadOk b then ([], { gen := x.gen, erases := x.erases + 1 }, true)
  else
    let (recs, cut) := walkSector k b
    (recs, if cut then { x with st := .full } else x, false)

/-- The scan of the record area (R490): every sector's records, and the bad sectors counted. -/
def Chip.scanSectors (s : Chip) (flips : List (Nat × Nat × Byte)) : Chip :=
  let found := recordSectors.map (fun k => (k, s.scanSector flips k))
  { s with sb := { s.sb with
    recs := found.flatMap (·.2.1)
    sectors := found.foldl (fun t x => Tab.put {} t x.1 x.2.2.1) s.sb.sectors
    bad := s.sb.bad + countIf (·.2.2.2) found } }

/-- The number that a DEVICE record holds. -/
def Chip.deviceItem (s : Chip) (k : Nat) : Option Nat := (s.sbLive 2 k).map (fun r => natLE r.payload)

/-- The recall scan (R490 to R492): damaged copies are counted, RWP objects take their values, the power-up is counted before any
other append, a retiring sector is finished, and conflicting keys take their default. -/
def Chip.recallScan (s : Chip) (ms : Nat) (dieOk : Bool) (flips : List (Nat × Nat × Byte)) : Chip :=
  if !dieOk then
    ({ s with sb := { s.sb with st := 2, scanMs := ms }, rwp := [] } : Chip).raise 164
  else
    let s := s.scanSectors flips
    let torn := countIf (fun r => !r.commit) s.sb.recs
    let nbad := countIf (fun r => r.commit && !r.intact) s.sb.recs
    let s := { s with sb := { s.sb with
      scanMs := ms, torn := s.sb.torn + torn, bad := s.sb.bad + nbad, st := if s.sb.protect = 3 then 3 else 1 } }
    let s := if 0 < nbad then s.raise 162 else s
    let n := wrap32 ((s.deviceItem 2).getD 0 + 1)
    let s := (s.sbAppend 2 2 (bytesLE 4 n)).2
    let s := { s with sb := { s.sb with powerups := n } }
    let s := (recordSectors.filter (fun k => decide ((s.sec k).st = SecState.retiring))).foldl (fun (s : Chip) k => s.retireSector k) s
    let s := s.settleConflicts
    { s with rwp := s.recalledValues }

/-- The RWP objects, in ascending order of range and row. -/
def rwpKeys : List Nat :=
  (List.range 23).flatMap (fun g => (objRowsOf (0x1000 + 0x800 * g)).flatMap (fun r =>
    if r.acc = .rwp then (List.range r.count).flatMap (fun i => (List.range r.subs).map (fun j => objKey (r.base + i) (r.sub + j)))
    else []))

/-- One object's default record (R481): appended for an object of the dictionary, and whether every append so far went in. -/
def Chip.restoreOne (acc : Bool × Chip) (key : Nat) : Bool × Chip :=
  match objRow? (key / 256) (key % 256) with
  | some r =>
    let put := acc.2.sbAppend 1 (paramKey key) (bytesLE r.size (objDefault key))
    (acc.1 && put.1, put.2)
  | none => acc

/-- The default records of these objects, in their order. -/
def Chip.restoreAll (s : Chip) (keys : List Nat) : Bool × Chip := keys.foldl Chip.restoreOne (true, s)

/-- The answer to a restore: abort code 0x00060001 where an append found no space. -/
def Chip.restoreAnswer (r : Bool × Chip) : Nat × Chip := (if r.1 then 0 else 0x00060001, r.2)

/-- dict.restore_defaults (R481): a default record for every RWP object; the values apply at the next power-up. -/
def Chip.restoreDefaults (s : Chip) : Nat × Chip := Chip.restoreAnswer (s.restoreAll rwpKeys)

/-! ### Firmware images (R484, R485) -/

/-- The image that is not running. -/
def Chip.otherImage (s : Chip) : Image := if s.sb.boot = 0 then s.sb.imgB else s.sb.imgA

/-- Replace the image that is not running. -/
def Chip.setOther (s : Chip) (x : Image) : Chip :=
  if s.sb.boot = 0 then { s with sb := { s.sb with imgB := x } } else { s with sb := { s.sb with imgA := x } }

/-- The image that is not running stands in a protected area (R494). -/
def Chip.otherProtected (s : Chip) : Bool := if s.sb.boot = 0 then decide (2 ≤ s.sb.protect) else decide (1 ≤ s.sb.protect)

/-- The running image. -/
def Chip.runningImage (s : Chip) : Image := if s.sb.boot = 0 then s.sb.imgA else s.sb.imgB

/-- Transfer FW (R485). -/
def Chip.transferImage (s : Chip) (seq length : Nat) (version : BitVec 256) (sigOk : Bool) : MboxRc × Chip :=
  if s.otherProtected ∨ s.sb.st = 2 then (.invalidSlot, s)
  else
    let ok := sigOk && decide (1 ≤ length ∧ length ≤ 2097088)
    (.success, s.setOther ⟨if ok then .loaded else .rejected, seq, length, version, ok⟩)

/-- Activate FW on a LOADED image (R485). -/
def Chip.activateImage (s : Chip) : MboxRc × Chip :=
  let x := s.otherImage
  if x.st ≠ .loaded ∨ s.otherProtected then (.invalidSlot, s)
  else (.success, s.setOther { x with st := .activated, seq := wrap32 (s.runningImage.seq + 1) })

/-- The image to boot (R485): of the ACTIVATED images whose signature verifies, the higher seq; none: neither verifies. -/
def Chip.bootChoice (s : Chip) (aOk bOk : Bool) : Option Nat :=
  let a := decide (s.sb.imgA.st = .activated) && aOk
  let b := decide (s.sb.imgB.st = .activated) && bOk
  if a && b then some (if s.sb.imgB.seq ≤ s.sb.imgA.seq then 0 else 1)
  else if a then some 0 else if b then some 1 else none

end Sys2Proof.Machine
end

