-- ==== Sys2Proof/Machine/Casks.lean ====
section
/-!
DEFINITION. Machine/Casks.lean: cask commands (R98 to R102), PASID bindings (R94), the dirty-page log's enable (R107), access
table writes (R114, R116), page discards (R93) and record repairs (R88). A command answers an abort code, zero for success.
-/
namespace Sys2Proof.Machine

/-! ### Page storage -/

/-- The content of a page is gone (R89, R93): memory, markers, cached lines, absorbed lines, stored MACs and grist. -/
def Chip.wipePage (s : Chip) (p : Nat) : Chip :=
  let line := fun (k : Nat) => !decide (k / 64 = p)
  let s := s.dropLines (64 * p) 64
  { s with
    mem := s.mem.filter (fun e => !decide (e.1 / 4096 = p))
    poison := s.poison.filter (fun e => line e.1)
    macs := s.macs.filter (fun e => line e.1)
    mill := { s.mill with pages := Tab.del s.mill.pages p }
    kiln := { s.kiln with
      absorbed := Tab.del s.kiln.absorbed p
      media := s.kiln.media.filter (fun e => line e.1)
      mediaPoison := s.kiln.mediaPoison.filter (fun e => line e.1)
      progs := s.kiln.progs.filter (fun e => decide (e.2.page ≠ p)), rewrites := s.kiln.rewrites.filter (fun q => decide (q ≠ p))
      rescue := s.kiln.rescue.filter line } }

/-- A discard waits. -/
def Chip.deferDiscard (s : Chip) (p m : Nat) : Chip := { s with map := { s.map with discards := s.map.discards ++ [(p, m)] } }

/-- A page returns to UNWRITTEN and its storage is freed (R93); logged for cask `c` under master `m`. It waits for the log (R104), and for
room in the journal (R165). -/
def Chip.discardNow (s : Chip) (c p m : Nat) : Chip :=
  let room := s.journalRoom 1
  let t := if (s.page p).st = .unwritten then s else (s.commitPage p {}).wipePage p
  (if (s.page p).st ≠ .unwritten ∧ !room then none else t.logPage c p m).getD ((s.logFetch c p).deferDiscard p m)

/-- A discard of the page waits: it migrates (R93), is being expanded (R193), or a record of it is under repair (R88). -/
def Chip.busyPage (s : Chip) (p : Nat) : Bool :=
  decide ((s.page p).st = .migrating) || (Tab.find s.mill.expanding p).isSome || s.underRepair p

/-- A discard past its checks: the page's records are used (R83, R88), and it is carried out or waits. -/
def Chip.startDiscard (s : Chip) (c p m : Nat) : Chip :=
  let s := (s.useOwn p).2
  if s.busyPage p then s.deferDiscard p m else s.discardNow c p m

/-- map.discard_page (R93): the range first, then admin right on the owning cask; a page in MIGRATING waits for its swing. -/
def Chip.discardPage (s : Chip) (m dla : Nat) : Nat × Chip :=
  if dla % 4096 ≠ 0 then (Abort.outOfRange, s)
  else match s.extentOf dla with
    | none => (Abort.outOfRange, s)
    | some e =>
      if e.st ≠ .accepted then (Abort.outOfRange, s)
      else if !s.may e.cask m 3 then (0, s.deny e.cask m)
      else (0, s.startDiscard e.cask (pageNo dla) m)

/-- DEFERRED_DISCARD (R93): a discard that waited for a swing is carried out once the page is not in MIGRATING. -/
def Chip.deferredDiscard (s : Chip) (p : Nat) : Chip :=
  match s.map.discards.find? (fun d => decide (d.1 = p)) with
  | none => s
  | some (_, m) =>
    if s.busyPage p then s
    else
      let s := { s with map := { s.map with discards := s.map.discards.filter (fun d => decide (d.1 ≠ p)) } }
      match s.extentOf (4096 * p) with
      | some e => s.discardNow e.cask p m
      | none => s

/-- The repair of record `k` ends (R88): both mirrors are repaired from the map zone, or all three copies have failed. -/
def Chip.recordRepair (s : Chip) (k p : Nat) (found : Bool) : Chip :=
  let s := { s with map := { s.map with repairing := s.map.repairing.filter (fun q => decide (q ≠ k)) } }
  if found then s.recRepaired k (4096 * p) 2
  else
    let s := (({ s with map := { s.map with
      recordsLost := wrap32 (s.map.recordsLost + 1), badRecs := Tab.del s.map.badRecs k } } : Chip)).raise 49 0xFF (4096 * p)
    if k = p then s.poisonPage p else s.poisonBlock (p / 512)

/-- MAP_RECORD_REPAIR (R88): the page's record, or else its block's directory entry. -/
def Chip.mapRecordRepair (s : Chip) (p : Nat) (found : Bool) : Chip :=
  if s.map.repairing.contains p then s.recordRepair p p found
  else if s.map.repairing.contains (dirRecNo (p / 512)) then s.recordRepair (dirRecNo (p / 512)) p found
  else s

/-! ### Cask commands (R99 to R102) -/

/-- The cask takes a state. -/
def Chip.setCaskState (s : Chip) (c : Nat) (x : CaskState) : Chip := s.setCask c { s.cask c with state := x }

/-- The Hopper channels bound to a cask (R95). -/
def Chip.caskChans (s : Chip) (c : Nat) : List Nat :=
  (List.range 64).filter (fun ch => decide (s.chanBind ch = .pasid (some c)))

/-- The access, accepted at `tc`, changes memory for the cask, and came before the cut point of its QUIESCE (R95, R100). -/
def Chip.storesFor (s : Chip) (c : Nat) (a : Access) (tc : Nat) : Bool :=
  decide (a.kind ≠ .read ∧ s.boundCask a = some c ∧ tc ≤ (s.cask c).cut)

/-- A line fold is bound as an access of its master is (R95). -/
def FoldReq.asAccess (q : FoldReq) : Access := ⟨q.master, q.bind, .fold, q.dla, q.mask, q.data, q.poison, true, q.op, q.ret⟩

/-- Every write, fold and append that the device accepted for the cask before the cut point is visible and logged (R100). -/
def Chip.caskVisible (s : Chip) (c : Nat) : Bool :=
  s.waits.all (fun w => !s.storesFor c w.acc w.tc)
    && s.fold.open.all (fun q => !s.storesFor c q.asAccess q.tc)
    && (s.coh.queue ++ s.coh.devQueue).all (fun q => !s.storesFor c q.acc q.tc)
    && s.coh.txns.all (fun t => !s.storesFor c t.req.acc t.req.tc)
    && s.fold.appends.all (fun a => decide (s.slotOf a.2.2.pasid.toNat ≠ some c))

/-- CREATE (R99, R115): the cask's table holds its reset values. -/
def Chip.caskCreate (s : Chip) (c : Nat) : Nat × Chip :=
  if (s.cask c).state ≠ .free then (Abort.caskState, s)
  else
    let s := { s with rw := Tab.del s.rw (objAt Obj.caskAccess c), accBad := s.accBad.filter (fun e => decide (e.1 ≠ c)) }
    (0, s.setCaskState c .active)

/-- QUIESCE (R100): its cut point is now. -/
def Chip.caskQuiesce (s : Chip) (c : Nat) : Nat × Chip :=
  if (s.cask c).state = .active then (0, s.setCask c { s.cask c with state := .quiescing, cut := s.tb.tc, cutFold := s.fold.nextId }) else (Abort.caskState, s)

/-- CASK_QUIESCED (R100): all that was accepted is visible, and every bound channel has stopped. -/
def Chip.caskQuiesced (s : Chip) (c : Nat) : Chip :=
  if (s.cask c).state = .quiescing ∧ s.caskVisible c ∧ (s.caskChans c).all (fun ch => decide ((s.hchan ch).inflight = 0)) then
    s.setCaskState c .quiesced
  else s

/-- CASK_QUIESCE_TIMEOUT (R100): it stays QUIESCING. -/
def Chip.caskQuiesceTimeout (s : Chip) (c : Nat) : Chip := if (s.cask c).state = .quiescing then s.raise 54 else s

/-- RESUME (R99). -/
def Chip.caskResume (s : Chip) (c : Nat) : Nat × Chip :=
  if (s.cask c).state = .quiesced then (0, s.setCaskState c .active) else (Abort.caskState, s)

/-- ABORT_QUIESCE (R99). -/
def Chip.caskAbortQuiesce (s : Chip) (c : Nat) : Nat × Chip :=
  if (s.cask c).state = .quiescing then (0, s.setCaskState c .active) else (Abort.caskState, s)

/-- RESET of one queue of the cask: a CAPTURE queue is emptied and written back (R447); every state leaves the cache without
being written back (R101). -/
def Chip.resetQueue (s : Chip) (q : Nat) : Chip :=
  match s.doorbellQueue q with
  | none => s
  | some x =>
    let s := if x.kind = 4 then
        s.logWrite (s.entryDla q) (bytesLE 64 ({ x with cons := x.prod, accepted := x.prod } : QState).entry) else s
    match s.queue q with
    | some y => s.setQueue q { y with
        cached := false, dirty := false, cons := if x.kind = 4 then x.prod else y.cons, prod := if x.kind = 4 then x.prod else y.prod
        accepted := if x.kind = 4 then x.prod else y.accepted }
    | none => s

/-- RESET (R101, R410, R447). -/
def Chip.caskReset (s : Chip) (c : Nat) : Nat × Chip :=
  if (s.cask c).state ≠ .quiesced then (Abort.caskState, s)
  else
    let s := (s.caskChans c).foldl (fun s ch =>
      let s := s.emptyContext ch
      let x := s.hchan ch
      if x.st = .off then s else s.setHchan ch { x with st := .idle }) s
    let mine := (s.hop.queues.filter (fun e => e.2.pv && decide (s.slotOf e.2.pasid = some c))).map (·.1)
    let s := mine.foldl (fun s q => s.resetQueue q) s
    let s := s.setRw (objAt Obj.caskLogEnable c) 0
    (0, s.setCask c { s.cask c with state := .resetting, producer := 0 })

/-- CASK_RESET_COMPLETE (R101). -/
def Chip.caskResetComplete (s : Chip) (c : Nat) : Chip :=
  if (s.cask c).state = .resetting then s.setCaskState c .quiesced else s

/-- The blob store's and Seedbank's copies of a cask's blob are destroyed (R222). -/
def Chip.destroyBlobs (s : Chip) (c : Nat) : Chip :=
  let s := s.setCask c { s.cask c with blob := none }
  { s with sb := { s.sb with recs := s.sb.recs.filter (fun r => !decide (r.kind = 3 ∧ r.key = c)) } }

/-- REMOVE (R99, R102): every object of the slot returns to its default, the access table to no rights. -/
def Chip.caskRemove (s : Chip) (c : Nat) : Nat × Chip :=
  if (s.cask c).state ≠ .quiesced then (Abort.caskState, s)
  else if s.map.extents.any (fun e => decide (e.cask = c)) then (Abort.resourceOwned, s)
  else
    let s := (s.destroyBlobs c).setCask c {}
    (0, { s with rw := s.rw.filter (fun e => !decide (e.1 / 256 = 0x9000 + c)), accBad := s.accBad.filter (fun e => decide (e.1 ≠ c)) })

/-- LOG_CLEAR_OVERFLOW (R99). -/
def Chip.caskLogClear (s : Chip) (c : Nat) : Nat × Chip :=
  if (s.cask c).state = .free then (Abort.caskState, s)
  else (0, s.setCask c { s.cask c with status := setBit (s.cask c).status 0 false })

/-- A write to cask.command (R99). -/
def Chip.caskCommand (s : Chip) (c v : Nat) : Nat × Chip :=
  match v with
  | 1 => s.caskCreate c
  | 2 => s.caskQuiesce c
  | 3 => s.caskResume c
  | 4 => s.caskReset c
  | 5 => s.caskRemove c
  | 6 => s.caskAbortQuiesce c
  | 7 => s.caskLogClear c
  | _ => (Abort.outOfRange, s)

/-! ### cask.pasid and cask.log_enable (R94, R107) -/

/-- A write to cask.pasid (R94); where a PASID bound elsewhere meets a wrong state, the state answers (DESIGN CHOICE, log entry 144). -/
def Chip.setPasid (s : Chip) (c v : Nat) : Nat × Chip :=
  if bitsOf v 20 11 ≠ 0 then (Abort.outOfRange, s)
  else if (s.cask c).state = .active ∨ (s.cask c).state = .quiescing ∨ (s.cask c).state = .resetting then (Abort.caskState, s)
  else if bitOf v 31 && (match s.slotOf (v % 2 ^ 20) with | some k => decide (k ≠ c) | none => false) then (Abort.resourceOwned, s)
  else (0, s.setRw (objAt Obj.caskPasid c) v)

/-- A write to cask.log_enable (R107); enabling leaves bit [1] of the status as it is (DESIGN CHOICE, log entry 146). -/
def Chip.setLogEnable (s : Chip) (c v : Nat) : Nat × Chip :=
  if 1 < v then (Abort.outOfRange, s)
  else if v = 1 ∧ (s.cfgAt Obj.caskLogBitmapDla c % 64 ≠ 0 ∨ s.cfgAt Obj.caskLogRingDla c % 4096 ≠ 0) then (Abort.outOfRange, s)
  else (0, s.setRw (objAt Obj.caskLogEnable c) v)

/-! ### Access tables (R110, R114, R116) -/

/-- The target IDs of R109. -/
def isTarget (t : Nat) : Bool := decide (t < 0x400 ∨ (0x400 ≤ t ∧ t ≤ 0x416) ∨ (0x500 ≤ t ∧ t ≤ 0x504))

/-- The master IDs of R108. -/
def isMaster (m : Nat) : Bool :=
  decide (m < 4 ∨ (0x10 ≤ m ∧ m < 0x18) ∨ (0x20 ≤ m ∧ m ≤ 0x63) ∨ m = 0x70 ∨ m = 0x7F)

/-- The table of a target takes a value: a cask's is volatile, another's is committed (R115). A damaged value is rewritten (R114). -/
def Chip.storeTable (s : Chip) (t v : Nat) : Nat × Chip :=
  let clear := fun (s : Chip) => { s with accBad := s.accBad.filter (fun e => decide (e.1 ≠ t)) }
  if t < 0x400 then (0, clear (s.setRw (tableKey t) v))
  else
    let (a, s') := s.commitRwp (tableKey t) 128 v
    if a = 0 then (0, clear s') else (a, s)

/-- A write of a whole access table: the engines' nibbles carry 0xF (R116). -/
def Chip.setTable (s : Chip) (t v : Nat) : Nat × Chip :=
  if bitsOf v (4 * 0x60) 16 ≠ 0xFFFF then (Abort.outOfRange, s) else s.storeTable t v

/-- A write to access.edit by master `w` (R116): the value's range, then admin right on the target that it names. -/
def Chip.accessEdit (s : Chip) (w v : Nat) : Nat × Chip :=
  let t := bitsOf v 0 16
  let m := bitsOf v 16 8
  let r := bitsOf v 24 4
  if bitsOf v 28 4 ≠ 0 ∨ !isTarget t ∨ !isMaster m ∨ (isEngine m ∧ r ≠ 15) then (Abort.outOfRange, s)
  else if !s.may t w 3 then (0, s.deny t w)
  else s.storeTable t (setField (s.cfg (tableKey t)) (4 * m) 4 r)

end Sys2Proof.Machine
end

