-- ==== Sys2Proof/Machine/LinkPackets.lean ====
section
/-!
DEFINITION. Machine/LinkPackets.lean: what the leader does with the packets of an endpoint: RD and WR (R370 to R372), FOLD (R433), FENCE (R373),
APPEND (R442 to R446), WRC (R421), EVT (R393) and TBE (R394).
-/
namespace Sys2Proof.Machine

/-- The packet can be carried out: its link is ACTIVE, or it stands in the receive buffer (R371, R390). -/
def Chip.hasPacket (s : Chip) (l : Nat) (p : Packet) : Bool :=
  s.serving && (decide ((s.link l).st = .active) || (s.link l).rx.contains p)

/-- The packet is of this kind and keeps its limits (R371). -/
def Chip.goodPacket (s : Chip) (l kind : Nat) (p : Packet) : Bool :=
  decide (p.kind.toNat = kind) && ((s.link l).rx.contains p || packetOk (s.link l).vcs (s.cohVc l) p)

/-- How a packet's accesses are bound (R95). -/
def Chip.packetBind (s : Chip) (p : Packet) : Binding := .pasid (s.slotOf p.pasid.toNat)

/-- A packet's request as a counter filter sees it (R555). -/
def Chip.packetAsk (s : Chip) (l : Nat) (p : Packet) (cls : Nat) : Ask :=
  ⟨s.slotOf p.pasid.toNat, 0x10 + l, cls, some (pktDla p)⟩

/-- A packet that breaks its limits is discarded as a protocol error (R371). -/
def Chip.badPacket (s : Chip) (l : Nat) (p : Packet) : Chip := (s.takeRx l p).linkError l true false

/-- A new request of a link. -/
def Chip.newReq (s : Chip) (l : Nat) (r : LinkReq) : Chip :=
  let k := s.link l
  s.setLink l { k with reqs := k.reqs ++ [r], nextReq := k.nextReq + 1 }

/-- RD (R370, R372): one access per line, and RDC when all are done. -/
def Chip.linkRd (s : Chip) (l : Nat) (p : Packet) (o : Obs) : Chip :=
  if !s.hasPacket l p then s
  else if !s.goodPacket l 1 p then s.badPacket l p
  else
    let q := s.packetAsk l p 0
    let s := (s.takeRx l p).countAsk (256 + 64 * l) q
    let s := if s.inBurst then s.countAsk (256 + 64 * l + 12) q else s
    let a := pktDla p
    let len := p.lenM1.toNat + 1
    let id := (s.link l).nextReq
    let ls := lineAddrs a len
    let s := s.newReq l { id := id, vc := p.vc.toNat, tag := p.tag.toNat, read := true, cmp := false, addr := a, len := len, left := ls.length }
    let o := s.noteRead (0x10 + l) a o
    ls.foldl (fun s x => s.request ⟨0x10 + l, s.packetBind p, .read, x, 0, 0, false, true, 0, .link l id⟩ o) s

/-- WR (R370, R372): one access per line, and WRC when all are visible, if asked for. -/
def Chip.linkWr (s : Chip) (l : Nat) (p : Packet) (o : Obs) : Chip :=
  if !s.hasPacket l p then s
  else if !s.goodPacket l 3 p then s.badPacket l p
  else
    let s := (s.takeRx l p).countAsk (256 + 64 * l + 1) (s.packetAsk l p 1)
    let a := pktDla p
    let len := p.lenM1.toNat + 1
    let id := (s.link l).nextReq
    let parts := lineParts a (p.data.take len)
    let s := s.newReq l { id := id, vc := p.vc.toNat, tag := p.tag.toNat, read := false, cmp := p.cmpreq, addr := a, len := len
                          left := parts.length }
    let s := parts.foldl (fun s x =>
      s.request ⟨0x10 + l, s.packetBind p, .write, x.addr, x.mask, x.data, p.poison, true, 0, .link l id⟩ o) s
    if parts = [] then s.finishReq l id else s

/-- FOLD (R433): posted; one line fold per line it touches. -/
def Chip.linkFold (s : Chip) (l : Nat) (p : Packet) : Chip :=
  if !s.hasPacket l p then s
  else if !s.goodPacket l 6 p then s.badPacket l p
  else
    let s := (s.takeRx l p).countAsk (256 + 64 * l + 4) (s.packetAsk l p 2)
    (lineParts (pktDla p) (p.data.take (p.lenM1.toNat + 1))).foldl (fun s x =>
      s.queueFold (0x10 + l) (s.packetBind p) x.addr p.op.toNat x.mask x.data p.poison .none p.vc.toNat) s

/-- FENCE (R373): answered once every WR, FOLD and APPEND delivered before it is visible. -/
def Chip.linkFence (s : Chip) (l : Nat) (p : Packet) : Chip :=
  if !s.hasPacket l p then s
  else if !s.goodPacket l 7 p then s.badPacket l p
  else
    let s := s.takeRx l p
    let k := s.link l
    let f : LinkFence := ⟨p.vc.toNat, p.tag.toNat, k.nextReq, s.fold.nextId⟩
    (s.setLink l { k with fences := k.fences ++ [f] }).answerFences l

/-- WRC (R421, R422): the answer to a leader's WR. -/
def Chip.linkWrc (s : Chip) (l : Nat) (p : Packet) : Chip :=
  if !s.hasPacket l p then s
  else if !s.goodPacket l 4 p then s.badPacket l p
  else
    let s := s.takeRx l p
    let k := s.link l
    match k.wrTags.find? (fun t => decide (t.1 = p.tag.toNat)) with
    | some t =>
      let s := s.setLink l { k with wrTags := k.wrTags.erase t }
      let s := s.modBurst t.2.1 t.2.2 (fun b => { b with left := b.left - 1 })
      if p.op = 0 then s else s.burstFail t.2.1 t.2.2 0x31
    | none => s

/-- EVT from the endpoint (R393, R426). -/
def Chip.linkEvt (s : Chip) (l : Nat) (p : Packet) : Chip :=
  if !s.hasPacket l p then s
  else if !s.goodPacket l 10 p then s.badPacket l p
  else
    let s := (s.takeRx l p).countLink l 7 1
    if s.cfgAt Obj.hopperEventLineInput p.op.toNat = 0x20 + l then s.pulse p.op.toNat
    else { s with hop := { s.hop with rejected := s.hop.rejected + 1 } }

/-- The code of the timebase state (R14). -/
def Timebase.code (t : Timebase) : Nat :=
  match t.state with
  | .unlocked => 0 | .locked => 1 | .holdover => 2 | .expired => 3

/-- TBE (R394): the echo goes back with the TCs of arrival and departure. -/
def Chip.linkTbe (s : Chip) (l : Nat) (p : Packet) : Chip :=
  if !s.hasPacket l p then s
  else if !s.goodPacket l 11 p then s.badPacket l p
  else
    let s := s.takeRx l p
    let d := bytesLE 8 (natLE (p.data.take 8)) ++ bytesLE 8 s.tcRec ++ bytesLE 8 s.tcRec ++ bytesLE 2 s.tb.epoch
      ++ bytesLE 1 s.tb.code ++ bytesLE 5 0
    s.queuePacket l (mkPacket 0x0B p.vc.toNat 1 p.tag.toNat 0 0 d 3)

/-! ### Capture appends (R442 to R446) -/

/-- Records of an APPEND packet. -/
def appendRecords (p : Packet) : Nat := (p.lenM1.toNat + 1) / 16

/-- The records of an APPEND are dropped on a full queue (R446). -/
def Chip.appendDrop (s : Chip) (l : Nat) (p : Packet) : Chip :=
  let n := appendRecords p
  let s := { s with fold := { s.fold with
    recDropped := s.fold.recDropped + n, linkDropped := Tab.upd 0 s.fold.linkDropped l (· + n) } }
  (s.raise 151 (0x10 + l) 0 (.link l)).answerFences l

/-- The queue has room for the records (R444 check 5). -/
def QState.hasRoom (x : QState) (p : Packet) : Bool := decide (diff64 x.accepted x.cons + 16 * appendRecords p ≤ x.ring)

/-- An accepted APPEND takes the next ring space and writes its records (R445). -/
def Chip.appendStore (s : Chip) (l id : Nat) (p : Packet) (o : Obs) : Chip :=
  let q := bitsOf p.addr.toNat 0 20
  match s.queue q with
  | none => s
  | some x =>
    let n := appendRecords p
    let s := s.setQueue q { x with accepted := (x.accepted + 16 * n) % 2 ^ 64, dirty := true }
    let s := { s with fold := { s.fold with records := s.fold.records + n } }
    let s := (List.range n).foldl (fun s i =>
      let pos := (x.accepted + 16 * i) % 2 ^ 64
      (lineParts (x.base + pos % x.ring) ((p.data.drop (16 * i)).take 16)).foldl (fun s y =>
        s.request ⟨0x10 + l, s.packetBind p, .append, y.addr, y.mask, y.data, p.poison, true, 0, .append q pos l id⟩ o) s) s
    s.answerFences l

/-- An APPEND against its checks, in the order of R444. -/
def Chip.appendCheck (s : Chip) (l id : Nat) (p : Packet) (o : Obs) (first : Bool) : Chip :=
  let n := appendRecords p
  let q := bitsOf p.addr.toNat 0 20
  match s.slotOf p.pasid.toNat with
  | none => (s.violation (0x10 + l)).answerFences l
  | some c =>
    if (s.cask c).state ≠ .active then (s.violation (0x10 + l)).answerFences l
    else
      let (ok, s) := s.bringIn q first
      if !ok then { s with hop := { s.hop with waiting := s.hop.waiting ++ [.append l id p o] } }
      else
        let reject := ({ s with fold := { s.fold with recRejected := s.fold.recRejected + n } } : Chip).raise 150 (0x10 + l) 0 (.link l)
        match s.queue q with
        | none => reject.answerFences l
        | some x =>
          if x.fault ∨ x.kind ≠ 4 then reject.answerFences l
          else if !x.pv ∨ x.pasid ≠ p.pasid.toNat then (s.violation (0x10 + l)).answerFences l
          else if !s.may c (0x10 + l) 1 then (s.deny c (0x10 + l)).answerFences l
          else if s.fold.appends.any (fun a => decide (a.1 = l ∧ a.2.2.vc = p.vc)) ∨ !x.hasRoom p then
            if s.cfgAt Obj.captureLinkFullPolicy l = 1 then
              { s with fold := { s.fold with appends := s.fold.appends ++ [(l, id, p)] } }
            else s.appendDrop l p
          else s.appendStore l id p o

/-- APPEND (R444): where it waits, its packet keeps its place in the receive buffer, and its credit is withheld. -/
def Chip.linkAppend (s : Chip) (l : Nat) (p : Packet) (o : Obs) : Chip :=
  if !s.hasPacket l p then s
  else if !s.goodPacket l 5 p then s.badPacket l p
  else
    let s := (s.takeRx l p).countAsk (256 + 64 * l + 3) (s.packetAsk l p 3) (appendRecords p)
    let id := (s.link l).nextReq
    let s := s.setLink l { s.link l with nextReq := id + 1 }
    s.appendCheck l id p o true

/-- Take the oldest waiting APPEND of a link. -/
def Chip.takeAppend (s : Chip) (l : Nat) : Option ((Nat × Packet) × Chip) :=
  match s.fold.appends.find? (fun a => decide (a.1 = l)) with
  | some a => some (a.2, { s with fold := { s.fold with appends := s.fold.appends.erase a } })
  | none => none

/-- APPEND_WAIT_EXPIRY (R446): the oldest waiting APPEND of the link is dropped. -/
def Chip.appendExpiry (s : Chip) (l : Nat) : Chip :=
  match s.takeAppend l with
  | some ((_, p), s) => s.appendDrop l p
  | none => s

/-- APPEND_ROOM (R446): the oldest waiting APPEND of the link goes on when its queue has room. -/
def Chip.appendRoom (s : Chip) (l : Nat) (o : Obs) : Chip :=
  match s.takeAppend l with
  | some ((id, p), t) =>
    match s.queue (bitsOf p.addr.toNat 0 20) with
    | some x => if x.hasRoom p then t.appendStore l id p o else s
    | none => s
  | none => s

/-! ### Waiting for a queue state (R403) -/

/-- STATE_WAIT_RELEASE (R403): the state of queue `q` is idle, and what waits for a slot goes on in arrival order. -/
def Chip.stateRelease (s : Chip) (q : Nat) : Chip :=
  match s.queue q with
  | some x =>
    if x.cached && !s.queueActive q then
      let go := s.hop.waiting
      let s := { s with hop := { s.hop with waiting := [] } }
      go.foldl (fun s w => match w with
        | .doorbell m b q off d ret => s.doorbellPut m b q off d ret false
        | .append l id p o => s.appendCheck l id p o false) s
    else s
  | none => s

/-- A whole packet of the receive buffer is carried out as a link goes down (R390 step 2): writes, folds and appends. -/
def Chip.runPacket (s : Chip) (l : Nat) (p : Packet) : Chip :=
  match p.kind.toNat with
  | 0x03 => s.linkWr l p {}
  | 0x05 => s.linkAppend l p {}
  | 0x06 => s.linkFold l p
  | 0x0A => s.linkEvt l p
  | 0x04 => s.linkWrc l p
  | _ => s

end Sys2Proof.Machine
end

