-- ==== Sys2Proof/Machine/Heads.lean ====
section
/-!
DEFINITION. Machine/Heads.lean: CXL heads (R50 to R64, R73 to R80): training, loss and failover, CXL.mem requests and HDM decoders.
-/
namespace Sys2Proof.Machine

/-! ### Presence and training (R50 to R52) -/

/-- The power domain of a head's port (R533). -/
def headDomain (h : Nat) : Nat := if h < 2 then 3 else 4

/-- The head is present under the bifurcation in force (R50). -/
def Chip.headPresent (s : Chip) (h : Nat) : Bool := h % 2 = 0 || bitOf s.bifur (h / 2)

/-- The widest link of a head (R50). -/
def Chip.headLanes (s : Chip) (h : Nat) : Nat := if bitOf s.bifur (h / 2) then 8 else 16

/-- Back to what a head trains from: the link's own registers are clear. -/
def Head.linkClear (x : Head) (st : HeadState) : Head := { x with state := st, width := 0, rate := 0, flit := 0, detect := false }

/-! ### Loss and failover (R76 to R78) -/

/-- The request was made by head `h`. -/
def Ret.isHead (r : Ret) (h : Nat) : Bool := match r with | .head h' _ _ => decide (h' = h) | _ => false

/-- The tag of a head's request. -/
def Ret.tag (r : Ret) : Nat := match r with | .head _ t _ => t | _ => 0

/-- A write of the lost head goes on without a completion. -/
def Access.orphan (a : Access) (h : Nat) : Access := if a.ret.isHead h then { a with ret := .none } else a

/-- The outstanding accesses of a head: those that wait, those at the home, and its line folds. -/
def Chip.headAccesses (s : Chip) (h : Nat) : List Access :=
  ((s.waits.map (·.acc)) ++ s.coh.queue.map (·.acc) ++ (s.coh.txns.filter (fun t => !t.replied)).map (·.req.acc)).filter
    (fun a => a.ret.isHead h)

/-- A read of the lost head is discarded, answered or not, and a write that did not come whole; the others go on (R77 steps 1 and 2). -/
def Chip.dropOutstanding (s : Chip) (h : Nat) : Chip :=
  let acc := s.headAccesses h
  let folds := s.fold.open.filter (fun q => q.ret.isHead h)
  let reads := countIf (fun a : Access => decide (a.kind = .read)) acc + countIf (fun f : FoldFence => decide (f.h = h) && f.read) s.fold.fences
  let writes := (acc.filter (fun a => decide (a.kind ≠ .read))).map (fun a => (a.ret.tag, a.whole)) ++ folds.map (fun q => (q.ret.tag, true))
  let gone := fun (a : Access) => a.ret.isHead h && (decide (a.kind = .read) || !a.whole)
  let orphanReq := fun (q : CohReq) => ({ q with acc := q.acc.orphan h } : CohReq)
  let free := fun (q : FoldReq) => (if q.ret.isHead h then { q with ret := .none } else q : FoldReq)
  let x := s.head h
  let reads := reads + countIf (fun m : HeadMsg => match m with | .data _ _ _ _ => true | _ => false) x.owed
  let writes := writes ++ x.owed.filterMap (fun m => match m with | .cmp tag => some (tag, true) | _ => none)
  let s := { s with
    waits := (s.waits.filter (fun w : Wait => !gone w.acc)).map (fun w : Wait => { w with acc := w.acc.orphan h })
    coh := { s.coh with
      queue := (s.coh.queue.filter (fun q : CohReq => !gone q.acc)).map orphanReq
      txns := s.coh.txns.map (fun t : CohTxn =>
        if gone t.req.acc then { t with req := { orphanReq t.req with agent := none, kind := .cur } } else { t with req := orphanReq t.req }) }
    fold := { s.fold with
      queue := s.fold.queue.map free, waiting := s.fold.waiting.map free, running := s.fold.running.map free
      fences := s.fold.fences.filter (fun f => decide (f.h ≠ h)) } }
  s.setHead h { s.head h with owed := [], failRec := some ⟨reads, s.tcRec, writes.take 512⟩ }

/-- The snoops whose answer head `h` owed go to the group again, through its surviving head `n` (R77, R125). -/
def Chip.resnoop (s : Chip) (g h n : Nat) : Chip :=
  let mine := fun (o : SnoopOut) => decide (o.agent = g ∧ o.via = h)
  let owed := s.coh.txns.flatMap (fun t => (t.owed.filter mine).map (fun o => (o.kind, t.line)))
  let s := { s with coh := { s.coh with
    txns := s.coh.txns.map (fun t => { t with owed := t.owed.map (fun o => if mine o then { o with via := n } else o) }) } }
  owed.foldl (fun s o => s.sendSnoop g o.1 o.2) s

/-- The record of source "head failover" for the log of head `y` (R65, R77). -/
def Chip.failoverRec (s : Chip) (h : Nat) (y : Head) : EvRec :=
  ⟨17, s.severity 17, h, s.tb.epoch, s.tcRec, 0, Config.freeNatAt y.stamp s.free % 2 ^ 64⟩

/-- A head is lost, or IO_ONLY, which counts as lost (R52, R77): the record goes to the surviving head's Warning log, whatever the source's
configuration. -/
def Chip.loseHead (s : Chip) (h : Nat) (st : HeadState) : Chip :=
  let old := s.head h
  let g := s.headAgent h
  let s := s.setHead h { old with state := st, detect := false }
  let s := s.dropOutstanding h
  match s.groupHead g with
  | some n =>
    let s := s.resnoop g h n
    let y := s.head n
    let s := s.setHead n (y.postLog 1 (.vendor (s.failoverRec h y)))
    let s := s.raise 17 h 0 (.head h) []
    let x := s.head h
    s.setHead h { x with failovers := x.failovers + 1 }
  | none => ((s.raise 18 h 0 (.head h)).agentDead g 1).cohPump

/-- HEAD_LINK_DOWN (R76): the detection interval begins; an IO_ONLY head is DOWN. -/
def Chip.headLinkDown (s : Chip) (h : Nat) : Chip :=
  let x := s.head h
  match x.state with
  | .active => s.setHead h { x with detect := true }
  | .ioOnly => s.setHead h (x.linkClear .down)
  | _ => s

/-- HEAD_LOST (R76, R77): the link did not return in time. -/
def Chip.headLost (s : Chip) (h : Nat) : Chip :=
  let x := s.head h
  if x.state = .active ∧ x.detect then s.loseHead h .lost else s

/-- What waited through the detection interval of head `h` goes on (R76): its answers and snoops leave, and its requests run. -/
def Chip.resumeHead (s : Chip) (h : Nat) : Chip :=
  let owed := (s.head h).owed
  let s := if owed.isEmpty then s else owed.foldl (fun s m => s.sendHead h m) (s.setHead h { s.head h with owed := [] })
  let mine := fun (w : Wait) => decide (w.why = .detect) && w.acc.ret.isHead h
  let go := s.waits.filter mine
  let s := { s with waits := s.waits.filter (fun w => !mine w) }
  go.foldl (fun s w => s.request { w.acc with whole := true } w.obs) s

/-- HEAD_LINK_UP (R76, R77): back in L0 within the interval, or a lost head that rejoins its group. -/
def Chip.headLinkUp (s : Chip) (h : Nat) : Chip :=
  let x := s.head h
  if x.state = .active ∧ x.detect then (s.setHead h { x with detect := false }).resumeHead h
  else if x.state = .lost ∧ x.width ≠ 0 then s.setHead h { x with state := .active }
  else s

/-- A rate and flit mode that training can end with (R51): no rate above ports.max_rate_gts; 64 GT/s needs flit mode, 68-byte flits stand
only at 16 and 32 GT/s, and a head that negotiated CXL has a flit mode. -/
def Chip.trainedOk (s : Chip) (rate flit : Nat) (cxl : Bool) : Bool :=
  [2, 5, 8, 16, 32, 64].contains rate && decide (rate ≤ s.cfg Obj.portsMaxRateGts) && (decide (rate ≠ 64) || decide (2 ≤ flit))
    && (decide (flit ≠ 1) || decide (rate = 16 ∨ rate = 32)) && (!cxl || decide (flit ≠ 0))

/-- HEAD_TRAINED (R51, R52): CXL.mem needs CXL, 16 GT/s and x4; else the head runs CXL.io only, and is lost at once (R76). -/
def Chip.headTrained (s : Chip) (h width rate flit : Nat) (cxl : Bool) : Chip :=
  if s.headPresent h ∧ s.domain (headDomain h) = .on ∧ width ≤ s.headLanes h ∧ [1, 2, 4, 8, 16].contains width
      ∧ s.trainedOk rate flit cxl then
    let x := s.head h
    let y := { x with width := width, rate := rate, flit := flit }
    if cxl ∧ 16 ≤ rate ∧ 4 ≤ width then
      (s.setHead h { y with state := .active, detect := false }).resumeHead h
    else
      let s := s.setHead h y
      let s := if x.state = .ioOnly ∨ x.state = .lost then s.setHead h { y with state := .ioOnly } else s.loseHead h .ioOnly
      s.raise 16 h 0 (.head h)
  else s

/-! ### CXL.mem (R59 to R64, R125) -/

/-- The head takes CXL.mem requests. -/
def Chip.memLive (s : Chip) (h : Nat) : Bool := s.serving && decide ((s.head h).state = .active) && !(s.head h).detect

/-- A head's request as a counter filter sees it (R555). -/
def Chip.headAsk (s : Chip) (h dla cls : Nat) : Ask := ⟨(s.extentOf dla).map (·.cask), h, cls, some dla⟩

/-- The read credit ceiling of a head (R79). -/
def Chip.readCredits (s : Chip) (h : Nat) : Nat :=
  let x := s.head h
  if !s.inBurst then 1024
  else
    let r := x.width * x.rate
    if 1024 ≤ r then 90 else if 512 ≤ r then (if x.flit = 1 then 40 else 45)
    else if 256 ≤ r then (if x.flit = 1 then 20 else 22) else 20

/-- Reads of a head that the device has accepted and not answered (R79). -/
def Chip.readsOut (s : Chip) (h : Nat) : Nat :=
  countIf (fun a : Access => decide (a.kind = .read)) (s.headAccesses h) + countIf (fun f : FoldFence => decide (f.h = h) && f.read) s.fold.fences

/-- The DDR5 sub-channel and bank that a waiting read stands at (R268). -/
def Chip.readPlace (s : Chip) (w : Wait) : Option (Nat × Nat × Nat × Nat) :=
  let r := s.srcRec (pageNo w.acc.dla)
  if w.acc.kind = .read ∧ r.st = .ddr then
    (let (sub, bg, bank, _) := s.ddrCoords r.ch (r.loc + lineNo w.acc.dla % 64)
     some (r.ch, sub, bg, bank))
  else none

/-- A DDR5 queue stands at its metered depth in a BURST window (R34, R270): 12 reads of a sub-channel, or 2 of a bank. -/
def Chip.atDepth (s : Chip) : Bool :=
  let ps := s.waits.filterMap s.readPlace
  s.inBurst && ps.any (fun p =>
    decide (s.cfg Obj.ddrBurstSubchDepth ≤ countIf (fun q => decide (q.1 = p.1 ∧ q.2.1 = p.2.1)) ps)
      || decide (s.cfg Obj.ddrBurstBankDepth ≤ countIf (fun q => decide (q = p)) ps))

/-- The read credit a head has now (R34, R79): the ceiling less the reads accepted and not answered; none at a metered depth. -/
def Chip.readCredit (s : Chip) (h : Nat) : Nat := if s.atDepth then 0 else s.readCredits h - s.readsOut h

/-- MEM_READ (R61): a head without read credit sends none (R79). -/
def Chip.memRead (s : Chip) (h tag dla : Nat) (mv : Meta) (o : Obs) : Chip :=
  if s.memLive h ∧ 0 < s.readCredit h then
    let q := s.headAsk h dla 0
    let s := s.countAsk (64 * h) q
    let s := if s.inBurst then s.countAsk (64 * h + 4) q else s
    s.request ⟨h, .byDir, .read, lineBase dla, 0, 0, false, true, 0, .head h tag mv⟩ (s.noteRead h (lineBase dla) o)
  else s

/-- MEM_WRITE (R61): a write whose data has not come whole waits for the link (R77). -/
def Chip.memWrite (s : Chip) (h tag dla : Nat) (mv : Meta) (mask : BitVec 64) (data : Line) (poison whole : Bool) (o : Obs) : Chip :=
  if s.memLive h then
    let s := s.countAsk (64 * h + 1) (s.headAsk h dla 1)
    let a : Access := ⟨h, .byDir, .write, lineBase dla, mask, data, poison, whole, 0, .head h tag mv⟩
    if whole then s.request a o else s.park .detect a o
  else s

/-- A clean drop of the line by head `h` breaks access (R59, R119). -/
def Chip.evictDenied (s : Chip) (h dla : Nat) : Bool :=
  match s.extentOf dla with
  | none => true
  | some e =>
    decide (e.group ≠ s.headAgent h ∨ e.st ≠ .accepted)
      || (match s.caskDomain e.cask with | some d => !s.isMember d (s.headAgent h) || !(s.head h).bi | none => false)

/-- MEM_CLEAN_EVICT (R59, R119, R125); a dead agent gets nothing (R141). -/
def Chip.memCleanEvict (s : Chip) (h tag dla : Nat) : Chip :=
  if s.memLive h then
    if s.evictDenied h dla then s.violate ⟨h, .byDir, .write, lineBase dla, 0, 0, false, true, 0, .head h tag .i⟩
    else if s.agentIsDead (s.headAgent h) then s
    else ((s.dropCopy (s.headAgent h) (lineNo dla)).deliver (.head h tag .i) .write dla 0 false).cohPump
  else s

/-- BI_SNOOP_RESPONSE (R125, R133). -/
def Chip.biResponse (s : Chip) (h dla : Nat) (rsp : BiRsp) : Chip :=
  if s.memLive h ∧ !s.agentIsDead (s.headAgent h) then
    s.snoopAnswer (s.headAgent h) (lineNo dla) (match rsp with | .i => 0 | .s => 1 | .e => 2) none {}
  else s

/-- HDM_DECODER_COMMIT (R60, R119): with more than one way it fails to commit. -/
def Chip.hdmCommit (s : Chip) (h dec base len ways : Nat) (bi : Bool) : Chip :=
  let x := s.head h
  if x.up then
    let d : Hdm := if ways = 1 then { base := base, len := len, committed := true, notCommitted := false }
      else { base := base, len := len, committed := false, notCommitted := true }
    s.setHead h { x with hdm := Tab.put {} x.hdm dec d, bi := bi }
  else s

end Sys2Proof.Machine
end

