-- ==== Sys2Proof/Machine/Keys.lean ====
section
/-!
DEFINITION. Machine/Keys.lean: key blobs (R215 to R219), cask key states and zeroisation (R220 to R224), debug closure (R226), IDE
streams (R72, R228) and link key slots (R229 to R231).
-/
namespace Sys2Proof.Machine

/-! ### Derived keys and blobs -/

/-- The ASCII bytes of "GD8472 KEK". -/
def kekLabel : List Byte := [0x47, 0x44, 0x38, 0x34, 0x37, 0x32, 0x20, 0x4B, 0x45, 0x4B]

/-- One PRF block of SP 800-108 counter mode with L = 256 (R216): counter, label, zero, context, length. -/
def prfBlock (key : BitVec 256) (i : Nat) (label ctx : List Byte) : BitVec 128 :=
  Config.aesCmac key ([0, 0, 0, BitVec.ofNat 8 i] ++ label ++ [0] ++ ctx ++ [0, 0, 1, 0])

/-- The ASCII bytes of "GD8472 SEEDBANK". -/
def seedbankLabel : List Byte := [0x47, 0x44, 0x38, 0x34, 0x37, 0x32, 0x20, 0x53, 0x45, 0x45, 0x44, 0x42, 0x41, 0x4E, 0x4B]

/-- The ASCII bytes of "GD8472 SPDM". -/
def spdmLabel : List Byte := [0x47, 0x44, 0x38, 0x34, 0x37, 0x32, 0x20, 0x53, 0x50, 0x44, 0x4D]

/-- A derived key: two PRF blocks (R216). -/
def deriveKey (root : BitVec 256) (label ctx : List Byte) : BitVec 256 := prfBlock root 2 label ctx ++ prfBlock root 1 label ctx

/-- KEK `n` of the owner root (R216). -/
def Chip.kek (s : Chip) (n : Nat) : BitVec 256 := deriveKey s.husk.root kekLabel [BitVec.ofNat 8 n]

/-- The Seedbank wrapping key (R216). -/
def seedbankKey : BitVec 256 := deriveKey Config.deviceRoot seedbankLabel []

/-- The seed of the SPDM identity key pair (R216, R227). -/
def spdmSeed : BitVec 256 := deriveKey Config.deviceRoot spdmLabel []

/-- The inner bytes of a blob of kind 1 CASK or 2 LINK, wrapped under `key`, where it passes every check of R218. -/
def unwrapUnder (key : BitVec 256) (kind : Nat) (blob : BitVec 1472) : Option Nat :=
  let v := blob.toNat
  if bitsOf v 0 16 ≠ 1 ∨ bitsOf v 16 8 ≠ kind ∨ 15 < bitsOf v 24 8 ∨ bitsOf v 32 32 ≠ 0 then none
  else match Config.keyUnwrap key (BitVec.ofNat 1408 (v / 2 ^ 64)) with
    | none => none
    | some x =>
      let w := x.toNat
      let a := bitsOf w 64 256
      let b := bitsOf w 320 256
      if bitsOf w 0 32 ≠ bitsOf v 0 32 then none
      else if kind = 1 then (if a = b then none else some w)
      else if a = 0 ∨ b = 0 ∨ bitsOf w 640 192 ≠ 0 ∨ bitsOf w 832 512 ≠ 0 then none
      else some w

/-- A blob as delivered, under its KEK (R217). -/
def Chip.unwrapBlob (s : Chip) (kind : Nat) (blob : BitVec 1472) : Option Nat := unwrapUnder (s.kek (bitsOf blob.toNat 24 8)) kind blob

/-- A blob as Seedbank keeps it (R219, R488): its clear header, and its inner bytes under the Seedbank wrapping key. -/
def seedbankBlob (blob : BitVec 1472) (w : Nat) : BitVec 1472 := Config.keyWrap seedbankKey (BitVec.ofNat 1344 w) ++ blob.extractLsb' 0 64

/-- The key set of an unwrapped CASK blob (R217). -/
def keySetOf (w : Nat) : KeySet :=
  ⟨BitVec.ofNat 256 (bitsOf w 64 256), BitVec.ofNat 256 (bitsOf w 320 256), BitVec.ofNat 256 (bitsOf w 576 256),
   BitVec.ofNat 256 (bitsOf w 832 256), BitVec.ofNat 256 (bitsOf w 1088 256)⟩

/-- A refused blob (R218). -/
def Chip.refuseBlob (s : Chip) : Nat × Chip :=
  (Abort.keyUnwrap, ({ s with husk := { s.husk with unwrapFailures := s.husk.unwrapFailures + 1 } } : Chip).raise 82)

/-! ### Cask keys (R219 to R224) -/

/-- The cask holds the keys of an unwrapped blob. -/
def Chip.takeKeys (s : Chip) (c w : Nat) (blob : BitVec 1472) : Chip :=
  s.setCask c { s.cask c with keyState := .loaded, keyId := bitsOf w 32 32, keys := some (keySetOf w), blob := some blob }

/-- CASK_KEY_BLOB_LOAD (R218, R219, R221). -/
def Chip.loadBlob (s : Chip) (c : Nat) (blob : BitVec 1472) : Nat × Chip :=
  if (s.cask c).state = .free then (Abort.caskState, s)
  else if (s.cask c).keyState ≠ .empty then (Abort.resourceOwned, s)
  else match s.unwrapBlob 1 blob with
    | none => s.refuseBlob
    | some w => (0, ((s.takeKeys c w blob).sbAppend 3 c (bytesLE 184 (seedbankBlob blob w).toNat)).2)

/-- At power-up, the blobs of Seedbank load the keys again (R219). -/
def Chip.restoreBlobs (s : Chip) : Chip :=
  (s.sbKeys 3).foldl (fun s c =>
    match s.sbLive 3 c with
    | some r =>
      let blob := BitVec.ofNat 1472 (natLE r.payload)
      (match unwrapUnder seedbankKey 1 blob with
       | some w => if c < 1024 ∧ r.payload.length = 184 then s.takeKeys c w blob else s
       | none => s)
    | none => s) s

/-- A cask whose erased extents are gone is EMPTY again (R221). -/
def Chip.keyEmpty (s : Chip) (c : Nat) : Chip :=
  let k := s.cask c
  if k.keyState = .erased ∧ !s.map.extents.any (fun e => decide (e.cask = c)) then s.setCask c { k with keyState := .empty, keyId := 0 }
  else s

/-- The cut point of a ZEROISE (R222): the keys are cleared and every copy destroyed. -/
def Chip.cutKeys (s : Chip) (c : Nat) : Chip :=
  let s := s.destroyBlobs c
  s.setCask c { s.cask c with keyState := .erasing, keys := none }

/-- ZEROISE may run on a cask (R221). -/
def Chip.mayZeroise (s : Chip) (c : Nat) : Bool :=
  decide ((s.cask c).state = .quiesced) && decide ((s.cask c).keyState = .loaded ∨ (s.cask c).keyState = .fault)

/-- ZEROISE (R221, R222). -/
def Chip.zeroise (s : Chip) (c : Nat) : Nat × Chip := if s.mayZeroise c then (0, s.cutKeys c) else (Abort.caskState, s)

/-- The pages that belong to a cask's extents. -/
def Chip.caskPages (s : Chip) (c : Nat) : List Nat :=
  (s.map.pages.map (·.1)).filter (fun p => match s.extentOf (4096 * p) with | some e => decide (e.cask = c) | none => false)

/-- The erase walk meets one page (R222): its lines leave the cache and HBM unwritten, its migration ends, and a page resting on HBM
is POISONED. -/
def Chip.erasePage (s : Chip) (p : Nat) : Chip :=
  let s := (s.dropLines (64 * p) 64).abandonPage p
  let line := fun (k : Nat) => !decide (k / 64 = p)
  let s := { s with kiln := { s.kiln with
    absorbed := Tab.del s.kiln.absorbed p
    media := s.kiln.media.filter (fun e => line e.1), mediaPoison := s.kiln.mediaPoison.filter (fun e => line e.1) } }
  if (s.page p).st = .hbm then s.poisonPage p else s

/-- ERASE_WALK_END (R222): the walk runs as heat migration does (R36). -/
def Chip.eraseWalkEnd (s : Chip) (c : Nat) : Chip :=
  if (s.cask c).keyState ≠ .erasing ∨ !s.permits .migration then s
  else
    let s := (s.caskPages c).foldl (fun s p => s.erasePage p) s
    (s.setCask c { s.cask c with keyState := .erased }).keyEmpty c

/-- security.zeroise_all (R224). -/
def Chip.zeroiseAll (s : Chip) (v : Nat) : Nat × Chip :=
  let held := (s.casks.filter (fun e => decide (e.2.keyState = .loaded ∨ e.2.keyState = .fault))).map (·.1)
  if v ≠ 0xE2A5E000 then (Abort.outOfRange, s)
  else if !held.all s.mayZeroise then (Abort.caskState, s)
  else
    let s := held.foldl (fun s c => s.cutKeys c) s
    let s := { s with
      husk := { s.husk with linkSlots := [] }
      casks := s.casks.map (fun (c, k) => (c, { k with blob := none }))
      sb := { s.sb with recs := s.sb.recs.filter (fun r => decide (r.kind ≠ 3)) } }
    (0, (List.range 8).foldl (fun s l => if s.linkEnc l then s.wantDown l 6 else s) s)

/-- An access that waits for the rebuild of the keys of cask `c`. -/
def Chip.waitsKey (s : Chip) (c : Nat) (w : Wait) : Bool :=
  decide (w.why = .key) && (match s.extentOf w.acc.dla with | some e => decide (e.cask = c) | none => false)

/-- KEY_REBUILD of a cask's keys (R220): they stand again, or are in FAULT and the cask's waiting writes are stored as poisoned. -/
def Chip.caskRebuild (s : Chip) (c : Nat) (blobOk sbOk : Bool) : Chip :=
  if (s.cask c).keyState ≠ .loaded then s
  else
    let s := { s with husk := { s.husk with vaultErrors := s.husk.vaultErrors + 1 } }
    if blobOk || (sbOk && (s.sbLive 3 c).isSome) then s.rerun (s.waitsKey c)
    else
      let mine := s.waits.filter (s.waitsKey c)
      let s := { s with waits := s.waits.filter (fun w => !s.waitsKey c w) }
      let s := mine.foldl (fun s w => ((s.putLine w.acc.dla (s.line w.acc.dla) true).dropFold w.acc).finishWrite w.acc) s
      (s.setCask c { s.cask c with keyState := .fault, keys := none }).raise 83

/-- KEY_REBUILD of a link's key slot (R219, R220): from its blob; a LINK blob has no other copy, and without it the slot is empty. -/
def Chip.linkRebuild (s : Chip) (l slot : Nat) (blobOk : Bool) : Chip :=
  let k := 2 * l + slot
  if !(Tab.get {} s.husk.linkSlots k).loaded then s
  else
    let s := { s with husk := { s.husk with vaultErrors := s.husk.vaultErrors + 1 } }
    if blobOk then s else ({ s with husk := { s.husk with linkSlots := Tab.del s.husk.linkSlots k } } : Chip).raise 83

/-- KEY_REBUILD (R220). -/
def Chip.keyRebuild (s : Chip) (key : VaultKey) (blobOk sbOk : Bool) : Chip :=
  match key with
  | .cask c => s.caskRebuild c blobOk sbOk
  | .link l slot => s.linkRebuild l slot blobOk

/-- husk.owner_root_program (R215). -/
def Chip.programRoot (s : Chip) (root : BitVec 256) : Nat × Chip :=
  if s.mode.current ≠ .configuring then (Abort.wrongMode, s)
  else if s.husk.rootDone then (Abort.resourceOwned, s)
  else (0, { s with husk := { s.husk with rootDone := true, root := root } })

/-- security.debug_close (R226). -/
def Chip.debugClose (s : Chip) (v : Nat) : Nat × Chip :=
  if v ≠ 0xDEB0C105 then (Abort.outOfRange, s)
  else if s.mode.current ≠ .configuring then (Abort.wrongMode, s)
  else (0, { s with husk := { s.husk with debugClosed := true } })

/-! ### Links (R229 to R231) -/

/-- husk.link.slot0_blob and slot1_blob (R231): the slot in use for sending takes no blob. -/
def Chip.loadSlot (s : Chip) (l slot : Nat) (blob : BitVec 1472) : Nat × Chip :=
  if s.activeSlot l = slot then (Abort.resourceOwned, s)
  else match s.unwrapBlob 2 blob with
    | none => s.refuseBlob
    | some w =>
      let x : LinkSlot :=
        { loaded := true, keyId := bitsOf w 32 32, down := BitVec.ofNat 256 (bitsOf w 64 256), up := BitVec.ofNat 256 (bitsOf w 320 256)
          saltDown := bitsOf w 576 32, saltUp := bitsOf w 608 32 }
      (0, { s with husk := { s.husk with linkSlots := Tab.put {} s.husk.linkSlots (2 * l + slot) x } })

/-- husk.link.command (R231): SWITCH. -/
def Chip.switchSlot (s : Chip) (l v : Nat) : Nat × Chip :=
  if v ≠ 1 then (Abort.outOfRange, s)
  else (0, { s with husk := { s.husk with
    active := setBit s.husk.active l (!bitOf s.husk.active l), switching := setBit s.husk.switching l true } })

/-- The link is trained: its lanes carry flits (R229). -/
def Chip.trained (s : Chip) (l : Nat) : Bool := decide ((s.link l).st = .active ∨ (s.link l).st = .changing)

/-! ### IDE (R72, R228) -/

/-- IDE_KEY_PROGRAM (R53, R72): the stream is keyed, and secure again; the CXL.mem stream, number 0, runs in skid or containment mode. -/
def Chip.ideProgram (s : Chip) (h stream : Nat) (contain : Bool) : Chip :=
  let x := s.head h
  s.setHead h { x with
    ideKeyed := setBit x.ideKeyed stream true, ideInsecure := setBit x.ideInsecure stream false
    ideContain := if stream = 0 then contain else x.ideContain, flitsToMac := if stream = 0 then 0 else x.flitsToMac }

/-- IDE_INTEGRITY_FAILURE (R228): the stream goes Insecure; on the CXL.mem stream, number 0, the head is lost at once. -/
def Chip.ideFailure (s : Chip) (h stream : Nat) : Chip :=
  let x := s.head h
  if !bitOf x.ideKeyed stream ∨ bitOf x.ideInsecure stream then s
  else
    let s := (s.setHead h { x with ideInsecure := setBit x.ideInsecure stream true, ras := setBit x.ras 0 true }).raise 19 h 0 (.head h)
    if stream = 0 ∧ x.state = .active then s.loseHead h .lost else s

end Sys2Proof.Machine
end

