-- ==== Sys2Proof/Machine/Lauter.lean ====
section
/-!
DEFINITION. Machine/Lauter.lean: the tier engine (R145 to R161) and Mill's page work (R177, R193, R195, R199): heat, candidates,
migrations, expansions, repacks, and first writes that wait for room.
-/
namespace Sys2Proof.Machine

/-- Background work of the class of migrations may run: outside BURST, and not from the write fence of one (R36, R159). -/
def Chip.moveTime (s : Chip) : Bool := s.permits .migration

/-! ### Where a page may go (R148, R168, R198, R278) -/

/-- The tier of a placement channel number: DDR5 0 to 7, NVM 8 to 15. -/
def tierChan (t : PgState) (ch : Nat) : Nat := if t = .nvm then 8 + ch else ch

/-- A page may be placed on channel `ch` of tier `t` (R148, R198, R278); it may use the reserve. -/
def Chip.roomAt (s : Chip) (t : PgState) (ch r : Nat) : Bool :=
  s.tierRoom t true && (decide (t = .hbm) || (s.placeChans t r).contains (tierChan t ch))

/-- A tier has room for a page that moves, on a channel other than `n` where `away` says so. -/
def Chip.goalRoom (s : Chip) (p k n : Nat) (away : Bool) : Bool :=
  s.tierRoom (tierOfCode k) true
    && (decide (k = 1) || (s.placeChans (tierOfCode k) (s.accessRegion (4096 * p))).any (fun c => !away || decide (c ≠ n)))

/-- The region's pages move for heat (R145). -/
def Chip.heatRegion (s : Chip) (r : Nat) : Bool := decide (s.cfgAt Obj.policyMode r = 1)

/-- The next higher allowed tier of a page resting on tier code `t` (R151). -/
def Chip.tierUp (s : Chip) (r t : Nat) : Option Nat := ([2, 1].filter (fun k => decide (k < t) && s.tierAllowed r k)).head?

/-- The next lower allowed tier. -/
def Chip.tierDown (s : Chip) (r t : Nat) : Option Nat := ([2, 3].filter (fun k => decide (t < k) && s.tierAllowed r k)).head?

/-- A page is resting: on a tier and in no migration. -/
def PageRec.resting (r : PageRec) : Bool := decide (r.st = .hbm ∨ r.st = .ddr ∨ r.st = .nvm)

/-- The page's channel is being evacuated (R168). -/
def Chip.leaving (s : Chip) (r : PageRec) : Bool := decide (r.st ≠ .hbm) && decide (s.chanState (tierChan r.st r.ch) = .evacuating)

/-- The page lies in the unit that is being retired (R169). -/
def Chip.retiring (s : Chip) (r : PageRec) : Bool :=
  decide (s.lauter.retireStatus = 1 ∨ s.lauter.retireStatus = 3) && s.inUnit s.lauter.retireUnit r

/-- The tiers that a page which must leave its place tries (R168): its own, its home, the other allowed ones from the top. -/
def Chip.leaveOrder (s : Chip) (p : Nat) : List Nat :=
  let r := s.accessRegion (4096 * p)
  (s.page p).st.code :: s.cfgAt Obj.policyHome r :: [1, 2, 3].filter (fun k => s.tierAllowed r k)

/-- The first tier with room for a page that must leave its place (R168). -/
def Chip.leaveGoal (s : Chip) (p : Nat) : Option Nat :=
  let r := s.page p
  (s.leaveOrder p).find? (fun k => s.goalRoom p k (tierChan r.st r.ch) (s.leaving r))

/-- No allowed tier has room for a resident page of an evacuating channel (R168). -/
def Chip.evacBlocked (s : Chip) (n : Nat) : Bool :=
  decide (s.chanState n = .evacuating)
    && (s.pagesOn (if n < 8 then .ddr else .nvm) (n % 8)).any (fun e => (s.leaveGoal e.1).isNone)

/-! ### Heat and candidates (R148 to R151) -/

/-- Sort pages by heat, the hottest first, or the coldest first. -/
def insertHeat (s : Chip) (hot : Bool) (p : Nat) : List Nat → List Nat
  | [] => [p]
  | q :: r =>
    let a := (s.page p).heat
    let b := (s.page q).heat
    if (if hot then b < a else a < b) then p :: q :: r else q :: insertHeat s hot p r

/-- Pages in the order of R151. -/
def Chip.byHeat (s : Chip) (hot : Bool) (ps : List Nat) : List Nat := ps.foldl (fun l p => insertHeat s hot p l) []

/-- The accesses counted against a page since the last pass. -/
def Chip.heatOf (s : Chip) (p : Nat) : Nat :=
  Tab.get 0 s.lauter.heat p + s.lauter.spill.foldl (fun a e => if e.1 = p then a + e.2 else a) 0

/-- HEAT_DECAY_PASS (R150, R151): deferred in BURST windows, and while the journal has no room (R165). Pages of abandoned migrations are
candidates again (R160). -/
def Chip.heatDecayPass (s : Chip) : Chip :=
  if s.inBurst || !s.workMode || !s.journalRoom 1 then s
  else
    let keep := s.cfg Obj.lauterDecayKeep
    let ps := (s.map.pages.map (·.1)).filter (fun p => s.heatRegion (s.accessRegion (4096 * p)))
    let s := ps.foldl (fun (s : Chip) p =>
      let r := s.page p
      let h := min 255 ((r.heat * keep) >>> 4 + s.heatOf p)
      if h = r.heat then s else s.commitPage p { r with heat := h }) s
    let up := ps.filter (fun p => (s.page p).resting && decide (s.cfg Obj.lauterPromoteHeat ≤ (s.page p).heat)
      && (s.tierUp (s.accessRegion (4096 * p)) (s.page p).st.code).isSome)
    let down := ps.filter (fun p => (s.page p).resting && decide ((s.page p).heat ≤ s.cfg Obj.lauterDemoteHeat)
      && decide ((s.page p).st.code < s.cfgAt Obj.policyHome (s.accessRegion (4096 * p))))
    let s := { s with lauter := { s.lauter with
      heat := [], spill := [], promote := s.byHeat true up, demote := s.byHeat false down, barred := [] } }
    if (List.range 16).any s.evacBlocked then s.raise 56 else s

/-- The tier's free space is below so many times lauter.free_low_pct of its capacity (R148). -/
def Chip.spaceLow (s : Chip) (t : PgState) (times : Nat) : Bool :=
  decide (100 * s.tierFree t < s.tierCap t * (times * s.cfg Obj.lauterFreeLowPct))

/-- FREE_SPACE_LOW (R148): the pages of HEAT regions on the tier become candidates, the coldest first. -/
def Chip.freeSpaceLow (s : Chip) (t : Nat) : Chip :=
  let tier := tierOfCode t
  if t = 0 ∨ !s.spaceLow tier 1 then s
  else
    let ps := (s.map.pages.filter (fun e => e.2.resting && decide (e.2.st = tier)
      && s.heatRegion (s.accessRegion (4096 * e.1)) && !s.lauter.low.contains e.1)).map (·.1)
    { s with lauter := { s.lauter with low := s.lauter.low ++ s.byHeat false ps } }

/-- A page can move now: it rests at a place of its own, no migration, expansion or repair has it, its channel serves, and no abandoned
migration bars it before the next decay pass (R160). -/
def Chip.movable (s : Chip) (p : Nat) : Bool :=
  let r := s.page p
  r.resting && decide (r.loc ≠ pendingLoc) && (s.migOf p).isNone && (Tab.find s.mill.expanding p).isNone && !s.underRepair p
    && (decide (r.st ≠ .ddr) || !s.stopped r.ch) && !s.lauter.barred.contains p

/-- The goal of a page that must move, by the urgency of its reason: 0 the mirror's growth (R262), 1 evacuation and retirement (R168,
R169), 2 a tier that its region no longer allows (R146). -/
def Chip.mustGoal (s : Chip) (urgency p : Nat) : Option Nat :=
  let r := s.page p
  let reg := s.accessRegion (4096 * p)
  match urgency with
  | 0 => if r.st = .hbm ∧ s.hbmCapPages < (s.pagesOn .hbm 0).length then s.tierDown reg 1 else none
  | 1 => if s.leaving r || s.retiring r then s.leaveGoal p else none
  | _ => if s.tierAllowed reg r.st.code then none else some (s.cfgAt Obj.policyHome reg)

/-- A page that must move for a reason of this urgency could move now. -/
def Chip.mustMove (s : Chip) (urgency p : Nat) : Bool :=
  s.movable p && (match s.mustGoal urgency p with | some k => s.goalRoom p k 16 false | none => false)

/-- Some page waits to move for a reason as urgent as these. -/
def Chip.anyMust (s : Chip) (us : List Nat) : Bool := us.any (fun u => s.map.pages.any (fun e => s.mustMove u e.1))

/-- Where heat or low space would move a page (R148, R151): its list, and the tiers it may go to. -/
def Chip.heatGoals (s : Chip) (why p : Nat) : List Nat :=
  let reg := s.accessRegion (4096 * p)
  let c := (s.page p).st.code
  match why with
  | 0 => (s.tierUp reg c).toList
  | 1 => [2, 3].filter (fun k => decide (c < k ∧ k ≤ s.cfgAt Obj.policyHome reg) && s.tierAllowed reg k)
  | _ => if s.spaceLow (s.page p).st 2 then (s.tierDown reg c).toList else []

/-- The candidates of heat and low space: hottest first for promotion, coldest first for demotion. -/
def Chip.heatList (s : Chip) (why : Nat) : List Nat :=
  match why with | 0 => s.lauter.promote | 1 => s.lauter.demote | _ => s.lauter.low

/-- The page is the first of its list that can move, and tier `t` is a goal of it. -/
def Chip.heatMove (s : Chip) (why p t : Nat) : Bool :=
  (s.heatGoals why p).contains t
    && decide ((s.heatList why).find? (fun q => s.movable q && s.heatRegion (s.accessRegion (4096 * q))
        && (s.heatGoals why q).any (fun k => s.goalRoom q k 16 false)) = some p)

/-- A reason of R146, R148, R151, R168, R169 or R262 moves the page to the tier and channel now, and no more urgent one waits. -/
def Chip.mayMove (s : Chip) (p t ch : Nat) : Bool :=
  let r := s.page p
  let elsewhere := decide (s.leaving r → tierChan (tierOfCode t) ch ≠ tierChan r.st r.ch ∨ t ≠ r.st.code)
  if s.mustGoal 0 p = some t then true
  else if s.mustGoal 1 p = some t then elsewhere && !s.anyMust [0]
  else if s.mustGoal 2 p = some t then !s.anyMust [0, 1]
  else s.heatRegion (s.accessRegion (4096 * p)) && !s.anyMust [0, 1, 2] && [0, 1, 2].any (fun w => s.heatMove w p t)

/-! ### Reading a page whole (R153, R154, R192, R193, R210, R213) -/

/-- The lines that a stored sector of a grist page takes with it when it cannot be read (R153): those of the segments that need it. -/
def sectorLines (g : List Byte) (isSealed : Bool) (j : Nat) : Nat :=
  (List.range 64).foldl (fun a i => if (gristFetch g isSealed (i / 4)).contains j then a + 2 ^ i else a) 0

/-- The lines of page `p` that HBM holds absorbed (R322). -/
def Chip.absorbedMask (s : Chip) (p : Nat) : Nat := ((Tab.find s.kiln.absorbed p).map (·.mask)).getD 0

/-- Husk verifies and Mill decodes what was fetched of line `i` of page `p` (R154, R210): the lines that fail (R213). A segment is decoded
with the first of its lines that is not absorbed. -/
def Chip.verifyLine (s : Chip) (p i : Nat) (o : Obs) : Nat × Chip :=
  let r := s.srcRec p
  let ln := 64 * p + i
  let alarm := fun (s : Chip) =>
    ({ s with husk := { s.husk with macFailures := s.husk.macFailures + 1 } } : Chip).raise 80 0xFF (64 * ln)
  if s.isAbsorbed (64 * ln) ∨ r.st = .hbm then (0, s)
  else if r.grist then
    if (List.range (i % 4)).any (fun j => !bitOf (s.absorbedMask p) (i / 4 * 4 + j)) then (0, s)
    else match s.decodeSegment p (i / 4) o.mac with
      | (.good, s) => (0, s)
      | (.macFail, s) => (15 * 2 ^ (i / 4 * 4), alarm s)
      | (_, s) => (15 * 2 ^ (i / 4 * 4), s)
  else if s.sealedRegion p then
    match s.macCheck (s.lineMacOk ln) o.mac with
    | (.good, s) => (0, s)
    | (_, s) => (2 ^ i, alarm s)
  else (0, s)

/-- One line of a page is read by a copy or a merge, with its stored sector as the tier's code gives it, and verified where the data is
transformed: the lines that it leaves poisoned. -/
def Chip.copyLine (s : Chip) (p i : Nat) (transform : Bool) (o : Obs) (origin : Nat) : Nat × Chip :=
  let r := s.srcRec p
  let beyond := r.grist && decide (r.sectors < i) && !s.isAbsorbed (64 * (64 * p + i))
  match if beyond then (Got.good, s) else s.tierFetch (64 * p + i) { o with gsec := Fin.ofNat 64 i } origin with
  | (.good, s) => if transform then s.verifyLine p i o else (0, s)
  | (_, s) => (if r.grist && !s.isAbsorbed (64 * (64 * p + i)) then sectorLines (s.gristOf p) (s.sealedRegion p) i else 2 ^ i, s)

/-- What is observed of line `i`. -/
def lineObs (obs : List (Fin 64 × Obs)) (i : Nat) : Obs := ((obs.find? (fun e => decide (e.1.val = i))).map (·.2)).getD {}

/-- The lines `mask` of page `p` are read: the lines found that must be poisoned where they go (R153, R154, R213). -/
def Chip.readLines (s : Chip) (p mask : Nat) (transform : Bool) (obs : List (Fin 64 × Obs)) (origin : Nat) : Nat × Chip :=
  let s := obs.foldl (fun s e => s.damageGrist p e.2.grist) s
  let own := s.absorbedMask p
  ((List.range 64).filter (fun i => bitOf mask i)).foldl (fun (acc : Nat × Chip) i =>
    let (b, s) := acc.2.copyLine p i transform (lineObs obs i) origin
    (acc.1 ||| (if bitOf own i then b else b - (b &&& own)), s)) (0, s)

/-- Lines of a page become poisoned in its stored form. -/
def Chip.poisonLines (s : Chip) (p mask : Nat) : Chip :=
  ((List.range 64).filter (fun i => bitOf mask i)).foldl (fun s i => s.setPoison (64 * (64 * p + i)) true) s

/-- Husk stores a page's lines with MACs of its own (R210). -/
def Chip.freshMacs (s : Chip) (p : Nat) : Chip := { s with macs := s.macs.filter (fun e => decide (e.1 / 64 ≠ p)) }

/-! ### Migrations (R152 to R160) -/

/-- The page may enter a migration slot. -/
def Chip.slotReady (s : Chip) (i p : Nat) : Bool :=
  s.workMode && s.moveTime && (Tab.find s.lauter.slots i).isNone && s.movable p && s.journalRoom 1

/-- The bytes that a pass over some lines of a page copies: of grist, every stored sector (R152). -/
def passBytes (m : Slot) (lines : Nat) : Nat :=
  if m.src.grist ∧ m.dst.st ≠ .hbm then 64 * (m.src.sectors + 1) else 64 * countIf (fun i => bitOf lines i) (List.range 64)

/-- Steps 1 and 2 of R152: the slot holds the destination, and the record is MIGRATING. -/
def Chip.enterSlot (s : Chip) (i p : Nat) (dst : PageRec) (repack : Bool) : Chip :=
  let r := s.page p
  let s := s.commitPage p { r with st := .migrating }
  let out := fun (l : List Nat) => l.filter (fun q => decide (q ≠ p))
  let m : Slot := { page := p, src := r, dst := dst, repack := repack, since := s.tb.tc }
  ({ s with lauter := { s.lauter with
    slots := Tab.set s.lauter.slots i m
    promote := out s.lauter.promote, demote := out s.lauter.demote, low := out s.lauter.low } } : Chip).queueCopy (passBytes m m.pass)

/-- The place of a page that moves to a tier and channel in a form: a pool page on HBM or DDR5, an out-of-place page at `loc` from Kiln on
the non-volatile tier (R152, R308); none where Kiln places no page there. -/
def Chip.destination (s : Chip) (p : Nat) (t : PgState) (ch loc : Nat) (form : Bool × Nat) : Option (PageRec × Chip) :=
  let r := s.page p
  let n := s.unitLines p form
  if t ≠ .nvm then some (s.placeAt p t ch form r)
  else if !s.pruneOlds.placeOk ch loc n then none
  else some ({ r with st := .nvm, grist := form.1, sectors := form.2, ch := ch, loc := loc }, s.pruneOlds.placeUnit ch loc n)

/-- MIGRATION_START (R152). -/
def Chip.migrationStart (s : Chip) (i p t ch loc : Nat) : Chip :=
  let reg := s.accessRegion (4096 * p)
  let r := s.page p
  let tier := tierOfCode t
  if t = 0 ∨ !s.slotReady i p ∨ !s.mayMove p t ch ∨ !s.roomAt tier ch reg ∨ (tier = .ddr ∧ s.stopped ch) then s
  else
    let (ok, u) := s.useOwn p
    let form := if tier = .hbm then (false, 63) else if r.st = .hbm then gristForm (s.storedGrist p reg) else (r.grist, r.sectors)
    match (if ok then u.destination p tier ch loc form else none) with
    | none => u
    | some (dst, u) => (u.enterSlot i p dst false).watchCapacity s

/-- The page has not been written for mill.repack_idle_ms (R195). -/
def Chip.writeIdle (s : Chip) (p : Nat) : Bool :=
  decide (Tab.get 0 s.map.wrote p + s.cfg Obj.millRepackIdleMs * (s.tcPerSecond / 1000) ≤ s.tb.tc)

/-- REPACK_START (R195): an idle plain page of a compressing region that would gain enough; its destination is on its own channel (DESIGN
CHOICE, log entry 152). -/
def Chip.repackStart (s : Chip) (i p loc : Nat) : Chip :=
  let reg := s.accessRegion (4096 * p)
  let r := s.page p
  let g := s.storedGrist p reg
  if !s.slotReady i p ∨ r.grist ∨ r.st = .hbm ∨ g = [] ∨ s.unitLines p (false, 63) < gristSectors g + s.cfg Obj.millMinGainSectors
      ∨ !s.writeIdle p ∨ !s.roomAt r.st r.ch reg then s
  else
    let (ok, u) := s.useOwn p
    match (if ok then u.destination p r.st r.ch loc (gristForm g) else none) with
    | none => u
    | some (dst, u) => (u.enterSlot i p dst true).watchCapacity s

/-- Lines changed at the source since the mask was cleared. -/
def Slot.changed (m : Slot) : Nat := countIf (fun i => bitOf m.mask i) (List.range 64)

/-- Husk or Mill transforms what the migration copies (R154, R195). -/
def Slot.transforms (m : Slot) : Bool := decide (m.src.st = .hbm ∨ m.dst.st = .hbm) || m.repack

/-- The lines of the pass that ends are copied: those that arrive poisoned are noted (R153, R154). -/
def Chip.endPass (s : Chip) (m : Slot) (obs : List (Fin 64 × Obs)) : Slot × Chip :=
  let (bad, s) := s.readLines m.page m.pass m.transforms obs 3
  ({ m with bad := (m.bad - (m.bad &&& m.pass)) ||| bad }, s)

/-- COPY_PASS_END (R152, R153, R155, R195): recopy, hold or abandon. A copy that met a DDR5 channel's error is paused (R158). -/
def Chip.copyPassEnd (s : Chip) (i : Nat) (obs : List (Fin 64 × Obs)) : Chip :=
  match Tab.find s.lauter.slots i with
  | none => s
  | some m =>
    if m.stage ≠ .copying ∨ m.paused ∨ !s.moveTime then s
    else
      let (x, s) := s.endPass m obs
      let put := fun (s : Chip) (x : Slot) => ({ s with lauter := { s.lauter with slots := Tab.set s.lauter.slots i x } } : Chip)
      let again := fun (s : Chip) (x : Slot) => (put s { x with mask := 0, pass := m.mask }).queueCopy (if m.mask = 0 then 0 else passBytes m m.mask)
      match Tab.find s.lauter.slots i with
      | none => s
      | some now =>
        if now.paused then s
        else if m.repack then (if m.mask = 0 then put s { x with stage := .holding, pass := 0 } else s.abandon i)
        else if m.changed ≤ s.cfg Obj.lauterSwingMaxLines then again s { x with stage := .holding }
        else if s.cfg Obj.lauterRecopyPasses ≤ m.passes then s.abandon i
        else again s { x with passes := m.passes + 1 }

/-- The absorbed lines of a page that leaves the non-volatile tier have moved with it (R324). -/
def Chip.dropAbsorbed (s : Chip) (p : Nat) : Chip :=
  { s with kiln := { s.kiln with
    absorbed := Tab.del s.kiln.absorbed p
    media := s.kiln.media.filter (fun e => decide (e.1 / 64 ≠ p)), mediaPoison := s.kiln.mediaPoison.filter (fun e => decide (e.1 / 64 ≠ p)) } }

/-- The stored form that a migration builds at its destination: of what leaves HBM and of a repack Mill's, else the source's (R153, R154,
R195). -/
def Chip.movedGrist (s : Chip) (m : Slot) : List Byte :=
  if m.dst.st = .hbm then []
  else if m.repack ∨ m.src.st = .hbm then s.storedGrist m.page (s.accessRegion (4096 * m.page))
  else s.gristOf m.page

/-- The stored size at the destination is no longer the one it was allocated for (R155), or grist that is to hold absorbed lines would be
written in place on DDR5 (R192; DEDUCED, log entry 159). -/
def Chip.outgrown (s : Chip) (m : Slot) : Bool :=
  decide (gristForm (s.movedGrist m) ≠ (m.dst.grist, m.dst.sectors))
    || (decide (m.src.st = .nvm ∧ m.dst.st = .ddr) && m.src.grist && (Tab.find s.kiln.absorbed m.page).isSome)

/-- The swing of a migration takes effect (R152 step 6): the record takes the destination, its generation advances, and what was held
proceeds. -/
def Chip.swingNow (s : Chip) (i : Nat) (m : Slot) : Chip :=
  let p := m.page
  let now := s.page p
  let g := s.movedGrist m
  let s := s.poisonLines p m.bad
  let s := if m.transforms then s.freshMacs p else s
  let s := if m.src.st = .nvm ∧ m.dst.st ≠ .nvm then s.dropAbsorbed p else s
  let s := (s.commitPage p { m.dst with heat := now.heat, gen := (m.src.gen + 1) % 16 }).setGrist p g
  { s with
    lauter := { s.lauter with
      slots := Tab.set s.lauter.slots i { m with stage := .swung }, migrations := s.lauter.migrations + 1 }
    mill := { s.mill with repacks := s.mill.repacks + (if m.repack then 1 else 0) } }

/-- SWING (R152 steps 5 and 6): the lines left at the hold are copied, and the swing takes effect. -/
def Chip.swing (s : Chip) (i : Nat) (obs : List (Fin 64 × Obs)) : Chip :=
  match Tab.find s.lauter.slots i with
  | none => s
  | some m =>
    if m.stage ≠ .holding ∨ m.paused ∨ s.inBurst ∨ !s.journalRoom 1 then s
    else
      let (ok, s) := s.useOwn m.page
      let (x, s) := if ok then s.endPass m obs else (m, s)
      match Tab.find s.lauter.slots i with
      | none => s
      | some now => if !ok ∨ now.paused then s else if s.outgrown x then s.abandon i else s.swingNow i x

/-- SOURCE_RELEASE (R152 step 7). -/
def Chip.sourceRelease (s : Chip) (i : Nat) : Chip :=
  match Tab.find s.lauter.slots i with
  | some m => if m.stage = .swung then { s with lauter := { s.lauter with slots := Tab.del s.lauter.slots i } } else s
  | none => s

/-! ### Expansion and space (R193, R199) -/

/-- The DDR5 channels that an expanded page may take: placement's, but none that serves nothing now (R194, R278). -/
def Chip.expandChans (s : Chip) (p : Nat) : List Nat := (s.placeChans .ddr (s.accessRegion (4096 * p))).filter (fun n => !s.ddrShut n)

/-- An expansion takes effect (R193): the page rests plain at a new place, the lines `bad` poisoned, and the lines whose writeback started
it reach it. -/
def Chip.expandNow (s : Chip) (p bad : Nat) (lines : List Nat) : Chip :=
  let r := s.page p
  let chans := s.expandChans p
  let (c, s) := s.chooseChan chans
  let (x, s) := s.placeAt p .ddr (s.poolChan (c.getD 0) chans) (false, 63) r
  let s := (((s.commitPage p { x with gen := (r.gen + 1) % 16 }).setGrist p []).poisonLines p bad).freshMacs p
  let s := { s with mill := { s.mill with
    expanding := Tab.del s.mill.expanding p, expandTc := Tab.del s.mill.expandTc p, expansions := s.mill.expansions + 1 } }
  lines.foldl (fun s ln => s.cleanLine ln) s

/-- EXPANSION_COMPLETE (R193, R194): every segment is decoded; a segment that does not decode or fails its check is poisoned whole
(R213). -/
def Chip.expansionComplete (s : Chip) (p : Nat) (obs : List (Fin 64 × Obs)) : Chip :=
  match Tab.find s.mill.expanding p with
  | none => s
  | some lines =>
    let r := s.page p
    if (r.st = .ddr ∧ s.ddrBlocked r.ch) ∨ !s.tierRoom .ddr true ∨ s.expandChans p = [] ∨ !s.journalRoom 1 then s
    else
      let (ok, u) := s.useOwn p
      let (bad, u) := if ok then u.readLines p (2 ^ 64 - 1) true obs 3 else (0, u)
      if !ok ∨ (r.st = .ddr ∧ u.ddrBlocked r.ch) then u else (u.expandNow p bad lines).watchCapacity s

/-- The access waits for `why` on page `p`. -/
def Wait.onPage (w : Wait) (why : WaitWhy) (p : Nat) : Bool := decide (w.why = why ∧ pageNo w.acc.dla = p)

/-- SPACE_AVAILABLE (R199). -/
def Chip.spaceAvailable (s : Chip) (p : Nat) : Chip := s.rerun (fun w => w.onPage .space p)

/-- A page whose first write waited too long becomes POISONED without storage, and what waits for it completes without effect. -/
def Chip.expirePage (s : Chip) (why : WaitWhy) (p : Nat) : Chip :=
  (s.poisonPage p).rerun (fun w => w.onPage why p)

/-- SPACE_WAIT_EXPIRY (R199). -/
def Chip.spaceWaitExpiry (s : Chip) (p : Nat) : Chip :=
  if s.waits.any (fun w => w.onPage .space p) then
    ({ s with mill := { s.mill with spacePoisoned := s.mill.spacePoisoned + 1 } } : Chip).expirePage .space p
  else s

/-- MIRROR_WAIT_EXPIRY (R262). -/
def Chip.mirrorWaitExpiry (s : Chip) (p : Nat) : Chip :=
  if s.waits.any (fun w => w.onPage .mirror p) then s.expirePage .mirror p else s

end Sys2Proof.Machine
end

