-- ==== Sys2Proof/Machine/MapZone.lean ====
section
/-!
DEFINITION. Machine/MapZone.lean: the journalled map zone: its drain, checkpoints and two copies (R164, R165), the rebuild of the map at
power-up (R161, R166), and the residence of page tables in the HBM mirror (R147).
-/
namespace Sys2Proof.Machine

/-! ### Journal and zone (R164, R165) -/

/-- JOURNAL_SPACE_FREED (R165): updates that wait enter the buffer, and writes that wait for them go on. -/
def Chip.journalSpaceFreed (s : Chip) : Chip :=
  let s := s.journalFill
  if s.journalRoom 1 then s.rerun (fun w => decide (w.why = .journal)) else s

/-- The zone copy on NVM channel `c` (R164). -/
def Chip.zone (s : Chip) (c : Nat) : Zone := Tab.get {} s.lauter.zones c

/-- The newest copy of the map zone. -/
def Chip.newestZone (s : Chip) : Zone := s.lauter.zones.foldl (fun z e => if z.stamp < e.2.stamp then e.2 else z) {}

/-- Every zone channel that is ONLINE takes the zone `z`: each copy is complete (R164). -/
def Chip.zoneWrite (s : Chip) (z : Zone) : Chip :=
  let z := { z with stamp := s.newestZone.stamp + 1 }
  { s with lauter := { s.lauter with zones := s.zoneOnline.foldl (fun t c => Tab.set t c z) s.lauter.zones } }

/-- Journal entries that the ring of a zone holds: 32 bytes each in the data lines of its blocks (R163, R295). -/
def Root.ringEntries (r : Root) : Nat := (r.listCount - r.ringFirst) * (2096640 / 32)

/-- A root record as it says now where the zone stands (R295): `clean` as given. -/
def Chip.rootNow (s : Chip) (c : Nat) (clean : Bool) (r : Root) : Root :=
  { r with
    zone := s.zoneChans.contains c, clean := clean, zoneChannels := s.cfg Obj.lauterZoneChannels
    ringHead := if r.ringEntries = 0 then 0 else (s.zone c).head % r.ringEntries, checkpoint := s.lauter.checkpoint }

/-- Kiln rewrites the roots of the packages that hold a zone copy, or held one (R295, R327). -/
def Chip.zoneRoots (s : Chip) (clean : Bool) : Chip :=
  let chans := (s.onlineChans .nvm).map (· - 8)
  (chans.filter (fun c => s.zoneChans.contains c || (s.nvm c).roots.any (·.zone))).foldl (fun s c =>
    let x := s.nvm c
    s.setNvm c { x with roots := x.roots.map (fun r => r.rewrite (s.rootNow c clean)) }) s

/-- Entries of the ring after the newest checkpoint. -/
def keepAfter (q : Nat) (l : List JEntry) : List JEntry := l.filter (fun e => decide (diff32 e.seq (q + 1) < 2 ^ 31))

/-- Records written in place (R164): a page record or a directory entry; never a MIGRATE entry. -/
def applyEntries (base : Tab Nat) (l : List JEntry) : Tab Nat :=
  l.foldl (fun t e => if e.kind = 1 ∨ e.kind = 2 then Tab.put 0 t e.key e.payload else t) base

/-- The base tables become current up to the ring's last entry, which a CHECKPOINT entry says (R164). -/
def Chip.checkpointNow (s : Chip) : Chip :=
  let z := s.newestZone
  match z.ring.getLast? with
  | none => s
  | some e =>
    let left := keepAfter e.seq z.ring
    let s := s.zoneWrite { z with base := applyEntries z.base z.ring, ring := left, head := wrap32 (z.head + (z.ring.length - left.length)) }
    (({ s with lauter := { s.lauter with checkpoint := e.seq } } : Chip).zoneRoots false).jAppend 3 0 e.seq 0

/-- JOURNAL_DRAIN (R164): the oldest `n` entries reach the zone's ring; then, where asked, a checkpoint. With one zone channel not ONLINE one
copy is written. -/
def Chip.journalDrain (s : Chip) (n : Nat) (checkpoint : Bool) : Chip :=
  if s.inBurst ∨ s.zoneOnline = [] ∨ (s.lauter.journal = [] ∧ !checkpoint) then s
  else
    let z := s.newestZone
    let s := s.zoneWrite { z with ring := z.ring ++ s.lauter.journal.take n }
    let s := ({ s with lauter := { s.lauter with journal := s.lauter.journal.drop n } } : Chip).journalFill
    let s := if s.zoneOnline.length = 1 then s.raise 51 else s
    if checkpoint then s.checkpointNow else s

/-- The zone copy of a channel that empties moves to another ONLINE NVM channel, and lauter.zone_channels is updated (R168). -/
def Chip.moveZone (s : Chip) (n : Nat) : Chip :=
  let v := s.cfg Obj.lauterZoneChannels
  let others := ((s.onlineChans .nvm).map (· - 8)).filter (fun c => !s.zoneChans.contains c)
  if !s.zoneChans.contains n then s
  else
    let (c, s) := s.chooseChan others
    match c with
    | none => s
    | some c =>
      let s := { s with lauter := { s.lauter with zones := Tab.put {} (Tab.del s.lauter.zones n) c s.newestZone } }
      (s.commitRwp Obj.lauterZoneChannels 1 (if bitsOf v 0 3 = n then setField v 0 3 c else setField v 4 3 c)).2.zoneRoots false

/-- A write to lauter.zone_channels: the zone goes where it says (R164, R295). -/
def Chip.zoneFollow (s : Chip) : Chip :=
  if s.lauter.zones = [] then s
  else
    let s := s.zoneWrite s.newestZone
    ({ s with lauter := { s.lauter with zones := s.lauter.zones.filter (fun e => s.zoneChans.contains e.1) } } : Chip).zoneRoots false

/-! ### The rebuild of the map (R161, R166) -/

/-- The state of a page record with a code (R85). -/
def PgState.ofCode (c : Nat) : PgState :=
  match c with | 1 => .hbm | 2 => .ddr | 3 => .nvm | 4 => .migrating | 5 => .poisoned | _ => .unwritten

/-- A page record of a payload (R85). -/
def PageRec.ofPayload (v : Nat) : PageRec :=
  { st := .ofCode (bitsOf v 0 3), grist := bitOf v 3, sectors := bitsOf v 4 6, ch := bitsOf v 10 3, loc := bitsOf v 13 35
    heat := bitsOf v 48 8, gen := bitsOf v 56 4 }

/-- The state of an extent with a code (R84). -/
def ExtState.ofCode (c : Nat) : ExtState := if c = 1 then .offered else if c = 2 then .accepted else .releasing

/-- A journal entry of its 32 bytes (R163). -/
def JEntry.ofImage (b : List Byte) : JEntry :=
  { seq := fieldLE b 0 4, kind := fieldLE b 4 1, aux := fieldLE b 5 1, target := fieldLE b 8 8 % 2 ^ 34, payload := fieldLE b 0x10 8 }

/-- The bytes of an entry as they are read back: with the bits found flipped. -/
def readEntryBytes (e : JEntry) (bad : ZoneBad) : List Byte :=
  let x := ((bad.entries.find? (fun f => decide (f.1.toNat = e.seq))).map (·.2)).getD 0
  bytesLE 32 (natLE e.image ^^^ x.toNat)

/-- The entries that the replay takes, in seq order, and how many it skips (R166). -/
def replayEntries (l : List JEntry) (bad : ZoneBad) : List JEntry × Nat :=
  let bs := l.map (fun e => readEntryBytes e bad)
  ((bs.filter jIntact).map JEntry.ofImage, countIf (fun b => !jIntact b) bs)

/-- The payload of a record as copy `second` of the zone gives it, where it passes its check (R83, R164). -/
def Zone.read (z : Zone) (second : Bool) (key : Nat) (bad : ZoneBad) : Option Nat :=
  let x := ((bad.records.find? (fun f => decide (f.1 = second ∧ f.2.1.toNat = key))).map (·.2.2)).getD 0
  let v := recOf (Tab.get 0 z.base key) ^^^ x.toNat
  if v = recOf v then some (v % 2 ^ 64) else none

/-- The base tables as they are read back (R164, R166): of the newest copy, or where a record fails there, of the other; the records that
fail in both are lost. -/
def Chip.readBase (s : Chip) (bad : ZoneBad) : Tab Nat × List Nat :=
  let a := s.zone (s.zoneChans.getD 0 0)
  let b := s.zone (s.zoneChans.getD 1 0)
  let second := decide (a.stamp < b.stamp)
  let (x, y) := if second then (b, a) else (a, b)
  x.base.foldl (fun (acc : Tab Nat × List Nat) e =>
    match x.read second e.1 bad, (if x.stamp = y.stamp then y.read (!second) e.1 bad else none) with
    | some v, _ => (Tab.put 0 acc.1 e.1 v, acc.2)
    | none, some v => (Tab.put 0 acc.1 e.1 v, acc.2)
    | none, none => (acc.1, acc.2 ++ [e.1])) ([], [])

/-- The directory entries of the rebuilt tables: block number and payload. -/
def Chip.dirsOf (s : Chip) (t : Tab Nat) : List (Nat × Nat) :=
  (t.filter (fun e => decide (2 ^ 40 ≤ e.1 ∧ e.2 % 4 ≠ 0))).map (fun e =>
    (s.cfgAt Obj.dcBase ((e.1 - 2 ^ 40) / 2 ^ 25) / 2097152 + (e.1 - 2 ^ 40) % 2 ^ 25, e.2))

/-- A block joins the extents rebuilt so far, the last first: a run of blocks with equal entries is one extent, unless one is known to have
begun there (the directory holds no bounds; DESIGN CHOICE, log entry 161). -/
def Chip.joinBlock (s : Chip) (acc : List Extent) (d : Nat × Nat) : List Extent :=
  let e : Extent := { base := 2097152 * d.1, len := 2097152, cask := bitsOf d.2 2 10, group := bitsOf d.2 14 2, region := bitsOf d.2 16 3
                      st := .ofCode (bitsOf d.2 12 2) }
  match acc with
  | x :: r =>
    if x.base + x.len = e.base ∧ (x.cask, x.group, x.region, x.st) = (e.cask, e.group, e.region, e.st)
        ∧ !s.map.extents.any (fun k => decide (k.base = e.base)) then { x with len := x.len + 2097152 } :: r
    else e :: x :: r
  | [] => [e]

/-- The page records of the rebuilt tables, by page number; HBM, DDR5 and pending pages are UNWRITTEN (R325). -/
def pagesOfBase (t : Tab Nat) (tables : Tab Nat) : Tab PageRec :=
  (t.filter (fun e => decide (e.1 < 2 ^ 40))).foldl (fun ps e =>
    match tables.find? (fun b => decide (b.2 = e.1 % 2 ^ 25)) with
    | none => ps
    | some b =>
      let r := PageRec.ofPayload e.2
      let keep := decide (r.st = .poisoned ∨ (r.st = .nvm ∧ r.loc ≠ pendingLoc))
      Tab.put {} ps (512 * b.1 + e.1 / 2 ^ 25) (if keep then r else {})) []

/-- The pages of a record that is lost (R88): its own, or all of its block. -/
def Chip.lostPages (s : Chip) (key : Nat) (tables : Tab Nat) : List Nat :=
  if 2 ^ 40 ≤ key then
    let b := s.cfgAt Obj.dcBase ((key - 2 ^ 40) / 2 ^ 25) / 2097152 + (key - 2 ^ 40) % 2 ^ 25
    (List.range 512).map (512 * b + ·)
  else ((tables.filter (fun b => decide (b.2 = key % 2 ^ 25))).map (fun b => 512 * b.1 + key / 2 ^ 25))

/-- MAP_REBUILD (R161, R166): once after power-up, in TRAINING, the base tables are read, the entries after the newest checkpoint replayed,
a bad one skipped and counted, and both mirrors rebuilt. -/
def Chip.mapRebuild (s : Chip) (bad : ZoneBad) : Chip :=
  if s.lauter.rebuilt ∨ s.mode.current ≠ .training then s
  else
    let (base, lost) := s.readBase bad
    let (es, skipped) := replayEntries (s.newestZone.ring ++ s.lauter.journal) bad
    let t := applyEntries base es
    let dirs := s.dirsOf t
    let tables := (dirs.filter (fun d => decide (d.2 % 4 = 2))).foldl (fun ts d => Tab.set ts d.1 (bitsOf d.2 20 25)) []
    let pages := pagesOfBase t tables
    let gone := (s.map.pages.map (·.1)).filter (fun p => (Tab.find pages p).isNone)
    let exts := (dirs.foldl s.joinBlock []).reverse
    let s := gone.foldl (fun s p => s.wipePage p) s
    let s := { s with
      lauter := { s.lauter with slots := [], rebuilt := true }
      map := { s.map with
        extents := exts, tables := tables, pages := pages, cache := [], badRecs := [], repairing := []
        recordErrors := wrap32 (s.map.recordErrors + skipped) } }
    let s := if 0 < skipped then s.raise 50 else s
    lost.foldl (fun s k =>
      let s := ({ s with map := { s.map with recordsLost := wrap32 (s.map.recordsLost + 1) } } : Chip).raise 49
      (s.lostPages k tables).foldl (fun s p => s.poisonPage p) s) s

/-! ### Map residence (R147) -/

/-- Bytes of the region's allocated page tables in the HBM mirror. -/
def Chip.tableBytes (s : Chip) (r : Nat) : Nat :=
  8192 * countIf (fun e => decide (s.accessRegion (2097152 * e.1) = r)) s.map.tables

/-- The region's page tables fit the resident share beside the mirror in use (R147, R262). -/
def Chip.tablesFit (s : Chip) (r : Nat) : Bool :=
  bitOf s.map.resident r || decide (s.mirrorBytes + s.tableBytes r + 16384 * s.cfg Obj.cntDumpRecords ≤ s.residentMib * mib)

/-- MAP_RESIDENT_WRITE (R147). -/
def Chip.setMapResident (s : Chip) (r v : Nat) : Nat × Chip :=
  if 1 < v then (Abort.outOfRange, s)
  else if v = 1 ∧ !s.tablesFit r then (Abort.resourceOwned, s)
  else s.commitRwp (objAt Obj.policyMapResident r) 1 v

/-- MAP_RESIDENT_EFFECT (R147): the page tables are copied, or released. -/
def Chip.mapResidentEffect (s : Chip) (r : Nat) : Chip :=
  let v := decide (s.cfgAt Obj.policyMapResident r = 1)
  if v = bitOf s.map.resident r ∨ s.inBurst ∨ (v ∧ !s.tablesFit r) then s
  else { s with map := { s.map with resident := setBit s.map.resident r v } }

end Sys2Proof.Machine
end

