-- ==== Sys2Proof/Machine/Channels.lean ====
section
/-!
DEFINITION. Machine/Channels.lean: DDR5 and NVM channels as Lauter brings them online and empties them (R167, R168), and the retirement of a
smaller unit (R169).
-/
namespace Sys2Proof.Machine

/-- The channel has passed training and is not frozen (R167). -/
def Chip.chanUsable (s : Chip) (n : Nat) : Bool :=
  if n < 8 then decide ((s.ddr n).train = 1) && decide ((s.ddr n).freeze = 0) else (s.nvm (n - 8)).passed

/-- The second channel of a mirrored pair takes no command (R277). -/
def Chip.pairSecond (s : Chip) (n : Nat) : Bool := decide (n < 8 ∧ n % 2 = 1) && bitOf (s.cfg Obj.ddrMirrorPairs) (n / 2)

/-- The power domain of channel `n` (R533). -/
def chanDomain (n : Nat) : Nat := 9 + n

/-- ONLINE (R167, R312, R535): the channel's space joins its tier. -/
def Chip.chanOnline (s : Chip) (n : Nat) : Nat × Chip :=
  if s.chanState n ≠ .offline ∨ s.pairSecond n ∨ s.domain (chanDomain n) ≠ .on then (Abort.channelState, s)
  else if !s.chanUsable n then (Abort.resourceOwned, s)
  else
    let s := s.setChanState n .online
    (0, { s with lauter := { s.lauter with capPages := Tab.put 0 s.lauter.capPages n (s.chanCap n) } })

/-- EVACUATE (R167, R168): migrations to the channel are abandoned (R158). -/
def Chip.chanEvacuate (s : Chip) (n : Nat) : Nat × Chip :=
  if s.chanState n ≠ .online then (Abort.channelState, s)
  else
    let before := s
    let s := (s.setChanState n .evacuating).watchCapacity before
    let goal := s.lauter.slots.filter (fun e => decide (e.2.stage ≠ .swung ∧ e.2.dst.st ≠ .hbm ∧ tierChan e.2.dst.st e.2.dst.ch = n))
    let s := goal.foldl (fun s e => s.abandon e.1) s
    (0, if s.evacBlocked n then s.raise 56 else s)

/-- EVACUATION_COMPLETE (R168): no page rests on the channel, and none moves to it. -/
def Chip.evacuationComplete (s : Chip) (n : Nat) : Chip :=
  let t := if n < 8 then PgState.ddr else .nvm
  if s.chanState n ≠ .evacuating ∨ s.pagesOn t (n % 8) ≠ [] ∨ (t = .ddr ∧ s.stopped n)
      ∨ s.lauter.slots.any (fun e => decide (e.2.src.st = t ∧ e.2.src.ch = n % 8)) then s
  else
    let s := s.setChanState n .evacuated
    if 8 ≤ n then s.moveZone (n - 8) else s

/-- OFFLINE (R167): the units retired on the channel are allowed again (R169). -/
def Chip.chanOffline (s : Chip) (n : Nat) : Nat × Chip :=
  if (s.chanState n ≠ .evacuated ∧ s.chanState n ≠ .offline) ∨ s.pairSecond n then (Abort.channelState, s)
  else
    let s := s.setChanState n .offline
    let mine := fun (v : Nat) => decide (bitsOf v 0 4 = (if n < 8 then 2 else 3) ∧ bitsOf v 4 4 = n % 8)
    (0, { s with lauter := { s.lauter with excluded := s.lauter.excluded.filter (fun v => !mine v) } })

/-- CANCEL_EVACUATE (R167). -/
def Chip.chanCancel (s : Chip) (n : Nat) : Nat × Chip :=
  if s.chanState n ≠ .evacuating then (Abort.channelState, s) else (0, s.setChanState n .online)

/-- A write to chan.command (R167). -/
def Chip.chanCommand (s : Chip) (n v : Nat) : Nat × Chip :=
  match v with
  | 1 => s.chanOnline n
  | 2 => s.chanEvacuate n
  | 3 => s.chanOffline n
  | 4 => s.chanCancel n
  | _ => (Abort.outOfRange, s)

/-- A lauter.retire value that R169 lays out. -/
def retireOk (v : Nat) : Bool :=
  let t := bitsOf v 0 4
  let scope := bitsOf v 8 4
  let unit := bitsOf v 12 35
  decide (bitsOf v 4 4 ≤ 7 ∧ bitsOf v 47 17 = 0) &&
    (if t = 2 then decide (1 ≤ scope ∧ scope ≤ 3 ∧ (scope = 1 ∨ unit < 512) ∧ (scope ≠ 3 ∨ unit < 16))
     else decide (t = 3 ∧ 1 ≤ scope ∧ scope ≤ 2 ∧ (scope = 1 ∨ unit < 2 ^ 20)))

/-- RETIRE (R169). -/
def Chip.retire (s : Chip) (v : Nat) : Nat × Chip :=
  if !retireOk v then (Abort.outOfRange, s)
  else if s.lauter.retireStatus = 1 ∨ s.lauter.retireStatus = 3 then (Abort.resourceOwned, s)
  else (0, { s with lauter := { s.lauter with
    retireStatus := 1, retireUnit := v, retireTc := s.tb.tc, excluded := if s.lauter.excluded.contains v then s.lauter.excluded else s.lauter.excluded ++ [v] } })

end Sys2Proof.Machine
end

