-- ==== Sys2Proof/Machine/Extents.lean ====
section
/-!
DEFINITION. Machine/Extents.lean: extents: offers, acceptance, withdrawal and release (R57, R58, R170 to R174).
-/
namespace Sys2Proof.Machine

/-- The blocks of an extent, by number. -/
def Extent.blocks (e : Extent) : List Nat := (List.range (e.len / 2097152)).map (fun i => e.base / 2097152 + i)

/-- Every block's directory entry is journalled as it stands. -/
def Chip.commitExtent (s : Chip) (e : Extent) : Chip := e.blocks.foldl (fun s b => s.commitDir b) s

/-- A dynamic capacity record goes to every up head of a group (R57, R173). -/
def Chip.postDc (s : Chip) (kind : DcKind) (e : Extent) : Chip :=
  s.postEvent ((List.range 4).filter (fun h => decide (s.cfgAt Obj.headGroup h = e.group))) 4 (fun _ => .dc kind e.base e.len e.cask)

/-- The extent named by base and length (R170). -/
def Chip.extentNamed (s : Chip) (region base len : Nat) : Option Extent :=
  s.map.extents.find? (fun e => decide (e.base = base ∧ e.len = len ∧ e.region = region))

/-- An extent is replaced. -/
def Chip.setExtent (s : Chip) (old e : Extent) : Chip :=
  { s with map := { s.map with extents := s.map.extents.map (fun x => if x = old then e else x) } }

/-- An extent whose blocks are all UNMAPPED is gone. -/
def Chip.dropExtent (s : Chip) (e : Extent) : Chip :=
  let s := { s with map := { s.map with extents := s.map.extents.filter (fun x => decide (x ≠ e)) } }
  (s.commitExtent e).keyEmpty e.cask

/-- OFFER (R171). -/
def Chip.extentOffer (s : Chip) (region cask group base len : Nat) : Nat × Chip :=
  let blk := s.cfgAt Obj.dcBlockMib region * mib
  let b := s.cfgAt Obj.dcBase region
  if len = 0 ∨ base % blk ≠ 0 ∨ len % blk ≠ 0 ∨ base < b ∨ b + s.cfgAt Obj.dcLength region < base + len then (Abort.outOfRange, s)
  else if (s.cask cask).state = .free then (Abort.caskState, s)
  else if (s.caskDomain cask).isSome ∧ !s.sharable region then (Abort.outOfRange, s)
  else if s.map.extents.any (fun e => e.blocks.any (fun k =>
      !e.freed.contains (k - e.base / 2097152) && overlaps (2097152 * k) 2097152 base len)) then (Abort.resourceOwned, s)
  else
    let e : Extent := { base := base, len := len, cask := cask, group := group, region := region, st := .offered }
    let s := { s with map := { s.map with extents := s.map.extents ++ [e] } }
    (0, (s.commitExtent e).postDc .add e)

/-- WITHDRAW (R170, R172). -/
def Chip.extentWithdraw (s : Chip) (region base len : Nat) : Nat × Chip :=
  match s.extentNamed region base len with
  | none => (Abort.outOfRange, s)
  | some e => if e.st = .offered then (0, s.dropExtent e) else (Abort.resourceOwned, s)

/-- OFFER_TIMEOUT (R57, R172). -/
def Chip.offerTimeout (s : Chip) (base len : Nat) : Chip :=
  match s.map.extents.find? (fun e => decide (e.base = base ∧ e.len = len ∧ e.st = .offered)) with
  | some e => s.dropExtent e
  | none => s

/-- Steps 1 to 3 of a release (R174): releasing, migrations abandoned, and lines dropped from the cache and HBM. -/
def Chip.startRelease (s : Chip) (e : Extent) : Chip :=
  let s := (s.setExtent e { e with st := .releasing }).commitExtent e
  let inside := fun (p : Nat) => decide (e.base ≤ 4096 * p ∧ 4096 * p < e.base + e.len)
  let moving := (s.lauter.slots.filter (fun x => inside x.2.page && decide (x.2.stage ≠ .swung))).map (·.1)
  let s := moving.foldl (fun s i => s.abandon i) s
  let s := s.dropLines (lineNo e.base) (e.len / 64)
  { s with kiln := { s.kiln with absorbed := s.kiln.absorbed.filter (fun x => !inside x.1) } }

/-- REQUEST_RELEASE (R170, R173). -/
def Chip.extentRequestRelease (s : Chip) (region base len : Nat) : Nat × Chip :=
  match s.extentNamed region base len with
  | none => (Abort.outOfRange, s)
  | some e => if e.st = .accepted then (0, s.postDc .release e) else (Abort.resourceOwned, s)

/-- FORCE_RELEASE (R170, R173). -/
def Chip.extentForceRelease (s : Chip) (region base len : Nat) : Nat × Chip :=
  match s.extentNamed region base len with
  | none => (Abort.outOfRange, s)
  | some e => if e.st = .accepted then (0, ((s.postDc .forced e).raise 57 0xFF e.base).startRelease e) else (Abort.resourceOwned, s)

/-- A write to lauter.extent_command (R170): its reserved fields, then the op; the two addresses keep their 64 bits. -/
def Chip.extentCommand (s : Chip) (v : Nat) : Nat × Chip :=
  let op := bitsOf v 0 8
  let region := bitsOf v 8 8
  let cask := bitsOf v 16 10
  let group := bitsOf v 32 8
  let base := bitsOf v 64 64
  let len := bitsOf v 128 64
  if op = 0 ∨ 4 < op ∨ 7 < region ∨ bitsOf v 26 6 ≠ 0 ∨ bitsOf v 40 24 ≠ 0 ∨ bitsOf v 192 64 ≠ 0 ∨ (op = 1 ∧ 3 < group) then
    (Abort.outOfRange, s)
  else match op with
    | 1 => s.extentOffer region cask group base len
    | 2 => s.extentWithdraw region base len
    | 3 => s.extentRequestRelease region base len
    | _ => s.extentForceRelease region base len

/-- Add Dynamic Capacity Response (R57, R172): every extent named is accepted, or none. -/
def Chip.addDcResponse (s : Chip) (h : Nat) (exts : List (Nat × Nat)) : MboxRc × Chip :=
  let mine := fun (x : Nat × Nat) => s.map.extents.find? (fun e =>
    decide (e.base = x.1 ∧ e.len = x.2 ∧ e.st = .offered ∧ e.group = s.cfgAt Obj.headGroup h))
  if exts.all (fun x => (mine x).isSome) then
    (.success, exts.foldl (fun s x => match mine x with
      | some e => (s.setExtent e { e with st := .accepted }).commitExtent e
      | none => s) s)
  else (.invalidInput, s)

/-- The extent holds a part of the Hopper queue table (R58, R398). -/
def Chip.holdsTable (s : Chip) (e : Extent) : Bool :=
  s.tableValid && overlaps e.base e.len (s.entryDla 0) 67108864

/-- Release Dynamic Capacity (R58). -/
def Chip.releaseDc (s : Chip) (h : Nat) (exts : List (Nat × Nat)) : MboxRc × Chip :=
  let mine := fun (x : Nat × Nat) => s.map.extents.find? (fun e =>
    decide (e.base = x.1 ∧ e.len = x.2 ∧ e.st = .accepted ∧ e.group = s.cfgAt Obj.headGroup h))
  if exts.all (fun x => match mine x with | some e => !s.holdsTable e | none => false) then
    (.success, exts.foldl (fun s x => match mine x with | some e => s.startRelease e | none => s) s)
  else (.invalidInput, s)

/-- lauter.releasing_mib (R174). -/
def Chip.releasingMib (s : Chip) : Nat :=
  s.map.extents.foldl (fun a e => if e.st = .releasing then a + e.len / mib - 2 * e.freed.length else a) 0

/-- BLOCK_STORAGE_FREE (R174 step 4): a block of a releasing extent, once no access past translation waits for it. -/
def Chip.blockStorageFree (s : Chip) (b : Nat) : Chip :=
  let dla := 2097152 * b
  match s.extentOf dla with
  | none => s
  | some e =>
    if e.st ≠ .releasing ∨ s.inBurst ∨ s.waits.any (fun w => decide (blockNo w.acc.dla = b))
        ∨ s.mill.expanding.any (fun x => decide (x.1 / 512 = b)) then s
    else
      let out := fun (p : Nat) => !decide (p / 512 = b)
      let ps := (s.map.pages.map (·.1)).filter (fun p => !out p)
      let s := ps.foldl (fun s p => s.wipePage p) s
      let s := { s with
        map := { s.map with
          pages := s.map.pages.filter (fun x => out x.1), tables := Tab.del s.map.tables b, wrote := s.map.wrote.filter (fun x => out x.1)
          discards := s.map.discards.filter (fun x => out x.1), repairing := s.map.repairing.filter out }
        lauter := { s.lauter with
          heat := s.lauter.heat.filter (fun x => out x.1), spill := s.lauter.spill.filter (fun x => out x.1)
          promote := s.lauter.promote.filter out, demote := s.lauter.demote.filter out, low := s.lauter.low.filter out
          barred := s.lauter.barred.filter out
          slots := s.lauter.slots.filter (fun x => out x.2.page) } }
      let x := { e with freed := e.freed ++ [b - e.base / 2097152] }
      let s := s.setExtent e x
      if x.freed.length = e.len / 2097152 then
        ({ s with map := { s.map with extents := s.map.extents.filter (fun k => decide (k ≠ x)) } } : Chip).commitDir b
          |>.keyEmpty e.cask
      else s.commitDir b

end Sys2Proof.Machine
end

