-- ==== Sys2Proof/Machine/Cleaner.lean ====
section
/-!
DEFINITION. Machine/Cleaner.lean: the cache's cleaner and flush (R244, R252), stream prefetch (R248, R249, R560), ways that become
eligible (R242), and the scratchpad's commands (R253 to R257).
-/
namespace Sys2Proof.Machine

/-- Dirty lines now held. -/
def Chip.dirtyLines (s : Chip) : Nat := countIf (fun e => e.2.dirty) s.cache.lines

/-- Heavy dirty lines now held. -/
def Chip.heavyLines (s : Chip) : Nat := countIf (fun e => e.2.dirty && s.heavyNow e.1) s.cache.lines

/-- A flush ends with the last dirty line (R252). -/
def Chip.flushDone (s : Chip) : Chip :=
  if s.cache.flushing ∧ s.dirtyLines = 0 then { s with cache := { s.cache with flushing := false } } else s

/-- A dirty line is written back if its tier takes it now. -/
def Chip.writeback (s : Chip) (ln : Nat) : Chip :=
  match s.tierWait (64 * ln) with
  | none => s.cleanLine ln
  | some .expansion => s.startExpansion ln
  | some _ => s

/-- The cleaner can do something about a dirty line now: its tier takes it, or its page is to be expanded. -/
def Chip.cleanable (s : Chip) (ln : Nat) (c : CLine) : Bool :=
  c.dirty && (match s.tierWait (64 * ln) with
    | none => true
    | some .expansion => (Tab.find s.mill.expanding (ln / 64)).isNone
    | some _ => false)

/-- A light line that the cleaner takes (R238, R244, R252): an old one, one whose region's policy no longer keeps lines dirty, or any during a
flush. -/
def Chip.cleansLight (s : Chip) (ln : Nat) (c : CLine) : Bool := s.cache.flushing || decide (12 < c.age ∨ s.policyOf (64 * ln) ≠ 0)

/-- The cleaner takes a dirty line now (R244): heavy lines first, the oldest first, then light ones. -/
def Chip.cleanNext (s : Chip) (ln : Nat) (c : CLine) : Bool :=
  let heavy := s.cache.lines.filter (fun e => s.cleanable e.1 e.2 && s.heavyNow e.1)
  s.cleanable ln c && (if s.heavyNow ln then heavy.all (fun e => decide (e.2.age ≤ c.age)) else heavy.isEmpty && s.cleansLight ln c)

/-- CLEANER_WRITEBACK (R244): in OPEN and QUIET time. -/
def Chip.cleanerWriteback (s : Chip) (dla : Nat) : Chip :=
  match s.cached dla with
  | none => s
  | some c =>
    if !s.workMode ∨ s.inBurst ∨ s.win.prologueOn then s
    else if s.cleanNext (lineNo dla) c then (s.writeback (lineNo dla)).flushDone
    else s

/-- cache.flush (R252). -/
def Chip.cacheFlush (s : Chip) (v : Nat) : Nat × Chip :=
  if v ≠ 1 then (Abort.outOfRange, s) else (0, ({ s with cache := { s.cache with flushing := true } } : Chip).flushDone)

/-- WAY_ELIGIBLE (R242): writes and folds that wait for a way of the set go on. -/
def Chip.wayEligible (s : Chip) (dla : Nat) : Chip :=
  s.rerun (fun w => decide (w.why = .way ∧ cacheSet (lineNo w.acc.dla) = cacheSet (lineNo dla)))

/-- The port of a master (R558). -/
def portOf (m : Nat) : Option Nat := if m < 4 then some m else if 0x10 ≤ m ∧ m < 0x18 then some (m - 0x0C) else none

/-- A killed prefetch (R249, R560): at most 255 uncharged kills per port. -/
def Chip.prefetchKilled (s : Chip) (m : Nat) : Chip :=
  let s := { s with cache := { s.cache with prefKilled := s.cache.prefKilled + 1 } }
  match portOf m with
  | some p => { s with cnt := { s.cnt with kills := Tab.upd 0 s.cnt.kills p (fun n => min 255 (n + 1)) } }
  | none => s

/-- STREAM_PREFETCH (R248, R249): a started tracker of the master reaches the line; the read is checked, dropped silently or carried
out into the side buffer. -/
def Chip.streamPrefetch (s : Chip) (m dla : Nat) (killed : Bool) (o : Obs) : Chip :=
  let ln := lineNo dla
  let t := s.cache.trackers.find? (fun t =>
    decide (t.master = m ∧ t.page = ln / 64 ∧ t.last < ln ∧ ln ≤ t.last + s.cfg Obj.cachePrefetchDepth) && t.started)
  let a : Access := ⟨m, (t.map (·.bind)).getD .raw, .read, lineBase dla, fullMask, 0, false, true, 0, .none⟩
  let passes := match s.verdict a o with | .ok _ => true | _ => false
  let here := (s.cached dla).isSome || s.cache.side.contains ln || s.sharedLine ln
  if !s.workMode ∨ t.isNone ∨ here ∨ s.cfgAt Obj.cacheRegionPrefetch (s.accessRegion dla) ≠ 1 then s
  else if killed then s.prefetchKilled m
  else if !passes then s
  else
    let s := { s with cache := { s.cache with prefIssued := s.cache.prefIssued + 1 } }
    if (s.srcRec (ln / 64)).resting then
      let (g, s) := s.tierRead ln o true 0
      match g with
      | .good => s.sideAdd ln
      | _ => s
    else s

/-! ### Scratchpad (R253 to R257) -/

/-- The first DLA of a unit. -/
def unitBase (u : Nat) : Nat := 0x3FFFFE000000 + u * 0x400000

/-- A unit's content is gone: every valid bit clear. -/
def Chip.clearUnit (s : Chip) (u : Nat) : Chip :=
  let lo := unitBase u
  let hi := lo + 0x400000
  { s with
    cache := { s.cache with words := s.cache.words.filter (fun e => !decide (lo ≤ 8 * e.1 ∧ 8 * e.1 < hi)) }
    mem := s.mem.filter (fun e => !decide (lo ≤ e.1 ∧ e.1 < hi))
    poison := s.poison.filter (fun e => !decide (lo ≤ 64 * e.1 ∧ 64 * e.1 < hi)) }

/-- cache.scratch_clear (R255). -/
def Chip.scratchClear (s : Chip) (u : Nat) : Nat × Chip :=
  if s.cache.ways ≤ u then (Abort.outOfRange, s) else (0, s.clearUnit u)

/-- The ways that a change from `a` to `b` units converts. -/
def changedWays (a b : Nat) : List Nat := ((List.range 8).filter (fun u => decide (min a b ≤ u ∧ u < max a b))).map (fun u => 11 - u)

/-- The lines of some ways, data lines only. -/
def Chip.linesIn (s : Chip) (ws : List Nat) : List Nat := (s.cache.lines.filter (fun e => ws.contains e.2.way)).map (·.1)

/-- The duration of a change that converts these ways (R256). -/
def Chip.scratchUs (s : Chip) (ws : List Nat) : Nat := 20 + ceilDiv (6 * countIf (fun ln => s.cachedDirty (64 * ln)) (s.linesIn ws)) 1000

/-- One line leaves its way: a dirty one once its tier takes it (R256, R257, R48, R156, R193). -/
def Chip.emptyLine (s : Chip) (ln : Nat) : Chip :=
  let s := if s.cachedDirty (64 * ln) then s.writeback ln else s
  if s.cachedDirty (64 * ln) then s else s.dropCached ln

/-- Ways are cleaned and their lines dropped (R256, R257): a line whose tier does not take it now stays. -/
def Chip.cleanWays (s : Chip) (ws : List Nat) : Chip := (s.linesIn ws).foldl (fun s ln => s.emptyLine ln) s

/-- The ways hold no line (R256, R257): the change that empties them can end. -/
def Chip.waysEmpty (s : Chip) (ws : List Nat) : Bool := decide (s.linesIn ws = [])

/-- The MAC lines of ways that leave the cache are dropped. -/
def Chip.dropMacs (s : Chip) (ws : List Nat) : Chip :=
  { s with cache := { s.cache with macLines := s.cache.macLines.filter (fun e => !ws.contains e.2.way) } }

/-- SCRATCH_WAYS_WRITE (R256): the value is committed, and the conversion is a scheduled operation. -/
def Chip.setScratchWays (s : Chip) (n : Nat) : Nat × Chip :=
  let ws := changedWays s.cache.ways n
  if 8 < n then (Abort.outOfRange, s)
  else if ws.any (fun w => decide (s.domain (28 + w / 4) ≠ .on)) then (Abort.resourceOwned, s)
  else
    let (a, s') := s.commitRwp Obj.cacheScratchWays 1 n
    if a = 0 then (0, s'.requestOp (.scratchWays s.cache.ways n) (s.scratchUs ws)) else (a, s)

/-- The conversion takes effect (R256). -/
def Chip.applyScratchWays (s : Chip) (n : Nat) : Chip :=
  let old := s.cache.ways
  let s := s.dropMacs (changedWays old n)
  let s := ((List.range 8).filter (fun u => decide (min old n ≤ u ∧ u < max old n))).foldl (fun s u => s.clearUnit u) s
  { s with cache := { s.cache with ways := n } }

end Sys2Proof.Machine
end

