-- ==== Sys2Proof/Machine/Dram.lean ====
section
/-!
DEFINITION. Machine/Dram.lean: HBM and DDR5 events and commands (R259 to R291): refresh, temperature, retry, freeze and release,
resilvering, frequency changes, training helpers, and the persist reserve's size.
-/
namespace Sys2Proof.Machine

/-! ### Refresh and temperature (R259, R265, R272 to R274) -/

/-- HBM_REFRESH (R259). -/
def Chip.hbmRefresh (s : Chip) (pc : Nat) : Chip :=
  { s with dram := { s.dram with hbmRefreshes := Tab.upd 0 s.dram.hbmRefreshes pc (· + 1) } }

/-- DDR_REFRESH (R272 to R274): an interval falls due. From a write fence to the end of
its BURST window, same-bank refreshes meet it; otherwise it is postponed while reads
wait, down to −4, or one more is pulled in while the rank is idle, up to 4. Self-refresh after a freeze of causes 2 to 4 owes none. -/
def Chip.ddrRefresh (s : Chip) (n : Nat) (load : RankLoad) : Chip :=
  let x := s.ddr n
  if !s.permits .allBankRefresh ∨ x.freeze = 2 ∨ (x.freeze = 1 ∧ x.cause ≠ 1) then s
  else match load with
    | .busy => s.setDdr n { x with balance := max (-4) (x.balance - 1) }
    | .idle => s.setDdr n { x with balance := min 4 (x.balance + 1) }
    | .other => s

/-- DIMM_TEMP_POLL (R272). -/
def Chip.dimmTemp (s : Chip) (n : Nat) (t : Int) : Chip :=
  let s := s.setDdr n { s.ddr n with temp := t }
  if 95 < t then s.raise 98 else s

/-- HBM_TEMP_CHANGE (R265). -/
def Chip.hbmTemp (s : Chip) (t : Int) : Chip :=
  let s := { s with dram := { s.dram with hbmTemp := t, doubled := decide (85 < t) } }
  if 95 < t then s.raise 99 else s

/-! ### Retry, freeze and release (R275, R281 to R285) -/

/-- DDR_ALERT (R275, R276, R281): retries up to the limit of the window class; an error that they do not clear freezes the channel. -/
def Chip.ddrAlert (s : Chip) (n : Nat) (e : DdrErr) (retries : Nat) (cleared : Bool) : Chip :=
  let limit := if s.inBurst then 1 else s.cfg Obj.ddrRetryLimit
  let x := s.ddr n
  let s := s.setDdr n { x with retries := x.retries + min retries limit }
  if cleared && decide (retries ≤ limit) then s
  else
    let (v, s) := s.takeNat
    s.freeze n (match e with | .caParity => 2 | .writeCrc => 3) (v % 2 ^ 35)

/-- FREEZE_LIMIT_EXPIRY (R283): what waits for the channel completes, and later requests are treated the same way. -/
def Chip.freezeLimit (s : Chip) (n : Nat) : Chip :=
  if s.frozen n then (s.setDdr n { s.ddr n with limit := true }).wake else s

/-- Migrations paused by the freeze of a channel go on, but for those that another freeze holds (R158). -/
def Chip.unpause (s : Chip) : Chip :=
  let hits := fun (r : PageRec) => decide (r.st = .ddr) && s.stopped r.ch
  { s with lauter := { s.lauter with slots := s.lauter.slots.map (fun (i, m) =>
      (i, { m with paused := m.paused && (hits m.src || hits m.dst) })) } }

/-- RELEASE (R284): the poison-list lines become poisoned, and what waits proceeds. -/
def Chip.unfreeze (s : Chip) (n : Nat) : Chip :=
  let x := s.ddr n
  let s := x.poisonList.foldl (fun s a => s.setPoison a true) s
  let s := s.setDdr n { s.ddr n with freeze := 0, limit := false, poisonList := [], ce := [], resilverTc := s.tb.tc }
  ((s.unpause).refreshDiagnosis).wake

/-- DDR_RELEASE (R284). -/
def Chip.ddrRelease (s : Chip) (n : Nat) : Nat × Chip := if s.frozen n then (0, s.unfreeze n) else (Abort.channelState, s)

/-- DDR_RETRAIN_RELEASE (R284): firmware training again. -/
def Chip.ddrRetrain (s : Chip) (n : Nat) (passed : Bool) : Nat × Chip :=
  if !s.frozen n then (Abort.channelState, s)
  else if passed then (0, s.unfreeze n)
  else (0, s.setDdr n { s.ddr n with cause := 4 })

/-- The pair partner carries the pair alone from now on (R284). -/
def Chip.carryAlone (s : Chip) (n : Nat) : Chip :=
  ({ s with dram := { s.dram with alone := setBit s.dram.alone (n / 2) true } } : Chip).raise 97

/-- What page records place on channel `n` is lost (R284): its migrations are abandoned, its pages POISONED, and it goes OFFLINE. -/
def Chip.loseChannel (s : Chip) (n : Nat) : Chip :=
  let hits := fun (r : PageRec) => decide (r.st = .ddr ∧ r.ch = n)
  let moving := (s.lauter.slots.filter (fun e => decide (e.2.stage ≠ .swung) && (hits e.2.src || hits e.2.dst))).map (·.1)
  let s := moving.foldl (fun s i => s.abandon i) s
  (((s.pagesOn .ddr n).map (·.1)).foldl (fun s p => s.poisonPage p) s).setChanState n .offline

/-- DDR_DECLARE_LOST (R284): every page of the channel is POISONED, unless its partner carries the pair on; capacity may run low (R197). -/
def Chip.ddrLost (s : Chip) (n : Nat) : Nat × Chip :=
  if !s.frozen n then (Abort.channelState, s)
  else
    let before := s
    let name := if s.copies n = [n] ∧ bitOf (s.cfg Obj.ddrMirrorPairs) (n / 2) then n / 2 * 2 else n
    let s := if (s.partner n).isSome then s.carryAlone n else s.loseChannel name
    let s := (s.setDdr n { s.ddr n with freeze := 2, limit := false, poisonList := [] }).watchCapacity before
    (0, ((s.unpause).refreshDiagnosis).wake)

/-- A write to ddr.chan.command (R284); retraining needs the outcome, which RETRAIN_RELEASE's own row carries. -/
def Chip.ddrCommand (s : Chip) (n v : Nat) (passed : Bool) : Nat × Chip :=
  match v with
  | 1 => s.ddrRelease n
  | 2 => s.ddrRetrain n passed
  | 3 => s.ddrLost n
  | _ => (Abort.outOfRange, s)

/-- RESILVER (R280): a stale granule is copied from the partner, as background work. -/
def Chip.resilver (s : Chip) (n g : Nat) : Chip :=
  let x := s.ddr n
  let ready : Bool := match s.partner n with | some q => !s.ddrAway q && !(s.ddr q).stale.contains g | none => false
  if x.freeze = 0 ∧ !s.ddrMoving n ∧ s.moveTime ∧ ready then s.setDdr n { x with stale := x.stale.filter (fun k => decide (k ≠ g)) } else s

/-! ### Frequency change (R286, R287) -/

/-- The channels named in a mask. -/
def maskChans (m : Nat) : List Nat := (List.range 8).filter (fun n => bitOf m n)

/-- DDR_FREQ_REQUEST (R287). -/
def Chip.freqRequest (s : Chip) (v : Nat) : Nat × Chip :=
  let ns := maskChans (v % 256)
  let fsp := bitsOf v 8 1
  if bitsOf v 9 7 ≠ 0 then (Abort.outOfRange, s)
  else if ns.any (fun n => s.frozen n || !bitOf (s.ddr n).fspOk fsp || decide (s.domain (chanDomain n) ≠ .on)) then (Abort.channelState, s)
  else (0, s.requestOp (.ddrFreq (v % 256) fsp) (s.cfg Obj.ddrFreqChangeUs))

/-- The speed of set point 0 of a channel with so many DIMMs; its default is the highest that the population allows (R266, R286). -/
def Chip.fsp0Mts (s : Chip) (n dimms : Nat) : Nat :=
  match Tab.find s.rwp (objAt Obj.ddrChanFsp0Mts n) with
  | some v => v
  | none => if dimms = 1 then 6400 else if dimms = 2 then 5600 else 0

/-- The move ends (R285, R287), with owed refreshes issued at its step 2: the channels that failed step 7 freeze with cause 4, as does one
that froze meanwhile. -/
def Chip.applyFreq (s : Chip) (mask fsp failed : Nat) : Chip :=
  (maskChans mask).foldl (fun s n =>
    if bitOf failed n then s.freeze n 4 0
    else if s.frozen n then s
    else s.setDdr n { s.ddr n with fsp := fsp, balance := max 0 (s.ddr n).balance }) s

/-! ### Training helpers (R289, R290) -/

/-- The fields of a helper command that must be legal for its op (R289). -/
def helperOk (v : Nat) : Bool :=
  let op := bitsOf v 0 8
  let count := bitsOf v 128 32
  let lane := bitsOf v 168 8
  let param := bitsOf v 160 8
  decide (1 ≤ op ∧ op ≤ 6 ∧ bitsOf v 12 4 = 0 ∧ bitsOf v 99 29 = 0 ∧ bitsOf v 216 8 = 0)
    && (!decide (op ≤ 3) || decide (bitsOf v 24 8 ≤ 4 ∧ 1 ≤ count ∧ count ≤ 65536))
    && (!decide (op = 3 ∨ op = 4) || decide (1 ≤ param ∧ param ≤ 8 ∧ (lane < 40 ∨ lane = 255)))
    && (!decide (op = 3) || decide (1 ≤ bitsOf v 208 8))
    && (!decide (5 ≤ op) || decide (bitsOf v 48 16 = 0))

/-- A helper command that a frozen channel takes (R289): the MPC pattern and read-side parameters within the training area, and MRR. -/
def Chip.frozenHelper (s : Chip) (v : Nat) : Bool :=
  let op := bitsOf v 0 8
  let param := bitsOf v 160 8
  decide (op = 6) || (decide ((op = 2 ∧ bitsOf v 24 8 = 4) ∨ (op = 3 ∧ (param = 1 ∨ param = 2 ∨ param = 5)))
    && s.inTraining (bitsOf v 8 3) (bitsOf v 64 35))

/-- ddr.helper.command (R289). -/
def Chip.helperCommand (s : Chip) (v : Nat) : Nat × Chip :=
  let n := bitsOf v 8 3
  if !helperOk v then (Abort.outOfRange, s)
  else if !(decide (s.chanState n = .offline ∧ !s.frozen n) || (s.frozen n && s.frozenHelper v)) then (Abort.channelState, s)
  else if s.dram.helper.status = 1 then (Abort.resourceOwned, s)
  else (0, { s with dram := { s.dram with helper := { s.dram.helper with status := 1, cmd := v, steps := 0, value := 0, lanes := [] } } })

/-- The key of a parameter of a set point. -/
def paramSlot (ch fsp sub param lane : Nat) : Nat := (((ch * 2 + fsp) * 2 + sub) * 16 + param) * 64 + lane

/-- HELPER_COMPLETE (R290): the result is published; SET_DELAY sets its parameter in the active set point, and MRW its register. -/
def Chip.helperComplete (s : Chip) (r : HelperRun) : Chip :=
  let h := s.dram.helper
  if h.status ≠ 1 then s
  else
    let v := h.cmd
    let op := bitsOf v 0 8
    let ch := bitsOf v 8 3
    let lane := bitsOf v 168 8
    let lanes := if lane = 255 then List.range 40 else [lane]
    let params := if op = 4 then
        lanes.foldl (fun t l => Tab.set t (paramSlot ch (s.ddr ch).fsp (bitsOf v 11 1) (bitsOf v 160 8) l) (bitsOf v 176 16)) h.params
      else h.params
    let regs := if op = 5 then Tab.set h.modeRegs ((ch * 256 + bitsOf v 16 8) * 256 + bitsOf v 32 8) (bitsOf v 40 8) else h.modeRegs
    { s with dram := { s.dram with helper := {
        status := 2, cmd := v, steps := r.steps.toNat, value := if op = 6 then r.value.toNat else 0, lanes := r.lanes.take 40
        params := params, modeRegs := regs } } }

/-- ddr.helper.result (R290), as a number of 328 bytes. -/
def HelperSt.result (h : HelperSt) : Nat :=
  h.status + bitsOf h.cmd 0 8 * 2 ^ 8 + h.steps * 2 ^ 16 + h.value * 2 ^ 32
    + 2 ^ 64 * h.lanes.foldr (fun l a => l.toNat + 2 ^ 64 * a) 0

/-! ### Persist reserve (R47, R262, R264) -/

/-- hbm.reserve_change_us (R264). -/
def Chip.reserveChangeUs (s : Chip) : Nat := 20 + ceilDiv (s.absorbBytes true) s.drainRate

/-- PERSIST_RESERVE_WRITE (R264): the value and the absorb limit change at the write; the change of size is a scheduled operation. -/
def Chip.setReserve (s : Chip) (v : Nat) : Nat × Chip :=
  let old := s.cfg Obj.hbmPersistReserveMib
  let absorb := min (s.cfg Obj.windowsAbsorbLimitMib) (16384 - v)
  if v < 64 ∨ 1024 < v ∨ v % 64 ≠ 0 then (Abort.outOfRange, s)
  else if s.dram.reserveWas.isSome ∨ v * 1024 < 4 * s.cfg Obj.lauterJournalKib ∨ absorb < s.committedMib
      ∨ (16384 - v - absorb) * mib < s.mirrorBytes then (Abort.resourceOwned, s)
  else
    let (a, s1) := s.commitRwp Obj.hbmPersistReserveMib 4 v
    if a ≠ 0 then (a, s)
    else
      let (b, s2) := if absorb = s.cfg Obj.windowsAbsorbLimitMib then (0, s1) else s1.commitRwp Obj.windowsAbsorbLimitMib 4 absorb
      if b ≠ 0 then (b, s)
      else (0, ({ s2 with dram := { s2.dram with reserveWas := some old } } : Chip).requestOp (.reserve old v) s.reserveChangeUs)

/-- The space that a change of the reserve moves is free (R264): the part given up is drained, the part taken holds no hot-tier page. -/
def Chip.reserveReady (s : Chip) : Bool :=
  decide (s.absorbBytes true ≤ s.reserveMin * mib ∧ (s.pagesOn .hbm 0).length ≤ s.hbmCapPages)

/-- The reserve has its new size (R264). -/
def Chip.applyReserve (s : Chip) : Chip := { s with dram := { s.dram with reserveWas := none } }

end Sys2Proof.Machine
end

