-- ==== Sys2Proof/Machine/Kiln.lean ====
section
/-!
DEFINITION. Machine/Kiln.lean: the non-volatile media (R292 to R333): page writes and their
programs, drains, rescue, witness sweeps, rekilning and reclaim, root classification and FORMAT, the flush, and what a power loss
leaves.
-/
namespace Sys2Proof.Machine

/-! ### Page writes (R309 to R311, R317, R323) -/

/-- Programs on a channel (R317). -/
def Chip.progsOn (s : Chip) (ch : Nat) : Nat := countIf (fun e => decide (e.2.ch = ch)) s.kiln.progs

/-- The channel is a least-loaded ONLINE one. -/
def Chip.leastLoaded (s : Chip) (ch : Nat) : Bool :=
  decide (s.chanState (8 + ch) = .online) && (s.onlineChans .nvm).all (fun n => decide (s.progsOn ch ≤ s.progsOn (n - 8)))

/-- The channel's free space is below its share of mill.reserve_pct. -/
def Chip.chanLow (s : Chip) (ch : Nat) : Bool :=
  decide (100 * s.chanFree (8 + ch) < Tab.get 0 s.lauter.capPages (8 + ch) * s.cfg Obj.millReservePct)

/-- The banks of a channel, over its packages (R292). -/
def Chip.banks (s : Chip) (ch : Nat) : List Nat := List.range (16 * (s.nvm ch).roots.length)

/-- A bank has room for a unit of `n` lines: in its open block, or in a free one (R308). -/
def Chip.bankTakes (s : Chip) (ch bank n : Nat) : Bool :=
  (match s.openBlock ch bank with | some o => decide ((s.blk ch o).next + n ≤ 32760) | none => false)
    || (List.range (nvmBankBlocks (s.nvm ch).gib)).any (fun i => s.blockFree ch (32768 * bank + i))

/-- The bank of a place is one with the fewest programs of those that have room (R309 step 4). -/
def Chip.leastBank (s : Chip) (ch loc n : Nat) : Bool :=
  let on := fun (b : Nat) => countIf (fun e => decide (e.2.ch = ch ∧ e.2.loc / 2 ^ 30 = b)) s.kiln.progs
  (s.banks ch).all (fun b => decide (on (loc / 2 ^ 30) ≤ on b) || !s.bankTakes ch b n)

/-- The channel that a page write takes (R309 step 4). -/
def Chip.writeChan (s : Chip) (r : PageRec) (ch : Nat) : Bool :=
  if s.mode.current = .persist ∨ s.chanLow r.ch then s.leastLoaded ch else decide (ch = r.ch)

/-- The page can be drained: on the non-volatile tier, in no migration and in no other page write (R323, R324). -/
def Chip.drainable (s : Chip) (p : Nat) : Bool := decide ((s.page p).st = .nvm) && s.kiln.progs.all (fun e => decide (e.2.page ≠ p))

/-- Absorb drain runs in this mode for a page of the reserve, or of absorb space (R327, R529 to R531). -/
def Chip.drainMode (s : Chip) (persist : Bool) : Bool :=
  match s.mode.current with
  | .service | .diagnosis | .update => true
  | .persist | .safe => persist
  | .drain => if persist then decide (2 ≤ s.mode.drainState) else decide (s.mode.drainState = 3)
  | _ => false

/-- The page is the next to drain (R323): the reserve first while more than half full, then whole pages, then the oldest. -/
def Chip.drainNext (s : Chip) (p : Nat) : Bool :=
  let whole := fun (x : AbsPage) => decide (x.mask = 2 ^ 64 - 1)
  let first := decide (s.dirtyLimit < 2 * s.absorbBytes true)
  let cands := s.kiln.absorbed.filter (fun e => s.drainable e.1 && s.drainMode e.2.persist && (!first || e.2.persist))
  match Tab.find cands p with
  | none => false
  | some x => cands.all (fun e =>
      if whole e.2 then whole x && decide (x.since ≤ e.2.since) else whole x || decide (x.since ≤ e.2.since))

/-- The block that holds a page is marked for rewriting (R311, R315), or the page itself is (R306, R349). -/
def Chip.mustRewrite (s : Chip) (p : Nat) : Bool :=
  let r := s.page p
  (decide (r.loc ≠ pendingLoc) && (s.blk r.ch (r.loc / 32768)).rewrite) || s.kiln.rewrites.contains p

/-- Rekilning work may run (R36, R44, R315): QUIET, forced, or a block past its retention limit. -/
def Chip.rekilnTime (s : Chip) (p : Nat) : Bool :=
  let r := s.page p
  s.workMode &&
    (s.permits .rekilning || decide (s.cfg Obj.kilnRetentionH ≤ (s.blk r.ch (r.loc / 32768)).age))

/-- The reason for a page write holds now. -/
def Chip.writeReason (s : Chip) (p : Nat) (why : PgWhy) : Bool :=
  match why with
  | .drain => s.drainNext p
  | .verbatim => s.mustRewrite p && s.rekilnTime p
  | .rescue => s.kiln.rewrites.contains p

/-- The lines captured: data as the absorb index holds it. A line that is dirty in a way again since it was absorbed is held there in
an older version, free here (log entry 13). -/
def Chip.captureLines (s : Chip) (p mask : Nat) : Tab Line × Chip :=
  ((List.range 64).filter (fun i => bitOf mask i)).foldl (fun (acc : Tab Line × Chip) i =>
    let a := 64 * (64 * p + i)
    if acc.2.cachedDirty a then
      let (x, s) := acc.2.takeLine
      (Tab.set acc.1 i x, s)
    else (Tab.set acc.1 i (acc.2.line a), acc.2)) ([], s)

/-- The lines that a page write captures (R309 step 1); a verbatim one takes the stored bytes. -/
def Chip.toCapture (s : Chip) (p : Nat) (why : PgWhy) : Nat := if why = .verbatim then 0 else s.absorbedMask p

/-- The page as a merge makes it: captured lines over the rest, of which the lines `bad` are poisoned (R213, R309). -/
def Chip.mergedPage (s : Chip) (p bad : Nat) (data : Tab Line) : Chip :=
  let s := s.poisonLines p bad
  { s with mem := data.foldl (fun m e => Mem.writeLine m (64 * (64 * p + e.1)) fullMask e.2) s.mem }

/-- What a page write reads (R309 step 2): nothing where the captured lines cover the page or its place is pending; a verbatim copy takes the
stored bytes as they are (R311, R315), every other one verifies and decodes (R210, R213). -/
def Chip.mergeRead (s : Chip) (p : Nat) (why : PgWhy) (obs : List (Fin 64 × Obs)) : Nat × Chip :=
  let mask := s.toCapture p why
  if mask = 2 ^ 64 - 1 ∨ (s.page p).loc = pendingLoc then (0, s)
  else s.readLines p (2 ^ 64 - 1 - mask) (decide (why ≠ .verbatim)) obs 2

/-- PAGE_WRITE (R309 steps 1 to 4): the lines are captured and merged, the page is encoded, and its program starts. No PROGRAM is issued
in a BURST window or from its write fence (R319), and six run on a channel at most (R317). -/
def Chip.pageWrite (s : Chip) (i p : Nat) (why : PgWhy) (ch loc : Nat) (obs : List (Fin 64 × Obs)) : Chip :=
  let s := s.pruneOlds
  let r := s.page p
  if (Tab.find s.kiln.progs i).isSome ∨ !s.drainable p ∨ !s.moveTime ∨ !s.writeReason p why ∨ !s.writeChan r ch
      ∨ s.cfg Obj.kilnMaxPrograms ≤ s.progsOn ch then s
  else
    let (ok, u) := s.useOwn p
    let (bad, u) := if ok then u.mergeRead p why obs else (0, u)
    let mask := u.toCapture p why
    let held := (List.range 64).filter (fun k => bitOf mask k && u.poisoned (64 * (64 * p + k)))
    let (data, u) := u.captureLines p mask
    let image := if why = .verbatim then u.gristOf p else (u.mergedPage p bad data).storedGrist p (u.accessRegion (4096 * p))
    let form := if why = .verbatim then (r.grist, r.sectors) else gristForm image
    let n := u.unitLines p form
    if !ok then u
    else if !u.placeOk ch loc n ∨ !u.leastBank ch loc n then s
    else
      let g : Prog := { page := p, why := why, old := r, ch := ch, loc := loc, grist := form.1, sectors := form.2, captured := mask
                        changed := 0, data := data, poison := (List.range 64).filter (fun k => bitOf bad k) ++ held, since := u.tb.tc
                        image := image }
      ({ u with kiln := { u.kiln with progs := Tab.set u.kiln.progs i g } } : Chip).placeUnit ch loc n

/-- What the medium now holds of the captured lines, and which of them leave absorb space (R309 step 6, R323, R325). -/
def Chip.releaseLines (s : Chip) (g : Prog) : Chip :=
  let p := g.page
  let caps := (List.range 64).filter (fun k => bitOf g.captured k)
  let keep := fun (s : Chip) (k : Nat) => bitOf g.changed k || s.cachedDirty (64 * (64 * p + k))
  let s := caps.foldl (fun (s : Chip) k =>
    let ln := 64 * p + k
    if keep s k then
      { s with kiln := { s.kiln with
        media := Tab.set s.kiln.media ln (Tab.get 0 g.data k), mediaPoison := Tab.put false s.kiln.mediaPoison ln (g.poison.contains k) } }
    else { s with kiln := { s.kiln with media := Tab.del s.kiln.media ln, mediaPoison := Tab.del s.kiln.mediaPoison ln } }) s
  match Tab.find s.kiln.absorbed p with
  | none => s
  | some x =>
    let mask := caps.foldl (fun m k => if bitOf g.changed k then m else setBit m k false) x.mask
    { s with kiln := { s.kiln with
      absorbed := if mask = 0 then Tab.del s.kiln.absorbed p else Tab.set s.kiln.absorbed p { x with mask := mask } } }

/-- The old place of a page (R309 step 7), with what the medium held there of the captured lines. -/
def Chip.oldPlace (s : Chip) (g : Prog) (seq : Nat) : OldPage :=
  let caps := (List.range 64).filter (fun k => bitOf g.captured k)
  { page := g.page, seq := seq, old := g.old
    lines := caps.foldl (fun t k => Tab.set t k (Tab.get 0 s.kiln.media (64 * g.page + k))) []
    poison := caps.filter (fun k => Tab.get false s.kiln.mediaPoison (64 * g.page + k)), image := s.gristOf g.page }

/-- What the medium holds of a line is poisoned there; its newer version elsewhere is not (R306). -/
def Chip.poisonStored (s : Chip) (dla : Nat) : Chip :=
  if s.isAbsorbed dla || s.cachedDirty dla then
    { s with kiln := { s.kiln with mediaPoison := Tab.set s.kiln.mediaPoison (lineNo dla) true } }
  else s.setPoison dla true

/-- The commit of a page write (R309 steps 5 to 7, R310). A rewritten page is no longer to be rewritten, and a rescued line goes to its
carrier of poison (R306). -/
def Chip.commitWrite (s : Chip) (g : Prog) : Chip :=
  let p := g.page
  let r := s.page p
  let old := s.oldPlace g s.lauter.jseq
  let s := (s.commitPage p { r with ch := g.ch, loc := g.loc, grist := g.grist, sectors := g.sectors, gen := (r.gen + 1) % 16 }).setGrist p g.image
  let s := if g.why = .verbatim then s else s.freshMacs p
  let s := { s with kiln := { s.kiln with
    olds := s.kiln.olds ++ [old], rewrites := s.kiln.rewrites.filter (fun q => decide (q ≠ p)) } }
  let s := s.releaseLines g
  (g.poison.filter (fun k => !bitOf g.captured k)).foldl (fun s k => s.poisonStored (64 * (64 * p + k))) s

/-- PROGRAM_COMPLETE (R307, R309): no STATUS is read from a BURST prologue to its end (R319). The block of a program that failed its verify is
SUSPECT, and the buffer is programmed to new lines at `loc`; where nothing may be placed there, the page is written again later. -/
def Chip.programComplete (s : Chip) (i : Nat) (verified : Bool) (loc : Nat) : Chip :=
  match Tab.find s.kiln.progs i with
  | none => s
  | some g =>
    let drop := fun (s : Chip) => ({ s with kiln := { s.kiln with progs := Tab.del s.kiln.progs i } } : Chip)
    if g.suspended ∨ s.inBurst ∨ s.win.prologueOn then s
    else if !verified then
      let b := g.loc / 32768
      let x := s.nvm g.ch
      let s := (s.setBlk g.ch b { s.blk g.ch b with suspect := true, opened := false, next := 0 }).setNvm g.ch
        { x with programFails := x.programFails + 1 }
      let s := s.retEntry 8 3 g.ch 2 0 (nvmUnit g.ch 2 g.loc) g.page 0xFF 0
      let n := s.unitLines g.page (g.grist, g.sectors)
      if !s.placeOk g.ch loc n then drop s
      else ({ s with kiln := { s.kiln with progs := Tab.set s.kiln.progs i { g with loc := loc } } } : Chip).placeUnit g.ch loc n
    else if s.page g.page ≠ g.old then drop s
    else if !s.journalRoom 1 then s
    else (drop (s.commitWrite g)).watchCapacity s

/-! ### Programs and windows (R305, R318 to R320) -/

/-- A program changes. -/
def Chip.modProg (s : Chip) (i : Nat) (g : Prog) : Chip := { s with kiln := { s.kiln with progs := Tab.set s.kiln.progs i g } }

/-- MEDIA_ALERT (R305): lost commands are issued again; a LOAD whose data failed parity is repeated with its PROGRAM. -/
def Chip.mediaAlert (s : Chip) (ch : Nat) (_what : MediaAlert) : Chip :=
  let x := s.nvm ch
  s.setNvm ch { x with busErrors := x.busErrors + 1 }

/-- PROGRAM_SUSPEND (R318, R319). -/
def Chip.programSuspend (s : Chip) (i : Nat) : Chip :=
  match Tab.find s.kiln.progs i with
  | some g =>
    if g.suspended then s
    else ({ s with kiln := { s.kiln with suspends := s.kiln.suspends + 1 } } : Chip).modProg i { g with suspended := true }
  | none => s

/-- PROGRAM_RESUME (R318, R319): not from a prologue to the end of its BURST window, nor where ABORT is to come (R320). -/
def Chip.programResume (s : Chip) (i : Nat) : Chip :=
  match Tab.find s.kiln.progs i with
  | some g => if !g.suspended ∨ g.pending ∨ s.inBurst ∨ s.win.prologueOn then s else s.modProg i { g with suspended := false }
  | none => s

/-- PROGRAM_ABORT (R320): a program suspended too long is programmed again on new lines; from the write fence of a BURST window to its
end it stays suspended. -/
def Chip.programAbort (s : Chip) (i loc : Nat) : Chip :=
  match Tab.find s.kiln.progs i with
  | some g =>
    let n := s.unitLines g.page (g.grist, g.sectors)
    if !g.suspended then s
    else if !s.moveTime ∨ s.win.prologueOn then s.modProg i { g with pending := true }
    else if !s.placeOk g.ch loc n then s
    else
      let s := { s with kiln := { s.kiln with suspendAborts := s.kiln.suspendAborts + 1 } }
      (s.modProg i { g with loc := loc, suspended := false, pending := false }).placeUnit g.ch loc n
  | none => s

/-! ### Rescue, sweeps, rekilning (R306, R311, R314, R315) -/

/-- Background reads of the media may run (R314, R319): not in a BURST window or from its prologue on. -/
def Chip.mediaTime (s : Chip) : Bool := !s.inBurst && !s.win.prologueOn

/-- MEDIA_RESCUE (R306): a queued line is read again, its block is swept, and its page is written again; a line that no re-read decodes
is poisoned. -/
def Chip.mediaRescue (s : Chip) (dla : Nat) (decoded : Bool) : Chip :=
  let ln := lineNo dla
  let p := ln / 64
  let r := s.page p
  if !s.mediaTime ∨ !s.kiln.rescue.contains ln then s
  else
    let s := { s with kiln := { s.kiln with rescue := s.kiln.rescue.filter (fun k => decide (k ≠ ln)) } }
    if r.st ≠ .nvm ∨ r.loc = pendingLoc then s
    else
      let s := { s with kiln := { s.kiln with
        rewrites := if s.kiln.rewrites.contains p then s.kiln.rewrites else s.kiln.rewrites ++ [p] } }
      let s := s.queueWitness (blkKey r.ch (r.loc + ln % 64))
      let x := s.nvm r.ch
      let unit := nvmUnit r.ch 1 r.loc
      if decoded then (s.setNvm r.ch { x with rescued := x.rescued + 1 }).retEntry 6 3 r.ch 2 0 unit p 0xFF 0
      else
        let s := (s.setNvm r.ch { x with uncorrectable := x.uncorrectable + 1 }).retEntry 7 3 r.ch 2 0 unit p 0xFF 0
        s.poisonStored dla

/-- A trim, clamped to its field (R300). -/
def clampTrim (t : Int) : Int := max (-16) (min 15 t)

/-- WITNESS_SWEEP (R314) of a queued block. -/
def Chip.witnessSweep (s : Chip) (ch b : Nat) (best : Int) : Chip :=
  let k := ch * 2 ^ 20 + b
  if !s.mediaTime ∨ !s.kiln.witness.contains k ∨ best < -4 ∨ 4 < best then s
  else
    let s := { s with kiln := { s.kiln with witness := s.kiln.witness.filter (fun w => decide (w ≠ k)) } }
    let x := s.blk ch b
    let t := clampTrim (x.trim + best)
    s.setBlk ch b { x with trim := t, moved := x.moved + (t - x.trim).natAbs }

/-- The block holds data: a page, or it is open. -/
def Chip.blockHolds (s : Chip) (ch b : Nat) : Bool := (s.blk ch b).opened || decide (s.blockPages ch b ≠ [])

/-- REKILN (R315): a block whose age has reached kiln.rekiln_age_h is to be rewritten. -/
def Chip.rekiln (s : Chip) (ch b age : Nat) : Chip :=
  if s.cfg Obj.kilnRekilnAgeH ≤ age ∧ s.blockHolds ch b ∧ s.permits .rekilning then
    s.setBlk ch b { s.blk ch b with age := age, rewrite := true }
  else s

/-- RETENTION_EXCEEDED (R315). -/
def Chip.retentionExceeded (s : Chip) (ch b age : Nat) : Chip :=
  if s.cfg Obj.kilnRetentionH ≤ age ∧ s.blockHolds ch b then
    (s.setBlk ch b { s.blk ch b with age := age, rewrite := true }).raise 106
  else s

/-- RECLAIM (R311) of a closed block with few live lines. -/
def Chip.reclaim (s : Chip) (ch b : Nat) : Chip :=
  let x := s.blk ch b
  if !x.opened ∧ s.blockPages ch b ≠ [] ∧ 100 * s.blockLive ch b < s.cfg Obj.kilnReclaimLivePct * 32760 ∧ !s.inBurst
      ∧ (s.inQuiet ∨ bitOf s.win.forced 0) then
    s.setBlk ch b { x with rewrite := true }
  else s

/-- BLOCK_CLOSE (R308): no room for the largest unit, or open for too long. -/
def Chip.blockClose (s : Chip) (ch b hours : Nat) : Chip :=
  let x := s.blk ch b
  if x.opened ∧ (32760 < x.next + 72 ∨ s.cfg Obj.kilnOpenBlockMaxH ≤ hours) then s.closeBlk ch b else s

/-! ### The words of a program (R299, R300) -/

/-- The media commands of a program of `n` lines (R300, R309 step 4): LOADs of up to eight lines, then PROGRAM. -/
def programWords (loc n : Nat) : List (BitVec 72) :=
  let bank := bitsOf loc 30 4
  (List.range (ceilDiv n 8)).map (fun k => mediaCommand .load bank (8 * k) (min 8 (n - 8 * k) - 1) 0)
    ++ [mediaCommand .program bank (bitsOf loc 0 30) (n - 1) 0]

/-- The record of a block as a package holds it (R300). -/
def Blk.record (x : Blk) : List Byte := blockRecord x.wear (16 * x.age) x.trim x.opened

/-! ### Roots (R295, R296, R313, R333) -/

/-- The device's media set (R296). -/
def Chip.mediaSet (s : Chip) : Option Nat := s.deviceItem 1

/-- The newest intact root of a package found. -/
def foundRoot (k : PkgFound) : Option Root := if k.formatted then newestRoot k.rootA k.rootB else none

/-- The set that every intact root carries, if they agree. -/
def commonSet (fs : List NvmFound) : Option Nat :=
  match (fs.flatMap (·.pkgs)).filterMap foundRoot with
  | [] => none
  | k :: r => if r.all (fun x => decide (x.mediaSet = k.mediaSet)) then some k.mediaSet else none

/-- The device has a media set: Seedbank's, the packages' common one, or one drawn for a blank package, which is free (R296; log entry
2). -/
def Chip.settleMediaSet (s : Chip) (fs : List NvmFound) : Chip :=
  let keep := fun (s : Chip) (v : Nat) => (s.sbAppend 2 1 (bytesLE 8 v)).2
  match s.mediaSet, commonSet fs with
  | some _, _ => s
  | none, some v => keep s v
  | none, none =>
    if (fs.flatMap (·.pkgs)).any (fun k => !k.formatted) then
      let (v, s) := s.takeNat
      keep s (v % 2 ^ 64)
    else s

/-- The class of a package (R296). -/
def pkgState (set : Option Nat) (k : PkgFound) : Nat :=
  if !k.formatted then 1
  else match foundRoot k with
    | none => 4
    | some r => if some r.mediaSet = set then 2 else 3

/-- A fresh root for package `i` of a channel (R296, R333): the device's set, and a zone list whose length and split the spec leaves open, so
free (log entry 2). -/
def Chip.freshRoot (s : Chip) (ch i gen : Nat) : RootRec × Chip :=
  let (v, s) := s.takeNat
  let n := v % 524129
  let r : Root := { channel := ch, package := i, mediaSet := s.mediaSet.getD 0, generation := gen, zone := s.zoneChans.contains ch, clean := true
                    zoneChannels := s.cfg Obj.lauterZoneChannels, listCount := n, ringFirst := v / 524129 % (n + 1)
                    checkpoint := s.lauter.checkpoint }
  ({ formatted := true, copyA := r.image }, s)

/-- The root of a package after classification: a blank one is formatted with the device's set. -/
def Chip.rootOf (s : Chip) (ch i : Nat) (k : PkgFound) : RootRec × Chip :=
  if k.formatted then ({ formatted := true, copyA := k.rootA, copyB := k.rootB }, s) else s.freshRoot ch i 1

/-- The roots of the packages of a channel after classification. -/
def Chip.rootsOf (s : Chip) (ch : Nat) (ks : List PkgFound) : List RootRec × Chip :=
  ks.foldl (fun (acc : List RootRec × Chip) k =>
    let (r, s) := acc.2.rootOf ch acc.1.length k
    (acc.1 ++ [r], s)) ([], s)

/-- The witness pass of TRAINING over a closed block (R313): the best reference goes to its trim; a block whose trim has moved too far
since it was opened is due for rekilning. -/
def Chip.witnessPass (s : Chip) (ch b : Nat) (best : Int) : Chip :=
  let x := s.blk ch b
  let t := clampTrim (x.trim + best)
  let moved := x.moved + (t - x.trim).natAbs
  if x.opened ∨ (best ≠ -2 ∧ best ≠ 0 ∧ best ≠ 2) then s
  else s.setBlk ch b { x with
    trim := t, moved := moved, age := if s.cfg Obj.kilnOfflineDriftSteps < moved then s.cfg Obj.kilnRekilnAgeH else x.age }

/-- One channel is classified (R292, R296, R313): its root state is the worst of its packages. -/
def Chip.classifyChan (s : Chip) (f : NvmFound) : Chip :=
  let ch := f.ch.val
  let sts := f.pkgs.map (pkgState s.mediaSet)
  let worst := sts.foldl max 0
  let (roots, s) := s.rootsOf ch f.pkgs
  let x := s.nvm ch
  let s := s.setNvm ch { x with
    gib := if f.pkgs = [] then 0 else f.gib, rlNs := if f.pkgs = [] then 0 else f.rlNs, rootState := worst
    passed := decide (f.pkgs ≠ [] ∧ worst ≤ 2) && f.sameType, roots := roots }
  let s := if worst = 3 ∨ sts.contains 3 then s.raise 102 else s
  let s := if sts.contains 4 then s.raise 103 else s
  let s := if f.pkgs ≠ [] ∧ s.chanState (8 + ch) = .absent then s.setChanState (8 + ch) .offline else s
  f.drift.foldl (fun s e => s.witnessPass ch e.1.toNat e.2) s

/-- Root classification (R296): then a zone root that is not CLEAN says that a flush did not complete (R327). -/
def Chip.classifyRoots (s : Chip) (fs : List NvmFound) (powerUp : Bool) : Chip :=
  let s := s.settleMediaSet fs
  let s := fs.foldl (fun s f => s.classifyChan f) s
  if !powerUp then s
  else
    let dirty := (fs.flatMap (·.pkgs)).any (fun k => decide (pkgState s.mediaSet k = 2) && (foundRoot k).any (fun r => r.zone && !r.clean))
    let s := { s with kiln := { s.kiln with persistClean := !dirty } }
    if dirty then s.raise 108 else s

/-- The blocks of a channel are as new, but for their wear (R333). -/
def Chip.resetBlocks (s : Chip) (ch : Nat) : Chip :=
  { s with kiln := { s.kiln with blocks := (s.kiln.blocks.map (fun (k, b) =>
      (k, if k / 2 ^ 20 = ch then { lines := b.lines } else b))).filter (fun e => decide (e.2 ≠ {})) } }

/-- FORMAT (R333): a zone copy that stood on the channel is gone with its packages' content (R296). -/
def Chip.kilnFormat (s : Chip) (ch : Nat) : Nat × Chip :=
  let st := s.chanState (8 + ch)
  if (st ≠ .offline ∧ st ≠ .absent) ∨ s.pagesOn .nvm ch ≠ [] then (Abort.channelState, s)
  else
    let x := s.nvm ch
    let blank : PkgFound := { formatted := false }
    let s := s.settleMediaSet [{ ch := Fin.ofNat 8 ch, pkgs := x.roots.map (fun _ => blank), sameType := true, gib := x.gib, rlNs := x.rlNs }]
    let (roots, s) := x.roots.foldl (fun (acc : List RootRec × Chip) r =>
      let (k, s) := acc.2.freshRoot ch acc.1.length (match r.newest with | some o => wrap32 (o.generation + 1) | none => 1)
      (acc.1 ++ [k], s)) ([], s)
    let s := s.setNvm ch { x with roots := roots, rootState := if x.roots = [] then 0 else 2, passed := decide (x.roots ≠ []) }
    let s := if x.roots ≠ [] ∧ st = .absent then s.setChanState (8 + ch) .offline else s
    (0, ({ s with lauter := { s.lauter with zones := Tab.del s.lauter.zones ch } } : Chip).resetBlocks ch)

/-! ### The flush (R327, R328, R330) -/

/-- The journal stands in the ring of every zone copy, and the zone roots are rewritten with CLEAN set (R327). -/
def Chip.cleanRoots (s : Chip) : Chip :=
  let z := s.newestZone
  let s := s.zoneWrite { z with ring := z.ring ++ s.lauter.journal ++ s.lauter.backlog }
  ({ s with lauter := { s.lauter with journal := [], backlog := [] } } : Chip).zoneRoots true

/-- The reserve holds no dirty page that a flush must still write. -/
def Chip.reserveClean (s : Chip) : Bool := s.kiln.absorbed.all (fun e => !e.2.persist)

/-- The flush can end (R327, R328): every dirty reserve page is written and no program runs; with no channel ONLINE it ends at once. -/
def Chip.flushReady (s : Chip) : Bool :=
  s.kiln.flushing && (decide (s.nvmOnline = 0) || (s.reserveClean && decide (s.kiln.progs = [])))

/-- PERSIST_FLUSH_END (R327): the roots are written last. With data unwritten no root reads CLEAN. -/
def Chip.flushEnd (s : Chip) : Chip :=
  if !s.flushReady then s
  else
    let s := if s.nvmOnline = 0 then s else s.cleanRoots
    { s with kiln := { s.kiln with flushing := false, gpf := false } }

/-- A duration in µs as a GPF DVSEC holds it, rounded up (R330; log entry 165): a 4-bit base and a power of ten from 1 µs. -/
def gpfDuration (us : Nat) : Nat × Nat :=
  let k := ((List.range 8).find? (fun k => decide (us ≤ 15 * 10 ^ k))).getD 7
  (min 15 (ceilDiv us (10 ^ k)), k)

/-- The GPF DVSEC (R330): the Phase 1 timeout, the Phase 2 duration, and the Phase 2 power in W. -/
def Chip.gpfDvsec (s : Chip) : (Nat × Nat) × (Nat × Nat) × Nat :=
  (gpfDuration 1000, gpfDuration s.persistTime, s.cfg Obj.kilnPersistPowerW)

/-- GPF_PHASE2 (R330): the flush without a mode change; a BURST window in effect ends at once. -/
def Chip.gpfPhase2 (s : Chip) : Chip :=
  if s.mode.current ≠ .service ∧ s.mode.current ≠ .diagnosis ∧ s.mode.current ≠ .safe ∧ s.mode.current ≠ .update then s
  else
    let s := match s.window with
      | some (w : Window) => if w.cls = WinClass.burst then (s.endWindow w).raise 4 else s
      | none => s
    { s with kiln := { s.kiln with gpfFlushes := s.kiln.gpfFlushes + 1, flushing := true, gpf := true } }

/-! ### Power loss (R325) -/

/-- A line takes content and poison as the medium holds them. -/
def Chip.revertLine (s : Chip) (ln : Nat) (x : Line) (bad : Bool) : Chip :=
  { s with mem := Mem.writeLine s.mem (64 * ln) fullMask x, poison := Tab.put false s.poison ln bad }

/-- Commits that did not reach the journal ring are undone, the newest first (R310, R325). -/
def Chip.undoCommits (s : Chip) : Chip :=
  (s.kiln.olds.filter (fun o => s.unwritten o.seq)).reverse.foldl (fun s o =>
    let s := (s.setPage o.page o.old).setGrist o.page o.image
    o.lines.foldl (fun (s : Chip) e =>
      { s with kiln := { s.kiln with
        media := Tab.set s.kiln.media (64 * o.page + e.1) e.2
        mediaPoison := Tab.put false s.kiln.mediaPoison (64 * o.page + e.1) (o.poison.contains e.1) } }) s) s

/-- What a loss of the rails leaves of the media's pages (R325): lines that only HBM or the cache held read as the medium holds them;
pages of HBM, DDR5 and pending pages read zeros; a migrating page is its source. -/
def Chip.losePages (s : Chip) : Chip :=
  let s := s.undoCommits
  let s := s.kiln.media.foldl (fun (s : Chip) e => s.revertLine e.1 e.2 (Tab.get false s.kiln.mediaPoison e.1)) s
  let s := { s with kiln := { s.kiln with media := [], mediaPoison := [], absorbed := [], progs := [], olds := [], rescue := [] } }
  let s := s.lauter.slots.foldl (fun (s : Chip) e =>
    if (s.page e.2.page).st = .migrating then s.setPage e.2.page { s.page e.2.page with st := e.2.src.st } else s) s
  let lost := (s.map.pages.filter (fun e => decide (e.2.st = .hbm ∨ e.2.st = .ddr ∨ (e.2.st = .nvm ∧ e.2.loc = pendingLoc)))).map (·.1)
  lost.foldl (fun s p => (s.setPage p {}).wipePage p) s

end Sys2Proof.Machine
end

