-- ==== Sys2Proof/Machine/Integrity.lean ====
section
/-!
DEFINITION. Machine/Integrity.lean: Sparge's patrol, scrub writes and pool zeroing (R348 to R353), the halving of counts (R354), the
retirement log's way to Seedbank (R358), and the end of a retirement (R169, R355).
-/
namespace Sys2Proof.Machine

/-! ### Sparge (R348 to R353) -/

/-- Sparge works in this mode (R529, R531). -/
def Chip.spargeMode (s : Chip) : Bool := s.workMode

/-- Patrol may run now (R36, R319): QUIET, or forced in OPEN; never from a prologue on. -/
def Chip.scrubTime (s : Chip) : Bool := s.spargeMode && s.mediaTime && s.permits .patrol

/-- The line leaves the repair queues. -/
def Chip.repaired (s : Chip) (ln : Nat) : Chip :=
  { s with integ := { s.integ with
    repairHbm := s.integ.repairHbm.filter (fun k => decide (k ≠ ln)), repairDdr := s.integ.repairDdr.filter (fun k => decide (k ≠ ln)) } }

/-- The line's page rests on a DDR5 channel that is frozen, with no mirror copy (R285). -/
def Chip.onFrozen (s : Chip) (ln : Nat) : Bool :=
  let r := s.srcRec (ln / 64)
  decide (r.st = .ddr) && s.stopped r.ch

/-- SCRUB_WRITE (R341, R350): a line is read afresh, corrected and written back; no data changes. -/
def Chip.scrubWrite (s : Chip) (dla : Nat) : Chip :=
  if !s.scrubTime || s.onFrozen (lineNo dla) then s else s.repaired (lineNo dla)

/-- One more line of a pass is done (R348); at its end the next one begins. -/
def Chip.patrolled (s : Chip) (t : Nat) : Chip :=
  let n := Tab.get 0 s.integ.progress t + 1
  if s.patrolLines t ≤ n then
    { s with integ := { s.integ with progress := Tab.put 0 s.integ.progress t 0, lastPass := Tab.put 0 s.integ.lastPass t s.tcRec } }
  else { s with integ := { s.integ with progress := Tab.put 0 s.integ.progress t n } }

/-- sparge.tier.progress_ppm. -/
def Chip.progressPpm (s : Chip) (t : Nat) : Nat :=
  if s.patrolLines t = 0 then 0 else Tab.get 0 s.integ.progress t * 1000000 / s.patrolLines t

/-- A line that patrol corrected is counted. -/
def Chip.patrolCorrected (s : Chip) (t : Nat) : Chip :=
  { s with integ := { s.integ with corrected := Tab.upd 0 s.integ.corrected t (· + 1) } }

/-- The sector of its page's place at which patrol reads a line: of grist, the stored sector of that number (R348). -/
def patrolSector (r : PageRec) (ln : Nat) : Nat := if r.grist ∧ r.sectors < ln % 64 then r.sectors else ln % 64

/-- What patrol does with the decode result of a line (R349); a line stored as poisoned is no error (R340). -/
def Chip.patrolResult (s : Chip) (ln : Nat) (res : CodeRes) : Chip :=
  let p := ln / 64
  let r := s.srcRec p
  let i := patrolSector r ln
  if !r.grist && s.poisoned (64 * ln) then s
  else match r.st, res with
  | .hbm, .corrected n _ => (s.countCE .hbm 0 p r.loc i 1 n 0xFF).patrolCorrected 1 |>.repaired ln
  | .hbm, res => (s.readHbm ln (r.loc + i) res 1).2
  | .ddr, .corrected n d => (s.countCE .ddr r.ch p r.loc i 1 n d.val).patrolCorrected 2 |>.repaired ln
  | .ddr, res => (s.readDdr ln r.ch r.loc i { code := res } 1).2
  | .nvm, .corrected n d =>
    let s := (s.readNvm ln r.ch r.loc i { code := .corrected n d } 1).2.patrolCorrected 3
    if s.cfg Obj.spargeNvmRewriteSymbols ≤ n ∧ !s.kiln.rewrites.contains p then
      { s with kiln := { s.kiln with rewrites := s.kiln.rewrites ++ [p] } }
    else s
  | .nvm, .uncorrectable _ => s.queueRescue ln
  | _, _ => s

/-- PATROL_READ (R348, R349): a frozen DDR5 channel is skipped, as is a page without a place. -/
def Chip.patrolRead (s : Chip) (dla : Nat) (res : CodeRes) : Chip :=
  let ln := lineNo dla
  let r := s.srcRec (ln / 64)
  if !s.scrubTime || s.onFrozen ln || !r.resting || decide (r.st = .nvm ∧ r.loc = pendingLoc) then s
  else (s.patrolResult ln res).patrolled r.st.code

/-- PATROL_OVERDUE (R352). -/
def Chip.patrolOverdue (s : Chip) (t : Nat) : Chip := if t = 0 then s else s.raise 131

/-- A pool of `have'` pages after `n` more: toward the target, from the free pages (R92). -/
def poolFill (have' n room free : Nat) : Nat := have' + min n (min room (free - have'))

/-- POOL_ZERO (R92, R353): freed pages of HBM, or of DDR5 channel `ch`, join the pool of their tier, toward its target, as background work. -/
def Chip.poolZero (s : Chip) (t ch n : Nat) : Chip :=
  if !s.permits .zeroing || !s.spargeMode then s
  else match t with
    | 1 => { s with map := { s.map with
        poolHbm := poolFill s.map.poolHbm n (s.cfg Obj.mapPoolTargetHbm - s.map.poolHbm) (s.tierFree .hbm) } }
    | 2 =>
      let x := poolFill (s.poolShare ch) n (s.cfg Obj.mapPoolTargetDdr - s.poolLevelDdr) (s.chanFree ch)
      if (s.onlineChans .ddr).contains ch then { s with map := { s.map with poolDdr := Tab.put 0 s.map.poolDdr ch x } } else s
    | _ => s

/-! ### Counts and the log (R354 to R358) -/

/-- COUNT_HALVING (R354). -/
def Chip.countHalving (s : Chip) : Chip :=
  let half := fun (t : Tab Nat) => (t.map (fun (k, v) => (k, v / 2))).filter (fun e => decide (e.2 ≠ 0))
  { s with integ := { s.integ with
    pageCnt := half s.integ.pageCnt, bankCnt := half s.integ.bankCnt, devCnt := half s.integ.devCnt } }

/-- The 32 bytes of a log entry (R356). -/
def RetEnt.bytes (e : RetEnt) : List Byte :=
  bytesLE 4 e.seq ++ bytesLE 1 e.kind ++ bytesLE 1 (e.tier + 16 * e.channel) ++ bytesLE 1 e.origin ++ bytesLE 1 e.symbols
    ++ bytesLE 8 e.tc ++ bytesLE 8 e.retire ++ bytesLE 5 e.page ++ bytesLE 1 e.device ++ bytesLE 2 e.count

/-- The bytes of ring place `k`, zeros where nothing has been written. -/
def Chip.ringBytes (s : Chip) (k : Nat) : List Byte :=
  match Tab.find s.integ.ring (k % 4096) with | some e => e.bytes | none => bytesLE 32 0

/-- Entries not yet in Seedbank: at most 64 go in one record. -/
def Chip.retPending (s : Chip) : Nat := min 64 (min 4096 (diff32 s.integ.producer s.integ.kept))

/-- RETLOG_PERSIST (R358, R488): the oldest entries not yet kept go to Seedbank as one LOG record, and the unit counts as a slice whose
layout is the firmware's (log entry 2). -/
def Chip.retlogPersist (s : Chip) : Chip :=
  let n := s.retPending
  if s.inBurst then s
  else
    let (v, s) := s.takeNat
    let s := s.sbLog 2 0x100 (bytesLE 64 v)
    if n = 0 then s
    else
      let s := s.sbLog 4 1 ((List.range n).flatMap (fun i => s.ringBytes (s.integ.kept + i)))
      { s with integ := { s.integ with kept := wrap32 (s.integ.kept + n) } }

/-! ### The end of a retirement (R169, R312, R355) -/

/-- Blocks of a bank that software has retired. -/
def Chip.retiredIn (s : Chip) (ch bank : Nat) : Nat :=
  countIf (fun v => decide (bitsOf v 0 4 = 3 ∧ bitsOf v 4 4 = ch ∧ bitsOf v 8 4 = 2 ∧ bitsOf v 12 35 / 32768 = bank)) s.lauter.excluded

/-- A retired block is replaced from the spares of its bank, while there are any (R312). -/
def Chip.useSpare (s : Chip) (v : Nat) : Chip :=
  let ch := bitsOf v 4 4
  let used := s.retiredIn ch (bitsOf v 12 35 / 32768)
  let spare := s.spareBlocks ch
  if bitsOf v 0 4 ≠ 3 ∨ bitsOf v 8 4 ≠ 2 then s
  else
    let s := if 1000 * (spare - used) < 5 * nvmBankBlocks (s.nvm ch).gib then s.raise 104 else s
    if spare < used then
      ({ s with lauter := { s.lauter with capPages := Tab.upd 0 s.lauter.capPages (8 + ch) (· - 511) } } : Chip).raise 105
    else s

/-- RETIRE_COMPLETE (R169, R355): the unit is empty, or its pages find no room; a blocked retirement resumes when space appears. -/
def Chip.retireComplete (s : Chip) (blocked : Bool) : Chip :=
  let v := s.lauter.retireUnit
  let tier := bitsOf v 0 4
  let ch := bitsOf v 4 4
  let full := s.map.pages.any (fun e => s.inUnit v (s.srcRec e.1))
  let log := fun (s : Chip) (kind : Nat) => s.retEntry kind tier ch 3 0 v 0 0xFF 0
  if s.lauter.retireStatus ≠ 1 ∧ s.lauter.retireStatus ≠ 3 then s
  else if blocked then
    if s.lauter.retireStatus = 1 ∧ full then log { s with lauter := { s.lauter with retireStatus := 3 } } 11 else s
  else if full then s
  else (log { s with lauter := { s.lauter with retireStatus := 2 } } 10).useSpare v

end Sys2Proof.Machine
end

