-- ==== Sys2Proof/Machine/Modes.lean ====
section
/-!
DEFINITION. Machine/Modes.lean: device modes (R526 to R532), power domains and pads (R533 to R538), and the resets (R523, R539, R540,
R570, R574).
-/
namespace Sys2Proof.Machine

/-! ### What a mode change starts and stops -/

/-- The mode becomes `m`. -/
def Chip.setMode (s : Chip) (m : Mode) : Chip := { s with mode := { s.mode with current := m } }

/-- Hopper channels that run stop as for STOP, with their contexts kept (R530, R531). -/
def Chip.stopHopper (s : Chip) : Chip :=
  (s.hop.chans.map (·.1)).foldl (fun s ch => (s.chanStopCmd ch).2) s

/-- The channels that STOP would stop. -/
def Chip.runningChans (s : Chip) : List Nat :=
  (s.hop.chans.filter (fun e => decide (e.2.st = .idle ∨ e.2.st = .run ∨ e.2.st = .stalled) && !e.2.stopping)).map (·.1)

/-- Migrations and repacks pause at a line boundary (R530, R531). -/
def Chip.pauseSlots (s : Chip) : Chip :=
  { s with lauter := { s.lauter with slots := s.lauter.slots.map (fun (i, m) => (i, { m with paused := true })) } }

/-- They go on, except those on a frozen channel (R158). -/
def Chip.resumeSlots (s : Chip) : Chip :=
  let onFrozen := fun (r : PageRec) => decide (r.st = .ddr) && s.stopped r.ch
  { s with lauter := { s.lauter with slots := s.lauter.slots.map (fun (i, m) =>
    (i, { m with paused := onFrozen m.src || onFrozen m.dst })) } }

/-- Windows are cancelled where the mode left is SERVICE or DIAGNOSIS (R30). -/
def Chip.leaveWindows (s : Chip) : Chip :=
  if s.mode.current = .service ∨ s.mode.current = .diagnosis then s.leaveService else s

/-- SERVICE, or DIAGNOSIS while a DDR5 channel is frozen (R527). -/
def Chip.enterService (s : Chip) : Chip := (s.setMode .service).refreshDiagnosis

/-- SAFE (R531). -/
def Chip.enterSafe (s : Chip) : Chip := (((s.leaveWindows).stopHopper).pauseSlots).setMode .safe

/-- A SAFE request (R527, R528): held in DRAIN and PERSIST. A boot-failure UPDATE is left by CHIP_RESET only (R532). -/
def Chip.requestSafe (s : Chip) : Chip :=
  match s.mode.current with
  | .unseated | .inserting | .safe => s
  | .drain | .persist => { s with fault := { s.fault with safeHeld := true } }
  | .update => if s.mode.bootUpdate then s else s.enterSafe
  | _ => s.enterSafe

/-! ### DRAIN (R527, R530) -/

/-- DRAIN begins: step 1. -/
def Chip.enterDrain (s : Chip) : Chip :=
  let s := s.leaveWindows
  let run := s.runningChans
  let s := (s.stopHopper).pauseSlots
  { s with mode := { s.mode with previous := s.mode.current, current := .drain, drainState := 1, drainStopped := run } }

/-- The modes that DRAIN may be entered from. -/
def Chip.mayDrain (s : Chip) : Bool :=
  match s.mode.current with
  | .service | .diagnosis | .safe => true
  | .update => !s.mode.bootUpdate
  | _ => false

/-- DRAIN (R527). -/
def Chip.drainCmd (s : Chip) : Nat × Chip := if s.mayDrain then (0, s.enterDrain) else (Abort.wrongMode, s)

/-- Every request accepted so far has completed (R530 step 2). -/
def Chip.quiet (s : Chip) : Bool :=
  decide (s.waits = [] ∧ s.coh.txns = [] ∧ s.coh.queue = [] ∧ s.coh.devQueue = [] ∧ s.fold.open = [] ∧ s.fold.fences = [] ∧ s.fold.appends = []
    ∧ s.hop.waiting = []) && s.links.all (fun e => decide (e.2.reqs = [] ∧ e.2.fences = [] ∧ e.2.rx = []))
    && s.hop.chans.all (fun e => decide (e.2.bursts = []))

/-- DRAIN_STEP_COMPLETE (R530): the step that mode.drain_state names is done. -/
def Chip.drainStep (s : Chip) : Chip :=
  let go := fun (s : Chip) (n : Nat) => ({ s with mode := { s.mode with drainState := n } } : Chip)
  if s.mode.current ≠ .drain then s
  else match s.mode.drainState with
    | 1 => if s.quiet then go s 2 else s
    | 2 =>
      if s.reserveClean && decide (s.kiln.progs = [] ∧ s.nvmOnline ≠ 0) then
        go s.cleanRoots (if s.cfg Obj.modeDrainAbsorb = 1 then 3 else 4)
      else s
    | 3 => if s.kiln.absorbed = [] ∧ s.kiln.progs = [] then go s.cleanRoots 4 else s
    | _ => s

/-- RESUME (R527, R528, R530): back to the mode left, or to SAFE where a request is held. -/
def Chip.resumeCmd (s : Chip) : Nat × Chip :=
  if s.mode.current ≠ .drain ∨ !s.power.seatA ∨ !s.power.seatB then (Abort.wrongMode, s)
  else
    let stopped := s.mode.drainStopped
    let held := s.fault.safeHeld
    let goal := if held then Mode.safe else s.mode.previous
    let s := { s with
      mode := { s.mode with current := goal, drainState := 0, drainStopped := [] }
      fault := { s.fault with safeHeld := false } }
    if goal = .safe then (0, s)
    else (0, ((stopped.foldl (fun s ch => (s.chanStart ch).2) s).resumeSlots).refreshDiagnosis)

/-! ### UPDATE (R527, R532) -/

/-- UPDATE. -/
def Chip.updateCmd (s : Chip) : Nat × Chip :=
  match s.mode.current with
  | .configuring | .service | .diagnosis | .safe =>
    let s := s.leaveWindows
    let s := if s.mode.current = .safe then s.resumeSlots else s
    (0, { s with mode := { s.mode with
      previous := s.mode.current, updateFrom := s.mode.current, current := .update, bootUpdate := false } })
  | _ => (Abort.wrongMode, s)

/-! ### Training (R524, R527, R50) -/

/-- A head of a port that is trained anew: one that was up is lost (R77, R140). -/
def Chip.retrainHead (s : Chip) (h : Nat) : Chip :=
  let st := if s.headPresent h then HeadState.down else .absent
  let s := if (s.head h).state = .active then s.loseHead h .lost else s
  s.setHead h ((s.head h).linkClear st)

/-- The heads of a port whose bifurcation changes train anew. -/
def Chip.takeBifurcation (s : Chip) : Chip :=
  let new := s.cfg Obj.portsBifurcationA % 2 + s.cfg Obj.portsBifurcationB % 2 * 2
  let old := s.bifur
  let s := { s with bifur := new }
  (List.range 4).foldl (fun s h =>
    if bitOf new (h / 2) = bitOf old (h / 2) then s else s.retrainHead h) s

/-- TRAINING begins: the bifurcation is taken, and each enabled link whose domain is ON trains (R50, R363). -/
def Chip.enterTraining (s : Chip) : Chip :=
  let s := (s.setMode .training).takeBifurcation
  (List.range 8).foldl (fun s l =>
    if s.cfgAt Obj.linkEnable l = 1 ∧ s.domain (linkDomain l) = .on ∧ (s.link l).st ≠ .training then s.startTraining l 0 else s) s

/-- CONFIGURING is entered: with mode.auto_train 1, TRAINING at once. -/
def Chip.enterConfiguring (s : Chip) : Chip :=
  let s := s.setMode .configuring
  if s.cfg Obj.modeAutoTrain = 1 then s.enterTraining else s

/-- A node address is held (R477, R478, R527). -/
def Chip.addressHeld (s : Chip) : Chip :=
  if s.mode.current = .unaddressed ∧ s.field.addr ≠ 0 then s.enterConfiguring else s

/-- CONFIGURE. -/
def Chip.configureCmd (s : Chip) : Nat × Chip :=
  if s.mode.current = .unaddressed then (0, s.enterConfiguring) else (Abort.wrongMode, s)

/-- TRAIN. -/
def Chip.trainCmd (s : Chip) : Nat × Chip :=
  if s.mode.current = .configuring then (0, s.enterTraining) else (Abort.wrongMode, s)

/-- EXIT_UPDATE: back to the mode that UPDATE was commanded in. -/
def Chip.exitUpdateCmd (s : Chip) : Nat × Chip :=
  if s.mode.current ≠ .update ∨ s.mode.bootUpdate then (Abort.wrongMode, s)
  else
    let goal := s.mode.updateFrom
    let s := if goal = .safe then s.pauseSlots else s
    let s := if goal = .configuring then s.enterConfiguring else (s.setMode goal).refreshDiagnosis
    (0, s.sbRelease)

/-- Training of one DDR5 channel (R266, R267, R288): every set point in use must pass. -/
def Chip.trainDdr (s : Chip) (f : DdrFound) : Chip :=
  let n := f.ch.val
  let x := s.ddr n
  if f.dimms = 0 then
    (s.setDdr n { x with dimms := 0, ranks := 0, tds := false, gib := 0, train := 3, fspOk := 0 }).setChanState n .absent
  else
    let use0 := decide (s.fsp0Mts n f.dimms.val ≠ 0)
    let use1 := decide (s.cfgAt Obj.ddrChanFsp1Mts n ≠ 0)
    let ok := f.allowed && (!use0 || f.fsp0) && (!use1 || f.fsp1)
    (s.setDdr n { x with
      dimms := f.dimms.val, ranks := f.ranks.val, tds := f.tds, gib := f.gib, train := if ok then 1 else 2, fsp := 0
      fspOk := (if f.allowed && use0 && f.fsp0 then 1 else 0) + (if f.allowed && use1 && f.fsp1 then 2 else 0)
      freeze := 0, poisonList := [] }).setChanState n .offline

/-- A channel that training does not reach: its domain is not ON (R524). -/
def Chip.untrained (s : Chip) (n : Nat) : Chip :=
  if n < 8 then (s.setDdr n { s.ddr n with train := 0, fspOk := 0 }).setChanState n .absent
  else (s.setNvm (n - 8) { s.nvm (n - 8) with passed := false, rootState := 0 }).setChanState n .absent

/-- The log entries since the last TRAINING that name an HBM row: UE_HBM, and CE_BANK of HBM (R359). -/
def Chip.hbmRows (s : Chip) : Nat :=
  countIf (fun e => decide (diff32 e.2.seq s.integ.hbmSeen < diff32 s.integ.producer s.integ.hbmSeen
    ∧ (e.2.kind = 5 ∨ (e.2.kind = 2 ∧ e.2.tier = 1)))) s.integ.ring

/-- Firmware repairs the named HBM rows from the stack's spare rows, and says when no spare remains (R359). -/
def Chip.repairHbmRows (s : Chip) : Chip :=
  let n := s.integ.hbmSpent + s.hbmRows
  let s := { s with integ := { s.integ with hbmSeen := s.integ.producer, hbmSpent := min n Config.hbmSpareRows } }
  if Config.hbmSpareRows < n then s.raise 101 else s

/-- What training found on the channels whose domain is ON; `miss` is what becomes of a DDR5 channel that nothing was found of. -/
def Chip.trainChannels (s : Chip) (ddr : List DdrFound) (nvm : List NvmFound) (miss : Chip → Nat → Chip) : Chip :=
  let on := fun (n : Nat) => decide (s.domain (chanDomain n) = .on)
  let s := s.repairHbmRows
  let s := (List.range 8).foldl (fun s n =>
    if !on n then s.untrained n
    else match ddr.find? (fun f => decide (f.ch.val = n)) with
      | some f => s.trainDdr f
      | none => miss s n) s
  let s := ((List.range 8).filter (fun n => !on (8 + n))).foldl (fun s n => s.untrained (8 + n)) s
  s.classifyRoots (nvm.filter (fun f => on (8 + f.ch.val))) true

/-- TRAINING_END (R527): every link that trains has ended its training. -/
def Chip.trainingEnd (s : Chip) (ddr : List DdrFound) (nvm : List NvmFound) : Chip :=
  if s.mode.current ≠ .training ∨ s.links.any (fun e => decide (e.2.st = .training)) then s
  else (s.trainChannels ddr nvm (fun s n =>
    (s.setDdr n { s.ddr n with dimms := 0, gib := 0, train := 3, fspOk := 0 }).setChanState n .absent)).enterService

/-- TRAIN_LIMIT_EXPIRY (R527): unfinished channels have failed, and unfinished links are DOWN with cause 2. -/
def Chip.trainLimit (s : Chip) (ddr : List DdrFound) (nvm : List NvmFound) : Chip :=
  if s.mode.current ≠ .training then s
  else
    let s := s.trainChannels ddr nvm (fun s n => (s.setDdr n { s.ddr n with train := 2, fspOk := 0 }).setChanState n .offline)
    let s := (List.range 8).foldl (fun s l => if (s.link l).st = .training then s.wantDown l 2 else s) s
    s.enterService

/-! ### Power domains (R533 to R538) -/

/-- A compact build keeps the domain OFF (R537). -/
def Chip.noDomain (s : Chip) (n : Nat) : Bool := decide (s.mode.build = 0 ∧ ((13 ≤ n ∧ n ≤ 16) ∨ (21 ≤ n ∧ n ≤ 24)))

/-- The domain has pads that a full build holds (R537, R538). -/
def padDomain (n : Nat) : Bool := decide (3 ≤ n ∧ n ≤ 24)

/-- Why the domain may not leave ON (R179, R233, R257, R533): an abort code, or zero. -/
def Chip.leaveOn (s : Chip) (n : Nat) : Nat :=
  let busy := fun (b : Bool) => if b then Abort.resourceOwned else 0
  if n ≤ 2 then Abort.wrongMode
  else if n ≤ 4 then
    busy ((List.range 4).any (fun h => decide (headDomain h = n ∧ ((s.head h).state = .ioOnly ∨ (s.head h).state = .active))))
  else if n ≤ 8 then
    busy ([2 * (n - 5), 2 * (n - 5) + 1].any (fun l => (List.range 64).any (fun d =>
      s.isMember d (linkAgent l) && decide ((s.dom d).state = .active ∨ (s.dom d).state = .recalling))))
  else if n ≤ 24 then
    let c := n - 9
    if (s.chanState c = .offline ∨ s.chanState c = .absent) ∧ (8 ≤ c ∨ !s.frozen c) then 0 else Abort.channelState
  else match n with
    | 25 => busy ((List.range 8).any (fun r => decide (s.cfgAt Obj.dcLength r ≠ 0)) || decide (s.absorbBytes true ≠ 0))
    | 26 => busy (s.map.pages.any (fun e => (s.srcRec e.1).grist) || (List.range 8).any (fun r => s.compressing r && s.regionBusy r))
    | 27 => busy (decide (s.map.extents ≠ []) || (List.range 8).any s.linkEnc || decide (s.domain 25 ≠ .off))
    | 28 => Abort.resourceOwned
    | 29 => busy (decide (4 < max s.cache.ways (s.cfg Obj.cacheScratchWays)))
    | _ => busy (decide (0 < max s.cache.ways (s.cfg Obj.cacheScratchWays)))

/-- The ways of a CACHE domain. -/
def domainWays (n : Nat) : List Nat := (List.range 4).map (fun w => 4 * (n - 28) + w)

/-- What bringing a domain up from OFF takes at most, in µs (R536). -/
def bringUpUs (n : Nat) : Nat :=
  if 9 ≤ n ∧ n ≤ 16 then 150000 else if 17 ≤ n ∧ n ≤ 24 then 40000 else if n = 25 then 50000 else 0

/-- The duration of a change to state code `t`, in µs (R536). -/
def Chip.domainUs (s : Chip) (n t : Nat) : Nat :=
  if t = 2 then
    if s.domain n = .retention then (if n ≤ 8 ∨ n = 25 then 50 else 20)
    else if 26 ≤ n then 20
    else if s.mode.build = 1 ∧ padDomain n then 100 else 100 + bringUpUs n
  else if n ≤ 8 ∨ (25 ≤ n ∧ n ≤ 27) then 20
  else if n ≤ 24 then 10
  else s.scratchUs (domainWays n)

/-- A change of the domain waits or runs. -/
def Chip.domainBusy (s : Chip) (n : Nat) : Bool :=
  let names := fun (o : SchedOp) => match o.kind with | .domain k _ => decide (k = n) | .bringUp k => decide (k = n) | _ => false
  decide (s.domain n = .changing) || s.win.ops.any names || (match s.win.running with | some o => names o | none => false)

/-- The target of a change to state code `t`: 2 ON from RETENTION, 3 ON_HELD, 4 ON from OFF (R538). -/
def Chip.domainTarget (s : Chip) (n t : Nat) : Nat :=
  if t ≠ 2 then t
  else if s.domain n = .retention then 2
  else if s.mode.build = 1 ∧ padDomain n then 3 else 4

/-- What a domain's output pads carry (R537): the block's own values, the quiescent values of its table, or nothing. -/
inductive Pads where
  | own
  | quiet (resetN : Bool)
  | floating
  deriving DecidableEq, Repr

/-- The pads of domain `n` in OFF: a full build holds the quiescent values, a compact build floats them (R537). -/
def Chip.padsOff (s : Chip) : Pads := if s.mode.build = 1 then .quiet false else .floating

/-- What the pads of a CXL, SL, DDR or NVM domain carry (R537, R538): RESET_N is high for RETENTION and low for OFF; a change away from ON
drives the quiescent values of its target first, and one from OFF keeps them until the pads take the block's own. -/
def Chip.pads (s : Chip) (n : Nat) : Pads :=
  match s.domain n with
  | .on => .own
  | .retention => .quiet true
  | .off => s.padsOff
  | .onHeld => .quiet false
  | .changing =>
    (match Tab.get 0 s.mode.target n with
     | 0 => .quiet false
     | 1 => .quiet true
     | 3 => .quiet false
     | _ => .own)
  | .duty => .own

/-- CAN_TXD and CAN_STBY are held high: MGMT is not ON, or the field port holds no address and sends no CHAIN frame (R578). -/
def Chip.canHeld (s : Chip) : Bool := decide (s.domain 2 ≠ .on ∨ s.mode.current = .recall ∨ s.field.addr = 0)

/-- The change begins: what the block does before it leaves ON (R257, R533). -/
def Chip.beginDomain (s : Chip) (n t : Nat) : Chip :=
  let goal := s.domainTarget n t
  let leaving := decide (t ≠ 2 ∧ (s.domain n = .on ∨ s.domain n = .onHeld))
  let s := if leaving && decide (5 ≤ n ∧ n ≤ 8) then (s.wantDown (2 * (n - 5)) 9).wantDown (2 * (n - 5) + 1) 9 else s
  let s := if leaving && decide (29 ≤ n) then s.cleanWays (domainWays n) else s
  let s := s.setDomain n .changing
  { s with mode := { s.mode with target := Tab.set s.mode.target n goal } }

/-- What OFF does not keep (R534): trained and configured values, key slots and link registers. -/
def Chip.domainLost (s : Chip) (n : Nat) : Chip :=
  if n ≤ 4 then
    (List.range 4).foldl (fun s h =>
      if headDomain h = n then s.setHead h { (s.head h).linkClear .absent with
        mbox := {}, bar2 := {}, info := {}, warning := {}, failure := {}, fatal := {}, dyncap := {}, policy := 0x1F, msix := 0, hdm := []
        bi := false, stamp := 0, ideKeyed := 0, ideInsecure := 0, ideContain := false, flitsToMac := 0, ras := 0 }
      else s) s
  else if 9 ≤ n ∧ n ≤ 16 then s.setDdr (n - 9) { s.ddr (n - 9) with train := 0, fspOk := 0, fsp := 0 }
  else if 17 ≤ n ∧ n ≤ 24 then s.setNvm (n - 17) { s.nvm (n - 17) with passed := false, rootState := 0 }
  else if n = 27 then
    { s with
      husk := { s.husk with linkSlots := [], active := 0, switching := 0 }
      casks := s.casks.map (fun (c, k) => (c, if k.keyState = .loaded then { k with keyState := .empty, keyId := 0, keys := none, blob := none } else k)) }
  else s

/-- A domain that comes ON trains its block (R536): `off` says that it came from OFF. -/
def Chip.bringUp (s : Chip) (n : Nat) (off : Bool) (ddr : List DdrFound) (nvm : List NvmFound) : Chip :=
  if 5 ≤ n ∧ n ≤ 8 then
    [2 * (n - 5), 2 * (n - 5) + 1].foldl (fun s l =>
      if s.cfgAt Obj.linkEnable l = 1 ∧ ((s.link l).st = .disabled ∨ (s.link l).st = .down) then s.startTraining l 0 else s) s
  else if 9 ≤ n ∧ n ≤ 16 then
    match ddr.find? (fun f => decide (f.ch.val = n - 9)) with
    | some f => s.trainDdr f
    | none => if off then (s.setDdr (n - 9) { s.ddr (n - 9) with dimms := 0, gib := 0, train := 3, fspOk := 0 }).setChanState (n - 9) .absent
              else s
  else if 17 ≤ n ∧ n ≤ 24 then s.classifyRoots (nvm.filter (fun f => decide (f.ch.val = n - 17))) false
  else s

/-- A running operation of domain `n` ends with its change. -/
def Chip.endDomainOp (s : Chip) (n : Nat) : Chip :=
  match s.win.running with
  | some o =>
    (match o.kind with
     | .domain k _ => if k = n then { s with win := { s.win with running := none } } else s
     | .bringUp k => if k = n then { s with win := { s.win with running := none } } else s
     | _ => s)
  | none => s

/-- DOMAIN_CHANGE_END (R536, R538); a CACHE domain leaves ON only with its ways clean (R257). -/
def Chip.domainChangeEnd (s : Chip) (n : Nat) (ddr : List DdrFound) (nvm : List NvmFound) : Chip :=
  if s.domain n ≠ .changing then s
  else if 29 ≤ n ∧ Tab.get 0 s.mode.target n ≤ 1 ∧ !s.waysEmpty (domainWays n) then s.cleanWays (domainWays n)
  else
    let goal := Tab.get 0 s.mode.target n
    let s := if 29 ≤ n ∧ goal ≤ 1 then s.dropMacs (domainWays n) else s
    let s := { s with mode := { s.mode with target := Tab.del s.mode.target n } }
    let s := s.endDomainOp n
    match goal with
    | 0 => (s.setDomain n .off).domainLost n
    | 1 => s.setDomain n .retention
    | 2 => (s.setDomain n .on).bringUp n false ddr nvm
    | 3 =>
      let s := s.setDomain n .onHeld
      { s with mode := { s.mode with padsHeld := setBit s.mode.padsHeld n true } }
    | _ => (s.setDomain n .on).bringUp n true ddr nvm

/-- A write to domain.command (R533, R535, R537). -/
def Chip.domainCmd (s : Chip) (n v : Nat) : Nat × Chip :=
  let st := s.domain n
  let same := decide ((v = 0 ∧ st = .off) ∨ (v = 1 ∧ st = .retention) ∨ (v = 2 ∧ (st = .on ∨ st = .onHeld)))
  let now := decide (s.mode.current = .configuring ∨ s.mode.current = .training)
  let planned := decide (s.mode.current = .service ∨ s.mode.current = .diagnosis)
  if 2 < v ∨ s.noDomain n then (Abort.outOfRange, s)
  else if !now ∧ !planned then (Abort.wrongMode, s)
  else if s.domainBusy n then (Abort.resourceOwned, s)
  else if same then (0, s)
  else if n ≤ 2 then (Abort.wrongMode, s)
  else if v ≠ 2 ∧ (st = .on ∨ st = .onHeld) ∧ s.leaveOn n ≠ 0 then (s.leaveOn n, s)
  else if now then (0, s.beginDomain n v)
  else (0, s.requestOp (.domain n v) (s.domainUs n v))

/-- PAD_RELEASE (R538): the bring-up runs, in SERVICE and DIAGNOSIS as a scheduled operation. -/
def Chip.padRelease (s : Chip) (v : Nat) : Nat × Chip :=
  if !padDomain v then (Abort.outOfRange, s)
  else if s.domain v ≠ .onHeld then (Abort.channelState, s)
  else
    let planned := decide (s.mode.current = .service ∨ s.mode.current = .diagnosis)
    if !planned ∧ s.mode.current ≠ .configuring ∧ s.mode.current ≠ .training then (Abort.wrongMode, s)
    else
      let s := s.setDomain v .changing
      let s := { s with mode := { s.mode with padsHeld := setBit s.mode.padsHeld v false, target := Tab.set s.mode.target v 4 } }
      (0, if planned then s.requestOp (.bringUp v) (bringUpUs v) else s)

/-! ### Resets (R523, R539, R540) -/

/-- The map zone stands on the media: the root of a zone channel says so (R164, R295). -/
def Chip.zoneStands (s : Chip) : Bool := s.zoneChans.any (fun c => (s.nvm c).roots.any (·.zone))

/-- A place for a unit as no program runs (R308, R309, R327): the first ONLINE channel and bank with room (DESIGN CHOICE, log entry 6). -/
def Chip.flushPlace (s : Chip) (n : Nat) : Option (Nat × Nat) :=
  ((s.onlineChans .nvm).map (· - 8)).findSome? (fun ch => (s.banks ch).findSome? (fun k =>
    match s.openBlock ch k with
    | some o => if (s.blk ch o).next + n ≤ 32760 then some (ch, 32768 * o + (s.blk ch o).next) else none
    | none => none)
  <|> (s.banks ch).findSome? (fun k =>
    ((List.range (nvmBankBlocks (s.nvm ch).gib)).map (fun i => 32768 * k + i)).findSome? (fun b =>
      if s.placeOk ch (32768 * b) n then some (ch, 32768 * b) else none)))

/-- A dirty page of the reserve reaches the media plain (R178, R309, R327). -/
def Chip.flushPage (s : Chip) (p : Nat) : Chip :=
  let n := s.unitLines p (false, 63)
  match s.flushPlace n, Tab.find s.kiln.absorbed p with
  | some (ch, loc), some x =>
    let out := fun {α : Type} (t : Tab α) => t.filter (fun e => !(decide (e.1 / 64 = p) && bitOf x.mask (e.1 % 64)))
    let s := { s with kiln := { s.kiln with
      absorbed := Tab.del s.kiln.absorbed p, media := out s.kiln.media, mediaPoison := out s.kiln.mediaPoison } }
    (((s.placeUnit ch loc n).commitPage p { s.page p with grist := false, sectors := 63, ch := ch, loc := loc }).setGrist p []).freshMacs p
  | _, _ => s

/-- Programs in progress finish and commit; the reserve and the journal reach the media, and the zone roots read CLEAN (R327). With no
channel ONLINE nothing can be written (R328). -/
def Chip.flushAll (s : Chip) : Chip :=
  if s.nvmOnline = 0 then s
  else
    let s := { s with kiln := { s.kiln with
      progs := s.kiln.progs.map (fun (i, (g : Prog)) => (i, { g with suspended := false, pending := false })) } }
    let s := (s.kiln.progs.map (·.1)).foldl (fun s i => s.programComplete i true 0) s
    let ps := (s.kiln.absorbed.filter (fun e => e.2.persist)).map (·.1)
    (ps.foldl (fun s p => s.flushPage p) s).cleanRoots

/-- What a reset of CORE leaves (R539): what the media, the fuses, Seedbank's die and the SENTRY domain hold, and the inputs. Every other
part of the device is at its reset value, and HBM has a fresh key (R203). -/
def Chip.coreReset (s : Chip) (cause : Nat) : Chip :=
  let s := s.losePages
  let keep := s.zoneStands
  let out := fun {α : Type} (t : Tab α) => if keep then t else []
  { tb := { clk := s.tb.clk }
    fault := { sticky := s.fault.sticky, history := s.fault.history, dark := s.fault.dark }
    map := if keep then { extents := s.map.extents, tables := s.map.tables, nextTable := s.map.nextTable, pages := s.map.pages } else {}
    mem := (out s.mem).filter (fun e => decide (dlaWin e.1 = .memory))
    poison := (out s.poison).filter (fun e => decide (dlaWin (64 * e.1) = .memory))
    macs := out s.macs
    lauter := { zones := s.lauter.zones, jseq := s.lauter.jseq, checkpoint := s.lauter.checkpoint }
    mill := { pages := out s.mill.pages }
    husk := { rootDone := s.husk.rootDone, root := s.husk.root, debugClosed := s.husk.debugClosed, hbmKey := s.free }
    kiln := { chans := s.kiln.chans.map (fun (n, x) => (n, { roots := x.roots })), blocks := s.kiln.blocks }
    integ := { ring := s.integ.ring, producer := s.integ.producer, lost := s.integ.lost, lostSince := s.integ.lostSince
               kept := s.integ.kept, pageCnt := s.integ.pageCnt, bankCnt := s.integ.bankCnt, devCnt := s.integ.devCnt }
    field := { chainIn := s.field.chainIn }
    sb := { recs := s.sb.recs, sectors := s.sb.sectors, imgA := s.sb.imgA, imgB := s.sb.imgB, protect := s.sb.protect
            allowance := s.sb.allowance }
    power := s.power
    pkg := { s.pkg with tjPeak := s.pkg.tj }
    mode := { current := .recall, build := s.mode.build, strapsTaken := s.mode.strapsTaken, resetCause := cause
              resetCount := s.mode.resetCount, domains := [(1, .on), (2, .on)], railsUp := s.mode.railsUp }
    free := s.free + 1 }

/-- A chip reset (R539): counted, then RECALL. -/
def Chip.chipResetNow (s : Chip) (cause : Nat) : Chip :=
  let s := s.coreReset cause
  { s with mode := { s.mode with resetCount := wrap32 (s.mode.resetCount + 1) } }

/-- A chip reset that runs the steps of DRAIN first, within the flush time or not (R539). -/
def Chip.chipReset (s : Chip) (cause : Nat) (flushed : Bool) : Chip :=
  let s := s.leaveWindows
  (if flushed then s.flushAll else s).chipResetNow cause

/-- CHIP_RESET (R527). -/
def Chip.chipResetCmd (s : Chip) (flushed : Bool) : Nat × Chip :=
  match s.mode.current with
  | .unseated | .inserting | .persist => (Abort.wrongMode, s)
  | _ => (0, s.chipReset 2 flushed)

/-- SENTRY_POWER_ON_RESET (R523, R546): everything but the media, the fuses and Seedbank's die is at its default. -/
def Chip.sentryReset (s : Chip) : Chip :=
  let k := s.coreReset 0
  { k with power := {}, pkg := {}, mode := {}, fault := {} }

/-- SENTRY_POWER_LOSS (R574): nothing is powered. -/
def Chip.sentryLoss (s : Chip) : Chip := { s.sentryReset with power := { lost := true } }

/-- CHIP_POWER_ON (R539, R570): the straps are latched once per power-on reset of the sentry, a bit whose samples disagree as 1. -/
def Chip.chipPowerOn (s : Chip) (slot build unstable : Nat) : Chip :=
  if s.mode.current ≠ .inserting ∨ !s.power.pg ∨ s.mode.railsUp then s
  else
    let bad := countIf (fun i => bitOf unstable i) (List.range 8)
    let s := if s.mode.strapsTaken then s
      else { s with
        mode := { s.mode with strapsTaken := true, build := if bitOf unstable 7 then 1 else build }
        pkg := { s.pkg with slot := (slot ||| unstable) % 128, strapUnstable := s.pkg.strapUnstable + bad } }
    ({ s with mode := { s.mode with railsUp := true } } : Chip).coreReset 1

/-- RAIL_LOSS (R574): every domain but SENTRY is held in reset until the rails return. -/
def Chip.railLoss (s : Chip) : Chip :=
  if !s.mode.railsUp then s
  else
    let up := decide (s.power.st = .ramp ∨ s.power.st = .enhance ∨ s.power.st = .on)
    let cause := s.mode.resetCause
    let s := s.coreReset cause
    { s with mode := { s.mode with current := if up then .inserting else .unseated, domains := [], railsUp := false } }

/-! ### PERSIST (R327, R527, R528) -/

/-- PERSIST begins: windows are cancelled, requests not completed are abandoned, domains go OFF, and the flush runs. -/
def Chip.enterPersist (s : Chip) : Chip :=
  let s := s.leaveWindows
  let off := [3, 4, 5, 6, 7, 8, 9, 10, 11, 12, 13, 14, 15, 16, 29, 30]
  let s := off.foldl (fun s n => s.setDomain n .off) s
  { s with
    waits := []
    coh := { s.coh with txns := [], queue := [], devQueue := [], held := [] }
    fold := { s.fold with queue := [], waiting := [], running := [], fences := [], appends := [] }
    hop := { s.hop with waiting := [], chans := s.hop.chans.map (fun (c, x) =>
      (c, { x with st := if x.st = .off then .off else if x.stopped then x.st else .off, kept := true, bursts := [], stopping := false })) }
    heads := s.heads.map (fun (h, x) => (h, if x.state = .absent then x else x.linkClear .down))
    links := s.links.map (fun (l, k) =>
      (l, if k.st = .disabled then k else { k with st := .down, step := .none, downCause := 9, reqs := [], fences := [], rx := [], tx := []
                                                   held := [], wrTags := [], change := none, want := none }))
    lauter := { s.lauter with slots := s.lauter.slots.map (fun (i, m) => (i, { m with paused := true })) }
    cache := { s.cache with
      lines := s.cache.lines.filter (fun e => decide (e.2.way < 4)), macLines := s.cache.macLines.filter (fun e => decide (e.2.way < 4)) }
    win := { s.win with ops := [], running := none }
    kiln := { s.kiln with
      flushing := true, gpf := false, progs := s.kiln.progs.map (fun (i, g) => (i, { g with suspended := false })) }
    mode := { s.mode with current := .persist, padsHeld := 0, target := [] } }

/-- Feed loss is signalled (R501, R527, R528). -/
def Chip.feedLoss (s : Chip) : Chip :=
  match s.mode.current with
  | .service | .diagnosis | .drain | .safe => s.enterPersist
  | .update => if s.mode.bootUpdate then s else s.enterPersist
  | _ => s

/-- Unseating is signalled (R517, R527, R528): "card unseated" is raised, and DRAIN begins where a mode takes it. -/
def Chip.unseatSignal (s : Chip) : Chip :=
  let s := s.raise 185
  if s.mayDrain then s.enterDrain else s

/-- A feed is valid (R498, R499). -/
def Chip.feedOk (s : Chip) : Bool := decide (s.power.status % 4 ≠ 0)

/-- PERSIST_FLUSH_END (R327, R527): with a feed valid, PERSIST ends in a chip reset. -/
def Chip.persistFlushEnd (s : Chip) : Chip :=
  let ready := s.flushReady
  let s := s.flushEnd
  if ready && decide (s.mode.current = .persist) && s.feedOk then s.chipResetNow 4 else s

/-! ### The end of RECALL (R485, R492, R520, R524, R527, R546) -/

/-- The sentry registers take the values that the objects hold (R520). -/
def Chip.loadSentry (s : Chip) : Chip :=
  { s with power := { s.power with regs :=
      (rwpKeys.filter (fun k => decide (k / 256 / 2048 * 2048 = 0x2000))).foldl (fun t k => Tab.set t k (s.cfg k)) s.power.regs } }

/-- Reactions of sources that the sentry set while the core was dark (R546, R547). -/
def Chip.lightUp (s : Chip) : Chip :=
  let d := (List.range 256).filter (fun n => bitOf s.fault.dark n)
  let s := { s with fault := { s.fault with dark := 0 } }
  d.foldl (fun s n => s.react n 0xFF 0 .none true) s

/-- Every domain comes ON from OFF, but those that a compact build leaves OFF (R524). -/
def Chip.domainsOn (s : Chip) : Chip :=
  (List.range 31).foldl (fun s n => if 3 ≤ n ∧ !s.noDomain n then s.setDomain n .on else s) s

/-- A strap address is held from the end of RECALL (R477). -/
def Chip.strapAddress (s : Chip) : Chip :=
  if 1 ≤ s.pkg.slot ∧ s.pkg.slot ≤ 0x7E then { s with field := { s.field with addr := s.pkg.slot, source := 1 } } else s

/-- RECALL_END: the scan, the image that runs, the recalled configuration, and the mode that follows. -/
def Chip.recallEnd (s : Chip) (ms : Nat) (dieOk : Bool) (flips : List (Nat × Nat × Byte)) (aOk bOk entropyOk : Bool) : Chip :=
  if s.mode.current ≠ .recall then s
  else
    let boot := s.bootChoice aOk bOk
    let s := s.recallScan ms dieOk flips
    let s := if dieOk then s.restoreBlobs else s
    let s := if entropyOk then s else ({ s with husk := { s.husk with entropyFailed := true } } : Chip).raise 86
    let s := (s.loadSentry).domainsOn
    let s := { s with sb := { s.sb with boot := boot.getD 0 } }
    match boot with
    | some _ => (((s.setMode .unaddressed).lightUp).strapAddress).addressHeld
    | none =>
      let s := { s with mode := { s.mode with current := .update, bootUpdate := true } }
      ((s.lightUp).strapAddress).raise 166

/-! ### Resets of a port or a head (R539) -/

/-- What a conventional reset clears of a head: configuration, mailbox, event logs and HDM decoders. -/
def Chip.resetFunction (s : Chip) (h : Nat) : Chip :=
  s.setHead h { s.head h with
    mbox := {}, bar2 := {}, info := {}, warning := {}, failure := {}, fatal := {}, dyncap := {}, policy := 0x1F, msix := 0, hdm := []
    bi := false, stamp := 0, ideKeyed := 0, ideInsecure := 0, ideContain := false, flitsToMac := 0, ras := 0 }

/-- PERST_ASSERT (R539): the heads' links leave L0, so R76 and R77 apply. -/
def Chip.perst (s : Chip) (port : Nat) : Chip :=
  [2 * port, 2 * port + 1].foldl (fun s h => (s.headLinkDown h).resetFunction h) s

/-- HEAD_HOT_RESET (R539): an FLR leaves CXL.mem and the HDM decoders as they are; a hot reset takes the link out of L0. -/
def Chip.hotReset (s : Chip) (h : Nat) (flr : Bool) : Chip :=
  if flr then s.setHead h { s.head h with mbox := {}, bar2 := {}, msix := 0 }
  else (s.headLinkDown h).resetFunction h

end Sys2Proof.Machine
end

