-- ==== Sys2Proof/Machine/Power.lean ====
section
/-!
DEFINITION. Machine/Power.lean: the power entry controller (R499 to R520) and the sentry's duty cycle (R525).
-/
namespace Sys2Proof.Machine

/-! ### Registers, temperatures and states -/

/-- A sentry register (R520): its recalled value, or the default. -/
def Chip.sreg (s : Chip) (key : Nat) : Nat := (Tab.find s.power.regs key).getD (objDefault key)

/-- Point `k` of the breaker curve: current in mA and time in µs (R508). -/
def curvePoint (v k : Nat) : Nat × Nat := (bitsOf v (64 * k) 32, bitsOf v (64 * k + 32) 32)

/-- The curve is one that R508 allows, with this instantaneous limit. -/
def curveOk (v instant : Nat) : Bool :=
  let p := (List.range 8).map (curvePoint v)
  let used := p.filter (fun x => decide (x.1 ≠ 0))
  let pairs := used.zip used.tail
  decide (v < 2 ^ 512 ∧ (curvePoint v 0).1 ≠ 0 ∧ p = used ++ List.replicate (8 - used.length) (0, 0))
    && used.all (fun x => decide (1000 ≤ x.1 ∧ x.1 ≤ 250000 ∧ 1 ≤ x.2 ∧ x.2 ≤ 10000000 ∧ x.1 < instant))
    && pairs.all (fun (a, b) => decide (a.1 < b.1 ∧ b.2 ≤ a.2))

/-- The gate is not off: RAMP, ENHANCE or ON. -/
def PwrState.gate (p : PwrState) : Bool := decide (p = .ramp ∨ p = .enhance ∨ p = .on)

/-- The code of power.state (R502). -/
def PwrState.code : PwrState → Nat
  | .unseated => 0 | .seating => 1 | .precheck => 2 | .ramp => 3 | .enhance => 4 | .on => 5 | .tripped => 6 | .latched => 7

/-- 10^9: the model's units in a degree. -/
abbrev degree : Int := 1000000000

/-- T_FET in 10^−9 °C (R511): the model, the diode, or the higher; a diode that BOTH found bad is not used. -/
def Chip.tFet (s : Chip) : Int :=
  let m := s.power.tModel
  let d := s.power.diode * degree
  match s.sreg Obj.powerFetTempSource with
  | 0 => m
  | 1 => d
  | _ => if s.power.diodeBad then m else max m d

/-- T_FET is kept for power.fet_temp_c. -/
def Chip.keepTemp (s : Chip) : Chip := { s with power := { s.power with fetTemp := s.tFet / degree } }

/-- One step of the thermal model (R512): `p` in µW over `us` µs. -/
def Chip.thermalStep (s : Chip) (p : Int) (us : Nat) : Chip :=
  let t := s.power.tModel
  let heat := p * s.sreg Obj.powerFetRthMcPerW
  let tau : Int := s.sreg Obj.powerFetTauMs * 1000
  { s with power := { s.power with tModel := t + (heat - (t - s.sreg Obj.powerAmbientC * degree)) * us / tau } }

/-- Cooldown is met, as far as the temperature shows (R516). -/
def Chip.coolEnough (s : Chip) : Bool := decide (s.tFet < s.sreg Obj.powerFetCoolC * degree)

/-- Both seat pins read seated. -/
def Chip.seated (s : Chip) : Bool := s.power.seatA && s.power.seatB

/-- power.state takes a value; INSERTING ends when the ramp is given up (R527). -/
def Chip.setPwr (s : Chip) (p : PwrState) : Chip :=
  let s := { s with power := { s.power with st := p } }
  match s.mode.current with
  | .inserting => if p.gate then s else s.setMode .unseated
  | .unseated => if p = .ramp then s.setMode .inserting else s
  | _ => s

/-! ### Trips (R514 to R516) -/

/-- The lowest code set in a set of causes. -/
def lowestCause (causes : Nat) : Nat := ((List.range 16).find? (fun c => bitOf causes c)).getD 0

/-- The record of a trip with these causes (R514): `point` is that of CURVE. -/
def Chip.tripRec (s : Chip) (causes point : Nat) : TripRec :=
  let c := lowestCause causes
  { cause := c, point := if c = 1 then point else 0, causes := causes
    peakMa := s.power.recent.foldl (fun a i => max a i.toNat) 0
    temp := s.tFet / degree, vout := s.power.vout, retries := s.power.retries, state := s.power.st.code }

/-- The points of the curve whose timers have run out (R509), by number from 0. -/
def Chip.curveOut (s : Chip) : List Nat :=
  (List.range 8).filter (fun k =>
    let p := curvePoint (s.sreg Obj.powerCurve) k
    decide (p.1 ≠ 0 ∧ p.2 ≤ Tab.get 0 s.power.timers k))

/-- T_FET has reached the trip temperature (R511). -/
def Chip.overTemp (s : Chip) : Bool := decide (s.sreg Obj.powerFetTripC * degree ≤ s.tFet)

/-- The current has reached the instantaneous limit (R510). -/
def Chip.overInstant (s : Chip) : Bool := decide ((s.sreg Obj.powerInstantMa : Int) ≤ s.power.current)

/-- The causes of a trip with code `code`: it, and those that hold in the same sample (R514). -/
def Chip.tripCauses (s : Chip) (code : Nat) : Nat :=
  let causes := setBit 0 code true
  let causes := if s.curveOut ≠ [] then setBit causes 1 true else causes
  let causes := if s.overInstant then setBit causes 2 true else causes
  if s.overTemp then setBit causes 3 true else causes

/-- A trip with the gate on (R514, R515): the causes that hold in the same sample are recorded with it. -/
def Chip.trip (s : Chip) (code : Nat) : Chip :=
  let out := s.curveOut
  let causes := s.tripCauses code
  let c := lowestCause causes
  let retry := decide (1 ≤ c ∧ c ≤ 5)
  let spent := retry && decide (s.sreg Obj.powerRetryMax ≤ s.power.retries)
  let causes := if spent then setBit causes 10 true else causes
  let rec' := s.tripRec causes ((out.head?.getD 0) + 1)
  let s := { s with power := { s.power with
    pg := false, trip := rec', tripCount := wrap32 (s.power.tripCount + 1), vgsUs := 0
    retries := if retry then s.power.retries + 1 else s.power.retries
    cooldown := s.power.cooldown || retry || decide (c = 9), noRetry := decide (c = 9), exhausted := spent } }
  let s := s.setPwr (if spent || decide (c = 6) then .latched else .tripped)
  let s := s.raise 179
  let s := if c = 6 then s.raise 181 else s
  if spent then s.raise 180 else s

/-- A failed check with the gate off (R504, R514): the record and the source, and LATCHED. -/
def Chip.latchOff (s : Chip) (short sense : Bool) : Chip :=
  let causes := (if short then 128 else 0) + (if sense then 256 else 0)
  let s := { s with power := { s.power with trip := s.tripRec causes 0, exhausted := false } }
  let s := s.setPwr .latched
  let s := if short then s.raise 182 else s
  if sense then s.raise 183 else s

/-! ### Seating (R503, R517) -/

/-- The seat pins take values: a reseat clears the retries, SEATING begins, or its timer restarts. -/
def Chip.seatPins (s : Chip) (a b : Bool) : Chip :=
  let s := { s with power := { s.power with seatA := a, seatB := b } }
  let s := if a && b && s.power.away then { s with power := { s.power with away := false, retries := 0 } } else s
  match s.power.st with
  | .unseated =>
    if a && b && s.feedOk then (({ s with power := { s.power with seatRuns := true } } : Chip).setPwr .seating) else s
  | .seating => { s with power := { s.power with seatRuns := a && b && s.feedOk } }
  | _ => s

/-- SEAT_PIN_EDGE (R503). -/
def Chip.seatPinEdge (s : Chip) (a b : Bool) : Chip := if s.power.lost then s else s.seatPins a b

/-- SEAT_TIMER_EXPIRY (R503). -/
def Chip.seatTimerExpiry (s : Chip) : Chip :=
  if s.power.st = .seating ∧ s.power.seatRuns ∧ s.seated ∧ s.feedOk then
    ({ s with power := { s.power with checksPassed := false, seatRuns := false } } : Chip).setPwr .precheck
  else s

/-- Back to SEATING, with the seat timer at zero (R503, R504, R519). -/
def Chip.reseatTimer (s : Chip) : Chip :=
  ({ s with power := { s.power with seatRuns := s.seated && s.feedOk, checksPassed := false } } : Chip).setPwr .seating

/-- UNSEAT (R517): either pin has read unseated for 100 µs. -/
def Chip.unseat (s : Chip) : Chip :=
  if s.power.lost ∨ s.seated then s
  else
    let s := { s with power := { s.power with away := true } }
    let off := fun (s : Chip) =>
      (({ s with power := { s.power with seatRuns := false, checksPassed := false, noRetry := false, exhausted := false, vgsUs := 0 } } :
        Chip).setPwr .unseated)
    match s.power.st with
    | .seating | .precheck | .ramp | .enhance | .tripped => off s
    | .latched => if s.power.exhausted then off s else s
    | .on => s.unseatSignal
    | .unseated => s

/-! ### Feeds (R499 to R501, R519) -/

/-- Feed `f` is valid. -/
def Chip.feedValidBit (s : Chip) (f : Nat) : Bool := bitOf s.power.status f

/-- A feed's voltage is kept. -/
def Chip.keepFeed (s : Chip) (f mv : Nat) : Chip :=
  if f = 0 then { s with power := { s.power with feedA := mv } } else { s with power := { s.power with feedB := mv } }

/-- A feed is declared invalid (R499, R501); its ORing FET is off (R500). -/
def Chip.dropFeed (s : Chip) (f mv : Nat) : Chip :=
  let high := decide (s.sreg Obj.powerFeedOvMv < mv)
  let was := s.feedValidBit f
  let wasHigh := bitOf s.power.status (2 + f)
  let st := setBit (setBit (setBit s.power.status f false) (2 + f) high) (4 + f) false
  let s := ({ s with power := { s.power with status := st } } : Chip).keepFeed f mv
  let s := if was then s.raise (176 + f) else s
  if high && !wasHigh then s.raise 178 else s

/-- A feed is declared valid; its ORing FET turns on where it leads V_BUS by 50 mV (R500). -/
def Chip.takeFeed (s : Chip) (f mv : Nat) : Chip :=
  let on := bitOf s.power.status (4 + f) || decide (s.power.vbus + 50 ≤ mv)
  let st := setBit (setBit (setBit s.power.status f true) (2 + f) false) (4 + f) on
  ({ s with power := { s.power with status := st } } : Chip).keepFeed f mv

/-- The feed's voltage lies in its range (R499). -/
def Chip.feedInRange (s : Chip) (mv : Nat) : Bool := decide (s.sreg Obj.powerFeedUvMv ≤ mv ∧ mv ≤ s.sreg Obj.powerFeedOvMv)

/-- Both feeds are invalid (R501, R519). -/
def Chip.feedsGone (s : Chip) : Chip :=
  match s.power.st with
  | .seating | .precheck => s.reseatTimer
  | .ramp | .enhance => ({ s with power := { s.power with vgsUs := 0 } } : Chip).reseatTimer
  | .on => s.feedLoss
  | _ => s

/-- FEED_INVALID (R499, R501). -/
def Chip.feedInvalid (s : Chip) (f mv : Nat) : Chip :=
  if s.power.lost ∨ s.feedInRange mv then s
  else
    let had := s.feedOk
    let s := s.dropFeed f mv
    if had && !s.feedOk then s.feedsGone else s

/-- FEED_VALID (R499, R519). -/
def Chip.feedValid (s : Chip) (f mv : Nat) : Chip :=
  if s.power.lost ∨ !s.feedInRange mv then s
  else (s.takeFeed f mv).seatPins s.power.seatA s.power.seatB

/-- ORING_REVERSE (R500). -/
def Chip.oringReverse (s : Chip) (f feed vbus : Nat) : Chip :=
  if s.power.lost ∨ vbus < feed + 10 then s
  else
    ({ s with power := { s.power with vbus := vbus, status := setBit s.power.status (4 + f) false } } : Chip).keepFeed f feed

/-! ### PRECHECK, RAMP, ENHANCE and ON (R504 to R507) -/

/-- RAMP begins. -/
def Chip.enterRamp (s : Chip) : Chip := ({ s with power := { s.power with checksPassed := false } } : Chip).setPwr .ramp

/-- The diode reading is out of its range (R504). -/
def diodeOut (d : Int) : Bool := decide (d < -40 ∨ 200 < d)

/-- A bad reading with the gate off (R504, R525): whether it is a sense fault, and the state with a diode that BOTH ignores. -/
def Chip.senseCheck (s : Chip) (current diode : Int) : Bool × Chip :=
  let src := s.sreg Obj.powerFetTempSource
  let bad := diodeOut diode
  let s := { s with power := { s.power with current := current, diode := diode, diodeBad := decide (src = 2) && bad } }
  let s := if src = 2 ∧ bad then s.raise 184 else s
  (decide (current < -2000 ∨ 2000 < current) || (decide (src = 1) && bad), s)

/-- PRECHECK_END (R504): the checks are judged. -/
def Chip.precheckEnd (s : Chip) (rise current diode : Int) : Chip :=
  if s.power.st ≠ .precheck ∨ s.power.checksPassed then s
  else
    let (sense, s) := s.senseCheck current diode
    let short := decide (500 ≤ rise)
    if short || sense then s.latchOff short sense
    else if !s.seated || !s.feedOk then s.reseatTimer
    else if s.coolEnough && !s.power.cooldown then s.enterRamp
    else { s with power := { s.power with checksPassed := true } }

/-- COOLDOWN_MET (R516): power.retry_ms has passed, and T_FET is below power.fet_cool_c. -/
def Chip.cooldownMet (s : Chip) : Chip :=
  if s.power.lost ∨ !s.coolEnough then s
  else
    let s := { s with power := { s.power with cooldown := false } }
    match s.power.st with
    | .tripped =>
      if s.power.noRetry ∨ !s.seated then s
      else ({ s with power := { s.power with checksPassed := false } } : Chip).setPwr .precheck
    | .precheck =>
      if !s.power.checksPassed then s
      else if s.seated && s.feedOk then s.enterRamp else s.reseatTimer
    | _ => s

/-- RAMP_END (R505). -/
def Chip.rampEnd (s : Chip) (vout vbus : Nat) : Chip :=
  if s.power.st = .ramp ∧ vbus ≤ vout + 300 then
    ({ s with power := { s.power with vout := vout, vbus := vbus } } : Chip).setPwr .enhance
  else s

/-- RAMP_TIMEOUT (R505). -/
def Chip.rampTimeout (s : Chip) (vout : Nat) : Chip :=
  if s.power.st = .ramp then ({ s with power := { s.power with vout := vout } } : Chip).trip 4 else s

/-- ENHANCE_DONE (R506). -/
def Chip.enhanceDone (s : Chip) (vgs : Nat) : Chip :=
  if s.power.st = .enhance ∧ s.sreg Obj.powerGateOnMv ≤ vgs then
    ({ s with power := { s.power with vgsUs := 0 } } : Chip).setPwr .on
  else s

/-- ENHANCE_TIMEOUT (R506). -/
def Chip.enhanceTimeout (s : Chip) : Chip := if s.power.st = .enhance then s.trip 6 else s

/-- GATE_LOW_IN_ON (R506): no trip. -/
def Chip.gateLow (s : Chip) : Chip := if s.power.st = .on then s.raise 181 else s

/-- The fault timers after one sample (R509). -/
def Chip.stepTimers (s : Chip) (current : Int) : Tab Nat :=
  (List.range 8).foldl (fun t k =>
    let p := curvePoint (s.sreg Obj.powerCurve) k
    if p.1 = 0 then t
    else Tab.upd 0 t k (fun c => if (p.1 : Int) ≤ current then c + 1 else c - 1)) s.power.timers

/-- CURRENT_SAMPLE (R507, R509, R512): the timers, the model and PG_OUT. In SEATING and PRECHECK, where the sentry samples with the gate
off (R525), only the readings and the model. -/
def Chip.currentSample (s : Chip) (x : CurSample) : Chip :=
  let keep := fun (s : Chip) =>
    ({ s with power := { s.power with current := x.current, vbus := x.vbus, vout := x.vout, diode := x.diode } } : Chip)
  if s.power.st.gate then
    let p := max 0 (((x.vbus : Int) - x.vout) * x.current)
    let timers := s.stepTimers x.current
    let vgs := if s.sreg Obj.powerGateOnMv ≤ x.vgs then s.power.vgsUs + 1 else 0
    let s := ((keep s).thermalStep p 1).keepTemp
    let good := decide (s.power.st = .on ∧ 1000 ≤ vgs ∧ s.cfg Obj.powerPgVoutMv ≤ x.vout ∧ timers = [])
    { s with power := { s.power with
      timers := timers, vgsUs := vgs, recent := (x.current :: s.power.recent).take 1000, pg := s.power.pg || good } }
  else if s.power.st = .seating ∨ s.power.st = .precheck then ((keep s).thermalStep 0 1).keepTemp
  else s

/-- CURVE_TRIP (R509) of point `k` + 1. -/
def Chip.curveTrip (s : Chip) (k : Nat) : Chip := if s.power.st.gate ∧ s.curveOut.contains k then s.trip 1 else s

/-- INSTANT_TRIP (R510). -/
def Chip.instantTrip (s : Chip) (current : Int) : Chip :=
  if s.power.st.gate ∧ (s.sreg Obj.powerInstantMa : Int) ≤ current then
    ({ s with power := { s.power with current := current, recent := (current :: s.power.recent).take 1000 } } : Chip).trip 2
  else s

/-- OVER_TEMP_TRIP (R511). -/
def Chip.overTempTrip (s : Chip) : Chip := if s.power.st.gate ∧ s.overTemp then s.trip 3 else s

/-- BROWNOUT (R514). -/
def Chip.brownout (s : Chip) (vout : Nat) : Chip :=
  if s.power.st = .on ∧ vout < s.sreg Obj.powerBrownoutMv then ({ s with power := { s.power with vout := vout } } : Chip).trip 5 else s

/-- RETRY_CLEAR (R515). -/
def Chip.retryClear (s : Chip) (secs : Nat) : Chip :=
  if s.power.pg ∧ s.sreg Obj.powerRetryClearS ≤ secs then { s with power := { s.power with retries := 0 } } else s

/-- power.command (R518). -/
def Chip.powerCmd (s : Chip) (v : Nat) : Nat × Chip :=
  if v ≠ 1 then (Abort.outOfRange, s)
  else if s.mode.current ≠ .drain then (Abort.wrongMode, s)
  else if s.power.st ≠ .on then (Abort.channelState, s)
  else (0, s.trip 9)

/-! ### The duty cycle (R525) -/

/-- SENTRY_WAKE: in the states that are not sampled continuously, both feeds, the current, the diode and the pins are sampled, and the
model takes a step of 1 ms. -/
def Chip.sentryWake (s : Chip) (x : PwrSample) : Chip :=
  match s.power.st with
  | .unseated | .tripped | .latched =>
    if s.power.lost then s
    else
      let feed := fun (s : Chip) (f mv : Nat) => if s.feedInRange mv then s.takeFeed f mv else s.dropFeed f mv
      let s := feed (feed s 0 x.feedA) 1 x.feedB
      let d := if s.sreg Obj.powerFetTempSource = 0 then s.power.diode else x.diode
      let (sense, s) := s.senseCheck x.current d
      let s := if sense then s.raise 183 else s
      ((s.thermalStep 0 1000).keepTemp).seatPins x.seatA x.seatB
  | _ => s

/-- The 16 bytes of power.trip_record (R514). -/
def TripRec.bytes (r : TripRec) : List Byte :=
  bytesLE 1 r.cause ++ bytesLE 1 r.point ++ bytesLE 2 r.causes ++ bytesLE 4 r.peakMa ++ bytesLE 2 (r.temp % 65536).toNat
    ++ bytesLE 2 r.vout ++ bytesLE 1 r.retries ++ bytesLE 1 r.state ++ [0, 0]

end Sys2Proof.Machine
end

