-- ==== Sys2Proof/Machine/Collector.lean ====
section
/-!
DEFINITION. Machine/Collector.lean: the fault collector's commands and self-check (R544 to R550), counter snapshots and the dump ring
(R39, R561 to R563), and the counter filters (R555 to R557).
-/
namespace Sys2Proof.Machine

/-! ### The fault collector -/

/-- fault.clear (R547). -/
def Chip.faultClear (s : Chip) (v : Nat) : Nat × Chip :=
  if v = 0xFFFF then (0, { s with fault := { s.fault with sticky := 0 } })
  else if 255 < v then (Abort.outOfRange, s)
  else (0, { s with fault := { s.fault with sticky := setBit s.fault.sticky v false } })

/-- A configuration byte that source `n` may have (R544): no reserved bit, zero for a reserved source, no change to source 192, and no
INT for an access violation. -/
def Chip.faultByteOk (s : Chip) (n b : Nat) : Bool :=
  decide (b < 128) && ((faultDefault n).isSome || decide (b = 0)) && decide (n ≠ 192 ∨ b = s.faultByte 192)
    && !(decide (32 ≤ n ∧ n ≤ 36) && bitOf b 2)

/-- fault.edit (R544). -/
def Chip.faultEdit (s : Chip) (v : Nat) : Nat × Chip :=
  let n := bitsOf v 0 8
  let b := bitsOf v 8 8
  if !s.faultByteOk n b then (Abort.outOfRange, s)
  else s.commitRwp Obj.faultConfig 256 (setField (s.cfg Obj.faultConfig) (8 * n) 8 b)

/-- FAULT_INTEGRITY_SCAN (R550): on a mismatch the device goes to SAFE, source 192 is set, and the word is repaired: a configuration word
from its recalled value, a sticky word to all ones. Which word it was is free (log entry 2). -/
def Chip.integrityScan (s : Chip) (ok : Bool) : Chip :=
  if ok then s
  else
    let (v, s) := s.takeNat
    let word := v / 2 % 8
    let s := { s with fault := { s.fault with
      integrityErrors := wrap32 (s.fault.integrityErrors + 1)
      sticky := if v % 2 = 0 then s.fault.sticky else s.fault.sticky ||| ((2 ^ 32 - 1) * 2 ^ (32 * word)) } }
    (s.raise 192).requestSafe

/-- LOCKSTEP_MISMATCH (R551). -/
def Chip.lockstep (s : Chip) : Chip := s.raise 193

/-- Chip resets of the history that fall within fault.reset_window_s: the sentry's own timer has no command, so how many is free (log
entry 2), and no more than are in it. -/
def Chip.recentResets (s : Chip) : Nat × Chip :=
  if s.fault.history = 0 then (0, s)
  else
    let (v, s) := s.takeNat
    (v % (s.fault.history + 1), s)

/-- A CHIP_RESET reaction (R545, R549): counted and limited. Whether its flush ends in time is free (R539; log entry 2). -/
def Chip.resetReaction (s : Chip) : Chip :=
  match s.mode.current with
  | .unseated | .inserting | .persist => s
  | _ =>
    let (n, s) := s.recentResets
    if s.cfg Obj.faultResetLimit < n + 1 then
      (({ s with fault := { s.fault with history := n } } : Chip).raise 194).requestSafe
    else
      let (v, s) := s.takeNat
      ({ s with fault := { s.fault with history := n + 1 } } : Chip).chipReset 3 (decide (v % 2 = 0))

/-! ### Snapshots and the dump ring -/

/-- The first due point at or after `tc` (R562). -/
def firstDue (start period tc : Nat) : Nat := if tc ≤ start then start else start + ceilDiv (tc - start) period * period

/-- The class in effect, as a dump record names it (R564): 0 OPEN, 1 QUIET, 2 BURST. -/
def Chip.windowClass (s : Chip) : Nat := if s.inBurst then 2 else if s.inQuiet then 1 else 0

/-- A snapshot (R39, R562, R564): its sequence number is consumed; with one waiting it is skipped. The core clocks and the counters
without a stated numbering are free (log entry 2). -/
def Chip.snapshot (s : Chip) (commanded : Bool) : Chip :=
  let seq := s.cnt.nextSeq
  if s.cnt.latched.isSome then
    { s with cnt := { s.cnt with
      nextSeq := wrap32 (seq + 1), skipped := wrap32 (s.cnt.skipped + 1), skippedSince := wrap32 (s.cnt.skippedSince + 1) } }
  else
    let (a, s) := s.takeNat
    let (b, s) := s.takeNat
    let r : DumpRec := { seq := seq, epoch := s.tb.epoch, tbState := s.tb.code, commanded := commanded, tc := s.tb.tc
                         clocks := a % 2 ^ 64, window := s.windowClass, skipped := 0, filterGen := s.cnt.filterGen, rest := b
                         counters := s.cnt.vals }
    { s with cnt := { s.cnt with nextSeq := wrap32 (seq + 1), latched := some r } }

/-- The due point that stands next: one that TC has stepped past, or that lies more than a period ahead, gives way to the first one
after TC (R562). -/
def Chip.dueNow (s : Chip) : Option Nat :=
  let p := s.cfg Obj.cntDumpPeriodTc
  match s.cnt.nextDue with
  | some d => if p = 0 then none else some (if s.tb.tc ≤ d + 2 ∧ d ≤ s.tb.tc + p then d else firstDue (s.cfg Obj.cntDumpStartTc) p s.tb.tc)
  | none => none

/-- COUNTER_SNAPSHOT_DUE (R39, R562): within R17 of the due TC, and never while UNLOCKED. -/
def Chip.snapshotDue (s : Chip) : Chip :=
  match s.dueNow with
  | some d =>
    if s.tb.state = .unlocked ∨ s.tb.tc + 2 < d then s
    else
      let s := s.snapshot false
      { s with cnt := { s.cnt with nextDue := some (d + s.cfg Obj.cntDumpPeriodTc) } }
  | none => s

/-- The ring is full (R563). -/
def Chip.dumpFull (s : Chip) : Bool :=
  decide (diff32 s.cnt.producer (s.cfg Obj.cntDumpConsumer) = s.cfg Obj.cntDumpRecords)

/-- DUMP_WRITE_OUT (R39, R563): outside BURST; a full ring discards the record. -/
def Chip.dumpWriteOut (s : Chip) : Chip :=
  match s.cnt.latched with
  | none => s
  | some r =>
    if !s.permits .dumpWriteOut then s
    else if s.dumpFull then
      { s with cnt := { s.cnt with
        latched := none, skipped := wrap32 (s.cnt.skipped + 1), skippedSince := wrap32 (s.cnt.skippedSince + 1) } }
    else
      { s with cnt := { s.cnt with
        ring := Tab.set s.cnt.ring (s.cnt.producer % s.cfg Obj.cntDumpRecords) { r with skipped := s.cnt.skippedSince }
        latched := none, skippedSince := 0, producer := wrap32 (s.cnt.producer + 1) } }

/-- cnt.dump_now (R562). -/
def Chip.dumpNow (s : Chip) (v : Nat) : Nat × Chip :=
  if v ≠ 1 then (Abort.outOfRange, s)
  else if s.cnt.latched.isSome then (Abort.resourceOwned, s)
  else (0, s.snapshot true)

/-- A ring size that R566 allows. -/
def dumpRecordsOk (v : Nat) : Bool := decide (v = 0) || (List.range 11).any (fun k => decide (v = 2 ^ (k + 1)))

/-- cnt.dump_records (R562). -/
def Chip.setDumpRecords (s : Chip) (v : Nat) : Nat × Chip :=
  if !dumpRecordsOk v then (Abort.outOfRange, s)
  else if s.cfg Obj.cntDumpPeriodTc ≠ 0 ∨ s.residentMib * mib < s.mirrorBytes + 16384 * v then (Abort.resourceOwned, s)
  else
    let (a, s') := s.commitRwp Obj.cntDumpRecords 2 v
    if a ≠ 0 then (a, s)
    else
      let s' := s'.setRw Obj.cntDumpConsumer 0
      (0, { s' with cnt := { s'.cnt with producer := 0, ring := [] } })

/-- cnt.dump_start_tc and cnt.dump_period_tc (R562): the schedule starts from the write. -/
def Chip.setDumpSchedule (s : Chip) (period : Bool) (v : Nat) : Nat × Chip :=
  if period ∧ v ≠ 0 ∧ (v < 65536 ∨ 2 ^ 37 < v) then (Abort.outOfRange, s)
  else
    let s := s.setRw (if period then Obj.cntDumpPeriodTc else Obj.cntDumpStartTc) v
    let p := s.cfg Obj.cntDumpPeriodTc
    (0, { s with cnt := { s.cnt with nextDue := if p = 0 then none else some (firstDue (s.cfg Obj.cntDumpStartTc) p s.tb.tc) } })

/-! ### Filters -/

/-- A filter set that R555 allows. -/
def filterOk (v : Nat) : Bool :=
  decide (bitsOf v 16 8 ≤ bitsOf v 24 8 ∧ bitsOf v 64 46 ≤ bitsOf v 128 46)
    && decide (bitsOf v 35 29 = 0 ∧ bitsOf v 110 18 = 0 ∧ bitsOf v 174 82 = 0)

/-- A cnt.filter_select value that R555 allows. -/
def filterSelectOk (v : Nat) : Bool :=
  (List.range 2048).all (fun k => let b := bitsOf v (8 * k) 8; decide (b < 32 ∨ b = 0x3F))

/-- A filter write took effect (R557). -/
def Chip.filterWritten (s : Chip) : Chip := { s with cnt := { s.cnt with filterGen := wrap32 (s.cnt.filterGen + 1) } }

/-- cnt.filter (R555, R557). -/
def Chip.setFilter (s : Chip) (f v : Nat) : Nat × Chip :=
  if !filterOk v then (Abort.outOfRange, s)
  else
    let (a, s') := s.commitRwp (objAt Obj.cntFilter f) 32 v
    if a = 0 then (0, s'.filterWritten) else (a, s)

/-- cnt.filter_select (R555, R557). -/
def Chip.setFilterSelect (s : Chip) (v : Nat) : Nat × Chip :=
  if !filterSelectOk v then (Abort.outOfRange, s)
  else
    let (a, s') := s.commitRwp Obj.cntFilterSelect 2048 v
    if a = 0 then (0, s'.filterWritten) else (a, s)

/-- cask.counter_marks (R557). -/
def Chip.setMarks (s : Chip) (c v : Nat) : Nat × Chip :=
  if 15 < v then (Abort.outOfRange, s) else (0, (s.setRw (objAt Obj.caskCounterMarks c) v).filterWritten)

/-- The value of counter `n` (R552, R565): one whose events the model does not hold is free (log entries 26 and 125). -/
def Chip.counter (s : Chip) (n : Nat) : Nat × Chip :=
  if counterHidden n then
    let (v, s) := s.takeNat
    (v % 2 ^ 48, s)
  else (Tab.get 0 s.cnt.vals n, s)

end Sys2Proof.Machine
end

