-- ==== Sys2Proof/Machine/Objects.lean ====
section
/-!
DEFINITION. Machine/Objects.lean: what every object of the dictionary reads as (R453), and its description record (R457): the values
the device maintains, range by range, and the stored values of the rest.
-/
namespace Sys2Proof.Machine

/-! ### State codes -/

/-- Mode codes (R526). -/
def Mode.code : Mode → Nat
  | .unseated => 0 | .inserting => 1 | .recall => 2 | .unaddressed => 3 | .configuring => 4 | .training => 5
  | .service => 6 | .persist => 7 | .drain => 8 | .diagnosis => 9 | .safe => 10 | .update => 11

/-- Power domain codes (R533). -/
def DomPower.code : DomPower → Nat
  | .off => 0 | .retention => 1 | .on => 2 | .onHeld => 3 | .changing => 4 | .duty => 5

/-- Head state codes (R80). -/
def HeadState.code : HeadState → Nat
  | .absent => 0 | .down => 1 | .ioOnly => 2 | .active => 3 | .lost => 4

/-- Cask state codes (R98). -/
def CaskState.code : CaskState → Nat
  | .free => 0 | .active => 1 | .quiescing => 2 | .quiesced => 3 | .resetting => 4

/-- Key state codes (R221). -/
def KeyState.code : KeyState → Nat
  | .empty => 0 | .loaded => 1 | .erasing => 2 | .erased => 3 | .fault => 4

/-- Coherence domain codes (R142). -/
def DomState.code : DomState → Nat
  | .unused => 0 | .active => 1 | .down => 2 | .recalling => 3

/-- Channel codes (R167). -/
def ChanState.code : ChanState → Nat
  | .absent => 0 | .offline => 1 | .online => 2 | .evacuating => 3 | .evacuated => 4

/-- Link codes (R396). -/
def LinkState.code : LinkState → Nat
  | .disabled => 0 | .training => 1 | .active => 2 | .changing => 3 | .down => 4

/-- A number in two's complement over `n` bytes (R2). -/
def twos (n : Nat) (x : Int) : Nat := (x % (256 ^ n : Int)).toNat

/-- Whole MiB, rounded up (R586). -/
def mibUp (bytes : Nat) : Nat := ceilDiv bytes mib

/-! ### Values the device maintains, by owner range -/

/-- 0x1000 (R481, R585). -/
def Chip.readIdentity (s : Chip) (idx sub : Nat) : Option Nat :=
  match idx, sub with
  | 0x1000, 4 => some Config.serial.toNat
  | 0x1000, 5 => some s.runningImage.version.toNat
  | 0x1010, 3 => some s.dict.abandoned
  | 0x1020, 1 => some s.field.addr
  | 0x1020, 2 => some s.field.source
  | 0x1020, 3 => some s.pkg.slot
  | 0x1020, 7 => some s.field.busState
  | 0x1020, 8 => some s.field.txErr
  | 0x1020, 9 => some s.field.rxErr
  | 0x1020, 10 => some s.field.busOffs
  | 0x1020, 11 => some s.field.malformed
  | 0x1020, 12 => some s.field.alarmsLost
  | 0x1020, 13 => some s.field.abandoned
  | 0x1020, 14 => some s.field.conflicts
  | 0x1030, 1 => some (twos 2 s.pkg.tj)
  | 0x1030, 2 => some (twos 2 s.pkg.tjPeak)
  | 0x1030, 3 => some s.pkg.strapUnstable
  | _, _ => none

/-- 0x2000 (R522). -/
def Chip.readPower (s : Chip) (idx sub : Nat) : Option Nat :=
  if idx ≠ 0x2000 then none
  else match sub with
    | 1 => some s.power.st.code
    | 3 => some s.power.pg.toNat
    | 4 => some s.power.feedA
    | 5 => some s.power.feedB
    | 6 => some s.power.vout
    | 7 => some (twos 4 s.power.current)
    | 8 => some s.power.status
    | 9 => some (twos 2 s.power.fetTemp)
    | 10 => some (twos 2 (s.power.tModel / 1000000000))
    | 11 => some (natLE s.power.trip.bytes)
    | 12 => some s.power.tripCount
    | 13 => some s.power.retries
    | _ => none

/-- The duration of the pending or next change of a domain (R535, R536). -/
def Chip.changeUs (s : Chip) (n : Nat) : Nat :=
  let of : SchedOp → Option Nat := fun o => match o.kind with
    | .domain k _ => if k = n then some o.us else none
    | .bringUp k => if k = n then some o.us else none
    | _ => none
  match ((s.win.running.toList ++ s.win.ops).filterMap of).head? with
  | some us => us
  | none => if n ≤ 2 then 0 else s.domainUs n (if s.domain n = .on ∨ s.domain n = .onHeld then 0 else 2)

/-- 0x2800 (R542). -/
def Chip.readMode (s : Chip) (idx sub : Nat) : Option Nat :=
  if idx = 0x2800 then
    match sub with
    | 1 => some s.mode.current.code
    | 3 => some s.mode.previous.code
    | 6 => some s.mode.drainState
    | 8 => some s.mode.build
    | 9 => some s.mode.resetCause
    | 10 => some s.mode.resetCount
    | 12 => some s.mode.padsHeld
    | _ => none
  else
    match sub with
    | 1 => some (s.domain (idx - 0x2810)).code
    | 3 => some (s.changeUs (idx - 0x2810))
    | _ => none

/-- 0x3000 (R496). -/
def Chip.readSeedbank (s : Chip) (sub : Nat) : Option Nat :=
  match sub with
  | 1 => some s.sb.st
  | 2 => some s.sb.protect
  | 4 => some s.sb.scanMs
  | 5 => some s.sb.torn
  | 6 => some s.sb.bad
  | 7 => some s.sb.conflicts
  | 8 => some s.sbFreeKib
  | 9 => some s.erasedSectors.length
  | 10 => some s.sb.compactions
  | 11 => some (s.sb.sectors.foldl (fun a e => max a e.2.erases) 0)
  | 12 => some (twos 4 (s.sb.allowance / 1024))
  | 13 => some s.sb.deferred
  | 14 => some s.sb.boot
  | 15 => some s.sb.powerups
  | _ => none

/-- 0x4000 (R49); `m` is the reader. -/
def Chip.readTimebase (s : Chip) (m idx sub : Nat) : Option Nat :=
  match idx, sub with
  | 0x4000, 1 => some s.tb.tc
  | 0x4000, 2 => some s.tb.epoch
  | 0x4000, 3 => some s.tb.code
  | 0x4000, 5 => some s.tb.measuredKhz
  | 0x4000, 9 => some s.tb.crcErrors
  | 0x4000, 10 => some s.tb.realigns
  | 0x4010, 2 => some (s.resultOf m)
  | 0x4010, 3 => some s.win.pending.length
  | 0x4010, 4 => some s.windowClass
  | 0x4010, 5 => some (match s.window with | some w => w.tag | none => 0)
  | 0x4010, 6 => some s.win.barriers
  | 0x4020, 4 => some s.win.breaches
  | 0x4030, 2 => some s.absorbDirtyMib
  | 0x4030, 3 => some s.committedMib
  | 0x4030, 4 => some s.drainRate
  | _, 1 => if 0x4040 ≤ idx then some (Tab.get 0 s.win.debtLevel (idx - 0x4040)) else none
  | _, 2 => if 0x4040 ≤ idx then some (s.accrual (idx - 0x4040)) else none
  | _, 6 => if 0x4040 ≤ idx then some (Tab.get 0 s.win.debtOverruns (idx - 0x4040)) else none
  | _, _ => none

/-- A head's state as the object shows it: a present head whose domain is ON is DOWN until it trains (R80). -/
def Chip.headState (s : Chip) (h : Nat) : HeadState :=
  match (s.head h).state with
  | .absent => if s.headPresent h ∧ s.domain (headDomain h) = .on then .down else .absent
  | x => x

/-- 0x4800 (R80). -/
def Chip.readPorts (s : Chip) (idx sub : Nat) : Option Nat :=
  if idx = 0x4800 then (if sub = 6 then some Config.faultUuid.toNat else none)
  else if 0x4810 ≤ idx ∧ idx < 0x4814 then
    let h := idx - 0x4810
    match sub with
    | 1 => some (s.headState h).code
    | 2 => some (s.head h).width
    | 3 => some (s.head h).rate
    | 4 => some (s.head h).flit
    | 6 => some (s.head h).failovers
    | 7 => some (s.readCredits h)
    | _ => none
  else none

/-- 0x5000 (R291). -/
def Chip.readDdrObjects (s : Chip) (idx sub : Nat) : Option Nat :=
  if idx = 0x5000 then (if sub = 8 then some s.frozenMask else none)
  else if idx = 0x5080 then (if sub = 2 then some s.dram.helper.result else none)
  else if 0x5010 ≤ idx ∧ idx < 0x5018 then
    let n := idx - 0x5010
    let c := s.ddr n
    match sub with
    | 1 => some c.gib
    | 2 => some c.dimms
    | 3 => some c.train
    | 4 => some (s.fsp0Mts n c.dimms)
    | 6 => some c.fsp
    | 7 => some c.freeze
    | 8 => some (natLE c.snapshot)
    | 10 => some c.poisonList.length
    | 11 => some c.retries
    | 12 => some c.rereadsOk
    | 13 => some c.freezes
    | 14 => some (2 * c.stale.length)
    | 15 => some (twos 1 c.temp)
    | 16 => some (twos 1 c.balance)
    | _ => none
  else none

/-- 0x5800 (R258, R291). -/
def Chip.readHbmObjects (s : Chip) (sub : Nat) : Option Nat :=
  match sub with
  | 3 => some (mibUp (s.absorbBytes true))
  | 4 => some s.residentMib
  | 5 => some (mibUp s.mirrorBytes)
  | 6 => some (mibUp (4096 * (s.pagesOn .hbm 0).length))
  | 7 => some s.reserveChangeUs
  | 8 => some (twos 1 s.dram.hbmTemp)
  | 9 => some s.dram.mirrorWaits
  | 10 => some s.dram.reserveWaits
  | _ => none

/-- The blocks of an NVM channel that are not simply free: known by wear, by the data on them or by retirement. -/
def Chip.knownBlocks (s : Chip) (ch : Nat) : List Nat :=
  let worn := (s.kiln.blocks.filter (fun e => decide (e.1 / 2 ^ 20 = ch))).map (fun e => e.1 % 2 ^ 20)
  let held := ((s.pagesOn .nvm ch).filter (fun e => decide (e.2.loc ≠ pendingLoc))).map (fun e => e.2.loc / 32768)
  let olds := (s.kiln.olds.filter (fun o => decide (o.old.ch = ch))).map (fun o => o.old.loc / 32768)
  let gone := (s.lauter.excluded.filter (fun v => decide (v % 2 ^ 12 = nvmUnit ch 2 0))).map (fun v => v / 2 ^ 12)
  (worn ++ held ++ olds ++ gone).eraseDups

/-- Free blocks of an NVM channel (R332). -/
def Chip.blocksFree (s : Chip) (ch : Nat) : Nat :=
  let c := s.nvm ch
  c.roots.length * (16 * nvmBankBlocks c.gib - 1)
    - countIf (fun b => s.hasBlock ch b && !systemBlock b && !s.blockFree ch b) (s.knownBlocks ch)

/-- Spare blocks left of an NVM channel (R312, R332). -/
def Chip.sparesLeft (s : Chip) (ch : Nat) : Nat :=
  (s.nvm ch).roots.length * 16 * s.spareBlocks ch - countIf (fun b => s.blockRetired ch b) (s.knownBlocks ch)

/-- The highest block wear of an NVM channel (R332). -/
def Chip.maxWear (s : Chip) (ch : Nat) : Nat :=
  s.kiln.blocks.foldl (fun a e => if e.1 / 2 ^ 20 = ch then max a e.2.wear else a) 0

/-- The oldest age among the blocks of an NVM channel that hold data (R332). -/
def Chip.oldestAge (s : Chip) (ch : Nat) : Nat :=
  s.kiln.blocks.foldl (fun a e => if e.1 / 2 ^ 20 = ch ∧ s.blockHolds ch (e.1 % 2 ^ 20) then max a e.2.age else a) 0

/-- 0x6000 (R332). -/
def Chip.readKiln (s : Chip) (idx sub : Nat) : Option Nat :=
  if 0x6040 ≤ idx ∧ idx < 0x6048 then
    let n := idx - 0x6040
    let c := s.nvm n
    match sub with
    | 1 => some c.roots.length
    | 2 => some c.gib
    | 3 => some c.rootState
    | 5 => some (s.blocksFree n)
    | 6 => some (s.sparesLeft n)
    | 7 => some (s.maxWear n * 1000000 / s.cfg Obj.kilnEnduranceCycles)
    | 8 => some (s.maxWear n)
    | 9 => some (s.oldestAge n)
    | 10 => some c.uncorrectable
    | 11 => some c.rescued
    | 12 => some c.programFails
    | 13 => some c.busErrors
    | 14 => some c.rlNs
    | _ => none
  else match idx, sub with
    | 0x6000, 1 => some s.nvmOnline
    | 0x6000, 2 => some (s.mediaSet.getD 0)
    | 0x6000, 3 => some s.persistTime
    | 0x6000, 6 => some s.kiln.persistClean.toNat
    | 0x6000, 7 => some s.kiln.gpfFlushes
    | 0x6000, 8 => some (mibUp s.dirtyLimit)
    | 0x6010, 11 => some s.kiln.witnessDropped
    | 0x6120, 5 => some s.kiln.suspends
    | 0x6120, 6 => some s.kiln.suspendAborts
    | _, _ => none

/-- Lauter's state of a channel as the object shows it: the second of a mirrored pair reads OFFLINE (R277). -/
def Chip.chanCode (s : Chip) (n : Nat) : Nat :=
  if s.pairSecond n then ChanState.offline.code else (s.chanState n).code

/-- 0x6800 (R116, R175). -/
def Chip.readLauter (s : Chip) (idx sub : Nat) : Option Nat :=
  if 0x6840 ≤ idx ∧ idx < 0x6850 then
    let n := idx - 0x6840
    match sub with
    | 1 => some (s.chanCode n)
    | 3 => some (if n < 8 then (s.pagesOn .ddr n).length else (s.pagesOn .nvm (n - 8)).length)
    | 4 => some (mibUp (4096 * s.chanFree n))
    | _ => none
  else match idx, sub with
    | 0x6800, 1 => some s.map.tables.length
    | 0x6800, 3 => some s.map.recordErrors
    | 0x6800, 4 => some s.map.recordsLost
    | 0x6800, 7 => some s.map.poolHbm
    | 0x6800, 8 => some s.poolLevelDdr
    | 0x6800, 9 => some s.map.inlineZero
    | 0x6810, 10 => some s.lauter.migrations
    | 0x6810, 11 => some s.lauter.abandoned
    | 0x6810, 12 => some s.lauter.spillDropped
    | 0x6810, 14 => some (ceilDiv (32 * s.lauter.journal.length) 1024)
    | 0x6810, 17 => some s.lauter.retireStatus
    | 0x6810, 18 => some s.lauter.checkpoint
    | 0x6830, 2 => some s.releasingMib
    | _, _ => none

/-- Grist pages, of one region or of all (R201). -/
def Chip.gristPages (s : Chip) (r : Option Nat) : Nat :=
  countIf (fun e => (s.srcRec e.1).grist && (match r with | some r => decide (s.accessRegion (4096 * e.1) = r) | none => true)) s.map.pages

/-- 0x7000 (R201, R234). -/
def Chip.readMill (s : Chip) (idx sub : Nat) : Option Nat :=
  if 0x7020 ≤ idx ∧ idx < 0x7028 then
    let l := idx - 0x7020
    match sub with
    | 4 => some (s.activeSlot l)
    | 6 => some (Tab.get 0 s.husk.tagFailures l)
    | 7 => some (Tab.get {} s.husk.linkSlots (2 * l + s.activeSlot l)).sent
    | _ => none
  else if 0x7410 ≤ idx ∧ idx < 0x7418 then (if sub = 3 then some (s.gristPages (some (idx - 0x7410))) else none)
  else match idx, sub with
    | 0x7000, 1 => some s.husk.rootDone.toNat
    | 0x7000, 3 => some s.husk.macFailures
    | 0x7000, 4 => some s.husk.macRefetchOk
    | 0x7000, 5 => some s.husk.partialDropped
    | 0x7000, 6 => some s.husk.unwrapFailures
    | 0x7000, 7 => some s.husk.vaultErrors
    | 0x7400, 8 => some (mibUp (4096 * countIf (fun e => decide ((s.srcRec e.1).st ≠ .unwritten)) s.map.pages))
    | 0x7400, 9 => some (mibUp (4096 * (List.range 8).foldl (fun a n => a + s.ddrUsed n) 0))
    | 0x7400, 10 => some (mibUp (64 * (List.range 8).foldl (fun a n => a + s.nvmUsed n) 0))
    | 0x7400, 11 => some (s.gristPages none)
    | 0x7400, 12 => some s.mill.expansions
    | 0x7400, 13 => some s.mill.repacks
    | 0x7400, 14 => some s.mill.decodeErrors
    | 0x7400, 15 => some s.mill.spaceWaits
    | 0x7400, 16 => some s.mill.spacePoisoned
    | _, _ => none

/-- 0x7800 (R411, R429). -/
def Chip.readHopper (s : Chip) (idx sub : Nat) : Option Nat :=
  if 0x7840 ≤ idx ∧ idx < 0x7880 then
    let c := s.hchan (idx - 0x7840)
    match sub with
    | 4 => some (c.context % 256)
    | 6 => some c.context
    | 7 => some c.bytes
    | _ => none
  else if 0x7900 ≤ idx then (if sub = 3 then some (Tab.get 0 s.hop.lineCount (idx - 0x7900)) else none)
  else match idx, sub with
    | 0x7800, 5 => some s.hop.queues.length
    | 0x7800, 6 => some s.statesCached
    | 0x7800, 7 => some s.hop.stateWaits
    | 0x7800, 8 => some s.hop.queueErrors
    | 0x7800, 11 => some s.hop.refusals
    | 0x7800, 12 => some s.hop.faults
    | 0x7880, 3 => some s.hop.rejected
    | 0x7880, 4 => some s.hop.merged
    | _, _ => none

/-- 0x8000 (R396). -/
def Chip.readLink (s : Chip) (idx sub : Nat) : Option Nat :=
  if idx < 0x8010 then none
  else
    let k := s.link (idx - 0x8010)
    match sub with
    | 0x01 => some k.st.code
    | 0x0D => some k.changeResult
    | 0x0E => some k.width
    | 0x0F => some k.speed
    | 0x10 => some k.vcs
    | 0x11 => some k.endpointId
    | 0x12 => some k.crcErrors
    | 0x13 => some k.protocolErrors
    | 0x14 => some k.replays
    | 0x15 => some k.retrains
    | 0x16 => some k.changeCrossed
    | 0x17 => some k.downCount
    | 0x18 => some k.downCause
    | 0x19 => some k.eventsDropped
    | _ => none

/-- 0x8800 (R144). -/
def Chip.readCoherence (s : Chip) (idx sub : Nat) : Option Nat :=
  if 0x8840 ≤ idx then
    let d := idx - 0x8840
    let x := s.dom d
    match sub with
    | 1 => some x.state.code
    | 4 => some x.cause
    | 5 => some x.dead
    | 6 => some x.poisoned
    | 7 => some x.dropped
    | 8 => some x.downTc
    | 9 => some x.downs
    | 10 => some (s.recallUs d)
    | _ => none
  else match sub with
    | 5 => some s.coh.filter.length
    | 6 => some s.coh.evictions
    | 7 => some s.coh.downgrades
    | 9 => some s.coh.retries
    | 11 => some s.coh.dead
    | _ => none

/-- 0x9000 (R116, R234). -/
def Chip.readCask (s : Chip) (idx sub : Nat) : Option Nat :=
  if 0x9400 ≤ idx then none
  else
    let c := idx - 0x9000
    let k := s.cask c
    match sub with
    | 0x01 => some k.state.code
    | 0x04 => some (s.extentMib c)
    | 0x0D => some k.producer
    | 0x0F => some k.status
    | 0x12 => some k.outside
    | 0x21 => some k.keyState.code
    | 0x22 => some k.keyId
    | _ => none

/-- 0x9800 (R448). -/
def Chip.readFold (s : Chip) (idx sub : Nat) : Option Nat :=
  match idx, sub with
  | 0x9800, 4 => some s.fold.lineFolds
  | 0x9800, 5 => some s.fold.dropped
  | 0x9800, 6 => some s.fold.saturated
  | 0x9800, 7 => some s.fold.fenceCount
  | 0x9800, 8 => some s.fold.aliasPartial
  | 0x9800, 10 => some s.fold.records
  | 0x9800, 11 => some s.fold.recDropped
  | 0x9800, 12 => some s.fold.recRejected
  | _, 2 => if 0x9820 ≤ idx then some (Tab.get 0 s.fold.linkDropped (idx - 0x9820)) else none
  | _, _ => none

/-- 0xA000 (R566). -/
def Chip.readFault (s : Chip) (sub : Nat) : Option Nat :=
  match sub with
  | 2 => some s.fault.sticky
  | 5 => some s.worst
  | 6 => some s.faultN.toNat
  | 9 => some s.fault.nmis
  | 10 => some s.fault.integrityErrors
  | _ => none

/-- The description of a counter (R565): its number, and the unit, filterability, largest increment and name that the spec leaves to
the part (log entry 2). -/
def counterRecord (n v : Nat) : Nat := n % 2048 + (v % 2 ^ 240) * 2 ^ 16

/-- 0xA800 (R566); `m` is the reader. -/
def Chip.readCounters (s : Chip) (m idx sub : Nat) : Option (Nat × Chip) :=
  if 0xA900 ≤ idx then (if 1 ≤ sub then some (s.counter (128 * (idx - 0xA900) + sub - 1)) else none)
  else match idx, sub with
    | 0xA800, 3 => some (s.cnt.filterGen, s)
    | 0xA800, 4 => some (Tab.get 0 s.cnt.describe m, s)
    | 0xA800, 5 =>
      let (v, s') := s.takeNat
      some (counterRecord (Tab.get 0 s.cnt.describe m) v, s')
    | 0xA800, 21 => some (s.cnt.producer, s)
    | 0xA800, 23 => some (s.cnt.skipped, s)
    | _, _ => none

/-- The duration of a change to the number of scratchpad ways stored, or already stored and waiting (R256). -/
def Chip.scratchChangeUs (s : Chip) : Nat := s.scratchUs (changedWays s.cache.ways (s.cfg Obj.cacheScratchWays))

/-- 0xB000 (R258). -/
def Chip.readCache (s : Chip) (idx sub : Nat) : Option Nat :=
  if idx ≠ 0xB000 then none
  else match sub with
    | 4 => some s.scratchChangeUs
    | 7 => some s.dirtyLines
    | 8 => some s.cache.bypass
    | 9 => some s.heavyLines
    | 10 => some s.cache.prefIssued
    | 11 => some s.cache.prefUsed
    | 12 => some s.cache.prefUnused
    | 13 => some s.cache.prefKilled
    | _ => none

/-- 0xB800 (R360). -/
def Chip.readIntegrity (s : Chip) (idx sub : Nat) : Option (Nat × Chip) :=
  if 0xB819 ≤ idx ∧ idx < 0xB81C then
    let t := idx - 0xB818
    match sub with
    | 1 => some (s.progressPpm t, s)
    | 2 => some (Tab.get 0 s.integ.lastPass t, s)
    | 3 => some (s.tierDebt t, s)
    | 4 => some (Tab.get 0 s.integ.corrected t, s)
    | _ => none
  else match idx, sub with
    | 0xB800, 1 => some (s.integ.parityClean, s)
    | 0xB800, 2 => some (s.integ.parityDirty, s)
    | 0xB800, 3 => some (s.integ.repairDropped, s)
    | 0xB800, 4 => some (s.integ.sfCorrected, s)
    | 0xB800, 5 => some (s.integ.hbmUncorrectable, s)
    | 0xB800, 6 => some (s.integ.poisonedLines, s)
    | 0xB830, 1 => some (s.integ.producer, s)
    | 0xB830, 4 => some (s.integ.lost, s)
    | _, _ => none

/-- 0xC000 (R234). -/
def Chip.readSecurity (s : Chip) (sub : Nat) : Option Nat :=
  match sub with
  | 1 => some s.husk.debugClosed.toNat
  | 4 => some s.husk.entropyFailed.toNat
  | _ => none

/-! ### Descriptions (R450, R457) -/

/-- The object at `idx:sub`: type, access and size (R450 to R453). -/
structure ObjInfo where
  ty : ObjTy
  acc : ObjAcc
  size : Nat
  deriving DecidableEq, Repr

/-- The object at an index and sub-index; sub-index 0 of an index that holds any is a U8 CONST (R450). -/
def objInfo? (idx sub : Nat) : Option ObjInfo :=
  if sub = 0 then (if objIndexExists idx then some ⟨.u8, .const, 1⟩ else none)
  else (objRow? idx sub).map (fun r => ⟨r.ty, r.acc, r.size⟩)

/-- Every row of the dictionary, in ascending order of range. -/
def objAllRows : List ObjRow := (List.range 32).flatMap (fun g => objRowsOf (0x800 * g))

/-- The objects of the dictionary, sub-index 0 of each index included (R450). -/
def objCount : Nat :=
  objAllRows.foldl (fun a r => a + r.count * r.subs) 0
    + ((objAllRows.map (fun r => (r.base, r.count))).eraseDups).foldl (fun a p => a + p.2) 0

/-- The least of two numbers, where `none` is none. -/
def leastOf (a : Option Nat) (b : Nat) : Option Nat := match a with | some x => some (min x b) | none => some b

/-- The next sub-index above `sub` at an index. -/
def nextSub (idx sub : Nat) : Option Nat :=
  (objRowsOf idx).foldl (fun a r =>
    if r.base ≤ idx ∧ idx < r.base + r.count ∧ sub + 1 < r.sub + r.subs then leastOf a (max r.sub (sub + 1)) else a) none

/-- The next index above `idx`. -/
def nextIdx (idx : Nat) : Option Nat :=
  objAllRows.foldl (fun a r => if idx + 1 < r.base + r.count then leastOf a (max r.base (idx + 1)) else a) none

/-- The next field of a description record (R457). -/
def nextObj (idx sub : Nat) : Nat :=
  match (if objIndexExists idx then nextSub idx sub else none) with
  | some b => idx + b * 2 ^ 16
  | none => match nextIdx idx with
    | some i => i
    | none => 0xFFFFFFFF

/-- A hexadecimal digit, lower case. -/
def hexDigit (n : Nat) : Nat := if n < 10 then 0x30 + n else 0x57 + n

/-- ASCII bytes of a text. -/
def ascii (t : String) : List Nat := t.toList.map Char.toNat

/-- The name of sub-index 0 (R450). -/
def highestSubName (idx : Nat) : List Nat :=
  ascii "idx_" ++ [12, 8, 4, 0].map (fun k => hexDigit (bitsOf idx k 4)) ++ ascii ".highest_sub"

/-- The lowest and highest value of a range that depends on other objects (R457). -/
def Chip.liveBounds (s : Chip) (idx sub : Nat) : Nat × Nat :=
  match objKey idx sub with
  | 0x403001 => (0, 16384 - s.cfg Obj.hbmPersistReserveMib)
  | 0x68100D => (1024, min 65536 (s.cfg Obj.hbmPersistReserveMib * 256))
  | 0x800007 => (1, min 1024 (s.cfg Obj.linkDownThreshold - 1))
  | 0x201002 => (((List.range 8).foldl (fun a k => max a (curvePoint (s.cfg Obj.powerCurve) k).1) 0) + 1, 2 ^ 32 - 1)
  | 0x202006 => (30, s.cfg Obj.powerFetTripC - 20)
  | _ => if 0x7410 ≤ idx ∧ idx < 0x7418 then (1, if s.tierAllowed (idx - 0x7410) 3 then 8 else 64) else (0, 0)

/-- The bounds of a type (R452), as numbers of `size` bytes. -/
def ObjTy.bounds : ObjTy → Int × Int
  | .bool => (0, 1) | .u8 => (0, 255) | .u16 => (0, 65535) | .u32 => (0, 2 ^ 32 - 1) | .u64 => (0, 2 ^ 64 - 1)
  | .i8 => (-128, 127) | .i16 => (-32768, 32767) | .i32 => (-(2 ^ 31), 2 ^ 31 - 1) | _ => (0, 0)

/-- min and max of a description record (R457). -/
def Chip.descBounds (s : Chip) (r : ObjRow) (idx sub : Nat) : Nat × Nat :=
  let t := (twos 8 r.ty.bounds.1, twos 8 r.ty.bounds.2)
  match r.range with
  | .span lo hi => (lo, hi)
  | .step lo hi m => (lo, hi / m * m)
  | .zeroOr _ hi => (0, hi)
  | .oneOf vs => (vs.foldl min (vs.headD 0), vs.foldl max 0)
  | .mask m => (0, m)
  | .live => s.liveBounds idx sub
  | _ => t

/-- The default field of a description record (R457): numbers only, sign-extended. -/
def descDefault (r : ObjRow) (idx sub : Nat) : Nat :=
  match r.ty with
  | .octets | .text | .domain => 0
  | .i8 | .i16 | .i32 =>
    let v := objDefault (objKey idx sub)
    if v < 256 ^ r.size / 2 then v else v + 2 ^ 64 - 256 ^ r.size
  | _ => objDefault (objKey idx sub)

/-- A description record (R457): the header fields, the numbers, the name and the family. -/
def descBytes (idx sub ty acc flags unit size dflt lo hi : Nat) (name : List Nat) (base count : Nat) : List Byte :=
  bytesLE 2 idx ++ bytesLE 1 sub ++ bytesLE 1 ty ++ bytesLE 1 acc ++ bytesLE 1 flags ++ bytesLE 1 unit ++ [0]
    ++ bytesLE 4 size ++ bytesLE 4 (nextObj idx sub) ++ bytesLE 8 dflt ++ bytesLE 8 lo ++ bytesLE 8 hi
    ++ ((name.map (fun c => BitVec.ofNat 8 c)) ++ List.replicate 40 0).take 40 ++ bytesLE 2 base ++ bytesLE 1 count
    ++ List.replicate 13 0

/-- The description of the selection `sel` (R457). -/
def Chip.describe (s : Chip) (sel : Nat) : List Byte :=
  let idx := bitsOf sel 0 16
  let sub := bitsOf sel 16 8
  if sub = 0 ∧ objIndexExists idx then
    let fam := ((objRowsOf idx).find? (fun r => decide (r.base ≤ idx ∧ idx < r.base + r.count)))
    let (b, n) := match fam with | some r => (r.base, r.count) | none => (idx, 1)
    let h := objHighestSub idx
    descBytes idx 0 ObjTy.u8.code ObjAcc.const.code 0 1 1 h h h (highestSubName idx) b n
  else match objRow? idx sub with
    | some r =>
      let flags := r.extra.toNat + 2 * (decide (r.range = .live)).toNat + 4 * (match r.range with | .oneOf _ => 1 | _ => 0)
      let (lo, hi) := s.descBounds r idx sub
      descBytes idx sub r.ty.code r.acc.code flags r.unit r.size (descDefault r idx sub) lo hi (ascii r.name) r.base r.count
    | none => descBytes idx sub 0 0 0 0 0 0 0 0 [] idx 1

/-! ### Reading (R453, R455) -/

/-- 0x1800 (R457); `m` is the reader. -/
def Chip.readDescription (s : Chip) (m sub : Nat) : Option Nat :=
  match sub with
  | 1 => some (Tab.get 0 s.dict.select m)
  | 2 => some (natLE (s.describe (Tab.get 0 s.dict.select m)))
  | 3 => some objCount
  | _ => none

/-- A value that changes nothing by being read. -/
def Chip.asRead (s : Chip) (v : Option Nat) : Option (Nat × Chip) := v.map (fun v => (v, s))

/-- The value of an object that the device maintains; none: the object holds a stored or fixed value. -/
def Chip.liveValue (s : Chip) (m idx sub : Nat) : Option (Nat × Chip) :=
  match idx / 0x800 with
  | 0x02 => s.asRead (s.readIdentity idx sub)
  | 0x03 => s.asRead (s.readDescription m sub)
  | 0x04 => s.asRead (s.readPower idx sub)
  | 0x05 => s.asRead (s.readMode idx sub)
  | 0x06 => s.asRead (s.readSeedbank sub)
  | 0x08 => s.asRead (s.readTimebase m idx sub)
  | 0x09 => s.asRead (s.readPorts idx sub)
  | 0x0A => s.asRead (s.readDdrObjects idx sub)
  | 0x0B => s.asRead (s.readHbmObjects sub)
  | 0x0C => s.asRead (s.readKiln idx sub)
  | 0x0D => s.asRead (s.readLauter idx sub)
  | 0x0E => s.asRead (s.readMill idx sub)
  | 0x0F => s.asRead (s.readHopper idx sub)
  | 0x10 => s.asRead (s.readLink idx sub)
  | 0x11 => s.asRead (s.readCoherence idx sub)
  | 0x12 => s.asRead (s.readCask idx sub)
  | 0x13 => s.asRead (s.readFold idx sub)
  | 0x14 => s.asRead (s.readFault sub)
  | 0x15 => s.readCounters m idx sub
  | 0x16 => s.asRead (s.readCache idx sub)
  | 0x17 => s.readIntegrity idx sub
  | 0x18 => s.asRead (s.readSecurity sub)
  | _ => none

/-- The value of an object as master `m` reads it, as a number, and the state after the read. -/
def Chip.objValue (s : Chip) (m idx sub : Nat) : Nat × Chip :=
  if sub = 0 then (objHighestSub idx, s)
  else match s.liveValue m idx sub with
    | some x => x
    | none => (s.cfg (objKey idx sub), s)

/-- `n` bytes of the retirement log's ring from `off` (R356). -/
def Chip.retlogBytes (s : Chip) (off n : Nat) : List Byte :=
  (((List.range ((off + n + 31) / 32 - off / 32)).flatMap (fun i => s.ringBytes (off / 32 + i))).drop (off % 32)).take n

/-- `n` bytes of an object's value from `off`, as master `m` reads it (R455). -/
def Chip.objBytes (s : Chip) (m idx sub size off n : Nat) : List Byte × Chip :=
  if objKey idx sub = Obj.retlogEntries then (s.retlogBytes off n, s)
  else
    let (v, s) := s.objValue m idx sub
    (((bytesLE size v).drop off).take n, s)

end Sys2Proof.Machine
end

