-- ==== Sys2Proof/Machine/Writes.lean ====
section
/-!
DEFINITION. Machine/Writes.lean: what a write of a whole value to an object does once its rights, class and length have passed:
steps 10 and 11 of R460 and the write's effect. Every handler answers an abort code of R480, zero for success, and the state.
-/
namespace Sys2Proof.Machine

/-! ### Commands that one object carries -/

/-- mode.command (R527). `flushed` says that the drain flush of a CHIP_RESET finished in time (R539). -/
def Chip.modeCommand (s : Chip) (v : Nat) (flushed : Bool) : Nat × Chip :=
  match v with
  | 1 => s.trainCmd
  | 2 => s.drainCmd
  | 3 => s.resumeCmd
  | 4 => s.updateCmd
  | 5 => s.exitUpdateCmd
  | 6 => s.chipResetCmd flushed
  | 7 => s.configureCmd
  | _ => (Abort.outOfRange, s)

/-- UP (R391), refused while the link's domain is not ON (R535). -/
def Chip.linkUpCmd (s : Chip) (l : Nat) : Nat × Chip :=
  if s.domain (linkDomain l) ≠ .on then (Abort.channelState, s) else (0, s.linkUp l)

/-- DOWN (R389): a link that is up or training goes down with cause 4. -/
def Chip.linkDownCmd (s : Chip) (l : Nat) : Nat × Chip :=
  if (s.link l).st = .disabled ∨ (s.link l).st = .down then (0, s) else (0, s.wantDown l 4)

/-- The width and Gb/s that a change target names (R396). -/
def targetOf (v : Nat) : Nat × Nat := (bitsOf v 0 4, match bitsOf v 4 4 with | 1 => 8 | 2 => 16 | 3 => 32 | _ => 0)

/-- A change target within link.max_width and link.max_speed (R386). -/
def Chip.targetOk (s : Chip) (l v : Nat) : Bool :=
  let (w, g) := targetOf v
  decide (v < 256) && [1, 2, 4].contains w && decide (g ≠ 0 ∧ w ≤ s.cfgAt Obj.linkMaxWidth l ∧ g ≤ s.cfgAt Obj.linkMaxSpeed l)

/-- CHANGE (R386): a planned change to link.change_target is a scheduled operation of link.change_us. -/
def Chip.linkChangeCmd (s : Chip) (l : Nat) : Nat × Chip :=
  if (s.link l).st ≠ .active then (Abort.channelState, s)
  else
    let (w, g) := targetOf (s.cfgAt Obj.linkChangeTarget l)
    (0, s.requestOp (.linkChange l (w + 256 * g)) (s.cfg Obj.linkChangeUs))

/-- link.command (R386, R391). -/
def Chip.linkCommand (s : Chip) (l v : Nat) : Nat × Chip :=
  match v with
  | 1 => s.linkUpCmd l
  | 2 => s.linkDownCmd l
  | 3 => s.linkChangeCmd l
  | _ => (Abort.outOfRange, s)

/-- hopper.queue_command (R400). -/
def Chip.queueCommand (s : Chip) (v : Nat) : Nat × Chip :=
  let q := bitsOf v 0 20
  if bitsOf v 20 4 ≠ 0 then (Abort.outOfRange, s)
  else match v / 2 ^ 24 with
    | 1 => s.queueLoad q
    | 2 => s.queueDisable q
    | 3 => s.queueWriteback q
    | _ => (Abort.outOfRange, s)

/-- hopper.chan.command (R408, R424). -/
def Chip.hopCommand (s : Chip) (ch v : Nat) : Nat × Chip :=
  match v with
  | 1 => s.chanStart ch
  | 2 => s.chanStopCmd ch
  | 3 => s.chanResume ch
  | 4 => s.chanSkip ch
  | 5 => s.chanClear ch
  | _ => (Abort.outOfRange, s)

/-- hopper.event.pulse (R425). -/
def Chip.eventPulse (s : Chip) (v : Nat) : Nat × Chip := if 255 < v then (Abort.outOfRange, s) else (0, s.pulse v)

/-- coh.domain.command (R142, R143). -/
def Chip.domCommand (s : Chip) (d v : Nat) : Nat × Chip :=
  match v with
  | 1 => s.domForm d
  | 2 => s.domReform d
  | 3 => s.domRecall d
  | 4 => s.domDisband d
  | _ => (Abort.outOfRange, s)

/-- kiln.chan.command (R333). -/
def Chip.kilnCommand (s : Chip) (ch v : Nat) : Nat × Chip := if v = 1 then s.kilnFormat ch else (Abort.outOfRange, s)

/-- cask.key_command (R222). -/
def Chip.keyCommand (s : Chip) (c v : Nat) : Nat × Chip := if v = 1 then s.zeroise c else (Abort.outOfRange, s)

/-- dict.restore_defaults (R481). -/
def Chip.restoreCmd (s : Chip) (v : Nat) : Nat × Chip := if v = 0x5EEDDEF0 then s.restoreDefaults else (Abort.outOfRange, s)

/-- windows.post (R23): the write right on the timeline queue is the further right. A reserved bit of an object's value is out of range
(R3, R4), and nothing is posted. -/
def Chip.postObject (s : Chip) (m v : Nat) : Nat × Chip :=
  if (postRec v).zero then (0, s.postWindow m v) else (Abort.outOfRange, s)

/-! ### Cask assignments (R117, R143) -/

/-- The cask has an extent in a region whose sharable bit is clear. -/
def Chip.unsharable (s : Chip) (c : Nat) : Bool := s.map.extents.any (fun e => decide (e.cask = c) && !s.sharable e.region)

/-- What a change of cask `c` to domain byte `d` is refused with, or zero. -/
def Chip.assignCode (s : Chip) (c d : Nat) : Nat :=
  if (64 ≤ d ∧ d ≠ 0xFF) ∨ (d < 64 ∧ s.unsharable c) then Abort.outOfRange
  else if (s.cask c).state = .free ∨ (s.cask c).state = .quiesced then 0 else Abort.caskState

/-- The lines that the change of cask `c` takes offline: 2 µs plus 10 ns for each tracked line (R143). -/
def Chip.assignUs (s : Chip) (c : Nat) : Nat :=
  let mine := fun (ln : Nat) => match s.extentOf (64 * ln) with | some e => decide (e.cask = c) | none => false
  2 + ceilDiv (10 * countIf (fun e => mine e.1) s.coh.filter) 1000

/-- A byte of coh.cask_domain (R117): a change is a scheduled operation, and takes effect when that ends; a write of the present byte
succeeds in every state (DESIGN CHOICE, log entry 151). -/
def Chip.setCaskDomain (s : Chip) (c d : Nat) : Nat × Chip :=
  if bitsOf (s.cfg Obj.cohCaskDomain) (8 * c) 8 = d then (0, s)
  else
    let a := s.assignCode c d
    if a ≠ 0 then (a, s) else (0, s.requestOp (.caskDomain c d) (s.assignUs c))

/-- The casks whose byte a whole write of coh.cask_domain changes. -/
def Chip.assignChanges (s : Chip) (v : Nat) : List Nat :=
  (List.range 1024).filter (fun c => decide (bitsOf v (8 * c) 8 ≠ bitsOf (s.cfg Obj.cohCaskDomain) (8 * c) 8))

/-- A whole write of coh.cask_domain: it is refused whole where one byte would be. -/
def Chip.setAssignments (s : Chip) (v : Nat) : Nat × Chip :=
  let cs := s.assignChanges v
  match cs.find? (fun c => decide (s.assignCode c (bitsOf v (8 * c) 8) ≠ 0)) with
  | some c => (s.assignCode c (bitsOf v (8 * c) 8), s)
  | none => (0, cs.foldl (fun s c => (s.setCaskDomain c (bitsOf v (8 * c) 8)).2) s)

/-! ### Objects with a state of their own -/

/-- A whole write of fault.config (R544). -/
def Chip.setFaultConfig (s : Chip) (v : Nat) : Nat × Chip :=
  if (List.range 256).all (fun n => s.faultByteOk n (bitsOf v (8 * n) 8)) then s.commitRwp Obj.faultConfig 256 v
  else (Abort.outOfRange, s)

/-- desc.select, kept per master (R457). -/
def Chip.setSelect (s : Chip) (m v : Nat) : Nat × Chip :=
  if 2 ^ 24 ≤ v then (Abort.outOfRange, s) else (0, { s with dict := { s.dict with select := Tab.put 0 s.dict.select m v } })

/-- cnt.describe_select, kept per master (R565). -/
def Chip.setDescribe (s : Chip) (m v : Nat) : Nat × Chip :=
  if 2048 ≤ v then (Abort.outOfRange, s) else (0, { s with cnt := { s.cnt with describe := Tab.put 0 s.cnt.describe m v } })

/-- hopper.chan.queue (R408): written only in OFF; naming another queue empties the kept context. -/
def Chip.setChanQueue (s : Chip) (ch v : Nat) : Nat × Chip :=
  if v &&& 0x800FFFFF ≠ v then (Abort.outOfRange, s)
  else if (s.hchan ch).st ≠ .off then (Abort.channelState, s)
  else
    let new := decide (v ≠ s.cfgAt Obj.hopperChanQueue ch)
    let s := s.setRw (objAt Obj.hopperChanQueue ch) v
    (0, if new then s.emptyContext ch else s)

/-! ### Conditions on stored objects -/

/-- Region `r` and `q` would overlap, were region `r` to span `n` bytes from `b` (R56). -/
def Chip.overlapsRegion (s : Chip) (r b n : Nat) : Bool :=
  (List.range 8).any (fun q => decide (q ≠ r) && overlaps b n (s.cfgAt Obj.dcBase q) (s.cfgAt Obj.dcLength q))

/-- The windows at the top of the DLA space, and the alias window (R24, R253, R401, R434, R561). -/
def overlapsWindow (b n : Nat) : Bool :=
  overlaps b n 0x3FFFF9FFF000 0x6001000 || overlaps b n 0x3E0000000000 0x10000000000

/-- A region may span `n` bytes from `b` in blocks of `blk` MiB (R56). -/
def Chip.regionOk (s : Chip) (r b n blk : Nat) : Bool :=
  decide (b % (blk * mib) = 0 ∧ n % (blk * mib) = 0 ∧ b + n ≤ dlaEnd) && !s.overlapsRegion r b n && !overlapsWindow b n

/-- The code with which a write of `v` to a DC region's object is refused, or zero (R56, R146); for regions that would overlap the code is
a DESIGN CHOICE (log entry 143). -/
def Chip.regionCode (s : Chip) (r sub v : Nat) : Nat :=
  let b := if sub = 1 then v else s.cfgAt Obj.dcBase r
  let n := if sub = 2 then v else s.cfgAt Obj.dcLength r
  let k := if sub = 3 then v else s.cfgAt Obj.dcBlockMib r
  if sub ≤ 3 ∧ !s.regionOk r b n k then Abort.outOfRange
  else if sub = 4 ∧ bitOf v 0 ∧ s.cfgAt Obj.policyTiers r ≠ 4 then Abort.outOfRange
  else if v ≠ s.cfg (objKey (0x4820 + r) sub) ∧ s.regionBusy r then Abort.resourceOwned
  else 0

/-- The code for a policy object of region `r` (R145, R146, R180). -/
def Chip.policyCode (s : Chip) (r sub v : Nat) : Nat :=
  match sub with
  | 1 => if v = 0 ∨ (s.persistent r ∧ v ≠ 4) ∨ (bitOf v 2 ∧ 8 < s.cfgAt Obj.millRegionMaxSectors r) then Abort.outOfRange else 0
  | 2 => if s.tierAllowed r v then 0 else Abort.outOfRange
  | _ => 0

/-- The code for windows.absorb_limit_mib (R47, R262). -/
def Chip.absorbCode (s : Chip) (v : Nat) : Nat :=
  if 16384 < v + s.cfg Obj.hbmPersistReserveMib then Abort.outOfRange
  else if v < s.committedMib ∨ (16384 - s.reserveMib - v) * mib < s.mirrorBytes then Abort.resourceOwned
  else 0

/-- The code for a power object (R508, R522). -/
def Chip.powerCode (s : Chip) (key v : Nat) : Nat :=
  if key = Obj.powerCurve then (if curveOk v (s.cfg Obj.powerInstantMa) then 0 else Abort.outOfRange)
  else if key = Obj.powerInstantMa then (if curveOk (s.cfg Obj.powerCurve) v then 0 else Abort.outOfRange)
  else if key = Obj.powerFetCoolC then
    (if 30 ≤ v ∧ v + 20 ≤ s.cfg Obj.powerFetTripC then 0 else Abort.outOfRange)
  else 0

/-- The code for ddr.mirror_pairs (R277). -/
def Chip.mirrorCode (s : Chip) (v : Nat) : Nat :=
  let old := s.cfg Obj.ddrMirrorPairs
  let ps := (List.range 4).filter (fun p => decide (bitOf v p ≠ bitOf old p))
  let off := fun (n : Nat) => decide (s.chanCode n = ChanState.offline.code)
  if ps.any (fun p => !off (2 * p) || !off (2 * p + 1)) then Abort.channelState
  else if ps.any (fun p => bitOf v p && decide ((s.ddr (2 * p)).gib ≠ (s.ddr (2 * p + 1)).gib)) then Abort.resourceOwned
  else 0

/-- A speed that the population of a channel allows (R266, R286). -/
def Chip.speedOk (s : Chip) (n v : Nat) : Bool := decide ((s.ddr n).dimms ≠ 2 ∨ v ≤ 5600)

/-- The code for a fold alias range (R435). -/
def Chip.aliasCode (s : Chip) (a sub v : Nat) : Nat :=
  let t := if sub = 1 then v else s.cfgAt Obj.foldAliasTarget a
  let n := (if sub = 2 then v else s.cfgAt Obj.foldAliasLengthKib a) * 1024
  let b := bitsOf t 0 46
  if dlaEnd < b + n ∨ overlaps b n 0x3E0000000000 0x10000000000 ∨ overlaps b n 0x3FFFFC000000 0x2000000 then Abort.outOfRange
  else 0

/-- The code for an event line's input or route (R426, R427). -/
def Chip.eventCode (s : Chip) (n sub v : Nat) : Nat :=
  let others := (List.range 256).filter (fun k => decide (k ≠ n))
  if sub = 1 then
    let old := s.cfgAt Obj.hopperEventLineInput n
    let pin := decide (0x10 ≤ v ∧ v < 0x18)
    if (old ≠ 0 ∧ v ≠ 0 ∧ v ≠ old) ∨ (pin ∧ others.any (fun k => decide (s.cfgAt Obj.hopperEventLineInput k = v))) then
      Abort.resourceOwned
    else 0
  else if sub = 2 then
    if others.any (fun k => decide ((s.cfgAt Obj.hopperEventLineRoute k &&& v) % 256 ≠ 0)) then Abort.resourceOwned else 0
  else 0

/-- The code for hopper.queue_table_dla (R398). -/
def Chip.queueTableCode (s : Chip) (v : Nat) : Nat :=
  if bitOf v 63 ∧ !s.map.extents.any (fun e => s.covered (bitsOf v 0 46) 67108864 (some e.cask)) then Abort.outOfRange
  else if s.hop.queues ≠ [] then Abort.resourceOwned
  else 0

/-- The code with which a value within its table range is refused for a stored object, or zero: the ranges that depend on other
objects (step 10 of R460) and the conditions of the owning chapters (step 11). -/
def Chip.storeCode (s : Chip) (idx sub v : Nat) : Nat :=
  let key := objKey idx sub
  match idx / 0x800 with
  | 0x04 => s.powerCode key v
  | 0x08 => if key = Obj.windowsAbsorbLimitMib then s.absorbCode v else 0
  | 0x09 =>
    if 0x4810 ≤ idx ∧ idx < 0x4814 then
      (match (s.head (idx - 0x4810)).state with | .ioOnly | .active => Abort.channelState | _ => 0)
    else if 0x4820 ≤ idx then s.regionCode (idx - 0x4820) sub v
    else 0
  | 0x0A =>
    if key = Obj.ddrMirrorPairs then s.mirrorCode v
    else if 0x5010 ≤ idx ∧ idx < 0x5018 then (if s.speedOk (idx - 0x5010) v then 0 else Abort.outOfRange)
    else if 0x5020 ≤ idx ∧ idx < 0x5028 then
      (if v ≠ s.cfg key ∧ s.regionBusy (idx - 0x5020) then Abort.resourceOwned else 0)
    else 0
  | 0x0D =>
    if key = Obj.lauterJournalKib then
      (if 1024 ≤ v ∧ v ≤ 65536 ∧ 4 * v ≤ s.cfg Obj.hbmPersistReserveMib * 1024 then 0 else Abort.outOfRange)
    else if key = Obj.lauterZoneChannels then
      (if v < 128 ∧ bitsOf v 3 1 = 0 ∧ bitsOf v 0 3 ≠ bitsOf v 4 3 then 0 else Abort.outOfRange)
    else if key = Obj.lauterPromoteHeat then (if s.cfg Obj.lauterDemoteHeat < v then 0 else Abort.outOfRange)
    else if key = Obj.lauterDemoteHeat then (if v < s.cfg Obj.lauterPromoteHeat then 0 else Abort.outOfRange)
    else if 0x6820 ≤ idx ∧ idx < 0x6828 then s.policyCode (idx - 0x6820) sub v
    else 0
  | 0x0E =>
    if 0x7010 ≤ idx ∧ idx < 0x7018 then (if s.regionBusy (idx - 0x7010) then Abort.resourceOwned else 0)
    else if 0x7020 ≤ idx ∧ idx < 0x7028 then
      (if v ≠ s.cfg key ∧ s.trained (idx - 0x7020) then Abort.resourceOwned else 0)
    else if 0x7410 ≤ idx ∧ idx < 0x7418 ∧ sub = 2 then
      let r := idx - 0x7410
      (if v = 0 ∨ 64 < v ∨ (s.tierAllowed r 3 ∧ 8 < v) then Abort.outOfRange
       else if v < s.cfg key ∧ s.regionBusy r then Abort.resourceOwned else 0)
    else 0
  | 0x0F =>
    if key = Obj.hopperQueueTableDla then s.queueTableCode v
    else if 0x7900 ≤ idx then s.eventCode (idx - 0x7900) sub v
    else 0
  | 0x10 =>
    if key = Obj.linkRetrainThreshold then
      (if 1 ≤ v ∧ v ≤ 1024 ∧ v < s.cfg Obj.linkDownThreshold then 0 else Abort.outOfRange)
    else if 0x8010 ≤ idx ∧ sub = 0x0C then (if s.targetOk (idx - 0x8010) v then 0 else Abort.outOfRange)
    else 0
  | 0x11 =>
    if 0x8840 ≤ idx ∧ sub = 3 then
      (if v &&& 0xFF0F ≠ v ∨ !agentCountOk v then Abort.outOfRange
       else match (s.dom (idx - 0x8840)).state with | .unused | .down => 0 | _ => Abort.domainState)
    else 0
  | 0x13 => if 0x9810 ≤ idx ∧ idx < 0x9820 then s.aliasCode (idx - 0x9810) sub v else 0
  | _ => 0

/-- A value within the range that the object's row states (R4, R451). -/
def ObjRow.inRange (r : ObjRow) (v : Nat) : Bool :=
  match r.range with
  | .any => decide (r.ty ≠ .bool ∨ v ≤ 1)
  | .span lo hi => decide (lo ≤ v ∧ v ≤ hi)
  | .step lo hi m => decide (lo ≤ v ∧ v ≤ hi ∧ v % m = 0)
  | .zeroOr lo hi => decide (v = 0 ∨ (lo ≤ v ∧ v ≤ hi))
  | .oneOf vs => vs.contains v
  | .mask m => decide (v &&& m = v)
  | .live | .special => true

/-- A stored object takes a value (R453): an RWP object's is committed first (R454), and a power entry object goes to the sentry as
well (R520). -/
def Chip.storeValue (s : Chip) (r : ObjRow) (idx sub v : Nat) : Nat × Chip :=
  let key := objKey idx sub
  if !r.inRange v then (Abort.outOfRange, s)
  else
    let a := s.storeCode idx sub v
    if a ≠ 0 then (a, s)
    else if r.acc = .rw then (0, s.setRw key v)
    else
      let (b, s') := s.commitRwp key r.size v
      if b ≠ 0 then (b, s)
      else if key = Obj.lauterZoneChannels then (0, s'.zoneFollow)
      else if idx / 0x800 = 4 then (0, { s' with power := { s'.power with regs := Tab.set s'.power.regs key v } })
      else (0, s')

/-- The objects whose write has a handler of its own; none: a stored object. `m` is the writer. -/
def Chip.specialWrite (s : Chip) (m idx sub v : Nat) : Option (Nat × Chip) :=
  match idx, sub with
  | 0x1010, 1 => some (s.restoreCmd v)
  | 0x1800, 1 => some (s.setSelect m v)
  | 0x2000, 2 => some (s.powerCmd v)
  | 0x2800, 2 =>
    let (f, s) := s.takeNat
    some (s.modeCommand v (decide (f % 2 = 1)))
  | 0x2800, 11 => some (s.padRelease v)
  | 0x3000, 3 => some (s.protectSet v)
  | 0x4010, 1 => some (s.postObject m v)
  | 0x5000, 6 => some (s.freqRequest v)
  | 0x5080, 1 => some (s.helperCommand v)
  | 0x5800, 2 => some (s.setReserve v)
  | 0x6800, 10 => some (s.discardPage m v)
  | 0x6810, 16 => some (s.retire v)
  | 0x6830, 1 => some (s.extentCommand v)
  | 0x7000, 2 => some (s.programRoot (BitVec.ofNat 256 v))
  | 0x7800, 3 => some (s.queueCommand v)
  | 0x7880, 1 => some (s.eventPulse v)
  | 0x8800, 8 => some (s.setAssignments v)
  | 0x94F0, 1 => some (s.accessEdit m v)
  | 0xA000, 1 => some (s.setFaultConfig v)
  | 0xA000, 3 => some (s.faultClear v)
  | 0xA000, 4 => some (s.faultEdit v)
  | 0xA800, 2 => some (s.setFilterSelect v)
  | 0xA800, 4 => some (s.setDescribe m v)
  | 0xA800, 17 => some (s.setDumpRecords v)
  | 0xA800, 18 => some (s.setDumpSchedule false v)
  | 0xA800, 19 => some (s.setDumpSchedule true v)
  | 0xA800, 20 => some (s.dumpNow v)
  | 0xB000, 2 => some (s.setScratchWays v)
  | 0xB000, 5 => some (s.scratchClear v)
  | 0xB000, 6 => some (s.cacheFlush v)
  | 0xC000, 2 => some (s.debugClose v)
  | 0xC000, 3 => some (s.zeroiseAll v)
  | _, _ =>
    if 0x2810 ≤ idx ∧ idx < 0x282F ∧ sub = 2 then some (s.domainCmd (idx - 0x2810) v)
    else if 0x5010 ≤ idx ∧ idx < 0x5018 ∧ sub = 9 then
      let (f, s) := s.takeNat
      some (s.ddrCommand (idx - 0x5010) v (decide (f % 2 = 1)))
    else if 0x6040 ≤ idx ∧ idx < 0x6048 ∧ sub = 4 then some (s.kilnCommand (idx - 0x6040) v)
    else if 0x6820 ≤ idx ∧ idx < 0x6828 ∧ sub = 4 then some (s.setMapResident (idx - 0x6820) v)
    else if 0x6840 ≤ idx ∧ idx < 0x6850 ∧ sub = 2 then some (s.chanCommand (idx - 0x6840) v)
    else if 0x7020 ≤ idx ∧ idx < 0x7028 ∧ sub = 2 then some (s.loadSlot (idx - 0x7020) 0 (BitVec.ofNat 1472 v))
    else if 0x7020 ≤ idx ∧ idx < 0x7028 ∧ sub = 3 then some (s.loadSlot (idx - 0x7020) 1 (BitVec.ofNat 1472 v))
    else if 0x7020 ≤ idx ∧ idx < 0x7028 ∧ sub = 5 then some (s.switchSlot (idx - 0x7020) v)
    else if 0x7840 ≤ idx ∧ idx < 0x7880 ∧ sub = 1 then some (s.setChanQueue (idx - 0x7840) v)
    else if 0x7840 ≤ idx ∧ idx < 0x7880 ∧ sub = 5 then some (s.hopCommand (idx - 0x7840) v)
    else if 0x8010 ≤ idx ∧ idx < 0x8018 ∧ sub = 2 then some (s.linkCommand (idx - 0x8010) v)
    else if 0x8840 ≤ idx ∧ idx < 0x8880 ∧ sub = 2 then some (s.domCommand (idx - 0x8840) v)
    else if 0x9000 ≤ idx ∧ idx < 0x9400 then
      let c := idx - 0x9000
      match sub with
      | 0x02 => some (s.caskCommand c v)
      | 0x03 => some (s.setPasid c v)
      | 0x07 => some (s.setLogEnable c v)
      | 0x10 => some (s.setTable c v)
      | 0x20 => some (s.loadBlob c (BitVec.ofNat 1472 v))
      | 0x23 => some (s.keyCommand c v)
      | 0x30 => some (s.setMarks c v)
      | _ => none
    else if 0x9400 ≤ idx ∧ idx < 0x9425 ∧ sub = 1 then some (s.setTable (tableTarget idx) v)
    else if 0xA820 ≤ idx ∧ idx < 0xA840 ∧ sub = 1 then some (s.setFilter (idx - 0xA820) v)
    else none

/-- Steps 10 and 11 of R460 and the effect of a write of the whole value `v` by master `m`. -/
def Chip.writeValue (s : Chip) (m idx sub v : Nat) : Nat × Chip :=
  match s.specialWrite m idx sub v with
  | some x => x
  | none => match objRow? idx sub with
    | some r => s.storeValue r idx sub v
    | none => (Abort.subAbsent, s)

end Sys2Proof.Machine
end

