-- ==== Sys2Proof/Machine/Dictionary.lean ====
section
/-!
DEFINITION. Machine/Dictionary.lean: the dictionary engine: the rights of an access and the order of its checks (R459 to R461), reads,
writes and pieces (R454 to R456), and how each path answers (R67 to R70, R462, R468).
-/
namespace Sys2Proof.Machine

/-! ### The checks of R460 -/

/-- The target of the dictionary range that holds an index (R109, R449). -/
def rangeTarget (idx : Nat) : Nat := 0x400 + min 22 ((idx - 0x1000) / 0x800)

/-- The further right that a write of the object needs, by target and right number; those that depend on the value written are the
handler's (R460). The owning rules: R527, R494, R23, R218, R231, R400, R408, R110, R116, R546, R224. -/
def furtherRight (idx sub : Nat) : Option (Nat × Nat) :=
  match idx, sub with
  | 0x2800, 2 => some (0x403, 3)
  | 0x3000, 3 => some (0x501, 3)
  | 0x4010, 1 => some (0x504, 1)
  | 0x7800, 3 => some (0x40D, 3)
  | 0xA000, 4 => some (0x414, 3)
  | 0xC000, 3 => some (0x500, 3)
  | _, _ =>
    if 0x7020 ≤ idx ∧ idx < 0x7028 ∧ (sub = 2 ∨ sub = 3 ∨ sub = 5) then some (0x500, 3)
    else if 0x7840 ≤ idx ∧ idx < 0x7880 ∧ sub = 5 then some (0x40D, 3)
    else if 0x9000 ≤ idx ∧ idx < 0x9400 ∧ (sub = 2 ∨ sub = 0x10 ∨ sub = 0x30) then some (idx - 0x9000, 3)
    else if 0x9000 ≤ idx ∧ idx < 0x9400 ∧ (sub = 0x20 ∨ sub = 0x23) then some (0x500, 3)
    else if 0x9400 ≤ idx ∧ idx < 0x9425 ∧ sub = 1 then some (tableTarget idx, 3)
    else none

/-- A boot-failure UPDATE serves only these ranges (R532). -/
def Chip.rangeServed (s : Chip) (idx : Nat) : Bool :=
  decide (s.mode.current ≠ .update) || !s.mode.bootUpdate || [2, 3, 5, 6].contains (idx / 0x800)

/-- How the checks of R460 up to step 7 end. -/
inductive Gate where
  | abort (code : Nat)
  | deny (target : Nat)
  | go (i : ObjInfo)
  deriving DecidableEq, Repr

/-- Step 7 of R460: the access class (R453). -/
def classGate (i : ObjInfo) (write : Bool) : Gate :=
  if write ∧ (i.acc = .ro ∨ i.acc = .const) then .abort Abort.readOnly
  else if !write ∧ i.acc = .wo then .abort Abort.writeOnly
  else .go i

/-- Steps 1 to 7 of R460. -/
def Chip.gate (s : Chip) (m idx sub : Nat) (write : Bool) : Gate :=
  if s.mode.current = .recall then .abort Abort.busyRecall
  else if idx < 0x1000 ∨ !s.rangeServed idx then .abort Abort.objectAbsent
  else if !s.may (rangeTarget idx) m write.toNat then .deny (rangeTarget idx)
  else if !objIndexExists idx then .abort Abort.objectAbsent
  else match objInfo? idx sub with
    | none => .abort Abort.subAbsent
    | some i => match (if write then furtherRight idx sub else none) with
      | some (t, b) => if s.may t m b then classGate i write else .deny t
      | none => classGate i write

/-- A write that a right forbids: silent (R461); a posting that violates access leaves the result word zero (R25), whichever right it
lacks. -/
def Chip.denyWrite (s : Chip) (t m idx sub : Nat) : Chip :=
  if idx = 0x4010 ∧ sub = 1 ∧ !s.rightDamaged t m then s.postViolation m else s.deny t m

/-! ### Writes and their sequences (R456) -/

/-- The piece sequence in progress on an object. -/
def Chip.seqOf (s : Chip) (key : Nat) : Option PieceSeq := s.dict.seqs.find? (fun q => decide (q.key = key))

/-- End the sequence on an object. -/
def Chip.dropSeq (s : Chip) (key : Nat) : Chip :=
  { s with dict := { s.dict with seqs := s.dict.seqs.filter (fun q => decide (q.key ≠ key)) } }

/-- A sequence goes on. -/
def Chip.setSeq (s : Chip) (q : PieceSeq) : Chip :=
  let s := s.dropSeq q.key
  { s with dict := { s.dict with seqs := s.dict.seqs ++ [q] } }

/-- Another owner's sequence is in progress on the object. -/
def Chip.seqTaken (s : Chip) (src : Src) (key : Nat) : Bool :=
  match s.seqOf key with | some q => decide (q.master ≠ srcMaster src ∨ q.path ≠ srcPath src) | none => false

/-- The most bytes that one access of a path moves (R460); the field port's segments are counted by R471. -/
def pathMax : Src → Nat
  | .mailbox _ _ => 4080
  | .bar2 _ _ => 4096
  | _ => 2 ^ 32

/-- A piece of a write, or a whole write (offset 0 and `final`): the steps of R460 in order; `h` carries out steps 10 and 11 and the
effect for the whole value. Answers the abort code. -/
def Chip.piece (s : Chip) (src : Src) (idx sub off : Nat) (d : List Byte) (final : Bool) (h : Nat → Chip → Nat × Chip) :
    Nat × Chip :=
  let m := srcMaster src
  let key := objKey idx sub
  match s.gate m idx sub true with
  | .abort c => (c, s)
  | .deny t => (0, s.denyWrite t m idx sub)
  | .go i =>
    if i.size ≤ off then (Abort.offset, s)
    else if d.length = 0 ∨ pathMax src < d.length ∨ i.size < off + d.length ∨ (final ∧ off + d.length ≠ i.size) then
      (Abort.length, s)
    else if s.seqTaken src key then (Abort.resourceOwned, s)
    else
      let buf := match s.seqOf key with | some q => q.buf | none => []
      if off ≠ buf.length then (Abort.segmentSequence, s.dropSeq key)
      else if final then h (natLE (buf ++ d)) (s.dropSeq key)
      else (0, s.setSeq ⟨key, m, srcPath src, buf ++ d⟩)

/-- PIECE_TIMEOUT (R456): the sequence is abandoned and counted; a segmented write of the field port ends with it. -/
def Chip.pieceTimeout (s : Chip) (idx sub : Nat) : Chip :=
  let key := objKey idx sub
  match s.seqOf key with
  | none => s
  | some _ =>
    let s := s.dropSeq key
    let x := match s.field.xfer with
      | some x => if !x.read ∧ objKey x.idx x.sub = key then none else some x
      | none => none
    { s with dict := { s.dict with abandoned := wrap32 (s.dict.abandoned + 1) }, field := { s.field with xfer := x } }

/-! ### Reads -/

/-- The answer of a read (R68). -/
structure ReadAns where
  abort : Nat := 0
  size : Nat := 0
  ty : Nat := 0
  data : List Byte := []
  deriving DecidableEq, Repr

/-- A read of `n` bytes from `off` by the steps of R460; a violation reads as zeros (R461). -/
def Chip.readObject (s : Chip) (src : Src) (idx sub off n : Nat) : ReadAns × Chip :=
  let m := srcMaster src
  match s.gate m idx sub false with
  | .abort c => ({ abort := c }, s)
  | .deny t =>
    let (z, ty) := match objInfo? idx sub with | some i => (i.size, i.ty.code) | none => (0, 0)
    ({ size := z, ty := ty, data := List.replicate (min (min n (pathMax src)) (z - off)) 0 }, s.deny t m)
  | .go i =>
    if i.size ≤ off then ({ abort := Abort.offset, size := i.size, ty := i.ty.code }, s)
    else if n = 0 ∨ pathMax src < n then ({ abort := Abort.length, size := i.size, ty := i.ty.code }, s)
    else
      let (d, s) := s.objBytes m idx sub i.size off (min n (i.size - off))
      ({ size := i.size, ty := i.ty.code, data := d }, s)

/-! ### The paths' answers -/

/-- The device answers accesses of a path: a head's link is up, the field port holds an address and is not bus-off, the debug port
is not closed, and the mode serves the dictionary (R226, R473, R478, R529). -/
def Chip.dictUp (s : Chip) (src : Src) : Bool :=
  (match s.mode.current with | .unseated | .inserting | .persist => false | _ => true) &&
    (match src with
     | .mailbox h _ => (s.head h).up
     | .bar2 h _ => (s.head h).up
     | .field => decide (s.field.addr ≠ 0 ∧ s.field.busState ≠ 2)
     | .manager => true
     | .debug => !s.husk.debugClosed)

/-- A mailbox command completes: its answer, vector 0 (R55) and the count (R554). -/
def Chip.mboxAnswer (s : Chip) (h opcode : Nat) (rc : MboxRc) (out : MboxOut) : Chip :=
  let x := s.head h
  (s.setHead h { x with mbox := ⟨opcode, rc, out⟩, msix := setBit x.msix 0 true }).countHead h 13 1

/-- The smallest CAN FD data length that holds `n` bytes (R467). -/
def canLength (n : Nat) : Nat := (([8, 12, 16, 20, 24, 32, 48, 64].find? (fun k => decide (n ≤ k))).map
  (fun k => if n ≤ 8 then n else k)).getD 64

/-- The device sends a frame, padded with zero bytes (R467). -/
def Chip.sendFrame (s : Chip) (fn node : Nat) (d : List Byte) : Chip :=
  let f : CanFrame := ⟨fn, node, d ++ List.replicate (canLength d.length - d.length) 0⟩
  { s with field := { s.field with sent := s.field.sent ++ [f] } }

/-- A RSP frame (R468). -/
def Chip.rsp (s : Chip) (cmd : Nat) (t : Bool) (idx sub : Nat) (rest : List Byte) : Chip :=
  s.sendFrame 0xA s.field.addr ([BitVec.ofNat 8 (cmd + 64 * t.toNat)] ++ bytesLE 2 idx ++ bytesLE 1 sub ++ rest)

/-- An ABORT frame (R468). -/
def Chip.rspAbort (s : Chip) (idx sub code : Nat) : Chip := s.rsp 0x3F false idx sub (bytesLE 4 code)

/-- A segmented transfer in progress is abandoned without an answer, and counted (R472). -/
def Chip.abandonXfer (s : Chip) : Chip :=
  match s.field.xfer with
  | none => s
  | some x =>
    let s := if x.read then s else s.dropSeq (objKey x.idx x.sub)
    { s with field := { s.field with xfer := none, abandoned := wrap32 (s.field.abandoned + 1) } }

/-- The registers of a head's dictionary window after a command (R462). -/
def Chip.bar2Answer (s : Chip) (h idx sub off n code size ty : Nat) (len : Option Nat) (buf : List Byte) : Chip :=
  let x := s.head h
  let b := x.bar2
  s.setHead h { x with bar2 := {
    index := idx, sub := sub, offset := off, length := n, status := 2, abort := code, size := size
    len := len.getD b.len, type := ty, buffer := buf ++ b.buffer.drop buf.length } }

/-- Size and type code of an object, zero where there is none. -/
def objShape (idx sub : Nat) : Nat × Nat := match objInfo? idx sub with | some i => (i.size, i.ty.code) | none => (0, 0)

/-- The answer of a whole write on its path: a value above 60 bytes came over the field port in segments, and the answer is that of
the last one (R469, R471). -/
def Chip.answerWrite (s : Chip) (src : Src) (idx sub : Nat) (d : List Byte) (code : Nat) : Chip :=
  match src with
  | .mailbox h _ => s.mboxAnswer h 0xC001 .success (.bytes (bytesLE 4 code))
  | .bar2 h _ => s.bar2Answer h idx sub 0 d.length code (objShape idx sub).1 (objShape idx sub).2 none d
  | .field =>
    if code ≠ 0 then s.rspAbort idx sub code
    else if d.length ≤ 60 then s.rsp 0x02 false idx sub []
    else s.rsp 0x04 (decide ((d.length - 1) / 60 % 2 = 1)) idx sub []
  | .manager => { s with dict := { s.dict with last := Tab.put 0 s.dict.last 0x60 code } }
  | .debug => { s with dict := { s.dict with last := Tab.put 0 s.dict.last 0x7F code } }

/-- A whole write of the bytes `d` over path `src`, whose steps 10 and 11 and effect are `h`, with its answer. A path that is not up
carries nothing. -/
def Chip.dictPut (s : Chip) (src : Src) (idx sub : Nat) (d : List Byte) (h : Nat → Chip → Nat × Chip) : Chip :=
  if !s.dictUp src then s
  else if s.pasidDenied (srcPasid src) then s.violation (srcMaster src)
  else
    let s := if src = .field then s.abandonXfer else s
    let (code, s) := s.piece src idx sub 0 d true h
    s.answerWrite src idx sub d code

/-- A command row's write: the value `v` of `n` bytes, carried out by `h`. -/
def Chip.dictCmd (s : Chip) (src : Src) (idx sub n v : Nat) (h : Chip → Nat × Chip) : Chip :=
  s.dictPut src idx sub (bytesLE n v) (fun _ s => h s)

/-- OBJECT_WRITE (R460): any object, by its whole value. -/
def Chip.objectWrite (s : Chip) (src : Src) (idx sub : Nat) (d : List Byte) : Chip :=
  s.dictPut src idx sub d (fun v s => s.writeValue (srcMaster src) idx sub v)

/-! ### The BAR2 window (R462, R463) -/

/-- The register at offset `off` of a head's dictionary window (R462). -/
def Bar2.reg (b : Bar2) (off : Nat) : Nat :=
  match off with
  | 0x00 => b.index + b.sub * 2 ^ 16
  | 0x04 => b.offset
  | 0x08 => b.length
  | 0x0C => b.status
  | 0x10 => b.abort
  | 0x14 => b.size
  | 0x18 => b.len + b.type * 2 ^ 16
  | _ => 0

/-- A read of `n` bytes at offset `off` of a head's BAR2 (R54, R462): the registers by aligned 4-byte accesses, the buffer, and the timeline
post aperture with this head's result word (R23, R24); zeros elsewhere, and no fault source is set. -/
def Chip.bar2Read (s : Chip) (h off n : Nat) : List Byte :=
  let b := (s.head h).bar2
  if off < 0x20 then (if off % 4 = 0 ∧ n = 4 then bytesLE 4 (b.reg off) else List.replicate n 0)
  else (List.range n).map (fun i =>
    let a := off + i
    if 0x1000 ≤ a ∧ a < 0x2000 then b.buffer.getD (a - 0x1000) 0
    else if 0x800000 ≤ a ∧ a < 0x801000 then s.apertureByte h (a - 0x800000)
    else 0)

/-- WINDOW_CMD_READ. -/
def Chip.windowRead (s : Chip) (h : Fin 4) (idx sub off n : Nat) : Chip :=
  if !s.dictUp (.bar2 h) then s
  else
    let (r, s) := s.readObject (.bar2 h) idx sub off n
    s.bar2Answer h idx sub off n r.abort r.size r.ty (some r.data.length) r.data

/-- WINDOW_CMD_WRITE and WINDOW_CMD_WRITE_FINAL: `n` bytes of the buffer. -/
def Chip.windowWrite (s : Chip) (h : Fin 4) (idx sub off n : Nat) (buf : List Byte) (final : Bool) : Chip :=
  if !s.dictUp (.bar2 h) then s
  else
    let m := min n 4097
    let d := (buf.take 4096 ++ List.replicate m 0).take m
    let (code, s) := s.piece (.bar2 h) idx sub off d final (fun v s => s.writeValue h idx sub v)
    s.bar2Answer h idx sub off n code (objShape idx sub).1 (objShape idx sub).2 none (buf.take 4096)

end Sys2Proof.Machine
end

