-- ==== Sys2Proof/Machine/Mailbox.lean ====
section
/-!
DEFINITION. Machine/Mailbox.lean: a head's primary mailbox (R66 to R71, R78): the standard commands by their named content, the vendor
commands by their bytes.
-/
namespace Sys2Proof.Machine

/-- The mailbox of head `h` takes commands. -/
def Chip.mboxUp (s : Chip) (h : Fin 4) : Bool := s.dictUp (.mailbox h)

/-- A standard command with an answer, which the mailbox carries only while its head is up. -/
def Chip.mboxStd (s : Chip) (h : Fin 4) (opcode : Nat) (f : Chip → MboxRc × MboxOut × Chip) : Chip :=
  if !s.mboxUp h then s
  else
    let (rc, out, s) := f s
    s.mboxAnswer h opcode rc out

/-- The standard opcodes of CXL 3.1 (R66; PRESUMED, log entry 14). -/
abbrev Op.getEvents : Nat := 0x0100
abbrev Op.clearEvents : Nat := 0x0101
abbrev Op.getPolicy : Nat := 0x0102
abbrev Op.setPolicy : Nat := 0x0103
abbrev Op.getFw : Nat := 0x0200
abbrev Op.transferFw : Nat := 0x0201
abbrev Op.activateFw : Nat := 0x0202
abbrev Op.getTime : Nat := 0x0300
abbrev Op.setTime : Nat := 0x0301
abbrev Op.getLogs : Nat := 0x0400
abbrev Op.getLog : Nat := 0x0401
abbrev Op.identify : Nat := 0x4000
abbrev Op.health : Nat := 0x4200
abbrev Op.getPoison : Nat := 0x4300
abbrev Op.injectPoison : Nat := 0x4301
abbrev Op.clearPoison : Nat := 0x4302
abbrev Op.getDcConfig : Nat := 0x4800
abbrev Op.getDcList : Nat := 0x4801
abbrev Op.addDc : Nat := 0x4802
abbrev Op.releaseDc : Nat := 0x4803

/-- The number of a log in the order of R55. -/
def logIndex : EvLog → Nat
  | .info => 0 | .warning => 1 | .failure => 2 | .fatal => 3 | .dyncap => 4

/-- GET_EVENT_RECORDS (R65, R66). -/
def Chip.mboxGetEvents (s : Chip) (h : Fin 4) (g : EvLog) : Chip :=
  s.mboxStd h Op.getEvents (fun s =>
    let l := (s.head h).evLog (logIndex g)
    (.success, .events l.recs l.overflow l.lost, s))

/-- CLEAR_EVENT_RECORDS (R66): the `n` oldest records go; the overflow flag and lost count are cleared with them (PRESUMED, log entry
14); more than the log holds is Invalid Input. -/
def Chip.mboxClearEvents (s : Chip) (h : Fin 4) (g : EvLog) (n : Nat) : Chip :=
  s.mboxStd h Op.clearEvents (fun s =>
    let x := s.head h
    let l := x.evLog (logIndex g)
    if l.recs.length < n then (.invalidInput, .none, s)
    else (.success, .none, s.setHead h (x.setEvLog (logIndex g) { recs := l.recs.drop n })))

/-- GET_EVENT_INTERRUPT_POLICY (R66). -/
def Chip.mboxGetPolicy (s : Chip) (h : Fin 4) : Chip :=
  s.mboxStd h Op.getPolicy (fun s => (.success, .policy (s.head h).policy, s))

/-- SET_EVENT_INTERRUPT_POLICY (R66). -/
def Chip.mboxSetPolicy (s : Chip) (h : Fin 4) (p : BitVec 5) : Chip :=
  s.mboxStd h Op.setPolicy (fun s => (.success, .none, s.setHead h { s.head h with policy := p }))

/-- GET_FW_INFO (R66, R485): the slot that runs and both versions. -/
def Chip.mboxFwInfo (s : Chip) (h : Fin 4) : Chip :=
  s.mboxStd h Op.getFw (fun s => (.success, .fwInfo s.sb.boot s.sb.imgA.version.toNat s.sb.imgB.version.toNat, s))

/-- A command that needs admin right on a target (R66): without it, it is a silent violation. -/
def Chip.needAdmin (s : Chip) (t : Nat) (h : Fin 4) (f : Chip → MboxRc × Chip) : MboxRc × MboxOut × Chip :=
  if s.may t h 3 then
    let (rc, s) := f s
    (rc, .none, s)
  else (.success, .none, s.deny t h)

/-- TRANSFER_FW (R66, R485). -/
def Chip.mboxTransferFw (s : Chip) (h : Fin 4) (seq length : Nat) (version : BitVec 256) (sigOk : Bool) : Chip :=
  s.mboxStd h Op.transferFw (fun s => s.needAdmin 0x501 h (fun s => s.transferImage seq length version sigOk))

/-- ACTIVATE_FW (R66, R485). -/
def Chip.mboxActivateFw (s : Chip) (h : Fin 4) : Chip :=
  s.mboxStd h Op.activateFw (fun s => s.needAdmin 0x501 h (fun s => s.activateImage))

/-- GET_TIMESTAMP (R66): the time set last and the time since then, which the block has no clock for and which is free. -/
def Chip.mboxGetTime (s : Chip) (h : Fin 4) : Chip :=
  s.mboxStd h Op.getTime (fun s =>
    let (n, s) := s.takeNat
    let t := ((s.head h).stamp + n) % 2 ^ 64
    (.success, .time t, s.setHead h { s.head h with stamp := t }))

/-- SET_TIMESTAMP (R66). -/
def Chip.mboxSetTime (s : Chip) (h : Fin 4) (t : Nat) : Chip :=
  s.mboxStd h Op.setTime (fun s => (.success, .none, s.setHead h { s.head h with stamp := t }))

/-- GET_SUPPORTED_LOGS (R66). -/
def Chip.mboxGetLogs (s : Chip) (h : Fin 4) : Chip := s.mboxStd h Op.getLogs (fun s => (.success, .logs, s))

/-- GET_LOG (R66): the logs' content is CXL 3.1's, and free here. -/
def Chip.mboxGetLog (s : Chip) (h : Fin 4) : Chip :=
  s.mboxStd h Op.getLog (fun s =>
    let (n, s) := s.takeNat
    (.success, .log n, s))

/-- IDENTIFY_MEMORY_DEVICE (R53): no static capacity of either kind. -/
def Chip.mboxIdentify (s : Chip) (h : Fin 4) : Chip := s.mboxStd h Op.identify (fun s => (.success, .identity 0 0, s))

/-- GET_HEALTH_INFO (R66): the worst severity that stands. -/
def Chip.mboxHealth (s : Chip) (h : Fin 4) : Chip := s.mboxStd h Op.health (fun s => (.success, .health s.worst, s))

/-- GET_POISON_LIST (R66): the poisoned lines of a range. -/
def Chip.mboxGetPoison (s : Chip) (h : Fin 4) (base len : Nat) : Chip :=
  s.mboxStd h Op.getPoison (fun s =>
    (.success, .lines (((s.poison.filter (fun e => e.2)).map (fun e => 64 * e.1)).filter
      (fun a => decide (base ≤ a ∧ a < base + len))), s))

/-- The cask of the accepted extent that holds a DLA for head `h`'s group (R59, R66). -/
def Chip.poisonCask (s : Chip) (h : Fin 4) (dla : Nat) : Option Nat :=
  match s.extentOf dla with
  | some e => if e.st = .accepted ∧ e.group = s.cfgAt Obj.headGroup h then some e.cask else none
  | none => none

/-- A line written whole by the device on a host's command. -/
def Chip.setLine (s : Chip) (dla : Nat) (d : Line) (poison : Bool) : Chip :=
  s.access ⟨0x60, .byDir, .write, lineBase dla, fullMask, d, poison, true, 0, .none⟩ {}

/-- INJECT_POISON (R66): the line keeps its bytes and is stored as poisoned (R64). -/
def Chip.mboxInject (s : Chip) (h : Fin 4) (dla : Nat) : Chip :=
  s.mboxStd h Op.injectPoison (fun s => match s.poisonCask h dla with
    | none => (.invalidInput, .none, s)
    | some c => s.needAdmin c h (fun s => (.success, s.setLine dla (s.line dla) true)))

/-- CLEAR_POISON (R66): the line takes the command's data. -/
def Chip.mboxClearPoison (s : Chip) (h : Fin 4) (dla : Nat) (d : Line) : Chip :=
  s.mboxStd h Op.clearPoison (fun s => match s.poisonCask h dla with
    | none => (.invalidInput, .none, s)
    | some c => s.needAdmin c h (fun s => (.success, s.setLine dla d false)))

/-- GET_DC_CONFIGURATION (R56, R66). -/
def Chip.mboxDcConfig (s : Chip) (h : Fin 4) : Chip :=
  s.mboxStd h Op.getDcConfig (fun s => (.success, .dcConfig ((List.range 8).map (fun r =>
    (s.cfgAt Obj.dcBase r, s.cfgAt Obj.dcLength r, s.cfgAt Obj.dcBlockMib r, s.cfgAt Obj.dcFlags r))), s))

/-- GET_DC_EXTENT_LIST (R66): the extents accepted by the head's group, with their cask as tag (R97). -/
def Chip.mboxDcList (s : Chip) (h : Fin 4) : Chip :=
  s.mboxStd h Op.getDcList (fun s => (.success, .dcExtents ((s.map.extents.filter (fun e =>
    decide (e.st = .accepted ∧ e.group = s.cfgAt Obj.headGroup h))).map (fun e => (e.base, e.len, e.cask))), s))

/-- An extent list of a command, in numbers. -/
def extPairs (xs : List Ext) : List (Nat × Nat) := xs.map (fun e => (e.base.toNat, e.len.toNat))

/-- ADD_DC_RESPONSE (R57). -/
def Chip.mboxAddDc (s : Chip) (h : Fin 4) (xs : List Ext) : Chip :=
  s.mboxStd h Op.addDc (fun s =>
    let (rc, s) := s.addDcResponse h (extPairs xs)
    (rc, .none, s))

/-- RELEASE_DC (R58). -/
def Chip.mboxReleaseDc (s : Chip) (h : Fin 4) (xs : List Ext) : Chip :=
  s.mboxStd h Op.releaseDc (fun s =>
    let (rc, s) := s.releaseDc h (extPairs xs)
    (rc, .none, s))

/-- UNSUPPORTED_OPCODE (R66). -/
def Chip.mboxUnsupported (s : Chip) (h : Fin 4) (op : Nat) : Chip :=
  s.mboxStd h op (fun s => (.unsupported, .none, s))

/-! ### Vendor commands -/

/-- `n` bytes of an input from `off`, as a number. -/
def inNat (d : List Byte) (off n : Nat) : Nat := natLE ((d.drop off).take n)

/-- DICTIONARY_READ (R68). -/
def Chip.mboxRead (s : Chip) (h : Fin 4) (d : List Byte) : Chip :=
  s.mboxStd h 0xC000 (fun s =>
    if d.length ≠ 16 then (.invalidInput, .none, s)
    else
      let (r, s) := s.readObject (.mailbox h) (inNat d 0 2) (inNat d 2 1) (inNat d 4 4) (inNat d 8 2)
      (.success, .bytes (bytesLE 4 r.abort ++ bytesLE 4 r.size ++ bytesLE 2 r.data.length ++ bytesLE 1 r.ty ++ List.replicate 5 0
        ++ r.data), s))

/-- DICTIONARY_WRITE (R69). -/
def Chip.mboxWrite (s : Chip) (h : Fin 4) (d : List Byte) : Chip :=
  s.mboxStd h 0xC001 (fun s =>
    if d.length < 16 ∨ d.length ≠ 16 + inNat d 8 2 then (.invalidInput, .none, s)
    else
      let idx := inNat d 0 2
      let sub := inNat d 2 1
      let (code, s) := s.piece (.mailbox h) idx sub (inNat d 4 4) (d.drop 16) (bitOf (inNat d 3 1) 0)
        (fun v s => s.writeValue h idx sub v)
      (.success, .bytes (bytesLE 4 code), s))

/-- One record posted over the mailbox (R23, R71): its result word. -/
def Chip.postOne (s : Chip) (h : Fin 4) (v : Nat) : Chip := if s.mayPost h then s.postWindow h v else s.postViolation h

/-- POST_WINDOW (R71). -/
def Chip.mboxPost (s : Chip) (h : Fin 4) (d : List Byte) : Chip :=
  s.mboxStd h 0xC010 (fun s =>
    if d.length ≠ 32 then (.invalidInput, .none, s)
    else
      let s := s.postOne h (natLE d)
      (.success, .bytes (bytesLE 8 (s.resultOf h)), s))

/-- The records of a batch, each posted after the one before, up to the first that is not ACCEPTED: the result words. -/
def Chip.postAll (s : Chip) (h : Fin 4) : List (List Byte) → List Nat × Chip
  | [] => ([], s)
  | r :: rs =>
    let s := s.postOne h (natLE r)
    let w := s.resultOf h
    if w % 256 = Post.accepted then
      let (ws, s) := Chip.postAll s h rs
      (w :: ws, s)
    else ([w], s)

/-- POST_WINDOW_BATCH (R71); an n of 0 or above 64 answers Invalid Input (DESIGN CHOICE, log entry 116). -/
def Chip.mboxBatch (s : Chip) (h : Fin 4) (d : List Byte) : Chip :=
  s.mboxStd h 0xC011 (fun s =>
    let n := inNat d 0 2
    if d.length ≠ 8 + 32 * n ∨ n = 0 ∨ 64 < n then (.invalidInput, .none, s)
    else
      let (ws, s) := s.postAll h ((List.range n).map (fun i => (d.drop (8 + 32 * i)).take 32))
      (.success, .bytes (bytesLE 2 ws.length ++ List.replicate 6 0 ++ ws.flatMap (bytesLE 8)), s))

/-- The bytes of a failover record (R78). -/
def failBytes (h : Nat) (r : Option FailRec) : List Byte :=
  match r with
  | none => bytesLE 1 h ++ List.replicate 15 0
  | some r => bytesLE 1 h ++ [1] ++ bytesLE 2 r.writes.length ++ bytesLE 4 r.reads ++ bytesLE 8 r.tc
      ++ r.writes.flatMap (fun w => bytesLE 2 w.1 ++ [if w.2 then 1 else 0, 0])

/-- GET_FAILOVER_RECORD (R78). -/
def Chip.mboxFailover (s : Chip) (h : Fin 4) (d : List Byte) : Chip :=
  s.mboxStd h 0xC020 (fun s => match d with
    | [b] => (.success, .bytes (failBytes b.toNat (if b.toNat < 4 then (s.head b.toNat).failRec else none)), s)
    | _ => (.invalidInput, .none, s))

end Sys2Proof.Machine
end

