-- ==== Sys2Proof/Machine/FieldBus.lean ====
section
/-!
DEFINITION. Machine/FieldBus.lean: the CAN FD field port (R465 to R479): requests and segmented transfers, heartbeats, alarms, and node
addressing.
-/
namespace Sys2Proof.Machine

/-! ### Requests (R468 to R472) -/

/-- The field port receives: MGMT is on in a mode that serves the dictionary, and the bus is not off. -/
def Chip.busUp (s : Chip) : Bool :=
  (match s.mode.current with | .unseated | .inserting | .persist => false | _ => true) && decide (s.field.busState ≠ 2)

/-- A short frame is counted (R467). -/
def Chip.malformed (s : Chip) : Chip := { s with field := { s.field with malformed := wrap32 (s.field.malformed + 1) } }

/-- End the transfer in progress, a write's sequence with it. -/
def Chip.endXfer (s : Chip) : Chip :=
  match s.field.xfer with
  | none => s
  | some x =>
    let s := if x.read then s else s.dropSeq (objKey x.idx x.sub)
    { s with field := { s.field with xfer := none } }

/-- A REQ frame to this node, at least `need` bytes after its command byte: the index, the sub-index and the bytes after the header
(R466 to R468). -/
def Chip.reqFrame (s : Chip) (node : Nat) (rest : List Byte) (need : Nat) (f : Nat → Nat → List Byte → Chip → Chip) : Chip :=
  if !s.busUp ∨ s.field.addr = 0 ∨ node ≠ s.field.addr then s
  else if rest.length < 3 + need then s.malformed
  else f (inNat rest 0 2) (inNat rest 2 1) (rest.drop 3) s

/-- REQ READ (R469, R470): up to 60 bytes at once, else the size, and the segments from a copy of what fits one. -/
def Chip.reqRead (s : Chip) (node : Nat) (rest : List Byte) : Chip :=
  s.reqFrame node rest 0 (fun idx sub _ s =>
    let s := s.abandonXfer
    let (r, s) := s.readObject .field idx sub 0 (min 4096 (max 1 (objShape idx sub).1))
    if r.abort ≠ 0 then s.rspAbort idx sub r.abort
    else if r.size ≤ 60 then s.rsp 0x01 false idx sub r.data
    else
      let s := { s with field := { s.field with xfer := some ⟨true, idx, sub, r.size, if r.size ≤ 4096 then r.data else [], 0, false⟩ } }
      s.rsp 0x06 false idx sub (bytesLE 4 r.size))

/-- REQ WRITE (R469): exactly the object's size of at most 60 bytes, and padding. -/
def Chip.reqWrite (s : Chip) (node : Nat) (rest : List Byte) : Chip :=
  s.reqFrame node rest 0 (fun idx sub d s =>
    let s := s.abandonXfer
    let n := (objShape idx sub).1
    let d := if 0 < n ∧ n ≤ 60 ∧ n ≤ d.length ∧ d.length + 4 ≤ canLength (n + 4) then d.take n else d
    let (code, s) := if 60 < n then s.piece .field idx sub 0 [] true (fun _ s => (0, s))
      else s.piece .field idx sub 0 d true (fun v s => s.writeValue 0x70 idx sub v)
    if code = 0 then s.rsp 0x02 false idx sub [] else s.rspAbort idx sub code)

/-- REQ WRITE_INIT (R471): the total must be the size of an object above 60 bytes, which no other sequence holds. -/
def Chip.writeInit (s : Chip) (node : Nat) (rest : List Byte) : Chip :=
  s.reqFrame node rest 4 (fun idx sub d s =>
    let s := s.abandonXfer
    let key := objKey idx sub
    let start := fun (s : Chip) (n : Nat) =>
      let s := s.setSeq ⟨key, 0x70, srcPath .field, []⟩
      ({ s with field := { s.field with xfer := some ⟨false, idx, sub, n, [], 0, false⟩ } } : Chip).rsp 0x03 false idx sub []
    match s.gate 0x70 idx sub true with
    | .abort c => s.rspAbort idx sub c
    | .deny t =>
      let n := (objShape idx sub).1
      let s := s.deny t 0x70
      if 60 < n ∧ inNat d 0 4 = n then
        ({ s with field := { s.field with xfer := some ⟨false, idx, sub, n, [], 0, false⟩ } } : Chip).rsp 0x03 false idx sub []
      else s.rsp 0x03 false idx sub []
    | .go i =>
      if i.size ≤ 60 ∨ inNat d 0 4 ≠ i.size then s.rspAbort idx sub Abort.length
      else if s.seqTaken .field key then s.rspAbort idx sub Abort.resourceOwned
      else start s i.size)

/-- REQ WRITE_SEG (R471): exactly the next min(60, remaining) bytes, and padding; the object takes the value with the last. -/
def Chip.writeSeg (s : Chip) (node : Nat) (t : Bool) (rest : List Byte) : Chip :=
  s.reqFrame node rest 0 (fun idx sub d s => match s.field.xfer with
    | none => s.rspAbort idx sub Abort.segmentSequence
    | some x =>
      let n := min 60 (x.size - x.pos)
      if x.read ∨ x.idx ≠ idx ∨ x.sub ≠ sub ∨ x.t ≠ t ∨ d.length < n ∨ canLength (n + 4) < d.length + 4 then
        s.endXfer.rspAbort idx sub Abort.segmentSequence
      else
        let buf := x.buf ++ d.take n
        if x.pos + n < x.size then
          ({ s with field := { s.field with xfer := some { x with buf := buf, pos := x.pos + n, t := !t } } } : Chip).rsp 0x04 t idx sub []
        else
          let s := s.endXfer
          let (code, s) := s.piece .field idx sub 0 buf true (fun v s => s.writeValue 0x70 idx sub v)
          if code = 0 then s.rsp 0x04 t idx sub [] else s.rspAbort idx sub code)

/-- REQ READ_SEG (R470): the next min(60, remaining) bytes, from the copy or, above 4,096 bytes, from the object now (R455). -/
def Chip.readSeg (s : Chip) (node : Nat) (t : Bool) (rest : List Byte) : Chip :=
  s.reqFrame node rest 0 (fun idx sub _ s => match s.field.xfer with
    | none => s.rspAbort idx sub Abort.segmentSequence
    | some x =>
      if !x.read ∨ x.idx ≠ idx ∨ x.sub ≠ sub ∨ x.t ≠ t then s.endXfer.rspAbort idx sub Abort.segmentSequence
      else
        let n := min 60 (x.size - x.pos)
        let (d, s) := if x.size ≤ 4096 then ((x.buf.drop x.pos).take n, s)
          else
            let (r, s) := s.readObject .field idx sub x.pos n
            (r.data ++ List.replicate (n - r.data.length) 0, s)
        let x' : Option Xfer := if x.pos + n < x.size then some { x with pos := x.pos + n, t := !t } else none
        ({ s with field := { s.field with xfer := x' } } : Chip).rsp 0x05 t idx sub d)

/-- A client ABORT (R468): the transfer ends, without an answer. -/
def Chip.reqAbort (s : Chip) (node : Nat) (rest : List Byte) : Chip := s.reqFrame node rest 0 (fun _ _ _ s => s.endXfer)

/-- A reserved REQ code (R468). -/
def Chip.reqReserved (s : Chip) (node : Nat) (rest : List Byte) : Chip :=
  s.reqFrame node rest 0 (fun idx sub _ s => s.rspAbort idx sub Abort.unknownCommand)

/-- TRANSFER_TIMEOUT (R472). -/
def Chip.transferTimeout (s : Chip) : Chip :=
  match s.field.xfer with
  | none => s
  | some x => s.endXfer.rspAbort x.idx x.sub Abort.transferTimeout

/-! ### Heartbeat, alarms and control (R473 to R476) -/

/-- The 8 bytes of a heartbeat (R474). -/
def Chip.heartbeatBytes (s : Chip) : List Byte :=
  bytesLE 1 s.mode.current.code
    ++ bytesLE 1 (s.faultN.toNat + 2 * (decide (s.tb.state = .locked)).toNat + 4 * s.inBurst.toNat)
    ++ bytesLE 2 s.field.hbSeq ++ bytesLE 2 s.tb.epoch ++ bytesLE 1 s.worst ++ [0]

/-- A HEARTBEAT frame goes out, while the node holds an address and the bus works. -/
def Chip.heartbeat (s : Chip) : Chip :=
  if !s.busUp ∨ s.field.addr = 0 then s
  else
    let s := s.sendFrame 0xE s.field.addr s.heartbeatBytes
    { s with field := { s.field with hbSeq := (s.field.hbSeq + 1) % 65536 } }

/-- HEARTBEAT_TIMER (R474). -/
def Chip.heartbeatTimer (s : Chip) : Chip := if s.cfg Obj.fieldHeartbeatMs = 0 then s else s.heartbeat

/-- A CONTROL frame for this node or for all (R466, R476); what its reserved byte 1 holds is ignored (R3). -/
def Chip.controlFrame (s : Chip) (node : Nat) (rest : List Byte) (f : Chip → Chip) : Chip :=
  if !s.busUp ∨ s.field.addr = 0 ∨ (node ≠ 0 ∧ node ≠ s.field.addr) then s
  else match rest with
    | [] => s.malformed
    | _ :: _ => f s

/-- HEARTBEAT_REQUEST (R476). -/
def Chip.heartbeatRequest (s : Chip) (node : Nat) (rest : List Byte) : Chip := s.controlFrame node rest (fun s => s.heartbeat)

/-- ALARM_RESEND (R476): an ALARM for every source whose sticky bit is set and whose severity qualifies. -/
def Chip.alarmResend (s : Chip) (node : Nat) (rest : List Byte) : Chip :=
  s.controlFrame node rest (fun s =>
    ((List.range 256).filter (fun n => s.sticky n && decide (s.cfg Obj.fieldAlarmMinSeverity ≤ s.severity n))).foldl
      (fun s n => s.queueAlarm (s.alarmBytes n 0xFF)) s)

/-- The oldest queued ALARM goes out (R475) while the node holds an address and the bus works. -/
def Chip.sendAlarm (s : Chip) : Chip :=
  if !s.busUp ∨ s.field.addr = 0 then s
  else match s.field.alarms with
    | [] => s
    | a :: r => ({ s with field := { s.field with alarms := r } } : Chip).sendFrame 0x1 s.field.addr a

/-- BUS_OFF (R473): the transfer in progress and the oldest alarm are abandoned. -/
def Chip.busOff (s : Chip) : Chip :=
  if s.field.busState = 2 then s
  else
    let s := s.abandonXfer
    let s := { s with field := { s.field with
      busState := 2, busOffs := wrap32 (s.field.busOffs + 1), alarms := s.field.alarms.drop 1 } }
    s.raise 160

/-- BUS_RECOVERY (R473): error active again, and a heartbeat at once. -/
def Chip.busRecovery (s : Chip) : Chip :=
  if s.field.busState ≠ 2 then s
  else ({ s with field := { s.field with busState := 0, txErr := 0, rxErr := 0 } } : Chip).heartbeat

/-! ### Node addressing (R477 to R479) -/

/-- The slot straps select chain addressing (R477). -/
def Chip.chained (s : Chip) : Bool := decide (s.pkg.slot = 0 ∨ s.pkg.slot = 0x7F)

/-- A strapped device passes the chain on (R478): once it has left RECALL, while CHAIN_IN_N is asserted. -/
def Chip.passChain (s : Chip) : Chip :=
  if !s.chained ∧ s.field.addr ≠ 0 ∧ s.field.chainIn.isSome then { s with field := { s.field with chainOut := true } } else s

/-- CHAIN_IN_ASSERT (R478). -/
def Chip.chainInput (s : Chip) (us : Option Nat) : Chip := ({ s with field := { s.field with chainIn := us } } : Chip).passChain

/-- OFFER (R478): an OFFER that a chain device without an address accepts gives it its address, which it claims; CHAIN_OUT_N, a heartbeat
and the end of UNADDRESSED follow. -/
def Chip.chainOffer (s : Chip) (node : Nat) (rest : List Byte) : Chip :=
  if !s.busUp ∨ s.mode.current = .recall ∨ node ≠ 0 then s
  else if rest.length < 7 then s.malformed
  else
    let a := inNat rest 0 1
    if !s.chained ∨ s.field.addr ≠ 0 ∨ a = 0 ∨ 126 < a then s
    else match s.field.chainIn with
      | none => s
      | some us =>
        if us < 1000 then s
        else
          let s := { s with field := { s.field with addr := a, source := 2, chainOut := true } }
          let s := s.sendFrame 0x3 a (bytesLE 1 2 ++ bytesLE 1 a ++ List.replicate 6 0 ++ bytesLE 8 Config.serial.toNat)
          s.heartbeat.addressHeld

/-- ADDRESS_CONFLICT (R479). -/
def Chip.addressConflict (s : Chip) (node : Nat) : Chip :=
  if !s.busUp ∨ s.field.addr = 0 ∨ node ≠ s.field.addr then s
  else
    let s := { s with field := { s.field with conflicts := wrap32 (s.field.conflicts + 1) } }
    let s := s.raise 161
    if s.field.source = 2 then
      let s := s.endXfer
      { s with field := { s.field with addr := 0, source := 0 } }
    else s

/-- What follows the end of RECALL on the field port (R474, R477, R478): the strap address is held, a heartbeat goes out, and the chain
passes on. -/
def Chip.fieldStart (old s : Chip) : Chip := if old.field.addr = 0 ∧ s.field.addr ≠ 0 then s.heartbeat.passChain else s

end Sys2Proof.Machine
end

