-- ==== Sys2Proof/Machine/Tap.lean ====
section
/-!
DEFINITION. Machine/Tap.lean: the boundary-scan test access port (R584). No device operation reads or writes it.
-/
namespace Sys2Proof.Machine

/-- Boundary cells: three for each scanned ball (R584). The lists of R568 and R569 give 121 single-ended signals for each of the 8 DDR5
channels, 53 for each of the 8 media channels, and 38 of the control list. -/
abbrev boundaryLen : Nat := 3 * (8 * 121 + 8 * 53 + 38)

/-- A boundary register's cells as given: exactly `boundaryLen`, missing cells zero. -/
def fitCells (l : List Bool) : List Bool := (l ++ List.replicate boundaryLen false).take boundaryLen

/-- Cells as a register value, the first cell in bit 0. -/
def cellsNat : List Bool → Nat
  | [] => 0
  | b :: r => b.toNat + 2 * cellsNat r

/-- The TAP after its reset (R539, R584): IDCODE is selected, nothing drives or floats; the cells stay. -/
def Tap.resetTap (t : Tap) : Tap := { cells := t.cells }

/-- IDCODE: the identification register. -/
def Tap.idcode (t : Tap) : Tap := { cells := t.cells }

/-- EXTEST: the boundary cells drive the pins; the boundary register stands between TDI and TDO. -/
def Tap.extest (t : Tap) : Tap :=
  { t with instr := .extest, dr := cellsNat (fitCells t.cells), drLen := boundaryLen, driving := true, floating := false }

/-- SAMPLE: the boundary register takes the pins' values; the pins keep their function. -/
def Tap.sample (t : Tap) (pins : List Bool) : Tap :=
  { t with instr := .sample, dr := cellsNat (fitCells pins), drLen := boundaryLen, driving := false, floating := false }

/-- PRELOAD: the boundary cells take what was shifted in; the pins keep their function. -/
def Tap.preload (t : Tap) (cells : List Bool) : Tap :=
  { instr := .preload, dr := cellsNat (fitCells cells), drLen := boundaryLen, cells := fitCells cells, driving := false
    floating := false }

/-- CLAMP: the boundary cells drive the pins, with the bypass register between TDI and TDO. -/
def Tap.clamp (t : Tap) : Tap := { t with instr := .clamp, dr := 0, drLen := 1, driving := true, floating := false }

/-- HIGHZ: every output floats, with the bypass register between TDI and TDO. -/
def Tap.highz (t : Tap) : Tap := { t with instr := .highz, dr := 0, drLen := 1, driving := false, floating := true }

/-- BYPASS: the bypass register, one bit that reads zero. -/
def Tap.bypass (t : Tap) : Tap := { t with instr := .bypass, dr := 0, drLen := 1, driving := false, floating := false }

/-- The seven IEEE 1149.1 codes (R584); every other code is a private instruction. -/
def privateCode (c : BitVec 8) : Bool := !([0x00, 0x01, 0x02, 0x03, 0x04, 0x05, 0xFF].contains c)

/-- A public code as the instruction it names, SAMPLE and PRELOAD aside, which carry data of their own. -/
def Tap.runCode (t : Tap) (c : BitVec 8) : Tap :=
  if c = 0x00 then t.extest
  else if c = 0x01 then t.idcode
  else if c = 0x02 then { t with instr := .sample, drLen := boundaryLen, driving := false, floating := false }
  else if c = 0x03 then { t with instr := .preload, drLen := boundaryLen, driving := false, floating := false }
  else if c = 0x04 then t.clamp
  else if c = 0x05 then t.highz
  else t.bypass

end Sys2Proof.Machine
end

