-- ==== Sys2Proof/Machine/Settle.lean ====
section
/-!
DEFINITION. Machine/Settle.lean: what follows a command's own effect: scheduled operations that may start, links that go down, the reset
and SAFE reactions of fault sources, and the work that the effect lets go on. A device with none of these pending is calm, and
settling leaves it as it is.
-/
namespace Sys2Proof.Machine

/-! ### Scheduled operations (R38) -/

/-- What an operation does as it starts, by its owning chapter (R117, R143, R382, R536). -/
def Chip.opBegin (s : Chip) (k : OpKind) : Chip :=
  match k with
  | .caskDomain _ _ => s.cohPump
  | .recall d => s.recallDomain d false
  | .linkChange l t => s.startChange l (t % 256) (t / 256)
  | .domain n t => s.beginDomain n t
  | _ => s

/-- What an operation was accepted under still holds (R117, R142, R535): one for which it does not is dropped (DESIGN CHOICE, log entry 157). -/
def Chip.opStill (s : Chip) (k : OpKind) : Bool :=
  match k with
  | .caskDomain c d => decide (s.assignCode c d = 0)
  | .recall d => decide ((s.dom d).state = .active)
  | .domain n t => decide (t = 2 ∨ (s.domain n ≠ .on ∧ s.domain n ≠ .onHeld) ∨ s.leaveOn n = 0)
  | _ => true

/-- The operation at the front of the queue starts. -/
def Chip.startOp (s : Chip) : Chip :=
  match s.win.ops with
  | [] => s
  | o :: r =>
    let s := { s with win := { s.win with ops := r } }
    if s.opStill o.kind then
      ({ s with win := { s.win with running := some { o with since := s.tb.tc } } } : Chip).opBegin o.kind
    else s

/-- Operations run at once in these modes (R38). -/
def Chip.opsAtOnce (s : Chip) : Bool := decide (s.mode.current = .configuring ∨ s.mode.current = .training)

/-- The QUIET window in effect has room for `us` µs and allows changes (R38). -/
def Chip.roomFor (s : Chip) (us : Nat) : Bool :=
  match s.window with
  | some w => decide (w.cls = .quiet ∧ s.tb.tc ≤ w.stop ∧ us * s.tb.measuredKhz ≤ (w.stop - s.tb.tc) * 1000) && !w.noChange
  | none => false

/-- The front operation may start (R38). -/
def Chip.opReady (s : Chip) : Bool :=
  s.win.running.isNone &&
    (match s.win.ops with
     | [] => false
     | o :: _ => s.opsAtOnce || (decide (s.mode.current = .service ∨ s.mode.current = .diagnosis) && s.roomFor o.us))

/-- SCHEDULED_OP_START. -/
def Chip.scheduledStart (s : Chip) : Chip := if s.opReady then s.startOp else s

/-- No line of the cask is tracked, and no transaction of one is active. -/
def Chip.caskClear (s : Chip) (c : Nat) : Bool :=
  let mine := fun (ln : Nat) => match s.extentOf (64 * ln) with | some e => decide (e.cask = c) | none => false
  s.coh.filter.all (fun e => !mine e.1) && s.coh.txns.all (fun t => !mine t.line)

/-- The running operation's own work is done, as far as State shows it. -/
def Chip.opDone (s : Chip) (k : OpKind) : Bool :=
  match k with
  | .caskDomain c _ => s.caskClear c
  | .recall d => decide ((s.dom d).state ≠ .recalling)
  | .linkChange l _ => (match (s.link l).change with | some c => !c.planned | none => true)
  | .domain n _ =>
    (decide (s.domain n ≠ .changing) || !decide (9 ≤ n ∧ n ≤ 24) || decide (Tab.get 0 s.mode.target n ≤ 1))
      && (!decide (29 ≤ n) || decide (1 < Tab.get 0 s.mode.target n) || s.waysEmpty (domainWays n))
  | .bringUp n => decide (s.domain n ≠ .changing) || !decide (9 ≤ n ∧ n ≤ 24)
  | .scratchWays _ n => s.waysEmpty (changedWays s.cache.ways n)
  | .reserve _ _ => s.reserveReady
  | _ => true

/-- What an operation does as it ends (R117, R256, R264, R287, R536). -/
def Chip.opEffect (s : Chip) (k : OpKind) (failed : Nat) : Chip :=
  match k with
  | .caskDomain c d =>
    let s := if s.assignCode c d = 0 then s.setRw Obj.cohCaskDomain (setField (s.cfg Obj.cohCaskDomain) (8 * c) 8 d) else s
    s.rerouteCask c
  | .scratchWays _ n => s.applyScratchWays n
  | .reserve _ _ => s.applyReserve
  | .ddrFreq mask fsp => s.applyFreq mask fsp failed
  | .domain n _ => s.domainChangeEnd n [] []
  | .bringUp n => s.domainChangeEnd n [] []
  | _ => s

/-- The work that an operation goes on with until it ends: ways that change are cleaned (R256, R257). -/
def Chip.opWork (s : Chip) (k : OpKind) : Chip :=
  match k with
  | .scratchWays _ n => s.cleanWays (changedWays s.cache.ways n)
  | .domain n _ => if 29 ≤ n ∧ Tab.get 0 s.mode.target n ≤ 1 then s.cleanWays (domainWays n) else s
  | _ => s

/-- SCHEDULED_OP_END: the running operation ends, once its work is done. -/
def Chip.scheduledEnd (s : Chip) (failed : Nat) : Chip :=
  match s.win.running with
  | none => s
  | some o =>
    let s := s.opWork o.kind
    if s.opDone o.kind then
      ({ s with win := { s.win with running := none } } : Chip).opEffect o.kind failed
    else s

/-! ### A link goes down (R390) -/

/-- EVT packets among those not yet sent or not yet acknowledged. -/
def Link.evtsHeld (k : Link) : Nat :=
  let inFlit := fun (f : TxFlit) =>
    countIf (fun p => bitOf f.starts p.2 && decide (p.1.toNat % 256 = 0x0A)) f.slots.zipIdx
  countIf (fun p => decide (p.kind = 0x0A)) k.tx + (k.held.map inFlit).foldl (· + ·) 0

/-- A link that is down holds nothing of its session. -/
def Link.cut (k : Link) (cause : Nat) : Link :=
  { k with
    st := .down, step := .none, tries := 0, lanes := 0, width := 0, speed := 0, vcs := 0, initGot := 0
    downCount := wrap32 (k.downCount + 1), downCause := cause, eventsDropped := wrap32 (k.eventsDropped + k.evtsHeld)
    e := 0, nakSent := false, flits := 0, errs := [], crcs := [], partialSlots := [], resync := false, rx := [], recv := [], adv := []
    readLimit := 0, readUsed := 0, lastVc := 0, wbLimit := 0, wbUsed := 0, nextSeq := 0, held := [], tx := [], limit := [], used := []
    resent := 0, wrTags := [], reqs := [], fences := [], change := none, want := none, queued := none }

/-- Both key slots of a link are cleared (R390). -/
def Chip.clearSlots (s : Chip) (l : Nat) : Chip :=
  { s with husk := { s.husk with
    linkSlots := Tab.del (Tab.del s.husk.linkSlots (2 * l)) (2 * l + 1)
    active := setBit s.husk.active l false
    switching := setBit s.husk.switching l false } }

/-- Every packet that arrived whole is carried out (R390 step 2). -/
def Chip.drainRx (s : Chip) (l : Nat) : Chip :=
  let s := s.setLink l { s.link l with st := .active }
  (s.link l).rx.foldl (fun s p => s.runPacket l p) s

/-- A link goes down (R390). -/
def Chip.goDown (s : Chip) (l cause : Nat) : Chip :=
  let s := if (s.link l).st = .active then s.sendCtl l (.down cause) else s
  let s := s.drainRx l
  let tags := (s.link l).wrTags
  let s := s.setLink l ((s.link l).cut cause)
  let s := tags.foldl (fun s t => s.burstFail t.2.1 t.2.2 0x32) s
  let s := s.agentDead (linkAgent l) 1
  (s.clearSlots l).raise 145 (0x10 + l) 0 (.link l)

/-- The links that a cause takes down go down. -/
def Chip.linksDown (s : Chip) : Chip :=
  (List.range 8).foldl (fun s l => match (s.link l).want with | some c => s.goDown l c | none => s) s

/-! ### Reactions (R540, R545, R549, R528) -/

/-- A block reset (R540). -/
def Chip.resetBlock (s : Chip) (b : Block) : Chip :=
  match b with
  | .link l => s.wantDown l 4
  | .head h => s.hotReset h false
  | .chan c => ((s.chanStopCmd c).2.chanClear c).2
  | .none => { s with fault := { s.fault with wantChip := true } }

/-- The block resets that fault sources asked for. -/
def Chip.blockResets (s : Chip) : Chip :=
  let bs := s.fault.wantBlocks
  bs.foldl (fun s b => s.resetBlock b) { s with fault := { s.fault with wantBlocks := [] } }

/-- The chip reset or SAFE request that fault sources asked for; a chip reset takes the SAFE request's place (R549). -/
def Chip.bigReactions (s : Chip) : Chip :=
  let chip := s.fault.wantChip
  let safe := s.fault.wantSafe
  let s := { s with fault := { s.fault with wantChip := false, wantSafe := false } }
  if chip then s.resetReaction else if safe then s.requestSafe else s

/-! ### Settling -/

/-- The home has no eviction and no recall to make (R122, R143). -/
def Chip.homeIdle (s : Chip) : Bool :=
  s.coh.filter.all (fun e => !s.evictable e.1 && (!s.recalled e.1 e.2.domain || s.takingBack e.1))

/-- Nothing follows the command's own effect. -/
def Chip.calm (s : Chip) : Bool :=
  s.links.all (fun e => decide (e.2.want = none) && e.2.rx.isEmpty && !s.creditDue e.1) && s.fault.wantBlocks.isEmpty && !s.fault.wantChip
    && !s.fault.wantSafe && (s.win.ops.isEmpty || !s.opsAtOnce) && s.coh.queue.isEmpty && s.coh.devQueue.isEmpty
    && s.coh.txns.isEmpty && s.homeIdle
    && decide (s.coh.retrySince = 0) && s.hop.chans.isEmpty && s.fold.waiting.isEmpty && s.waits.isEmpty && !s.budgetLimited

/-- The hold-up time newly lowers the dirty limit (R328). -/
def Chip.budgetCheck (old s : Chip) : Chip := if s.budgetLimited && !old.budgetLimited then s.raise 109 else s

/-- One round of what follows. -/
def Chip.settleRound (s : Chip) : Chip :=
  let s := s.linksDown
  let s := (List.range 8).foldl (fun s l => s.cohReserved l) s
  let s := s.blockResets
  let s := s.bigReactions
  let s := if s.opsAtOnce then s.scheduledStart else s
  let s := s.cohPump
  let s := s.hopPump
  let s := s.foldRefill
  let s := s.wake.wakeUnits.wakeTrackers
  (List.range 8).foldl (fun s l => s.creditFreed l) s

/-- What follows a command that took the device from `old` to `s`: a round may ask for another, and a reaction to a reaction for a
third. -/
def Chip.finish (old s : Chip) : Chip :=
  if s.calm then s else (Chip.budgetCheck old s).settleRound.settleRound.settleRound

/-- A command's effect `c` on the device, settled: no command but those of the TAP touches the port, and none the queue. -/
def State.done (s : State) (c : Chip) : State := { s with chip := Chip.finish s.chip c }

/-- The same for a command that may take the supplies away, and the port with them (R584). -/
def State.doneRails (s : State) (c : Chip) : State :=
  { s with chip := Chip.finish s.chip c, tap := if c.mode.railsUp then s.tap else {} }

/-! ### Shared forms of commands -/

/-- A coherent packet of a link (R124, R371): it carries its code and keeps its limits, and is counted (R554). -/
def Chip.cohIn (s : Chip) (l code : Nat) (p : Packet) (f : Chip → Chip) : Chip :=
  if !s.linkLive l ∨ p.op.toNat ≠ code then s
  else if s.goodPacket l 9 p then f (s.countLink l 5 1)
  else s.badPacket l p

/-- An access of a fold alias by a head (R434, R437, R438); another address is no such access. -/
def aliasOr (dla : Nat) (s t : Chip) : Chip := if dlaWin dla = .foldAlias then t else s

/-- The address of an alias with op 0xF (R436, R438). -/
def fenceAlias (dla : Nat) : Nat := dla - bitsOf dla 32 4 * 2 ^ 32 + 15 * 2 ^ 32

/-- The objects that FILTER_WRITE writes (R555 to R557). -/
def isFilterObject (idx sub : Nat) : Bool :=
  decide ((0xA820 ≤ idx ∧ idx < 0xA840 ∧ sub = 1) ∨ (idx = 0xA800 ∧ sub = 2) ∨ (0x9000 ≤ idx ∧ idx < 0x9400 ∧ sub = 0x30))

/-- A TAP command, once chip power-on has occurred (R584). -/
def State.tapDo (s : State) (f : Tap → Tap) : State := if s.chip.mode.railsUp then { s with tap := f s.tap } else s

end Sys2Proof.Machine
end

