-- ==== Sys2Proof/Machine/ExecCache.lean ====
section
/-!
DEFINITION. Machine/ExecCache.lean: the on-die cache and scratchpad (chapter 08).
-/
namespace Sys2Proof.Machine

/-- CACHE_FLUSH (R252). -/
def execCacheFlush (src : Src) (v : BitVec 8) (s : State) : Host.Outcome State Fault Refusal :=
  .next (s.done (s.chip.dictCmd src 0xB000 6 1 v.toNat (fun k => k.cacheFlush v.toNat)))

/-- CLEANER_WRITEBACK (R244). -/
def execCleanerWriteback (dla : BitVec 46) (s : State) : Host.Outcome State Fault Refusal :=
  .next (s.done (s.chip.cleanerWriteback dla.toNat))

/-- SCRATCH_CLEAR (R255). -/
def execScratchClear (src : Src) (u : BitVec 8) (s : State) : Host.Outcome State Fault Refusal :=
  .next (s.done (s.chip.dictCmd src 0xB000 5 1 u.toNat (fun k => k.scratchClear u.toNat)))

/-- SCRATCH_WAYS_WRITE (R256). -/
def execScratchWaysWrite (src : Src) (n : BitVec 8) (s : State) : Host.Outcome State Fault Refusal :=
  .next (s.done (s.chip.dictCmd src 0xB000 2 1 n.toNat (fun k => k.setScratchWays n.toNat)))

/-- WAY_ELIGIBLE (R242). -/
def execWayEligible (dla : BitVec 46) (s : State) : Host.Outcome State Fault Refusal :=
  .next (s.done (s.chip.wayEligible dla.toNat))

/-- STREAM_PREFETCH (R248). -/
def execStreamPrefetch (master : BitVec 8) (dla : BitVec 46) (killed : Bool) (obs : Obs) (s : State) : Host.Outcome State Fault Refusal :=
  .next (s.done (s.chip.streamPrefetch master.toNat dla.toNat killed obs))

end Sys2Proof.Machine
end

