-- ==== Sys2Proof/Machine/ExecCasks.lean ====
section
/-!
DEFINITION. Machine/ExecCasks.lean: casks, map records, discards and access tables (chapter 03).
-/
namespace Sys2Proof.Machine

/-- CASK_CREATE (R99), written to cask.command. -/
def execCaskCreate (src : Src) (c : Fin 1024) (s : State) : Host.Outcome State Fault Refusal :=
  .next (s.done (s.chip.dictCmd src (0x9000 + c) 2 1 1 (fun k => k.caskCreate c)))

/-- CASK_QUIESCE (R100), written to cask.command. -/
def execCaskQuiesce (src : Src) (c : Fin 1024) (s : State) : Host.Outcome State Fault Refusal :=
  .next (s.done (s.chip.dictCmd src (0x9000 + c) 2 1 2 (fun k => k.caskQuiesce c)))

/-- CASK_RESUME (R99), written to cask.command. -/
def execCaskResume (src : Src) (c : Fin 1024) (s : State) : Host.Outcome State Fault Refusal :=
  .next (s.done (s.chip.dictCmd src (0x9000 + c) 2 1 3 (fun k => k.caskResume c)))

/-- CASK_RESET (R101), written to cask.command. -/
def execCaskReset (src : Src) (c : Fin 1024) (s : State) : Host.Outcome State Fault Refusal :=
  .next (s.done (s.chip.dictCmd src (0x9000 + c) 2 1 4 (fun k => k.caskReset c)))

/-- CASK_REMOVE (R102), written to cask.command. -/
def execCaskRemove (src : Src) (c : Fin 1024) (s : State) : Host.Outcome State Fault Refusal :=
  .next (s.done (s.chip.dictCmd src (0x9000 + c) 2 1 5 (fun k => k.caskRemove c)))

/-- CASK_ABORT_QUIESCE (R99), written to cask.command. -/
def execCaskAbortQuiesce (src : Src) (c : Fin 1024) (s : State) : Host.Outcome State Fault Refusal :=
  .next (s.done (s.chip.dictCmd src (0x9000 + c) 2 1 6 (fun k => k.caskAbortQuiesce c)))

/-- CASK_LOG_CLEAR_OVERFLOW (R99), written to cask.command. -/
def execCaskLogClearOverflow (src : Src) (c : Fin 1024) (s : State) : Host.Outcome State Fault Refusal :=
  .next (s.done (s.chip.dictCmd src (0x9000 + c) 2 1 7 (fun k => k.caskLogClear c)))

/-- CASK_QUIESCED (R100). -/
def execCaskQuiesced (c : Fin 1024) (s : State) : Host.Outcome State Fault Refusal :=
  .next (s.done (s.chip.caskQuiesced c))

/-- CASK_QUIESCE_TIMEOUT (R100). -/
def execCaskQuiesceTimeout (c : Fin 1024) (s : State) : Host.Outcome State Fault Refusal :=
  .next (s.done (s.chip.caskQuiesceTimeout c))

/-- CASK_RESET_COMPLETE (R101). -/
def execCaskResetComplete (c : Fin 1024) (s : State) : Host.Outcome State Fault Refusal :=
  .next (s.done (s.chip.caskResetComplete c))

/-- CASK_PASID_WRITE (R94). -/
def execCaskPasidWrite (src : Src) (c : Fin 1024) (v : BitVec 32) (s : State) : Host.Outcome State Fault Refusal :=
  .next (s.done (s.chip.dictCmd src (0x9000 + c) 3 4 v.toNat (fun k => k.setPasid c v.toNat)))

/-- LOG_ENABLE_WRITE (R107). -/
def execLogEnableWrite (src : Src) (c : Fin 1024) (v : BitVec 8) (s : State) : Host.Outcome State Fault Refusal :=
  .next (s.done (s.chip.dictCmd src (0x9000 + c) 7 1 v.toNat (fun k => k.setLogEnable c v.toNat)))

/-- ACCESS_EDIT (R116). -/
def execAccessEdit (src : Src) (v : BitVec 32) (s : State) : Host.Outcome State Fault Refusal :=
  .next (s.done (s.chip.dictCmd src 0x94F0 1 4 v.toNat (fun k => k.accessEdit (srcMaster src) v.toNat)))

/-- ACCESS_TABLE_WRITE (R116): a target that is none has no object. -/
def execAccessTableWrite (src : Src) (target : BitVec 16) (table : BitVec 1024) (s : State) : Host.Outcome State Fault Refusal :=
  let t := target.toNat
  let key := if isTarget t then tableKey t else 0x941701
  .next (s.done (s.chip.dictCmd src (key / 256) (key % 256) 128 table.toNat (fun k => k.setTable t table.toNat)))

/-- DISCARD_PAGE (R93). -/
def execDiscardPage (src : Src) (dla : BitVec 64) (s : State) : Host.Outcome State Fault Refusal :=
  .next (s.done (s.chip.dictCmd src 0x6800 0x0A 8 dla.toNat (fun k => k.discardPage (srcMaster src) dla.toNat)))

/-- DEFERRED_DISCARD (R93). -/
def execDeferredDiscard (page : BitVec 34) (s : State) : Host.Outcome State Fault Refusal :=
  .next (s.done (s.chip.deferredDiscard page.toNat))

/-- MAP_RECORD_REPAIR (R88). -/
def execMapRecordRepair (page : BitVec 34) (found : Bool) (s : State) : Host.Outcome State Fault Refusal :=
  .next (s.done (s.chip.mapRecordRepair page.toNat found))

end Sys2Proof.Machine
end

