-- ==== Sys2Proof/Machine/Damage.lean ====
section
/-!
DEFINITION. Machine/Damage.lean: what the device does about damage in the state it holds (R345 to R347, R404, R409).
-/
namespace Sys2Proof.Machine

/-- A pending window record that fails is cancelled; a BURST window so cancelled is a breach (R346). -/
def Chip.windowDamaged (s : Chip) (n : Nat) : Chip :=
  match s.win.pending[n]? with
  | none => s
  | some w =>
    let s := (s.cancelOne w).raise 5
    if w.cls = .burst then s.raise 4 else s

/-- A debt level that fails is set to its maximum (R346): SCRUB's with every tier's (R351; log entry 129). -/
def Chip.debtDamaged (s : Chip) (k : Nat) : Chip :=
  let s := if k = 1 then s.setTierDebts (s.cfgAt Obj.windowsDebtMax 1) else s
  ({ s with win := { s.win with debtLevel := Tab.put 0 s.win.debtLevel k (s.cfgAt Obj.windowsDebtMax k) } } : Chip).raise 5

/-- A refresh balance that fails is set to −4 (R346). -/
def Chip.balanceDamaged (s : Chip) (n : Nat) : Chip := (s.setDdr n { s.ddr n with balance := -4 }).raise 110

/-- The ACTIVE domains with lines in the snoop filter set of a line (R122, R347). -/
def Chip.domainsInSet (s : Chip) (ln : Nat) : List Nat :=
  (List.range 64).filter (fun d => decide ((s.dom d).state = .active)
    && s.coh.filter.any (fun e => decide (e.1 % 262144 = ln % 262144 ∧ e.2.domain = d)))

/-- An uncorrectable snoop filter entry: every ACTIVE domain with lines in its set is recalled at once (R347). -/
def Chip.filterDamaged (s : Chip) (ln : Nat) : Chip :=
  (s.domainsInSet ln).foldl (fun c d => c.recallDomain d false) (s.raise 66)

/-- A cached queue state that fails its parity (R404): a clean one is read again from its table entry, and a dirty one sends the queue to
FAULT. -/
def Chip.queueDamaged (s : Chip) (q : Nat) : Chip :=
  match s.queue q with
  | none => s
  | some x =>
    if !x.cached || x.fault then s
    else if x.dirty then (s.parityLost 0 0xFF 0).queueFault q x
    else match s.readEntry q with
      | some y => (({ s with integ := { s.integ with parityClean := s.integ.parityClean + 1 } } : Chip).setQueue q { y with lru := x.lru }).raise 128
      | none => s.queueFault q x

/-- A channel context that fails its parity: the channel goes to ERROR with kind 0x34 (R409). -/
def Chip.contextDamaged (s : Chip) (ch : Nat) : Chip := (s.chanStop ch .error 0x34 0).parityLost 0 (0x20 + ch) 0

/-- What is found damaged is handled. A debt maximum is reloaded from its RWP copy, and a block's trim or age by BLKINFO (R346): the
values are again what they were. -/
def Chip.damaged (s : Chip) (d : Damage) : Chip :=
  match d with
  | .none => s
  | .window n => s.windowDamaged n
  | .debtLevel k => s.debtDamaged k
  | .debtMax _ => s.raise 5
  | .refreshBalance ch => s.balanceDamaged ch
  | .blockRecord _ _ => s.raise 110
  | .filterWord => { s with integ := { s.integ with sfCorrected := s.integ.sfCorrected + 1 } }
  | .filterEntry dla => s.filterDamaged (lineNo dla.toNat)
  | .queueState q => s.queueDamaged q
  | .context ch => s.contextDamaged ch
  | .rights t m => s.markDamaged t.toNat m.toNat
  | .hbmKey i x => { s with husk := { s.husk with hbmOff := Tab.put 0 s.husk.hbmOff i (Tab.get 0 s.husk.hbmOff i ^^^ x) } }
  | .record dir page copies =>
    let k := if dir then dirRecNo (page.toNat / 512) else page.toNat
    { s with map := { s.map with badRecs := Tab.put 0 s.map.badRecs k (Tab.get 0 s.map.badRecs k ||| copies.toNat) } }

end Sys2Proof.Machine
end

