-- ==== Sys2Proof/Machine/ExecCoherence.lean ====
section
/-!
DEFINITION. Machine/ExecCoherence.lean: coherence: assignments, domains and coherent packets (chapter 04).
-/
namespace Sys2Proof.Machine

/-- CASK_DOMAIN_WRITE (R117): coh.cask_domain with byte `c` changed. -/
def execCaskDomainWrite (src : Src) (c : Fin 1024) (d : BitVec 8) (s : State) : Host.Outcome State Fault Refusal :=
  let v := setField (s.chip.cfg Obj.cohCaskDomain) (8 * c) 8 d.toNat
  .next (s.done (s.chip.dictCmd src 0x8800 8 1024 v (fun k => k.setCaskDomain c d.toNat)))

/-- DOMAIN_FORM (R142), written to coh.domain.command. -/
def execDomainForm (src : Src) (d : Fin 64) (s : State) : Host.Outcome State Fault Refusal :=
  .next (s.done (s.chip.dictCmd src (0x8840 + d) 2 1 1 (fun k => k.domForm d)))

/-- DOMAIN_REFORM (R143), written to coh.domain.command. -/
def execDomainReform (src : Src) (d : Fin 64) (s : State) : Host.Outcome State Fault Refusal :=
  .next (s.done (s.chip.dictCmd src (0x8840 + d) 2 1 2 (fun k => k.domReform d)))

/-- DOMAIN_RECALL (R143), written to coh.domain.command. -/
def execDomainRecall (src : Src) (d : Fin 64) (s : State) : Host.Outcome State Fault Refusal :=
  .next (s.done (s.chip.dictCmd src (0x8840 + d) 2 1 3 (fun k => k.domRecall d)))

/-- DOMAIN_DISBAND (R142), written to coh.domain.command. -/
def execDomainDisband (src : Src) (d : Fin 64) (s : State) : Host.Outcome State Fault Refusal :=
  .next (s.done (s.chip.dictCmd src (0x8840 + d) 2 1 4 (fun k => k.domDisband d)))

/-- RECALL_COMPLETE (R143). -/
def execRecallComplete (d : Fin 64) (s : State) : Host.Outcome State Fault Refusal :=
  .next (s.done (s.chip.recallComplete d))

/-- CRD_S (R129). -/
def execCrdS (l : Fin 8) (retry : Bool) (p : Packet) (obs : Obs) (s : State) : Host.Outcome State Fault Refusal :=
  .next (s.done ((s.chip.damaged obs.damage).cohIn l 1 p (fun k => k.linkCoh l retry p .shared obs)))

/-- CRD_E (R129). -/
def execCrdE (l : Fin 8) (retry : Bool) (p : Packet) (obs : Obs) (s : State) : Host.Outcome State Fault Refusal :=
  .next (s.done (s.chip.cohIn l 2 p (fun k => k.linkCoh l retry p .own obs)))

/-- CRD_CUR (R129). -/
def execCrdCur (l : Fin 8) (retry : Bool) (p : Packet) (obs : Obs) (s : State) : Host.Outcome State Fault Refusal :=
  .next (s.done (s.chip.cohIn l 3 p (fun k => k.linkCoh l retry p .cur obs)))

/-- CWR (R129). -/
def execCwr (l : Fin 8) (retry : Bool) (p : Packet) (obs : Obs) (s : State) : Host.Outcome State Fault Refusal :=
  .next (s.done (s.chip.cohIn l 6 p (fun k => k.linkCoh l retry p .write obs)))

/-- CWB (R132). -/
def execCwb (l : Fin 8) (p : Packet) (obs : Obs) (s : State) : Host.Outcome State Fault Refusal :=
  .next (s.done (s.chip.cohIn l 4 p (fun k => k.linkCwb l p obs)))

/-- CEV (R124). -/
def execCev (l : Fin 8) (p : Packet) (s : State) : Host.Outcome State Fault Refusal :=
  .next (s.done (s.chip.cohIn l 5 p (fun k => k.linkCev l p)))

/-- CREL (R137). -/
def execCrel (l : Fin 8) (p : Packet) (s : State) : Host.Outcome State Fault Refusal :=
  .next (s.done (s.chip.cohIn l 7 p (fun k => k.linkCrel l p)))

/-- SRSP_I (R124). -/
def execSrspI (l : Fin 8) (p : Packet) (obs : Obs) (s : State) : Host.Outcome State Fault Refusal :=
  .next (s.done (s.chip.cohIn l 0x18 p (fun k => k.linkSrsp l p obs)))

/-- SRSP_S (R124). -/
def execSrspS (l : Fin 8) (p : Packet) (obs : Obs) (s : State) : Host.Outcome State Fault Refusal :=
  .next (s.done (s.chip.cohIn l 0x19 p (fun k => k.linkSrsp l p obs)))

/-- SRSP_I_D (R124). -/
def execSrspID (l : Fin 8) (p : Packet) (obs : Obs) (s : State) : Host.Outcome State Fault Refusal :=
  .next (s.done (s.chip.cohIn l 0x1A p (fun k => k.linkSrsp l p obs)))

/-- SRSP_S_D (R124). -/
def execSrspSD (l : Fin 8) (p : Packet) (obs : Obs) (s : State) : Host.Outcome State Fault Refusal :=
  .next (s.done (s.chip.cohIn l 0x1B p (fun k => k.linkSrsp l p obs)))

/-- SRSP_CUR_D (R124). -/
def execSrspCurD (l : Fin 8) (p : Packet) (obs : Obs) (s : State) : Host.Outcome State Fault Refusal :=
  .next (s.done (s.chip.cohIn l 0x1C p (fun k => k.linkSrsp l p obs)))

/-- SNOOP_DEADLINE_MISS (R140). -/
def execSnoopDeadlineMiss (a : Fin 16) (dla : BitVec 46) (s : State) : Host.Outcome State Fault Refusal :=
  .next (s.done (s.chip.snoopMiss a (lineNo dla.toNat)))

/-- PULL_DEADLINE_MISS (R140). -/
def execPullDeadlineMiss (l : Fin 8) (s : State) : Host.Outcome State Fault Refusal :=
  .next (s.done (s.chip.pullMiss l))

end Sys2Proof.Machine
end

