-- ==== Sys2Proof/Machine/ExecDict.lean ====
section
/-!
DEFINITION. Machine/ExecDict.lean: the BAR2 window, pieces, and writes of any object (chapter 15).
-/
namespace Sys2Proof.Machine

/-- WINDOW_CMD_READ (R463). -/
def execWindowCmdRead (h : Fin 4) (idx : BitVec 16) (sub : BitVec 8) (offset length : BitVec 32) (s : State) : Host.Outcome State Fault Refusal :=
  .next (s.done (s.chip.windowRead h idx.toNat sub.toNat offset.toNat length.toNat))

/-- WINDOW_CMD_WRITE (R463). -/
def execWindowCmdWrite (h : Fin 4) (idx : BitVec 16) (sub : BitVec 8) (offset length : BitVec 32) (buffer : List Byte) (s : State) : Host.Outcome State Fault Refusal :=
  .next (s.done (s.chip.windowWrite h idx.toNat sub.toNat offset.toNat length.toNat buffer false))

/-- WINDOW_CMD_WRITE_FINAL (R463). -/
def execWindowCmdWriteFinal (h : Fin 4) (idx : BitVec 16) (sub : BitVec 8) (offset length : BitVec 32) (buffer : List Byte) (s : State) : Host.Outcome State Fault Refusal :=
  .next (s.done (s.chip.windowWrite h idx.toNat sub.toNat offset.toNat length.toNat buffer true))

/-- PIECE_TIMEOUT (R456). -/
def execPieceTimeout (idx : BitVec 16) (sub : BitVec 8) (s : State) : Host.Outcome State Fault Refusal :=
  .next (s.done (s.chip.pieceTimeout idx.toNat sub.toNat))

/-- RESTORE_DEFAULTS (R481). -/
def execRestoreDefaults (src : Src) (v : BitVec 32) (s : State) : Host.Outcome State Fault Refusal :=
  .next (s.done (s.chip.dictCmd src 0x1010 1 4 v.toNat (fun k => k.restoreCmd v.toNat)))

/-- OBJECT_WRITE (R460). -/
def execObjectWrite (src : Src) (idx : BitVec 16) (sub : BitVec 8) (value : List Byte) (s : State) : Host.Outcome State Fault Refusal :=
  .next (s.done (s.chip.objectWrite src idx.toNat sub.toNat value))

end Sys2Proof.Machine
end

