-- ==== Sys2Proof/Machine/ExecDram.lean ====
section
/-!
DEFINITION. Machine/ExecDram.lean: HBM and DDR5 (chapter 09).
-/
namespace Sys2Proof.Machine

/-- HBM_REFRESH (R259). -/
def execHbmRefresh (pc : Fin 16) (s : State) : Host.Outcome State Fault Refusal :=
  .next (s.done (s.chip.hbmRefresh pc))

/-- DDR_REFRESH (R272). -/
def execDdrRefresh (ch : Fin 8) (load : RankLoad) (s : State) : Host.Outcome State Fault Refusal :=
  .next (s.done (s.chip.ddrRefresh ch load))

/-- DIMM_TEMP_POLL (R272). -/
def execDimmTempPoll (ch : Fin 8) (temp : BitVec 8) (s : State) : Host.Outcome State Fault Refusal :=
  .next (s.done (s.chip.dimmTemp ch temp.toInt))

/-- HBM_TEMP_CHANGE (R265). -/
def execHbmTempChange (temp : BitVec 8) (s : State) : Host.Outcome State Fault Refusal :=
  .next (s.done (s.chip.hbmTemp temp.toInt))

/-- DDR_ALERT (R275). -/
def execDdrAlert (ch : Fin 8) (err : DdrErr) (retries : Nat) (cleared : Bool) (s : State) : Host.Outcome State Fault Refusal :=
  .next (s.done (s.chip.ddrAlert ch err retries cleared))

/-- FREEZE_LIMIT_EXPIRY (R283). -/
def execFreezeLimitExpiry (ch : Fin 8) (s : State) : Host.Outcome State Fault Refusal :=
  .next (s.done (s.chip.freezeLimit ch))

/-- DDR_RELEASE (R284), written to ddr.chan.command. -/
def execDdrRelease (src : Src) (ch : Fin 8) (s : State) : Host.Outcome State Fault Refusal :=
  .next (s.done (s.chip.dictCmd src (0x5010 + ch) 9 1 1 (fun k => k.ddrRelease ch)))

/-- DDR_RETRAIN_RELEASE (R284), written to ddr.chan.command. -/
def execDdrRetrainRelease (src : Src) (ch : Fin 8) (passed : Bool) (s : State) : Host.Outcome State Fault Refusal :=
  .next (s.done (s.chip.dictCmd src (0x5010 + ch) 9 1 2 (fun k => k.ddrRetrain ch passed)))

/-- DDR_DECLARE_LOST (R284), written to ddr.chan.command. -/
def execDdrDeclareLost (src : Src) (ch : Fin 8) (s : State) : Host.Outcome State Fault Refusal :=
  .next (s.done (s.chip.dictCmd src (0x5010 + ch) 9 1 3 (fun k => k.ddrLost ch)))

/-- RESILVER (R280). -/
def execResilver (ch : Fin 8) (granule : Nat) (s : State) : Host.Outcome State Fault Refusal :=
  .next (s.done (s.chip.resilver ch granule))

/-- DDR_FREQ_REQUEST (R287). -/
def execDdrFreqRequest (src : Src) (v : BitVec 16) (s : State) : Host.Outcome State Fault Refusal :=
  .next (s.done (s.chip.dictCmd src 0x5000 6 2 v.toNat (fun k => k.freqRequest v.toNat)))

/-- HELPER_WRITE_PATTERN (R289), written to ddr.helper.command. -/
def execHelperWritePattern (src : Src) (args : BitVec 248) (s : State) : Host.Outcome State Fault Refusal :=
  let v := 1 + args.toNat * 256
  .next (s.done (s.chip.dictCmd src 0x5080 1 32 v (fun k => k.helperCommand v)))

/-- HELPER_READ_COMPARE (R289), written to ddr.helper.command. -/
def execHelperReadCompare (src : Src) (args : BitVec 248) (s : State) : Host.Outcome State Fault Refusal :=
  let v := 2 + args.toNat * 256
  .next (s.done (s.chip.dictCmd src 0x5080 1 32 v (fun k => k.helperCommand v)))

/-- HELPER_SWEEP (R289), written to ddr.helper.command. -/
def execHelperSweep (src : Src) (args : BitVec 248) (s : State) : Host.Outcome State Fault Refusal :=
  let v := 3 + args.toNat * 256
  .next (s.done (s.chip.dictCmd src 0x5080 1 32 v (fun k => k.helperCommand v)))

/-- HELPER_SET_DELAY (R289), written to ddr.helper.command. -/
def execHelperSetDelay (src : Src) (args : BitVec 248) (s : State) : Host.Outcome State Fault Refusal :=
  let v := 4 + args.toNat * 256
  .next (s.done (s.chip.dictCmd src 0x5080 1 32 v (fun k => k.helperCommand v)))

/-- HELPER_MRW (R289), written to ddr.helper.command. -/
def execHelperMrw (src : Src) (args : BitVec 248) (s : State) : Host.Outcome State Fault Refusal :=
  let v := 5 + args.toNat * 256
  .next (s.done (s.chip.dictCmd src 0x5080 1 32 v (fun k => k.helperCommand v)))

/-- HELPER_MRR (R289), written to ddr.helper.command. -/
def execHelperMrr (src : Src) (args : BitVec 248) (s : State) : Host.Outcome State Fault Refusal :=
  let v := 6 + args.toNat * 256
  .next (s.done (s.chip.dictCmd src 0x5080 1 32 v (fun k => k.helperCommand v)))

/-- HELPER_COMPLETE (R290). -/
def execHelperComplete (run : HelperRun) (s : State) : Host.Outcome State Fault Refusal :=
  .next (s.done (s.chip.helperComplete run))

/-- PERSIST_RESERVE_WRITE (R264). -/
def execPersistReserveWrite (src : Src) (v : BitVec 32) (s : State) : Host.Outcome State Fault Refusal :=
  .next (s.done (s.chip.dictCmd src 0x5800 2 4 v.toNat (fun k => k.setReserve v.toNat)))

end Sys2Proof.Machine
end

