-- ==== Sys2Proof/Machine/ExecFaults.lean ====
section
/-!
DEFINITION. Machine/ExecFaults.lean: the fault collector and the counters (chapter 19).
-/
namespace Sys2Proof.Machine

/-- COUNTER_SNAPSHOT_DUE (R562). -/
def execCounterSnapshotDue (s : State) : Host.Outcome State Fault Refusal :=
  .next (s.done (s.chip.snapshotDue))

/-- DUMP_WRITE_OUT (R39). -/
def execDumpWriteOut (s : State) : Host.Outcome State Fault Refusal :=
  .next (s.done (s.chip.dumpWriteOut))

/-- FAULT_CLEAR (R547). -/
def execFaultClear (src : Src) (v : BitVec 16) (s : State) : Host.Outcome State Fault Refusal :=
  .next (s.done (s.chip.dictCmd src 0xA000 3 2 v.toNat (fun k => k.faultClear v.toNat)))

/-- FAULT_EDIT (R544). -/
def execFaultEdit (src : Src) (v : BitVec 16) (s : State) : Host.Outcome State Fault Refusal :=
  .next (s.done (s.chip.dictCmd src 0xA000 4 2 v.toNat (fun k => k.faultEdit v.toNat)))

/-- FAULT_INTEGRITY_SCAN (R550). -/
def execFaultIntegrityScan (ok : Bool) (s : State) : Host.Outcome State Fault Refusal :=
  .next (s.done (s.chip.integrityScan ok))

/-- LOCKSTEP_MISMATCH (R551). -/
def execLockstepMismatch (s : State) : Host.Outcome State Fault Refusal :=
  .next (s.done (s.chip.lockstep))

/-- DUMP_NOW (R562). -/
def execDumpNow (src : Src) (v : BitVec 8) (s : State) : Host.Outcome State Fault Refusal :=
  .next (s.done (s.chip.dictCmd src 0xA800 20 1 v.toNat (fun k => k.dumpNow v.toNat)))

/-- DUMP_RECORDS_WRITE (R562). -/
def execDumpRecordsWrite (src : Src) (v : BitVec 16) (s : State) : Host.Outcome State Fault Refusal :=
  .next (s.done (s.chip.dictCmd src 0xA800 17 2 v.toNat (fun k => k.setDumpRecords v.toNat)))

/-- DUMP_SCHEDULE_WRITE (R562). -/
def execDumpScheduleWrite (src : Src) (period : Bool) (v : BitVec 64) (s : State) : Host.Outcome State Fault Refusal :=
  .next (s.done (s.chip.dictCmd src 0xA800 (if period then 19 else 18) 8 v.toNat (fun k => k.setDumpSchedule period v.toNat)))

/-- FILTER_WRITE (R557). -/
def execFilterWrite (src : Src) (idx : BitVec 16) (sub : BitVec 8) (value : List Byte) (s : State) : Host.Outcome State Fault Refusal :=
  .next (s.done (if isFilterObject idx.toNat sub.toNat then s.chip.objectWrite src idx.toNat sub.toNat value else s.chip))

end Sys2Proof.Machine
end

