-- ==== Sys2Proof/Machine/ExecField.lean ====
section
/-!
DEFINITION. Machine/ExecField.lean: the CAN FD field port (chapter 15).
-/
namespace Sys2Proof.Machine

/-- REQ_READ (R469): its toggle bit has no meaning, here and in REQ_WRITE and WRITE_INIT. -/
def execReqRead (node : BitVec 7) (t : Bool) (rest : List Byte) (s : State) : Host.Outcome State Fault Refusal :=
  .next (s.done (s.chip.reqRead node.toNat rest))

/-- REQ_WRITE (R469). -/
def execReqWrite (node : BitVec 7) (t : Bool) (rest : List Byte) (s : State) : Host.Outcome State Fault Refusal :=
  .next (s.done (s.chip.reqWrite node.toNat rest))

/-- WRITE_INIT (R471). -/
def execWriteInit (node : BitVec 7) (t : Bool) (rest : List Byte) (s : State) : Host.Outcome State Fault Refusal :=
  .next (s.done (s.chip.writeInit node.toNat rest))

/-- WRITE_SEG (R471). -/
def execWriteSeg (node : BitVec 7) (t : Bool) (rest : List Byte) (s : State) : Host.Outcome State Fault Refusal :=
  .next (s.done (s.chip.writeSeg node.toNat t rest))

/-- READ_SEG (R470). -/
def execReadSeg (node : BitVec 7) (t : Bool) (rest : List Byte) (s : State) : Host.Outcome State Fault Refusal :=
  .next (s.done (s.chip.readSeg node.toNat t rest))

/-- REQ_ABORT (R468). -/
def execReqAbort (node : BitVec 7) (t : Bool) (rest : List Byte) (s : State) : Host.Outcome State Fault Refusal :=
  .next (s.done (s.chip.reqAbort node.toNat rest))

/-- REQ_RESERVED (R468). -/
def execReqReserved (node : BitVec 7) (cmd : BitVec 6) (t : Bool) (rest : List Byte) (s : State) : Host.Outcome State Fault Refusal :=
  .next (s.done (s.chip.reqReserved node.toNat rest))

/-- TRANSFER_TIMEOUT (R472). -/
def execTransferTimeout (s : State) : Host.Outcome State Fault Refusal :=
  .next (s.done (s.chip.transferTimeout))

/-- HEARTBEAT_REQUEST (R476). -/
def execHeartbeatRequest (node : BitVec 7) (rest : List Byte) (s : State) : Host.Outcome State Fault Refusal :=
  .next (s.done (s.chip.heartbeatRequest node.toNat rest))

/-- ALARM_RESEND (R476). -/
def execAlarmResend (node : BitVec 7) (rest : List Byte) (s : State) : Host.Outcome State Fault Refusal :=
  .next (s.done (s.chip.alarmResend node.toNat rest))

/-- HEARTBEAT_TIMER (R474). -/
def execHeartbeatTimer (s : State) : Host.Outcome State Fault Refusal :=
  .next (s.done (s.chip.heartbeatTimer))

/-- OFFER (R478). -/
def execOffer (node : BitVec 7) (rest : List Byte) (s : State) : Host.Outcome State Fault Refusal :=
  .next (s.done (s.chip.chainOffer node.toNat rest))

/-- CHAIN_IN_ASSERT (R478). -/
def execChainInAssert (us : Option Nat) (s : State) : Host.Outcome State Fault Refusal :=
  .next (s.done (s.chip.chainInput us))

/-- ADDRESS_CONFLICT (R479). -/
def execAddressConflict (node : BitVec 7) (s : State) : Host.Outcome State Fault Refusal :=
  .next (s.done (s.chip.addressConflict node.toNat))

/-- BUS_OFF (R473). -/
def execBusOff (s : State) : Host.Outcome State Fault Refusal :=
  .next (s.done (s.chip.busOff))

/-- BUS_RECOVERY (R473). -/
def execBusRecovery (s : State) : Host.Outcome State Fault Refusal :=
  .next (s.done (s.chip.busRecovery))

end Sys2Proof.Machine
end

