-- ==== Sys2Proof/Machine/ExecFold.lean ====
section
/-!
DEFINITION. Machine/ExecFold.lean: folds and capture (chapter 14).
-/
namespace Sys2Proof.Machine

/-- FOLD_ALIAS_WRITE (R437): a CXL.mem write of an alias. -/
def execFoldAliasWrite (h : Fin 4) (tag : BitVec 16) (dla : BitVec 46) (mask : BitVec 64) (data : Line) (poison : Bool) (s : State) : Host.Outcome State Fault Refusal :=
  .next (s.done (aliasOr dla.toNat s.chip (s.chip.memWrite h tag.toNat dla.toNat .i mask data poison true {})))

/-- FOLD_ALIAS_READ (R437): a CXL.mem read of an alias. -/
def execFoldAliasRead (h : Fin 4) (tag : BitVec 16) (dla : BitVec 46) (obs : Obs) (s : State) : Host.Outcome State Fault Refusal :=
  .next (s.done (aliasOr dla.toNat s.chip (s.chip.memRead h tag.toNat dla.toNat .a obs)))

/-- FOLD_FENCE (R438): a CXL.mem access of an alias by op 0xF. -/
def execFoldFence (h : Fin 4) (tag : BitVec 16) (dla : BitVec 46) (read : Bool) (s : State) : Host.Outcome State Fault Refusal :=
  let a := fenceAlias dla.toNat
  .next (s.done (aliasOr dla.toNat s.chip (if read then s.chip.memRead h tag.toNat a .a {} else s.chip.memWrite h tag.toNat a .i 0 0 false true {})))

/-- FOLD_FENCE_DONE (R438). -/
def execFoldFenceDone (h : Fin 4) (obs : Obs) (s : State) : Host.Outcome State Fault Refusal :=
  .next (s.done (s.chip.foldFenceDone h obs))

/-- LINE_FOLD (R439). -/
def execLineFold (n : Nat) (obs : Obs) (s : State) : Host.Outcome State Fault Refusal :=
  .next (s.done (s.chip.lineFold n obs))

/-- APPEND_WAIT_EXPIRY (R446). -/
def execAppendWaitExpiry (l : Fin 8) (s : State) : Host.Outcome State Fault Refusal :=
  .next (s.done (s.chip.appendExpiry l))

/-- APPEND_ROOM (R446). -/
def execAppendRoom (l : Fin 8) (obs : Obs) (s : State) : Host.Outcome State Fault Refusal :=
  .next (s.done (s.chip.appendRoom l obs))

end Sys2Proof.Machine
end

