-- ==== Sys2Proof/Machine/ExecHeads.lean ====
section
/-!
DEFINITION. Machine/ExecHeads.lean: the heads: links, CXL.mem, decoders, resets and persistent flush (chapter 02).
-/
namespace Sys2Proof.Machine

/-- HEAD_TRAINED (R52). -/
def execHeadTrained (h : Fin 4) (width rate : Nat) (flit : Fin 4) (cxl : Bool) (s : State) : Host.Outcome State Fault Refusal :=
  .next (s.done (s.chip.headTrained h width rate flit cxl))

/-- HEAD_LINK_DOWN (R76). -/
def execHeadLinkDown (h : Fin 4) (s : State) : Host.Outcome State Fault Refusal :=
  .next (s.done (s.chip.headLinkDown h))

/-- HEAD_LOST (R77). -/
def execHeadLost (h : Fin 4) (s : State) : Host.Outcome State Fault Refusal :=
  .next (s.done (s.chip.headLost h))

/-- HEAD_LINK_UP (R77). -/
def execHeadLinkUp (h : Fin 4) (s : State) : Host.Outcome State Fault Refusal :=
  .next (s.done (s.chip.headLinkUp h))

/-- MEM_READ (R61). -/
def execMemRead (h : Fin 4) (tag : BitVec 16) (dla : BitVec 46) (mv : Meta) (obs : Obs) (s : State) : Host.Outcome State Fault Refusal :=
  .next (s.done ((s.chip.damaged obs.damage).memRead h tag.toNat dla.toNat mv obs))

/-- MEM_WRITE (R61). -/
def execMemWrite (h : Fin 4) (tag : BitVec 16) (dla : BitVec 46) (mv : Meta) (mask : BitVec 64) (data : Line) (poison whole : Bool) (obs : Obs) (s : State) : Host.Outcome State Fault Refusal :=
  .next (s.done (s.chip.memWrite h tag.toNat dla.toNat mv mask data poison whole obs))

/-- MEM_CLEAN_EVICT (R125). -/
def execMemCleanEvict (h : Fin 4) (tag : BitVec 16) (dla : BitVec 46) (s : State) : Host.Outcome State Fault Refusal :=
  .next (s.done (s.chip.memCleanEvict h tag.toNat dla.toNat))

/-- BI_SNOOP_RESPONSE (R125). -/
def execBiSnoopResponse (h : Fin 4) (dla : BitVec 46) (rsp : BiRsp) (s : State) : Host.Outcome State Fault Refusal :=
  .next (s.done (s.chip.biResponse h dla.toNat rsp))

/-- BI_CONFLICT (R135). -/
def execBiConflict (h : Fin 4) (dla : BitVec 46) (s : State) : Host.Outcome State Fault Refusal :=
  .next (s.done (s.chip.biConflict h dla.toNat))

/-- HDM_DECODER_COMMIT (R60, R119). -/
def execHdmDecoderCommit (h : Fin 4) (dec : Fin 8) (base len : BitVec 64) (ways : Nat) (bi : Bool) (s : State) : Host.Outcome State Fault Refusal :=
  .next (s.done (s.chip.hdmCommit h dec base.toNat len.toNat ways bi))

/-- OFFER_TIMEOUT (R57). -/
def execOfferTimeout (ext : Ext) (s : State) : Host.Outcome State Fault Refusal :=
  .next (s.done (s.chip.offerTimeout ext.base.toNat ext.len.toNat))

/-- IDE_KEY_PROGRAM (R72). -/
def execIdeKeyProgram (h : Fin 4) (stream : IdeStream) (s : State) : Host.Outcome State Fault Refusal :=
  .next (s.done (s.chip.ideProgram h stream.n stream.contain))

/-- IDE_INTEGRITY_FAILURE (R228). -/
def execIdeIntegrityFailure (h : Fin 4) (stream : Fin 4) (s : State) : Host.Outcome State Fault Refusal :=
  .next (s.done (s.chip.ideFailure h stream))

/-- PERST_ASSERT (R539). -/
def execPerstAssert (port : Fin 2) (s : State) : Host.Outcome State Fault Refusal :=
  .next (s.done (s.chip.perst port))

/-- HEAD_HOT_RESET (R539). -/
def execHeadHotReset (h : Fin 4) (flr : Bool) (s : State) : Host.Outcome State Fault Refusal :=
  .next (s.done (s.chip.hotReset h flr))

/-- GPF_PHASE1 (R330): HDM-DB hosts flush their caches over CXL.mem, and the device keeps answering; its own state does not change. -/
def execGpfPhase1 (s : State) : Host.Outcome State Fault Refusal :=
  .next (s.done (s.chip))

/-- GPF_PHASE2 (R330). -/
def execGpfPhase2 (s : State) : Host.Outcome State Fault Refusal :=
  .next (s.done (s.chip.gpfPhase2))

end Sys2Proof.Machine
end

