-- ==== Sys2Proof/Machine/ExecHopper.lean ====
section
/-!
DEFINITION. Machine/ExecHopper.lean: Hopper queues, channels and events (chapter 13).
-/
namespace Sys2Proof.Machine

/-- LOAD (R400), written to hopper.queue_command. -/
def execLoad (src : Src) (q : Fin 1048576) (s : State) : Host.Outcome State Fault Refusal :=
  .next (s.done (s.chip.dictCmd src 0x7800 3 4 (q + 1 * 2 ^ 24) (fun k => k.queueLoad q)))

/-- DISABLE (R400), written to hopper.queue_command. -/
def execDisable (src : Src) (q : Fin 1048576) (s : State) : Host.Outcome State Fault Refusal :=
  .next (s.done (s.chip.dictCmd src 0x7800 3 4 (q + 2 * 2 ^ 24) (fun k => k.queueDisable q)))

/-- WRITEBACK (R400), written to hopper.queue_command. -/
def execWriteback (src : Src) (q : Fin 1048576) (s : State) : Host.Outcome State Fault Refusal :=
  .next (s.done (s.chip.dictCmd src 0x7800 3 4 (q + 3 * 2 ^ 24) (fun k => k.queueWriteback q)))

/-- DOORBELL_WRITE (R402). -/
def execDoorbellWrite (src : DbSrc) (q : Fin 1048576) (off : BitVec 5) (data : List Byte) (s : State) : Host.Outcome State Fault Refusal :=
  .next (s.done (s.chip.doorbellWrite src q off.toNat data))

/-- STATE_WAIT_RELEASE (R403). -/
def execStateWaitRelease (q : Fin 1048576) (s : State) : Host.Outcome State Fault Refusal :=
  .next (s.done (s.chip.stateRelease q))

/-- START (R408), written to hopper.chan.command. -/
def execStart (src : Src) (ch : Fin 64) (s : State) : Host.Outcome State Fault Refusal :=
  .next (s.done (s.chip.dictCmd src (0x7840 + ch) 5 1 1 (fun k => k.chanStart ch)))

/-- STOP (R408), written to hopper.chan.command. -/
def execStop (src : Src) (ch : Fin 64) (s : State) : Host.Outcome State Fault Refusal :=
  .next (s.done (s.chip.dictCmd src (0x7840 + ch) 5 1 2 (fun k => k.chanStopCmd ch)))

/-- RESUME (R408), written to hopper.chan.command. -/
def execResume (src : Src) (ch : Fin 64) (s : State) : Host.Outcome State Fault Refusal :=
  .next (s.done (s.chip.dictCmd src (0x7840 + ch) 5 1 3 (fun k => k.chanResume ch)))

/-- SKIP (R424), written to hopper.chan.command. -/
def execSkip (src : Src) (ch : Fin 64) (s : State) : Host.Outcome State Fault Refusal :=
  .next (s.done (s.chip.dictCmd src (0x7840 + ch) 5 1 4 (fun k => k.chanSkip ch)))

/-- CLEAR (R408), written to hopper.chan.command. -/
def execClear (src : Src) (ch : Fin 64) (s : State) : Host.Outcome State Fault Refusal :=
  .next (s.done (s.chip.dictCmd src (0x7840 + ch) 5 1 5 (fun k => k.chanClear ch)))

/-- CHANNEL_STOPPED (R408). -/
def execChannelStopped (ch : Fin 64) (s : State) : Host.Outcome State Fault Refusal :=
  .next (s.done (s.chip.chanStopped ch))

/-- DESCRIPTOR_FETCH (R415). -/
def execDescriptorFetch (ch : Fin 64) (obs : Obs) (s : State) : Host.Outcome State Fault Refusal :=
  .next (s.done (s.chip.descriptorFetch ch obs))

/-- BURST_ISSUE (R417). -/
def execBurstIssue (ch : Fin 64) (n : Nat) (obs : Obs) (s : State) : Host.Outcome State Fault Refusal :=
  .next (s.done ((s.chip.damaged obs.damage).burstIssue ch n obs))

/-- BURST_DURABLE (R421). -/
def execBurstDurable (ch : Fin 64) (b : Nat) (s : State) : Host.Outcome State Fault Refusal :=
  .next (s.done (s.chip.burstDurable ch b))

/-- EVENT_PULSE (R425). -/
def execEventPulse (src : Src) (line : BitVec 8) (s : State) : Host.Outcome State Fault Refusal :=
  .next (s.done (s.chip.dictCmd src 0x7880 1 1 line.toNat (fun k => k.eventPulse line.toNat)))

/-- EVT_IN_EDGE (R426). -/
def execEvtInEdge (pin : Fin 8) (s : State) : Host.Outcome State Fault Refusal :=
  .next (s.done (s.chip.evtIn pin))

/-- EVT_OUT_END (R428). -/
def execEvtOutEnd (pin : Fin 8) (s : State) : Host.Outcome State Fault Refusal :=
  .next (s.done (s.chip.evtOutEnd pin))

end Sys2Proof.Machine
end

