-- ==== Sys2Proof/Machine/ExecIntegrity.lean ====
section
/-!
DEFINITION. Machine/ExecIntegrity.lean: Sparge and the retirement log (chapter 11).
-/
namespace Sys2Proof.Machine

/-- SCRUB_WRITE (R350). -/
def execScrubWrite (dla : BitVec 46) (s : State) : Host.Outcome State Fault Refusal :=
  .next (s.done (s.chip.scrubWrite dla.toNat))

/-- PATROL_READ (R349). -/
def execPatrolRead (dla : BitVec 46) (res : CodeRes) (s : State) : Host.Outcome State Fault Refusal :=
  .next (s.done (s.chip.patrolRead dla.toNat res))

/-- PATROL_OVERDUE (R352). -/
def execPatrolOverdue (tier : Fin 4) (s : State) : Host.Outcome State Fault Refusal :=
  .next (s.done (s.chip.patrolOverdue tier))

/-- POOL_ZERO (R353). -/
def execPoolZero (pool : PoolShare) (n : Nat) (s : State) : Host.Outcome State Fault Refusal :=
  .next (s.done (s.chip.poolZero pool.tier pool.ch n))

/-- COUNT_HALVING (R354). -/
def execCountHalving (s : State) : Host.Outcome State Fault Refusal :=
  .next (s.done (s.chip.countHalving))

/-- RETLOG_PERSIST (R358). -/
def execRetlogPersist (s : State) : Host.Outcome State Fault Refusal :=
  .next (s.done (s.chip.retlogPersist))

end Sys2Proof.Machine
end

