-- ==== Sys2Proof/Machine/ExecKeys.lean ====
section
/-!
DEFINITION. Machine/ExecKeys.lean: Husk: keys, blobs and closure (chapter 07).
-/
namespace Sys2Proof.Machine

/-- CASK_KEY_BLOB_LOAD (R218). -/
def execCaskKeyBlobLoad (src : Src) (c : Fin 1024) (blob : BitVec 1472) (s : State) : Host.Outcome State Fault Refusal :=
  .next (s.done (s.chip.dictCmd src (0x9000 + c) 0x20 184 blob.toNat (fun k => k.loadBlob c blob)))

/-- ZEROISE (R222), written to cask.key_command. -/
def execZeroise (src : Src) (c : Fin 1024) (s : State) : Host.Outcome State Fault Refusal :=
  .next (s.done (s.chip.dictCmd src (0x9000 + c) 0x23 1 1 (fun k => k.zeroise c)))

/-- ERASE_WALK_END (R222). -/
def execEraseWalkEnd (c : Fin 1024) (s : State) : Host.Outcome State Fault Refusal :=
  .next (s.done (s.chip.eraseWalkEnd c))

/-- ZEROISE_ALL (R224). -/
def execZeroiseAll (src : Src) (v : BitVec 32) (s : State) : Host.Outcome State Fault Refusal :=
  .next (s.done (s.chip.dictCmd src 0xC000 3 4 v.toNat (fun k => k.zeroiseAll v.toNat)))

/-- KEY_REBUILD (R220). -/
def execKeyRebuild (key : VaultKey) (blobOk seedbankOk : Bool) (s : State) : Host.Outcome State Fault Refusal :=
  .next (s.done (s.chip.keyRebuild key blobOk seedbankOk))

/-- OWNER_ROOT_PROGRAM (R215). -/
def execOwnerRootProgram (src : Src) (root : BitVec 256) (s : State) : Host.Outcome State Fault Refusal :=
  .next (s.done (s.chip.dictCmd src 0x7000 2 32 root.toNat (fun k => k.programRoot root)))

/-- DEBUG_CLOSE (R226). -/
def execDebugClose (src : Src) (v : BitVec 32) (s : State) : Host.Outcome State Fault Refusal :=
  .next (s.done (s.chip.dictCmd src 0xC000 2 4 v.toNat (fun k => k.debugClose v.toNat)))

/-- LINK_SLOT_BLOB_LOAD (R231). -/
def execLinkSlotBlobLoad (src : Src) (l : Fin 8) (slot : Fin 2) (blob : BitVec 1472) (s : State) : Host.Outcome State Fault Refusal :=
  .next (s.done (s.chip.dictCmd src (0x7020 + l) (2 + slot) 184 blob.toNat (fun k => k.loadSlot l slot blob)))

/-- SWITCH (R231). -/
def execSwitchKey (src : Src) (l : Fin 8) (v : BitVec 8) (s : State) : Host.Outcome State Fault Refusal :=
  .next (s.done (s.chip.dictCmd src (0x7020 + l) 5 1 v.toNat (fun k => k.switchSlot l v.toNat)))

end Sys2Proof.Machine
end

