-- ==== Sys2Proof/Machine/ExecKiln.lean ====
section
/-!
DEFINITION. Machine/ExecKiln.lean: the NVM media and Kiln (chapter 10).
-/
namespace Sys2Proof.Machine

/-- PAGE_WRITE (R309). -/
def execPageWrite (prog : Fin 64) (page : BitVec 34) (why : PgWhy) (ch : Fin 8) (loc : BitVec 35) (obs : List (Fin 64 × Obs)) (s : State) : Host.Outcome State Fault Refusal :=
  .next (s.done (s.chip.pageWrite prog page.toNat why ch loc.toNat obs))

/-- PROGRAM_COMPLETE (R309). -/
def execProgramComplete (prog : Fin 64) (verified : ProgEnd) (s : State) : Host.Outcome State Fault Refusal :=
  .next (s.done (s.chip.programComplete prog verified.done verified.next.toNat))

/-- MEDIA_ALERT (R305). -/
def execMediaAlert (ch : Fin 8) (what : MediaAlert) (s : State) : Host.Outcome State Fault Refusal :=
  .next (s.done (s.chip.mediaAlert ch what))

/-- PROGRAM_SUSPEND (R318). -/
def execProgramSuspend (prog : Fin 64) (s : State) : Host.Outcome State Fault Refusal :=
  .next (s.done (s.chip.programSuspend prog))

/-- PROGRAM_RESUME (R318). -/
def execProgramResume (prog : Fin 64) (s : State) : Host.Outcome State Fault Refusal :=
  .next (s.done (s.chip.programResume prog))

/-- PROGRAM_ABORT (R320). -/
def execProgramAbort (prog : Fin 64) (loc : BitVec 35) (s : State) : Host.Outcome State Fault Refusal :=
  .next (s.done (s.chip.programAbort prog loc.toNat))

/-- MEDIA_RESCUE (R306). -/
def execMediaRescue (dla : BitVec 46) (decoded : Bool) (s : State) : Host.Outcome State Fault Refusal :=
  .next (s.done (s.chip.mediaRescue dla.toNat decoded))

/-- WITNESS_SWEEP (R314). -/
def execWitnessSweep (ch : Fin 8) (block : BitVec 20) (best : Int) (s : State) : Host.Outcome State Fault Refusal :=
  .next (s.done (s.chip.witnessSweep ch block.toNat best))

/-- REKILN (R315). -/
def execRekiln (ch : Fin 8) (block : BitVec 20) (age : Nat) (s : State) : Host.Outcome State Fault Refusal :=
  .next (s.done (s.chip.rekiln ch block.toNat age))

/-- RETENTION_EXCEEDED (R315). -/
def execRetentionExceeded (ch : Fin 8) (block : BitVec 20) (age : Nat) (s : State) : Host.Outcome State Fault Refusal :=
  .next (s.done (s.chip.retentionExceeded ch block.toNat age))

/-- RECLAIM (R311). -/
def execReclaim (ch : Fin 8) (block : BitVec 20) (s : State) : Host.Outcome State Fault Refusal :=
  .next (s.done (s.chip.reclaim ch block.toNat))

/-- BLOCK_CLOSE (R308). -/
def execBlockClose (ch : Fin 8) (block : BitVec 20) (openHours : Nat) (s : State) : Host.Outcome State Fault Refusal :=
  .next (s.done (s.chip.blockClose ch block.toNat openHours))

/-- KILN_FORMAT (R333), written to kiln.chan.command. -/
def execKilnFormat (src : Src) (ch : Fin 8) (s : State) : Host.Outcome State Fault Refusal :=
  .next (s.done (s.chip.dictCmd src (0x6040 + ch) 4 1 1 (fun k => k.kilnFormat ch)))

/-- PERSIST_FLUSH_END (R327). -/
def execPersistFlushEnd (s : State) : Host.Outcome State Fault Refusal :=
  .next (s.done (s.chip.persistFlushEnd))

end Sys2Proof.Machine
end

