-- ==== Sys2Proof/Machine/ExecLauter.lean ====
section
/-!
DEFINITION. Machine/ExecLauter.lean: Lauter and Mill: heat, migration, journal, channels, extents and expansion (chapters 05 and 06).
-/
namespace Sys2Proof.Machine

/-- HEAT_DECAY_PASS (R150). -/
def execHeatDecayPass (s : State) : Host.Outcome State Fault Refusal :=
  .next (s.done (s.chip.heatDecayPass))

/-- FREE_SPACE_LOW (R148). -/
def execFreeSpaceLow (tier : Fin 4) (s : State) : Host.Outcome State Fault Refusal :=
  .next (s.done (s.chip.freeSpaceLow tier))

/-- MIGRATION_START (R152). -/
def execMigrationStart (slot : Fin 32) (page : BitVec 34) (tier : Fin 4) (dst : PagePlace) (s : State) : Host.Outcome State Fault Refusal :=
  .next (s.done (s.chip.migrationStart slot page.toNat tier dst.ch dst.loc.toNat))

/-- COPY_PASS_END (R152). -/
def execCopyPassEnd (slot : SlotReads) (s : State) : Host.Outcome State Fault Refusal :=
  .next (s.done (s.chip.copyPassEnd slot.slot slot.reads))

/-- SWING (R152). -/
def execSwing (slot : SlotReads) (s : State) : Host.Outcome State Fault Refusal :=
  .next (s.done (s.chip.swing slot.slot slot.reads))

/-- SOURCE_RELEASE (R152). -/
def execSourceRelease (slot : Fin 32) (s : State) : Host.Outcome State Fault Refusal :=
  .next (s.done (s.chip.sourceRelease slot))

/-- JOURNAL_SPACE_FREED (R165). -/
def execJournalSpaceFreed (s : State) : Host.Outcome State Fault Refusal :=
  .next (s.done (s.chip.journalSpaceFreed))

/-- JOURNAL_DRAIN (R164). -/
def execJournalDrain (n : Nat) (checkpoint : Bool) (s : State) : Host.Outcome State Fault Refusal :=
  .next (s.done (s.chip.journalDrain n checkpoint))

/-- MAP_REBUILD (R166). -/
def execMapRebuild (bad : ZoneBad) (s : State) : Host.Outcome State Fault Refusal :=
  .next (s.done (s.chip.mapRebuild bad))

/-- MAP_RESIDENT_WRITE (R147). -/
def execMapResidentWrite (src : Src) (r : Fin 8) (v : BitVec 8) (s : State) : Host.Outcome State Fault Refusal :=
  .next (s.done (s.chip.dictCmd src (0x6820 + r) 4 1 v.toNat (fun k => k.setMapResident r v.toNat)))

/-- MAP_RESIDENT_EFFECT (R147). -/
def execMapResidentEffect (r : Fin 8) (s : State) : Host.Outcome State Fault Refusal :=
  .next (s.done (s.chip.mapResidentEffect r))

/-- MIRROR_WAIT_EXPIRY (R262). -/
def execMirrorWaitExpiry (page : BitVec 34) (s : State) : Host.Outcome State Fault Refusal :=
  .next (s.done (s.chip.mirrorWaitExpiry page.toNat))

/-- CHAN_ONLINE (R167), written to chan.command. -/
def execChanOnline (src : Src) (n : Fin 16) (s : State) : Host.Outcome State Fault Refusal :=
  .next (s.done (s.chip.dictCmd src (0x6840 + n) 2 1 1 (fun k => k.chanOnline n)))

/-- CHAN_EVACUATE (R168), written to chan.command. -/
def execChanEvacuate (src : Src) (n : Fin 16) (s : State) : Host.Outcome State Fault Refusal :=
  .next (s.done (s.chip.dictCmd src (0x6840 + n) 2 1 2 (fun k => k.chanEvacuate n)))

/-- CHAN_OFFLINE (R167), written to chan.command. -/
def execChanOffline (src : Src) (n : Fin 16) (s : State) : Host.Outcome State Fault Refusal :=
  .next (s.done (s.chip.dictCmd src (0x6840 + n) 2 1 3 (fun k => k.chanOffline n)))

/-- CHAN_CANCEL_EVACUATE (R167), written to chan.command. -/
def execChanCancelEvacuate (src : Src) (n : Fin 16) (s : State) : Host.Outcome State Fault Refusal :=
  .next (s.done (s.chip.dictCmd src (0x6840 + n) 2 1 4 (fun k => k.chanCancel n)))

/-- EVACUATION_COMPLETE (R168). -/
def execEvacuationComplete (n : Fin 16) (s : State) : Host.Outcome State Fault Refusal :=
  .next (s.done (s.chip.evacuationComplete n))

/-- RETIRE (R169). -/
def execRetire (src : Src) (v : BitVec 64) (s : State) : Host.Outcome State Fault Refusal :=
  .next (s.done (s.chip.dictCmd src 0x6810 0x10 8 v.toNat (fun k => k.retire v.toNat)))

/-- RETIRE_COMPLETE (R169). -/
def execRetireComplete (blocked : Bool) (s : State) : Host.Outcome State Fault Refusal :=
  .next (s.done (s.chip.retireComplete blocked))

/-- EXTENT_OFFER (R171), written to lauter.extent_command. -/
def execExtentOffer (src : Src) (region : Fin 8) (cask : Fin 1024) (group : Fin 4) (ext : Ext) (s : State) : Host.Outcome State Fault Refusal :=
  let b := ext.base.toNat
  let n := ext.len.toNat
  let v : Nat := 1 + region.val * 2 ^ 8 + cask.val * 2 ^ 16 + group.val * 2 ^ 32 + b * 2 ^ 64 + n * 2 ^ 128
  .next (s.done (s.chip.dictCmd src 0x6830 1 32 v (fun k => k.extentOffer region cask group b n)))

/-- EXTENT_WITHDRAW (R172), written to lauter.extent_command. -/
def execExtentWithdraw (src : Src) (region : Fin 8) (ext : Ext) (s : State) : Host.Outcome State Fault Refusal :=
  let b := ext.base.toNat
  let n := ext.len.toNat
  let v : Nat := 2 + region.val * 2 ^ 8 + b * 2 ^ 64 + n * 2 ^ 128
  .next (s.done (s.chip.dictCmd src 0x6830 1 32 v (fun k => k.extentWithdraw region b n)))

/-- EXTENT_REQUEST_RELEASE (R173), written to lauter.extent_command. -/
def execExtentRequestRelease (src : Src) (region : Fin 8) (ext : Ext) (s : State) : Host.Outcome State Fault Refusal :=
  let b := ext.base.toNat
  let n := ext.len.toNat
  let v : Nat := 3 + region.val * 2 ^ 8 + b * 2 ^ 64 + n * 2 ^ 128
  .next (s.done (s.chip.dictCmd src 0x6830 1 32 v (fun k => k.extentRequestRelease region b n)))

/-- EXTENT_FORCE_RELEASE (R173), written to lauter.extent_command. -/
def execExtentForceRelease (src : Src) (region : Fin 8) (ext : Ext) (s : State) : Host.Outcome State Fault Refusal :=
  let b := ext.base.toNat
  let n := ext.len.toNat
  let v : Nat := 4 + region.val * 2 ^ 8 + b * 2 ^ 64 + n * 2 ^ 128
  .next (s.done (s.chip.dictCmd src 0x6830 1 32 v (fun k => k.extentForceRelease region b n)))

/-- BLOCK_STORAGE_FREE (R174). -/
def execBlockStorageFree (blk : BitVec 25) (s : State) : Host.Outcome State Fault Refusal :=
  .next (s.done (s.chip.blockStorageFree blk.toNat))

/-- EXPANSION_COMPLETE (R193). -/
def execExpansionComplete (page : PageReads) (s : State) : Host.Outcome State Fault Refusal :=
  .next (s.done (s.chip.expansionComplete page.page.toNat page.reads))

/-- REPACK_START (R195). -/
def execRepackStart (slot : Fin 32) (page : BitVec 34) (loc : BitVec 35) (s : State) : Host.Outcome State Fault Refusal :=
  .next (s.done (s.chip.repackStart slot page.toNat loc.toNat))

/-- SPACE_AVAILABLE (R199). -/
def execSpaceAvailable (page : BitVec 34) (s : State) : Host.Outcome State Fault Refusal :=
  .next (s.done (s.chip.spaceAvailable page.toNat))

/-- SPACE_WAIT_EXPIRY (R199). -/
def execSpaceWaitExpiry (page : BitVec 34) (s : State) : Host.Outcome State Fault Refusal :=
  .next (s.done (s.chip.spaceWaitExpiry page.toNat))

end Sys2Proof.Machine
end

