-- ==== Sys2Proof/Machine/ExecLinks.lean ====
section
/-!
DEFINITION. Machine/ExecLinks.lean: the Semund links: training, flits, control records, changes and commands (chapter 12).
-/
namespace Sys2Proof.Machine

/-- TS_BLOCK (R362). -/
def execTsBlock (l : Fin 8) (block : BitVec 128) (s : State) : Host.Outcome State Fault Refusal :=
  .next (s.done (s.chip.tsBlock l block))

/-- TRAINING_STEP_TIMEOUT (R363). -/
def execTrainingStepTimeout (l : Fin 8) (s : State) : Host.Outcome State Fault Refusal :=
  .next (s.done (s.chip.trainingTimeout l))

/-- DATA_FLIT (R374). -/
def execDataFlit (l : Fin 8) (flit : BitVec 2048) (s : State) : Host.Outcome State Fault Refusal :=
  .next (s.done (s.chip.dataFlit l flit))

/-- CONTROL_FLIT (R368). -/
def execControlFlit (l : Fin 8) (flit : BitVec 2048) (s : State) : Host.Outcome State Fault Refusal :=
  .next (s.done (s.chip.controlFlit l flit))

/-- NAK (R375). -/
def execNak (l : Fin 8) (n : BitVec 12) (s : State) : Host.Outcome State Fault Refusal :=
  .next (s.done (s.chip.linkNak l n.toNat))

/-- CREDIT (R379). -/
def execCredit (l : Fin 8) (group : Bool) (limits : BitVec 64) (s : State) : Host.Outcome State Fault Refusal :=
  .next (s.done (s.chip.linkCredit l group.toNat limits.toNat))

/-- CREDIT_RD (R380). -/
def execCreditRd (l : Fin 8) (limit : BitVec 16) (s : State) : Host.Outcome State Fault Refusal :=
  .next (s.done (s.chip.raiseReadLimit l limit.toNat))

/-- CREDIT_WB (R379). -/
def execCreditWb (l : Fin 8) (limit : BitVec 16) (s : State) : Host.Outcome State Fault Refusal :=
  .next (s.done (s.chip.raiseWbLimit l limit.toNat))

/-- CHANGE_REQ (R383). -/
def execChangeReq (l : Fin 8) (id width speed reason : BitVec 8) (s : State) : Host.Outcome State Fault Refusal :=
  .next (s.done (s.chip.changeReq l id.toNat width.toNat speed.toNat reason.toNat))

/-- CHANGE_ACK (R382). -/
def execChangeAck (l : Fin 8) (id : BitVec 8) (s : State) : Host.Outcome State Fault Refusal :=
  .next (s.done (s.chip.changeAck l id.toNat))

/-- CHANGE_DEFER (R368): the leader only sends it, so receiving one is a protocol error (log entry 5). -/
def execChangeDefer (l : Fin 8) (id : BitVec 8) (s : State) : Host.Outcome State Fault Refusal :=
  .next (s.done (s.chip.wrongWay l))

/-- CHANGE_REFUSE (R385). -/
def execChangeRefuse (l : Fin 8) (id : BitVec 8) (s : State) : Host.Outcome State Fault Refusal :=
  .next (s.done (s.chip.changeRefuse l id.toNat))

/-- CHANGE_GO (R382). -/
def execChangeGo (l : Fin 8) (id : BitVec 8) (seq : BitVec 12) (s : State) : Host.Outcome State Fault Refusal :=
  .next (s.done (s.chip.changeGo l id.toNat))

/-- DOWN_RECORD (R389): the link goes down with cause 5, whatever cause the record names. -/
def execDownRecord (l : Fin 8) (cause : BitVec 8) (s : State) : Host.Outcome State Fault Refusal :=
  .next (s.done (s.chip.wantDown l 5))

/-- CHANGE_REQ_TIMEOUT (R382). -/
def execChangeReqTimeout (l : Fin 8) (s : State) : Host.Outcome State Fault Refusal :=
  .next (s.done (s.chip.changeReqTimeout l))

/-- CHANGE_TIMEOUT (R385). -/
def execChangeTimeout (l : Fin 8) (s : State) : Host.Outcome State Fault Refusal :=
  .next (s.done (s.chip.changeTimeout l))

/-- CHANGE_COMPLETE (R382). -/
def execChangeComplete (l : Fin 8) (width speed : BitVec 8) (s : State) : Host.Outcome State Fault Refusal :=
  .next (s.done (s.chip.changeComplete l width.toNat speed.toNat))

/-- REPLAY_TIMEOUT (R376). -/
def execReplayTimeout (l : Fin 8) (parity : Bool) (s : State) : Host.Outcome State Fault Refusal :=
  .next (s.done (s.chip.replayTimeout l parity))

/-- LOSS_OF_SIGNAL (R389). -/
def execLossOfSignal (l : Fin 8) (s : State) : Host.Outcome State Fault Refusal :=
  .next (s.done (s.chip.wantDown l 7))

/-- AUTO_RETRAIN (R391). -/
def execAutoRetrain (l : Fin 8) (s : State) : Host.Outcome State Fault Refusal :=
  .next (s.done (s.chip.autoRetrain l))

/-- CREDIT_REFRESH (R379). -/
def execCreditRefresh (l : Fin 8) (s : State) : Host.Outcome State Fault Refusal :=
  .next (s.done (s.chip.creditRefresh l))

/-- UP (R391), written to link.command. -/
def execUp (src : Src) (l : Fin 8) (s : State) : Host.Outcome State Fault Refusal :=
  .next (s.done (s.chip.dictCmd src (0x8010 + l) 2 1 1 (fun k => k.linkUpCmd l)))

/-- DOWN (R389), written to link.command. -/
def execDown (src : Src) (l : Fin 8) (s : State) : Host.Outcome State Fault Refusal :=
  .next (s.done (s.chip.dictCmd src (0x8010 + l) 2 1 2 (fun k => k.linkDownCmd l)))

/-- CHANGE (R386), written to link.command. -/
def execChange (src : Src) (l : Fin 8) (s : State) : Host.Outcome State Fault Refusal :=
  .next (s.done (s.chip.dictCmd src (0x8010 + l) 2 1 3 (fun k => k.linkChangeCmd l)))

/-- RD (R370). -/
def execRd (l : Fin 8) (p : Packet) (obs : Obs) (s : State) : Host.Outcome State Fault Refusal :=
  .next (s.done (s.chip.linkRd l p obs))

/-- WR (R370). -/
def execWr (l : Fin 8) (p : Packet) (obs : Obs) (s : State) : Host.Outcome State Fault Refusal :=
  .next (s.done (s.chip.linkWr l p obs))

/-- WRC (R421). -/
def execWrc (l : Fin 8) (p : Packet) (s : State) : Host.Outcome State Fault Refusal :=
  .next (s.done (s.chip.linkWrc l p))

/-- APPEND (R444). -/
def execAppend (l : Fin 8) (p : Packet) (obs : Obs) (s : State) : Host.Outcome State Fault Refusal :=
  .next (s.done (s.chip.linkAppend l p obs))

/-- FOLD (R433). -/
def execFold (l : Fin 8) (p : Packet) (s : State) : Host.Outcome State Fault Refusal :=
  .next (s.done (s.chip.linkFold l p))

/-- FENCE (R373). -/
def execFence (l : Fin 8) (p : Packet) (s : State) : Host.Outcome State Fault Refusal :=
  .next (s.done (s.chip.linkFence l p))

/-- EVT (R393). -/
def execEvt (l : Fin 8) (p : Packet) (s : State) : Host.Outcome State Fault Refusal :=
  .next (s.done (s.chip.linkEvt l p))

/-- TBE (R394). -/
def execTbe (l : Fin 8) (p : Packet) (s : State) : Host.Outcome State Fault Refusal :=
  .next (s.done (s.chip.linkTbe l p))

end Sys2Proof.Machine
end

