-- ==== Sys2Proof/Machine/ExecMailbox.lean ====
section
/-!
DEFINITION. Machine/ExecMailbox.lean: the mailbox commands of a head (chapter 02).
-/
namespace Sys2Proof.Machine

/-- GET_EVENT_RECORDS (R66). -/
def execGetEventRecords (h : Fin 4) (log : EvLog) (s : State) : Host.Outcome State Fault Refusal :=
  .next (s.done (s.chip.mboxGetEvents h log))

/-- CLEAR_EVENT_RECORDS (R66). -/
def execClearEventRecords (h : Fin 4) (log : EvLog) (n : Nat) (s : State) : Host.Outcome State Fault Refusal :=
  .next (s.done (s.chip.mboxClearEvents h log n))

/-- GET_EVENT_INTERRUPT_POLICY (R66). -/
def execGetEventInterruptPolicy (h : Fin 4) (s : State) : Host.Outcome State Fault Refusal :=
  .next (s.done (s.chip.mboxGetPolicy h))

/-- SET_EVENT_INTERRUPT_POLICY (R66). -/
def execSetEventInterruptPolicy (h : Fin 4) (policy : BitVec 5) (s : State) : Host.Outcome State Fault Refusal :=
  .next (s.done (s.chip.mboxSetPolicy h policy))

/-- GET_FW_INFO (R66). -/
def execGetFwInfo (h : Fin 4) (s : State) : Host.Outcome State Fault Refusal :=
  .next (s.done (s.chip.mboxFwInfo h))

/-- TRANSFER_FW (R485). -/
def execTransferFw (h : Fin 4) (seq length : BitVec 32) (version : BitVec 256) (sigOk : Bool) (s : State) : Host.Outcome State Fault Refusal :=
  .next (s.done (s.chip.mboxTransferFw h seq.toNat length.toNat version sigOk))

/-- ACTIVATE_FW (R485). -/
def execActivateFw (h : Fin 4) (s : State) : Host.Outcome State Fault Refusal :=
  .next (s.done (s.chip.mboxActivateFw h))

/-- GET_TIMESTAMP (R66). -/
def execGetTimestamp (h : Fin 4) (s : State) : Host.Outcome State Fault Refusal :=
  .next (s.done (s.chip.mboxGetTime h))

/-- SET_TIMESTAMP (R66). -/
def execSetTimestamp (h : Fin 4) (t : BitVec 64) (s : State) : Host.Outcome State Fault Refusal :=
  .next (s.done (s.chip.mboxSetTime h t.toNat))

/-- GET_SUPPORTED_LOGS (R66). -/
def execGetSupportedLogs (h : Fin 4) (s : State) : Host.Outcome State Fault Refusal :=
  .next (s.done (s.chip.mboxGetLogs h))

/-- GET_LOG (R66): the content at any offset is CXL 3.1's. -/
def execGetLog (h : Fin 4) (offset length : BitVec 32) (s : State) : Host.Outcome State Fault Refusal :=
  .next (s.done (s.chip.mboxGetLog h))

/-- IDENTIFY_MEMORY_DEVICE (R53). -/
def execIdentifyMemoryDevice (h : Fin 4) (s : State) : Host.Outcome State Fault Refusal :=
  .next (s.done (s.chip.mboxIdentify h))

/-- GET_HEALTH_INFO (R66). -/
def execGetHealthInfo (h : Fin 4) (s : State) : Host.Outcome State Fault Refusal :=
  .next (s.done (s.chip.mboxHealth h))

/-- GET_POISON_LIST (R66). -/
def execGetPoisonList (h : Fin 4) (range : Ext) (s : State) : Host.Outcome State Fault Refusal :=
  .next (s.done (s.chip.mboxGetPoison h range.base.toNat range.len.toNat))

/-- INJECT_POISON (R66). -/
def execInjectPoison (h : Fin 4) (dla : BitVec 46) (s : State) : Host.Outcome State Fault Refusal :=
  .next (s.done (s.chip.mboxInject h dla.toNat))

/-- CLEAR_POISON (R66). -/
def execClearPoison (h : Fin 4) (dla : BitVec 46) (data : Line) (s : State) : Host.Outcome State Fault Refusal :=
  .next (s.done (s.chip.mboxClearPoison h dla.toNat data))

/-- GET_DC_CONFIGURATION (R66). -/
def execGetDcConfiguration (h : Fin 4) (s : State) : Host.Outcome State Fault Refusal :=
  .next (s.done (s.chip.mboxDcConfig h))

/-- GET_DC_EXTENT_LIST (R66). -/
def execGetDcExtentList (h : Fin 4) (s : State) : Host.Outcome State Fault Refusal :=
  .next (s.done (s.chip.mboxDcList h))

/-- ADD_DC_RESPONSE (R57). -/
def execAddDcResponse (h : Fin 4) (exts : List Ext) (s : State) : Host.Outcome State Fault Refusal :=
  .next (s.done (s.chip.mboxAddDc h exts))

/-- RELEASE_DC (R58). -/
def execReleaseDc (h : Fin 4) (exts : List Ext) (s : State) : Host.Outcome State Fault Refusal :=
  .next (s.done (s.chip.mboxReleaseDc h exts))

/-- UNSUPPORTED_OPCODE (R66). -/
def execUnsupportedOpcode (h : Fin 4) (opcode : BitVec 16) (s : State) : Host.Outcome State Fault Refusal :=
  .next (s.done (s.chip.mboxUnsupported h opcode.toNat))

/-- DICTIONARY_READ (R68). -/
def execDictionaryRead (h : Fin 4) (input : List Byte) (s : State) : Host.Outcome State Fault Refusal :=
  .next (s.done (s.chip.mboxRead h input))

/-- DICTIONARY_WRITE (R69). -/
def execDictionaryWrite (h : Fin 4) (input : List Byte) (s : State) : Host.Outcome State Fault Refusal :=
  .next (s.done (s.chip.mboxWrite h input))

/-- POST_WINDOW (R71). -/
def execPostWindow (h : Fin 4) (input : List Byte) (s : State) : Host.Outcome State Fault Refusal :=
  .next (s.done (s.chip.mboxPost h input))

/-- POST_WINDOW_BATCH (R71). -/
def execPostWindowBatch (h : Fin 4) (input : List Byte) (s : State) : Host.Outcome State Fault Refusal :=
  .next (s.done (s.chip.mboxBatch h input))

/-- GET_FAILOVER_RECORD (R78). -/
def execGetFailoverRecord (h : Fin 4) (input : List Byte) (s : State) : Host.Outcome State Fault Refusal :=
  .next (s.done (s.chip.mboxFailover h input))

end Sys2Proof.Machine
end

