-- ==== Sys2Proof/Machine/ExecModes.lean ====
section
/-!
DEFINITION. Machine/ExecModes.lean: modes, domains and resets (chapter 18).
-/
namespace Sys2Proof.Machine

/-- TRAIN (R527), written to mode.command. -/
def execTrain (src : Src) (s : State) : Host.Outcome State Fault Refusal :=
  .next (s.done (s.chip.dictCmd src 0x2800 2 1 1 (fun k => k.trainCmd)))

/-- DRAIN (R530), written to mode.command. -/
def execDrain (src : Src) (s : State) : Host.Outcome State Fault Refusal :=
  .next (s.done (s.chip.dictCmd src 0x2800 2 1 2 (fun k => k.drainCmd)))

/-- RESUME_MODE (R527), written to mode.command. -/
def execResumeMode (src : Src) (s : State) : Host.Outcome State Fault Refusal :=
  .next (s.done (s.chip.dictCmd src 0x2800 2 1 3 (fun k => k.resumeCmd)))

/-- UPDATE (R532), written to mode.command. -/
def execUpdate (src : Src) (s : State) : Host.Outcome State Fault Refusal :=
  .next (s.done (s.chip.dictCmd src 0x2800 2 1 4 (fun k => k.updateCmd)))

/-- EXIT_UPDATE (R527), written to mode.command. -/
def execExitUpdate (src : Src) (s : State) : Host.Outcome State Fault Refusal :=
  .next (s.done (s.chip.dictCmd src 0x2800 2 1 5 (fun k => k.exitUpdateCmd)))

/-- CONFIGURE (R527), written to mode.command. -/
def execConfigure (src : Src) (s : State) : Host.Outcome State Fault Refusal :=
  .next (s.done (s.chip.dictCmd src 0x2800 2 1 7 (fun k => k.configureCmd)))

/-- CHIP_RESET (R539), written to mode.command. -/
def execChipReset (src : Src) (flushed : Bool) (s : State) : Host.Outcome State Fault Refusal :=
  .next (s.done (s.chip.dictCmd src 0x2800 2 1 6 (fun k => k.chipResetCmd flushed)))

/-- TRAINING_END (R527). -/
def execTrainingEnd (ddr : List DdrFound) (nvm : List NvmFound) (s : State) : Host.Outcome State Fault Refusal :=
  .next (s.done (s.chip.trainingEnd ddr nvm))

/-- TRAIN_LIMIT_EXPIRY (R527). -/
def execTrainLimitExpiry (ddr : List DdrFound) (nvm : List NvmFound) (s : State) : Host.Outcome State Fault Refusal :=
  .next (s.done (s.chip.trainLimit ddr nvm))

/-- DRAIN_STEP_COMPLETE (R530). -/
def execDrainStepComplete (s : State) : Host.Outcome State Fault Refusal :=
  .next (s.done (s.chip.drainStep))

/-- DOMAIN_OFF (R535), written to domain.command. -/
def execDomainOff (src : Src) (n : Fin 31) (s : State) : Host.Outcome State Fault Refusal :=
  .next (s.done (s.chip.dictCmd src (0x2810 + n) 2 1 0 (fun k => k.domainCmd n 0)))

/-- DOMAIN_RETENTION (R535), written to domain.command. -/
def execDomainRetention (src : Src) (n : Fin 31) (s : State) : Host.Outcome State Fault Refusal :=
  .next (s.done (s.chip.dictCmd src (0x2810 + n) 2 1 1 (fun k => k.domainCmd n 1)))

/-- DOMAIN_ON (R535), written to domain.command. -/
def execDomainOn (src : Src) (n : Fin 31) (s : State) : Host.Outcome State Fault Refusal :=
  .next (s.done (s.chip.dictCmd src (0x2810 + n) 2 1 2 (fun k => k.domainCmd n 2)))

/-- DOMAIN_CHANGE_END (R536). -/
def execDomainChangeEnd (n : Fin 31) (ddr : List DdrFound) (nvm : List NvmFound) (s : State) : Host.Outcome State Fault Refusal :=
  .next (s.done (s.chip.domainChangeEnd n ddr nvm))

/-- PAD_RELEASE (R538). -/
def execPadRelease (src : Src) (v : BitVec 8) (s : State) : Host.Outcome State Fault Refusal :=
  .next (s.done (s.chip.dictCmd src 0x2800 0x0B 1 v.toNat (fun k => k.padRelease v.toNat)))

end Sys2Proof.Machine
end

