-- ==== Sys2Proof/Machine/ExecPower.lean ====
section
/-!
DEFINITION. Machine/ExecPower.lean: power entry (chapter 17).
-/
namespace Sys2Proof.Machine

/-- SEAT_PIN_EDGE (R503). -/
def execSeatPinEdge (seatA seatB : Bool) (s : State) : Host.Outcome State Fault Refusal :=
  .next (s.done (s.chip.seatPinEdge seatA seatB))

/-- SEAT_TIMER_EXPIRY (R503). -/
def execSeatTimerExpiry (s : State) : Host.Outcome State Fault Refusal :=
  .next (s.done (s.chip.seatTimerExpiry))

/-- PRECHECK_END (R504). -/
def execPrecheckEnd (rise current diode : Int) (s : State) : Host.Outcome State Fault Refusal :=
  .next (s.done (s.chip.precheckEnd rise current diode))

/-- COOLDOWN_MET (R516). -/
def execCooldownMet (s : State) : Host.Outcome State Fault Refusal :=
  .next (s.done (s.chip.cooldownMet))

/-- RAMP_END (R505). -/
def execRampEnd (vout vbus : Nat) (s : State) : Host.Outcome State Fault Refusal :=
  .next (s.done (s.chip.rampEnd vout vbus))

/-- RAMP_TIMEOUT (R505). -/
def execRampTimeout (vout : Nat) (s : State) : Host.Outcome State Fault Refusal :=
  .next (s.done (s.chip.rampTimeout vout))

/-- ENHANCE_DONE (R506). -/
def execEnhanceDone (vgs : Nat) (s : State) : Host.Outcome State Fault Refusal :=
  .next (s.done (s.chip.enhanceDone vgs))

/-- ENHANCE_TIMEOUT (R506). -/
def execEnhanceTimeout (s : State) : Host.Outcome State Fault Refusal :=
  .next (s.done (s.chip.enhanceTimeout))

/-- GATE_LOW_IN_ON (R506). -/
def execGateLowInOn (s : State) : Host.Outcome State Fault Refusal :=
  .next (s.done (s.chip.gateLow))

/-- CURRENT_SAMPLE (R509). -/
def execCurrentSample (smp : CurSample) (s : State) : Host.Outcome State Fault Refusal :=
  .next (s.done (s.chip.currentSample smp))

/-- CURVE_TRIP (R509). -/
def execCurveTrip (k : Fin 8) (s : State) : Host.Outcome State Fault Refusal :=
  .next (s.done (s.chip.curveTrip k))

/-- INSTANT_TRIP (R510). -/
def execInstantTrip (current : Int) (s : State) : Host.Outcome State Fault Refusal :=
  .next (s.done (s.chip.instantTrip current))

/-- OVER_TEMP_TRIP (R511). -/
def execOverTempTrip (s : State) : Host.Outcome State Fault Refusal :=
  .next (s.done (s.chip.overTempTrip))

/-- BROWNOUT (R514). -/
def execBrownout (vout : Nat) (s : State) : Host.Outcome State Fault Refusal :=
  .next (s.done (s.chip.brownout vout))

/-- RETRY_CLEAR (R515). -/
def execRetryClear (secs : Nat) (s : State) : Host.Outcome State Fault Refusal :=
  .next (s.done (s.chip.retryClear secs))

/-- UNSEAT (R517). -/
def execUnseat (s : State) : Host.Outcome State Fault Refusal :=
  .next (s.done (s.chip.unseat))

/-- FEED_INVALID (R501). -/
def execFeedInvalid (f : Fin 2) (mv : Nat) (s : State) : Host.Outcome State Fault Refusal :=
  .next (s.done (s.chip.feedInvalid f mv))

/-- FEED_VALID (R499). -/
def execFeedValid (f : Fin 2) (mv : Nat) (s : State) : Host.Outcome State Fault Refusal :=
  .next (s.done (s.chip.feedValid f mv))

/-- ORING_REVERSE (R500). -/
def execOringReverse (f : Fin 2) (feed vbus : Nat) (s : State) : Host.Outcome State Fault Refusal :=
  .next (s.done (s.chip.oringReverse f feed vbus))

/-- SENTRY_WAKE (R525). -/
def execSentryWake (smp : PwrSample) (s : State) : Host.Outcome State Fault Refusal :=
  .next (s.done (s.chip.sentryWake smp))

/-- COMMANDED_TRIP (R518). -/
def execCommandedTrip (src : Src) (v : BitVec 8) (s : State) : Host.Outcome State Fault Refusal :=
  .next (s.done (s.chip.dictCmd src 0x2000 2 1 v.toNat (fun k => k.powerCmd v.toNat)))

/-- SENTRY_POWER_ON_RESET (R523). -/
def execSentryPowerOnReset (s : State) : Host.Outcome State Fault Refusal :=
  .next (s.doneRails (s.chip.sentryReset))

/-- SENTRY_POWER_LOSS (R574). -/
def execSentryPowerLoss (s : State) : Host.Outcome State Fault Refusal :=
  .next (s.doneRails (s.chip.sentryLoss))

/-- RAIL_LOSS (R574). -/
def execRailLoss (s : State) : Host.Outcome State Fault Refusal :=
  .next (s.doneRails (s.chip.railLoss))

/-- CHIP_POWER_ON (R539, R570). -/
def execChipPowerOn (slot : BitVec 7) (build : Bool) (unstable : BitVec 8) (s : State) : Host.Outcome State Fault Refusal :=
  .next (s.doneRails (s.chip.chipPowerOn slot.toNat build.toNat unstable.toNat))

end Sys2Proof.Machine
end

