-- ==== Sys2Proof/Machine/ExecSeedbank.lean ====
section
/-!
DEFINITION. Machine/ExecSeedbank.lean: Seedbank (chapter 16).
-/
namespace Sys2Proof.Machine

/-- SEEDBANK_APPEND (R489). -/
def execSeedbankAppend (kind : Fin 5) (key : BitVec 32) (payload : List Byte) (verified : Bool) (s : State) : Host.Outcome State Fault Refusal :=
  .next (s.done (s.chip.seedbankAppend kind key.toNat payload verified))

/-- COMPACTION (R493). -/
def execCompaction (s : State) : Host.Outcome State Fault Refusal :=
  .next (s.done (s.chip.compaction))

/-- PROTECT_SET (R494). -/
def execProtectSet (src : Src) (v : BitVec 8) (s : State) : Host.Outcome State Fault Refusal :=
  .next (s.done (s.chip.dictCmd src 0x3000 3 1 v.toNat (fun k => k.protectSet v.toNat)))

/-- WEAR_ALLOWANCE_RESTORED (R495). -/
def execWearAllowanceRestored (s : State) : Host.Outcome State Fault Refusal :=
  .next (s.done (s.chip.wearRestored))

/-- RECALL_END (R492, R485, R477). -/
def execRecallEnd (ms : Nat) (dieOk : Bool) (flips : List (Nat × Nat × Byte)) (imageA imageB entropyOk : Bool) (s : State) : Host.Outcome State Fault Refusal :=
  .next (s.done (Chip.fieldStart s.chip (s.chip.recallEnd ms dieOk flips imageA imageB entropyOk)))

end Sys2Proof.Machine
end

