-- ==== Sys2Proof/Machine/ExecTap.lean ====
section
/-!
DEFINITION. Machine/ExecTap.lean: the test access port (R584). Before chip power-on the port is in reset, and a command leaves the machine as it is.
-/
namespace Sys2Proof.Machine

/-- TAP_RESET (R539). -/
def execTapReset (s : State) : Host.Outcome State Fault Refusal :=
  .next (s.tapDo Tap.resetTap)

/-- EXTEST. -/
def execExtest (s : State) : Host.Outcome State Fault Refusal :=
  .next (s.tapDo Tap.extest)

/-- IDCODE. -/
def execIdcode (s : State) : Host.Outcome State Fault Refusal :=
  .next (s.tapDo Tap.idcode)

/-- SAMPLE. -/
def execSample (pins : List Bool) (s : State) : Host.Outcome State Fault Refusal :=
  .next (s.tapDo (fun t => t.sample pins))

/-- PRELOAD. -/
def execPreload (cells : List Bool) (s : State) : Host.Outcome State Fault Refusal :=
  .next (s.tapDo (fun t => t.preload cells))

/-- CLAMP. -/
def execClamp (s : State) : Host.Outcome State Fault Refusal :=
  .next (s.tapDo Tap.clamp)

/-- HIGHZ. -/
def execHighz (s : State) : Host.Outcome State Fault Refusal :=
  .next (s.tapDo Tap.highz)

/-- BYPASS: after closure every private code acts as BYPASS (R226); before it, a private instruction has no effect that the spec gives. -/
def execBypass (code : BitVec 8) (s : State) : Host.Outcome State Fault Refusal :=
  if privateCode code && !s.chip.husk.debugClosed && s.chip.mode.railsUp then .refused .privateTapInstruction
  else .next (s.tapDo (fun t => if privateCode code then t.bypass else t.runCode code))

end Sys2Proof.Machine
end

