-- ==== Sys2Proof/Machine/ExecTime.lean ====
section
/-!
DEFINITION. Machine/ExecTime.lean: the timebase, the windows and scheduled operations (chapter 01).
-/
namespace Sys2Proof.Machine

/-- TB_SYNC_FRAME (R12, R13, R16). -/
def execTbSyncFrame (frame : BitVec 112) (rateKhz : Nat) (intervalKhz : Option Nat) (s : State) : Host.Outcome State Fault Refusal :=
  .next (s.done (s.chip.syncFrame frame rateKhz intervalKhz))

/-- FRAME_MISSED (R12, R14). -/
def execFrameMissed (s : State) : Host.Outcome State Fault Refusal :=
  .next (s.done (s.chip.missFrame))

/-- TB_CLK_LOST (R15). -/
def execTbClkLost (s : State) : Host.Outcome State Fault Refusal :=
  .next (s.done (s.chip.clkLost))

/-- TB_CLK_RESTORED (R14). -/
def execTbClkRestored (s : State) : Host.Outcome State Fault Refusal :=
  .next (s.done (s.chip.clkRestored))

/-- HOLDOVER_EXPIRED (R14). -/
def execHoldoverExpired (s : State) : Host.Outcome State Fault Refusal :=
  .next (s.done (s.chip.holdoverExpired))

/-- SLEW_END (R16). -/
def execSlewEnd (s : State) : Host.Outcome State Fault Refusal :=
  .next (s.done (s.chip.slewEnd))

/-- WINDOWS_POST (R23): a whole write of windows.post. -/
def execWindowsPost (src : Src) (record : BitVec 256) (s : State) : Host.Outcome State Fault Refusal :=
  .next (s.done (s.chip.dictCmd src 0x4010 1 32 record.toNat (fun c => c.postObject (srcMaster src) record.toNat)))

/-- TIMELINE_APERTURE_WRITE (R24). -/
def execTimelineApertureWrite (src : TlSrc) (off : BitVec 12) (data : List Byte) (s : State) : Host.Outcome State Fault Refusal :=
  .next (s.done (s.chip.timelineWrite src off.toNat data))

/-- CANCEL_WINDOW (R27): a CANCEL record posted through windows.post. -/
def execCancelWindow (src : Src) (tag epoch : BitVec 16) (s : State) : Host.Outcome State Fault Refusal :=
  let v := cancelRecord tag.toNat epoch.toNat
  .next (s.done (s.chip.dictCmd src 0x4010 1 32 v (fun c => c.postObject (srcMaster src) v)))

/-- WRITE_FENCE (R37). -/
def execWriteFence (tag : BitVec 16) (s : State) : Host.Outcome State Fault Refusal :=
  .next (s.done (s.chip.writeFence tag.toNat))

/-- PROLOGUE (R37). -/
def execPrologue (tag : BitVec 16) (s : State) : Host.Outcome State Fault Refusal :=
  .next (s.done (s.chip.windowPrologue tag.toNat))

/-- WINDOW_START (R37). -/
def execWindowStart (tag : BitVec 16) (s : State) : Host.Outcome State Fault Refusal :=
  .next (s.done (s.chip.windowStart tag.toNat))

/-- WINDOW_END (R37). -/
def execWindowEnd (tag : BitVec 16) (s : State) : Host.Outcome State Fault Refusal :=
  .next (s.done (s.chip.windowEnd tag.toNat))

/-- BARRIER_RETIRE (R29). -/
def execBarrierRetire (tag : BitVec 16) (s : State) : Host.Outcome State Fault Refusal :=
  .next (s.done (s.chip.barrierRetire tag.toNat))

/-- SCHEDULED_OP_START (R38). -/
def execScheduledOpStart (s : State) : Host.Outcome State Fault Refusal :=
  .next (s.done (s.chip.scheduledStart))

/-- SCHEDULED_OP_END (R38). -/
def execScheduledOpEnd (result : OpEnd) (s : State) : Host.Outcome State Fault Refusal :=
  .next (s.done (s.chip.scheduledEnd (match result with | .done => 0 | .failed m => m.toNat)))

/-- DEBT_MAX_REACHED (R44). -/
def execDebtMaxReached (k : Fin 5) (level accrual : Nat) (s : State) : Host.Outcome State Fault Refusal :=
  .next (s.done (s.chip.debtReport k level accrual))

/-- DEBT_OVERRUN (R45). -/
def execDebtOverrun (k : Fin 5) (level accrual : Nat) (s : State) : Host.Outcome State Fault Refusal :=
  .next (s.done (s.chip.debtReport k level accrual))

/-- FORCED_REPAYMENT_END (R44). -/
def execForcedRepaymentEnd (k : Fin 5) (level accrual : Nat) (s : State) : Host.Outcome State Fault Refusal :=
  .next (s.done (s.chip.debtReport k level accrual))

/-- ABSORB_SPACE_FREED (R48, R263): what waits for absorb or reserve space is tried again, oldest first. -/
def execAbsorbSpaceFreed (s : State) : Host.Outcome State Fault Refusal :=
  .next (s.done (s.chip.rerun (fun w => decide (w.why = .absorb ∨ w.why = .reserve))))

end Sys2Proof.Machine
end

