-- ==== Sys2Proof/Machine/Dispatch.lean ====
section
/-!
DEFINITION. Machine/Dispatch.lean: one arm per command of the opcode table.
-/
namespace Sys2Proof.Machine

def exec (i : Instr) (s : State) : Host.Outcome State Fault Refusal :=
  match i with
  | .tbSyncFrame frame rateKhz intervalKhz => Sys2Proof.Machine.execTbSyncFrame frame rateKhz intervalKhz s
  | .frameMissed => Sys2Proof.Machine.execFrameMissed s
  | .tbClkLost => Sys2Proof.Machine.execTbClkLost s
  | .holdoverExpired => Sys2Proof.Machine.execHoldoverExpired s
  | .slewEnd => Sys2Proof.Machine.execSlewEnd s
  | .windowsPost src record => Sys2Proof.Machine.execWindowsPost src record s
  | .timelineApertureWrite src off data => Sys2Proof.Machine.execTimelineApertureWrite src off data s
  | .cancelWindow src tag epoch => Sys2Proof.Machine.execCancelWindow src tag epoch s
  | .writeFence tag => Sys2Proof.Machine.execWriteFence tag s
  | .prologue tag => Sys2Proof.Machine.execPrologue tag s
  | .windowStart tag => Sys2Proof.Machine.execWindowStart tag s
  | .windowEnd tag => Sys2Proof.Machine.execWindowEnd tag s
  | .barrierRetire tag => Sys2Proof.Machine.execBarrierRetire tag s
  | .scheduledOpStart => Sys2Proof.Machine.execScheduledOpStart s
  | .scheduledOpEnd result => Sys2Proof.Machine.execScheduledOpEnd result s
  | .debtMaxReached k level accrual => Sys2Proof.Machine.execDebtMaxReached k level accrual s
  | .debtOverrun k level accrual => Sys2Proof.Machine.execDebtOverrun k level accrual s
  | .absorbSpaceFreed => Sys2Proof.Machine.execAbsorbSpaceFreed s
  | .counterSnapshotDue => Sys2Proof.Machine.execCounterSnapshotDue s
  | .dumpWriteOut => Sys2Proof.Machine.execDumpWriteOut s
  | .headTrained h width rate flit cxl => Sys2Proof.Machine.execHeadTrained h width rate flit cxl s
  | .headLinkDown h => Sys2Proof.Machine.execHeadLinkDown h s
  | .headLost h => Sys2Proof.Machine.execHeadLost h s
  | .headLinkUp h => Sys2Proof.Machine.execHeadLinkUp h s
  | .memRead h tag dla mv obs => Sys2Proof.Machine.execMemRead h tag dla mv obs s
  | .memWrite h tag dla mv mask data poison whole obs => Sys2Proof.Machine.execMemWrite h tag dla mv mask data poison whole obs s
  | .memCleanEvict h tag dla => Sys2Proof.Machine.execMemCleanEvict h tag dla s
  | .biSnoopResponse h dla rsp => Sys2Proof.Machine.execBiSnoopResponse h dla rsp s
  | .biConflict h dla => Sys2Proof.Machine.execBiConflict h dla s
  | .hdmDecoderCommit h dec base len ways bi => Sys2Proof.Machine.execHdmDecoderCommit h dec base len ways bi s
  | .offerTimeout ext => Sys2Proof.Machine.execOfferTimeout ext s
  | .getEventRecords h log => Sys2Proof.Machine.execGetEventRecords h log s
  | .clearEventRecords h log n => Sys2Proof.Machine.execClearEventRecords h log n s
  | .getEventInterruptPolicy h => Sys2Proof.Machine.execGetEventInterruptPolicy h s
  | .setEventInterruptPolicy h policy => Sys2Proof.Machine.execSetEventInterruptPolicy h policy s
  | .getFwInfo h => Sys2Proof.Machine.execGetFwInfo h s
  | .transferFw h seq length version sigOk => Sys2Proof.Machine.execTransferFw h seq length version sigOk s
  | .activateFw h => Sys2Proof.Machine.execActivateFw h s
  | .getTimestamp h => Sys2Proof.Machine.execGetTimestamp h s
  | .setTimestamp h t => Sys2Proof.Machine.execSetTimestamp h t s
  | .getSupportedLogs h => Sys2Proof.Machine.execGetSupportedLogs h s
  | .getLog h offset length => Sys2Proof.Machine.execGetLog h offset length s
  | .identifyMemoryDevice h => Sys2Proof.Machine.execIdentifyMemoryDevice h s
  | .getHealthInfo h => Sys2Proof.Machine.execGetHealthInfo h s
  | .getPoisonList h range => Sys2Proof.Machine.execGetPoisonList h range s
  | .injectPoison h dla => Sys2Proof.Machine.execInjectPoison h dla s
  | .clearPoison h dla data => Sys2Proof.Machine.execClearPoison h dla data s
  | .getDcConfiguration h => Sys2Proof.Machine.execGetDcConfiguration h s
  | .getDcExtentList h => Sys2Proof.Machine.execGetDcExtentList h s
  | .addDcResponse h exts => Sys2Proof.Machine.execAddDcResponse h exts s
  | .releaseDc h exts => Sys2Proof.Machine.execReleaseDc h exts s
  | .unsupportedOpcode h opcode => Sys2Proof.Machine.execUnsupportedOpcode h opcode s
  | .dictionaryRead h input => Sys2Proof.Machine.execDictionaryRead h input s
  | .dictionaryWrite h input => Sys2Proof.Machine.execDictionaryWrite h input s
  | .postWindow h input => Sys2Proof.Machine.execPostWindow h input s
  | .postWindowBatch h input => Sys2Proof.Machine.execPostWindowBatch h input s
  | .getFailoverRecord h input => Sys2Proof.Machine.execGetFailoverRecord h input s
  | .ideKeyProgram h stream => Sys2Proof.Machine.execIdeKeyProgram h stream s
  | .ideIntegrityFailure h stream => Sys2Proof.Machine.execIdeIntegrityFailure h stream s
  | .perstAssert port => Sys2Proof.Machine.execPerstAssert port s
  | .headHotReset h flr => Sys2Proof.Machine.execHeadHotReset h flr s
  | .gpfPhase1 => Sys2Proof.Machine.execGpfPhase1 s
  | .gpfPhase2 => Sys2Proof.Machine.execGpfPhase2 s
  | .caskCreate src c => Sys2Proof.Machine.execCaskCreate src c s
  | .caskQuiesce src c => Sys2Proof.Machine.execCaskQuiesce src c s
  | .caskQuiesced c => Sys2Proof.Machine.execCaskQuiesced c s
  | .caskQuiesceTimeout c => Sys2Proof.Machine.execCaskQuiesceTimeout c s
  | .caskResume src c => Sys2Proof.Machine.execCaskResume src c s
  | .caskReset src c => Sys2Proof.Machine.execCaskReset src c s
  | .caskResetComplete c => Sys2Proof.Machine.execCaskResetComplete c s
  | .caskRemove src c => Sys2Proof.Machine.execCaskRemove src c s
  | .caskAbortQuiesce src c => Sys2Proof.Machine.execCaskAbortQuiesce src c s
  | .caskLogClearOverflow src c => Sys2Proof.Machine.execCaskLogClearOverflow src c s
  | .caskPasidWrite src c v => Sys2Proof.Machine.execCaskPasidWrite src c v s
  | .logEnableWrite src c v => Sys2Proof.Machine.execLogEnableWrite src c v s
  | .accessEdit src v => Sys2Proof.Machine.execAccessEdit src v s
  | .accessTableWrite src target table => Sys2Proof.Machine.execAccessTableWrite src target table s
  | .discardPage src dla => Sys2Proof.Machine.execDiscardPage src dla s
  | .deferredDiscard page => Sys2Proof.Machine.execDeferredDiscard page s
  | .mapRecordRepair page found => Sys2Proof.Machine.execMapRecordRepair page found s
  | .caskDomainWrite src c d => Sys2Proof.Machine.execCaskDomainWrite src c d s
  | .domainForm src d => Sys2Proof.Machine.execDomainForm src d s
  | .domainReform src d => Sys2Proof.Machine.execDomainReform src d s
  | .domainRecall src d => Sys2Proof.Machine.execDomainRecall src d s
  | .domainDisband src d => Sys2Proof.Machine.execDomainDisband src d s
  | .recallComplete d => Sys2Proof.Machine.execRecallComplete d s
  | .crdS l retry p obs => Sys2Proof.Machine.execCrdS l retry p obs s
  | .crdE l retry p obs => Sys2Proof.Machine.execCrdE l retry p obs s
  | .crdCur l retry p obs => Sys2Proof.Machine.execCrdCur l retry p obs s
  | .cwb l p obs => Sys2Proof.Machine.execCwb l p obs s
  | .cev l p => Sys2Proof.Machine.execCev l p s
  | .cwr l retry p obs => Sys2Proof.Machine.execCwr l retry p obs s
  | .crel l p => Sys2Proof.Machine.execCrel l p s
  | .srspI l p obs => Sys2Proof.Machine.execSrspI l p obs s
  | .srspS l p obs => Sys2Proof.Machine.execSrspS l p obs s
  | .srspID l p obs => Sys2Proof.Machine.execSrspID l p obs s
  | .srspSD l p obs => Sys2Proof.Machine.execSrspSD l p obs s
  | .srspCurD l p obs => Sys2Proof.Machine.execSrspCurD l p obs s
  | .snoopDeadlineMiss a dla => Sys2Proof.Machine.execSnoopDeadlineMiss a dla s
  | .pullDeadlineMiss l => Sys2Proof.Machine.execPullDeadlineMiss l s
  | .heatDecayPass => Sys2Proof.Machine.execHeatDecayPass s
  | .freeSpaceLow tier => Sys2Proof.Machine.execFreeSpaceLow tier s
  | .migrationStart slot page tier dst => Sys2Proof.Machine.execMigrationStart slot page tier dst s
  | .copyPassEnd slot => Sys2Proof.Machine.execCopyPassEnd slot s
  | .swing slot => Sys2Proof.Machine.execSwing slot s
  | .sourceRelease slot => Sys2Proof.Machine.execSourceRelease slot s
  | .journalSpaceFreed => Sys2Proof.Machine.execJournalSpaceFreed s
  | .journalDrain n checkpoint => Sys2Proof.Machine.execJournalDrain n checkpoint s
  | .mapRebuild bad => Sys2Proof.Machine.execMapRebuild bad s
  | .mapResidentWrite src r v => Sys2Proof.Machine.execMapResidentWrite src r v s
  | .mapResidentEffect r => Sys2Proof.Machine.execMapResidentEffect r s
  | .mirrorWaitExpiry page => Sys2Proof.Machine.execMirrorWaitExpiry page s
  | .chanOnline src n => Sys2Proof.Machine.execChanOnline src n s
  | .chanEvacuate src n => Sys2Proof.Machine.execChanEvacuate src n s
  | .evacuationComplete n => Sys2Proof.Machine.execEvacuationComplete n s
  | .chanOffline src n => Sys2Proof.Machine.execChanOffline src n s
  | .chanCancelEvacuate src n => Sys2Proof.Machine.execChanCancelEvacuate src n s
  | .retire src v => Sys2Proof.Machine.execRetire src v s
  | .retireComplete blocked => Sys2Proof.Machine.execRetireComplete blocked s
  | .extentOffer src region cask group ext => Sys2Proof.Machine.execExtentOffer src region cask group ext s
  | .extentWithdraw src region ext => Sys2Proof.Machine.execExtentWithdraw src region ext s
  | .extentRequestRelease src region ext => Sys2Proof.Machine.execExtentRequestRelease src region ext s
  | .extentForceRelease src region ext => Sys2Proof.Machine.execExtentForceRelease src region ext s
  | .blockStorageFree blk => Sys2Proof.Machine.execBlockStorageFree blk s
  | .expansionComplete page => Sys2Proof.Machine.execExpansionComplete page s
  | .repackStart slot page loc => Sys2Proof.Machine.execRepackStart slot page loc s
  | .spaceAvailable page => Sys2Proof.Machine.execSpaceAvailable page s
  | .spaceWaitExpiry page => Sys2Proof.Machine.execSpaceWaitExpiry page s
  | .caskKeyBlobLoad src c blob => Sys2Proof.Machine.execCaskKeyBlobLoad src c blob s
  | .zeroise src c => Sys2Proof.Machine.execZeroise src c s
  | .eraseWalkEnd c => Sys2Proof.Machine.execEraseWalkEnd c s
  | .zeroiseAll src v => Sys2Proof.Machine.execZeroiseAll src v s
  | .keyRebuild key blobOk seedbankOk => Sys2Proof.Machine.execKeyRebuild key blobOk seedbankOk s
  | .ownerRootProgram src root => Sys2Proof.Machine.execOwnerRootProgram src root s
  | .debugClose src v => Sys2Proof.Machine.execDebugClose src v s
  | .linkSlotBlobLoad src l slot blob => Sys2Proof.Machine.execLinkSlotBlobLoad src l slot blob s
  | .switchKey src l v => Sys2Proof.Machine.execSwitchKey src l v s
  | .cacheFlush src v => Sys2Proof.Machine.execCacheFlush src v s
  | .cleanerWriteback dla => Sys2Proof.Machine.execCleanerWriteback dla s
  | .scratchClear src u => Sys2Proof.Machine.execScratchClear src u s
  | .scratchWaysWrite src n => Sys2Proof.Machine.execScratchWaysWrite src n s
  | .wayEligible dla => Sys2Proof.Machine.execWayEligible dla s
  | .streamPrefetch master dla killed obs => Sys2Proof.Machine.execStreamPrefetch master dla killed obs s
  | .hbmRefresh pc => Sys2Proof.Machine.execHbmRefresh pc s
  | .ddrRefresh ch load => Sys2Proof.Machine.execDdrRefresh ch load s
  | .dimmTempPoll ch temp => Sys2Proof.Machine.execDimmTempPoll ch temp s
  | .hbmTempChange temp => Sys2Proof.Machine.execHbmTempChange temp s
  | .ddrAlert ch err retries cleared => Sys2Proof.Machine.execDdrAlert ch err retries cleared s
  | .freezeLimitExpiry ch => Sys2Proof.Machine.execFreezeLimitExpiry ch s
  | .ddrRelease src ch => Sys2Proof.Machine.execDdrRelease src ch s
  | .ddrRetrainRelease src ch passed => Sys2Proof.Machine.execDdrRetrainRelease src ch passed s
  | .ddrDeclareLost src ch => Sys2Proof.Machine.execDdrDeclareLost src ch s
  | .resilver ch granule => Sys2Proof.Machine.execResilver ch granule s
  | .ddrFreqRequest src v => Sys2Proof.Machine.execDdrFreqRequest src v s
  | .helperWritePattern src args => Sys2Proof.Machine.execHelperWritePattern src args s
  | .helperReadCompare src args => Sys2Proof.Machine.execHelperReadCompare src args s
  | .helperSweep src args => Sys2Proof.Machine.execHelperSweep src args s
  | .helperSetDelay src args => Sys2Proof.Machine.execHelperSetDelay src args s
  | .helperMrw src args => Sys2Proof.Machine.execHelperMrw src args s
  | .helperMrr src args => Sys2Proof.Machine.execHelperMrr src args s
  | .helperComplete run => Sys2Proof.Machine.execHelperComplete run s
  | .persistReserveWrite src v => Sys2Proof.Machine.execPersistReserveWrite src v s
  | .pageWrite prog page why ch loc obs => Sys2Proof.Machine.execPageWrite prog page why ch loc obs s
  | .programComplete prog verified => Sys2Proof.Machine.execProgramComplete prog verified s
  | .mediaAlert ch what => Sys2Proof.Machine.execMediaAlert ch what s
  | .programSuspend prog => Sys2Proof.Machine.execProgramSuspend prog s
  | .programResume prog => Sys2Proof.Machine.execProgramResume prog s
  | .programAbort prog loc => Sys2Proof.Machine.execProgramAbort prog loc s
  | .mediaRescue dla decoded => Sys2Proof.Machine.execMediaRescue dla decoded s
  | .witnessSweep ch block best => Sys2Proof.Machine.execWitnessSweep ch block best s
  | .rekiln ch block age => Sys2Proof.Machine.execRekiln ch block age s
  | .retentionExceeded ch block age => Sys2Proof.Machine.execRetentionExceeded ch block age s
  | .reclaim ch block => Sys2Proof.Machine.execReclaim ch block s
  | .blockClose ch block openHours => Sys2Proof.Machine.execBlockClose ch block openHours s
  | .kilnFormat src ch => Sys2Proof.Machine.execKilnFormat src ch s
  | .persistFlushEnd => Sys2Proof.Machine.execPersistFlushEnd s
  | .scrubWrite dla => Sys2Proof.Machine.execScrubWrite dla s
  | .patrolRead dla res => Sys2Proof.Machine.execPatrolRead dla res s
  | .patrolOverdue tier => Sys2Proof.Machine.execPatrolOverdue tier s
  | .poolZero pool n => Sys2Proof.Machine.execPoolZero pool n s
  | .countHalving => Sys2Proof.Machine.execCountHalving s
  | .retlogPersist => Sys2Proof.Machine.execRetlogPersist s
  | .tsBlock l block => Sys2Proof.Machine.execTsBlock l block s
  | .trainingStepTimeout l => Sys2Proof.Machine.execTrainingStepTimeout l s
  | .dataFlit l flit => Sys2Proof.Machine.execDataFlit l flit s
  | .controlFlit l flit => Sys2Proof.Machine.execControlFlit l flit s
  | .nak l n => Sys2Proof.Machine.execNak l n s
  | .credit l group limits => Sys2Proof.Machine.execCredit l group limits s
  | .creditRd l limit => Sys2Proof.Machine.execCreditRd l limit s
  | .creditWb l limit => Sys2Proof.Machine.execCreditWb l limit s
  | .changeReq l id width speed reason => Sys2Proof.Machine.execChangeReq l id width speed reason s
  | .changeAck l id => Sys2Proof.Machine.execChangeAck l id s
  | .changeDefer l id => Sys2Proof.Machine.execChangeDefer l id s
  | .changeRefuse l id => Sys2Proof.Machine.execChangeRefuse l id s
  | .changeGo l id seq => Sys2Proof.Machine.execChangeGo l id seq s
  | .downRecord l cause => Sys2Proof.Machine.execDownRecord l cause s
  | .changeReqTimeout l => Sys2Proof.Machine.execChangeReqTimeout l s
  | .changeTimeout l => Sys2Proof.Machine.execChangeTimeout l s
  | .changeComplete l width speed => Sys2Proof.Machine.execChangeComplete l width speed s
  | .replayTimeout l parity => Sys2Proof.Machine.execReplayTimeout l parity s
  | .lossOfSignal l => Sys2Proof.Machine.execLossOfSignal l s
  | .autoRetrain l => Sys2Proof.Machine.execAutoRetrain l s
  | .creditRefresh l => Sys2Proof.Machine.execCreditRefresh l s
  | .up src l => Sys2Proof.Machine.execUp src l s
  | .down src l => Sys2Proof.Machine.execDown src l s
  | .change src l => Sys2Proof.Machine.execChange src l s
  | .rd l p obs => Sys2Proof.Machine.execRd l p obs s
  | .wr l p obs => Sys2Proof.Machine.execWr l p obs s
  | .wrc l p => Sys2Proof.Machine.execWrc l p s
  | .append l p obs => Sys2Proof.Machine.execAppend l p obs s
  | .fold l p => Sys2Proof.Machine.execFold l p s
  | .fence l p => Sys2Proof.Machine.execFence l p s
  | .evt l p => Sys2Proof.Machine.execEvt l p s
  | .tbe l p => Sys2Proof.Machine.execTbe l p s
  | .load src q => Sys2Proof.Machine.execLoad src q s
  | .disable src q => Sys2Proof.Machine.execDisable src q s
  | .writeback src q => Sys2Proof.Machine.execWriteback src q s
  | .doorbellWrite src q off data => Sys2Proof.Machine.execDoorbellWrite src q off data s
  | .stateWaitRelease q => Sys2Proof.Machine.execStateWaitRelease q s
  | .start src ch => Sys2Proof.Machine.execStart src ch s
  | .stop src ch => Sys2Proof.Machine.execStop src ch s
  | .channelStopped ch => Sys2Proof.Machine.execChannelStopped ch s
  | .resume src ch => Sys2Proof.Machine.execResume src ch s
  | .skip src ch => Sys2Proof.Machine.execSkip src ch s
  | .clear src ch => Sys2Proof.Machine.execClear src ch s
  | .descriptorFetch ch obs => Sys2Proof.Machine.execDescriptorFetch ch obs s
  | .burstIssue ch n obs => Sys2Proof.Machine.execBurstIssue ch n obs s
  | .burstDurable ch b => Sys2Proof.Machine.execBurstDurable ch b s
  | .eventPulse src line => Sys2Proof.Machine.execEventPulse src line s
  | .evtInEdge pin => Sys2Proof.Machine.execEvtInEdge pin s
  | .evtOutEnd pin => Sys2Proof.Machine.execEvtOutEnd pin s
  | .foldAliasWrite h tag dla mask data poison => Sys2Proof.Machine.execFoldAliasWrite h tag dla mask data poison s
  | .foldAliasRead h tag dla obs => Sys2Proof.Machine.execFoldAliasRead h tag dla obs s
  | .foldFence h tag dla read => Sys2Proof.Machine.execFoldFence h tag dla read s
  | .foldFenceDone h obs => Sys2Proof.Machine.execFoldFenceDone h obs s
  | .lineFold n obs => Sys2Proof.Machine.execLineFold n obs s
  | .appendWaitExpiry l => Sys2Proof.Machine.execAppendWaitExpiry l s
  | .appendRoom l obs => Sys2Proof.Machine.execAppendRoom l obs s
  | .windowCmdRead h idx sub offset length => Sys2Proof.Machine.execWindowCmdRead h idx sub offset length s
  | .windowCmdWrite h idx sub offset length buffer => Sys2Proof.Machine.execWindowCmdWrite h idx sub offset length buffer s
  | .windowCmdWriteFinal h idx sub offset length buffer => Sys2Proof.Machine.execWindowCmdWriteFinal h idx sub offset length buffer s
  | .pieceTimeout idx sub => Sys2Proof.Machine.execPieceTimeout idx sub s
  | .reqRead node t rest => Sys2Proof.Machine.execReqRead node t rest s
  | .reqWrite node t rest => Sys2Proof.Machine.execReqWrite node t rest s
  | .writeInit node t rest => Sys2Proof.Machine.execWriteInit node t rest s
  | .writeSeg node t rest => Sys2Proof.Machine.execWriteSeg node t rest s
  | .readSeg node t rest => Sys2Proof.Machine.execReadSeg node t rest s
  | .reqAbort node t rest => Sys2Proof.Machine.execReqAbort node t rest s
  | .reqReserved node cmd t rest => Sys2Proof.Machine.execReqReserved node cmd t rest s
  | .transferTimeout => Sys2Proof.Machine.execTransferTimeout s
  | .heartbeatRequest node rest => Sys2Proof.Machine.execHeartbeatRequest node rest s
  | .alarmResend node rest => Sys2Proof.Machine.execAlarmResend node rest s
  | .heartbeatTimer => Sys2Proof.Machine.execHeartbeatTimer s
  | .offer node rest => Sys2Proof.Machine.execOffer node rest s
  | .chainInAssert us => Sys2Proof.Machine.execChainInAssert us s
  | .addressConflict node => Sys2Proof.Machine.execAddressConflict node s
  | .busOff => Sys2Proof.Machine.execBusOff s
  | .busRecovery => Sys2Proof.Machine.execBusRecovery s
  | .restoreDefaults src v => Sys2Proof.Machine.execRestoreDefaults src v s
  | .objectWrite src idx sub value => Sys2Proof.Machine.execObjectWrite src idx sub value s
  | .seedbankAppend kind key payload verified => Sys2Proof.Machine.execSeedbankAppend kind key payload verified s
  | .compaction => Sys2Proof.Machine.execCompaction s
  | .protectSet src v => Sys2Proof.Machine.execProtectSet src v s
  | .recallEnd ms dieOk flips imageA imageB entropyOk => Sys2Proof.Machine.execRecallEnd ms dieOk flips imageA imageB entropyOk s
  | .sentryPowerOnReset => Sys2Proof.Machine.execSentryPowerOnReset s
  | .sentryWake smp => Sys2Proof.Machine.execSentryWake smp s
  | .seatPinEdge seatA seatB => Sys2Proof.Machine.execSeatPinEdge seatA seatB s
  | .seatTimerExpiry => Sys2Proof.Machine.execSeatTimerExpiry s
  | .precheckEnd rise current diode => Sys2Proof.Machine.execPrecheckEnd rise current diode s
  | .cooldownMet => Sys2Proof.Machine.execCooldownMet s
  | .rampEnd vout vbus => Sys2Proof.Machine.execRampEnd vout vbus s
  | .rampTimeout vout => Sys2Proof.Machine.execRampTimeout vout s
  | .enhanceDone vgs => Sys2Proof.Machine.execEnhanceDone vgs s
  | .enhanceTimeout => Sys2Proof.Machine.execEnhanceTimeout s
  | .gateLowInOn => Sys2Proof.Machine.execGateLowInOn s
  | .currentSample smp => Sys2Proof.Machine.execCurrentSample smp s
  | .curveTrip k => Sys2Proof.Machine.execCurveTrip k s
  | .instantTrip current => Sys2Proof.Machine.execInstantTrip current s
  | .overTempTrip => Sys2Proof.Machine.execOverTempTrip s
  | .brownout vout => Sys2Proof.Machine.execBrownout vout s
  | .retryClear secs => Sys2Proof.Machine.execRetryClear secs s
  | .unseat => Sys2Proof.Machine.execUnseat s
  | .feedInvalid f mv => Sys2Proof.Machine.execFeedInvalid f mv s
  | .feedValid f mv => Sys2Proof.Machine.execFeedValid f mv s
  | .commandedTrip src v => Sys2Proof.Machine.execCommandedTrip src v s
  | .chipPowerOn slot build unstable => Sys2Proof.Machine.execChipPowerOn slot build unstable s
  | .railLoss => Sys2Proof.Machine.execRailLoss s
  | .train src => Sys2Proof.Machine.execTrain src s
  | .trainingEnd ddr nvm => Sys2Proof.Machine.execTrainingEnd ddr nvm s
  | .trainLimitExpiry ddr nvm => Sys2Proof.Machine.execTrainLimitExpiry ddr nvm s
  | .configure src => Sys2Proof.Machine.execConfigure src s
  | .drain src => Sys2Proof.Machine.execDrain src s
  | .drainStepComplete => Sys2Proof.Machine.execDrainStepComplete s
  | .resumeMode src => Sys2Proof.Machine.execResumeMode src s
  | .update src => Sys2Proof.Machine.execUpdate src s
  | .exitUpdate src => Sys2Proof.Machine.execExitUpdate src s
  | .chipReset src flushed => Sys2Proof.Machine.execChipReset src flushed s
  | .domainOff src n => Sys2Proof.Machine.execDomainOff src n s
  | .domainRetention src n => Sys2Proof.Machine.execDomainRetention src n s
  | .domainOn src n => Sys2Proof.Machine.execDomainOn src n s
  | .domainChangeEnd n ddr nvm => Sys2Proof.Machine.execDomainChangeEnd n ddr nvm s
  | .padRelease src v => Sys2Proof.Machine.execPadRelease src v s
  | .faultClear src v => Sys2Proof.Machine.execFaultClear src v s
  | .faultEdit src v => Sys2Proof.Machine.execFaultEdit src v s
  | .faultIntegrityScan ok => Sys2Proof.Machine.execFaultIntegrityScan ok s
  | .lockstepMismatch => Sys2Proof.Machine.execLockstepMismatch s
  | .dumpNow src v => Sys2Proof.Machine.execDumpNow src v s
  | .dumpRecordsWrite src v => Sys2Proof.Machine.execDumpRecordsWrite src v s
  | .dumpScheduleWrite src period v => Sys2Proof.Machine.execDumpScheduleWrite src period v s
  | .filterWrite src idx sub value => Sys2Proof.Machine.execFilterWrite src idx sub value s
  | .tapReset => Sys2Proof.Machine.execTapReset s
  | .extest => Sys2Proof.Machine.execExtest s
  | .idcode => Sys2Proof.Machine.execIdcode s
  | .sample pins => Sys2Proof.Machine.execSample pins s
  | .preload cells => Sys2Proof.Machine.execPreload cells s
  | .clamp => Sys2Proof.Machine.execClamp s
  | .highz => Sys2Proof.Machine.execHighz s
  | .bypass code => Sys2Proof.Machine.execBypass code s
  | .tbClkRestored => Sys2Proof.Machine.execTbClkRestored s
  | .forcedRepaymentEnd k level accrual => Sys2Proof.Machine.execForcedRepaymentEnd k level accrual s
  | .sentryPowerLoss => Sys2Proof.Machine.execSentryPowerLoss s
  | .oringReverse f feed vbus => Sys2Proof.Machine.execOringReverse f feed vbus s
  | .wearAllowanceRestored => Sys2Proof.Machine.execWearAllowanceRestored s

end Sys2Proof.Machine
end

