-- ==== Sys2Proof/Machine/Step.lean ====
section
/-!
DEFINITION. Machine/Step.lean: one step takes the command at the front of the queue; on an empty queue one TC cycle passes (log entry 3).
-/
namespace Sys2Proof.Machine

/-- One TC cycle with no command: TC advances (R10, R16), and the oldest queued ALARM goes out (R475). -/
def idle (s : State) : State := s.done s.chip.tick.sendAlarm

/-- One step: the front command's effect, with the queue's rest; on an empty queue, one TC cycle. -/
def step (s : State) : Host.Outcome State Fault Refusal :=
  match s.pending with
  | [] => .next (idle s)
  | c :: r => exec c { s with pending := r }

/-- `s` with the command that a word spells put at the front of its queue; `s` where it spells none. -/
def State.withFetchWord (s : State) (nbits w : Nat) : State :=
  match decodeTableWord nbits w with
  | some c => { s with pending := c :: s.pending }
  | none => s

end Sys2Proof.Machine
end

