-- ==== Sys2Proof/Safety.lean ====
section
/-!
DEFINITION. Safety.lean: the terms that the statements use: the parts of the device, two devices that differ in named parts only, a command
that answers with a given effect, and what every state of the machine keeps.
-/
namespace Sys2Proof.Machine

/-- The parts of the device: one for each field of `Chip`. -/
inductive Part where
  | tb | win | rw | rwp | accBad | fault | cnt | heads | bifur | map | mem | poison | macs | waits | casks | coh | lauter | mill | husk | cache | dram | kiln | integ | links | hop | fold | dict | field | sb | power | mode | pkg | free
  deriving DecidableEq, Repr

/-- Two devices agree on a part. -/
def Part.same (p : Part) (a b : Chip) : Prop :=
  match p with
  | .tb => a.tb = b.tb
  | .win => a.win = b.win
  | .rw => a.rw = b.rw
  | .rwp => a.rwp = b.rwp
  | .accBad => a.accBad = b.accBad
  | .fault => a.fault = b.fault
  | .cnt => a.cnt = b.cnt
  | .heads => a.heads = b.heads
  | .bifur => a.bifur = b.bifur
  | .map => a.map = b.map
  | .mem => a.mem = b.mem
  | .poison => a.poison = b.poison
  | .macs => a.macs = b.macs
  | .waits => a.waits = b.waits
  | .casks => a.casks = b.casks
  | .coh => a.coh = b.coh
  | .lauter => a.lauter = b.lauter
  | .mill => a.mill = b.mill
  | .husk => a.husk = b.husk
  | .cache => a.cache = b.cache
  | .dram => a.dram = b.dram
  | .kiln => a.kiln = b.kiln
  | .integ => a.integ = b.integ
  | .links => a.links = b.links
  | .hop => a.hop = b.hop
  | .fold => a.fold = b.fold
  | .dict => a.dict = b.dict
  | .field => a.field = b.field
  | .sb => a.sb = b.sb
  | .power => a.power = b.power
  | .mode => a.mode = b.mode
  | .pkg => a.pkg = b.pkg
  | .free => a.free = b.free

/-- Two devices agree on every part but those named: the frame of an effect. -/
def Frame (touched : List Part) (a b : Chip) : Prop := ∀ p : Part, p ∉ touched → p.same a b

/-- The command answers a next state, and its own effect on the device is `c`: what follows of it is `Chip.finish`. The test access
port and the queue stay as they are. -/
def Effect (i : Instr) (s : State) (c : Chip) : Prop := exec i s = .next (s.done c)

/-- Head `h` is answered by its mailbox with a return code and an output (R66): the command completes, its vector 0 is signalled (R55), and
of the rest of the device only the named parts may differ. -/
def Replies (i : Instr) (s : State) (h : Fin 4) (rc : MboxRc) (out : MboxOut) (parts : List Part) : Prop :=
  ∃ c : Chip, Effect i s c ∧ (c.head h).mbox.rc = rc ∧ (c.head h).mbox.out = out ∧ bitOf (c.head h).msix 0 = true ∧ Frame parts c s.chip

/-- The keys at rest are whole (R204, R220): the three copies of the HBM key agree, and no cask's keys are in FAULT. -/
abbrev KeysHold (s : Chip) : Prop := s.husk.hbmOff = [] ∧ s.casks.all (fun e => decide (e.2.keyState ≠ .fault)) = true

/-- Nothing keeps a write to the line at `a.dla` from its cache way: nothing waits, no copy of a map record is known to be damaged (R83), its
page is written, and neither held, repaired nor expanded, its cask's key is there (R223), the keys are whole, its policy is write-back
(R238), and the line is cached in a way that is online, and not poisoned. -/
abbrev CachedWrite (s : Chip) (a : Access) : Prop :=
  a.kind = .write ∧ a.bind ≠ .raw ∧ (s.srcRec (pageNo a.dla)).st ≠ .unwritten ∧ (s.page (pageNo a.dla)).st ≠ .poisoned
    ∧ s.map.repairing = [] ∧ s.keyAbsent a = false ∧ s.held (pageNo a.dla) = false ∧ s.mill.expanding = [] ∧ s.policyOf a.dla = 0
    ∧ (Tab.find s.cache.lines (lineNo a.dla)).isSome = true ∧ s.poisoned a.dla = false
    ∧ KeysHold s ∧ s.waits = [] ∧ s.map.badRecs = [] ∧ s.wayOffline a.dla = false

/-- Every byte of device memory that bound masters read is the same. -/
def SameMemory (a b : Chip) : Prop := ∀ x : Nat, Tab.get 0 a.mem x = Tab.get 0 b.mem x

/-- The configuration keeps every object's value. -/
def SameConfig (a b : Chip) : Prop := ∀ k : Nat, a.cfg k = b.cfg k

/-- The checks let an access of `n` bytes go on. -/
def Gate.goes (g : Gate) (n : Nat) : Bool := match g with | .go i => decide (i.size = n) | _ => false

/-- A dictionary write of `n` bytes to `idx:sub` over `src` passes steps 1 to 9 of R460: the path is up, the checks let it go on, no
sequence of pieces holds the object (R456), the field port has no segmented transfer in progress (R472), and a PASID that the request carries
is bound to an ACTIVE cask (R95). -/
abbrev Accepts (s : Chip) (src : Src) (idx sub n : Nat) : Prop :=
  s.dictUp src = true ∧ (s.gate (srcMaster src) idx sub true).goes n = true ∧ s.seqOf (objKey idx sub) = none
    ∧ (src = .field → s.field.xfer = none) ∧ s.pasidDenied (srcPasid src) = false

/-- The field port has sent one more frame: a RSP frame of its own node with a command code, a toggle bit, the object and `d`, and zeros
to a data length that CAN FD has (R466 to R468). -/
def Answered (c s : Chip) (cmd : Nat) (t : Bool) (idx sub : Nat) (d : List Byte) : Prop :=
  ∃ pad : Nat, c.field.sent = s.field.sent
    ++ [⟨0xA, s.field.addr, [BitVec.ofNat 8 (cmd + 64 * t.toNat)] ++ bytesLE 2 idx ++ bytesLE 1 sub ++ d ++ List.replicate pad 0⟩]

/-- The pass FET of `b` has tripped with code `code` (R514 to R516): the record names the lowest of the causes present, PG_OUT is low, a
retryable trip counts towards the latch, and the sources are raised. -/
def Trips (t b : Chip) (code : Nat) : Prop :=
  let causes := b.tripCauses code
  let c := lowestCause causes
  let retry := decide (1 ≤ c ∧ c ≤ 5)
  let spent := retry && decide (b.sreg Obj.powerRetryMax ≤ b.power.retries)
  t.power = { b.power with
    st := if spent || decide (c = 6) then .latched else .tripped
    pg := false
    trip := b.tripRec (if spent then setBit causes 10 true else causes) ((b.curveOut.head?.getD 0) + 1)
    tripCount := wrap32 (b.power.tripCount + 1)
    vgsUs := 0
    retries := if retry then b.power.retries + 1 else b.power.retries
    cooldown := b.power.cooldown || retry || decide (c = 9)
    noRetry := decide (c = 9)
    exhausted := spent }
  ∧ t.sticky 179 = true ∧ (c = 6 → t.sticky 181 = true) ∧ (spent = true → t.sticky 180 = true)
  ∧ Frame [.power, .mode, .fault, .heads, .field] t b

/-- What the test access port keeps: the IDCODE instruction shows the identification register, the cells drive the pins under EXTEST
and CLAMP alone, and the pins float under HIGHZ alone (R584). -/
def Tap.Ok (t : Tap) : Prop :=
  (t.instr = .idcode → t.dr = 0x1847225F ∧ t.drLen = 32) ∧ (t.driving = true ↔ t.instr = .extest ∨ t.instr = .clamp)
    ∧ (t.floating = true ↔ t.instr = .highz)

/-- What a reset of CORE takes away (R539): every register, buffer, table, queue and counter of the domains but SENTRY is at its reset
value. The media's pages stand; no page is in HBM or DDR5 (R325). -/
def Cold (t : Chip) : Prop :=
  t.tb = { clk := t.tb.clk } ∧ t.win = {} ∧ t.rw = [] ∧ t.rwp = [] ∧ t.accBad = [] ∧ t.cnt = {} ∧ t.heads = [] ∧ t.bifur = 0
    ∧ t.waits = [] ∧ t.casks = [] ∧ t.coh = {} ∧ t.mill = { pages := t.mill.pages } ∧ t.cache = {} ∧ t.dram = {} ∧ t.links = [] ∧ t.hop = {} ∧ t.fold = {}
    ∧ t.dict = {} ∧ t.field = { chainIn := t.field.chainIn } ∧ t.husk.linkSlots = [] ∧ t.husk.active = 0
    ∧ t.kiln.absorbed = [] ∧ t.kiln.progs = [] ∧ t.lauter.slots = [] ∧ t.lauter.journal = [] ∧ t.lauter.chan = []
    ∧ (∀ p : Nat, (t.page p).st ≠ .hbm ∧ (t.page p).st ≠ .ddr)

/-- Seedbank's die after a reset: the records, the sectors, the images, the protection level and the allowance are as they were. -/
def SameDie (t s : Chip) : Prop :=
  t.sb = { recs := s.sb.recs, sectors := s.sb.sectors, imgA := s.sb.imgA, imgB := s.sb.imgB, protect := s.sb.protect
           allowance := s.sb.allowance }

end Sys2Proof.Machine
end

