-- ==== Sys2Proof/Certificates/Slice0/Obligations.lean ====
section
/-!
DEFINITION. Certificates/Slice0/Obligations.lean: the statements for the provers. A statement names a command's own effect by `Effect`; what
settling adds to it is `Chip.finish` (log entry 124), and `CalmDeviceSettlesAtOnce` says when that is nothing.
-/

open Sys2Proof
open Sys2Proof.Machine

/-- Frames set TC and the epoch, measure the rate, and count what is wrong.
Behind it stand choices of the model: log entries 31, 32, 33, 139. -/
def Obligations.FramePairsSetTheTimebase : Prop :=
  (∀ (s : State) (f : BitVec 112) (rate : Nat) (interval : Option Nat),
      frameValid f rate = true
      → s.chip.tb.state = .unlocked
      → 65536 ≤ frameTc f
      → s.chip.tb.prev = some (frameTc f - 65536, frameEpoch f)
      → interval ≠ some 0
      → ∃ c, Effect (.tbSyncFrame f rate interval) s c ∧ c.tb.state = .locked ∧ c.tb.tc = (frameTc f + 111) % 2 ^ 64
        ∧ c.tb.epoch = frameEpoch f ∧ c.tb.measuredKhz = interval.getD (if s.chip.tb.measuredKhz = 0 then rate else s.chip.tb.measuredKhz) ∧ c.tb.misses = 0 ∧ Frame [.tb] c s.chip)
  ∧ (∀ (s : State) (f : BitVec 112) (rate : Nat),
      frameValid f rate = true
      → s.chip.tb.state = .locked
      → 65536 ≤ frameTc f
      → s.chip.tb.prev = some (frameTc f - 65536, frameEpoch f)
      → frameEpoch f = s.chip.tb.epoch
      → s.chip.tb.tc < (frameTc f + 111) % 2 ^ 64
      → (frameTc f + 111) % 2 ^ 64 - s.chip.tb.tc ≤ 2 ^ 32
      → s.chip.win.pending = []
      → ∃ c, Effect (.tbSyncFrame f rate none) s c ∧ c.tb.tc = (frameTc f + 111) % 2 ^ 64 ∧ c.tb.state = .locked
        ∧ c.tb.realigns = s.chip.tb.realigns + 1 ∧ c.tb.epoch = s.chip.tb.epoch ∧ Frame [.tb, .fault, .heads, .field] c s.chip)
  ∧ (∀ (s : State) (f : BitVec 112) (rate : Nat),
      frameValid f rate = true
      → s.chip.tb.state = .locked
      → 65536 ≤ frameTc f
      → s.chip.tb.prev = some (frameTc f - 65536, frameEpoch f)
      → frameEpoch f = s.chip.tb.epoch
      → (frameTc f + 111) % 2 ^ 64 < s.chip.tb.tc
      → s.chip.tb.tc - (frameTc f + 111) % 2 ^ 64 ≤ 2 ^ 20
      → s.chip.tb.ahead = 0
      → ∃ c, Effect (.tbSyncFrame f rate none) s c ∧ c.tb.tc = s.chip.tb.tc ∧ c.tb.state = .locked
        ∧ c.tb.ahead = s.chip.tb.tc - (frameTc f + 111) % 2 ^ 64 ∧ Frame [.tb, .fault, .heads, .field] c s.chip)
  ∧ (∀ (s : State) (f : BitVec 112) (rate : Nat) (interval : Option Nat),
      frameCrc f ≠ frameCrcOf f
      → s.chip.tb.state = .unlocked
      → Effect (.tbSyncFrame f rate interval) s { s.chip with tb := { s.chip.tb with crcErrors := s.chip.tb.crcErrors + 1, prev := none, clk := s.chip.tb.clk && decide (49000 ≤ rate ∧ rate ≤ 408000) } })

/-- Missed frames, the loss of TB_CLK and the holdover limit move the timebase states.
Behind it stand choices of the model: log entry 16. -/
def Obligations.TimebaseStatesFollowMissesAndTheClock : Prop :=
  (∀ (s : State),
      s.chip.tb.state = .locked
      → s.chip.tb.tc % 65536 = 111
      → s.chip.tb.lastDue ≠ some (s.chip.tb.tc / 65536)
      → s.chip.tb.misses + 1 ≤ s.chip.cfg Obj.timebaseMissLimit
      → Effect .frameMissed s { s.chip with tb := { s.chip.tb with misses := s.chip.tb.misses + 1, lastDue := some (s.chip.tb.tc / 65536) } })
  ∧ (∀ (s : State),
      s.chip.tb.state = .locked
      → s.chip.tb.tc % 65536 = 111
      → s.chip.tb.lastDue ≠ some (s.chip.tb.tc / 65536)
      → s.chip.cfg Obj.timebaseMissLimit < s.chip.tb.misses + 1
      → ∃ c, Effect .frameMissed s c ∧ c.tb.state = .holdover ∧ c.tb.tc = s.chip.tb.tc ∧ c.sticky 0 = true ∧ Frame [.tb, .fault, .heads, .field] c s.chip)
  ∧ (∀ (s : State),
      s.chip.tb.state = .locked
      → ∃ c, Effect .tbClkLost s c ∧ c.tb = { s.chip.tb with state := .holdover, clk := false, prev := none } ∧ c.sticky 0 = true
        ∧ Frame [.tb, .fault, .heads, .field] c s.chip)
  ∧ (∀ (s : State),
      Effect .tbClkRestored s { s.chip with tb := { s.chip.tb with clk := true } })
  ∧ (∀ (s : State),
      s.chip.tb.state = .holdover
      → ∃ c, Effect .holdoverExpired s c ∧ c.tb = { s.chip.tb with state := .expired } ∧ c.sticky 1 = true ∧ Frame [.tb, .fault, .heads, .field] c s.chip)
  ∧ (∀ (s : State),
      s.chip.tb.slewing = true
      → s.chip.tb.ahead = 0
      → s.chip.tb.state = .locked
      → Effect .slewEnd s { s.chip with tb := { s.chip.tb with slewing := false, edge := 0, misses := 0 } })
  ∧ (∀ (s : State),
      (s.chip.tb.tc % 65536 ≠ 111 ∨ s.chip.tb.state = .unlocked)
      → Effect .frameMissed s s.chip)
  ∧ (∀ (s : State),
      s.chip.tb.ahead ≠ 0
      → Effect .slewEnd s s.chip)

/-- A posted window record is decided in order, and its result word is kept for the master.
Behind it stand choices of the model: log entry 131. -/
def Obligations.PostingDecidesAndKeepsTheResult : Prop :=
  (∀ (s : State) (src : Src) (v : BitVec 256),
      Accepts s.chip src 0x4010 1 32
      → (postRec v.toNat).zero = true
      → (postRec v.toNat).cls ≠ 4
      → (s.chip.decidePost (postRec v.toNat)).1 = Post.accepted
      → Effect (.windowsPost src v) s (Chip.answerWrite { s.chip with win := { s.chip.win with
          pending := s.chip.win.pending ++ [s.chip.asWindow (postRec v.toNat)]
          results := Tab.put 0 s.chip.win.results (srcMaster src) (resultWord (s.chip.decidePost (postRec v.toNat)) (postRec v.toNat).tag (s.chip.win.pending.length + 1)) } }
        src 0x4010 1 (bytesLE 32 v.toNat) 0))
  ∧ (∀ (s : State) (src : Src) (v : BitVec 256),
      Accepts s.chip src 0x4010 1 32
      → (postRec v.toNat).zero = true
      → (s.chip.decidePost (postRec v.toNat)).1 ≠ Post.accepted
      → Effect (.windowsPost src v) s (Chip.answerWrite { s.chip with win := { s.chip.win with
          results := Tab.put 0 s.chip.win.results (srcMaster src) (resultWord (s.chip.decidePost (postRec v.toNat)) (postRec v.toNat).tag s.chip.win.pending.length) } }
        src 0x4010 1 (bytesLE 32 v.toNat) 0))
  ∧ (∀ (s : State) (h : Fin 4) (d : List Byte),
      s.chip.serving = true
      → (s.chip.head h).state = .active
      → s.chip.rightDamaged 0x504 h = false
      → s.chip.mayPost h = true
      → d.length = 32
      → (postRec (natLE d)).cls ≠ 4
      → (s.chip.decidePost (postRec (natLE d))).1 = Post.accepted
      → Effect (.timelineApertureWrite (.cxl h) 0 d) s { s.chip with win := { s.chip.win with
          pending := s.chip.win.pending ++ [s.chip.asWindow (postRec (natLE d))]
          results := Tab.put 0 s.chip.win.results h (resultWord (s.chip.decidePost (postRec (natLE d))) (postRec (natLE d)).tag (s.chip.win.pending.length + 1)) } })
  ∧ (∀ (s : State) (src : Src) (tag epoch : BitVec 16) (w : Window),
      Accepts s.chip src 0x4010 1 32
      → s.chip.mode.current = .service
      → s.chip.tb.state = .locked
      → epoch.toNat = s.chip.tb.epoch
      → s.chip.win.pending.find? (fun w => decide (w.tag = tag.toNat)) = some w
      → w.cls = .opn
      → w.active = false
      → ∃ c, Effect (.cancelWindow src tag epoch) s (c.answerWrite src 0x4010 1 (bytesLE 32 (cancelRecord tag.toNat epoch.toNat)) 0)
        ∧ c.win.pending = s.chip.win.pending.filter (fun v => decide (v.tag ≠ tag.toNat))
        ∧ c.resultOf (srcMaster src) = resultWord (Post.accepted, 0xFF, 0) tag.toNat c.win.pending.length ∧ Frame [.win] c s.chip)
  ∧ (∀ (s : State) (ch : Fin 64) (off : BitVec 12) (d : List Byte),
      ∃ c, Effect (.timelineApertureWrite (.hopper ch) off d) s c ∧ c.win.pending = s.chip.win.pending ∧ c.resultOf (0x20 + ch) = 0
        ∧ c.sticky 34 = true ∧ Frame [.win, .fault, .heads, .field] c s.chip)
  ∧ (∀ (s : State) (src : Src) (v : BitVec 256),
      Accepts s.chip src 0x4010 1 32
      → (postRec v.toNat).zero = false
      → Effect (.windowsPost src v) s (s.chip.answerWrite src 0x4010 1 (bytesLE 32 v.toNat) Abort.outOfRange))

/-- Fence, prologue, start, end and retirement of pending windows.
Behind it stand choices of the model: log entries 34, 134. -/
def Obligations.WindowEdgesTakeEffectOnTime : Prop :=
  (∀ (s : State) (tag : BitVec 16) (w : Window),
      s.chip.win.pending.find? (fun w => decide (w.tag = tag.toNat)) = some w
      → w.active = false
      → w.fenced = false
      → w.cls = .burst
      → s.chip.follows w = false
      → s.chip.passedBy w.start (w.fence + 2) = true
      → ∃ c, Effect (.writeFence tag) s c ∧ c.win.fenceOn = true ∧ c.win.pending.length = s.chip.win.pending.length
        ∧ (∀ e ∈ c.dram.ddr, e.2.freeze = 0 → 0 ≤ e.2.balance) ∧ Frame [.win, .dram] c s.chip)
  ∧ (∀ (s : State) (tag : BitVec 16) (w : Window),
      s.chip.win.pending.find? (fun w => decide (w.tag = tag.toNat)) = some w
      → w.active = false
      → w.prologued = false
      → w.cls = .burst
      → s.chip.follows w = false
      → s.chip.passedBy w.start (w.prologue + 2) = true
      → ∃ c, Effect (.prologue tag) s c ∧ c.win.prologueOn = true ∧ c.win.pending.length = s.chip.win.pending.length
        ∧ c.kiln.progs = s.chip.suspendPrograms.kiln.progs ∧ Frame [.win, .kiln] c s.chip)
  ∧ (∀ (s : State) (tag : BitVec 16) (w : Window),
      s.chip.win.pending.find? (fun w => decide (w.tag = tag.toNat)) = some w
      → w.active = false
      → w.cls ≠ .barrier
      → w.evtStart = false
      → s.chip.passedBy w.start 2 = true
      → s.chip.tb.tc < w.stop
      → s.chip.window = none
      → ∃ c, Effect (.windowStart tag) s c ∧ { w with active := true } ∈ c.win.pending ∧ c.win.pending.length = s.chip.win.pending.length ∧ Frame [.win] c s.chip)
  ∧ (∀ (s : State) (tag : BitVec 16) (w : Window),
      s.chip.win.pending.find? (fun w => decide (w.tag = tag.toNat) && w.active) = some w
      → w.cls ≠ .burst
      → w.evtEnd = false
      → s.chip.passedBy w.stop 2 = true
      → Effect (.windowEnd tag) s { s.chip with win := { s.chip.win with
          pending := s.chip.win.pending.filter (fun v => decide (v.tag ≠ tag.toNat)) } })
  ∧ (∀ (s : State) (tag : BitVec 16) (w : Window),
      s.chip.win.pending.find? (fun w => decide (w.tag = tag.toNat) && w.active) = some w
      → w.cls = .burst
      → w.evtEnd = false
      → s.chip.passedBy w.stop 2 = true
      → ∃ c, Effect (.windowEnd tag) s c ∧ c.win.pending = s.chip.win.pending.filter (fun v => decide (v.tag ≠ tag.toNat))
        ∧ c.win.forced = s.chip.win.forced ||| s.chip.win.overrun ∧ c.win.overrun = 0 ∧ Frame [.win, .dram, .kiln] c s.chip)
  ∧ (∀ (s : State) (tag : BitVec 16) (w : Window),
      s.chip.win.pending.find? (fun w => decide (w.tag = tag.toNat)) = some w
      → w.active = false
      → w.cls = .barrier
      → w.start ≤ s.chip.tb.tc
      → w.evtStart = false
      → w.evtEnd = false
      → s.chip.barrierClear w.start = true
      → Effect (.barrierRetire tag) s { s.chip with win := { s.chip.win with
          pending := s.chip.win.pending.filter (fun v => decide (v.tag ≠ tag.toNat)), barriers := s.chip.win.barriers + 1 } })

/-- Scheduled operations start and end one at a time; debts are published and repaid.
Behind it stand choices of the model: log entries 29, 108, 122, 129, 157. -/
def Obligations.ScheduledOperationsAndDebts : Prop :=
  (∀ (s : State) (o : SchedOp) (r : List SchedOp),
      s.chip.win.ops = o :: r
      → s.chip.opReady = true
      → s.chip.opStill o.kind = true
      → Effect .scheduledOpStart s (Chip.opBegin { s.chip with win := { s.chip.win with ops := r, running := some { o with since := s.chip.tb.tc } } } o.kind))
  ∧ (∀ (s : State) (o : SchedOp) (r : List SchedOp),
      s.chip.win.ops = o :: r
      → s.chip.opReady = true
      → s.chip.opStill o.kind = false
      → Effect .scheduledOpStart s { s.chip with win := { s.chip.win with ops := r } })
  ∧ (∀ (s : State) (o : SchedOp) (m : BitVec 8),
      s.chip.win.running = some o
      → (s.chip.opWork o.kind).opDone o.kind = true
      → Effect (.scheduledOpEnd (.failed m)) s (Chip.opEffect { s.chip.opWork o.kind with win := { (s.chip.opWork o.kind).win with running := none } } o.kind m.toNat)
        ∧ Effect (.scheduledOpEnd .done) s (Chip.opEffect { s.chip.opWork o.kind with win := { (s.chip.opWork o.kind).win with running := none } } o.kind 0))
  ∧ (∀ (s : State) (o : SchedOp) (k d : Nat),
      s.chip.win.running = some o
      → o.kind = .caskDomain k d
      → s.chip.caskClear k = true
      → s.chip.assignCode k d = 0
      → ∃ u, Effect (.scheduledOpEnd .done) s (u.rerouteCask k) ∧ u.win.running = none
        ∧ u.cfg Obj.cohCaskDomain = setField (s.chip.cfg Obj.cohCaskDomain) (8 * k) 8 d ∧ Frame [.win, .rw] u s.chip)
  ∧ (∀ (s : State) (k : Fin 5) (level accrual : Nat),
      k.val ≠ 1
      → s.chip.inBurst = false
      → 0 < s.chip.cfgAt Obj.windowsDebtMax k
      → s.chip.cfgAt Obj.windowsDebtMax k ≤ level
      → Effect (.debtMaxReached k level accrual) s { s.chip with win := { s.chip.win with
          debtLevel := Tab.put 0 s.chip.win.debtLevel k level, debtAccrual := (if k.val = 3 then s.chip.win.debtAccrual else Tab.put 0 s.chip.win.debtAccrual k accrual)
          debtRest := Tab.put 0 s.chip.win.debtRest k 0
          forced := setBit s.chip.win.forced k true } })
  ∧ (∀ (s : State) (k : Fin 5) (level accrual : Nat),
      k.val ≠ 1
      → s.chip.inBurst = true
      → 0 < s.chip.cfgAt Obj.windowsDebtMax k
      → s.chip.cfgAt Obj.windowsDebtMax k < level
      → bitOf s.chip.win.overrun k = false
      → Effect (.debtOverrun k level accrual) s { s.chip with win := { s.chip.win with
          debtLevel := Tab.put 0 s.chip.win.debtLevel k level, debtAccrual := (if k.val = 3 then s.chip.win.debtAccrual else Tab.put 0 s.chip.win.debtAccrual k accrual)
          debtRest := Tab.put 0 s.chip.win.debtRest k 0
          debtOverruns := Tab.upd 0 s.chip.win.debtOverruns k (· + 1), overrun := setBit s.chip.win.overrun k true } })
  ∧ (∀ (s : State) (k : Fin 5) (level accrual : Nat),
      k.val ≠ 1
      → 2 * level ≤ s.chip.cfgAt Obj.windowsDebtMax k
      → Effect (.forcedRepaymentEnd k level accrual) s { s.chip with win := { s.chip.win with
          debtLevel := Tab.put 0 s.chip.win.debtLevel k level, debtAccrual := (if k.val = 3 then s.chip.win.debtAccrual else Tab.put 0 s.chip.win.debtAccrual k accrual)
          debtRest := Tab.put 0 s.chip.win.debtRest k 0
          forced := setBit s.chip.win.forced k false } })
  ∧ (∀ (s : State) (w : Wait),
      (s.chip.waits.filter (fun w => decide (w.why = .absorb ∨ w.why = .reserve)) = [w])
      → Effect .absorbSpaceFreed s (Chip.below { s.chip with waits := s.chip.waits.filter (fun w => !decide (w.why = .absorb ∨ w.why = .reserve)) }
        w.acc { w.obs with keyBad := false } false |>.keepTc (s.chip.waits.filter (fun w => !decide (w.why = .absorb ∨ w.why = .reserve))).length w.tc))
  ∧ (∀ (s : State) (level accrual : Nat),
      Effect (.debtMaxReached 1 level accrual) s (s.chip.debtCheck 1) ∧ Effect (.debtOverrun 1 level accrual) s (s.chip.debtCheck 1)
        ∧ Effect (.forcedRepaymentEnd 1 level accrual) s (s.chip.debtCheck 1))

/-- Heads train, go into detection, are lost, come back and are reset.
Behind it stand choices of the model: log entries 17, 88, 96. -/
def Obligations.HeadsTrainFailOverAndReset : Prop :=
  (∀ (s : State) (h : Fin 4) (width rate : Nat) (flit : Fin 4),
      s.chip.headPresent h = true
      → s.chip.domain (headDomain h) = .on
      → (width = 4 ∨ width = 8 ∨ width = 16)
      → width ≤ s.chip.headLanes h
      → 16 ≤ rate
      → s.chip.trainedOk rate flit true = true
      → s.chip.waits.all (fun w => decide (w.why ≠ .detect)) = true
      → (s.chip.head h).owed = []
      → Effect (.headTrained h width rate flit true) s (s.chip.setHead h { s.chip.head h with width := width, rate := rate, flit := flit, state := .active, detect := false }))
  ∧ (∀ (s : State) (h : Fin 4),
      (s.chip.head h).state = .active
      → Effect (.headLinkDown h) s (s.chip.setHead h { s.chip.head h with detect := true }))
  ∧ (∀ (s : State) (h : Fin 4),
      (s.chip.head h).state = .active
      → (s.chip.head h).detect = true
      → s.chip.waits.all (fun w => decide (w.why ≠ .detect)) = true
      → (s.chip.head h).owed = []
      → Effect (.headLinkUp h) s (s.chip.setHead h { s.chip.head h with detect := false }))
  ∧ (∀ (s : State) (h n : Fin 4),
      (s.chip.head h).state = .active
      → (s.chip.head h).detect = true
      → n ≠ h
      → s.chip.headAgent n = s.chip.headAgent h
      → (s.chip.head n).state = .active
      → s.chip.coh.txns = []
      → ∃ c, Effect (.headLost h) s c ∧ (c.head h).state = .lost ∧ (c.head h).failovers = (s.chip.head h).failovers + 1
        ∧ (c.head h).failRec ≠ none ∧ c.sticky 17 = true ∧ c.mem = s.chip.mem)
  ∧ (∀ (s : State) (port : Fin 2) (h : Fin 4),
      h.val / 2 = port.val
      → ∃ c, Effect (.perstAssert port) s c ∧ (c.head h).mbox = {} ∧ (c.head h).bar2 = {} ∧ (c.head h).hdm = [] ∧ Frame [.heads] c s.chip)
  ∧ (∀ (s : State) (h : Fin 4),
      Effect (.headHotReset h true) s (s.chip.setHead h { s.chip.head h with mbox := {}, bar2 := {}, msix := 0 }))
  ∧ (∀ (s : State) (h stream : Fin 4) (contain : Bool),
      Effect (.ideKeyProgram h ⟨stream, contain⟩) s (s.chip.setHead h { s.chip.head h with
          ideKeyed := setBit (s.chip.head h).ideKeyed stream true, ideInsecure := setBit (s.chip.head h).ideInsecure stream false
          ideContain := (if stream.val = 0 then contain else (s.chip.head h).ideContain)
          flitsToMac := (if stream.val = 0 then 0 else (s.chip.head h).flitsToMac) }))
  ∧ (∀ (s : State) (h stream : Fin 4),
      stream ≠ 0
      → bitOf (s.chip.head h).ideKeyed stream = true
      → bitOf (s.chip.head h).ideInsecure stream = false
      → ∃ c, Effect (.ideIntegrityFailure h stream) s c ∧ bitOf (c.head h).ideInsecure stream = true ∧ c.sticky 19 = true
        ∧ (c.head h).state = (s.chip.head h).state ∧ Frame [.heads, .fault, .field] c s.chip)

/-- CXL.mem reads answer zeros for unwritten pages and the line for cached ones.
Behind it stand choices of the model: log entries 17, 41. -/
def Obligations.ReadsReturnWhatMemoryHolds : Prop :=
  (∀ (s : State) (h : Fin 4) (tag : BitVec 16) (dla : BitVec 46) (mv : Meta) (k : Nat),
      s.chip.memLive h = true
      → 0 < s.chip.readCredit h
      → (s.chip.head h).detect = false
      → dlaWin (lineBase dla.toNat) = .memory
      → s.chip.verdict ⟨h, .byDir, .read, lineBase dla.toNat, 0, 0, false, true, 0, .head h tag.toNat mv⟩ {} = .ok k
      → s.chip.assigning k = false
      → s.chip.caskDomain k = none
      → s.chip.inBurst = false
      → s.chip.waits = []
      → s.chip.map.badRecs = []
      → s.chip.wayOffline (lineBase dla.toNat) = false
      → (s.chip.page (pageNo (lineBase dla.toNat))).st = .unwritten
      → ∃ c, Effect (.memRead h tag dla mv {}) s c ∧ (c.head h).sent = (s.chip.head h).sent ++ [.data tag.toNat 0 false (decide (mv = .i))]
        ∧ Frame [.heads, .cnt, .map] c s.chip)
  ∧ (∀ (s : State) (h : Fin 4) (tag : BitVec 16) (dla : BitVec 46) (mv : Meta) (k : Nat) (e : CLine),
      s.chip.memLive h = true
      → 0 < s.chip.readCredit h
      → (s.chip.head h).detect = false
      → dlaWin (lineBase dla.toNat) = .memory
      → s.chip.verdict ⟨h, .byDir, .read, lineBase dla.toNat, 0, 0, false, true, 0, .head h tag.toNat mv⟩ {} = .ok k
      → s.chip.assigning k = false
      → s.chip.caskDomain k = none
      → s.chip.inBurst = false
      → s.chip.waits = []
      → s.chip.map.badRecs = []
      → s.chip.wayOffline (lineBase dla.toNat) = false
      → (s.chip.page (pageNo (lineBase dla.toNat))).st ≠ .poisoned
      → (s.chip.srcRec (pageNo (lineBase dla.toNat))).st ≠ .unwritten
      → s.chip.map.repairing = []
      → s.chip.keyAbsent ⟨h, .byDir, .read, lineBase dla.toNat, 0, 0, false, true, 0, .head h tag.toNat mv⟩ = false
      → Tab.find s.chip.cache.lines (lineNo (lineBase dla.toNat)) = some e
      → s.chip.poisoned (lineBase dla.toNat) = false
      → ∃ c, Effect (.memRead h tag dla mv {}) s c
        ∧ (c.head h).sent = (s.chip.head h).sent ++ [.data tag.toNat (s.chip.line dla.toNat) false (decide (mv = .i))]
        ∧ Frame [.heads, .cnt, .cache, .map] c s.chip)

/-- A CXL.mem write stores exactly its bytes and answers a completion.
Behind it stand choices of the model: log entries 17, 41. -/
def Obligations.WritesStoreTheirMaskedBytes : Prop :=
  ∀ (s : State) (h : Fin 4) (tag : BitVec 16) (dla : BitVec 46) (mv : Meta) (mask : BitVec 64) (data : Line) (k : Nat),
      s.chip.memLive h = true
      → dlaWin (lineBase dla.toNat) = .memory
      → s.chip.verdict ⟨h, .byDir, .write, lineBase dla.toNat, mask, data, false, true, 0, .head h tag.toNat mv⟩ {} = .ok k
      → s.chip.caskDomain k = none
      → CachedWrite s.chip ⟨h, .byDir, .write, lineBase dla.toNat, mask, data, false, true, 0, .head h tag.toNat mv⟩
      → s.chip.assigning k = false
      → (s.chip.head h).detect = false
      → ∃ c, Effect (.memWrite h tag dla mv mask data false true {}) s c
        ∧ c.line dla.toNat = mergeLine (s.chip.line dla.toNat) data mask
        ∧ (∀ a : Nat, a < lineBase dla.toNat ∨ lineBase dla.toNat + 64 ≤ a → Tab.get 0 c.mem a = Tab.get 0 s.chip.mem a)
        ∧ (c.head h).sent = (s.chip.head h).sent ++ [.cmp tag.toNat]
        ∧ Frame [.heads, .cnt, .mem, .macs, .poison, .integ, .cache, .lauter, .kiln, .dram, .map] c s.chip

/-- Evictions, snoop answers, conflicts, decoders, offers and the persistent flush.
Behind it stand choices of the model: log entries 48, 127. -/
def Obligations.HeadRequestsWithoutData : Prop :=
  (∀ (s : State) (h : Fin 4) (tag : BitVec 16) (dla : BitVec 46) (e : FilterEnt),
      s.chip.memLive h = true
      → s.chip.evictDenied h dla.toNat = false
      → s.chip.agentIsDead (s.chip.headAgent h) = false
      → (s.chip.head h).detect = false
      → s.chip.ent (lineNo dla.toNat) = some e
      → e.owner = some (s.chip.headAgent h)
      → s.chip.coh.txns = []
      → s.chip.coh.queue = []
      → s.chip.coh.devQueue = []
      → s.chip.coh.retrySince = 0
      → s.chip.homeIdle = true
      → ∃ c, Effect (.memCleanEvict h tag dla) s c ∧ c.ent (lineNo dla.toNat) = none ∧ (c.head h).sent = (s.chip.head h).sent ++ [.cmp tag.toNat]
        ∧ Frame [.coh, .heads, .cnt] c s.chip)
  ∧ (∀ (s : State) (h : Fin 4) (dla : BitVec 46) (rsp : BiRsp) (t : CohTxn),
      s.chip.memLive h = true
      → s.chip.agentIsDead (s.chip.headAgent h) = false
      → s.chip.snooped (s.chip.headAgent h) (lineNo dla.toNat) = some t
      → Effect (.biSnoopResponse h dla rsp) s (Chip.cohPump ((s.chip.modTxn (lineNo dla.toNat)
          (fun u => { u with owed := u.owed.filter (fun x => decide (x.agent ≠ s.chip.headAgent h)) })).keepCopy (s.chip.headAgent h) (lineNo dla.toNat)
          (if t.owed.any (fun x => decide (x.agent = s.chip.headAgent h ∧ x.kind = 0)) then 0 else match rsp with | .i => 0 | .s => 1 | .e => 2))))
  ∧ (∀ (s : State) (h : Fin 4) (dla : BitVec 46),
      (s.chip.head h).state = .active
      → s.chip.agentIsDead (s.chip.headAgent h) = false
      → (s.chip.head h).detect = false
      → ∃ c, Effect (.biConflict h dla) s c ∧ c = (s.chip.sendHead h (.conflictAck dla.toNat)).countHead h 9 1
        ∧ (c.head h).sent = (s.chip.head h).sent ++ [.conflictAck dla.toNat] ∧ Frame [.heads, .cnt] c s.chip)
  ∧ (∀ (s : State) (h : Fin 4) (dec : Fin 8) (base len : BitVec 64) (bi : Bool),
      (s.chip.head h).up = true
      → Effect (.hdmDecoderCommit h dec base len 1 bi) s (s.chip.setHead h { s.chip.head h with
          hdm := Tab.put {} (s.chip.head h).hdm dec ⟨base.toNat, len.toNat, true, false⟩, bi := bi }))
  ∧ (∀ (s : State) (h : Fin 4) (dec : Fin 8) (base len : BitVec 64) (ways : Nat) (bi : Bool),
      (s.chip.head h).up = true
      → ways ≠ 1
      → Effect (.hdmDecoderCommit h dec base len ways bi) s (s.chip.setHead h { s.chip.head h with
          hdm := Tab.put {} (s.chip.head h).hdm dec ⟨base.toNat, len.toNat, false, true⟩, bi := bi }))
  ∧ (∀ (s : State) (ext : Ext) (e : Extent),
      (s.chip.map.extents.find? (fun e => decide (e.base = ext.base.toNat ∧ e.len = ext.len.toNat ∧ e.st = .offered)) = some e)
      → ∃ c, Effect (.offerTimeout ext) s c ∧ c.map.extents = s.chip.map.extents.filter (fun x => decide (x ≠ e))
        ∧ Frame [.map, .lauter, .kiln, .casks] c s.chip)
  ∧ (∀ (s : State),
      Effect .gpfPhase1 s s.chip)
  ∧ (∀ (s : State),
      s.chip.mode.current = .service
      → s.chip.window = none
      → Effect .gpfPhase2 s { s.chip with kiln := { s.chip.kiln with gpfFlushes := s.chip.kiln.gpfFlushes + 1, flushing := true, gpf := true } })

/-- The mailbox’s reading commands answer what the device holds and change nothing else.
Behind it stand choices of the model: log entries 14, 115, 126. -/
def Obligations.MailboxReadsAnswerFromTheState : Prop :=
  ∀ (s : State) (h : Fin 4) (g : EvLog) (x : Ext) (b : Byte) (op : BitVec 16),
      s.chip.dictUp (.mailbox h) = true
      → Replies (.getEventRecords h g) s h .success (.events ((s.chip.head h).evLog (logIndex g)).recs ((s.chip.head h).evLog (logIndex g)).overflow ((s.chip.head h).evLog (logIndex g)).lost) [.heads, .cnt]
        ∧ Replies (.getEventInterruptPolicy h) s h .success (.policy (s.chip.head h).policy) [.heads, .cnt]
        ∧ Replies (.getFwInfo h) s h .success (.fwInfo s.chip.sb.boot s.chip.sb.imgA.version.toNat s.chip.sb.imgB.version.toNat) [.heads, .cnt]
        ∧ Replies (.getSupportedLogs h) s h .success .logs [.heads, .cnt]
        ∧ Replies (.identifyMemoryDevice h) s h .success (.identity 0 0) [.heads, .cnt]
        ∧ Replies (.getHealthInfo h) s h .success (.health s.chip.worst) [.heads, .cnt]
        ∧ Replies (.getDcConfiguration h) s h .success (.dcConfig ((List.range 8).map (fun r => (s.chip.cfgAt Obj.dcBase r, s.chip.cfgAt Obj.dcLength r, s.chip.cfgAt Obj.dcBlockMib r, s.chip.cfgAt Obj.dcFlags r)))) [.heads, .cnt]
        ∧ Replies (.getDcExtentList h) s h .success (.dcExtents ((s.chip.map.extents.filter (fun e => decide (e.st = .accepted ∧ e.group = s.chip.cfgAt Obj.headGroup h))).map (fun e => (e.base, e.len, e.cask)))) [.heads, .cnt]
        ∧ Replies (.getPoisonList h x) s h .success (.lines (((s.chip.poison.filter (fun e => e.2)).map (fun e => 64 * e.1)).filter (fun a => decide (x.base.toNat ≤ a ∧ a < x.base.toNat + x.len.toNat)))) [.heads, .cnt]
        ∧ Replies (.getFailoverRecord h [b]) s h .success (.bytes (failBytes b.toNat (if b.toNat < 4 then (s.chip.head b.toNat).failRec else none))) [.heads, .cnt]
        ∧ Replies (.unsupportedOpcode h op) s h .unsupported .none [.heads, .cnt]

/-- The mailbox’s writing commands: logs, policy, time, images, capacity.
Behind it stand choices of the model: log entries 14, 55, 56, 115. -/
def Obligations.MailboxSettingsAndImages : Prop :=
  (∀ (s : State) (h : Fin 4) (g : EvLog) (n : Nat),
      s.chip.dictUp (.mailbox h) = true
      → n ≤ ((s.chip.head h).evLog (logIndex g)).recs.length
      → ∃ c, Effect (.clearEventRecords h g n) s c ∧ ((c.head h).evLog (logIndex g)).recs = ((s.chip.head h).evLog (logIndex g)).recs.drop n
        ∧ (c.head h).mbox.rc = .success ∧ Frame [.heads, .cnt] c s.chip)
  ∧ (∀ (s : State) (h : Fin 4) (g : EvLog) (n : Nat),
      s.chip.dictUp (.mailbox h) = true
      → ((s.chip.head h).evLog (logIndex g)).recs.length < n
      → Replies (.clearEventRecords h g n) s h .invalidInput .none [.heads, .cnt])
  ∧ (∀ (s : State) (h : Fin 4) (p : BitVec 5),
      s.chip.dictUp (.mailbox h) = true
      → ∃ c, Effect (.setEventInterruptPolicy h p) s c ∧ (c.head h).policy = p ∧ (c.head h).mbox.rc = .success ∧ Frame [.heads, .cnt] c s.chip)
  ∧ (∀ (s : State) (h : Fin 4) (t : BitVec 64),
      s.chip.dictUp (.mailbox h) = true
      → ∃ c, Effect (.setTimestamp h t) s c ∧ (c.head h).stamp = t.toNat ∧ (c.head h).mbox.rc = .success ∧ Frame [.heads, .cnt] c s.chip)
  ∧ (∀ (s : State) (h : Fin 4),
      s.chip.dictUp (.mailbox h) = true
      → ∃ t : Nat, Replies (.getTimestamp h) s h .success (.time t) [.heads, .cnt, .free])
  ∧ (∀ (s : State) (h : Fin 4) (o l : BitVec 32),
      s.chip.dictUp (.mailbox h) = true
      → ∃ n : Nat, Replies (.getLog h o l) s h .success (.log n) [.heads, .cnt, .free])
  ∧ (∀ (s : State) (h : Fin 4) (seq length : BitVec 32) (version : BitVec 256),
      s.chip.dictUp (.mailbox h) = true
      → s.chip.may 0x501 h 3 = true
      → s.chip.otherProtected = false
      → s.chip.sb.st ≠ 2
      → 1 ≤ length.toNat
      → length.toNat ≤ 2097088
      → ∃ c, Effect (.transferFw h seq length version true) s c ∧ (c.head h).mbox.rc = .success
        ∧ (if s.chip.sb.boot = 0 then c.sb.imgB else c.sb.imgA) = ⟨.loaded, seq.toNat, length.toNat, version, true⟩ ∧ Frame [.heads, .cnt, .sb] c s.chip)
  ∧ (∀ (s : State) (h : Fin 4),
      s.chip.dictUp (.mailbox h) = true
      → s.chip.may 0x501 h 3 = true
      → s.chip.otherProtected = false
      → s.chip.otherImage.st = .loaded
      → ∃ c, Effect (.activateFw h) s c ∧ (c.head h).mbox.rc = .success
        ∧ (if s.chip.sb.boot = 0 then c.sb.imgB else c.sb.imgA) = { s.chip.otherImage with st := .activated, seq := wrap32 (s.chip.runningImage.seq + 1) }
        ∧ Frame [.heads, .cnt, .sb] c s.chip)
  ∧ (∀ (s : State) (h : Fin 4) (x : Ext) (e : Extent),
      s.chip.dictUp (.mailbox h) = true
      → (s.chip.map.extents.find? (fun e => decide (e.base = x.base.toNat ∧ e.len = x.len.toNat ∧ e.st = .offered ∧ e.group = s.chip.cfgAt Obj.headGroup h)) = some e)
      → ∃ c, Effect (.addDcResponse h [x]) s c ∧ { e with st := .accepted } ∈ c.map.extents ∧ (c.head h).mbox.rc = .success
        ∧ Frame [.map, .lauter, .kiln, .heads, .cnt] c s.chip)
  ∧ (∀ (s : State) (h : Fin 4) (x : Ext),
      s.chip.dictUp (.mailbox h) = true
      → (s.chip.map.extents.find? (fun e => decide (e.base = x.base.toNat ∧ e.len = x.len.toNat ∧ e.st = .offered ∧ e.group = s.chip.cfgAt Obj.headGroup h)) = none)
      → Replies (.addDcResponse h [x]) s h .invalidInput .none [.heads, .cnt])
  ∧ (∀ (s : State) (h : Fin 4) (x : Ext) (e : Extent),
      s.chip.dictUp (.mailbox h) = true
      → (s.chip.map.extents.find? (fun e => decide (e.base = x.base.toNat ∧ e.len = x.len.toNat ∧ e.st = .accepted ∧ e.group = s.chip.cfgAt Obj.headGroup h)) = some e)
      → s.chip.holdsTable e = false
      → ∃ c, Effect (.releaseDc h [x]) s c ∧ { e with st := .releasing } ∈ c.map.extents ∧ (c.head h).mbox.rc = .success
        ∧ Frame [.map, .lauter, .kiln, .cache, .heads, .cnt] c s.chip)

/-- The mailbox injects and clears poison, reads and writes the dictionary, and posts windows.
Behind it stand choices of the model: log entries 14, 116, 117. -/
def Obligations.MailboxPoisonAndVendorCommands : Prop :=
  (∀ (s : State) (h : Fin 4) (dla : BitVec 46) (k : Nat),
      s.chip.dictUp (.mailbox h) = true
      → s.chip.poisonCask h dla.toNat = some k
      → s.chip.may k h 3 = true
      → s.chip.extentOf (lineBase dla.toNat) ≠ none
      → ((s.chip.extentOf (lineBase dla.toNat)).all (fun e => decide (s.chip.caskDomain e.cask = none ∧ s.chip.assigning e.cask = false)) = true)
      → CachedWrite s.chip ⟨0x60, .byDir, .write, lineBase dla.toNat, fullMask, (s.chip.line dla.toNat), true, true, 0, .none⟩
      → ∃ c, Effect (.injectPoison h dla) s c ∧ c.line dla.toNat = (s.chip.line dla.toNat) ∧ c.poisoned (lineBase dla.toNat) = true ∧ (c.head h).mbox.rc = .success
        ∧ (∀ a : Nat, a < lineBase dla.toNat ∨ lineBase dla.toNat + 64 ≤ a → Tab.get 0 c.mem a = Tab.get 0 s.chip.mem a))
  ∧ (∀ (s : State) (h : Fin 4) (dla : BitVec 46) (d : Line) (k : Nat),
      s.chip.dictUp (.mailbox h) = true
      → s.chip.poisonCask h dla.toNat = some k
      → s.chip.may k h 3 = true
      → s.chip.extentOf (lineBase dla.toNat) ≠ none
      → ((s.chip.extentOf (lineBase dla.toNat)).all (fun e => decide (s.chip.caskDomain e.cask = none ∧ s.chip.assigning e.cask = false)) = true)
      → CachedWrite s.chip ⟨0x60, .byDir, .write, lineBase dla.toNat, fullMask, d, false, true, 0, .none⟩
      → ∃ c, Effect (.clearPoison h dla d) s c ∧ c.line dla.toNat = d ∧ c.poisoned (lineBase dla.toNat) = false ∧ (c.head h).mbox.rc = .success
        ∧ (∀ a : Nat, a < lineBase dla.toNat ∨ lineBase dla.toNat + 64 ≤ a → Tab.get 0 c.mem a = Tab.get 0 s.chip.mem a))
  ∧ (∀ (s : State) (h : Fin 4) (input : List Byte) (i : ObjInfo),
      s.chip.dictUp (.mailbox h) = true
      → input.length = 16
      → s.chip.gate h (inNat input 0 2) (inNat input 2 1) false = .go i
      → inNat input 4 4 < i.size
      → 0 < inNat input 8 2
      → inNat input 8 2 ≤ 4080
      → Effect (.dictionaryRead h input) s (Chip.mboxAnswer
        (s.chip.objBytes h (inNat input 0 2) (inNat input 2 1) i.size (inNat input 4 4) (min (inNat input 8 2) (i.size - inNat input 4 4))).2 h 0xC000 .success
        (.bytes (bytesLE 4 0 ++ bytesLE 4 i.size
          ++ bytesLE 2 (s.chip.objBytes h (inNat input 0 2) (inNat input 2 1) i.size (inNat input 4 4) (min (inNat input 8 2) (i.size - inNat input 4 4))).1.length
          ++ bytesLE 1 i.ty.code ++ List.replicate 5 0
          ++ (s.chip.objBytes h (inNat input 0 2) (inNat input 2 1) i.size (inNat input 4 4) (min (inNat input 8 2) (i.size - inNat input 4 4))).1))))
  ∧ (∀ (s : State) (h : Fin 4) (input : List Byte),
      Accepts s.chip (.mailbox h) (inNat input 0 2) (inNat input 2 1) (inNat input 8 2)
      → input.length = 16 + inNat input 8 2
      → inNat input 4 4 = 0
      → bitOf (inNat input 3 1) 0 = true
      → 0 < inNat input 8 2
      → inNat input 8 2 ≤ 4080
      → Effect (.dictionaryWrite h input) s (Chip.mboxAnswer (s.chip.writeValue h (inNat input 0 2) (inNat input 2 1) (natLE (input.drop 16))).2 h 0xC001 .success
        (.bytes (bytesLE 4 (s.chip.writeValue h (inNat input 0 2) (inNat input 2 1) (natLE (input.drop 16))).1))))
  ∧ (∀ (s : State) (h : Fin 4) (input : List Byte),
      s.chip.dictUp (.mailbox h) = true
      → input.length = 32
      → s.chip.mayPost h = true
      → Effect (.postWindow h input) s (Chip.mboxAnswer (s.chip.postWindow h (natLE input)) h 0xC010 .success
        (.bytes (bytesLE 8 ((s.chip.postWindow h (natLE input)).resultOf h)))))
  ∧ (∀ (s : State) (h : Fin 4) (input : List Byte),
      s.chip.dictUp (.mailbox h) = true
      → input.length = 8 + 32 * inNat input 0 2
      → 1 ≤ inNat input 0 2
      → inNat input 0 2 ≤ 64
      → ∃ (words : List Nat) (c : Chip),
        s.chip.postAll h ((List.range (inNat input 0 2)).map (fun i => (input.drop (8 + 32 * i)).take 32)) = (words, c)
        ∧ Effect (.postWindowBatch h input) s (c.mboxAnswer h 0xC011 .success
            (.bytes (bytesLE 2 words.length ++ List.replicate 6 0 ++ words.flatMap (bytesLE 8)))))

/-- The BAR2 window, whole writes over every path, and sequences of pieces.
Behind it stand choices of the model: log entries 106, 109, 110. -/
def Obligations.DictionaryPathsWriteAndRead : Prop :=
  (∀ (s : State) (h : Fin 4) (idx : BitVec 16) (sub : BitVec 8) (off n : BitVec 32) (i : ObjInfo),
      s.chip.dictUp (.bar2 h) = true
      → s.chip.gate h idx.toNat sub.toNat false = .go i
      → off.toNat < i.size
      → 1 ≤ n.toNat
      → n.toNat ≤ 4096
      → ∃ (d : List Byte) (t c : Chip), s.chip.objBytes h idx.toNat sub.toNat i.size off.toNat (min n.toNat (i.size - off.toNat)) = (d, t)
        ∧ Effect (.windowCmdRead h idx sub off n) s c ∧ c = t.bar2Answer h idx.toNat sub.toNat off.toNat n.toNat 0 i.size i.ty.code (some d.length) d
        ∧ (c.head h).bar2.abort = 0 ∧ (c.head h).bar2.len = d.length ∧ (c.head h).bar2.buffer.take d.length = d ∧ (c.head h).bar2.size = i.size
        ∧ Frame [.heads] c t)
  ∧ (∀ (s : State) (h : Fin 4) (idx : BitVec 16) (sub : BitVec 8) (n : BitVec 32) (buf : List Byte),
      Accepts s.chip (.bar2 h) idx.toNat sub.toNat n.toNat
      → 1 ≤ n.toNat
      → n.toNat ≤ 4080
      → buf.length = 4096
      → Effect (.windowCmdWriteFinal h idx sub 0 n buf) s (Chip.bar2Answer (s.chip.writeValue h idx.toNat sub.toNat (natLE (buf.take n.toNat))).2 h idx.toNat sub.toNat 0 n.toNat
        (s.chip.writeValue h idx.toNat sub.toNat (natLE (buf.take n.toNat))).1 (objShape idx.toNat sub.toNat).1 (objShape idx.toNat sub.toNat).2 none buf))
  ∧ (∀ (s : State) (h : Fin 4) (idx : BitVec 16) (sub : BitVec 8) (n : BitVec 32) (buf : List Byte) (i : ObjInfo),
      s.chip.dictUp (.bar2 h) = true
      → s.chip.gate h idx.toNat sub.toNat true = .go i
      → 1 ≤ n.toNat
      → n.toNat < i.size
      → n.toNat ≤ 4096
      → buf.length = 4096
      → s.chip.seqOf (objKey idx.toNat sub.toNat) = none
      → ∃ c, Effect (.windowCmdWrite h idx sub 0 n buf) s c
        ∧ c.dict.seqs = s.chip.dict.seqs ++ [⟨objKey idx.toNat sub.toNat, h, srcPath (.bar2 h), buf.take n.toNat⟩] ∧ (c.head h).bar2.abort = 0
        ∧ Frame [.dict, .heads] c s.chip)
  ∧ (∀ (s : State) (idx : BitVec 16) (sub : BitVec 8) (q : PieceSeq),
      s.chip.seqOf (objKey idx.toNat sub.toNat) = some q
      → s.chip.field.xfer = none
      → Effect (.pieceTimeout idx sub) s { s.chip with dict := { s.chip.dict with
          seqs := s.chip.dict.seqs.filter (fun q => decide (q.key ≠ objKey idx.toNat sub.toNat)), abandoned := wrap32 (s.chip.dict.abandoned + 1) } })
  ∧ (∀ (s : State) (src : Src) (idx : BitVec 16) (sub : BitVec 8) (value : List Byte),
      Accepts s.chip src idx.toNat sub.toNat value.length
      → 0 < value.length
      → value.length ≤ 4080
      → Effect (.objectWrite src idx sub value) s (Chip.answerWrite (s.chip.writeValue (srcMaster src) idx.toNat sub.toNat (natLE value)).2 src idx.toNat sub.toNat value
        (s.chip.writeValue (srcMaster src) idx.toNat sub.toNat (natLE value)).1))
  ∧ (∀ (s : State) (src : Src) (idx : BitVec 16) (sub : BitVec 8) (value : List Byte),
      s.chip.dictUp src = false
      → Effect (.objectWrite src idx sub value) s s.chip)
  ∧ (∀ (s : State) (src : Src) (v : BitVec 32),
      Accepts s.chip src 0x1010 1 4
      → v.toNat = 0x5EEDDEF0
      → ∃ (code : Nat) (c : Chip), Effect (.restoreDefaults src v) s (c.answerWrite src 0x1010 1 (bytesLE 4 v.toNat) code) ∧ SameConfig c s.chip
        ∧ Frame [.sb, .fault, .heads, .field] c s.chip)

/-- A field client reads and writes objects at once and in segments.
Behind it stand choices of the model: log entries 110, 111, 137. -/
def Obligations.FieldRequestsAnswer : Prop :=
  (∀ (s : State) (node : BitVec 7) (t : Bool) (rest : List Byte) (i : ObjInfo),
      s.chip.busUp = true
      → s.chip.field.addr ≠ 0
      → node.toNat = s.chip.field.addr
      → 3 ≤ rest.length
      → s.chip.field.xfer = none
      → s.chip.gate 0x70 (inNat rest 0 2) (inNat rest 2 1) false = .go i
      → 1 ≤ i.size
      → i.size ≤ 60
      → ∃ (d : List Byte) (u c : Chip), s.chip.objBytes 0x70 (inNat rest 0 2) (inNat rest 2 1) i.size 0 i.size = (d, u) ∧ Effect (.reqRead node t rest) s c
        ∧ Answered c u 0x01 false (inNat rest 0 2) (inNat rest 2 1) d ∧ c.field.xfer = u.field.xfer ∧ Frame [.field] c u)
  ∧ (∀ (s : State) (node : BitVec 7) (t : Bool) (rest : List Byte) (i : ObjInfo),
      s.chip.busUp = true
      → s.chip.field.addr ≠ 0
      → node.toNat = s.chip.field.addr
      → 3 ≤ rest.length
      → s.chip.field.xfer = none
      → s.chip.gate 0x70 (inNat rest 0 2) (inNat rest 2 1) false = .go i
      → 60 < i.size
      → i.size ≤ 4096
      → ∃ (d : List Byte) (u c : Chip), s.chip.objBytes 0x70 (inNat rest 0 2) (inNat rest 2 1) i.size 0 i.size = (d, u) ∧ Effect (.reqRead node t rest) s c
        ∧ Answered c u 0x06 false (inNat rest 0 2) (inNat rest 2 1) (bytesLE 4 i.size) ∧ c.field.xfer = some ⟨true, inNat rest 0 2, inNat rest 2 1, i.size, d, 0, false⟩ ∧ Frame [.field] c u)
  ∧ (∀ (s : State) (node : BitVec 7) (t : Bool) (rest : List Byte) (n : Nat),
      s.chip.busUp = true
      → s.chip.field.addr ≠ 0
      → node.toNat = s.chip.field.addr
      → 3 ≤ rest.length
      → Accepts s.chip .field (inNat rest 0 2) (inNat rest 2 1) n
      → 0 < n
      → n ≤ 60
      → n ≤ (rest.drop 3).length
      → (rest.drop 3).length + 4 ≤ canLength (n + 4)
      → ∃ (code : Nat) (u c : Chip), s.chip.writeValue 0x70 (inNat rest 0 2) (inNat rest 2 1) (natLE ((rest.drop 3).take n)) = (code, u) ∧ Effect (.reqWrite node t rest) s c
        ∧ (code = 0 → Answered c u 0x02 false (inNat rest 0 2) (inNat rest 2 1) []) ∧ (code ≠ 0 → Answered c u 0x3F false (inNat rest 0 2) (inNat rest 2 1) (bytesLE 4 code)) ∧ Frame [.field] c u)
  ∧ (∀ (s : State) (node : BitVec 7) (t : Bool) (rest : List Byte) (n : Nat),
      s.chip.busUp = true
      → s.chip.field.addr ≠ 0
      → node.toNat = s.chip.field.addr
      → 3 ≤ rest.length
      → Accepts s.chip .field (inNat rest 0 2) (inNat rest 2 1) n
      → 60 < n
      → 7 ≤ rest.length
      → inNat (rest.drop 3) 0 4 = n
      → ∃ c, Effect (.writeInit node t rest) s c ∧ Answered c s.chip 0x03 false (inNat rest 0 2) (inNat rest 2 1) []
        ∧ c.field.xfer = some ⟨false, inNat rest 0 2, inNat rest 2 1, n, [], 0, false⟩
        ∧ c.dict.seqs = s.chip.dict.seqs ++ [⟨objKey (inNat rest 0 2) (inNat rest 2 1), 0x70, srcPath .field, []⟩] ∧ Frame [.field, .dict] c s.chip)
  ∧ (∀ (s : State) (node : BitVec 7) (t : Bool) (rest : List Byte) (x : Xfer),
      s.chip.busUp = true
      → s.chip.field.addr ≠ 0
      → node.toNat = s.chip.field.addr
      → 3 ≤ rest.length
      → s.chip.field.xfer = some x
      → (x.read = false ∧ x.idx = inNat rest 0 2 ∧ x.sub = inNat rest 2 1 ∧ x.t = t)
      → x.pos + 60 < x.size
      → (rest.drop 3).length = 60
      → ∃ c, Effect (.writeSeg node t rest) s c ∧ Answered c s.chip 0x04 t (inNat rest 0 2) (inNat rest 2 1) []
        ∧ c.field.xfer = some { x with buf := x.buf ++ rest.drop 3, pos := x.pos + 60, t := !t } ∧ Frame [.field] c s.chip)
  ∧ (∀ (s : State) (node : BitVec 7) (t : Bool) (rest : List Byte) (x : Xfer),
      s.chip.busUp = true
      → s.chip.field.addr ≠ 0
      → node.toNat = s.chip.field.addr
      → 3 ≤ rest.length
      → s.chip.field.xfer = some x
      → (x.read = false ∧ x.idx = inNat rest 0 2 ∧ x.sub = inNat rest 2 1 ∧ x.t = t)
      → x.pos < x.size
      → x.size ≤ x.pos + 60
      → x.size < 4294967296
      → x.buf.length = x.pos
      → x.size - x.pos ≤ (rest.drop 3).length
      → (rest.drop 3).length + 4 ≤ canLength (x.size - x.pos + 4)
      → Accepts s.chip.endXfer .field (inNat rest 0 2) (inNat rest 2 1) x.size
      → ∃ (code : Nat) (u c : Chip), s.chip.endXfer.writeValue 0x70 (inNat rest 0 2) (inNat rest 2 1) (natLE (x.buf ++ (rest.drop 3).take (x.size - x.pos))) = (code, u)
        ∧ Effect (.writeSeg node t rest) s c ∧ (code = 0 → Answered c u 0x04 t (inNat rest 0 2) (inNat rest 2 1) [])
        ∧ (code ≠ 0 → Answered c u 0x3F false (inNat rest 0 2) (inNat rest 2 1) (bytesLE 4 code)) ∧ s.chip.endXfer.field.xfer = none ∧ Frame [.field] c u)
  ∧ (∀ (s : State) (node : BitVec 7) (t : Bool) (rest : List Byte) (x : Xfer),
      s.chip.busUp = true
      → s.chip.field.addr ≠ 0
      → node.toNat = s.chip.field.addr
      → 3 ≤ rest.length
      → s.chip.field.xfer = some x
      → (x.read = true ∧ x.idx = inNat rest 0 2 ∧ x.sub = inNat rest 2 1 ∧ x.t = t)
      → x.pos < x.size
      → x.size ≤ 4096
      → ∃ c, Effect (.readSeg node t rest) s c ∧ Answered c s.chip 0x05 t (inNat rest 0 2) (inNat rest 2 1) ((x.buf.drop x.pos).take (min 60 (x.size - x.pos)))
        ∧ (x.pos + 60 < x.size → c.field.xfer = some { x with pos := x.pos + 60, t := !t }) ∧ (x.size ≤ x.pos + 60 → c.field.xfer = none)
        ∧ Frame [.field] c s.chip)
  ∧ (∀ (s : State) (node : BitVec 7) (t : Bool) (rest : List Byte),
      s.chip.busUp = true
      → s.chip.field.addr ≠ 0
      → node.toNat = s.chip.field.addr
      → 3 ≤ rest.length
      → Effect (.reqAbort node t rest) s s.chip.endXfer ∧ s.chip.endXfer.field = { s.chip.field with xfer := none } ∧ Frame [.field, .dict] s.chip.endXfer s.chip)
  ∧ (∀ (s : State) (node : BitVec 7) (cmd : BitVec 6) (t : Bool) (rest : List Byte),
      s.chip.busUp = true
      → s.chip.field.addr ≠ 0
      → node.toNat = s.chip.field.addr
      → 3 ≤ rest.length
      → ∃ c, Effect (.reqReserved node cmd t rest) s c ∧ Answered c s.chip 0x3F false (inNat rest 0 2) (inNat rest 2 1) (bytesLE 4 Abort.unknownCommand) ∧ c.field.xfer = s.chip.field.xfer ∧ Frame [.field] c s.chip)
  ∧ (∀ (s : State) (x : Xfer),
      s.chip.field.xfer = some x
      → ∃ c, Effect .transferTimeout s c ∧ Answered c s.chip 0x3F false x.idx x.sub (bytesLE 4 0x00050002) ∧ c.field.xfer = none ∧ c.dict.seqs = s.chip.endXfer.dict.seqs ∧ Frame [.field, .dict] c s.chip)

/-- Heartbeats, alarms on request, the node address from the chain, conflicts and bus-off.
Behind it stand choices of the model: log entries 112, 113. -/
def Obligations.FieldNodeHeartbeatsAndAddresses : Prop :=
  (∀ (s : State) (node : BitVec 7) (rest : List Byte),
      s.chip.busUp = true
      → s.chip.field.addr ≠ 0
      → (node = 0 ∨ node.toNat = s.chip.field.addr)
      → rest.head? = some 0
      → ∃ c, Effect (.heartbeatRequest node rest) s c
        ∧ c.field = { s.chip.field with
          hbSeq := (s.chip.field.hbSeq + 1) % 65536
          sent := s.chip.field.sent ++ [⟨0xE, s.chip.field.addr, [BitVec.ofNat 8 s.chip.mode.current.code] ++ bytesLE 1 (s.chip.faultN.toNat + 2 * (decide (s.chip.tb.state = .locked)).toNat + 4 * s.chip.inBurst.toNat)
            ++ bytesLE 2 s.chip.field.hbSeq ++ bytesLE 2 s.chip.tb.epoch ++ bytesLE 1 s.chip.worst ++ [0]⟩] }
        ∧ Frame [.field] c s.chip)
  ∧ (∀ (s : State),
      s.chip.cfg Obj.fieldHeartbeatMs ≠ 0
      → s.chip.busUp = true
      → s.chip.field.addr ≠ 0
      → ∃ c, Effect .heartbeatTimer s c
        ∧ c.field = { s.chip.field with
          hbSeq := (s.chip.field.hbSeq + 1) % 65536
          sent := s.chip.field.sent ++ [⟨0xE, s.chip.field.addr, [BitVec.ofNat 8 s.chip.mode.current.code] ++ bytesLE 1 (s.chip.faultN.toNat + 2 * (decide (s.chip.tb.state = .locked)).toNat + 4 * s.chip.inBurst.toNat)
            ++ bytesLE 2 s.chip.field.hbSeq ++ bytesLE 2 s.chip.tb.epoch ++ bytesLE 1 s.chip.worst ++ [0]⟩] }
        ∧ Frame [.field] c s.chip)
  ∧ (∀ (s : State) (node : BitVec 7) (rest : List Byte) (l : List Nat),
      s.chip.busUp = true
      → s.chip.field.addr ≠ 0
      → (node = 0 ∨ node.toNat = s.chip.field.addr)
      → rest.head? = some 0
      → l = (List.range 256).filter (fun n => s.chip.sticky n && decide (s.chip.cfg Obj.fieldAlarmMinSeverity ≤ s.chip.severity n))
      → s.chip.field.alarms.length + l.length ≤ 32
      → ∃ c, Effect (.alarmResend node rest) s c ∧ c.field = { s.chip.field with alarms := s.chip.field.alarms ++ l.map (fun n => s.chip.alarmBytes n 0xFF) }
        ∧ Frame [.field] c s.chip)
  ∧ (∀ (s : State) (rest : List Byte) (us : Nat),
      s.chip.busUp = true
      → s.chip.mode.current = .unaddressed
      → 7 ≤ rest.length
      → s.chip.chained = true
      → s.chip.field.addr = 0
      → 1 ≤ inNat rest 0 1
      → inNat rest 0 1 ≤ 126
      → s.chip.field.chainIn = some us
      → 1000 ≤ us
      → s.chip.cfg Obj.modeAutoTrain = 0
      → ∃ c, Effect (.offer 0 rest) s c ∧ c.field.addr = inNat rest 0 1 ∧ c.field.source = 2 ∧ c.field.chainOut = true ∧ c.mode.current = .configuring
        ∧ (∃ b : CanFrame, b.fn = 0xE ∧ c.field.sent = s.chip.field.sent
          ++ [⟨0x3, inNat rest 0 1, bytesLE 1 2 ++ bytesLE 1 (inNat rest 0 1) ++ List.replicate 6 0 ++ bytesLE 8 Config.serial.toNat⟩, b])
        ∧ Frame [.field, .mode] c s.chip)
  ∧ (∀ (s : State) (us : Option Nat),
      Effect (.chainInAssert us) s { s.chip with field := { s.chip.field with
          chainIn := us
          chainOut := s.chip.field.chainOut || (!s.chip.chained && decide (s.chip.field.addr ≠ 0) && us.isSome) } })
  ∧ (∀ (s : State) (node : BitVec 7),
      s.chip.busUp = true
      → s.chip.field.addr ≠ 0
      → node.toNat = s.chip.field.addr
      → ∃ c, Effect (.addressConflict node) s c ∧ c.field.conflicts = wrap32 (s.chip.field.conflicts + 1) ∧ c.sticky 161 = true
        ∧ (s.chip.field.source = 2 → c.field.addr = 0 ∧ c.field.source = 0 ∧ c.field.xfer = none)
        ∧ (s.chip.field.source ≠ 2 → c.field.addr = s.chip.field.addr ∧ c.field.source = s.chip.field.source ∧ c.field.xfer = s.chip.field.xfer ∧ c.dict = s.chip.dict)
        ∧ Frame [.field, .fault, .heads, .dict] c s.chip)
  ∧ (∀ (s : State),
      s.chip.field.busState ≠ 2
      → ∃ c, Effect .busOff s c ∧ c.field.busState = 2 ∧ c.field.busOffs = wrap32 (s.chip.field.busOffs + 1) ∧ c.field.xfer = none ∧ c.sticky 160 = true
        ∧ Frame [.field, .fault, .heads, .dict] c s.chip)
  ∧ (∀ (s : State),
      s.chip.field.busState = 2
      → ∃ c, Effect .busRecovery s c ∧ c.field.busState = 0 ∧ c.field.txErr = 0 ∧ c.field.rxErr = 0 ∧ c.field.addr = s.chip.field.addr ∧ Frame [.field] c s.chip)

/-- Cask commands move a cask between its states, and refuse from the others -/
def Obligations.CasksFollowTheirStates : Prop :=
  (∀ (s : State) (src : Src) (c : Fin 1024),
      Accepts s.chip src (0x9000 + ↑c) 2 1
      → (s.chip.cask c).state = .free
      → ∃ t : Chip, Effect (.caskCreate src c) s (t.answerWrite src (0x9000 + ↑c) 2 (bytesLE 1 1) 0)
        ∧ t.cask c = { s.chip.cask c with state := .active }
        ∧ (∀ j : Nat, j ≠ c → t.cask j = s.chip.cask j)
        ∧ Tab.find t.rw (objAt Obj.caskAccess c) = none
        ∧ (∀ k : Nat, k ≠ objAt Obj.caskAccess c → t.cfg k = s.chip.cfg k)
        ∧ Frame [.casks, .rw, .accBad] t s.chip)
  ∧ (∀ (s : State) (src : Src) (c : Fin 1024),
      Accepts s.chip src (0x9000 + ↑c) 2 1
      → (s.chip.cask c).state ≠ .free
      → Effect (.caskCreate src c) s (s.chip.answerWrite src (0x9000 + ↑c) 2 [1] Abort.caskState))
  ∧ (∀ (s : State) (src : Src) (c : Fin 1024),
      Accepts s.chip src (0x9000 + ↑c) 2 1
      → (s.chip.cask c).state = .active
      → ∃ t : Chip, Effect (.caskQuiesce src c) s (t.answerWrite src (0x9000 + ↑c) 2 (bytesLE 1 2) 0)
        ∧ t.cask c = { s.chip.cask c with state := .quiescing, cut := s.chip.tb.tc, cutFold := s.chip.fold.nextId }
        ∧ (∀ j : Nat, j ≠ c → t.cask j = s.chip.cask j)
        ∧ Frame [.casks] t s.chip)
  ∧ (∀ (s : State) (src : Src) (c : Fin 1024),
      Accepts s.chip src (0x9000 + ↑c) 2 1
      → (s.chip.cask c).state = .quiesced
      → ∃ t : Chip, Effect (.caskResume src c) s (t.answerWrite src (0x9000 + ↑c) 2 (bytesLE 1 3) 0)
        ∧ t.cask c = { s.chip.cask c with state := .active }
        ∧ (∀ j : Nat, j ≠ c → t.cask j = s.chip.cask j)
        ∧ Frame [.casks] t s.chip)
  ∧ (∀ (s : State) (src : Src) (c : Fin 1024),
      Accepts s.chip src (0x9000 + ↑c) 2 1
      → (s.chip.cask c).state = .quiescing
      → ∃ t : Chip, Effect (.caskAbortQuiesce src c) s (t.answerWrite src (0x9000 + ↑c) 2 (bytesLE 1 6) 0)
        ∧ t.cask c = { s.chip.cask c with state := .active }
        ∧ (∀ j : Nat, j ≠ c → t.cask j = s.chip.cask j)
        ∧ Frame [.casks] t s.chip)
  ∧ (∀ (s : State) (c : Fin 1024),
      (s.chip.cask c).state = .quiescing
      → s.chip.caskVisible c = true
      → (s.chip.caskChans c).all (fun ch => decide ((s.chip.hchan ch).inflight = 0)) = true
      → ∃ t, Effect (.caskQuiesced c) s t ∧ t.cask c = { s.chip.cask c with state := .quiesced } ∧ (∀ j : Nat, j ≠ c → t.cask j = s.chip.cask j)
        ∧ Frame [.casks] t s.chip)
  ∧ (∀ (s : State) (c : Fin 1024),
      (s.chip.cask c).state = .quiescing
      → ∃ t, Effect (.caskQuiesceTimeout c) s t ∧ t.sticky 54 = true ∧ (∀ j : Nat, t.cask j = s.chip.cask j) ∧ Frame [.fault, .heads, .field] t s.chip)
  ∧ (∀ (s : State) (src : Src) (c : Fin 1024),
      Accepts s.chip src (0x9000 + ↑c) 2 1
      → (s.chip.cask c).state = .quiesced
      → ∃ t : Chip, Effect (.caskReset src c) s (t.answerWrite src (0x9000 + ↑c) 2 (bytesLE 1 4) 0)
        ∧ (t.cask c).state = .resetting
        ∧ (t.cask c).producer = 0
        ∧ t.cfgAt Obj.caskLogEnable c = 0
        ∧ (s.chip.hop.queues.all (fun e => decide (e.2.kind ≠ 4)) = true → Frame [.casks, .hop, .rw] t s.chip))
  ∧ (∀ (s : State) (c : Fin 1024),
      (s.chip.cask c).state = .resetting
      → ∃ t, Effect (.caskResetComplete c) s t ∧ t.cask c = { s.chip.cask c with state := .quiesced } ∧ (∀ j : Nat, j ≠ c → t.cask j = s.chip.cask j)
        ∧ Frame [.casks] t s.chip)
  ∧ (∀ (s : State) (src : Src) (c : Fin 1024),
      Accepts s.chip src (0x9000 + ↑c) 2 1
      → (s.chip.cask c).state = .quiesced
      → s.chip.map.extents.all (fun e => decide (e.cask ≠ c)) = true
      → ∃ t : Chip, Effect (.caskRemove src c) s (t.answerWrite src (0x9000 + ↑c) 2 (bytesLE 1 5) 0)
        ∧ t.cask c = {}
        ∧ (∀ j : Nat, j ≠ c → t.cask j = s.chip.cask j)
        ∧ (∀ k : Nat, k / 256 = 0x9000 + c → Tab.find t.rw k = none)
        ∧ (∀ k : Nat, k / 256 ≠ 0x9000 + c → t.cfg k = s.chip.cfg k)
        ∧ (∀ r ∈ t.sb.recs, ¬ (r.kind = 3 ∧ r.key = c))
        ∧ Frame [.casks, .sb, .rw, .accBad] t s.chip)
  ∧ (∀ (s : State) (src : Src) (c : Fin 1024),
      Accepts s.chip src (0x9000 + ↑c) 2 1
      → (s.chip.cask c).state ≠ .free
      → ∃ t : Chip, Effect (.caskLogClearOverflow src c) s (t.answerWrite src (0x9000 + ↑c) 2 (bytesLE 1 7) 0)
        ∧ t.cask c = { s.chip.cask c with status := setBit (s.chip.cask c).status 0 false }
        ∧ (∀ j : Nat, j ≠ c → t.cask j = s.chip.cask j)
        ∧ Frame [.casks] t s.chip)

/-- PASID bindings, logs, access tables, page discards and record repairs.
Behind it stand choices of the model: log entries 63, 131, 144, 145, 146. -/
def Obligations.CaskSettingsRightsAndDiscards : Prop :=
  (∀ (s : State) (src : Src) (c : Fin 1024) (v : BitVec 32),
      Accepts s.chip src (0x9000 + ↑c) 3 4
      → bitsOf v.toNat 20 11 = 0
      → (s.chip.cask c).state ≠ .active
      → (s.chip.cask c).state ≠ .quiescing
      → (s.chip.cask c).state ≠ .resetting
      → (bitOf v.toNat 31 = true → s.chip.slotOf (v.toNat % 2 ^ 20) = none ∨ s.chip.slotOf (v.toNat % 2 ^ 20) = some c.val)
      → ∃ t : Chip, Effect (.caskPasidWrite src c v) s (t.answerWrite src (0x9000 + ↑c) 3 (bytesLE 4 v.toNat) 0)
        ∧ t.cfgAt Obj.caskPasid c = v.toNat
        ∧ (∀ k : Nat, k ≠ objAt Obj.caskPasid c → t.cfg k = s.chip.cfg k)
        ∧ Frame [.rw] t s.chip)
  ∧ (∀ (s : State) (src : Src) (c : Fin 1024) (v : BitVec 8),
      Accepts s.chip src (0x9000 + ↑c) 7 1
      → v.toNat ≤ 1
      → (v.toNat = 1 → s.chip.cfgAt Obj.caskLogBitmapDla c % 64 = 0 ∧ s.chip.cfgAt Obj.caskLogRingDla c % 4096 = 0)
      → ∃ t : Chip, Effect (.logEnableWrite src c v) s (t.answerWrite src (0x9000 + ↑c) 7 (bytesLE 1 v.toNat) 0)
        ∧ t.cfgAt Obj.caskLogEnable c = v.toNat
        ∧ (∀ k : Nat, k ≠ objAt Obj.caskLogEnable c → t.cfg k = s.chip.cfg k)
        ∧ Frame [.rw] t s.chip)
  ∧ (∀ (s : State) (src : Src) (v : BitVec 32),
      Accepts s.chip src (0x94F0) (1) 4
      → bitsOf v.toNat 28 4 = 0
      → isTarget (bitsOf v.toNat 0 16) = true
      → isMaster (bitsOf v.toNat 16 8) = true
      → (isEngine (bitsOf v.toNat 16 8) = true → bitsOf v.toNat 24 4 = 15)
      → s.chip.may (bitsOf v.toNat 0 16) (srcMaster src) 3 = true
      → ∃ (code : Nat) (t : Chip), Effect (.accessEdit src v) s (t.answerWrite src (0x94F0) (1) (bytesLE 4 v.toNat) code)
        ∧ (bitsOf v.toNat 0 16 < 0x400 → code = 0 ∧ Tab.find t.rw (tableKey (bitsOf v.toNat 0 16)) = some (setField (s.chip.cfg (tableKey (bitsOf v.toNat 0 16))) (4 * bitsOf v.toNat 16 8) 4 (bitsOf v.toNat 24 4)))
        ∧ (0x400 ≤ bitsOf v.toNat 0 16 → code = 0 → Tab.find t.rwp (tableKey (bitsOf v.toNat 0 16)) = some (setField (s.chip.cfg (tableKey (bitsOf v.toNat 0 16))) (4 * bitsOf v.toNat 16 8) 4 (bitsOf v.toNat 24 4))) ∧ (code ≠ 0 → t = s.chip)
        ∧ (∀ k : Nat, k ≠ tableKey (bitsOf v.toNat 0 16) → t.cfg k = s.chip.cfg k) ∧ Frame [.rw, .rwp, .accBad, .sb, .fault, .heads, .field] t s.chip)
  ∧ (∀ (s : State) (src : Src) (v : BitVec 32),
      Accepts s.chip src 0x94F0 1 4
      → bitsOf v.toNat 28 4 = 0
      → isTarget (bitsOf v.toNat 0 16) = true
      → isMaster (bitsOf v.toNat 16 8) = true
      → (isEngine (bitsOf v.toNat 16 8) = true → bitsOf v.toNat 24 4 = 15)
      → s.chip.may (bitsOf v.toNat 0 16) (srcMaster src) 3 = false
      → ∃ t : Chip, Effect (.accessEdit src v) s (t.answerWrite src 0x94F0 1 (bytesLE 4 v.toNat) 0) ∧ SameConfig t s.chip ∧ SameMemory t s.chip
        ∧ Frame [.cnt, .fault, .heads, .field] t s.chip)
  ∧ (∀ (s : State) (src : Src) (target : BitVec 16) (table : BitVec 1024),
      Accepts s.chip src (tableKey target.toNat / 256) (tableKey target.toNat % 256) 128
      → isTarget target.toNat = true
      → bitsOf table.toNat 384 16 = 0xFFFF
      → ∃ (code : Nat) (t : Chip), Effect (.accessTableWrite src target table) s (t.answerWrite src (tableKey target.toNat / 256) (tableKey target.toNat % 256) (bytesLE 128 table.toNat) code)
        ∧ (target.toNat < 0x400 → code = 0 ∧ Tab.find t.rw (tableKey (target.toNat)) = some (table.toNat))
        ∧ (0x400 ≤ target.toNat → code = 0 → Tab.find t.rwp (tableKey (target.toNat)) = some (table.toNat)) ∧ (code ≠ 0 → t = s.chip)
        ∧ (∀ k : Nat, k ≠ tableKey (target.toNat) → t.cfg k = s.chip.cfg k) ∧ Frame [.rw, .rwp, .accBad, .sb, .fault, .heads, .field] t s.chip)
  ∧ (∀ (s : State) (src : Src) (dla : BitVec 64) (e : Extent),
      Accepts s.chip src 0x6800 0x0A 8
      → dla.toNat % 4096 = 0
      → s.chip.extentOf dla.toNat = some e
      → e.st = .accepted
      → s.chip.may e.cask (srcMaster src) 3 = true
      → s.chip.busyPage (pageNo dla.toNat) = false
      → s.chip.cfgAt Obj.caskLogEnable e.cask ≠ 1
      → (s.chip.page (pageNo dla.toNat)).st ≠ .unwritten
      → s.chip.journalRoom 1 = true
      → s.chip.map.badRecs = []
      → ∃ t : Chip, Effect (.discardPage src dla) s (t.answerWrite src 0x6800 0x0A (bytesLE 8 dla.toNat) 0) ∧ (t.page (pageNo dla.toNat)).st = .unwritten
        ∧ (∀ a : Nat, a / 4096 = pageNo dla.toNat → Tab.get 0 t.mem a = 0) ∧ (∀ a : Nat, a / 4096 ≠ pageNo dla.toNat → Tab.get 0 t.mem a = Tab.get 0 s.chip.mem a)
        ∧ (∀ q : Nat, q ≠ pageNo dla.toNat → t.page q = s.chip.page q) ∧ t.map.extents = s.chip.map.extents ∧ Frame [.map, .mem, .poison, .macs, .mill, .lauter, .kiln, .cache, .casks] t s.chip)
  ∧ (∀ (s : State) (page : BitVec 34) (e : Extent) (m : Nat),
      s.chip.map.discards.find? (fun d => decide (d.1 = page.toNat)) = some (page.toNat, m)
      → s.chip.busyPage page.toNat = false
      → s.chip.extentOf (4096 * page.toNat) = some e
      → s.chip.cfgAt Obj.caskLogEnable e.cask ≠ 1
      → (s.chip.page page.toNat).st ≠ .unwritten
      → s.chip.journalRoom 1 = true
      → ∃ t : Chip, Effect (.deferredDiscard page) s t ∧ (t.page (page.toNat)).st = .unwritten
        ∧ (∀ a : Nat, a / 4096 = page.toNat → Tab.get 0 t.mem a = 0) ∧ (∀ a : Nat, a / 4096 ≠ page.toNat → Tab.get 0 t.mem a = Tab.get 0 s.chip.mem a)
        ∧ (∀ q : Nat, q ≠ page.toNat → t.page q = s.chip.page q) ∧ t.map.extents = s.chip.map.extents ∧ Frame [.map, .mem, .poison, .macs, .mill, .lauter, .kiln, .cache, .casks] t s.chip)
  ∧ (∀ (s : State) (page : BitVec 34),
      s.chip.map.repairing.contains page.toNat = true
      → ∃ t, Effect (.mapRecordRepair page true) s t ∧ t.map = { s.chip.map with
          repairing := s.chip.map.repairing.filter (fun q => decide (q ≠ page.toNat)), recordErrors := wrap32 (s.chip.map.recordErrors + 2)
          badRecs := Tab.del s.chip.map.badRecs page.toNat }
        ∧ t.sticky 48 = true ∧ Frame [.map, .fault, .heads, .field] t s.chip)
  ∧ (∀ (s : State) (page : BitVec 34),
      s.chip.map.repairing.contains page.toNat = true
      → ∃ t, Effect (.mapRecordRepair page false) s t ∧ (t.page page.toNat).st = .poisoned ∧ t.map.recordsLost = wrap32 (s.chip.map.recordsLost + 1)
        ∧ t.sticky 49 = true ∧ (∀ q : Nat, q ≠ page.toNat → t.page q = s.chip.page q) ∧ Frame [.map, .fault, .heads, .field, .lauter, .kiln] t s.chip)
  ∧ (∀ (s : State) (page : BitVec 34),
      s.chip.map.repairing.contains page.toNat = false
      → s.chip.map.repairing.contains (dirRecNo (page.toNat / 512)) = true
      → ∃ t, Effect (.mapRecordRepair page false) s t ∧ (∀ q : Nat, q / 512 = page.toNat / 512 → (t.page q).st = .poisoned)
        ∧ (∀ q : Nat, q / 512 ≠ page.toNat / 512 → t.page q = s.chip.page q) ∧ t.map.recordsLost = wrap32 (s.chip.map.recordsLost + 1)
        ∧ t.sticky 49 = true ∧ Frame [.map, .fault, .heads, .field, .lauter, .kiln] t s.chip)

/-- A link’s coherent reads, writes, writebacks and drops at an idle home.
Behind it stand choices of the model: log entries 17, 136, 147, 148, 155, 156. -/
def Obligations.CoherentPacketsOfLinks : Prop :=
  (∀ (s : State) (l : Fin 8) (p : Packet) (d k : Nat),
      s.chip.linkLive l = true
      → s.chip.agentIsDead (linkAgent l) = false
      → p.op.toNat = 1
      → s.chip.goodPacket l 9 p = true
      → pktDla p % 64 = 0
      → s.chip.linkDomainOf l p = some d
      → s.chip.verdict (⟨0x10 + ↑l, .pasid (s.chip.slotOf p.pasid.toNat), .read, pktDla p, 0, 0, p.poison, true, 0, .link l p.tag.toNat⟩ : Access) {} = .ok k
      → (s.chip.dom d).state = .active
      → s.chip.coh.txns = []
      → s.chip.coh.queue = []
      → s.chip.coh.devQueue = []
      → s.chip.coh.retrySince = 0
      → s.chip.homeIdle = true
      → Tab.find s.chip.coh.held (lineNo (pktDla p)) = none
      → s.chip.lineAssigning (lineNo (pktDla p)) = false
      → s.chip.waits = []
      → s.chip.map.badRecs = []
      → s.chip.wayOffline (pktDla p) = false
      → s.chip.inBurst = false
      → (s.chip.page (pageNo (pktDla p))).st = .unwritten
      → s.chip.ent (lineNo (pktDla p)) = none
      → s.chip.setCount (lineNo (pktDla p)) + 1 + s.chip.cfg Obj.cohSfReserveWays ≤ 16
      → ∃ t u : Chip, Effect (.crdS l false p {}) s u ∧ t.ent (lineNo (pktDla p)) = some ⟨none, setBit 0 (linkAgent l) true, d, s.chip.coh.clock⟩
        ∧ Frame [.coh] u (t.cohSend l 0x20 p.tag.toNat (pktDla p) (some (0, false))) ∧ u.coh = { t.coh with txns := [] }
        ∧ t.coh.queue = [] ∧ Frame [.coh, .map, .links, .cnt] t s.chip)
  ∧ (∀ (s : State) (l : Fin 8) (p : Packet) (d k : Nat),
      s.chip.linkLive l = true
      → s.chip.agentIsDead (linkAgent l) = false
      → p.op.toNat = 2
      → s.chip.goodPacket l 9 p = true
      → pktDla p % 64 = 0
      → s.chip.linkDomainOf l p = some d
      → s.chip.verdict (⟨0x10 + ↑l, .pasid (s.chip.slotOf p.pasid.toNat), .read, pktDla p, 0, 0, p.poison, true, 0, .link l p.tag.toNat⟩ : Access) {} = .ok k
      → (s.chip.dom d).state = .active
      → s.chip.coh.txns = []
      → s.chip.coh.queue = []
      → s.chip.coh.devQueue = []
      → s.chip.coh.retrySince = 0
      → s.chip.homeIdle = true
      → Tab.find s.chip.coh.held (lineNo (pktDla p)) = none
      → s.chip.lineAssigning (lineNo (pktDla p)) = false
      → s.chip.waits = []
      → s.chip.map.badRecs = []
      → s.chip.wayOffline (pktDla p) = false
      → s.chip.inBurst = false
      → (s.chip.page (pageNo (pktDla p))).st = .unwritten
      → s.chip.ent (lineNo (pktDla p)) = none
      → s.chip.setCount (lineNo (pktDla p)) + 1 + s.chip.cfg Obj.cohSfReserveWays ≤ 16
      → ∃ t u : Chip, Effect (.crdE l false p {}) s u ∧ t.ent (lineNo (pktDla p)) = some ⟨some (linkAgent l), 0, d, s.chip.coh.clock⟩
        ∧ Frame [.coh] u (t.cohSend l 0x21 p.tag.toNat (pktDla p) (some (0, false))) ∧ u.coh = { t.coh with txns := [] }
        ∧ t.coh.queue = [] ∧ Frame [.coh, .map, .links, .cnt] t s.chip)
  ∧ (∀ (s : State) (l : Fin 8) (p : Packet) (d k : Nat),
      s.chip.linkLive l = true
      → s.chip.agentIsDead (linkAgent l) = false
      → p.op.toNat = 3
      → s.chip.goodPacket l 9 p = true
      → pktDla p % 64 = 0
      → s.chip.linkDomainOf l p = some d
      → s.chip.verdict (⟨0x10 + ↑l, .pasid (s.chip.slotOf p.pasid.toNat), .read, pktDla p, 0, 0, p.poison, true, 0, .link l p.tag.toNat⟩ : Access) {} = .ok k
      → (s.chip.dom d).state = .active
      → s.chip.coh.txns = []
      → s.chip.coh.queue = []
      → s.chip.coh.devQueue = []
      → s.chip.coh.retrySince = 0
      → s.chip.homeIdle = true
      → Tab.find s.chip.coh.held (lineNo (pktDla p)) = none
      → s.chip.lineAssigning (lineNo (pktDla p)) = false
      → s.chip.waits = []
      → s.chip.map.badRecs = []
      → s.chip.wayOffline (pktDla p) = false
      → s.chip.inBurst = false
      → (s.chip.page (pageNo (pktDla p))).st = .unwritten
      → s.chip.ent (lineNo (pktDla p)) = none
      → s.chip.setCount (lineNo (pktDla p)) + 1 + s.chip.cfg Obj.cohSfReserveWays ≤ 16
      → ∃ t u : Chip, Effect (.crdCur l false p {}) s u ∧ t.ent (lineNo (pktDla p)) = none
        ∧ Frame [.coh] u (t.cohSend l 0x22 p.tag.toNat (pktDla p) (some (0, false))) ∧ u.coh = { t.coh with txns := [] }
        ∧ t.coh.queue = [] ∧ Frame [.coh, .map, .links, .cnt] t s.chip)
  ∧ (∀ (s : State) (l : Fin 8) (p : Packet) (d k : Nat),
      s.chip.linkLive l = true
      → s.chip.agentIsDead (linkAgent l) = false
      → p.op.toNat = 6
      → s.chip.goodPacket l 9 p = true
      → pktDla p % 64 = 0
      → s.chip.linkDomainOf l p = some d
      → s.chip.verdict (⟨0x10 + ↑l, .pasid (s.chip.slotOf p.pasid.toNat), .write, pktDla p, (BitVec.ofNat 64 (natLE (p.data.take 8))), (lineOf (p.data.drop 16)), p.poison, true, 0, .link l p.tag.toNat⟩ : Access) {} = .ok k
      → (s.chip.dom d).state = .active
      → s.chip.coh.txns = []
      → s.chip.coh.queue = []
      → s.chip.coh.devQueue = []
      → s.chip.coh.retrySince = 0
      → s.chip.homeIdle = true
      → Tab.find s.chip.coh.held (lineNo (pktDla p)) = none
      → s.chip.lineAssigning (lineNo (pktDla p)) = false
      → s.chip.ent (lineNo (pktDla p)) = none
      → CachedWrite s.chip (⟨0x10 + ↑l, .pasid (s.chip.slotOf p.pasid.toNat), .write, pktDla p, (BitVec.ofNat 64 (natLE (p.data.take 8))), (lineOf (p.data.drop 16)), p.poison, true, 0, .link l p.tag.toNat⟩ : Access)
      → s.chip.cfgAt Obj.caskLogEnable k ≠ 1
      → ∃ t u : Chip, Effect (.cwr l false p {}) s u ∧ t.line (pktDla p) = mergeLine (s.chip.line (pktDla p)) (lineOf (p.data.drop 16)) (BitVec.ofNat 64 (natLE (p.data.take 8)))
        ∧ (∀ y : Nat, y < pktDla p ∨ pktDla p + 64 ≤ y → Tab.get 0 t.mem y = Tab.get 0 s.chip.mem y) ∧ t.ent (lineNo (pktDla p)) = none
        ∧ Frame [.coh] u (t.cohSend l 0x23 p.tag.toNat (pktDla p) none) ∧ u.coh = { t.coh with txns := [] }
        ∧ Frame [.coh, .links, .cnt, .mem, .macs, .poison, .integ, .cache, .lauter, .kiln, .dram, .map] t s.chip)
  ∧ (∀ (s : State) (l : Fin 8) (p : Packet),
      s.chip.linkLive l = true
      → s.chip.agentIsDead (linkAgent l) = false
      → p.op.toNat = 4
      → s.chip.goodPacket l 9 p = true
      → s.chip.linkMay l p = true
      → (s.chip.ent (lineNo (pktDla p))).bind (·.owner) = some (linkAgent l)
      → s.chip.coh.txns = []
      → s.chip.coh.queue = []
      → s.chip.coh.devQueue = []
      → s.chip.coh.retrySince = 0
      → s.chip.homeIdle = true
      → CachedWrite s.chip (⟨0x10 + ↑l, .byDir, .write, lineBase (pktDla p), fullMask, lineOf p.data, p.poison, true, 0, .none⟩ : Access)
      → (s.chip.extentOf (lineBase (pktDla p))).all (fun e => decide (s.chip.cfgAt Obj.caskLogEnable e.cask ≠ 1)) = true
      → ∃ t : Chip, Effect (.cwb l p {}) s (t.cohSend l 0x23 p.tag.toNat (lineBase (pktDla p)) none) ∧ t.line (pktDla p) = lineOf p.data
        ∧ (∀ y : Nat, y < lineBase (pktDla p) ∨ lineBase (pktDla p) + 64 ≤ y → Tab.get 0 t.mem y = Tab.get 0 s.chip.mem y)
        ∧ t.ent (lineNo (pktDla p)) = none ∧ Frame [.coh, .links, .cnt, .mem, .macs, .poison, .integ, .cache, .lauter, .kiln, .dram, .map] t s.chip)
  ∧ (∀ (s : State) (l : Fin 8) (p : Packet) (e : FilterEnt),
      s.chip.linkLive l = true
      → s.chip.agentIsDead (linkAgent l) = false
      → p.op.toNat = 5
      → s.chip.goodPacket l 9 p = true
      → s.chip.linkMay l p = true
      → s.chip.ent (lineNo (pktDla p)) = some e
      → e.owner = some (linkAgent l)
      → s.chip.coh.txns = []
      → s.chip.coh.queue = []
      → s.chip.coh.devQueue = []
      → s.chip.coh.retrySince = 0
      → s.chip.homeIdle = true
      → ∃ t : Chip, Effect (.cev l p) s (t.cohSend l 0x23 p.tag.toNat (lineBase (pktDla p)) none) ∧ t.ent (lineNo (pktDla p)) = none
        ∧ (∀ k : Nat, k ≠ (lineNo (pktDla p)) → t.ent k = s.chip.ent k) ∧ Frame [.coh, .links, .cnt] t s.chip)
  ∧ (∀ (s : State) (l : Fin 8) (p : Packet),
      s.chip.linkLive l = true
      → s.chip.agentIsDead (linkAgent l) = false
      → p.op.toNat = 7
      → s.chip.goodPacket l 9 p = true
      → bitOf s.chip.coh.pulled (linkAgent l) = true
      → ∃ t : Chip, Effect (.crel l p) s t ∧ t.coh = { s.chip.coh with
          pulled := setBit s.chip.coh.pulled (linkAgent l) false, retrySince := setBit s.chip.coh.retrySince (linkAgent l) false
          retried := Tab.put [] s.chip.coh.retried (linkAgent l) [] }
        ∧ Frame [.coh, .links, .cnt] t s.chip)
  ∧ (∀ (s : State) (l : Fin 8) (d : Nat),
      bitOf s.chip.coh.pulled (linkAgent l) = true
      → ((List.range 64).filter (fun d => s.chip.isMember d (linkAgent l) && decide ((s.chip.dom d).state = .active ∨ (s.chip.dom d).state = .recalling)) = [d])
      → s.chip.coh.filter = []
      → s.chip.coh.txns = []
      → s.chip.coh.queue = []
      → s.chip.coh.devQueue = []
      → s.chip.coh.retrySince = 0
      → ∃ t : Chip, Effect (.pullDeadlineMiss l) s t ∧ bitOf t.coh.dead (linkAgent l) = true
        ∧ t.dom d = { s.chip.dom d with
          state := .down, cause := 3, dead := linkAgent l, downTc := s.chip.tb.tc, downs := (s.chip.dom d).downs + 1, reform := false }
        ∧ (∀ j : Nat, j ≠ d → t.dom j = s.chip.dom j) ∧ t.sticky 64 = true ∧ Frame [.coh, .fault, .heads, .field] t s.chip)

/-- Coherence domains form, recall, disband and go DOWN, and snoop responses move their transactions.
Behind it stand choices of the model: log entries 47, 108, 150. -/
def Obligations.DomainsFormAndSnoopsAreAnswered : Prop :=
  (∀ (s : State) (src : Src) (c : Fin 1024) (d : BitVec 8),
      Accepts s.chip src (0x8800) 8 1024
      → bitsOf (s.chip.cfg Obj.cohCaskDomain) (8 * c) 8 ≠ d.toNat
      → (d.toNat < 64 ∨ d.toNat = 0xFF)
      → (d.toNat < 64 → s.chip.unsharable c = false)
      → ((s.chip.cask c).state = .free ∨ (s.chip.cask c).state = .quiesced)
      → ∃ t : Chip, Effect (.caskDomainWrite src c d) s (t.answerWrite src (0x8800) 8 (bytesLE 1024 (setField (s.chip.cfg Obj.cohCaskDomain) (8 * c) 8 d.toNat)) 0)
        ∧ t.win = { s.chip.win with ops := s.chip.win.ops ++ [⟨.caskDomain c d.toNat, s.chip.assignUs c, 0⟩] }
        ∧ Frame [.win] t s.chip)
  ∧ (∀ (s : State) (src : Src) (d : Fin 64),
      Accepts s.chip src (0x8840 + ↑d) 2 1
      → (s.chip.dom d).state = .unused
      → agentCountOk (s.chip.cfgAt Obj.cohDomainAgents d) = true
      → (List.range 16).all (fun a => !bitOf (s.chip.cfgAt Obj.cohDomainAgents d) a || !s.chip.agentIsDead a || s.chip.agentUp a) = true
      → ∃ t : Chip, Effect (.domainForm src d) s (t.answerWrite src (0x8840 + ↑d) 2 (bytesLE 1 1) 0)
        ∧ t.dom d = { s.chip.dom d with state := .active }
        ∧ (∀ j : Nat, j ≠ d → t.dom j = s.chip.dom j)
        ∧ t.coh.dead = (List.range 16).foldl (fun x a => if bitOf (s.chip.cfgAt Obj.cohDomainAgents d) a then setBit x a false else x) s.chip.coh.dead
        ∧ Frame [.coh] t s.chip)
  ∧ (∀ (s : State) (src : Src) (d : Fin 64),
      Accepts s.chip src (0x8840 + ↑d) 2 1
      → (s.chip.dom d).state = .down
      → agentCountOk (s.chip.cfgAt Obj.cohDomainAgents d) = true
      → (List.range 16).all (fun a => !bitOf (s.chip.cfgAt Obj.cohDomainAgents d) a || !s.chip.agentIsDead a || s.chip.agentUp a) = true
      → s.chip.coh.filter.all (fun e => decide (e.2.domain ≠ d.val)) = true
      → s.chip.coh.txns = []
      → s.chip.coh.queue = []
      → s.chip.coh.devQueue = []
      → s.chip.coh.retrySince = 0
      → s.chip.homeIdle = true
      → ∃ t : Chip, Effect (.domainReform src d) s (t.answerWrite src (0x8840 + ↑d) 2 (bytesLE 1 2) 0)
        ∧ t.dom d = { s.chip.dom d with state := .recalling, reform := true }
        ∧ (∀ j : Nat, j ≠ d → t.dom j = s.chip.dom j)
        ∧ t.coh.dead = (List.range 16).foldl (fun x a => if bitOf (s.chip.cfgAt Obj.cohDomainAgents d) a then setBit x a false else x) s.chip.coh.dead
        ∧ Frame [.coh] t s.chip)
  ∧ (∀ (s : State) (src : Src) (d : Fin 64),
      Accepts s.chip src (0x8840 + ↑d) 2 1
      → (s.chip.dom d).state = .active
      → ∃ t : Chip, Effect (.domainRecall src d) s (t.answerWrite src (0x8840 + ↑d) 2 (bytesLE 1 3) 0)
        ∧ t.win = { s.chip.win with ops := s.chip.win.ops ++ [⟨.recall d, 2 + ceilDiv (10 * countIf (fun e => decide (e.2.domain = d.val)) s.chip.coh.filter) 1000, 0⟩] }
        ∧ Frame [.win] t s.chip)
  ∧ (∀ (s : State) (src : Src) (d : Fin 64),
      Accepts s.chip src (0x8840 + ↑d) 2 1
      → ((s.chip.dom d).state = .active ∨ (s.chip.dom d).state = .down)
      → (List.range 1024).all (fun c => decide (s.chip.caskDomain c ≠ some d.val)) = true
      → ∃ t : Chip, Effect (.domainDisband src d) s (t.answerWrite src (0x8840 + ↑d) 2 (bytesLE 1 4) 0)
        ∧ t.dom d = { s.chip.dom d with state := .unused }
        ∧ (∀ j : Nat, j ≠ d → t.dom j = s.chip.dom j)
        ∧ t.coh.filter = s.chip.coh.filter.filter (fun e => decide (e.2.domain ≠ d.val))
        ∧ Frame [.coh] t s.chip)
  ∧ (∀ (s : State) (d : Fin 64),
      (s.chip.dom d).state = .recalling
      → s.chip.coh.filter.all (fun e => decide (e.2.domain ≠ d.val)) = true
      → s.chip.coh.txns = []
      → s.chip.coh.queue = []
      → s.chip.coh.devQueue = []
      → s.chip.coh.retrySince = 0
      → s.chip.homeIdle = true
      → ∃ t, Effect (.recallComplete d) s t ∧ t.dom d = { s.chip.dom d with state := .active, reform := false } ∧ (∀ j : Nat, j ≠ d → t.dom j = s.chip.dom j)
        ∧ Frame [.coh] t s.chip)
  ∧ (∀ (s : State) (l : Fin 8) (p : Packet) (t : CohTxn),
      s.chip.linkLive l = true
      → s.chip.agentIsDead (linkAgent l) = false
      → p.op.toNat = 0x18
      → s.chip.goodPacket l 9 p = true
      → s.chip.snooped (linkAgent l) (lineNo (pktDla p)) = some t
      → ∃ D : Chip, Effect (.srspI l p {}) s (Chip.cohPump ((D.keepCopy (linkAgent l) (lineNo (pktDla p)) (if t.owed.any (fun x => decide (x.agent = linkAgent l ∧ x.kind = 0)) then 0 else 0))))
        ∧ D.coh = { s.chip.coh with txns := (modFirst (fun u => decide (u.line = (lineNo (pktDla p)))) (fun u => { u with
            owed := u.owed.filter (fun x => decide (x.agent ≠ linkAgent l)) }) s.chip.coh.txns) }
        ∧ Frame [.coh, .links, .cnt] D s.chip)
  ∧ (∀ (s : State) (l : Fin 8) (p : Packet) (t : CohTxn),
      s.chip.linkLive l = true
      → s.chip.agentIsDead (linkAgent l) = false
      → p.op.toNat = 0x19
      → s.chip.goodPacket l 9 p = true
      → s.chip.snooped (linkAgent l) (lineNo (pktDla p)) = some t
      → ∃ D : Chip, Effect (.srspS l p {}) s (Chip.cohPump ((D.keepCopy (linkAgent l) (lineNo (pktDla p)) (if t.owed.any (fun x => decide (x.agent = linkAgent l ∧ x.kind = 0)) then 0 else 1))))
        ∧ D.coh = { s.chip.coh with txns := (modFirst (fun u => decide (u.line = (lineNo (pktDla p)))) (fun u => { u with
            owed := u.owed.filter (fun x => decide (x.agent ≠ linkAgent l)) }) s.chip.coh.txns) }
        ∧ Frame [.coh, .links, .cnt] D s.chip)
  ∧ (∀ (s : State) (l : Fin 8) (p : Packet) (t : CohTxn),
      s.chip.linkLive l = true
      → s.chip.agentIsDead (linkAgent l) = false
      → p.op.toNat = 0x1A
      → s.chip.goodPacket l 9 p = true
      → s.chip.snooped (linkAgent l) (lineNo (pktDla p)) = some t
      → ∃ D : Chip, Effect (.srspID l p {}) s (Chip.cohPump (((D.keepCopy (linkAgent l) (lineNo (pktDla p)) (if t.owed.any (fun x => decide (x.agent = linkAgent l ∧ x.kind = 0)) then 0 else 0)).modTxn (lineNo (pktDla p)) (fun u => { u with data := some (lineOf p.data, p.poison) })).storeHeld (ownerStore (linkAgent l) (lineNo (pktDla p)) (lineOf p.data, p.poison)) {}))
        ∧ D.coh = { s.chip.coh with txns := (modFirst (fun u => decide (u.line = (lineNo (pktDla p)))) (fun u => { u with
            owed := u.owed.filter (fun x => decide (x.agent ≠ linkAgent l)) }) s.chip.coh.txns) }
        ∧ Frame [.coh, .links, .cnt] D s.chip)
  ∧ (∀ (s : State) (l : Fin 8) (p : Packet) (t : CohTxn),
      s.chip.linkLive l = true
      → s.chip.agentIsDead (linkAgent l) = false
      → p.op.toNat = 0x1B
      → s.chip.goodPacket l 9 p = true
      → s.chip.snooped (linkAgent l) (lineNo (pktDla p)) = some t
      → ∃ D : Chip, Effect (.srspSD l p {}) s (Chip.cohPump (((D.keepCopy (linkAgent l) (lineNo (pktDla p)) (if t.owed.any (fun x => decide (x.agent = linkAgent l ∧ x.kind = 0)) then 0 else 1)).modTxn (lineNo (pktDla p)) (fun u => { u with data := some (lineOf p.data, p.poison) })).storeHeld (ownerStore (linkAgent l) (lineNo (pktDla p)) (lineOf p.data, p.poison)) {}))
        ∧ D.coh = { s.chip.coh with txns := (modFirst (fun u => decide (u.line = (lineNo (pktDla p)))) (fun u => { u with
            owed := u.owed.filter (fun x => decide (x.agent ≠ linkAgent l)) }) s.chip.coh.txns) }
        ∧ Frame [.coh, .links, .cnt] D s.chip)
  ∧ (∀ (s : State) (l : Fin 8) (p : Packet) (t : CohTxn),
      s.chip.linkLive l = true
      → s.chip.agentIsDead (linkAgent l) = false
      → p.op.toNat = 0x1C
      → s.chip.goodPacket l 9 p = true
      → s.chip.snooped (linkAgent l) (lineNo (pktDla p)) = some t
      → ∃ D : Chip, Effect (.srspCurD l p {}) s (Chip.cohPump (((D.keepCopy (linkAgent l) (lineNo (pktDla p)) (if t.owed.any (fun x => decide (x.agent = linkAgent l ∧ x.kind = 0)) then 0 else 2)).modTxn (lineNo (pktDla p)) (fun u => { u with data := some (lineOf p.data, p.poison) })).storeHeld (ownerStore (linkAgent l) (lineNo (pktDla p)) (lineOf p.data, p.poison)) {}))
        ∧ D.coh = { s.chip.coh with txns := (modFirst (fun u => decide (u.line = (lineNo (pktDla p)))) (fun u => { u with
            owed := u.owed.filter (fun x => decide (x.agent ≠ linkAgent l)) }) s.chip.coh.txns) }
        ∧ Frame [.coh, .links, .cnt] D s.chip)
  ∧ (∀ (s : State) (a : Fin 16) (dla : BitVec 46) (d : Nat) (t : CohTxn) (b k tag : Nat),
      s.chip.txnOf (lineNo dla.toNat) = some t
      → t.owed.any (fun x => decide (x.agent = a) && s.chip.deadlineRuns x) = true
      → s.chip.coh.txns = [t]
      → s.chip.coh.queue = []
      → s.chip.coh.devQueue = []
      → ((List.range 64).filter (fun d => s.chip.isMember d a && decide ((s.chip.dom d).state = .active ∨ (s.chip.dom d).state = .recalling)) = [d])
      → t.domain = d
      → t.replied = false
      → t.req.acc.kind = .read
      → t.req.acc.ret = .link k tag
      → t.req.agent = some b
      → b ≠ a.val
      → s.chip.agentIsDead b = false
      → (t.req.kind = .shared ∨ t.req.kind = .own ∨ t.req.kind = .cur)
      → s.chip.coh.filter.all (fun e => decide (e.2.owner ≠ some a.val)) = true
      → ∃ x u : Chip, Effect (.snoopDeadlineMiss a dla) s u.cohPump ∧ Frame [.fault, .heads, .field] u (x.cohSend k 0x26 tag (lineBase t.req.acc.dla) none) ∧ u.sticky 64 = true
        ∧ x.dom d = { s.chip.dom d with state := .down, cause := 2, dead := a, downTc := s.chip.tb.tc, downs := (s.chip.dom d).downs + 1, reform := false, dropped := (s.chip.dom d).dropped + (if t.req.kind = .own then 1 else 0) }
        ∧ (∀ j : Nat, j ≠ d → x.dom j = s.chip.dom j) ∧ x.coh.txns = [] ∧ bitOf x.coh.dead a = true
        ∧ x.waits = s.chip.waits.filter (fun w => decide (w.acc.ret ≠ .coh t.line)) ∧ Frame [.coh, .waits] x s.chip)

/-- A page that moves passes through its slot: entry, copy passes, swing and release, or is abandoned.
Behind it stand choices of the model: log entries 6, 74, 152, 159. -/
def Obligations.MigrationsFollowTheirSteps : Prop :=
  (∀ (s : State) (i : Fin 32) (p : BitVec 34) (k : Fin 4) (ch : Fin 8) (loc : BitVec 35),
      k ≠ 0
      → s.chip.slotReady i p.toNat = true
      → s.chip.mayMove p.toNat k ch = true
      → s.chip.roomAt (tierOfCode k) ch (s.chip.accessRegion (4096 * p.toNat)) = true
      → (tierOfCode k ≠ .ddr ∨ s.chip.stopped ch = false)
      → s.chip.map.badRecs = []
      → (tierOfCode k = .nvm → s.chip.pruneOlds.placeOk ch loc.toNat (s.chip.unitLines p.toNat (if (s.chip.page p.toNat).st = .hbm then gristForm (s.chip.storedGrist p.toNat (s.chip.accessRegion (4096 * p.toNat))) else ((s.chip.page p.toNat).grist, (s.chip.page p.toNat).sectors))) = true)
      → ∃ (t : Chip) (m : Slot), Effect (.migrationStart i p k ⟨ch, loc⟩) s t ∧ Tab.find t.lauter.slots i = some m ∧ m.page = p.toNat
        ∧ m.src = s.chip.page p.toNat ∧ m.dst.st = tierOfCode k ∧ (tierOfCode k ≠ .hbm → m.dst.ch = ch) ∧ (tierOfCode k = .nvm → m.dst.loc = loc.toNat)
        ∧ m.stage = .copying ∧ m.mask = 0 ∧ m.passes = 0 ∧ m.paused = false ∧ m.repack = false
        ∧ (∀ j : Nat, j ≠ i → Tab.find t.lauter.slots j = Tab.find s.chip.lauter.slots j)
        ∧ t.page p.toNat = { s.chip.page p.toNat with st := .migrating } ∧ (∀ q : Nat, q ≠ p.toNat → t.page q = s.chip.page q)
        ∧ (∃ e, t.lauter.journal = s.chip.lauter.journal ++ [e] ∧ e.kind = 4) ∧ Frame [.lauter, .kiln, .map, .win, .fault, .heads, .field, .free] t s.chip)
  ∧ (∀ (s : State) (i : Fin 32) (p : BitVec 34) (loc : BitVec 35),
      s.chip.slotReady i p.toNat = true
      → (s.chip.page p.toNat).grist = false
      → (s.chip.page p.toNat).st ≠ .hbm
      → s.chip.writeIdle p.toNat = true
      → s.chip.roomAt (s.chip.page p.toNat).st (s.chip.page p.toNat).ch (s.chip.accessRegion (4096 * p.toNat)) = true
      → s.chip.map.badRecs = []
      → ∃ t : Chip, Effect (.repackStart i p loc) s t ∧ Frame [.lauter, .kiln, .map, .win, .fault, .heads, .field, .free] t s.chip
        ∧ (∀ q : Nat, q ≠ p.toNat → t.page q = s.chip.page q)
        ∧ (∀ g : List Byte, s.chip.storedGrist p.toNat (s.chip.accessRegion (4096 * p.toNat)) = g →
          if g ≠ [] ∧ gristSectors g + s.chip.cfg Obj.millMinGainSectors ≤ s.chip.unitLines p.toNat (false, 63)
              ∧ ((s.chip.page p.toNat).st = .nvm → s.chip.pruneOlds.placeOk (s.chip.page p.toNat).ch loc.toNat (gristSectors g - 1 + 1) = true) then
            ∃ m : Slot, Tab.find t.lauter.slots i = some m ∧ m.page = p.toNat
              ∧ m.src = s.chip.page p.toNat ∧ m.dst.st = m.src.st ∧ m.dst.ch = m.src.ch ∧ m.dst.grist = true ∧ m.dst.sectors = gristSectors g - 1
              ∧ m.stage = .copying ∧ m.mask = 0 ∧ m.repack = true
              ∧ (∀ j : Nat, j ≠ i → Tab.find t.lauter.slots j = Tab.find s.chip.lauter.slots j)
              ∧ t.page p.toNat = { s.chip.page p.toNat with st := .migrating }
          else t.lauter = s.chip.lauter ∧ t.page p.toNat = s.chip.page p.toNat))
  ∧ (∀ (s : State) (i : Fin 32) (p : BitVec 34) (loc : BitVec 35),
      s.chip.writeIdle p.toNat = false
      → Effect (.repackStart i p loc) s s.chip)
  ∧ (∀ (s : State) (i : Fin 32) (m : Slot) (obs : List (Fin 64 × Obs)) (b : Nat) (u : Chip) (now : Slot),
      Tab.find s.chip.lauter.slots i = some m
      → m.stage = .copying
      → m.paused = false
      → s.chip.moveTime = true
      → s.chip.endPass m obs = ({ m with bad := b }, u)
      → Tab.find u.lauter.slots i = some now
      → now.paused = false
      → m.repack = false
      → m.changed ≤ s.chip.cfg Obj.lauterSwingMaxLines
      → Effect (.copyPassEnd ⟨i, obs⟩) s (({ u with lauter := { u.lauter with slots := Tab.set u.lauter.slots i { m with bad := b, stage := .holding, mask := 0, pass := m.mask } } } : Chip).queueCopy (if m.mask = 0 then 0 else passBytes m m.mask)) ∧ Frame [.dram, .lauter, .kiln, .map, .integ, .husk, .poison, .mem, .mill, .fault, .heads, .field, .mode, .free] u s.chip)
  ∧ (∀ (s : State) (i : Fin 32) (m : Slot) (obs : List (Fin 64 × Obs)) (b : Nat) (u : Chip) (now : Slot),
      Tab.find s.chip.lauter.slots i = some m
      → m.stage = .copying
      → m.paused = false
      → s.chip.moveTime = true
      → s.chip.endPass m obs = ({ m with bad := b }, u)
      → Tab.find u.lauter.slots i = some now
      → now.paused = false
      → m.repack = false
      → s.chip.cfg Obj.lauterSwingMaxLines < m.changed
      → m.passes < s.chip.cfg Obj.lauterRecopyPasses
      → Effect (.copyPassEnd ⟨i, obs⟩) s (({ u with lauter := { u.lauter with slots := Tab.set u.lauter.slots i { m with bad := b, mask := 0, passes := m.passes + 1, pass := m.mask } } } : Chip).queueCopy (if m.mask = 0 then 0 else passBytes m m.mask)) ∧ Frame [.dram, .lauter, .kiln, .map, .integ, .husk, .poison, .mem, .mill, .fault, .heads, .field, .mode, .free] u s.chip)
  ∧ (∀ (s : State) (i : Fin 32) (m : Slot) (obs : List (Fin 64 × Obs)) (b : Nat) (u : Chip) (now : Slot),
      Tab.find s.chip.lauter.slots i = some m
      → m.stage = .copying
      → m.paused = false
      → s.chip.moveTime = true
      → s.chip.endPass m obs = ({ m with bad := b }, u)
      → Tab.find u.lauter.slots i = some now
      → now.paused = false
      → m.repack = false
      → s.chip.cfg Obj.lauterSwingMaxLines < m.changed
      → s.chip.cfg Obj.lauterRecopyPasses ≤ m.passes
      → ∃ t : Chip, Effect (.copyPassEnd ⟨i, obs⟩) s t ∧ (t.lauter.slots = Tab.del u.lauter.slots i ∧ t.lauter.abandoned = u.lauter.abandoned + 1 ∧ now.page ∈ t.lauter.barred
          ∧ (∀ q : Nat, t.page q = if q = now.page ∧ (u.page q).st = .migrating then { u.page q with st := now.src.st } else u.page q)
          ∧ Frame [.lauter, .kiln, .map] t u ∧ Frame [.dram, .lauter, .kiln, .map, .integ, .husk, .poison, .mem, .mill, .fault, .heads, .field, .mode, .free] u s.chip))
  ∧ (∀ (s : State) (i : Fin 32) (m : Slot) (obs : List (Fin 64 × Obs)) (b : Nat) (u : Chip) (now : Slot),
      Tab.find s.chip.lauter.slots i = some m
      → m.stage = .copying
      → m.paused = false
      → s.chip.moveTime = true
      → s.chip.endPass m obs = ({ m with bad := b }, u)
      → Tab.find u.lauter.slots i = some now
      → now.paused = false
      → m.repack = true
      → m.mask = 0
      → Effect (.copyPassEnd ⟨i, obs⟩) s ({ u with lauter := { u.lauter with slots := Tab.set u.lauter.slots i { m with bad := b, stage := .holding, pass := 0 } } } : Chip) ∧ Frame [.dram, .lauter, .kiln, .map, .integ, .husk, .poison, .mem, .mill, .fault, .heads, .field, .mode, .free] u s.chip)
  ∧ (∀ (s : State) (i : Fin 32) (m : Slot) (obs : List (Fin 64 × Obs)) (b : Nat) (u : Chip) (now : Slot),
      Tab.find s.chip.lauter.slots i = some m
      → m.stage = .copying
      → m.paused = false
      → s.chip.moveTime = true
      → s.chip.endPass m obs = ({ m with bad := b }, u)
      → Tab.find u.lauter.slots i = some now
      → now.paused = false
      → m.repack = true
      → m.mask ≠ 0
      → ∃ t : Chip, Effect (.copyPassEnd ⟨i, obs⟩) s t ∧ (t.lauter.slots = Tab.del u.lauter.slots i ∧ t.lauter.abandoned = u.lauter.abandoned + 1 ∧ now.page ∈ t.lauter.barred
          ∧ (∀ q : Nat, t.page q = if q = now.page ∧ (u.page q).st = .migrating then { u.page q with st := now.src.st } else u.page q)
          ∧ Frame [.lauter, .kiln, .map] t u ∧ Frame [.dram, .lauter, .kiln, .map, .integ, .husk, .poison, .mem, .mill, .fault, .heads, .field, .mode, .free] u s.chip))
  ∧ (∀ (s : State) (i : Fin 32) (m : Slot) (obs : List (Fin 64 × Obs)) (b : Nat) (v u : Chip) (now : Slot),
      Tab.find s.chip.lauter.slots i = some m
      → m.stage = .holding
      → m.paused = false
      → s.chip.inBurst = false
      → s.chip.journalRoom 1 = true
      → s.chip.useOwn m.page = (true, v)
      → v.endPass m obs = ({ m with bad := b }, u)
      → Tab.find u.lauter.slots i = some now
      → now.paused = false
      → u.outgrown { m with bad := b } = false
      → ∃ t : Chip, Effect (.swing ⟨i, obs⟩) s t ∧ (t.page m.page).st = m.dst.st ∧ (t.page m.page).ch = m.dst.ch ∧ (t.page m.page).loc = m.dst.loc
        ∧ (t.page m.page).heat = (u.page m.page).heat ∧ (t.page m.page).gen = (m.src.gen + 1) % 16
        ∧ (∀ q : Nat, q ≠ m.page → t.page q = u.page q) ∧ Tab.find t.lauter.slots i = some { m with bad := b, stage := .swung }
        ∧ t.lauter.migrations = u.lauter.migrations + 1 ∧ t.mill.repacks = u.mill.repacks + (if m.repack then 1 else 0)
        ∧ (∀ k : Nat, k < 64 → bitOf b k = true → t.poisoned (64 * (64 * m.page + k)) = true)
        ∧ Frame [.lauter, .kiln, .map, .mill, .poison, .integ, .macs] t u ∧ Frame [.dram, .lauter, .kiln, .map, .integ, .husk, .poison, .mem, .mill, .fault, .heads, .field, .mode, .free] u v)
  ∧ (∀ (s : State) (i : Fin 32) (m : Slot),
      Tab.find s.chip.lauter.slots i = some m
      → m.stage = .swung
      → Effect (.sourceRelease i) s { s.chip with lauter := { s.chip.lauter with slots := Tab.del s.chip.lauter.slots i } })

/-- Heat decays and names candidates, the journal drains to its zone, a rebuild replays it, and map tables become resident.
Behind it stand choices of the model: log entries 11, 64, 65, 73, 154, 158, 161, 168. -/
def Obligations.HeatJournalAndMapWork : Prop :=
  (∀ (s : State),
      s.chip.inBurst = false
      → s.chip.workMode = true
      → Tab.wf {} s.chip.map.pages = true
      → s.chip.journalRoom 1 = true
      → ∃ t : Chip, Effect .heatDecayPass s t ∧ t.lauter.heat = [] ∧ t.lauter.spill = [] ∧ t.lauter.barred = []
        ∧ (∀ q : Nat, t.page q = if (Tab.find s.chip.map.pages q).isSome = true ∧ s.chip.heatRegion (s.chip.accessRegion (4096 * q)) = true
          then { s.chip.page q with heat := min 255 (((s.chip.page q).heat * s.chip.cfg Obj.lauterDecayKeep) / 16 + s.chip.heatOf q) } else s.chip.page q)
        ∧ (∀ q : Nat, q ∈ t.lauter.promote ↔ ((Tab.find s.chip.map.pages q).isSome = true ∧ s.chip.heatRegion (s.chip.accessRegion (4096 * q)) = true) ∧ (t.page q).resting = true
          ∧ s.chip.cfg Obj.lauterPromoteHeat ≤ (t.page q).heat ∧ (s.chip.tierUp (s.chip.accessRegion (4096 * q)) (t.page q).st.code).isSome = true)
        ∧ t.lauter.slots = s.chip.lauter.slots ∧ Frame [.map, .lauter, .kiln, .fault, .heads, .field] t s.chip)
  ∧ (∀ (s : State) (k : Fin 4),
      k ≠ 0
      → 100 * s.chip.tierFree (tierOfCode k) < s.chip.tierCap (tierOfCode k) * (1 * s.chip.cfg Obj.lauterFreeLowPct)
      → ∃ l : List Nat, Effect (.freeSpaceLow k) s { s.chip with lauter := { s.chip.lauter with low := s.chip.lauter.low ++ l } }
        ∧ ∀ q : Nat, q ∈ l ↔ q ∉ s.chip.lauter.low ∧ s.chip.heatRegion (s.chip.accessRegion (4096 * q)) = true
          ∧ ∃ r, (q, r) ∈ s.chip.map.pages ∧ r.resting = true ∧ r.st = tierOfCode k)
  ∧ (∀ (s : State) (w : Wait),
      s.chip.journalRoom 1 = true
      → s.chip.waits = [w]
      → w.why = .journal
      → Effect .journalSpaceFreed s ((({ s.chip with waits := [] } : Chip).below w.acc { w.obs with keyBad := false } false).keepTc 0 w.tc))
  ∧ (∀ (s : State),
      s.chip.journalRoom 1 = false
      → s.chip.journalFill.journalRoom 1 = false
      → ∃ t : Chip, Effect .journalSpaceFreed s t ∧ t.lauter.journal ++ t.lauter.backlog = s.chip.lauter.journal ++ s.chip.lauter.backlog
        ∧ Frame [.lauter] t s.chip)
  ∧ (∀ (s : State) (n : Nat),
      s.chip.inBurst = false
      → s.chip.zoneOnline ≠ []
      → s.chip.lauter.journal ≠ []
      → ∃ t : Chip, Effect (.journalDrain n false) s t
        ∧ (∀ k : Nat, t.zone k = if k ∈ s.chip.zoneOnline then { s.chip.newestZone with
            ring := s.chip.newestZone.ring ++ s.chip.lauter.journal.take n, stamp := s.chip.newestZone.stamp + 1 } else s.chip.zone k)
        ∧ t.lauter.journal ++ t.lauter.backlog = s.chip.lauter.journal.drop n ++ s.chip.lauter.backlog
        ∧ (s.chip.zoneOnline.length = 1 → t.sticky 51 = true) ∧ Frame [.lauter, .fault, .heads, .field] t s.chip)
  ∧ (∀ (s : State) (n : Nat) (e : JEntry),
      s.chip.inBurst = false
      → s.chip.zoneOnline.length = 2
      → (s.chip.newestZone.ring ++ s.chip.lauter.journal.take n).getLast? = some e
      → ∃ t : Chip, Effect (.journalDrain n true) s t
        ∧ (∀ k : Nat, k ∈ s.chip.zoneOnline → t.zone k = {
            ring := keepAfter e.seq (s.chip.newestZone.ring ++ s.chip.lauter.journal.take n),
            head := wrap32 (s.chip.newestZone.head + ((s.chip.newestZone.ring ++ s.chip.lauter.journal.take n).length
              - (keepAfter e.seq (s.chip.newestZone.ring ++ s.chip.lauter.journal.take n)).length)),
            base := applyEntries s.chip.newestZone.base (s.chip.newestZone.ring ++ s.chip.lauter.journal.take n),
            stamp := s.chip.newestZone.stamp + 1 + 1 })
        ∧ t.lauter.checkpoint = e.seq
        ∧ t.lauter.journal ++ t.lauter.backlog = s.chip.lauter.journal.drop n ++ s.chip.lauter.backlog ++ [⟨s.chip.lauter.jseq, 3, 0, e.seq, 0⟩]
        ∧ Frame [.lauter, .kiln] t s.chip)
  ∧ (∀ (s : State) (bad : ZoneBad),
      s.chip.mode.current = .training
      → s.chip.lauter.rebuilt = false
      → (s.chip.readBase bad).2 = []
      → ∃ t : Chip, Effect (.mapRebuild bad) s t ∧ t.lauter = { s.chip.lauter with slots := [], rebuilt := true }
        ∧ t.map.recordErrors = wrap32 (s.chip.map.recordErrors + (replayEntries (s.chip.newestZone.ring ++ s.chip.lauter.journal) bad).2)
        ∧ (0 < (replayEntries (s.chip.newestZone.ring ++ s.chip.lauter.journal) bad).2 → t.sticky 50 = true)
        ∧ t.map.pages = pagesOfBase (applyEntries (s.chip.readBase bad).1 (replayEntries (s.chip.newestZone.ring ++ s.chip.lauter.journal) bad).1) t.map.tables
        ∧ t.map.cache = [] ∧ t.map.badRecs = [] ∧ t.map.repairing = []
        ∧ Frame [.map, .lauter, .mem, .poison, .macs, .mill, .kiln, .cache, .fault, .heads, .field] t s.chip)
  ∧ (∀ (s : State) (bad : ZoneBad),
      (s.chip.mode.current ≠ .training ∨ s.chip.lauter.rebuilt = true)
      → Effect (.mapRebuild bad) s s.chip)
  ∧ (∀ (s : State) (src : Src) (r : Fin 8) (v : BitVec 8),
      Accepts s.chip src (0x6820 + ↑r) 4 1
      → v.toNat ≤ 1
      → s.chip.tablesFit r = true
      → (s.chip.sbAppend 1 (paramKey (objAt Obj.policyMapResident r)) (bytesLE 1 (v.toNat))).1 = true
      → ∃ t : Chip, Effect (.mapResidentWrite src r v) s (t.answerWrite src (0x6820 + ↑r) 4 (bytesLE 1 v.toNat) 0)
        ∧ Tab.find t.rwp (objAt Obj.policyMapResident r) = some (v.toNat)
        ∧ (∀ k : Nat, k ≠ objAt Obj.policyMapResident r → t.cfg k = s.chip.cfg k)
        ∧ Frame [.sb, .fault, .heads, .field, .rwp] t s.chip)
  ∧ (∀ (s : State) (r : Fin 8),
      s.chip.inBurst = false
      → s.chip.cfgAt Obj.policyMapResident r = 1
      → s.chip.tablesFit r = true
      → ∃ t : Chip, Effect (.mapResidentEffect r) s t ∧ t.mapResident r = true ∧ (∀ j : Nat, j ≠ r → t.mapResident j = s.chip.mapResident j) ∧ Frame [.map] t s.chip)
  ∧ (∀ (s : State) (r : Fin 8),
      s.chip.inBurst = false
      → s.chip.cfgAt Obj.policyMapResident r = 0
      → bitOf s.chip.map.resident r = true
      → Effect (.mapResidentEffect r) s { s.chip with map := { s.chip.map with resident := setBit s.chip.map.resident r false } })
  ∧ (∀ (s : State) (r : Fin 8),
      s.chip.cfgAt Obj.policyMapResident r = 0
      → s.chip.mapResident r = false)

/-- Channels go online, evacuate and go offline, and units retire.
Behind it stand choices of the model: log entries 28, 82. -/
def Obligations.ChannelsChangeStateAndUnitsRetire : Prop :=
  (∀ (s : State) (src : Src) (n : Fin 16),
      Accepts s.chip src (0x6840 + ↑n) 2 1
      → s.chip.chanState n = .offline
      → s.chip.pairSecond n = false
      → s.chip.domain (chanDomain n) = .on
      → s.chip.chanUsable n = true
      → ∃ t : Chip, Effect (.chanOnline src n) s (t.answerWrite src (0x6840 + ↑n) 2 (bytesLE 1 1) 0)
        ∧ t.chanState n = .online
        ∧ (∀ j : Nat, j ≠ n → t.chanState j = s.chip.chanState j)
        ∧ Tab.get 0 t.lauter.capPages n = s.chip.chanCap n
        ∧ Frame [.lauter] t s.chip)
  ∧ (∀ (s : State) (src : Src) (n : Fin 16),
      Accepts s.chip src (0x6840 + ↑n) 2 1
      → s.chip.chanState n = .offline
      → s.chip.pairSecond n = false
      → s.chip.domain (chanDomain n) = .on
      → s.chip.chanUsable n = false
      → Effect (.chanOnline src n) s (s.chip.answerWrite src (0x6840 + ↑n) 2 [1] Abort.resourceOwned))
  ∧ (∀ (s : State) (src : Src) (n : Fin 16),
      Accepts s.chip src (0x6840 + ↑n) 2 1
      → s.chip.chanState n = .online
      → ∃ t : Chip, Effect (.chanEvacuate src n) s (t.answerWrite src (0x6840 + ↑n) 2 (bytesLE 1 2) 0)
        ∧ t.chanState n = .evacuating
        ∧ (∀ j : Nat, j ≠ n → t.chanState j = s.chip.chanState j)
        ∧ (∀ i : Nat, Tab.find t.lauter.slots i = if i ∈ (s.chip.lauter.slots.filter (fun (e : Nat × Slot) => decide (e.2.stage ≠ .swung ∧ e.2.dst.st ≠ .hbm ∧ tierChan e.2.dst.st e.2.dst.ch = n))).map (·.1) then none else Tab.find s.chip.lauter.slots i)
        ∧ Frame [.lauter, .kiln, .map, .fault, .heads, .field] t s.chip)
  ∧ (∀ (s : State) (src : Src) (n : Fin 16),
      Accepts s.chip src (0x6840 + ↑n) 2 1
      → s.chip.chanState n = .evacuating
      → ∃ t : Chip, Effect (.chanCancelEvacuate src n) s (t.answerWrite src (0x6840 + ↑n) 2 (bytesLE 1 4) 0)
        ∧ t.chanState n = .online
        ∧ (∀ j : Nat, j ≠ n → t.chanState j = s.chip.chanState j)
        ∧ Frame [.lauter] t s.chip)
  ∧ (∀ (s : State) (src : Src) (n : Fin 16),
      Accepts s.chip src (0x6840 + ↑n) 2 1
      → (s.chip.chanState n = .evacuated ∨ s.chip.chanState n = .offline)
      → s.chip.pairSecond n = false
      → ∃ t : Chip, Effect (.chanOffline src n) s (t.answerWrite src (0x6840 + ↑n) 2 (bytesLE 1 3) 0)
        ∧ t.chanState n = .offline
        ∧ (∀ j : Nat, j ≠ n → t.chanState j = s.chip.chanState j)
        ∧ (∀ v : Nat, v ∈ t.lauter.excluded ↔ v ∈ s.chip.lauter.excluded ∧ ¬ (bitsOf v 0 4 = (if n.val < 8 then 2 else 3) ∧ bitsOf v 4 4 = n.val % 8))
        ∧ Frame [.lauter] t s.chip)
  ∧ (∀ (s : State) (n : Fin 16),
      s.chip.chanState n = .evacuating
      → s.chip.pagesOn (if n.val < 8 then .ddr else .nvm) (n.val % 8) = []
      → (8 ≤ n.val ∨ s.chip.stopped n = false)
      → (s.chip.lauter.slots.all (fun e => decide (¬ (e.2.src.st = (if n.val < 8 then PgState.ddr else .nvm) ∧ e.2.src.ch = n.val % 8))) = true)
      → ∃ t : Chip, Effect (.evacuationComplete n) s t ∧ t.chanState n = .evacuated ∧ (∀ j : Nat, j ≠ n → t.chanState j = s.chip.chanState j) ∧ t.lauter.slots = s.chip.lauter.slots
        ∧ (n.val < 8 ∨ n.val - 8 ∉ s.chip.zoneChans → t = s.chip.setChanState n .evacuated)
        ∧ Frame [.lauter, .kiln, .rwp, .sb, .fault, .heads, .field, .free] t s.chip)
  ∧ (∀ (s : State) (src : Src) (v : BitVec 64),
      Accepts s.chip src (0x6810) 0x10 8
      → retireOk v.toNat = true
      → (s.chip.lauter.retireStatus = 0 ∨ s.chip.lauter.retireStatus = 2)
      → ∃ t : Chip, Effect (.retire src v) s (t.answerWrite src (0x6810) 0x10 (bytesLE 8 v.toNat) 0)
        ∧ t.lauter.retireStatus = 1
        ∧ t.lauter.retireUnit = v.toNat
        ∧ t.lauter.retireTc = s.chip.tb.tc
        ∧ v.toNat ∈ t.lauter.excluded
        ∧ (∀ u ∈ s.chip.lauter.excluded, u ∈ t.lauter.excluded)
        ∧ Frame [.lauter] t s.chip)
  ∧ (∀ (s : State) (src : Src) (v : BitVec 64),
      Accepts s.chip src 0x6810 0x10 8
      → retireOk v.toNat = true
      → (s.chip.lauter.retireStatus = 1 ∨ s.chip.lauter.retireStatus = 3)
      → Effect (.retire src v) s (s.chip.answerWrite src 0x6810 0x10 (bytesLE 8 v.toNat) Abort.resourceOwned))
  ∧ (∀ (s : State),
      (s.chip.lauter.retireStatus = 1 ∨ s.chip.lauter.retireStatus = 3)
      → s.chip.map.pages.any (fun e => s.chip.inUnit s.chip.lauter.retireUnit (s.chip.srcRec e.1)) = false
      → ∃ t : Chip, Effect (.retireComplete false) s t ∧ t.lauter.retireStatus = 2 ∧ t.lauter.retireUnit = s.chip.lauter.retireUnit
        ∧ t.lauter.excluded = s.chip.lauter.excluded
        ∧ (s.chip.retRoom = true → s.chip.integ.lostSince = 0 → t.integ.producer = wrap32 (s.chip.integ.producer + 1)
          ∧ ∃ e, Tab.find t.integ.ring (s.chip.integ.producer % 4096) = some e ∧ e.kind = 10 ∧ e.retire = s.chip.lauter.retireUnit)
        ∧ Frame [.lauter, .integ, .fault, .heads, .field] t s.chip)
  ∧ (∀ (s : State),
      s.chip.lauter.retireStatus = 1
      → s.chip.map.pages.any (fun e => s.chip.inUnit s.chip.lauter.retireUnit (s.chip.srcRec e.1)) = true
      → ∃ t : Chip, Effect (.retireComplete true) s t ∧ t.lauter.retireStatus = 3 ∧ t.lauter.retireUnit = s.chip.lauter.retireUnit
        ∧ t.lauter.excluded = s.chip.lauter.excluded
        ∧ (s.chip.retRoom = true → s.chip.integ.lostSince = 0 → t.integ.producer = wrap32 (s.chip.integ.producer + 1)
          ∧ ∃ e, Tab.find t.integ.ring (s.chip.integ.producer % 4096) = some e ∧ e.kind = 11 ∧ e.retire = s.chip.lauter.retireUnit)
        ∧ Frame [.lauter, .integ, .fault, .heads, .field] t s.chip)

/-- Extents are offered, withdrawn, asked back and forced back, and their storage is freed block by block.
Behind it stand choices of the model: log entries 6, 65, 66. -/
def Obligations.ExtentsAreOfferedReleasedAndFreed : Prop :=
  (∀ (s : State) (src : Src) (region : Fin 8) (cask : Fin 1024) (group : Fin 4) (ext : Ext),
      Accepts s.chip src (0x6830) 1 32
      → ext.len.toNat ≠ 0
      → ext.base.toNat % (s.chip.cfgAt Obj.dcBlockMib region * mib) = 0
      → ext.len.toNat % (s.chip.cfgAt Obj.dcBlockMib region * mib) = 0
      → s.chip.cfgAt Obj.dcBase region ≤ ext.base.toNat
      → ext.base.toNat + ext.len.toNat ≤ s.chip.cfgAt Obj.dcBase region + s.chip.cfgAt Obj.dcLength region
      → (s.chip.cask cask).state ≠ .free
      → (s.chip.caskDomain cask = none ∨ s.chip.sharable region = true)
      → s.chip.map.extents.any (fun e => e.blocks.any (fun k => !e.freed.contains (k - e.base / 2097152) && overlaps (2097152 * k) 2097152 ext.base.toNat ext.len.toNat)) = false
      → ∃ t : Chip, Effect (.extentOffer src region cask group ext) s (t.answerWrite src (0x6830) 1 (bytesLE 32 (1 + region.val * 2 ^ 8 + cask.val * 2 ^ 16 + group.val * 2 ^ 32 + ext.base.toNat * 2 ^ 64 + ext.len.toNat * 2 ^ 128)) 0)
        ∧ (∃ x, t.map = { s.chip.map with extents := s.chip.map.extents ++ [⟨ext.base.toNat, ext.len.toNat, cask, group, region, .offered, []⟩], badRecs := x })
        ∧ Frame [.map, .lauter, .kiln, .heads] t s.chip)
  ∧ (∀ (s : State) (src : Src) (region : Fin 8) (cask : Fin 1024) (group : Fin 4) (ext : Ext),
      Accepts s.chip src 0x6830 1 32
      → ext.len.toNat ≠ 0
      → ext.base.toNat % (s.chip.cfgAt Obj.dcBlockMib region * mib) = 0
      → ext.len.toNat % (s.chip.cfgAt Obj.dcBlockMib region * mib) = 0
      → s.chip.cfgAt Obj.dcBase region ≤ ext.base.toNat
      → ext.base.toNat + ext.len.toNat ≤ s.chip.cfgAt Obj.dcBase region + s.chip.cfgAt Obj.dcLength region
      → (s.chip.cask cask).state ≠ .free
      → (s.chip.caskDomain cask = none ∨ s.chip.sharable region = true)
      → s.chip.map.extents.any (fun e => e.blocks.any (fun k => !e.freed.contains (k - e.base / 2097152) && overlaps (2097152 * k) 2097152 ext.base.toNat ext.len.toNat)) = true
      → Effect (.extentOffer src region cask group ext) s (s.chip.answerWrite src 0x6830 1 (bytesLE 32 (1 + region.val * 2 ^ 8 + cask.val * 2 ^ 16 + group.val * 2 ^ 32 + ext.base.toNat * 2 ^ 64 + ext.len.toNat * 2 ^ 128)) Abort.resourceOwned))
  ∧ (∀ (s : State) (src : Src) (region : Fin 8) (ext : Ext) (e : Extent),
      Accepts s.chip src (0x6830) 1 32
      → s.chip.extentNamed region ext.base.toNat ext.len.toNat = some e
      → e.st = .offered
      → ∃ t : Chip, Effect (.extentWithdraw src region ext) s (t.answerWrite src (0x6830) 1 (bytesLE 32 (2 + region.val * 2 ^ 8 + ext.base.toNat * 2 ^ 64 + ext.len.toNat * 2 ^ 128)) 0)
        ∧ (∃ x, t.map = { s.chip.map with extents := s.chip.map.extents.filter (fun x => decide (x ≠ e)), badRecs := x })
        ∧ Frame [.map, .lauter, .kiln, .casks] t s.chip)
  ∧ (∀ (s : State) (src : Src) (region : Fin 8) (ext : Ext) (e : Extent),
      Accepts s.chip src 0x6830 1 32
      → s.chip.extentNamed region ext.base.toNat ext.len.toNat = some e
      → e.st ≠ .offered
      → Effect (.extentWithdraw src region ext) s (s.chip.answerWrite src 0x6830 1 (bytesLE 32 (2 + region.val * 2 ^ 8 + ext.base.toNat * 2 ^ 64 + ext.len.toNat * 2 ^ 128)) Abort.resourceOwned))
  ∧ (∀ (s : State) (src : Src) (region : Fin 8) (ext : Ext) (e : Extent),
      Accepts s.chip src (0x6830) 1 32
      → s.chip.extentNamed region ext.base.toNat ext.len.toNat = some e
      → e.st = .accepted
      → ∃ t : Chip, Effect (.extentRequestRelease src region ext) s (t.answerWrite src (0x6830) 1 (bytesLE 32 (3 + region.val * 2 ^ 8 + ext.base.toNat * 2 ^ 64 + ext.len.toNat * 2 ^ 128)) 0)
        ∧ t.map = s.chip.map
        ∧ Frame [.heads] t s.chip)
  ∧ (∀ (s : State) (src : Src) (region : Fin 8) (ext : Ext) (e : Extent),
      Accepts s.chip src (0x6830) 1 32
      → s.chip.extentNamed region ext.base.toNat ext.len.toNat = some e
      → e.st = .accepted
      → ∃ t : Chip, Effect (.extentForceRelease src region ext) s (t.answerWrite src (0x6830) 1 (bytesLE 32 (4 + region.val * 2 ^ 8 + ext.base.toNat * 2 ^ 64 + ext.len.toNat * 2 ^ 128)) 0)
        ∧ t.map.extents = s.chip.map.extents.map (fun x => if x = e then { e with st := .releasing } else x)
        ∧ t.sticky 57 = true
        ∧ (∀ k : Nat, lineNo e.base ≤ k → k < lineNo e.base + e.len / 64 → Tab.find t.cache.lines k = none)
        ∧ Frame [.map, .lauter, .kiln, .cache, .fault, .heads, .field] t s.chip)
  ∧ (∀ (s : State) (src : Src) (region : Fin 8) (ext : Ext),
      Accepts s.chip src 0x6830 1 32
      → s.chip.extentNamed region ext.base.toNat ext.len.toNat = none
      → Effect (.extentForceRelease src region ext) s (s.chip.answerWrite src 0x6830 1 (bytesLE 32 (4 + region.val * 2 ^ 8 + ext.base.toNat * 2 ^ 64 + ext.len.toNat * 2 ^ 128)) Abort.outOfRange))
  ∧ (∀ (s : State) (blk : BitVec 25) (e : Extent),
      s.chip.extentOf (2097152 * blk.toNat) = some e
      → e.st = .releasing
      → s.chip.inBurst = false
      → s.chip.waits.all (fun w => decide (blockNo w.acc.dla ≠ blk.toNat)) = true
      → s.chip.mill.expanding.all (fun x => decide (x.1 / 512 ≠ blk.toNat)) = true
      → e.freed.length + 1 ≠ e.len / 2097152
      → ∃ t : Chip, Effect (.blockStorageFree blk) s t ∧ (∀ x : Nat, Tab.get 0 t.mem x = if x / 2097152 = blk.toNat ∧ (Tab.find s.chip.map.pages (x / 4096)).isSome = true then 0 else Tab.get 0 s.chip.mem x)
        ∧ (∀ p : Nat, t.page p = if p / 512 = blk.toNat then {} else s.chip.page p)
        ∧ t.map.extents = s.chip.map.extents.map (fun x => if x = e then { e with freed := e.freed ++ [blk.toNat - e.base / 2097152] } else x)
        ∧ Frame [.map, .lauter, .mem, .poison, .macs, .mill, .kiln, .cache, .casks] t s.chip)
  ∧ (∀ (s : State) (blk : BitVec 25) (e : Extent),
      s.chip.extentOf (2097152 * blk.toNat) = some e
      → e.st = .releasing
      → s.chip.inBurst = false
      → s.chip.waits.all (fun w => decide (blockNo w.acc.dla ≠ blk.toNat)) = true
      → s.chip.mill.expanding.all (fun x => decide (x.1 / 512 ≠ blk.toNat)) = true
      → e.freed.length + 1 = e.len / 2097152
      → ∃ t : Chip, Effect (.blockStorageFree blk) s t ∧ (∀ x : Nat, Tab.get 0 t.mem x = if x / 2097152 = blk.toNat ∧ (Tab.find s.chip.map.pages (x / 4096)).isSome = true then 0 else Tab.get 0 s.chip.mem x)
        ∧ (∀ p : Nat, t.page p = if p / 512 = blk.toNat then {} else s.chip.page p)
        ∧ t.map.extents = s.chip.map.extents.filter (fun x => decide (x ≠ e ∧ x ≠ { e with freed := e.freed ++ [blk.toNat - e.base / 2097152] }))
        ∧ Frame [.map, .lauter, .mem, .poison, .macs, .mill, .kiln, .cache, .casks] t s.chip)

/-- The cache cleans, flushes and prefetches, scratch units clear, and writes go on when a way is free.
Behind it stand choices of the model: log entries 10, 12, 70, 153, 172. -/
def Obligations.CacheWorkPrefetchesAndScratchUnits : Prop :=
  (∀ (s : State) (src : Src) (v : BitVec 8),
      Accepts s.chip src (0xB000) 6 1
      → v = 1
      → ∃ t : Chip, Effect (.cacheFlush src v) s (t.answerWrite src (0xB000) 6 (bytesLE 1 v.toNat) 0)
        ∧ t.cache = { s.chip.cache with flushing := decide (s.chip.dirtyLines ≠ 0) }
        ∧ Frame [.cache] t s.chip)
  ∧ (∀ (s : State) (dla : BitVec 46) (c : CLine),
      s.chip.workMode = true
      → s.chip.inBurst = false
      → s.chip.win.prologueOn = false
      → Tab.find s.chip.cache.lines (lineNo dla.toNat) = some c
      → c.dirty = true
      → s.chip.cleanNext (lineNo dla.toNat) c = true
      → s.chip.tierWait (64 * lineNo dla.toNat) = none
      → KeysHold s.chip
      → ∃ t : Chip, Effect (.cleanerWriteback dla) s t ∧ Tab.find t.cache.lines (lineNo dla.toNat) = some { c with dirty := false, heavy := false }
        ∧ (∀ k : Nat, k ≠ lineNo dla.toNat → Tab.find t.cache.lines k = Tab.find s.chip.cache.lines k) ∧ Frame [.cache, .lauter, .kiln, .dram, .map] t s.chip)
  ∧ (∀ (s : State) (src : Src) (u : BitVec 8),
      Accepts s.chip src (0xB000) 5 1
      → u.toNat < s.chip.cache.ways
      → ∃ t : Chip, Effect (.scratchClear src u) s (t.answerWrite src (0xB000) 5 (bytesLE 1 u.toNat) 0)
        ∧ (∀ x : Nat, Tab.get 0 t.mem x = if (0x3FFFFE000000 + u.toNat * 0x400000) ≤ x ∧ x < (0x3FFFFE000000 + u.toNat * 0x400000) + 0x400000 then 0 else Tab.get 0 s.chip.mem x)
        ∧ (∀ w : Nat, Tab.get false t.cache.words w = if (0x3FFFFE000000 + u.toNat * 0x400000) ≤ 8 * w ∧ 8 * w < (0x3FFFFE000000 + u.toNat * 0x400000) + 0x400000 then false else Tab.get false s.chip.cache.words w)
        ∧ Frame [.cache, .mem, .poison] t s.chip)
  ∧ (∀ (s : State) (src : Src) (u : BitVec 8),
      Accepts s.chip src 0xB000 5 1
      → s.chip.cache.ways ≤ u.toNat
      → Effect (.scratchClear src u) s (s.chip.answerWrite src 0xB000 5 (bytesLE 1 u.toNat) Abort.outOfRange))
  ∧ (∀ (s : State) (src : Src) (n : BitVec 8),
      Accepts s.chip src (0xB000) 2 1
      → n.toNat ≤ 8
      → (changedWays s.chip.cache.ways n.toNat).all (fun w => decide (s.chip.domain (28 + w / 4) = .on)) = true
      → (s.chip.sbAppend 1 (paramKey Obj.cacheScratchWays) (bytesLE 1 n.toNat)).1 = true
      → ∃ t : Chip, Effect (.scratchWaysWrite src n) s (t.answerWrite src (0xB000) 2 (bytesLE 1 n.toNat) 0)
        ∧ Tab.find t.rwp Obj.cacheScratchWays = some n.toNat
        ∧ t.win.ops = s.chip.win.ops ++ [⟨.scratchWays s.chip.cache.ways n.toNat, s.chip.scratchUs (changedWays s.chip.cache.ways n.toNat), 0⟩]
        ∧ Frame [.sb, .fault, .heads, .field, .rwp, .win] t s.chip)
  ∧ (∀ (s : State) (dla : BitVec 46) (w : Wait),
      s.chip.waits = [w]
      → w.why = .way
      → cacheSet (lineNo w.acc.dla) = cacheSet (lineNo dla.toNat)
      → Effect (.wayEligible dla) s ((({ s.chip with waits := [] } : Chip).below w.acc { w.obs with keyBad := false } false).keepTc 0 w.tc))
  ∧ (∀ (s : State) (m : BitVec 8) (dla : BitVec 46) (obs : Obs) (t : Tracker),
      s.chip.workMode = true
      → (s.chip.cache.trackers.find? (fun t => decide (t.master = m.toNat ∧ t.page = lineNo dla.toNat / 64 ∧ t.last < lineNo dla.toNat ∧ lineNo dla.toNat ≤ t.last + s.chip.cfg Obj.cachePrefetchDepth) && t.started) = some t)
      → ((s.chip.cached dla.toNat).isSome || s.chip.cache.side.contains (lineNo dla.toNat) || s.chip.sharedLine (lineNo dla.toNat)) = false
      → s.chip.cfgAt Obj.cacheRegionPrefetch (s.chip.accessRegion dla.toNat) = 1
      → ∃ u : Chip, Effect (.streamPrefetch m dla true obs) s u ∧ u.cache = { s.chip.cache with prefKilled := s.chip.cache.prefKilled + 1 }
        ∧ (∀ p : Nat, portOf m.toNat = some p → Tab.get 0 u.cnt.kills p = min 255 (Tab.get 0 s.chip.cnt.kills p + 1)) ∧ Frame [.cache, .cnt] u s.chip)
  ∧ (∀ (s : State) (m : BitVec 8) (dla : BitVec 46) (obs : Obs) (t : Tracker) (c : Nat),
      s.chip.workMode = true
      → (s.chip.cache.trackers.find? (fun t => decide (t.master = m.toNat ∧ t.page = lineNo dla.toNat / 64 ∧ t.last < lineNo dla.toNat ∧ lineNo dla.toNat ≤ t.last + s.chip.cfg Obj.cachePrefetchDepth) && t.started) = some t)
      → ((s.chip.cached dla.toNat).isSome || s.chip.cache.side.contains (lineNo dla.toNat) || s.chip.sharedLine (lineNo dla.toNat)) = false
      → s.chip.cfgAt Obj.cacheRegionPrefetch (s.chip.accessRegion dla.toNat) = 1
      → s.chip.verdict ⟨m.toNat, t.bind, .read, lineBase dla.toNat, fullMask, 0, false, true, 0, .none⟩ obs = .ok c
      → (s.chip.srcRec (lineNo dla.toNat / 64)).resting = true
      → (({ s.chip with cache := { s.chip.cache with prefIssued := s.chip.cache.prefIssued + 1 } } : Chip).tierRead (lineNo dla.toNat) obs true 0).1 = .good
      → Effect (.streamPrefetch m dla false obs) s ((({ s.chip with cache := { s.chip.cache with prefIssued := s.chip.cache.prefIssued + 1 } } : Chip).tierRead (lineNo dla.toNat) obs true 0).2.sideAdd (lineNo dla.toNat)))

/-- A page that waited for room gets it, or is poisoned, and a grist page that is written expands onto DDR5.
Behind it stand choices of the model: log entries 6, 19, 29, 158. -/
def Obligations.WaitsForSpaceEndAndPagesExpand : Prop :=
  (∀ (s : State) (p : BitVec 34) (w : Wait),
      s.chip.waits = [w]
      → w.onPage .space p.toNat = true
      → Effect (.spaceAvailable p) s ((({ s.chip with waits := [] } : Chip).below w.acc { w.obs with keyBad := false } false).keepTc 0 w.tc))
  ∧ (∀ (s : State) (p : BitVec 34) (w : Wait),
      s.chip.waits = [w]
      → w.onPage .space p.toNat = true
      → ∃ x : Chip, Effect (.spaceWaitExpiry p) s ((x.below w.acc { w.obs with keyBad := false } false).keepTc 0 w.tc) ∧ (x.page p.toNat).st = .poisoned
        ∧ x.mill.spacePoisoned = s.chip.mill.spacePoisoned + 1 ∧ x.waits = [] ∧ (∀ q : Nat, q ≠ p.toNat → x.page q = s.chip.page q)
        ∧ Frame [.mill, .waits, .lauter, .kiln, .map] x s.chip)
  ∧ (∀ (s : State) (p : BitVec 34) (w : Wait),
      s.chip.waits = [w]
      → w.onPage .mirror p.toNat = true
      → ∃ x : Chip, Effect (.mirrorWaitExpiry p) s ((x.below w.acc { w.obs with keyBad := false } false).keepTc 0 w.tc) ∧ (x.page p.toNat).st = .poisoned ∧ x.waits = []
        ∧ (∀ q : Nat, q ≠ p.toNat → x.page q = s.chip.page q) ∧ Frame [.waits, .lauter, .kiln, .map] x s.chip)
  ∧ (∀ (s : State) (p : BitVec 34) (obs : List (Fin 64 × Obs)) (l : List Nat),
      Tab.find s.chip.mill.expanding p.toNat = some l
      → ((s.chip.page p.toNat).st ≠ .ddr ∨ s.chip.ddrBlocked (s.chip.page p.toNat).ch = false)
      → s.chip.tierRoom .ddr true = true
      → s.chip.expandChans p.toNat ≠ []
      → s.chip.journalRoom 1 = true
      → s.chip.map.badRecs = []
      → ((s.chip.page p.toNat).st ≠ .ddr ∨ ((s.chip.useOwn p.toNat).2.readLines p.toNat (2 ^ 64 - 1) true obs 3).2.ddrBlocked (s.chip.page p.toNat).ch = false)
      → KeysHold ((s.chip.useOwn p.toNat).2.readLines p.toNat (2 ^ 64 - 1) true obs 3).2
      → ∃ t : Chip, Effect (.expansionComplete ⟨p, obs⟩) s t ∧ (t.page p.toNat).st = .ddr ∧ (t.page p.toNat).grist = false ∧ (t.page p.toNat).sectors = 63
        ∧ (t.page p.toNat).heat = (((s.chip.useOwn p.toNat).2.readLines p.toNat (2 ^ 64 - 1) true obs 3).2.page p.toNat).heat ∧ (t.page p.toNat).gen = ((((s.chip.useOwn p.toNat).2.readLines p.toNat (2 ^ 64 - 1) true obs 3).2.page p.toNat).gen + 1) % 16
        ∧ (∀ q : Nat, q ≠ p.toNat → t.page q = ((s.chip.useOwn p.toNat).2.readLines p.toNat (2 ^ 64 - 1) true obs 3).2.page q)
        ∧ (∀ k : Nat, k < 64 → bitOf ((s.chip.useOwn p.toNat).2.readLines p.toNat (2 ^ 64 - 1) true obs 3).1 k = true → t.poisoned (64 * (64 * p.toNat + k)) = true)
        ∧ Tab.find t.mill.expanding p.toNat = none ∧ t.mill.expansions = ((s.chip.useOwn p.toNat).2.readLines p.toNat (2 ^ 64 - 1) true obs 3).2.mill.expansions + 1
        ∧ Frame [.map, .mill, .lauter, .kiln, .poison, .macs, .integ, .cache, .dram, .fault, .heads, .field, .free] t ((s.chip.useOwn p.toNat).2.readLines p.toNat (2 ^ 64 - 1) true obs 3).2)

/-- Key blobs load or are refused, keys are zeroised, erased and rebuilt, and roots, debug and link slots are set.
Behind it stand choices of the model: log entries 18, 57, 58, 59, 60, 61, 171. -/
def Obligations.KeysLoadEraseAndRebuild : Prop :=
  (∀ (s : State) (src : Src) (c : Fin 1024) (blob : BitVec 1472),
      Accepts s.chip src (0x9000 + ↑c) 0x20 184
      → (s.chip.cask c).state ≠ .free
      → (s.chip.cask c).keyState = .empty
      → ∃ (code : Nat) (t : Chip), Effect (.caskKeyBlobLoad src c blob) s (t.answerWrite src (0x9000 + ↑c) 0x20 (bytesLE 184 blob.toNat) code)
        ∧ (∀ w, s.chip.unwrapBlob 1 blob = some w → code = 0 ∧ (∀ j : Nat, j ≠ c → t.cask j = s.chip.cask j) ∧ Frame [.casks, .sb, .fault, .heads, .field] t s.chip
          ∧ t.cask c = { s.chip.cask c with keyState := .loaded, keyId := bitsOf w 32 32, keys := some (keySetOf w), blob := some blob })
        ∧ (s.chip.unwrapBlob 1 blob = none → code = Abort.keyUnwrap ∧ t.husk.unwrapFailures = s.chip.husk.unwrapFailures + 1 ∧ t.sticky 82 = true
          ∧ Frame [.husk, .fault, .heads, .field] t s.chip))
  ∧ (∀ (s : State) (src : Src) (c : Fin 1024) (blob : BitVec 1472),
      Accepts s.chip src (0x9000 + ↑c) 0x20 184
      → (s.chip.cask c).state ≠ .free
      → (s.chip.cask c).keyState ≠ .empty
      → Effect (.caskKeyBlobLoad src c blob) s (s.chip.answerWrite src (0x9000 + ↑c) 0x20 (bytesLE 184 blob.toNat) Abort.resourceOwned))
  ∧ (∀ (s : State) (src : Src) (c : Fin 1024),
      Accepts s.chip src (0x9000 + ↑c) 0x23 1
      → (s.chip.cask c).state = .quiesced
      → ((s.chip.cask c).keyState = .loaded ∨ (s.chip.cask c).keyState = .fault)
      → ∃ t : Chip, Effect (.zeroise src c) s (t.answerWrite src (0x9000 + ↑c) 0x23 (bytesLE 1 1) 0)
        ∧ t.cask c = { s.chip.cask c with keyState := .erasing, keys := none, blob := none }
        ∧ (∀ j : Nat, j ≠ c → t.cask j = s.chip.cask j)
        ∧ (∀ r : SbRec, r ∈ t.sb.recs ↔ r ∈ s.chip.sb.recs ∧ ¬ (r.kind = 3 ∧ r.key = c))
        ∧ Frame [.casks, .sb] t s.chip)
  ∧ (∀ (s : State) (src : Src) (c : Fin 1024),
      Accepts s.chip src (0x9000 + ↑c) 0x23 1
      → s.chip.mayZeroise c = false
      → Effect (.zeroise src c) s (s.chip.answerWrite src (0x9000 + ↑c) 0x23 (bytesLE 1 1) Abort.caskState))
  ∧ (∀ (s : State) (c : Fin 1024),
      (s.chip.cask c).keyState = .erasing
      → (s.chip.caskPages c).all (fun p => decide (s.chip.migOf p = none)) = true
      → s.chip.permits .migration = true
      → ∃ t : Chip, Effect (.eraseWalkEnd c) s t ∧ (t.cask c).keyState = (if s.chip.map.extents.any (fun e => decide (e.cask = c)) then .erased else .empty)
        ∧ (∀ p : Nat, t.page p = if p ∈ s.chip.caskPages c ∧ (s.chip.page p).st = .hbm then { s.chip.page p with st := .poisoned } else s.chip.page p)
        ∧ (∀ k : Nat, k / 64 ∈ s.chip.caskPages c → Tab.find t.cache.lines k = none) ∧ (∀ j : Nat, j ≠ c → t.cask j = s.chip.cask j) ∧ Frame [.map, .lauter, .kiln, .cache, .casks] t s.chip)
  ∧ (∀ (s : State) (src : Src) (v : BitVec 32),
      Accepts s.chip src (0xC000) 3 4
      → v = 0xE2A5E000
      → (((s.chip.casks.filter (fun e => decide (e.2.keyState = .loaded ∨ e.2.keyState = .fault))).map (·.1)).all s.chip.mayZeroise = true)
      → (List.range 8).all (fun l => !s.chip.linkEnc l) = true
      → ∃ t : Chip, Effect (.zeroiseAll src v) s (t.answerWrite src (0xC000) 3 (bytesLE 4 v.toNat) 0)
        ∧ (∀ c : Nat, (s.chip.cask c).keyState = .loaded ∨ (s.chip.cask c).keyState = .fault → (t.cask c).keyState = .erasing ∧ (t.cask c).keys = none)
        ∧ (∀ c : Nat, (t.cask c).blob = none ∧ (t.cask c).state = (s.chip.cask c).state)
        ∧ t.husk.linkSlots = []
        ∧ (∀ r ∈ t.sb.recs, r.kind ≠ 3)
        ∧ Frame [.casks, .sb, .husk] t s.chip)
  ∧ (∀ (s : State) (c : Fin 1024) (w : Wait) (ok sb : Bool),
      (s.chip.cask c).keyState = .loaded
      → (ok || (sb && (s.chip.sbLive 3 c).isSome)) = true
      → s.chip.waits = [w]
      → s.chip.waitsKey c w = true
      → Effect (.keyRebuild (.cask c) ok sb) s ((({ s.chip with husk := { s.chip.husk with vaultErrors := s.chip.husk.vaultErrors + 1 }, waits := [] } : Chip).below w.acc { w.obs with keyBad := false } false).keepTc 0 w.tc))
  ∧ (∀ (s : State) (c : Fin 1024),
      (s.chip.cask c).keyState = .loaded
      → s.chip.waits.all (fun w => !s.chip.waitsKey c w) = true
      → ∃ t : Chip, Effect (.keyRebuild (.cask c) false false) s t ∧ t.cask c = { s.chip.cask c with keyState := .fault, keys := none } ∧ (∀ j : Nat, j ≠ c → t.cask j = s.chip.cask j)
        ∧ t.husk.vaultErrors = s.chip.husk.vaultErrors + 1 ∧ t.sticky 83 = true ∧ t.waits = s.chip.waits ∧ Frame [.casks, .husk, .fault, .heads, .field] t s.chip)
  ∧ (∀ (s : State) (l : Fin 8) (slot : Fin 2) (sb : Bool),
      s.chip.slotLoaded l slot = true
      → Effect (.keyRebuild (.link l slot) true sb) s { s.chip with husk := { s.chip.husk with vaultErrors := s.chip.husk.vaultErrors + 1 } })
  ∧ (∀ (s : State) (l : Fin 8) (slot : Fin 2) (sb : Bool),
      s.chip.slotLoaded l slot = true
      → ∃ t : Chip, Effect (.keyRebuild (.link l slot) false sb) s t ∧ t.slotLoaded l slot = false ∧ (∀ k : Nat, k ≠ 2 * l + slot → Tab.get {} t.husk.linkSlots k = Tab.get {} s.chip.husk.linkSlots k)
        ∧ t.husk.vaultErrors = s.chip.husk.vaultErrors + 1 ∧ t.sticky 83 = true ∧ Frame [.husk, .fault, .heads, .field] t s.chip)
  ∧ (∀ (s : State) (src : Src) (root : BitVec 256),
      Accepts s.chip src (0x7000) 2 32
      → s.chip.mode.current = .configuring
      → s.chip.husk.rootDone = false
      → ∃ t : Chip, Effect (.ownerRootProgram src root) s (t.answerWrite src (0x7000) 2 (bytesLE 32 root.toNat) 0)
        ∧ t.husk = { s.chip.husk with rootDone := true, root := root }
        ∧ Frame [.husk] t s.chip)
  ∧ (∀ (s : State) (src : Src) (root : BitVec 256),
      Accepts s.chip src (0x7000) 2 32
      → s.chip.mode.current = .configuring
      → s.chip.husk.rootDone = true
      → Effect (.ownerRootProgram src root) s (s.chip.answerWrite src (0x7000) 2 (bytesLE 32 root.toNat) Abort.resourceOwned))
  ∧ (∀ (s : State) (src : Src) (v : BitVec 32),
      Accepts s.chip src (0xC000) 2 4
      → v = 0xDEB0C105
      → s.chip.mode.current = .configuring
      → ∃ t : Chip, Effect (.debugClose src v) s (t.answerWrite src (0xC000) 2 (bytesLE 4 v.toNat) 0)
        ∧ t.husk = { s.chip.husk with debugClosed := true }
        ∧ Frame [.husk] t s.chip)
  ∧ (∀ (s : State) (src : Src) (l : Fin 8) (slot : Fin 2) (blob : BitVec 1472),
      Accepts s.chip src (0x7020 + ↑l) (2 + ↑slot) 184
      → s.chip.activeSlot l ≠ slot
      → ∃ (code : Nat) (t : Chip), Effect (.linkSlotBlobLoad src l slot blob) s (t.answerWrite src (0x7020 + ↑l) (2 + ↑slot) (bytesLE 184 blob.toNat) code)
        ∧ (∀ w, s.chip.unwrapBlob 2 blob = some w → code = 0 ∧ Tab.get {} t.husk.linkSlots (2 * l + slot) = { loaded := true, keyId := bitsOf w 32 32, down := BitVec.ofNat 256 (bitsOf w 64 256), up := BitVec.ofNat 256 (bitsOf w 320 256), saltDown := bitsOf w 576 32, saltUp := bitsOf w 608 32 }
          ∧ (∀ k : Nat, k ≠ 2 * l + slot → Tab.get {} t.husk.linkSlots k = Tab.get {} s.chip.husk.linkSlots k) ∧ Frame [.husk] t s.chip)
        ∧ (s.chip.unwrapBlob 2 blob = none → code = Abort.keyUnwrap ∧ t.husk.unwrapFailures = s.chip.husk.unwrapFailures + 1 ∧ t.sticky 82 = true
          ∧ Frame [.husk, .fault, .heads, .field] t s.chip))
  ∧ (∀ (s : State) (src : Src) (l : Fin 8) (v : BitVec 8),
      Accepts s.chip src (0x7020 + ↑l) 5 1
      → v = 1
      → ∃ t : Chip, Effect (.switchKey src l v) s (t.answerWrite src (0x7020 + ↑l) 5 (bytesLE 1 v.toNat) 0)
        ∧ t.activeSlot l = 1 - s.chip.activeSlot l
        ∧ bitOf t.husk.switching l = true
        ∧ t.husk.linkSlots = s.chip.husk.linkSlots
        ∧ Frame [.husk] t s.chip)

/-- Seedbank appends, compacts, protects and holds its records.
Behind it stand choices of the model: log entries 50, 51, 52, 53, 54, 81, 183, 184. -/
def Obligations.SeedbankKeepsItsRecords : Prop :=
  (∀ (s : State) (kind : Fin 5) (key : BitVec 32) (payload : List Byte) (k : Nat),
      (kind = 1 ∨ kind = 3 ∨ (kind = 2 ∧ (key.toNat < 0x100 ∨ 0x1FF < key.toNat)))
      → payload ≠ []
      → payload.length ≤ 4096
      → s.chip.sb.st ≠ 2
      → s.chip.sb.protect ≠ 3
      → s.chip.mode.current ≠ .persist
      → s.chip.openSector = some k
      → (s.chip.sec k).used + recSize payload.length ≤ 65536
      → s.chip.sbNextSeq kind key.toNat ≤ 0xFFFFFFFF
      → s.chip.sbLiveBytes + recSize payload.length ≤ 62 * 65504
      → ∃ t : Chip, Effect (.seedbankAppend kind key payload true) s t
        ∧ t.sb.recs = s.chip.sb.recs ++ [⟨k, kind, key.toNat, s.chip.sbNextSeq kind key.toNat, payload, true, true⟩]
        ∧ t.sb.allowance = s.chip.sb.allowance - recSize payload.length ∧ t.sb.held = s.chip.sb.held
        ∧ (kind = 1 → ∀ r : ObjRow, rwpRow? key.toNat = some r → payload.length = r.size → Tab.find t.rwp (paramObj key.toNat) = some (natLE payload))
        ∧ (kind ≠ 1 → t.rwp = s.chip.rwp) ∧ Frame [.sb, .rwp, .fault, .heads, .field] t s.chip)
  ∧ (∀ (s : State) (kind : Fin 5) (key : BitVec 32) (payload : List Byte) (k : Nat),
      kind ≠ 0
      → payload ≠ []
      → payload.length ≤ 4096
      → s.chip.sb.st ≠ 2
      → s.chip.sb.protect ≠ 3
      → s.chip.mode.current ≠ .persist
      → s.chip.openSector = some k
      → (s.chip.sec k).used + recSize payload.length ≤ 65536
      → ∃ t : Chip, Effect (.seedbankAppend kind key payload false) s t
        ∧ t.sb.recs = s.chip.sb.recs ++ [⟨k, kind, key.toNat, s.chip.sbNextSeq kind key.toNat, payload, false, true⟩]
        ∧ t.sb.allowance = s.chip.sb.allowance - recSize payload.length ∧ Frame [.sb, .fault, .heads, .field] t s.chip)
  ∧ (∀ (s : State) (key : BitVec 32) (payload : List Byte),
      payload ≠ []
      → payload.length ≤ 4096
      → s.chip.sb.protect = 3
      → Effect (.seedbankAppend 4 key payload true) s { s.chip with sb := { s.chip.sb with held := s.chip.sb.held ++ [(4, key.toNat, payload)], deferred := s.chip.sb.deferred + 1 } })
  ∧ (∀ (s : State) (k : Nat),
      s.chip.erasedSectors.length ≤ 4
      → s.chip.sb.protect ≠ 3
      → s.chip.sb.st ≠ 2
      → s.chip.mode.current ≠ .update
      → recordSectors.filter (fun k => decide ((s.chip.sec k).st = .full)) = [k]
      → ∃ t : Chip, Effect .compaction s t ∧ (∀ r ∈ t.sb.recs, r.sector ≠ k) ∧ (t.sec k).st = .erased ∧ (t.sec k).used = 0
        ∧ t.sb.compactions = s.chip.sb.compactions + 1 ∧ Frame [.sb] t s.chip)
  ∧ (∀ (s : State) (src : Src) (v : BitVec 8),
      Accepts s.chip src (0x3000) 3 1
      → v.toNat ≤ 3
      → (s.chip.sb.protect ≤ v.toNat ∨ s.chip.mode.current = .configuring ∨ s.chip.mode.current = .update)
      → s.chip.sb.held = []
      → ∃ t : Chip, Effect (.protectSet src v) s (t.answerWrite src (0x3000) 3 (bytesLE 1 v.toNat) 0)
        ∧ t.sb.protect = v.toNat
        ∧ t.sb.recs = s.chip.sb.recs
        ∧ (t.sb.st = 3 → s.chip.sb.st = 3 ∨ v.toNat = 3)
        ∧ Frame [.sb] t s.chip)
  ∧ (∀ (s : State) (src : Src) (v : BitVec 8),
      Accepts s.chip src (0x3000) 3 1
      → v.toNat < s.chip.sb.protect
      → v.toNat ≤ 3
      → s.chip.mode.current ≠ .configuring
      → s.chip.mode.current ≠ .update
      → Effect (.protectSet src v) s (s.chip.answerWrite src (0x3000) 3 (bytesLE 1 v.toNat) Abort.wrongMode))
  ∧ (∀ (s : State),
      s.chip.sb.held = []
      → Effect .wearAllowanceRestored s { s.chip with sb := { s.chip.sb with allowance := max 0 s.chip.sb.allowance } })

/-- Sparge patrols, scrubs and zeroes, counts halve, and the retirement log goes to Seedbank.
Behind it stand choices of the model: log entries 80, 81, 83. -/
def Obligations.SpargePatrolsAndTheLogIsKept : Prop :=
  (∀ (s : State) (dla : BitVec 46),
      s.chip.scrubTime = true
      → s.chip.onFrozen (lineNo dla.toNat) = false
      → Effect (.scrubWrite dla) s { s.chip with integ := { s.chip.integ with
          repairHbm := s.chip.integ.repairHbm.filter (fun k => decide (k ≠ lineNo dla.toNat)), repairDdr := s.chip.integ.repairDdr.filter (fun k => decide (k ≠ lineNo dla.toNat)) } })
  ∧ (∀ (s : State) (dla : BitVec 46) (k : PgState),
      s.chip.scrubTime = true
      → s.chip.onFrozen (lineNo dla.toNat) = false
      → (s.chip.srcRec (lineNo dla.toNat / 64)).st = k
      → (k = .hbm ∨ k = .ddr)
      → Tab.get 0 s.chip.integ.progress k.code + 1 < s.chip.patrolLines k.code
      → s.chip.husk.hbmOff = []
      → Effect (.patrolRead dla .ok) s { s.chip with integ := { s.chip.integ with progress := Tab.put 0 s.chip.integ.progress k.code (Tab.get 0 s.chip.integ.progress k.code + 1) } })
  ∧ (∀ (s : State) (dla : BitVec 46) (k : PgState),
      s.chip.scrubTime = true
      → s.chip.onFrozen (lineNo dla.toNat) = false
      → (s.chip.srcRec (lineNo dla.toNat / 64)).st = k
      → (k = .hbm ∨ k = .ddr)
      → s.chip.patrolLines k.code ≤ Tab.get 0 s.chip.integ.progress k.code + 1
      → s.chip.husk.hbmOff = []
      → Effect (.patrolRead dla .ok) s { s.chip with integ := { s.chip.integ with progress := Tab.put 0 s.chip.integ.progress k.code 0, lastPass := Tab.put 0 s.chip.integ.lastPass k.code s.chip.tcRec } })
  ∧ (∀ (s : State) (k : Fin 4),
      k ≠ 0
      → ∃ t : Chip, Effect (.patrolOverdue k) s t ∧ t.sticky 131 = true ∧ Frame [.fault, .heads, .field] t s.chip)
  ∧ (∀ (s : State) (ch : Fin 8) (n : Nat),
      s.chip.inBurst = false
      → s.chip.workMode = true
      → Effect (.poolZero ⟨1, ch⟩ n) s { s.chip with map := { s.chip.map with
          poolHbm := poolFill s.chip.map.poolHbm n (s.chip.cfg Obj.mapPoolTargetHbm - s.chip.map.poolHbm) (s.chip.tierFree .hbm) } })
  ∧ (∀ (s : State) (ch : Fin 8) (n : Nat),
      s.chip.inBurst = false
      → s.chip.workMode = true
      → (s.chip.onlineChans .ddr).contains ch.val = true
      → Effect (.poolZero ⟨2, ch⟩ n) s { s.chip with map := { s.chip.map with
          poolDdr := Tab.put 0 s.chip.map.poolDdr ch (poolFill (s.chip.poolShare ch) n (s.chip.cfg Obj.mapPoolTargetDdr - s.chip.poolLevelDdr) (s.chip.chanFree ch)) } })
  ∧ (∀ (before n goal room : Nat),
      before + n ≤ room
      → n ≤ goal
      → poolFill before n goal room = before + n)
  ∧ (∀ (s : State),
      Tab.wf 0 s.chip.integ.bankCnt = true
      → Tab.wf 0 s.chip.integ.devCnt = true
      → ∃ t : Chip, Effect .countHalving s t ∧ (∀ k : Nat, Tab.get 0 t.integ.bankCnt k = Tab.get 0 s.chip.integ.bankCnt k / 2)
        ∧ (∀ k : Nat, Tab.get 0 t.integ.devCnt k = Tab.get 0 s.chip.integ.devCnt k / 2) ∧ t.integ.ring = s.chip.integ.ring ∧ Frame [.integ] t s.chip)
  ∧ (∀ (s : State),
      s.chip.inBurst = false
      → s.chip.retPending ≠ 0
      → ∃ t : Chip, Effect .retlogPersist s t ∧ t.integ = { s.chip.integ with kept := wrap32 (s.chip.integ.kept + s.chip.retPending) }
        ∧ Frame [.integ, .sb, .fault, .heads, .field, .free] t s.chip)

/-- Refreshes and temperatures are recorded, link errors retry or freeze a DDR5 channel, and mirrors resilver.
Behind it stand choices of the model: log entries 8, 68, 69. -/
def Obligations.DramRefreshesRetriesAndFreezes : Prop :=
  (∀ (s : State) (pc : Fin 16),
      ∃ t : Chip, Effect (.hbmRefresh pc) s t ∧ Tab.get 0 t.dram.hbmRefreshes pc = Tab.get 0 s.chip.dram.hbmRefreshes pc + 1
        ∧ (∀ j : Nat, j ≠ pc → Tab.get 0 t.dram.hbmRefreshes j = Tab.get 0 s.chip.dram.hbmRefreshes j) ∧ (∀ j : Nat, t.ddr j = s.chip.ddr j) ∧ Frame [.dram] t s.chip)
  ∧ (∀ (s : State) (ch : Fin 8),
      s.chip.sameBankRefresh = false
      → (s.chip.ddr ch).freeze = 0
      → Effect (.ddrRefresh ch .busy) s (s.chip.setDdr ch { s.chip.ddr ch with balance := max (-4) ((s.chip.ddr ch).balance - 1) }))
  ∧ (∀ (s : State) (ch : Fin 8),
      s.chip.sameBankRefresh = false
      → (s.chip.ddr ch).freeze = 0
      → Effect (.ddrRefresh ch .idle) s (s.chip.setDdr ch { s.chip.ddr ch with balance := min 4 ((s.chip.ddr ch).balance + 1) }))
  ∧ (∀ (s : State) (ch : Fin 8) (temp : BitVec 8),
      temp.toInt ≤ 95
      → Effect (.dimmTempPoll ch temp) s (s.chip.setDdr ch { s.chip.ddr ch with temp := temp.toInt }))
  ∧ (∀ (s : State) (temp : BitVec 8),
      temp.toInt ≤ 95
      → Effect (.hbmTempChange temp) s { s.chip with dram := { s.chip.dram with hbmTemp := temp.toInt, doubled := decide (85 < temp.toInt) } })
  ∧ (∀ (s : State) (ch : Fin 8) (temp : BitVec 8),
      95 < temp.toInt
      → ∃ t : Chip, Effect (.dimmTempPoll ch temp) s t ∧ (t.ddr ch).temp = temp.toInt ∧ t.sticky 98 = true ∧ Frame [.dram, .fault, .heads, .field] t s.chip)
  ∧ (∀ (s : State) (temp : BitVec 8),
      95 < temp.toInt
      → ∃ t : Chip, Effect (.hbmTempChange temp) s t ∧ t.dram.hbmTemp = temp.toInt ∧ t.dram.doubled = true ∧ t.sticky 99 = true ∧ Frame [.dram, .fault, .heads, .field] t s.chip)
  ∧ (∀ (s : State) (ch : Fin 8) (e : DdrErr) (retries : Nat),
      retries ≤ (if s.chip.inBurst then 1 else s.chip.cfg Obj.ddrRetryLimit)
      → Effect (.ddrAlert ch e retries true) s (s.chip.setDdr ch { s.chip.ddr ch with retries := (s.chip.ddr ch).retries + retries }))
  ∧ (∀ (s : State) (ch : Fin 8) (e : DdrErr) (retries : Nat),
      (s.chip.ddr ch).freeze ≠ 1
      → ∃ t : Chip, Effect (.ddrAlert ch e retries false) s t ∧ (∃ snap, t.ddr ch = { s.chip.ddr ch with retries := (s.chip.ddr ch).retries + min retries (if s.chip.inBurst then 1 else s.chip.cfg Obj.ddrRetryLimit), freeze := 1, cause := (match e with | .caParity => 2 | .writeCrc => 3), limit := false, snapshot := snap, freezes := (s.chip.ddr ch).freezes + 1 }) ∧ (∀ j : Nat, j ≠ ch → t.ddr j = s.chip.ddr j) ∧ t.sticky 96 = true
        ∧ (s.chip.mode.current = .service → t.mode.current = .diagnosis) ∧ Frame [.dram, .lauter, .fault, .heads, .field, .mode, .free] t s.chip)
  ∧ (∀ (s : State) (ch : Fin 8),
      s.chip.frozen ch = true
      → Effect (.freezeLimitExpiry ch) s (s.chip.setDdr ch { s.chip.ddr ch with limit := true }).wake)
  ∧ (∀ (s : State) (ch : Fin 8) (g q : Nat),
      (s.chip.ddr ch).freeze = 0
      → s.chip.moveTime = true
      → s.chip.partner ch = some q
      → s.chip.ddrAway q = false
      → (s.chip.ddr q).stale.contains g = false
      → s.chip.ddrMoving ch = false
      → Effect (.resilver ch g) s (s.chip.setDdr ch { s.chip.ddr ch with stale := (s.chip.ddr ch).stale.filter (fun k => decide (k ≠ g)) }))

/-- Frozen DDR5 channels are released, retrained or declared lost; set points and the persist reserve change.
Behind it stand choices of the model: log entries 29, 68. -/
def Obligations.Ddr5ChannelsAreReleasedOrLost : Prop :=
  (∀ (s : State) (src : Src) (ch : Fin 8),
      Accepts s.chip src (0x5010 + ↑ch) 9 1
      → s.chip.frozen ch = true
      → ∃ x : Chip, Effect (.ddrRelease src ch) s (x.wake.answerWrite src (0x5010 + ↑ch) 9 [1] 0)
        ∧ x.ddr ch = { s.chip.ddr ch with freeze := 0, limit := false, poisonList := [], ce := [], resilverTc := s.chip.tb.tc } ∧ (∀ j : Nat, j ≠ ch → x.ddr j = s.chip.ddr j)
        ∧ (∀ a ∈ (s.chip.ddr ch).poisonList, x.poisoned a = true) ∧ Frame [.poison, .integ, .dram, .lauter, .mode] x s.chip)
  ∧ (∀ (s : State) (src : Src) (ch : Fin 8),
      Accepts s.chip src (0x5010 + ↑ch) 9 1
      → s.chip.frozen ch = true
      → ∃ x : Chip, Effect (.ddrRetrainRelease src ch true) s (x.wake.answerWrite src (0x5010 + ↑ch) 9 [2] 0)
        ∧ x.ddr ch = { s.chip.ddr ch with freeze := 0, limit := false, poisonList := [], ce := [], resilverTc := s.chip.tb.tc } ∧ (∀ j : Nat, j ≠ ch → x.ddr j = s.chip.ddr j)
        ∧ (∀ a ∈ (s.chip.ddr ch).poisonList, x.poisoned a = true) ∧ Frame [.poison, .integ, .dram, .lauter, .mode] x s.chip)
  ∧ (∀ (s : State) (src : Src) (ch : Fin 8),
      Accepts s.chip src (0x5010 + ↑ch) 9 1
      → s.chip.frozen ch = true
      → ∃ t : Chip, Effect (.ddrRetrainRelease src ch false) s (t.answerWrite src (0x5010 + ↑ch) 9 (bytesLE 1 2) 0)
        ∧ t.ddr ch = { s.chip.ddr ch with cause := 4 }
        ∧ (∀ j : Nat, j ≠ ch → t.ddr j = s.chip.ddr j)
        ∧ Frame [.dram] t s.chip)
  ∧ (∀ (s : State) (src : Src) (ch : Fin 8),
      Accepts s.chip src (0x5010 + ↑ch) 9 1
      → s.chip.frozen ch = false
      → Effect (.ddrRelease src ch) s (s.chip.answerWrite src (0x5010 + ↑ch) 9 (bytesLE 1 1) Abort.channelState))
  ∧ (∀ (s : State) (src : Src) (ch : Fin 8) (q : Nat),
      Accepts s.chip src (0x5010 + ↑ch) 9 1
      → s.chip.frozen ch = true
      → s.chip.partner ch = some q
      → ∃ x : Chip, Effect (.ddrDeclareLost src ch) s (x.wake.answerWrite src (0x5010 + ↑ch) 9 [3] 0)
        ∧ x.ddr ch = { s.chip.ddr ch with freeze := 2, limit := false, poisonList := [] } ∧ (∀ j : Nat, j ≠ ch → x.ddr j = s.chip.ddr j)
        ∧ (∀ p : Nat, x.page p = s.chip.page p) ∧ bitOf x.dram.alone (ch / 2) = true ∧ x.sticky 97 = true
        ∧ Frame [.dram, .lauter, .mode, .fault, .heads, .field] x s.chip)
  ∧ (∀ (s : State) (src : Src) (ch : Fin 8),
      Accepts s.chip src (0x5010 + ↑ch) 9 1
      → s.chip.frozen ch = true
      → bitOf (s.chip.cfg Obj.ddrMirrorPairs) (ch.val / 2) = false
      → s.chip.lauter.slots = []
      → ∃ x : Chip, Effect (.ddrDeclareLost src ch) s (x.wake.answerWrite src (0x5010 + ↑ch) 9 [3] 0)
        ∧ x.ddr ch = { s.chip.ddr ch with freeze := 2, limit := false, poisonList := [] } ∧ (∀ j : Nat, j ≠ ch → x.ddr j = s.chip.ddr j)
        ∧ (∀ p : Nat, x.page p = if p ∈ (s.chip.pagesOn .ddr ch).map (·.1) then { s.chip.page p with st := .poisoned } else s.chip.page p)
        ∧ x.chanState ch = .offline ∧ Frame [.dram, .lauter, .kiln, .map, .mode, .fault, .heads, .field] x s.chip)
  ∧ (∀ (s : State) (src : Src) (v : BitVec 16),
      Accepts s.chip src (0x5000) 6 2
      → bitsOf v.toNat 9 7 = 0
      → (maskChans (v.toNat % 256)).all (fun n => !s.chip.frozen n && bitOf (s.chip.ddr n).fspOk (bitsOf v.toNat 8 1) && decide (s.chip.domain (chanDomain n) = .on)) = true
      → ∃ t : Chip, Effect (.ddrFreqRequest src v) s (t.answerWrite src (0x5000) 6 (bytesLE 2 v.toNat) 0)
        ∧ t.win = { s.chip.win with ops := s.chip.win.ops ++ [⟨.ddrFreq (v.toNat % 256) (bitsOf v.toNat 8 1), s.chip.cfg Obj.ddrFreqChangeUs, 0⟩] }
        ∧ Frame [.win] t s.chip)
  ∧ (∀ (s : State) (src : Src) (v : BitVec 32),
      Accepts s.chip src (0x5800) 2 4
      → (64 ≤ v.toNat ∧ v.toNat ≤ 1024 ∧ v.toNat % 64 = 0)
      → s.chip.dram.reserveWas = none
      → 4 * s.chip.cfg Obj.lauterJournalKib ≤ v.toNat * 1024
      → s.chip.committedMib ≤ s.chip.cfg Obj.windowsAbsorbLimitMib
      → s.chip.cfg Obj.windowsAbsorbLimitMib ≤ 16384 - v.toNat
      → s.chip.mirrorBytes ≤ (16384 - v.toNat - s.chip.cfg Obj.windowsAbsorbLimitMib) * mib
      → (s.chip.sbAppend 1 (paramKey Obj.hbmPersistReserveMib) (bytesLE 4 v.toNat)).1 = true
      → ∃ t : Chip, Effect (.persistReserveWrite src v) s (t.answerWrite src (0x5800) 2 (bytesLE 4 v.toNat) 0)
        ∧ Tab.find t.rwp Obj.hbmPersistReserveMib = some v.toNat
        ∧ t.dram = { s.chip.dram with reserveWas := some (s.chip.cfg Obj.hbmPersistReserveMib) }
        ∧ t.win.ops = s.chip.win.ops ++ [⟨.reserve (s.chip.cfg Obj.hbmPersistReserveMib) v.toNat, s.chip.reserveChangeUs, 0⟩]
        ∧ Frame [.sb, .fault, .heads, .field, .rwp, .dram, .win] t s.chip)

/-- Training helpers start on channels that may take them, and report what they did.
Behind it stand choices of the model: log entries 72, 163. -/
def Obligations.TrainingHelpersRunAndReport : Prop :=
  (∀ (s : State) (src : Src) (args : BitVec 248),
      Accepts s.chip src (0x5080) 1 32
      → helperOk (1 + args.toNat * 256) = true
      → ((s.chip.chanState (bitsOf (1 + args.toNat * 256) 8 3) = .offline ∧ s.chip.frozen (bitsOf (1 + args.toNat * 256) 8 3) = false) ∨ (s.chip.frozen (bitsOf (1 + args.toNat * 256) 8 3) = true ∧ s.chip.frozenHelper (1 + args.toNat * 256) = true))
      → s.chip.dram.helper.status ≠ 1
      → ∃ t : Chip, Effect (.helperWritePattern src args) s (t.answerWrite src (0x5080) 1 (bytesLE 32 (1 + args.toNat * 256)) 0)
        ∧ t.dram.helper = { s.chip.dram.helper with status := 1, cmd := (1 + args.toNat * 256), steps := 0, value := 0, lanes := [] }
        ∧ (∀ j : Nat, t.ddr j = s.chip.ddr j)
        ∧ Frame [.dram] t s.chip)
  ∧ (∀ (s : State) (src : Src) (args : BitVec 248),
      Accepts s.chip src (0x5080) 1 32
      → helperOk (2 + args.toNat * 256) = true
      → ((s.chip.chanState (bitsOf (2 + args.toNat * 256) 8 3) = .offline ∧ s.chip.frozen (bitsOf (2 + args.toNat * 256) 8 3) = false) ∨ (s.chip.frozen (bitsOf (2 + args.toNat * 256) 8 3) = true ∧ s.chip.frozenHelper (2 + args.toNat * 256) = true))
      → s.chip.dram.helper.status ≠ 1
      → ∃ t : Chip, Effect (.helperReadCompare src args) s (t.answerWrite src (0x5080) 1 (bytesLE 32 (2 + args.toNat * 256)) 0)
        ∧ t.dram.helper = { s.chip.dram.helper with status := 1, cmd := (2 + args.toNat * 256), steps := 0, value := 0, lanes := [] }
        ∧ (∀ j : Nat, t.ddr j = s.chip.ddr j)
        ∧ Frame [.dram] t s.chip)
  ∧ (∀ (s : State) (src : Src) (args : BitVec 248),
      Accepts s.chip src (0x5080) 1 32
      → helperOk (3 + args.toNat * 256) = true
      → ((s.chip.chanState (bitsOf (3 + args.toNat * 256) 8 3) = .offline ∧ s.chip.frozen (bitsOf (3 + args.toNat * 256) 8 3) = false) ∨ (s.chip.frozen (bitsOf (3 + args.toNat * 256) 8 3) = true ∧ s.chip.frozenHelper (3 + args.toNat * 256) = true))
      → s.chip.dram.helper.status ≠ 1
      → ∃ t : Chip, Effect (.helperSweep src args) s (t.answerWrite src (0x5080) 1 (bytesLE 32 (3 + args.toNat * 256)) 0)
        ∧ t.dram.helper = { s.chip.dram.helper with status := 1, cmd := (3 + args.toNat * 256), steps := 0, value := 0, lanes := [] }
        ∧ (∀ j : Nat, t.ddr j = s.chip.ddr j)
        ∧ Frame [.dram] t s.chip)
  ∧ (∀ (s : State) (src : Src) (args : BitVec 248),
      Accepts s.chip src (0x5080) 1 32
      → helperOk (4 + args.toNat * 256) = true
      → ((s.chip.chanState (bitsOf (4 + args.toNat * 256) 8 3) = .offline ∧ s.chip.frozen (bitsOf (4 + args.toNat * 256) 8 3) = false) ∨ (s.chip.frozen (bitsOf (4 + args.toNat * 256) 8 3) = true ∧ s.chip.frozenHelper (4 + args.toNat * 256) = true))
      → s.chip.dram.helper.status ≠ 1
      → ∃ t : Chip, Effect (.helperSetDelay src args) s (t.answerWrite src (0x5080) 1 (bytesLE 32 (4 + args.toNat * 256)) 0)
        ∧ t.dram.helper = { s.chip.dram.helper with status := 1, cmd := (4 + args.toNat * 256), steps := 0, value := 0, lanes := [] }
        ∧ (∀ j : Nat, t.ddr j = s.chip.ddr j)
        ∧ Frame [.dram] t s.chip)
  ∧ (∀ (s : State) (src : Src) (args : BitVec 248),
      Accepts s.chip src (0x5080) 1 32
      → helperOk (5 + args.toNat * 256) = true
      → ((s.chip.chanState (bitsOf (5 + args.toNat * 256) 8 3) = .offline ∧ s.chip.frozen (bitsOf (5 + args.toNat * 256) 8 3) = false) ∨ (s.chip.frozen (bitsOf (5 + args.toNat * 256) 8 3) = true ∧ s.chip.frozenHelper (5 + args.toNat * 256) = true))
      → s.chip.dram.helper.status ≠ 1
      → ∃ t : Chip, Effect (.helperMrw src args) s (t.answerWrite src (0x5080) 1 (bytesLE 32 (5 + args.toNat * 256)) 0)
        ∧ t.dram.helper = { s.chip.dram.helper with status := 1, cmd := (5 + args.toNat * 256), steps := 0, value := 0, lanes := [] }
        ∧ (∀ j : Nat, t.ddr j = s.chip.ddr j)
        ∧ Frame [.dram] t s.chip)
  ∧ (∀ (s : State) (src : Src) (args : BitVec 248),
      Accepts s.chip src (0x5080) 1 32
      → helperOk (6 + args.toNat * 256) = true
      → ((s.chip.chanState (bitsOf (6 + args.toNat * 256) 8 3) = .offline ∧ s.chip.frozen (bitsOf (6 + args.toNat * 256) 8 3) = false) ∨ (s.chip.frozen (bitsOf (6 + args.toNat * 256) 8 3) = true ∧ s.chip.frozenHelper (6 + args.toNat * 256) = true))
      → s.chip.dram.helper.status ≠ 1
      → ∃ t : Chip, Effect (.helperMrr src args) s (t.answerWrite src (0x5080) 1 (bytesLE 32 (6 + args.toNat * 256)) 0)
        ∧ t.dram.helper = { s.chip.dram.helper with status := 1, cmd := (6 + args.toNat * 256), steps := 0, value := 0, lanes := [] }
        ∧ (∀ j : Nat, t.ddr j = s.chip.ddr j)
        ∧ Frame [.dram] t s.chip)
  ∧ (∀ (s : State) (src : Src) (args : BitVec 248),
      Accepts s.chip src (0x5080) 1 32
      → helperOk (6 + args.toNat * 256) = true
      → s.chip.chanState (bitsOf (6 + args.toNat * 256) 8 3) = .offline
      → s.chip.frozen (bitsOf (6 + args.toNat * 256) 8 3) = false
      → s.chip.dram.helper.status = 1
      → Effect (.helperMrr src args) s (s.chip.answerWrite src (0x5080) 1 (bytesLE 32 (6 + args.toNat * 256)) Abort.resourceOwned))
  ∧ (∀ (s : State) (run : HelperRun) (op ch lane : Nat),
      s.chip.dram.helper.status = 1
      → op = bitsOf s.chip.dram.helper.cmd 0 8
      → ch = bitsOf s.chip.dram.helper.cmd 8 3
      → lane = bitsOf s.chip.dram.helper.cmd 168 8
      → ∃ t : Chip, Effect (.helperComplete run) s t ∧ t.dram.helper.status = 2 ∧ t.dram.helper.steps = run.steps.toNat ∧ t.dram.helper.lanes = run.lanes.take 40
        ∧ t.dram.helper.value = (if op = 6 then run.value.toNat else 0)
        ∧ (op = 4 → ∀ l : Nat, (if lane = 255 then l < 40 else l = lane)
          → Tab.find t.dram.helper.params (paramSlot ch (s.chip.ddr ch).fsp (bitsOf s.chip.dram.helper.cmd 11 1) (bitsOf s.chip.dram.helper.cmd 160 8) l) = some (bitsOf s.chip.dram.helper.cmd 176 16))
        ∧ (op ≠ 4 → t.dram.helper.params = s.chip.dram.helper.params)
        ∧ (op = 5 → Tab.find t.dram.helper.modeRegs ((ch * 256 + bitsOf s.chip.dram.helper.cmd 16 8) * 256 + bitsOf s.chip.dram.helper.cmd 32 8) = some (bitsOf s.chip.dram.helper.cmd 40 8))
        ∧ (op ≠ 5 → t.dram.helper.modeRegs = s.chip.dram.helper.modeRegs) ∧ (∀ j : Nat, t.ddr j = s.chip.ddr j) ∧ Frame [.dram] t s.chip)

/-- Page writes start, commit by one map update, repeat, suspend and abort their programs.
Behind it stand choices of the model: log entries 6, 13, 19, 170. -/
def Obligations.PagesAreWrittenOutOfPlace : Prop :=
  (∀ (s : State) (prog : Fin 64) (page : BitVec 34) (why : PgWhy) (ch : Fin 8) (loc : BitVec 35) (obs : List (Fin 64 × Obs)) (u₀ u₁ u : Chip) (bad : Nat) (data : Tab Line) (form : Bool × Nat),
      Tab.find s.chip.kiln.progs prog = none
      → s.chip.drainable page.toNat = true
      → s.chip.moveTime = true
      → s.chip.pruneOlds.writeReason page.toNat why = true
      → s.chip.pruneOlds.writeChan (s.chip.page page.toNat) ch = true
      → s.chip.progsOn ch < s.chip.cfg Obj.kilnMaxPrograms
      → s.chip.pruneOlds.useOwn page.toNat = (true, u₀)
      → u₀.mergeRead page.toNat why obs = (bad, u₁)
      → u₁.captureLines page.toNat (u₁.toCapture page.toNat why) = (data, u)
      → form = (if why = .verbatim then ((s.chip.page page.toNat).grist, (s.chip.page page.toNat).sectors) else gristForm ((u.mergedPage page.toNat bad data).storedGrist page.toNat (u.accessRegion (4096 * page.toNat))))
      → u.placeOk ch loc.toNat (u.unitLines page.toNat form) = true
      → u.leastBank ch loc.toNat (u.unitLines page.toNat form) = true
      → ∃ (t : Chip) (g : Prog), Effect (.pageWrite prog page why ch loc obs) s t ∧ Tab.find t.kiln.progs prog = some g
        ∧ g.page = page.toNat ∧ g.old = s.chip.page page.toNat ∧ g.ch = ch ∧ g.loc = loc.toNat ∧ (g.grist, g.sectors) = form
        ∧ g.captured = u₁.toCapture page.toNat why ∧ g.data = data ∧ g.changed = 0 ∧ g.suspended = false
        ∧ (∀ k : Nat, k < 64 → bitOf bad k = true → k ∈ g.poison)
        ∧ (why ≠ .verbatim → g.image = (u.mergedPage page.toNat bad data).storedGrist page.toNat (u.accessRegion (4096 * page.toNat)))
        ∧ (∀ j : Nat, j ≠ prog → Tab.find t.kiln.progs j = Tab.find u.kiln.progs j) ∧ t.kiln.absorbed = u.kiln.absorbed
        ∧ (t.blk ch (loc.toNat / 32768)).opened = true ∧ (t.blk ch (loc.toNat / 32768)).next = loc.toNat % 32768 + u.unitLines page.toNat form
        ∧ Frame [.kiln, .fault, .heads, .field] t u)
  ∧ (∀ (s : State) (prog : Fin 64) (loc : BitVec 35) (g : Prog),
      Tab.find s.chip.kiln.progs prog = some g
      → g.suspended = false
      → s.chip.inBurst = false
      → s.chip.win.prologueOn = false
      → s.chip.page g.page = g.old
      → g.old.st ≠ .migrating
      → s.chip.journalRoom 1 = true
      → ∃ t : Chip, Effect (.programComplete prog ⟨true, loc⟩) s t ∧ t.page g.page = { s.chip.page g.page with ch := g.ch, loc := g.loc, grist := g.grist, sectors := g.sectors, gen := ((s.chip.page g.page).gen + 1) % 16 } ∧ (∀ q : Nat, q ≠ g.page → t.page q = s.chip.page q)
        ∧ t.lauter.journal = s.chip.lauter.journal ++ [⟨s.chip.lauter.jseq, 1, 0, s.chip.pageTarget g.page, (t.page g.page).payload⟩]
        ∧ t.kiln.olds = s.chip.kiln.olds ++ [s.chip.oldPlace g s.chip.lauter.jseq]
        ∧ (∀ j : Nat, Tab.find t.kiln.progs j = if j = prog then none else Tab.find s.chip.kiln.progs j)
        ∧ (∀ q : Nat, q ≠ g.page → Tab.find t.kiln.absorbed q = Tab.find s.chip.kiln.absorbed q)
        ∧ (∀ x : AbsPage, Tab.find s.chip.kiln.absorbed g.page = some x → ∃ m : Nat, (∀ k : Nat, k < 64 →
             bitOf m k = (bitOf x.mask k && !(bitOf g.captured k && !bitOf g.changed k)))
           ∧ Tab.find t.kiln.absorbed g.page = if m = 0 then none else some { x with mask := m })
        ∧ Frame [.lauter, .kiln, .map, .poison, .integ, .macs, .mill, .fault, .heads, .field] t s.chip)
  ∧ (∀ (s : State) (prog : Fin 64) (loc : BitVec 35) (g : Prog),
      Tab.find s.chip.kiln.progs prog = some g
      → g.suspended = false
      → s.chip.inBurst = false
      → s.chip.win.prologueOn = false
      → s.chip.page g.page ≠ g.old
      → Effect (.programComplete prog ⟨true, loc⟩) s { s.chip with kiln := { s.chip.kiln with progs := Tab.del s.chip.kiln.progs prog } })
  ∧ (∀ (s : State) (prog : Fin 64) (loc : BitVec 35) (g : Prog) (y : Chip),
      Tab.find s.chip.kiln.progs prog = some g
      → g.suspended = false
      → s.chip.inBurst = false
      → s.chip.win.prologueOn = false
      → y = ((s.chip.setBlk g.ch (g.loc / 32768) { s.chip.blk g.ch (g.loc / 32768) with suspect := true, opened := false, next := 0 }).setNvm g.ch { s.chip.nvm g.ch with programFails := (s.chip.nvm g.ch).programFails + 1 }).retEntry 8 3 g.ch 2 0 (nvmUnit g.ch 2 g.loc) g.page 0xFF 0
      → ∃ t : Chip, Effect (.programComplete prog ⟨false, loc⟩) s t
        ∧ y.blk g.ch (g.loc / 32768) = { s.chip.blk g.ch (g.loc / 32768) with suspect := true, opened := false, next := 0 }
        ∧ y.nvm g.ch = { s.chip.nvm g.ch with programFails := (s.chip.nvm g.ch).programFails + 1 } ∧ Frame [.kiln, .integ] y s.chip
        ∧ (y.placeOk g.ch loc.toNat (y.unitLines g.page (g.grist, g.sectors)) = true → t.kiln.progs = Tab.set s.chip.kiln.progs prog { g with loc := loc.toNat }
          ∧ (t.blk g.ch (loc.toNat / 32768)).opened = true ∧ (t.blk g.ch (loc.toNat / 32768)).next = loc.toNat % 32768 + y.unitLines g.page (g.grist, g.sectors))
        ∧ (y.placeOk g.ch loc.toNat (y.unitLines g.page (g.grist, g.sectors)) = false → t = { y with kiln := { y.kiln with progs := Tab.del s.chip.kiln.progs prog } })
        ∧ Frame [.kiln, .fault, .heads, .field] t y)
  ∧ (∀ (s : State) (ch : Fin 8) (what : MediaAlert),
      Effect (.mediaAlert ch what) s (s.chip.setNvm ch { s.chip.nvm ch with busErrors := (s.chip.nvm ch).busErrors + 1 }))
  ∧ (∀ (s : State) (prog : Fin 64) (g : Prog),
      Tab.find s.chip.kiln.progs prog = some g
      → g.suspended = false
      → Effect (.programSuspend prog) s { s.chip with kiln := { s.chip.kiln with suspends := s.chip.kiln.suspends + 1, progs := Tab.set s.chip.kiln.progs prog { g with suspended := true } } })
  ∧ (∀ (s : State) (prog : Fin 64) (g : Prog),
      Tab.find s.chip.kiln.progs prog = some g
      → g.suspended = true
      → g.pending = false
      → s.chip.inBurst = false
      → s.chip.win.prologueOn = false
      → Effect (.programResume prog) s { s.chip with kiln := { s.chip.kiln with progs := Tab.set s.chip.kiln.progs prog { g with suspended := false } } })
  ∧ (∀ (s : State) (prog : Fin 64) (loc : BitVec 35) (g : Prog),
      Tab.find s.chip.kiln.progs prog = some g
      → g.suspended = true
      → s.chip.moveTime = true
      → s.chip.win.prologueOn = false
      → s.chip.placeOk g.ch loc.toNat (s.chip.unitLines g.page (g.grist, g.sectors)) = true
      → ∃ t : Chip, Effect (.programAbort prog loc) s t ∧ Tab.find t.kiln.progs prog = some { g with loc := loc.toNat, suspended := false, pending := false }
        ∧ (∀ j : Nat, j ≠ prog → Tab.find t.kiln.progs j = Tab.find s.chip.kiln.progs j) ∧ t.kiln.suspendAborts = s.chip.kiln.suspendAborts + 1
        ∧ t.kiln.absorbed = s.chip.kiln.absorbed ∧ Frame [.kiln, .fault, .heads, .field] t s.chip)
  ∧ (∀ (s : State) (prog : Fin 64) (loc : BitVec 35) (g : Prog),
      Tab.find s.chip.kiln.progs prog = some g
      → g.suspended = true
      → (s.chip.moveTime = false ∨ s.chip.win.prologueOn = true)
      → Effect (.programAbort prog loc) s { s.chip with kiln := { s.chip.kiln with progs := Tab.set s.chip.kiln.progs prog { g with pending := true } } })

/-- Rescue, sweeps, rekilning, reclaim and FORMAT keep the media; the flush ends with its roots written.
Behind it stand choices of the model: log entries 77, 78, 84, 94, 167. -/
def Obligations.BlocksAreSweptRekilnedAndFormatted : Prop :=
  (∀ (s : State) (dla : BitVec 46) (r : PageRec),
      s.chip.mediaTime = true
      → lineNo dla.toNat ∈ s.chip.kiln.rescue
      → s.chip.page (lineNo dla.toNat / 64) = r
      → r.st = .nvm
      → r.loc ≠ pendingLoc
      → ∃ t : Chip, Effect (.mediaRescue dla true) s t ∧ lineNo dla.toNat ∉ t.kiln.rescue ∧ lineNo dla.toNat / 64 ∈ t.kiln.rewrites
        ∧ (blkKey r.ch (r.loc + lineNo dla.toNat % 64) ∈ t.kiln.witness ∨ 256 ≤ s.chip.kiln.witness.length)
        ∧ t.nvm r.ch = { s.chip.nvm r.ch with rescued := (s.chip.nvm r.ch).rescued + 1 }
        ∧ Frame [.kiln, .integ] t s.chip)
  ∧ (∀ (s : State) (dla : BitVec 46) (r : PageRec),
      s.chip.mediaTime = true
      → lineNo dla.toNat ∈ s.chip.kiln.rescue
      → s.chip.page (lineNo dla.toNat / 64) = r
      → r.st = .nvm
      → r.loc ≠ pendingLoc
      → ∃ t : Chip, Effect (.mediaRescue dla false) s t ∧ lineNo dla.toNat ∉ t.kiln.rescue ∧ lineNo dla.toNat / 64 ∈ t.kiln.rewrites
        ∧ (blkKey r.ch (r.loc + lineNo dla.toNat % 64) ∈ t.kiln.witness ∨ 256 ≤ s.chip.kiln.witness.length)
        ∧ t.nvm r.ch = { s.chip.nvm r.ch with uncorrectable := (s.chip.nvm r.ch).uncorrectable + 1 }
        ∧ (s.chip.isAbsorbed dla.toNat = false ∧ s.chip.cachedDirty dla.toNat = false → t.poisoned dla.toNat = true)
        ∧ (s.chip.isAbsorbed dla.toNat = true ∨ s.chip.cachedDirty dla.toNat = true → Tab.find t.kiln.mediaPoison (lineNo dla.toNat) = some true)
        ∧ Frame [.kiln, .integ, .poison] t s.chip)
  ∧ (∀ (s : State) (ch : Fin 8) (block : BitVec 20) (best : Int),
      s.chip.mediaTime = true
      → ch * 2 ^ 20 + block.toNat ∈ s.chip.kiln.witness
      → -4 ≤ best
      → best ≤ 4
      → ∃ t : Chip, Effect (.witnessSweep ch block best) s t ∧ t.kiln.witness = s.chip.kiln.witness.filter (fun w => decide (w ≠ ch * 2 ^ 20 + block.toNat))
        ∧ t.blk ch block.toNat = { s.chip.blk ch block.toNat with
             trim := max (-16) (min 15 ((s.chip.blk ch block.toNat).trim + best))
             moved := (s.chip.blk ch block.toNat).moved + (max (-16) (min 15 ((s.chip.blk ch block.toNat).trim + best)) - (s.chip.blk ch block.toNat).trim).natAbs }
        ∧ Frame [.kiln] t s.chip)
  ∧ (∀ (s : State) (ch : Fin 8) (block : BitVec 20) (age : Nat),
      s.chip.cfg Obj.kilnRekilnAgeH ≤ age
      → s.chip.blockHolds ch block.toNat = true
      → s.chip.inBurst = false
      → (s.chip.inQuiet = true ∨ bitOf s.chip.win.forced 0 = true)
      → Effect (.rekiln ch block age) s (s.chip.setBlk ch block.toNat { s.chip.blk ch block.toNat with age := age, rewrite := true }))
  ∧ (∀ (s : State) (ch : Fin 8) (block : BitVec 20) (age : Nat),
      s.chip.cfg Obj.kilnRetentionH ≤ age
      → s.chip.blockHolds ch block.toNat = true
      → ∃ t : Chip, Effect (.retentionExceeded ch block age) s t ∧ t.blk ch block.toNat = { s.chip.blk ch block.toNat with age := age, rewrite := true } ∧ t.sticky 106 = true
        ∧ Frame [.kiln, .fault, .heads, .field] t s.chip)
  ∧ (∀ (s : State) (ch : Fin 8) (block : BitVec 20),
      (s.chip.blk ch block.toNat).opened = false
      → s.chip.blockPages ch block.toNat ≠ []
      → 100 * s.chip.blockLive ch block.toNat < s.chip.cfg Obj.kilnReclaimLivePct * 32760
      → s.chip.inBurst = false
      → (s.chip.inQuiet = true ∨ bitOf s.chip.win.forced 0 = true)
      → Effect (.reclaim ch block) s (s.chip.setBlk ch block.toNat { s.chip.blk ch block.toNat with rewrite := true }))
  ∧ (∀ (s : State) (ch : Fin 8) (block : BitVec 20) (openHours : Nat),
      (s.chip.blk ch block.toNat).opened = true
      → (32760 < (s.chip.blk ch block.toNat).next + 72 ∨ s.chip.cfg Obj.kilnOpenBlockMaxH ≤ openHours)
      → Effect (.blockClose ch block openHours) s (s.chip.setBlk ch block.toNat { s.chip.blk ch block.toNat with opened := false, next := 0 }))
  ∧ (∀ (s : State) (src : Src) (ch : Fin 8) (m : Nat),
      Accepts s.chip src (0x6040 + ↑ch) 4 1
      → s.chip.chanState (8 + ch) = .offline
      → s.chip.pagesOn .nvm ch = []
      → s.chip.mediaSet = some m
      → (s.chip.nvm ch).roots ≠ []
      → ∃ (t : Chip) (roots : List RootRec), Effect (.kilnFormat src ch) s (t.answerWrite src (0x6040 + ↑ch) 4 [1] 0)
        ∧ t.nvm ch = { s.chip.nvm ch with roots := roots, rootState := 2, passed := true } ∧ roots.length = (s.chip.nvm ch).roots.length
        ∧ (∀ (i : Nat) (x : RootRec), (s.chip.nvm ch).roots[i]? = some x → ∃ r : Root, roots[i]? = some { formatted := true, copyA := r.image }
          ∧ r.channel = ch ∧ r.package = i ∧ r.mediaSet = m ∧ r.generation = (match x.newest with | some o => wrap32 (o.generation + 1) | none => 1)
          ∧ r.zone = s.chip.zoneChans.contains ch.val ∧ r.clean = true)
        ∧ (∀ e ∈ t.kiln.blocks, e.1 / 2 ^ 20 = ch → e.2 = { lines := e.2.lines })
        ∧ (∀ e ∈ s.chip.kiln.blocks, e.1 / 2 ^ 20 ≠ ch → e.2 ≠ {} → e ∈ t.kiln.blocks)
        ∧ t.lauter = { s.chip.lauter with zones := Tab.del s.chip.lauter.zones ch } ∧ Frame [.kiln, .lauter, .free] t s.chip)
  ∧ (∀ (s : State) (src : Src) (ch : Fin 8),
      Accepts s.chip src (0x6040 + ↑ch) 4 1
      → ((s.chip.chanState (8 + ch) ≠ .offline ∧ s.chip.chanState (8 + ch) ≠ .absent) ∨ s.chip.pagesOn .nvm ch ≠ [])
      → Effect (.kilnFormat src ch) s (s.chip.answerWrite src (0x6040 + ↑ch) 4 (bytesLE 1 1) Abort.channelState))
  ∧ (∀ (s : State),
      s.chip.flushReady = true
      → s.chip.mode.current ≠ .persist
      → s.chip.nvmOnline ≠ 0
      → ∃ t : Chip, Effect .persistFlushEnd s t ∧ t.kiln.flushing = false ∧ t.kiln.gpf = false ∧ t.lauter.journal = [] ∧ t.lauter.backlog = []
        ∧ (∀ n ∈ s.chip.zoneOnline, t.zone n = { s.chip.newestZone with
             ring := s.chip.newestZone.ring ++ s.chip.lauter.journal ++ s.chip.lauter.backlog, stamp := s.chip.newestZone.stamp + 1 })
        ∧ (∀ n ∈ s.chip.zoneOnline, ∃ f : Root → Root, (t.nvm n).roots = (s.chip.nvm n).roots.map (fun r => r.rewrite f)
          ∧ ∀ r, (f r).clean = true ∧ (f r).zone = true) ∧ Frame [.lauter, .kiln] t s.chip)
  ∧ (∀ (s : State),
      s.chip.flushReady = true
      → s.chip.mode.current = .persist
      → s.chip.feedOk = true
      → Effect .persistFlushEnd s (s.chip.flushEnd.chipResetNow 4))

/-- Training blocks, time limits and commands move a Semund link through training, into retrains and toward DOWN.
Behind it stand choices of the model: log entries 17, 119, 121. -/
def Obligations.LinksTrainComeUpAndAreTakenDown : Prop :=
  (∀ (s : State) (l : Fin 8) (block : BitVec 128),
      crc8 120 block.toNat = bitsOf block.toNat 120 8
      → bitsOf block.toNat 8 8 = l.val
      → (s.chip.link l).st = .training
      → ((s.chip.link l).step = .detect ∨ (s.chip.link l).step = .lock)
      → bitsOf block.toNat 0 8 = 0x2D
      → bitsOf block.toNat 16 8 < 4
      → Effect (.tsBlock l block) s (s.chip.setLink l { s.chip.link l with step := .lock, lanes := setBit (s.chip.link l).lanes (bitsOf block.toNat 16 8) true }))
  ∧ (∀ (s : State) (l : Fin 8) (block : BitVec 128),
      crc8 120 block.toNat = bitsOf block.toNat 120 8
      → bitsOf block.toNat 8 8 = l.val
      → (s.chip.link l).st = .training
      → (s.chip.link l).step = .lock
      → bitsOf block.toNat 0 8 = 0x45
      → Effect (.tsBlock l block) s (s.chip.setLink l { s.chip.link l with step := .config }))
  ∧ (∀ (s : State) (l : Fin 8) (block : BitVec 128),
      crc8 120 block.toNat = bitsOf block.toNat 120 8
      → bitsOf block.toNat 8 8 = l.val
      → (s.chip.link l).st = .training
      → (s.chip.link l).step = .config
      → bitsOf block.toNat 0 8 = 0x45
      → (widest (s.chip.link l).lanes (bitsOf block.toNat 32 3) (s.chip.cfgAt Obj.linkMaxWidth l)) ≠ 0
      → bitOf (bitsOf block.toNat 48 8) 0 = s.chip.linkEnc l
      → (s.chip.linkEnc l = true → s.chip.slotLoaded l 0 = true)
      → Effect (.tsBlock l block) s (s.chip.setLink l { s.chip.link l with step := .speed, width := (widest (s.chip.link l).lanes (bitsOf block.toNat 32 3) (s.chip.cfgAt Obj.linkMaxWidth l)), vcs := min (s.chip.cfgAt Obj.linkVcOffer l) (bitsOf block.toNat 40 8), endpointId := bitsOf block.toNat 64 32, peerSpeeds := bitsOf block.toNat 24 3 }))
  ∧ (∀ (s : State) (l : Fin 8) (block : BitVec 128),
      crc8 120 block.toNat = bitsOf block.toNat 120 8
      → bitsOf block.toNat 8 8 = l.val
      → (s.chip.link l).st = .training
      → (s.chip.link l).step = .speed
      → bitsOf block.toNat 0 8 = 0x45
      → highestSpeed (s.chip.link l).peerSpeeds (s.chip.cfgAt Obj.linkMaxSpeed l) ≠ 0
      → ∃ t : Chip, Effect (.tsBlock l block) s t ∧ (t.link l).st = .training ∧ (t.link l).step = .init
        ∧ (t.link l).speed = highestSpeed (s.chip.link l).peerSpeeds (s.chip.cfgAt Obj.linkMaxSpeed l) ∧ (t.link l).width = (s.chip.link l).width
        ∧ (t.link l).e = 0 ∧ (t.link l).nextSeq = 0 ∧ (t.link l).held = [] ∧ (t.link l).used = [] ∧ (t.link l).limit = [] ∧ (t.link l).readUsed = 0
        ∧ (∀ j : Nat, j ≠ l → t.link j = s.chip.link j) ∧ Frame [.links] t s.chip)
  ∧ (∀ (s : State) (l : Fin 8) (block : BitVec 128),
      crc8 120 block.toNat = bitsOf block.toNat 120 8
      → bitsOf block.toNat 8 8 = l.val
      → (s.chip.link l).st = .active
      → (s.chip.link l).want = none
      → bitsOf block.toNat 0 8 = 0x2D
      → bitOf (bitsOf block.toNat 48 8) 2 = true
      → ∃ t : Chip, Effect (.tsBlock l block) s t ∧ (t.link l).st = .changing ∧ (t.link l).retrains = (s.chip.link l).retrains + 1
        ∧ (∃ c : LinkChange, (t.link l).change = some c ∧ c.width = (s.chip.link l).width ∧ c.speed = (s.chip.link l).speed ∧ c.retraining = true ∧ c.planned = false)
        ∧ t.sticky (144) = true ∧ (∀ j : Nat, j ≠ l → t.link j = s.chip.link j) ∧ Frame [.links, .fault, .heads, .field] t s.chip)
  ∧ (∀ (s : State) (l : Fin 8) (block : BitVec 128),
      (crc8 120 block.toNat ≠ bitsOf block.toNat 120 8 ∨ bitsOf block.toNat 8 8 ≠ l.val)
      → Effect (.tsBlock l block) s s.chip)
  ∧ (∀ (s : State) (l : Fin 8),
      (s.chip.link l).st = .training
      → (¬ ((s.chip.link l).step = .config ∧ s.chip.linkEnc l = true))
      → (¬ ((s.chip.link l).step = .lock ∧ (s.chip.link l).lanes ≠ 0))
      → (s.chip.link l).tries < 2
      → Effect (.trainingStepTimeout l) s (s.chip.setLink l { s.chip.link l with st := .training, step := .detect, tries := (s.chip.link l).tries + 1, lanes := 0, initGot := 0, width := 0, speed := 0, vcs := 0, sent := (s.chip.link l).sent ++ [.ts 0x2D 0] }))
  ∧ (∀ (s : State) (l : Fin 8),
      (s.chip.link l).st = .training
      → (¬ ((s.chip.link l).step = .config ∧ s.chip.linkEnc l = true))
      → (¬ ((s.chip.link l).step = .lock ∧ (s.chip.link l).lanes ≠ 0))
      → 2 ≤ (s.chip.link l).tries
      → (s.chip.link l).want = none
      → Effect (.trainingStepTimeout l) s ((s.chip.setLink l { s.chip.link l with tries := 0 }).setLink l { s.chip.link l with tries := 0, want := some 2 }))
  ∧ (∀ (s : State) (l : Fin 8),
      (s.chip.link l).st = .down
      → s.chip.cfgAt Obj.linkAutoRetrain l = 1
      → s.chip.domain (linkDomain l) = .on
      → Effect (.autoRetrain l) s (s.chip.setLink l { s.chip.link l with st := .training, step := .detect, tries := 0, lanes := 0, initGot := 0, width := 0, speed := 0, vcs := 0, sent := (s.chip.link l).sent ++ [.ts 0x2D 0] }))
  ∧ (∀ (s : State) (src : Src) (l : Fin 8),
      Accepts s.chip src (0x8010 + ↑l) 2 1
      → s.chip.domain (linkDomain l) = .on
      → ((s.chip.link l).st = .disabled ∨ (s.chip.link l).st = .down)
      → ∃ t : Chip, Effect (.up src l) s (t.answerWrite src (0x8010 + ↑l) 2 (bytesLE 1 1) 0)
        ∧ t.link l = { s.chip.link l with st := .training, step := .detect, tries := 0, lanes := 0, initGot := 0, width := 0, speed := 0, vcs := 0, sent := (s.chip.link l).sent ++ [.ts 0x2D 0] }
        ∧ (∀ j : Nat, j ≠ l → t.link j = s.chip.link j)
        ∧ Frame [.links] t s.chip)
  ∧ (∀ (s : State) (src : Src) (l : Fin 8),
      Accepts s.chip src (0x8010 + ↑l) 2 1
      → ((s.chip.link l).st = .training ∨ (s.chip.link l).st = .active ∨ (s.chip.link l).st = .changing)
      → (s.chip.link l).want = none
      → ∃ t : Chip, Effect (.down src l) s (t.answerWrite src (0x8010 + ↑l) 2 (bytesLE 1 2) 0)
        ∧ t.link l = { s.chip.link l with want := some 4 }
        ∧ (∀ j : Nat, j ≠ l → t.link j = s.chip.link j)
        ∧ Frame [.links] t s.chip)
  ∧ (∀ (s : State) (l : Fin 8),
      ((s.chip.link l).st = .training ∨ (s.chip.link l).st = .active ∨ (s.chip.link l).st = .changing)
      → (s.chip.link l).want = none
      → Effect (.lossOfSignal l) s (s.chip.setLink l { s.chip.link l with want := some 7 }))
  ∧ (∀ (s : State) (l : Fin 8) (cause : BitVec 8),
      ((s.chip.link l).st = .training ∨ (s.chip.link l).st = .active ∨ (s.chip.link l).st = .changing)
      → (s.chip.link l).want = none
      → Effect (.downRecord l cause) s (s.chip.setLink l { s.chip.link l with want := some 5 }))

/-- Data and control flits are accepted, discarded or NAKed; NAKs, time limits and credits do what the link protocol says.
Behind it stand choices of the model: log entries 4, 5, 136. -/
def Obligations.FlitsAreAcceptedReplayedAndCredited : Prop :=
  (∀ (s : State) (l : Fin 8) (flit : BitVec 2048),
      (s.chip.link l).st = .active
      → flitCrc flit = bitsOf flit.toNat 1984 64
      → bitOf flit.toNat 12 = false
      → bitsOf flit.toNat 0 12 = (s.chip.link l).e
      → bitOf flit.toNat 13 = false
      → s.chip.linkEnc l = false
      → bitOf flit.toNat 28 = false
      → (s.chip.link l).partialSlots = []
      → bitOf flit.toNat 32 = true
      → bitsOf (BitVec.ofNat 128 (flit.toNat >>> (64 + 128 * 0))).toNat 24 8 = 0
      → (∀ i : Fin 15, 1 ≤ i.val → BitVec.ofNat 128 (flit.toNat >>> (64 + 128 * i.val)) = 0 ∧ bitOf flit.toNat (32 + i.val) = false)
      → packetOk (s.chip.link l).vcs (s.chip.cohVc l) (packetOf [BitVec.ofNat 128 (flit.toNat >>> (64 + 128 * 0))]) = true
      → ∃ t : Chip, Effect (.dataFlit l flit) s t ∧ (t.link l).e = ((s.chip.link l).e + 1) % 4096 ∧ (t.link l).rx = (s.chip.link l).rx ++ [packetOf [BitVec.ofNat 128 (flit.toNat >>> (64 + 128 * 0))]]
        ∧ (t.link l).sent = (s.chip.link l).sent ++ [.ctl .empty ((((s.chip.link l).e + 1) % 4096 + 4095) % 4096)] ∧ (t.link l).nakSent = false ∧ (t.link l).st = .active ∧ (t.link l).held = (s.chip.link l).held
        ∧ (t.link l).crcErrors = (s.chip.link l).crcErrors ∧ (∀ j : Nat, j ≠ l → t.link j = s.chip.link j) ∧ Frame [.links, .cnt] t s.chip)
  ∧ (∀ (s : State) (l : Fin 8) (flit : BitVec 2048),
      (s.chip.link l).st = .active
      → flitCrc flit ≠ bitsOf flit.toNat 1984 64
      → ((s.chip.link l).errs.filter (fun n => decide ((s.chip.link l).flits + 1 < n + s.chip.cfg Obj.linkDownWindowFlits))).length < s.chip.cfg Obj.linkDownThreshold
      → ((s.chip.link l).crcs.filter (fun n => decide ((s.chip.link l).flits + 1 < n + s.chip.cfg Obj.linkDownWindowFlits))).length + 1 < s.chip.cfg Obj.linkRetrainThreshold
      → ∃ t : Chip, Effect (.dataFlit l flit) s t ∧ (t.link l).e = (s.chip.link l).e ∧ (t.link l).rx = (s.chip.link l).rx ∧ (t.link l).crcErrors = (s.chip.link l).crcErrors + 1
        ∧ (t.link l).nakSent = true ∧ (t.link l).sent = (if (s.chip.link l).nakSent then (s.chip.link l).sent else (s.chip.link l).sent ++ [.ctl (.nak (s.chip.link l).e) (((s.chip.link l).e + 4095) % 4096)])
        ∧ (t.link l).st = .active ∧ (t.link l).held = (s.chip.link l).held ∧ (∀ j : Nat, j ≠ l → t.link j = s.chip.link j) ∧ Frame [.links, .cnt] t s.chip)
  ∧ (∀ (s : State) (l : Fin 8) (flit : BitVec 2048),
      (s.chip.link l).st = .active
      → flitCrc flit = bitsOf flit.toNat 1984 64
      → bitOf flit.toNat 12 = false
      → 0 < (bitsOf flit.toNat 0 12 + 4096 - (s.chip.link l).e) % 4096
      → (bitsOf flit.toNat 0 12 + 4096 - (s.chip.link l).e) % 4096 < 2048
      → bitOf flit.toNat 28 = false
      → ∃ t : Chip, Effect (.dataFlit l flit) s t ∧ (t.link l).e = (s.chip.link l).e ∧ (t.link l).rx = (s.chip.link l).rx ∧ (t.link l).crcErrors = (s.chip.link l).crcErrors
        ∧ (t.link l).nakSent = true ∧ (t.link l).sent = (if (s.chip.link l).nakSent then (s.chip.link l).sent else (s.chip.link l).sent ++ [.ctl (.nak (s.chip.link l).e) (((s.chip.link l).e + 4095) % 4096)])
        ∧ (∀ j : Nat, j ≠ l → t.link j = s.chip.link j) ∧ Frame [.links, .cnt] t s.chip)
  ∧ (∀ (s : State) (l : Fin 8) (flit : BitVec 2048),
      (s.chip.link l).st = .active
      → flitCrc flit = bitsOf flit.toNat 1984 64
      → bitOf flit.toNat 12 = false
      → 2048 ≤ (bitsOf flit.toNat 0 12 + 4096 - (s.chip.link l).e) % 4096
      → bitOf flit.toNat 28 = false
      → ∃ t : Chip, Effect (.dataFlit l flit) s t ∧ (t.link l).e = (s.chip.link l).e ∧ (t.link l).rx = (s.chip.link l).rx ∧ (t.link l).crcErrors = (s.chip.link l).crcErrors
        ∧ (t.link l).sent = (s.chip.link l).sent ++ [.ctl .empty (((s.chip.link l).e + 4095) % 4096)] ∧ (∀ j : Nat, j ≠ l → t.link j = s.chip.link j) ∧ Frame [.links, .cnt] t s.chip)
  ∧ (∀ (s : State) (l : Fin 8) (flit : BitVec 2048),
      (s.chip.link l).st = .active
      → flitCrc flit = bitsOf flit.toNat 1984 64
      → bitOf flit.toNat 12 = true
      → bitOf flit.toNat 28 = false
      → (∀ i : Nat, i < 15 → bitsOf (bitsOf flit.toNat (64 + 128 * i) 128) (8 * 0) 8 = 0)
      → Effect (.controlFlit l flit) s (s.chip.setLink l { s.chip.link l with flits := (s.chip.link l).flits + 1 }))
  ∧ (∀ (s : State) (l : Fin 8) (flit : BitVec 2048),
      (s.chip.link l).st = .active
      → (s.chip.link l).want = none
      → flitCrc flit = bitsOf flit.toNat 1984 64
      → bitOf flit.toNat 12 = true
      → bitOf flit.toNat 28 = false
      → bitsOf (bitsOf flit.toNat (64 + 128 * 0) 128) (8 * 0) 8 = 0x0A
      → (∀ i : Fin 15, 1 ≤ i.val → bitsOf (bitsOf flit.toNat (64 + 128 * i.val) 128) (8 * 0) 8 = 0)
      → ∃ t : Chip, Effect (.controlFlit l flit) s t ∧ t.link l = { s.chip.link l with flits := (s.chip.link l).flits + 1, want := some 5 } ∧ (∀ j : Nat, j ≠ l → t.link j = s.chip.link j) ∧ Frame [.links] t s.chip)
  ∧ (∀ (s : State) (l : Fin 8) (n : BitVec 12) (f : TxFlit),
      (s.chip.link l).st = .active
      → (s.chip.link l).tx = []
      → (s.chip.link l).held.head? = some f
      → ((n.toNat + 4095) % 4096 + 4096 - f.seq) % 4096 < (s.chip.link l).held.length
      → ((s.chip.link l).held.drop (((n.toNat + 4095) % 4096 + 4096 - f.seq) % 4096 + 1)).head?.map (·.seq) = some n.toNat
      → 1 < s.chip.cfg Obj.linkReplayMax
      → ∃ (t : Chip) (r : Nat), Effect (.nak l n) s t ∧ t.link l = { s.chip.link l with
             held := (s.chip.link l).held.drop (((n.toNat + 4095) % 4096 + 4096 - f.seq) % 4096 + 1), resent := r, replays := (s.chip.link l).replays + 1
             sent := (s.chip.link l).sent ++ ((s.chip.link l).held.drop (((n.toNat + 4095) % 4096 + 4096 - f.seq) % 4096 + 1)).map .flit }
        ∧ (∀ j : Nat, j ≠ l → t.link j = s.chip.link j) ∧ Frame [.links, .cnt] t s.chip)
  ∧ (∀ (s : State) (l : Fin 8) (group : Bool) (limits : BitVec 64),
      (s.chip.link l).st = .active
      → (s.chip.link l).tx = []
      → ∃ t : Chip, Effect (.credit l group limits) s t ∧ (∀ v : Nat, v < 4 → 4 * group.toNat + v < (s.chip.link l).vcs → Tab.get 0 (t.link l).limit (4 * group.toNat + v) =
             if (bitsOf limits.toNat (16 * v) 16 + 65536 - Tab.get 0 (s.chip.link l).limit (4 * group.toNat + v)) % 65536 < 32768 then bitsOf limits.toNat (16 * v) 16
             else Tab.get 0 (s.chip.link l).limit (4 * group.toNat + v))
        ∧ (∃ m g, t.link l = { s.chip.link l with limit := m, initGot := g }) ∧ (∀ j : Nat, j ≠ l → t.link j = s.chip.link j) ∧ Frame [.links] t s.chip)
  ∧ (∀ (s : State) (l : Fin 8) (group : Bool) (limits : BitVec 64),
      (s.chip.link l).st = .training
      → (s.chip.link l).step = .init
      → (s.chip.link l).tx = []
      → bitOf ((s.chip.link l).initGot ||| 2 ^ group.toNat) 0 = true
      → ((s.chip.link l).vcs ≤ 4 ∨ bitOf ((s.chip.link l).initGot ||| 2 ^ group.toNat) 1 = true)
      → ∃ t : Chip, Effect (.credit l group limits) s t ∧ (t.link l).st = .active ∧ (t.link l).step = .none ∧ (t.link l).tries = 0
        ∧ (∃ m g, t.link l = { s.chip.link l with limit := m, initGot := g, st := .active, step := .none, tries := 0 }) ∧ (∀ j : Nat, j ≠ l → t.link j = s.chip.link j) ∧ Frame [.links] t s.chip)
  ∧ (∀ (s : State) (l : Fin 8) (limit : BitVec 16) (up : Nat),
      (s.chip.link l).st = .active
      → up = (limit.toNat + 65536 - (s.chip.link l).readLimit % 65536) % 65536
      → 0 < up
      → up < 32768
      → (s.chip.link l).readLimit + up - (s.chip.link l).readUsed ≤ 48
      → (s.chip.link l).readLimit + up - (s.chip.link l).readUsed + s.chip.answersOwed l ≤ s.chip.readCeiling l
      → ∃ t : Chip, Effect (.creditRd l limit) s t ∧ t.link l = { s.chip.link l with readLimit := (s.chip.link l).readLimit + up, sent := (s.chip.link l).sent ++ [.ctl (.creditRd limit.toNat) (((s.chip.link l).e + 4095) % 4096)] } ∧ (∀ j : Nat, j ≠ l → t.link j = s.chip.link j) ∧ Frame [.links] t s.chip)
  ∧ (∀ (s : State) (l : Fin 8) (limit : BitVec 16) (up : Nat),
      (s.chip.link l).st = .active
      → up = (limit.toNat + 65536 - (s.chip.link l).wbLimit % 65536) % 65536
      → 0 < up
      → up < 32768
      → (s.chip.link l).wbLimit + up - (s.chip.link l).wbUsed ≤ s.chip.cfgAt Obj.linkWbCredits l
      → ∃ t : Chip, Effect (.creditWb l limit) s t ∧ t.link l = { s.chip.link l with wbLimit := (s.chip.link l).wbLimit + up, sent := (s.chip.link l).sent ++ [.ctl (.creditWb limit.toNat) (((s.chip.link l).e + 4095) % 4096)] } ∧ (∀ j : Nat, j ≠ l → t.link j = s.chip.link j) ∧ Frame [.links] t s.chip)
  ∧ (∀ (s : State) (l : Fin 8),
      (s.chip.link l).st = .active
      → ∃ (t : Chip) (x y : List Nat), Effect (.creditRefresh l) s t ∧ (t.link l).sent = (s.chip.link l).sent ++ [.ctl (.credit 0 x) (((s.chip.link l).e + 4095) % 4096), .ctl (.credit 1 y) (((s.chip.link l).e + 4095) % 4096)]
        ∧ (∀ v : Nat, v < 8 → v < (s.chip.link l).vcs → Tab.get 0 (s.chip.link l).adv v ≤ Tab.get 0 (t.link l).adv v)
        ∧ (∃ a, t.link l = { s.chip.link l with adv := a, sent := (t.link l).sent }) ∧ (∀ j : Nat, j ≠ l → t.link j = s.chip.link j) ∧ Frame [.links] t s.chip)
  ∧ (∀ (s : State) (l : Fin 8),
      (s.chip.link l).st = .active
      → (s.chip.link l).held ≠ []
      → (s.chip.link l).resent + 1 < s.chip.cfg Obj.linkReplayMax
      → ∃ (t : Chip) (r : Nat), Effect (.replayTimeout l false) s t ∧ t.link l = { s.chip.link l with replays := (s.chip.link l).replays + 1, resent := r, sent := (s.chip.link l).sent ++ (s.chip.link l).held.map .flit }
        ∧ (∀ j : Nat, j ≠ l → t.link j = s.chip.link j) ∧ Frame [.links, .cnt] t s.chip)
  ∧ (∀ (s : State) (l : Fin 8),
      (s.chip.link l).st = .active
      → (s.chip.link l).held ≠ []
      → (s.chip.link l).want = none
      → ∃ t : Chip, Effect (.replayTimeout l true) s t ∧ t.link l = { s.chip.link l with want := some 8 } ∧ t.sticky 129 = true
        ∧ t.integ.parityDirty = s.chip.integ.parityDirty + 1 ∧ (∀ j : Nat, j ≠ l → t.link j = s.chip.link j) ∧ Frame [.links, .integ, .fault, .heads, .field] t s.chip)

/-- A width or speed change runs from request to replay, is deferred, refused or timed out, and an endpoint request is answered.
Behind it stand choices of the model: log entries 5, 104, 121. -/
def Obligations.LinkChangesFollowTheirSteps : Prop :=
  (∀ (s : State) (l : Fin 8) (id width speed reason : BitVec 8),
      (s.chip.link l).st = .active
      → (s.chip.link l).change = none
      → reason = 1
      → s.chip.changeOk l width.toNat speed.toNat = true
      → ∃ t : Chip, Effect (.changeReq l id width speed reason) s t ∧ t.link l = { s.chip.link l with queued := some (width.toNat, speed.toNat), sent := (s.chip.link l).sent ++ [.ctl (.changeDefer id.toNat) (((s.chip.link l).e + 4095) % 4096)] }
        ∧ t.win.ops = s.chip.win.ops.filter (fun o => match o.kind with | .linkChange j _ => decide (j ≠ l) | _ => true) ++ [⟨.linkChange l (width.toNat + 256 * speed.toNat), 15, 0⟩]
        ∧ (∀ j : Nat, j ≠ l → t.link j = s.chip.link j) ∧ Frame [.links, .win] t s.chip)
  ∧ (∀ (s : State) (l : Fin 8) (id width speed reason : BitVec 8),
      (s.chip.link l).st = .active
      → (s.chip.link l).change = none
      → reason = 2
      → s.chip.changeOk l width.toNat speed.toNat = true
      → ∃ t : Chip, Effect (.changeReq l id width speed reason) s t ∧ t.link l = { s.chip.link l with st := .changing, change := some { id := id.toNat, width := width.toNat, speed := speed.toNat, planned := false, leader := false, acked := true }, sent := (s.chip.link l).sent ++ [.ctl (.changeAck id.toNat) (((s.chip.link l).e + 4095) % 4096), .ctl (.changeGo id.toNat (s.chip.link l).nextSeq) (((s.chip.link l).e + 4095) % 4096)] } ∧ (∀ j : Nat, j ≠ l → t.link j = s.chip.link j) ∧ Frame [.links] t s.chip)
  ∧ (∀ (s : State) (l : Fin 8) (id width speed reason : BitVec 8),
      (s.chip.link l).st = .active
      → (s.chip.link l).change = none
      → (reason = 1 ∨ reason = 2)
      → s.chip.changeOk l width.toNat speed.toNat = false
      → ∃ t : Chip, Effect (.changeReq l id width speed reason) s t ∧ t.link l = { s.chip.link l with sent := (s.chip.link l).sent ++ [.ctl (.changeRefuse id.toNat) (((s.chip.link l).e + 4095) % 4096)] } ∧ (∀ j : Nat, j ≠ l → t.link j = s.chip.link j) ∧ Frame [.links] t s.chip)
  ∧ (∀ (s : State) (l : Fin 8) (id width speed reason : BitVec 8) (c : LinkChange),
      (s.chip.link l).st = .active
      → (reason = 1 ∨ reason = 2)
      → (s.chip.link l).change = some c
      → c.leader = true
      → c.acked = false
      → Effect (.changeReq l id width speed reason) s (s.chip.setLink l { s.chip.link l with changeCrossed := (s.chip.link l).changeCrossed + 1 }))
  ∧ (∀ (s : State) (l : Fin 8) (id : BitVec 8) (c : LinkChange),
      (s.chip.link l).change = some c
      → c.leader = true
      → c.acked = false
      → c.id = id.toNat
      → ∃ t : Chip, Effect (.changeAck l id) s t ∧ t.link l = { s.chip.link l with st := .changing, change := some { c with acked := true }, sent := (s.chip.link l).sent ++ [.ctl (.changeGo c.id (s.chip.link l).nextSeq) (((s.chip.link l).e + 4095) % 4096)] } ∧ (∀ j : Nat, j ≠ l → t.link j = s.chip.link j) ∧ Frame [.links] t s.chip)
  ∧ (∀ (s : State) (l : Fin 8) (id : BitVec 8),
      (s.chip.link l).st = .active
      → ((s.chip.link l).errs.filter (fun n => decide ((s.chip.link l).flits < n + s.chip.cfg Obj.linkDownWindowFlits))).length < s.chip.cfg Obj.linkDownThreshold
      → ∃ t : Chip, Effect (.changeDefer l id) s t ∧ (∃ e r, t.link l = { s.chip.link l with crcErrors := (s.chip.link l).crcErrors + 1, protocolErrors := (s.chip.link l).protocolErrors + 1, errs := e, crcs := r })
        ∧ (∀ j : Nat, j ≠ l → t.link j = s.chip.link j) ∧ Frame [.links] t s.chip)
  ∧ (∀ (s : State) (l : Fin 8) (id : BitVec 8) (c : LinkChange),
      (s.chip.link l).change = some c
      → c.leader = true
      → c.acked = false
      → c.id = id.toNat
      → Effect (.changeRefuse l id) s (s.chip.setLink l { s.chip.link l with change := none, changeResult := 2 }))
  ∧ (∀ (s : State) (l : Fin 8) (id : BitVec 8) (seq : BitVec 12) (c : LinkChange),
      (s.chip.link l).change = some c
      → c.acked = true
      → c.retraining = false
      → c.id = id.toNat
      → Effect (.changeGo l id seq) s (s.chip.setLink l { s.chip.link l with st := .changing, step := .lock, lanes := 0, change := some { c with retraining := true }, sent := (s.chip.link l).sent ++ [.ts 0x2D 2] }))
  ∧ (∀ (s : State) (l : Fin 8) (c : LinkChange),
      (s.chip.link l).change = some c
      → c.leader = true
      → c.acked = false
      → c.sends < 4
      → ∃ t : Chip, Effect (.changeReqTimeout l) s t ∧ t.link l = { s.chip.link l with change := some { c with sends := c.sends + 1 }, sent := (s.chip.link l).sent ++ [.ctl (.changeReq c.id c.width c.speed 1) (((s.chip.link l).e + 4095) % 4096)] } ∧ (∀ j : Nat, j ≠ l → t.link j = s.chip.link j) ∧ Frame [.links] t s.chip)
  ∧ (∀ (s : State) (l : Fin 8) (c : LinkChange),
      (s.chip.link l).st = .active
      → (s.chip.link l).change = some c
      → c.leader = true
      → c.acked = false
      → 4 ≤ c.sends
      → ∃ t : Chip, Effect (.changeReqTimeout l) s t ∧ (t.link l).st = .changing ∧ (t.link l).retrains = (s.chip.link l).retrains + 1
        ∧ (t.link l).width = (s.chip.link l).width ∧ (t.link l).speed = (s.chip.link l).speed ∧ t.sticky 144 = true ∧ (∀ j : Nat, j ≠ l → t.link j = s.chip.link j) ∧ Frame [.links, .fault, .heads, .field] t s.chip)
  ∧ (∀ (s : State) (l : Fin 8) (c : LinkChange),
      (s.chip.link l).change = some c
      → c.acked = true
      → (s.chip.link l).st = .changing
      → (s.chip.link l).want = none
      → ∃ t : Chip, Effect (.changeTimeout l) s t ∧ t.link l = { s.chip.link l with want := some 3, changeResult := if c.planned ∧ c.leader then 3 else (s.chip.link l).changeResult } ∧ (∀ j : Nat, j ≠ l → t.link j = s.chip.link j) ∧ Frame [.links] t s.chip)
  ∧ (∀ (s : State) (l : Fin 8) (width speed : BitVec 8) (c : LinkChange),
      (s.chip.link l).change = some c
      → c.retraining = true
      → (width = 1 ∨ width = 2 ∨ width = 4)
      → width.toNat ≤ c.width
      → speed.toNat = c.speed
      → (s.chip.link l).held = []
      → (s.chip.link l).tx = []
      → Effect (.changeComplete l width speed) s (s.chip.setLink l { s.chip.link l with st := .active, step := .none, width := width.toNat, speed := speed.toNat, change := none, nakSent := false, changeResult := if c.planned ∧ c.leader then 1 else (s.chip.link l).changeResult }))
  ∧ (∀ (s : State) (l : Fin 8) (width speed : BitVec 8) (c : LinkChange),
      (s.chip.link l).change = some c
      → c.retraining = true
      → (width = 1 ∨ width = 2 ∨ width = 4)
      → width.toNat ≤ c.width
      → speed.toNat = c.speed
      → (s.chip.link l).held ≠ []
      → (s.chip.link l).tx = []
      → (s.chip.link l).resent + 1 < s.chip.cfg Obj.linkReplayMax
      → ∃ (t : Chip) (r : Nat), Effect (.changeComplete l width speed) s t ∧ t.link l = { s.chip.link l with
             st := .active, step := .none, width := width.toNat, speed := speed.toNat, change := none, nakSent := false, changeResult := if c.planned ∧ c.leader then 1 else (s.chip.link l).changeResult
             replays := (s.chip.link l).replays + 1, resent := r, sent := (s.chip.link l).sent ++ (s.chip.link l).held.map .flit }
        ∧ (∀ j : Nat, j ≠ l → t.link j = s.chip.link j) ∧ Frame [.links, .cnt] t s.chip)
  ∧ (∀ (s : State) (src : Src) (l : Fin 8),
      Accepts s.chip src (0x8010 + ↑l) 2 1
      → (s.chip.link l).st = .active
      → ∃ t : Chip, Effect (.change src l) s (t.answerWrite src (0x8010 + ↑l) 2 (bytesLE 1 3) 0)
        ∧ t.win.ops = s.chip.win.ops ++ [⟨.linkChange l ((targetOf (s.chip.cfgAt Obj.linkChangeTarget l)).1 + 256 * (targetOf (s.chip.cfgAt Obj.linkChangeTarget l)).2), s.chip.cfg Obj.linkChangeUs, 0⟩]
        ∧ Frame [.win] t s.chip)
  ∧ (∀ (s : State) (src : Src) (l : Fin 8),
      Accepts s.chip src (0x8010 + ↑l) 2 1
      → (s.chip.link l).st ≠ .active
      → Effect (.change src l) s (s.chip.answerWrite src (0x8010 + ↑l) 2 (bytesLE 1 3) Abort.channelState))

/-- RD, WR, WRC, FENCE, EVT and TBE packets of a Semund endpoint do what the packet rules say.
Behind it stand choices of the model: log entries 4, 39, 42, 49, 136, 175, 178. -/
def Obligations.SemundPacketsReadWriteAndOrder : Prop :=
  (∀ (s : State) (l : Fin 8) (p : Packet) (obs : Obs),
      s.chip.hasPacket l p = true
      → s.chip.goodPacket l 1 p = true
      → ∃ b : Chip, Effect (.rd l p obs) s ((lineAddrs (pktDla p) (p.lenM1.toNat + 1)).foldl (fun (c : Chip) (x : Nat) => c.request ⟨0x10 + ↑l, .pasid (c.slotOf p.pasid.toNat), .read, x, 0, 0, false, true, 0, .link l (s.chip.link l).nextReq⟩ (b.noteRead (0x10 + ↑l) (pktDla p) obs)) b)
        ∧ b.link l = { s.chip.link l with rx := (s.chip.link l).rx.erase p, nextReq := (s.chip.link l).nextReq + 1, reqs := (s.chip.link l).reqs ++
             [{ id := (s.chip.link l).nextReq, vc := p.vc.toNat, tag := p.tag.toNat, read := true, cmp := false, addr := pktDla p, len := (p.lenM1.toNat + 1), left := (lineAddrs (pktDla p) (p.lenM1.toNat + 1)).length }] }
        ∧ (∀ j : Nat, j ≠ l → b.link j = s.chip.link j) ∧ Frame [.links, .cnt] b s.chip)
  ∧ (∀ (s : State) (l : Fin 8) (p : Packet) (obs : Obs),
      s.chip.hasPacket l p = true
      → s.chip.goodPacket l 3 p = true
      → p.data ≠ []
      → ∃ b : Chip, Effect (.wr l p obs) s ((lineParts (pktDla p) (p.data.take (p.lenM1.toNat + 1))).foldl (fun (c : Chip) (x : LinePart) => c.request ⟨0x10 + ↑l, .pasid (c.slotOf p.pasid.toNat), .write, x.addr, x.mask, x.data, p.poison, true, 0, .link l (s.chip.link l).nextReq⟩ obs) b)
        ∧ b.link l = { s.chip.link l with rx := (s.chip.link l).rx.erase p, nextReq := (s.chip.link l).nextReq + 1, reqs := (s.chip.link l).reqs ++
             [{ id := (s.chip.link l).nextReq, vc := p.vc.toNat, tag := p.tag.toNat, read := false, cmp := p.cmpreq, addr := pktDla p, len := (p.lenM1.toNat + 1), left := (lineParts (pktDla p) (p.data.take (p.lenM1.toNat + 1))).length }] }
        ∧ (∀ j : Nat, j ≠ l → b.link j = s.chip.link j) ∧ Frame [.links, .cnt] b s.chip)
  ∧ (∀ (s : State) (l : Fin 8) (p : Packet) (obs : Obs) (i : Instr),
      s.chip.hasPacket l p = true
      → ((i = .rd l p obs ∧ s.chip.goodPacket l 1 p = false) ∨ (i = .wr l p obs ∧ s.chip.goodPacket l 3 p = false) ∨ (i = .wrc l p ∧ s.chip.goodPacket l 4 p = false) ∨ (i = .append l p obs ∧ s.chip.goodPacket l 5 p = false) ∨ (i = .fold l p ∧ s.chip.goodPacket l 6 p = false) ∨ (i = .fence l p ∧ s.chip.goodPacket l 7 p = false) ∨ (i = .evt l p ∧ s.chip.goodPacket l 10 p = false) ∨ (i = .tbe l p ∧ s.chip.goodPacket l 11 p = false))
      → ((s.chip.link l).errs.filter (fun n => decide ((s.chip.link l).flits < n + s.chip.cfg Obj.linkDownWindowFlits))).length < s.chip.cfg Obj.linkDownThreshold
      → ∃ t : Chip, Effect i s t ∧ (t.link l).protocolErrors = (s.chip.link l).protocolErrors + 1 ∧ (t.link l).rx = (s.chip.link l).rx.erase p
        ∧ (∀ j : Nat, j ≠ l → t.link j = s.chip.link j) ∧ Frame [.links] t s.chip)
  ∧ (∀ (s : State) (l : Fin 8) (p : Packet) (t : Nat × Nat × Nat),
      s.chip.hasPacket l p = true
      → s.chip.goodPacket l 4 p = true
      → (s.chip.link l).wrTags.find? (fun t => decide (t.1 = p.tag.toNat)) = some t
      → p.op = 0
      → ∃ c : Chip, Effect (.wrc l p) s c
        ∧ c.hchan t.2.1 = { s.chip.hchan t.2.1 with bursts := modFirst (fun x => decide (x.id = t.2.2)) (fun b => { b with left := b.left - 1 }) (s.chip.hchan t.2.1).bursts }
        ∧ (∀ j : Nat, j ≠ t.2.1 → c.hchan j = s.chip.hchan j)
        ∧ c.link l = { s.chip.link l with rx := (s.chip.link l).rx.erase p, wrTags := (s.chip.link l).wrTags.erase t }
        ∧ (∀ j : Nat, j ≠ l → c.link j = s.chip.link j) ∧ Frame [.links, .hop] c s.chip)
  ∧ (∀ (s : State) (l : Fin 8) (p : Packet),
      s.chip.hasPacket l p = true
      → s.chip.goodPacket l 7 p = true
      → (s.chip.link l).fences = []
      → (s.chip.link l).reqs = []
      → s.chip.fold.open = []
      → s.chip.fold.appends = []
      → s.chip.waits = []
      → (s.chip.link l).tx = []
      → (s.chip.link l).limit = []
      → (s.chip.link l).used = []
      → ∃ t : Chip, Effect (.fence l p) s t ∧ t.link l = { s.chip.link l with rx := (s.chip.link l).rx.erase p, tx := [mkPacket 0x08 p.vc.toNat 0 p.tag.toNat 0 0 [] 1] }
        ∧ (∀ j : Nat, j ≠ l → t.link j = s.chip.link j) ∧ Frame [.links] t s.chip)
  ∧ (∀ (s : State) (l : Fin 8) (p : Packet),
      s.chip.hasPacket l p = true
      → s.chip.goodPacket l 7 p = true
      → (s.chip.link l).fences = []
      → (∃ r ∈ (s.chip.link l).reqs, r.read = false ∧ r.id < (s.chip.link l).nextReq)
      → ∃ t : Chip, Effect (.fence l p) s t ∧ t.link l = { s.chip.link l with rx := (s.chip.link l).rx.erase p, fences := [⟨p.vc.toNat, p.tag.toNat, (s.chip.link l).nextReq, s.chip.fold.nextId⟩] }
        ∧ (∀ j : Nat, j ≠ l → t.link j = s.chip.link j) ∧ Frame [.links] t s.chip)
  ∧ (∀ (s : State) (l : Fin 8) (p : Packet),
      s.chip.hasPacket l p = true
      → s.chip.goodPacket l 10 p = true
      → s.chip.cfgAt Obj.hopperEventLineInput p.op.toNat = 0x20 + l
      → (Tab.find s.chip.hop.lastPulse p.op.toNat ≠ some (s.chip.cnt.clocks * 2 ^ 64 + s.chip.tb.tc) ∨ s.chip.tb.state = .unlocked)
      → ∃ t : Chip, Effect (.evt l p) s t ∧ (∃ m q : Nat, t.hop = { s.chip.hop with
             lineCount := Tab.upd 0 s.chip.hop.lineCount p.op.toNat (· + 1)
             lastPulse := Tab.set s.chip.hop.lastPulse p.op.toNat (s.chip.cnt.clocks * 2 ^ 64 + s.chip.tb.tc), merged := m, pins := q })
        ∧ Frame [.links, .cnt, .hop, .husk, .fault, .heads, .field] t s.chip)
  ∧ (∀ (s : State) (l : Fin 8) (p : Packet),
      s.chip.hasPacket l p = true
      → s.chip.goodPacket l 10 p = true
      → s.chip.cfgAt Obj.hopperEventLineInput p.op.toNat ≠ 0x20 + l
      → ∃ t : Chip, Effect (.evt l p) s t ∧ t.hop = { s.chip.hop with rejected := s.chip.hop.rejected + 1 }
        ∧ t.link l = { s.chip.link l with rx := (s.chip.link l).rx.erase p } ∧ (∀ j : Nat, j ≠ l → t.link j = s.chip.link j) ∧ Frame [.links, .cnt, .hop] t s.chip)
  ∧ (∀ (s : State) (l : Fin 8) (p : Packet),
      s.chip.hasPacket l p = true
      → s.chip.goodPacket l 11 p = true
      → (s.chip.link l).tx = []
      → (s.chip.link l).limit = []
      → (s.chip.link l).used = []
      → ∃ t : Chip, Effect (.tbe l p) s t ∧ t.link l = { s.chip.link l with rx := (s.chip.link l).rx.erase p, tx := [mkPacket 0x0B p.vc.toNat 1 p.tag.toNat 0 0
             (bytesLE 8 (natLE (p.data.take 8)) ++ bytesLE 8 s.chip.tcRec ++ bytesLE 8 s.chip.tcRec ++ bytesLE 2 s.chip.tb.epoch ++ bytesLE 1 s.chip.tb.code ++ bytesLE 5 0) 3] }
        ∧ (∀ j : Nat, j ≠ l → t.link j = s.chip.link j) ∧ Frame [.links] t s.chip)

/-- FOLDs and fold aliases queue line folds that run in order, and APPENDs reach their queue, wait or are dropped.
Behind it stand choices of the model: log entries 22, 49, 136, 176. -/
def Obligations.FoldsAndCaptureAppends : Prop :=
  (∀ (s : State) (l : Fin 8) (p : Packet) (obs : Obs) (k : Nat) (x : QState),
      s.chip.hasPacket l p = true
      → s.chip.goodPacket l 5 p = true
      → s.chip.slotOf p.pasid.toNat = some k
      → (s.chip.cask k).state = .active
      → s.chip.queue (bitsOf p.addr.toNat 0 20) = some x
      → x.cached = true
      → x.fault = false
      → x.kind = 4
      → x.pv = true
      → x.pasid = p.pasid.toNat
      → s.chip.may k (0x10 + l) 1 = true
      → s.chip.fold.appends = []
      → x.hasRoom p = true
      → ∃ (b : Chip) (id : Nat), Effect (.append l p obs) s (((List.range (appendRecords p)).foldl (fun (c : Chip) (i : Nat) =>
            (lineParts (x.base + (x.accepted + 16 * i) % 2 ^ 64 % x.ring) ((p.data.drop (16 * i)).take 16)).foldl (fun (c : Chip) (y : LinePart) =>
              c.request ⟨0x10 + ↑l, .pasid (c.slotOf p.pasid.toNat), .append, y.addr, y.mask, y.data, p.poison, true, 0, .append (bitsOf p.addr.toNat 0 20) ((x.accepted + 16 * i) % 2 ^ 64) l id⟩ obs) c) b).answerFences l)
        ∧ id = (s.chip.link l).nextReq
        ∧ b.queue (bitsOf p.addr.toNat 0 20) = some { x with lru := s.chip.hop.clock, accepted := (x.accepted + 16 * (appendRecords p)) % 2 ^ 64, dirty := true }
        ∧ (∀ j : Nat, j ≠ (bitsOf p.addr.toNat 0 20) → b.queue j = s.chip.queue j) ∧ b.fold = { s.chip.fold with records := s.chip.fold.records + (appendRecords p) }
        ∧ b.link l = { s.chip.link l with rx := (s.chip.link l).rx.erase p, nextReq := (s.chip.link l).nextReq + 1 }
        ∧ (∀ j : Nat, j ≠ l → b.link j = s.chip.link j) ∧ Frame [.links, .cnt, .hop, .fold] b s.chip)
  ∧ (∀ (s : State) (l : Fin 8) (p : Packet) (obs : Obs) (k : Nat) (x : QState),
      s.chip.hasPacket l p = true
      → s.chip.goodPacket l 5 p = true
      → s.chip.slotOf p.pasid.toNat = some k
      → (s.chip.cask k).state = .active
      → s.chip.queue (bitsOf p.addr.toNat 0 20) = some x
      → x.cached = true
      → x.fault = false
      → x.kind = 4
      → x.pv = true
      → x.pasid = p.pasid.toNat
      → s.chip.may k (0x10 + l) 1 = true
      → x.hasRoom p = false
      → s.chip.cfgAt Obj.captureLinkFullPolicy l = 1
      → ∃ t : Chip, Effect (.append l p obs) s t ∧ t.fold = { s.chip.fold with appends := s.chip.fold.appends ++ [(↑l, (s.chip.link l).nextReq, p)] }
        ∧ (∀ j : Nat, j ≠ (bitsOf p.addr.toNat 0 20) → t.queue j = s.chip.queue j) ∧ t.queue (bitsOf p.addr.toNat 0 20) = some { x with lru := s.chip.hop.clock }
        ∧ t.link l = { s.chip.link l with rx := (s.chip.link l).rx.erase p, nextReq := (s.chip.link l).nextReq + 1 }
        ∧ (∀ j : Nat, j ≠ l → t.link j = s.chip.link j) ∧ Frame [.links, .cnt, .hop, .fold] t s.chip)
  ∧ (∀ (s : State) (l : Fin 8) (p : Packet),
      s.chip.hasPacket l p = true
      → s.chip.goodPacket l 6 p = true
      → ∃ t : Chip, Effect (.fold l p) s t
        ∧ t.fold.queue ++ t.fold.waiting = s.chip.fold.queue ++ s.chip.fold.waiting
            ++ (lineParts (pktDla p) (p.data.take (p.lenM1.toNat + 1))).mapIdx (fun i x => ⟨s.chip.fold.nextId + i, 0x10 + ↑l, .pasid (s.chip.slotOf p.pasid.toNat), x.addr, p.op.toNat, x.mask, x.data, p.poison, .none, s.chip.tb.tc, p.vc.toNat⟩)
        ∧ t.fold.running = s.chip.fold.running ∧ t.fold.fences = s.chip.fold.fences
        ∧ t.link l = { s.chip.link l with rx := (s.chip.link l).rx.erase p } ∧ (∀ j : Nat, j ≠ l → t.link j = s.chip.link j) ∧ Frame [.links, .cnt, .fold] t s.chip)
  ∧ (∀ (s : State) (h : Fin 4) (tag : BitVec 16) (dla : BitVec 46) (mask : BitVec 64) (data : Line) (poison : Bool) (op t : Nat),
      s.chip.memLive h = true
      → dlaWin (lineBase dla.toNat) = .foldAlias
      → dlaWin dla.toNat = .foldAlias
      → s.chip.aliasOf (lineBase dla.toNat) = some (op, t)
      → op ≠ 15
      → wholeFields op mask ≠ 0
      → ∃ u : Chip, Effect (.foldAliasWrite h tag dla mask data poison) s u
        ∧ u.fold.queue ++ u.fold.waiting = s.chip.fold.queue ++ s.chip.fold.waiting
            ++ [⟨s.chip.fold.nextId, h, .byDir, t, op, wholeFields op mask, data, poison, .head h tag.toNat .i, s.chip.tb.tc, 0⟩]
        ∧ u.fold.aliasPartial = s.chip.fold.aliasPartial + foldPartial op mask ∧ u.fold.running = s.chip.fold.running
        ∧ Frame [.cnt, .fold] u s.chip)
  ∧ (∀ (s : State) (h : Fin 4) (tag : BitVec 16) (dla : BitVec 46) (obs : Obs) (op t : Nat),
      s.chip.memLive h = true
      → dlaWin (lineBase dla.toNat) = .foldAlias
      → dlaWin dla.toNat = .foldAlias
      → s.chip.aliasOf (lineBase dla.toNat) = some (op, t)
      → op ≠ 15
      → 0 < s.chip.readCredit h
      → ∃ c : Chip, Effect (.foldAliasRead h tag dla obs) s (c.requestAt ⟨h, .byDir, .read, t, 0, 0, false, true, 0, .head h tag.toNat .a⟩ (c.noteRead h (lineBase dla.toNat) obs))
        ∧ Frame [.cnt] c s.chip)
  ∧ (∀ (s : State) (h : Fin 4) (tag : BitVec 16) (dla : BitVec 46) (read : Bool) (t : Nat),
      s.chip.memLive h = true
      → dlaWin (lineBase (fenceAlias dla.toNat)) = .foldAlias
      → dlaWin dla.toNat = .foldAlias
      → s.chip.aliasOf (lineBase (fenceAlias dla.toNat)) = some (15, t)
      → (read = true → 0 < s.chip.readCredit h)
      → ∃ (c : Chip) (o : Obs), Effect (.foldFence h tag dla read) s c ∧ o = (if read then s.chip.noteRead h (lineBase (fenceAlias dla.toNat)) {} else {})
        ∧ c.fold = { s.chip.fold with fences := s.chip.fold.fences ++ [⟨h, tag.toNat, t, read, s.chip.fold.nextId, o.burst, o.bound⟩], fenceCount := s.chip.fold.fenceCount + 1 }
        ∧ Frame [.cnt, .fold] c s.chip)
  ∧ (∀ (s : State) (h : Fin 4) (obs : Obs) (f : FoldFence),
      s.chip.fold.fences.find? (fun f => decide (f.h = ↑h)) = some f
      → f.read = false
      → s.chip.fold.open.all (fun q => decide (f.upto ≤ q.id)) = true
      → (s.chip.head h).detect = false
      → ∃ t : Chip, Effect (.foldFenceDone h obs) s t ∧ t.fold = { s.chip.fold with fences := s.chip.fold.fences.erase f }
        ∧ (t.head h).sent = (s.chip.head h).sent ++ [.cmp f.tag] ∧ (∀ j : Nat, j ≠ h → t.head j = s.chip.head j)
        ∧ Frame [.fold, .heads] t s.chip)
  ∧ (∀ (s : State) (n : Nat) (obs : Obs) (q : FoldReq),
      s.chip.fold.queue[n]? = some q
      → (s.chip.fold.queue.take n ++ s.chip.fold.running).all (fun x => decide (lineNo x.dla ≠ lineNo q.dla)) = true
      → ∃ c : Chip, Effect (.lineFold n obs) s (c.requestAt ⟨q.master, q.bind, .fold, lineBase q.dla, q.mask, q.data, q.poison, true, q.op, .fold q.id⟩ obs).foldRefill
        ∧ c.fold = { s.chip.fold with queue := s.chip.fold.queue.eraseIdx n, running := s.chip.fold.running ++ [q] } ∧ Frame [.fold] c s.chip)
  ∧ (∀ (s : State) (l : Fin 8) (a : Nat × Nat × Packet),
      s.chip.fold.appends.find? (fun a => decide (a.1 = ↑l)) = some a
      → (s.chip.link l).fences = []
      → ∃ t : Chip, Effect (.appendWaitExpiry l) s t ∧ t.sticky 151 = true
        ∧ t.fold = { s.chip.fold with
             appends := s.chip.fold.appends.erase a
             recDropped := s.chip.fold.recDropped + appendRecords a.2.2
             linkDropped := Tab.upd 0 s.chip.fold.linkDropped l (· + appendRecords a.2.2) }
        ∧ (∀ j : Nat, t.link j = s.chip.link j) ∧ Frame [.fold, .links, .fault, .heads, .field] t s.chip)
  ∧ (∀ (s : State) (l : Fin 8) (obs : Obs) (id : Nat) (p : Packet) (x : QState),
      s.chip.fold.appends.find? (fun a => decide (a.1 = ↑l)) = some (↑l, id, p)
      → s.chip.queue (bitsOf p.addr.toNat 0 20) = some x
      → x.hasRoom p = true
      → ∃ b : Chip, Effect (.appendRoom l obs) s (((List.range (appendRecords p)).foldl (fun (c : Chip) (i : Nat) =>
            (lineParts (x.base + (x.accepted + 16 * i) % 2 ^ 64 % x.ring) ((p.data.drop (16 * i)).take 16)).foldl (fun (c : Chip) (y : LinePart) =>
              c.request ⟨0x10 + ↑l, .pasid (c.slotOf p.pasid.toNat), .append, y.addr, y.mask, y.data, p.poison, true, 0, .append (bitsOf p.addr.toNat 0 20) ((x.accepted + 16 * i) % 2 ^ 64) l id⟩ obs) c) b).answerFences l)
        ∧ b.queue (bitsOf p.addr.toNat 0 20) = some { x with accepted := (x.accepted + 16 * (appendRecords p)) % 2 ^ 64, dirty := true }
        ∧ (∀ j : Nat, j ≠ (bitsOf p.addr.toNat 0 20) → b.queue j = s.chip.queue j)
        ∧ b.fold = { s.chip.fold with records := s.chip.fold.records + (appendRecords p), appends := s.chip.fold.appends.erase (↑l, id, p) }
        ∧ Frame [.hop, .fold] b s.chip)

/-- Hopper queues load, are written back and disabled, doorbells move their indices, and event lines pulse.
Behind it stand choices of the model: log entries 44, 45, 62, 133. -/
def Obligations.HopperQueuesDoorbellsAndEventLines : Prop :=
  (∀ (s : State) (src : Src) (q : Fin 1048576) (x : QState),
      Accepts s.chip src (0x7800) 3 4
      → s.chip.queue q = none
      → s.chip.readEntry q = some x
      → s.chip.statesCached < 8192
      → ∃ t : Chip, Effect (.load src q) s (t.answerWrite src (0x7800) 3 (bytesLE 4 (↑q + 1 * 2 ^ 24)) 0)
        ∧ t.queue q = some { x with lru := s.chip.hop.clock }
        ∧ (∀ j : Nat, j ≠ q → t.queue j = s.chip.queue j)
        ∧ Frame [.hop] t s.chip)
  ∧ (∀ (s : State) (src : Src) (q : Fin 1048576),
      Accepts s.chip src (0x7800) 3 4
      → (s.chip.queue q).isSome = true
      → Effect (.load src q) s (s.chip.answerWrite src (0x7800) 3 (bytesLE 4 (↑q + 1 * 2 ^ 24)) Abort.resourceOwned))
  ∧ (∀ (s : State) (src : Src) (q : Fin 1048576),
      Accepts s.chip src (0x7800) 3 4
      → s.chip.queue q = none
      → s.chip.readEntry q = none
      → Effect (.load src q) s (s.chip.answerWrite src (0x7800) 3 (bytesLE 4 (↑q + 1 * 2 ^ 24)) Abort.outOfRange))
  ∧ (∀ (s : State) (src : Src) (q : Fin 1048576) (x : QState),
      Accepts s.chip src (0x7800) 3 4
      → s.chip.queue q = some x
      → x.cached = true
      → x.fault = false
      → s.chip.entryDla q % 64 = 0
      → CachedWrite s.chip ⟨0x60, .byDir, .write, s.chip.entryDla q, fullMask, BitVec.ofNat 512 x.entry, false, true, 0, .none⟩
      → s.chip.inProgress q true = false
      → s.chip.inProgress q false = false
      → (s.chip.hop.chans.any (fun e => decide (e.2.queue = ↑q ∧ e.2.st ≠ .off)) = false)
      → ∃ t : Chip, Effect (.disable src q) s (t.answerWrite src (0x7800) 3 (bytesLE 4 (↑q + 2 * 2 ^ 24)) 0)
        ∧ t.queue q = none
        ∧ (∀ j : Nat, j ≠ q → t.queue j = s.chip.queue j)
        ∧ t.line (s.chip.entryDla q) = BitVec.ofNat 512 x.entry
        ∧ (∀ y : Nat, y < s.chip.entryDla q ∨ s.chip.entryDla q + 64 ≤ y → Tab.get 0 t.mem y = Tab.get 0 s.chip.mem y)
        ∧ Frame [.hop, .mem, .macs, .poison, .integ, .cache, .lauter, .kiln, .dram, .map] t s.chip)
  ∧ (∀ (s : State) (src : Src) (q : Fin 1048576) (x : QState),
      Accepts s.chip src (0x7800) 3 4
      → s.chip.queue q = some x
      → x.fault = false
      → (s.chip.hop.chans.any (fun e => decide (e.2.queue = ↑q ∧ e.2.st ≠ .off)) = true)
      → Effect (.disable src q) s (s.chip.answerWrite src (0x7800) 3 (bytesLE 4 (↑q + 2 * 2 ^ 24)) Abort.resourceOwned))
  ∧ (∀ (s : State) (src : Src) (q : Fin 1048576) (x : QState),
      Accepts s.chip src (0x7800) 3 4
      → s.chip.queue q = some x
      → x.cached = true
      → x.fault = false
      → s.chip.entryDla q % 64 = 0
      → CachedWrite s.chip ⟨0x60, .byDir, .write, s.chip.entryDla q, fullMask, BitVec.ofNat 512 x.entry, false, true, 0, .none⟩
      → ∃ t : Chip, Effect (.writeback src q) s (t.answerWrite src (0x7800) 3 (bytesLE 4 (↑q + 3 * 2 ^ 24)) 0)
        ∧ t.queue q = some { x with dirty := false }
        ∧ (∀ j : Nat, j ≠ q → t.queue j = s.chip.queue j)
        ∧ t.line (s.chip.entryDla q) = BitVec.ofNat 512 x.entry
        ∧ (∀ y : Nat, y < s.chip.entryDla q ∨ s.chip.entryDla q + 64 ≤ y → Tab.get 0 t.mem y = Tab.get 0 s.chip.mem y)
        ∧ Frame [.hop, .mem, .macs, .poison, .integ, .cache, .lauter, .kiln, .dram, .map] t s.chip)
  ∧ (∀ (s : State) (src : DbSrc) (q : Fin 1048576) (off : BitVec 5) (data : List Byte) (x : QState),
      s.chip.doorbellCheck (dbMaster src) (s.chip.dbBind src) q 1 = none
      → s.chip.queue q = some x
      → x.cached = true
      → data.length = 8
      → (off.toNat = 0 ∨ off.toNat = 8)
      → x.fault = false
      → s.chip.doorbellOwns q off.toNat x = true
      → diff64 (natLE data) (if off.toNat = 0 then x.prod else x.cons) < 2 ^ 63
      → (if off.toNat = 0 then { x with prod := natLE data } else { x with cons := natLE data }).fill ≤ x.capacity
      → ∃ t : Chip, Effect (.doorbellWrite src q off data) s t ∧ t.queue q = some (if off.toNat = 0 then { x with prod := natLE data, dirty := true, lru := s.chip.hop.clock }
             else { x with cons := natLE data, dirty := true, lru := s.chip.hop.clock })
        ∧ (∀ j : Nat, j ≠ q → t.queue j = s.chip.queue j) ∧ Frame [.hop] t s.chip)
  ∧ (∀ (s : State) (src : DbSrc) (q : Fin 1048576) (off : BitVec 5) (data : List Byte) (x : QState),
      s.chip.doorbellCheck (dbMaster src) (s.chip.dbBind src) q 1 = none
      → s.chip.queue q = some x
      → x.cached = true
      → data.length ≠ 8
      → ∃ t : Chip, Effect (.doorbellWrite src q off data) s t ∧ t.hop.queueErrors = s.chip.hop.queueErrors + 1 ∧ t.sticky 146 = true
        ∧ t.queue q = some { x with lru := s.chip.hop.clock } ∧ (∀ j : Nat, j ≠ q → t.queue j = s.chip.queue j) ∧ Frame [.hop, .fault, .heads, .field] t s.chip)
  ∧ (∀ (s : State) (src : DbSrc) (q : Fin 1048576) (off : BitVec 5) (data : List Byte) (k : Nat),
      s.chip.doorbellCheck (dbMaster src) (s.chip.dbBind src) q 1 = some k
      → s.chip.rightDamaged k (dbMaster src) = false
      → ∃ t : Chip, Effect (.doorbellWrite src q off data) s t ∧ t.sticky (violationSource (dbMaster src)) = true ∧ Frame [.cnt, .fault, .heads, .field] t s.chip)
  ∧ (∀ (s : State) (q : Fin 1048576) (x : QState) (m : Nat) (b : Binding) (k off : Nat) (d : List Byte),
      s.chip.queue q = some x
      → x.cached = true
      → s.chip.queueActive q = false
      → s.chip.hop.waiting = [.doorbell m b k off d .none]
      → ∃ c : Chip, Effect (.stateWaitRelease q) s (c.doorbellPut m b k off d .none false) ∧ c.hop = { s.chip.hop with waiting := [] } ∧ Frame [.hop] c s.chip)
  ∧ (∀ (s : State) (src : Src) (line : BitVec 8),
      Accepts s.chip src (0x7880) 1 1
      → (Tab.find s.chip.hop.lastPulse line.toNat ≠ some (s.chip.cnt.clocks * 2 ^ 64 + s.chip.tb.tc) ∨ s.chip.tb.state = .unlocked)
      → ∃ t : Chip, Effect (.eventPulse src line) s (t.answerWrite src (0x7880) 1 (bytesLE 1 line.toNat) 0)
        ∧ (∃ m p : Nat, t.hop = { s.chip.hop with
             lineCount := Tab.upd 0 s.chip.hop.lineCount line.toNat (· + 1)
             lastPulse := Tab.set s.chip.hop.lastPulse line.toNat (s.chip.cnt.clocks * 2 ^ 64 + s.chip.tb.tc), merged := m, pins := p })
        ∧ Frame [.hop, .links, .husk, .cnt, .fault, .heads, .field] t s.chip)
  ∧ (∀ (s : State) (pin : Fin 8) (n : Nat),
      (List.range 256).find? (fun n => decide (s.chip.cfgAt Obj.hopperEventLineInput n = 0x10 + ↑pin)) = some n
      → (Tab.find s.chip.hop.lastPulse n ≠ some (s.chip.cnt.clocks * 2 ^ 64 + s.chip.tb.tc) ∨ s.chip.tb.state = .unlocked)
      → ∃ t : Chip, Effect (.evtInEdge pin) s t ∧ (∃ m p : Nat, t.hop = { s.chip.hop with
             lineCount := Tab.upd 0 s.chip.hop.lineCount n (· + 1)
             lastPulse := Tab.set s.chip.hop.lastPulse n (s.chip.cnt.clocks * 2 ^ 64 + s.chip.tb.tc), merged := m, pins := p }) ∧ Frame [.hop, .links, .husk, .cnt, .fault, .heads, .field] t s.chip)
  ∧ (∀ (s : State) (pin : Fin 8),
      ∃ t : Chip, Effect (.evtOutEnd pin) s t ∧ t.hop = { s.chip.hop with pins := setBit s.chip.hop.pins pin false } ∧ bitOf t.hop.pins pin = false
        ∧ (∀ k : Nat, k ≠ pin → bitOf t.hop.pins k = bitOf s.chip.hop.pins k) ∧ Frame [.hop] t s.chip)

/-- Hopper channels start, stop, resume, skip and clear, fetch descriptors and issue bursts that become durable.
Behind it stand choices of the model: log entries 27, 35, 36, 37, 38, 40, 41, 180. -/
def Obligations.HopperChannelsRunTheirDescriptors : Prop :=
  (∀ (s : State) (src : Src) (ch : Fin 64) (x : QState),
      Accepts s.chip src (0x7840 + ↑ch) 5 1
      → (s.chip.hchan ch).st = .off
      → bitOf (s.chip.cfgAt Obj.hopperChanQueue ch) 31 = true
      → s.chip.queue (bitsOf (s.chip.cfgAt Obj.hopperChanQueue ch) 0 20) = some x
      → x.kind = 1
      → x.fault = false
      → (s.chip.hop.chans.any (fun e => decide (e.1 ≠ ↑ch ∧ e.2.st ≠ .off ∧ e.2.queue = (bitsOf (s.chip.cfgAt Obj.hopperChanQueue ch) 0 20))) = false)
      → ∃ t : Chip, Effect (.start src ch) s (t.answerWrite src (0x7840 + ↑ch) 5 (bytesLE 1 1) 0)
        ∧ ((t.hchan ch).st = .idle ∧ (t.hchan ch).queue = (bitsOf (s.chip.cfgAt Obj.hopperChanQueue ch) 0 20))
        ∧ (¬ ((s.chip.hchan ch).kept = true ∧ (s.chip.hchan ch).queue = (bitsOf (s.chip.cfgAt Obj.hopperChanQueue ch) 0 20)) → (t.hchan ch).done = x.cons ∧ (t.hchan ch).issue = x.cons ∧ (t.hchan ch).element = 0)
        ∧ ((s.chip.hchan ch).kept = true ∧ (s.chip.hchan ch).queue = (bitsOf (s.chip.cfgAt Obj.hopperChanQueue ch) 0 20) → (t.hchan ch).done = (s.chip.hchan ch).done ∧ (t.hchan ch).issue = (s.chip.hchan ch).issue ∧ (t.hchan ch).element = (s.chip.hchan ch).element)
        ∧ (∀ j : Nat, j ≠ ch → t.hchan j = s.chip.hchan j)
        ∧ Frame [.hop] t s.chip)
  ∧ (∀ (s : State) (src : Src) (ch : Fin 64) (x : QState),
      Accepts s.chip src (0x7840 + ↑ch) 5 1
      → (s.chip.hchan ch).st ≠ .off
      → s.chip.queue (bitsOf (s.chip.cfgAt Obj.hopperChanQueue ch) 0 20) = some x
      → Effect (.start src ch) s (s.chip.answerWrite src (0x7840 + ↑ch) 5 (bytesLE 1 1) Abort.channelState))
  ∧ (∀ (s : State) (src : Src) (ch : Fin 64) (x : QState),
      Accepts s.chip src (0x7840 + ↑ch) 5 1
      → (s.chip.hchan ch).st = .off
      → bitOf (s.chip.cfgAt Obj.hopperChanQueue ch) 31 = true
      → s.chip.queue (bitsOf (s.chip.cfgAt Obj.hopperChanQueue ch) 0 20) = some x
      → x.kind = 1
      → x.fault = false
      → (s.chip.hop.chans.any (fun e => decide (e.1 ≠ ↑ch ∧ e.2.st ≠ .off ∧ e.2.queue = (bitsOf (s.chip.cfgAt Obj.hopperChanQueue ch) 0 20))) = true)
      → Effect (.start src ch) s (s.chip.answerWrite src (0x7840 + ↑ch) 5 (bytesLE 1 1) Abort.resourceOwned))
  ∧ (∀ (s : State) (src : Src) (ch : Fin 64),
      Accepts s.chip src (0x7840 + ↑ch) 5 1
      → ((s.chip.hchan ch).st = .idle ∨ (s.chip.hchan ch).st = .run ∨ (s.chip.hchan ch).st = .stalled)
      → (s.chip.hchan ch).bursts = []
      → ∃ t : Chip, Effect (.stop src ch) s (t.answerWrite src (0x7840 + ↑ch) 5 (bytesLE 1 2) 0)
        ∧ t.hchan ch = { s.chip.hchan ch with st := .off, stopping := false, kept := true, descs := [] }
        ∧ (∀ j : Nat, j ≠ ch → t.hchan j = s.chip.hchan j)
        ∧ Frame [.hop] t s.chip)
  ∧ (∀ (s : State) (src : Src) (ch : Fin 64),
      Accepts s.chip src (0x7840 + ↑ch) 5 1
      → ((s.chip.hchan ch).st = .idle ∨ (s.chip.hchan ch).st = .run ∨ (s.chip.hchan ch).st = .stalled)
      → (s.chip.hchan ch).bursts ≠ []
      → ∃ t : Chip, Effect (.stop src ch) s (t.answerWrite src (0x7840 + ↑ch) 5 (bytesLE 1 2) 0)
        ∧ t.hchan ch = { s.chip.hchan ch with stopping := true }
        ∧ (∀ j : Nat, j ≠ ch → t.hchan j = s.chip.hchan j)
        ∧ Frame [.hop] t s.chip)
  ∧ (∀ (s : State) (ch : Fin 64),
      (s.chip.hchan ch).stopping = true
      → (s.chip.hchan ch).bursts = []
      → ∃ t : Chip, Effect (.channelStopped ch) s t ∧ t.hchan ch = { s.chip.hchan ch with st := .off, stopping := false, kept := true, descs := [] }
        ∧ (∀ j : Nat, j ≠ ch → t.hchan j = s.chip.hchan j) ∧ Frame [.hop] t s.chip)
  ∧ (∀ (s : State) (src : Src) (ch : Fin 64),
      Accepts s.chip src (0x7840 + ↑ch) 5 1
      → (s.chip.hchan ch).stopped = true
      → ∃ t : Chip, Effect (.resume src ch) s (t.answerWrite src (0x7840 + ↑ch) 5 (bytesLE 1 3) 0)
        ∧ ((t.hchan ch).st = .idle ∧ (t.hchan ch).reason = 0 ∧ (t.hchan ch).stopAddr = 0)
        ∧ ((t.hchan ch).issue = (s.chip.hchan ch).issue ∧ (t.hchan ch).element = (s.chip.hchan ch).element ∧ (t.hchan ch).done = (s.chip.hchan ch).done)
        ∧ (∀ r ∈ (t.hchan ch).descs, r.index = (s.chip.hchan ch).issue → r.refetch = true)
        ∧ (∀ j : Nat, j ≠ ch → t.hchan j = s.chip.hchan j)
        ∧ Frame [.hop] t s.chip)
  ∧ (∀ (s : State) (src : Src) (ch : Fin 64),
      Accepts s.chip src (0x7840 + ↑ch) 5 1
      → (s.chip.hchan ch).stopped = true
      → ∃ t : Chip, Effect (.skip src ch) s (t.answerWrite src (0x7840 + ↑ch) 5 (bytesLE 1 4) 0)
        ∧ ((t.hchan ch).st = .idle ∧ (t.hchan ch).reason = 0 ∧ (t.hchan ch).stopAddr = 0)
        ∧ ((t.hchan ch).issue = ((s.chip.hchan ch).issue + 1) % 2 ^ 64 ∧ (t.hchan ch).element = 0 ∧ (t.hchan ch).done = (s.chip.hchan ch).done)
        ∧ (∃ r ∈ (t.hchan ch).descs, r.index = (s.chip.hchan ch).issue ∧ r.abandoned = true ∧ r.issued = true)
        ∧ (∀ j : Nat, j ≠ ch → t.hchan j = s.chip.hchan j)
        ∧ Frame [.hop] t s.chip)
  ∧ (∀ (s : State) (src : Src) (ch : Fin 64),
      Accepts s.chip src (0x7840 + ↑ch) 5 1
      → ((s.chip.hchan ch).st = .off ∨ (s.chip.hchan ch).stopped = true)
      → ∃ t : Chip, Effect (.clear src ch) s (t.answerWrite src (0x7840 + ↑ch) 5 (bytesLE 1 5) 0)
        ∧ ((t.hchan ch).st = .off ∧ (t.hchan ch).reason = 0 ∧ (t.hchan ch).stopAddr = 0 ∧ (t.hchan ch).kept = false ∧ (t.hchan ch).descs = [] ∧ (t.hchan ch).element = 0)
        ∧ (t.hchan ch).done = (t.hchan ch).issue
        ∧ (∀ q, s.chip.queue (s.chip.hchan ch).queue = some q → (t.hchan ch).done = q.cons)
        ∧ (∀ j : Nat, j ≠ ch → t.hchan j = s.chip.hchan j)
        ∧ Frame [.hop] t s.chip)
  ∧ (∀ (s : State) (ch : Fin 64) (obs : Obs) (q : QState),
      s.chip.descQueue ch = some q
      → q.cached = true
      → q.fault = false
      → s.chip.workMode = true
      → ((s.chip.hchan ch).st = .idle ∨ (s.chip.hchan ch).st = .run)
      → (s.chip.hchan ch).stopping = false
      → (s.chip.hchan ch).descs.any (fun r => decide (r.index = (s.chip.hchan ch).issue)) = false
      → 0 < diff64 q.prod (s.chip.hchan ch).issue
      → (s.chip.hchan ch).fetchReady = true
      → s.chip.caskServes ch = true
      → (s.chip.hchan ch).bursts.any (fun b => b.fetch) = false
      → ∃ (b : Burst) (c : Chip), Effect (.descriptorFetch ch obs) s ((lineAddrs b.srcAddr b.bytes).foldl (fun (c : Chip) (a : Nat) => c.request ⟨0x20 + ↑ch, b.bind, .read, a, 0, 0, false, true, 0, .hopper ch b.id⟩ obs) c)
        ∧ b.srcAddr = q.base + 128 * ((s.chip.hchan ch).issue % q.capacity) ∧ b.bytes = 128 ∧ b.fetch = true ∧ b.index = (s.chip.hchan ch).issue ∧ b.id = s.chip.hop.nextBurst
        ∧ b.bind = s.chip.chanBind ch
        ∧ c.hchan ch = { s.chip.hchan ch with bursts := (s.chip.hchan ch).bursts ++ [b], st := .run }
        ∧ (∀ j : Nat, j ≠ ch → c.hchan j = s.chip.hchan j) ∧ Frame [.hop] c s.chip)
  ∧ (∀ (s : State) (ch : Fin 64) (n : Nat) (obs : Obs) (r : DescRun),
      (s.chip.hchan ch).current = some r
      → s.chip.chosen ch = true
      → s.chip.burstOk r.d (s.chip.hchan ch).element n = true
      → r.d.src.kind = 0
      → r.d.dst.kind = 0
      → (List.range n).all (fun i => (s.chip.elemStop r.d (s.chip.hchan ch).element ((s.chip.hchan ch).element + i)).isNone) = true
      → (r.d.src.n = 0 ∨ (s.chip.hchan ch).element + n < r.d.src.n)
      → obs.damage = .none
      → ∃ (b : Burst) (c : Chip), Effect (.burstIssue ch n obs) s ((lineAddrs b.srcAddr b.bytes).foldl (fun (c : Chip) (a : Nat) => c.request ⟨0x20 + ↑ch, b.bind, .read, a, 0, 0, false, true, 0, .hopper ch b.id⟩ obs) c)
        ∧ b.index = r.index ∧ b.first = (s.chip.hchan ch).element ∧ b.count = n ∧ b.bytes = n * r.d.esize ∧ b.bind = s.chip.chanBind ch ∧ b.link = none
        ∧ b.srcAddr = r.d.src.addr r.d.esize (s.chip.hchan ch).element ∧ b.dstAddr = r.d.dst.addr r.d.esize (s.chip.hchan ch).element
        ∧ b.foldOp = (if r.d.op = 2 then r.d.foldOp else 0)
        ∧ c.hchan ch = { s.chip.hchan ch with bursts := (s.chip.hchan ch).bursts ++ [b], element := (s.chip.hchan ch).element + n, st := .run }
        ∧ (∀ j : Nat, j ≠ ch → c.hchan j = s.chip.hchan j) ∧ Frame [.hop] c s.chip)
  ∧ (∀ (s : State) (ch : Fin 64) (b : Nat) (x : Burst),
      (s.chip.hchan ch).bursts.find? (fun y => decide (y.id = b)) = some x
      → x.wrote = true
      → x.left = 0
      → x.failed = 0
      → x.fetch = false
      → ∃ t : Chip, Effect (.burstDurable ch b) s t ∧ t.hchan ch = { s.chip.hchan ch with bursts := modFirst (fun y => decide (y.id = b)) (fun y => { y with durable := true }) (s.chip.hchan ch).bursts }
        ∧ (t.hchan ch).bursts.find? (fun y => decide (y.id = b)) = some { x with durable := true }
        ∧ (∀ j : Nat, j ≠ ch → t.hchan j = s.chip.hchan j) ∧ Frame [.hop] t s.chip)

/-- The power entry controller seats, checks, ramps, enhances and samples, and follows its feeds and pins.
Behind it stand choices of the model: log entries 98, 99. -/
def Obligations.PowerEntersInStepsAndWatchesItsFeeds : Prop :=
  (∀ (s : State),
      s.chip.power.lost = false
      → s.chip.power.st = .unseated
      → s.chip.feedOk = true
      → ∃ t : Chip, Effect (.seatPinEdge true true) s t ∧ t.power = { s.chip.power with seatA := true, seatB := true, seatRuns := true, away := false, retries := if s.chip.power.away then 0 else s.chip.power.retries, st := .seating }
        ∧ t.mode = { s.chip.mode with current := if s.chip.mode.current = .inserting ∧ PwrState.gate .seating = false then .unseated
             else if s.chip.mode.current = .unseated ∧ (.seating : PwrState) = .ramp then .inserting else s.chip.mode.current }
        ∧ Frame [.power, .mode] t s.chip)
  ∧ (∀ (s : State) (a b : Bool),
      s.chip.power.lost = false
      → s.chip.power.st = .seating
      → (a && b) = false
      → ∃ t : Chip, Effect (.seatPinEdge a b) s t ∧ t.power = { s.chip.power with seatA := a, seatB := b, seatRuns := false } ∧ Frame [.power] t s.chip)
  ∧ (∀ (s : State),
      s.chip.power.st = .seating
      → s.chip.power.seatRuns = true
      → s.chip.seated = true
      → s.chip.feedOk = true
      → ∃ t : Chip, Effect (.seatTimerExpiry) s t ∧ t.power = { s.chip.power with checksPassed := false, seatRuns := false, st := .precheck }
        ∧ t.mode = { s.chip.mode with current := if s.chip.mode.current = .inserting ∧ PwrState.gate .precheck = false then .unseated
             else if s.chip.mode.current = .unseated ∧ (.precheck : PwrState) = .ramp then .inserting else s.chip.mode.current }
        ∧ Frame [.power, .mode] t s.chip)
  ∧ (∀ (s : State) (rise current diode : Int),
      s.chip.power.st = .precheck
      → s.chip.power.checksPassed = false
      → (-2000 ≤ current ∧ current ≤ 2000)
      → (-40 ≤ diode ∧ diode ≤ 200)
      → rise < 500
      → s.chip.seated = true
      → s.chip.feedOk = true
      → s.chip.power.cooldown = false
      → ({ s.chip with power := { s.chip.power with current := current, diode := diode, diodeBad := false } } : Chip).coolEnough = true
      → ∃ t : Chip, Effect (.precheckEnd rise current diode) s t ∧ t.power = { s.chip.power with current := current, diode := diode, diodeBad := false, checksPassed := false, st := .ramp }
        ∧ t.mode = { s.chip.mode with current := if s.chip.mode.current = .inserting ∧ PwrState.gate .ramp = false then .unseated
             else if s.chip.mode.current = .unseated ∧ (.ramp : PwrState) = .ramp then .inserting else s.chip.mode.current }
        ∧ Frame [.power, .mode] t s.chip)
  ∧ (∀ (s : State) (rise current diode : Int),
      s.chip.power.st = .precheck
      → s.chip.power.checksPassed = false
      → (-2000 ≤ current ∧ current ≤ 2000)
      → (-40 ≤ diode ∧ diode ≤ 200)
      → rise < 500
      → s.chip.seated = true
      → s.chip.feedOk = true
      → (s.chip.power.cooldown = true ∨ ({ s.chip with power := { s.chip.power with current := current, diode := diode, diodeBad := false } } : Chip).coolEnough = false)
      → ∃ t : Chip, Effect (.precheckEnd rise current diode) s t ∧ t.power = { s.chip.power with current := current, diode := diode, diodeBad := false, checksPassed := true }
        ∧ Frame [.power] t s.chip)
  ∧ (∀ (s : State) (rise current diode : Int),
      s.chip.power.st = .precheck
      → s.chip.power.checksPassed = false
      → (-2000 ≤ current ∧ current ≤ 2000)
      → (-40 ≤ diode ∧ diode ≤ 200)
      → 500 ≤ rise
      → ∃ t : Chip, Effect (.precheckEnd rise current diode) s t ∧ t.power.st = .latched ∧ t.power.trip.cause = 7 ∧ t.power.trip.causes = 128
        ∧ t.power.pg = s.chip.power.pg ∧ t.power.tripCount = s.chip.power.tripCount ∧ t.power.retries = s.chip.power.retries
        ∧ t.sticky 182 = true ∧ Frame [.power, .mode, .fault, .heads, .field] t s.chip)
  ∧ (∀ (s : State) (rise current diode : Int),
      s.chip.power.st = .precheck
      → s.chip.power.checksPassed = false
      → (current < -2000 ∨ 2000 < current)
      → (-40 ≤ diode ∧ diode ≤ 200)
      → rise < 500
      → ∃ t : Chip, Effect (.precheckEnd rise current diode) s t ∧ t.power.st = .latched ∧ t.power.trip.cause = 8 ∧ t.power.trip.causes = 256
        ∧ t.power.pg = s.chip.power.pg ∧ t.power.tripCount = s.chip.power.tripCount ∧ t.power.retries = s.chip.power.retries
        ∧ t.sticky 183 = true ∧ Frame [.power, .mode, .fault, .heads, .field] t s.chip)
  ∧ (∀ (s : State),
      s.chip.power.lost = false
      → s.chip.coolEnough = true
      → s.chip.power.st = .precheck
      → s.chip.power.checksPassed = true
      → s.chip.seated = true
      → s.chip.feedOk = true
      → ∃ t : Chip, Effect (.cooldownMet) s t ∧ t.power = { s.chip.power with cooldown := false, checksPassed := false, st := .ramp }
        ∧ t.mode = { s.chip.mode with current := if s.chip.mode.current = .inserting ∧ PwrState.gate .ramp = false then .unseated
             else if s.chip.mode.current = .unseated ∧ (.ramp : PwrState) = .ramp then .inserting else s.chip.mode.current }
        ∧ Frame [.power, .mode] t s.chip)
  ∧ (∀ (s : State),
      s.chip.power.lost = false
      → s.chip.coolEnough = true
      → s.chip.power.st = .tripped
      → s.chip.power.noRetry = false
      → s.chip.seated = true
      → ∃ t : Chip, Effect (.cooldownMet) s t ∧ t.power = { s.chip.power with cooldown := false, checksPassed := false, st := .precheck }
        ∧ t.mode = { s.chip.mode with current := if s.chip.mode.current = .inserting ∧ PwrState.gate .precheck = false then .unseated
             else if s.chip.mode.current = .unseated ∧ (.precheck : PwrState) = .ramp then .inserting else s.chip.mode.current }
        ∧ Frame [.power, .mode] t s.chip)
  ∧ (∀ (s : State) (vout vbus : Nat),
      s.chip.power.st = .ramp
      → vbus ≤ vout + 300
      → ∃ t : Chip, Effect (.rampEnd vout vbus) s t ∧ t.power = { s.chip.power with vout := vout, vbus := vbus, st := .enhance }
        ∧ t.mode = { s.chip.mode with current := if s.chip.mode.current = .inserting ∧ PwrState.gate .enhance = false then .unseated
             else if s.chip.mode.current = .unseated ∧ (.enhance : PwrState) = .ramp then .inserting else s.chip.mode.current }
        ∧ Frame [.power, .mode] t s.chip)
  ∧ (∀ (s : State) (vgs : Nat),
      s.chip.power.st = .enhance
      → s.chip.sreg Obj.powerGateOnMv ≤ vgs
      → ∃ t : Chip, Effect (.enhanceDone vgs) s t ∧ t.power = { s.chip.power with vgsUs := 0, st := .on }
        ∧ t.mode = { s.chip.mode with current := if s.chip.mode.current = .inserting ∧ PwrState.gate .on = false then .unseated
             else if s.chip.mode.current = .unseated ∧ (.on : PwrState) = .ramp then .inserting else s.chip.mode.current }
        ∧ Frame [.power, .mode] t s.chip)
  ∧ (∀ (s : State) (x : CurSample),
      s.chip.power.st.gate = true
      → ∃ (t : Chip) (temp : Int), Effect (.currentSample x) s t ∧ t.power = { s.chip.power with
             current := x.current, vbus := x.vbus, vout := x.vout, diode := x.diode, fetTemp := temp
             tModel := s.chip.power.tModel + (max 0 (((x.vbus : Int) - x.vout) * x.current) * s.chip.sreg Obj.powerFetRthMcPerW - (s.chip.power.tModel - s.chip.sreg Obj.powerAmbientC * 1000000000)) * 1 / (s.chip.sreg Obj.powerFetTauMs * 1000)
             timers := s.chip.stepTimers x.current, vgsUs := if s.chip.sreg Obj.powerGateOnMv ≤ x.vgs then s.chip.power.vgsUs + 1 else 0
             recent := (x.current :: s.chip.power.recent).take 1000
             pg := s.chip.power.pg || decide (s.chip.power.st = .on ∧ 1000 ≤ (if s.chip.sreg Obj.powerGateOnMv ≤ x.vgs then s.chip.power.vgsUs + 1 else 0)
               ∧ s.chip.cfg Obj.powerPgVoutMv ≤ x.vout ∧ s.chip.stepTimers x.current = []) }
        ∧ Frame [.power] t s.chip)
  ∧ (∀ (s : State),
      s.chip.power.lost = false
      → s.chip.seated = false
      → (s.chip.power.st = .seating ∨ s.chip.power.st = .precheck ∨ s.chip.power.st = .ramp ∨ s.chip.power.st = .enhance ∨ s.chip.power.st = .tripped)
      → ∃ t : Chip, Effect .unseat s t
        ∧ t.power = { s.chip.power with away := true, seatRuns := false, checksPassed := false, noRetry := false, exhausted := false, vgsUs := 0, st := .unseated }
        ∧ t.mode = { s.chip.mode with current := if s.chip.mode.current = .inserting ∧ PwrState.gate .unseated = false then .unseated
             else if s.chip.mode.current = .unseated ∧ (.unseated : PwrState) = .ramp then .inserting else s.chip.mode.current }
        ∧ Frame [.power, .mode] t s.chip)
  ∧ (∀ (s : State),
      s.chip.power.lost = false
      → s.chip.seated = false
      → s.chip.power.st = .on
      → ∃ t : Chip, Effect .unseat s t ∧ t.power = { s.chip.power with away := true }
        ∧ (s.chip.mayDrain = true → ∃ r, t.mode = { s.chip.mode with previous := s.chip.mode.current, current := .drain, drainState := 1, drainStopped := r })
        ∧ (s.chip.mayDrain = false → t.mode = s.chip.mode ∧ t.sticky 185 = true)
        ∧ Frame [.power, .lauter, .mode, .win, .hop, .links, .husk, .cnt, .dram, .kiln, .fault, .heads, .field] t s.chip)
  ∧ (∀ (s : State),
      s.chip.power.st = .on
      → ∃ t : Chip, Effect .gateLowInOn s t ∧ t.power = s.chip.power ∧ t.sticky 181 = true ∧ Frame [.fault, .heads, .field] t s.chip)
  ∧ (∀ (s : State) (secs : Nat),
      s.chip.power.pg = true
      → s.chip.sreg Obj.powerRetryClearS ≤ secs
      → ∃ t : Chip, Effect (.retryClear secs) s t ∧ t.power = { s.chip.power with retries := 0 } ∧ Frame [.power] t s.chip)
  ∧ (∀ (s : State) (f : Fin 2) (mv : Nat),
      s.chip.power.lost = false
      → s.chip.feedInRange mv = false
      → s.chip.feedValidBit f = true
      → bitOf s.chip.power.status (1 - f) = true
      → ∃ t : Chip, Effect (.feedInvalid f mv) s t ∧ bitOf t.power.status f = false ∧ bitOf t.power.status (4 + f) = false
        ∧ bitOf t.power.status (2 + f) = decide (s.chip.sreg Obj.powerFeedOvMv < mv) ∧ bitOf t.power.status (1 - f) = true ∧ t.power.st = s.chip.power.st ∧ t.power.pg = s.chip.power.pg
        ∧ t.sticky (176 + f) = true ∧ (s.chip.sreg Obj.powerFeedOvMv < mv → bitOf s.chip.power.status (2 + f) = false → t.sticky 178 = true) ∧ Frame [.power, .fault, .heads, .field] t s.chip)
  ∧ (∀ (s : State) (f : Fin 2) (mv : Nat),
      s.chip.power.lost = false
      → s.chip.feedInRange mv = true
      → s.chip.power.st = .on
      → s.chip.power.away = false
      → ∃ t : Chip, Effect (.feedValid f mv) s t ∧ bitOf t.power.status f = true ∧ bitOf t.power.status (2 + f) = false
        ∧ bitOf t.power.status (4 + f) = (bitOf s.chip.power.status (4 + f) || decide (s.chip.power.vbus + 50 ≤ mv)) ∧ t.power.st = .on ∧ t.power.pg = s.chip.power.pg
        ∧ (if f = 0 then t.power.feedA else t.power.feedB) = mv ∧ Frame [.power] t s.chip)
  ∧ (∀ (s : State) (f : Fin 2) (feed vbus : Nat),
      s.chip.power.lost = false
      → feed + 10 ≤ vbus
      → ∃ t : Chip, Effect (.oringReverse f feed vbus) s t ∧ t.power.status = setBit s.chip.power.status (4 + f) false ∧ t.power.vbus = vbus ∧ t.power.st = s.chip.power.st ∧ t.power.pg = s.chip.power.pg
        ∧ (if f = 0 then t.power.feedA else t.power.feedB) = feed ∧ Frame [.power] t s.chip)
  ∧ (∀ (s : State) (x : PwrSample),
      s.chip.power.lost = false
      → s.chip.power.st = .unseated
      → s.chip.power.away = false
      → s.chip.feedInRange x.feedA = true
      → s.chip.feedInRange x.feedB = true
      → s.chip.sreg Obj.powerFetTempSource = 0
      → (-2000 ≤ x.current ∧ x.current ≤ 2000)
      → x.seatA = true
      → x.seatB = true
      → ∃ t : Chip, Effect (.sentryWake x) s t ∧ t.power.st = .seating ∧ t.power.seatA = true ∧ t.power.seatB = true ∧ t.power.seatRuns = true ∧ t.power.feedA = x.feedA ∧ t.power.feedB = x.feedB ∧ t.power.status % 4 = 3
        ∧ t.power.current = x.current ∧ Frame [.power, .mode] t s.chip)

/-- The pass FET trips on the curve, at once, on heat, ramp time, brownout and damage, and retries or latches.
Behind it stand choices of the model: log entries 99, 100, 185. -/
def Obligations.PassFetTripsAreRecordedAndRetriedOrLatched : Prop :=
  (∀ (s : State) (vout : Nat),
      s.chip.power.st = .ramp
      → ∃ t : Chip, Effect (.rampTimeout vout) s t ∧ Trips t ({ s.chip with power := { s.chip.power with vout := vout } } : Chip) 4)
  ∧ (∀ (s : State),
      s.chip.power.st = .enhance
      → ∃ t : Chip, Effect (.enhanceTimeout) s t ∧ Trips t s.chip 6)
  ∧ (∀ (s : State) (k : Fin 8),
      s.chip.power.st.gate = true
      → (curvePoint (s.chip.sreg Obj.powerCurve) k).1 ≠ 0
      → (curvePoint (s.chip.sreg Obj.powerCurve) k).2 ≤ Tab.get 0 s.chip.power.timers k
      → ∃ t : Chip, Effect (.curveTrip k) s t ∧ Trips t s.chip 1)
  ∧ (∀ (s : State) (current : Int),
      s.chip.power.st.gate = true
      → (s.chip.sreg Obj.powerInstantMa : Int) ≤ current
      → ∃ t : Chip, Effect (.instantTrip current) s t ∧ Trips t ({ s.chip with power := { s.chip.power with current := current, recent := (current :: s.chip.power.recent).take 1000 } } : Chip) 2)
  ∧ (∀ (s : State),
      s.chip.power.st.gate = true
      → s.chip.overTemp = true
      → ∃ t : Chip, Effect (.overTempTrip) s t ∧ Trips t s.chip 3)
  ∧ (∀ (s : State) (vout : Nat),
      s.chip.power.st = .on
      → vout < s.chip.sreg Obj.powerBrownoutMv
      → ∃ t : Chip, Effect (.brownout vout) s t ∧ Trips t ({ s.chip with power := { s.chip.power with vout := vout } } : Chip) 5)

/-- Mode commands configure, train, drain, resume, update and leave update, and training ends in SERVICE or DIAGNOSIS.
Behind it stand choices of the model: log entries 85, 86, 87, 89. -/
def Obligations.ModesChangeByCommandAndTraining : Prop :=
  (∀ (s : State) (src : Src),
      Accepts s.chip src (0x2800) 2 1
      → s.chip.mode.current = .unaddressed
      → s.chip.cfg Obj.modeAutoTrain ≠ 1
      → ∃ t : Chip, Effect (.configure src) s (t.answerWrite src (0x2800) 2 (bytesLE 1 7) 0)
        ∧ t.mode = { s.chip.mode with current := .configuring }
        ∧ Frame [.mode] t s.chip)
  ∧ (∀ (s : State) (src : Src),
      Accepts s.chip src (0x2800) 2 1
      → s.chip.mode.current = .unaddressed
      → s.chip.cfg Obj.modeAutoTrain = 1
      → (∀ h : Nat, h < 4 → bitOf (s.chip.cfg Obj.portsBifurcationA % 2 + s.chip.cfg Obj.portsBifurcationB % 2 * 2) (h / 2) = bitOf s.chip.bifur (h / 2) ∨ (s.chip.head h).state ≠ .active)
      → ∃ t : Chip, Effect (.configure src) s (t.answerWrite src (0x2800) 2 (bytesLE 1 7) 0)
        ∧ t.mode = { s.chip.mode with current := .training }
        ∧ Frame [.mode, .bifur, .heads, .links] t s.chip)
  ∧ (∀ (s : State) (src : Src),
      Accepts s.chip src (0x2800) 2 1
      → s.chip.mode.current = .configuring
      → (∀ h : Nat, h < 4 → bitOf (s.chip.cfg Obj.portsBifurcationA % 2 + s.chip.cfg Obj.portsBifurcationB % 2 * 2) (h / 2) = bitOf s.chip.bifur (h / 2) ∨ (s.chip.head h).state ≠ .active)
      → ∃ t : Chip, Effect (.train src) s (t.answerWrite src (0x2800) 2 (bytesLE 1 1) 0)
        ∧ t.mode = { s.chip.mode with current := .training }
        ∧ t.bifur = s.chip.cfg Obj.portsBifurcationA % 2 + s.chip.cfg Obj.portsBifurcationB % 2 * 2
        ∧ (∀ h : Nat, h < 4 → bitOf t.bifur (h / 2) = bitOf s.chip.bifur (h / 2) → t.head h = s.chip.head h)
        ∧ (∀ l : Nat, l < 8 → t.link l = if s.chip.cfgAt Obj.linkEnable l = 1 ∧ s.chip.domain (linkDomain l) = .on ∧ (s.chip.link l).st ≠ .training then
             { s.chip.link l with st := .training, step := .detect, tries := 0, lanes := 0, initGot := 0, width := 0, speed := 0, vcs := 0, sent := (s.chip.link l).sent ++ [.ts 0x2D 0] } else s.chip.link l)
        ∧ Frame [.mode, .bifur, .heads, .links] t s.chip)
  ∧ (∀ (s : State) (src : Src),
      Accepts s.chip src (0x2800) 2 1
      → s.chip.mode.current ≠ .configuring
      → Effect (.train src) s (s.chip.answerWrite src (0x2800) 2 (bytesLE 1 1) Abort.wrongMode))
  ∧ (∀ (s : State) (ddr : List DdrFound) (nvm : List NvmFound),
      s.chip.mode.current = .training
      → s.chip.links.all (fun e => decide (e.2.st ≠ .training)) = true
      → ∃ t : Chip, Effect (.trainingEnd ddr nvm) s t ∧ t.mode = { s.chip.mode with current := if t.frozenMask ≠ 0 then .diagnosis else .service }
        ∧ (∀ n : Nat, n < 8 → (s.chip.domain (chanDomain n) ≠ .on → (t.ddr n).train = 0)
          ∧ (s.chip.domain (chanDomain n) = .on → ∀ f, ddr.find? (fun f => decide (f.ch.val = n)) = some f → (t.ddr n).dimms = f.dimms ∧ (t.ddr n).train = (if f.dimms = 0 then 3
              else if f.allowed && (decide (s.chip.fsp0Mts n f.dimms = 0) || f.fsp0) && (decide (s.chip.cfgAt Obj.ddrChanFsp1Mts n = 0) || f.fsp1) then 1 else 2))
          ∧ (s.chip.domain (chanDomain n) = .on → ddr.find? (fun f => decide (f.ch.val = n)) = none → (t.ddr n).train = 3))
        ∧ Frame [.integ, .dram, .kiln, .lauter, .sb, .fault, .heads, .field, .free, .mode] t s.chip)
  ∧ (∀ (s : State) (ddr : List DdrFound) (nvm : List NvmFound),
      s.chip.mode.current = .training
      → ∃ t : Chip, Effect (.trainLimitExpiry ddr nvm) s t ∧ t.mode = { s.chip.mode with current := if t.frozenMask ≠ 0 then .diagnosis else .service }
        ∧ (∀ n : Nat, n < 8 → (s.chip.domain (chanDomain n) ≠ .on → (t.ddr n).train = 0)
          ∧ (s.chip.domain (chanDomain n) = .on → ∀ f, ddr.find? (fun f => decide (f.ch.val = n)) = some f → (t.ddr n).dimms = f.dimms ∧ (t.ddr n).train = (if f.dimms = 0 then 3
              else if f.allowed && (decide (s.chip.fsp0Mts n f.dimms = 0) || f.fsp0) && (decide (s.chip.cfgAt Obj.ddrChanFsp1Mts n = 0) || f.fsp1) then 1 else 2))
          ∧ (s.chip.domain (chanDomain n) = .on → ddr.find? (fun f => decide (f.ch.val = n)) = none → (t.ddr n).train = 2))
        ∧ (∀ l : Nat, l < 8 → (s.chip.link l).st = .training → (s.chip.link l).want = none → (t.link l).want = some 2)
        ∧ Frame [.links, .integ, .dram, .kiln, .lauter, .sb, .fault, .heads, .field, .free, .mode] t s.chip)
  ∧ (∀ (s : State) (src : Src),
      Accepts s.chip src (0x2800) 2 1
      → s.chip.mayDrain = true
      → ∃ t : Chip, Effect (.drain src) s (t.answerWrite src (0x2800) 2 (bytesLE 1 2) 0)
        ∧ (∃ r, t.mode = { s.chip.mode with previous := s.chip.mode.current, current := .drain, drainState := 1, drainStopped := r })
        ∧ (s.chip.mode.current = .service ∨ s.chip.mode.current = .diagnosis → t.win.pending = [])
        ∧ (∀ e ∈ t.lauter.slots, e.2.paused = true)
        ∧ Frame [.lauter, .mode, .win, .hop, .links, .husk, .cnt, .dram, .kiln, .fault, .heads, .field] t s.chip)
  ∧ (∀ (s : State) (src : Src),
      Accepts s.chip src (0x2800) 2 1
      → s.chip.mayDrain = false
      → Effect (.drain src) s (s.chip.answerWrite src (0x2800) 2 (bytesLE 1 2) Abort.wrongMode))
  ∧ (∀ (s : State),
      s.chip.mode.current = .drain
      → s.chip.mode.drainState = 1
      → s.chip.quiet = true
      → ∃ t : Chip, Effect .drainStepComplete s t ∧ t.mode = { s.chip.mode with drainState := 2 } ∧ Frame [.mode] t s.chip)
  ∧ (∀ (s : State),
      s.chip.mode.current = .drain
      → s.chip.mode.drainState = 2
      → s.chip.reserveClean = true
      → s.chip.kiln.progs = []
      → s.chip.nvmOnline ≠ 0
      → ∃ t : Chip, Effect .drainStepComplete s t ∧ t.mode = { s.chip.mode with drainState := if s.chip.cfg Obj.modeDrainAbsorb = 1 then 3 else 4 }
        ∧ t.lauter.journal = [] ∧ t.lauter.backlog = []
        ∧ t.lauter.zones = (s.chip.zoneWrite { s.chip.newestZone with ring := s.chip.newestZone.ring ++ s.chip.lauter.journal ++ s.chip.lauter.backlog }).lauter.zones
        ∧ (∀ n ∈ s.chip.zoneOnline, ∃ f : Root → Root, (t.nvm n).roots = (s.chip.nvm n).roots.map (fun r => r.rewrite f) ∧ ∀ r, (f r).clean = true ∧ (f r).zone = true)
        ∧ Frame [.mode, .lauter, .kiln] t s.chip)
  ∧ (∀ (s : State),
      s.chip.mode.current = .drain
      → s.chip.mode.drainState = 3
      → s.chip.kiln.absorbed = []
      → s.chip.kiln.progs = []
      → ∃ t : Chip, Effect .drainStepComplete s t ∧ t.mode = { s.chip.mode with drainState := 4 } ∧ t.lauter.journal = [] ∧ Frame [.mode, .lauter, .kiln] t s.chip)
  ∧ (∀ (s : State) (src : Src),
      Accepts s.chip src (0x2800) 2 1
      → s.chip.mode.current = .drain
      → s.chip.seated = true
      → s.chip.fault.safeHeld = false
      → (s.chip.mode.previous = .service ∨ s.chip.mode.previous = .diagnosis)
      → ∃ t : Chip, Effect (.resumeMode src) s (t.answerWrite src (0x2800) 2 (bytesLE 1 3) 0)
        ∧ t.mode = { s.chip.mode with current := if s.chip.frozenMask ≠ 0 then .diagnosis else .service, drainState := 0, drainStopped := [] }
        ∧ Frame [.mode, .fault, .hop, .lauter] t s.chip)
  ∧ (∀ (s : State) (src : Src),
      Accepts s.chip src (0x2800) 2 1
      → s.chip.mode.current = .drain
      → s.chip.seated = true
      → s.chip.fault.safeHeld = true
      → ∃ t : Chip, Effect (.resumeMode src) s (t.answerWrite src (0x2800) 2 (bytesLE 1 3) 0)
        ∧ t.mode = { s.chip.mode with current := .safe, drainState := 0, drainStopped := [] }
        ∧ t.fault = { s.chip.fault with safeHeld := false }
        ∧ Frame [.mode, .fault] t s.chip)
  ∧ (∀ (s : State) (src : Src),
      Accepts s.chip src (0x2800) 2 1
      → (s.chip.mode.current ≠ .drain ∨ s.chip.seated = false)
      → Effect (.resumeMode src) s (s.chip.answerWrite src (0x2800) 2 (bytesLE 1 3) Abort.wrongMode))
  ∧ (∀ (s : State) (src : Src),
      Accepts s.chip src (0x2800) 2 1
      → (s.chip.mode.current = .configuring ∨ s.chip.mode.current = .service ∨ s.chip.mode.current = .diagnosis ∨ s.chip.mode.current = .safe)
      → ∃ t : Chip, Effect (.update src) s (t.answerWrite src (0x2800) 2 (bytesLE 1 4) 0)
        ∧ t.mode = { s.chip.mode with previous := s.chip.mode.current, updateFrom := s.chip.mode.current, current := .update, bootUpdate := false }
        ∧ (s.chip.mode.current = .service ∨ s.chip.mode.current = .diagnosis → t.win.pending = [])
        ∧ Frame [.lauter, .mode, .win, .hop, .links, .husk, .cnt, .dram, .kiln, .fault, .heads, .field] t s.chip)
  ∧ (∀ (s : State) (src : Src),
      Accepts s.chip src (0x2800) 2 1
      → s.chip.mode.current = .update
      → s.chip.mode.bootUpdate = false
      → (s.chip.mode.updateFrom = .service ∨ s.chip.mode.updateFrom = .diagnosis ∨ s.chip.mode.updateFrom = .safe)
      → ∃ t : Chip, Effect (.exitUpdate src) s (t.answerWrite src (0x2800) 2 (bytesLE 1 5) 0)
        ∧ t.mode = { s.chip.mode with current := if s.chip.mode.updateFrom = .safe then .safe else if s.chip.frozenMask ≠ 0 then .diagnosis else .service }
        ∧ Frame [.lauter, .mode, .sb, .fault, .heads, .field] t s.chip)
  ∧ (∀ (s : State) (src : Src),
      Accepts s.chip src (0x2800) 2 1
      → (s.chip.mode.current ≠ .update ∨ s.chip.mode.bootUpdate = true)
      → Effect (.exitUpdate src) s (s.chip.answerWrite src (0x2800) 2 (bytesLE 1 5) Abort.wrongMode))

/-- Domain commands begin or plan a change, are refused where the domain must stay ON, and a change ends in the state asked for.
Behind it stand choices of the model: log entries 90, 91, 92, 122. -/
def Obligations.DomainsChangeByCommand : Prop :=
  (∀ (s : State) (src : Src) (n : Fin 31),
      Accepts s.chip src (0x2810 + ↑n) 2 1
      → s.chip.noDomain n = false
      → (s.chip.mode.current = .configuring ∨ s.chip.mode.current = .training)
      → s.chip.domainBusy n = false
      → s.chip.domain n ≠ .off
      → 2 < n.val
      → (s.chip.domain n = .on ∨ s.chip.domain n = .onHeld → s.chip.leaveOn n = 0)
      → ∃ t : Chip, Effect (.domainOff src n) s (t.answerWrite src (0x2810 + ↑n) 2 (bytesLE 1 0) 0)
        ∧ t.domain n = .changing
        ∧ (∀ k : Nat, k ≠ n → t.domain k = s.chip.domain k)
        ∧ t.mode.current = s.chip.mode.current
        ∧ Tab.find t.mode.target n = some 0
        ∧ (s.chip.domain n = .on → 29 ≤ n.val → ∀ ln ∈ s.chip.linesIn (domainWays n), s.chip.cachedDirty (64 * ln) = false → Tab.find t.cache.lines ln = none)
        ∧ (s.chip.domain n = .on → 5 ≤ n.val → n.val ≤ 8 → ∀ l : Nat, l = 2 * (n.val - 5) ∨ l = 2 * (n.val - 5) + 1 → (s.chip.link l).want = none → ((s.chip.link l).st = .training ∨ (s.chip.link l).st = .active ∨ (s.chip.link l).st = .changing) → (t.link l).want = some 9)
        ∧ (n.val < 29 → Frame [.mode, .links] t s.chip)
        ∧ Frame [.mode, .links, .cache, .lauter, .kiln, .dram, .mill, .husk, .poison, .integ, .fault, .heads, .field, .map] t s.chip)
  ∧ (∀ (s : State) (src : Src) (n : Fin 31),
      Accepts s.chip src (0x2810 + ↑n) 2 1
      → s.chip.noDomain n = false
      → (s.chip.mode.current = .configuring ∨ s.chip.mode.current = .training)
      → s.chip.domainBusy n = false
      → s.chip.domain n ≠ .retention
      → 2 < n.val
      → (s.chip.domain n = .on ∨ s.chip.domain n = .onHeld → s.chip.leaveOn n = 0)
      → ∃ t : Chip, Effect (.domainRetention src n) s (t.answerWrite src (0x2810 + ↑n) 2 (bytesLE 1 1) 0)
        ∧ t.domain n = .changing
        ∧ (∀ k : Nat, k ≠ n → t.domain k = s.chip.domain k)
        ∧ t.mode.current = s.chip.mode.current
        ∧ Tab.find t.mode.target n = some 1
        ∧ (s.chip.domain n = .on → 29 ≤ n.val → ∀ ln ∈ s.chip.linesIn (domainWays n), s.chip.cachedDirty (64 * ln) = false → Tab.find t.cache.lines ln = none)
        ∧ (s.chip.domain n = .on → 5 ≤ n.val → n.val ≤ 8 → ∀ l : Nat, l = 2 * (n.val - 5) ∨ l = 2 * (n.val - 5) + 1 → (s.chip.link l).want = none → ((s.chip.link l).st = .training ∨ (s.chip.link l).st = .active ∨ (s.chip.link l).st = .changing) → (t.link l).want = some 9)
        ∧ (n.val < 29 → Frame [.mode, .links] t s.chip)
        ∧ Frame [.mode, .links, .cache, .lauter, .kiln, .dram, .mill, .husk, .poison, .integ, .fault, .heads, .field, .map] t s.chip)
  ∧ (∀ (s : State) (src : Src) (n : Fin 31),
      Accepts s.chip src (0x2810 + ↑n) 2 1
      → s.chip.noDomain n = false
      → (s.chip.mode.current = .configuring ∨ s.chip.mode.current = .training)
      → s.chip.domainBusy n = false
      → (s.chip.domain n ≠ .on ∧ s.chip.domain n ≠ .onHeld)
      → 2 < n.val
      → ∃ t : Chip, Effect (.domainOn src n) s (t.answerWrite src (0x2810 + ↑n) 2 (bytesLE 1 2) 0)
        ∧ t.domain n = .changing
        ∧ (∀ k : Nat, k ≠ n → t.domain k = s.chip.domain k)
        ∧ t.mode.current = s.chip.mode.current
        ∧ Tab.find t.mode.target n = some (if s.chip.domain n = .retention then 2 else if s.chip.mode.build = 1 ∧ padDomain n = true then 3 else 4)
        ∧ Frame [.mode] t s.chip)
  ∧ (∀ (s : State) (src : Src) (n : Fin 31),
      Accepts s.chip src (0x2810 + ↑n) 2 1
      → s.chip.noDomain n = false
      → (s.chip.mode.current = .service ∨ s.chip.mode.current = .diagnosis)
      → s.chip.domainBusy n = false
      → s.chip.domain n ≠ .off
      → 2 < n.val
      → (s.chip.domain n = .on ∨ s.chip.domain n = .onHeld → s.chip.leaveOn n = 0)
      → ∃ t : Chip, Effect (.domainOff src n) s (t.answerWrite src (0x2810 + ↑n) 2 (bytesLE 1 0) 0)
        ∧ t.win = { s.chip.win with ops := s.chip.win.ops ++ [{ kind := .domain n 0, us := s.chip.domainUs n 0 }] }
        ∧ Frame [.win] t s.chip)
  ∧ (∀ (s : State) (src : Src) (n : Fin 31),
      Accepts s.chip src (0x2810 + ↑n) 2 1
      → s.chip.noDomain n = false
      → (s.chip.mode.current = .service ∨ s.chip.mode.current = .diagnosis)
      → s.chip.domainBusy n = false
      → s.chip.domain n ≠ .retention
      → 2 < n.val
      → (s.chip.domain n = .on ∨ s.chip.domain n = .onHeld → s.chip.leaveOn n = 0)
      → ∃ t : Chip, Effect (.domainRetention src n) s (t.answerWrite src (0x2810 + ↑n) 2 (bytesLE 1 1) 0)
        ∧ t.win = { s.chip.win with ops := s.chip.win.ops ++ [{ kind := .domain n 1, us := s.chip.domainUs n 1 }] }
        ∧ Frame [.win] t s.chip)
  ∧ (∀ (s : State) (src : Src) (n : Fin 31),
      Accepts s.chip src (0x2810 + ↑n) 2 1
      → s.chip.noDomain n = false
      → (s.chip.mode.current = .service ∨ s.chip.mode.current = .diagnosis)
      → s.chip.domainBusy n = false
      → (s.chip.domain n ≠ .on ∧ s.chip.domain n ≠ .onHeld)
      → 2 < n.val
      → ∃ t : Chip, Effect (.domainOn src n) s (t.answerWrite src (0x2810 + ↑n) 2 (bytesLE 1 2) 0)
        ∧ t.win = { s.chip.win with ops := s.chip.win.ops ++ [{ kind := .domain n 2, us := s.chip.domainUs n 2 }] }
        ∧ Frame [.win] t s.chip)
  ∧ (∀ (s : State) (src : Src) (n : Fin 31),
      Accepts s.chip src (0x2810 + ↑n) 2 1
      → s.chip.noDomain n = false
      → (s.chip.mode.current = .configuring ∨ s.chip.mode.current = .training ∨ s.chip.mode.current = .service ∨ s.chip.mode.current = .diagnosis)
      → s.chip.domainBusy n = false
      → s.chip.domain n ≠ .off
      → n.val ≤ 2
      → Effect (.domainOff src n) s (s.chip.answerWrite src (0x2810 + ↑n) 2 (bytesLE 1 0) Abort.wrongMode))
  ∧ (∀ (s : State) (src : Src) (n : Fin 31),
      Accepts s.chip src (0x2810 + ↑n) 2 1
      → s.chip.noDomain n = false
      → (¬ (s.chip.mode.current = .configuring ∨ s.chip.mode.current = .training ∨ s.chip.mode.current = .service ∨ s.chip.mode.current = .diagnosis))
      → Effect (.domainOff src n) s (s.chip.answerWrite src (0x2810 + ↑n) 2 (bytesLE 1 0) Abort.wrongMode))
  ∧ (∀ (s : State) (src : Src) (n : Fin 31),
      Accepts s.chip src (0x2810 + ↑n) 2 1
      → s.chip.noDomain n = false
      → (s.chip.mode.current = .configuring ∨ s.chip.mode.current = .training ∨ s.chip.mode.current = .service ∨ s.chip.mode.current = .diagnosis)
      → s.chip.domainBusy n = false
      → 2 < n.val
      → (s.chip.domain n = .on ∨ s.chip.domain n = .onHeld)
      → s.chip.leaveOn n ≠ 0
      → Effect (.domainOff src n) s (s.chip.answerWrite src (0x2810 + ↑n) 2 (bytesLE 1 0) (s.chip.leaveOn n)))
  ∧ (∀ (s : State) (src : Src) (n : Fin 31),
      Accepts s.chip src (0x2810 + ↑n) 2 1
      → s.chip.noDomain n = true
      → Effect (.domainOn src n) s (s.chip.answerWrite src (0x2810 + ↑n) 2 (bytesLE 1 2) Abort.outOfRange))
  ∧ (∀ (s : State) (src : Src) (n : Fin 31),
      Accepts s.chip src (0x2810 + ↑n) 2 1
      → s.chip.noDomain n = false
      → (s.chip.mode.current = .configuring ∨ s.chip.mode.current = .training ∨ s.chip.mode.current = .service ∨ s.chip.mode.current = .diagnosis)
      → s.chip.domainBusy n = true
      → Effect (.domainOn src n) s (s.chip.answerWrite src (0x2810 + ↑n) 2 (bytesLE 1 2) Abort.resourceOwned))
  ∧ (∀ (s : State) (src : Src) (n : Fin 31),
      Accepts s.chip src (0x2810 + ↑n) 2 1
      → s.chip.noDomain n = false
      → (s.chip.mode.current = .configuring ∨ s.chip.mode.current = .training ∨ s.chip.mode.current = .service ∨ s.chip.mode.current = .diagnosis)
      → s.chip.domainBusy n = false
      → (s.chip.domain n = .on ∨ s.chip.domain n = .onHeld)
      → ∃ t : Chip, Effect (.domainOn src n) s (t.answerWrite src (0x2810 + ↑n) 2 (bytesLE 1 2) 0)
        ∧ t = s.chip)
  ∧ (∀ (s : State) (n : Fin 31) (ddr : List DdrFound) (nvm : List NvmFound),
      s.chip.domain n = .changing
      → Tab.get 0 s.chip.mode.target n = 0
      → (29 ≤ n.val → s.chip.waysEmpty (domainWays n) = true)
      → ∃ t : Chip, Effect (.domainChangeEnd n ddr nvm) s t
        ∧ t.domain n = .off
        ∧ (∀ k : Nat, k ≠ n → t.domain k = s.chip.domain k)
        ∧ (9 ≤ n.val → n.val ≤ 16 → (t.ddr (n.val - 9)).train = 0)
        ∧ (n.val = 27 → t.husk.linkSlots = [] ∧ ∀ e ∈ t.casks, e.2.keyState ≠ .loaded)
        ∧ Frame [.mode, .win, .cache, .links, .heads, .dram, .lauter, .kiln, .husk, .casks, .sb, .fault, .field, .free] t s.chip)
  ∧ (∀ (s : State) (n : Fin 31) (ddr : List DdrFound) (nvm : List NvmFound),
      s.chip.domain n = .changing
      → Tab.get 0 s.chip.mode.target n = 1
      → (29 ≤ n.val → s.chip.waysEmpty (domainWays n) = true)
      → ∃ t : Chip, Effect (.domainChangeEnd n ddr nvm) s t
        ∧ t.domain n = .retention
        ∧ (∀ k : Nat, k ≠ n → t.domain k = s.chip.domain k)
        ∧ t.mode.padsHeld = s.chip.mode.padsHeld
        ∧ (n.val < 29 → t.cache = s.chip.cache)
        ∧ Frame [.mode, .win, .cache] t s.chip)
  ∧ (∀ (s : State) (n : Fin 31) (ddr : List DdrFound) (nvm : List NvmFound),
      s.chip.domain n = .changing
      → Tab.get 0 s.chip.mode.target n = 3
      → ∃ t : Chip, Effect (.domainChangeEnd n ddr nvm) s t
        ∧ t.domain n = .onHeld
        ∧ (∀ k : Nat, k ≠ n → t.domain k = s.chip.domain k)
        ∧ t.mode.padsHeld = setBit s.chip.mode.padsHeld n true
        ∧ (n.val < 29 → t.cache = s.chip.cache)
        ∧ Frame [.mode, .win, .cache] t s.chip)
  ∧ (∀ (s : State) (n : Fin 31) (ddr : List DdrFound) (nvm : List NvmFound),
      s.chip.domain n = .changing
      → Tab.get 0 s.chip.mode.target n = 4
      → ∃ t : Chip, Effect (.domainChangeEnd n ddr nvm) s t
        ∧ t.domain n = .on
        ∧ (∀ k : Nat, k ≠ n → t.domain k = s.chip.domain k)
        ∧ (9 ≤ n.val → n.val ≤ 16 → ∀ f, ddr.find? (fun f => decide (f.ch.val = n.val - 9)) = some f → (t.ddr (n.val - 9)).dimms = f.dimms)
        ∧ Frame [.mode, .win, .cache, .links, .heads, .dram, .lauter, .kiln, .husk, .casks, .sb, .fault, .field, .free] t s.chip)
  ∧ (∀ (s : State) (n : Fin 31) (ddr : List DdrFound) (nvm : List NvmFound),
      s.chip.domain n = .changing
      → 29 ≤ n.val
      → Tab.get 0 s.chip.mode.target n ≤ 1
      → s.chip.waysEmpty (domainWays n) = false
      → ∃ t : Chip, Effect (.domainChangeEnd n ddr nvm) s t
        ∧ t.domain n = .changing
        ∧ (∀ k : Nat, k ≠ n → t.domain k = s.chip.domain k)
        ∧ (∀ ln ∈ s.chip.linesIn (domainWays n), s.chip.cachedDirty (64 * ln) = false → Tab.find t.cache.lines ln = none)
        ∧ (∀ k, k ∉ s.chip.linesIn (domainWays n) → Tab.find t.cache.lines k = Tab.find s.chip.cache.lines k)
        ∧ Frame [.cache, .lauter, .kiln, .dram, .mill, .husk, .poison, .integ, .fault, .heads, .field, .map] t s.chip)
  ∧ (∀ (s : State) (src : Src) (v : BitVec 8),
      Accepts s.chip src (0x2800) 0x0B 1
      → padDomain v.toNat = true
      → s.chip.domain v.toNat = .onHeld
      → (s.chip.mode.current = .configuring ∨ s.chip.mode.current = .training)
      → ∃ t : Chip, Effect (.padRelease src v) s (t.answerWrite src (0x2800) 0x0B (bytesLE 1 v.toNat) 0)
        ∧ t.mode = { s.chip.mode with domains := Tab.put .off s.chip.mode.domains v.toNat .changing, padsHeld := setBit s.chip.mode.padsHeld v.toNat false, target := Tab.set s.chip.mode.target v.toNat 4 }
        ∧ Frame [.mode] t s.chip)
  ∧ (∀ (s : State) (src : Src) (v : BitVec 8),
      Accepts s.chip src (0x2800) 0x0B 1
      → padDomain v.toNat = true
      → s.chip.domain v.toNat = .onHeld
      → (s.chip.mode.current = .service ∨ s.chip.mode.current = .diagnosis)
      → ∃ t : Chip, Effect (.padRelease src v) s (t.answerWrite src (0x2800) 0x0B (bytesLE 1 v.toNat) 0)
        ∧ t.mode = { s.chip.mode with domains := Tab.put .off s.chip.mode.domains v.toNat .changing, padsHeld := setBit s.chip.mode.padsHeld v.toNat false, target := Tab.set s.chip.mode.target v.toNat 4 }
        ∧ t.win = { s.chip.win with ops := s.chip.win.ops ++ [{ kind := .bringUp v.toNat, us := bringUpUs v.toNat }] }
        ∧ Frame [.mode, .win] t s.chip)
  ∧ (∀ (s : State) (src : Src) (v : BitVec 8),
      Accepts s.chip src (0x2800) 0x0B 1
      → padDomain v.toNat = true
      → s.chip.domain v.toNat ≠ .onHeld
      → Effect (.padRelease src v) s (s.chip.answerWrite src (0x2800) 0x0B (bytesLE 1 v.toNat) Abort.channelState))

/-- Sentry, chip power-on, rail loss and chip resets leave every part cold and keep what their row keeps; RECALL ends in the mode the images allow.
Behind it stand choices of the model: log entries 1, 83, 92, 93, 95. -/
def Obligations.ResetsTakeAwayAndKeepWhatTheirRowSays : Prop :=
  (∀ (s : State),
      ∃ t : Chip, exec (.sentryPowerOnReset) s = .next (s.doneRails t)
        ∧ Cold t
        ∧ SameDie t s.chip
        ∧ t.power = {}
        ∧ t.pkg = {}
        ∧ t.mode = {}
        ∧ t.fault = {}
        ∧ (s.doneRails t).tap = {})
  ∧ (∀ (s : State),
      ∃ t : Chip, exec (.sentryPowerLoss) s = .next (s.doneRails t)
        ∧ Cold t
        ∧ SameDie t s.chip
        ∧ t.power = { lost := true }
        ∧ t.pkg = {}
        ∧ t.mode = {}
        ∧ t.fault = {}
        ∧ (s.doneRails t).tap = {})
  ∧ (∀ (s : State) (slot : BitVec 7) (build : Bool) (unstable : BitVec 8),
      s.chip.mode.current = .inserting
      → s.chip.power.pg = true
      → s.chip.mode.railsUp = false
      → s.chip.mode.strapsTaken = false
      → ∃ t : Chip, exec (.chipPowerOn slot build unstable) s = .next (s.doneRails t)
        ∧ Cold t
        ∧ SameDie t s.chip
        ∧ t.power = s.chip.power
        ∧ t.pkg.slot = (slot.toNat ||| unstable.toNat) % 128
        ∧ t.mode = { current := .recall, build := if bitOf unstable.toNat 7 then 1 else build.toNat, strapsTaken := true, resetCause := 1, resetCount := s.chip.mode.resetCount, domains := [(1, .on), (2, .on)], railsUp := true }
        ∧ t.fault = { sticky := s.chip.fault.sticky, history := s.chip.fault.history, dark := s.chip.fault.dark }
        ∧ (s.doneRails t).tap = s.tap)
  ∧ (∀ (s : State) (slot : BitVec 7) (build : Bool) (unstable : BitVec 8),
      s.chip.mode.current = .inserting
      → s.chip.power.pg = true
      → s.chip.mode.railsUp = false
      → s.chip.mode.strapsTaken = true
      → ∃ t : Chip, exec (.chipPowerOn slot build unstable) s = .next (s.doneRails t)
        ∧ Cold t
        ∧ SameDie t s.chip
        ∧ t.power = s.chip.power
        ∧ t.pkg = { s.chip.pkg with tjPeak := s.chip.pkg.tj }
        ∧ t.mode = { current := .recall, build := s.chip.mode.build, strapsTaken := true, resetCause := 1, resetCount := s.chip.mode.resetCount, domains := [(1, .on), (2, .on)], railsUp := true }
        ∧ t.fault = { sticky := s.chip.fault.sticky, history := s.chip.fault.history, dark := s.chip.fault.dark }
        ∧ (∃ k : Nat, t.husk = { rootDone := s.chip.husk.rootDone, root := s.chip.husk.root, debugClosed := s.chip.husk.debugClosed, hbmKey := k }))
  ∧ (∀ (s : State),
      s.chip.mode.railsUp = true
      → ∃ t : Chip, exec (.railLoss) s = .next (s.doneRails t)
        ∧ Cold t
        ∧ SameDie t s.chip
        ∧ t.power = s.chip.power
        ∧ t.pkg = { s.chip.pkg with tjPeak := s.chip.pkg.tj }
        ∧ t.fault = { sticky := s.chip.fault.sticky, history := s.chip.fault.history, dark := s.chip.fault.dark }
        ∧ t.mode.current = (if s.chip.power.st = .ramp ∨ s.chip.power.st = .enhance ∨ s.chip.power.st = .on then .inserting else .unseated)
        ∧ (∀ n : Nat, 0 < n → t.domain n = .off)
        ∧ t.mode.railsUp = false
        ∧ t.mode.build = s.chip.mode.build
        ∧ t.mode.resetCause = s.chip.mode.resetCause
        ∧ (s.doneRails t).tap = {})
  ∧ (∀ (s : State) (src : Src),
      Accepts s.chip src (0x2800) 2 1
      → s.chip.mode.current ≠ .unseated
      → s.chip.mode.current ≠ .inserting
      → s.chip.mode.current ≠ .persist
      → ∃ t : Chip, Effect (.chipReset src false) s (t.answerWrite src (0x2800) 2 (bytesLE 1 6) 0)
        ∧ Cold t
        ∧ SameDie t s.chip
        ∧ t.power = s.chip.power
        ∧ t.pkg = { s.chip.pkg with tjPeak := s.chip.pkg.tj }
        ∧ t.mode = { current := .recall, build := s.chip.mode.build, strapsTaken := s.chip.mode.strapsTaken, resetCause := 2, resetCount := wrap32 (s.chip.mode.resetCount + 1), domains := [(1, .on), (2, .on)], railsUp := s.chip.mode.railsUp }
        ∧ (s.chip.mode.current ≠ .service → s.chip.mode.current ≠ .diagnosis → t.fault = { sticky := s.chip.fault.sticky, history := s.chip.fault.history, dark := s.chip.fault.dark }))
  ∧ (∀ (s : State) (src : Src),
      Accepts s.chip src (0x2800) 2 1
      → s.chip.mode.current ≠ .unseated
      → s.chip.mode.current ≠ .inserting
      → s.chip.mode.current ≠ .persist
      → ∃ t : Chip, Effect (.chipReset src true) s (t.answerWrite src (0x2800) 2 (bytesLE 1 6) 0)
        ∧ Cold t
        ∧ t.mode.current = .recall
        ∧ t.mode.resetCause = 2)
  ∧ (∀ (s : State) (src : Src) (f : Bool),
      (s.chip.mode.current = .unseated ∨ s.chip.mode.current = .inserting ∨ s.chip.mode.current = .persist)
      → Effect (.chipReset src f) s s.chip)
  ∧ (∀ (s : State) (ms : Nat) (dieOk : Bool) (flips : List (Nat × Nat × Byte)) (imageA imageB entropyOk : Bool),
      s.chip.mode.current = .recall
      → s.chip.chained = true
      → s.chip.field.addr = 0
      → s.chip.bootChoice imageA imageB ≠ none
      → ∃ t : Chip, Effect (.recallEnd ms dieOk flips imageA imageB entropyOk) s t
        ∧ t.mode.current = .unaddressed
        ∧ some t.sb.boot = s.chip.bootChoice imageA imageB
        ∧ t.rwp = (if dieOk then t.recalledValues else [])
        ∧ (∀ n : Nat, 3 ≤ n → n < 31 → t.domain n = if s.chip.noDomain n then s.chip.domain n else .on)
        ∧ t.field.addr = 0
        ∧ Frame [.sb, .rwp, .casks, .husk, .power, .mode, .fault, .heads, .field] t s.chip)
  ∧ (∀ (s : State) (ms : Nat) (dieOk : Bool) (flips : List (Nat × Nat × Byte)) (imageA imageB entropyOk : Bool),
      s.chip.mode.current = .recall
      → 1 ≤ s.chip.pkg.slot
      → s.chip.pkg.slot ≤ 0x7E
      → s.chip.bootChoice imageA imageB ≠ none
      → (∀ h : Nat, h < 4 → (s.chip.head h).state ≠ .active)
      → ∃ t : Chip, Effect (.recallEnd ms dieOk flips imageA imageB entropyOk) s t
        ∧ t.mode.current = (if t.cfg Obj.modeAutoTrain = 1 then .training else .configuring)
        ∧ some t.sb.boot = s.chip.bootChoice imageA imageB
        ∧ t.rwp = (if dieOk then t.recalledValues else [])
        ∧ (∀ n : Nat, 3 ≤ n → n < 31 → t.domain n = if s.chip.noDomain n then s.chip.domain n else .on)
        ∧ t.field.addr = s.chip.pkg.slot
        ∧ t.field.source = 1
        ∧ Frame [.sb, .rwp, .casks, .husk, .power, .mode, .fault, .heads, .field, .bifur, .links] t s.chip)
  ∧ (∀ (s : State) (ms : Nat) (dieOk : Bool) (flips : List (Nat × Nat × Byte)) (imageA imageB entropyOk : Bool),
      s.chip.mode.current = .recall
      → s.chip.bootChoice imageA imageB = none
      → ∃ t : Chip, Effect (.recallEnd ms dieOk flips imageA imageB entropyOk) s t
        ∧ t.mode.current = .update
        ∧ t.mode.bootUpdate = true
        ∧ t.sticky 166 = true
        ∧ t.rwp = (if dieOk then t.recalledValues else [])
        ∧ (∀ n : Nat, 3 ≤ n → n < 31 → t.domain n = if s.chip.noDomain n then s.chip.domain n else .on)
        ∧ Frame [.sb, .rwp, .casks, .husk, .power, .mode, .fault, .heads, .field] t s.chip)

/-- Sticky bits clear, configuration bytes are edited, self-checks raise their sources, and counter snapshots latch, wait and reach the ring.
Behind it stand choices of the model: log entries 26, 101, 102, 125, 128. -/
def Obligations.FaultsClearEditAndCountersDump : Prop :=
  (∀ (s : State) (src : Src) (v : BitVec 16),
      Accepts s.chip src (0xA000) 3 2
      → v.toNat < 256
      → ∃ t : Chip, Effect (.faultClear src v) s (t.answerWrite src (0xA000) 3 (bytesLE 2 v.toNat) 0)
        ∧ t.fault = { s.chip.fault with sticky := setBit s.chip.fault.sticky v.toNat false }
        ∧ t.sticky v.toNat = false
        ∧ (∀ n : Nat, n ≠ v.toNat → t.sticky n = s.chip.sticky n)
        ∧ Frame [.fault] t s.chip)
  ∧ (∀ (s : State) (src : Src) (v : BitVec 16),
      Accepts s.chip src (0xA000) 3 2
      → v.toNat = 0xFFFF
      → ∃ t : Chip, Effect (.faultClear src v) s (t.answerWrite src (0xA000) 3 (bytesLE 2 v.toNat) 0)
        ∧ t.fault = { s.chip.fault with sticky := 0 }
        ∧ Frame [.fault] t s.chip)
  ∧ (∀ (s : State) (src : Src) (v : BitVec 16),
      Accepts s.chip src (0xA000) 3 2
      → 255 < v.toNat
      → v.toNat ≠ 0xFFFF
      → Effect (.faultClear src v) s (s.chip.answerWrite src (0xA000) 3 (bytesLE 2 v.toNat) Abort.outOfRange))
  ∧ (∀ (s : State) (src : Src) (v : BitVec 16),
      Accepts s.chip src (0xA000) 4 2
      → s.chip.faultByteOk (bitsOf v.toNat 0 8) (bitsOf v.toNat 8 8) = true
      → (s.chip.sbAppend 1 (paramKey Obj.faultConfig) (bytesLE 256 (setField (s.chip.cfg Obj.faultConfig) (8 * bitsOf v.toNat 0 8) 8 (bitsOf v.toNat 8 8)))).1 = true
      → Tab.find s.chip.rw Obj.faultConfig = none
      → ∃ t : Chip, Effect (.faultEdit src v) s (t.answerWrite src (0xA000) 4 (bytesLE 2 v.toNat) 0)
        ∧ t.faultByte (bitsOf v.toNat 0 8) = bitsOf v.toNat 8 8
        ∧ (∀ n : Nat, n ≠ bitsOf v.toNat 0 8 → t.faultByte n = s.chip.faultByte n)
        ∧ (∀ k : Nat, k ≠ Obj.faultConfig → t.cfg k = s.chip.cfg k)
        ∧ Frame [.sb, .fault, .heads, .field, .rwp] t s.chip)
  ∧ (∀ (s : State) (src : Src) (v : BitVec 16),
      Accepts s.chip src (0xA000) 4 2
      → s.chip.faultByteOk (bitsOf v.toNat 0 8) (bitsOf v.toNat 8 8) = false
      → Effect (.faultEdit src v) s (s.chip.answerWrite src (0xA000) 4 (bytesLE 2 v.toNat) Abort.outOfRange))
  ∧ (∀ (s : State),
      (s.chip.mode.current = .service ∨ s.chip.mode.current = .diagnosis ∨ s.chip.mode.current = .configuring ∨ s.chip.mode.current = .training ∨ s.chip.mode.current = .recall ∨ s.chip.mode.current = .unaddressed)
      → ∃ t : Chip, Effect (.faultIntegrityScan false) s t ∧ t.mode = { s.chip.mode with current := .safe } ∧ Frame [.lauter, .mode, .win, .hop, .links, .husk, .cnt, .dram, .kiln, .fault, .heads, .field, .free] t s.chip)
  ∧ (∀ (s : State),
      (s.chip.mode.current = .drain ∨ s.chip.mode.current = .persist)
      → ∃ t : Chip, Effect (.faultIntegrityScan false) s t ∧ t.mode = s.chip.mode ∧ t.fault.safeHeld = true ∧ t.sticky 192 = true ∧ t.fault.integrityErrors = wrap32 (s.chip.fault.integrityErrors + 1))
  ∧ (∀ (s : State),
      ∃ t : Chip, Effect .lockstepMismatch s t ∧ t.sticky 193 = true ∧ (∀ n : Nat, n ≠ 193 → t.sticky n = s.chip.sticky n) ∧ Frame [.fault, .heads, .field] t s.chip)
  ∧ (∀ (s : State) (src : Src),
      Accepts s.chip src (0xA800) 20 1
      → s.chip.cnt.latched = none
      → ∃ t : Chip, Effect (.dumpNow src 1) s (t.answerWrite src (0xA800) 20 (bytesLE 1 1) 0)
        ∧ (∃ clocks rest : Nat, t.cnt.latched = some { seq := s.chip.cnt.nextSeq, epoch := s.chip.tb.epoch, tbState := s.chip.tb.code, commanded := true, tc := s.chip.tb.tc, clocks := clocks, window := s.chip.windowClass, skipped := 0, filterGen := s.chip.cnt.filterGen, rest := rest, counters := s.chip.cnt.vals })
        ∧ t.cnt.nextSeq = wrap32 (s.chip.cnt.nextSeq + 1)
        ∧ t.cnt.vals = s.chip.cnt.vals
        ∧ t.cnt.ring = s.chip.cnt.ring
        ∧ t.cnt.producer = s.chip.cnt.producer
        ∧ Frame [.cnt, .free] t s.chip)
  ∧ (∀ (s : State) (src : Src),
      Accepts s.chip src (0xA800) 20 1
      → s.chip.cnt.latched ≠ none
      → Effect (.dumpNow src 1) s (s.chip.answerWrite src (0xA800) 20 (bytesLE 1 1) Abort.resourceOwned))
  ∧ (∀ (s : State) (d : Nat),
      s.chip.dueNow = some d
      → s.chip.tb.state ≠ .unlocked
      → d ≤ s.chip.tb.tc + 2
      → s.chip.cnt.latched = none
      → ∃ t : Chip, Effect .counterSnapshotDue s t ∧ (∃ clocks rest : Nat, t.cnt.latched = some { seq := s.chip.cnt.nextSeq, epoch := s.chip.tb.epoch, tbState := s.chip.tb.code, commanded := false, tc := s.chip.tb.tc, clocks := clocks, window := s.chip.windowClass, skipped := 0, filterGen := s.chip.cnt.filterGen, rest := rest, counters := s.chip.cnt.vals })
        ∧ t.cnt.nextSeq = wrap32 (s.chip.cnt.nextSeq + 1) ∧ t.cnt.nextDue = some (d + s.chip.cfg Obj.cntDumpPeriodTc) ∧ t.cnt.vals = s.chip.cnt.vals
        ∧ t.cnt.ring = s.chip.cnt.ring ∧ Frame [.cnt, .free] t s.chip)
  ∧ (∀ (s : State) (d : Nat),
      s.chip.dueNow = some d
      → s.chip.tb.state ≠ .unlocked
      → d ≤ s.chip.tb.tc + 2
      → s.chip.cnt.latched ≠ none
      → ∃ t : Chip, Effect .counterSnapshotDue s t
        ∧ t.cnt = { s.chip.cnt with nextSeq := wrap32 (s.chip.cnt.nextSeq + 1), skipped := wrap32 (s.chip.cnt.skipped + 1), skippedSince := wrap32 (s.chip.cnt.skippedSince + 1), nextDue := some (d + s.chip.cfg Obj.cntDumpPeriodTc) }
        ∧ Frame [.cnt] t s.chip)
  ∧ (∀ (s : State) (r : DumpRec),
      s.chip.cnt.latched = some r
      → s.chip.inBurst = false
      → s.chip.dumpFull = false
      → ∃ t : Chip, Effect .dumpWriteOut s t
        ∧ t.cnt = { s.chip.cnt with ring := Tab.set s.chip.cnt.ring (s.chip.cnt.producer % s.chip.cfg Obj.cntDumpRecords) { r with skipped := s.chip.cnt.skippedSince }, latched := none, skippedSince := 0, producer := wrap32 (s.chip.cnt.producer + 1) }
        ∧ Frame [.cnt] t s.chip)
  ∧ (∀ (s : State) (r : DumpRec),
      s.chip.cnt.latched = some r
      → s.chip.inBurst = false
      → s.chip.dumpFull = true
      → ∃ t : Chip, Effect .dumpWriteOut s t
        ∧ t.cnt = { s.chip.cnt with latched := none, skipped := wrap32 (s.chip.cnt.skipped + 1), skippedSince := wrap32 (s.chip.cnt.skippedSince + 1) } ∧ Frame [.cnt] t s.chip)
  ∧ (∀ (s : State),
      s.chip.inBurst = true
      → Effect .dumpWriteOut s s.chip)
  ∧ (∀ (s : State) (src : Src) (v : BitVec 16),
      Accepts s.chip src (0xA800) 17 2
      → dumpRecordsOk v.toNat = true
      → s.chip.cfg Obj.cntDumpPeriodTc = 0
      → s.chip.mirrorBytes + 16384 * v.toNat ≤ s.chip.residentMib * mib
      → (s.chip.sbAppend 1 (paramKey Obj.cntDumpRecords) (bytesLE 2 v.toNat)).1 = true
      → ∃ t : Chip, Effect (.dumpRecordsWrite src v) s (t.answerWrite src (0xA800) 17 (bytesLE 2 v.toNat) 0)
        ∧ Tab.find t.rwp Obj.cntDumpRecords = some v.toNat
        ∧ t.cfg Obj.cntDumpConsumer = 0
        ∧ t.cnt = { s.chip.cnt with producer := 0, ring := [] }
        ∧ Frame [.sb, .fault, .heads, .field, .rwp, .rw, .cnt] t s.chip)
  ∧ (∀ (s : State) (src : Src) (v : BitVec 16),
      Accepts s.chip src (0xA800) 17 2
      → dumpRecordsOk v.toNat = true
      → s.chip.cfg Obj.cntDumpPeriodTc ≠ 0
      → Effect (.dumpRecordsWrite src v) s (s.chip.answerWrite src (0xA800) 17 (bytesLE 2 v.toNat) Abort.resourceOwned))
  ∧ (∀ (s : State) (src : Src) (v : BitVec 64),
      Accepts s.chip src (0xA800) 19 8
      → (v.toNat = 0 ∨ (65536 ≤ v.toNat ∧ v.toNat ≤ 2 ^ 37))
      → ∃ t : Chip, Effect (.dumpScheduleWrite src true v) s (t.answerWrite src (0xA800) 19 (bytesLE 8 v.toNat) 0)
        ∧ t.rw = Tab.set s.chip.rw Obj.cntDumpPeriodTc v.toNat
        ∧ t.cnt = { s.chip.cnt with nextDue := if t.cfg Obj.cntDumpPeriodTc = 0 then none else some (firstDue (t.cfg Obj.cntDumpStartTc) (t.cfg Obj.cntDumpPeriodTc) s.chip.tb.tc) }
        ∧ Frame [.rw, .cnt] t s.chip)
  ∧ (∀ (s : State) (src : Src) (v : BitVec 64),
      Accepts s.chip src (0xA800) 18 8
      → ∃ t : Chip, Effect (.dumpScheduleWrite src false v) s (t.answerWrite src (0xA800) 18 (bytesLE 8 v.toNat) 0)
        ∧ t.rw = Tab.set s.chip.rw Obj.cntDumpStartTc v.toNat
        ∧ t.cnt = { s.chip.cnt with nextDue := if t.cfg Obj.cntDumpPeriodTc = 0 then none else some (firstDue (t.cfg Obj.cntDumpStartTc) (t.cfg Obj.cntDumpPeriodTc) s.chip.tb.tc) }
        ∧ Frame [.rw, .cnt] t s.chip)
  ∧ (∀ (s : State) (src : Src) (value : List Byte) (f : Fin 32),
      Accepts s.chip src (0xA820 + ↑f) 1 32
      → value.length = 32
      → filterOk (natLE value) = true
      → Tab.find s.chip.rw (objAt Obj.cntFilter ↑f) = none
      → (s.chip.sbAppend 1 (paramKey (objAt Obj.cntFilter ↑f)) (bytesLE 32 (natLE value))).1 = true
      → ∃ t : Chip, Effect (.filterWrite src (BitVec.ofNat 16 (0xA820 + ↑f)) 1 value) s (t.answerWrite src (0xA820 + ↑f) 1 value 0)
        ∧ t.cnt = { s.chip.cnt with filterGen := wrap32 (s.chip.cnt.filterGen + 1) } ∧ t.cfg (objAt Obj.cntFilter ↑f) = natLE value ∧ (∀ k : Nat, k ≠ objAt Obj.cntFilter ↑f → t.cfg k = s.chip.cfg k)
        ∧ Frame [.sb, .fault, .heads, .field, .rwp, .cnt] t s.chip)
  ∧ (∀ (s : State) (src : Src) (value : List Byte),
      Accepts s.chip src (0xA800) 2 2048
      → value.length = 2048
      → filterSelectOk (natLE value) = true
      → Tab.find s.chip.rw Obj.cntFilterSelect = none
      → (s.chip.sbAppend 1 (paramKey (Obj.cntFilterSelect)) (bytesLE 2048 (natLE value))).1 = true
      → ∃ t : Chip, Effect (.filterWrite src (BitVec.ofNat 16 (0xA800)) 2 value) s (t.answerWrite src (0xA800) 2 value 0)
        ∧ t.cnt = { s.chip.cnt with filterGen := wrap32 (s.chip.cnt.filterGen + 1) } ∧ t.cfg (Obj.cntFilterSelect) = natLE value ∧ (∀ k : Nat, k ≠ Obj.cntFilterSelect → t.cfg k = s.chip.cfg k)
        ∧ Frame [.sb, .fault, .heads, .field, .rwp, .cnt] t s.chip)
  ∧ (∀ (s : State) (src : Src) (value : List Byte) (c : Fin 1024),
      Accepts s.chip src (0x9000 + ↑c) 0x30 1
      → value.length = 1
      → natLE value ≤ 15
      → ∃ t : Chip, Effect (.filterWrite src (BitVec.ofNat 16 (0x9000 + ↑c)) 0x30 value) s (t.answerWrite src (0x9000 + ↑c) 0x30 value 0)
        ∧ t.cnt = { s.chip.cnt with filterGen := wrap32 (s.chip.cnt.filterGen + 1) } ∧ t.cfg (objAt Obj.caskCounterMarks ↑c) = natLE value ∧ (∀ k : Nat, k ≠ objAt Obj.caskCounterMarks ↑c → t.cfg k = s.chip.cfg k)
        ∧ Frame [.rw, .cnt] t s.chip)

/-- Each TAP instruction selects its register, drives or floats the pins as IEEE 1149.1 says, and touches nothing but the port.
Behind it stand choices of the model: log entry 118. -/
def Obligations.TapInstructionsSelectTheirRegister : Prop :=
  (∀ (s : State),
      s.chip.mode.railsUp = true
      → exec (.tapReset) s = .next { s with tap := { instr := .idcode, dr := 0x1847225F, drLen := 32, cells := s.tap.cells, driving := false, floating := false } })
  ∧ (∀ (s : State),
      s.chip.mode.railsUp = true
      → exec (.idcode) s = .next { s with tap := { instr := .idcode, dr := 0x1847225F, drLen := 32, cells := s.tap.cells, driving := false, floating := false } })
  ∧ (∀ (s : State),
      s.chip.mode.railsUp = true
      → exec (.extest) s = .next { s with tap := { instr := .extest, dr := cellsNat (fitCells s.tap.cells), drLen := 4290, cells := s.tap.cells, driving := true, floating := false } })
  ∧ (∀ (s : State),
      s.chip.mode.railsUp = true
      → exec (.clamp) s = .next { s with tap := { instr := .clamp, dr := 0, drLen := 1, cells := s.tap.cells, driving := true, floating := false } })
  ∧ (∀ (s : State) (pins : List Bool),
      s.chip.mode.railsUp = true
      → exec (.sample pins) s = .next { s with tap := { instr := .sample, dr := cellsNat (fitCells pins), drLen := 4290, cells := s.tap.cells, driving := false, floating := false } })
  ∧ (∀ (s : State) (cells : List Bool),
      s.chip.mode.railsUp = true
      → exec (.preload cells) s = .next { s with tap := { instr := .preload, dr := cellsNat (fitCells cells), drLen := 4290, cells := fitCells cells, driving := false, floating := false } })
  ∧ (∀ (s : State),
      s.chip.mode.railsUp = true
      → exec (.highz) s = .next { s with tap := { instr := .highz, dr := 0, drLen := 1, cells := s.tap.cells, driving := false, floating := true } })
  ∧ (∀ (s : State),
      s.chip.mode.railsUp = true
      → exec (.bypass 0xFF) s = .next { s with tap := { instr := .bypass, dr := 0, drLen := 1, cells := s.tap.cells, driving := false, floating := false } })
  ∧ (∀ (s : State) (code : BitVec 8),
      s.chip.mode.railsUp = true
      → privateCode code = true
      → s.chip.husk.debugClosed = true
      → exec (.bypass code) s = .next { s with tap := { instr := .bypass, dr := 0, drLen := 1, cells := s.tap.cells, driving := false, floating := false } })
  ∧ (∀ (s : State) (code : BitVec 8),
      s.chip.mode.railsUp = true
      → privateCode code = true
      → s.chip.husk.debugClosed = false
      → exec (.bypass code) s = .refused .privateTapInstruction)
  ∧ (∀ (s : State),
      s.chip.mode.railsUp = false
      → exec .extest s = .next s ∧ exec .clamp s = .next s ∧ exec .highz s = .next s ∧ exec .idcode s = .next s ∧ exec .tapReset s = .next s)

/-- power.command 1 trips the pass FET with cause COMMANDED, in DRAIN and ON only -/
def Obligations.CommandedTripIsForDrainWithTheGateOn : Prop :=
  (∀ (s : State) (src : Src),
      Accepts s.chip src (0x2000) 2 1
      → s.chip.mode.current = .drain
      → s.chip.power.st = .on
      → ∃ t : Chip, Effect (.commandedTrip src 1) s (t.answerWrite src (0x2000) 2 (bytesLE 1 (BitVec.toNat (1 : BitVec 8))) 0)
        ∧ Trips t s.chip 9)
  ∧ (∀ (s : State) (src : Src),
      Accepts s.chip src (0x2000) 2 1
      → s.chip.mode.current ≠ .drain
      → Effect (.commandedTrip src 1) s (s.chip.answerWrite src (0x2000) 2 (bytesLE 1 (BitVec.toNat (1 : BitVec 8))) Abort.wrongMode))
  ∧ (∀ (s : State) (src : Src),
      Accepts s.chip src (0x2000) 2 1
      → s.chip.mode.current = .drain
      → s.chip.power.st ≠ .on
      → Effect (.commandedTrip src 1) s (s.chip.answerWrite src (0x2000) 2 (bytesLE 1 (BitVec.toNat (1 : BitVec 8))) Abort.channelState))

/-- FAULT_N is asserted while a source with FAULT_PIN is set or the mode is SAFE, and fault.fault_n reads it -/
def Obligations.FaultPinFollowsItsSourcesAndSafe : Prop :=
  (∀ (c : Chip),
      c.faultN = true ↔ (∃ n : Nat, n < 256 ∧ c.sticky n = true ∧ bitOf (c.faultByte n) 6 = true) ∨ c.mode.current = .safe)
  ∧ (∀ (c : Chip) (m : Nat),
      c.objValue m 0xA000 6 = ((if c.faultN then 1 else 0), c))

/-- mode.current reads the code of each mode, and the heartbeat carries it -/
def Obligations.ModeCodesReadAsTheTableSays : Prop :=
  (∀ (c : Chip) (m : Nat),
      c.objValue m 0x2800 1 = ((match c.mode.current with
        | .unseated => 0 | .inserting => 1 | .recall => 2 | .unaddressed => 3 | .configuring => 4 | .training => 5
        | .service => 6 | .persist => 7 | .drain => 8 | .diagnosis => 9 | .safe => 10 | .update => 11), c))
  ∧ (∀ (c : Chip),
      c.heartbeatBytes.head? = some (BitVec.ofNat 8 c.mode.current.code) ∧ ∀ m : Nat, (c.objValue m 0x2800 1).1 = c.mode.current.code)

/-- A write of an object is refused at the first check that fails: RECALL, the index, the right, the object, the further right, its class, its length.
Behind it stand choices of the model: log entries 105, 106, 128. -/
def Obligations.DictionaryChecksActInTheirOrder : Prop :=
  (∀ (s : State) (src : Src) (idx : BitVec 16) (sub : BitVec 8) (value : List Byte),
      s.chip.dictUp src = true
      → (src = .field → s.chip.field.xfer = none)
      → s.chip.mode.current = .recall
      → s.chip.pasidDenied (srcPasid src) = false
      → Effect (.objectWrite src idx sub value) s (s.chip.answerWrite src idx.toNat sub.toNat value Abort.busyRecall))
  ∧ (∀ (s : State) (src : Src) (idx : BitVec 16) (sub : BitVec 8) (value : List Byte),
      s.chip.dictUp src = true
      → (src = .field → s.chip.field.xfer = none)
      → s.chip.mode.current ≠ .recall
      → idx.toNat < 0x1000
      → s.chip.pasidDenied (srcPasid src) = false
      → Effect (.objectWrite src idx sub value) s (s.chip.answerWrite src idx.toNat sub.toNat value Abort.objectAbsent))
  ∧ (∀ (s : State) (src : Src) (idx : BitVec 16) (sub : BitVec 8) (value : List Byte),
      s.chip.dictUp src = true
      → (src = .field → s.chip.field.xfer = none)
      → s.chip.mode.current ≠ .recall
      → 0x1000 ≤ idx.toNat
      → s.chip.rangeServed idx.toNat = true
      → s.chip.may (rangeTarget idx.toNat) (srcMaster src) 1 = false
      → s.chip.pasidDenied (srcPasid src) = false
      → Effect (.objectWrite src idx sub value) s ((s.chip.denyWrite (rangeTarget idx.toNat) (srcMaster src) idx.toNat sub.toNat).answerWrite src idx.toNat sub.toNat value 0))
  ∧ (∀ (s : State) (src : Src) (idx : BitVec 16) (sub : BitVec 8) (value : List Byte),
      s.chip.dictUp src = true
      → (src = .field → s.chip.field.xfer = none)
      → s.chip.mode.current ≠ .recall
      → 0x1000 ≤ idx.toNat
      → s.chip.rangeServed idx.toNat = true
      → s.chip.may (rangeTarget idx.toNat) (srcMaster src) 1 = true
      → objIndexExists idx.toNat = false
      → s.chip.pasidDenied (srcPasid src) = false
      → Effect (.objectWrite src idx sub value) s (s.chip.answerWrite src idx.toNat sub.toNat value Abort.objectAbsent))
  ∧ (∀ (s : State) (src : Src) (idx : BitVec 16) (sub : BitVec 8) (value : List Byte),
      s.chip.dictUp src = true
      → (src = .field → s.chip.field.xfer = none)
      → s.chip.mode.current ≠ .recall
      → 0x1000 ≤ idx.toNat
      → s.chip.rangeServed idx.toNat = true
      → s.chip.may (rangeTarget idx.toNat) (srcMaster src) 1 = true
      → objIndexExists idx.toNat = true
      → objInfo? idx.toNat sub.toNat = none
      → s.chip.pasidDenied (srcPasid src) = false
      → Effect (.objectWrite src idx sub value) s (s.chip.answerWrite src idx.toNat sub.toNat value Abort.subAbsent))
  ∧ (∀ (s : State) (src : Src) (idx : BitVec 16) (sub : BitVec 8) (value : List Byte) (i : ObjInfo) (t b : Nat),
      s.chip.dictUp src = true
      → (src = .field → s.chip.field.xfer = none)
      → s.chip.mode.current ≠ .recall
      → 0x1000 ≤ idx.toNat
      → s.chip.rangeServed idx.toNat = true
      → s.chip.may (rangeTarget idx.toNat) (srcMaster src) 1 = true
      → objIndexExists idx.toNat = true
      → objInfo? idx.toNat sub.toNat = some i
      → furtherRight idx.toNat sub.toNat = some (t, b)
      → s.chip.may t (srcMaster src) b = false
      → s.chip.pasidDenied (srcPasid src) = false
      → Effect (.objectWrite src idx sub value) s ((s.chip.denyWrite t (srcMaster src) idx.toNat sub.toNat).answerWrite src idx.toNat sub.toNat value 0))
  ∧ (∀ (s : State) (src : Src) (idx : BitVec 16) (sub : BitVec 8) (value : List Byte) (i : ObjInfo),
      s.chip.dictUp src = true
      → (src = .field → s.chip.field.xfer = none)
      → s.chip.mode.current ≠ .recall
      → 0x1000 ≤ idx.toNat
      → s.chip.rangeServed idx.toNat = true
      → s.chip.may (rangeTarget idx.toNat) (srcMaster src) 1 = true
      → objIndexExists idx.toNat = true
      → objInfo? idx.toNat sub.toNat = some i
      → furtherRight idx.toNat sub.toNat = none
      → (i.acc = .ro ∨ i.acc = .const)
      → s.chip.pasidDenied (srcPasid src) = false
      → Effect (.objectWrite src idx sub value) s (s.chip.answerWrite src idx.toNat sub.toNat value Abort.readOnly))
  ∧ (∀ (s : State) (src : Src) (idx : BitVec 16) (sub : BitVec 8) (value : List Byte) (i : ObjInfo),
      s.chip.dictUp src = true
      → (src = .field → s.chip.field.xfer = none)
      → s.chip.gate (srcMaster src) idx.toNat sub.toNat true = .go i
      → 0 < i.size
      → value.length ≠ i.size
      → s.chip.pasidDenied (srcPasid src) = false
      → Effect (.objectWrite src idx sub value) s (s.chip.answerWrite src idx.toNat sub.toNat value Abort.length))
  ∧ (∀ (s : State) (src : Src) (idx : BitVec 16) (sub : BitVec 8) (value : List Byte),
      s.chip.dictUp src = true
      → s.chip.pasidDenied (srcPasid src) = true
      → Effect (.objectWrite src idx sub value) s (s.chip.violation (srcMaster src)))

/-- A step runs the command at the front of the queue on the state with the rest of the queue.
Behind it stand choices of the model: log entry 138. -/
def Obligations.StepTakesTheFrontCommand : Prop :=
  ∀ (s : State) (c : Instr) (r : List Instr),
      s.pending = c :: r
      → step s = exec c { s with pending := r }

/-- On an empty queue one edge of the timebase passes: TC moves, slews and misses count, window edges act, and the debts accrue and repay.
Behind it stand choices of the model: log entries 3, 113, 129. -/
def Obligations.AnEmptyQueueLetsOneCycleOfTcPass : Prop :=
  (∀ (s : State),
      s.pending = []
      → s.chip.tb.state ≠ .unlocked
      → (s.chip.tb.atDue = false ∨ s.chip.tb.lastDue = some (s.chip.tb.tc / 65536))
      → s.chip.win.pending = []
      → s.chip.tb.slewing = false
      → s.chip.tb.ahead = 0
      → ∃ t : Chip, step s = .next (s.done t)
        ∧ t.tb = { s.chip.tb with tc := (s.chip.tb.tc + 1) % 2 ^ 64, edge := 0 }
        ∧ t.cnt = { s.chip.cnt with clocks := s.chip.cnt.clocks + 1 }
        ∧ t.win.pending = []
        ∧ Frame [.tb, .cnt, .field, .lauter, .win, .integ, .sb] t s.chip)
  ∧ (∀ (s : State),
      s.pending = []
      → s.chip.tb.state ≠ .unlocked
      → (s.chip.tb.atDue = false ∨ s.chip.tb.lastDue = some (s.chip.tb.tc / 65536))
      → s.chip.win.pending = []
      → s.chip.tb.slewing = true
      → s.chip.tb.ahead ≠ 0
      → s.chip.tb.edge ≠ 15
      → ∃ t : Chip, step s = .next (s.done t)
        ∧ t.tb = { s.chip.tb with tc := (s.chip.tb.tc + 1) % 2 ^ 64, edge := s.chip.tb.edge + 1 }
        ∧ t.cnt = { s.chip.cnt with clocks := s.chip.cnt.clocks + 1 }
        ∧ t.win.pending = []
        ∧ Frame [.tb, .cnt, .field, .lauter, .win, .integ, .sb] t s.chip)
  ∧ (∀ (s : State),
      s.pending = []
      → s.chip.tb.state ≠ .unlocked
      → (s.chip.tb.atDue = false ∨ s.chip.tb.lastDue = some (s.chip.tb.tc / 65536))
      → s.chip.win.pending = []
      → s.chip.tb.ahead ≠ 0
      → s.chip.tb.edge = 15
      → ∃ t : Chip, step s = .next (s.done t)
        ∧ t.tb = { s.chip.tb with ahead := s.chip.tb.ahead - 1, edge := 0 }
        ∧ t.cnt = { s.chip.cnt with clocks := s.chip.cnt.clocks + 1 }
        ∧ t.win.pending = []
        ∧ Frame [.tb, .cnt, .field, .lauter, .win, .integ, .sb] t s.chip)
  ∧ (∀ (s : State),
      s.pending = []
      → s.chip.tb.state ≠ .unlocked
      → (s.chip.tb.atDue = false ∨ s.chip.tb.lastDue = some (s.chip.tb.tc / 65536))
      → s.chip.win.pending = []
      → s.chip.tb.slewing = true
      → s.chip.tb.ahead = 0
      → ∃ t : Chip, step s = .next (s.done t)
        ∧ t.tb = { s.chip.tb.lock with tc := (s.chip.tb.tc + 1) % 2 ^ 64, edge := 0 }
        ∧ t.cnt = { s.chip.cnt with clocks := s.chip.cnt.clocks + 1 }
        ∧ t.win.pending = []
        ∧ Frame [.tb, .cnt, .field, .lauter, .win, .integ, .sb] t s.chip)
  ∧ (∀ (s : State) (k : Nat),
      s.pending = []
      → s.chip.tb.state ≠ .unlocked
      → (s.chip.tb.atDue = false ∨ s.chip.tb.lastDue = some (s.chip.tb.tc / 65536))
      → s.chip.win.pending = []
      → s.chip.lauter.copied = []
      → s.chip.tb.measuredKhz ≠ 0
      → (k = 0 ∨ k = 2 ∨ k = 3 ∨ k = 4)
      → ∃ t : Chip, step s = .next (s.done t)
        ∧ (Tab.get 0 t.win.debtLevel k, Tab.get 0 t.win.debtRest k) = debtStep (Tab.get 0 s.chip.win.debtLevel k) (Tab.get 0 s.chip.win.debtRest k) (Tab.get 0 s.chip.win.debtAccrual k) (s.chip.repayRate k) (1000 * s.chip.tb.measuredKhz)
        ∧ Frame [.tb, .cnt, .field, .lauter, .win, .integ, .sb] t s.chip)
  ∧ (∀ (s : State),
      s.pending = []
      → s.chip.tb.state ≠ .unlocked
      → (s.chip.tb.atDue = false ∨ s.chip.tb.lastDue = some (s.chip.tb.tc / 65536))
      → s.chip.win.pending = []
      → s.chip.lauter.copied = []
      → s.chip.tb.measuredKhz ≠ 0
      → ∃ t : Chip, step s = .next (s.done t)
        ∧ t.integ = (s.chip.tierTicks (s.chip.repayRate 1) (1000 * s.chip.tb.measuredKhz)).integ
        ∧ Tab.get 0 t.win.debtLevel 1 = t.scrubLevel
        ∧ Frame [.tb, .cnt, .field, .lauter, .win, .integ, .sb] t s.chip)
  ∧ (∀ (s : State) (c : Chip),
      s.pending = []
      → s.chip.tb.state ≠ .unlocked
      → (s.chip.tb.atDue = false ∨ s.chip.tb.lastDue = some (s.chip.tb.tc / 65536))
      → s.chip.win.pending ≠ []
      → c = { s.chip with cnt := { s.chip.cnt with clocks := s.chip.cnt.clocks + 1 }, tb := s.chip.tb.edgeOn }
      → ∃ t : Chip, step s = .next (s.done t) ∧ t.win.pending = c.passEdges.win.pending ∧ Frame [.field, .lauter, .win, .integ, .sb] t c.passEdges)
  ∧ (∀ (s : State),
      s.pending = []
      → s.chip.tb.atDue = true
      → s.chip.tb.lastDue ≠ some (s.chip.tb.tc / 65536)
      → s.chip.tb.state = .locked
      → s.chip.tb.misses + 1 ≤ s.chip.cfg Obj.timebaseMissLimit
      → s.chip.win.pending = []
      → ∃ t : Chip, step s = .next (s.done t)
        ∧ t.tb = Timebase.edgeOn { s.chip.tb with misses := s.chip.tb.misses + 1, lastDue := some (s.chip.tb.tc / 65536) }
        ∧ Frame [.tb, .cnt, .field, .lauter, .win, .integ, .sb] t s.chip)
  ∧ (∀ (s : State),
      s.pending = []
      → s.chip.tb.state = .unlocked
      → ∃ t : Chip, step s = .next (s.done t)
        ∧ t.tb = s.chip.tb
        ∧ t.cnt = { s.chip.cnt with clocks := s.chip.cnt.clocks + 1 }
        ∧ Frame [.cnt, .field] t s.chip)

/-- What follows a command's own effect is nothing where nothing is pending.
Behind it stand choices of the model: log entry 124. -/
def Obligations.CalmDeviceSettlesAtOnce : Prop :=
  (∀ (old c : Chip),
      c.calm = true
      → Chip.finish old c = c)
  ∧ (∀ (i : Instr) (s : State) (c : Chip),
      Effect i s c
      → c.calm = true
      → exec i s = .next { s with chip := c })

/-- An occurrence sets its sticky bit and no other, and asks for the reactions of its byte, or waits where the core is dark -/
def Obligations.RaisedSourcesSetTheirBitAndAskTheirReactions : Prop :=
  (∀ (c : Chip) (n m d : Nat) (b : Block) (hs : List Nat),
      (c.raise n m d b hs).sticky n = true ∧ (∀ k : Nat, k ≠ n → (c.raise n m d b hs).sticky k = c.sticky k) ∧ Frame [.fault, .heads, .field] (c.raise n m d b hs) c)
  ∧ (∀ (c : Chip) (n m d : Nat) (b : Block) (hs : List Nat),
      c.coreOn = true
      → c.mode.current ≠ .recall
      → (c.raise n m d b hs).fault.nmis = c.fault.nmis + (bitOf (c.faultByte n) 3).toNat)
  ∧ (∀ (c : Chip) (n m d : Nat) (b : Block) (hs : List Nat),
      c.coreOn = true
      → c.mode.current ≠ .recall
      → (c.raise n m d b hs).fault.wantBlocks = if bitOf (c.faultByte n) 4 then c.fault.wantBlocks ++ [b] else c.fault.wantBlocks)
  ∧ (∀ (c : Chip) (n m d : Nat) (b : Block) (hs : List Nat),
      c.coreOn = true
      → c.mode.current ≠ .recall
      → (c.raise n m d b hs).fault.wantChip = (c.fault.wantChip || bitOf (c.faultByte n) 5))
  ∧ (∀ (c : Chip) (n m d : Nat) (b : Block) (hs : List Nat),
      c.coreOn = true
      → c.mode.current ≠ .recall
      → (c.raise n m d b hs).fault.wantSafe = (c.fault.wantSafe || (decide (c.faultByte n % 4 = 3) && !bitOf (c.faultByte n) 5)))
  ∧ (∀ (c : Chip) (n m d : Nat) (b : Block) (hs : List Nat),
      (c.coreOn = false ∨ c.mode.current = .recall)
      → (c.raise n m d b hs).fault = { c.fault with sticky := setBit c.fault.sticky n true, dark := if c.sticky n then c.fault.dark else setBit c.fault.dark n true } ∧ (c.raise n m d b hs).heads = c.heads ∧ (c.raise n m d b hs).field = c.field)

/-- Every step keeps the test port consistent: IDCODE shows the identification register, only EXTEST and CLAMP drive, only HIGHZ floats.
Behind it stand choices of the model: log entry 118. -/
def Obligations.TestPortStaysConsistent : Prop :=
  ∀ (s t : State),
      s.tap.Ok
      → step s = .next t
      → t.tap.Ok

/-- The queue after a step is its rest, whatever the command.
Behind it stand choices of the model: log entry 138. -/
def Obligations.EachStepTakesOneCommandAndNoCommandQueuesAnother : Prop :=
  ∀ (s t : State),
      step s = .next t
      → t.pending = s.pending.tail

/-- The state after reset is that of the sentry's power-on reset.
Behind it stand choices of the model: log entry 1. -/
def Obligations.ResetIsTheSentrysPowerOn : Prop :=
  State.reset.pending = [] ∧ State.reset.tap.Ok ∧ State.reset.tap.instr = .idcode ∧ State.reset.chip.mode.current = .unseated ∧ (∀ n : Nat, 0 < n → State.reset.chip.domain n = .off)
    ∧ State.reset.chip.power.st = .unseated ∧ State.reset.chip.power.pg = false ∧ State.reset.chip.power.tModel = 150 * 10 ^ 9 ∧ State.reset.chip.power.timers = []
    ∧ State.reset.chip.sreg Obj.powerFetTripC = 150 ∧ State.reset.chip.fault.sticky = 0 ∧ State.reset.chip.mem = [] ∧ (∀ p : Nat, State.reset.chip.page p = {})
    ∧ State.reset.chip.win.pending = [] ∧ State.reset.chip.waits = []

/-- Damage found in window records, debts, balances, blocks, the snoop filter, queue states and channel contexts does what the integrity rules say.
Behind it stand choices of the model: log entry 27. -/
def Obligations.DamageOfHeldStateIsHandledConservatively : Prop :=
  (∀ (s : State) (ch : Fin 64) (n : Nat) (k : Nat) (w : Window),
      (s.chip.hchan ch).current = none
      → s.chip.win.pending[k]? = some w
      → w.active = false
      → w.cls ≠ .burst
      → ∃ t : Chip, Effect (.burstIssue ch n { damage := .window k }) s t ∧ t.win.pending = s.chip.win.pending.filter (fun v => decide (v.tag ≠ w.tag)) ∧ t.win.debtLevel = s.chip.win.debtLevel ∧ t.sticky 5 = true
        ∧ Frame [.win, .fault, .heads, .field] t s.chip)
  ∧ (∀ (s : State) (ch : Fin 64) (n : Nat) (k : Nat) (w : Window),
      (s.chip.hchan ch).current = none
      → s.chip.win.pending[k]? = some w
      → w.active = false
      → w.cls = .burst
      → (s.chip.win.pending.find? (fun v => decide (v.cls = .burst ∧ v.start = w.stop ∧ !v.active)) = none)
      → ∃ t : Chip, Effect (.burstIssue ch n { damage := .window k }) s t ∧ t.win.pending = s.chip.win.pending.filter (fun v => decide (v.tag ≠ w.tag)) ∧ t.sticky 5 = true ∧ t.sticky 4 = true
        ∧ Frame [.win, .dram, .kiln, .fault, .heads, .field] t s.chip)
  ∧ (∀ (s : State) (ch : Fin 64) (n : Nat) (k : Fin 5),
      (s.chip.hchan ch).current = none
      → ∃ t : Chip, Effect (.burstIssue ch n { damage := .debtLevel k }) s t ∧ Tab.get 0 t.win.debtLevel k = s.chip.cfgAt Obj.windowsDebtMax k ∧ (∀ j : Nat, j ≠ k → Tab.get 0 t.win.debtLevel j = Tab.get 0 s.chip.win.debtLevel j)
        ∧ (k = 1 → ∀ n, n = 1 ∨ n = 2 ∨ n = 3 → t.tierDebt n = s.chip.cfgAt Obj.windowsDebtMax k) ∧ (k ≠ 1 → t.integ = s.chip.integ)
        ∧ t.win.pending = s.chip.win.pending ∧ t.sticky 5 = true ∧ Frame [.win, .integ, .fault, .heads, .field] t s.chip)
  ∧ (∀ (s : State) (ch : Fin 64) (n : Nat) (k : Fin 5),
      (s.chip.hchan ch).current = none
      → ∃ t : Chip, Effect (.burstIssue ch n { damage := .debtMax k }) s t ∧ t.cfgAt Obj.windowsDebtMax k = s.chip.cfgAt Obj.windowsDebtMax k ∧ t.sticky 5 = true ∧ Frame [.fault, .heads, .field] t s.chip)
  ∧ (∀ (s : State) (ch : Fin 64) (n : Nat) (c : Fin 8),
      (s.chip.hchan ch).current = none
      → ∃ t : Chip, Effect (.burstIssue ch n { damage := .refreshBalance c }) s t ∧ t.ddr c = { s.chip.ddr c with balance := -4 } ∧ (∀ j : Nat, j ≠ c → t.ddr j = s.chip.ddr j) ∧ t.sticky 110 = true ∧ Frame [.dram, .fault, .heads, .field] t s.chip)
  ∧ (∀ (s : State) (ch : Fin 64) (n : Nat) (c : Fin 8) (b : BitVec 20),
      (s.chip.hchan ch).current = none
      → ∃ t : Chip, Effect (.burstIssue ch n { damage := .blockRecord c b }) s t ∧ t.sticky 110 = true ∧ Frame [.fault, .heads, .field] t s.chip)
  ∧ (∀ (s : State) (ch : Fin 64) (n : Nat),
      (s.chip.hchan ch).current = none
      → ∃ t : Chip, Effect (.burstIssue ch n { damage := .filterWord }) s t ∧ t.integ = { s.chip.integ with sfCorrected := s.chip.integ.sfCorrected + 1 } ∧ Frame [.integ] t s.chip)
  ∧ (∀ (s : State) (ch : Fin 64) (n : Nat) (dla : BitVec 46),
      (s.chip.hchan ch).current = none
      → s.chip.domainsInSet (lineNo dla.toNat) = []
      → ∃ t : Chip, Effect (.burstIssue ch n { damage := .filterEntry dla }) s t ∧ t.sticky 66 = true ∧ Frame [.fault, .heads, .field] t s.chip)
  ∧ (∀ (s : State) (ch : Fin 64) (n : Nat) (dla : BitVec 46),
      (((s.chip.domainsInSet (lineNo dla.toNat)).foldl (fun c d => c.recallDomain d false) (s.chip.raise 66)).hchan ch).current = none
      → Effect (.burstIssue ch n { damage := .filterEntry dla }) s ((s.chip.domainsInSet (lineNo dla.toNat)).foldl (fun c d => c.recallDomain d false) (s.chip.raise 66)))
  ∧ (∀ (s : State) (ch : Fin 64) (n : Nat) (q : Fin 1048576) (x y : QState),
      (s.chip.hchan ch).current = none
      → s.chip.queue q = some x
      → x.cached = true
      → x.fault = false
      → x.dirty = false
      → s.chip.readEntry q = some y
      → ∃ t : Chip, Effect (.burstIssue ch n { damage := .queueState q }) s t ∧ t.queue q = some { y with lru := x.lru } ∧ (∀ j : Nat, j ≠ q → t.queue j = s.chip.queue j) ∧ t.hop.chans = s.chip.hop.chans
        ∧ t.integ = { s.chip.integ with parityClean := s.chip.integ.parityClean + 1 } ∧ t.sticky 128 = true ∧ Frame [.hop, .integ, .fault, .heads, .field] t s.chip)
  ∧ (∀ (s : State) (ch : Fin 64) (n : Nat) (q : Fin 1048576) (x : QState),
      (s.chip.hchan ch).current = none
      → s.chip.queue q = some x
      → x.cached = true
      → x.fault = false
      → x.dirty = true
      → ∃ t : Chip, Effect (.burstIssue ch n { damage := .queueState q }) s t ∧ t.queue q = some { x with fault := true, cached := true } ∧ (∀ j : Nat, j ≠ q → t.queue j = s.chip.queue j)
        ∧ (∀ c : Nat, (c, s.chip.hchan c) ∈ s.chip.hop.chans → (s.chip.hchan c).st ≠ .off → (s.chip.hchan c).queue = q → (t.hchan c).st = .error ∧ (t.hchan c).reason = 0x33)
        ∧ t.integ.parityDirty = s.chip.integ.parityDirty + 1 ∧ t.sticky 129 = true ∧ Frame [.hop, .integ, .fault, .heads, .field] t s.chip)
  ∧ (∀ (s : State) (ch : Fin 64) (n : Nat) (c : Fin 64),
      (s.chip.hchan ch).current = none
      → ∃ t : Chip, Effect (.burstIssue ch n { damage := .context c }) s t ∧ t.hchan c = { s.chip.hchan c with st := .error, reason := 0x34, stopAddr := 0, tc := s.chip.tcRec, epoch := s.chip.tb.epoch }
        ∧ (∀ j : Nat, j ≠ c → t.hchan j = s.chip.hchan j) ∧ t.integ.parityDirty = s.chip.integ.parityDirty + 1 ∧ t.sticky 129 = true
        ∧ Frame [.hop, .integ, .fault, .heads, .field] t s.chip)
  ∧ (∀ (s : State) (ch : Fin 64) (n : Nat) (k : BitVec 16) (m : BitVec 8),
      (s.chip.hchan ch).current = none
      → ∃ t : Chip, Effect (.burstIssue ch n { damage := .rights k m }) s t ∧ (isEngine m.toNat = false → t.rightDamaged k.toNat m.toNat = true ∧ ∀ b : Nat, t.may k.toNat m.toNat b = false)
        ∧ (∀ e, e ∈ s.chip.accBad → e ∈ t.accBad) ∧ Frame [.accBad] t s.chip)
  ∧ (∀ (s : State) (ch : Fin 64) (n : Nat) (i : Fin 3) (x : BitVec 256),
      (s.chip.hchan ch).current = none
      → ∃ t : Chip, Effect (.burstIssue ch n { damage := .hbmKey i x }) s t ∧ Tab.get 0 t.husk.hbmOff i = Tab.get 0 s.chip.husk.hbmOff i ^^^ x ∧ (∀ j : Nat, j ≠ i → Tab.get 0 t.husk.hbmOff j = Tab.get 0 s.chip.husk.hbmOff j) ∧ Frame [.husk] t s.chip)
  ∧ (∀ (s : State) (ch : Fin 64) (n : Nat) (dir : Bool) (page : BitVec 34) (copies : BitVec 5) (r : Nat),
      (s.chip.hchan ch).current = none
      → r = (if dir then dirRecNo (page.toNat / 512) else page.toNat)
      → ∃ t : Chip, Effect (.burstIssue ch n { damage := .record dir page copies }) s t ∧ Tab.get 0 t.map.badRecs r = Tab.get 0 s.chip.map.badRecs r ||| copies.toNat ∧ (∀ j : Nat, j ≠ r → Tab.get 0 t.map.badRecs j = Tab.get 0 s.chip.map.badRecs j)
        ∧ t.map.pages = s.chip.map.pages ∧ Frame [.map] t s.chip)

/-- Every command of the table answers a next state in every state, but for a vendor code of the TAP before closure -/
def Obligations.EveryCommandCompletes : Prop :=
  (∀ (i : Instr) (s : State),
      (∀ code : BitVec 8, i = .bypass code → privateCode code = false ∨ s.chip.husk.debugClosed = true ∨ s.chip.mode.railsUp = false)
      → ∃ t : State, exec i s = .next t ∧ t.pending = s.pending)
  ∧ (∀ (code : BitVec 8) (s : State),
      privateCode code = true
      → s.chip.husk.debugClosed = false
      → s.chip.mode.railsUp = true
      → exec (.bypass code) s = .refused .privateTapInstruction)
end

