-- ==== Sys2Proof/Laws/Tab.lean ====
section
/-!
SUPPORT. Laws/Tab.lean: reading after writing a table, and that every table operation keeps the canonical form.
-/
namespace Sys2Proof.Machine

variable {α : Type}

/-- Every key of the table is above `k`. -/
def Tab.above (k : Nat) (t : Tab α) : Prop := ∀ e ∈ t, k < e.1

theorem Tab.rising_iff (t : Tab α) : Tab.rising t = true ↔ t.Pairwise (fun a b => a.1 < b.1) := by
  induction t with
  | nil => simp [Tab.rising]
  | cons a r ih =>
    cases r with
    | nil => simp [Tab.rising]
    | cons b r =>
      simp only [Tab.rising, Bool.and_eq_true, decide_eq_true_eq, ih]
      constructor
      · rintro ⟨h, hp⟩
        refine List.pairwise_cons.mpr ⟨fun c hc => ?_, hp⟩
        rcases List.mem_cons.mp hc with rfl | hc
        · exact h
        · exact h.trans ((List.pairwise_cons.mp hp).1 c hc)
      · intro hp
        obtain ⟨h, hp⟩ := List.pairwise_cons.mp hp
        exact ⟨h b (by simp), hp⟩

theorem Tab.find_set_same (t : Tab α) (k : Nat) (v : α) : Tab.find (Tab.set t k v) k = some v := by
  induction t with
  | nil => simp [Tab.set, Tab.find]
  | cons a r ih =>
    obtain ⟨k', v'⟩ := a
    simp only [Tab.set]
    split
    · simp [Tab.find]
    · next h =>
      split
      · simp [Tab.find]
      · simp [Tab.find, h, ih]

theorem Tab.find_set_other (t : Tab α) {k j : Nat} (v : α) (h : j ≠ k) : Tab.find (Tab.set t k v) j = Tab.find t j := by
  have hk : ¬ k = j := fun e => h e.symm
  induction t with
  | nil => simp [Tab.set, Tab.find, hk]
  | cons a r ih =>
    obtain ⟨k', v'⟩ := a
    simp only [Tab.set]
    split
    · next e => subst e; simp [Tab.find, hk]
    · split
      · simp [Tab.find, hk]
      · simp [Tab.find, ih]

theorem Tab.find_del_same (t : Tab α) (k : Nat) : Tab.find (Tab.del t k) k = none := by
  induction t with
  | nil => simp [Tab.del, Tab.find]
  | cons a r ih =>
    obtain ⟨k', v'⟩ := a
    by_cases h : k' = k
    · simpa [Tab.del, h] using ih
    · simp only [Tab.del] at ih
      simp [Tab.del, h, Tab.find, ih]

theorem Tab.find_del_other (t : Tab α) {k j : Nat} (h : j ≠ k) : Tab.find (Tab.del t k) j = Tab.find t j := by
  induction t with
  | nil => simp [Tab.del, Tab.find]
  | cons a r ih =>
    obtain ⟨k', v'⟩ := a
    simp only [Tab.del] at ih ⊢
    by_cases e : k' = k
    · have kj : ¬ k = j := fun x => h x.symm
      simp [e, Tab.find, ih, kj]
    · simp [e, Tab.find, ih]

@[simp] theorem Tab.get_put_same [DecidableEq α] (d : α) (t : Tab α) (k : Nat) (v : α) :
    Tab.get d (Tab.put d t k v) k = v := by
  by_cases h : v = d <;> simp [Tab.get, Tab.put, h, Tab.find_set_same, Tab.find_del_same]

theorem Tab.get_put_other [DecidableEq α] (d : α) (t : Tab α) {k j : Nat} (v : α) (h : j ≠ k) :
    Tab.get d (Tab.put d t k v) j = Tab.get d t j := by
  by_cases e : v = d <;> simp [Tab.get, Tab.put, e, Tab.find_set_other _ _ h, Tab.find_del_other _ h]

theorem Tab.get_put [DecidableEq α] (d : α) (t : Tab α) (k j : Nat) (v : α) :
    Tab.get d (Tab.put d t k v) j = if j = k then v else Tab.get d t j := by
  split
  · next h => subst h; simp
  · next h => exact Tab.get_put_other d t v h

@[simp] theorem Tab.get_upd_same [DecidableEq α] (d : α) (t : Tab α) (k : Nat) (f : α → α) :
    Tab.get d (Tab.upd d t k f) k = f (Tab.get d t k) := by simp [Tab.upd]

theorem Tab.mem_set {t : Tab α} {k : Nat} {v : α} {e : Nat × α} (h : e ∈ Tab.set t k v) : e = (k, v) ∨ e ∈ t := by
  induction t with
  | nil => simpa [Tab.set] using h
  | cons a r ih =>
    obtain ⟨k', v'⟩ := a
    simp only [Tab.set] at h
    split at h
    · rcases List.mem_cons.mp h with h | h
      · exact .inl h
      · exact .inr (List.mem_cons_of_mem _ h)
    · split at h
      · rcases List.mem_cons.mp h with h | h
        · exact .inl h
        · exact .inr h
      · rcases List.mem_cons.mp h with h | h
        · exact .inr (h ▸ List.mem_cons_self)
        · exact (ih h).imp id (List.mem_cons_of_mem _)

theorem Tab.pairwise_set {t : Tab α} (k : Nat) (v : α) (h : t.Pairwise (fun a b => a.1 < b.1)) :
    (Tab.set t k v).Pairwise (fun a b => a.1 < b.1) := by
  induction t with
  | nil => simp [Tab.set]
  | cons a r ih =>
    obtain ⟨k', v'⟩ := a
    obtain ⟨hr, hp⟩ := List.pairwise_cons.mp h
    simp only [Tab.set]
    split
    · next e => subst e; exact List.pairwise_cons.mpr ⟨hr, hp⟩
    · next ne =>
      split
      · next lt =>
        refine List.pairwise_cons.mpr ⟨fun e he => ?_, h⟩
        rcases List.mem_cons.mp he with rfl | he
        · exact lt
        · exact lt.trans (hr e he)
      · next nlt =>
        refine List.pairwise_cons.mpr ⟨fun e he => ?_, ih hp⟩
        rcases Tab.mem_set he with rfl | he
        · show k' < k
          omega
        · exact hr e he

theorem Tab.pairwise_del {t : Tab α} (k : Nat) (h : t.Pairwise (fun a b => a.1 < b.1)) :
    (Tab.del t k).Pairwise (fun a b => a.1 < b.1) := h.filter _

/-- A write keeps the canonical form. -/
theorem Tab.put_wf [DecidableEq α] (d : α) (t : Tab α) (k : Nat) (v : α) (h : Tab.wf d t = true) :
    Tab.wf d (Tab.put d t k v) = true := by
  simp only [Tab.wf, Bool.and_eq_true, Tab.rising_iff, List.all_eq_true, decide_eq_true_eq] at h ⊢
  obtain ⟨hp, hd⟩ := h
  by_cases e : v = d
  · simp only [Tab.put, if_pos e]
    exact ⟨Tab.pairwise_del k hp, fun x hx => hd x (List.mem_filter.mp hx).1⟩
  · simp only [Tab.put, if_neg e]
    refine ⟨Tab.pairwise_set k v hp, fun x hx => ?_⟩
    rcases Tab.mem_set hx with rfl | hx
    · exact e
    · exact hd x hx

theorem Tab.upd_wf [DecidableEq α] (d : α) (t : Tab α) (k : Nat) (f : α → α) (h : Tab.wf d t = true) :
    Tab.wf d (Tab.upd d t k f) = true := Tab.put_wf d t k _ h

/-- Writing bytes keeps memory's canonical form. -/
theorem Mem.write_wf (m : Tab Byte) (a : Nat) (bs : List (Option Byte)) (h : Tab.wf 0 m = true) :
    Tab.wf 0 (Mem.write m a bs) = true := by
  induction bs generalizing m a with
  | nil => exact h
  | cons b r ih => cases b with
    | none => exact ih m (a + 1) h
    | some b => exact ih _ (a + 1) (Tab.put_wf 0 m a b h)

/-- Writing a line keeps memory's canonical form. -/
theorem Mem.writeLine_wf (m : Tab Byte) (a : Nat) (mask : BitVec 64) (data : Line) (h : Tab.wf 0 m = true) :
    Tab.wf 0 (Mem.writeLine m a mask data) = true := Mem.write_wf m a _ h

/-- A byte outside the bytes written reads as before. -/
theorem Mem.write_other (m : Tab Byte) (a : Nat) (bs : List (Option Byte)) (x : Nat) (h : x < a ∨ a + bs.length ≤ x) :
    Tab.get 0 (Mem.write m a bs) x = Tab.get 0 m x := by
  induction bs generalizing m a with
  | nil => rfl
  | cons b r ih =>
    simp only [List.length_cons] at h
    cases b with
    | none => exact ih m (a + 1) (by omega)
    | some b =>
      rw [Mem.write, ih _ (a + 1) (by omega)]
      exact Tab.get_put_other 0 m b (by omega)

/-- A byte of the bytes written reads as written, or as before where it was masked. -/
theorem Mem.write_at (m : Tab Byte) (a : Nat) (bs : List (Option Byte)) (i : Nat) (h : i < bs.length) :
    Tab.get 0 (Mem.write m a bs) (a + i) = (bs[i]).getD (Tab.get 0 m (a + i)) := by
  induction bs generalizing m a i with
  | nil => simp at h
  | cons b r ih =>
    cases i with
    | zero =>
      cases b with
      | none =>
        show Tab.get 0 (Mem.write m (a + 1) r) a = Tab.get 0 m a
        exact Mem.write_other m (a + 1) r a (by omega)
      | some b =>
        show Tab.get 0 (Mem.write (Tab.put 0 m a b) (a + 1) r) a = b
        rw [Mem.write_other _ (a + 1) r a (by omega), Tab.get_put_same]
    | succ i =>
      have h' : i < r.length := by simpa using h
      have e : a + (i + 1) = (a + 1) + i := by omega
      cases b with
      | none => rw [e]; exact ih m (a + 1) i h'
      | some b =>
        rw [e]
        show Tab.get 0 (Mem.write (Tab.put 0 m a b) (a + 1) r) (a + 1 + i) = _
        rw [ih _ (a + 1) i h', Tab.get_put_other 0 m b (by omega)]
        rfl

theorem maskedBytes_length (data : Line) (mask : BitVec 64) (n i : Nat) : (maskedBytes data mask n i).length = n := by
  induction n generalizing i with
  | zero => rfl
  | succ n ih => simp [maskedBytes, ih]

/-- A byte outside the line written reads as before. -/
theorem Mem.writeLine_other (m : Tab Byte) (a : Nat) (mask : BitVec 64) (data : Line) (x : Nat) (h : x < a ∨ a + 64 ≤ x) :
    Tab.get 0 (Mem.writeLine m a mask data) x = Tab.get 0 m x :=
  Mem.write_other m a _ x (by simpa [maskedBytes_length] using h)

/-- Bytes in memory that spell a number little-endian read as it (R2). -/
theorem Mem.natLE_read (m : Tab Byte) (n : Nat) : ∀ (a v : Nat), (∀ i, i < n → (Tab.get 0 m (a + i)).toNat = v / 256 ^ i % 256) →
    natLE (Mem.read m a n) = v % 256 ^ n := by
  induction n with
  | zero => intro a v _; simp [Mem.read, natLE, Nat.mod_one]
  | succ n ih =>
    intro a v h
    have h0 := h 0 (by omega)
    have hr := ih (a + 1) (v / 256) (fun i hi => by
      have := h (i + 1) (by omega)
      rw [show a + 1 + i = a + (i + 1) by omega, this, Nat.pow_succ, Nat.mul_comm, ← Nat.div_div_eq_div_mul])
    simp only [Nat.add_zero, Nat.pow_zero, Nat.div_one] at h0
    rw [Mem.read, natLE, h0, hr, Nat.pow_succ, Nat.mul_comm (256 ^ n) 256, Nat.mod_mul]

/-- Byte `i` of the masked bytes of a line. -/
theorem maskedBytes_get (data : Line) (mask : BitVec 64) (n k i : Nat) (h : i < (maskedBytes data mask n k).length) :
    (maskedBytes data mask n k)[i] = if mask.getLsbD (k + i) then some (lineByte data (k + i)) else none := by
  induction n generalizing k i with
  | zero => simp [maskedBytes] at h
  | succ n ih =>
    cases i with
    | zero => simp [maskedBytes]
    | succ i =>
      have h' : i < (maskedBytes data mask n (k + 1)).length := by simpa [maskedBytes] using h
      have e := ih (k + 1) i h'
      rw [show k + 1 + i = k + (i + 1) by omega] at e
      simpa [maskedBytes] using e

/-- A byte of the line written reads as the line's byte, where the mask takes it, and as before where it does not. -/
theorem Mem.writeLine_at (m : Tab Byte) (a : Nat) (mask : BitVec 64) (data : Line) (i : Nat) (h : i < 64) :
    Tab.get 0 (Mem.writeLine m a mask data) (a + i) = if mask.getLsbD i then lineByte data i else Tab.get 0 m (a + i) := by
  have l : i < (maskedBytes data mask 64 0).length := by simpa [maskedBytes_length] using h
  rw [Mem.writeLine, Mem.write_at m a _ i l, maskedBytes_get data mask 64 0 i l, Nat.zero_add]
  split <;> rfl

/-- A line written whole reads back. -/
theorem Mem.line_writeLine (m : Tab Byte) (a : Nat) (data : Line) : Mem.line (Mem.writeLine m a (BitVec.allOnes 64) data) a = data := by
  have e : natLE (Mem.read (Mem.writeLine m a (BitVec.allOnes 64) data) a 64) = data.toNat % 256 ^ 64 := by
    refine Mem.natLE_read _ 64 a data.toNat (fun i hi => ?_)
    rw [Mem.writeLine_at m a _ data i hi, if_pos (by rw [BitVec.getLsbD_allOnes]; exact decide_eq_true hi)]
    simp [lineByte, Nat.shiftRight_eq_div_pow, show (256 : Nat) ^ i = 2 ^ (8 * i) by rw [Nat.pow_mul]]
  have lt := data.isLt
  unfold Mem.line
  rw [e, Nat.mod_eq_of_lt (by norm_num; omega)]
  simp

theorem Tab.find_mem {t : Tab α} {k : Nat} {v : α} (h : Tab.find t k = some v) : (k, v) ∈ t := by
  induction t with
  | nil => simp [Tab.find] at h
  | cons a r ih =>
    obtain ⟨j, w⟩ := a
    simp only [Tab.find] at h
    split at h
    · next e => cases h; simp [e]
    · exact List.mem_cons_of_mem _ (ih h)

/-- Keeping only the entries whose keys qualify. -/
theorem Tab.find_filter (t : Tab α) (f : Nat → Bool) (k : Nat) :
    Tab.find (t.filter (fun e => f e.1)) k = if f k then Tab.find t k else none := by
  induction t with
  | nil => simp [Tab.find]
  | cons a r ih =>
    obtain ⟨j, v⟩ := a
    by_cases hj : f j = true
    · simp only [List.filter_cons, hj, if_true, Tab.find]
      by_cases e : j = k
      · subst e; simp [hj]
      · simp [e, ih]
    · simp only [List.filter_cons, hj, Bool.false_eq_true, if_false, Tab.find, ih]
      by_cases e : j = k
      · subst e; simp [hj]
      · simp [e]

theorem Tab.get_filter (d : α) (t : Tab α) (f : Nat → Bool) (k : Nat) :
    Tab.get d (t.filter (fun e => f e.1)) k = if f k then Tab.get d t k else d := by
  unfold Tab.get
  rw [Tab.find_filter]
  split <;> rfl

theorem Tab.find_del (t : Tab α) (k j : Nat) : Tab.find (Tab.del t k) j = if j = k then none else Tab.find t j := by
  split
  · next h => subst h; exact Tab.find_del_same t j
  · next h => exact Tab.find_del_other t h

/-- A key has a value where a pair of the table has it. -/
theorem Tab.find_isSome (t : Tab α) (k : Nat) : (∃ a ∈ t, a.1 = k) ↔ (Tab.find t k).isSome = true := by
  induction t with
  | nil => simp [Tab.find]
  | cons a t ih =>
    obtain ⟨j, v⟩ := a
    by_cases h : j = k
    · simp [Tab.find, h]
    · simp [Tab.find, h, ← ih]

end Sys2Proof.Machine
end

