-- ==== Sys2Proof/Laws/State.lean ====
section
/-!
SUPPORT. Laws/State.lean: what each update of the device leaves as it was, field by field, and what a record reads as after an update.
-/
namespace Sys2Proof.Machine

/-! ### One update changes one field -/

/-- A head is replaced: nothing else changes. -/
@[simp] theorem Chip.setHead_frame (s : Chip) (h : Nat) (x : Head) :
    (s.setHead h x).tb = s.tb
    ∧ (s.setHead h x).win = s.win
    ∧ (s.setHead h x).rw = s.rw
    ∧ (s.setHead h x).rwp = s.rwp
    ∧ (s.setHead h x).accBad = s.accBad
    ∧ (s.setHead h x).fault = s.fault
    ∧ (s.setHead h x).cnt = s.cnt
    ∧ (s.setHead h x).bifur = s.bifur
    ∧ (s.setHead h x).map = s.map
    ∧ (s.setHead h x).mem = s.mem
    ∧ (s.setHead h x).poison = s.poison
    ∧ (s.setHead h x).macs = s.macs
    ∧ (s.setHead h x).waits = s.waits
    ∧ (s.setHead h x).casks = s.casks
    ∧ (s.setHead h x).coh = s.coh
    ∧ (s.setHead h x).lauter = s.lauter
    ∧ (s.setHead h x).mill = s.mill
    ∧ (s.setHead h x).husk = s.husk
    ∧ (s.setHead h x).cache = s.cache
    ∧ (s.setHead h x).dram = s.dram
    ∧ (s.setHead h x).kiln = s.kiln
    ∧ (s.setHead h x).integ = s.integ
    ∧ (s.setHead h x).links = s.links
    ∧ (s.setHead h x).hop = s.hop
    ∧ (s.setHead h x).fold = s.fold
    ∧ (s.setHead h x).dict = s.dict
    ∧ (s.setHead h x).field = s.field
    ∧ (s.setHead h x).sb = s.sb
    ∧ (s.setHead h x).power = s.power
    ∧ (s.setHead h x).mode = s.mode
    ∧ (s.setHead h x).pkg = s.pkg
    ∧ (s.setHead h x).free = s.free := by
  and_intros <;> rfl

/-- A link is replaced: nothing else changes. -/
@[simp] theorem Chip.setLink_frame (s : Chip) (l : Nat) (x : Link) :
    (s.setLink l x).tb = s.tb
    ∧ (s.setLink l x).win = s.win
    ∧ (s.setLink l x).rw = s.rw
    ∧ (s.setLink l x).rwp = s.rwp
    ∧ (s.setLink l x).accBad = s.accBad
    ∧ (s.setLink l x).fault = s.fault
    ∧ (s.setLink l x).cnt = s.cnt
    ∧ (s.setLink l x).heads = s.heads
    ∧ (s.setLink l x).bifur = s.bifur
    ∧ (s.setLink l x).map = s.map
    ∧ (s.setLink l x).mem = s.mem
    ∧ (s.setLink l x).poison = s.poison
    ∧ (s.setLink l x).macs = s.macs
    ∧ (s.setLink l x).waits = s.waits
    ∧ (s.setLink l x).casks = s.casks
    ∧ (s.setLink l x).coh = s.coh
    ∧ (s.setLink l x).lauter = s.lauter
    ∧ (s.setLink l x).mill = s.mill
    ∧ (s.setLink l x).husk = s.husk
    ∧ (s.setLink l x).cache = s.cache
    ∧ (s.setLink l x).dram = s.dram
    ∧ (s.setLink l x).kiln = s.kiln
    ∧ (s.setLink l x).integ = s.integ
    ∧ (s.setLink l x).hop = s.hop
    ∧ (s.setLink l x).fold = s.fold
    ∧ (s.setLink l x).dict = s.dict
    ∧ (s.setLink l x).field = s.field
    ∧ (s.setLink l x).sb = s.sb
    ∧ (s.setLink l x).power = s.power
    ∧ (s.setLink l x).mode = s.mode
    ∧ (s.setLink l x).pkg = s.pkg
    ∧ (s.setLink l x).free = s.free := by
  and_intros <;> rfl

/-- A cask slot is replaced: nothing else changes. -/
@[simp] theorem Chip.setCask_frame (s : Chip) (c : Nat) (x : Cask) :
    (s.setCask c x).tb = s.tb
    ∧ (s.setCask c x).win = s.win
    ∧ (s.setCask c x).rw = s.rw
    ∧ (s.setCask c x).rwp = s.rwp
    ∧ (s.setCask c x).accBad = s.accBad
    ∧ (s.setCask c x).fault = s.fault
    ∧ (s.setCask c x).cnt = s.cnt
    ∧ (s.setCask c x).heads = s.heads
    ∧ (s.setCask c x).bifur = s.bifur
    ∧ (s.setCask c x).map = s.map
    ∧ (s.setCask c x).mem = s.mem
    ∧ (s.setCask c x).poison = s.poison
    ∧ (s.setCask c x).macs = s.macs
    ∧ (s.setCask c x).waits = s.waits
    ∧ (s.setCask c x).coh = s.coh
    ∧ (s.setCask c x).lauter = s.lauter
    ∧ (s.setCask c x).mill = s.mill
    ∧ (s.setCask c x).husk = s.husk
    ∧ (s.setCask c x).cache = s.cache
    ∧ (s.setCask c x).dram = s.dram
    ∧ (s.setCask c x).kiln = s.kiln
    ∧ (s.setCask c x).integ = s.integ
    ∧ (s.setCask c x).links = s.links
    ∧ (s.setCask c x).hop = s.hop
    ∧ (s.setCask c x).fold = s.fold
    ∧ (s.setCask c x).dict = s.dict
    ∧ (s.setCask c x).field = s.field
    ∧ (s.setCask c x).sb = s.sb
    ∧ (s.setCask c x).power = s.power
    ∧ (s.setCask c x).mode = s.mode
    ∧ (s.setCask c x).pkg = s.pkg
    ∧ (s.setCask c x).free = s.free := by
  and_intros <;> rfl

/-- A DDR5 channel is replaced: no other block changes. -/
@[simp] theorem Chip.setDdr_frame (s : Chip) (n : Nat) (x : DdrChan) :
    (s.setDdr n x).tb = s.tb
    ∧ (s.setDdr n x).win = s.win
    ∧ (s.setDdr n x).rw = s.rw
    ∧ (s.setDdr n x).rwp = s.rwp
    ∧ (s.setDdr n x).accBad = s.accBad
    ∧ (s.setDdr n x).fault = s.fault
    ∧ (s.setDdr n x).cnt = s.cnt
    ∧ (s.setDdr n x).heads = s.heads
    ∧ (s.setDdr n x).bifur = s.bifur
    ∧ (s.setDdr n x).map = s.map
    ∧ (s.setDdr n x).mem = s.mem
    ∧ (s.setDdr n x).poison = s.poison
    ∧ (s.setDdr n x).macs = s.macs
    ∧ (s.setDdr n x).waits = s.waits
    ∧ (s.setDdr n x).casks = s.casks
    ∧ (s.setDdr n x).coh = s.coh
    ∧ (s.setDdr n x).lauter = s.lauter
    ∧ (s.setDdr n x).mill = s.mill
    ∧ (s.setDdr n x).husk = s.husk
    ∧ (s.setDdr n x).cache = s.cache
    ∧ (s.setDdr n x).kiln = s.kiln
    ∧ (s.setDdr n x).integ = s.integ
    ∧ (s.setDdr n x).links = s.links
    ∧ (s.setDdr n x).hop = s.hop
    ∧ (s.setDdr n x).fold = s.fold
    ∧ (s.setDdr n x).dict = s.dict
    ∧ (s.setDdr n x).field = s.field
    ∧ (s.setDdr n x).sb = s.sb
    ∧ (s.setDdr n x).power = s.power
    ∧ (s.setDdr n x).mode = s.mode
    ∧ (s.setDdr n x).pkg = s.pkg
    ∧ (s.setDdr n x).free = s.free := by
  and_intros <;> rfl

/-- An NVM channel is replaced: no other block changes. -/
@[simp] theorem Chip.setNvm_frame (s : Chip) (n : Nat) (x : NvmChan) :
    (s.setNvm n x).tb = s.tb
    ∧ (s.setNvm n x).win = s.win
    ∧ (s.setNvm n x).rw = s.rw
    ∧ (s.setNvm n x).rwp = s.rwp
    ∧ (s.setNvm n x).accBad = s.accBad
    ∧ (s.setNvm n x).fault = s.fault
    ∧ (s.setNvm n x).cnt = s.cnt
    ∧ (s.setNvm n x).heads = s.heads
    ∧ (s.setNvm n x).bifur = s.bifur
    ∧ (s.setNvm n x).map = s.map
    ∧ (s.setNvm n x).mem = s.mem
    ∧ (s.setNvm n x).poison = s.poison
    ∧ (s.setNvm n x).macs = s.macs
    ∧ (s.setNvm n x).waits = s.waits
    ∧ (s.setNvm n x).casks = s.casks
    ∧ (s.setNvm n x).coh = s.coh
    ∧ (s.setNvm n x).lauter = s.lauter
    ∧ (s.setNvm n x).mill = s.mill
    ∧ (s.setNvm n x).husk = s.husk
    ∧ (s.setNvm n x).cache = s.cache
    ∧ (s.setNvm n x).dram = s.dram
    ∧ (s.setNvm n x).integ = s.integ
    ∧ (s.setNvm n x).links = s.links
    ∧ (s.setNvm n x).hop = s.hop
    ∧ (s.setNvm n x).fold = s.fold
    ∧ (s.setNvm n x).dict = s.dict
    ∧ (s.setNvm n x).field = s.field
    ∧ (s.setNvm n x).sb = s.sb
    ∧ (s.setNvm n x).power = s.power
    ∧ (s.setNvm n x).mode = s.mode
    ∧ (s.setNvm n x).pkg = s.pkg
    ∧ (s.setNvm n x).free = s.free := by
  and_intros <;> rfl

/-- A channel state is set: no other block changes. -/
@[simp] theorem Chip.setChanState_frame (s : Chip) (n : Nat) (x : ChanState) :
    (s.setChanState n x).tb = s.tb
    ∧ (s.setChanState n x).win = s.win
    ∧ (s.setChanState n x).rw = s.rw
    ∧ (s.setChanState n x).rwp = s.rwp
    ∧ (s.setChanState n x).accBad = s.accBad
    ∧ (s.setChanState n x).fault = s.fault
    ∧ (s.setChanState n x).cnt = s.cnt
    ∧ (s.setChanState n x).heads = s.heads
    ∧ (s.setChanState n x).bifur = s.bifur
    ∧ (s.setChanState n x).map = s.map
    ∧ (s.setChanState n x).mem = s.mem
    ∧ (s.setChanState n x).poison = s.poison
    ∧ (s.setChanState n x).macs = s.macs
    ∧ (s.setChanState n x).waits = s.waits
    ∧ (s.setChanState n x).casks = s.casks
    ∧ (s.setChanState n x).coh = s.coh
    ∧ (s.setChanState n x).mill = s.mill
    ∧ (s.setChanState n x).husk = s.husk
    ∧ (s.setChanState n x).cache = s.cache
    ∧ (s.setChanState n x).dram = s.dram
    ∧ (s.setChanState n x).kiln = s.kiln
    ∧ (s.setChanState n x).integ = s.integ
    ∧ (s.setChanState n x).links = s.links
    ∧ (s.setChanState n x).hop = s.hop
    ∧ (s.setChanState n x).fold = s.fold
    ∧ (s.setChanState n x).dict = s.dict
    ∧ (s.setChanState n x).field = s.field
    ∧ (s.setChanState n x).sb = s.sb
    ∧ (s.setChanState n x).power = s.power
    ∧ (s.setChanState n x).mode = s.mode
    ∧ (s.setChanState n x).pkg = s.pkg
    ∧ (s.setChanState n x).free = s.free := by
  and_intros <;> rfl

/-- A Hopper channel is replaced: no other block changes. -/
@[simp] theorem Chip.setHchan_frame (s : Chip) (c : Nat) (x : HopChan) :
    (s.setHchan c x).tb = s.tb
    ∧ (s.setHchan c x).win = s.win
    ∧ (s.setHchan c x).rw = s.rw
    ∧ (s.setHchan c x).rwp = s.rwp
    ∧ (s.setHchan c x).accBad = s.accBad
    ∧ (s.setHchan c x).fault = s.fault
    ∧ (s.setHchan c x).cnt = s.cnt
    ∧ (s.setHchan c x).heads = s.heads
    ∧ (s.setHchan c x).bifur = s.bifur
    ∧ (s.setHchan c x).map = s.map
    ∧ (s.setHchan c x).mem = s.mem
    ∧ (s.setHchan c x).poison = s.poison
    ∧ (s.setHchan c x).macs = s.macs
    ∧ (s.setHchan c x).waits = s.waits
    ∧ (s.setHchan c x).casks = s.casks
    ∧ (s.setHchan c x).coh = s.coh
    ∧ (s.setHchan c x).lauter = s.lauter
    ∧ (s.setHchan c x).mill = s.mill
    ∧ (s.setHchan c x).husk = s.husk
    ∧ (s.setHchan c x).cache = s.cache
    ∧ (s.setHchan c x).dram = s.dram
    ∧ (s.setHchan c x).kiln = s.kiln
    ∧ (s.setHchan c x).integ = s.integ
    ∧ (s.setHchan c x).links = s.links
    ∧ (s.setHchan c x).fold = s.fold
    ∧ (s.setHchan c x).dict = s.dict
    ∧ (s.setHchan c x).field = s.field
    ∧ (s.setHchan c x).sb = s.sb
    ∧ (s.setHchan c x).power = s.power
    ∧ (s.setHchan c x).mode = s.mode
    ∧ (s.setHchan c x).pkg = s.pkg
    ∧ (s.setHchan c x).free = s.free := by
  and_intros <;> rfl

/-- A queue is replaced: no other block changes. -/
@[simp] theorem Chip.setQueue_frame (s : Chip) (q : Nat) (x : QState) :
    (s.setQueue q x).tb = s.tb
    ∧ (s.setQueue q x).win = s.win
    ∧ (s.setQueue q x).rw = s.rw
    ∧ (s.setQueue q x).rwp = s.rwp
    ∧ (s.setQueue q x).accBad = s.accBad
    ∧ (s.setQueue q x).fault = s.fault
    ∧ (s.setQueue q x).cnt = s.cnt
    ∧ (s.setQueue q x).heads = s.heads
    ∧ (s.setQueue q x).bifur = s.bifur
    ∧ (s.setQueue q x).map = s.map
    ∧ (s.setQueue q x).mem = s.mem
    ∧ (s.setQueue q x).poison = s.poison
    ∧ (s.setQueue q x).macs = s.macs
    ∧ (s.setQueue q x).waits = s.waits
    ∧ (s.setQueue q x).casks = s.casks
    ∧ (s.setQueue q x).coh = s.coh
    ∧ (s.setQueue q x).lauter = s.lauter
    ∧ (s.setQueue q x).mill = s.mill
    ∧ (s.setQueue q x).husk = s.husk
    ∧ (s.setQueue q x).cache = s.cache
    ∧ (s.setQueue q x).dram = s.dram
    ∧ (s.setQueue q x).kiln = s.kiln
    ∧ (s.setQueue q x).integ = s.integ
    ∧ (s.setQueue q x).links = s.links
    ∧ (s.setQueue q x).fold = s.fold
    ∧ (s.setQueue q x).dict = s.dict
    ∧ (s.setQueue q x).field = s.field
    ∧ (s.setQueue q x).sb = s.sb
    ∧ (s.setQueue q x).power = s.power
    ∧ (s.setQueue q x).mode = s.mode
    ∧ (s.setQueue q x).pkg = s.pkg
    ∧ (s.setQueue q x).free = s.free := by
  and_intros <;> rfl

/-- A coherence domain is replaced: no other block changes. -/
@[simp] theorem Chip.setDom_frame (s : Chip) (d : Nat) (x : CohDomain) :
    (s.setDom d x).tb = s.tb
    ∧ (s.setDom d x).win = s.win
    ∧ (s.setDom d x).rw = s.rw
    ∧ (s.setDom d x).rwp = s.rwp
    ∧ (s.setDom d x).accBad = s.accBad
    ∧ (s.setDom d x).fault = s.fault
    ∧ (s.setDom d x).cnt = s.cnt
    ∧ (s.setDom d x).heads = s.heads
    ∧ (s.setDom d x).bifur = s.bifur
    ∧ (s.setDom d x).map = s.map
    ∧ (s.setDom d x).mem = s.mem
    ∧ (s.setDom d x).poison = s.poison
    ∧ (s.setDom d x).macs = s.macs
    ∧ (s.setDom d x).waits = s.waits
    ∧ (s.setDom d x).casks = s.casks
    ∧ (s.setDom d x).lauter = s.lauter
    ∧ (s.setDom d x).mill = s.mill
    ∧ (s.setDom d x).husk = s.husk
    ∧ (s.setDom d x).cache = s.cache
    ∧ (s.setDom d x).dram = s.dram
    ∧ (s.setDom d x).kiln = s.kiln
    ∧ (s.setDom d x).integ = s.integ
    ∧ (s.setDom d x).links = s.links
    ∧ (s.setDom d x).hop = s.hop
    ∧ (s.setDom d x).fold = s.fold
    ∧ (s.setDom d x).dict = s.dict
    ∧ (s.setDom d x).field = s.field
    ∧ (s.setDom d x).sb = s.sb
    ∧ (s.setDom d x).power = s.power
    ∧ (s.setDom d x).mode = s.mode
    ∧ (s.setDom d x).pkg = s.pkg
    ∧ (s.setDom d x).free = s.free := by
  and_intros <;> rfl

/-- A power domain is set: no other block changes. -/
@[simp] theorem Chip.setDomain_frame (s : Chip) (n : Nat) (x : DomPower) :
    (s.setDomain n x).tb = s.tb
    ∧ (s.setDomain n x).win = s.win
    ∧ (s.setDomain n x).rw = s.rw
    ∧ (s.setDomain n x).rwp = s.rwp
    ∧ (s.setDomain n x).accBad = s.accBad
    ∧ (s.setDomain n x).fault = s.fault
    ∧ (s.setDomain n x).cnt = s.cnt
    ∧ (s.setDomain n x).heads = s.heads
    ∧ (s.setDomain n x).bifur = s.bifur
    ∧ (s.setDomain n x).map = s.map
    ∧ (s.setDomain n x).mem = s.mem
    ∧ (s.setDomain n x).poison = s.poison
    ∧ (s.setDomain n x).macs = s.macs
    ∧ (s.setDomain n x).waits = s.waits
    ∧ (s.setDomain n x).casks = s.casks
    ∧ (s.setDomain n x).coh = s.coh
    ∧ (s.setDomain n x).lauter = s.lauter
    ∧ (s.setDomain n x).mill = s.mill
    ∧ (s.setDomain n x).husk = s.husk
    ∧ (s.setDomain n x).cache = s.cache
    ∧ (s.setDomain n x).dram = s.dram
    ∧ (s.setDomain n x).kiln = s.kiln
    ∧ (s.setDomain n x).integ = s.integ
    ∧ (s.setDomain n x).links = s.links
    ∧ (s.setDomain n x).hop = s.hop
    ∧ (s.setDomain n x).fold = s.fold
    ∧ (s.setDomain n x).dict = s.dict
    ∧ (s.setDomain n x).field = s.field
    ∧ (s.setDomain n x).sb = s.sb
    ∧ (s.setDomain n x).power = s.power
    ∧ (s.setDomain n x).pkg = s.pkg
    ∧ (s.setDomain n x).free = s.free := by
  and_intros <;> rfl

/-- A page record is written: no other block changes. -/
@[simp] theorem Chip.setPage_frame (s : Chip) (p : Nat) (r : PageRec) :
    (s.setPage p r).tb = s.tb
    ∧ (s.setPage p r).win = s.win
    ∧ (s.setPage p r).rw = s.rw
    ∧ (s.setPage p r).rwp = s.rwp
    ∧ (s.setPage p r).accBad = s.accBad
    ∧ (s.setPage p r).fault = s.fault
    ∧ (s.setPage p r).cnt = s.cnt
    ∧ (s.setPage p r).heads = s.heads
    ∧ (s.setPage p r).bifur = s.bifur
    ∧ (s.setPage p r).mem = s.mem
    ∧ (s.setPage p r).poison = s.poison
    ∧ (s.setPage p r).macs = s.macs
    ∧ (s.setPage p r).waits = s.waits
    ∧ (s.setPage p r).casks = s.casks
    ∧ (s.setPage p r).coh = s.coh
    ∧ (s.setPage p r).lauter = s.lauter
    ∧ (s.setPage p r).mill = s.mill
    ∧ (s.setPage p r).husk = s.husk
    ∧ (s.setPage p r).cache = s.cache
    ∧ (s.setPage p r).dram = s.dram
    ∧ (s.setPage p r).kiln = s.kiln
    ∧ (s.setPage p r).integ = s.integ
    ∧ (s.setPage p r).links = s.links
    ∧ (s.setPage p r).hop = s.hop
    ∧ (s.setPage p r).fold = s.fold
    ∧ (s.setPage p r).dict = s.dict
    ∧ (s.setPage p r).field = s.field
    ∧ (s.setPage p r).sb = s.sb
    ∧ (s.setPage p r).power = s.power
    ∧ (s.setPage p r).mode = s.mode
    ∧ (s.setPage p r).pkg = s.pkg
    ∧ (s.setPage p r).free = s.free := by
  and_intros <;> rfl

/-- An RW object is written: nothing else changes. -/
@[simp] theorem Chip.setRw_frame (s : Chip) (key v : Nat) :
    (s.setRw key v).tb = s.tb
    ∧ (s.setRw key v).win = s.win
    ∧ (s.setRw key v).rwp = s.rwp
    ∧ (s.setRw key v).accBad = s.accBad
    ∧ (s.setRw key v).fault = s.fault
    ∧ (s.setRw key v).cnt = s.cnt
    ∧ (s.setRw key v).heads = s.heads
    ∧ (s.setRw key v).bifur = s.bifur
    ∧ (s.setRw key v).map = s.map
    ∧ (s.setRw key v).mem = s.mem
    ∧ (s.setRw key v).poison = s.poison
    ∧ (s.setRw key v).macs = s.macs
    ∧ (s.setRw key v).waits = s.waits
    ∧ (s.setRw key v).casks = s.casks
    ∧ (s.setRw key v).coh = s.coh
    ∧ (s.setRw key v).lauter = s.lauter
    ∧ (s.setRw key v).mill = s.mill
    ∧ (s.setRw key v).husk = s.husk
    ∧ (s.setRw key v).cache = s.cache
    ∧ (s.setRw key v).dram = s.dram
    ∧ (s.setRw key v).kiln = s.kiln
    ∧ (s.setRw key v).integ = s.integ
    ∧ (s.setRw key v).links = s.links
    ∧ (s.setRw key v).hop = s.hop
    ∧ (s.setRw key v).fold = s.fold
    ∧ (s.setRw key v).dict = s.dict
    ∧ (s.setRw key v).field = s.field
    ∧ (s.setRw key v).sb = s.sb
    ∧ (s.setRw key v).power = s.power
    ∧ (s.setRw key v).mode = s.mode
    ∧ (s.setRw key v).pkg = s.pkg
    ∧ (s.setRw key v).free = s.free := by
  and_intros <;> rfl

/-- An RWP object is written: nothing else changes. -/
@[simp] theorem Chip.setRwp_frame (s : Chip) (key v : Nat) :
    (s.setRwp key v).tb = s.tb
    ∧ (s.setRwp key v).win = s.win
    ∧ (s.setRwp key v).rw = s.rw
    ∧ (s.setRwp key v).accBad = s.accBad
    ∧ (s.setRwp key v).fault = s.fault
    ∧ (s.setRwp key v).cnt = s.cnt
    ∧ (s.setRwp key v).heads = s.heads
    ∧ (s.setRwp key v).bifur = s.bifur
    ∧ (s.setRwp key v).map = s.map
    ∧ (s.setRwp key v).mem = s.mem
    ∧ (s.setRwp key v).poison = s.poison
    ∧ (s.setRwp key v).macs = s.macs
    ∧ (s.setRwp key v).waits = s.waits
    ∧ (s.setRwp key v).casks = s.casks
    ∧ (s.setRwp key v).coh = s.coh
    ∧ (s.setRwp key v).lauter = s.lauter
    ∧ (s.setRwp key v).mill = s.mill
    ∧ (s.setRwp key v).husk = s.husk
    ∧ (s.setRwp key v).cache = s.cache
    ∧ (s.setRwp key v).dram = s.dram
    ∧ (s.setRwp key v).kiln = s.kiln
    ∧ (s.setRwp key v).integ = s.integ
    ∧ (s.setRwp key v).links = s.links
    ∧ (s.setRwp key v).hop = s.hop
    ∧ (s.setRwp key v).fold = s.fold
    ∧ (s.setRwp key v).dict = s.dict
    ∧ (s.setRwp key v).field = s.field
    ∧ (s.setRwp key v).sb = s.sb
    ∧ (s.setRwp key v).power = s.power
    ∧ (s.setRwp key v).mode = s.mode
    ∧ (s.setRwp key v).pkg = s.pkg
    ∧ (s.setRwp key v).free = s.free := by
  and_intros <;> rfl

/-- A counter advances: no other block changes. -/
@[simp] theorem Chip.count_frame (s : Chip) (k n : Nat) :
    (s.count k n).tb = s.tb
    ∧ (s.count k n).win = s.win
    ∧ (s.count k n).rw = s.rw
    ∧ (s.count k n).rwp = s.rwp
    ∧ (s.count k n).accBad = s.accBad
    ∧ (s.count k n).fault = s.fault
    ∧ (s.count k n).heads = s.heads
    ∧ (s.count k n).bifur = s.bifur
    ∧ (s.count k n).map = s.map
    ∧ (s.count k n).mem = s.mem
    ∧ (s.count k n).poison = s.poison
    ∧ (s.count k n).macs = s.macs
    ∧ (s.count k n).waits = s.waits
    ∧ (s.count k n).casks = s.casks
    ∧ (s.count k n).coh = s.coh
    ∧ (s.count k n).lauter = s.lauter
    ∧ (s.count k n).mill = s.mill
    ∧ (s.count k n).husk = s.husk
    ∧ (s.count k n).cache = s.cache
    ∧ (s.count k n).dram = s.dram
    ∧ (s.count k n).kiln = s.kiln
    ∧ (s.count k n).integ = s.integ
    ∧ (s.count k n).links = s.links
    ∧ (s.count k n).hop = s.hop
    ∧ (s.count k n).fold = s.fold
    ∧ (s.count k n).dict = s.dict
    ∧ (s.count k n).field = s.field
    ∧ (s.count k n).sb = s.sb
    ∧ (s.count k n).power = s.power
    ∧ (s.count k n).mode = s.mode
    ∧ (s.count k n).pkg = s.pkg
    ∧ (s.count k n).free = s.free := by
  and_intros <;> rfl

/-- A head's counter advances: no other block changes. -/
@[simp] theorem Chip.countHead_frame (s : Chip) (h e n : Nat) :
    (s.countHead h e n).tb = s.tb
    ∧ (s.countHead h e n).win = s.win
    ∧ (s.countHead h e n).rw = s.rw
    ∧ (s.countHead h e n).rwp = s.rwp
    ∧ (s.countHead h e n).accBad = s.accBad
    ∧ (s.countHead h e n).fault = s.fault
    ∧ (s.countHead h e n).heads = s.heads
    ∧ (s.countHead h e n).bifur = s.bifur
    ∧ (s.countHead h e n).map = s.map
    ∧ (s.countHead h e n).mem = s.mem
    ∧ (s.countHead h e n).poison = s.poison
    ∧ (s.countHead h e n).macs = s.macs
    ∧ (s.countHead h e n).waits = s.waits
    ∧ (s.countHead h e n).casks = s.casks
    ∧ (s.countHead h e n).coh = s.coh
    ∧ (s.countHead h e n).lauter = s.lauter
    ∧ (s.countHead h e n).mill = s.mill
    ∧ (s.countHead h e n).husk = s.husk
    ∧ (s.countHead h e n).cache = s.cache
    ∧ (s.countHead h e n).dram = s.dram
    ∧ (s.countHead h e n).kiln = s.kiln
    ∧ (s.countHead h e n).integ = s.integ
    ∧ (s.countHead h e n).links = s.links
    ∧ (s.countHead h e n).hop = s.hop
    ∧ (s.countHead h e n).fold = s.fold
    ∧ (s.countHead h e n).dict = s.dict
    ∧ (s.countHead h e n).field = s.field
    ∧ (s.countHead h e n).sb = s.sb
    ∧ (s.countHead h e n).power = s.power
    ∧ (s.countHead h e n).mode = s.mode
    ∧ (s.countHead h e n).pkg = s.pkg
    ∧ (s.countHead h e n).free = s.free := by
  and_intros <;> rfl

/-- A link's counter advances: no other block changes. -/
@[simp] theorem Chip.countLink_frame (s : Chip) (l e n : Nat) :
    (s.countLink l e n).tb = s.tb
    ∧ (s.countLink l e n).win = s.win
    ∧ (s.countLink l e n).rw = s.rw
    ∧ (s.countLink l e n).rwp = s.rwp
    ∧ (s.countLink l e n).accBad = s.accBad
    ∧ (s.countLink l e n).fault = s.fault
    ∧ (s.countLink l e n).heads = s.heads
    ∧ (s.countLink l e n).bifur = s.bifur
    ∧ (s.countLink l e n).map = s.map
    ∧ (s.countLink l e n).mem = s.mem
    ∧ (s.countLink l e n).poison = s.poison
    ∧ (s.countLink l e n).macs = s.macs
    ∧ (s.countLink l e n).waits = s.waits
    ∧ (s.countLink l e n).casks = s.casks
    ∧ (s.countLink l e n).coh = s.coh
    ∧ (s.countLink l e n).lauter = s.lauter
    ∧ (s.countLink l e n).mill = s.mill
    ∧ (s.countLink l e n).husk = s.husk
    ∧ (s.countLink l e n).cache = s.cache
    ∧ (s.countLink l e n).dram = s.dram
    ∧ (s.countLink l e n).kiln = s.kiln
    ∧ (s.countLink l e n).integ = s.integ
    ∧ (s.countLink l e n).links = s.links
    ∧ (s.countLink l e n).hop = s.hop
    ∧ (s.countLink l e n).fold = s.fold
    ∧ (s.countLink l e n).dict = s.dict
    ∧ (s.countLink l e n).field = s.field
    ∧ (s.countLink l e n).sb = s.sb
    ∧ (s.countLink l e n).power = s.power
    ∧ (s.countLink l e n).mode = s.mode
    ∧ (s.countLink l e n).pkg = s.pkg
    ∧ (s.countLink l e n).free = s.free := by
  and_intros <;> rfl

/-- A result word is kept: no other block changes. -/
@[simp] theorem Chip.setResult_frame (s : Chip) (m v : Nat) :
    (s.setResult m v).tb = s.tb
    ∧ (s.setResult m v).rw = s.rw
    ∧ (s.setResult m v).rwp = s.rwp
    ∧ (s.setResult m v).accBad = s.accBad
    ∧ (s.setResult m v).fault = s.fault
    ∧ (s.setResult m v).cnt = s.cnt
    ∧ (s.setResult m v).heads = s.heads
    ∧ (s.setResult m v).bifur = s.bifur
    ∧ (s.setResult m v).map = s.map
    ∧ (s.setResult m v).mem = s.mem
    ∧ (s.setResult m v).poison = s.poison
    ∧ (s.setResult m v).macs = s.macs
    ∧ (s.setResult m v).waits = s.waits
    ∧ (s.setResult m v).casks = s.casks
    ∧ (s.setResult m v).coh = s.coh
    ∧ (s.setResult m v).lauter = s.lauter
    ∧ (s.setResult m v).mill = s.mill
    ∧ (s.setResult m v).husk = s.husk
    ∧ (s.setResult m v).cache = s.cache
    ∧ (s.setResult m v).dram = s.dram
    ∧ (s.setResult m v).kiln = s.kiln
    ∧ (s.setResult m v).integ = s.integ
    ∧ (s.setResult m v).links = s.links
    ∧ (s.setResult m v).hop = s.hop
    ∧ (s.setResult m v).fold = s.fold
    ∧ (s.setResult m v).dict = s.dict
    ∧ (s.setResult m v).field = s.field
    ∧ (s.setResult m v).sb = s.sb
    ∧ (s.setResult m v).power = s.power
    ∧ (s.setResult m v).mode = s.mode
    ∧ (s.setResult m v).pkg = s.pkg
    ∧ (s.setResult m v).free = s.free := by
  and_intros <;> rfl

/-- A window is removed: no other block changes. -/
@[simp] theorem Chip.dropWindow_frame (s : Chip) (tag : Nat) :
    (s.dropWindow tag).tb = s.tb
    ∧ (s.dropWindow tag).rw = s.rw
    ∧ (s.dropWindow tag).rwp = s.rwp
    ∧ (s.dropWindow tag).accBad = s.accBad
    ∧ (s.dropWindow tag).fault = s.fault
    ∧ (s.dropWindow tag).cnt = s.cnt
    ∧ (s.dropWindow tag).heads = s.heads
    ∧ (s.dropWindow tag).bifur = s.bifur
    ∧ (s.dropWindow tag).map = s.map
    ∧ (s.dropWindow tag).mem = s.mem
    ∧ (s.dropWindow tag).poison = s.poison
    ∧ (s.dropWindow tag).macs = s.macs
    ∧ (s.dropWindow tag).waits = s.waits
    ∧ (s.dropWindow tag).casks = s.casks
    ∧ (s.dropWindow tag).coh = s.coh
    ∧ (s.dropWindow tag).lauter = s.lauter
    ∧ (s.dropWindow tag).mill = s.mill
    ∧ (s.dropWindow tag).husk = s.husk
    ∧ (s.dropWindow tag).cache = s.cache
    ∧ (s.dropWindow tag).dram = s.dram
    ∧ (s.dropWindow tag).kiln = s.kiln
    ∧ (s.dropWindow tag).integ = s.integ
    ∧ (s.dropWindow tag).links = s.links
    ∧ (s.dropWindow tag).hop = s.hop
    ∧ (s.dropWindow tag).fold = s.fold
    ∧ (s.dropWindow tag).dict = s.dict
    ∧ (s.dropWindow tag).field = s.field
    ∧ (s.dropWindow tag).sb = s.sb
    ∧ (s.dropWindow tag).power = s.power
    ∧ (s.dropWindow tag).mode = s.mode
    ∧ (s.dropWindow tag).pkg = s.pkg
    ∧ (s.dropWindow tag).free = s.free := by
  and_intros <;> rfl

/-- A frame is sent: no other block changes. -/
@[simp] theorem Chip.sendFrame_frame (s : Chip) (fn node : Nat) (d : List Byte) :
    (s.sendFrame fn node d).tb = s.tb
    ∧ (s.sendFrame fn node d).win = s.win
    ∧ (s.sendFrame fn node d).rw = s.rw
    ∧ (s.sendFrame fn node d).rwp = s.rwp
    ∧ (s.sendFrame fn node d).accBad = s.accBad
    ∧ (s.sendFrame fn node d).fault = s.fault
    ∧ (s.sendFrame fn node d).cnt = s.cnt
    ∧ (s.sendFrame fn node d).heads = s.heads
    ∧ (s.sendFrame fn node d).bifur = s.bifur
    ∧ (s.sendFrame fn node d).map = s.map
    ∧ (s.sendFrame fn node d).mem = s.mem
    ∧ (s.sendFrame fn node d).poison = s.poison
    ∧ (s.sendFrame fn node d).macs = s.macs
    ∧ (s.sendFrame fn node d).waits = s.waits
    ∧ (s.sendFrame fn node d).casks = s.casks
    ∧ (s.sendFrame fn node d).coh = s.coh
    ∧ (s.sendFrame fn node d).lauter = s.lauter
    ∧ (s.sendFrame fn node d).mill = s.mill
    ∧ (s.sendFrame fn node d).husk = s.husk
    ∧ (s.sendFrame fn node d).cache = s.cache
    ∧ (s.sendFrame fn node d).dram = s.dram
    ∧ (s.sendFrame fn node d).kiln = s.kiln
    ∧ (s.sendFrame fn node d).integ = s.integ
    ∧ (s.sendFrame fn node d).links = s.links
    ∧ (s.sendFrame fn node d).hop = s.hop
    ∧ (s.sendFrame fn node d).fold = s.fold
    ∧ (s.sendFrame fn node d).dict = s.dict
    ∧ (s.sendFrame fn node d).sb = s.sb
    ∧ (s.sendFrame fn node d).power = s.power
    ∧ (s.sendFrame fn node d).mode = s.mode
    ∧ (s.sendFrame fn node d).pkg = s.pkg
    ∧ (s.sendFrame fn node d).free = s.free := by
  and_intros <;> rfl

/-- A free number is taken: nothing but the count of free values changes. -/
@[simp] theorem Chip.takeNat_frame (s : Chip) :
    s.takeNat.2.tb = s.tb
    ∧ s.takeNat.2.win = s.win
    ∧ s.takeNat.2.rw = s.rw
    ∧ s.takeNat.2.rwp = s.rwp
    ∧ s.takeNat.2.accBad = s.accBad
    ∧ s.takeNat.2.fault = s.fault
    ∧ s.takeNat.2.cnt = s.cnt
    ∧ s.takeNat.2.heads = s.heads
    ∧ s.takeNat.2.bifur = s.bifur
    ∧ s.takeNat.2.map = s.map
    ∧ s.takeNat.2.mem = s.mem
    ∧ s.takeNat.2.poison = s.poison
    ∧ s.takeNat.2.macs = s.macs
    ∧ s.takeNat.2.waits = s.waits
    ∧ s.takeNat.2.casks = s.casks
    ∧ s.takeNat.2.coh = s.coh
    ∧ s.takeNat.2.lauter = s.lauter
    ∧ s.takeNat.2.mill = s.mill
    ∧ s.takeNat.2.husk = s.husk
    ∧ s.takeNat.2.cache = s.cache
    ∧ s.takeNat.2.dram = s.dram
    ∧ s.takeNat.2.kiln = s.kiln
    ∧ s.takeNat.2.integ = s.integ
    ∧ s.takeNat.2.links = s.links
    ∧ s.takeNat.2.hop = s.hop
    ∧ s.takeNat.2.fold = s.fold
    ∧ s.takeNat.2.dict = s.dict
    ∧ s.takeNat.2.field = s.field
    ∧ s.takeNat.2.sb = s.sb
    ∧ s.takeNat.2.power = s.power
    ∧ s.takeNat.2.mode = s.mode
    ∧ s.takeNat.2.pkg = s.pkg := by
  and_intros <;> rfl

/-- A free line is taken: nothing but the count of free values changes. -/
@[simp] theorem Chip.takeLine_frame (s : Chip) :
    s.takeLine.2.tb = s.tb
    ∧ s.takeLine.2.win = s.win
    ∧ s.takeLine.2.rw = s.rw
    ∧ s.takeLine.2.rwp = s.rwp
    ∧ s.takeLine.2.accBad = s.accBad
    ∧ s.takeLine.2.fault = s.fault
    ∧ s.takeLine.2.cnt = s.cnt
    ∧ s.takeLine.2.heads = s.heads
    ∧ s.takeLine.2.bifur = s.bifur
    ∧ s.takeLine.2.map = s.map
    ∧ s.takeLine.2.mem = s.mem
    ∧ s.takeLine.2.poison = s.poison
    ∧ s.takeLine.2.macs = s.macs
    ∧ s.takeLine.2.waits = s.waits
    ∧ s.takeLine.2.casks = s.casks
    ∧ s.takeLine.2.coh = s.coh
    ∧ s.takeLine.2.lauter = s.lauter
    ∧ s.takeLine.2.mill = s.mill
    ∧ s.takeLine.2.husk = s.husk
    ∧ s.takeLine.2.cache = s.cache
    ∧ s.takeLine.2.dram = s.dram
    ∧ s.takeLine.2.kiln = s.kiln
    ∧ s.takeLine.2.integ = s.integ
    ∧ s.takeLine.2.links = s.links
    ∧ s.takeLine.2.hop = s.hop
    ∧ s.takeLine.2.fold = s.fold
    ∧ s.takeLine.2.dict = s.dict
    ∧ s.takeLine.2.field = s.field
    ∧ s.takeLine.2.sb = s.sb
    ∧ s.takeLine.2.power = s.power
    ∧ s.takeLine.2.mode = s.mode
    ∧ s.takeLine.2.pkg = s.pkg := by
  and_intros <;> rfl

/-! ### A record after its update -/

@[simp] theorem Chip.head_setHead (s : Chip) (h : Nat) (x : Head) : (s.setHead h x).head h = x := by
  simp [Chip.head, Chip.setHead]

theorem Chip.head_setHead_other (s : Chip) {h j : Nat} (x : Head) (h0 : j ≠ h) : (s.setHead h x).head j = s.head j := by
  simp [Chip.head, Chip.setHead, Tab.get_put_other _ _ _ h0]

@[simp] theorem Chip.link_setLink (s : Chip) (l : Nat) (x : Link) : (s.setLink l x).link l = x := by
  simp [Chip.link, Chip.setLink]

theorem Chip.link_setLink_other (s : Chip) {l j : Nat} (x : Link) (h0 : j ≠ l) : (s.setLink l x).link j = s.link j := by
  simp [Chip.link, Chip.setLink, Tab.get_put_other _ _ _ h0]

@[simp] theorem Chip.cask_setCask (s : Chip) (c : Nat) (x : Cask) : (s.setCask c x).cask c = x := by
  simp [Chip.cask, Chip.setCask]

theorem Chip.cask_setCask_other (s : Chip) {c j : Nat} (x : Cask) (h0 : j ≠ c) : (s.setCask c x).cask j = s.cask j := by
  simp [Chip.cask, Chip.setCask, Tab.get_put_other _ _ _ h0]

@[simp] theorem Chip.ddr_setDdr (s : Chip) (n : Nat) (x : DdrChan) : (s.setDdr n x).ddr n = x := by
  simp [Chip.ddr, Chip.setDdr]

theorem Chip.ddr_setDdr_other (s : Chip) {n j : Nat} (x : DdrChan) (h0 : j ≠ n) : (s.setDdr n x).ddr j = s.ddr j := by
  simp [Chip.ddr, Chip.setDdr, Tab.get_put_other _ _ _ h0]

@[simp] theorem Chip.nvm_setNvm (s : Chip) (n : Nat) (x : NvmChan) : (s.setNvm n x).nvm n = x := by
  simp [Chip.nvm, Chip.setNvm]

theorem Chip.nvm_setNvm_other (s : Chip) {n j : Nat} (x : NvmChan) (h0 : j ≠ n) : (s.setNvm n x).nvm j = s.nvm j := by
  simp [Chip.nvm, Chip.setNvm, Tab.get_put_other _ _ _ h0]

@[simp] theorem Chip.chanState_setChanState (s : Chip) (n : Nat) (x : ChanState) : (s.setChanState n x).chanState n = x := by
  simp [Chip.chanState, Chip.setChanState]

theorem Chip.chanState_setChanState_other (s : Chip) {n j : Nat} (x : ChanState) (h0 : j ≠ n) : (s.setChanState n x).chanState j = s.chanState j := by
  simp [Chip.chanState, Chip.setChanState, Tab.get_put_other _ _ _ h0]

@[simp] theorem Chip.hchan_setHchan (s : Chip) (c : Nat) (x : HopChan) : (s.setHchan c x).hchan c = x := by
  simp [Chip.hchan, Chip.setHchan]

theorem Chip.hchan_setHchan_other (s : Chip) {c j : Nat} (x : HopChan) (h0 : j ≠ c) : (s.setHchan c x).hchan j = s.hchan j := by
  simp [Chip.hchan, Chip.setHchan, Tab.get_put_other _ _ _ h0]

@[simp] theorem Chip.dom_setDom (s : Chip) (d : Nat) (x : CohDomain) : (s.setDom d x).dom d = x := by
  simp [Chip.dom, Chip.setDom]

theorem Chip.dom_setDom_other (s : Chip) {d j : Nat} (x : CohDomain) (h0 : j ≠ d) : (s.setDom d x).dom j = s.dom j := by
  simp [Chip.dom, Chip.setDom, Tab.get_put_other _ _ _ h0]

@[simp] theorem Chip.page_setPage (s : Chip) (p : Nat) (x : PageRec) : (s.setPage p x).page p = x := by
  simp [Chip.page, Chip.setPage]

theorem Chip.page_setPage_other (s : Chip) {p j : Nat} (x : PageRec) (h0 : j ≠ p) : (s.setPage p x).page j = s.page j := by
  simp [Chip.page, Chip.setPage, Tab.get_put_other _ _ _ h0]

theorem Tab.find_of_cfg_rw (s : Chip) (key v : Nat) (h : Tab.find s.rw key = some v) : s.cfg key = v := by
  simp [Chip.cfg, h]

/-- An RW object reads as the value written. -/
@[simp] theorem Chip.cfg_setRw (s : Chip) (key v : Nat) : (s.setRw key v).cfg key = v := by
  simp [Chip.cfg, Chip.setRw, Tab.find_set_same]

/-- The other objects keep their values. -/
theorem Chip.cfg_setRw_other (s : Chip) {key k : Nat} (v : Nat) (h : k ≠ key) : (s.setRw key v).cfg k = s.cfg k := by
  simp [Chip.cfg, Chip.setRw, Tab.find_set_other _ _ h]

/-- The other objects keep their values. -/
theorem Chip.cfg_setRwp_other (s : Chip) {key k : Nat} (v : Nat) (h : k ≠ key) : (s.setRwp key v).cfg k = s.cfg k := by
  simp [Chip.cfg, Chip.setRwp, Tab.find_set_other _ _ h]

/-! ### Raising a fault source -/

/-- Posting records to heads changes the heads alone. -/
theorem Chip.postEvent_frame (s : Chip) (hs : List Nat) (sev : Nat) (r : Nat → LogRec) :
    s.postEvent hs sev r = { s with heads := (s.postEvent hs sev r).heads } := by
  induction hs generalizing s with
  | nil => rfl
  | cons h hs ih =>
    have e : s.postEvent (h :: hs) sev r = Chip.postEvent (if (s.head h).up then
        s.setHead h ((s.head h).postLog sev (r (s.head h).stamp)) else s) hs sev r := rfl
    rw [e, ih]
    split <;> rfl

/-- An ALARM frame queued changes the field port alone. -/
theorem Chip.queueAlarm_frame (s : Chip) (f : List Byte) :
    s.queueAlarm f = { s with field := (s.queueAlarm f).field } := by
  unfold Chip.queueAlarm
  split <;> rfl

/-- Nothing but the fault collector, the heads and the field port differs. -/
def FaultOnly (a s : Chip) : Prop := a = { s with fault := a.fault, heads := a.heads, field := a.field }

theorem FaultOnly.refl (s : Chip) : FaultOnly s s := rfl

theorem FaultOnly.trans {a b c : Chip} (h : FaultOnly a b) (g : FaultOnly b c) : FaultOnly a c := by
  unfold FaultOnly at *
  rw [h, g]

theorem FaultOnly.step {s c : Chip} (p : Prop) [Decidable p] (f : Chip → Chip) (hf : ∀ x : Chip, FaultOnly (f x) x)
    (hc : FaultOnly c s) : FaultOnly (if p then f c else c) s := by
  split
  · exact (hf c).trans hc
  · exact hc

/-- The reactions of a source change the fault collector, the heads' logs and the field port's queue, and nothing else. -/
theorem Chip.react_frame (s : Chip) (n m d : Nat) (b : Block) (rise : Bool) (hs : List Nat) :
    FaultOnly (s.react n m d b rise hs) s := by
  have e (x : Chip) (sev : Nat) (r : Nat → LogRec) : FaultOnly (x.postEvent hs sev r) x := by
    unfold FaultOnly
    conv_lhs => rw [Chip.postEvent_frame]
    rw [Chip.postEvent_frame]
  have q (x : Chip) (f : List Byte) : FaultOnly (x.queueAlarm f) x := by
    unfold FaultOnly
    conv_lhs => rw [Chip.queueAlarm_frame]
    rw [Chip.queueAlarm_frame]
  have w (x : Chip) (u : FaultUnit) : FaultOnly { x with fault := u } x := rfl
  refine FaultOnly.step _ (fun c => { c with fault := { c.fault with wantSafe := true } }) (fun x => w x _) ?_
  refine FaultOnly.step _ (fun c => { c with fault := { c.fault with wantChip := true } }) (fun x => w x _) ?_
  refine FaultOnly.step _ (fun c => { c with fault := { c.fault with wantBlocks := c.fault.wantBlocks ++ [b] } }) (fun x => w x _) ?_
  refine FaultOnly.step _ (fun c => c.queueAlarm (c.alarmBytes n m)) (fun x => q x _) ?_
  refine FaultOnly.step _ (fun c => { c with fault := { c.fault with nmis := c.fault.nmis + 1 } }) (fun x => w x _) ?_
  exact FaultOnly.step _ (fun c => c.postEvent hs _ _) (fun x => e x _ _) (FaultOnly.refl s)

/-- Raising a source changes the fault collector, the heads' logs and the field port's queue, and nothing else. -/
theorem Chip.raise_eq (s : Chip) (n m d : Nat) (b : Block) (hs : List Nat) : FaultOnly (s.raise n m d b hs) s := by
  have w (u : FaultUnit) : FaultOnly { s with fault := u } s := rfl
  unfold Chip.raise
  dsimp only
  split
  · exact (Chip.react_frame _ n m d b _ hs).trans (w _)
  · split <;> exact rfl

/-- Raising a source, field by field. -/
@[simp] theorem Chip.raise_frame (s : Chip) (n m d : Nat) (b : Block) (hs : List Nat) :
    (s.raise n m d b hs).tb = s.tb
    ∧ (s.raise n m d b hs).win = s.win
    ∧ (s.raise n m d b hs).rw = s.rw
    ∧ (s.raise n m d b hs).rwp = s.rwp
    ∧ (s.raise n m d b hs).accBad = s.accBad
    ∧ (s.raise n m d b hs).cnt = s.cnt
    ∧ (s.raise n m d b hs).bifur = s.bifur
    ∧ (s.raise n m d b hs).map = s.map
    ∧ (s.raise n m d b hs).mem = s.mem
    ∧ (s.raise n m d b hs).poison = s.poison
    ∧ (s.raise n m d b hs).macs = s.macs
    ∧ (s.raise n m d b hs).waits = s.waits
    ∧ (s.raise n m d b hs).casks = s.casks
    ∧ (s.raise n m d b hs).coh = s.coh
    ∧ (s.raise n m d b hs).lauter = s.lauter
    ∧ (s.raise n m d b hs).mill = s.mill
    ∧ (s.raise n m d b hs).husk = s.husk
    ∧ (s.raise n m d b hs).cache = s.cache
    ∧ (s.raise n m d b hs).dram = s.dram
    ∧ (s.raise n m d b hs).kiln = s.kiln
    ∧ (s.raise n m d b hs).integ = s.integ
    ∧ (s.raise n m d b hs).links = s.links
    ∧ (s.raise n m d b hs).hop = s.hop
    ∧ (s.raise n m d b hs).fold = s.fold
    ∧ (s.raise n m d b hs).dict = s.dict
    ∧ (s.raise n m d b hs).sb = s.sb
    ∧ (s.raise n m d b hs).power = s.power
    ∧ (s.raise n m d b hs).mode = s.mode
    ∧ (s.raise n m d b hs).pkg = s.pkg
    ∧ (s.raise n m d b hs).free = s.free := by
  have e := Chip.raise_eq s n m d b hs
  unfold FaultOnly at e
  rw [e]
  exact (by and_intros <;> rfl)

/-- A raise that hangs on a condition, field by field. -/
@[simp] theorem Chip.ite_raise_frame (p : Prop) [Decidable p] (s : Chip) (n m d : Nat) (b : Block) (hs : List Nat) :
    (if p then s.raise n m d b hs else s).tb = s.tb
    ∧ (if p then s.raise n m d b hs else s).win = s.win
    ∧ (if p then s.raise n m d b hs else s).rw = s.rw
    ∧ (if p then s.raise n m d b hs else s).rwp = s.rwp
    ∧ (if p then s.raise n m d b hs else s).accBad = s.accBad
    ∧ (if p then s.raise n m d b hs else s).cnt = s.cnt
    ∧ (if p then s.raise n m d b hs else s).bifur = s.bifur
    ∧ (if p then s.raise n m d b hs else s).map = s.map
    ∧ (if p then s.raise n m d b hs else s).mem = s.mem
    ∧ (if p then s.raise n m d b hs else s).poison = s.poison
    ∧ (if p then s.raise n m d b hs else s).macs = s.macs
    ∧ (if p then s.raise n m d b hs else s).waits = s.waits
    ∧ (if p then s.raise n m d b hs else s).casks = s.casks
    ∧ (if p then s.raise n m d b hs else s).coh = s.coh
    ∧ (if p then s.raise n m d b hs else s).lauter = s.lauter
    ∧ (if p then s.raise n m d b hs else s).mill = s.mill
    ∧ (if p then s.raise n m d b hs else s).husk = s.husk
    ∧ (if p then s.raise n m d b hs else s).cache = s.cache
    ∧ (if p then s.raise n m d b hs else s).dram = s.dram
    ∧ (if p then s.raise n m d b hs else s).kiln = s.kiln
    ∧ (if p then s.raise n m d b hs else s).integ = s.integ
    ∧ (if p then s.raise n m d b hs else s).links = s.links
    ∧ (if p then s.raise n m d b hs else s).hop = s.hop
    ∧ (if p then s.raise n m d b hs else s).fold = s.fold
    ∧ (if p then s.raise n m d b hs else s).dict = s.dict
    ∧ (if p then s.raise n m d b hs else s).sb = s.sb
    ∧ (if p then s.raise n m d b hs else s).power = s.power
    ∧ (if p then s.raise n m d b hs else s).mode = s.mode
    ∧ (if p then s.raise n m d b hs else s).pkg = s.pkg
    ∧ (if p then s.raise n m d b hs else s).free = s.free := by
  split
  · exact Chip.raise_frame s n m d b hs
  · exact (by and_intros <;> rfl)

@[simp] theorem bitOf_setBit (v i : Nat) : bitOf (setBit v i true) i = true := by
  simp [bitOf, setBit, Nat.shiftLeft_eq, Nat.testBit_or]

/-- A bit set or cleared reads as what it was set to. -/
theorem bitOf_setBit_val (v i : Nat) (b : Bool) : bitOf (setBit v i b) i = b := by
  cases b
  · unfold setBit bitOf
    simp only [Bool.false_eq_true, if_false]
    split
    · rename_i h
      rw [Nat.one_shiftLeft, Nat.testBit_eq_decide_div_mod_eq]
      rw [Nat.testBit_eq_decide_div_mod_eq, decide_eq_true_eq] at h
      have := Nat.sub_mul_div v (2 ^ i) 1
      rw [Nat.mul_one] at this
      rw [this]
      simp only [decide_eq_false_iff_not]
      omega
    · rename_i h; simpa using h
  · exact bitOf_setBit v i

theorem bitOf_setBit_other (v : Nat) {i j : Nat} (h : j ≠ i) : bitOf (setBit v i true) j = bitOf v j := by
  have e : (2 ^ i).testBit j = false := by
    rw [Nat.testBit_two_pow]
    exact decide_eq_false (fun x => h x.symm)
  simp [bitOf, setBit, Nat.shiftLeft_eq, Nat.testBit_or, e]

/-- A bit cleared leaves every other bit. -/
theorem bitOf_clear_other (v : Nat) {i j : Nat} (h : j ≠ i) : bitOf (setBit v i false) j = bitOf v j := by
  unfold setBit bitOf
  simp only [Bool.false_eq_true, if_false]
  split
  · rename_i hb
    rw [Nat.one_shiftLeft, Nat.testBit_eq_decide_div_mod_eq, Nat.testBit_eq_decide_div_mod_eq]
    rw [Nat.testBit_eq_decide_div_mod_eq, decide_eq_true_eq] at hb
    have le : 2 ^ i ≤ v := by
      by_contra hc
      rw [Nat.div_eq_of_lt (by omega)] at hb
      omega
    rcases Nat.lt_or_gt_of_ne h with hl | hg
    · obtain ⟨d, rfl⟩ : ∃ d, i = j + 1 + d := ⟨i - j - 1, by omega⟩
      have e : 2 ^ (j + 1 + d) = 2 ^ j * (2 * 2 ^ d) := by rw [Nat.pow_add, Nat.pow_add]; ring
      have a : 2 * 2 ^ d ≤ v / 2 ^ j := by
        rw [Nat.le_div_iff_mul_le (Nat.two_pow_pos j), Nat.mul_comm, ← e]; exact le
      rw [e, Nat.sub_mul_div]
      congr 2
      omega
    · obtain ⟨d, rfl⟩ : ∃ d, j = i + 1 + d := ⟨j - i - 1, by omega⟩
      have e : (v - 2 ^ i) / 2 ^ (i + 1) = v / 2 ^ (i + 1) := by
        have e2 : 2 ^ (i + 1) = 2 ^ i * 2 := Nat.pow_succ 2 i
        rw [e2, ← Nat.div_div_eq_div_mul, ← Nat.div_div_eq_div_mul]
        have := Nat.sub_mul_div v (2 ^ i) 1
        rw [Nat.mul_one] at this
        rw [this]
        generalize v / 2 ^ i = x at hb ⊢
        omega
      rw [Nat.pow_add 2 (i + 1) d, ← Nat.div_div_eq_div_mul, ← Nat.div_div_eq_div_mul, e]
  · rfl

theorem Chip.postEvent_fault (s : Chip) (hs : List Nat) (sev : Nat) (r : Nat → LogRec) :
    (s.postEvent hs sev r).fault = s.fault := by
  rw [Chip.postEvent_frame]

theorem Chip.queueAlarm_fault (s : Chip) (f : List Byte) : (s.queueAlarm f).fault = s.fault := by
  rw [Chip.queueAlarm_frame]

/-- The reactions set and clear no sticky bit. -/
theorem Chip.react_sticky (s : Chip) (n m d : Nat) (b : Block) (rise : Bool) (hs : List Nat) :
    (s.react n m d b rise hs).fault.sticky = s.fault.sticky := by
  have st (c : Chip) (p : Prop) [Decidable p] (f : Chip → Chip) (hf : ∀ x : Chip, (f x).fault.sticky = x.fault.sticky)
      (hc : c.fault.sticky = s.fault.sticky) : (if p then f c else c).fault.sticky = s.fault.sticky := by
    split
    · rw [hf, hc]
    · exact hc
  refine st _ _ (fun c => { c with fault := { c.fault with wantSafe := true } }) (fun _ => rfl) ?_
  refine st _ _ (fun c => { c with fault := { c.fault with wantChip := true } }) (fun _ => rfl) ?_
  refine st _ _ (fun c => { c with fault := { c.fault with wantBlocks := c.fault.wantBlocks ++ [b] } }) (fun _ => rfl) ?_
  refine st _ _ (fun c => c.queueAlarm (c.alarmBytes n m)) (fun x => by rw [Chip.queueAlarm_fault]) ?_
  refine st _ _ (fun c => { c with fault := { c.fault with nmis := c.fault.nmis + 1 } }) (fun _ => rfl) ?_
  exact st _ _ (fun c => c.postEvent hs _ _) (fun x => by rw [Chip.postEvent_fault]) rfl

/-- Raising a source sets its sticky bit (R543), and no other. -/
theorem Chip.raise_fault_sticky (s : Chip) (n m d : Nat) (b : Block) (hs : List Nat) :
    (s.raise n m d b hs).fault.sticky = setBit s.fault.sticky n true := by
  unfold Chip.raise
  dsimp only
  split
  · rw [Chip.react_sticky]
  · split <;> rfl

@[simp] theorem Chip.raise_sticky (s : Chip) (n m d : Nat) (b : Block) (hs : List Nat) : (s.raise n m d b hs).sticky n = true := by
  simp [Chip.sticky, Chip.raise_fault_sticky]

theorem Chip.raise_sticky_other (s : Chip) {n k : Nat} (m d : Nat) (b : Block) (hs : List Nat) (h : k ≠ n) :
    (s.raise n m d b hs).sticky k = s.sticky k := by
  simp [Chip.sticky, Chip.raise_fault_sticky, bitOf_setBit_other _ h]

/-- What a raise leaves as it was, as a frame. -/
theorem FaultOnly.frame {a s : Chip} (h : FaultOnly a s) : Frame [.fault, .heads, .field] a s := by
  intro p hp
  unfold FaultOnly at h
  rw [h]
  cases p <;> first | rfl | exact absurd (by simp) hp

/-- A head differs from another in its event logs and its pending vectors alone. -/
def LogsOnly (a b : Head) : Prop :=
  a = { b with info := a.info, warning := a.warning, failure := a.failure, fatal := a.fatal, dyncap := a.dyncap, msix := a.msix }

theorem LogsOnly.refl (a : Head) : LogsOnly a a := rfl

theorem LogsOnly.trans {a b c : Head} (h : LogsOnly a b) (g : LogsOnly b c) : LogsOnly a c := by
  unfold LogsOnly at *
  rw [h, g]

theorem Head.postLog_only (x : Head) (k : Nat) (r : LogRec) : LogsOnly (x.postLog k r) x := by
  have a (l : EvLogSt) : LogsOnly (x.setEvLog k l) x := by
    unfold Head.setEvLog
    split <;> rfl
  unfold Head.postLog
  dsimp only
  split
  · exact LogsOnly.trans (b := x.setEvLog k ((x.evLog k).post r)) rfl (a _)
  · exact a _

theorem Chip.postEvent_head (s : Chip) (hs : List Nat) (sev : Nat) (r : Nat → LogRec) (j : Nat) :
    LogsOnly ((s.postEvent hs sev r).head j) (s.head j) := by
  induction hs generalizing s with
  | nil => exact LogsOnly.refl _
  | cons h hs ih =>
    have e : s.postEvent (h :: hs) sev r = Chip.postEvent (if (s.head h).up then
        s.setHead h ((s.head h).postLog sev (r (s.head h).stamp)) else s) hs sev r := rfl
    rw [e]
    refine (ih _).trans ?_
    split
    · by_cases hj : j = h
      · subst hj
        rw [Chip.head_setHead]
        exact Head.postLog_only _ _ _
      · rw [Chip.head_setHead_other _ _ hj]
        exact LogsOnly.refl _
    · exact LogsOnly.refl _

/-- Raising a source changes no head but its event logs and pending vectors. -/
theorem Chip.raise_head (s : Chip) (n m d : Nat) (b : Block) (hs : List Nat) (j : Nat) :
    LogsOnly ((s.raise n m d b hs).head j) (s.head j) := by
  have st (c : Chip) (p : Prop) [Decidable p] (f : Chip → Chip) (hf : ∀ x : Chip, LogsOnly ((f x).head j) (x.head j))
      (hc : LogsOnly (c.head j) (s.head j)) : LogsOnly ((if p then f c else c).head j) (s.head j) := by
    split
    · exact (hf c).trans hc
    · exact hc
  have q (x : Chip) (f : List Byte) : LogsOnly ((x.queueAlarm f).head j) (x.head j) := by
    rw [Chip.queueAlarm_frame]
    exact LogsOnly.refl _
  have re (c : Chip) (rise : Bool) (hc : LogsOnly (c.head j) (s.head j)) : LogsOnly ((c.react n m d b rise hs).head j) (s.head j) := by
    refine st _ _ (fun c => { c with fault := { c.fault with wantSafe := true } }) (fun _ => LogsOnly.refl _) ?_
    refine st _ _ (fun c => { c with fault := { c.fault with wantChip := true } }) (fun _ => LogsOnly.refl _) ?_
    refine st _ _ (fun c => { c with fault := { c.fault with wantBlocks := c.fault.wantBlocks ++ [b] } }) (fun _ => LogsOnly.refl _) ?_
    refine st _ _ (fun c => c.queueAlarm (c.alarmBytes n m)) (fun x => q x _) ?_
    refine st _ _ (fun c => { c with fault := { c.fault with nmis := c.fault.nmis + 1 } }) (fun _ => LogsOnly.refl _) ?_
    exact st _ _ (fun c => c.postEvent hs _ _) (fun x => Chip.postEvent_head x hs _ _ j) hc
  unfold Chip.raise
  dsimp only
  split
  · exact re _ _ (LogsOnly.refl _)
  · split <;> exact LogsOnly.refl _

/-- A head's link, mailbox, decoders and streams after a raise. -/
@[simp] theorem Chip.raise_head_frame (s : Chip) (n m d : Nat) (b : Block) (hs : List Nat) (j : Nat) :
    ((s.raise n m d b hs).head j).state = (s.head j).state
    ∧ ((s.raise n m d b hs).head j).width = (s.head j).width
    ∧ ((s.raise n m d b hs).head j).rate = (s.head j).rate
    ∧ ((s.raise n m d b hs).head j).flit = (s.head j).flit
    ∧ ((s.raise n m d b hs).head j).failovers = (s.head j).failovers
    ∧ ((s.raise n m d b hs).head j).detect = (s.head j).detect
    ∧ ((s.raise n m d b hs).head j).bi = (s.head j).bi
    ∧ ((s.raise n m d b hs).head j).policy = (s.head j).policy
    ∧ ((s.raise n m d b hs).head j).mbox = (s.head j).mbox
    ∧ ((s.raise n m d b hs).head j).stamp = (s.head j).stamp
    ∧ ((s.raise n m d b hs).head j).hdm = (s.head j).hdm
    ∧ ((s.raise n m d b hs).head j).ideKeyed = (s.head j).ideKeyed
    ∧ ((s.raise n m d b hs).head j).ideInsecure = (s.head j).ideInsecure
    ∧ ((s.raise n m d b hs).head j).ideContain = (s.head j).ideContain
    ∧ ((s.raise n m d b hs).head j).flitsToMac = (s.head j).flitsToMac
    ∧ ((s.raise n m d b hs).head j).macs = (s.head j).macs
    ∧ ((s.raise n m d b hs).head j).ras = (s.head j).ras
    ∧ ((s.raise n m d b hs).head j).failRec = (s.head j).failRec
    ∧ ((s.raise n m d b hs).head j).bar2 = (s.head j).bar2
    ∧ ((s.raise n m d b hs).head j).sent = (s.head j).sent
    ∧ ((s.raise n m d b hs).head j).owed = (s.head j).owed := by
  have e := s.raise_head n m d b hs j
  unfold LogsOnly at e
  rw [e]
  exact (by and_intros <;> rfl)

/-! ### Frames -/

theorem Frame.set_tb {l : List Part} (h : Part.tb ∈ l) (s : Chip) (x : Timebase) : Frame l { s with tb := x } s := by
  intro p hp
  cases p <;> first | rfl | exact absurd h hp

theorem Frame.set_win {l : List Part} (h : Part.win ∈ l) (s : Chip) (x : WinUnit) : Frame l { s with win := x } s := by
  intro p hp
  cases p <;> first | rfl | exact absurd h hp

theorem Frame.set_rw {l : List Part} (h : Part.rw ∈ l) (s : Chip) (x : Tab Nat) : Frame l { s with rw := x } s := by
  intro p hp
  cases p <;> first | rfl | exact absurd h hp

theorem Frame.set_rwp {l : List Part} (h : Part.rwp ∈ l) (s : Chip) (x : Tab Nat) : Frame l { s with rwp := x } s := by
  intro p hp
  cases p <;> first | rfl | exact absurd h hp

theorem Frame.set_accBad {l : List Part} (h : Part.accBad ∈ l) (s : Chip) (x : List (Nat × Nat)) : Frame l { s with accBad := x } s := by
  intro p hp
  cases p <;> first | rfl | exact absurd h hp

theorem Frame.set_fault {l : List Part} (h : Part.fault ∈ l) (s : Chip) (x : FaultUnit) : Frame l { s with fault := x } s := by
  intro p hp
  cases p <;> first | rfl | exact absurd h hp

theorem Frame.set_cnt {l : List Part} (h : Part.cnt ∈ l) (s : Chip) (x : CntUnit) : Frame l { s with cnt := x } s := by
  intro p hp
  cases p <;> first | rfl | exact absurd h hp

theorem Frame.set_heads {l : List Part} (h : Part.heads ∈ l) (s : Chip) (x : Tab Head) : Frame l { s with heads := x } s := by
  intro p hp
  cases p <;> first | rfl | exact absurd h hp

theorem Frame.set_bifur {l : List Part} (h : Part.bifur ∈ l) (s : Chip) (x : Nat) : Frame l { s with bifur := x } s := by
  intro p hp
  cases p <;> first | rfl | exact absurd h hp

theorem Frame.set_map {l : List Part} (h : Part.map ∈ l) (s : Chip) (x : MapUnit) : Frame l { s with map := x } s := by
  intro p hp
  cases p <;> first | rfl | exact absurd h hp

theorem Frame.set_mem {l : List Part} (h : Part.mem ∈ l) (s : Chip) (x : Tab Byte) : Frame l { s with mem := x } s := by
  intro p hp
  cases p <;> first | rfl | exact absurd h hp

theorem Frame.set_poison {l : List Part} (h : Part.poison ∈ l) (s : Chip) (x : Tab Bool) : Frame l { s with poison := x } s := by
  intro p hp
  cases p <;> first | rfl | exact absurd h hp

theorem Frame.set_macs {l : List Part} (h : Part.macs ∈ l) (s : Chip) (x : Tab (BitVec 64)) : Frame l { s with macs := x } s := by
  intro p hp
  cases p <;> first | rfl | exact absurd h hp

theorem Frame.set_waits {l : List Part} (h : Part.waits ∈ l) (s : Chip) (x : List Wait) : Frame l { s with waits := x } s := by
  intro p hp
  cases p <;> first | rfl | exact absurd h hp

theorem Frame.set_casks {l : List Part} (h : Part.casks ∈ l) (s : Chip) (x : Tab Cask) : Frame l { s with casks := x } s := by
  intro p hp
  cases p <;> first | rfl | exact absurd h hp

theorem Frame.set_coh {l : List Part} (h : Part.coh ∈ l) (s : Chip) (x : CohUnit) : Frame l { s with coh := x } s := by
  intro p hp
  cases p <;> first | rfl | exact absurd h hp

theorem Frame.set_lauter {l : List Part} (h : Part.lauter ∈ l) (s : Chip) (x : LauterUnit) : Frame l { s with lauter := x } s := by
  intro p hp
  cases p <;> first | rfl | exact absurd h hp

theorem Frame.set_mill {l : List Part} (h : Part.mill ∈ l) (s : Chip) (x : MillUnit) : Frame l { s with mill := x } s := by
  intro p hp
  cases p <;> first | rfl | exact absurd h hp

theorem Frame.set_husk {l : List Part} (h : Part.husk ∈ l) (s : Chip) (x : HuskUnit) : Frame l { s with husk := x } s := by
  intro p hp
  cases p <;> first | rfl | exact absurd h hp

theorem Frame.set_cache {l : List Part} (h : Part.cache ∈ l) (s : Chip) (x : CacheUnit) : Frame l { s with cache := x } s := by
  intro p hp
  cases p <;> first | rfl | exact absurd h hp

theorem Frame.set_dram {l : List Part} (h : Part.dram ∈ l) (s : Chip) (x : DramUnit) : Frame l { s with dram := x } s := by
  intro p hp
  cases p <;> first | rfl | exact absurd h hp

theorem Frame.set_kiln {l : List Part} (h : Part.kiln ∈ l) (s : Chip) (x : KilnUnit) : Frame l { s with kiln := x } s := by
  intro p hp
  cases p <;> first | rfl | exact absurd h hp

theorem Frame.set_integ {l : List Part} (h : Part.integ ∈ l) (s : Chip) (x : IntegUnit) : Frame l { s with integ := x } s := by
  intro p hp
  cases p <;> first | rfl | exact absurd h hp

theorem Frame.set_links {l : List Part} (h : Part.links ∈ l) (s : Chip) (x : Tab Link) : Frame l { s with links := x } s := by
  intro p hp
  cases p <;> first | rfl | exact absurd h hp

theorem Frame.set_hop {l : List Part} (h : Part.hop ∈ l) (s : Chip) (x : HopUnit) : Frame l { s with hop := x } s := by
  intro p hp
  cases p <;> first | rfl | exact absurd h hp

theorem Frame.set_fold {l : List Part} (h : Part.fold ∈ l) (s : Chip) (x : FoldUnit) : Frame l { s with fold := x } s := by
  intro p hp
  cases p <;> first | rfl | exact absurd h hp

theorem Frame.set_dict {l : List Part} (h : Part.dict ∈ l) (s : Chip) (x : DictUnit) : Frame l { s with dict := x } s := by
  intro p hp
  cases p <;> first | rfl | exact absurd h hp

theorem Frame.set_field {l : List Part} (h : Part.field ∈ l) (s : Chip) (x : FieldUnit) : Frame l { s with field := x } s := by
  intro p hp
  cases p <;> first | rfl | exact absurd h hp

theorem Frame.set_sb {l : List Part} (h : Part.sb ∈ l) (s : Chip) (x : SbUnit) : Frame l { s with sb := x } s := by
  intro p hp
  cases p <;> first | rfl | exact absurd h hp

theorem Frame.set_power {l : List Part} (h : Part.power ∈ l) (s : Chip) (x : PowerUnit) : Frame l { s with power := x } s := by
  intro p hp
  cases p <;> first | rfl | exact absurd h hp

theorem Frame.set_mode {l : List Part} (h : Part.mode ∈ l) (s : Chip) (x : ModeUnit) : Frame l { s with mode := x } s := by
  intro p hp
  cases p <;> first | rfl | exact absurd h hp

theorem Frame.set_pkg {l : List Part} (h : Part.pkg ∈ l) (s : Chip) (x : PkgUnit) : Frame l { s with pkg := x } s := by
  intro p hp
  cases p <;> first | rfl | exact absurd h hp

theorem Frame.set_free {l : List Part} (h : Part.free ∈ l) (s : Chip) (x : Nat) : Frame l { s with free := x } s := by
  intro p hp
  cases p <;> first | rfl | exact absurd h hp



theorem Frame.refl (l : List Part) (a : Chip) : Frame l a a := by
  intro p _
  cases p <;> rfl

theorem Frame.trans {l : List Part} {a b c : Chip} (h : Frame l a b) (g : Frame l b c) : Frame l a c := by
  intro p hp
  have x := h p hp
  have y := g p hp
  cases p <;> exact x.trans y

theorem Frame.mono {l m : List Part} {a b : Chip} (h : Frame l a b) (sub : ∀ p, p ∈ l → p ∈ m) : Frame m a b :=
  fun p hp => h p (fun x => hp (sub p x))

end Sys2Proof.Machine
end

