-- ==== Sys2Proof/Laws/Memory.lean ====
section
/-!
SUPPORT. Laws/Memory.lean: what the cache and the tiers may change on the way of a line, and what a line write does to memory.
-/
namespace Sys2Proof.Machine

/-- The parts that a line's way between the cache and its tier may change: no byte of memory is among them. -/
abbrev tierParts : List Part := [.cache, .lauter, .kiln, .dram, .map]

theorem Frame.ite {l : List Part} {a b s : Chip} (p : Prop) [Decidable p] (ha : Frame l a s) (hb : Frame l b s) :
    Frame l (if p then a else b) s := by
  split
  · exact ha
  · exact hb

theorem Frame.tb {l : List Part} {a s : Chip} (h : Frame l a s) (p : Part) (n : p ∉ l) : p.same a s := h p n

theorem Chip.ageSet_frame (s : Chip) (set : Nat) : Frame tierParts (s.ageSet set) s := Frame.set_cache (by decide) s _

theorem Chip.dropCached_frame (s : Chip) (ln : Nat) : Frame tierParts (s.dropCached ln) s := Frame.set_cache (by decide) s _

theorem Chip.setPoison_frame (s : Chip) (a : Nat) (b : Bool) : Frame [.poison, .integ] (s.setPoison a b) s := by
  unfold Chip.setPoison
  exact (Frame.set_poison (by decide) _ _).trans (Frame.ite _ (Frame.set_integ (by decide) s _) (Frame.refl _ _))

/-- What leaves the keys and the casks as they are keeps the keys whole. -/
theorem Frame.keys {l : List Part} {t s : Chip} (f : Frame l t s) (h : KeysHold s) (n1 : Part.husk ∉ l := by decide)
    (n2 : Part.casks ∉ l := by decide) : KeysHold t := by
  have e1 : t.husk = s.husk := f .husk n1
  have e2 : t.casks = s.casks := f .casks n2
  exact ⟨by rw [e1]; exact h.1, by rw [e2]; exact h.2⟩

/-- No cask's keys are in FAULT (R220). -/
theorem KeysHold.cask {s : Chip} (h : KeysHold s) (c : Nat) : (s.cask c).keyState ≠ .fault := by
  unfold Chip.cask Tab.get
  cases e : Tab.find s.casks c with
  | none => decide
  | some x => simpa using List.all_eq_true.mp h.2 _ (Tab.find_mem e)

/-- Whole keys are in no FAULT for any line. -/
theorem Chip.keyFault_eq (s : Chip) (ln : Nat) (h : KeysHold s) : s.keyFault ln = false := by
  unfold Chip.keyFault
  split
  · exact decide_eq_false (h.cask _)
  · rfl

/-- With the three copies of the HBM key in agreement (R204), a line goes to HBM as it is. -/
theorem Chip.storeHbm_eq (s : Chip) (ln : Nat) (h : KeysHold s) : s.storeHbm ln = s := by
  simp [Chip.storeHbm, Chip.useHbmKey, HuskUnit.hbmVote, h.1, Tab.get, Tab.find]

/-- A use of the HBM key repairs a copy of it, or raises (R204, R220). -/
theorem Chip.useHbmKey_frame (s : Chip) : Frame [.husk, .fault, .heads, .field] s.useHbmKey.2 s := by
  unfold Chip.useHbmKey
  split
  · exact Frame.refl _ _
  · exact Frame.set_husk (by decide) s _
  · exact (Chip.raise_eq _ _ _ _ _ _).frame.mono (by decide)

theorem Chip.mapTouch_frame (s : Chip) (k : Nat) : Frame [.map] (s.mapTouch k) s := by
  unfold Chip.mapTouch
  dsimp only
  split
  · exact Frame.set_map (by decide) s _
  · split
    · exact Frame.set_map (by decide) s _
    · exact Frame.refl _ _

theorem Chip.retranslate_frame (s : Chip) (ln gen : Nat) : Frame [.map] (s.retranslate ln gen) s := by
  unfold Chip.retranslate
  exact Frame.ite _ (Frame.refl _ _) ((Chip.mapTouch_frame _ _).trans (Chip.mapTouch_frame _ _))

theorem Chip.setDdr_tier (s : Chip) (n : Nat) (x : DdrChan) : Frame tierParts (s.setDdr n x) s := Frame.set_dram (by decide) s _

theorem Chip.catchMask_frame (s : Chip) (ln : Nat) : Frame tierParts (s.catchMask ln) s := by
  unfold Chip.catchMask
  split
  · dsimp only
    split
    · exact Frame.refl _ _
    · exact Frame.set_lauter (by decide) s _
  · exact Frame.refl _ _

/-- A line handed to its tier (R238, R240), with the copies of the HBM key in agreement (R204). -/
theorem Chip.tierWrite_frame (s : Chip) (ln : Nat) (h : KeysHold s) : Frame tierParts (s.tierWrite ln) s := by
  have h1 : KeysHold (s.catchMask ln) := (s.catchMask_frame ln).keys h
  unfold Chip.tierWrite
  dsimp only
  split
  · rw [Chip.storeHbm_eq _ _ ((Frame.set_kiln (l := tierParts) (by decide) (s.catchMask ln) _).keys h1)]
    exact (Frame.set_kiln (by decide) _ _).trans (s.catchMask_frame ln)
  · rw [Chip.storeHbm_eq _ _ h1]
    exact s.catchMask_frame ln
  · have mark (c : Chip) (n g : Nat) : Frame tierParts (if (c.ddr n).freeze = 1 ∧ !(c.ddr n).stale.contains g then
        c.setDdr n { c.ddr n with stale := (c.ddr n).stale ++ [g] } else c) c :=
      Frame.ite _ (c.setDdr_tier n _) (Frame.refl _ _)
    have last (c : Chip) (hc : Frame tierParts c s) : Frame tierParts (match Tab.find c.cache.macLines (macOf ln) with
        | some x => ({ c with cache := { c.cache with
            macLines := Tab.set c.cache.macLines (macOf ln) { x with dirty := true } } } : Chip)
        | none => c) s := by
      split
      · exact (Frame.set_cache (by decide) c _).trans hc
      · exact hc
    refine last _ ?_
    rw [Chip.keyFault_eq _ _ h1]
    simp only [Bool.false_eq_true, if_false]
    split
    · exact (mark _ _ _).trans ((mark _ _ _).trans (s.catchMask_frame ln))
    · exact s.catchMask_frame ln
  · exact s.catchMask_frame ln

/-- A writeback moves no line into or out of a way. -/
theorem Chip.tierWrite_lines (s : Chip) (ln : Nat) (h : KeysHold s) : (s.tierWrite ln).cache.lines = s.cache.lines := by
  have hc : (s.catchMask ln).cache = s.cache := by
    unfold Chip.catchMask
    split
    · dsimp only
      split <;> rfl
    · rfl
  have h1 : KeysHold (s.catchMask ln) := (s.catchMask_frame ln).keys h
  have hm (c : Chip) (n g : Nat) : (if (c.ddr n).freeze = 1 ∧ !(c.ddr n).stale.contains g then
      c.setDdr n { c.ddr n with stale := (c.ddr n).stale ++ [g] } else c).cache = c.cache := by
    split <;> rfl
  have last (c : Chip) (e : c.cache = s.cache) : (match Tab.find c.cache.macLines (macOf ln) with
      | some x => ({ c with cache := { c.cache with
          macLines := Tab.set c.cache.macLines (macOf ln) { x with dirty := true } } } : Chip)
      | none => c).cache.lines = s.cache.lines := by
    split <;> exact (congrArg (fun (c : CacheUnit) => c.lines) e :)
  unfold Chip.tierWrite
  dsimp only
  split
  · rw [Chip.storeHbm_eq _ _ ((Frame.set_kiln (l := tierParts) (by decide) (s.catchMask ln) _).keys h1)]
    exact (congrArg (fun (c : CacheUnit) => c.lines) hc :)
  · rw [Chip.storeHbm_eq _ _ h1]
    exact (congrArg (fun (c : CacheUnit) => c.lines) hc :)
  · refine last _ ?_
    rw [Chip.keyFault_eq _ _ h1]
    simp only [Bool.false_eq_true, if_false]
    split
    · rw [hm, hm]
      exact hc
    · exact hc
  · exact (congrArg (fun (c : CacheUnit) => c.lines) hc :)

/-- A dirty line cleaned (R243). -/
theorem Chip.cleanLine_frame (s : Chip) (ln : Nat) (h : KeysHold s) : Frame tierParts (s.cleanLine ln) s := by
  unfold Chip.cleanLine
  split
  · next c _ =>
    have f : Frame tierParts (s.retranslate ln c.gen) s := (s.retranslate_frame ln c.gen).mono (by decide)
    split
    · exact (Frame.set_cache (by decide) _ _).trans ((Chip.tierWrite_frame _ ln (f.keys h)).trans f)
    · exact Frame.refl _ _
  · exact Frame.refl _ _

theorem Chip.freeWay_frame (s t : Chip) (set w : Nat) (k : KeysHold s) (h : s.freeWay set = some (w, t)) : Frame tierParts t s := by
  unfold Chip.freeWay at h
  dsimp only at h
  split at h
  · cases h
    exact Frame.refl _ _
  · split at h
    · cases h
    · split at h
      · cases h
        exact Frame.set_cache (by decide) s _
      · cases h
        split
        · exact (Chip.dropCached_frame _ _).trans (s.cleanLine_frame _ k)
        · exact Chip.dropCached_frame _ _

/-- A line enters a way (R242). -/
theorem Chip.fill_frame (s t : Chip) (ln : Nat) (k : KeysHold s) (h : s.fill ln = some t) : Frame tierParts t s := by
  unfold Chip.fill at h
  split at h
  · cases h
    exact (Frame.set_cache (by decide) _ _).trans (s.ageSet_frame _)
  · split at h
    · cases h
    · next e =>
      cases h
      exact (Frame.set_cache (by decide) _ _).trans ((Chip.ageSet_frame _ _).trans (Chip.freeWay_frame _ _ _ _ k e))

theorem Chip.fetchMac_frame (s : Chip) (ln : Nat) (k : KeysHold s) : Frame tierParts (s.fetchMac ln) s := by
  unfold Chip.fetchMac
  split
  · split
    · next e => exact (Frame.set_cache (by decide) _ _).trans (Chip.freeWay_frame _ _ _ _ k e)
    · exact Frame.refl _ _
  · exact Frame.refl _ _

/-- A cached line becomes dirty (R241). -/
theorem Chip.makeDirty_frame (s : Chip) (ln : Nat) (k : KeysHold s) : Frame tierParts (s.makeDirty ln) s := by
  unfold Chip.makeDirty
  dsimp only
  have one : Frame tierParts (match Tab.find s.cache.lines ln with
      | some c => ({ s with cache := { s.cache with lines := Tab.set s.cache.lines ln { c with
          dirty := true, gen := (s.page (ln / 64)).gen, tc := if c.dirty then c.tc else s.tb.tc } } } : Chip)
      | none => s) s := by
    split
    · exact Frame.set_cache (by decide) s _
    · exact Frame.refl _ _
  have two (c : Chip) : Frame tierParts (match Tab.find c.cache.lines ln with
      | some x => ({ c with cache := { c.cache with lines := Tab.set c.cache.lines ln { x with heavy := c.heavyNow ln } } } : Chip)
      | none => c) c := by
    split
    · exact Frame.set_cache (by decide) c _
    · exact Frame.refl _ _
  exact (two _).trans ((Chip.fetchMac_frame _ ln (one.keys k)).trans one)

theorem Chip.heatCount_frame (s : Chip) (p m : Nat) : Frame tierParts (s.heatCount p m) s := by
  unfold Chip.heatCount
  split
  · exact Frame.refl _ _
  · split
    · exact Frame.set_lauter (by decide) s _
    · split
      · exact Frame.set_lauter (by decide) s _
      · split
        · exact Frame.refl _ _
        · dsimp only
          split <;> exact Frame.set_lauter (by decide) s _

/-- A stored line follows its write policy (R238, R239). -/
theorem Chip.applyPolicy_frame (s : Chip) (ln m pol : Nat) (k : KeysHold s) : Frame tierParts (s.applyPolicy ln m pol) s := by
  unfold Chip.applyPolicy
  dsimp only
  have base := (Chip.heatCount_frame (s.tierWrite ln) (ln / 64) m).trans (s.tierWrite_frame ln k)
  exact Frame.ite _ (s.makeDirty_frame ln k) (Frame.ite _ ((Chip.dropCached_frame _ ln).trans base) base)

theorem Chip.saveMedia_frame (s : Chip) (dla : Nat) : Frame tierParts (s.saveMedia dla) s := by
  unfold Chip.saveMedia
  exact Frame.ite _ (Frame.set_kiln (by decide) s _) (Frame.refl _ _)

/-! ### Of the map, a line's way touches the map cache only (R86, R246) -/

/-- The map is as before but for what its cache holds and when a page was last written. -/
abbrev MapKept (t s : Chip) : Prop := t.map = { s.map with cache := t.map.cache, wrote := t.map.wrote }

theorem MapKept.trans {a b s : Chip} (h : MapKept a b) (k : MapKept b s) : MapKept a s := by
  unfold MapKept at *
  rw [h, k]

theorem MapKept.of_eq {a s : Chip} (h : a.map = s.map) : MapKept a s := by
  unfold MapKept
  rw [h]

theorem Chip.mapTouch_map (s : Chip) (k : Nat) : MapKept (s.mapTouch k) s := by
  unfold Chip.mapTouch
  dsimp only
  split
  · rfl
  · split <;> rfl

theorem Chip.retranslate_map (s : Chip) (ln gen : Nat) : MapKept (s.retranslate ln gen) s := by
  unfold Chip.retranslate
  split
  · rfl
  · exact (Chip.mapTouch_map _ _).trans (Chip.mapTouch_map _ _)

theorem Chip.catchMask_map (s : Chip) (ln : Nat) : (s.catchMask ln).map = s.map := by
  unfold Chip.catchMask
  split
  · dsimp only
    split <;> rfl
  · rfl

theorem Chip.tierWrite_map (s : Chip) (ln : Nat) (h : KeysHold s) : (s.tierWrite ln).map = s.map := by
  have hc := s.catchMask_map ln
  have h1 : KeysHold (s.catchMask ln) := (s.catchMask_frame ln).keys h
  have hm (c : Chip) (n g : Nat) : (if (c.ddr n).freeze = 1 ∧ !(c.ddr n).stale.contains g then
      c.setDdr n { c.ddr n with stale := (c.ddr n).stale ++ [g] } else c).map = c.map := by
    split <;> rfl
  unfold Chip.tierWrite
  dsimp only
  split
  · rw [Chip.storeHbm_eq _ _ ((Frame.set_kiln (l := tierParts) (by decide) (s.catchMask ln) _).keys h1)]
    exact hc
  · rw [Chip.storeHbm_eq _ _ h1]
    exact hc
  · rw [Chip.keyFault_eq _ _ h1]
    simp only [Bool.false_eq_true, if_false]
    split <;> (split <;> simp only [hm, hc])
  · exact hc

theorem Chip.cleanLine_map (s : Chip) (ln : Nat) (h : KeysHold s) : MapKept (s.cleanLine ln) s := by
  unfold Chip.cleanLine
  split
  · next c _ =>
    split
    · have k := ((s.retranslate_frame ln c.gen).mono (m := tierParts) (by decide)).keys h
      exact (MapKept.of_eq (Chip.tierWrite_map _ ln k)).trans (s.retranslate_map ln c.gen)
    · rfl
  · rfl

theorem Chip.freeWay_map (s t : Chip) (set w : Nat) (k : KeysHold s) (h : s.freeWay set = some (w, t)) : MapKept t s := by
  unfold Chip.freeWay at h
  dsimp only at h
  split at h
  · cases h
    rfl
  · split at h
    · cases h
    · split at h
      · cases h
        rfl
      · cases h
        split
        · exact s.cleanLine_map _ k
        · rfl

theorem Chip.fill_map (s t : Chip) (ln : Nat) (k : KeysHold s) (h : s.fill ln = some t) : MapKept t s := by
  unfold Chip.fill at h
  split at h
  · cases h
    rfl
  · split at h
    · cases h
    · next e =>
      cases h
      have m := s.freeWay_map _ _ _ k e
      exact m

theorem Chip.fetchMac_map (s : Chip) (ln : Nat) (k : KeysHold s) : MapKept (s.fetchMac ln) s := by
  unfold Chip.fetchMac
  split
  · split
    · next e =>
      have m := s.freeWay_map _ _ _ k e
      exact m
    · rfl
  · rfl

theorem Chip.makeDirty_map (s : Chip) (ln : Nat) (k : KeysHold s) : MapKept (s.makeDirty ln) s := by
  have two (c : Chip) : MapKept (match Tab.find c.cache.lines ln with
      | some x => ({ c with cache := { c.cache with lines := Tab.set c.cache.lines ln { x with heavy := c.heavyNow ln } } } : Chip)
      | none => c) c := by
    split <;> rfl
  have one (c : Chip) (h : Frame tierParts c s) (m : c.map = s.map) : MapKept (c.fetchMac ln) s :=
    (Chip.fetchMac_map c ln (h.keys k)).trans (MapKept.of_eq m)
  unfold Chip.makeDirty
  dsimp only
  refine (two _).trans (one _ ?_ ?_)
  · split
    · exact Frame.set_cache (by decide) s _
    · exact Frame.refl _ _
  · split <;> rfl

theorem Chip.heatCount_map (s : Chip) (p m : Nat) : (s.heatCount p m).map = s.map := by
  unfold Chip.heatCount
  split
  · rfl
  · split
    · rfl
    · split
      · rfl
      · split
        · rfl
        · dsimp only
          split <;> rfl

theorem Chip.applyPolicy_map (s : Chip) (ln m pol : Nat) (k : KeysHold s) : MapKept (s.applyPolicy ln m pol) s := by
  have base : ((s.tierWrite ln).heatCount (ln / 64) m).map = s.map := (Chip.heatCount_map _ _ _).trans (s.tierWrite_map ln k)
  unfold Chip.applyPolicy
  dsimp only
  split
  · exact s.makeDirty_map ln k
  · split
    · exact MapKept.of_eq base
    · exact MapKept.of_eq base

/-- A line takes new content: its bytes are the new ones, and every byte outside it is as before. -/
theorem Chip.putLine_mem (s : Chip) (dla : Nat) (data : Line) (poison : Bool) :
    (s.putLine dla data poison).mem = Mem.writeLine s.mem (lineBase dla) fullMask data := by
  have a : (s.saveMedia dla).mem = s.mem := s.saveMedia_frame dla .mem (by decide)
  have b (c : Chip) : (c.setPoison dla poison).mem = c.mem := c.setPoison_frame dla poison .mem (by decide)
  unfold Chip.putLine
  rw [b]
  simp only [a]

/-- A line reads as it was last put. -/
theorem Chip.putLine_line (s : Chip) (dla : Nat) (data : Line) (poison : Bool) : (s.putLine dla data poison).line dla = data := by
  unfold Chip.line
  rw [Chip.putLine_mem]
  exact Mem.line_writeLine _ _ _

/-- A line put keeps every other byte. -/
theorem Chip.putLine_other (s : Chip) (dla : Nat) (data : Line) (poison : Bool) (x : Nat) (h : x < lineBase dla ∨ lineBase dla + 64 ≤ x) :
    Tab.get 0 (s.putLine dla data poison).mem x = Tab.get 0 s.mem x := by
  rw [Chip.putLine_mem]
  exact Mem.writeLine_other _ _ _ _ _ h

/-- A line put keeps memory's canonical form. -/
theorem Chip.putLine_wf (s : Chip) (dla : Nat) (data : Line) (poison : Bool) (h : Tab.wf 0 s.mem = true) :
    Tab.wf 0 (s.putLine dla data poison).mem = true := by
  rw [Chip.putLine_mem]
  exact Mem.writeLine_wf _ _ _ _ h

/-- The parts that a line write may change. -/
abbrev storeParts : List Part := [.mem, .macs, .poison, .integ, .cache, .lauter, .kiln, .dram, .map]

theorem Chip.putLine_frame (s : Chip) (dla : Nat) (data : Line) (poison : Bool) : Frame storeParts (s.putLine dla data poison) s := by
  have a : Frame storeParts (s.saveMedia dla) s := (s.saveMedia_frame dla).mono (by decide)
  unfold Chip.putLine
  dsimp only
  generalize s.saveMedia dla = t at a
  refine ((Chip.setPoison_frame _ dla poison).mono (by decide)).trans (Frame.trans ?_ a)
  intro p hp
  cases p <;> first | rfl | exact absurd (by decide) hp

theorem Chip.countAsk_frame (s : Chip) (k : Nat) (q : Ask) (n : Nat) : Frame [.cnt] (s.countAsk k q n) s := by
  unfold Chip.countAsk
  exact Frame.ite _ (Frame.set_cnt (by decide) s _) (Frame.refl _ _)

/-- A message to a head changes that head only. -/
theorem Chip.sendHead_frame (s : Chip) (h : Nat) (m : HeadMsg) : Frame [.heads] (s.sendHead h m) s := by
  unfold Chip.sendHead
  exact Frame.ite _ (Frame.set_heads (by decide) s _) (Frame.set_heads (by decide) s _)

/-- What the encryption of a stream counts leaves what was sent (R73). -/
theorem Chip.ideFlit_sent (s : Chip) (x : Head) : (s.ideFlit x).sent = x.sent := by
  unfold Chip.ideFlit
  repeat' split
  all_goals rfl

/-- A head whose link is in L0 is sent the message (R76). -/
theorem Chip.sendHead_sent (s : Chip) (h : Nat) (m : HeadMsg) (up : (s.head h).detect = false) :
    ((s.sendHead h m).head h).sent = (s.head h).sent ++ [m] := by
  unfold Chip.sendHead
  simp [up, Chip.ideFlit_sent]

/-- The answer to a head joins what the device has sent it, and poisoned data is counted. -/
theorem Chip.deliver_head_frame (s : Chip) (h tag : Nat) (mv : Meta) (k : AccKind) (a : Nat) (d : Line) (p : Bool) :
    Frame [.heads, .cnt] (s.deliver (.head h tag mv) k a d p) s := by
  simp only [Chip.deliver, Chip.deliverTo]
  have f (m : HeadMsg) : Frame [.heads, .cnt] (s.sendHead h m) s := (s.sendHead_frame h m).mono (by decide)
  exact Frame.ite _ ((Frame.set_cnt (by decide) _ _).trans (f _)) (f _)

theorem Chip.deliver_head_sent (s : Chip) (h tag : Nat) (mv : Meta) (k : AccKind) (a : Nat) (d : Line) (p : Bool)
    (up : (s.head h).detect = false) :
    ((s.deliver (.head h tag mv) k a d p).head h).sent =
      (s.head h).sent ++ [if k = .read then .data tag d p (decide (mv = .i)) else .cmp tag] := by
  have e (c : Chip) (n : Nat) : (c.countHead h 7 n).head h = c.head h := rfl
  simp only [Chip.deliver, Chip.deliverTo]
  split <;> simp [e, Chip.sendHead_sent, up]

end Sys2Proof.Machine
end

