-- ==== Sys2Proof/Laws/Shared.lean ====
section
/-!
SUPPORT. Laws/Shared.lean: what the operations that many commands share leave of the device: raising a source, answering a mailbox,
dropping a head's outstanding requests, and committing to the journal.
-/
namespace Sys2Proof.Machine

/-- Nothing but the alarm queue and its loss count differs. -/
def AlarmsOnly (a b : FieldUnit) : Prop := a = { b with alarms := a.alarms, alarmsLost := a.alarmsLost }

theorem AlarmsOnly.refl (a : FieldUnit) : AlarmsOnly a a := rfl

theorem AlarmsOnly.trans {a b c : FieldUnit} (h : AlarmsOnly a b) (g : AlarmsOnly b c) : AlarmsOnly a c := by
  unfold AlarmsOnly at *
  rw [h, g]

/-- Raising a source changes nothing of the field port but its alarm queue (R475). -/
theorem Chip.raise_field (s : Chip) (n m d : Nat) (b : Block) (hs : List Nat) : AlarmsOnly (s.raise n m d b hs).field s.field := by
  have st (c : Chip) (p : Prop) [Decidable p] (f : Chip → Chip) (hf : ∀ x : Chip, AlarmsOnly (f x).field x.field)
      (hc : AlarmsOnly c.field s.field) : AlarmsOnly (if p then f c else c).field s.field := by
    split
    · exact (hf c).trans hc
    · exact hc
  have q (x : Chip) (f : List Byte) : AlarmsOnly (x.queueAlarm f).field x.field := by
    unfold Chip.queueAlarm
    split <;> rfl
  have pe (x : Chip) (sev : Nat) (r : Nat → LogRec) : AlarmsOnly (x.postEvent hs sev r).field x.field := by
    rw [Chip.postEvent_frame]
    rfl
  have re (c : Chip) (rise : Bool) (hc : AlarmsOnly c.field s.field) : AlarmsOnly (c.react n m d b rise hs).field s.field := by
    refine st _ _ (fun c => { c with fault := { c.fault with wantSafe := true } }) (fun _ => rfl) ?_
    refine st _ _ (fun c => { c with fault := { c.fault with wantChip := true } }) (fun _ => rfl) ?_
    refine st _ _ (fun c => { c with fault := { c.fault with wantBlocks := c.fault.wantBlocks ++ [b] } }) (fun _ => rfl) ?_
    refine st _ _ (fun c => c.queueAlarm (c.alarmBytes n m)) (fun x => q x _) ?_
    refine st _ _ (fun c => { c with fault := { c.fault with nmis := c.fault.nmis + 1 } }) (fun _ => rfl) ?_
    exact st _ _ (fun c => c.postEvent hs _ _) (fun x => pe x _ _) hc
  unfold Chip.raise
  dsimp only
  split
  · exact re _ _ rfl
  · split <;> exact rfl

/-- The pending window of a tag that is not in effect. -/
theorem Chip.waiting_of_find (s : Chip) (tag : Nat) (w : Window) (h1 : s.win.pending.find? (fun w => decide (w.tag = tag)) = some w)
    (h2 : w.active = false) : s.waitingWindow tag = some w := by
  unfold Chip.waitingWindow
  revert h1
  induction s.win.pending with
  | nil => simp
  | cons a r ih =>
    simp only [List.find?_cons]
    by_cases e : a.tag = tag
    · simp [e]; rintro rfl; simp [h2]
    · simp [e]; simpa using ih

/-- The first element that a change finds is changed, and the list keeps its length. -/
theorem modFirst_find {α : Type} (l : List α) (p : α → Bool) (f : α → α) (w : α) (h : l.find? p = some w) :
    f w ∈ modFirst p f l ∧ (modFirst p f l).length = l.length := by
  induction l with
  | nil => simp at h
  | cons a r ih =>
    simp only [List.find?_cons] at h
    simp only [modFirst]
    cases e : p a
    · simp only [e] at h; simp [ih h]
    · simp only [e] at h; cases h; simp

theorem modFirst_length {α : Type} (l : List α) (p : α → Bool) (f : α → α) : (modFirst p f l).length = l.length := by
  induction l with
  | nil => rfl
  | cons a r ih => simp only [modFirst]; split <;> simp [*]

/-- A head without held accesses, and without messages that wait, has none to resume. -/
theorem Chip.resume_none (s : Chip) (h : Nat) (hw : s.waits.all (fun w => decide (w.why ≠ .detect)) = true) (ho : (s.head h).owed = []) :
    s.resumeHead h = s := by
  have a : s.waits.filter (fun w => decide (w.why = .detect) && w.acc.ret.isHead h) = [] := by
    rw [List.filter_eq_nil_iff]; intro w m
    have := List.all_eq_true.mp hw w m
    simp at this; simp [this]
  have b : s.waits.filter (fun w => !(decide (w.why = .detect) && w.acc.ret.isHead h)) = s.waits := by
    rw [List.filter_eq_self]; intro w m
    have := List.all_eq_true.mp hw w m
    simp at this; simp [this]
  unfold Chip.resumeHead
  simp only [ho, List.isEmpty_nil, if_true, a, b]
  rfl

theorem Chip.dropOutstanding_same (c : Chip) (h : Nat) : ∃ f, (c.dropOutstanding h).head h = { c.head h with owed := [], failRec := some f } := by
  unfold Chip.dropOutstanding; dsimp only; rw [Chip.head_setHead]; exact ⟨_, rfl⟩

theorem Chip.dropOutstanding_other (c : Chip) (h j : Nat) (hj : j ≠ h) : (c.dropOutstanding h).head j = c.head j := by
  unfold Chip.dropOutstanding; dsimp only; rw [Chip.head_setHead_other _ _ hj]; rfl

theorem Chip.dropOutstanding_mem (c : Chip) (h : Nat) : (c.dropOutstanding h).mem = c.mem := rfl

theorem Chip.dropOutstanding_agent (c : Chip) (h j : Nat) : (c.dropOutstanding h).headAgent j = c.headAgent j := rfl

theorem Chip.dropOutstanding_txns (c : Chip) (h : Nat) (e : c.coh.txns = []) : (c.dropOutstanding h).coh.txns = [] := by
  have : (c.dropOutstanding h).coh.txns = c.coh.txns.map _ := rfl
  rw [this, e]; rfl

/-- A journal record touches the journal and its medium. -/
theorem Chip.jAppend_frame (c : Chip) (a b d e : Nat) : Frame [.lauter, .kiln] (c.jAppend a b d e) c := by
  unfold Chip.jAppend; dsimp only
  intro p hp; cases p <;> first | rfl | exact absurd (by decide) hp

/-- What a mailbox answer leaves (R55, R66). -/
theorem Chip.mboxAnswer_facts (c : Chip) (h : Fin 4) (op : Nat) (rc : MboxRc) (out : MboxOut) :
    ((c.mboxAnswer h op rc out).head h).mbox.rc = rc ∧ ((c.mboxAnswer h op rc out).head h).mbox.out = out
    ∧ bitOf ((c.mboxAnswer h op rc out).head h).msix 0 = true ∧ Frame [.heads, .cnt] (c.mboxAnswer h op rc out) c := by
  have e : ∀ (c : Chip) (n : Nat), (c.countHead h 13 n).head h = c.head h := fun _ _ => rfl
  unfold Chip.mboxAnswer
  dsimp only
  rw [e, Chip.head_setHead]
  refine ⟨rfl, rfl, by simp, ?_⟩
  exact (Frame.set_cnt (by decide) _ _).trans (Frame.set_heads (by decide) _ _)

/-- A record written to every copy touches what is known of damaged copies only (R83). -/
theorem Chip.recWritten_frame (c : Chip) (k : Nat) : Frame [.map] (c.recWritten k) c := Frame.set_map (by decide) c _

/-- A directory entry is journalled and written: the journal and its medium, and what is known of damaged copies. -/
theorem Chip.commitDir_eq (c : Chip) (b : Nat) :
    ∃ x, (c.commitDir b).map = { c.map with badRecs := x } ∧ Frame [.lauter, .kiln, .map] (c.commitDir b) c := by
  unfold Chip.commitDir
  exact ⟨_, rfl, ((Chip.recWritten_frame _ _).mono (by decide)).trans ((Chip.jAppend_frame c _ _ _ _).mono (by decide))⟩

/-- A mapping commit touches the journal and its medium, and what is known of damaged copies. -/
theorem Chip.commitExtent_eq (c : Chip) (e : Extent) :
    ∃ x, (c.commitExtent e).map = { c.map with badRecs := x } ∧ Frame [.lauter, .kiln, .map] (c.commitExtent e) c := by
  unfold Chip.commitExtent
  have cj : ∀ (bs : List Nat) (c : Chip), ∃ x, (bs.foldl (fun s b => s.commitDir b) c).map = { c.map with badRecs := x }
      ∧ Frame [.lauter, .kiln, .map] (bs.foldl (fun s b => s.commitDir b) c) c := by
    intro bs
    induction bs with
    | nil => intro c; exact ⟨_, rfl, Frame.refl _ _⟩
    | cons b bs ih =>
      intro c
      obtain ⟨x, hx, fx⟩ := c.commitDir_eq b
      obtain ⟨y, hy, fy⟩ := ih (c.commitDir b)
      exact ⟨y, by rw [List.foldl_cons, hy, hx], fy.trans fx⟩
  exact cj _ _

theorem Chip.commitExtent_frame (c : Chip) (e : Extent) : Frame [.lauter, .kiln, .map] (c.commitExtent e) c := (c.commitExtent_eq e).choose_spec.2

theorem Chip.commitExtent_slots (c : Chip) (e : Extent) : (c.commitExtent e).lauter.slots = c.lauter.slots := by
  unfold Chip.commitExtent
  have cj : ∀ (bs : List Nat) (c : Chip), (bs.foldl (fun s b => s.commitDir b) c).lauter.slots = c.lauter.slots := by
    intro bs
    induction bs with
    | nil => intro c; rfl
    | cons b bs ih => intro c; exact (ih _).trans rfl
  exact cj _ _

/-! ### Seedbank -/

/-- What an append to Seedbank may change. -/
abbrev sbParts : List Part := [.sb, .fault, .heads, .field]

theorem Chip.setSec_sb (s : Chip) (k : Nat) (x : Sector) : Frame sbParts (s.setSec k x) s := Frame.set_sb (by decide) _ _

theorem Chip.sbPlace_frame (s d : Chip) (k key seq : Nat) (p : List Byte) (b : Bool) (h : s.sbPlace k key seq p b = some d) :
    Frame sbParts d s := by
  have put (c : Chip) (j : Nat) (x : Sector) (r : List SbRec) :
      Frame sbParts { c.setSec j x with sb := { (c.setSec j x).sb with recs := r } } c :=
    (Frame.set_sb (by decide) (c.setSec j x) _).trans (c.setSec_sb j x)
  unfold Chip.sbPlace at h
  dsimp only at h
  split at h
  · split at h
    · rw [← Option.some.inj h]
      exact put _ _ _ _
    · split at h
      · cases h
      · rw [← Option.some.inj h]
        exact (put _ _ _ _).trans ((Chip.setSec_sb _ _ _).trans (Chip.setSec_sb _ _ _))
  · split at h
    · cases h
    · rw [← Option.some.inj h]
      exact (put _ _ _ _).trans (Chip.setSec_sb _ _ _)

theorem Chip.sbSpend_frame (s : Chip) (n : Nat) : Frame sbParts (s.sbSpend n) s := by
  unfold Chip.sbSpend
  dsimp only
  exact Frame.ite _ ((Frame.mono (Chip.raise_eq _ _ _ _ _ _).frame (by decide)).trans (Frame.set_sb (by decide) _ _))
    (Frame.set_sb (by decide) _ _)

/-- An append changes Seedbank, and raises its allowance's source at most (R489, R495). -/
theorem Chip.sbAppend_frame (s : Chip) (k key : Nat) (p : List Byte) : Frame sbParts (s.sbAppend k key p).2 s := by
  have go (c : Prop) [Decidable c] (seq n : Nat) : Frame sbParts (if c then (false, s) else
      match s.sbPlace k key seq p true with
      | some d => (true, d.sbSpend n)
      | none => (false, s)).2 s := by
    split
    · exact Frame.refl _ s
    · cases e : s.sbPlace k key seq p true with
      | some d => exact (Chip.sbSpend_frame d n).trans (Chip.sbPlace_frame _ _ _ _ _ _ _ e)
      | none => exact Frame.refl _ s
  exact go _ _ _

/-- An RWP object takes a value once its record is committed, or it keeps its own and the abort code is store-failed (R454). -/
theorem Chip.commitRwp_cases (s : Chip) (key size v : Nat) :
    s.commitRwp key size v = (0, (s.sbAppend 1 (paramKey key) (bytesLE size v)).2.setRwp key v)
      ∨ s.commitRwp key size v = (0x00060001, s) := by
  unfold Chip.commitRwp
  rcases s.sbAppend 1 (paramKey key) (bytesLE size v) with ⟨b, c⟩
  cases b
  · exact Or.inr rfl
  · exact Or.inl rfl

theorem Chip.storeTable_facts (s : Chip) (t v : Nat) :
    (t < 0x400 → (s.storeTable t v).1 = 0 ∧ Tab.find (s.storeTable t v).2.rw (tableKey t) = some v)
      ∧ (0x400 ≤ t → (s.storeTable t v).1 = 0 → Tab.find (s.storeTable t v).2.rwp (tableKey t) = some v)
      ∧ ((s.storeTable t v).1 ≠ 0 → (s.storeTable t v).2 = s)
      ∧ (∀ k, k ≠ tableKey t → (s.storeTable t v).2.cfg k = s.cfg k)
      ∧ Frame ([.rw, .rwp, .accBad] ++ sbParts) (s.storeTable t v).2 s := by
  unfold Chip.storeTable
  by_cases h : t < 0x400
  · rw [if_pos h]
    refine ⟨fun _ => ⟨rfl, Tab.find_set_same _ _ _⟩, fun g => absurd h (by omega), fun g => absurd rfl g, fun k hk => ?_, ?_⟩
    · exact Chip.cfg_setRw_other s v hk
    · exact (Frame.set_accBad (by decide) (s.setRw (tableKey t) v) _).trans (Frame.set_rw (by decide) _ _)
  · rw [if_neg h]
    rcases s.commitRwp_cases (tableKey t) 128 v with e | e
    · rw [e]
      have fr := s.sbAppend_frame 1 (paramKey (tableKey t)) (bytesLE 128 v)
      generalize (s.sbAppend 1 (paramKey (tableKey t)) (bytesLE 128 v)).2 = u at *
      refine ⟨fun g => absurd g h, fun _ _ => Tab.find_set_same _ _ _, fun g => absurd rfl g, fun k hk => ?_, ?_⟩
      · have a := fr .rw (by decide)
        have b := fr .rwp (by decide)
        simp only [Part.same] at a b
        have : u.cfg k = s.cfg k := by unfold Chip.cfg; rw [a, b]
        rw [← this]
        exact Chip.cfg_setRwp_other u v hk
      · exact (Frame.set_accBad (by decide) (u.setRwp (tableKey t) v) _).trans
          ((Frame.set_rwp (by decide) _ _).trans (fr.mono (by decide)))
    · rw [e]
      exact ⟨fun g => absurd g h, fun _ g => absurd (show 0x00060001 = 0 from g) (by decide), fun _ => rfl, fun _ _ => rfl, Frame.refl _ s⟩

theorem Chip.violation_frame (s : Chip) (m : Nat) : Frame [.cnt, .fault, .heads, .field] (s.violation m) s := by
  unfold Chip.violation
  dsimp only
  refine (Frame.mono (Chip.raise_eq _ _ _ _ _ _).frame (by decide)).trans ?_
  exact Frame.ite _ (Frame.set_cnt (by decide) _ _) (Frame.ite _ (Frame.set_cnt (by decide) _ _) (Frame.refl _ _))

/-- An access without its right changes no memory and no object (R112, R114). -/
theorem Chip.deny_frame (s : Chip) (t m : Nat) : Frame [.cnt, .fault, .heads, .field] (s.deny t m) s := by
  unfold Chip.deny
  exact Frame.ite _ (Frame.mono (Chip.raise_eq _ _ _ _ _ _).frame (by decide)) (s.violation_frame m)

end Sys2Proof.Machine
end

