-- ==== Sys2Proof/Laws/Blocks.lean ====
section
/-!
SUPPORT. Laws/Blocks.lean: what placing a unit of the non-volatile tier leaves of the device (R300, R308, R331).
-/
namespace Sys2Proof.Machine

open Sys2Proof

@[simp] theorem Chip.blk_setBlk (c : Chip) (ch b : Nat) (x : Blk) : (c.setBlk ch b x).blk ch b = x := by
  unfold Chip.blk Chip.setBlk; simp

theorem Chip.setBlk_frame (c : Chip) (ch b : Nat) (x : Blk) : Frame [.kiln] (c.setBlk ch b x) c := Frame.set_kiln (by decide) _ _

/-- A device whose blocks alone differ from those of `c`, fault records apart. -/
def BlocksOnly (a c : Chip) : Prop := Frame [.kiln, .fault, .heads, .field] a c ∧ ∃ t, a.kiln = { c.kiln with blocks := t }

theorem BlocksOnly.refl (c : Chip) : BlocksOnly c c := ⟨Frame.refl _ _, _, rfl⟩

theorem BlocksOnly.trans {a b c : Chip} (h : BlocksOnly a b) (g : BlocksOnly b c) : BlocksOnly a c := by
  obtain ⟨h1, t, h2⟩ := h
  obtain ⟨g1, u, g2⟩ := g
  exact ⟨h1.trans g1, t, by rw [h2, g2]⟩

theorem Chip.setBlk_only (c : Chip) (ch b : Nat) (x : Blk) : BlocksOnly (c.setBlk ch b x) c :=
  ⟨(c.setBlk_frame ch b x).mono (by decide), _, rfl⟩

theorem Chip.addWear_only (c : Chip) (ch b n : Nat) :
    BlocksOnly (c.addWear ch b n) c ∧ (c.addWear ch b n).blk ch b = { c.blk ch b with lines := (c.blk ch b).lines + n } := by
  unfold Chip.addWear
  extract_lets x mark y s'
  have h : BlocksOnly s' c := Chip.setBlk_only _ _ _ _
  split
  · have r := (Chip.raise_eq s' 107 0xFF 0 .none [0, 1, 2, 3]).frame
    have k : (s'.raise 107).kiln = s'.kiln := r .kiln (by decide)
    refine ⟨⟨(r.mono (by decide)).trans h.1, ?_⟩, ?_⟩
    · rw [k]; exact h.2
    · unfold Chip.blk; rw [k]; exact Chip.blk_setBlk c ch b y
  · exact ⟨h, Chip.blk_setBlk c ch b y⟩

/-- A unit takes its place: its block is open, and the next unit goes after it (R308). -/
theorem Chip.placeUnit_facts (c : Chip) (ch loc n : Nat) :
    BlocksOnly (c.placeUnit ch loc n) c ∧ ((c.placeUnit ch loc n).blk ch (loc / 32768)).opened = true
    ∧ ((c.placeUnit ch loc n).blk ch (loc / 32768)).next = loc % 32768 + n := by
  unfold Chip.placeUnit
  extract_lets b d0 x s' y
  have h : BlocksOnly s' c ∧ (s'.blk ch b).opened = true := by
    by_cases h : (c.blk ch b).opened = true
    · have e : s' = c := if_pos h
      rw [e]; exact ⟨BlocksOnly.refl c, h⟩
    · have e : s' = (d0.setBlk ch b { x with opened := true, age := 0, moved := 0, rewrite := false }).addWear ch b 8 := if_neg h
      have hd : BlocksOnly d0 c := by
        show BlocksOnly (match c.openBlock ch (b / 32768) with | some o => c.closeBlk ch o | none => c) c
        split
        · exact Chip.setBlk_only _ _ _ _
        · exact BlocksOnly.refl c
      have w := Chip.addWear_only (d0.setBlk ch b { x with opened := true, age := 0, moved := 0, rewrite := false }) ch b 8
      rw [e]
      refine ⟨w.1.trans ((Chip.setBlk_only _ _ _ _).trans hd), ?_⟩
      rw [w.2, Chip.blk_setBlk]
  have w := Chip.addWear_only (s'.setBlk ch b { y with next := loc % 32768 + n }) ch b n
  refine ⟨w.1.trans ((Chip.setBlk_only _ _ _ _).trans h.1), ?_, ?_⟩
  · show (Chip.blk _ ch b).opened = true
    rw [w.2, Chip.blk_setBlk]; exact h.2
  · show (Chip.blk _ ch b).next = _
    rw [w.2, Chip.blk_setBlk]

theorem BlocksOnly.same {a c : Chip} (h : BlocksOnly a c) : a.kiln.progs = c.kiln.progs ∧ a.kiln.absorbed = c.kiln.absorbed
    ∧ a.kiln.suspendAborts = c.kiln.suspendAborts := by
  obtain ⟨_, t, e⟩ := h
  rw [e]; exact ⟨rfl, rfl, rfl⟩

end Sys2Proof.Machine
end

