-- ==== Sys2Proof/Laws/Home.lean ====
section
/-!
SUPPORT. Laws/Home.lean: a home with nothing to do does nothing.
-/
namespace Sys2Proof.Machine

/-- Folding a function that keeps a value keeps it. -/
theorem foldl_same {α β : Type} (l : List α) (f : β → α → β) (b : β) (h : ∀ a ∈ l, f b a = b) : l.foldl f b = b := by
  induction l with
  | nil => rfl
  | cons a r ih =>
    simp only [List.foldl_cons, h a (by simp)]
    exact ih (fun x hx => h x (by simp [hx]))

/-- Nothing is queued, active or retried at the home, and no entry of the filter is to be taken back. -/
def Chip.homeQuiet (s : Chip) : Prop :=
  s.coh.txns = [] ∧ s.coh.queue = [] ∧ s.coh.devQueue = [] ∧ s.coh.retrySince = 0 ∧ s.homeIdle = true

theorem Chip.insertLru_mem (l : List (Nat × FilterEnt)) (x e : Nat × FilterEnt) (h : e ∈ insertLru x l) : e = x ∨ e ∈ l := by
  induction l with
  | nil => simpa [insertLru] using h
  | cons y r ih =>
    unfold insertLru at h
    split at h
    · simpa using h
    · rcases List.mem_cons.mp h with rfl | h
      · exact .inr (by simp)
      · rcases ih h with rfl | h
        · exact .inl rfl
        · exact .inr (by simp [h])

theorem Chip.byLru_mem (s : Chip) (e : Nat × FilterEnt) (h : e ∈ s.byLru) : e ∈ s.coh.filter := by
  have g : ∀ (l acc : List (Nat × FilterEnt)), e ∈ l.foldl (fun a x => insertLru x a) acc → e ∈ l ∨ e ∈ acc := by
    intro l
    induction l with
    | nil => intro acc h; exact .inr h
    | cons y r ih =>
      intro acc h
      rcases ih _ h with h | h
      · exact .inl (by simp [h])
      · rcases Chip.insertLru_mem _ _ _ h with rfl | h
        · exact .inl (by simp)
        · exact .inr h
  unfold Chip.byLru at h
  rcases g _ _ h with h | h
  · exact h
  · cases h

/-- With nothing to take back the home finds no work of its own. -/
theorem Chip.homeWork_idle (s : Chip) (h : s.homeQuiet) : s.homeWork = s := by
  obtain ⟨t, q, d, -, w⟩ := h
  have w : ∀ e ∈ s.coh.filter, s.evictable e.1 = false ∧ s.recalled e.1 e.2.domain = false := by
    intro e he
    have x := List.all_eq_true.mp w e he
    have n : s.takingBack e.1 = false := by simp [Chip.takingBack, t, q, d]
    simp only [n, Bool.or_false, Bool.and_eq_true, Bool.not_eq_true'] at x
    exact x
  have r : s.recallPass = s := foldl_same _ _ _ (fun e he => by simp [(w e he).2])
  unfold Chip.homeWork
  rw [r]
  exact foldl_same _ _ _ (fun e he => by simp [(w e (s.byLru_mem e he)).1])

theorem Chip.cohPump_idle (s : Chip) (h : s.homeQuiet) : s.cohPump = s := by
  have w := s.homeWork_idle h
  obtain ⟨t, q, d, r, -⟩ := h
  have n : s.nextStart = none := by simp [Chip.nextStart, q]
  have m : s.nextAdmit = none := by simp [Chip.nextAdmit, d]
  have l (k : Nat) : s.cohLoop k = s := by
    cases k with
    | zero => rfl
    | succ k => simp [Chip.cohLoop, t, n, m, w]
  unfold Chip.cohPump
  rw [l]
  refine foldl_same _ _ _ (fun a _ => ?_)
  simp [Chip.maybePull, r, bitOf]

end Sys2Proof.Machine
end

