-- ==== Sys2Proof/Laws/LinkTx.lean ====
section
/-!
SUPPORT. Laws/LinkTx.lean: what sending on a Semund link may change.
-/
namespace Sys2Proof.Machine

/-- What sending on a link may change: links, key counters, counters and ledgers, and what a raise changes. -/
abbrev txParts : List Part := [.links, .husk, .cnt, .fault, .heads, .field]

theorem Chip.setLink_tx (s : Chip) (l : Nat) (x : Link) : Frame txParts (s.setLink l x) s := Frame.set_links (by decide) _ _

theorem Chip.flitCounted_frame (s : Chip) (l : Nat) : Frame txParts (s.flitCounted l) s := by
  unfold Chip.flitCounted
  dsimp only
  split
  · split
    · exact ((Chip.raise_eq _ _ _ _ _ _).frame.mono (by decide)).trans (Frame.set_husk (by decide) _ _)
    · exact Frame.set_husk (by decide) _ _
  · exact Frame.refl _ s

theorem Frame.foldl {α : Type} {l : List Part} (xs : List α) (f : Chip → α → Chip) (h : ∀ c a, Frame l (f c a) c) (s : Chip) :
    Frame l (xs.foldl f s) s := by
  induction xs generalizing s with
  | nil => exact Frame.refl _ s
  | cons a r ih => exact (ih (f s a)).trans (h s a)

theorem Chip.count_cnt (s : Chip) (k n : Nat) : Frame [.cnt] (s.count k n) s := Frame.set_cnt (by decide) _ _

theorem Chip.charge_cnt (s : Chip) (p d k n : Nat) : Frame [.cnt] (s.charge p d k n) s := by
  unfold Chip.charge
  dsimp only
  have a : Frame [.cnt] (if k < 14 then (s.count (768 + 32 * p + 16 * d + k) n).count (768 + 32 * p + 16 * d) n
      else s.count (768 + 32 * p + 16 * d + k) n) s :=
    Frame.ite _ ((Chip.count_cnt _ _ _).trans (Chip.count_cnt _ _ _)) (Chip.count_cnt _ _ _)
  generalize (if k < 14 then (s.count (768 + 32 * p + 16 * d + k) n).count (768 + 32 * p + 16 * d) n
      else s.count (768 + 32 * p + 16 * d + k) n) = c at *
  exact Frame.ite _ ((Chip.count_cnt _ _ _).trans a) a

theorem Chip.sendPacket_frame (s : Chip) (l : Nat) (p : Packet) : Frame txParts (s.sendPacket l p) s := by
  have base (k : Link) (xs : List (List (BitVec 128))) (a b c d : Nat) :
      Frame txParts ((xs.foldl (fun (s : Chip) _ => s.flitCounted l) (s.setLink l k)).charge a b c d) s :=
    ((Chip.charge_cnt _ _ _ _ _).mono (by decide)).trans
      ((Frame.foldl xs (fun (s : Chip) _ => s.flitCounted l) (fun c _ => c.flitCounted_frame l) _).trans (s.setLink_tx l k))
  unfold Chip.sendPacket
  dsimp only
  split
  · exact ((Chip.count_cnt _ _ _).mono (by decide)).trans (base _ _ _ _ _ _)
  · exact ((Chip.count_cnt _ _ _).mono (by decide)).trans (base _ _ _ _ _ _)
  · exact ((Chip.count_cnt _ _ _).mono (by decide)).trans (base _ _ _ _ _ _)
  · exact base _ _ _ _ _ _

theorem Chip.pumpLink_frame (n : Nat) : ∀ (s : Chip) (l : Nat), Frame txParts (s.pumpLink l n) s := by
  induction n with
  | zero => intro s l; exact Frame.refl _ s
  | succ n ih =>
    intro s l
    unfold Chip.pumpLink
    dsimp only
    split
    · split
      · split
        · exact (ih _ l).trans ((Chip.sendPacket_frame _ l _).trans (s.setLink_tx l _))
        · exact Frame.refl _ s
      · exact Frame.refl _ s
    · exact Frame.refl _ s

/-- Sending a packet changes what sending may change, and nothing else. -/
theorem Chip.queuePacket_frame (s : Chip) (l : Nat) (p : Packet) : Frame txParts (s.queuePacket l p) s := by
  unfold Chip.queuePacket Chip.pump
  dsimp only
  exact (Chip.pumpLink_frame _ _ l).trans (s.setLink_tx l _)

end Sys2Proof.Machine
end

