-- ==== Sys2Proof/Laws/Store.lean ====
section
/-!
SUPPORT. Laws/Store.lean: a write to a line that a cache way holds, under write-back (R236, R238): what it stores and what it leaves.
-/
namespace Sys2Proof.Machine

theorem Frame.line {l : List Part} {a b : Chip} (h : Frame l a b) (n : Part.mem ∉ l) (dla : Nat) : a.line dla = b.line dla := by
  have e := h .mem n
  simp only [Part.same] at e
  unfold Chip.line
  rw [e]

theorem Frame.poisoned {l : List Part} {a b : Chip} (h : Frame l a b) (n : Part.poison ∉ l) (dla : Nat) :
    a.poisoned dla = b.poisoned dla := by
  have e := h .poison n
  simp only [Part.same] at e
  unfold Chip.poisoned
  rw [e]

theorem Frame.head {l : List Part} {a b : Chip} (h : Frame l a b) (n : Part.heads ∉ l) (j : Nat) : a.head j = b.head j := by
  have e := h .heads n
  simp only [Part.same] at e
  unfold Chip.head
  rw [e]

theorem Chip.putLine_poisoned (s : Chip) (dla : Nat) (data : Line) (poison : Bool) :
    (s.putLine dla data poison).poisoned dla = poison := by
  unfold Chip.putLine Chip.setPoison Chip.poisoned
  dsimp only
  exact Tab.get_put_same _ _ _ _

theorem Chip.putLine_map (s : Chip) (dla : Nat) (data : Line) (poison : Bool) : MapKept (s.putLine dla data poison) s := by
  have a : (s.saveMedia dla).map = s.map := by
    unfold Chip.saveMedia
    dsimp only
    split <;> rfl
  have b (c : Chip) : (c.setPoison dla poison).map = c.map := c.setPoison_frame dla poison .map (by decide)
  unfold Chip.putLine
  refine (MapKept.of_eq (b _)).trans ?_
  unfold MapKept
  dsimp only
  rw [a]

/-- The line a write leaves is stored, follows its policy, and the write completes. -/
theorem Chip.writeCore_cached (s : Chip) (a : Access) (w : CachedWrite s a) : ∃ d : Chip, s.fill (lineNo a.dla) = some d ∧
    s.writeCore a {} true = (true, ((d.putLine a.dla (mergeLine (s.line a.dla) a.data a.mask) a.poison).applyPolicy
      (lineNo a.dla) a.master (d.policyOf a.dla)).finishWrite a) := by
  obtain ⟨k, b, wr, so, re, ke, he, ex, po, ca, cl, kh, -, -, -⟩ := w
  obtain ⟨e, ca⟩ := Option.isSome_iff_exists.mp ca
  obtain ⟨x, hd⟩ : ∃ x, s.fill (lineNo a.dla) = some { s with cache := x } := by
    unfold Chip.fill
    rw [ca]
    exact ⟨_, rfl⟩
  have f := Chip.fill_frame _ _ _ kh hd
  have pe : ({ s with cache := x } : Chip).policyOf a.dla = 0 := po
  generalize ({ s with cache := x } : Chip) = d at hd f pe
  have nr : s.underRepair (pageNo a.dla) = false := by simp [Chip.underRepair, re]
  have ng : s.mergesGrist a = false := by simp [Chip.mergesGrist, ca]
  have pd : d.poisoned a.dla = false := (f.poisoned (by decide) _).trans cl
  have md : d.line a.dla = s.line a.dla := f.line (by decide) _
  refine ⟨d, hd, ?_⟩
  unfold Chip.writeCore
  simp only [wr, so, nr, ex, ke, he, if_false, Bool.false_eq_true, ne_eq, not_false_iff, decide_true, Bool.and_false,
    Tab.find, Option.isSome_none, if_true, Bool.false_and]
  unfold Chip.writePage
  simp only [po, b, ng, ne_eq, not_true_eq_false, or_self, decide_false, Bool.or_self, Bool.false_eq_true, if_false]
  unfold Chip.storeLine
  simp only [b, reduceCtorEq, false_and, if_false, or_self]
  unfold Chip.mergeStore
  cases hp : a.poison <;>
    simp only [k, ca, Option.isSome_some, Bool.true_or, Bool.or_true, if_true, hd, pd, pe, Bool.false_and, Bool.false_eq_true, if_false,
      reduceCtorEq, md, Bool.not_true, Option.isSome_none]

/-- A use of a record of which no copy is known to be damaged finds it good, and touches the map cache only (R86, R88). -/
theorem Chip.useRec_clean (s : Chip) (k dla : Nat) (hbm : Bool) (h : s.map.badRecs = []) :
    ∃ x, s.useRec k dla hbm 0 = (.good, { s with map := { s.map with cache := x } }) := by
  have touch (c : Chip) : ∃ x, c.mapTouch k = { c with map := { c.map with cache := x } } := by
    unfold Chip.mapTouch
    dsimp only
    split
    · exact ⟨_, rfl⟩
    · split
      · exact ⟨_, rfl⟩
      · exact ⟨c.map.cache, rfl⟩
  have z : Tab.get 0 s.map.badRecs k = 0 := by simp [h, Tab.get, Tab.find]
  cases hc : s.mapHolds k
  · have f : (s.mapDrop k).recFetch k dla hbm 0 0 = (.good, s.mapDrop k) := by
      cases hbm <;> simp [Chip.recFetch, Chip.recRepaired, bitOf]
    obtain ⟨x, hx⟩ := touch (s.mapDrop k)
    have e : s.useRec k dla hbm 0 = (.good, (s.mapDrop k).mapTouch k) := by
      unfold Chip.useRec
      simp [z, hc, f, bitOf]
    exact ⟨x, e.trans (by rw [hx]; rfl)⟩
  · obtain ⟨x, hx⟩ := touch s
    refine ⟨x, ?_⟩
    unfold Chip.useRec
    simp [z, hc, hx, bitOf]

/-- With records and a path that show no error, and nothing that waits, an access goes straight on (R62, R88). -/
theorem Chip.enter_clean (s : Chip) (a : Access) (w : s.waits = []) (h : s.map.badRecs = []) :
    ∃ x, s.enter a {} = ({ s with map := { s.map with cache := x } } : Chip).below a {} true := by
  obtain ⟨x, hx⟩ := s.useRec_clean (dirRecNo (pageNo a.dla / 512)) (4096 * pageNo a.dla) true h
  have h2 : ({ s with map := { s.map with cache := x } } : Chip).map.badRecs = [] := h
  generalize ht : ({ s with map := { s.map with cache := x } } : Chip) = t at hx h2
  obtain ⟨y, hy⟩ := t.useRec_clean (pageNo a.dla) (4096 * pageNo a.dla) (t.mapResident (t.accessRegion (4096 * pageNo a.dla))) h2
  have z : (0 : BitVec 5).toNat ||| Tab.get 0 t.map.badRecs (pageNo a.dla) = 0 := by
    rw [h2]
    simp [Tab.get, Tab.find]
  refine ⟨y, ?_⟩
  have b : s.behind a false = false := by simp [Chip.behind, w]
  unfold Chip.enter Chip.enterNow Chip.useDir
  simp only [b, Bool.false_eq_true, if_false]
  rw [hx]
  unfold Chip.usePage
  simp only [z, if_true, hy]
  rw [← ht]

/-- The same for the records that the device's own work on a page uses (R83). -/
theorem Chip.useOwn_clean (s : Chip) (p : Nat) (h : s.map.badRecs = []) :
    ∃ x, s.useOwn p = (true, { s with map := { s.map with cache := x } }) := by
  obtain ⟨x, hx⟩ := s.useRec_clean (dirRecNo (p / 512)) (4096 * p) true h
  have h2 : ({ s with map := { s.map with cache := x } } : Chip).map.badRecs = [] := h
  generalize ht : ({ s with map := { s.map with cache := x } } : Chip) = t at hx h2
  obtain ⟨y, hy⟩ := t.useRec_clean p (4096 * p) (t.mapResident (t.accessRegion (4096 * p))) h2
  have z : (0 : BitVec 5).toNat ||| Tab.get 0 t.map.badRecs p = 0 := by
    rw [h2]
    simp [Tab.get, Tab.find]
  refine ⟨y, ?_⟩
  unfold Chip.useOwn Chip.useDir
  rw [hx]
  unfold Chip.usePage
  simp only [z, if_true, hy]
  rw [← ht]

/-- What the map cache holds keeps a cached write one. -/
theorem CachedWrite.touched {s : Chip} {a : Access} (w : CachedWrite s a) (x : Tab (List Nat)) :
    CachedWrite { s with map := { s.map with cache := x } } a := w

/-- The same below the home, for a write that no dirty-page log records (R103). -/
theorem Chip.enter_cached (s : Chip) (a : Access) (w : CachedWrite s a) (nl : a.logged = false) :
    ∃ (x : Tab (List Nat)) (d : Chip), ({ s with map := { s.map with cache := x } } : Chip).fill (lineNo a.dla) = some d
      ∧ s.enter a {} = ((d.putLine a.dla (mergeLine (s.line a.dla) a.data a.mask)
      a.poison).applyPolicy (lineNo a.dla) a.master (d.policyOf a.dla)).finishWrite a := by
  obtain ⟨x, hx⟩ := s.enter_clean a w.2.2.2.2.2.2.2.2.2.2.2.2.1 w.2.2.2.2.2.2.2.2.2.2.2.2.2.1
  have w' := w.touched x
  obtain ⟨d, hd, core⟩ := Chip.writeCore_cached _ a w'
  refine ⟨x, d, hd, ?_⟩
  have k : a.kind ≠ .read := by
    rw [w.1]
    decide
  have off := w'.2.2.2.2.2.2.2.2.2.2.2.2.2.2
  rw [hx, Chip.below, off]
  simp only [Bool.false_eq_true, if_false, if_neg k]
  rw [Chip.writeBelow, core]
  simp only [nl, Bool.and_false, Bool.false_eq_true, if_false]
  rfl

/-- What a cached write leaves, before its completion is answered. -/
theorem Chip.cachedWrite_facts (s d : Chip) (a : Access) (al : lineBase a.dla = a.dla) (kh : KeysHold s) (hd : s.fill (lineNo a.dla) = some d) (x : Line)
    (m pol : Nat) (c : Chip) (hc : c = (d.putLine a.dla x a.poison).applyPolicy (lineNo a.dla) m pol) :
    c.line a.dla = x ∧ c.poisoned a.dla = a.poison
      ∧ (∀ y : Nat, y < a.dla ∨ a.dla + 64 ≤ y → Tab.get 0 c.mem y = Tab.get 0 s.mem y) ∧ Frame storeParts c s ∧ MapKept c s := by
  have f := Chip.fill_frame _ _ _ kh hd
  have pk : KeysHold (d.putLine a.dla x a.poison) := (Chip.putLine_frame _ _ _ _).keys (f.keys kh)
  have g : Frame tierParts c (d.putLine a.dla x a.poison) := by
    rw [hc]
    exact Chip.applyPolicy_frame _ _ _ _ ((Chip.putLine_frame _ _ _ _).keys (f.keys kh))
  refine ⟨?_, ?_, fun y hy => ?_, ?_, ?_⟩
  · rw [g.line (by decide), Chip.putLine_line]
  · rw [g.poisoned (by decide), Chip.putLine_poisoned]
  · have e := g .mem (by decide)
    have e2 := f .mem (by decide)
    simp only [Part.same] at e e2
    rw [e, Chip.putLine_other _ _ _ _ _ (by rw [al]; exact hy), e2]
  · exact (g.mono (by decide)).trans ((Chip.putLine_frame _ _ _ _).trans (f.mono (by decide)))
  · rw [hc]
    exact (Chip.applyPolicy_map _ _ _ _ pk).trans ((Chip.putLine_map _ _ _ _).trans (Chip.fill_map _ _ _ kh hd))

theorem mergeBytes_full (old new : Line) (n : Nat) : ∀ i, i + n ≤ 64 →
    mergeBytes old new fullMask n i = new.toNat / 256 ^ i % 256 ^ n * 256 ^ i := by
  induction n with
  | zero => intro i _; simp [mergeBytes, Nat.mod_one]
  | succ n ih =>
    intro i hi
    have m : fullMask.getLsbD i = true := by
      unfold fullMask
      rw [BitVec.getLsbD_allOnes]
      exact decide_eq_true (by omega)
    have b : (lineByte new i).toNat = new.toNat / 256 ^ i % 256 := by
      simp [lineByte, Nat.shiftRight_eq_div_pow, show (256 : Nat) ^ i = 2 ^ (8 * i) by rw [Nat.pow_mul]]
    rw [mergeBytes, m, if_pos rfl, b, ih (i + 1) (by omega), Nat.pow_succ 256 i, ← Nat.div_div_eq_div_mul, Nat.pow_succ 256 n,
      Nat.mul_comm (256 ^ n) 256, Nat.mod_mul]
    ring

/-- A merge under a full mask is the new line. -/
theorem mergeLine_full (old new : Line) : mergeLine old new fullMask = new := by
  have lt := new.isLt
  unfold mergeLine
  rw [mergeBytes_full old new 64 0 (by omega)]
  simp only [Nat.pow_zero, Nat.div_one, Nat.mul_one]
  rw [Nat.mod_eq_of_lt (by norm_num; omega)]
  simp

end Sys2Proof.Machine
end

