-- ==== Sys2Proof/Laws/Coh.lean ====
section
/-!
SUPPORT. Laws/Coh.lean: a coherent message on its way out, and a home that carries one request from its queue to its answer.
-/
namespace Sys2Proof.Machine

theorem Chip.cohSend_frame (s : Chip) (l op tag a : Nat) (d : Option (Line × Bool)) : Frame txParts (s.cohSend l op tag a d) s := by
  unfold Chip.cohSend
  split
  · exact Frame.refl _ s
  · split
    · exact Chip.queuePacket_frame _ _ _
    · exact Chip.queuePacket_frame _ _ _

/-- A quiet home makes no move. -/
theorem Chip.cohLoop_quiet (s : Chip) (h : s.homeQuiet) (k : Nat) : s.cohLoop k = s := by
  have w := s.homeWork_idle h
  obtain ⟨t, q, d, -, -⟩ := h
  have n : s.nextStart = none := by simp [Chip.nextStart, q]
  have m : s.nextAdmit = none := by simp [Chip.nextAdmit, d]
  cases k with
  | zero => rfl
  | succ k => simp [Chip.cohLoop, t, n, m, w]

/-- A home whose moves end, three at most, in a quiet one is that one. -/
theorem Chip.cohPump_of (s c : Chip) (go : ∀ k, s.cohLoop (k + 3) = c) (q : c.homeQuiet) : s.cohPump = c := by
  obtain ⟨k, e⟩ : ∃ k, 6 * (s.coh.txns.length + s.coh.queue.length + s.coh.devQueue.length + s.coh.filter.length) + 8 = k + 3 :=
    ⟨6 * (s.coh.txns.length + s.coh.queue.length + s.coh.devQueue.length + s.coh.filter.length) + 5, by omega⟩
  unfold Chip.cohPump
  rw [e, go]
  refine foldl_same _ _ _ (fun a _ => ?_)
  simp [Chip.maybePull, q.2.2.2.1, bitOf]

/-- With no transaction and no request of the device's side, the first request that can start does. -/
theorem Chip.cohLoop_start (s : Chip) (q : CohReq) (h : s.nextStart = some q) (t0 : s.coh.txns = []) (d0 : s.coh.devQueue = []) (k : Nat) :
    s.cohLoop (k + 1) = (s.startReq q).cohLoop k := by
  have m : s.nextAdmit = none := by simp [Chip.nextAdmit, d0]
  rw [Chip.cohLoop, t0]
  simp only [List.find?_nil, m, h]

/-- The one transaction moves when it can. -/
theorem Chip.cohLoop_move (s : Chip) (t : CohTxn) (h : s.coh.txns = [t]) (c : s.canMove t = true) (k : Nat) :
    s.cohLoop (k + 1) = (s.moveTxn t).cohLoop k := by
  rw [Chip.cohLoop, h]
  simp [c]

theorem countIf_cons {α : Type} (p : α → Bool) (a : α) (l : List α) : countIf p (a :: l) = (if p a then 1 else 0) + countIf p l := by
  unfold countIf
  rw [List.filter_cons]
  split
  · simp only [List.length_cons]
    omega
  · omega

/-- Listing an entry counts at most that one more. -/
theorem countIf_set (p : Nat × FilterEnt → Bool) (t : Tab FilterEnt) (k : Nat) (v : FilterEnt) :
    countIf p (Tab.set t k v) ≤ countIf p t + (if p (k, v) then 1 else 0) := by
  induction t with
  | nil =>
    simp only [Tab.set, countIf_cons]
    omega
  | cons a r ih =>
    obtain ⟨k', v'⟩ := a
    simp only [Tab.set]
    split
    · simp only [countIf_cons]
      split <;> split <;> omega
    · split
      · simp only [countIf_cons]
        split <;> split <;> omega
      · simp only [countIf_cons] at ih ⊢
        omega

/-- At a home that holds no request, an entry is to be taken back only where its set is short or it is recalled (R122, R143). -/
theorem Chip.homeIdle_iff (s : Chip) (t : s.coh.txns = []) (q : s.coh.queue = []) (d : s.coh.devQueue = []) :
    s.homeIdle = true ↔
      ∀ e ∈ s.coh.filter, s.cfg Obj.cohSfReserveWays ≤ 16 - s.setCount e.1 ∧ s.recalled e.1 e.2.domain = false := by
  have n (ln : Nat) : s.takingBack ln = false := by simp [Chip.takingBack, t, q, d]
  have x (ln : Nat) : s.evictable ln = decide (16 - s.setCount ln < s.cfg Obj.cohSfReserveWays) := by
    simp [Chip.evictable, Chip.txnOf, Chip.sharedTrackers, Chip.setShort, countIf, n, t, q, d]
  unfold Chip.homeIdle
  simp [x, n]

/-- An idle home stays idle as nothing that its filter asks for changes. -/
theorem Chip.homeIdle_same (s c : Chip) (t : s.coh.txns = []) (q : s.coh.queue = []) (d : s.coh.devQueue = [])
    (t' : c.coh.txns = []) (q' : c.coh.queue = []) (d' : c.coh.devQueue = []) (f : c.coh.filter = s.coh.filter)
    (cf : c.cfg Obj.cohSfReserveWays = s.cfg Obj.cohSfReserveWays) (rc : ∀ x d, c.recalled x d = s.recalled x d)
    (h : s.homeIdle = true) : c.homeIdle = true := by
  rw [Chip.homeIdle_iff _ t' q' d', f]
  rw [Chip.homeIdle_iff _ t q d] at h
  intro e he
  rw [cf, rc, Chip.setCount, f]
  exact h e he

/-- An idle home stays idle as an entry leaves its filter. -/
theorem Chip.homeIdle_del (s c : Chip) (ln : Nat) (t : s.coh.txns = []) (q : s.coh.queue = []) (d : s.coh.devQueue = [])
    (t' : c.coh.txns = []) (q' : c.coh.queue = []) (d' : c.coh.devQueue = []) (f : c.coh.filter = Tab.del s.coh.filter ln)
    (cf : c.cfg Obj.cohSfReserveWays = s.cfg Obj.cohSfReserveWays) (rc : ∀ x d, c.recalled x d = s.recalled x d)
    (h : s.homeIdle = true) : c.homeIdle = true := by
  rw [Chip.homeIdle_iff _ t' q' d']
  rw [Chip.homeIdle_iff _ t q d] at h
  intro e he
  rw [f] at he
  have m : e ∈ s.coh.filter := List.mem_of_mem_filter he
  obtain ⟨h1, h2⟩ := h e m
  refine ⟨?_, by rw [rc]; exact h2⟩
  have le : c.setCount e.1 ≤ s.setCount e.1 := by
    unfold Chip.setCount countIf Tab.del at *
    rw [f, List.filter_filter, List.filter_congr (fun _ _ => Bool.and_comm _ _), ← List.filter_filter]
    exact List.length_filter_le _ _
  rw [cf]
  omega

/-- An idle home stays idle as a line with room in its set takes an entry. -/
theorem Chip.homeIdle_set (s c : Chip) (ln : Nat) (v : FilterEnt) (t : s.coh.txns = []) (q : s.coh.queue = []) (d : s.coh.devQueue = [])
    (t' : c.coh.txns = []) (q' : c.coh.queue = []) (d' : c.coh.devQueue = []) (f : c.coh.filter = Tab.set s.coh.filter ln v)
    (cf : c.cfg Obj.cohSfReserveWays = s.cfg Obj.cohSfReserveWays) (rc : ∀ x d, c.recalled x d = s.recalled x d)
    (room : s.setCount ln + 1 + s.cfg Obj.cohSfReserveWays ≤ 16) (rl : s.recalled ln v.domain = false)
    (h : s.homeIdle = true) : c.homeIdle = true := by
  rw [Chip.homeIdle_iff _ t' q' d']
  rw [Chip.homeIdle_iff _ t q d] at h
  intro e he
  rw [f] at he
  rw [cf, rc]
  have add (x : Nat) : c.setCount x ≤ s.setCount x + (if x % 262144 = ln % 262144 then 1 else 0) := by
    unfold Chip.setCount
    rw [f]
    refine (countIf_set _ _ _ _).trans (le_of_eq ?_)
    congr 1
    by_cases m : ln % 262144 = x % 262144
    · rw [if_pos (by simpa using m), if_pos m.symm]
    · rw [if_neg (by simpa using m), if_neg (fun x => m x.symm)]
  rcases Tab.mem_set he with rfl | he
  · have := add ln
    rw [if_pos rfl] at this
    exact ⟨by dsimp only; omega, rl⟩
  · obtain ⟨h1, h2⟩ := h e he
    refine ⟨?_, h2⟩
    have a := add e.1
    split at a
    · rename_i m
      have : s.setCount e.1 = s.setCount ln := by unfold Chip.setCount; rw [m]
      omega
    · omega

/-- What is recalled rests on the map, the scheduled operation that runs, and the domains. -/
theorem Chip.recalled_eq {s c : Chip} (m : MapKept c s) (w : c.win = s.win) (r : c.rw = s.rw) (d : c.coh.domains = s.coh.domains)
    (ln x : Nat) : c.recalled ln x = s.recalled ln x := by
  have e : c.lineAssigning ln = s.lineAssigning ln := by
    unfold Chip.lineAssigning Chip.extentOf Chip.assigning
    rw [m, w]
  unfold Chip.recalled Chip.dom
  rw [e, d]

/-- A read of the home's own transaction finds an unwritten page zero at once (R85); it touches the map cache. -/
theorem Chip.enter_unwritten (s : Chip) (a : Access) (ln : Nat) (k : a.kind = .read) (rt : a.ret = .coh ln) (w : s.waits = [])
    (b : s.map.badRecs = []) (off : s.wayOffline a.dla = false) (p1 : (s.page (pageNo a.dla)).st = .unwritten) :
    ∃ x, s.enter a {} = { s with
      map := { s.map with cache := x }
      coh := { s.coh with txns := modFirst (fun t : CohTxn => decide (t.line = ln)) (fun t => { t with done := some (0, false) }) s.coh.txns } } := by
  obtain ⟨x, e⟩ := s.enter_clean a w b
  refine ⟨x, ?_⟩
  rw [e]
  have p2 : Chip.page { s with map := { s.map with cache := x } } (pageNo a.dla) = s.page (pageNo a.dla) := rfl
  have p3 : (Chip.srcRec { s with map := { s.map with cache := x } } (pageNo a.dla)).st = .unwritten := by
    unfold Chip.srcRec
    simp only [p2, p1, reduceCtorEq, if_false]
  have o2 : Chip.wayOffline { s with map := { s.map with cache := x } } a.dla = false := off
  unfold Chip.below
  rw [o2]
  simp only [Bool.false_eq_true, if_false, if_pos k]
  unfold Chip.readBelow
  simp only [p2, p1, p3, reduceCtorEq, if_false, if_true, Chip.finishRead, rt, Ret.isHome, Chip.deliver, Chip.deliverTo]

/-- A read of a link that shows nothing out of the ordinary counts nowhere at the home (R554). -/
theorem Chip.readStats_link (s : Chip) (a : Access) (m : 4 ≤ a.master) : s.readStats a {} = s := by
  unfold Chip.readStats
  rw [if_neg (by omega)]
  split
  · simp [Chip.lateStats]
  · rfl

/-- An idle home carries a link's read of an untracked line of an unwritten page to its answer (R129, R131): `g` says what is granted,
which is what its set has room for. -/
theorem Chip.cohPump_read (D : Chip) (q : CohReq) (l tag a d : Nat) (qk : q.kind = .shared ∨ q.kind = .own ∨ q.kind = .cur)
    (t0 : D.coh.txns = []) (q0 : D.coh.queue = [q]) (d0 : D.coh.devQueue = []) (r0 : D.coh.retrySince = 0)
    (i0 : Chip.homeIdle { D with coh := { D.coh with queue := [] } } = true)
    (w0 : D.waits = []) (b0 : D.map.badRecs = []) (h0 : Tab.find D.coh.held (lineNo q.acc.dla) = none)
    (off : D.wayOffline q.acc.dla = false)
    (ag : q.agent = some a) (rt : q.acc.ret = .link l tag) (kd : q.acc.kind = .read) (ms : 4 ≤ q.acc.master) (ob : q.obs = {})
    (al : lineBase q.acc.dla = q.acc.dla)
    (dm : D.lineDomain (lineNo q.acc.dla) = some d) (ds : (D.dom d).state ≠ .recalling) (la : D.lineAssigning (lineNo q.acc.dla) = false)
    (nb : D.inBurst = false) (pg : (D.page (pageNo q.acc.dla)).st = .unwritten) (en : D.ent (lineNo q.acc.dla) = none)
    (room : D.setCount (lineNo q.acc.dla) + 1 + D.cfg Obj.cohSfReserveWays ≤ 16) :
    ∃ t u : Chip, D.cohPump = u ∧ Frame [.coh, .map] t D ∧ (∃ x, t.map = { D.map with cache := x })
      ∧ t.ent (lineNo q.acc.dla) = (match q.kind with
        | .shared => some ⟨none, setBit 0 a true, d, D.coh.clock⟩
        | .own => some ⟨some a, 0, d, D.coh.clock⟩
        | _ => none)
      ∧ (∀ ln : Nat, ln ≠ lineNo q.acc.dla → t.ent ln = D.ent ln)
      ∧ Frame [.coh] u (t.cohSend l (cmpCode q.kind) tag q.acc.dla (some (0, false))) ∧ u.coh = { t.coh with txns := [] }
      ∧ t.coh.queue = [] ∧ t.coh.devQueue = [] ∧ t.coh.dead = D.coh.dead := by
  generalize hL : lineNo q.acc.dla = ln at *
  have ek (c : Chip) (h : c.inBurst = false) : c.effKind q = q.kind := by
    unfold Chip.effKind
    rw [if_neg (by simp [h])]
  have reads : q.kind.reads = true := by rcases qk with k | k | k <;> simp [CohKind.reads, k]
  have nt : D.txnOf ln = none := by simp [Chip.txnOf, t0]
  have nosnoop (k : CohKind) (m : Option Nat) : snoopsFor k m none = [] := rfl
  have start : D.nextStart = some q := by
    have cs : D.canStart q = true := by
      unfold Chip.canStart
      dsimp only
      rw [hL, nt, la, dm, en, nosnoop]
      simp [ds]
    unfold Chip.nextStart
    dsimp only
    rw [q0]
    simp [cs]
  generalize hU : ({ line := ln, domain := d, req := q, owed := [], issued := true, done := some (0, false) } : CohTxn) = U
  obtain ⟨x, h1⟩ : ∃ x, D.startReq q = { D with map := { D.map with cache := x }, coh := { D.coh with queue := [], txns := [U] } } := by
    generalize hD1 : ({ D with coh := { D.coh with queue := [], txns := [{ line := ln, domain := d, req := q, owed := [] }] } } : Chip) = D1
    have m : D1.modTxn ln (fun u => { u with issued := true })
        = { D with coh := { D.coh with queue := [], txns := [{ line := ln, domain := d, req := q, owed := [], issued := true }] } } := by
      rw [← hD1]
      simp [Chip.modTxn, modFirst]
    have st : D.startReq q = D1.issueTxn ln q := by
      unfold Chip.startReq
      dsimp only
      rw [hL, dm, en, nosnoop, h0, q0, t0, ek D nb, ← hD1]
      simp [reads]
    obtain ⟨x, e⟩ := Chip.enter_unwritten
      { D with coh := { D.coh with queue := [], txns := [{ line := ln, domain := d, req := q, owed := [], issued := true }] } }
      { q.acc with ret := .coh ln } ln kd rfl w0 b0 off pg
    refine ⟨x, ?_⟩
    rw [st, Chip.issueTxn, m, ob, e, ← hU]
    simp [modFirst]
  generalize hA : ({ D with map := { D.map with cache := x }, coh := { D.coh with queue := [], txns := [U] } } : Chip) = A at h1
  have uf : U.line = ln ∧ U.req = q ∧ U.domain = d ∧ U.replied = false ∧ U.owed = [] ∧ U.answer = some (0, false) ∧ U.event = false := by
    rw [← hU]
    exact (by and_intros <;> rfl)
  obtain ⟨u1, u2, u3, u4, u5, u6, u7⟩ := uf
  have aT : A.coh.txns = [U] := by rw [← hA]
  have can : A.canMove U = true := by
    unfold Chip.canMove
    rw [u5, u6, u2]
    rcases qk with k | k | k <;> simp [k]
  have aE : A.ent ln = none := by rw [← hA]; exact en
  have aB : A.inBurst = false := by rw [← hA]; exact nb
  have cg : A.canGrant ln = true := by
    have e : A.setCount ln = D.setCount ln := by rw [← hA]; rfl
    unfold Chip.canGrant
    rw [aE, e]
    simp
    omega
  have fA : Frame [.coh, .map] A D := by
    rw [← hA]
    exact (Frame.set_coh (by decide) { D with map := { D.map with cache := x } } _).trans (Frame.set_map (by decide) _ _)
  have nz : setBit 0 a true ≠ 0 := by
    intro z
    have := bitOf_setBit 0 a
    rw [z] at this
    simp [bitOf] at this
  -- what the grant leaves
  have gr : ∃ t, A.grant U = (q.kind, t) ∧ Frame [.coh, .map] t D ∧ (∃ x, t.map = { D.map with cache := x })
      ∧ t.ent ln = (match q.kind with
        | .shared => some ⟨none, setBit 0 a true, d, D.coh.clock⟩
        | .own => some ⟨some a, 0, d, D.coh.clock⟩
        | _ => none)
      ∧ (∀ j : Nat, j ≠ ln → t.ent j = D.ent j)
      ∧ t.coh.queue = [] ∧ t.coh.devQueue = [] ∧ t.coh.retrySince = 0 ∧ t.coh.txns = [U] ∧ t.coh.dead = D.coh.dead
      ∧ Chip.homeIdle { t with coh := { t.coh with txns := [] } } = true := by
    have se (o : Option Nat) (sh : Nat) (h : ¬ (o = none ∧ sh = 0)) :
        Frame [.coh, .map] (A.setEnt ln o sh d) D ∧ (∃ x, (A.setEnt ln o sh d).map = { D.map with cache := x })
        ∧ (A.setEnt ln o sh d).ent ln = some ⟨o, sh, d, D.coh.clock⟩
        ∧ (∀ j : Nat, j ≠ ln → (A.setEnt ln o sh d).ent j = D.ent j)
        ∧ (A.setEnt ln o sh d).coh.queue = [] ∧ (A.setEnt ln o sh d).coh.devQueue = [] ∧ (A.setEnt ln o sh d).coh.retrySince = 0
        ∧ (A.setEnt ln o sh d).coh.txns = [U] ∧ (A.setEnt ln o sh d).coh.dead = D.coh.dead
        ∧ Chip.homeIdle { A.setEnt ln o sh d with coh := { (A.setEnt ln o sh d).coh with txns := [] } } = true := by
      have e : A.setEnt ln o sh d = { D with
          map := { D.map with cache := x }
          coh := { D.coh with
            queue := [], txns := [U], filter := Tab.set D.coh.filter ln ⟨o, sh, d, D.coh.clock⟩, clock := D.coh.clock + 1 } } := by
        unfold Chip.setEnt
        rw [if_neg h, ← hA]
      refine ⟨?_, ?_, ?_, ?_, ?_, ?_, ?_, ?_, ?_, ?_⟩
      · refine Frame.trans ?_ fA
        unfold Chip.setEnt
        rw [if_neg h]
        exact Frame.set_coh (by decide) _ _
      · exact ⟨x, by rw [e]⟩
      · rw [e]; exact Tab.find_set_same _ _ _
      · intro j hj; rw [e]; exact Tab.find_set_other _ _ hj
      · rw [e]
      · rw [e]; exact d0
      · rw [e]; exact r0
      · rw [e]
      · rw [e]
      · rw [e]
        refine Chip.homeIdle_set { D with coh := { D.coh with queue := [] } } _ ln ⟨o, sh, d, D.coh.clock⟩ t0 rfl d0 rfl rfl d0 rfl rfl
          (fun _ _ => rfl) room ?_ i0
        show (decide ((D.dom d).state = .recalling) || D.lineAssigning ln) = false
        simp [ds, la]
    unfold Chip.grant
    dsimp only
    rw [u2, u1, u3, ag, aE, ek A aB]
    rcases qk with k | k | k
    · simp only [k, Option.getD_none, cg, if_true, reduceCtorEq, if_false]
      exact ⟨_, rfl, se none (setBit 0 a true) (by simp [nz])⟩
    · simp only [k, cg, if_true]
      exact ⟨_, rfl, se (some a) 0 (by simp)⟩
    · simp only [k]
      refine ⟨A, rfl, fA, ⟨x, by rw [← hA]⟩, aE, fun j _ => by rw [← hA]; rfl, ?_, ?_, ?_, ?_, ?_, ?_⟩ <;> rw [← hA]
      · exact d0
      · exact r0
      · exact Chip.homeIdle_same { D with coh := { D.coh with queue := [] } } _ t0 rfl d0 rfl rfl d0 rfl rfl (fun _ _ => rfl) i0
  obtain ⟨t, g, tf, tm, te, tn, tq, tv, tr, tt, td, ti⟩ := gr
  have sf := Chip.cohSend_frame t l (cmpCode q.kind) tag q.acc.dla (some (0, false))
  have h3 : A.moveTxn U = Chip.endTxn (t.cohSend l (cmpCode q.kind) tag q.acc.dla (some (0, false))) ln := by
    have hs : t.homeStats U = t := by
      unfold Chip.homeStats
      have e := t.readStats_link { q.acc with ret := .none } ms
      rw [u2, ob]
      dsimp only at e ⊢
      rw [e, u7]
      rfl
    have rp : A.replyTxn U (some (0, false)) = t.cohSend l (cmpCode q.kind) tag q.acc.dla (some (0, false)) := by
      unfold Chip.replyTxn
      rw [g]
      dsimp only
      rw [u2]
      have an (b : Bool) : t.cohAnswer q (cmpCode q.kind) b (some (0, false)) = t.cohSend l (cmpCode q.kind) tag q.acc.dla (some (0, false)) := by
        unfold Chip.cohAnswer
        simp only [rt, ag, Option.isSome_some, if_true, al]
      rcases qk with k | k | k <;> simp only [k] at an ⊢ <;> rw [hs, an]
    unfold Chip.moveTxn
    rw [u4, u6, u2]
    rcases qk with k | k | k <;> simp only [k, Bool.false_eq_true, if_false] at rp ⊢ <;> rw [rp, u1]
  generalize hC : t.cohSend l (cmpCode q.kind) tag q.acc.dla (some (0, false)) = C at h3 sf
  have c1 := sf .coh (by decide)
  have c2 := sf .waits (by decide)
  have c3 := sf .map (by decide)
  have c4 := sf .win (by decide)
  have c5 := sf .rw (by decide)
  have c6 := sf .rwp (by decide)
  have w1 := tf .waits (by decide)
  simp only [Part.same] at c1 c2 c3 c4 c5 c6 w1
  have fin : C.endTxn ln = { C with coh := { C.coh with txns := [] } } := by
    have e1 : C.coh.txns.filter (fun u => decide (u.line ≠ ln)) = [] := by
      rw [c1, tt]
      simp [u1]
    have e2 : C.waits.filter (fun w => decide (w.acc.ret ≠ .coh ln)) = C.waits := by
      rw [c2, w1, w0]
      rfl
    unfold Chip.endTxn
    rw [e1, e2]
  rw [fin] at h3
  have quiet : Chip.homeQuiet { C with coh := { C.coh with txns := [] } } := by
    refine ⟨rfl, by dsimp only; rw [c1]; exact tq, by dsimp only; rw [c1]; exact tv, by dsimp only; rw [c1]; exact tr, ?_⟩
    refine Chip.homeIdle_same { t with coh := { t.coh with txns := [] } } _ rfl tq tv rfl ?_ ?_ ?_ ?_ ?_ ti
    · dsimp only; rw [c1]; exact tq
    · dsimp only; rw [c1]; exact tv
    · dsimp only; rw [c1]
    · unfold Chip.cfg; dsimp only; rw [c5, c6]
    · exact Chip.recalled_eq (MapKept.of_eq c3) c4 c5 (by dsimp only; rw [c1])
  refine ⟨t, { C with coh := { C.coh with txns := [] } }, ?_, tf, tm, te, tn, ?_, ?_, tq, tv, td⟩
  · refine Chip.cohPump_of D _ (fun k => ?_) quiet
    rw [Chip.cohLoop_start D q start t0 d0, h1, Chip.cohLoop_move A U aT can, h3]
    exact Chip.cohLoop_quiet _ quiet _
  · rw [hC]
    exact Frame.set_coh (by decide) C _
  · dsimp only
    rw [c1]

/-- A write that the home makes to a cached line below it, whose cask keeps no dirty-page log. -/
theorem Chip.enter_nolog (s : Chip) (a : Access) (w : CachedWrite s a)
    (fin : ∀ c : Chip, (c.finishWrite a).rw = c.rw ∧ (c.finishWrite a).rwp = c.rwp)
    (nl : ∀ e, s.extentOf a.dla = some e → s.cfgAt Obj.caskLogEnable e.cask ≠ 1) :
    ∃ (x : Tab (List Nat)) (d c : Chip), ({ s with map := { s.map with cache := x } } : Chip).fill (lineNo a.dla) = some d
      ∧ c = (d.putLine a.dla (mergeLine (s.line a.dla) a.data a.mask) a.poison).applyPolicy (lineNo a.dla) a.master (d.policyOf a.dla)
      ∧ s.enter a {} = c.finishWrite a := by
  obtain ⟨x, hx⟩ := s.enter_clean a w.2.2.2.2.2.2.2.2.2.2.2.2.1 w.2.2.2.2.2.2.2.2.2.2.2.2.2.1
  have w' := w.touched x
  obtain ⟨d, hd, core⟩ := Chip.writeCore_cached _ a w'
  have fr : Frame storeParts ((d.putLine a.dla (mergeLine (s.line a.dla) a.data a.mask) a.poison).applyPolicy (lineNo a.dla) a.master (d.policyOf a.dla))
      { s with map := { s.map with cache := x } } := by
    have kh := w'.2.2.2.2.2.2.2.2.2.2.2.1
    have f := Chip.fill_frame _ _ _ kh hd
    exact ((Chip.applyPolicy_frame _ _ _ _ ((Chip.putLine_frame _ _ _ _).keys (f.keys kh))).mono (by decide)).trans
      ((Chip.putLine_frame _ _ _ _).trans (f.mono (by decide)))
  refine ⟨x, d, _, hd, rfl, ?_⟩
  have k : a.kind ≠ .read := by
    rw [w.1]
    decide
  rw [hx, Chip.below, w'.2.2.2.2.2.2.2.2.2.2.2.2.2.2]
  simp only [Bool.false_eq_true, if_false, if_neg k]
  rw [Chip.writeBelow, core]
  have le : Chip.line { s with map := { s.map with cache := x } } a.dla = s.line a.dla := rfl
  rw [le]
  generalize (d.putLine a.dla (mergeLine (s.line a.dla) a.data a.mask) a.poison).applyPolicy (lineNo a.dla) a.master (d.policyOf a.dla) = c at *
  have r1 := fr .rw (by decide)
  have r2 := fr .rwp (by decide)
  simp only [Part.same] at r1 r2
  obtain ⟨q1, q2⟩ := fin c
  generalize c.finishWrite a = e at *
  have ex : Chip.extentOf { s with map := { s.map with cache := x } } a.dla = s.extentOf a.dla := rfl
  rw [ex]
  cases he : s.extentOf a.dla with
  | none => simp
  | some y =>
    have off : e.cfgAt Obj.caskLogEnable y.cask ≠ 1 := by
      have := nl y he
      unfold Chip.cfgAt Chip.cfg at this ⊢
      rw [q1, q2, r1, r2]
      exact this
    have lp : e.logPage y.cask (pageNo a.dla) a.master = some e := by
      unfold Chip.logPage
      rw [if_pos off]
    dsimp only [Option.map_some]
    split
    · rename_i c hc
      split at hc
      · injection hc with hc
        rw [← hc, lp]
        rfl
      · cases hc
    · rfl

/-- An idle home carries a link's write of an untracked cached line to its completion (R129). -/
theorem Chip.cohPump_write (D : Chip) (q : CohReq) (l tag a d : Nat) (qk : q.kind = .write)
    (t0 : D.coh.txns = []) (q0 : D.coh.queue = [q]) (d0 : D.coh.devQueue = []) (r0 : D.coh.retrySince = 0)
    (i0 : Chip.homeIdle { D with coh := { D.coh with queue := [] } } = true)
    (h0 : Tab.find D.coh.held (lineNo q.acc.dla) = none)
    (ag : q.agent = some a) (rt : q.acc.ret = .link l tag) (ms : 4 ≤ q.acc.master) (ob : q.obs = {})
    (al : lineBase q.acc.dla = q.acc.dla)
    (dm : D.lineDomain (lineNo q.acc.dla) = some d) (ds : (D.dom d).state ≠ .recalling) (la : D.lineAssigning (lineNo q.acc.dla) = false)
    (cw : CachedWrite D q.acc) (en : D.ent (lineNo q.acc.dla) = none)
    (nl : ∀ e, D.extentOf q.acc.dla = some e → D.cfgAt Obj.caskLogEnable e.cask ≠ 1) :
    ∃ t u : Chip, D.cohPump = u ∧ t.line q.acc.dla = mergeLine (D.line q.acc.dla) q.acc.data q.acc.mask
      ∧ (∀ y : Nat, y < q.acc.dla ∨ q.acc.dla + 64 ≤ y → Tab.get 0 t.mem y = Tab.get 0 D.mem y)
      ∧ t.ent (lineNo q.acc.dla) = none ∧ (∀ ln : Nat, ln ≠ lineNo q.acc.dla → t.ent ln = D.ent ln)
      ∧ Frame (.coh :: storeParts) t D ∧ MapKept t D
      ∧ Frame [.coh] u (t.cohSend l 0x23 tag q.acc.dla none) ∧ u.coh = { t.coh with txns := [] } ∧ t.coh.queue = [] := by
  have ek (c : Chip) : c.effKind q = .write := by
    unfold Chip.effKind
    rw [if_neg (by simp [qk]), qk]
  generalize hL : lineNo q.acc.dla = ln at *
  have nt : D.txnOf ln = none := by simp [Chip.txnOf, t0]
  have nosnoop (k : CohKind) (m : Option Nat) : snoopsFor k m none = [] := rfl
  have start : D.nextStart = some q := by
    have cs : D.canStart q = true := by
      unfold Chip.canStart
      dsimp only
      rw [hL, nt, la, dm, en, nosnoop]
      simp [ds]
    unfold Chip.nextStart
    dsimp only
    rw [q0]
    simp [cs]
  generalize hT : ({ line := ln, domain := d, req := q, owed := [] } : CohTxn) = T
  have h1 : D.startReq q = { D with coh := { D.coh with queue := [], txns := [T] } } := by
    unfold Chip.startReq
    dsimp only
    have rd : q.kind.reads = false := by simp [CohKind.reads, qk]
    rw [hL, dm, en, nosnoop, q0, t0, show D.effKind q = q.kind by rw [ek D, qk], ← hT]
    simp [rd]
  generalize hD1 : ({ D with coh := { D.coh with queue := [], txns := [{ T with issued := true }] } } : Chip) = D1
  have cw1 : CachedWrite D1 { q.acc with ret := .coh ln } := by rw [← hD1]; exact cw
  have fw (c : Chip) : c.finishWrite { q.acc with ret := .coh ln } = { c with coh := { c.coh with
      txns := modFirst (fun t : CohTxn => decide (t.line = ln)) (fun t => { t with done := some (0, false) }) c.coh.txns } } := by
    unfold Chip.finishWrite
    dsimp only
    rw [if_neg (by omega)]
    simp only [Chip.deliver, Chip.deliverTo]
  obtain ⟨x, E, C, hE, hC, ent⟩ := D1.enter_nolog { q.acc with ret := .coh ln } cw1 (fun c => by rw [fw]; exact ⟨rfl, rfl⟩)
    (by rw [← hD1]; exact nl)
  obtain ⟨g1, g2, g3, g4, g5⟩ := Chip.cachedWrite_facts _ E { q.acc with ret := .coh ln } al
    (cw1.touched x).2.2.2.2.2.2.2.2.2.2.2.1 hE _ _ _ C hC
  have f1 : T.line = ln ∧ T.req = q ∧ T.domain = d ∧ T.owed = [] ∧ T.issued = false := by
    rw [← hT]
    exact (by and_intros <;> rfl)
  obtain ⟨t1, t2, t3, t4, t5⟩ := f1
  have cC : C.coh = D1.coh := g4 .coh (by decide)
  have cW : C.waits = D1.waits := g4 .waits (by decide)
  generalize hU : ({ T with issued := true, done := some (0, false) } : CohTxn) = U
  generalize hB : ({ C with coh := { C.coh with txns := [U] } } : Chip) = B
  have h2 : Chip.moveTxn { D with coh := { D.coh with queue := [], txns := [T] } } T = B := by
    have m : Chip.modTxn { D with coh := { D.coh with queue := [], txns := [T] } } ln (fun u => { u with issued := true }) = D1 := by
      rw [← hD1]
      simp [Chip.modTxn, modFirst, t1]
    unfold Chip.moveTxn
    rw [t2, qk, t5, t1]
    dsimp only
    rw [if_neg (by simp), Chip.issueTxn, m, ob, ent, fw, cC, ← hB, ← hU, cC, ← hD1]
    simp [modFirst, t1]
  have uf : U.line = ln ∧ U.req = q ∧ U.domain = d ∧ U.owed = [] ∧ U.issued = true ∧ U.done = some (0, false) := by
    rw [← hU]
    exact ⟨t1, t2, t3, t4, rfl, rfl⟩
  obtain ⟨u1, u2, u3, u4, u5, u6⟩ := uf
  have bC : B.coh = { D.coh with queue := [], txns := [U] } := by
    rw [← hB]
    dsimp only
    rw [cC, ← hD1]
  have fB : Frame (.coh :: storeParts) B D := by
    have e0 : Frame (.coh :: storeParts) D1 D := by rw [← hD1]; exact Frame.set_coh (by decide) D _
    have e1 : Frame (.coh :: storeParts) ({ D1 with map := { D1.map with cache := x } } : Chip) D1 := Frame.set_map (by decide) D1 _
    rw [← hB]
    exact (Frame.set_coh (by decide) C _).trans ((g4.mono (by decide)).trans (e1.trans e0))
  have mB : MapKept B D := by
    have e0 : MapKept ({ D1 with map := { D1.map with cache := x } } : Chip) D := by rw [← hD1]
    have e1 : MapKept B C := by rw [← hB]
    exact e1.trans (g5.trans e0)
  have se : B.setEnt ln none 0 d = { B with coh := { B.coh with filter := Tab.del B.coh.filter ln } } := by
    unfold Chip.setEnt
    rw [if_pos (by simp)]
  generalize ht : ({ B with coh := { B.coh with filter := Tab.del B.coh.filter ln } } : Chip) = t at se
  have tC : t.coh = { D.coh with queue := [], txns := [U], filter := Tab.del D.coh.filter ln } := by
    rw [← ht]
    dsimp only
    rw [bC]
  have fT : Frame (.coh :: storeParts) t D := by
    rw [← ht]
    exact (Frame.set_coh (by decide) B _).trans fB
  have mT : MapKept t D := by rw [← ht]; exact mB
  have sf := Chip.cohSend_frame t l 0x23 tag q.acc.dla none
  have rp : B.replyTxn U none = t.cohSend l 0x23 tag q.acc.dla none := by
    have gr : B.grant U = (.write, t) := by
      unfold Chip.grant
      dsimp only
      rw [u2, u1, u3, ag, ek B]
      dsimp only
      rw [se]
    unfold Chip.replyTxn
    rw [gr]
    dsimp only
    rw [u2, qk]
    dsimp only
    unfold Chip.cohAnswer
    simp only [rt, ag, Option.isSome_some, if_true, al]
  generalize hS : t.cohSend l 0x23 tag q.acc.dla none = S at rp sf
  have c1 := sf .coh (by decide)
  have c2 := sf .waits (by decide)
  have c3 : MapKept S D := (MapKept.of_eq (sf .map (by decide))).trans mT
  have c4 := (sf .win (by decide)).trans (fT .win (by decide))
  have c5 := (sf .rw (by decide)).trans (fT .rw (by decide))
  have c6 := (sf .rwp (by decide)).trans (fT .rwp (by decide))
  simp only [Part.same] at c1 c2
  have w1 : t.waits = [] := (fT .waits (by decide)).trans cw.2.2.2.2.2.2.2.2.2.2.2.2.1
  have h3 : B.moveTxn U = { S with coh := { S.coh with txns := [] } } := by
    have e1 : S.coh.txns.filter (fun u => decide (u.line ≠ ln)) = [] := by
      rw [c1, tC]
      simp [u1]
    have e2 : S.waits.filter (fun w => decide (w.acc.ret ≠ .coh ln)) = S.waits := by
      rw [c2, w1]
      rfl
    unfold Chip.moveTxn
    rw [u2, qk, u5, u1]
    dsimp only
    rw [if_pos rfl, rp, Chip.endTxn, e1, e2]
  have quiet : Chip.homeQuiet { S with coh := { S.coh with txns := [] } } := by
    refine ⟨rfl, by dsimp only; rw [c1, tC], by dsimp only; rw [c1, tC]; exact d0, by dsimp only; rw [c1, tC]; exact r0, ?_⟩
    refine Chip.homeIdle_del { D with coh := { D.coh with queue := [] } } _ ln t0 rfl d0 rfl ?_ ?_ ?_ ?_ ?_ i0
    · dsimp only; rw [c1, tC]
    · dsimp only; rw [c1, tC]; exact d0
    · dsimp only; rw [c1, tC]
    · unfold Chip.cfg; dsimp only
      rw [show S.rw = D.rw from c5, show S.rwp = D.rwp from c6]
    · exact Chip.recalled_eq (c := { S with coh := { S.coh with txns := [] } }) (s := { D with coh := { D.coh with queue := [] } }) c3 c4 c5
        (by dsimp only; rw [c1, tC])
  have can1 : Chip.canMove { D with coh := { D.coh with queue := [], txns := [T] } } T = true := by
    unfold Chip.canMove
    rw [t4, t2, qk, t5, t1]
    simp [h0]
  have can2 : B.canMove U = true := by
    unfold Chip.canMove
    rw [u4, u2, qk, u5, u6]
    simp
  have bT : B.coh.txns = [U] := by rw [bC]
  refine ⟨t, { S with coh := { S.coh with txns := [] } }, ?_, ?_, ?_, ?_, ?_, fT, mT, ?_, ?_, by rw [tC]⟩
  · refine Chip.cohPump_of D _ (fun k => ?_) quiet
    rw [Chip.cohLoop_start D q start t0 d0, h1, Chip.cohLoop_move _ T rfl can1, h2, Chip.cohLoop_move B U bT can2, h3]
    exact Chip.cohLoop_quiet _ quiet _
  · have e1 : t.line q.acc.dla = C.line q.acc.dla := by rw [← ht, ← hB]; rfl
    have e2 : D1.line q.acc.dla = D.line q.acc.dla := by rw [← hD1]; rfl
    rw [e1, ← e2]
    exact g1
  · intro y hy
    have e1 : t.mem = C.mem := by rw [← ht, ← hB]
    have e2 : D1.mem = D.mem := by rw [← hD1]
    rw [e1, ← e2]
    exact g3 y hy
  · unfold Chip.ent
    rw [tC]
    exact Tab.find_del_same _ _
  · intro j hj
    unfold Chip.ent
    rw [tC]
    exact Tab.find_del_other _ hj
  · rw [hS]
    exact Frame.set_coh (by decide) S _
  · dsimp only
    rw [c1]

end Sys2Proof.Machine
end

