-- ==== Sys2Proof/Laws/Dict.lean ====
section
/-!
SUPPORT. Laws/Dict.lean: what a dictionary command does once the checks of R460 let it through, and what it does where they do not.
-/
namespace Sys2Proof.Machine

@[simp] theorem bytesLE_length (n v : Nat) : (bytesLE n v).length = n := by
  induction n generalizing v with
  | zero => rfl
  | succ n ih => simp [bytesLE, ih]

/-- Ending a sequence that is not there changes nothing. -/
theorem Chip.dropSeq_none (s : Chip) (key : Nat) (h : s.seqOf key = none) : s.dropSeq key = s := by
  have e : s.dict.seqs.filter (fun q => decide (q.key ≠ key)) = s.dict.seqs := by
    refine List.filter_eq_self.mpr fun q hq => ?_
    have := List.find?_eq_none.mp h q hq
    simpa using this
  simp only [Chip.dropSeq, e]

/-- Without a transfer in progress there is none to abandon. -/
theorem Chip.abandonXfer_none (s : Chip) (h : s.field.xfer = none) : s.abandonXfer = s := by
  simp [Chip.abandonXfer, h]

theorem pathMax_ge (src : Src) : 4080 ≤ pathMax src := by cases src <;> simp [pathMax]

/-- A whole write that passes the checks of R460 and fits one access of its path is its handler's. -/
theorem Chip.piece_whole (s : Chip) (src : Src) (idx sub : Nat) (d : List Byte) (h : Nat → Chip → Nat × Chip)
    (acc : Accepts s src idx sub d.length) (pos : 0 < d.length) (pm : d.length ≤ pathMax src) :
    s.piece src idx sub 0 d true h = h (natLE d) s := by
  obtain ⟨up, go, seq, xfer, -⟩ := acc
  cases hg : s.gate (srcMaster src) idx sub true with
  | abort c => simp [hg, Gate.goes] at go
  | deny t => simp [hg, Gate.goes] at go
  | go i =>
    have sz : i.size = d.length := by simpa [hg, Gate.goes] using go
    have taken : s.seqTaken src (objKey idx sub) = false := by simp [Chip.seqTaken, seq]
    have l1 : ¬ i.size ≤ 0 := by omega
    have l2 : ¬ (d.length = 0 ∨ pathMax src < d.length ∨ i.size < 0 + d.length ∨ (True ∧ ¬0 + d.length = i.size)) := by
      rw [sz]; rintro (h | h | h | ⟨-, h⟩) <;> omega
    simp only [Chip.piece, hg, l1, l2, taken, seq, Bool.false_eq_true, if_false,
      List.length_nil, ne_eq, not_true, if_true, List.nil_append, s.dropSeq_none _ seq]

/-- A whole write of at most 4,080 bytes that passes the checks of R460 is its handler's, on every path. -/
theorem Chip.piece_accepts (s : Chip) (src : Src) (idx sub : Nat) (d : List Byte) (h : Nat → Chip → Nat × Chip)
    (acc : Accepts s src idx sub d.length) (pos : 0 < d.length) (small : d.length ≤ 4080) :
    s.piece src idx sub 0 d true h = h (natLE d) s :=
  s.piece_whole src idx sub d h acc pos (small.trans (pathMax_ge src))

/-- A whole write that passes the checks is carried out by its handler, and answered. -/
theorem Chip.dictPut_accepts (s : Chip) (src : Src) (idx sub : Nat) (d : List Byte) (h : Nat → Chip → Nat × Chip)
    (acc : Accepts s src idx sub d.length) (pos : 0 < d.length) (small : d.length ≤ 4080) :
    s.dictPut src idx sub d h = (h (natLE d) s).2.answerWrite src idx sub d (h (natLE d) s).1 := by
  have ab : (if src = .field then s.abandonXfer else s) = s := by
    split
    · next e => exact s.abandonXfer_none (acc.2.2.2.1 e)
    · rfl
  have up := acc.1
  have pd := acc.2.2.2.2
  simp only [Chip.dictPut, up, pd, Bool.not_true, Bool.false_eq_true, if_false, ab, s.piece_accepts src idx sub d h acc pos small]

/-- A command row's write that passes the checks is carried out by its handler, and answered. -/
theorem Chip.dictCmd_accepts (s : Chip) (src : Src) (idx sub n v : Nat) (h : Chip → Nat × Chip)
    (acc : Accepts s src idx sub n) (pos : 0 < n) (small : n ≤ 4080) :
    s.dictCmd src idx sub n v h = (h s).2.answerWrite src idx sub (bytesLE n v) (h s).1 := by
  have := s.dictPut_accepts src idx sub (bytesLE n v) (fun _ s => h s) (by simpa using acc) (by simpa using pos) (by simpa using small)
  simpa [Chip.dictCmd] using this

/-- A path that is not up carries nothing. -/
theorem Chip.dictPut_down (s : Chip) (src : Src) (idx sub : Nat) (d : List Byte) (h : Nat → Chip → Nat × Chip)
    (down : s.dictUp src = false) : s.dictPut src idx sub d h = s := by
  simp [Chip.dictPut, down]

/-- Ending the field port's transfer leaves no transfer, and ends no more than its sequence (R472). -/
theorem Chip.endXfer_facts (s : Chip) :
    s.endXfer.field = { s.field with xfer := none } ∧ s.endXfer.fault = s.fault ∧ Frame [.field, .dict] s.endXfer s := by
  unfold Chip.endXfer
  cases e : s.field.xfer with
  | none =>
    dsimp only
    exact ⟨by rw [← e], rfl, Frame.refl _ _⟩
  | some x =>
    dsimp only
    refine ⟨?_, ?_, ?_⟩
    · cases hx : x.read <;> rfl
    · cases hx : x.read <;> rfl
    · refine (Frame.set_field (by decide) _ _).trans ?_
      cases hx : x.read
      · exact Frame.set_dict (by decide) _ _
      · exact Frame.refl _ s

/-- An object that the checks let through has the shape they name. -/
theorem Chip.gate_shape (s : Chip) (m idx sub : Nat) (w : Bool) (i : ObjInfo) (h : s.gate m idx sub w = .go i) :
    objInfo? idx sub = some i := by
  have cg : ∀ (j : ObjInfo), classGate j w = .go i → j = i := by
    intro j; unfold classGate; split_ifs <;> simp
  unfold Chip.gate at h
  split at h
  · cases h
  split at h
  · cases h
  split at h
  · cases h
  split at h
  · cases h
  split at h
  · cases h
  · next j e =>
    rw [e]
    split at h
    · split at h
      · rw [cg _ h]
      · cases h
    · rw [cg _ h]

/-- A read that the checks let through, from inside the object and within one access of its path (R455, R460). -/
theorem Chip.readObject_go (s : Chip) (src : Src) (idx sub off n : Nat) (i : ObjInfo) (h : s.gate (srcMaster src) idx sub false = .go i)
    (lo : off < i.size) (pos : 0 < n) (fit : n ≤ pathMax src) :
    s.readObject src idx sub off n
      = ({ size := i.size, ty := i.ty.code, data := (s.objBytes (srcMaster src) idx sub i.size off (min n (i.size - off))).1 },
         (s.objBytes (srcMaster src) idx sub i.size off (min n (i.size - off))).2) := by
  simp only [Chip.readObject, h]
  rw [if_neg (by omega), if_neg (by omega)]

theorem Chip.objShape_go (s : Chip) (m idx sub : Nat) (w : Bool) (i : ObjInfo) (h : s.gate m idx sub w = .go i) :
    objShape idx sub = (i.size, i.ty.code) := by
  unfold objShape; rw [s.gate_shape m idx sub w i h]

/-- A RSP frame is the answer it carries (R467, R468). -/
theorem Chip.rsp_answered (c s : Chip) (cmd : Nat) (t : Bool) (idx sub : Nat) (d : List Byte)
    (h : c.field.sent = s.field.sent) (a : c.field.addr = s.field.addr) : Answered (c.rsp cmd t idx sub d) s cmd t idx sub d := by
  refine ⟨canLength ([BitVec.ofNat 8 (cmd + 64 * t.toNat)] ++ bytesLE 2 idx ++ bytesLE 1 sub ++ d).length
    - ([BitVec.ofNat 8 (cmd + 64 * t.toNat)] ++ bytesLE 2 idx ++ bytesLE 1 sub ++ d).length, ?_⟩
  rw [← h, ← a]
  rfl

end Sys2Proof.Machine
end

