-- ==== Sys2Proof/Laws/Map.lean ====
section
/-!
SUPPORT. Laws/Map.lean: what a map update, an abandoned migration and the checks of a page that moves leave of the device.
-/
namespace Sys2Proof.Machine

/-- The lauter part of a journal record: one entry more, or one more that waits for room (R165), and the next sequence number. -/
theorem Chip.jAppend_lauter (c : Chip) (a b d e : Nat) : (c.jAppend a b d e).lauter =
    { c.lauter with
      journal := if c.journalRoom 1 then c.lauter.journal ++ [⟨c.lauter.jseq, a, b, d, e⟩] else c.lauter.journal
      backlog := if c.journalRoom 1 then c.lauter.backlog else c.lauter.backlog ++ [⟨c.lauter.jseq, a, b, d, e⟩]
      jseq := wrap32 (c.lauter.jseq + 1) } := rfl

theorem Chip.commitPage_frame (c : Chip) (p : Nat) (r : PageRec) : Frame [.lauter, .kiln, .map] (c.commitPage p r) c := by
  unfold Chip.commitPage Chip.setPage
  exact ((Chip.recWritten_frame _ _).mono (by decide)).trans
    ((Frame.set_map (by decide) _ _).trans ((Chip.jAppend_frame c _ _ _ _).mono (by decide)))

/-- Of the map, a record's update changes the record, and what was known of its damaged copies (R83). -/
theorem Chip.commitPage_map (c : Chip) (p : Nat) (r : PageRec) :
    (c.commitPage p r).map = { c.map with pages := Tab.put {} c.map.pages p r, badRecs := Tab.del c.map.badRecs p } := rfl

@[simp] theorem Chip.commitPage_page (c : Chip) (p : Nat) (r : PageRec) : (c.commitPage p r).page p = r := by
  unfold Chip.page; rw [Chip.commitPage_map]; simp

theorem Chip.commitPage_other (c : Chip) (p : Nat) (r : PageRec) {q : Nat} (h : q ≠ p) : (c.commitPage p r).page q = c.page q := by
  unfold Chip.page; rw [Chip.commitPage_map]; exact Tab.get_put_other _ _ _ h

/-- A map update journals one entry: of kind 4 when the page starts to migrate, else of kind 1 (R162, R163). -/
theorem Chip.commitPage_lauter (c : Chip) (p : Nat) (r : PageRec) (room : c.journalRoom 1 = true) : (c.commitPage p r).lauter =
    { c.lauter with
      journal := c.lauter.journal ++ [⟨c.lauter.jseq, if r.st = .migrating then 4 else 1,
        if r.st = .migrating then (c.srcRec p).st.code else 0, c.pageTarget p, r.payload⟩]
      jseq := wrap32 (c.lauter.jseq + 1) } := by
  show (c.jAppend _ _ _ _).lauter = _
  rw [Chip.jAppend_lauter, if_pos room, if_pos room]

/-- With room in the journal or without, a map update touches the journal of the tier engine only. -/
theorem Chip.commitPage_journal (c : Chip) (p : Nat) (r : PageRec) :
    ∃ j b n, (c.commitPage p r).lauter = { c.lauter with journal := j, backlog := b, jseq := n } :=
  ⟨_, _, _, Chip.jAppend_lauter c _ _ _ _⟩

theorem Frame.part {l : List Part} {a b : Chip} (h : Frame l a b) {p : Part} (n : p ∉ l) : p.same a b := h p n

theorem Frame.page {l : List Part} {a b : Chip} (h : Frame l a b) (n : Part.map ∉ l) (p : Nat) : a.page p = b.page p := by
  have := h .map n
  simp only [Part.same] at this
  unfold Chip.page; rw [this]

theorem Frame.lauter {l : List Part} {a b : Chip} (h : Frame l a b) (n : Part.lauter ∉ l) : a.lauter = b.lauter := h .lauter n

theorem Frame.map {l : List Part} {a b : Chip} (h : Frame l a b) (n : Part.map ∉ l) : a.map = b.map := h .map n

theorem Chip.dropAbsorbed_frame (c : Chip) (p : Nat) : Frame [.kiln] (c.dropAbsorbed p) c := Frame.set_kiln (by decide) _ _

/-- An abandoned migration: its slot is free, and its record is the source's again where the record still migrates (R160). -/
theorem Chip.abandon_facts (c : Chip) (i : Nat) (m : Slot) (h : Tab.find c.lauter.slots i = some m) :
    Frame [.lauter, .kiln, .map] (c.abandon i) c ∧ (c.abandon i).lauter.slots = Tab.del c.lauter.slots i
    ∧ (c.abandon i).lauter.abandoned = c.lauter.abandoned + 1 ∧ m.page ∈ (c.abandon i).lauter.barred
    ∧ (∀ q, (c.abandon i).page q = if q = m.page ∧ (c.page q).st = .migrating then { c.page q with st := m.src.st } else c.page q)
    ∧ (c.abandon i).lauter.chan = c.lauter.chan ∧ (c.abandon i).map.extents = c.map.extents := by
  unfold Chip.abandon
  rw [h]
  dsimp only
  generalize hb : (if c.lauter.barred.contains m.page = true then c.lauter.barred else c.lauter.barred ++ [m.page]) = b
  have mb : m.page ∈ b := by
    rw [← hb]
    by_cases h : m.page ∈ c.lauter.barred
    · rw [if_pos (by simpa using h)]; exact h
    · rw [if_neg (by simpa using h)]; simp
  generalize hd : ({ c with lauter := { c.lauter with slots := Tab.del c.lauter.slots i, abandoned := c.lauter.abandoned + 1, barred := b } } : Chip) = d
  have fd : Frame [.lauter] d c := by rw [← hd]; exact Frame.set_lauter (by decide) c _
  have pd : ∀ q, d.page q = c.page q := fun q => fd.page (by decide) q
  split
  · rename_i e
    obtain ⟨j, k, n, l⟩ := d.commitPage_journal m.page { c.page m.page with st := m.src.st }
    refine ⟨(Chip.commitPage_frame _ _ _).trans (fd.mono (by decide)), by rw [l, ← hd], by rw [l, ← hd], by rw [l, ← hd]; exact mb,
      fun q => ?_, by rw [l, ← hd], by rw [Chip.commitPage_map, ← hd]⟩
    by_cases hq : q = m.page
    · subst hq; rw [Chip.commitPage_page, if_pos ⟨rfl, e⟩]
    · rw [Chip.commitPage_other _ _ _ hq, if_neg (by simp [hq]), pd]
  · rename_i e
    refine ⟨fd.mono (by decide), by rw [← hd], by rw [← hd], by rw [← hd]; exact mb, fun q => ?_, by rw [← hd], by rw [← hd]⟩
    rw [if_neg (by rintro ⟨rfl, h⟩; exact e h), pd]

/-- "capacity low" alone can follow a page's placement (R197). -/
theorem Chip.watchCapacity_frame (c b : Chip) : Frame [.fault, .heads, .field] (c.watchCapacity b) c := by
  unfold Chip.watchCapacity
  split
  · exact (Chip.raise_eq _ _ _ _ _ _).frame
  · exact Frame.refl _ _

theorem Chip.zeroInline_frame (c : Chip) : Frame [.map, .fault, .heads, .field] c.zeroInline c ∧ ∀ q, c.zeroInline.page q = c.page q := by
  unfold Chip.zeroInline
  exact ⟨((Chip.raise_eq _ _ _ _ _ _).frame.mono (by decide)).trans (Frame.set_map (by decide) _ _),
    fun q => ((Chip.raise_eq _ _ _ _ _ _).frame.page (by decide) q).trans rfl⟩

/-- The pool's count of pages left is all that a page taken changes of the map (R92). -/
theorem Chip.takePool_facts (c : Chip) (t : PgState) (ch : Nat) :
    Frame [.map, .fault, .heads, .field] (c.takePool t ch) c ∧ ∀ q, (c.takePool t ch).page q = c.page q := by
  unfold Chip.takePool
  split
  · split
    · exact ⟨Frame.set_map (by decide) _ _, fun _ => rfl⟩
    · exact c.zeroInline_frame
  · split
    · exact ⟨Frame.set_map (by decide) _ _, fun _ => rfl⟩
    · exact c.zeroInline_frame
  · exact ⟨Frame.refl _ _, fun _ => rfl⟩

/-- A page placed anew keeps its heat. -/
theorem Chip.placeAt_heat (c : Chip) (p : Nat) (t : PgState) (ch : Nat) (f : Bool × Nat) (old : PageRec) :
    (c.placeAt p t ch f old).1.heat = old.heat := by
  cases t <;> rfl

/-- Storage on DDR5 or HBM: its tier, form and channel, and what taking it leaves (R92, R152). -/
theorem Chip.placeAt_facts (c : Chip) (p : Nat) (t : PgState) (ch : Nat) (f : Bool × Nat) (old : PageRec) (ht : t = .hbm ∨ t = .ddr) :
    (c.placeAt p t ch f old).1.st = t ∧ (t = .ddr → (c.placeAt p t ch f old).1.ch = ch ∧ (c.placeAt p t ch f old).1.grist = f.1
      ∧ (c.placeAt p t ch f old).1.sectors = f.2)
    ∧ (t = .hbm → (c.placeAt p t ch f old).1.grist = false ∧ (c.placeAt p t ch f old).1.sectors = 63)
    ∧ Frame [.map, .fault, .heads, .field, .free] (c.placeAt p t ch f old).2 c ∧ (∀ q, (c.placeAt p t ch f old).2.page q = c.page q) := by
  have tk : Frame [.map, .fault, .heads, .field, .free] c.takeNat.2 c ∧ ∀ q, c.takeNat.2.page q = c.page q :=
    ⟨Frame.set_free (by decide) c _, fun _ => rfl⟩
  have pd : Frame [.map, .fault, .heads, .field, .free] (c.placeDdr p ch f).2.2 c ∧ ∀ q, (c.placeDdr p ch f).2.2.page q = c.page q := by
    have e : ∃ x y, c.placeDdr p ch f = (x, y, c.takeNat.2) := by
      unfold Chip.placeDdr
      dsimp only
      generalize (if f.1 = true then _ else _ : List Nat) = l
      by_cases h : l ≠ []
      · exact ⟨_, _, if_pos h⟩
      · exact ⟨_, _, if_neg h⟩
    obtain ⟨x, y, e⟩ := e
    rw [e]; exact tk
  have join (a b : Chip) (fa : Frame [.map, .fault, .heads, .field] a b ∧ ∀ q, a.page q = b.page q)
      (fb : Frame [.map, .fault, .heads, .field, .free] b c ∧ ∀ q, b.page q = c.page q) :
      Frame [.map, .fault, .heads, .field, .free] a c ∧ ∀ q, a.page q = c.page q :=
    ⟨(fa.1.mono (by decide)).trans fb.1, fun q => (fa.2 q).trans (fb.2 q)⟩
  rcases ht with rfl | rfl
  · obtain ⟨a, b⟩ := join _ _ (Chip.takePool_facts _ .hbm 0) tk
    exact ⟨rfl, by simp, fun _ => ⟨rfl, rfl⟩, a, b⟩
  · have : Frame [.map, .fault, .heads, .field, .free] (c.placeAt p .ddr ch f old).2 c ∧ ∀ q, (c.placeAt p .ddr ch f old).2.page q = c.page q := by
      unfold Chip.placeAt
      generalize c.placeDdr p ch f = x at pd
      obtain ⟨l, fr, d⟩ := x
      dsimp only at pd ⊢
      split
      · exact join _ _ (Chip.takePool_facts _ .ddr ch) pd
      · exact pd
    exact ⟨rfl, fun _ => ⟨rfl, rfl, rfl⟩, by simp, this.1, this.2⟩

/-- A destination of a move: its tier, its form and its channel (R152). -/
theorem Chip.destination_facts (c d : Chip) (p : Nat) (t : PgState) (ch loc : Nat) (f : Bool × Nat) (x : PageRec)
    (ht : t = .hbm ∨ t = .ddr ∨ t = .nvm) (h : c.destination p t ch loc f = some (x, d)) :
    x.st = t ∧ (t ≠ .hbm → x.ch = ch ∧ x.grist = f.1 ∧ x.sectors = f.2) ∧ (t = .nvm → x.loc = loc)
    ∧ (t = .hbm → x.grist = false ∧ x.sectors = 63)
    ∧ Frame [.map, .kiln, .fault, .heads, .field, .free] d c ∧ (∀ q, d.page q = c.page q) := by
  unfold Chip.destination at h
  dsimp only at h
  by_cases hn : t = .nvm
  · subst hn
    rw [if_neg (by simp)] at h
    split at h
    · cases h
    · obtain ⟨rfl, rfl⟩ := Prod.mk.inj (Option.some.inj h)
      have fp : Frame [.kiln] c.pruneOlds c := Frame.set_kiln (by decide) c _
      have fu := (c.pruneOlds.placeUnit_facts ch loc (c.unitLines p f)).1.1
      exact ⟨rfl, fun _ => ⟨rfl, rfl, rfl⟩, fun _ => rfl, by simp, (fu.mono (by decide)).trans (fp.mono (by decide)),
        fun q => (fu.page (by decide) q).trans (fp.page (by decide) q)⟩
  · rw [if_pos hn] at h
    have ht' : t = .hbm ∨ t = .ddr := by tauto
    obtain ⟨a1, a2, a3, a4, a5⟩ := c.placeAt_facts p t ch f (c.page p) ht'
    rw [Option.some.inj h] at a1 a2 a3 a4 a5
    exact ⟨a1, fun q => a2 (by tauto), fun q => absurd q hn, a3, a4.mono (by decide), a5⟩

/-- The journal and the map do not bear on a page's source record but through its own (R85). -/
theorem Frame.srcRec {l : List Part} {a b : Chip} (h : Frame l a b) (n : Part.lauter ∉ l) (q : Nat) (hp : a.page q = b.page q) :
    a.srcRec q = b.srcRec q := by
  have := h.lauter n
  unfold Chip.srcRec Chip.migOf; rw [hp, this]

/-- Bytes queued for copy bear on the accrual of MIGRATE's debt only (R151). -/
theorem Chip.queueCopy_facts (c : Chip) (n : Nat) :
    (∃ l, (c.queueCopy n).lauter = { c.lauter with copied := l }) ∧ Frame [.lauter, .win] (c.queueCopy n) c := by
  unfold Chip.queueCopy
  split
  · exact ⟨⟨_, rfl⟩, Frame.refl _ _⟩
  · refine ⟨⟨_, rfl⟩, ?_⟩
    unfold Chip.rollCopied
    intro p hp; cases p <;> first | rfl | exact absurd (by decide) hp

/-- A page enters a slot (R152 steps 1 and 2). -/
theorem Chip.enterSlot_facts (c : Chip) (i p : Nat) (dst : PageRec) (rep : Bool) (room : c.journalRoom 1 = true) :
    Frame [.lauter, .kiln, .map, .win] (c.enterSlot i p dst rep) c
    ∧ (c.enterSlot i p dst rep).lauter.slots = Tab.set c.lauter.slots i { page := p, src := c.page p, dst := dst, repack := rep, since := c.tb.tc }
    ∧ (c.enterSlot i p dst rep).page p = { c.page p with st := .migrating }
    ∧ (∀ q, q ≠ p → (c.enterSlot i p dst rep).page q = c.page q)
    ∧ (∃ e, (c.enterSlot i p dst rep).lauter.journal = c.lauter.journal ++ [e] ∧ e.kind = 4) := by
  unfold Chip.enterSlot
  dsimp only
  generalize hd : c.commitPage p { c.page p with st := .migrating } = d
  have fd : Frame [.lauter, .kiln, .map] d c := by rw [← hd]; exact Chip.commitPage_frame _ _ _
  have pd : d.page p = { c.page p with st := .migrating } := by rw [← hd]; exact Chip.commitPage_page _ _ _
  have po : ∀ q, q ≠ p → d.page q = c.page q := fun q hq => by rw [← hd]; exact Chip.commitPage_other _ _ _ hq
  have ld := Chip.commitPage_lauter c p { c.page p with st := .migrating } room
  rw [hd] at ld
  have tb : d.tb = c.tb := fd .tb (by decide)
  generalize he : ({ d with lauter := { d.lauter with
      slots := Tab.set d.lauter.slots i { page := p, src := c.page p, dst := dst, repack := rep, since := d.tb.tc }
      promote := d.lauter.promote.filter (fun q => decide (q ≠ p)), demote := d.lauter.demote.filter (fun q => decide (q ≠ p))
      low := d.lauter.low.filter (fun q => decide (q ≠ p)) } } : Chip) = e
  have fe : Frame [.lauter] e d := by rw [← he]; exact Frame.set_lauter (by decide) d _
  generalize passBytes _ _ = n
  obtain ⟨⟨l, hl⟩, fq⟩ := e.queueCopy_facts n
  refine ⟨(fq.mono (by decide)).trans ((fe.mono (by decide)).trans (fd.mono (by decide))), ?_, ?_, fun q hq => ?_, ?_⟩
  · rw [hl, ← he]; dsimp only; rw [ld, tb]
  · rw [fq.page (by decide), fe.page (by decide), pd]
  · rw [fq.page (by decide), fe.page (by decide), po q hq]
  · exact ⟨⟨c.lauter.jseq, 4, (c.srcRec p).st.code, c.pageTarget p, ({ c.page p with st := .migrating } : PageRec).payload⟩,
      by rw [hl, ← he]; dsimp only; rw [ld]; simp, rfl⟩

/-- The decay of R150 over a list of pages without repeats: each takes its heat, and the others stay. -/
theorem Chip.decay_facts (keep : Nat) : ∀ (ps : List Nat) (c : Chip), ps.Nodup →
    let d := ps.foldl (fun (s : Chip) p =>
      let r := s.page p
      let h := min 255 ((r.heat * keep) >>> 4 + s.heatOf p)
      if h = r.heat then s else s.commitPage p { r with heat := h }) c
    Frame [.lauter, .kiln, .map] d c
      ∧ (∃ j b n, d.lauter = { c.lauter with journal := j, backlog := b, jseq := n })
      ∧ (∀ q, d.page q = if q ∈ ps then { c.page q with heat := min 255 (((c.page q).heat * keep) >>> 4 + c.heatOf q) } else c.page q) := by
  intro ps
  induction ps with
  | nil => intro c _; exact ⟨Frame.refl _ _, ⟨_, _, _, rfl⟩, fun q => by simp⟩
  | cons p ps ih =>
    intro c nd
    rw [List.nodup_cons] at nd
    simp only [List.foldl_cons]
    generalize hc : (if min 255 (((c.page p).heat * keep) >>> 4 + c.heatOf p) = (c.page p).heat then c
      else c.commitPage p { c.page p with heat := min 255 (((c.page p).heat * keep) >>> 4 + c.heatOf p) }) = c'
    have f : Frame [.lauter, .kiln, .map] c' c := by
      rw [← hc]; exact Frame.ite _ (Frame.refl _ _) (Chip.commitPage_frame _ _ _)
    have l : ∃ j b n, c'.lauter = { c.lauter with journal := j, backlog := b, jseq := n } := by
      rw [← hc]; split
      · exact ⟨_, _, _, rfl⟩
      · exact Chip.commitPage_journal _ _ _
    have ho : ∀ q, c'.heatOf q = c.heatOf q := by
      obtain ⟨j, b, n, e⟩ := l
      intro q; unfold Chip.heatOf; rw [e]
    have pp : c'.page p = { c.page p with heat := min 255 (((c.page p).heat * keep) >>> 4 + c.heatOf p) } := by
      rw [← hc]; split
      · rename_i h
        conv_lhs => rw [show c.page p = { c.page p with heat := (c.page p).heat } from rfl]
        rw [h]
      · exact Chip.commitPage_page _ _ _
    have po : ∀ q, q ≠ p → c'.page q = c.page q := by
      intro q hq; rw [← hc]; split
      · rfl
      · exact Chip.commitPage_other _ _ _ hq
    obtain ⟨a, ⟨j, k, n, b⟩, d⟩ := ih c' nd.2
    refine ⟨a.trans f, ?_, fun q => ?_⟩
    · obtain ⟨j', k', n', e⟩ := l
      exact ⟨j, k, n, by rw [b, e]⟩
    · rw [d q]
      by_cases hq : q = p
      · subst hq; simp [nd.1, pp]
      · simp [hq, po q hq, ho q]

theorem insertHeat_mem (c : Chip) (hot : Bool) (p q : Nat) : ∀ l, q ∈ insertHeat c hot p l ↔ q = p ∨ q ∈ l := by
  intro l
  induction l with
  | nil => simp [insertHeat]
  | cons a l ih =>
    unfold insertHeat
    dsimp only
    split <;> split <;> simp only [List.mem_cons, ih] <;> first | exact Iff.rfl | exact or_left_comm

/-- Sorting keeps the pages of a list. -/
theorem Chip.byHeat_mem (c : Chip) (hot : Bool) (q : Nat) (l : List Nat) : q ∈ c.byHeat hot l ↔ q ∈ l := by
  unfold Chip.byHeat
  have g : ∀ (l m : List Nat), q ∈ l.foldl (fun m p => insertHeat c hot p m) m ↔ q ∈ l ∨ q ∈ m := by
    intro l
    induction l with
    | nil => intro m; simp
    | cons a l ih => intro m; rw [List.foldl_cons, ih, insertHeat_mem]; simp; tauto
  rw [g]; simp

/-- The keys of a table in canonical form do not repeat. -/
theorem Tab.keys_nodup {α : Type} [DecidableEq α] (d : α) (t : Tab α) (h : Tab.wf d t = true) : (t.map (·.1)).Nodup := by
  unfold Tab.wf at h
  rw [Bool.and_eq_true] at h
  have := (Tab.rising_iff t).mp h.1
  rw [List.Nodup, List.pairwise_map]
  exact this.imp (fun h => by omega)

/-- Migrations end at a rebuild: a record still MIGRATING reads from its source again (R161). -/
theorem Chip.rebuild_facts : ∀ (l : List (Nat × Slot)) (c : Chip),
    let d := l.foldl (fun (s : Chip) e =>
      if (s.page e.2.page).st = .migrating then s.setPage e.2.page { s.page e.2.page with st := e.2.src.st } else s) c
    Frame [.map] d c ∧ (∃ t, d.map = { c.map with pages := t })
      ∧ (∀ q, (∀ e ∈ l, e.2.page ≠ q) → d.page q = c.page q)
      ∧ (∀ e ∈ l, (∀ f ∈ l, f.2.page = e.2.page → f.2.src.st = e.2.src.st) → e.2.src.st ≠ .migrating → (c.page e.2.page).st = .migrating →
          d.page e.2.page = { c.page e.2.page with st := e.2.src.st }) := by
  intro l
  induction l with
  | nil => intro c; exact ⟨Frame.refl _ _, ⟨_, rfl⟩, fun _ _ => rfl, by simp⟩
  | cons a l ih =>
    intro c
    simp only [List.foldl_cons]
    generalize hc : (if (c.page a.2.page).st = .migrating then c.setPage a.2.page { c.page a.2.page with st := a.2.src.st } else c) = c'
    have f : Frame [.map] c' c := by
      rw [← hc]; exact Frame.ite _ (Frame.set_map (by decide) _ _) (Frame.refl _ _)
    have mp : ∃ t, c'.map = { c.map with pages := t } := by
      rw [← hc]; split
      · exact ⟨_, rfl⟩
      · exact ⟨_, rfl⟩
    have po : ∀ q, q ≠ a.2.page → c'.page q = c.page q := by
      intro q hq; rw [← hc]; split
      · exact Chip.page_setPage_other _ _ hq
      · rfl
    have pp : (c.page a.2.page).st = .migrating → c'.page a.2.page = { c.page a.2.page with st := a.2.src.st } := by
      intro h; rw [← hc, if_pos h]; exact Chip.page_setPage _ _ _
    have pn : (c.page a.2.page).st ≠ .migrating → c'.page a.2.page = c.page a.2.page := by
      intro h; rw [← hc, if_neg h]
    obtain ⟨i1, ⟨t, i2⟩, i3, i4⟩ := ih c'
    refine ⟨i1.trans f, ?_, fun q hq => ?_, fun e he same nm mg => ?_⟩
    · obtain ⟨u, e⟩ := mp; exact ⟨t, by rw [i2, e]⟩
    · rw [i3 q (fun e he => hq e (List.mem_cons_of_mem _ he)), po q (fun e => hq a (List.mem_cons_self ..) e.symm)]
    · by_cases ea : e.2.page = a.2.page
      · have sa : a.2.src.st = e.2.src.st := same a (List.mem_cons_self ..) ea.symm
        rw [ea] at mg ⊢
        have pa := pp mg
        have st : (c'.page a.2.page).st = e.2.src.st := by rw [pa]; exact sa
        -- later slots leave it
        have later : ∀ (m : List (Nat × Slot)) (d : Chip), (d.page a.2.page).st ≠ .migrating →
            (m.foldl (fun (s : Chip) e =>
              if (s.page e.2.page).st = .migrating then s.setPage e.2.page { s.page e.2.page with st := e.2.src.st } else s) d).page a.2.page
              = d.page a.2.page := by
          intro m
          induction m with
          | nil => intro d _; rfl
          | cons b m ihm =>
            intro d hd
            simp only [List.foldl_cons]
            have : (if (d.page b.2.page).st = .migrating then d.setPage b.2.page { d.page b.2.page with st := b.2.src.st } else d).page a.2.page
                = d.page a.2.page := by
              split
              · rename_i hb
                exact Chip.page_setPage_other _ _ (fun eq => hd (by rw [eq]; exact hb))
              · rfl
            rw [ihm _ (by rw [this]; exact hd), this]
        rw [later l c' (by rw [st]; exact nm), pa, sa]
      · have hl : e ∈ l := by
          rcases List.mem_cons.mp he with rfl | h
          · exact absurd rfl ea
          · exact h
        have := i4 e hl (fun g hg => same g (List.mem_cons_of_mem _ hg)) nm (by rw [po _ ea]; exact mg)
        rw [this, po _ ea]

/-- Several migrations abandoned: their slots are free, and the others stay (R158, R160). -/
theorem Chip.abandonAll_facts : ∀ (l : List Nat) (c : Chip),
    let d := l.foldl (fun (s : Chip) i => s.abandon i) c
    Frame [.lauter, .kiln, .map] d c ∧ d.lauter.chan = c.lauter.chan ∧ d.map.extents = c.map.extents
      ∧ (∀ j, Tab.find d.lauter.slots j = if j ∈ l then none else Tab.find c.lauter.slots j) := by
  intro l
  induction l with
  | nil => intro c; exact ⟨Frame.refl _ _, rfl, rfl, fun j => by simp⟩
  | cons i l ih =>
    intro c
    simp only [List.foldl_cons]
    have one : Frame [.lauter, .kiln, .map] (c.abandon i) c ∧ (c.abandon i).lauter.chan = c.lauter.chan
        ∧ (c.abandon i).map.extents = c.map.extents
        ∧ (∀ j, Tab.find (c.abandon i).lauter.slots j = if j = i then none else Tab.find c.lauter.slots j) := by
      cases h : Tab.find c.lauter.slots i with
      | none =>
        have : c.abandon i = c := by unfold Chip.abandon; rw [h]
        rw [this]
        exact ⟨Frame.refl _ _, rfl, rfl, fun j => by by_cases e : j = i <;> simp [e, h]⟩
      | some m =>
        obtain ⟨a, b, _, _, _, k, x⟩ := Chip.abandon_facts c i m h
        exact ⟨a, k, x, fun j => by rw [b]; exact Tab.find_del _ _ _⟩
    obtain ⟨a1, a2, a3, a4⟩ := one
    obtain ⟨i1, i2, i3, i4⟩ := ih (c.abandon i)
    refine ⟨i1.trans a1, i2.trans a2, i3.trans a3, fun j => ?_⟩
    rw [i4 j, a4 j]
    by_cases hj : j ∈ l
    · simp [hj]
    · by_cases e : j = i <;> simp [hj, e]

/-- An entry goes to the retirement log, or is counted lost (R356, R357). -/
theorem Chip.retAppend_frame (c : Chip) (e : RetEnt) : Frame [.integ] (c.retAppend e) c := by
  unfold Chip.retAppend Chip.retPlace
  dsimp only
  refine Frame.ite _ (Frame.set_integ (by decide) _ _) ?_
  have f : Frame [.integ] (if 0 < c.integ.lostSince then
      let n := min c.integ.lostSince 65535
      let s := ({ c with integ := { c.integ with lostSince := 0 } } : Chip)
      s.retPlace ⟨0, 12, 0, 0, 4, 0, s.tcRec, 0, 0, 0xFF, n⟩ else c) c := by
    refine Frame.ite _ ?_ (Frame.refl _ _)
    exact (Frame.set_integ (by decide) _ _).trans (Frame.set_integ (by decide) _ _)
  refine Frame.ite _ ((Frame.set_integ (by decide) _ _).trans f) ((Frame.set_integ (by decide) _ _).trans f)

/-- With room and nothing lost the entry stands at the producer's place (R357). -/
theorem Chip.retAppend_room (c : Chip) (e : RetEnt) (h : c.retRoom = true) (h0 : c.integ.lostSince = 0) :
    c.retAppend e = c.retPlace e := by
  unfold Chip.retAppend
  dsimp only
  rw [if_neg (show ¬ (!c.retRoom) = true by simp [h]), if_neg (show ¬ 0 < c.integ.lostSince by omega), if_pos h]

theorem Chip.raise_keeps (c : Chip) (n : Nat) : Frame [.lauter, .fault, .heads, .field] (c.raise n) c ∧ (c.raise n).lauter = c.lauter :=
  ⟨(Chip.raise_eq c n _ _ _ _).frame.mono (by decide), (Chip.raise_eq c n _ _ _ _).frame.lauter (by decide)⟩

theorem Chip.useSpare_frame (c : Chip) (v : Nat) : Frame [.lauter, .fault, .heads, .field] (c.useSpare v) c
    ∧ (∃ t, (c.useSpare v).lauter = { c.lauter with capPages := t }) := by
  unfold Chip.useSpare
  extract_lets ch used spare d
  split
  · exact ⟨Frame.refl _ _, _, rfl⟩
  · have hd : Frame [.lauter, .fault, .heads, .field] d c ∧ d.lauter = c.lauter := by
      show Frame _ (if _ then _ else _) c ∧ (if _ then _ else _ : Chip).lauter = _
      split
      · exact Chip.raise_keeps c 104
      · exact ⟨Frame.refl _ _, rfl⟩
    clear_value d
    split
    · obtain ⟨a, b⟩ := Chip.raise_keeps { d with lauter := { d.lauter with capPages := Tab.upd 0 d.lauter.capPages (8 + ch) (· - 511) } } 105
      exact ⟨a.trans ((Frame.set_lauter (by decide) _ _).trans hd.1), Tab.upd 0 d.lauter.capPages (8 + ch) (· - 511), by rw [b, hd.2]⟩
    · exact ⟨hd.1, _, hd.2⟩

theorem Chip.zoneRoots_frame (c : Chip) (clean : Bool) : Frame [.kiln] (c.zoneRoots clean) c := by
  unfold Chip.zoneRoots
  dsimp only
  have g : ∀ (l : List Nat) (d : Chip), Frame [.kiln] (l.foldl (fun (s : Chip) k =>
      s.setNvm k { s.nvm k with roots := (s.nvm k).roots.map (fun r => r.rewrite (s.rootNow k clean)) }) d) d := by
    intro l
    induction l with
    | nil => intro d; exact Frame.refl _ _
    | cons k l ih => intro d; exact (ih _).trans (Frame.set_kiln (by decide) d _)
  exact g _ c

theorem Chip.moveZone_frame (c : Chip) (n : Nat) : Frame [.lauter, .kiln, .rwp, .sb, .fault, .heads, .field, .free] (c.moveZone n) c := by
  unfold Chip.moveZone
  dsimp only
  generalize List.filter _ (List.map _ (c.onlineChans PgState.nvm)) = l
  have cz : Frame [.lauter, .kiln, .rwp, .sb, .fault, .heads, .field, .free] (c.chooseChan l).2 c := by
    unfold Chip.chooseChan
    split
    · exact Frame.refl _ _
    · exact Frame.refl _ _
    · exact Frame.set_free (by decide) _ _
  generalize c.chooseChan l = x at cz
  obtain ⟨k, d⟩ := x
  dsimp only at cz ⊢
  split
  · exact Frame.refl _ _
  · split
    · exact cz
    · refine ((Chip.zoneRoots_frame _ false).mono (by decide)).trans (Frame.trans ?_ cz)
      generalize hu : ({ d with lauter := { d.lauter with zones := _ } } : Chip) = u
      have fu : Frame [.lauter] u d := by rw [← hu]; exact Frame.set_lauter (by decide) d _
      refine Frame.trans ?_ (fu.mono (by decide))
      have cr (v : Nat) : Frame [.lauter, .kiln, .rwp, .sb, .fault, .heads, .field, .free] (u.commitRwp Obj.lauterZoneChannels 1 v).2 u := by
        rcases u.commitRwp_cases Obj.lauterZoneChannels 1 v with e | e
        · rw [e]
          exact (Frame.set_rwp (by decide) _ _).trans ((u.sbAppend_frame _ _ _).mono (by decide))
        · rw [e]; exact Frame.refl _ _
      exact cr _

/-- Of the tiering part, a map zone that moves changes the copies (R168). -/
theorem Chip.moveZone_lauter (c : Chip) (n : Nat) : ∃ z, (c.moveZone n).lauter = { c.lauter with zones := z } := by
  unfold Chip.moveZone
  dsimp only
  generalize List.filter _ (List.map _ (c.onlineChans PgState.nvm)) = l
  have cz : (c.chooseChan l).2.lauter = c.lauter := by
    unfold Chip.chooseChan
    split <;> rfl
  generalize c.chooseChan l = x at cz
  obtain ⟨k, d⟩ := x
  dsimp only at cz ⊢
  split
  · exact ⟨_, rfl⟩
  · split
    · exact ⟨c.lauter.zones, cz⟩
    · rw [(Chip.zoneRoots_frame _ false).lauter (by decide)]
      generalize hu : ({ d with lauter := { d.lauter with zones := _ } } : Chip) = u
      have cr (v : Nat) : (u.commitRwp Obj.lauterZoneChannels 1 v).2.lauter = u.lauter := by
        rcases u.commitRwp_cases Obj.lauterZoneChannels 1 v with e | e
        · rw [e]; exact (u.sbAppend_frame _ _ _).lauter (by decide)
        · rw [e]
      rw [cr, ← hu]
      exact ⟨_, by rw [cz]⟩

theorem Chip.keyEmpty_frame (c : Chip) (k : Nat) : Frame [.casks] (c.keyEmpty k) c := by
  unfold Chip.keyEmpty; dsimp only; exact Frame.ite _ (Frame.set_casks (by decide) _ _) (Frame.refl _ _)

/-- An extent that goes takes nothing else of the map with it but what is known of damaged copies of its entries (R172). -/
theorem Chip.dropExtent_facts (c : Chip) (e : Extent) :
    (∃ x, (c.dropExtent e).map = { c.map with extents := c.map.extents.filter (fun x => decide (x ≠ e)), badRecs := x })
    ∧ Frame [.map, .lauter, .kiln, .casks] (c.dropExtent e) c := by
  unfold Chip.dropExtent
  dsimp only
  generalize hx : ({ c with map := { c.map with extents := c.map.extents.filter (fun x => decide (x ≠ e)) } } : Chip) = x
  obtain ⟨y, hy, a⟩ := Chip.commitExtent_eq x e
  have b := Chip.keyEmpty_frame (x.commitExtent e) e.cask
  refine ⟨⟨y, ?_⟩, ?_⟩
  · rw [b.map (by decide), hy, ← hx]
  · exact (b.mono (by decide)).trans ((a.mono (by decide)).trans (by rw [← hx]; exact Frame.set_map (by decide) _ _))

/-- The steps of a release that come at once (R174): the extent is releasing, its pages' migrations are abandoned, and its lines leave
the ways. -/
theorem Chip.startRelease_facts (c : Chip) (e : Extent) :
    (c.startRelease e).map.extents = c.map.extents.map (fun x => if x = e then { e with st := .releasing } else x)
    ∧ (∀ k, lineNo e.base ≤ k → k < lineNo e.base + e.len / 64 → Tab.find (c.startRelease e).cache.lines k = none)
    ∧ Frame [.map, .lauter, .kiln, .cache] (c.startRelease e) c := by
  unfold Chip.startRelease
  dsimp only
  generalize hd : (c.setExtent e { e with st := .releasing }).commitExtent e = d
  have fd : Frame [.map, .lauter, .kiln] d c ∧ d.map.extents = c.map.extents.map (fun x => if x = e then { e with st := .releasing } else x) := by
    obtain ⟨y, hy, a⟩ := Chip.commitExtent_eq (c.setExtent e { e with st := .releasing }) e
    rw [hd] at hy a
    exact ⟨(a.mono (by decide)).trans (Frame.set_map (by decide) c _), by rw [hy]; rfl⟩
  generalize List.map _ (List.filter _ d.lauter.slots) = moving
  obtain ⟨f1, _, f2, _⟩ := Chip.abandonAll_facts moving d
  generalize moving.foldl (fun (s : Chip) i => s.abandon i) d = f at f1 f2
  have fg : Frame [.cache] (f.dropLines (lineNo e.base) (e.len / 64)) f := Frame.set_cache (by decide) f _
  refine ⟨?_, fun k k1 k2 => ?_, ?_⟩
  · show f.map.extents = _
    rw [f2, fd.2]
  · show Tab.find (f.cache.lines.filter (fun e' => !decide (lineNo e.base ≤ e'.1 ∧ e'.1 < lineNo e.base + e.len / 64))) k = none
    rw [Tab.find_filter f.cache.lines (fun k => !decide (lineNo e.base ≤ k ∧ k < lineNo e.base + e.len / 64)) k, if_neg (by simp; omega)]
  · exact (Frame.set_kiln (by decide) _ _).trans ((fg.mono (by decide)).trans ((f1.mono (by decide)).trans (fd.1.mono (by decide))))

/-- Pages wiped: their bytes read zero and their lines lose their markers; no other byte or marker changes (R89, R93). -/
theorem Chip.wipePages_facts : ∀ (ps : List Nat) (c : Chip),
    let d := ps.foldl (fun (s : Chip) p => s.wipePage p) c
    (∀ x, Tab.get 0 d.mem x = if x / 4096 ∈ ps then 0 else Tab.get 0 c.mem x)
      ∧ (∀ k, Tab.get false d.poison k = if k / 64 ∈ ps then false else Tab.get false c.poison k)
      ∧ Frame [.mem, .poison, .macs, .mill, .kiln, .cache] d c := by
  intro ps
  induction ps with
  | nil => intro c; exact ⟨fun x => by simp, fun k => by simp, Frame.refl _ _⟩
  | cons p ps ih =>
    intro c
    simp only [List.foldl_cons]
    have m : ∀ x, Tab.get 0 (c.wipePage p).mem x = if x / 4096 = p then 0 else Tab.get 0 c.mem x := by
      intro x
      have := Tab.get_filter (0 : Byte) c.mem (fun a => !decide (a / 4096 = p)) x
      refine this.trans ?_
      by_cases h : x / 4096 = p <;> simp [h]
    have q : ∀ x, Tab.get false (c.wipePage p).poison x = if x / 64 = p then false else Tab.get false c.poison x := by
      intro x
      have := Tab.get_filter false c.poison (fun a => !decide (a / 64 = p)) x
      refine this.trans ?_
      by_cases h : x / 64 = p <;> simp [h]
    have f : Frame [.mem, .poison, .macs, .mill, .kiln, .cache] (c.wipePage p) c := by
      intro a ha; cases a <;> first | rfl | exact absurd (by decide) ha
    obtain ⟨i1, i2, i3⟩ := ih (c.wipePage p)
    refine ⟨fun x => ?_, fun x => ?_, i3.trans f⟩
    · rw [i1, m]; by_cases h : x / 4096 = p <;> simp [h]
    · rw [i2, q]; by_cases h : x / 64 = p <;> simp [h]

/-- What a table reads after one value is listed at many keys. -/
theorem Tab.get_setAll {α : Type} (d v : α) : ∀ (l : List Nat) (t : Tab α) (k : Nat),
    Tab.get d (l.foldl (fun t c => Tab.set t c v) t) k = if k ∈ l then v else Tab.get d t k := by
  intro l
  induction l with
  | nil => intro t k; simp
  | cons a l ih =>
    intro t k
    rw [List.foldl_cons, ih]
    by_cases h : k ∈ l
    · simp [h]
    · by_cases e : k = a
      · subst e; simp [h, Tab.get, Tab.find_set_same]
      · simp [h, e, Tab.get, Tab.find_set_other _ _ e]

theorem Tab.mem_setAll {α : Type} (v : α) : ∀ (l : List Nat) (t : Tab α) (e : Nat × α),
    e ∈ l.foldl (fun t c => Tab.set t c v) t → e.2 = v ∨ e ∈ t := by
  intro l
  induction l with
  | nil => intro t e h; exact .inr h
  | cons a l ih =>
    intro t e h
    rcases ih _ _ h with h | h
    · exact .inl h
    · rcases Tab.mem_set h with h | h
      · subst h; exact .inl rfl
      · exact .inr h

/-- The newest of a list of copies is the one whose stamp is above all others. -/
theorem newest_of (z : Zone) : ∀ (l : List (Nat × Zone)) (y : Zone), (∀ e ∈ l, e.2 = z ∨ e.2.stamp < z.stamp) →
    (y = z ∨ (y.stamp < z.stamp ∧ ∃ e ∈ l, e.2 = z)) → l.foldl (fun y e => if y.stamp < e.2.stamp then e.2 else y) y = z := by
  intro l
  induction l with
  | nil => intro y _ h; rcases h with h | ⟨_, e, he, _⟩; exact h; exact absurd he (by simp)
  | cons a l ih =>
    intro y hl h
    rw [List.foldl_cons]
    refine ih _ (fun e he => hl e (List.mem_cons_of_mem _ he)) ?_
    rcases hl a (List.mem_cons_self ..) with ha | ha
    · left
      rcases h with h | ⟨h, _⟩
      · subst h; rw [if_neg (by rw [ha]; exact lt_irrefl _)]
      · rw [if_pos (by rw [ha]; exact h), ha]
    · rcases h with h | ⟨h, e, he, hz⟩
      · left; rw [h, if_neg (by omega)]
      · right
        refine ⟨by split <;> assumption, e, ?_, hz⟩
        rcases List.mem_cons.mp he with e' | e'
        · subst e'; rw [hz] at ha; exact absurd ha (lt_irrefl _)
        · exact e'

theorem newest_le : ∀ (l : List (Nat × Zone)) (y : Zone),
    y.stamp ≤ (l.foldl (fun y e => if y.stamp < e.2.stamp then e.2 else y) y).stamp
      ∧ ∀ e ∈ l, e.2.stamp ≤ (l.foldl (fun y e => if y.stamp < e.2.stamp then e.2 else y) y).stamp := by
  intro l
  induction l with
  | nil => intro y; exact ⟨le_refl _, by simp⟩
  | cons a l ih =>
    intro y
    rw [List.foldl_cons]
    have h := ih (if y.stamp < a.2.stamp then a.2 else y)
    refine ⟨le_trans ?_ h.1, fun e he => ?_⟩
    · split <;> omega
    · rcases List.mem_cons.mp he with e' | e'
      · subst e'; refine le_trans ?_ h.1; split <;> omega
      · exact h.2 e e'

/-- A write of the map zone changes the copies on the ONLINE zone channels (R164). -/
theorem Chip.zoneWrite_facts (c : Chip) (z : Zone) :
    (∀ k, (c.zoneWrite z).zone k = if k ∈ c.zoneOnline then { z with stamp := c.newestZone.stamp + 1 } else c.zone k)
      ∧ (∃ t, (c.zoneWrite z).lauter = { c.lauter with zones := t }) ∧ Frame [.lauter] (c.zoneWrite z) c
      ∧ (c.zoneOnline ≠ [] → (c.zoneWrite z).newestZone = { z with stamp := c.newestZone.stamp + 1 }) := by
  refine ⟨fun k => ?_, ⟨_, rfl⟩, Frame.set_lauter (by decide) _ _, fun ne => ?_⟩
  · exact Tab.get_setAll ({} : Zone) _ _ _ _
  · obtain ⟨k, l, hl⟩ := List.exists_cons_of_ne_nil ne
    refine newest_of _ _ _ (fun e he => ?_) ?_
    · rcases Tab.mem_setAll _ _ _ _ he with h | h
      · exact .inl h
      · right
        have := (newest_le c.lauter.zones ({} : Zone)).2 e h
        exact Nat.lt_succ_of_le this
    · right
      refine ⟨Nat.succ_pos _, (k, _), ?_, rfl⟩
      refine Tab.find_mem (k := k) ?_
      have g : ∀ (l : List Nat) (t : Tab Zone) (v : Zone) (k : Nat), (k ∈ l ∨ Tab.find t k = some v) →
          Tab.find (l.foldl (fun t c => Tab.set t c v) t) k = some v := by
        intro l
        induction l with
        | nil => intro t v k h; rcases h with h | h; exact absurd h (by simp); exact h
        | cons a l ih =>
          intro t v k h
          refine ih _ _ _ ?_
          by_cases e : k = a
          · subst e; exact .inr (Tab.find_set_same _ _ _)
          · rcases h with h | h
            · rcases List.mem_cons.mp h with h | h
              · exact absurd h e
              · exact .inl h
            · right; rw [Tab.find_set_other _ _ e]; exact h
      exact g _ _ _ _ (.inl (by rw [hl]; exact List.mem_cons_self ..))

/-- Entries that waited enter the journal in their order, and nothing else changes (R165). -/
theorem Chip.journalFill_facts (c : Chip) :
    c.journalFill.lauter.journal ++ c.journalFill.lauter.backlog = c.lauter.journal ++ c.lauter.backlog
      ∧ (∃ j b, c.journalFill.lauter = { c.lauter with journal := j, backlog := b }) ∧ Frame [.lauter] c.journalFill c
      ∧ (c.lauter.backlog = [] → c.journalFill = c) := by
  refine ⟨?_, ⟨_, _, rfl⟩, Frame.set_lauter (by decide) _ _, fun h => ?_⟩
  · unfold Chip.journalFill
    dsimp only
    rw [List.append_assoc, List.take_append_drop]
  · unfold Chip.journalFill
    rw [h]
    simp
    rw [← h]

end Sys2Proof.Machine
end

