-- ==== Sys2Proof/Laws/Links.lean ====
section
/-!
SUPPORT. Laws/Links.lean: what a link's own operations do to it (R363, R374 to R379, R387, R388).
-/
namespace Sys2Proof.Machine

open Sys2Proof

/-- Only link `l` differs. -/
def LinkOnly (l : Nat) (a b : Chip) : Prop := (∀ j, j ≠ l → a.link j = b.link j) ∧ Frame [.links] a b

theorem LinkOnly.refl (l : Nat) (a : Chip) : LinkOnly l a a := ⟨fun _ _ => rfl, Frame.refl _ _⟩

theorem LinkOnly.trans {l : Nat} {a b c : Chip} (h : LinkOnly l a b) (g : LinkOnly l b c) : LinkOnly l a c :=
  ⟨fun j hj => (h.1 j hj).trans (g.1 j hj), h.2.trans g.2⟩

theorem Chip.setLink_only (c : Chip) (l : Nat) (k : Link) : LinkOnly l (c.setLink l k) c :=
  ⟨fun _ hj => Chip.link_setLink_other _ _ hj, Frame.set_links (by decide) _ _⟩

/-- Two links that differ in what was sent, advertised or allowed alone. -/
def CreditOnly (a b : Link) : Prop :=
  ∃ s v r w, a = { b with sent := s, adv := v, readLimit := r, wbLimit := w }

theorem CreditOnly.refl (a : Link) : CreditOnly a a := ⟨_, _, _, _, rfl⟩

theorem CreditOnly.trans {a b c : Link} (h : CreditOnly a b) (g : CreditOnly b c) : CreditOnly a c := by
  obtain ⟨s, v, r, w, e⟩ := h
  obtain ⟨s', v', r', w', e'⟩ := g
  exact ⟨s, v, r, w, by rw [e, e']⟩

theorem Chip.sendCtl_facts (c : Chip) (l : Nat) (r : CtlRec) :
    LinkOnly l (c.sendCtl l r) c ∧ CreditOnly ((c.sendCtl l r).link l) (c.link l)
    ∧ ((c.sendCtl l r).link l).sent = (c.link l).sent ++ [.ctl r (((c.link l).e + 4095) % 4096)] := by
  unfold Chip.sendCtl
  refine ⟨Chip.setLink_only _ _ _, ?_, ?_⟩
  · rw [Chip.link_setLink]; exact ⟨_, _, _, _, rfl⟩
  · rw [Chip.link_setLink]

/-- CREDIT records go out: the link keeps all else (R379). -/
theorem Chip.sendCredits_facts (c : Chip) (l : Nat) :
    LinkOnly l (c.sendCredits l) c ∧ CreditOnly ((c.sendCredits l).link l) (c.link l) := by
  unfold Chip.sendCredits
  extract_lets k lim d e
  have hd : LinkOnly l d c ∧ CreditOnly (d.link l) (c.link l) := by
    refine ⟨Chip.setLink_only _ _ _, ?_⟩
    show CreditOnly (Chip.link (Chip.setLink _ _ _) l) _
    rw [Chip.link_setLink]; exact ⟨_, _, _, _, rfl⟩
  clear_value d
  have h1 := Chip.sendCtl_facts d l (.credit 0 ([0, 1, 2, 3].map (fun v => lim v % 65536)))
  have h2 := Chip.sendCtl_facts e l (.credit 1 ([4, 5, 6, 7].map (fun v => lim v % 65536)))
  exact ⟨h2.1.trans (h1.1.trans hd.1), h2.2.1.trans (h1.2.1.trans hd.2)⟩

theorem Chip.sendReadCredit_facts (c : Chip) (l : Nat) :
    LinkOnly l (c.sendReadCredit l) c ∧ CreditOnly ((c.sendReadCredit l).link l) (c.link l) := by
  unfold Chip.sendReadCredit
  extract_lets k rl wl d
  have hd : LinkOnly l d c ∧ CreditOnly (d.link l) (c.link l) := by
    refine ⟨Chip.setLink_only _ _ _, ?_⟩
    show CreditOnly (Chip.link (Chip.setLink _ _ _) l) _
    rw [Chip.link_setLink]; exact ⟨_, _, _, _, rfl⟩
  clear_value d
  have h1 := Chip.sendCtl_facts d l (.creditRd (rl % 65536))
  have h2 := Chip.sendCtl_facts (d.sendCtl l (.creditRd (rl % 65536))) l (.creditWb (wl % 65536))
  exact ⟨h2.1.trans (h1.1.trans hd.1), h2.2.1.trans (h1.2.1.trans hd.2)⟩

/-- The link enters INIT with its counters at zero (R363, R378). -/
theorem Chip.enterInit_facts (c : Chip) (l speed : Nat) :
    LinkOnly l (c.enterInit l speed) c ∧
    (let k := (c.enterInit l speed).link l
     k.st = (c.link l).st ∧ k.step = .init ∧ k.speed = speed ∧ k.width = (c.link l).width ∧ k.e = 0 ∧ k.nextSeq = 0 ∧ k.held = []
      ∧ k.used = [] ∧ k.limit = [] ∧ k.readUsed = 0) := by
  unfold Chip.enterInit
  extract_lets k d k'
  have hd : LinkOnly l d c := Chip.setLink_only _ _ _
  have dk : d.link l = _ := Chip.link_setLink _ _ _
  have h1 := Chip.sendCredits_facts d l
  have h2 := Chip.sendReadCredit_facts (d.sendCredits l) l
  refine ⟨h2.1.trans (h1.1.trans hd), ?_⟩
  obtain ⟨s, v, r, w, e⟩ := h2.2.trans h1.2
  have ek : k' = _ := e
  rw [ek, dk]
  exact (by and_intros <;> rfl)

/-- The link goes down with its first cause (R389). -/
theorem Chip.wantDown_facts (c : Chip) (l n : Nat) :
    LinkOnly l (c.wantDown l n) c ∧ ∃ w, (c.wantDown l n).link l = { c.link l with want := w } := by
  unfold Chip.wantDown
  dsimp only
  split
  · exact ⟨Chip.setLink_only _ _ _, _, Chip.link_setLink _ _ _⟩
  · exact ⟨LinkOnly.refl _ _, _, rfl⟩

/-- A retrain starts: CHANGING at the width and speed it had, counted and reported (R387). -/
theorem Chip.retrain_facts (c : Chip) (l : Nat) (leader : Bool)
    (h : (c.link l).st = .active ∨ ((c.link l).st = .changing ∧ ((c.link l).change.map (·.retraining)) ≠ some true)) :
    (∃ w x r, (c.retrain l leader).link l = { c.link l with
        st := .changing, step := .lock, lanes := 0, retrains := (c.link l).retrains + 1, retrainTcs := r, crcs := [], changeResult := x
        change := some { id := 0, width := (c.link l).width, speed := (c.link l).speed, planned := false, leader := leader, acked := true, retraining := true }
        sent := (c.link l).sent ++ [.ts 0x2D 4], want := w })
    ∧ (c.retrain l leader).sticky 144 = true ∧ (∀ j, j ≠ l → (c.retrain l leader).link j = c.link j)
    ∧ Frame [.links, .fault, .heads, .field] (c.retrain l leader) c := by
  unfold Chip.retrain
  extract_lets k recent planned k' d
  have hh : (k.st = .active ∨ (k.st = .changing ∧ (k.change.map (·.retraining)) ≠ some true)) := h
  rw [if_pos hh]
  have r := (Chip.raise_eq (c.setLink l k') 144 (0x10 + l) 0 (.link l) [0, 1, 2, 3]).frame
  have dl : d.links = (c.setLink l k').links := r .links (by decide)
  have dk : ∀ j, d.link j = (c.setLink l k').link j := by intro j; unfold Chip.link; rw [dl]
  have df : Frame [.links, .fault, .heads, .field] d c := (r.mono (by decide)).trans ((Chip.setLink_only c l k').2.mono (by decide))
  have ds : d.sticky 144 = true := Chip.raise_sticky _ _ _ _ _ _
  have e1 : d.link l = k' := by rw [dk]; exact Chip.link_setLink _ _ _
  have e2 : ∀ j, j ≠ l → d.link j = c.link j := fun j hj => by rw [dk]; exact Chip.link_setLink_other _ _ hj
  clear_value d
  split
  · obtain ⟨o, w, e⟩ := Chip.wantDown_facts d l 3
    refine ⟨⟨w, _, _, by rw [e, e1]⟩, ?_, fun j hj => (o.1 j hj).trans (e2 j hj), (o.2.mono (by decide)).trans df⟩
    have : (d.wantDown l 3).fault = d.fault := o.2 .fault (by decide)
    unfold Chip.sticky; rw [this]; exact ds
  · exact ⟨⟨_, _, _, by rw [e1]⟩, ds, e2, df⟩

theorem Chip.link_of_frame {c d : Chip} {l : List Part} (h : Frame l d c) (n : Part.links ∉ l) (j : Nat) : d.link j = c.link j := by
  have : d.links = c.links := h .links n
  unfold Chip.link; rw [this]

theorem Chip.countLink_facts (c : Chip) (l e n : Nat) : Frame [.cnt] (c.countLink l e n) c ∧ (c.countLink l e n).links = c.links :=
  ⟨Frame.set_cnt (by decide) _ _, rfl⟩

theorem Chip.link_countLink (c : Chip) (l e n j : Nat) : (c.countLink l e n).link j = c.link j := rfl

theorem Chip.link_charge (c : Chip) (p d k n j : Nat) : (c.charge p d k n).link j = c.link j :=
  Chip.link_of_frame (Chip.charge_cnt c p d k n) (by decide) j

/-- An error below both limits is counted and remembered (R388). -/
theorem Chip.linkError_calm (c : Chip) (l : Nat) (protocol crc : Bool)
    (h1 : ((c.link l).errs.filter (fun n => decide ((c.link l).flits < n + c.cfg Obj.linkDownWindowFlits))).length < c.cfg Obj.linkDownThreshold)
    (h2 : crc = true → ((c.link l).crcs.filter (fun n => decide ((c.link l).flits < n + c.cfg Obj.linkDownWindowFlits))).length + 1
      < c.cfg Obj.linkRetrainThreshold) :
    ∃ e r, c.linkError l protocol crc = c.setLink l { c.link l with
      crcErrors := (c.link l).crcErrors + 1
      protocolErrors := if protocol then (c.link l).protocolErrors + 1 else (c.link l).protocolErrors, errs := e, crcs := r } := by
  unfold Chip.linkError
  extract_lets k old errs crcs d e
  have hd : ∀ n, d.cfg n = c.cfg n := fun n => rfl
  have he : e = d := by
    refine if_neg ?_
    rw [hd]
    show ¬ _ < (List.filter old k.errs ++ [k.flits]).length
    rw [List.length_append, List.length_singleton]
    have : (List.filter old k.errs).length < c.cfg Obj.linkDownThreshold := h1
    omega
  refine ⟨errs, crcs, ?_⟩
  rw [he, hd, if_neg]
  simp only [Bool.and_eq_true, decide_eq_true_eq, not_and, not_le]
  intro hc
  have e1 : crcs = List.filter old k.crcs ++ [k.flits] := if_pos hc
  rw [e1, List.length_append, List.length_singleton]
  exact h2 hc

theorem Chip.linkError_facts (c : Chip) (l : Nat) (protocol crc : Bool)
    (h1 : ((c.link l).errs.filter (fun n => decide ((c.link l).flits < n + c.cfg Obj.linkDownWindowFlits))).length < c.cfg Obj.linkDownThreshold)
    (h2 : crc = true → ((c.link l).crcs.filter (fun n => decide ((c.link l).flits < n + c.cfg Obj.linkDownWindowFlits))).length + 1
      < c.cfg Obj.linkRetrainThreshold) :
    (∃ e r, (c.linkError l protocol crc).link l = { c.link l with
      crcErrors := (c.link l).crcErrors + 1
      protocolErrors := if protocol then (c.link l).protocolErrors + 1 else (c.link l).protocolErrors, errs := e, crcs := r })
    ∧ LinkOnly l (c.linkError l protocol crc) c := by
  obtain ⟨e, r, h⟩ := c.linkError_calm l protocol crc h1 h2
  rw [h]
  exact ⟨⟨e, r, Chip.link_setLink _ _ _⟩, Chip.setLink_only _ _ _⟩

theorem Chip.cfg_of_frame {c d : Chip} {l : List Part} (h : Frame l d c) (n : Part.rw ∉ l) (m : Part.rwp ∉ l) (j : Nat) : d.cfg j = c.cfg j := by
  have a : d.rw = c.rw := h .rw n
  have b : d.rwp = c.rwp := h .rwp m
  unfold Chip.cfg; rw [a, b]

/-- NAK e goes out once per e (R374). -/
theorem Chip.sendNak_facts (c : Chip) (l : Nat) :
    (∃ s, (c.sendNak l).link l = { c.link l with nakSent := true, sent := s }
      ∧ s = if (c.link l).nakSent then (c.link l).sent else (c.link l).sent ++ [.ctl (.nak (c.link l).e) (((c.link l).e + 4095) % 4096)])
    ∧ (∀ j, j ≠ l → (c.sendNak l).link j = c.link j) ∧ Frame [.links, .cnt] (c.sendNak l) c := by
  unfold Chip.sendNak
  dsimp only
  split
  · next h =>
    refine ⟨⟨(c.link l).sent, ?_, rfl⟩, fun _ _ => rfl, Frame.refl _ _⟩
    have e : c.link l = { c.link l with nakSent := (c.link l).nakSent, sent := (c.link l).sent } := rfl
    exact e.trans (by rw [h])
  · next h =>
    unfold Chip.nakNow
    dsimp only
    refine ⟨⟨_, ?_, rfl⟩, fun j hj => ?_, ?_⟩
    · rw [Chip.link_countLink]
      unfold Chip.sendCtl
      rw [Chip.link_setLink, Chip.link_setLink]
    · rw [Chip.link_countLink, (Chip.sendCtl_facts _ _ _).1.1 j hj]; exact Chip.link_setLink_other _ _ hj
    · exact ((Chip.countLink_facts _ _ _ _).1.mono (by decide)).trans (((Chip.sendCtl_facts _ _ _).1.2.mono (by decide)).trans ((Chip.setLink_only _ _ _).2.mono (by decide)))

/-- Held flits go out again, below the replay limit (R375, R376). -/
theorem Chip.replayFrom_calm (c : Chip) (l : Nat) (fs : List TxFlit) (h : (c.link l).resent + 1 < c.cfg Obj.linkReplayMax) :
    (∃ r, (c.replayFrom l fs).link l = { c.link l with replays := (c.link l).replays + 1, resent := r, sent := (c.link l).sent ++ fs.map .flit })
    ∧ (∀ j, j ≠ l → (c.replayFrom l fs).link j = c.link j) ∧ Frame [.links, .cnt] (c.replayFrom l fs) c := by
  unfold Chip.replayFrom
  extract_lets k oldest resent d e
  have hr : resent ≤ k.resent + 1 := by
    show (if oldest then k.resent + 1 else k.resent) ≤ _
    split <;> omega
  have hd : Frame [.links] d c := (Chip.setLink_only c l _).2
  have fe : Frame [.cnt] e d := (Chip.charge_cnt _ _ _ _ _).trans (Chip.countLink_facts _ _ _ _).1
  have he : Frame [.links, .cnt] e c := (fe.mono (by decide)).trans (hd.mono (by decide))
  have cf : e.cfg Obj.linkReplayMax = c.cfg Obj.linkReplayMax := by
    have a : e.rw = c.rw := he .rw (by decide)
    have b : e.rwp = c.rwp := he .rwp (by decide)
    unfold Chip.cfg; rw [a, b]
  rw [if_neg (by rw [cf]; simp; intro _; have : k.resent + 1 < c.cfg Obj.linkReplayMax := h; omega)]
  have el : ∀ j, e.link j = d.link j := fun j => Chip.link_of_frame fe (by decide) j
  refine ⟨⟨resent, ?_⟩, fun j hj => ?_, he⟩
  · rw [el]; exact Chip.link_setLink _ _ _
  · rw [el]; exact Chip.link_setLink_other _ _ hj

theorem Chip.pump_idle (c : Chip) (l : Nat) (h : (c.link l).tx = []) : c.pump l = c := by
  unfold Chip.pump; rw [h]; rfl

/-- Limits taken channel by channel: each is its own if newer (R379). -/
theorem creditFold (vcs g limits : Nat) (l : List Nat) : ∀ (t : Tab Nat) (v : Nat), l.Nodup →
    Tab.get 0 (l.foldl (fun t i =>
      let v := 4 * g + i
      let n := bitsOf limits (16 * i) 16
      if v < vcs ∧ (n + 65536 - Tab.get 0 t v) % 65536 < 32768 then Tab.put 0 t v n else t) t) (4 * g + v)
      = if v ∈ l ∧ 4 * g + v < vcs ∧ (bitsOf limits (16 * v) 16 + 65536 - Tab.get 0 t (4 * g + v)) % 65536 < 32768
        then bitsOf limits (16 * v) 16 else Tab.get 0 t (4 * g + v) := by
  induction l with
  | nil => intro t v _; simp
  | cons i l ih =>
    intro t v nd
    rw [List.foldl_cons, ih _ _ (List.nodup_cons.mp nd).2]
    have ni := (List.nodup_cons.mp nd).1
    dsimp only
    by_cases hv : v = i
    · subst hv
      rw [if_neg (fun h => ni h.1)]
      by_cases hc : 4 * g + v < vcs ∧ (bitsOf limits (16 * v) 16 + 65536 - Tab.get 0 t (4 * g + v)) % 65536 < 32768
      · rw [if_pos hc, Tab.get_put_same, if_pos ⟨by simp, hc⟩]
      · rw [if_neg hc, if_neg (fun h => hc h.2)]
    · have e : ∀ n, Tab.get 0 (Tab.put 0 t (4 * g + i) n) (4 * g + v) = Tab.get 0 t (4 * g + v) :=
        fun n => Tab.get_put_other _ _ _ (by omega)
      have m : (v ∈ i :: l) ↔ v ∈ l := by simp [hv]
      split <;> simp only [e, m]

theorem putFold (f : Nat → Nat) (l : List Nat) : ∀ (t : Tab Nat) (v : Nat),
    Tab.get 0 (l.foldl (fun a v => Tab.put 0 a v (f v)) t) v = if v ∈ l then f v else Tab.get 0 t v := by
  induction l with
  | nil => intro t v; simp
  | cons i l ih =>
    intro t v
    rw [List.foldl_cons, ih]
    by_cases hl : v ∈ l
    · rw [if_pos hl, if_pos (by simp [hl])]
    · rw [if_neg hl]
      by_cases hv : v = i
      · subst hv; rw [Tab.get_put_same, if_pos (by simp)]
      · rw [Tab.get_put_other _ _ _ hv, if_neg (by simp [hl, hv])]

/-- Both CREDIT records go out, and no limit advertised goes down (R379). -/
theorem Chip.sendCredits_sent (c : Chip) (l : Nat) : ∃ a x y, (c.sendCredits l).link l = { c.link l with
      adv := a, sent := (c.link l).sent ++ [.ctl (.credit 0 x) (((c.link l).e + 4095) % 4096), .ctl (.credit 1 y) (((c.link l).e + 4095) % 4096)] }
    ∧ ∀ v, v < 8 → v < (c.link l).vcs → Tab.get 0 (c.link l).adv v ≤ Tab.get 0 a v := by
  unfold Chip.sendCredits
  extract_lets k lim d e
  have dl : d.link l = { k with adv := (List.range 8).foldl (fun a v => Tab.put 0 a v (lim v)) k.adv } := Chip.link_setLink _ _ _
  have el : e.link l = { d.link l with sent := (d.link l).sent ++ [.ctl (.credit 0 ([0, 1, 2, 3].map (fun v => lim v % 65536))) (((d.link l).e + 4095) % 4096)] } := Chip.link_setLink _ _ _
  have fl : (e.sendCtl l (.credit 1 ([4, 5, 6, 7].map (fun v => lim v % 65536)))).link l = { e.link l with sent := (e.link l).sent ++ [.ctl (.credit 1 ([4, 5, 6, 7].map (fun v => lim v % 65536))) (((e.link l).e + 4095) % 4096)] } := Chip.link_setLink _ _ _
  refine ⟨(List.range 8).foldl (fun a v => Tab.put 0 a v (lim v)) k.adv, [0, 1, 2, 3].map (fun v => lim v % 65536),
    [4, 5, 6, 7].map (fun v => lim v % 65536), ?_, ?_⟩
  · rw [fl, el, dl]; dsimp only; rw [List.append_assoc]; rfl
  · intro v h8 hv
    rw [putFold, if_pos (List.mem_range.mpr h8)]
    show _ ≤ if v < k.vcs then max (Tab.get 0 k.adv v) _ else 0
    have hv' : v < k.vcs := hv
    rw [if_pos hv']
    exact Nat.le_max_left _ _

/-- A packet without credit waits in the queue of its link (R378). -/
theorem Chip.queuePacket_waits (c : Chip) (l : Nat) (p : Packet) (h1 : (c.link l).tx = []) (h2 : (c.link l).limit = []) (h3 : (c.link l).used = []) :
    c.queuePacket l p = c.setLink l { c.link l with tx := [p] } := by
  have n : ∀ k, Link.pick { c.link l with tx := [p] } k = none := by
    intro k
    have z : ∀ v, Tab.get 0 ([] : Tab Nat) v = 0 := fun _ => rfl
    have cov : ∀ q, Link.covered { c.link l with tx := [p] } q = false := by
      intro q
      unfold Link.covered packetSize
      rw [h2, h3]
      simp [z]
    have no : ∀ v, Link.ready { c.link l with tx := [p] } v = none := by
      intro v
      unfold Link.ready
      cases List.find? (fun p => decide (p.vc.toNat = v)) [p] with
      | none => rfl
      | some q => simp [Option.filter, cov]
    unfold Link.pick
    simp [no]
  unfold Chip.queuePacket Chip.pump
  dsimp only
  rw [h1, List.nil_append, Chip.link_setLink]
  show Chip.pumpLink _ l 1 = _
  unfold Chip.pumpLink
  dsimp only
  rw [Chip.link_setLink]
  split
  · rw [n]
  · rfl

theorem Chip.answerFences_none (c : Chip) (l : Nat) (h : (c.link l).fences = []) : Frame [.links] (c.answerFences l) c
    ∧ (c.answerFences l).link l = c.link l ∧ (∀ j, j ≠ l → (c.answerFences l).link j = c.link j) := by
  unfold Chip.answerFences
  extract_lets k ready go d
  have e : go = [] := by show List.filter ready k.fences = []; rw [show k.fences = [] from h]; rfl
  rw [e, List.foldl_nil]
  have o : LinkOnly l d c := Chip.setLink_only _ _ _
  refine ⟨o.2, ?_, o.1⟩
  have dl : d.link l = { k with fences := k.fences.filter (fun f => !ready f) } := Chip.link_setLink _ _ _
  rw [dl, show k.fences = [] from h]
  have e2 : c.link l = { c.link l with fences := (c.link l).fences } := rfl
  exact (e2.trans (by rw [h]; rfl)).symm

/-- A good packet is taken out of the receive buffer and counted: what a row of its kind starts with. -/
theorem Chip.takeRx_facts (c : Chip) (l : Nat) (p : Packet) : LinkOnly l (c.takeRx l p) c
    ∧ (c.takeRx l p).link l = { c.link l with rx := (c.link l).rx.erase p } :=
  ⟨Chip.setLink_only _ _ _, Chip.link_setLink _ _ _⟩

end Sys2Proof.Machine
end

