-- ==== Sys2Proof/Laws/Hop.lean ====
section
/-!
SUPPORT. Laws/Hop.lean: what event pulses, queue states and Hopper channels may change.
-/
namespace Sys2Proof.Machine

/-- Two event fabrics that differ in merged pulses and pins alone. -/
def PinsOnly (a b : HopUnit) : Prop := ∃ m p, a = { b with merged := m, pins := p }

theorem Chip.drivePin_facts (c : Chip) (p : Nat) : Frame [.hop] (c.drivePin p) c ∧ PinsOnly (c.drivePin p).hop c.hop := by
  unfold Chip.drivePin
  dsimp only
  constructor
  · split
    · exact (Frame.set_hop (by decide) _ _).trans (Frame.set_hop (by decide) _ _)
    · exact Frame.set_hop (by decide) _ _
  · split <;> exact ⟨_, _, rfl⟩

theorem Chip.sendEvt_frame (c : Chip) (l n : Nat) : Frame txParts (c.sendEvt l n) c := by
  unfold Chip.sendEvt
  dsimp only
  split
  · exact Chip.queuePacket_frame _ _ _
  · exact Chip.setLink_tx _ _ _

/-- A pulse on a new clock is counted for its line, and may leave on pins and links (R425, R427, R428). -/
theorem Chip.pulse_facts (c : Chip) (n : Nat)
    (h : Tab.find c.hop.lastPulse n ≠ some (c.cnt.clocks * 2 ^ 64 + c.tb.tc) ∨ c.tb.state = .unlocked) :
    Frame (.hop :: txParts) (c.pulse n) c
    ∧ ∃ m p, (c.pulse n).hop = { c.hop with lineCount := Tab.upd 0 c.hop.lineCount n (· + 1), lastPulse := Tab.set c.hop.lastPulse n (c.cnt.clocks * 2 ^ 64 + c.tb.tc), merged := m, pins := p } := by
  unfold Chip.pulse
  dsimp only
  rw [if_neg (fun x => h.elim (fun g => g x.1) (fun g => x.2 g))]
  generalize hz : ({ c with hop := { c.hop with lineCount := Tab.upd 0 c.hop.lineCount n (· + 1), lastPulse := Tab.set c.hop.lastPulse n (c.cnt.clocks * 2 ^ 64 + c.tb.tc) } } : Chip) = z
  have zf : Frame [.hop] z c := by rw [← hz]; exact Frame.set_hop (by decide) _ _
  have zh : z.hop = { c.hop with lineCount := Tab.upd 0 c.hop.lineCount n (· + 1), lastPulse := Tab.set c.hop.lastPulse n (c.cnt.clocks * 2 ^ 64 + c.tb.tc) } := by rw [← hz]
  have pins : ∀ (l : List Nat) (d : Chip), Frame [.hop] (l.foldl (fun (s : Chip) p => if bitOf (z.cfgAt Obj.hopperEventLineRoute n) p then s.drivePin p else s) d) d
      ∧ PinsOnly (l.foldl (fun (s : Chip) p => if bitOf (z.cfgAt Obj.hopperEventLineRoute n) p then s.drivePin p else s) d).hop d.hop := by
    intro l
    induction l with
    | nil => exact fun d => ⟨Frame.refl _ _, _, _, rfl⟩
    | cons a l ih =>
      intro d
      rw [List.foldl_cons]
      split
      · obtain ⟨f, m, p, e⟩ := ih (d.drivePin a)
        obtain ⟨g, m', p', e'⟩ := d.drivePin_facts a
        exact ⟨f.trans g, m, p, by rw [e, e']⟩
      · exact ih d
  obtain ⟨f, m, p, e⟩ := pins (List.range 8) z
  generalize (List.range 8).foldl (fun (s : Chip) p => if bitOf (z.cfgAt Obj.hopperEventLineRoute n) p then s.drivePin p else s) z = y at f e ⊢
  have tx := Frame.foldl (l := txParts) (List.range 8) (fun (s : Chip) l => if bitOf (z.cfgAt Obj.hopperEventLineRoute n) (8 + l) then s.sendEvt l n else s)
    (fun d l => Frame.ite _ (Chip.sendEvt_frame _ _ _) (Frame.refl _ _)) y
  refine ⟨(tx.mono (by decide)).trans ((f.mono (by decide)).trans (zf.mono (by decide))), m, p, ?_⟩
  rw [tx .hop (by decide), e, zh]

theorem Chip.answerFences_frame (c : Chip) (l : Nat) : Frame txParts (c.answerFences l) c := by
  unfold Chip.answerFences
  dsimp only
  exact (Frame.foldl _ _ (fun d f => Chip.queuePacket_frame _ _ _) _).trans (Chip.setLink_tx _ _ _)

@[simp] theorem Chip.queue_setQueue (c : Chip) (q : Nat) (x : QState) : (c.setQueue q x).queue q = some x := by
  unfold Chip.queue Chip.setQueue; exact Tab.find_set_same _ _ _

theorem Chip.queue_setQueue_other (c : Chip) {q k : Nat} (x : QState) (h : k ≠ q) : (c.setQueue q x).queue k = c.queue k := by
  unfold Chip.queue Chip.setQueue; exact Tab.find_set_other _ _ h

theorem Chip.slotOf_of_frame {c d : Chip} {l : List Part} (h : Frame l d c) (n : Part.rw ∉ l) (p : Nat) : d.slotOf p = c.slotOf p := by
  have a : d.rw = c.rw := h .rw n
  unfold Chip.slotOf; rw [a]

/-- The line folds that have not started, in order of arrival (R440). -/
def FoldUnit.line (u : FoldUnit) : List FoldReq := u.queue ++ u.waiting

theorem Chip.foldRefill_facts (c : Chip) : Frame [.fold] c.foldRefill c ∧ c.foldRefill.fold.line = c.fold.line
    ∧ ∃ q w, c.foldRefill.fold = { c.fold with queue := q, waiting := w } := by
  unfold Chip.foldRefill FoldUnit.line
  refine ⟨Frame.set_fold (by decide) _ _, ?_, _, _, rfl⟩
  show c.fold.queue ++ _ ++ _ = _
  rw [List.append_assoc, List.take_append_drop]

/-- A line fold that arrives goes behind those that have not started (R432, R440). -/
theorem Chip.queueFold_facts (c : Chip) (m : Nat) (b : Binding) (dla op : Nat) (mask : BitVec 64) (data : Line) (poison : Bool) (ret : Ret) (vc : Nat) :
    Frame [.fold] (c.queueFold m b dla op mask data poison ret vc) c
    ∧ (c.queueFold m b dla op mask data poison ret vc).fold.line
        = c.fold.line ++ [⟨c.fold.nextId, m, b, dla, op, mask, data, poison, ret, c.tb.tc, vc⟩]
    ∧ (c.queueFold m b dla op mask data poison ret vc).fold.nextId = c.fold.nextId + 1
    ∧ ∃ q w, (c.queueFold m b dla op mask data poison ret vc).fold = { c.fold with queue := q, waiting := w, nextId := c.fold.nextId + 1 } := by
  unfold Chip.queueFold
  obtain ⟨f, g, q, w, e⟩ := Chip.foldRefill_facts ({ c with fold := { c.fold with waiting := c.fold.waiting ++ [⟨c.fold.nextId, m, b, dla, op, mask, data, poison, ret, c.tb.tc, vc⟩], nextId := c.fold.nextId + 1 } } : Chip)
  refine ⟨f.trans (Frame.set_fold (by decide) _ _), ?_, ?_, q, w, ?_⟩
  · rw [g]; unfold FoldUnit.line; exact (List.append_assoc _ _ _).symm
  · rw [e]
  · rw [e]

/-- A cached queue's state is used (R403). -/
theorem Chip.bringIn_cached (c : Chip) (q : Nat) (first : Bool) (x : QState) (h : c.queue q = some x) (hc : x.cached = true) :
    ∃ d, c.bringIn q first = (true, d) ∧ Frame [.hop] d c ∧ d.hop = { c.hop with queues := Tab.set c.hop.queues q { x with lru := c.hop.clock }, clock := c.hop.clock + 1 } := by
  refine ⟨c.touchQueue q, ?_, ?_, ?_⟩
  · unfold Chip.bringIn; rw [h]; dsimp only; rw [if_pos hc]
  · unfold Chip.touchQueue; rw [h]
    have f : Frame [.hop] (c.setQueue q { x with lru := c.hop.clock }) c := Frame.set_hop (by decide) _ _
    exact (Frame.set_hop (l := [.hop]) (by decide) _ _).trans f
  · unfold Chip.touchQueue; rw [h]; rfl

theorem Chip.answerFences_calm (c : Chip) (l : Nat) (h : (c.link l).fences = []) : LinkOnly l (c.answerFences l) c ∧ (c.answerFences l).link l = c.link l :=
  ⟨⟨(c.answerFences_none l h).2.2, (c.answerFences_none l h).1⟩, (c.answerFences_none l h).2.1⟩

/-- The changed item is found where the old one was. -/
theorem modFirst_find_same {α : Type} (l : List α) (p : α → Bool) (f : α → α) (w : α) (h : l.find? p = some w) (hf : p (f w) = true) :
    (modFirst p f l).find? p = some (f w) := by
  induction l with
  | nil => simp at h
  | cons a r ih =>
    unfold modFirst
    by_cases g : p a = true
    · rw [List.find?_cons_of_pos g] at h
      injection h with h
      rw [if_pos g, h, List.find?_cons_of_pos hf]
    · rw [List.find?_cons_of_neg g] at h
      rw [if_neg g, List.find?_cons_of_neg g]
      exact ih h

theorem natLE_bytesLE (n : Nat) : ∀ v, natLE (bytesLE n v) = v % 256 ^ n := by
  induction n with
  | zero => intro v; simp [bytesLE, natLE, Nat.mod_one]
  | succ n ih =>
    intro v
    rw [bytesLE, natLE, ih, Nat.pow_succ, Nat.mul_comm (256 ^ n) 256, Nat.mod_mul]
    simp

/-- 64 bytes at a line's address are the whole line. -/
theorem lineParts_line (a : Nat) (d : List Byte) (al : a % 64 = 0) (h : d.length = 64) : lineParts a d = [⟨a, fullMask, BitVec.ofNat 512 (natLE d)⟩] := by
  unfold lineParts
  rw [if_neg (by omega), h]
  have e : (a + 64 - 1) / 64 - a / 64 + 1 = 1 := by omega
  have b : a / 64 * 64 + 64 * 0 = a := by omega
  rw [e]
  simp only [List.range_one, List.map_cons, List.map_nil, b]
  unfold linePart
  have m1 : max a a = a := Nat.max_self a
  have m2 : min (a + 64) (a + d.length) = a + 64 := by rw [h]; exact Nat.min_self _
  simp only [m1, m2, Nat.sub_self, List.drop_zero, Nat.add_sub_cancel_left, Nat.mul_zero, Nat.pow_zero, Nat.mul_one]
  rw [List.take_of_length_le (by omega)]
  rfl

theorem ofNat_entry (v : Nat) : BitVec.ofNat 512 (natLE (bytesLE 64 v)) = BitVec.ofNat 512 v := by
  rw [natLE_bytesLE]
  apply BitVec.eq_of_toNat_eq
  rw [BitVec.toNat_ofNat, BitVec.toNat_ofNat, show (256 : Nat) ^ 64 = (2 ^ 8) ^ 64 from rfl, ← Nat.pow_mul, Nat.mod_mod]

/-- The device's own write of a line that a cache way holds: the line, and no other byte. -/
theorem Chip.logWrite_cached (s : Chip) (a : Nat) (d : List Byte) (al : a % 64 = 0) (h : d.length = 64)
    (w : CachedWrite s ⟨0x60, .byDir, .write, a, fullMask, BitVec.ofNat 512 (natLE d), false, true, 0, .none⟩) :
    (s.logWrite a d).line a = BitVec.ofNat 512 (natLE d) ∧ (s.logWrite a d).poisoned a = false
      ∧ (∀ y : Nat, y < a ∨ a + 64 ≤ y → Tab.get 0 (s.logWrite a d).mem y = Tab.get 0 s.mem y) ∧ Frame storeParts (s.logWrite a d) s := by
  obtain ⟨c, hc, e⟩ := s.writeCore_cached _ w
  have z := s.cachedWrite_facts c _ (by show lineBase a = a; unfold lineBase; omega) w.2.2.2.2.2.2.2.2.2.2.2.1 hc (mergeLine (s.line a) (BitVec.ofNat 512 (natLE d)) fullMask) 0x60 (c.policyOf a) _ rfl
  have k : s.logWrite a d = (c.putLine a (mergeLine (s.line a) (BitVec.ofNat 512 (natLE d)) fullMask) false).applyPolicy (lineNo a) 0x60 (c.policyOf a) := by
    unfold Chip.logWrite
    rw [lineParts_line a d al h]
    show (s.writeCore ⟨0x60, .byDir, .write, a, fullMask, BitVec.ofNat 512 (natLE d), false, true, 0, .none⟩ {} true).2 = _
    rw [e]
    unfold Chip.finishWrite
    dsimp only
    rw [if_neg (by simp)]
    rfl
  rw [k]
  obtain ⟨z1, z2, z3, z4, z5⟩ := z
  exact ⟨z1.trans (mergeLine_full _ _), z2, z3, z4⟩

end Sys2Proof.Machine
end

