-- ==== Sys2Proof/Laws/Power.lean ====
section
/-!
SUPPORT. Laws/Power.lean: what the power entry controller's own operations change (R502, R514).
-/
namespace Sys2Proof.Machine

/-- The mode that a power state leaves (R527): INSERTING begins with RAMP and ends where the ramp is given up. -/
theorem Chip.setPwr_facts (c : Chip) (p : PwrState) : (c.setPwr p).power = { c.power with st := p } ∧ Frame [.power, .mode] (c.setPwr p) c
    ∧ (c.setPwr p).mode = { c.mode with current :=
        if c.mode.current = .inserting ∧ p.gate = false then .unseated
        else if c.mode.current = .unseated ∧ p = .ramp then .inserting else c.mode.current } := by
  unfold Chip.setPwr Chip.setMode
  dsimp only
  have f : Frame [.power, .mode] ({ c with power := { c.power with st := p } } : Chip) c := Frame.set_power (by decide) _ _
  generalize hm : c.mode.current = m
  cases m <;> dsimp only
  case inserting =>
    split
    · next g => exact ⟨rfl, f, by rw [if_neg (by simp [g]), if_neg (by simp), ← hm]⟩
    · next g => exact ⟨rfl, (Frame.set_mode (by decide) _ _).trans f, by rw [if_pos ⟨rfl, by simpa using g⟩]⟩
  case unseated =>
    split
    · next g => exact ⟨rfl, (Frame.set_mode (by decide) _ _).trans f, by rw [if_neg (by simp), if_pos ⟨rfl, g⟩]⟩
    · next g => exact ⟨rfl, f, by rw [if_neg (by simp), if_neg (fun z => g z.2), ← hm]⟩
  all_goals exact ⟨rfl, f, by rw [if_neg (fun z => by cases z.1), if_neg (fun z => by cases z.1), ← hm]⟩

/-- `raise` keeps the controller. -/
theorem Chip.raise_power (c : Chip) (n m d : Nat) (b : Block) (hs : List Nat) : (c.raise n m d b hs).power = c.power ∧ (c.raise n m d b hs).mode = c.mode :=
  ⟨(Chip.raise_eq c n m d b hs).frame .power (by decide), (Chip.raise_eq c n m d b hs).frame .mode (by decide)⟩

theorem Chip.sreg_congr {c d : Chip} (h : d.power.regs = c.power.regs) (k : Nat) : d.sreg k = c.sreg k := by
  unfold Chip.sreg; rw [h]

/-- A raise that may happen. -/
theorem Chip.raise_if (c : Chip) (p : Prop) [Decidable p] (n : Nat) : Frame [.fault, .heads, .field] (if p then c.raise n else c) c
    ∧ (if p then c.raise n else c).power = c.power ∧ (p → (if p then c.raise n else c).sticky n = true)
    ∧ (∀ k, c.sticky k = true → (if p then c.raise n else c).sticky k = true) := by
  split
  · next h =>
    refine ⟨(Chip.raise_eq _ _ _ _ _ _).frame, (c.raise_power n _ _ _ _).1, fun _ => Chip.raise_sticky _ _ _ _ _ _, fun k hk => ?_⟩
    by_cases e : k = n
    · subst e; exact Chip.raise_sticky _ _ _ _ _ _
    · rw [Chip.raise_sticky_other _ _ _ _ _ e]; exact hk
  · next h => exact ⟨Frame.refl _ _, rfl, fun g => absurd g h, fun _ hk => hk⟩

/-- What a trip does (R514). -/
theorem Chip.trip_facts (b : Chip) (code : Nat) : Trips (b.trip code) b code := by
  unfold Trips Chip.trip
  extract_lets causes c retry spent out causes' rec' src x y z w
  have cc : causes' = if spent then setBit causes 10 true else causes := rfl
  obtain ⟨p1, p2, p3⟩ := Chip.setPwr_facts x (if spent || decide (c = 6) then .latched else .tripped)
  have hy : y = x.setPwr (if spent || decide (c = 6) then .latched else .tripped) := rfl
  have xf : Frame [.power] x b := Frame.set_power (by decide) _ _
  have zf : Frame [.fault, .heads, .field] z y := (Chip.raise_eq _ _ _ _ _ _).frame
  have zp : z.power = y.power := (y.raise_power 179 _ _ _ _).1
  have zs : z.sticky 179 = true := Chip.raise_sticky _ _ _ _ _ _
  have hw := Chip.raise_if z (c = 6) 181
  have ww : w = if c = 6 then z.raise 181 else z := rfl
  rw [← ww] at hw
  obtain ⟨w1, w2, w3, w4⟩ := hw
  have hv := Chip.raise_if w (spent = true) 180
  obtain ⟨v1, v2, v3, v4⟩ := hv
  refine ⟨?_, v4 _ (w4 _ zs), fun h => v4 _ (w3 h), v3, (v1.mono (by decide)).trans ((w1.mono (by decide)).trans ((zf.mono (by decide)).trans ?_))⟩
  · rw [v2, w2, zp, hy, p1]
  · rw [hy]; exact (p2.mono (by decide)).trans (xf.mono (by decide))

end Sys2Proof.Machine
end

