-- ==== Sys2Proof/Laws/Modes.lean ====
section
/-!
SUPPORT. Laws/Modes.lean: what entering DRAIN, SAFE and SERVICE changes (R30, R530, R531).
-/
namespace Sys2Proof.Machine

/-- What pulses and cancelled windows may change. -/
abbrev leaveParts : List Part := [.win, .hop, .links, .husk, .cnt, .dram, .kiln, .fault, .heads, .field]

theorem Chip.pulse_frame (c : Chip) (n : Nat) : Frame (.hop :: txParts) (c.pulse n) c := by
  by_cases h : Tab.find c.hop.lastPulse n ≠ some (c.cnt.clocks * 2 ^ 64 + c.tb.tc) ∨ c.tb.state = .unlocked
  · exact (c.pulse_facts n h).1
  · have e : c.pulse n = c := by
      unfold Chip.pulse
      dsimp only
      rw [if_pos ⟨by_contra (fun g => h (Or.inl g)), fun g => h (Or.inr g)⟩]
    rw [e]; exact Frame.refl _ _

theorem Chip.pulse_win (c : Chip) (n : Nat) : (c.pulse n).win = c.win := c.pulse_frame n .win (by decide)

/-- The end of a BURST window leaves the pending windows and their fences (R37). -/
theorem Chip.leaveBurst_facts (c : Chip) (stay : Bool) : Frame [.win, .dram, .kiln] (c.leaveBurst stay) c
    ∧ (c.leaveBurst stay).win = { c.win with forced := c.win.forced ||| c.win.overrun, overrun := 0 } := by
  unfold Chip.leaveBurst
  extract_lets w d e
  have fd : Frame [.win] d c := Frame.set_win (by decide) c _
  have wd : d.win = { c.win with forced := c.win.forced ||| c.win.overrun, overrun := 0 } := rfl
  clear_value d
  have fe : Frame [.dram] e d := Frame.ite _ (Frame.refl _ _) (Frame.set_dram (by decide) d _)
  clear_value e
  have fg : Frame [.kiln] (if (stay || e.win.prologueOn) = true then e else e.resumePrograms) e :=
    Frame.ite _ (Frame.refl _ _) (Frame.set_kiln (by decide) e _)
  exact ⟨(fg.mono (by decide)).trans ((fe.mono (by decide)).trans (fd.mono (by decide))),
    (fg .win (by decide)).trans ((fe .win (by decide)).trans wd)⟩

/-- A window that goes before its end leaves the queue, and its fence with it (R16, R37). -/
theorem Chip.unfence_facts (c : Chip) (w : Window) : Frame [.win, .dram, .kiln] (c.unfence w) c
    ∧ (c.unfence w).win.pending = c.win.pending.filter (fun v => decide (v.tag ≠ w.tag)) := by
  unfold Chip.unfence
  dsimp only
  have d : Frame [.win] (c.dropWindow w.tag).refreshFence c := (Frame.set_win (by decide) _ _).trans (Frame.set_win (by decide) _ _)
  split
  · obtain ⟨f, e⟩ := (c.dropWindow w.tag).refreshFence.leaveBurst_facts ((c.dropWindow w.tag).refreshFence.followed w)
    exact ⟨f.trans (d.mono (by decide)), by rw [e]; rfl⟩
  · exact ⟨d.mono (by decide), rfl⟩


/-- A window that ends is not pending (R20). -/
theorem Chip.endWindow_facts (c : Chip) (w : Window) (stay : Bool) : Frame leaveParts (c.endWindow w stay) c
    ∧ (c.endWindow w stay).win.pending = c.win.pending.filter (fun x => decide (x.tag ≠ w.tag))
    ∧ (c.endWindow w stay).win.fenceOn = c.win.fenceOn ∧ (c.endWindow w stay).win.prologueOn = c.win.prologueOn := by
  unfold Chip.endWindow
  dsimp only
  generalize hd : c.dropWindow w.tag = d
  have fd : Frame [.win] d c := by rw [← hd]; exact Frame.set_win (by decide) c _
  have wd : d.win = { c.win with pending := c.win.pending.filter (fun x => decide (x.tag ≠ w.tag)) } := by rw [← hd]; rfl
  generalize he : (if w.cls = .burst then d.leaveBurst stay else d) = e
  have fe : Frame [.win, .dram, .kiln] e d ∧ e.win.pending = d.win.pending ∧ e.win.fenceOn = d.win.fenceOn ∧ e.win.prologueOn = d.win.prologueOn := by
    rw [← he]
    split
    · obtain ⟨a, b⟩ := d.leaveBurst_facts stay
      exact ⟨a, by rw [b], by rw [b], by rw [b]⟩
    · exact ⟨Frame.refl _ _, rfl, rfl, rfl⟩
  have fp : Frame leaveParts (if w.evtEnd then e.pulse w.line else e) e ∧ (if w.evtEnd then e.pulse w.line else e).win = e.win := by
    split
    · exact ⟨(e.pulse_frame _).mono (by decide), e.pulse_win _⟩
    · exact ⟨Frame.refl _ _, rfl⟩
  refine ⟨fp.1.trans ((fe.1.mono (by decide)).trans (fd.mono (by decide))), ?_, ?_, ?_⟩
  · rw [fp.2, fe.2.1, wd]
  · rw [fp.2, fe.2.2.1, wd]
  · rw [fp.2, fe.2.2.2, wd]

/-- Cancelled windows are gone (R30). -/
theorem Chip.cancelAll_facts (c : Chip) : Frame leaveParts c.cancelAll c
    ∧ c.cancelAll.win.pending = [] ∧ c.cancelAll.win.fenceOn = false ∧ c.cancelAll.win.prologueOn = false := by
  unfold Chip.cancelAll
  dsimp only
  have go : ∀ (l : List Window) (d : Chip), d.win.pending = [] ∧ d.win.fenceOn = false ∧ d.win.prologueOn = false →
      let e := l.foldl (fun (s : Chip) w =>
        if w.active then s.endWindow w else if w.cls = .burst ∧ (w.fenced ∨ w.prologued) then s.leaveBurst false else s) d
      Frame leaveParts e d ∧ e.win.pending = [] ∧ e.win.fenceOn = false ∧ e.win.prologueOn = false := by
    intro l
    induction l with
    | nil => exact fun d h => ⟨Frame.refl _ _, h⟩
    | cons w l ih =>
      intro d h
      dsimp only
      rw [List.foldl_cons]
      have one : Frame leaveParts (if w.active then d.endWindow w else if w.cls = .burst ∧ (w.fenced ∨ w.prologued) then d.leaveBurst false else d) d
          ∧ (if w.active then d.endWindow w else if w.cls = .burst ∧ (w.fenced ∨ w.prologued) then d.leaveBurst false else d).win.pending = []
          ∧ (if w.active then d.endWindow w else if w.cls = .burst ∧ (w.fenced ∨ w.prologued) then d.leaveBurst false else d).win.fenceOn = false
          ∧ (if w.active then d.endWindow w else if w.cls = .burst ∧ (w.fenced ∨ w.prologued) then d.leaveBurst false else d).win.prologueOn = false := by
        split
        · obtain ⟨a, b, e, g⟩ := d.endWindow_facts w false
          exact ⟨a, by rw [b, h.1]; rfl, by rw [e, h.2.1], by rw [g, h.2.2]⟩
        · split
          · obtain ⟨a, b⟩ := d.leaveBurst_facts false
            exact ⟨a.mono (by decide), by rw [b]; exact h.1, by rw [b]; exact h.2.1, by rw [b]; exact h.2.2⟩
          · exact ⟨Frame.refl _ _, h⟩
      obtain ⟨f, e⟩ := ih _ one.2
      exact ⟨f.trans one.1, e⟩
  obtain ⟨f, e⟩ := go c.win.pending { c with win := { c.win with pending := [], fenceOn := false, prologueOn := false } } ⟨rfl, rfl, rfl⟩
  exact ⟨f.trans (Frame.set_win (by decide) _ _), e⟩

theorem Chip.leaveWindows_facts (c : Chip) : Frame leaveParts c.leaveWindows c
    ∧ (c.mode.current = .service ∨ c.mode.current = .diagnosis → c.leaveWindows.win.pending = []) := by
  unfold Chip.leaveWindows Chip.leaveService
  dsimp only
  split
  · next h =>
    obtain ⟨f, e⟩ := c.cancelAll_facts
    have g := Chip.raise_if c.cancelAll (c.win.pending.any (fun w => decide (w.cls = .burst)) = true) 4
    refine ⟨(g.1.mono (by decide)).trans f, fun _ => ?_⟩
    rw [g.1 .win (by decide), e.1]
  · next h => exact ⟨Frame.refl _ _, fun g => absurd g h⟩

theorem Chip.chanStopCmd_frame (c : Chip) (ch : Nat) : Frame [.hop] (c.chanStopCmd ch).2 c := by
  unfold Chip.chanStopCmd Chip.chanOff
  dsimp only
  split
  · dsimp only
    split
    · exact Frame.set_hop (by decide) _ _
    · exact Frame.set_hop (by decide) _ _
  · exact Frame.refl _ _

theorem Chip.stopHopper_frame (c : Chip) : Frame [.hop] c.stopHopper c :=
  Frame.foldl _ _ (fun d ch => d.chanStopCmd_frame ch) _

theorem Chip.pauseSlots_facts (c : Chip) : Frame [.lauter] c.pauseSlots c ∧ ∀ e ∈ c.pauseSlots.lauter.slots, e.2.paused = true := by
  refine ⟨Frame.set_lauter (by decide) _ _, fun e he => ?_⟩
  obtain ⟨x, _, rfl⟩ := List.mem_map.mp he
  rfl

/-- What entering DRAIN does (R530). -/
theorem Chip.enterDrain_facts (c : Chip) : Frame (.lauter :: .mode :: leaveParts) c.enterDrain c
    ∧ (∃ r, c.enterDrain.mode = { c.mode with previous := c.mode.current, current := .drain, drainState := 1, drainStopped := r })
    ∧ (c.mode.current = .service ∨ c.mode.current = .diagnosis → c.enterDrain.win.pending = [])
    ∧ ∀ e ∈ c.enterDrain.lauter.slots, e.2.paused = true := by
  obtain ⟨f, w⟩ := c.leaveWindows_facts
  have g := c.leaveWindows.stopHopper_frame
  obtain ⟨p, q⟩ := c.leaveWindows.stopHopper.pauseSlots_facts
  have m : c.leaveWindows.stopHopper.pauseSlots.mode = c.mode := (p .mode (by decide)).trans ((g .mode (by decide)).trans (f .mode (by decide)))
  unfold Chip.enterDrain
  dsimp only
  refine ⟨(Frame.set_mode (by decide) _ _).trans ((p.mono (by decide)).trans ((g.mono (by decide)).trans (f.mono (by decide)))), ⟨c.leaveWindows.runningChans, ?_⟩, fun h => ?_, q⟩
  · rw [m]
  · rw [show c.leaveWindows.stopHopper.pauseSlots.win = _ from p .win (by decide), show c.leaveWindows.stopHopper.win = _ from g .win (by decide)]
    exact w h

/-- A fold of steps that touch one entry each: every entry is what its own step makes of it. -/
theorem foldl_at {γ : Type} {P : List Part} (proj : Chip → Nat → γ) (g : Chip → Nat → Chip) (hf : ∀ c n, Frame P (g c n) c)
    (ho : ∀ c n j, j ≠ n → proj (g c n) j = proj c j) : ∀ (ls : List Nat) (c : Chip), ls.Nodup →
    Frame P (ls.foldl g c) c ∧ (∀ j, j ∉ ls → proj (ls.foldl g c) j = proj c j)
      ∧ ∀ j, j ∈ ls → ∃ d : Chip, Frame P d c ∧ proj d j = proj c j ∧ proj (ls.foldl g c) j = proj (g d j) j := by
  intro ls
  induction ls with
  | nil => exact fun c _ => ⟨Frame.refl _ _, fun _ _ => rfl, fun j h => absurd h (by simp)⟩
  | cons n ls ih =>
    intro c nd
    obtain ⟨h1, h2⟩ := List.nodup_cons.mp nd
    obtain ⟨a, b, e⟩ := ih (g c n) h2
    rw [List.foldl_cons]
    refine ⟨a.trans (hf c n), fun j hj => ?_, fun j hj => ?_⟩
    · rw [b j (fun z => hj (List.mem_cons_of_mem _ z)), ho c n j (fun z => hj (z ▸ List.mem_cons_self ..))]
    · by_cases z : j = n
      · subst z
        exact ⟨c, Frame.refl _ _, rfl, b j h1⟩
      · have hj' : j ∈ ls := (List.mem_cons.mp hj).resolve_left z
        obtain ⟨d, d1, d2, d3⟩ := e j hj'
        exact ⟨d, d1.trans (hf c n), d2.trans (ho c n j z), d3⟩

/-- Training of a channel touches its own record (R266). -/
theorem Chip.trainDdr_facts (c : Chip) (f : DdrFound) : Frame [.dram, .lauter] (c.trainDdr f) c ∧ (∀ j, j ≠ f.ch.val → (c.trainDdr f).ddr j = c.ddr j)
    ∧ ((c.trainDdr f).ddr f.ch).dimms = f.dimms ∧ ((c.trainDdr f).ddr f.ch).train = (if f.dimms = 0 then 3
        else if f.allowed && (decide (c.fsp0Mts f.ch f.dimms = 0) || f.fsp0) && (decide (c.cfgAt Obj.ddrChanFsp1Mts f.ch = 0) || f.fsp1) then 1 else 2) := by
  unfold Chip.trainDdr
  dsimp only
  split
  · next h =>
    refine ⟨(Frame.set_lauter (by decide) _ _).trans (Frame.set_dram (by decide) _ _), fun j hj => Chip.ddr_setDdr_other _ _ hj, ?_, ?_⟩
    · show (Chip.ddr (Chip.setDdr _ _ _) _).dimms = _
      rw [Chip.ddr_setDdr, h]; rfl
    · show (Chip.ddr (Chip.setDdr _ _ _) _).train = _
      rw [Chip.ddr_setDdr]
  · next h =>
    refine ⟨(Frame.set_lauter (by decide) _ _).trans (Frame.set_dram (by decide) _ _), fun j hj => Chip.ddr_setDdr_other _ _ hj, ?_, ?_⟩
    · show (Chip.ddr (Chip.setDdr _ _ _) _).dimms = _
      rw [Chip.ddr_setDdr]
    · show (Chip.ddr (Chip.setDdr _ _ _) _).train = _
      rw [Chip.ddr_setDdr]
      simp [Bool.and_assoc]

theorem Chip.untrained_facts (c : Chip) (n : Nat) (h : n < 8) : Frame [.dram, .lauter] (c.untrained n) c ∧ (∀ j, j ≠ n → (c.untrained n).ddr j = c.ddr j)
    ∧ ((c.untrained n).ddr n).train = 0 := by
  unfold Chip.untrained
  rw [if_pos h]
  refine ⟨(Frame.set_lauter (by decide) _ _).trans (Frame.set_dram (by decide) _ _), fun j hj => Chip.ddr_setDdr_other _ _ hj, ?_⟩
  show (Chip.ddr (Chip.setDdr _ _ _) _).train = _
  rw [Chip.ddr_setDdr]

theorem Chip.untrained_nvm (c : Chip) (n : Nat) : Frame [.kiln, .lauter] (c.untrained (8 + n)) c := by
  unfold Chip.untrained
  rw [if_neg (by omega)]
  exact (Frame.set_lauter (by decide) _ _).trans (Frame.set_kiln (by decide) _ _)

/-- What finding the media may change (R296). -/
abbrev rootParts : List Part := [.kiln, .lauter, .sb, .fault, .heads, .field, .free]

theorem Chip.settleMediaSet_frame (c : Chip) (fs : List NvmFound) : Frame rootParts (c.settleMediaSet fs) c := by
  unfold Chip.settleMediaSet
  dsimp only
  split
  · exact Frame.refl _ _
  · exact (c.sbAppend_frame _ _ _).mono (by decide)
  · split
    · exact ((Chip.sbAppend_frame _ _ _ _).mono (by decide)).trans (Frame.set_free (by decide) _ _)
    · exact Frame.refl _ _

theorem Chip.freshRoot_frame (c : Chip) (ch i g : Nat) : Frame rootParts (c.freshRoot ch i g).2 c := by
  unfold Chip.freshRoot Chip.takeNat
  dsimp only
  first | exact Frame.set_free (by decide) c _ | exact Frame.refl _ _

theorem Chip.classifyChan_frame (c : Chip) (f : NvmFound) : Frame rootParts (c.classifyChan f) c := by
  unfold Chip.classifyChan
  dsimp only
  have ho : Frame rootParts (c.rootsOf f.ch f.pkgs).2 c := by
    unfold Chip.rootsOf
    have g : ∀ (l : List PkgFound) (x : List RootRec × Chip), Frame rootParts (l.foldl (fun (acc : List RootRec × Chip) k =>
        (acc.1 ++ [(acc.2.rootOf f.ch acc.1.length k).1], (acc.2.rootOf f.ch acc.1.length k).2)) x).2 x.2 := by
      intro l
      induction l with
      | nil => intro x; exact Frame.refl _ _
      | cons k l ih =>
        intro x
        refine (ih _).trans ?_
        dsimp only
        unfold Chip.rootOf
        split
        · exact Frame.refl _ _
        · exact Chip.freshRoot_frame _ _ _ _
    exact g _ ([], c)
  generalize c.rootsOf f.ch f.pkgs = x at ho
  obtain ⟨roots, d0⟩ := x
  dsimp only at ho ⊢
  refine (Frame.foldl _ _ (fun d e => ?_) _).trans ?_
  · unfold Chip.witnessPass
    dsimp only
    exact Frame.ite _ (Frame.refl _ _) (Frame.set_kiln (by decide) d _)
  · generalize hd : d0.setNvm f.ch _ = d
    have fd : Frame rootParts d d0 := by rw [← hd]; exact Frame.set_kiln (by decide) d0 _
    refine Frame.trans ?_ (fd.trans ho)
    refine Frame.ite _ ((Frame.set_lauter (by decide) _ _).trans ?_) ?_
    · exact ((Chip.raise_if _ _ 103).1.mono (by decide)).trans ((Chip.raise_if d _ 102).1.mono (by decide))
    · exact ((Chip.raise_if _ _ 103).1.mono (by decide)).trans ((Chip.raise_if d _ 102).1.mono (by decide))

theorem Chip.classifyRoots_frame (c : Chip) (fs : List NvmFound) (up : Bool) : Frame rootParts (c.classifyRoots fs up) c := by
  unfold Chip.classifyRoots
  extract_lets d e dirty src g
  have he : Frame rootParts e c := (Frame.foldl _ _ (fun x f => x.classifyChan_frame f) _).trans (c.settleMediaSet_frame fs)
  have hg : Frame rootParts g e := Frame.set_kiln (by decide) _ _
  split
  · exact he
  · exact ((Chip.raise_if g _ 108).1.mono (by decide)).trans (hg.trans he)

/-- What training finds of DDR5 channels (R267, R527); `miss` is what becomes of one that nothing was found of. -/
theorem Chip.trainChannels_facts (c : Chip) (ddr : List DdrFound) (nvm : List NvmFound) (miss : Chip → Nat → Chip)
    (hm : ∀ d n, Frame [.dram, .lauter] (miss d n) d ∧ ∀ j, j ≠ n → (miss d n).ddr j = d.ddr j) :
    Frame (.dram :: .integ :: rootParts) (c.trainChannels ddr nvm miss) c ∧ ∀ n, n < 8 →
      (c.domain (chanDomain n) ≠ .on → ((c.trainChannels ddr nvm miss).ddr n).train = 0)
      ∧ (c.domain (chanDomain n) = .on → ∀ f, ddr.find? (fun f => decide (f.ch.val = n)) = some f →
          ((c.trainChannels ddr nvm miss).ddr n).dimms = f.dimms ∧ ((c.trainChannels ddr nvm miss).ddr n).train = (if f.dimms = 0 then 3
            else if f.allowed && (decide (c.fsp0Mts n f.dimms = 0) || f.fsp0) && (decide (c.cfgAt Obj.ddrChanFsp1Mts n = 0) || f.fsp1) then 1 else 2))
      ∧ (c.domain (chanDomain n) = .on → ddr.find? (fun f => decide (f.ch.val = n)) = none →
          ∃ d : Chip, (c.trainChannels ddr nvm miss).ddr n = (miss d n).ddr n) := by
  unfold Chip.trainChannels
  extract_lets on c0 d e
  have h0 : Frame [.integ, .fault, .heads, .field] c0 c := by
    show Frame _ c.repairHbmRows c
    unfold Chip.repairHbmRows
    dsimp only
    have i : Frame [.integ, .fault, .heads, .field] ({ c with integ := { c.integ with
        hbmSeen := c.integ.producer, hbmSpent := min (c.integ.hbmSpent + c.hbmRows) Config.hbmSpareRows } } : Chip) c := Frame.set_integ (by decide) c _
    exact Frame.ite _ (((Chip.raise_eq _ _ _ _ _ _).frame.mono (by decide)).trans i) i
  obtain ⟨a1, a2, a3⟩ := foldl_at (P := [.dram, .lauter]) Chip.ddr (fun (s : Chip) n =>
      if n < 8 then (if !on n then s.untrained n else match ddr.find? (fun f => decide (f.ch.val = n)) with | some f => s.trainDdr f | none => miss s n) else s)
    (by
      intro u n
      split
      · next hn =>
        split
        · exact (u.untrained_facts n hn).1
        · split
          · exact (u.trainDdr_facts _).1
          · exact (hm u n).1
      · exact Frame.refl _ _)
    (by
      intro u n j hj
      split
      · next hn =>
        split
        · exact (u.untrained_facts n hn).2.1 j hj
        · split
          · next f hf => exact (u.trainDdr_facts f).2.1 j (by rw [of_decide_eq_true (List.find?_some (p := fun f : DdrFound => decide (f.ch.val = n)) hf)]; exact hj)
          · exact (hm u n).2 j hj
      · rfl) (List.range 8) c0 List.nodup_range
  have hd : d = (List.range 8).foldl (fun (s : Chip) n =>
      if n < 8 then (if !on n then s.untrained n else match ddr.find? (fun f => decide (f.ch.val = n)) with | some f => s.trainDdr f | none => miss s n) else s) c0 := by
    show (List.range 8).foldl _ c0 = _
    refine List.foldl_ext _ _ _ (fun u n hn => ?_)
    rw [if_pos (List.mem_range.mp hn)]
    try rfl
  rw [← hd] at a1 a2 a3
  have he : Frame [.kiln, .lauter] e d := Frame.foldl _ _ (fun u n => u.untrained_nvm n) _
  have hr := e.classifyRoots_frame (nvm.filter (fun f => on (8 + f.ch.val))) true
  have same : ∀ n, (e.classifyRoots (nvm.filter (fun f => on (8 + f.ch.val))) true).ddr n = d.ddr n := fun n => by
    have : (e.classifyRoots (nvm.filter (fun f => on (8 + f.ch.val))) true).dram = d.dram := (hr .dram (by decide)).trans (he .dram (by decide))
    unfold Chip.ddr; rw [this]
  refine ⟨(hr.mono (by decide)).trans ((he.mono (by decide)).trans ((a1.mono (by decide)).trans (h0.mono (by decide)))), fun n hn => ?_⟩
  obtain ⟨u, u1, u2, u3⟩ := a3 n (List.mem_range.mpr hn)
  rw [same, u3, if_pos hn]
  refine ⟨fun h => ?_, fun h f hf => ?_, fun h hf => ?_⟩
  · rw [if_pos (by show (!decide _) = true; simp [h])]
    exact (u.untrained_facts n hn).2.2
  · rw [if_neg (by show ¬ (!decide _) = true; simp [h]), hf]
    have e1 : f.ch.val = n := of_decide_eq_true (List.find?_some (p := fun f : DdrFound => decide (f.ch.val = n)) hf)
    have t := (u.trainDdr_facts f).2.2
    have rp : u.rwp = c.rwp := (u1 .rwp (by decide)).trans (h0 .rwp (by decide))
    have k1 : u.fsp0Mts n f.dimms = c.fsp0Mts n f.dimms := by unfold Chip.fsp0Mts; rw [rp]
    have k2 : u.cfgAt Obj.ddrChanFsp1Mts n = c.cfgAt Obj.ddrChanFsp1Mts n :=
      (Chip.cfg_of_frame u1 (by decide) (by decide) _).trans (Chip.cfg_of_frame h0 (by decide) (by decide) _)
    rw [e1, k1, k2] at t
    exact t
  · rw [if_neg (by show ¬ (!decide _) = true; simp [h]), hf]
    exact ⟨u, rfl⟩

theorem Chip.refreshDiagnosis_facts (c : Chip) : Frame [.mode] c.refreshDiagnosis c ∧ c.refreshDiagnosis.mode = { c.mode with current :=
    if c.mode.current = .service ∧ c.frozenMask ≠ 0 then .diagnosis else if c.mode.current = .diagnosis ∧ c.frozenMask = 0 then .service else c.mode.current } := by
  unfold Chip.refreshDiagnosis
  split
  · exact ⟨Frame.set_mode (by decide) _ _, rfl⟩
  · split
    · exact ⟨Frame.set_mode (by decide) _ _, rfl⟩
    · exact ⟨Frame.refl _ _, rfl⟩

/-- SERVICE, or DIAGNOSIS while a channel is frozen (R527). -/
theorem Chip.enterService_facts (c : Chip) : Frame [.mode] c.enterService c
    ∧ c.enterService.mode = { c.mode with current := if c.frozenMask ≠ 0 then .diagnosis else .service } := by
  unfold Chip.enterService
  obtain ⟨f, e⟩ := (c.setMode .service).refreshDiagnosis_facts
  refine ⟨f.trans (Frame.set_mode (by decide) _ _), ?_⟩
  rw [e]
  have : (c.setMode .service).frozenMask = c.frozenMask := rfl
  rw [this]
  by_cases h : c.frozenMask = 0
  · rw [if_neg (fun z => z.2 h), if_neg (fun z => by cases z.1), if_neg (fun z => z h)]; rfl
  · rw [if_pos ⟨rfl, h⟩, if_pos h]; rfl

theorem Chip.domain_of_frame {c d : Chip} {l : List Part} (h : Frame l d c) (n : Part.mode ∉ l) (m : Part.power ∉ l) (k : Nat) : d.domain k = c.domain k := by
  have a : d.mode = c.mode := h .mode n
  have b : d.power = c.power := h .power m
  unfold Chip.domain; rw [a, b]

/-- The bifurcation that the two ports are configured for (R50). -/
def Chip.newBifur (c : Chip) : Nat := c.cfg Obj.portsBifurcationA % 2 + c.cfg Obj.portsBifurcationB % 2 * 2

/-- The bifurcation is taken while no head of a port that changes is up; heads of a port whose bifurcation stays keep their state (R50). -/
theorem Chip.takeBifurcation_facts (c : Chip) (up : ∀ h, h < 4 → bitOf c.newBifur (h / 2) = bitOf c.bifur (h / 2) ∨ (c.head h).state ≠ .active) :
    Frame [.bifur, .heads] c.takeBifurcation c ∧ c.takeBifurcation.bifur = c.newBifur
    ∧ ∀ h, h < 4 → bitOf c.takeBifurcation.bifur (h / 2) = bitOf c.bifur (h / 2) → c.takeBifurcation.head h = c.head h := by
  have hs : c.takeBifurcation = (List.range 4).foldl (fun (s : Chip) h =>
      if bitOf c.newBifur (h / 2) = bitOf c.bifur (h / 2) ∨ 4 ≤ h then s
      else s.setHead h ((s.head h).linkClear (if s.headPresent h then .down else .absent))) { c with bifur := c.newBifur } := by
    unfold Chip.takeBifurcation
    have g : ∀ (l : List Nat) (d : Chip), (∀ h ∈ l, h < 4) → l.Nodup → (∀ h ∈ l, d.head h = c.head h) →
        l.foldl (fun (s : Chip) h => if bitOf c.newBifur (h / 2) = bitOf c.bifur (h / 2) then s else s.retrainHead h) d
        = l.foldl (fun (s : Chip) h => if bitOf c.newBifur (h / 2) = bitOf c.bifur (h / 2) ∨ 4 ≤ h then s
            else s.setHead h ((s.head h).linkClear (if s.headPresent h then .down else .absent))) d := by
      intro l
      induction l with
      | nil => intro d _ _ _; rfl
      | cons h l ih =>
        intro d h4 nd hh
        obtain ⟨n1, n2⟩ := List.nodup_cons.mp nd
        rw [List.foldl_cons, List.foldl_cons]
        have e : (if bitOf c.newBifur (h / 2) = bitOf c.bifur (h / 2) then d else d.retrainHead h)
            = (if bitOf c.newBifur (h / 2) = bitOf c.bifur (h / 2) ∨ 4 ≤ h then d
              else d.setHead h ((d.head h).linkClear (if d.headPresent h then .down else .absent))) := by
          have l4 := h4 h (List.mem_cons_self ..)
          by_cases q : bitOf c.newBifur (h / 2) = bitOf c.bifur (h / 2)
          · rw [if_pos q, if_pos (Or.inl q)]
          · have na : (d.head h).state ≠ .active := by
              rw [hh h (List.mem_cons_self ..)]; exact (up h l4).resolve_left q
            rw [if_neg q, if_neg (by rintro (x | x); exact q x; omega)]
            unfold Chip.retrainHead
            dsimp only
            rw [if_neg na]
        rw [e]
        refine ih _ (fun k hk => h4 k (List.mem_cons_of_mem _ hk)) n2 (fun k hk => ?_)
        have ne : k ≠ h := fun z => n1 (z ▸ hk)
        split
        · exact hh k (List.mem_cons_of_mem _ hk)
        · rw [Chip.head_setHead_other _ _ ne]; exact hh k (List.mem_cons_of_mem _ hk)
    exact g (List.range 4) { c with bifur := c.newBifur } (fun h hh => List.mem_range.mp hh) List.nodup_range (fun _ _ => rfl)
  rw [hs]
  obtain ⟨a1, a2, a3⟩ := foldl_at (P := [.heads]) Chip.head (fun (s : Chip) h =>
      if bitOf c.newBifur (h / 2) = bitOf c.bifur (h / 2) ∨ 4 ≤ h then s
      else s.setHead h ((s.head h).linkClear (if s.headPresent h then .down else .absent)))
    (fun u n => Frame.ite _ (Frame.refl _ _) (Frame.set_heads (by decide) _ _))
    (fun u n j hj => by split; · rfl
                        · exact Chip.head_setHead_other _ _ hj) (List.range 4) { c with bifur := c.newBifur } List.nodup_range
  have b := a1 .bifur (by decide)
  refine ⟨(a1.mono (by decide)).trans (Frame.set_bifur (by decide) _ _), b, fun h hh e => ?_⟩
  obtain ⟨u, _, u2, u3⟩ := a3 h (List.mem_range.mpr hh)
  have e' : bitOf c.newBifur (h / 2) = bitOf c.bifur (h / 2) := by rw [← e]; exact congrArg (fun x => bitOf x (h / 2)) b.symm
  rw [u3, if_pos (Or.inl e'), u2]
  rfl

/-- What training starts: each enabled link whose domain is ON trains from its first step (R363, R527). -/
theorem Chip.enterTraining_facts (c : Chip) (up : ∀ h, h < 4 → bitOf c.newBifur (h / 2) = bitOf c.bifur (h / 2) ∨ (c.head h).state ≠ .active) :
    Frame [.mode, .bifur, .heads, .links] c.enterTraining c
    ∧ c.enterTraining.mode = { c.mode with current := .training }
    ∧ c.enterTraining.bifur = c.newBifur
    ∧ (∀ h, h < 4 → bitOf c.enterTraining.bifur (h / 2) = bitOf c.bifur (h / 2) → c.enterTraining.head h = c.head h)
    ∧ ∀ l, l < 8 → c.enterTraining.link l = if c.cfgAt Obj.linkEnable l = 1 ∧ c.domain (linkDomain l) = .on ∧ (c.link l).st ≠ .training then
        { c.link l with st := .training, step := .detect, tries := 0, lanes := 0, initGot := 0, width := 0, speed := 0, vcs := 0, sent := (c.link l).sent ++ [.ts 0x2D 0] }
      else c.link l := by
  unfold Chip.enterTraining
  extract_lets d
  obtain ⟨b1, b2, b3⟩ := (c.setMode .training).takeBifurcation_facts up
  have mf : Frame [.mode] (c.setMode .training) c := Frame.set_mode (by decide) _ _
  have df : Frame [.mode, .bifur, .heads] d c := (b1.mono (by decide)).trans (mf.mono (by decide))
  obtain ⟨a1, a2, a3⟩ := foldl_at (P := [.links]) Chip.link (fun (s : Chip) l =>
      if s.cfgAt Obj.linkEnable l = 1 ∧ s.domain (linkDomain l) = .on ∧ (s.link l).st ≠ .training then s.startTraining l 0 else s)
    (fun u n => Frame.ite _ (Chip.setLink_only _ _ _).2 (Frame.refl _ _))
    (fun u n j hj => by split; · exact (Chip.setLink_only _ _ _).1 j hj
                        · rfl) (List.range 8) d List.nodup_range
  have cf : ∀ k, d.cfg k = c.cfg k := fun k => Chip.cfg_of_frame df (by decide) (by decide) k
  have dm : d.mode = { c.mode with current := .training } := b1 .mode (by decide)
  refine ⟨(a1.mono (by decide)).trans (df.mono (by decide)), (a1 .mode (by decide)).trans dm, (a1 .bifur (by decide)).trans b2, fun h hh e => ?_, fun l hl => ?_⟩
  · have hb := a1.head (by decide) h
    rw [hb]
    have e' : bitOf d.bifur (h / 2) = bitOf c.bifur (h / 2) := by rw [← a1 .bifur (by decide)]; exact e
    exact b3 h hh e'
  · obtain ⟨u, u1, u2, u3⟩ := a3 l (List.mem_range.mpr hl)
    rw [u3]
    have e1 : u.cfgAt Obj.linkEnable l = c.cfgAt Obj.linkEnable l := (Chip.cfg_of_frame u1 (by decide) (by decide) _).trans (cf _)
    have dd : ∀ n, d.domain n = c.domain n := by
      intro n
      have p : d.power = c.power := df .power (by decide)
      unfold Chip.domain; rw [p, dm]
    have e2 : u.domain (linkDomain l) = c.domain (linkDomain l) := (Chip.domain_of_frame u1 (by decide) (by decide) _).trans (dd _)
    have e3 : u.link l = c.link l := u2.trans (Chip.link_of_frame df (by decide) l)
    rw [e1, e2, e3]
    split
    · unfold Chip.startTraining; rw [Chip.link_setLink, e3]
    · exact e3

end Sys2Proof.Machine
end

