-- ==== Sys2Proof/Laws/Seedbank.lean ====
section
/-!
SUPPORT. Laws/Seedbank.lean: what an append and a compaction leave in Seedbank (R489, R493, R495).
-/
namespace Sys2Proof.Machine

/-- A record placed in the open sector. -/
theorem Chip.sbPlace_open (s : Chip) (k kind key seq : Nat) (p : List Byte) (b : Bool) (h : s.openSector = some k)
    (room : (s.sec k).used + recSize p.length ≤ 65536) :
    ∃ d, s.sbPlace kind key seq p b = some d ∧ d.sb.recs = s.sb.recs ++ [⟨k, kind, key, seq, p, b, true⟩] ∧ d.sb.allowance = s.sb.allowance
      ∧ d.sb.held = s.sb.held ∧ d.sb.compactions = s.sb.compactions ∧ Frame [.sb] d s := by
  unfold Chip.sbPlace
  rw [h]
  dsimp only
  rw [if_pos room]
  refine ⟨_, rfl, rfl, rfl, rfl, rfl, ?_⟩
  exact (Frame.set_sb (by decide) _ _).trans (Frame.set_sb (by decide) _ _)

/-- Every appended byte spends the allowance, and no more of Seedbank changes (R495). -/
theorem Chip.sbSpend_sb (s : Chip) (n : Nat) : (s.sbSpend n).sb = { s.sb with allowance := s.sb.allowance - n } := by
  unfold Chip.sbSpend
  dsimp only
  split
  · exact (Chip.raise_eq _ _ _ _ _ _).frame .sb (by decide)
  · rfl

/-- An append that may start, with room in the open sector, commits its record and spends its size (R489, R495). -/
theorem Chip.sbAppend_open (s : Chip) (k kind key : Nat) (p : List Byte) (h1 : s.sb.st ≠ 2) (h2 : s.sb.protect ≠ 3)
    (h3 : s.mode.current ≠ .persist) (h4 : s.sbNextSeq kind key ≤ 0xFFFFFFFF) (h5 : s.sbLiveBytes + recSize p.length ≤ 62 * 65504)
    (h6 : s.openSector = some k) (h7 : (s.sec k).used + recSize p.length ≤ 65536) :
    (s.sbAppend kind key p).1 = true
      ∧ (s.sbAppend kind key p).2.sb.recs = s.sb.recs ++ [⟨k, kind, key, s.sbNextSeq kind key, p, true, true⟩]
      ∧ (s.sbAppend kind key p).2.sb.allowance = s.sb.allowance - recSize p.length
      ∧ (s.sbAppend kind key p).2.sb.held = s.sb.held := by
  obtain ⟨d, e, e1, e2, e3, e4, f⟩ := s.sbPlace_open k kind key (s.sbNextSeq kind key) p true h6 h7
  have go : s.sbAppend kind key p = (true, d.sbSpend (recSize p.length)) := by
    unfold Chip.sbAppend
    dsimp only
    rw [e]
    dsimp only
    rw [if_neg]
    rintro (h | h | h | h | h)
    · exact h1 h
    · exact h2 h
    · exact h3 h
    · omega
    · omega
  rw [go]
  refine ⟨rfl, ?_, ?_, ?_⟩
  · dsimp only; rw [Chip.sbSpend_sb]; exact e1
  · dsimp only; rw [Chip.sbSpend_sb]; dsimp only; rw [e2]
  · dsimp only; rw [Chip.sbSpend_sb]; exact e3

/-- A record that finds its place touches Seedbank alone. -/
theorem Chip.sbPlace_sb (s d : Chip) (k key seq : Nat) (p : List Byte) (b : Bool) (h : s.sbPlace k key seq p b = some d) :
    d.sb.compactions = s.sb.compactions ∧ Frame [.sb] d s := by
  unfold Chip.sbPlace at h
  dsimp only at h
  split at h
  · split at h
    · rw [← Option.some.inj h]
      exact ⟨rfl, (Frame.set_sb (by decide) _ _).trans (Frame.set_sb (by decide) _ _)⟩
    · split at h
      · cases h
      · rw [← Option.some.inj h]
        exact ⟨rfl, (Frame.set_sb (by decide) _ _).trans ((Frame.set_sb (by decide) _ _).trans ((Frame.set_sb (by decide) _ _).trans (Frame.set_sb (by decide) _ _)))⟩
  · split at h
    · cases h
    · rw [← Option.some.inj h]
      exact ⟨rfl, (Frame.set_sb (by decide) _ _).trans ((Frame.set_sb (by decide) _ _).trans (Frame.set_sb (by decide) _ _))⟩

/-- A sector that is copied out holds no record, and is erased once more (R493). -/
theorem Chip.retireSector_facts (s : Chip) (k : Nat) :
    (∀ r ∈ (s.retireSector k).sb.recs, r.sector ≠ k) ∧ ((s.retireSector k).sec k).st = .erased ∧ ((s.retireSector k).sec k).used = 0
      ∧ (s.retireSector k).sb.compactions = s.sb.compactions ∧ Frame [.sb] (s.retireSector k) s := by
  unfold Chip.retireSector
  extract_lets live d k0 e
  have hd : d.sb.compactions = s.sb.compactions ∧ Frame [.sb] d s := by
    have g : ∀ (l : List SbRec) (c : Chip), (l.foldl (fun s r => (s.sbPlace r.kind r.key r.seq r.payload true).getD s) c).sb.compactions = c.sb.compactions
        ∧ Frame [.sb] (l.foldl (fun s r => (s.sbPlace r.kind r.key r.seq r.payload true).getD s) c) c := by
      intro l
      induction l with
      | nil => intro c; exact ⟨rfl, Frame.refl _ _⟩
      | cons a l ih =>
        intro c
        have one : ((c.sbPlace a.kind a.key a.seq a.payload true).getD c).sb.compactions = c.sb.compactions
            ∧ Frame [.sb] ((c.sbPlace a.kind a.key a.seq a.payload true).getD c) c := by
          cases h : c.sbPlace a.kind a.key a.seq a.payload true with
          | none => exact ⟨rfl, Frame.refl _ _⟩
          | some x => exact Chip.sbPlace_sb _ _ _ _ _ _ _ h
        exact ⟨(ih _).1.trans one.1, (ih _).2.trans one.2⟩
    exact g live s
  have he : Frame [.sb] e d := Frame.set_sb (by decide) d _
  refine ⟨fun r hr => ?_, ?_, ?_, hd.1, (Frame.set_sb (by decide) e _).trans (he.trans hd.2)⟩
  · have : r ∈ d.sb.recs.filter (fun r => decide (r.sector ≠ k)) := hr
    simpa using (List.mem_filter.mp this).2
  · have : ∀ x, (e.setSec k x).sec k = x := by intro x; unfold Chip.setSec Chip.sec; dsimp only; rw [Tab.get_put, if_pos rfl]
    rw [this]
  · have : ∀ x, (e.setSec k x).sec k = x := by intro x; unfold Chip.setSec Chip.sec; dsimp only; rw [Tab.get_put, if_pos rfl]
    rw [this]

/-- Counts halve (R354). -/
theorem Tab.half_get (t : Tab Nat) (k : Nat) (h : Tab.wf 0 t = true) :
    Tab.get 0 ((t.map (fun (k, v) => (k, v / 2))).filter (fun e => decide (e.2 ≠ 0))) k = Tab.get 0 t k / 2 := by
  have nd := Tab.keys_nodup 0 t h
  clear h
  unfold Tab.get
  induction t with
  | nil => simp [Tab.find]
  | cons a t ih =>
    obtain ⟨j, v⟩ := a
    simp only [List.map_cons, List.nodup_cons] at nd
    have := ih nd.2
    by_cases e : j = k
    · subst e
      by_cases z : v / 2 = 0
      · have no : Tab.find t j = none := by
          cases hf : Tab.find t j with
          | none => rfl
          | some x => exact absurd (List.mem_map.mpr ⟨_, Tab.find_mem hf, rfl⟩) nd.1
        simp only [List.map_cons, List.filter_cons, z, ne_eq, not_true, decide_false, Bool.false_eq_true, if_false]
        rw [this]
        simp [Tab.find, no, z]
      · simp [List.map_cons, z, Tab.find]
    · by_cases z : v / 2 = 0
      · simp only [List.map_cons, List.filter_cons, z, ne_eq, not_true, decide_false, Bool.false_eq_true, if_false]
        rw [this]
        simp [Tab.find, e]
      · simp only [List.map_cons, List.filter_cons, z, ne_eq, not_false_eq_true, decide_true, if_true, Tab.find, e, if_false]
        exact this

end Sys2Proof.Machine
end

