-- ==== Sys2Proof/Laws/Reset.lean ====
section
/-!
SUPPORT. Laws/Reset.lean: what a reset, the end of RECALL and a domain change leave (R524, R533, R539).
-/
namespace Sys2Proof.Machine

/-- What a loss of the rails may change of the media's view. -/
abbrev loseParts : List Part := [.map, .mem, .poison, .macs, .mill, .kiln, .cache]

theorem Chip.wipePage_frame (c : Chip) (p : Nat) : Frame loseParts (c.wipePage p) c := by
  have d : Frame [.cache] (c.dropLines (64 * p) 64) c := Frame.set_cache (by decide) _ _
  unfold Chip.wipePage
  intro q hq
  have := d q (by intro h; apply hq; fin_cases h; decide)
  cases q <;> first | exact this | simp at hq

/-- Pages set to their default stay there, and no other page changes. -/
theorem Chip.losePage_facts : ∀ (ps : List Nat) (c : Chip),
    let d := ps.foldl (fun (s : Chip) p => (s.setPage p {}).wipePage p) c
    Frame loseParts d c ∧ (∀ p, p ∉ ps → d.page p = c.page p) ∧ ∀ p, p ∈ ps → d.page p = {} := by
  intro ps
  induction ps with
  | nil => exact fun c => ⟨Frame.refl _ _, fun _ _ => rfl, fun p h => absurd h (by simp)⟩
  | cons n ps ih =>
    intro c
    obtain ⟨f, a, b⟩ := ih ((c.setPage n {}).wipePage n)
    have m : ∀ p, ((c.setPage n {}).wipePage n).page p = (c.setPage n {}).page p := fun _ => rfl
    rw [List.foldl_cons]
    refine ⟨f.trans ((Chip.wipePage_frame _ _).trans (Frame.set_map (by decide) _ _)), fun p h => ?_, fun p h => ?_⟩
    · rw [a p (fun z => h (List.mem_cons_of_mem _ z)), m, Chip.page_setPage_other c {} (fun z : p = n => h (z ▸ List.mem_cons_self ..))]
    · by_cases z : p ∈ ps
      · exact b p z
      · have : p = n := (List.mem_cons.mp h).resolve_right z
        subst this
        rw [a p z, m, Chip.page_setPage]

theorem Chip.losePages_facts (c : Chip) : Frame loseParts c.losePages c
    ∧ ∀ p : Nat, (c.losePages.page p).st ≠ .hbm ∧ (c.losePages.page p).st ≠ .ddr := by
  have uc : ∀ c : Chip, Frame loseParts c.undoCommits c := by
    intro c
    unfold Chip.undoCommits
    refine Frame.foldl _ _ (fun d o => ?_) _
    exact (Frame.foldl _ _ (fun e x => Frame.set_kiln (by decide) _ _) _).trans
      ((Frame.set_mill (by decide) _ _).trans (Frame.set_map (by decide) _ _))
  have rv : ∀ (c : Chip) l x b, Frame loseParts (c.revertLine l x b) c := by
    intro c l x b
    unfold Chip.revertLine
    have a : Frame loseParts ({ c with mem := Mem.writeLine c.mem (64 * l) fullMask x } : Chip) c := Frame.set_mem (by decide) _ _
    exact (Frame.set_poison (by decide) _ _).trans a
  unfold Chip.losePages
  extract_lets d e src f g lost
  have hd : Frame loseParts d c := uc c
  have he : Frame loseParts e d := Frame.foldl _ _ (fun u x => rv u _ _ _) _
  have hf : Frame loseParts f e := Frame.set_kiln (by decide) _ _
  have hg : Frame loseParts g f := Frame.foldl _ _ (fun u x => Frame.ite _ (Frame.set_map (by decide) _ _) (Frame.refl _ _)) _
  obtain ⟨a, b, z⟩ := Chip.losePage_facts lost g
  refine ⟨a.trans (hg.trans (hf.trans (he.trans hd))), fun p => ?_⟩
  by_cases hp : p ∈ lost
  · rw [z p hp]; exact ⟨by decide, by decide⟩
  · rw [b p hp]
    by_contra no
    apply hp
    have hs : (g.page p).st = .hbm ∨ (g.page p).st = .ddr := by tauto
    cases hfi : Tab.find g.map.pages p with
    | none =>
      have : g.page p = {} := by unfold Chip.page Tab.get; rw [hfi]; rfl
      rw [this] at hs
      exact absurd hs (by decide)
    | some r =>
      have hr : g.page p = r := by unfold Chip.page Tab.get; rw [hfi]; rfl
      refine List.mem_map.mpr ⟨(p, r), List.mem_filter.mpr ⟨Tab.find_mem hfi, ?_⟩, rfl⟩
      rw [hr] at hs
      simp only [decide_eq_true_eq]
      tauto

/-- What every reset of CORE leaves (R203, R539). -/
theorem Chip.coreReset_facts (c : Chip) (n : Nat) : Cold (c.coreReset n) ∧ SameDie (c.coreReset n) c ∧ (c.coreReset n).power = c.power
    ∧ (c.coreReset n).pkg = { c.pkg with tjPeak := c.pkg.tj }
    ∧ (c.coreReset n).fault = { sticky := c.fault.sticky, history := c.fault.history, dark := c.fault.dark }
    ∧ (c.coreReset n).mode = { current := .recall, build := c.mode.build, strapsTaken := c.mode.strapsTaken, resetCause := n,
                               resetCount := c.mode.resetCount, domains := [(1, .on), (2, .on)], railsUp := c.mode.railsUp }
    ∧ (c.coreReset n).husk = { rootDone := c.husk.rootDone, root := c.husk.root, debugClosed := c.husk.debugClosed, hbmKey := c.free }
    ∧ (c.coreReset n).free = c.free + 1 := by
  obtain ⟨f, g⟩ := c.losePages_facts
  have hp : c.losePages.power = c.power := f .power (by decide)
  have hk : c.losePages.pkg = c.pkg := f .pkg (by decide)
  have hf : c.losePages.fault = c.fault := f .fault (by decide)
  have hm : c.losePages.mode = c.mode := f .mode (by decide)
  have hh : c.losePages.husk = c.husk := f .husk (by decide)
  have hr : c.losePages.free = c.free := f .free (by decide)
  have hs : c.losePages.sb = c.sb := f .sb (by decide)
  unfold Chip.coreReset Cold SameDie
  dsimp only
  rw [hp, hk, hf, hm, hh, hr, hs]
  refine ⟨?_, by and_intros <;> rfl⟩
  and_intros
  any_goals rfl
  intro p
  by_cases z : c.losePages.zoneStands = true
  · have : ∀ m : MapUnit, m.pages = c.losePages.map.pages → ∀ d : Chip, d.map = m → d.page p = c.losePages.page p := by
      intro m h d e; unfold Chip.page; rw [e, h]
    rw [this _ (by rw [if_pos z]) _ rfl]
    exact g p
  · have : ∀ d : Chip, d.map = {} → d.page p = {} := by
      intro d e; unfold Chip.page; rw [e]; rfl
    rw [this _ (if_neg z)]
    exact ⟨by decide, by decide⟩

theorem Chip.chipResetNow_facts (c : Chip) (n : Nat) : Cold (c.chipResetNow n) ∧ SameDie (c.chipResetNow n) c ∧ (c.chipResetNow n).power = c.power
    ∧ (c.chipResetNow n).pkg = { c.pkg with tjPeak := c.pkg.tj }
    ∧ (c.chipResetNow n).fault = { sticky := c.fault.sticky, history := c.fault.history, dark := c.fault.dark }
    ∧ (c.chipResetNow n).mode = { current := .recall, build := c.mode.build, strapsTaken := c.mode.strapsTaken, resetCause := n, resetCount := wrap32 (c.mode.resetCount + 1),
                                        domains := [(1, .on), (2, .on)], railsUp := c.mode.railsUp } := by
  obtain ⟨a, b, d, e, f, g, -⟩ := c.coreReset_facts n
  unfold Chip.chipResetNow
  generalize c.coreReset n = k at *
  dsimp only
  rw [g]
  exact ⟨a, b, d, e, f, rfl⟩

/-- Only the named parts differ, of the field port only its alarms, and no head changes its state. -/
def Steady (l : List Part) (a b : Chip) : Prop := Frame l a b ∧ AlarmsOnly a.field b.field ∧ ∀ h, (a.head h).state = (b.head h).state

theorem Steady.refl (l : List Part) (a : Chip) : Steady l a a := ⟨Frame.refl _ _, AlarmsOnly.refl _, fun _ => rfl⟩

theorem Steady.trans {l : List Part} {a b c : Chip} (h : Steady l a b) (g : Steady l b c) : Steady l a c :=
  ⟨h.1.trans g.1, h.2.1.trans g.2.1, fun x => (h.2.2 x).trans (g.2.2 x)⟩

theorem Steady.mono {l m : List Part} {a b : Chip} (h : Steady l a b) (g : ∀ p ∈ l, p ∈ m) : Steady m a b := ⟨h.1.mono g, h.2⟩

theorem Steady.of_frame {l : List Part} {a b : Chip} (h : Frame l a b) (n : Part.field ∉ l) (m : Part.heads ∉ l) : Steady l a b :=
  ⟨h, by rw [show a.field = b.field from h .field n]; exact AlarmsOnly.refl _, fun x => by
    unfold Chip.head; rw [show a.heads = b.heads from h .heads m]⟩

theorem Steady.foldl {β : Type} {l : List Part} (f : Chip → β → Chip) (h : ∀ c x, Steady l (f c x) c) (xs : List β) :
    ∀ c, Steady l (xs.foldl f c) c := by
  induction xs with
  | nil => exact fun c => Steady.refl _ _
  | cons x xs ih => exact fun c => (ih (f c x)).trans (h c x)

theorem Steady.ite {l : List Part} {a b c : Chip} (p : Prop) [Decidable p] (h : Steady l a c) (g : Steady l b c) : Steady l (if p then a else b) c := by
  split
  · exact h
  · exact g

/-- A record posted to a head's log leaves the head's state. -/
theorem Chip.postEvent_state (c : Chip) (hs : List Nat) (sev : Nat) (r : Nat → LogRec) (h : Nat) :
    ((c.postEvent hs sev r).head h).state = (c.head h).state := by
  unfold Chip.postEvent
  induction hs generalizing c with
  | nil => rfl
  | cons x hs ih =>
    rw [List.foldl_cons, ih]
    dsimp only
    split
    · by_cases z : h = x
      · subst z
        rw [Chip.head_setHead]
        rw [Head.postLog_only]
      · rw [Chip.head_setHead_other _ _ z]
    · rfl

/-- Reactions that waited reach the fault collector, the logs and the alarm queue alone. -/
theorem Chip.react_steady (c : Chip) (n m d : Nat) (b : Block) (rise : Bool) (hs : List Nat) : Steady [.fault, .heads, .field] (c.react n m d b rise hs) c := by
  have st (x : Chip) (p : Prop) [Decidable p] (f : Chip → Chip) (hf : ∀ x : Chip, AlarmsOnly (f x).field x.field ∧ ∀ h, ((f x).head h).state = (x.head h).state)
      (hc : AlarmsOnly x.field c.field ∧ ∀ h, (x.head h).state = (c.head h).state) :
      AlarmsOnly (if p then f x else x).field c.field ∧ ∀ h, ((if p then f x else x).head h).state = (c.head h).state := by
    split
    · exact ⟨(hf x).1.trans hc.1, fun h => ((hf x).2 h).trans (hc.2 h)⟩
    · exact hc
  have q (x : Chip) (f : List Byte) : AlarmsOnly (x.queueAlarm f).field x.field ∧ ∀ h, ((x.queueAlarm f).head h).state = (x.head h).state := by
    unfold Chip.queueAlarm
    split <;> exact ⟨rfl, fun _ => rfl⟩
  have pe (x : Chip) (sev : Nat) (r : Nat → LogRec) : AlarmsOnly (x.postEvent hs sev r).field x.field
      ∧ ∀ h, ((x.postEvent hs sev r).head h).state = (x.head h).state :=
    ⟨by rw [Chip.postEvent_frame]; rfl, fun h => x.postEvent_state hs sev r h⟩
  refine ⟨(Chip.react_frame c n m d b rise hs).frame, ?_⟩
  refine st _ _ (fun c => { c with fault := { c.fault with wantSafe := true } }) (fun _ => ⟨rfl, fun _ => rfl⟩) ?_
  refine st _ _ (fun c => { c with fault := { c.fault with wantChip := true } }) (fun _ => ⟨rfl, fun _ => rfl⟩) ?_
  refine st _ _ (fun c => { c with fault := { c.fault with wantBlocks := c.fault.wantBlocks ++ [b] } }) (fun _ => ⟨rfl, fun _ => rfl⟩) ?_
  refine st _ _ (fun c => c.queueAlarm (c.alarmBytes n m)) (fun x => q x _) ?_
  refine st _ _ (fun c => { c with fault := { c.fault with nmis := c.fault.nmis + 1 } }) (fun _ => ⟨rfl, fun _ => rfl⟩) ?_
  exact st _ _ (fun c => c.postEvent hs _ _) (fun x => pe x _ _) ⟨AlarmsOnly.refl _, fun _ => rfl⟩

theorem Chip.raise_steady (c : Chip) (n m d : Nat) (b : Block) (hs : List Nat) : Steady [.fault, .heads, .field] (c.raise n m d b hs) c := by
  refine ⟨(Chip.raise_eq c n m d b hs).frame, c.raise_field n m d b hs, ?_⟩
  unfold Chip.raise
  dsimp only
  split
  · exact (Chip.react_steady _ n m d b _ hs).2.2
  · split <;> exact fun _ => rfl

theorem Chip.lightUp_steady (c : Chip) : Steady [.fault, .heads, .field] c.lightUp c := by
  unfold Chip.lightUp
  dsimp only
  exact (Steady.foldl _ (fun d n => d.react_steady _ _ _ _ _ _) _ _).trans (Steady.of_frame (l := [.fault]) (Frame.set_fault (by decide) _ _) (by decide) (by decide) |>.mono (by decide))

/-- What the recall scan may change. -/
abbrev scanParts : List Part := [.sb, .rwp, .fault, .heads, .field]

theorem Chip.sbAppend_steady (c : Chip) (k key : Nat) (p : List Byte) : Steady scanParts (c.sbAppend k key p).2 c := by
  have sp : ∀ (d : Chip) n, Steady scanParts (d.sbSpend n) d := by
    intro d n
    unfold Chip.sbSpend
    dsimp only
    have w : Steady scanParts ({ d with sb := { d.sb with allowance := d.sb.allowance - n } } : Chip) d :=
      Steady.mono (Steady.of_frame (Frame.set_sb (l := [.sb]) (by decide) d _) (by decide) (by decide)) (by decide)
    exact Steady.ite _ (((Chip.raise_steady _ _ _ _ _ _).mono (by decide)).trans w) w
  have go (q : Prop) [Decidable q] (seq n : Nat) : Steady scanParts (if q then (false, c) else
      match c.sbPlace k key seq p true with
      | some d => (true, d.sbSpend n)
      | none => (false, c)).2 c := by
    split
    · exact Steady.refl _ _
    · cases e : c.sbPlace k key seq p true with
      | some d => exact (sp d n).trans ((Steady.of_frame (Chip.sbPlace_sb _ _ _ _ _ _ _ e).2 (by decide) (by decide)).mono (by decide))
      | none => exact Steady.refl _ _
  exact go _ _ _

theorem Chip.recalledValues_congr {a b : Chip} (h : a.sb.recs = b.sb.recs) (g : a.sb.sectors = b.sb.sectors) : a.recalledValues = b.recalledValues := by
  unfold Chip.recalledValues Chip.sbKeys Chip.sbLive Chip.sbFirst Chip.sbClash Chip.sbCopies Chip.sbBefore Chip.sec
  rw [h, g]

/-- The recall scan changes Seedbank and the RWP values alone; the RWP objects take what the live PARAM records hold (R490, R496). -/
theorem Chip.recallScan_facts (c : Chip) (ms : Nat) (ok : Bool) (bad : List (Nat × Nat × Byte)) : Steady scanParts (c.recallScan ms ok bad) c
    ∧ (c.recallScan ms ok bad).rwp = (if ok then (c.recallScan ms ok bad).recalledValues else [])
    ∧ (ok = false → (c.recallScan ms ok bad).sb.st = 2) := by
  cases ok with
  | false =>
    obtain ⟨d, hd⟩ : ∃ d : Chip, d = { c with sb := { c.sb with st := 2, scanMs := ms }, rwp := [] } := ⟨_, rfl⟩
    have e : c.recallScan ms false bad = d.raise 164 := by rw [hd]; rfl
    have w : Steady scanParts d c := by
      rw [hd]
      have a : Frame [.sb, .rwp] ({ c with sb := { c.sb with st := 2, scanMs := ms } } : Chip) c := Frame.set_sb (by decide) _ _
      have b : Frame [.sb, .rwp] ({ c with sb := { c.sb with st := 2, scanMs := ms }, rwp := [] } : Chip) _ := (Frame.set_rwp (by decide) _ _).trans a
      exact Steady.mono (Steady.of_frame b (by decide) (by decide)) (by decide)
    have r := d.raise_steady 164 0xFF 0 .none [0, 1, 2, 3]
    rw [e]
    refine ⟨(r.mono (by decide)).trans w, ?_, fun _ => ?_⟩
    · rw [show (d.raise 164).rwp = d.rwp from r.1 .rwp (by decide), hd]; rfl
    · rw [show (d.raise 164).sb = d.sb from r.1 .sb (by decide), hd]
  | true =>
    unfold Chip.recallScan
    rw [if_neg (by decide)]
    extract_lets z0 torn nbad src d e n f src2 g h k
    have w : ∀ (x y : Chip), Frame [.sb] y x → Steady scanParts y x := fun x y z => (Steady.of_frame z (by decide) (by decide)).mono (by decide)
    have hz : Steady scanParts z0 c := w _ _ (Frame.set_sb (by decide) c _)
    have hd : Steady scanParts d c := (w _ _ (Frame.set_sb (by decide) z0 _)).trans hz
    have he : Steady scanParts e d := Steady.ite _ ((Chip.raise_steady _ _ _ _ _ _).mono (by decide)) (Steady.refl _ _)
    have hf : Steady scanParts f e := Chip.sbAppend_steady _ _ _ _
    have hg : Steady scanParts g f := w _ _ (Frame.set_sb (by decide) _ _)
    have hh : Steady scanParts h g := Steady.foldl _ (fun u x => w _ _ (u.retireSector_facts x).2.2.2.2) _ _
    have hk : Steady scanParts k h := by
      show Steady scanParts h.settleConflicts h
      unfold Chip.settleConflicts
      refine Steady.foldl _ (fun u x => ?_) _ _
      obtain ⟨x1, x2⟩ := x
      dsimp only
      have a : Steady scanParts ({ u with sb := { u.sb with conflicts := u.sb.conflicts + 1 } } : Chip) u := w _ _ (Frame.set_sb (by decide) _ _)
      have b := (Chip.raise_steady ({ u with sb := { u.sb with conflicts := u.sb.conflicts + 1 } } : Chip) 163 0xFF 0 .none [0, 1, 2, 3]).mono (m := scanParts) (by decide)
      split
      · exact (Chip.sbAppend_steady _ _ _ _).trans (b.trans a)
      · exact b.trans a
    clear_value k
    refine ⟨Steady.trans ((Steady.of_frame (l := [.rwp]) (Frame.set_rwp (by decide) k _) (by decide) (by decide)).mono (by decide))
      (hk.trans (hh.trans (hg.trans (hf.trans (he.trans hd))))), ?_, fun z => absurd z (by decide)⟩
    rw [if_pos rfl]
    exact Chip.recalledValues_congr rfl rfl

/-- What the end of RECALL may change before the mode that follows. -/
abbrev recallParts : List Part := [.sb, .rwp, .casks, .husk, .power, .mode, .fault, .heads, .field]

/-- Every domain of `l` that the build has comes ON, and no other domain changes (R524, R537). -/
theorem Chip.domainsOn_facts : ∀ (l : List Nat) (c : Chip),
    let d := l.foldl (fun (s : Chip) n => if 3 ≤ n ∧ !s.noDomain n then s.setDomain n .on else s) c
    (∃ t, d = { c with mode := { c.mode with domains := t } })
      ∧ ∀ n : Nat, 0 < n → d.domain n = if n ∈ l ∧ 3 ≤ n ∧ c.noDomain n = false then .on else c.domain n := by
  intro l
  induction l with
  | nil => exact fun c => ⟨⟨c.mode.domains, rfl⟩, fun n _ => by simp⟩
  | cons k l ih =>
    intro c
    rw [List.foldl_cons]
    obtain ⟨e, he⟩ : ∃ e, (if 3 ≤ k ∧ !c.noDomain k then c.setDomain k .on else c) = e := ⟨_, rfl⟩
    have one : (∃ t, e = { c with mode := { c.mode with domains := t } })
        ∧ ∀ n : Nat, 0 < n → e.domain n = if n = k ∧ 3 ≤ n ∧ c.noDomain n = false then .on else c.domain n := by
      rw [← he]
      split
      · next h =>
        refine ⟨⟨_, rfl⟩, fun n hn => ?_⟩
        by_cases z : n = k
        · subst z
          have : c.noDomain n = false := by simpa using h.2
          rw [if_pos ⟨rfl, h.1, this⟩]
          unfold Chip.domain Chip.setDomain
          rw [if_neg (by omega)]
          dsimp only
          rw [Tab.get_put, if_pos rfl]
        · rw [if_neg (fun g => z g.1)]
          unfold Chip.domain Chip.setDomain
          rw [if_neg (by omega), if_neg (by omega)]
          dsimp only
          rw [Tab.get_put, if_neg z]
      · next h =>
        refine ⟨⟨c.mode.domains, rfl⟩, fun n hn => ?_⟩
        rw [if_neg]
        rintro ⟨rfl, a, b⟩
        exact h ⟨a, by simp [b]⟩
    rw [he]
    obtain ⟨⟨t, ht⟩, oe⟩ := one
    obtain ⟨⟨u, hu⟩, od⟩ := ih e
    refine ⟨⟨u, by rw [hu, ht]⟩, fun n hn => ?_⟩
    have nd : e.noDomain n = c.noDomain n := by rw [ht]; rfl
    rw [od n hn, nd, oe n hn]
    by_cases a : n ∈ l <;> by_cases b : n = k <;> by_cases q : 3 ≤ n ∧ c.noDomain n = false <;> simp_all

theorem Chip.recallEnd_facts (c : Chip) (ms : Nat) (ok : Bool) (bad : List (Nat × Nat × Byte)) (a b e : Bool) (h : c.mode.current = .recall) :
    ∃ u : Chip, Steady recallParts u c ∧ (∃ t, u.mode = { c.mode with domains := t })
      ∧ (∀ n : Nat, 3 ≤ n → n < 31 → u.domain n = if c.noDomain n then c.domain n else .on)
      ∧ u.sb.boot = (c.bootChoice a b).getD 0 ∧ u.rwp = (if ok then u.recalledValues else []) ∧ (ok = false → u.sb.st = 2)
      ∧ c.recallEnd ms ok bad a b e = match c.bootChoice a b with
        | some _ => (((u.setMode .unaddressed).lightUp).strapAddress).addressHeld
        | none => ((({ u with mode := { u.mode with current := .update, bootUpdate := true } } : Chip).lightUp).strapAddress).raise 166 := by
  obtain ⟨f1, f2, f3⟩ := c.recallScan_facts ms ok bad
  obtain ⟨d, hd⟩ : ∃ d, c.recallScan ms ok bad = d := ⟨_, rfl⟩
  rw [hd] at f1 f2 f3
  obtain ⟨g, hg⟩ : ∃ g, (if ok then d.restoreBlobs else d) = g := ⟨_, rfl⟩
  have gs : Frame [.casks] g d := by
    rw [← hg]
    refine Frame.ite _ ?_ (Frame.refl _ _)
    unfold Chip.restoreBlobs
    refine Frame.foldl _ _ (fun u x => ?_) _
    split
    · dsimp only
      split
      · split
        · exact Frame.set_casks (by decide) _ _
        · exact Frame.refl _ _
      · exact Frame.refl _ _
    · exact Frame.refl _ _
  obtain ⟨k, hk⟩ : ∃ k, (if e then g else ({ g with husk := { g.husk with entropyFailed := true } } : Chip).raise 86) = k := ⟨_, rfl⟩
  have ks : Steady [.husk, .fault, .heads, .field] k g := by
    rw [← hk]
    refine Steady.ite _ (Steady.refl _ _) ?_
    exact ((Chip.raise_steady _ _ _ _ _ _).mono (by decide)).trans ((Steady.of_frame (l := [.husk]) (Frame.set_husk (by decide) g _) (by decide) (by decide)).mono (by decide))
  obtain ⟨p, hp⟩ : ∃ p, k.loadSentry = p := ⟨_, rfl⟩
  have ps : Frame [.power] p k := by rw [← hp]; exact Frame.set_power (by decide) _ _
  obtain ⟨⟨t, ht⟩, od⟩ := Chip.domainsOn_facts (List.range 31) p
  obtain ⟨q, hq⟩ : ∃ q, p.domainsOn = q := ⟨_, rfl⟩
  have qe : q = { p with mode := { p.mode with domains := t } } := by rw [← hq]; exact ht
  have qd : ∀ n : Nat, 0 < n → q.domain n = if n ∈ List.range 31 ∧ 3 ≤ n ∧ p.noDomain n = false then .on else p.domain n := by
    rw [← hq]; exact od
  have qs : Frame [.mode] q p := by rw [qe]; exact Frame.set_mode (by decide) _ _
  have pm : p.mode = c.mode := (ps .mode (by decide)).trans ((ks.1 .mode (by decide)).trans ((gs .mode (by decide)).trans (f1.1 .mode (by decide))))
  have qsb : q.sb = d.sb := (qs .sb (by decide)).trans ((ps .sb (by decide)).trans ((ks.1 .sb (by decide)).trans (gs .sb (by decide))))
  have qr : q.rwp = d.rwp := (qs .rwp (by decide)).trans ((ps .rwp (by decide)).trans ((ks.1 .rwp (by decide)).trans (gs .rwp (by decide))))
  obtain ⟨u, hu⟩ : ∃ u : Chip, ({ q with sb := { q.sb with boot := (c.bootChoice a b).getD 0 } } : Chip) = u := ⟨_, rfl⟩
  have us : Frame [.sb] u q := by rw [← hu]; exact Frame.set_sb (by decide) _ _
  have w : ∀ {x y : Chip} {l : List Part}, Frame l y x → Part.field ∉ l → Part.heads ∉ l → (∀ z ∈ l, z ∈ recallParts) → Steady recallParts y x :=
    fun z n k m => (Steady.of_frame z n k).mono m
  refine ⟨u, ?_, ⟨t, ?_⟩, fun n n1 n2 => ?_, ?_, ?_, fun z => ?_, ?_⟩
  · exact (w us (by decide) (by decide) (by decide)).trans ((w qs (by decide) (by decide) (by decide)).trans ((w ps (by decide) (by decide) (by decide)).trans
      ((ks.mono (by decide)).trans ((w gs (by decide) (by decide) (by decide)).trans (f1.mono (by decide))))))
  · rw [show u.mode = q.mode from us .mode (by decide), qe]
    dsimp only
    rw [pm]
  · have e1 : u.domain n = q.domain n := by
      unfold Chip.domain
      rw [show u.mode = q.mode from us .mode (by decide), show u.power = q.power from us .power (by decide)]
    have e2 : p.noDomain n = c.noDomain n := by unfold Chip.noDomain; rw [pm]
    have e3 : p.domain n = c.domain n := by unfold Chip.domain; rw [pm, if_neg (by omega), if_neg (by omega)]
    rw [e1, qd n (by omega), e2, e3]
    have : n ∈ List.range 31 := List.mem_range.mpr n2
    cases c.noDomain n <;> simp [this, n1]
  · rw [← hu]
  · rw [show u.rwp = q.rwp from us .rwp (by decide), qr, f2]
    have : u.recalledValues = d.recalledValues := Chip.recalledValues_congr (by rw [← hu]; dsimp only; rw [qsb]) (by rw [← hu]; dsimp only; rw [qsb])
    rw [this]
  · rw [← hu]
    dsimp only
    rw [qsb]
    exact f3 z
  · unfold Chip.recallEnd
    rw [if_neg (by simp [h])]
    dsimp only
    rw [hd, hg, hk, hp, hq, ← hu]
    try (cases c.bootChoice a b <;> rfl)

/-- The waiting reactions and the strap address (R477, R546). -/
theorem Chip.strapped_facts (u : Chip) : (Frame [.fault, .heads, .field] u.lightUp.strapAddress u
      ∧ ∀ h, (u.lightUp.strapAddress.head h).state = (u.head h).state)
    ∧ (1 ≤ u.pkg.slot ∧ u.pkg.slot ≤ 0x7E → u.lightUp.strapAddress.field.addr = u.pkg.slot ∧ u.lightUp.strapAddress.field.source = 1)
    ∧ (¬ (1 ≤ u.pkg.slot ∧ u.pkg.slot ≤ 0x7E) → u.lightUp.strapAddress.field.addr = u.field.addr) := by
  have l := u.lightUp_steady
  obtain ⟨d, hd⟩ : ∃ d, u.lightUp = d := ⟨_, rfl⟩
  rw [hd] at l ⊢
  have pk : d.pkg = u.pkg := l.1 .pkg (by decide)
  unfold Chip.strapAddress
  refine ⟨⟨(Frame.ite _ (Frame.set_field (by decide) _ _) (Frame.refl _ _)).trans l.1, fun h => ?_⟩, fun h => ?_, fun h => ?_⟩
  · rw [← l.2.2 h]; split <;> rfl
  · rw [if_pos (by rw [pk]; exact h)]; exact ⟨congrArg PkgUnit.slot pk, rfl⟩
  · rw [if_neg (by rw [pk]; exact h)]
    have := l.2.1
    unfold AlarmsOnly at this
    rw [this]

/-- The heartbeat and the chain output change the field port alone, and no address (R474, R478). -/
theorem Chip.fieldStart_facts (old c : Chip) : Frame [.field] (Chip.fieldStart old c) c ∧ (Chip.fieldStart old c).field.addr = c.field.addr
    ∧ (Chip.fieldStart old c).field.source = c.field.source := by
  have hb : Frame [.field] c.heartbeat c ∧ c.heartbeat.field.addr = c.field.addr ∧ c.heartbeat.field.source = c.field.source := by
    unfold Chip.heartbeat Chip.sendFrame
    split
    · exact ⟨Frame.refl _ _, rfl, rfl⟩
    · dsimp only
      exact ⟨(Frame.set_field (by decide) _ _).trans (Frame.set_field (by decide) _ _), rfl, rfl⟩
  have pc : ∀ c : Chip, Frame [.field] c.passChain c ∧ c.passChain.field.addr = c.field.addr ∧ c.passChain.field.source = c.field.source := by
    intro c
    unfold Chip.passChain
    split
    · exact ⟨Frame.set_field (by decide) _ _, rfl, rfl⟩
    · exact ⟨Frame.refl _ _, rfl, rfl⟩
  unfold Chip.fieldStart
  split
  · obtain ⟨a, b, d⟩ := pc c.heartbeat
    exact ⟨a.trans hb.1, b.trans hb.2.1, d.trans hb.2.2⟩
  · exact ⟨Frame.refl _ _, rfl, rfl⟩

theorem Chip.domain_pos (c : Chip) (n : Nat) (h : 0 < n) : c.domain n = Tab.get .off c.mode.domains n := by
  unfold Chip.domain
  rw [if_neg (by omega)]

/-- A fold of appends changes what its steps change. -/
theorem foldl_snd_frame {l : List Part} (g : Bool × Chip → Nat → Bool × Chip) (h : ∀ a k, Frame l (g a k).2 a.2) :
    ∀ (xs : List Nat) (a : Bool × Chip), Frame l (xs.foldl g a).2 a.2 := by
  intro xs
  induction xs with
  | nil => exact fun a => Frame.refl _ _
  | cons x xs ih => exact fun a => (ih (g a x)).trans (h a x)

/-- Appending default records changes what an append changes (R481). -/
theorem Chip.restoreAll_frame (c : Chip) (keys : List Nat) : Frame sbParts (c.restoreAll keys).2 c := by
  unfold Chip.restoreAll
  refine foldl_snd_frame _ (fun a k => ?_) keys (true, c)
  unfold Chip.restoreOne
  split
  · exact Chip.sbAppend_frame _ _ _ _
  · exact Frame.refl _ _

/-- Restoring defaults appends records, and raises Seedbank's sources at most (R481). -/
theorem Chip.restoreDefaults_frame (c : Chip) : Frame sbParts c.restoreDefaults.2 c := by
  have h : ∀ r : Bool × Chip, Frame sbParts r.2 c → Frame sbParts (Chip.restoreAnswer r).2 c := fun _ h => h
  unfold Chip.restoreDefaults
  exact h _ (c.restoreAll_frame rwpKeys)

end Sys2Proof.Machine
end

