-- ==== Sys2Proof/Laws/Domains.lean ====
section
/-!
SUPPORT. Laws/Domains.lean: what a domain's change does when it begins and when it ends (R257, R533 to R538).
-/
namespace Sys2Proof.Machine

/-- What a line handed to its tier, keys in FAULT or not, and the expansion that it may start may change. -/
abbrev wayParts : List Part := [.cache, .lauter, .kiln, .dram, .mill, .husk, .poison, .integ, .fault, .heads, .field, .map]

theorem Chip.abandonPage_frame (c : Chip) (p : Nat) : Frame [.lauter, .kiln, .map] (c.abandonPage p) c := by
  unfold Chip.abandonPage
  split
  · next i m _ =>
    split
    · exact Frame.refl _ _
    · cases h : Tab.find c.lauter.slots i with
      | none => unfold Chip.abandon; rw [h]; exact Frame.refl _ _
      | some x => exact (c.abandon_facts i x h).1
  · exact Frame.refl _ _

theorem Chip.startExpansion_frame (c : Chip) (ln : Nat) : Frame [.lauter, .kiln, .map, .mill] (c.startExpansion ln) c := by
  unfold Chip.startExpansion Chip.beginExpansion
  dsimp only
  split
  · split
    · exact Frame.refl _ _
    · exact Frame.set_mill (by decide) _ _
  · exact (Frame.set_mill (by decide) _ _).trans ((c.abandonPage_frame _).mono (by decide))

/-- A line stored in HBM moves no line into or out of a way (R203, R204). -/
theorem Chip.storeHbm_ways (c : Chip) (ln : Nat) : Frame wayParts (c.storeHbm ln) c ∧ (c.storeHbm ln).cache = c.cache := by
  have k := c.useHbmKey_frame
  unfold Chip.storeHbm
  generalize c.useHbmKey = x at k
  obtain ⟨b, d⟩ := x
  cases b
  · exact ⟨((d.setPoison_frame _ true).mono (by decide)).trans (k.mono (by decide)),
      ((d.setPoison_frame _ true) .cache (by decide)).trans (k .cache (by decide))⟩
  · exact ⟨k.mono (by decide), k .cache (by decide)⟩

/-- A line handed to its tier, with its keys in order or not, moves no line into or out of a way (R238, R240, R243). -/
theorem Chip.tierWrite_ways (c : Chip) (ln : Nat) : Frame wayParts (c.tierWrite ln) c ∧ (c.tierWrite ln).cache.lines = c.cache.lines := by
  have hc : (c.catchMask ln).cache = c.cache := by
    unfold Chip.catchMask
    split
    · dsimp only
      split <;> rfl
    · rfl
  have h0 : Frame wayParts (c.catchMask ln) c := (c.catchMask_frame ln).mono (by decide)
  have st (d : Chip) (e : Frame wayParts d c ∧ d.cache = c.cache) :
      Frame wayParts (d.storeHbm ln) c ∧ (d.storeHbm ln).cache.lines = c.cache.lines :=
    ⟨(d.storeHbm_ways ln).1.trans e.1, by rw [(d.storeHbm_ways ln).2, e.2]⟩
  have last (d : Chip) (e : Frame wayParts d c ∧ d.cache = c.cache) : Frame wayParts (match Tab.find d.cache.macLines (macOf ln) with
      | some x => ({ d with cache := { d.cache with macLines := Tab.set d.cache.macLines (macOf ln) { x with dirty := true } } } : Chip)
      | none => d) c ∧ (match Tab.find d.cache.macLines (macOf ln) with
      | some x => ({ d with cache := { d.cache with macLines := Tab.set d.cache.macLines (macOf ln) { x with dirty := true } } } : Chip)
      | none => d).cache.lines = c.cache.lines := by
    split
    · exact ⟨(Frame.set_cache (by decide) d _).trans e.1, (congrArg (fun (c : CacheUnit) => c.lines) e.2 :)⟩
    · exact ⟨e.1, (congrArg (fun (c : CacheUnit) => c.lines) e.2 :)⟩
  have mark (d : Chip) (n g : Nat) (e : Frame wayParts d c ∧ d.cache = c.cache) :
      Frame wayParts (if (d.ddr n).freeze = 1 ∧ !(d.ddr n).stale.contains g then d.setDdr n { d.ddr n with stale := (d.ddr n).stale ++ [g] } else d) c
      ∧ (if (d.ddr n).freeze = 1 ∧ !(d.ddr n).stale.contains g then d.setDdr n { d.ddr n with stale := (d.ddr n).stale ++ [g] } else d).cache = c.cache := by
    split
    · exact ⟨(Frame.set_dram (by decide) d _).trans e.1, e.2⟩
    · exact e
  unfold Chip.tierWrite
  dsimp only
  split
  · exact st _ ⟨(Frame.set_kiln (by decide) _ _).trans h0, hc⟩
  · exact st _ ⟨h0, hc⟩
  · refine last _ ?_
    generalize hd : (if (c.catchMask ln).keyFault ln then (c.catchMask ln).setPoison (64 * ln) true else c.catchMask ln) = d
    have e : Frame wayParts d c ∧ d.cache = c.cache := by
      rw [← hd]
      split
      · have p := (c.catchMask ln).setPoison_frame (64 * ln) true
        exact ⟨(p.mono (by decide)).trans h0, (p .cache (by decide)).trans hc⟩
      · exact ⟨h0, hc⟩
    split
    · exact mark _ _ _ (mark _ _ _ e)
    · exact e
  · exact ⟨h0, congrArg (fun (c : CacheUnit) => c.lines) hc⟩

/-- A dirty line cleaned stays in its way, clean, and no other line's way changes (R243). -/
theorem Chip.cleanLine_ways (c : Chip) (ln : Nat) : Frame wayParts (c.cleanLine ln) c
    ∧ (∀ k, k ≠ ln → Tab.find (c.cleanLine ln).cache.lines k = Tab.find c.cache.lines k) ∧ (c.cleanLine ln).cachedDirty (64 * ln) = false := by
  unfold Chip.cleanLine
  split
  · next x e =>
    split
    · have r := c.retranslate_frame ln x.gen
      have t := (c.retranslate ln x.gen).tierWrite_ways ln
      refine ⟨(Frame.set_cache (by decide) _ _).trans (t.1.trans (r.mono (by decide))), fun k hk => ?_, ?_⟩
      · dsimp only
        rw [Tab.find_set_other _ _ hk, t.2, show (c.retranslate ln x.gen).cache = c.cache from r .cache (by decide)]
      · unfold Chip.cachedDirty Chip.cached lineNo
        dsimp only
        rw [show 64 * ln / 64 = ln by omega, Tab.find_set_same]
    · next h =>
      refine ⟨Frame.refl _ _, fun _ _ => rfl, ?_⟩
      unfold Chip.cachedDirty Chip.cached lineNo
      rw [show 64 * ln / 64 = ln by omega, e]
      simpa using h
  · next e =>
    refine ⟨Frame.refl _ _, fun _ _ => rfl, ?_⟩
    unfold Chip.cachedDirty Chip.cached lineNo
    rw [show 64 * ln / 64 = ln by omega, e]

/-- A line leaves its way unless it is dirty and its tier does not take it now; no other line's way changes (R256, R257). -/
theorem Chip.emptyLine_facts (c : Chip) (ln : Nat) : Frame wayParts (c.emptyLine ln) c
    ∧ (∀ k, k ≠ ln → Tab.find (c.emptyLine ln).cache.lines k = Tab.find c.cache.lines k)
    ∧ (c.cachedDirty (64 * ln) = false → Tab.find (c.emptyLine ln).cache.lines ln = none)
    ∧ (c.tierWait (64 * ln) = none → Tab.find (c.emptyLine ln).cache.lines ln = none) := by
  unfold Chip.emptyLine
  dsimp only
  generalize hd : (if c.cachedDirty (64 * ln) = true then c.writeback ln else c) = d
  have fd : Frame wayParts d c ∧ (∀ k, k ≠ ln → Tab.find d.cache.lines k = Tab.find c.cache.lines k)
      ∧ (c.cachedDirty (64 * ln) = false → d.cachedDirty (64 * ln) = false) ∧ (c.tierWait (64 * ln) = none → d.cachedDirty (64 * ln) = false) := by
    rw [← hd]
    split
    · next g =>
      refine ⟨?_, ?_, fun z => absurd (z.symm.trans g) (by decide), fun z => ?_⟩
      · unfold Chip.writeback
        split
        · exact (c.cleanLine_ways ln).1
        · exact (c.startExpansion_frame ln).mono (by decide)
        · exact Frame.refl _ _
      · intro k hk
        unfold Chip.writeback
        split
        · exact (c.cleanLine_ways ln).2.1 k hk
        · rw [show (c.startExpansion ln).cache = c.cache from c.startExpansion_frame ln .cache (by decide)]
        · rfl
      · unfold Chip.writeback
        rw [z]
        exact (c.cleanLine_ways ln).2.2
    · next g => exact ⟨Frame.refl _ _, fun _ _ => rfl, fun z => z, fun _ => by simpa using g⟩
  have dc : ∀ u : Chip, Frame wayParts (u.dropCached ln) u ∧ (∀ k, k ≠ ln → Tab.find (u.dropCached ln).cache.lines k = Tab.find u.cache.lines k)
      ∧ Tab.find (u.dropCached ln).cache.lines ln = none :=
    fun u => ⟨Frame.set_cache (by decide) u _, fun k hk => Tab.find_del_other _ hk, Tab.find_del_same _ _⟩
  obtain ⟨f1, f2, f3, f4⟩ := fd
  split
  · next g =>
    exact ⟨f1, f2, fun z => absurd ((f3 z).symm.trans g) (by decide), fun z => absurd ((f4 z).symm.trans g) (by decide)⟩
  · exact ⟨(dc d).1.trans f1, fun k hk => ((dc d).2.1 k hk).trans (f2 k hk), fun _ => (dc d).2.2, fun _ => (dc d).2.2⟩

/-- Ways cleaned hold none of their lines that were clean, and nothing but the tiers, the ways and what an expansion starts differs
(R256, R257). -/
theorem Chip.cleanWays_facts (c : Chip) (ws : List Nat) : Frame wayParts (c.cleanWays ws) c
    ∧ (∀ ln ∈ c.linesIn ws, c.cachedDirty (64 * ln) = false → Tab.find (c.cleanWays ws).cache.lines ln = none)
    ∧ ∀ k, k ∉ c.linesIn ws → Tab.find (c.cleanWays ws).cache.lines k = Tab.find c.cache.lines k := by
  have go : ∀ (l : List Nat) (d : Chip),
      let e := l.foldl (fun (s : Chip) ln => s.emptyLine ln) d
      Frame wayParts e d ∧ (∀ k, Tab.find d.cache.lines k = none → Tab.find e.cache.lines k = none)
        ∧ (∀ k ∈ l, d.cachedDirty (64 * k) = false → Tab.find e.cache.lines k = none)
        ∧ ∀ k, k ∉ l → Tab.find e.cache.lines k = Tab.find d.cache.lines k := by
    intro l
    induction l with
    | nil => exact fun d => ⟨Frame.refl _ _, fun _ h => h, fun k h => absurd h (by simp), fun _ _ => rfl⟩
    | cons x l ih =>
      intro d
      dsimp only
      rw [List.foldl_cons]
      obtain ⟨a1, a2, a3, -⟩ := d.emptyLine_facts x
      obtain ⟨b1, b2, b3, b4⟩ := ih (d.emptyLine x)
      have gone : ∀ k, Tab.find d.cache.lines k = none → Tab.find (d.emptyLine x).cache.lines k = none := by
        intro k hk
        by_cases z : k = x
        · rw [z]
          refine a3 ?_
          unfold Chip.cachedDirty Chip.cached lineNo
          rw [show 64 * x / 64 = x by omega, ← z, hk]
        · rw [a2 k z, hk]
      have still : ∀ k, d.cachedDirty (64 * k) = false → (d.emptyLine x).cachedDirty (64 * k) = false ∨ k = x := by
        intro k hk
        by_cases z : k = x
        · exact Or.inr z
        · refine Or.inl ?_
          unfold Chip.cachedDirty Chip.cached lineNo at hk ⊢
          rw [show 64 * k / 64 = k by omega] at hk ⊢
          rw [a2 k z]; exact hk
      refine ⟨b1.trans a1, fun k hk => b2 k (gone k hk), fun k hk hc => ?_, fun k hk => ?_⟩
      · rcases still k hc with h | h
        · rcases List.mem_cons.mp hk with g | g
          · subst g; exact b2 k (a3 hc)
          · exact b3 k g h
        · subst h; exact b2 k (a3 hc)
      · rw [List.mem_cons, not_or] at hk
        rw [b4 k hk.2, a2 k hk.1]
  obtain ⟨a, -, b, e⟩ := go (c.linesIn ws) c
  exact ⟨a, b, e⟩

theorem Chip.domain_setDomain (c : Chip) (n k : Nat) (x : DomPower) (h : 0 < k) : (c.setDomain n x).domain k = if k = n then x else c.domain k := by
  rw [Chip.domain_pos _ _ h, Chip.domain_pos _ _ h]
  unfold Chip.setDomain
  dsimp only
  rw [Tab.get_put]

theorem Chip.domain_zero {a b : Chip} (h : a.power = b.power) : a.domain 0 = b.domain 0 := by
  unfold Chip.domain
  rw [h, if_pos rfl, if_pos rfl]

/-- A change that begins (R533): the domain is CHANGING and what it goes to is held; links of a Semund domain go down with cause 9, and a
CACHE domain's ways hold no clean line. -/
theorem Chip.beginDomain_facts (c : Chip) (n t : Nat) (hn : 0 < n) :
    (c.beginDomain n t).domain n = .changing ∧ (∀ k, k ≠ n → (c.beginDomain n t).domain k = c.domain k)
    ∧ Tab.find (c.beginDomain n t).mode.target n = some (c.domainTarget n t) ∧ (c.beginDomain n t).mode.current = c.mode.current
    ∧ (n < 29 → Frame [.mode, .links] (c.beginDomain n t) c) ∧ (t = 2 → Frame [.mode] (c.beginDomain n t) c)
    ∧ Frame (.mode :: .links :: wayParts) (c.beginDomain n t) c
    ∧ (t ≠ 2 → (c.domain n = .on ∨ c.domain n = .onHeld) → 29 ≤ n → ∀ ln ∈ c.linesIn (domainWays n),
        c.cachedDirty (64 * ln) = false → Tab.find (c.beginDomain n t).cache.lines ln = none)
    ∧ (t ≠ 2 → (c.domain n = .on ∨ c.domain n = .onHeld) → 5 ≤ n → n ≤ 8 → ∀ l, l = 2 * (n - 5) ∨ l = 2 * (n - 5) + 1 →
        (c.link l).want = none → ((c.link l).st = .training ∨ (c.link l).st = .active ∨ (c.link l).st = .changing) →
        ((c.beginDomain n t).link l).want = some 9) := by
  obtain ⟨lv, hlv⟩ : ∃ lv : Bool, decide (t ≠ 2 ∧ (c.domain n = .on ∨ c.domain n = .onHeld)) = lv := ⟨_, rfl⟩
  obtain ⟨d, hd⟩ : ∃ d, (if (lv && decide (5 ≤ n ∧ n ≤ 8)) = true then (c.wantDown (2 * (n - 5)) 9).wantDown (2 * (n - 5) + 1) 9 else c) = d := ⟨_, rfl⟩
  obtain ⟨o1, w1, e1⟩ := Chip.wantDown_facts c (2 * (n - 5)) 9
  obtain ⟨o2, w2, e2⟩ := Chip.wantDown_facts (c.wantDown (2 * (n - 5)) 9) (2 * (n - 5) + 1) 9
  have df : Frame [.links] d c := by
    rw [← hd]
    exact Frame.ite _ (o2.2.trans o1.2) (Frame.refl _ _)
  obtain ⟨e, he⟩ : ∃ e, (if (lv && decide (29 ≤ n)) = true then d.cleanWays (domainWays n) else d) = e := ⟨_, rfl⟩
  obtain ⟨f1, f2, -⟩ := d.cleanWays_facts (domainWays n)
  have ef : Frame wayParts e d := by rw [← he]; exact Frame.ite _ f1 (Frame.refl _ _)
  have key : c.beginDomain n t = { e.setDomain n .changing with mode := { (e.setDomain n .changing).mode with target := Tab.set (e.setDomain n .changing).mode.target n (c.domainTarget n t) } } := by
    unfold Chip.beginDomain
    dsimp only
    rw [hlv, hd, he]
  have em : e.mode = c.mode := (ef .mode (by decide)).trans (df .mode (by decide))
  have ep : e.power = c.power := (ef .power (by decide)).trans (df .power (by decide))
  have last : Frame [.mode] (c.beginDomain n t) e := by
    have a : Frame [.mode] (e.setDomain n .changing) e := Frame.set_mode (by decide) _ _
    rw [key]
    exact (Frame.set_mode (by decide) (e.setDomain n .changing) _).trans a
  have dk : ∀ k, 0 < k → (c.beginDomain n t).domain k = (e.setDomain n .changing).domain k := by
    intro k hk
    rw [Chip.domain_pos _ _ hk, Chip.domain_pos _ _ hk, key]
  refine ⟨?_, fun k hk => ?_, ?_, ?_, fun z => ?_, fun z => ?_, ?_, fun a b x ln hl hz => ?_, fun a b x y l hl hw hs => ?_⟩
  · rw [dk n hn, Chip.domain_setDomain _ _ _ _ hn, if_pos rfl]
  · by_cases z : k = 0
    · rw [z]; exact Chip.domain_zero ((last .power (by decide)).trans ep)
    · have z' : 0 < k := by omega
      rw [dk k z', Chip.domain_setDomain _ _ _ _ z', if_neg hk, Chip.domain_pos _ _ z', Chip.domain_pos _ _ z', em]
  · rw [key]; exact Tab.find_set_same _ _ _
  · rw [key]; show e.mode.current = _; rw [em]
  · have : e = d := by rw [← he, if_neg (by simp; omega)]
    exact (last.mono (by decide)).trans (by rw [this]; exact df.mono (by decide))
  · have hl : lv = false := by rw [← hlv]; simp [z]
    have h1 : d = c := by rw [← hd, hl]; rfl
    have h2 : e = d := by rw [← he, hl]; rfl
    rw [← h1, ← h2]
    rw [h1] at h2
    rw [h2]
    rw [h2] at last
    exact last
  · exact (last.mono (by decide)).trans ((ef.mono (by decide)).trans (df.mono (by decide)))
  · have hv : lv = true := by rw [← hlv]; simp [a, b]
    have h1 : d = c := by rw [← hd, if_neg (by simp; omega)]
    have h2 : e = d.cleanWays (domainWays n) := by rw [← he, if_pos (by simp [hv, x])]
    have : (c.beginDomain n t).cache = e.cache := last .cache (by decide)
    rw [this, h2]
    rw [h1] at f2 ⊢
    exact f2 ln hl hz
  · have hl' : lv = true := by rw [← hlv]; simp [a, b]
    have h1 : d = (c.wantDown (2 * (n - 5)) 9).wantDown (2 * (n - 5) + 1) 9 := by rw [← hd, if_pos (by simp [hl', x, y])]
    have h2 : (c.beginDomain n t).link l = d.link l := by
      rw [Chip.link_of_frame last (by decide)]
      exact Chip.link_of_frame ef (by decide) l
    have one : ∀ (u : Chip) l, (u.link l).want = none → ((u.link l).st = .training ∨ (u.link l).st = .active ∨ (u.link l).st = .changing) →
        ((u.wantDown l 9).link l).want = some 9 := by
      intro u l p q
      unfold Chip.wantDown
      dsimp only
      rw [if_pos ⟨p, q⟩, Chip.link_setLink]
    rw [h2, h1]
    rcases hl with rfl | rfl
    · rw [o2.1 _ (by omega)]
      exact one c _ hw hs
    · have : (c.wantDown (2 * (n - 5)) 9).link (2 * (n - 5) + 1) = c.link (2 * (n - 5) + 1) := o1.1 _ (by omega)
      exact one _ _ (by rw [this]; exact hw) (by rw [this]; exact hs)

/-- What the end of a change may change. -/
abbrev changeParts : List Part := [.mode, .win, .cache, .links, .heads, .dram, .lauter, .kiln, .husk, .casks, .sb, .fault, .field, .free]

theorem Chip.endDomainOp_frame (c : Chip) (n : Nat) : Frame [.win] (c.endDomainOp n) c := by
  unfold Chip.endDomainOp
  split
  · split
    · exact Frame.ite _ (Frame.set_win (by decide) _ _) (Frame.refl _ _)
    · exact Frame.ite _ (Frame.set_win (by decide) _ _) (Frame.refl _ _)
    · exact Frame.refl _ _
  · exact Frame.refl _ _

theorem Chip.domainLost_frame (c : Chip) (n : Nat) : Frame [.heads, .dram, .kiln, .husk, .casks] (c.domainLost n) c := by
  unfold Chip.domainLost
  split
  · exact Frame.foldl _ _ (fun d h => Frame.ite _ (Frame.set_heads (by decide) _ _) (Frame.refl _ _)) _
  · split
    · exact Frame.set_dram (by decide) _ _
    · split
      · exact Frame.set_kiln (by decide) _ _
      · split
        · have a : Frame [.heads, .dram, .kiln, .husk, .casks] ({ c with husk := { c.husk with linkSlots := [], active := 0, switching := 0 } } : Chip) c :=
            Frame.set_husk (by decide) _ _
          exact (Frame.set_casks (by decide) _ _).trans a
        · exact Frame.refl _ _

theorem Chip.bringUp_frame (c : Chip) (n : Nat) (off : Bool) (ddr : List DdrFound) (nvm : List NvmFound) :
    Frame [.links, .dram, .kiln, .lauter, .sb, .fault, .heads, .field, .free] (c.bringUp n off ddr nvm) c := by
  unfold Chip.bringUp
  split
  · exact Frame.foldl _ _ (fun d l => Frame.ite _ (Frame.set_links (by decide) _ _) (Frame.refl _ _)) _
  · split
    · split
      · exact (c.trainDdr_facts _).1.mono (by decide)
      · exact Frame.ite _ ((Frame.set_lauter (by decide) _ _).trans (Frame.set_dram (by decide) c _)) (Frame.refl _ _)
    · split
      · exact (c.classifyRoots_frame _ _).mono (by decide)
      · exact Frame.refl _ _

/-- What a domain reaches at the end of its change (R536, R538). -/
theorem Chip.domainChangeEnd_facts (c : Chip) (n : Nat) (ddr : List DdrFound) (nvm : List NvmFound) (h : c.domain n = .changing)
    (w : 29 ≤ n → Tab.get 0 c.mode.target n ≤ 1 → c.waysEmpty (domainWays n) = true) :
    (c.domainChangeEnd n ddr nvm).domain n = (match Tab.get 0 c.mode.target n with | 0 => .off | 1 => .retention | 3 => .onHeld | _ => .on)
    ∧ (∀ k, k ≠ n → (c.domainChangeEnd n ddr nvm).domain k = c.domain k)
    ∧ Tab.find (c.domainChangeEnd n ddr nvm).mode.target n = none
    ∧ (c.domainChangeEnd n ddr nvm).mode.padsHeld = (if Tab.get 0 c.mode.target n = 3 then setBit c.mode.padsHeld n true else c.mode.padsHeld)
    ∧ Frame changeParts (c.domainChangeEnd n ddr nvm) c
    ∧ (Tab.get 0 c.mode.target n = 1 ∨ Tab.get 0 c.mode.target n = 3 → Frame [.mode, .win, .cache] (c.domainChangeEnd n ddr nvm) c
        ∧ (n < 29 → (c.domainChangeEnd n ddr nvm).cache = c.cache))
    ∧ (Tab.get 0 c.mode.target n = 0 → 9 ≤ n → n ≤ 16 → ((c.domainChangeEnd n ddr nvm).ddr (n - 9)).train = 0)
    ∧ (Tab.get 0 c.mode.target n = 0 → n = 27 → (c.domainChangeEnd n ddr nvm).husk.linkSlots = []
        ∧ ∀ e ∈ (c.domainChangeEnd n ddr nvm).casks, e.2.keyState ≠ .loaded)
    ∧ (Tab.get 0 c.mode.target n = 4 → 9 ≤ n → n ≤ 16 → ∀ f, ddr.find? (fun f => decide (f.ch.val = n - 9)) = some f →
        ((c.domainChangeEnd n ddr nvm).ddr (n - 9)).dimms = f.dimms) := by
  have hn : 0 < n := by
    by_contra z
    have z' : n = 0 := by omega
    subst z'
    unfold Chip.domain at h
    rw [if_pos rfl] at h
    split at h <;> cases h
  obtain ⟨d, hd⟩ : ∃ d : Chip, (if 29 ≤ n ∧ Tab.get 0 c.mode.target n ≤ 1 then c.dropMacs (domainWays n) else c) = d := ⟨_, rfl⟩
  have fd : Frame [.cache] d c := by rw [← hd]; exact Frame.ite _ (Frame.set_cache (by decide) c _) (Frame.refl _ _)
  have dm : d.mode = c.mode := fd .mode (by decide)
  obtain ⟨a, ha⟩ : ∃ a : Chip, ({ d with mode := { d.mode with target := Tab.del d.mode.target n } } : Chip).endDomainOp n = a := ⟨_, rfl⟩
  have a0 := Chip.endDomainOp_frame ({ d with mode := { d.mode with target := Tab.del d.mode.target n } } : Chip) n
  rw [ha] at a0
  have af : Frame [.mode, .win, .cache] a c := (a0.mono (by decide)).trans ((Frame.set_mode (by decide) _ _).trans (fd.mono (by decide)))
  have am : a.mode = { c.mode with target := Tab.del c.mode.target n } := by rw [← dm]; exact a0 .mode (by decide)
  have ac : n < 29 → a.cache = c.cache := fun z => by
    rw [show a.cache = d.cache from a0 .cache (by decide), ← hd, if_neg (fun y => by omega)]
  -- the domain takes a state, and what follows changes neither the modes nor the power
  have fin : ∀ (x : DomPower) (t : Chip) (l : List Part), Frame l t (a.setDomain n x) → Part.mode ∉ l → Part.power ∉ l →
      t.domain n = x ∧ (∀ k, k ≠ n → t.domain k = c.domain k) ∧ Tab.find t.mode.target n = none ∧ t.mode.padsHeld = c.mode.padsHeld := by
    intro x t l hf m1 m2
    have tm : t.mode = (a.setDomain n x).mode := hf .mode m1
    have dd : ∀ k, t.domain k = (a.setDomain n x).domain k := fun k => Chip.domain_of_frame hf m1 m2 k
    refine ⟨by rw [dd, Chip.domain_setDomain _ _ _ _ hn, if_pos rfl], fun k hk => ?_, ?_, ?_⟩
    · rw [dd]
      by_cases z : k = 0
      · rw [z]; exact Chip.domain_zero (af .power (by decide))
      · have z' : 0 < k := by omega
        rw [Chip.domain_setDomain _ _ _ _ z', if_neg hk, Chip.domain_pos _ _ z', Chip.domain_pos _ _ z', am]
    · rw [tm]; show Tab.find a.mode.target n = none; rw [am]; exact Tab.find_del_same _ _
    · rw [tm]; show a.mode.padsHeld = _; rw [am]
  have sf : ∀ x, Frame [.mode, .win, .cache] (a.setDomain n x) c := fun x => (Frame.set_mode (by decide) _ _).trans af
  have key : c.domainChangeEnd n ddr nvm = (match Tab.get 0 c.mode.target n with
    | 0 => (a.setDomain n .off).domainLost n
    | 1 => a.setDomain n .retention
    | 2 => (a.setDomain n .on).bringUp n false ddr nvm
    | 3 => { a.setDomain n .onHeld with mode := { (a.setDomain n .onHeld).mode with padsHeld := setBit (a.setDomain n .onHeld).mode.padsHeld n true } }
    | _ => (a.setDomain n .on).bringUp n true ddr nvm) := by
    unfold Chip.domainChangeEnd
    rw [if_neg (by simp [h]), if_neg (by rintro ⟨p, q, r⟩; rw [w p q] at r; cases r)]
    dsimp only
    rw [hd, ha]
    try (generalize Tab.get 0 c.mode.target n = v; rcases v with _ | _ | _ | _ | _ <;> rfl)
  generalize Tab.get 0 c.mode.target n = tg at key ⊢
  rcases tg with _ | _ | _ | _ | k
  · have l := (a.setDomain n .off).domainLost_frame n
    obtain ⟨p, q, r, w⟩ := fin _ _ _ l (by decide) (by decide)
    replace key : c.domainChangeEnd n ddr nvm = (a.setDomain n .off).domainLost n := key
    rw [key]
    refine ⟨p, q, r, w, (l.mono (by decide)).trans ((sf _).mono (by decide)), fun z => by simp at z, fun _ x y => ?_, fun _ x => ?_, fun z => by simp at z⟩
    · unfold Chip.domainLost
      rw [if_neg (by omega), if_pos ⟨x, y⟩, Chip.ddr_setDdr]
    · unfold Chip.domainLost
      rw [if_neg (by omega), if_neg (by omega), if_neg (by omega), if_pos x]
      refine ⟨rfl, fun e he => ?_⟩
      obtain ⟨y, _, rfl⟩ := List.mem_map.mp he
      dsimp only
      split
      · intro z; cases z
      · assumption
  · obtain ⟨p, q, r, w⟩ := fin .retention _ [] (Frame.refl _ _) (by decide) (by decide)
    replace key : c.domainChangeEnd n ddr nvm = a.setDomain n .retention := key
    rw [key]
    exact ⟨p, q, r, w, (sf _).mono (by decide), fun _ => ⟨sf _, ac⟩, fun z => by simp at z, fun z => by simp at z, fun z => by simp at z⟩
  · have l := (a.setDomain n .on).bringUp_frame n false ddr nvm
    obtain ⟨p, q, r, w⟩ := fin _ _ _ l (by decide) (by decide)
    replace key : c.domainChangeEnd n ddr nvm = (a.setDomain n .on).bringUp n false ddr nvm := key
    rw [key]
    exact ⟨p, q, r, w, (l.mono (by decide)).trans ((sf _).mono (by decide)), fun z => by simp at z, fun z => by simp at z, fun z => by simp at z, fun z => by simp at z⟩
  · obtain ⟨p, q, r, w⟩ := fin .onHeld _ [] (Frame.refl _ _) (by decide) (by decide)
    obtain ⟨b, hb⟩ : ∃ b, a.setDomain n .onHeld = b := ⟨_, rfl⟩
    replace key : c.domainChangeEnd n ddr nvm = { a.setDomain n .onHeld with mode := { (a.setDomain n .onHeld).mode with padsHeld := setBit (a.setDomain n .onHeld).mode.padsHeld n true } } := key
    rw [key]
    dsimp only
    have bf := sf .onHeld
    have bc : n < 29 → b.cache = c.cache := by rw [← hb]; exact ac
    rw [hb] at p q r w bf ⊢
    have ff : Frame [.mode, .win, .cache] ({ b with mode := { b.mode with padsHeld := setBit b.mode.padsHeld n true } } : Chip) c := (Frame.set_mode (by decide) _ _).trans bf
    exact ⟨p, q, r, by rw [w]; rfl, ff.mono (by decide), fun _ => ⟨ff, bc⟩, fun z => by simp at z, fun z => by simp at z, fun z => by simp at z⟩
  · have l := (a.setDomain n .on).bringUp_frame n true ddr nvm
    obtain ⟨p, q, r, w⟩ := fin _ _ _ l (by decide) (by decide)
    replace key : c.domainChangeEnd n ddr nvm = (a.setDomain n .on).bringUp n true ddr nvm := key
    rw [key]
    refine ⟨p, q, r, by rw [w, if_neg (by omega)], (l.mono (by decide)).trans ((sf _).mono (by decide)), fun z => by simp at z, fun z => by simp at z, fun z => by simp at z, fun _ x y f hf => ?_⟩
    have : (a.setDomain n .on).bringUp n true ddr nvm = (a.setDomain n .on).trainDdr f := by
      unfold Chip.bringUp
      rw [if_neg (by omega), if_pos ⟨x, y⟩, hf]
    have fc : f.ch.val = n - 9 := by simpa using List.find?_some hf
    show (Chip.ddr ((a.setDomain n .on).bringUp n true ddr nvm) (n - 9)).dimms = _
    rw [this, ← fc]
    exact ((a.setDomain n .on).trainDdr_facts f).2.2.1

end Sys2Proof.Machine
end

