-- ==== Sys2Proof/Laws/Collect.lean ====
section
/-!
SUPPORT. Laws/Collect.lean: the fault collector's bytes, SAFE requests, snapshots and filters (R530, R544, R550, R557, R562).
-/
namespace Sys2Proof.Machine

theorem bitsOf_eq (v lo w : Nat) : bitsOf v lo w = v / 2 ^ lo % 2 ^ w := by
  unfold bitsOf
  rw [Nat.shiftRight_eq_div_pow]

/-- The number whose field is replaced: what is above, the field, what is below. -/
theorem setField_eq (v lo w x : Nat) : setField v lo w x = (v / 2 ^ lo / 2 ^ w * 2 ^ w + x % 2 ^ w) * 2 ^ lo + v % 2 ^ lo := by
  unfold setField
  rw [bitsOf_eq]
  have h1 := Nat.div_add_mod v (2 ^ lo)
  have h2 := Nat.div_add_mod (v / 2 ^ lo) (2 ^ w)
  generalize v / 2 ^ lo = q at *
  generalize v % 2 ^ lo = r at *
  generalize q / 2 ^ w = a at *
  generalize q % 2 ^ w = f at *
  have : v = (2 ^ w * a) * 2 ^ lo + f * 2 ^ lo + r := by rw [← h1, ← h2]; ring
  rw [this]
  have e : 2 ^ w * a * 2 ^ lo + f * 2 ^ lo + r - f * 2 ^ lo = 2 ^ w * a * 2 ^ lo + r := by omega
  rw [e]
  ring

theorem bitsOf_setField (v lo w x : Nat) : bitsOf (setField v lo w x) lo w = x % 2 ^ w := by
  rw [bitsOf_eq, setField_eq]
  have hp : 0 < 2 ^ lo := Nat.two_pow_pos _
  have h1 : ((v / 2 ^ lo / 2 ^ w * 2 ^ w + x % 2 ^ w) * 2 ^ lo + v % 2 ^ lo) / 2 ^ lo = v / 2 ^ lo / 2 ^ w * 2 ^ w + x % 2 ^ w := by
    rw [Nat.add_comm, Nat.add_mul_div_right _ _ hp, Nat.div_eq_of_lt (Nat.mod_lt _ hp), Nat.zero_add]
  rw [h1, Nat.add_comm, Nat.add_mul_mod_self_right, Nat.mod_mod]

/-- A field apart from the one replaced keeps its value. -/
theorem bitsOf_setField_other (v lo w x j u : Nat) (h : j + u ≤ lo ∨ lo + w ≤ j) : bitsOf (setField v lo w x) j u = bitsOf v j u := by
  rw [bitsOf_eq, bitsOf_eq]
  have hp : 0 < 2 ^ lo := Nat.two_pow_pos _
  have hw : 0 < 2 ^ w := Nat.two_pow_pos _
  rcases h with h | h
  · have low : ∀ y : Nat, y / 2 ^ j % 2 ^ u = y % 2 ^ lo / 2 ^ j % 2 ^ u := by
      intro y
      obtain ⟨d, rfl⟩ : ∃ d, lo = j + u + d := ⟨lo - (j + u), by omega⟩
      have a : ∀ z : Nat, z / 2 ^ j % 2 ^ u = z % (2 ^ j * 2 ^ u) / 2 ^ j := fun z => (Nat.mod_mul_right_div_self z (2 ^ j) (2 ^ u)).symm
      rw [a y, a (y % 2 ^ (j + u + d)), Nat.mod_mod_of_dvd]
      exact ⟨2 ^ d, by rw [Nat.pow_add, Nat.pow_add]⟩
    rw [low, low v, setField_eq, Nat.add_comm, Nat.add_mul_mod_self_right, Nat.mod_mod]
  · obtain ⟨d, rfl⟩ : ∃ d, j = lo + w + d := ⟨j - (lo + w), by omega⟩
    have high : ∀ y : Nat, y / 2 ^ (lo + w + d) = y / 2 ^ lo / 2 ^ w / 2 ^ d := by
      intro y
      rw [Nat.pow_add, Nat.pow_add, ← Nat.div_div_eq_div_mul, ← Nat.div_div_eq_div_mul]
    have top : setField v lo w x / 2 ^ lo / 2 ^ w = v / 2 ^ lo / 2 ^ w := by
      rw [setField_eq]
      have h1 : ((v / 2 ^ lo / 2 ^ w * 2 ^ w + x % 2 ^ w) * 2 ^ lo + v % 2 ^ lo) / 2 ^ lo = v / 2 ^ lo / 2 ^ w * 2 ^ w + x % 2 ^ w := by
        rw [Nat.add_comm, Nat.add_mul_div_right _ _ hp, Nat.div_eq_of_lt (Nat.mod_lt _ hp), Nat.zero_add]
      rw [h1, Nat.add_comm, Nat.add_mul_div_right _ _ hw, Nat.div_eq_of_lt (Nat.mod_lt _ hw), Nat.zero_add]
    rw [high, high v, top]

/-- Raising a source counts no self-check error. -/
theorem Chip.raise_errors (s : Chip) (n m d : Nat) (b : Block) (hs : List Nat) : (s.raise n m d b hs).fault.integrityErrors = s.fault.integrityErrors := by
  have st (c : Chip) (p : Prop) [Decidable p] (f : Chip → Chip) (hf : ∀ x : Chip, (f x).fault.integrityErrors = x.fault.integrityErrors)
      (hc : c.fault.integrityErrors = s.fault.integrityErrors) : (if p then f c else c).fault.integrityErrors = s.fault.integrityErrors := by
    split
    · rw [hf, hc]
    · exact hc
  have re (c : Chip) (rise : Bool) (hc : c.fault.integrityErrors = s.fault.integrityErrors) :
      (c.react n m d b rise hs).fault.integrityErrors = s.fault.integrityErrors := by
    refine st _ _ (fun c => { c with fault := { c.fault with wantSafe := true } }) (fun _ => rfl) ?_
    refine st _ _ (fun c => { c with fault := { c.fault with wantChip := true } }) (fun _ => rfl) ?_
    refine st _ _ (fun c => { c with fault := { c.fault with wantBlocks := c.fault.wantBlocks ++ [b] } }) (fun _ => rfl) ?_
    refine st _ _ (fun c => c.queueAlarm (c.alarmBytes n m)) (fun x => by rw [Chip.queueAlarm_fault]) ?_
    refine st _ _ (fun c => { c with fault := { c.fault with nmis := c.fault.nmis + 1 } }) (fun _ => rfl) ?_
    exact st _ _ (fun c => c.postEvent hs _ _) (fun x => by rw [Chip.postEvent_fault]) hc
  unfold Chip.raise
  dsimp only
  split
  · exact re _ _ rfl
  · split <;> rfl

/-- The reactions of a byte (R545): the traps counted, and the resets and the SAFE request to act. -/
theorem Chip.react_asks (s : Chip) (n m d : Nat) (b : Block) (rise : Bool) (hs : List Nat) :
    (s.react n m d b rise hs).fault = { s.fault with
      nmis := s.fault.nmis + (bitOf (s.faultByte n) 3).toNat
      wantBlocks := if bitOf (s.faultByte n) 4 then s.fault.wantBlocks ++ [b] else s.fault.wantBlocks
      wantChip := s.fault.wantChip || bitOf (s.faultByte n) 5
      wantSafe := s.fault.wantSafe || (decide (s.faultByte n % 4 = 3) && !bitOf (s.faultByte n) 5) } := by
  have pe : ∀ (c : Chip) (p : Prop) [Decidable p] sev r, (if p then c.postEvent hs sev r else c).fault = c.fault := by
    intro c p _ sev r
    split
    · exact c.postEvent_fault hs sev r
    · rfl
  have qa : ∀ (c : Chip) (p : Prop) [Decidable p] f, (if p then c.queueAlarm f else c).fault = c.fault := by
    intro c p _ f
    split
    · exact c.queueAlarm_fault f
    · rfl
  unfold Chip.react
  extract_lets v c1 s1 c2 c3 s2 c4 s3 c5
  have f1 : c1.fault = s.fault := pe _ _ _ _
  have f2 : c2.fault = { s.fault with nmis := s.fault.nmis + (bitOf v 3).toNat } := by
    show (if bitOf v 3 = true then ({ c1 with fault := { c1.fault with nmis := c1.fault.nmis + 1 } } : Chip) else c1).fault = _
    cases bitOf v 3
    · exact f1
    · show ({ c1.fault with nmis := c1.fault.nmis + 1 } : FaultUnit) = _
      rw [f1]; rfl
  have f3 : c3.fault = c2.fault := qa _ _ _
  have f4 : c4.fault = { c3.fault with wantBlocks := if bitOf v 4 then c3.fault.wantBlocks ++ [b] else c3.fault.wantBlocks } := by
    show (if bitOf v 4 = true then ({ c3 with fault := { c3.fault with wantBlocks := c3.fault.wantBlocks ++ [b] } } : Chip) else c3).fault = _
    cases bitOf v 4 <;> rfl
  have f5 : c5.fault = { c4.fault with wantChip := c4.fault.wantChip || bitOf v 5 } := by
    show (if bitOf v 5 = true then ({ c4 with fault := { c4.fault with wantChip := true } } : Chip) else c4).fault = _
    cases bitOf v 5
    · rw [Bool.or_false]; rfl
    · rw [Bool.or_true]; rfl
  have f6 : (if v % 4 = 3 ∧ (!bitOf v 5) = true then ({ c5 with fault := { c5.fault with wantSafe := true } } : Chip) else c5).fault
      = { c5.fault with wantSafe := c5.fault.wantSafe || (decide (v % 4 = 3) && !bitOf v 5) } := by
    by_cases z : v % 4 = 3 ∧ (!bitOf v 5) = true
    · rw [if_pos z, z.2, decide_eq_true z.1, Bool.and_true, Bool.or_true]
    · rw [if_neg z]
      have : (decide (v % 4 = 3) && !bitOf v 5) = false := by
        rw [Bool.and_eq_false_iff]
        by_cases q : v % 4 = 3
        · exact Or.inr (by cases e : (!bitOf v 5) <;> simp_all)
        · exact Or.inl (decide_eq_false q)
      rw [this, Bool.or_false]
  rw [f6, f5, f4, f3, f2]

/-- What an occurrence asks for while the collector works (R543, R545). -/
theorem Chip.raise_asks (s : Chip) (n m d : Nat) (b : Block) (hs : List Nat) (h1 : s.coreOn = true) (h2 : s.mode.current ≠ .recall) :
    (s.raise n m d b hs).fault = { s.fault with
      sticky := setBit s.fault.sticky n true
      nmis := s.fault.nmis + (bitOf (s.faultByte n) 3).toNat
      wantBlocks := if bitOf (s.faultByte n) 4 then s.fault.wantBlocks ++ [b] else s.fault.wantBlocks
      wantChip := s.fault.wantChip || bitOf (s.faultByte n) 5
      wantSafe := s.fault.wantSafe || (decide (s.faultByte n % 4 = 3) && !bitOf (s.faultByte n) 5) } := by
  have e : s.raise n m d b hs = Chip.react { s with fault := { s.fault with sticky := setBit s.fault.sticky n true } } n m d b (!s.sticky n) hs := by
    unfold Chip.raise
    dsimp only
    have g : (({ s with fault := { s.fault with sticky := setBit s.fault.sticky n true } } : Chip).coreOn
        && decide (s.mode.current ≠ .recall)) = true := by
      have : ({ s with fault := { s.fault with sticky := setBit s.fault.sticky n true } } : Chip).coreOn = s.coreOn := rfl
      rw [this, h1]
      simp [h2]
    rw [if_pos g]
  rw [e]
  exact Chip.react_asks _ _ _ _ _ _ _

/-- What a SAFE request may change. -/
abbrev safeParts : List Part := .lauter :: .mode :: leaveParts

/-- SAFE is entered, or a request is held, or the mode has none to make (R528, R531, R532). -/
theorem Chip.requestSafe_facts (c : Chip) : Frame safeParts c.requestSafe c
    ∧ ((c.mode.current = .drain ∨ c.mode.current = .persist) → c.requestSafe.fault = { c.fault with safeHeld := true } ∧ c.requestSafe.mode = c.mode)
    ∧ ((c.mode.current = .service ∨ c.mode.current = .diagnosis ∨ c.mode.current = .configuring ∨ c.mode.current = .training ∨ c.mode.current = .recall
        ∨ c.mode.current = .unaddressed) → c.requestSafe.mode = { c.mode with current := .safe }) := by
  have es : Frame safeParts c.enterSafe c ∧ c.enterSafe.mode = { c.mode with current := .safe } := by
    obtain ⟨f, w⟩ := c.leaveWindows_facts
    have g := c.leaveWindows.stopHopper_frame
    obtain ⟨p, q⟩ := c.leaveWindows.stopHopper.pauseSlots_facts
    have m : c.leaveWindows.stopHopper.pauseSlots.mode = c.mode := (p .mode (by decide)).trans ((g .mode (by decide)).trans (f .mode (by decide)))
    refine ⟨(Frame.set_mode (by decide) _ _).trans ((p.mono (by decide)).trans ((g.mono (by decide)).trans (f.mono (by decide)))), ?_⟩
    show { c.leaveWindows.stopHopper.pauseSlots.mode with current := .safe } = _
    rw [m]
  have hf : Frame safeParts ({ c with fault := { c.fault with safeHeld := true } } : Chip) c := Frame.set_fault (by decide) _ _
  unfold Chip.requestSafe
  cases hm : c.mode.current <;> simp only [reduceCtorEq, or_false, or_self, or_true, true_implies, false_implies, and_true, true_and] <;>
    first
      | exact Frame.refl _ _
      | exact ⟨hf, rfl, rfl⟩
      | exact hf
      | exact es
      | exact ⟨es.1, es.2⟩
      | exact Frame.ite _ (Frame.refl _ _) es.1

theorem Chip.specialWrite_filter (c : Chip) (m v : Nat) (f : Fin 32) : c.specialWrite m (0xA820 + f) 1 v = some (c.setFilter f v) := by
  fin_cases f <;> rfl

theorem Chip.specialWrite_select (c : Chip) (m v : Nat) : c.specialWrite m 0xA800 2 v = some (c.setFilterSelect v) := rfl

theorem Chip.specialWrite_marks (c : Chip) (m v : Nat) (k : Fin 1024) : c.specialWrite m (0x9000 + k) 0x30 v = some (c.setMarks k v) := by
  have hk := k.isLt
  unfold Chip.specialWrite
  split <;> first | omega | skip
  iterate 12 rw [if_neg (by omega)]
  rw [if_pos (by omega)]
  dsimp only
  rw [show 0x9000 + (k : Nat) - 0x9000 = k by omega]
  rfl

end Sys2Proof.Machine
end

