-- ==== Sys2Proof/Laws/Damage.lean ====
section
/-!
SUPPORT. Laws/Damage.lean: what the device's answer to damage in its own state leaves (R336, R346, R404, R409).
-/
namespace Sys2Proof.Machine

/-- Two devices have counted the same dirty parity errors. -/
def SameLost (a b : Chip) : Prop := a.integ.parityDirty = b.integ.parityDirty

theorem SameLost.ite {a b s : Chip} (p : Prop) [Decidable p] (ha : SameLost a s) (hb : SameLost b s) : SameLost (if p then a else b) s := by
  split
  · exact ha
  · exact hb

/-- An entry of the retirement log counts no parity error. -/
theorem Chip.retAppend_parityDirty (c : Chip) (e : RetEnt) : SameLost (c.retAppend e) c := by
  unfold Chip.retAppend
  dsimp only
  refine SameLost.ite _ rfl ?_
  have f : SameLost (if 0 < c.integ.lostSince then
      let n := min c.integ.lostSince 65535
      let s := ({ c with integ := { c.integ with lostSince := 0 } } : Chip)
      s.retPlace ⟨0, 12, 0, 0, 4, 0, s.tcRec, 0, 0, 0xFF, n⟩ else c) c := SameLost.ite _ rfl rfl
  exact SameLost.ite _ f f

/-- A dirty parity error is counted once, raised and logged (R336). -/
theorem Chip.parityLost_facts (c : Chip) (page m dla : Nat) :
    Frame [.integ, .fault, .heads, .field] (c.parityLost page m dla) c ∧ (c.parityLost page m dla).sticky 129 = true
      ∧ (c.parityLost page m dla).integ.parityDirty = c.integ.parityDirty + 1 := by
  unfold Chip.parityLost Chip.retEntry
  dsimp only
  generalize hd : ({ c with integ := { c.integ with parityDirty := c.integ.parityDirty + 1 } } : Chip) = d
  have fd : Frame [.integ] d c := by rw [← hd]; exact Frame.set_integ (by decide) _ _
  have pd : d.integ.parityDirty = c.integ.parityDirty + 1 := by rw [← hd]
  have a := Chip.retAppend_frame d ⟨0, 9, 0, 0, 4, 0, d.tcRec, 0, page, 0xFF, 0⟩
  have b := (Chip.raise_eq (d.retAppend ⟨0, 9, 0, 0, 4, 0, d.tcRec, 0, page, 0xFF, 0⟩) 129 m dla .none [0, 1, 2, 3]).frame
  refine ⟨(b.mono (by decide)).trans ((a.mono (by decide)).trans (fd.mono (by decide))), Chip.raise_sticky _ _ _ _ _ _, ?_⟩
  have := b .integ (by decide)
  simp only [Part.same] at this
  rw [this]
  exact (Chip.retAppend_parityDirty _ _).trans pd

/-- A channel with no descriptor to issue issues nothing (R417). -/
theorem Chip.burstIssue_none (c : Chip) (ch n : Nat) (o : Obs) (h : (c.hchan ch).current = none) : c.burstIssue ch n o = c := by
  unfold Chip.burstIssue
  dsimp only
  rw [h]

/-- Where the Hopper is as it was, so is a channel. -/
theorem Frame.hchan {l : List Part} {a b : Chip} (h : Frame l a b) (n : Part.hop ∉ l) (ch : Nat) : a.hchan ch = b.hchan ch := by
  have := h .hop n
  simp only [Part.same] at this
  unfold Chip.hchan
  rw [this]

/-- A stop of a channel leaves its descriptors. -/
theorem Chip.chanStop_hchan (c : Chip) (ch j : Nat) (st : ChState) (r a : Nat) : ((c.chanStop ch st r a).hchan j) =
    if j = ch then { c.hchan ch with st := st, reason := r, stopAddr := a, tc := c.tcRec, epoch := c.tb.epoch } else c.hchan j := by
  unfold Chip.chanStop
  dsimp only
  split
  · next e => subst e; exact Chip.hchan_setHchan _ _ _
  · next e => exact Chip.hchan_setHchan_other _ _ e

/-- Channels that stop together. -/
theorem Chip.chanStops (l : List Nat) (r a : Nat) : ∀ c : Chip,
    Frame [.hop] (l.foldl (fun s k => s.chanStop k .error r a) c) c
    ∧ (l.foldl (fun s k => s.chanStop k .error r a) c).hop.queues = c.hop.queues
    ∧ ∀ j, ((l.foldl (fun s k => s.chanStop k .error r a) c).hchan j) =
        if j ∈ l then { c.hchan j with st := .error, reason := r, stopAddr := a, tc := c.tcRec, epoch := c.tb.epoch } else c.hchan j := by
  induction l with
  | nil => exact fun c => ⟨Frame.refl _ _, rfl, fun j => by simp⟩
  | cons k r' ih =>
    intro c
    obtain ⟨f, g, h⟩ := ih (c.chanStop k .error r a)
    have f1 : Frame [.hop] (c.chanStop k .error r a) c := Frame.set_hop (by decide) _ _
    refine ⟨f.trans f1, g.trans rfl, fun j => ?_⟩
    have e := h j
    simp only [List.foldl_cons]
    rw [e, Chip.chanStop_hchan]
    have t1 : (c.chanStop k .error r a).tcRec = c.tcRec := rfl
    have t2 : (c.chanStop k .error r a).tb = c.tb := rfl
    rw [t1, t2]
    by_cases hj : j = k
    · subst hj; by_cases hm : j ∈ r' <;> simp [hm]
    · by_cases hm : j ∈ r' <;> simp [hj, hm]

/-- A queue fault as its parts: the queue's state, the channels that name it stopped, and the source (R404). -/
theorem Chip.queueFault_eq (c : Chip) (q : Nat) (x : QState) : ∃ l : List Nat,
    (∀ k, (k, c.hchan k) ∈ c.hop.chans → (c.hchan k).st ≠ .off → (c.hchan k).queue = q → k ∈ l)
      ∧ c.queueFault q x = (l.foldl (fun s k => s.chanStop k .error 0x33 0) (c.setQueue q { x with fault := true, cached := true })).raise 129 := by
  refine ⟨_, ?_, rfl⟩
  intro k hk ho hq
  rw [List.mem_map]
  exact ⟨(k, c.hchan k), List.mem_filter.mpr ⟨hk, by simp [ho, hq]⟩, rfl⟩

theorem Chip.hchan_setQueue (c : Chip) (q : Nat) (x : QState) (j : Nat) : (c.setQueue q x).hchan j = c.hchan j := rfl

theorem Chip.raise_hop (c : Chip) (n : Nat) : Frame [.fault, .heads, .field] (c.raise n) c := (Chip.raise_eq c n 0xFF 0 .none [0, 1, 2, 3]).frame

/-- What a queue fault does to a channel: it goes to ERROR, or stays as it was. -/
theorem Chip.queueFault_hchan (c : Chip) (q : Nat) (x : QState) (j : Nat) :
    ((c.queueFault q x).hchan j = { c.hchan j with st := .error, reason := 0x33, stopAddr := 0, tc := c.tcRec, epoch := c.tb.epoch }
      ∨ (c.queueFault q x).hchan j = c.hchan j)
      ∧ ((j, c.hchan j) ∈ c.hop.chans → (c.hchan j).st ≠ .off → (c.hchan j).queue = q →
          (c.queueFault q x).hchan j = { c.hchan j with st := .error, reason := 0x33, stopAddr := 0, tc := c.tcRec, epoch := c.tb.epoch }) := by
  obtain ⟨l, hl, e⟩ := Chip.queueFault_eq c q x
  have a := (Chip.chanStops l 0x33 0 (c.setQueue q { x with fault := true, cached := true })).2.2 j
  rw [e, (Chip.raise_hop _ 129).hchan (by decide), a, Chip.hchan_setQueue]
  refine ⟨?_, fun h1 h2 h3 => if_pos (hl j h1 h2 h3)⟩
  split
  · exact .inl rfl
  · exact .inr rfl

/-- What a queue fault does to the rest: the queue is in FAULT, the source is set, and nothing outside the Hopper and the collector
changes. -/
theorem Chip.queueFault_facts (c : Chip) (q : Nat) (x : QState) :
    Frame [.hop, .fault, .heads, .field] (c.queueFault q x) c ∧ (c.queueFault q x).sticky 129 = true
      ∧ (c.queueFault q x).queue q = some { x with fault := true, cached := true } ∧ (∀ j, j ≠ q → (c.queueFault q x).queue j = c.queue j) := by
  obtain ⟨l, _, e⟩ := Chip.queueFault_eq c q x
  obtain ⟨cf, cq, _⟩ := Chip.chanStops l 0x33 0 (c.setQueue q { x with fault := true, cached := true })
  rw [e]
  generalize l.foldl _ (c.setQueue q { x with fault := true, cached := true }) = u at cf cq ⊢
  have g := Chip.raise_hop u 129
  have sk := Chip.raise_sticky u 129 0xFF 0 .none [0, 1, 2, 3]
  generalize u.raise 129 = v at g sk ⊢
  have gh : v.hop = u.hop := g .hop (by decide)
  have qq : ∀ j, v.queue j = (c.setQueue q { x with fault := true, cached := true }).queue j := fun j => by unfold Chip.queue; rw [gh, cq]
  exact ⟨(g.mono (by decide)).trans ((cf.mono (by decide)).trans (Frame.set_hop (by decide) _ _)), sk, (qq _).trans (Chip.queue_setQueue _ _ _),
    fun j hj => (qq j).trans (Chip.queue_setQueue_other _ _ hj)⟩

theorem Chip.parityLost_link (c : Chip) (p m d j : Nat) : (c.parityLost p m d).link j = c.link j :=
  Chip.link_of_frame (Chip.parityLost_facts c p m d).1 (by decide) j

/-- A held flit that fails its parity as it is resent takes the link toward DOWN with cause 8 (R377). -/
theorem Chip.replayTimeout_parity (s : Chip) (l : Nat) (h1 : (s.link l).st = .active) (h2 : (s.link l).held ≠ []) (h3 : (s.link l).want = none) :
    s.replayTimeout l true = (s.parityLost 0 (0x10 + l) 0).setLink l { s.link l with want := some 8 } := by
  have a : s.replayTimeout l true = (s.parityLost 0 (0x10 + l) 0).wantDown l 8 := by
    unfold Chip.replayTimeout
    dsimp only
    rw [if_pos ⟨h1, h2⟩, if_pos rfl]
  have b : ∀ z : Chip, (z.link l).st = .active → (z.link l).want = none → z.wantDown l 8 = z.setLink l { z.link l with want := some 8 } := by
    intro z g1 g3
    unfold Chip.wantDown
    dsimp only
    rw [if_pos ⟨g3, .inr (.inl g1)⟩]
  rw [a, b _ (by rw [Chip.parityLost_link]; exact h1) (by rw [Chip.parityLost_link]; exact h3), Chip.parityLost_link]

end Sys2Proof.Machine
end

