-- ==== Sys2Proof/Laws/Dram.lean ====
section
/-!
SUPPORT. Laws/Dram.lean: what a freeze and a release of a DDR5 channel leave of the device (R281, R284, R527).
-/
namespace Sys2Proof.Machine

theorem Chip.refreshDiagnosis_frame (s : Chip) : Frame [.mode] s.refreshDiagnosis s := by
  unfold Chip.refreshDiagnosis
  exact Frame.ite _ (Frame.set_mode (by decide) _ _) (Frame.ite _ (Frame.set_mode (by decide) _ _) (Frame.refl _ _))

theorem Chip.refreshDiagnosis_rest (s : Chip) : s.refreshDiagnosis.mode = { s.mode with current := s.refreshDiagnosis.mode.current } := by
  unfold Chip.refreshDiagnosis
  split
  · rfl
  · split <;> rfl

/-- A frozen channel shows in the mask (R283). -/
theorem Chip.frozenMask_pos (s : Chip) (n : Nat) (hn : n < 8) (h : s.frozen n = true) : s.frozenMask ≠ 0 := by
  unfold Chip.frozenMask
  have mono : ∀ (l : List Nat) (a : Nat), a ≤ l.foldl (fun a n => if s.frozen n then a + 2 ^ n else a) a := by
    intro l
    induction l with
    | nil => intro a; exact Nat.le_refl _
    | cons b l ih => intro a; rw [List.foldl_cons]; exact Nat.le_trans (by split; exact Nat.le_add_right _ _; exact Nat.le_refl _) (ih _)
  have g : ∀ (l : List Nat) (a : Nat), n ∈ l → 0 < l.foldl (fun a n => if s.frozen n then a + 2 ^ n else a) a := by
    intro l
    induction l with
    | nil => intro a h; simp at h
    | cons b l ih =>
      intro a hb
      rw [List.foldl_cons]
      rcases List.mem_cons.mp hb with rfl | hb
      · rw [if_pos h]
        exact Nat.lt_of_lt_of_le (by have := Nat.two_pow_pos n; omega) (mono l _)
      · exact ih _ hb
  have := g (List.range 8) 0 (List.mem_range.mpr hn)
  omega

/-- A channel freezes (R281, R282): its state and cause are set, the freeze is counted, source 96 is raised, and a device in SERVICE
goes to DIAGNOSIS. -/
theorem Chip.freeze_facts (s : Chip) (n cause sector : Nat) (hn : n < 8) (h : (s.ddr n).freeze ≠ 1) :
    (∃ snap, (s.freeze n cause sector).ddr n = { s.ddr n with freeze := 1, cause := cause, limit := false, snapshot := snap, freezes := (s.ddr n).freezes + 1 })
    ∧ (∀ j, j ≠ n → (s.freeze n cause sector).ddr j = s.ddr j) ∧ (s.freeze n cause sector).sticky 96 = true
    ∧ (s.mode.current = .service → (s.freeze n cause sector).mode.current = .diagnosis)
    ∧ Frame [.dram, .lauter, .fault, .heads, .field, .mode, .free] (s.freeze n cause sector) s := by
  have e : ∃ (snap : List Byte) (d u : Chip), s.freeze n cause sector = (u.raise 96).refreshDiagnosis
      ∧ Frame [.dram, .lauter] u (d.setDdr n { s.ddr n with freeze := 1, cause := cause, limit := false, snapshot := snap, freezes := (s.ddr n).freezes + 1 })
      ∧ u.dram.ddr = (d.setDdr n { s.ddr n with freeze := 1, cause := cause, limit := false, snapshot := snap, freezes := (s.ddr n).freezes + 1 }).dram.ddr
      ∧ Frame [.free] d s := by
    unfold Chip.freeze
    dsimp only
    rw [if_neg h]
    have sf : Frame [.free] (s.snapshotBytes n cause sector).2 s := by
      unfold Chip.snapshotBytes Chip.takeNat
      dsimp only
      exact (Frame.set_free (by decide) _ _).trans (Frame.set_free (by decide) _ _)
    generalize s.snapshotBytes n cause sector = x at sf
    obtain ⟨snap, d⟩ := x
    refine ⟨snap, d, _, rfl, ?_, ?_, sf⟩
    · refine (Frame.set_lauter (by decide) _ _).trans ?_
      exact Frame.ite _ (Frame.set_dram (by decide) _ _) (Frame.refl _ _)
    · dsimp only
      split <;> rfl
  obtain ⟨snap, d, u, e1, e2, e3, e4⟩ := e
  have r := (Chip.raise_eq u 96 0xFF 0 .none [0, 1, 2, 3]).frame
  have rs := Chip.raise_sticky u 96 0xFF 0 .none [0, 1, 2, 3]
  generalize u.raise 96 = w at e1 r rs
  generalize hx : d.setDdr n { s.ddr n with freeze := 1, cause := cause, limit := false, snapshot := snap, freezes := (s.ddr n).freezes + 1 } = x at e2 e3
  have fx : Frame [.dram] x d := by rw [← hx]; exact Frame.set_dram (by decide) _ _
  have xn : x.ddr n = { s.ddr n with freeze := 1, cause := cause, limit := false, snapshot := snap, freezes := (s.ddr n).freezes + 1 } := by rw [← hx]; exact Chip.ddr_setDdr _ _ _
  have xo : ∀ j, j ≠ n → x.ddr j = d.ddr j := fun j hj => by rw [← hx]; exact Chip.ddr_setDdr_other _ _ hj
  have f := w.refreshDiagnosis_frame
  have dd : ∀ j, (s.freeze n cause sector).ddr j = x.ddr j := by
    intro j
    have a : w.refreshDiagnosis.dram = w.dram := f .dram (by decide)
    have b : w.dram = u.dram := r .dram (by decide)
    rw [e1]; unfold Chip.ddr; rw [a, b, e3]
  have ds : d.dram = s.dram := e4 .dram (by decide)
  have wd : ∀ j, w.ddr j = x.ddr j := by
    intro j
    have b : w.dram = u.dram := r .dram (by decide)
    unfold Chip.ddr; rw [b, e3]
  refine ⟨⟨snap, by rw [dd]; exact xn⟩, fun j hj => ?_, ?_, fun hm => ?_, ?_⟩
  · rw [dd, xo j hj]; unfold Chip.ddr; rw [ds]
  · have : w.refreshDiagnosis.fault = w.fault := f .fault (by decide)
    rw [e1]; unfold Chip.sticky at rs ⊢; rw [this]; exact rs
  · have wm : w.mode = s.mode := by
      have a : w.mode = u.mode := r .mode (by decide)
      have b : u.mode = x.mode := e2 .mode (by decide)
      have b2 : x.mode = d.mode := fx .mode (by decide)
      have c : d.mode = s.mode := e4 .mode (by decide)
      rw [a, b, b2, c]
    have fz : w.frozen n = true := by unfold Chip.frozen; rw [wd, xn]; rfl
    rw [e1]
    unfold Chip.refreshDiagnosis
    rw [if_pos ⟨by rw [wm]; exact hm, w.frozenMask_pos n hn fz⟩]
  · rw [e1]
    exact (f.mono (by decide)).trans ((r.mono (by decide)).trans ((e2.mono (by decide)).trans ((fx.mono (by decide)).trans (e4.mono (by decide)))))

theorem Chip.freeze_frame (s : Chip) (n cause sector : Nat) (h : (s.ddr n).freeze ≠ 1) :
    Frame [.dram, .lauter, .fault, .heads, .field, .mode, .free] (s.freeze n cause sector) s := by
  unfold Chip.freeze
  dsimp only
  rw [if_neg h]
  have sf : Frame [.free] (s.snapshotBytes n cause sector).2 s := by
    unfold Chip.snapshotBytes Chip.takeNat
    dsimp only
    exact (Frame.set_free (by decide) _ _).trans (Frame.set_free (by decide) _ _)
  generalize s.snapshotBytes n cause sector = x at sf
  obtain ⟨snap, d⟩ := x
  dsimp only at sf ⊢
  refine ((Chip.refreshDiagnosis_frame _).mono (by decide)).trans (((Chip.raise_eq _ _ _ _ _ _).frame.mono (by decide)).trans
    ((Frame.set_lauter (by decide) _ _).trans (Frame.trans ?_ (sf.mono (by decide)))))
  generalize hu : d.setDdr n _ = u
  have fu : Frame [.dram, .lauter, .fault, .heads, .field, .mode, .free] u d := by rw [← hu]; exact Frame.set_dram (by decide) d _
  exact Frame.ite _ ((Frame.set_dram (by decide) u _).trans fu) fu

/-- Markers are only added. -/
theorem Chip.setPoisons_facts : ∀ (l : List Nat) (c : Chip),
    let d := l.foldl (fun (s : Chip) a => s.setPoison a true) c
    (∀ x, d.poisoned x = (c.poisoned x || l.any (fun a => decide (lineNo a = lineNo x)))) ∧ Frame [.poison, .integ] d c := by
  intro l
  induction l with
  | nil => intro c; exact ⟨fun x => by simp, Frame.refl _ _⟩
  | cons a l ih =>
    intro c
    simp only [List.foldl_cons]
    obtain ⟨i1, i2⟩ := ih (c.setPoison a true)
    refine ⟨fun x => ?_, i2.trans (c.setPoison_frame a true)⟩
    rw [i1]
    have : (c.setPoison a true).poisoned x = if lineNo x = lineNo a then true else c.poisoned x := by
      unfold Chip.poisoned
      have : (c.setPoison a true).poison = Tab.put false c.poison (lineNo a) true := by
        unfold Chip.setPoison; dsimp only; split <;> rfl
      rw [this, Tab.get_put]
    rw [this, List.any_cons]
    by_cases h : lineNo x = lineNo a
    · simp [h]
    · have : lineNo a ≠ lineNo x := fun e => h e.symm
      simp [h, this]

/-- A released channel: its freeze and its poison list are over, and the lines of the list are poisoned (R284). -/
theorem Chip.unfreeze_facts (s : Chip) (n : Nat) : ∃ x : Chip, s.unfreeze n = x.wake
    ∧ x.ddr n = { s.ddr n with freeze := 0, limit := false, poisonList := [], ce := [], resilverTc := s.tb.tc } ∧ (∀ j, j ≠ n → x.ddr j = s.ddr j)
    ∧ (∀ a ∈ (s.ddr n).poisonList, x.poisoned a = true) ∧ Frame [.poison, .integ, .dram, .lauter, .mode] x s := by
  obtain ⟨p1, p2⟩ := Chip.setPoisons_facts (s.ddr n).poisonList s
  unfold Chip.unfreeze
  dsimp only
  generalize hd : (s.ddr n).poisonList.foldl (fun (s : Chip) a => s.setPoison a true) s = d at *
  have dd : ∀ j, d.ddr j = s.ddr j := by intro j; have : d.dram = s.dram := p2 .dram (by decide); unfold Chip.ddr; rw [this]
  have tb : d.tb = s.tb := p2 .tb (by decide)
  generalize hu : d.setDdr n { d.ddr n with freeze := 0, limit := false, poisonList := [], ce := [], resilverTc := d.tb.tc } = u
  have f1 : Frame [.lauter] (u.unpause) u := Frame.set_lauter (by decide) _ _
  have f2 := (u.unpause).refreshDiagnosis_frame
  have fu : Frame [.dram] u d := by rw [← hu]; exact Frame.set_dram (by decide) _ _
  have ud : ∀ j, ((u.unpause).refreshDiagnosis).ddr j = u.ddr j := by
    intro j
    have a : ((u.unpause).refreshDiagnosis).dram = (u.unpause).dram := f2 .dram (by decide)
    have b : (u.unpause).dram = u.dram := f1 .dram (by decide)
    unfold Chip.ddr; rw [a, b]
  refine ⟨(u.unpause).refreshDiagnosis, rfl, ?_, fun j hj => ?_, fun a ha => ?_, ?_⟩
  · rw [ud, ← hu, Chip.ddr_setDdr, dd, tb]
  · rw [ud, ← hu, Chip.ddr_setDdr_other _ _ hj, dd]
  · have : ((u.unpause).refreshDiagnosis).poison = d.poison := (f2 .poison (by decide)).trans ((f1 .poison (by decide)).trans (fu .poison (by decide)))
    have e : ((u.unpause).refreshDiagnosis).poisoned a = d.poisoned a := by unfold Chip.poisoned; rw [this]
    rw [e, p1]
    simp only [Bool.or_eq_true]
    exact Or.inr (List.any_eq_true.mpr ⟨a, ha, by simp⟩)
  · exact (f2.mono (by decide)).trans ((f1.mono (by decide)).trans ((fu.mono (by decide)).trans (p2.mono (by decide))))

end Sys2Proof.Machine
end

