-- ==== Sys2Proof/Laws/Keys.lean ====
section
/-!
SUPPORT. Laws/Keys.lean: what cutting keys and the erase walk leave of the device (R222, R224).
-/
namespace Sys2Proof.Machine

theorem Tab.find_mapv {α : Type} (t : Tab α) (f : α → α) (k : Nat) :
    Tab.find (t.map (fun e => (e.1, f e.2))) k = (Tab.find t k).map f := by
  induction t with
  | nil => rfl
  | cons a t ih =>
    obtain ⟨j, v⟩ := a
    by_cases h : j = k
    · simp [Tab.find, h]
    · simp only [List.map_cons, Tab.find, h, if_false]; exact ih

/-- One cask's keys are cut (R222). -/
theorem Chip.cutKeys_facts (c : Chip) (k : Nat) :
    (c.cutKeys k).cask k = { c.cask k with keyState := .erasing, keys := none, blob := none }
    ∧ (∀ j, j ≠ k → (c.cutKeys k).cask j = c.cask j)
    ∧ (c.cutKeys k).sb = { c.sb with recs := c.sb.recs.filter (fun r => !decide (r.kind = 3 ∧ r.key = k)) }
    ∧ Frame [.casks, .sb] (c.cutKeys k) c := by
  unfold Chip.cutKeys Chip.destroyBlobs
  dsimp only
  refine ⟨?_, fun j hj => ?_, rfl, ?_⟩
  · rw [Chip.cask_setCask]
    have : Chip.cask { c.setCask k { c.cask k with blob := none } with sb := { (c.setCask k { c.cask k with blob := none }).sb with recs := (c.setCask k { c.cask k with blob := none }).sb.recs.filter (fun r => !decide (r.kind = 3 ∧ r.key = k)) } } k
        = (c.setCask k { c.cask k with blob := none }).cask k := rfl
    rw [this, Chip.cask_setCask]
  · rw [Chip.cask_setCask_other _ _ hj]
    exact (Chip.cask_setCask_other c { c.cask k with blob := none } hj :)
  · intro p hp; cases p <;> first | rfl | exact absurd (by decide) hp

/-- Several casks' keys are cut. -/
theorem Chip.cutAll_facts : ∀ (l : List Nat) (c : Chip),
    let d := l.foldl (fun (s : Chip) k => s.cutKeys k) c
    (∀ k ∈ l, (d.cask k).keyState = .erasing ∧ (d.cask k).keys = none ∧ (d.cask k).state = (c.cask k).state)
    ∧ (∀ j, j ∉ l → d.cask j = c.cask j) ∧ Frame [.casks, .sb] d c := by
  intro l
  induction l with
  | nil => intro c; exact ⟨by simp, fun _ _ => rfl, Frame.refl _ _⟩
  | cons a l ih =>
    intro c
    simp only [List.foldl_cons]
    obtain ⟨c1, c2, _, c4⟩ := Chip.cutKeys_facts c a
    obtain ⟨i1, i2, i3⟩ := ih (c.cutKeys a)
    refine ⟨fun k hk => ?_, fun j hj => ?_, i3.trans c4⟩
    · by_cases hl : k ∈ l
      · obtain ⟨x, y, z⟩ := i1 k hl
        refine ⟨x, y, z.trans ?_⟩
        by_cases e : k = a
        · rw [e, c1]
        · rw [c2 k e]
      · rcases List.mem_cons.mp hk with rfl | h
        · rw [i2 k hl, c1]; exact ⟨rfl, rfl, rfl⟩
        · exact absurd h hl
    · rw [List.mem_cons, not_or] at hj
      rw [i2 j hj.2, c2 j hj.1]

/-- The erase walk meets one page that does not migrate (R222). -/
theorem Chip.erasePage_facts (c : Chip) (p : Nat) (hm : c.migOf p = none) :
    (c.erasePage p).page p = (if (c.page p).st = .hbm then { c.page p with st := .poisoned } else c.page p)
    ∧ (∀ q, q ≠ p → (c.erasePage p).page q = c.page q) ∧ (c.erasePage p).lauter.slots = c.lauter.slots
    ∧ (c.erasePage p).map.extents = c.map.extents
    ∧ (∀ k, Tab.find (c.erasePage p).cache.lines k = if k / 64 = p then none else Tab.find c.cache.lines k)
    ∧ Frame [.map, .lauter, .kiln, .cache] (c.erasePage p) c := by
  have ab : (c.dropLines (64 * p) 64).abandonPage p = c.dropLines (64 * p) 64 := by
    have : (c.dropLines (64 * p) 64).migOf p = none := hm
    unfold Chip.abandonPage; rw [this]
  unfold Chip.erasePage
  rw [ab]
  dsimp only
  generalize hd : ({ c.dropLines (64 * p) 64 with kiln := { (c.dropLines (64 * p) 64).kiln with
      absorbed := Tab.del (c.dropLines (64 * p) 64).kiln.absorbed p
      media := (c.dropLines (64 * p) 64).kiln.media.filter (fun e => !decide (e.1 / 64 = p))
      mediaPoison := (c.dropLines (64 * p) 64).kiln.mediaPoison.filter (fun e => !decide (e.1 / 64 = p)) } } : Chip) = d
  have fd : Frame [.kiln, .cache] d c := by
    rw [← hd]; intro p hp; cases p <;> first | rfl | exact absurd (by decide) hp
  have dl : ∀ k, Tab.find d.cache.lines k = if k / 64 = p then none else Tab.find c.cache.lines k := by
    intro k
    rw [← hd]
    refine (Tab.find_filter c.cache.lines (fun k => !decide (64 * p ≤ k ∧ k < 64 * p + 64)) k).trans ?_
    by_cases h : k / 64 = p
    · rw [if_pos h, if_neg (by simp; omega)]
    · rw [if_neg h, if_pos (by simp; omega)]
  have pg : ∀ q, d.page q = c.page q := fd.page (by decide)
  have ds : d.lauter = c.lauter := fd.lauter (by decide)
  have dm : d.map = c.map := fd.map (by decide)
  split
  · rename_i h
    rw [pg] at h
    unfold Chip.poisonPage
    have cf := Chip.commitPage_frame d p { d.page p with st := .poisoned }
    have cc : (d.commitPage p { d.page p with st := .poisoned }).cache = d.cache := cf .cache (by decide)
    refine ⟨?_, fun q hq => ?_, ?_, ?_, fun k => ?_, (cf.mono (by decide)).trans (fd.mono (by decide))⟩
    · rw [Chip.commitPage_page, pg, if_pos h]
    · rw [Chip.commitPage_other _ _ _ hq, pg]
    · obtain ⟨j, b, n, e⟩ := d.commitPage_journal p { d.page p with st := .poisoned }
      rw [e, ds]
    · rw [Chip.commitPage_map, dm]
    · rw [cc]; exact dl k
  · rename_i h
    rw [pg] at h
    exact ⟨by rw [pg, if_neg h], fun q _ => pg q, by rw [ds], by rw [dm], dl, fd.mono (by decide)⟩

/-- The erase walk over pages that do not migrate (R222). -/
theorem Chip.eraseAll_facts : ∀ (l : List Nat) (c : Chip), (∀ p ∈ l, c.migOf p = none) →
    let d := l.foldl (fun (s : Chip) p => s.erasePage p) c
    (∀ p, d.page p = if p ∈ l ∧ (c.page p).st = .hbm then { c.page p with st := .poisoned } else c.page p)
    ∧ d.map.extents = c.map.extents
    ∧ (∀ k, Tab.find d.cache.lines k = if k / 64 ∈ l then none else Tab.find c.cache.lines k)
    ∧ Frame [.map, .lauter, .kiln, .cache] d c := by
  intro l
  induction l with
  | nil => intro c _; exact ⟨fun _ => by simp, rfl, fun _ => by simp, Frame.refl _ _⟩
  | cons a l ih =>
    intro c hm
    simp only [List.foldl_cons]
    obtain ⟨e1, e2, e3, e4, e5, e6⟩ := Chip.erasePage_facts c a (hm a (List.mem_cons_self ..))
    obtain ⟨i1, i2, i3, i4⟩ := ih (c.erasePage a) (fun p hp => by
      unfold Chip.migOf; rw [e3]; exact hm p (List.mem_cons_of_mem _ hp))
    refine ⟨fun p => ?_, i2.trans e4, fun k => ?_, i4.trans e6⟩
    · rw [i1 p]
      by_cases h : p = a
      · subst h
        rw [e1]
        by_cases g : (c.page p).st = .hbm
        · simp [g]
        · simp [g]
      · rw [e2 p h]; simp [h]
    · rw [i3, e5]
      by_cases h : k / 64 = a <;> simp [h]

end Sys2Proof.Machine
end

