-- ==== Sys2Proof/Laws/Kiln.lean ====
section
/-!
SUPPORT. Laws/Kiln.lean: what placing a unit, committing a page write and writing the roots do (R308, R309, R327).
-/
namespace Sys2Proof.Machine

open Sys2Proof

/-- Two devices that differ in what the medium holds and in the absorb index alone. -/
theorem Chip.releaseLines_facts (c : Chip) (g : Prog) :
    Frame [.kiln] (c.releaseLines g) c ∧ (c.releaseLines g).kiln.progs = c.kiln.progs ∧ (c.releaseLines g).kiln.olds = c.kiln.olds
    ∧ (∀ q, q ≠ g.page → Tab.find (c.releaseLines g).kiln.absorbed q = Tab.find c.kiln.absorbed q)
    ∧ (∀ x, Tab.find c.kiln.absorbed g.page = some x → ∃ m, (∀ k, k < 64 →
          bitOf m k = (bitOf x.mask k && !(bitOf g.captured k && !bitOf g.changed k)))
        ∧ Tab.find (c.releaseLines g).kiln.absorbed g.page = if m = 0 then none else some { x with mask := m }) := by
  unfold Chip.releaseLines
  extract_lets p caps keep d
  have hd : Frame [.kiln] d c ∧ ∃ a b, d.kiln = { c.kiln with media := a, mediaPoison := b } := by
    have g0 : ∀ (l : List Nat) (u : Chip), (Frame [.kiln] u c ∧ ∃ a b, u.kiln = { c.kiln with media := a, mediaPoison := b }) →
        let v := l.foldl (fun (s : Chip) k =>
          let ln := 64 * p + k
          if keep s k then
            { s with kiln := { s.kiln with
              media := Tab.set s.kiln.media ln (Tab.get 0 g.data k), mediaPoison := Tab.put false s.kiln.mediaPoison ln (g.poison.contains k) } }
          else { s with kiln := { s.kiln with media := Tab.del s.kiln.media ln, mediaPoison := Tab.del s.kiln.mediaPoison ln } }) u
        Frame [.kiln] v c ∧ ∃ a b, v.kiln = { c.kiln with media := a, mediaPoison := b } := by
      intro l
      induction l with
      | nil => intro u h; exact h
      | cons k l ih =>
        intro u h
        apply ih
        dsimp only
        obtain ⟨f, a, b, e⟩ := h
        split
        · exact ⟨(Frame.set_kiln (by decide) _ _).trans f, _, _, by dsimp only; rw [e]⟩
        · exact ⟨(Frame.set_kiln (by decide) _ _).trans f, _, _, by dsimp only; rw [e]⟩
    exact g0 caps c ⟨Frame.refl _ _, _, _, rfl⟩
  obtain ⟨f, a, b, e⟩ := hd
  have ea : d.kiln.absorbed = c.kiln.absorbed := by rw [e]
  have ep : d.kiln.progs = c.kiln.progs := by rw [e]
  have eo : d.kiln.olds = c.kiln.olds := by rw [e]
  clear_value d
  have em : ∀ (l : List Nat) (m0 : Nat) (k : Nat), bitOf (l.foldl (fun m k => if bitOf g.changed k then m else setBit m k false) m0) k
      = (bitOf m0 k && !(decide (k ∈ l) && !bitOf g.changed k)) := by
    intro l
    induction l with
    | nil => intro m0 k; simp
    | cons j l ih =>
      intro m0 k
      rw [List.foldl_cons, ih]
      by_cases hj : bitOf g.changed j = true
      · rw [if_pos hj]
        by_cases hk : k = j
        · subst hk; simp [hj]
        · simp [hk]
      · rw [if_neg hj]
        by_cases hk : k = j
        · subst hk; rw [bitOf_setBit_val]; simp [hj]
        · have : bitOf (setBit m0 j false) k = bitOf m0 k := bitOf_clear_other m0 hk
          rw [this]; simp [hk]
  cases hx : Tab.find d.kiln.absorbed p with
  | none =>
    dsimp only
    refine ⟨f, ep, eo, fun q _ => by rw [ea], fun x h => ?_⟩
    rw [← ea] at h
    exact absurd (h.symm.trans hx) (by simp)
  | some x =>
    dsimp only
    refine ⟨(Frame.set_kiln (by decide) _ _).trans f, ep, eo, fun q hq => ?_, fun x' h => ?_⟩
    · rw [← ea]
      split
      · exact Tab.find_del_other _ hq
      · exact Tab.find_set_other _ _ hq
    · rw [← ea] at h
      have : x' = x := by rw [show p = g.page from rfl] at hx; rw [hx] at h; exact (Option.some.inj h).symm
      subst this
      refine ⟨caps.foldl (fun m k => if bitOf g.changed k then m else setBit m k false) x'.mask, fun k hk => ?_, ?_⟩
      · rw [em]
        simp [caps, hk]
      · split
        · exact Tab.find_del_same _ _
        · exact Tab.find_set_same _ _ _

theorem Chip.cachedDirty_congr {u w : Chip} (h : u.cache = w.cache) (a : Nat) : u.cachedDirty a = w.cachedDirty a := by
  unfold Chip.cachedDirty Chip.cached; rw [h]

theorem Chip.isAbsorbed_congr {u w : Chip} (h : u.kiln.absorbed = w.kiln.absorbed) (a : Nat) : u.isAbsorbed a = w.isAbsorbed a := by
  unfold Chip.isAbsorbed; rw [h]

theorem Chip.poisonStored_frame (c : Chip) (a : Nat) : Frame [.kiln, .poison, .integ] (c.poisonStored a) c
    ∧ (∃ m, (c.poisonStored a).kiln = { c.kiln with mediaPoison := m }) := by
  unfold Chip.poisonStored
  split
  · exact ⟨Frame.set_kiln (by decide) _ _, _, rfl⟩
  · unfold Chip.setPoison
    dsimp only
    split
    · exact ⟨(Frame.set_poison (by decide) _ _).trans (Frame.set_integ (by decide) _ _), _, rfl⟩
    · exact ⟨Frame.set_poison (by decide) _ _, _, rfl⟩

/-- The commit of a page write: one map update, and the lines captured and not changed since leave absorb space (R309). -/
theorem Chip.commitWrite_facts (c : Chip) (g : Prog) :
    let r : PageRec := { c.page g.page with ch := g.ch, loc := g.loc, grist := g.grist, sectors := g.sectors, gen := ((c.page g.page).gen + 1) % 16 }
    Frame [.lauter, .kiln, .map, .poison, .integ, .macs, .mill] (c.commitWrite g) c
    ∧ (c.commitWrite g).page g.page = r ∧ (∀ q, q ≠ g.page → (c.commitWrite g).page q = c.page q)
    ∧ (c.commitWrite g).lauter = (c.commitPage g.page r).lauter
    ∧ (c.commitWrite g).kiln.progs = c.kiln.progs
    ∧ (c.commitWrite g).kiln.olds = c.kiln.olds ++ [c.oldPlace g c.lauter.jseq]
    ∧ (∀ q, q ≠ g.page → Tab.find (c.commitWrite g).kiln.absorbed q = Tab.find c.kiln.absorbed q)
    ∧ (∀ x, Tab.find c.kiln.absorbed g.page = some x → ∃ m, (∀ k, k < 64 →
          bitOf m k = (bitOf x.mask k && !(bitOf g.captured k && !bitOf g.changed k)))
        ∧ Tab.find (c.commitWrite g).kiln.absorbed g.page = if m = 0 then none else some { x with mask := m }) := by
  unfold Chip.commitWrite
  dsimp only
  generalize hold : c.oldPlace g c.lauter.jseq = old
  generalize hr : ({ c.page g.page with ch := g.ch, loc := g.loc, grist := g.grist, sectors := g.sectors, gen := ((c.page g.page).gen + 1) % 16 } : PageRec) = r
  generalize hd1 : c.commitPage g.page r = d1
  have h1 : Frame [.lauter, .kiln, .map] d1 c := by rw [← hd1]; exact Chip.commitPage_frame _ _ _
  have k1 : d1.kiln.progs = c.kiln.progs ∧ d1.kiln.olds = c.kiln.olds ∧ d1.kiln.absorbed = c.kiln.absorbed := by
    rw [← hd1]; exact ⟨rfl, rfl, rfl⟩
  generalize hd2 : (if g.why = .verbatim then d1.setGrist g.page g.image else (d1.setGrist g.page g.image).freshMacs g.page) = d2
  have h2 : Frame [.mill, .macs] d2 d1 := by
    rw [← hd2]
    have m : Frame [.mill, .macs] (d1.setGrist g.page g.image) d1 := Frame.set_mill (by decide) d1 _
    exact Frame.ite _ m ((Frame.set_macs (by decide) _ _).trans m)
  have k2 : d2.kiln = d1.kiln := h2 .kiln (by decide)
  generalize hd3 : ({ d2 with kiln := { d2.kiln with
      olds := d2.kiln.olds ++ [old], rewrites := d2.kiln.rewrites.filter (fun q => decide (q ≠ g.page)) } } : Chip) = d3
  have h3 : Frame [.kiln] d3 d2 := by rw [← hd3]; exact Frame.set_kiln (by decide) d2 _
  have k3 : d3.kiln.progs = c.kiln.progs ∧ d3.kiln.olds = c.kiln.olds ++ [old] ∧ d3.kiln.absorbed = c.kiln.absorbed := by
    rw [← hd3]; dsimp only; rw [k2, k1.1, k1.2.1, k1.2.2]; exact ⟨rfl, rfl, rfl⟩
  obtain ⟨f4, p4, o4, q4, m4⟩ := Chip.releaseLines_facts d3 g
  generalize d3.releaseLines g = d4 at f4 p4 o4 q4 m4
  rw [k3.1] at p4
  rw [k3.2.1] at o4
  rw [k3.2.2] at q4 m4
  have fo : ∀ (l : List Nat) (u : Chip), let v := l.foldl (fun (s : Chip) k => s.poisonStored (64 * (64 * g.page + k))) u
      Frame [.kiln, .poison, .integ] v u ∧ ∃ m, v.kiln = { u.kiln with mediaPoison := m } := by
    intro l
    induction l with
    | nil => intro u; exact ⟨Frame.refl _ _, _, rfl⟩
    | cons k l ih =>
      intro u
      dsimp only
      rw [List.foldl_cons]
      obtain ⟨a1, m, a2⟩ := Chip.poisonStored_frame u (64 * (64 * g.page + k))
      generalize u.poisonStored (64 * (64 * g.page + k)) = w at a1 a2
      obtain ⟨b1, m', b2⟩ := ih w
      exact ⟨b1.trans a1, m', by rw [b2, a2]⟩
  obtain ⟨g1, m, g2⟩ := fo (g.poison.filter (fun k => !bitOf g.captured k)) d4
  dsimp only at g1 g2
  generalize (g.poison.filter (fun k => !bitOf g.captured k)).foldl (fun (s : Chip) k => s.poisonStored (64 * (64 * g.page + k))) d4 = v at g1 g2
  have pg : ∀ q, v.page q = d1.page q := fun q =>
    (g1.page (by decide) q).trans ((f4.page (by decide) q).trans ((h3.page (by decide) q).trans (h2.page (by decide) q)))
  refine ⟨(g1.mono (by decide)).trans ((f4.mono (by decide)).trans ((h3.mono (by decide)).trans ((h2.mono (by decide)).trans (h1.mono (by decide))))),
    ?_, fun q hq => ?_, ?_, ?_, ?_, fun q hq => ?_, fun x hx => ?_⟩
  · rw [pg, ← hd1]; exact Chip.commitPage_page _ _ _
  · rw [pg, ← hd1]; exact Chip.commitPage_other _ _ _ hq
  · exact (g1.lauter (by decide)).trans ((f4.lauter (by decide)).trans ((h3.lauter (by decide)).trans (h2.lauter (by decide))))
  · rw [g2]; exact p4
  · rw [g2]; exact o4
  · rw [g2]; exact q4 q hq
  · rw [g2]; exact m4 x hx

/-- The roots of the zone are rewritten, and the journal stands in the ring of every zone copy (R327). -/
theorem Chip.cleanRoots_facts (c : Chip) :
    Frame [.lauter, .kiln] c.cleanRoots c ∧ c.cleanRoots.lauter.journal = [] ∧ c.cleanRoots.lauter.backlog = []
    ∧ c.cleanRoots.lauter.zones
        = (c.zoneWrite { c.newestZone with ring := c.newestZone.ring ++ c.lauter.journal ++ c.lauter.backlog }).lauter.zones := by
  unfold Chip.cleanRoots
  dsimp only
  generalize hd : c.zoneWrite { c.newestZone with ring := c.newestZone.ring ++ c.lauter.journal ++ c.lauter.backlog } = d
  have fd : Frame [.lauter] d c := by rw [← hd]; exact Frame.set_lauter (by decide) c _
  generalize hu : ({ d with lauter := { d.lauter with journal := [], backlog := [] } } : Chip) = u
  have fu : Frame [.lauter] u d := by rw [← hu]; exact Frame.set_lauter (by decide) d _
  have z := Chip.zoneRoots_frame u true
  have l := z.lauter (by decide)
  exact ⟨(z.mono (by decide)).trans ((fu.mono (by decide)).trans (fd.mono (by decide))), by rw [l, ← hu], by rw [l, ← hu], by rw [l, ← hu]⟩

/-- The NVM channels that are ONLINE, each once. -/
theorem Chip.onlineNvm_nodup (c : Chip) : ((c.onlineChans .nvm).map (· - 8)).Nodup := by
  unfold Chip.onlineChans
  rw [List.Nodup, List.pairwise_map]
  have : List.Pairwise (fun a b => a - 8 ≠ b - 8) [8, 9, 10, 11, 12, 13, 14, 15] := by decide
  exact this.filter _

/-- Where a channel that is ONLINE holds a zone copy, every root record of it is rewritten, with CLEAN as given (R295, R327). -/
theorem Chip.zoneRoots_clean (c : Chip) (b : Bool) (n : Nat) (h : n ∈ (c.onlineChans .nvm).map (· - 8)) (z : c.zoneChans.contains n = true) :
    ∃ f : Root → Root, ((c.zoneRoots b).nvm n).roots = (c.nvm n).roots.map (fun r => r.rewrite f)
      ∧ ∀ r, (f r).clean = b ∧ (f r).zone = true := by
  unfold Chip.zoneRoots
  dsimp only
  generalize hl : List.filter _ ((c.onlineChans .nvm).map (· - 8)) = l
  have nd : l.Nodup := by rw [← hl]; exact c.onlineNvm_nodup.filter _
  have hm : n ∈ l := by rw [← hl, List.mem_filter]; exact ⟨h, by rw [z]; rfl⟩
  have g : ∀ (l : List Nat) (d : Chip), Frame [.kiln] d c → l.Nodup → 
      let e := l.foldl (fun (s : Chip) k => s.setNvm k { s.nvm k with roots := (s.nvm k).roots.map (fun r => r.rewrite (s.rootNow k b)) }) d
      (n ∉ l → e.nvm n = d.nvm n) ∧ (n ∈ l → ∃ f : Root → Root, (e.nvm n).roots = (d.nvm n).roots.map (fun r => r.rewrite f)
        ∧ ∀ r, (f r).clean = b ∧ (f r).zone = true) := by
    intro l
    induction l with
    | nil => intro d _ _; exact ⟨fun _ => rfl, fun h => absurd h (by simp)⟩
    | cons k l ih =>
      intro d fd nd
      obtain ⟨nk, nl⟩ := List.nodup_cons.mp nd
      dsimp only
      rw [List.foldl_cons]
      generalize hw : d.setNvm k { d.nvm k with roots := (d.nvm k).roots.map (fun r => r.rewrite (d.rootNow k b)) } = w
      have wf : Frame [.kiln] w d := by rw [← hw]; exact Frame.set_kiln (by decide) d _
      have wk : (w.nvm k).roots = (d.nvm k).roots.map (fun r => r.rewrite (d.rootNow k b)) := by rw [← hw, Chip.nvm_setNvm]
      have wo : ∀ j, j ≠ k → w.nvm j = d.nvm j := fun j hj => by rw [← hw]; exact Chip.nvm_setNvm_other _ _ hj
      obtain ⟨a1, a2⟩ := ih w (wf.trans fd) nl
      dsimp only at a1 a2
      refine ⟨fun hn => ?_, fun hn => ?_⟩
      · rw [List.mem_cons, not_or] at hn
        rw [a1 hn.2, wo n hn.1]
      · by_cases hk : n = k
        · subst hk
          rw [a1 nk]
          refine ⟨_, wk, fun r => ⟨rfl, ?_⟩⟩
          have e1 : d.rwp = c.rwp := fd .rwp (by decide)
          have e2 : d.rw = c.rw := fd .rw (by decide)
          show d.zoneChans.contains n = true
          have : d.zoneChans = c.zoneChans := by unfold Chip.zoneChans Chip.cfg; rw [e1, e2]
          rw [this]; exact z
        · rcases List.mem_cons.mp hn with h | h
          · exact absurd h hk
          · obtain ⟨f, e, g⟩ := a2 h
            exact ⟨f, by rw [e, wo n hk], g⟩
  exact (g l c (Frame.refl _ _) nd).2 hm

/-- A channel of a zone copy that is ONLINE is one of the ONLINE channels (R164). -/
theorem Chip.zoneOnline_mem (c : Chip) (n : Nat) (h : n ∈ c.zoneOnline) : n ∈ (c.onlineChans .nvm).map (· - 8) ∧ c.zoneChans.contains n = true := by
  unfold Chip.zoneOnline at h
  rw [List.mem_filter] at h
  obtain ⟨m, o⟩ := h
  simp only [decide_eq_true_eq] at o
  refine ⟨List.mem_map.mpr ⟨8 + n, ?_, by omega⟩, List.contains_iff_mem.mpr m⟩
  have lt : n < 8 := by
    unfold Chip.zoneChans bitsOf at m
    simp only [List.mem_cons, List.not_mem_nil, or_false] at m
    rcases m with rfl | rfl <;> exact Nat.mod_lt _ (by decide)
  show 8 + n ∈ [8, 9, 10, 11, 12, 13, 14, 15].filter (fun n => decide (c.chanState n = .online))
  rw [List.mem_filter]
  refine ⟨?_, by simp [o]⟩
  simp only [List.mem_cons, List.not_mem_nil, or_false]
  omega

/-- The roots of every zone copy on an ONLINE channel are rewritten CLEAN (R327). -/
theorem Chip.cleanRoots_roots (c : Chip) (n : Nat) (h : n ∈ c.zoneOnline) :
    ∃ f : Root → Root, ((c.cleanRoots).nvm n).roots = (c.nvm n).roots.map (fun r => r.rewrite f)
      ∧ ∀ r, (f r).clean = true ∧ (f r).zone = true := by
  obtain ⟨a, b⟩ := c.zoneOnline_mem n h
  unfold Chip.cleanRoots
  dsimp only
  generalize hd : c.zoneWrite { c.newestZone with ring := c.newestZone.ring ++ c.lauter.journal ++ c.lauter.backlog } = d
  generalize hu : ({ d with lauter := { d.lauter with journal := [], backlog := [] } } : Chip) = u
  have uo : u.onlineChans .nvm = c.onlineChans .nvm := by rw [← hu, ← hd]; rfl
  have uz : u.zoneChans = c.zoneChans := by rw [← hu, ← hd]; rfl
  have un : u.nvm n = c.nvm n := by rw [← hu, ← hd]; rfl
  obtain ⟨f, e, g⟩ := u.zoneRoots_clean true n (by rw [uo]; exact a) (by rw [uz]; exact b)
  exact ⟨f, by rw [e, un], g⟩

/-- The fresh roots of a channel's packages (R296, R333): intact, of the device's media set, and of the generation asked for. -/
theorem Chip.freshRoots_facts (ch : Nat) (gen : RootRec → Nat) (m : Option Nat) (zc : List Nat) : ∀ (l : List RootRec) (acc : List RootRec × Chip),
    acc.2.mediaSet = m → acc.2.zoneChans = zc →
    let e := l.foldl (fun (acc : List RootRec × Chip) r =>
      let (k, s) := acc.2.freshRoot ch acc.1.length (gen r)
      (acc.1 ++ [k], s)) acc
    Frame [.free] e.2 acc.2 ∧ e.1.length = acc.1.length + l.length ∧ (∀ i, i < acc.1.length → e.1[i]? = acc.1[i]?)
      ∧ ∀ i x, l[i]? = some x → ∃ r : Root, e.1[acc.1.length + i]? = some { formatted := true, copyA := r.image }
        ∧ r.channel = ch ∧ r.package = acc.1.length + i ∧ r.mediaSet = m.getD 0 ∧ r.generation = gen x ∧ r.zone = zc.contains ch
        ∧ r.clean = true := by
  intro l
  induction l with
  | nil => intro acc _ _; exact ⟨Frame.refl _ _, rfl, fun _ _ => rfl, fun i x h => by simp at h⟩
  | cons a l ih =>
    intro acc hm hz
    dsimp only
    rw [List.foldl_cons]
    obtain ⟨k, c, e, hc, fc, r, hk, r1, r2, r3, r4, r5, r6⟩ : ∃ k c, acc.2.freshRoot ch acc.1.length (gen a) = (k, c)
        ∧ c = { acc.2 with free := acc.2.free + 1 } ∧ Frame [.free] c acc.2 ∧ ∃ r : Root, k = { formatted := true, copyA := r.image } ∧ r.channel = ch ∧ r.package = acc.1.length ∧ r.mediaSet = m.getD 0
          ∧ r.generation = gen a ∧ r.zone = zc.contains ch ∧ r.clean = true :=
      ⟨_, _, rfl, rfl, Frame.set_free (by decide) _ _, _, rfl, rfl, rfl, by rw [← hm]; rfl, rfl, by rw [← hz]; rfl, rfl⟩
    rw [e]
    dsimp only
    have hm' : c.mediaSet = m := by rw [← hm, hc]; rfl
    have hz' : c.zoneChans = zc := by rw [← hz, hc]; rfl
    obtain ⟨a1, a2, a3, a4⟩ := ih (acc.1 ++ [k], c) hm' hz'
    dsimp only at a1 a2 a3 a4
    have len : (acc.1 ++ [k]).length = acc.1.length + 1 := by simp
    rw [len] at a2 a3 a4
    refine ⟨a1.trans fc, by rw [a2, List.length_cons]; omega, fun i hi => ?_, fun i x hx => ?_⟩
    · rw [a3 i (by omega), List.getElem?_append_left hi]
    · cases i with
      | zero =>
        rw [List.getElem?_cons_zero, Option.some.injEq] at hx
        subst hx
        refine ⟨r, ?_, r1, r2, r3, r4, r5, r6⟩
        rw [Nat.add_zero, a3 _ (by omega), ← hk]
        simp
      | succ i =>
        rw [List.getElem?_cons_succ] at hx
        obtain ⟨q, q1, q2, q3, q4⟩ := a4 i x hx
        have : acc.1.length + 1 + i = acc.1.length + (i + 1) := by omega
        rw [this] at q1 q3
        exact ⟨q, q1, q2, q3, q4⟩

end Sys2Proof.Machine
end

