-- ==== Sys2Proof/Laws/Reads.lean ====
section
/-!
SUPPORT. Laws/Reads.lean: what reading lines of a page from its tier may change, for a copy, a merge or an expansion (R153, R154, R276,
R305, R341).
-/
namespace Sys2Proof.Machine

open Sys2Proof

/-- What reading lines from their tier may change: what the codes of the tiers, the channels, the keys and the decoder note of errors, and
the bytes that a decoded segment gives. -/
abbrev readParts : List Part :=
  [.dram, .lauter, .kiln, .map, .integ, .husk, .poison, .mem, .mill, .fault, .heads, .field, .mode, .free]

theorem Chip.raise_read (s : Chip) (n m d : Nat) : Frame readParts (s.raise n m d) s := (Chip.raise_eq _ _ _ _ _ _).frame.mono (by decide)

theorem Chip.retEntry_read (s : Chip) (a b c d e f g h i : Nat) : Frame readParts (s.retEntry a b c d e f g h i) s :=
  (Chip.retAppend_frame s _).mono (by decide)

theorem Chip.atThreshold_read (s : Chip) (a b c d e f g h i j : Nat) : Frame readParts (s.atThreshold a b c d e f g h i j) s := by
  unfold Chip.atThreshold
  exact Frame.ite _ (Chip.retEntry_read _ _ _ _ _ _ _ _ _ _) (Frame.refl _ _)

theorem Chip.countCE_read (s : Chip) (t : PgState) (a b c d e f g : Nat) : Frame readParts (s.countCE t a b c d e f g) s := by
  unfold Chip.countCE
  dsimp only
  have base (x : IntegUnit) : Frame readParts ({ s with integ := x } : Chip) s := Frame.set_integ (by decide) s _
  cases t <;> dsimp only <;>
    first
    | exact (Chip.atThreshold_read _ _ _ _ _ _ _ _ _ _ _).trans ((Frame.set_integ (by decide) _ _).trans
        ((Chip.atThreshold_read _ _ _ _ _ _ _ _ _ _ _).trans (base _)))
    | exact (Chip.atThreshold_read _ _ _ _ _ _ _ _ _ _ _).trans ((Chip.atThreshold_read _ _ _ _ _ _ _ _ _ _ _).trans
        ((Frame.set_dram (by decide) _ _).trans ((Frame.set_integ (by decide) _ _).trans
          ((Chip.atThreshold_read _ _ _ _ _ _ _ _ _ _ _).trans (base _)))))

theorem Chip.queueRepair_read (s : Chip) (t : PgState) (ln : Nat) : Frame readParts (s.queueRepair t ln) s := by
  unfold Chip.queueRepair
  dsimp only
  have w (x : IntegUnit) : Frame readParts ({ s with integ := x } : Chip) s := Frame.set_integ (by decide) s x
  exact Frame.ite _ (Frame.refl _ _) (Frame.ite _ (Frame.ite _ (w _) (w _)) (w _))

theorem Chip.freeze_read (s : Chip) (n cause sector : Nat) : Frame readParts (s.freeze n cause sector) s := by
  by_cases h : (s.ddr n).freeze = 1
  · unfold Chip.freeze
    dsimp only
    rw [if_pos h]
    exact Frame.set_dram (by decide) s _
  · exact (Chip.freeze_frame s n cause sector h).mono (by decide)

theorem Chip.trueUe_read (s : Chip) (ln ch sector origin : Nat) : Frame readParts (s.trueUe ln ch sector origin) s := by
  unfold Chip.trueUe Chip.poisonListAdd
  dsimp only
  refine (Chip.retEntry_read _ _ _ _ _ _ _ _ _ _).trans (Frame.trans ?_ (s.freeze_read ch 1 sector))
  split
  · exact Frame.refl _ _
  · split
    · exact Frame.set_dram (by decide) _ _
    · exact (Chip.commitPage_frame _ _ _).mono (by decide)

theorem Chip.useHbmKey_read (s : Chip) : Frame readParts s.useHbmKey.2 s := s.useHbmKey_frame.mono (by decide)

theorem Chip.readHbm_read (s : Chip) (ln at' : Nat) (o : CodeRes) (origin : Nat) : Frame readParts (s.readHbm ln at' o origin).2 s := by
  unfold Chip.readHbm
  have k := s.useHbmKey_read
  generalize s.useHbmKey = x at k
  obtain ⟨b, d⟩ := x
  cases b
  · exact k
  · cases o with
    | ok => exact k
    | corrected n e => exact (Chip.queueRepair_read _ _ _).trans ((Chip.countCE_read _ _ _ _ _ _ _ _ _).trans k)
    | uncorrectable again =>
      cases again
      · exact (Chip.raise_read _ _ _ _).trans ((Chip.retEntry_read _ _ _ _ _ _ _ _ _ _).trans ((Frame.set_integ (by decide) _ _).trans
          (((Chip.setPoison_frame d _ true).mono (by decide)).trans k)))
      · exact (Chip.queueRepair_read _ _ _).trans k

theorem Chip.readDdr_read (s : Chip) (ln ch loc i : Nat) (o : Obs) (origin : Nat) : Frame readParts (s.readDdr ln ch loc i o origin).2 s := by
  unfold Chip.readDdr Chip.rereadOk
  dsimp only
  generalize (if o.second = true then (s.ddrServing ch (loc + i)).getLastD ch else (s.ddrServing ch (loc + i)).headD ch) = c
  split
  · exact Frame.refl _ _
  · cases o.code with
    | ok => exact Frame.refl _ _
    | corrected n e => exact (Chip.queueRepair_read _ _ _).trans (Chip.countCE_read _ _ _ _ _ _ _ _ _)
    | uncorrectable again =>
      dsimp only
      split
      · dsimp only
        split
        · exact Frame.set_dram (by decide) s _
        · exact Chip.freeze_read _ _ _ _
      · split
        · exact Frame.set_dram (by decide) s _
        · exact Chip.trueUe_read _ _ _ _ _

theorem Chip.readNvm_read (s : Chip) (ln ch loc i : Nat) (o : Obs) (origin : Nat) : Frame readParts (s.readNvm ln ch loc i o origin).2 s := by
  have b : Frame readParts (s.busCount ch o.bus) s := by
    unfold Chip.busCount
    split
    · exact Frame.refl _ _
    · exact Frame.set_kiln (by decide) s _
    · exact Frame.set_kiln (by decide) s _
  unfold Chip.readNvm
  dsimp only
  generalize s.busCount ch o.bus = d at b
  refine Frame.trans ?_ b
  cases mediaCode o with
  | ok => exact Frame.refl _ _
  | corrected n e =>
    dsimp only
    have c := d.countCE_read .nvm ch (ln / 64) loc i origin n 0xFF
    generalize d.countCE .nvm ch (ln / 64) loc i origin n 0xFF = u at c
    split
    · refine Frame.trans ?_ c
      unfold Chip.queueWitness
      exact Frame.ite _ (Frame.refl _ _) (Frame.ite _ (Frame.set_kiln (by decide) u _) (Frame.set_kiln (by decide) u _))
    · exact c
  | uncorrectable again =>
    dsimp only
    split
    · exact Frame.refl _ _
    · unfold Chip.queueRescue
      exact Frame.ite _ (Frame.refl _ _) (Frame.set_kiln (by decide) d _)

theorem Chip.tierFetch_read (s : Chip) (ln : Nat) (o : Obs) (origin : Nat) : Frame readParts (s.tierFetch ln o origin).2 s := by
  unfold Chip.tierFetch
  dsimp only
  split
  · exact Frame.refl _ _
  · split
    · exact Chip.readHbm_read _ _ _ _ _
    · split
      · exact Chip.readHbm_read _ _ _ _ _
      · exact Chip.readDdr_read _ _ _ _ _ _ _
      · split
        · exact Frame.refl _ _
        · exact Chip.readNvm_read _ _ _ _ _ _ _
      · exact Frame.refl _ _

theorem Chip.macCheck_read (s : Chip) (b : Bool) (o : MacRes) : Frame readParts (s.macCheck b o).2 s := by
  unfold Chip.macCheck
  split
  · exact Frame.refl _ _
  · cases o
    · exact Frame.refl _ _
    · exact Frame.set_husk (by decide) s _
    · exact Frame.refl _ _

theorem Chip.takeSegment_read (s : Chip) (p k : Nat) (ls : List Line) : Frame readParts (s.takeSegment p k ls) s := by
  unfold Chip.takeSegment
  have g : ∀ (l : List Nat) (u : Chip), Frame readParts (l.foldl (fun (s : Chip) i =>
      let ln := 64 * p + 4 * k + i
      let x := ls.getD i 0
      if s.isAbsorbed (64 * ln) || (Tab.find s.cache.lines ln).isSome || s.cache.side.contains ln || decide (s.line (64 * ln) = x) then s
      else { s with mem := Mem.writeLine s.mem (64 * ln) fullMask x }) u) u := by
    intro l
    induction l with
    | nil => intro u; exact Frame.refl _ _
    | cons i l ih =>
      intro u
      refine (ih _).trans ?_
      dsimp only
      exact Frame.ite _ (Frame.refl _ _) (Frame.set_mem (by decide) u _)
  exact g _ s

theorem Chip.decodeSegment_read (s : Chip) (p k : Nat) (mac : MacRes) : Frame readParts (s.decodeSegment p k mac).2 s := by
  unfold Chip.decodeSegment
  dsimp only
  split
  · unfold Chip.decodeError
    exact (Chip.raise_read _ _ _ _).trans (Frame.set_mill (by decide) s _)
  · rename_i b _
    have key (x : Got × Chip) (h : Frame readParts x.2 s) :
        Frame readParts (x.1, if x.1 = .good then x.2.takeSegment p k (segLines b) else x.2).2 s :=
      Frame.ite _ ((Chip.takeSegment_read _ _ _ _).trans h) h
    refine key _ ?_
    split
    · exact Chip.macCheck_read _ _ _
    · exact Frame.refl _ _

theorem Chip.verifyLine_read (s : Chip) (p i : Nat) (o : Obs) : Frame readParts (s.verifyLine p i o).2 s := by
  unfold Chip.verifyLine
  dsimp only
  have al (u : Chip) (a : Nat) : Frame readParts (({ u with husk := { u.husk with macFailures := u.husk.macFailures + 1 } } : Chip).raise 80 0xFF a) u :=
    (Chip.raise_read _ _ _ _).trans (Frame.set_husk (by decide) u _)
  split
  · exact Frame.refl _ _
  · split
    · split
      · exact Frame.refl _ _
      · have d := s.decodeSegment_read p (i / 4) o.mac
        generalize s.decodeSegment p (i / 4) o.mac = x at d
        obtain ⟨g, u⟩ := x
        cases g
        · exact d
        all_goals first | exact d | exact (al _ _).trans d
    · split
      · have d := s.macCheck_read (s.lineMacOk (64 * p + i)) o.mac
        generalize s.macCheck (s.lineMacOk (64 * p + i)) o.mac = x at d
        obtain ⟨g, u⟩ := x
        cases g
        · exact d
        all_goals exact (al _ _).trans d
      · exact Frame.refl _ _

theorem Chip.copyLine_read (s : Chip) (p i : Nat) (t : Bool) (o : Obs) (origin : Nat) : Frame readParts (s.copyLine p i t o origin).2 s := by
  unfold Chip.copyLine
  dsimp only
  have h := s.tierFetch_read (64 * p + i) { o with gsec := Fin.ofNat 64 i } origin
  generalize hx : (if ((s.srcRec p).grist && decide ((s.srcRec p).sectors < i) && !s.isAbsorbed (64 * (64 * p + i))) = true then (Got.good, s)
    else s.tierFetch (64 * p + i) { o with gsec := Fin.ofNat 64 i } origin) = x
  have hr : Frame readParts x.2 s := by
    rw [← hx]
    split
    · exact Frame.refl _ _
    · exact h
  obtain ⟨g, u⟩ := x
  cases g
  · dsimp only
    split
    · exact (Chip.verifyLine_read _ _ _ _).trans hr
    · exact hr
  all_goals exact hr

theorem Chip.damageGrist_read (s : Chip) (p : Nat) (x : List (BitVec 12 × Byte)) : Frame readParts (s.damageGrist p x) s := by
  unfold Chip.damageGrist
  exact Frame.ite _ (Frame.refl _ _) (Frame.set_mill (by decide) s _)

/-- Reading lines of a page, for a copy, a merge or an expansion. -/
theorem Chip.readLines_read (s : Chip) (p mask : Nat) (t : Bool) (obs : List (Fin 64 × Obs)) (origin : Nat) :
    Frame readParts (s.readLines p mask t obs origin).2 s := by
  unfold Chip.readLines
  dsimp only
  have a : ∀ (l : List (Fin 64 × Obs)) (u : Chip), Frame readParts (l.foldl (fun s e => s.damageGrist p e.2.grist) u) u := by
    intro l
    induction l with
    | nil => intro u; exact Frame.refl _ _
    | cons e l ih => intro u; exact (ih _).trans (Chip.damageGrist_read _ _ _)
  generalize hd : obs.foldl (fun s e => s.damageGrist p e.2.grist) s = d
  have fd : Frame readParts d s := by rw [← hd]; exact a _ _
  generalize d.absorbedMask p = own
  have b : ∀ (l : List Nat) (x : Nat × Chip), Frame readParts (l.foldl (fun (acc : Nat × Chip) i =>
      (acc.1 ||| (if bitOf own i then (acc.2.copyLine p i t (lineObs obs i) origin).1
        else (acc.2.copyLine p i t (lineObs obs i) origin).1 - ((acc.2.copyLine p i t (lineObs obs i) origin).1 &&& own)),
       (acc.2.copyLine p i t (lineObs obs i) origin).2)) x).2 x.2 := by
    intro l
    induction l with
    | nil => intro x; exact Frame.refl _ _
    | cons i l ih => intro x; exact (ih _).trans (Chip.copyLine_read _ _ _ _ _ _)
  exact (b _ (0, d)).trans fd

/-- Where no line is to be read and nothing is observed, nothing is poisoned and nothing changes. -/
theorem Chip.readLines_none (s : Chip) (p : Nat) (t : Bool) (origin : Nat) : s.readLines p 0 t [] origin = (0, s) := by
  unfold Chip.readLines
  have : (List.range 64).filter (fun i => bitOf 0 i) = [] := by decide
  simp only [List.foldl_nil, this]

/-- The end of a pass leaves the slot but for the lines it found bad, and what reading lines may change. -/
theorem Chip.endPass_read (s : Chip) (m : Slot) (obs : List (Fin 64 × Obs)) :
    Frame readParts (s.endPass m obs).2 s ∧ ∃ b, (s.endPass m obs).1 = { m with bad := b } :=
  ⟨Chip.readLines_read s m.page m.pass m.transforms obs 3, _, rfl⟩

/-- A pass over no line, with nothing observed, changes nothing. -/
theorem Chip.endPass_none (s : Chip) (m : Slot) (h : m.pass = 0) : s.endPass m [] = (m, s) := by
  obtain ⟨p, src, dst, mask, n, st, pa, re, si, pass, bad⟩ := m
  subst h
  unfold Chip.endPass
  rw [Chip.readLines_none]
  simp

/-- Poison over some lines of a page marks them and nothing else. -/
theorem Chip.poisonLines_frame (s : Chip) (p mask : Nat) : Frame [.poison, .integ] (s.poisonLines p mask) s := by
  unfold Chip.poisonLines
  have g : ∀ (l : List Nat) (u : Chip), Frame [.poison, .integ] (l.foldl (fun (s : Chip) i => s.setPoison (64 * (64 * p + i)) true) u) u := by
    intro l
    induction l with
    | nil => intro u; exact Frame.refl _ _
    | cons i l ih => intro u; exact (ih _).trans (u.setPoison_frame _ true)
  exact g _ s

theorem Chip.poisonLines_zero (s : Chip) (p : Nat) : s.poisonLines p 0 = s := by
  unfold Chip.poisonLines
  have : (List.range 64).filter (fun i => bitOf 0 i) = [] := by decide
  rw [this]; rfl

/-- Every line that was to be poisoned is (R153). -/
theorem Chip.poisonLines_marks (s : Chip) (p mask k : Nat) (hk : k < 64) (hb : bitOf mask k = true) :
    (s.poisonLines p mask).poisoned (64 * (64 * p + k)) = true := by
  unfold Chip.poisonLines
  have ln (i : Nat) : lineNo (64 * (64 * p + i)) = 64 * p + i := by unfold lineNo; omega
  have g : ∀ (l : List Nat) (u : Chip), (u.poisoned (64 * (64 * p + k)) = true ∨ k ∈ l) →
      (l.foldl (fun (s : Chip) i => s.setPoison (64 * (64 * p + i)) true) u).poisoned (64 * (64 * p + k)) = true := by
    intro l
    induction l with
    | nil => intro u h; exact h.elim id (fun h => absurd h (by simp))
    | cons i l ih =>
      intro u h
      refine ih _ ?_
      by_cases e : k = i
      · subst e
        refine .inl ?_
        unfold Chip.setPoison Chip.poisoned
        dsimp only
        exact Tab.get_put_same _ _ _ _
      · rcases h with h | h
        · refine .inl ?_
          unfold Chip.setPoison Chip.poisoned at *
          dsimp only
          have : lineNo (64 * (64 * p + k)) ≠ lineNo (64 * (64 * p + i)) := by rw [ln, ln]; omega
          rw [Tab.get_put_other _ _ _ this]
          split <;> exact h
        · exact .inr ((List.mem_cons.mp h).resolve_left e)
  exact g _ s (.inr (List.mem_filter.mpr ⟨List.mem_range.mpr hk, hb⟩))

end Sys2Proof.Machine
end

