-- ==== Sys2Proof/Laws/Ticks.lean ====
section
/-!
SUPPORT. Laws/Ticks.lean: what one edge of the timebase does with the debts of the deferred work.
-/
namespace Sys2Proof.Machine

/-- What a class's debt asks for leaves every level, and every other class's forced bit. -/
theorem Chip.debtCheck_facts (c : Chip) (k : Nat) :
    ∃ o v f, c.debtCheck k = { c with win := { c.win with debtOverruns := o, overrun := v, forced := f } }
      ∧ ∀ j, j ≠ k → bitOf f j = bitOf c.win.forced j := by
  unfold Chip.debtCheck
  dsimp only
  split <;> split
  · exact ⟨_, _, _, rfl, fun j h => bitOf_setBit_other _ h⟩
  · split
    · exact ⟨_, _, _, rfl, fun j h => bitOf_clear_other _ h⟩
    · exact ⟨_, _, _, rfl, fun _ _ => rfl⟩
  · exact ⟨_, _, _, rfl, fun j h => bitOf_setBit_other _ h⟩
  · split
    · exact ⟨_, _, _, rfl, fun j h => bitOf_clear_other _ h⟩
    · exact ⟨_, _, _, rfl, fun _ _ => rfl⟩

/-- A class other than SCRUB over one cycle: its own level, rest and forced bit, and nothing else that a class reads (R41). -/
theorem Chip.classTick_facts (c : Chip) (k den : Nat) :
    ∃ o v f, (c.classTick k den).debtCheck k = { c with win := { c.win with
        debtLevel := Tab.put 0 c.win.debtLevel k (debtStep (Tab.get 0 c.win.debtLevel k) (Tab.get 0 c.win.debtRest k) (c.accrual k) (c.repayRate k) den).1
        debtRest := Tab.put 0 c.win.debtRest k (debtStep (Tab.get 0 c.win.debtLevel k) (Tab.get 0 c.win.debtRest k) (c.accrual k) (c.repayRate k) den).2
        debtOverruns := o, overrun := v, forced := f } }
      ∧ ∀ j, j ≠ k → bitOf f j = bitOf c.win.forced j := by
  obtain ⟨o, v, f, e, g⟩ := (c.classTick k den).debtCheck_facts k
  exact ⟨o, v, f, by rw [e]; rfl, g⟩

/-- The tiers' debts stand in the integrity unit. -/
theorem Chip.tierTicks_only (c : Chip) (r den : Nat) : ∃ i, c.tierTicks r den = { c with integ := i } := by
  unfold Chip.tierTicks
  simp only [List.foldl_cons, List.foldl_nil]
  have one : ∀ (d : Chip) (t : Nat), ∃ i, d.tierTick r den t = { d with integ := i } := fun d t => ⟨_, rfl⟩
  obtain ⟨i, e⟩ := one c 1
  obtain ⟨j, g⟩ := one (c.tierTick r den 1) 2
  obtain ⟨k, h⟩ := one ((c.tierTick r den 1).tierTick r den 2) 3
  exact ⟨k, by rw [h, g, e]⟩

/-- SCRUB over one cycle: the tiers' debts, the level that is the largest of them, and its forced bit (R351). -/
theorem Chip.scrubTick_facts (c d : Chip) (den : Nat) (h : c.tierTicks (c.repayRate 1) den = d) :
    ∃ o v f, (c.scrubTick den).debtCheck 1 = { d with win := { d.win with
        debtLevel := Tab.put 0 d.win.debtLevel 1 d.scrubLevel, debtOverruns := o, overrun := v, forced := f } }
      ∧ ∀ j, j ≠ 1 → bitOf f j = bitOf d.win.forced j := by
  have e : c.scrubTick den = { d with win := { d.win with debtLevel := Tab.put 0 d.win.debtLevel 1 d.scrubLevel } } := by
    unfold Chip.scrubTick
    dsimp only
    rw [h]
  obtain ⟨o, v, f, e2, g⟩ := (c.scrubTick den).debtCheck_facts 1
  rw [e] at e2 g
  exact ⟨o, v, f, by rw [e, e2], g⟩

/-- The rate of repayment reads the windows, the mode, the settings and the class's own forced bit alone. -/
theorem Chip.repayRate_congr {c d : Chip} (k : Nat) (h : ∃ w i, d = { c with win := w, integ := i }) (p : d.win.pending = c.win.pending)
    (f : bitOf d.win.forced k = bitOf c.win.forced k) : d.repayRate k = c.repayRate k := by
  obtain ⟨w, i, rfl⟩ := h
  have b : ({ c with win := w, integ := i } : Chip).window = c.window := by unfold Chip.window; rw [p]
  unfold Chip.repayRate Chip.inBurst Chip.inQuiet
  rw [b, f]
  rfl

/-- The debts over one cycle of `den` / 1,000,000 µs (R41, R351). -/
theorem Chip.debts_facts (c : Chip) (h : c.tb.measuredKhz ≠ 0) :
    ∃ w i, [0, 1, 2, 3, 4].foldl (fun s k => s.debtTick k) c = { c with win := w, integ := i }
      ∧ w.pending = c.win.pending ∧ i = (c.tierTicks (c.repayRate 1) (1000 * c.tb.measuredKhz)).integ
      ∧ Tab.get 0 w.debtLevel 1 = (c.tierTicks (c.repayRate 1) (1000 * c.tb.measuredKhz)).scrubLevel
      ∧ ∀ k, k = 0 ∨ k = 2 ∨ k = 3 ∨ k = 4 → (Tab.get 0 w.debtLevel k, Tab.get 0 w.debtRest k)
        = debtStep (Tab.get 0 c.win.debtLevel k) (Tab.get 0 c.win.debtRest k) (Tab.get 0 c.win.debtAccrual k) (c.repayRate k) (1000 * c.tb.measuredKhz) := by
  generalize hn : 1000 * c.tb.measuredKhz = den
  have n0 : den ≠ 0 := by omega
  -- one class over one cycle, on a device that differs from `c` in the debts alone
  have one : ∀ (d : Chip) (k : Nat), k ≠ 1 → (∃ w i, d = { c with win := w, integ := i }) → d.win.pending = c.win.pending → d.win.debtAccrual = c.win.debtAccrual →
      bitOf d.win.forced k = bitOf c.win.forced k → Tab.get 0 d.win.debtLevel k = Tab.get 0 c.win.debtLevel k → Tab.get 0 d.win.debtRest k = Tab.get 0 c.win.debtRest k →
      (∃ w i, d.debtTick k = { c with win := w, integ := i }) ∧ (d.debtTick k).win.pending = c.win.pending ∧ (d.debtTick k).win.debtAccrual = c.win.debtAccrual
        ∧ (d.debtTick k).integ = d.integ ∧ (∀ j, j ≠ k → bitOf (d.debtTick k).win.forced j = bitOf d.win.forced j)
        ∧ (∀ j, j ≠ k → Tab.get 0 (d.debtTick k).win.debtLevel j = Tab.get 0 d.win.debtLevel j ∧ Tab.get 0 (d.debtTick k).win.debtRest j = Tab.get 0 d.win.debtRest j)
        ∧ (Tab.get 0 (d.debtTick k).win.debtLevel k, Tab.get 0 (d.debtTick k).win.debtRest k)
          = debtStep (Tab.get 0 c.win.debtLevel k) (Tab.get 0 c.win.debtRest k) (Tab.get 0 c.win.debtAccrual k) (c.repayRate k) den := by
    intro d k k1 hd hp ha hf hl hr
    have dt : d.tb = c.tb := by obtain ⟨w, i, rfl⟩ := hd; rfl
    have rr := Chip.repayRate_congr k hd hp hf
    obtain ⟨o, v, f, e, g⟩ := d.classTick_facts k den
    have e' : d.debtTick k = (d.classTick k den).debtCheck k := by
      unfold Chip.debtTick
      dsimp only
      rw [dt, hn, if_neg n0, if_neg k1]
    have ac : d.accrual k = Tab.get 0 c.win.debtAccrual k := by unfold Chip.accrual; rw [if_neg k1, ha]
    rw [e', e, hl, hr, ac, rr]
    refine ⟨?_, hp, ha, rfl, g, fun j hj => ⟨Tab.get_put_other _ _ _ hj, Tab.get_put_other _ _ _ hj⟩, ?_⟩
    · obtain ⟨w, i, rfl⟩ := hd; exact ⟨_, _, rfl⟩
    · simp only [Tab.get_put, if_true, Prod.mk.eta]
  simp only [List.foldl_cons, List.foldl_nil]
  obtain ⟨a1, a2, a3, a4, a5, a6, a7⟩ := one c 0 (by decide) ⟨_, _, rfl⟩ rfl rfl rfl rfl rfl
  generalize ha : c.debtTick 0 = a at *
  -- SCRUB
  have at' : a.tb = c.tb := by obtain ⟨w, i, rfl⟩ := a1; rfl
  have sr : a.repayRate 1 = c.repayRate 1 := Chip.repayRate_congr 1 a1 a2 (a5 1 (by decide))
  have e' : a.debtTick 1 = (a.scrubTick den).debtCheck 1 := by
    unfold Chip.debtTick
    dsimp only
    rw [at', hn, if_neg n0, if_pos rfl]
  obtain ⟨u, hu⟩ : ∃ u, c.tierTicks (c.repayRate 1) den = u := ⟨_, rfl⟩
  obtain ⟨x, hx⟩ : ∃ x, a.tierTicks (a.repayRate 1) den = x := ⟨_, rfl⟩
  obtain ⟨o, v, f, e, g⟩ := a.scrubTick_facts x den hx
  obtain ⟨i, ti⟩ := c.tierTicks_only (c.repayRate 1) den
  rw [hu] at ti ⊢
  have xe : x = { c with win := a.win, integ := i } := by
    obtain ⟨w, j, hw⟩ := a1
    rw [hw] at a4
    have a4 : j = c.integ := a4
    have ae : a = { c with win := w } := by rw [hw, a4]
    have cong : ∀ (y : Chip) (w : WinUnit) (r : Nat), (({ y with win := w } : Chip).tierTicks r den) = { (y.tierTicks r den) with win := w } := by
      intro y w r
      rfl
    rw [← hx, sr, ae, cong, hu, ti]
  have lv : x.scrubLevel = u.scrubLevel := by
    unfold Chip.scrubLevel Chip.tierDebt; rw [xe, ti]
  obtain ⟨b, hb⟩ : ∃ b, a.debtTick 1 = b := ⟨_, rfl⟩
  have be : b = { c with win := { a.win with
        debtLevel := Tab.put 0 a.win.debtLevel 1 u.scrubLevel
        debtOverruns := o, overrun := v, forced := f }, integ := i } := by
    rw [← hb, e', e, lv, xe]
  have g : ∀ j, j ≠ 1 → bitOf f j = bitOf a.win.forced j := by rw [xe] at g; exact g
  have ie : i = u.integ := by rw [ti]
  rw [hb]
  have bw : b.win.pending = c.win.pending ∧ b.win.debtAccrual = c.win.debtAccrual ∧ b.integ = i ∧ Tab.get 0 b.win.debtLevel 1 = u.scrubLevel
      ∧ (∀ j, j ≠ 0 → j ≠ 1 → bitOf b.win.forced j = bitOf c.win.forced j)
      ∧ (∀ j, j ≠ 1 → Tab.get 0 b.win.debtLevel j = Tab.get 0 a.win.debtLevel j) ∧ (∀ j, Tab.get 0 b.win.debtRest j = Tab.get 0 a.win.debtRest j) := by
    rw [be]
    exact ⟨a2, a3, rfl, by simp only [Tab.get_put, if_true], fun j h0 h1 => (g j h1).trans (a5 j h0), fun j h1 => Tab.get_put_other _ _ _ h1, fun _ => rfl⟩
  obtain ⟨b1, b2, b3, b4, b5, b6, b7⟩ := bw
  have bo : ∃ w i, b = { c with win := w, integ := i } := ⟨_, _, be⟩
  obtain ⟨d1, d2, d3, d4, d5, d6, d7⟩ := one b 2 (by decide) bo b1 b2 (b5 2 (by decide) (by decide)) ((b6 2 (by decide)).trans (a6 2 (by decide)).1) ((b7 2).trans (a6 2 (by decide)).2)
  generalize b.debtTick 2 = d at *
  obtain ⟨p1, p2, p3, p4, p5, p6, p7⟩ := one d 3 (by decide) d1 d2 d3 ((d5 3 (by decide)).trans (b5 3 (by decide) (by decide)))
    ((d6 3 (by decide)).1.trans ((b6 3 (by decide)).trans (a6 3 (by decide)).1)) ((d6 3 (by decide)).2.trans ((b7 3).trans (a6 3 (by decide)).2))
  generalize d.debtTick 3 = p at *
  obtain ⟨q1, q2, q3, q4, q5, q6, q7⟩ := one p 4 (by decide) p1 p2 p3 ((p5 4 (by decide)).trans ((d5 4 (by decide)).trans (b5 4 (by decide) (by decide))))
    ((p6 4 (by decide)).1.trans ((d6 4 (by decide)).1.trans ((b6 4 (by decide)).trans (a6 4 (by decide)).1)))
    ((p6 4 (by decide)).2.trans ((d6 4 (by decide)).2.trans ((b7 4).trans (a6 4 (by decide)).2)))
  generalize p.debtTick 4 = q at *
  obtain ⟨w, j, hq⟩ := q1
  have hw : q.win = w := by rw [hq]
  have hj : q.integ = j := by rw [hq]
  refine ⟨w, j, hq, by rw [← hw, q2], by rw [← hj, q4, p4, d4, b3, ie], ?_, fun k hk => ?_⟩
  · rw [← hw, (q6 1 (by decide)).1, (p6 1 (by decide)).1, (d6 1 (by decide)).1, b4]
  · rw [← hw]
    rcases hk with rfl | rfl | rfl | rfl
    · rw [(q6 0 (by decide)).1, (q6 0 (by decide)).2, (p6 0 (by decide)).1, (p6 0 (by decide)).2, (d6 0 (by decide)).1, (d6 0 (by decide)).2, b6 0 (by decide), b7 0]
      exact a7
    · rw [(q6 2 (by decide)).1, (q6 2 (by decide)).2, (p6 2 (by decide)).1, (p6 2 (by decide)).2]
      exact d7
    · rw [(q6 3 (by decide)).1, (q6 3 (by decide)).2]
      exact p7
    · exact q7

/-- The debts over one cycle change the windows' debts and the tiers' alone. -/
theorem Chip.debts_only (c : Chip) : ∃ w i, [0, 1, 2, 3, 4].foldl (fun s k => s.debtTick k) c = { c with win := w, integ := i } ∧ w.pending = c.win.pending := by
  by_cases h : c.tb.measuredKhz = 0
  · have z : ∀ k, c.debtTick k = c := fun k => by
      unfold Chip.debtTick
      dsimp only
      rw [h, if_pos rfl]
    simp only [List.foldl_cons, List.foldl_nil, z]
    exact ⟨_, _, rfl, rfl⟩
  · obtain ⟨w, i, e, p, -⟩ := c.debts_facts h
    exact ⟨w, i, e, p⟩

/-- What an edge does once TC has moved. -/
def Chip.afterEdge (s : Chip) : Chip :=
  if s.tb.state = .unlocked then s
  else
    let s := if s.win.pending.isEmpty then s else s.passEdges
    let s := if s.lauter.copied.isEmpty then s else s.rollCopied
    ([0, 1, 2, 3, 4].foldl (fun s k => s.debtTick k) s).allowTick

/-- What an edge does after the due frame has been looked for. -/
def Chip.afterFrame (s : Chip) : Chip := ({ s with tb := s.tb.edgeOn } : Chip).afterEdge

theorem Chip.tick_eq (c : Chip) : c.tick = ({ c with cnt := { c.cnt with clocks := c.cnt.clocks + 1 } } : Chip).missFrame.afterFrame := rfl

/-- One edge at which no due frame is missed and the timebase runs: TC moves on, every edge it reaches acts, and then the debts and the
allowance move (R8, R17, R41, R495). -/
theorem Chip.tick_facts (c d : Chip) (h : c.tb.state ≠ .unlocked) (m : c.tb.atDue = false ∨ c.tb.lastDue = some (c.tb.tc / 65536))
    (e : ({ c with cnt := { c.cnt with clocks := c.cnt.clocks + 1 }, tb := c.tb.edgeOn } : Chip) = d) :
    ∃ p, p = (if d.win.pending.isEmpty then d else d.passEdges)
      ∧ c.tick = ([0, 1, 2, 3, 4].foldl (fun s k => s.debtTick k) (if p.lauter.copied.isEmpty then p else p.rollCopied)).allowTick
      ∧ Frame [.lauter, .win, .integ, .sb] c.tick p ∧ c.tick.win.pending = p.win.pending := by
  refine ⟨_, rfl, ?_⟩
  have run : c.tb.edgeOn.state ≠ .unlocked := by
    unfold Timebase.edgeOn
    rw [if_neg h]
    split
    · exact h
    · dsimp only
      split
      · exact fun z => TbState.noConfusion z
      · exact h
  have key : c.tick = ([0, 1, 2, 3, 4].foldl (fun s k => s.debtTick k) (if (if d.win.pending.isEmpty then d else d.passEdges).lauter.copied.isEmpty then
      (if d.win.pending.isEmpty then d else d.passEdges) else (if d.win.pending.isEmpty then d else d.passEdges).rollCopied)).allowTick := by
    have mf : ({ c with cnt := { c.cnt with clocks := c.cnt.clocks + 1 } } : Chip).missFrame = { c with cnt := { c.cnt with clocks := c.cnt.clocks + 1 } } := by
      unfold Chip.missFrame
      dsimp only
      rw [if_pos]
      rcases m with m | m
      · exact Or.inl (by simp [m])
      · exact Or.inr m
    have df : ({ c with cnt := { c.cnt with clocks := c.cnt.clocks + 1 } } : Chip).afterFrame = d.afterEdge := by rw [← e]; rfl
    have dr : d.tb.state ≠ .unlocked := by rw [← e]; exact run
    rw [Chip.tick_eq, mf, df]
    unfold Chip.afterEdge
    rw [if_neg dr]
  generalize (if d.win.pending.isEmpty then d else d.passEdges) = p at key ⊢
  rw [key]
  refine ⟨rfl, ?_⟩
  generalize hq : (if p.lauter.copied.isEmpty then p else p.rollCopied) = q
  have qf : Frame [.lauter, .win] q p ∧ q.win.pending = p.win.pending := by
    rw [← hq]
    split
    · exact ⟨Frame.refl _ _, rfl⟩
    · unfold Chip.rollCopied
      exact ⟨fun x hx => by cases x <;> first | rfl | (simp at hx; done), rfl⟩
  obtain ⟨w, i, e2, ep⟩ := q.debts_only
  rw [e2]
  have wf : Frame [.win, .integ] ({ q with win := w, integ := i } : Chip) q := fun x hx => by cases x <;> first | rfl | (simp at hx; done)
  generalize hr : ({ q with win := w, integ := i } : Chip) = r
  have rf : Frame [.sb] r.allowTick r ∧ r.allowTick.win = r.win := by
    unfold Chip.allowTick
    dsimp only
    split
    · exact ⟨Frame.refl _ _, rfl⟩
    · exact ⟨Frame.set_sb (by decide) _ _, rfl⟩
  rw [hr] at wf
  refine ⟨(rf.1.mono (by decide)).trans ((wf.mono (by decide)).trans (qf.1.mono (by decide))), ?_⟩
  rw [rf.2, ← hr, ← qf.2]
  exact ep

end Sys2Proof.Machine
end

