-- ==== Sys2Proof/WellFormed.lean ====
section
/-!
DEFINITION. WellFormed.lean: which commands are well formed: an operand that the physical path of its command can carry. `exec` is total on
the others too.
-/
namespace Sys2Proof

/-- A tier code: 1 HBM, 2 DDR5, 3 NVM. -/
def tierOk (t : Fin 4) : Bool := decide (t.val ≠ 0)

/-- The bytes after byte 0 of a CAN FD frame (R465): a frame carries at most 64. -/
def frameOk (rest : List Byte) : Bool := decide (rest.length ≤ 63)

/-- A packet's data bytes fill its slots 1 and up, 16 to a slot (R369). -/
def Packet.ok (p : Packet) : Bool := decide (p.data.length = 16 * p.slotsM1.toNat)

/-- A range of whole 2 MiB blocks (R84). -/
def Ext.ok (e : Ext) : Bool := decide (e.len ≠ 0 ∧ e.base.toNat % 2097152 = 0 ∧ e.len.toNat % 2097152 = 0)

/-- An address of the fold alias window (R434). -/
def aliasAddr (a : BitVec 46) : Bool := decide (0x3E0000000000 ≤ a.toNat ∧ a.toNat < 0x3F0000000000)

/-- The cells of the boundary register (R584). -/
abbrev scanCells : Nat := 4290

/-- The command's operands are such as its path can carry. -/
def Instr.wellFormed (i : Instr) : Bool :=
  match i with
  | .tbSyncFrame _ _ _ => true
  | .frameMissed => true
  | .tbClkLost => true
  | .holdoverExpired => true
  | .slewEnd => true
  | .windowsPost _ _ => true
  | .timelineApertureWrite _ off data => decide (data ≠ [] ∧ off.toNat + data.length ≤ 4096)
  | .cancelWindow _ _ _ => true
  | .writeFence _ => true
  | .prologue _ => true
  | .windowStart _ => true
  | .windowEnd _ => true
  | .barrierRetire _ => true
  | .scheduledOpStart => true
  | .scheduledOpEnd _ => true
  | .debtMaxReached _ _ _ => true
  | .debtOverrun _ _ _ => true
  | .absorbSpaceFreed => true
  | .counterSnapshotDue => true
  | .dumpWriteOut => true
  | .headTrained _ _ _ _ _ => true
  | .headLinkDown _ => true
  | .headLost _ => true
  | .headLinkUp _ => true
  | .memRead _ _ _ _ _ => true
  | .memWrite _ _ _ _ _ _ _ _ _ => true
  | .memCleanEvict _ _ _ => true
  | .biSnoopResponse _ _ _ => true
  | .biConflict _ _ => true
  | .hdmDecoderCommit _ _ _ _ _ _ => true
  | .offerTimeout ext => ext.ok
  | .getEventRecords _ _ => true
  | .clearEventRecords _ _ _ => true
  | .getEventInterruptPolicy _ => true
  | .setEventInterruptPolicy _ _ => true
  | .getFwInfo _ => true
  | .transferFw _ _ _ _ _ => true
  | .activateFw _ => true
  | .getTimestamp _ => true
  | .setTimestamp _ _ => true
  | .getSupportedLogs _ => true
  | .getLog _ _ _ => true
  | .identifyMemoryDevice _ => true
  | .getHealthInfo _ => true
  | .getPoisonList _ _ => true
  | .injectPoison _ _ => true
  | .clearPoison _ _ _ => true
  | .getDcConfiguration _ => true
  | .getDcExtentList _ => true
  | .addDcResponse _ exts => exts.all Ext.ok
  | .releaseDc _ exts => exts.all Ext.ok
  | .unsupportedOpcode _ _ => true
  | .dictionaryRead _ input => decide (input.length ≤ 4096)
  | .dictionaryWrite _ input => decide (input.length ≤ 4096)
  | .postWindow _ input => decide (input.length ≤ 4096)
  | .postWindowBatch _ input => decide (input.length ≤ 4096)
  | .getFailoverRecord _ input => decide (input.length ≤ 4096)
  | .ideKeyProgram _ _ => true
  | .ideIntegrityFailure _ _ => true
  | .perstAssert _ => true
  | .headHotReset _ _ => true
  | .gpfPhase1 => true
  | .gpfPhase2 => true
  | .caskCreate _ _ => true
  | .caskQuiesce _ _ => true
  | .caskQuiesced _ => true
  | .caskQuiesceTimeout _ => true
  | .caskResume _ _ => true
  | .caskReset _ _ => true
  | .caskResetComplete _ => true
  | .caskRemove _ _ => true
  | .caskAbortQuiesce _ _ => true
  | .caskLogClearOverflow _ _ => true
  | .caskPasidWrite _ _ _ => true
  | .logEnableWrite _ _ _ => true
  | .accessEdit _ _ => true
  | .accessTableWrite _ _ _ => true
  | .discardPage _ _ => true
  | .deferredDiscard _ => true
  | .mapRecordRepair _ _ => true
  | .caskDomainWrite _ _ _ => true
  | .domainForm _ _ => true
  | .domainReform _ _ => true
  | .domainRecall _ _ => true
  | .domainDisband _ _ => true
  | .recallComplete _ => true
  | .crdS _ _ p _ => p.ok
  | .crdE _ _ p _ => p.ok
  | .crdCur _ _ p _ => p.ok
  | .cwb _ p _ => p.ok
  | .cev _ p => p.ok
  | .cwr _ _ p _ => p.ok
  | .crel _ p => p.ok
  | .srspI _ p _ => p.ok
  | .srspS _ p _ => p.ok
  | .srspID _ p _ => p.ok
  | .srspSD _ p _ => p.ok
  | .srspCurD _ p _ => p.ok
  | .snoopDeadlineMiss _ _ => true
  | .pullDeadlineMiss _ => true
  | .heatDecayPass => true
  | .freeSpaceLow tier => tierOk tier
  | .migrationStart _ _ tier _ => tierOk tier
  | .copyPassEnd _ => true
  | .swing _ => true
  | .sourceRelease _ => true
  | .journalSpaceFreed => true
  | .journalDrain _ _ => true
  | .mapRebuild _ => true
  | .mapResidentWrite _ _ _ => true
  | .mapResidentEffect _ => true
  | .mirrorWaitExpiry _ => true
  | .chanOnline _ _ => true
  | .chanEvacuate _ _ => true
  | .evacuationComplete _ => true
  | .chanOffline _ _ => true
  | .chanCancelEvacuate _ _ => true
  | .retire _ _ => true
  | .retireComplete _ => true
  | .extentOffer _ _ _ _ ext => ext.ok
  | .extentWithdraw _ _ ext => ext.ok
  | .extentRequestRelease _ _ ext => ext.ok
  | .extentForceRelease _ _ ext => ext.ok
  | .blockStorageFree _ => true
  | .expansionComplete _ => true
  | .repackStart _ _ _ => true
  | .spaceAvailable _ => true
  | .spaceWaitExpiry _ => true
  | .caskKeyBlobLoad _ _ _ => true
  | .zeroise _ _ => true
  | .eraseWalkEnd _ => true
  | .zeroiseAll _ _ => true
  | .keyRebuild _ _ _ => true
  | .ownerRootProgram _ _ => true
  | .debugClose _ _ => true
  | .linkSlotBlobLoad _ _ _ _ => true
  | .switchKey _ _ _ => true
  | .cacheFlush _ _ => true
  | .cleanerWriteback _ => true
  | .scratchClear _ _ => true
  | .scratchWaysWrite _ _ => true
  | .wayEligible _ => true
  | .streamPrefetch _ _ _ _ => true
  | .hbmRefresh _ => true
  | .ddrRefresh _ _ => true
  | .dimmTempPoll _ _ => true
  | .hbmTempChange _ => true
  | .ddrAlert _ _ _ _ => true
  | .freezeLimitExpiry _ => true
  | .ddrRelease _ _ => true
  | .ddrRetrainRelease _ _ _ => true
  | .ddrDeclareLost _ _ => true
  | .resilver _ _ => true
  | .ddrFreqRequest _ _ => true
  | .helperWritePattern _ _ => true
  | .helperReadCompare _ _ => true
  | .helperSweep _ _ => true
  | .helperSetDelay _ _ => true
  | .helperMrw _ _ => true
  | .helperMrr _ _ => true
  | .helperComplete _ => true
  | .persistReserveWrite _ _ => true
  | .pageWrite _ _ _ _ _ _ => true
  | .programComplete _ _ => true
  | .mediaAlert _ _ => true
  | .programSuspend _ => true
  | .programResume _ => true
  | .programAbort _ _ => true
  | .mediaRescue _ _ => true
  | .witnessSweep _ _ best => decide (-4 ≤ best ∧ best ≤ 4)
  | .rekiln _ _ _ => true
  | .retentionExceeded _ _ _ => true
  | .reclaim _ _ => true
  | .blockClose _ _ _ => true
  | .kilnFormat _ _ => true
  | .persistFlushEnd => true
  | .scrubWrite _ => true
  | .patrolRead _ _ => true
  | .patrolOverdue tier => tierOk tier
  | .poolZero pool _ => tierOk pool.tier && decide (pool.tier.val ≠ 3)
  | .countHalving => true
  | .retlogPersist => true
  | .tsBlock _ _ => true
  | .trainingStepTimeout _ => true
  | .dataFlit _ _ => true
  | .controlFlit _ _ => true
  | .nak _ _ => true
  | .credit _ _ _ => true
  | .creditRd _ _ => true
  | .creditWb _ _ => true
  | .changeReq _ _ _ _ _ => true
  | .changeAck _ _ => true
  | .changeDefer _ _ => true
  | .changeRefuse _ _ => true
  | .changeGo _ _ _ => true
  | .downRecord _ _ => true
  | .changeReqTimeout _ => true
  | .changeTimeout _ => true
  | .changeComplete _ _ _ => true
  | .replayTimeout _ _ => true
  | .lossOfSignal _ => true
  | .autoRetrain _ => true
  | .creditRefresh _ => true
  | .up _ _ => true
  | .down _ _ => true
  | .change _ _ => true
  | .rd _ p _ => p.ok
  | .wr _ p _ => p.ok
  | .wrc _ p => p.ok
  | .append _ p _ => p.ok
  | .fold _ p => p.ok
  | .fence _ p => p.ok
  | .evt _ p => p.ok
  | .tbe _ p => p.ok
  | .load _ _ => true
  | .disable _ _ => true
  | .writeback _ _ => true
  | .doorbellWrite _ _ off data => decide (data ≠ [] ∧ off.toNat + data.length ≤ 32)
  | .stateWaitRelease _ => true
  | .start _ _ => true
  | .stop _ _ => true
  | .channelStopped _ => true
  | .resume _ _ => true
  | .skip _ _ => true
  | .clear _ _ => true
  | .descriptorFetch _ _ => true
  | .burstIssue _ n _ => decide (0 < n)
  | .burstDurable _ _ => true
  | .eventPulse _ _ => true
  | .evtInEdge _ => true
  | .evtOutEnd _ => true
  | .foldAliasWrite _ _ dla _ _ _ => aliasAddr dla
  | .foldAliasRead _ _ dla _ => aliasAddr dla
  | .foldFence _ _ dla _ => aliasAddr dla
  | .foldFenceDone _ _ => true
  | .lineFold _ _ => true
  | .appendWaitExpiry _ => true
  | .appendRoom _ _ => true
  | .windowCmdRead _ _ _ _ _ => true
  | .windowCmdWrite _ _ _ _ _ buffer => decide (buffer.length ≤ 4096)
  | .windowCmdWriteFinal _ _ _ _ _ buffer => decide (buffer.length ≤ 4096)
  | .pieceTimeout _ _ => true
  | .reqRead _ _ rest => frameOk rest
  | .reqWrite _ _ rest => frameOk rest
  | .writeInit _ _ rest => frameOk rest
  | .writeSeg _ _ rest => frameOk rest
  | .readSeg _ _ rest => frameOk rest
  | .reqAbort _ _ rest => frameOk rest
  | .reqReserved _ _ _ rest => frameOk rest
  | .transferTimeout => true
  | .heartbeatRequest _ rest => frameOk rest
  | .alarmResend _ rest => frameOk rest
  | .heartbeatTimer => true
  | .offer _ rest => frameOk rest
  | .chainInAssert _ => true
  | .addressConflict _ => true
  | .busOff => true
  | .busRecovery => true
  | .restoreDefaults _ _ => true
  | .objectWrite _ _ _ value => decide (value ≠ [])
  | .seedbankAppend kind _ _ _ => decide (kind.val ≠ 0)
  | .compaction => true
  | .protectSet _ _ => true
  | .recallEnd _ _ flips _ _ _ => flips.all (fun f => decide (64 ≤ f.1 ∧ f.1 ≤ 127 ∧ f.2.1 < 65536))
  | .sentryPowerOnReset => true
  | .sentryWake _ => true
  | .seatPinEdge _ _ => true
  | .seatTimerExpiry => true
  | .precheckEnd _ _ _ => true
  | .cooldownMet => true
  | .rampEnd _ _ => true
  | .rampTimeout _ => true
  | .enhanceDone _ => true
  | .enhanceTimeout => true
  | .gateLowInOn => true
  | .currentSample _ => true
  | .curveTrip _ => true
  | .instantTrip _ => true
  | .overTempTrip => true
  | .brownout _ => true
  | .retryClear _ => true
  | .unseat => true
  | .feedInvalid _ _ => true
  | .feedValid _ _ => true
  | .commandedTrip _ _ => true
  | .chipPowerOn _ _ _ => true
  | .railLoss => true
  | .train _ => true
  | .trainingEnd _ _ => true
  | .trainLimitExpiry _ _ => true
  | .configure _ => true
  | .drain _ => true
  | .drainStepComplete => true
  | .resumeMode _ => true
  | .update _ => true
  | .exitUpdate _ => true
  | .chipReset _ _ => true
  | .domainOff _ _ => true
  | .domainRetention _ _ => true
  | .domainOn _ _ => true
  | .domainChangeEnd _ _ _ => true
  | .padRelease _ _ => true
  | .faultClear _ _ => true
  | .faultEdit _ _ => true
  | .faultIntegrityScan _ => true
  | .lockstepMismatch => true
  | .dumpNow _ _ => true
  | .dumpRecordsWrite _ _ => true
  | .dumpScheduleWrite _ _ _ => true
  | .filterWrite _ _ _ value => decide (value ≠ [])
  | .tapReset => true
  | .extest => true
  | .idcode => true
  | .sample pins => decide (pins.length = scanCells)
  | .preload cells => decide (cells.length = scanCells)
  | .clamp => true
  | .highz => true
  | .bypass _ => true
  | .tbClkRestored => true
  | .forcedRepaymentEnd _ _ _ => true
  | .sentryPowerLoss => true
  | .oringReverse _ _ _ => true
  | .wearAllowanceRestored => true

end Sys2Proof
end

