-- ==== Sys2Proof/Tests/Slice0.lean ====
section
/-!
SUPPORT. Tests/Slice0.lean: small devices; each check of well-formedness refuses an ill-formed command; the spec's worked examples; and for
each obligation with hypotheses a state and operands that meet them.
-/
set_option maxRecDepth 100000
set_option Elab.async false
open Sys2Proof Sys2Proof.Machine
namespace Sys2Proof.Tests

/-! ### Small devices -/

/-- A device in SERVICE: the timebase LOCKED at TC 1,000 of epoch 7, every domain ON, head 0 active. -/
def wChip : Chip :=
  { tb := { tc := 1000, epoch := 7, state := .locked, clk := true, measuredKhz := 102000, lockKhz := 102000 }
    mode := { current := .service, railsUp := true, domains := (List.range 30).map (fun n => (n + 1, .on)) }
    power := { st := .on }
    heads := [(0, { state := .active, bi := true })] }

def wSvc : State := { chip := wChip }

/-- The same device with another timebase. -/
def wTb (t : Timebase) : State := { chip := { wChip with tb := t } }

/-- A valid frame with tc 131,072 of epoch 7 (R9, R11). -/
def wFrame : BitVec 112 := BitVec.ofNat 112 (0x7A35 + 131072 * 2 ^ 16 + 7 * 2 ^ 80 + 1883 * 2 ^ 96)

def wUnlocked : State := wTb { clk := true, prev := some (65536, 7) }
def wPair (tc : Nat) : State :=
  wTb { tc := tc, epoch := 7, state := .locked, clk := true, measuredKhz := 102000, lockKhz := 102000, prev := some (65536, 7) }
def wMisses (n : Nat) : State := wTb { tc := 111, epoch := 7, state := .locked, misses := n }
def wHoldover : State := wTb { tc := 1000, epoch := 7, state := .holdover }
def wSlew : State := wTb { tc := 1000, epoch := 7, state := .locked, ahead := 3, slewing := true }
def wSlewed : State := wTb { tc := 1000, epoch := 7, state := .locked, slewing := true }

/-- A window record of class `cls`, from TC 2,000 to 3,000, of epoch 7 and tag 1. -/
def wRecord (cls : Nat) : BitVec 256 := BitVec.ofNat 256 (2000 + 3000 * 2 ^ 64 + cls * 2 ^ 128 + 7 * 2 ^ 144 + 2 ^ 192)

def wWin (cls : WinClass) (active : Bool) : Window :=
  { cls := cls, start := 900, stop := 1001, tag := 5, noChange := false, evtStart := false, evtEnd := false, absorb := false
    absorbMib := 0, line := 0, fence := 10, prologue := 5, active := active }
def wBurst : Window := { wWin .burst false with start := 1001, stop := 1002, tag := 6 }
def wBarrier : Window := { wWin .barrier false with tag := 8 }

/-- Windows pend. -/
def wOpen (active : Bool) : State := { chip := { wChip with win := { pending := [wWin .opn active, wBurst, wBarrier] } } }

/-- A BURST is in effect. -/
def wBursting : State := { chip := { wChip with win := { pending := [{ wBurst with active := true }] } } }

def wOps : State :=
  { chip := { wChip with mode := { wChip.mode with current := .configuring }, win := { ops := [⟨.reserve 0 1, 5, 0⟩] } } }
def wRunning (k : OpKind) : State := { chip := { wChip with win := { running := some ⟨k, 5, 0⟩ } } }

def wAcc (m : Nat) : Access := { master := m, bind := .raw, kind := .read, dla := 0, mask := 0, data := 0, poison := false, ret := .none }
def wWait (why : WaitWhy) : Wait := { why := why, acc := wAcc 0, obs := {} }
def wWaiting (why : WaitWhy) : State := { chip := { wChip with waits := [wWait why] } }

/-- Head 0 is in failover detection; head 2 is in its group. -/
def wDetect : State :=
  { chip := { wChip with rw := [(Obj.headGroup + 512, 0)], heads := [(0, { state := .active, detect := true }), (2, { state := .active })] } }
def wIde : State := { chip := { wChip with heads := [(0, { state := .active, ideKeyed := 3 })] } }

/-- Every right on cask 3 for head 0 (R110). -/
def wRights : Tab Nat := [(objAt Obj.caskAccess 3, 15)]

/-- One accepted extent of 2 MiB at DLA 0: cask 3, group 0, its key loaded. -/
def wMap : MapUnit := { extents := [⟨0, 2097152, 3, 0, 0, .accepted, []⟩] }
def wMapped : State := { chip := { wChip with map := wMap, casks := [(3, { state := .active, keyState := .loaded })], rw := wRights } }
def wCLine : CLine := { way := 0 }
def wCachedChip : Chip :=
  { wMapped.chip with
    map := { wMap with pages := [(0, { st := .hbm })] }
    cache := { lines := [(1, { way := 0 })] } }
def wCached : State := { chip := wCachedChip }

/-- The agent of head 0 owns line 1. -/
def wOwned : State := { chip := { wMapped.chip with coh := { filter := [(1, ⟨some 0, 0, 1, 0⟩)] } } }
/-- A transaction of line 1 owes the answer of agent 0. -/
def wTxn : CohTxn := { line := 1, domain := 1, req := { agent := some 8, kind := .shared, acc := wAcc 0x10 }, owed := [⟨0, 1, 0⟩] }
def wSnooped : State := { chip := { wChip with coh := { txns := [wTxn] } } }
def wOffered : State := { chip := { wChip with map := { extents := [⟨0, 2097152, 3, 0, 0, .offered, []⟩] } } }
def wImage : State := { chip := { wChip with sb := { imgB := { st := .loaded, seq := 3, length := 5 } } } }
/-- A Dictionary Read of the whole of 0x1000:1, and a Dictionary Write of 4 zero bytes to 0x1010:1 (R68, R69). -/
def wRead : List Byte := bytesLE 4 0x00011000 ++ bytesLE 4 0 ++ bytesLE 8 4
def wWrite : List Byte := bytesLE 4 0x01011010 ++ bytesLE 4 0 ++ bytesLE 8 4 ++ bytesLE 4 0
def wSeq : State := { chip := { wChip with dict := { seqs := [⟨objKey 0x1010 1, 0, 8, [0]⟩] } } }

/-- The field port holds address 5. -/
def wField : State := { chip := { wChip with field := { addr := 5 } } }
def wXfer (read : Bool) : Xfer := ⟨read, 0x2010, 1, 64, if read then List.replicate 64 9 else [], 0, false⟩
def wFieldX (read : Bool) : State := { chip := { wChip with field := { addr := 5, xfer := some (wXfer read) } } }
def wXferLast : Xfer := ⟨false, 0x2010, 1, 64, List.replicate 60 9, 60, false⟩
def wFieldLast : State := { chip := { wChip with
  dict := { seqs := [⟨objKey 0x2010 1, 0x70, 16, []⟩] }
  field := { addr := 5, xfer := some wXferLast } } }
/-- A chain device without an address, its CHAIN_IN_N asserted for 2 ms. -/
def wChained : State := { chip := { wChip with
  rw := [(Obj.modeAutoTrain, 0)]
  mode := { wChip.mode with current := .unaddressed }
  field := { chainIn := some 2000 }
  pkg := { slot := 0x7F } } }
def wBusOff : State := { chip := { wChip with field := { addr := 5, busState := 2 } } }
def wCaskIn (st : CaskState) : State := { chip := { wChip with casks := [(3, { state := st })] } }
def wCask9 : State := { chip := { wChip with casks := [(9, { state := .quiesced })] } }
/-- Head 1 is up, and holds every right on the dictionary range of tables but not admin right. -/
def wNoAdmin : State := { chip := { wChip with
  rwp := [(tableKey 0x410, 7 * 16)]
  heads := [(0, { state := .active, bi := true }), (1, { state := .active })] } }
def wDiscard : State := { chip := { wCachedChip with map := { wCachedChip.map with discards := [(0, 0)] } } }
def wRepairDir : State := { chip := { wCachedChip with map := { wCachedChip.map with repairing := [dirRecNo 0] } } }
def wRepair : State := { chip := { wCachedChip with map := { wCachedChip.map with repairing := [0] } } }
/-- Link 0 carries traffic; cask 3 is assigned to domain 5, whose only agent is link 0; its PASID is 7. -/
def wCohChip : Chip := { wMapped.chip with
  rw := [(objAt Obj.caskAccess 3, 15 * 2 ^ 64), (Obj.cohCaskDomain, setField (2 ^ 8192 - 1) 24 8 5), (objAt Obj.cohDomainAgents 5, 256),
    (objAt Obj.caskPasid 3, 0x80000007)]
  links := [(0, { st := .active, vcs := 8 })]
  coh := { domains := [(5, { state := .active })] } }
def wCoh : State := { chip := wCohChip }
def wPacket (op : BitVec 8) : Packet :=
  { kind := 9, vc := 7, poison := false, cmpreq := false, op := op, slotsM1 := 0, pasid := 7, tag := 1, addr := 64, lenM1 := 0, data := [] }
def wCohCached : State := { chip := { wCohChip with
  map := { wMap with pages := [(0, { st := .hbm })] }
  cache := { lines := [(1, { way := 0 })] } } }
/-- Link 0 owns line 1. -/
def wCohOwned : State := { chip := { wCohCached.chip with coh := { wCohChip.coh with filter := [(1, ⟨some 8, 0, 5, 0⟩)] } } }
def wPulled : State := { chip := { wCohChip with coh := { wCohChip.coh with pulled := 256 } } }
def wDom (st : DomState) : State := { chip := { wChip with
  rw := [(objAt Obj.cohDomainAgents 5, 256)]
  coh := { domains := [(5, { state := st })] } } }
/-- A shared read of link 1 waits for the answers of links 0 and 2 on line 1. -/
def wTxnL : CohTxn :=
  { line := 1, domain := 5, req := { agent := some 9, kind := .shared, acc := { wAcc 0x11 with dla := 64, ret := .link 1 3 } }, owed := [⟨8, 1, 0⟩, ⟨10, 1, 0⟩] }
def wSnooping : State := { chip := { wCohChip with coh := { wCohChip.coh with txns := [wTxnL] } } }
def wTxnM : CohTxn := { wTxnL with req := { wTxnL.req with kind := .own } }
def wMissed : State := { chip := { wCohChip with coh := { wCohChip.coh with
  filter := [(1, ⟨none, 256, 5, 0⟩)]
  txns := [wTxnM] } } }
/-- Page 0 rests on DDR5, is the hottest of its HEAT region, and may go to HBM. -/
def wWarmChip : Chip := { wMapped.chip with
  rw := [(objAt Obj.policyMode 0, 1), (objAt Obj.policyTiers 0, 7)]
  map := { wMap with pages := [(0, { st := .ddr, sectors := 63, ch := 0, loc := 64, heat := 200 })] }
  lauter := { promote := [0], capPages := [(0, 1000)], chan := [(0, .online)] } }
def wWarm : State := { chip := wWarmChip }
def wSlotRec (st : MigStage) : Slot :=
  { page := 0, src := wWarmChip.page 0, dst := { st := .hbm, sectors := 63, loc := 128 }, stage := st }
def wSlot (st : MigStage) : State := { chip := { wWarmChip with
  map := { wMap with pages := [(0, { wWarmChip.page 0 with st := .migrating })] }
  lauter := { wWarmChip.lauter with slots := [(3, wSlotRec st)] } } }
def wSlotWRec (n : Nat) : Slot := { wSlotRec .copying with mask := 2 ^ 64 - 1, passes := n, pass := 0 }
def wSlot0Rec : Slot := { wSlotRec .copying with pass := 0 }
def wSlot0 : State := { chip := { (wSlot .copying).chip with lauter := { wWarmChip.lauter with slots := [(3, wSlot0Rec)] } } }
def wHoldRec : Slot := { wSlotRec .holding with pass := 0 }
def wHold : State := { chip := { (wSlot .holding).chip with lauter := { wWarmChip.lauter with slots := [(3, wHoldRec)] } } }
def wSlotW (n : Nat) : State := { chip := { (wSlot .copying).chip with lauter := { wWarmChip.lauter with slots := [(3, wSlotWRec n)] } } }
def wSlotRepRec (k : Nat) : Slot := { wSlotRec .copying with repack := true, mask := k, pass := 0 }
def wSlotRep (k : Nat) : State := { chip := { (wSlot .copying).chip with lauter := { wWarmChip.lauter with slots := [(3, wSlotRepRec k)] } } }
def wTierLow : State := { chip := { wWarmChip with rw := [(objAt Obj.policyMode 0, 1)], lauter := { wWarmChip.lauter with capPages := [(0, 1)] } } }
def wJournal : State := { chip := { wChip with
  rwp := [(Obj.lauterZoneChannels, 0x10)]
  lauter := { chan := [(8, .online), (9, .online)], journal := [⟨5, 1, 0, 0, 0⟩, ⟨6, 1, 0, 0, 0⟩], jseq := 7 } } }
def wResident : State := { chip := { wChip with rwp := [(objAt Obj.policyMapResident 2, 1)] } }
def wResident2 : State := { chip := { wChip with rwp := [(objAt Obj.policyMapResident 2, 0)], map := { resident := 4 } } }
def wChan (st : ChanState) (train : Nat) : State := { chip := { wChip with
  lauter := { chan := [(0, st)] }
  dram := { ddr := [(0, { gib := 16, dimms := 1, ranks := 1, train := train })] } } }
def wChanOff : State := wChan .offline 1
def wChanUnt : State := wChan .offline 2
def wChanOn : State := wChan .online 1
def wChanEv : State := wChan .evacuating 1
def wRetiring : State := { chip := { wChip with lauter := { retireStatus := 1, retireUnit := 0x1102 } } }
def wRetirePage : State := { chip := { wWarmChip with lauter := { retireStatus := 1, retireUnit := 0x40102 } } }
def wRegion : State := { chip := { wChip with
  rwp := [(objAt Obj.dcBase 0, 0), (objAt Obj.dcLength 0, 1073741824)]
  casks := [(3, { state := .active })] } }
def wRegionHeld : State := { chip := { wRegion.chip with map := wMap } }
def wReleasing (len : Nat) : State := { chip := { wMapped.chip with
  map := { extents := [⟨0, len, 3, 0, 0, .releasing, []⟩], pages := [(0, { st := .hbm })] } } }
def wDirty : State := { chip := { wCachedChip with cache := { lines := [(1, { way := 0, dirty := true, age := 13 })] } } }
def wScratch : State := { chip := { wChip with cache := { ways := 2 } } }
def wTracker : Tracker := { master := 0, page := 0, last := 0, started := true, bind := .byDir }
def wStream : State := { chip := { wMapped.chip with
  rw := wRights ++ [(objAt Obj.cacheRegionPrefetch 0, 1)]
  map := { wMap with pages := [(0, { st := .nvm, sectors := 63, loc := pendingLoc })] }
  cache := { trackers := [wTracker] } } }
def wExpanding : State := { chip := { wWarmChip with mill := { expanding := [(0, [1])] } } }
def wKeysOf (st : CaskState) (ks : KeyState) : State := { chip := { wMapped.chip with casks := [(3, { state := st, keyState := ks, blob := some 5 })] } }
def wKeyed : State := wKeysOf .active .loaded
def wKeyedQ : State := wKeysOf .quiesced .loaded
def wErasing : State := { chip := { (wKeysOf .quiesced .erasing).chip with map := { wMap with pages := [(0, { st := .hbm })] } } }
def wSlotIn : State := { chip := { wChip with husk := { linkSlots := [(5, { loaded := true })] } } }
def wKeyWaiter : Wait := wWait .key
def wKeyWait : State := { chip := { wKeyed.chip with waits := [wKeyWaiter] } }
def wConf : State := { chip := { wChip with mode := { wChip.mode with current := .configuring } } }
def wRooted : State := { chip := { wConf.chip with husk := { rootDone := true } } }
def wStore : State := { chip := { wChip with sb := { st := 1, sectors := [(64, { st := .opened, used := 32, gen := 1 })] } } }
def wProtected : State := { chip := { wChip with sb := { st := 3, protect := 3 } } }
def wFull : State := { chip := { wChip with sb := { st := 1, sectors := ((64, { st := .full, used := 65536, gen := 1 })
    :: (List.range 63).map (fun k => (65 + k, { st := .opened, used := 32, gen := 2 }))) } } }
def wQuiet : State := { chip := { wCachedChip with win := { pending := [wWin .quiet true] } } }
def wQuietEnd : State := { chip := { wQuiet.chip with integ := { progress := [(1, 268435455)] } } }
def wLogged : State := { chip := { wChip with integ := { producer := 2 } } }
def wDdr (x : DdrChan) : State := { chip := { wChip with dram := { ddr := [(2, x)] } } }
def wFrozen : State := wDdr { freeze := 1, cause := 1, poisonList := [64] }
def wPair2 : State := { chip := { (wDdr { stale := [7] }).chip with rwp := [(Obj.ddrMirrorPairs, 2)] } }
def wPair2F : State := { chip := { wFrozen.chip with rwp := [(Obj.ddrMirrorPairs, 2)] } }
def wFsp : State := wDdr { fspOk := 1 }
def wHelping : State := { chip := { wChanOff.chip with dram := { wChanOff.chip.dram with helper := { status := 1, cmd := 6 } } } }

/-- A package of media set 5, its root of generation 1. -/
def wRoot : RootRec :=
  { formatted := true, copyA := ({ mediaSet := 5, generation := 1, zone := true } : Root).image, copyB := [] }

/-- Page 0 rests on NVM0, its line 0 absorbed; block 2 of bank 0 is open. -/
def wKilnChip : Chip := { wMapped.chip with
  map := { wMap with pages := [(0, { st := .nvm, sectors := 63, ch := 0, loc := 98304 })] }
  lauter := { chan := [(8, .online)] }
  kiln := { chans := [(0, { gib := 512, roots := [wRoot] })]
            absorbed := [(0, ⟨1, 900, false, 900⟩)]
            blocks := [(2, { opened := true }), (3, { lines := 72, age := 3, moved := 2 })] } }
def wKiln : State := { chip := wKilnChip }
def wProg : Prog := { page := 0, why := .drain, old := wKilnChip.page 0, ch := 0, loc := 65536, grist := false, sectors := 63, captured := 1, changed := 0, data := [], poison := [] }
def wProgS : Prog := { wProg with suspended := true }
def wProgs : State := { chip := { wKilnChip with kiln := { wKilnChip.kiln with progs := [(0, wProg)] } } }
def wProgs2 : State := { chip := { wKilnChip with map := { wMap with pages := [] }, kiln := { wKilnChip.kiln with progs := [(0, wProg)] } } }
def wProgsS : State := { chip := { wKilnChip with kiln := { wKilnChip.kiln with progs := [(0, wProgS)], blocks := [(2, { opened := true, next := 64 })] } } }
def wProgsF : State := { chip := { wProgsS.chip with win := { fenceOn := true } } }

def wRescue : State := { chip := { wKilnChip with kiln := { wKilnChip.kiln with rescue := [0], absorbed := [] } } }
/-- A QUIET window is in effect; block 3 of bank 0 is closed, holds a page, and waits for a sweep. -/
def wSweep : State := { chip := { wKilnChip with
  win := { pending := [wWin .quiet true] }
  kiln := { wKilnChip.kiln with witness := [3] } } }

/-- The device's media set is 5, as Seedbank holds it; NVM0 is OFFLINE. -/
def wFormat : State := { chip := { wKilnChip with
  map := {}, lauter := { chan := [(8, .offline)] }
  sb := { st := 1, sectors := [(64, { st := .opened, used := 64, gen := 1 })], recs := [⟨64, 2, 1, 1, bytesLE 8 5, true, true⟩] } } }
def wFlush : State := { chip := { wKilnChip with
  rwp := [(Obj.lauterZoneChannels, 1)]
  lauter := { chan := [(8, .online)], journal := [⟨5, 1, 0, 0, 0⟩], jseq := 6 }
  kiln := { wKilnChip.kiln with flushing := true, gpf := true } } }
def wFlushP : State := { chip := { wFlush.chip with
  mode := { wChip.mode with current := .persist }
  power := { wChip.power with status := 1 } } }

/-- Link 1 trains, at a step; its lanes are locked. -/
def wLinkOf (k : Link) : State := { chip := { wChip with rw := wRights, links := [(1, k)] } }
def wLinkT (st : TrainStep) : State := wLinkOf { st := .training, step := st, lanes := 15, peerSpeeds := 7 }
def wLinkT3 : State := wLinkOf { st := .training, tries := 2, step := .detect }
def wLinkUp : Link := { st := .active, width := 4, speed := 32, vcs := 8, peerSpeeds := 7 }
def wLinkA : State := wLinkOf wLinkUp
def wLinkD : State := wLinkOf { st := .down }
/-- A training block: type, link, lane and flags; all speeds and widths, 8 VCs. -/
def wTs (kind link lane flags : Nat) : BitVec 128 :=
  let v := kind + link * 2 ^ 8 + lane * 2 ^ 16 + 7 * 2 ^ 24 + 7 * 2 ^ 32 + 8 * 2 ^ 40 + flags * 2 ^ 48 + 2 ^ 96
  BitVec.ofNat 128 (v + crc8 120 v * 2 ^ 120)

/-- A flit: its payload above the header of 64 bits, and the low header bits; its CRC. -/
def wFlit (payload head : Nat) : BitVec 2048 :=
  let v := head + payload * 2 ^ 64
  BitVec.ofNat 2048 (v + flitCrc (BitVec.ofNat 2048 v) * 2 ^ 1984)

def wTxFlit (n : Nat) : TxFlit := ⟨n, 0, [], 0, false, false⟩
/-- Flits 4 to 6 are held. -/
def wHeld : State := wLinkOf { wLinkUp with held := [wTxFlit 4, wTxFlit 5, wTxFlit 6], nextSeq := 7 }
def wLinkI : State := wLinkOf { wLinkUp with st := .training, step := .init, initGot := 1 }

def wLc (acked re : Bool) : LinkChange := { id := 7, width := 2, speed := 16, planned := true, leader := true, acked := acked, retraining := re }
def wChg (acked re : Bool) : State := wLinkOf { wLinkUp with change := some (wLc acked re) }
def wLc4 : LinkChange := { wLc false false with sends := 4 }
def wChg4 : State := wLinkOf { wLinkUp with change := some wLc4 }
def wChgC (re : Bool) : State := wLinkOf { wLinkUp with st := .changing, change := some (wLc true re) }
def wChgH : State := wLinkOf { wLinkUp with st := .changing, change := some (wLc true true), held := [wTxFlit 4], nextSeq := 5 }
/-- A packet of one kind on VC 0, PASID 7, at DLA 64. -/
def wPk (kind : BitVec 8) : Packet := { kind := kind, vc := 1, pasid := 7, tag := 3, addr := 64, lenM1 := 7 }

def wPkData (kind : BitVec 8) (n : Nat) : Packet :=
  { wPk kind with lenM1 := if kind = 3 then BitVec.ofNat 8 (n - 1) else 0, slotsM1 := BitVec.ofNat 8 ((n + 15) / 16), data := List.replicate n 5 }
def wWrc : State := wLinkOf { wLinkUp with wrTags := [(3, 2, 9)] }
def wLinkW : State := wLinkOf { wLinkUp with nextReq := 1, reqs := [{ id := 0, vc := 0, tag := 0, read := false, cmp := false, addr := 0, len := 1, left := 1 }] }
def wEvt : State := { chip := { wLinkA.chip with rw := [(objAt Obj.hopperEventLineInput 0, 0x21)] } }

/-- Cask 3 has PASID 7 and gives link 1 every right; capture queue 0 has a ring of `ring` bytes' worth of use. -/
def wCapQ (used : Nat) : QState :=
  { kind := 4, order := 12, link := 0, vc := 0, pv := true, pasid := 7, base := 0, prod := 0, cons := 0, high := 1, low := 0
    accepted := if used = 32 then 4080 else 0 }
def wCap (used : Nat) : State := { chip := { wCohChip with
  rw := [(objAt Obj.caskAccess 3, 15 * 2 ^ 68), (objAt Obj.caskPasid 3, 0x80000007), (objAt Obj.captureLinkFullPolicy 1, 1)]
  links := [(1, wLinkUp)]
  hop := { queues := [(0, wCapQ used)] } } }
def wPkApp : Packet := { kind := 5, vc := 1, pasid := 7, tag := 3, addr := 0, lenM1 := 15, slotsM1 := 1, data := List.replicate 16 9 }
def wPkApp3 : Packet := { wPkApp with lenM1 := 31, slotsM1 := 2, data := List.replicate 32 9 }
def wPkFold : Packet := { kind := 6, vc := 1, pasid := 7, tag := 3, op := 3, addr := 60, lenM1 := 7, slotsM1 := 1, data := List.replicate 8 9 }
/-- Alias range 0 shows 1 MiB of DLA 0. -/
def wAlias : State := { chip := { wMapped.chip with
  rw := wRights ++ [(objAt Obj.foldAliasTarget 0, 2 ^ 63), (objAt Obj.foldAliasLengthKib 0, 1024)] } }
def wFence : FoldFence := { h := 0, tag := 5, dla := 0, read := false, upto := 0 }
def wFenced : State := { chip := { wChip with fold := { fences := [wFence] } } }
def wFoldReq (a : Nat) : FoldReq := ⟨a, 0x11, .pasid (some 3), a, 3, 1, 1, false, .none, 0, 0⟩
def wFolds : State := { chip := { wMapped.chip with fold := { queue := [wFoldReq 0, wFoldReq 64], nextId := 65 } } }
def wAppWait : State := { chip := { (wCap 4096).chip with fold := { appends := [(1, 0, wPkApp)] } } }

/-- The queue table lies at DLA 0, in a cached page; the state of queue 0, and a table whose entry 0 is its entry. -/
def wLoaded : QState := { kind := 1, order := 12, link := 0, vc := 0, pv := false, pasid := 0, base := 4096, prod := 0, cons := 0, high := 2, low := 1 }
def wTabChip : Chip := { wCachedChip with
  rw := wRights ++ [(Obj.hopperQueueTableDla, 2 ^ 63), (tableKey 0x40D, 15)]
  cache := { lines := [(0, { way := 0 })] } }
def wTable : State := { chip := { wTabChip with mem := Mem.write [] 0 ((bytesLE 64 wLoaded.entry).map some) } }
def wQueued : State := { chip := { wTabChip with hop := { queues := [(0, wLoaded)] } } }
def wQOwned : State := { chip := { wTabChip with hop := { queues := [(0, wLoaded)], chans := [(4, { st := .idle, queue := 0 })] } } }
def wQWait : State := { chip := { wTabChip with hop := { queues := [(0, wLoaded)], waiting := [.doorbell 0 .byDir 1 0 [] .none] } } }
def wEvtPin : State := { chip := { wChip with rw := [(objAt Obj.hopperEventLineInput 7, 0x12)] } }

/-- Channel 4 is to run DESCRIPTOR queue 0, raw. -/
def wHop (c : HopChan) : State := { chip := { wTabChip with
  rw := wTabChip.rw ++ [(objAt Obj.hopperChanQueue 4, 2 ^ 31), (objAt Obj.hopperChanMaxInflight 4, 8)]
  hop := { queues := [(0, wLoaded)], chans := [(4, c)] } } }
def wHopOff : State := wHop {}
def wHopOn : State := wHop { st := .idle }
def wHopOn5 : State := { chip := { (wHop {}).chip with hop := { queues := [(0, wLoaded)], chans := [(5, { st := .idle })] } } }
def wDurBurst : Burst := { id := 9, index := 0, first := 0, count := 1, srcAddr := 0, dstAddr := 64, bytes := 64, wrote := true }
def wHopBurst : State := wHop { st := .run, bursts := [wDurBurst] }
def wHopDur : State := wHopBurst
def wHopStopping : State := wHop { st := .run, stopping := true }
def wSideM : Side := ⟨0, 0, 0, 0, 0, 4096, 0, 16, 1, 0⟩
def wDescRun : DescRun := { index := 0, d := ⟨1, false, 6, 0, 0, 0, wSideM, { wSideM with base := 4096 }⟩, srcReady := true, dstReady := true }
def wHopErr : State := wHop { st := .error, reason := 0x30, descs := [wDescRun] }
def wFetchQ : QState := { wLoaded with prod := 3 }
def wHopFetch : State := { chip := { (wHop {}).chip with hop := { queues := [(0, wFetchQ)], chans := [(4, { st := .idle, fetchReady := true })] } } }
def wHopIssue : State := wHop { st := .run, descs := [wDescRun] }

/-- A seated slot with a valid feed A, T_FET cool, in one power state. -/
def wPwrU (st : PwrState) : PowerUnit := { st := st, status := 0x11, seatA := true, seatB := true, seatRuns := true, vbus := 12000, tModel := 25000000000 }
def wPwr (st : PwrState) : State := { chip := { wChip with power := wPwrU st } }
def wPwrHot (st : PwrState) : State := { chip := { wChip with power := { wPwrU st with cooldown := true } } }
def wPwrC (st : PwrState) : State := { chip := { wChip with power := { wPwrU st with checksPassed := true } } }
def wPwrAway (st : PwrState) : State := { chip := { wChip with power := { wPwrU st with seatB := false } } }
def wPwrPg : State := { chip := { wChip with power := { wPwrU .on with pg := true } } }
def wPwrBoth : State := { chip := { wChip with power := { wPwrU .on with status := 0x33 } } }
def wPwrCurve : State := { chip := { wChip with power := { wPwrU .on with timers := [(0, 1000000)] } } }
def wPwrBurn : State := { chip := { wChip with power := { wPwrU .on with tModel := 151000000000 } } }
def wDrain (st : PwrState) (n : Nat) : State := { chip := { wChip with
  mode := { wChip.mode with current := .drain, previous := .service, drainState := n }, power := wPwrU st } }
def wPwrDrain : State := wDrain .on 1
def wPwrDrainOff : State := wDrain .tripped 1

def wUnaddr (auto : Nat) : State := { chip := { wChip with rw := [(Obj.modeAutoTrain, auto)], mode := { wChip.mode with current := .unaddressed } } }
def wTraining : State := { chip := { wChip with mode := { wChip.mode with current := .training } } }
def wDrainN (n : Nat) : State := { chip := { (wDrain .on n).chip with lauter := { chan := [(8, .online)] } } }
def wDrainSafe : State := { chip := { (wDrain .on 4).chip with fault := { safeHeld := true } } }
def wUpdate : State := { chip := { wChip with mode := { wChip.mode with current := .update, updateFrom := .service } } }

def wDomChip (m : Mode) (b : Nat) (x : DomPower) : Chip :=
  { wChip with heads := [], mode := { wChip.mode with current := m, build := b, domains := (List.range 30).map (fun n => (n + 1, x)) } }
def wDomOn : State := { chip := wDomChip .configuring 1 .on }
def wDomOff : State := { chip := { wDomChip .configuring 1 .off with mode := { (wDomChip .configuring 1 .off).mode with domains := [(1, .on), (2, .on)] } } }
def wDomSvc : State := { chip := wDomChip .service 0 .on }
def wDomSvcOff : State := { chip := { wDomChip .service 0 .off with mode := { (wDomChip .service 0 .off).mode with domains := [(1, .on), (2, .on)] } } }
def wDomDrain : State := { chip := wDomChip .drain 0 .on }
def wDomHead : State := { chip := { wDomChip .service 0 .on with heads := [(0, { state := .active })] } }
def wDomBusy : State := { chip := { wDomChip .service 0 .on with win := { ops := [{ kind := .domain 9 0, us := 10 }] } } }
def wDomChg (n t : Nat) : State := { chip := { wDomChip .configuring 1 .on with mode := { (wDomChip .configuring 1 .on).mode with
  domains := [(1, .on), (2, .on), (n, .changing)], target := [(n, t)] } } }
def wDomHeld (m : Mode) : State := { chip := { wDomChip m 1 .on with mode := { (wDomChip m 1 .on).mode with domains := [(1, .on), (2, .on), (9, .onHeld)], padsHeld := 512 } } }

def wInsert (taken : Bool) : State := { chip := { wChip with mode := { wChip.mode with current := .inserting, railsUp := false, strapsTaken := taken }, power := { st := .on, pg := true } } }
def wPersistHead : State := { chip := { wChip with mode := { wChip.mode with current := .persist } } }
def wRecall (slot : Nat) : State := { chip := { wChip with heads := [], pkg := { slot := slot }, sb := { imgA := { st := .activated, seq := 1 } }, mode := { wChip.mode with current := .recall, domains := [(1, .on), (2, .on)] } } }

def wFaulty : State := { chip := { wChip with fault := { sticky := 128 } } }
def wDumpRec : DumpRec := { seq := 3, epoch := 7, tbState := 2, commanded := false, tc := 900, clocks := 0, window := 0, skipped := 0, filterGen := 0, rest := 0, counters := [] }
def wLatched : State := { chip := { wChip with cnt := { latched := some wDumpRec } } }
def wDue : State := { chip := { wChip with rw := [(Obj.cntDumpPeriodTc, 65536)], cnt := { nextDue := some 1000 } } }
def wDueLatched : State := { chip := { wDue.chip with cnt := { wDue.chip.cnt with latched := some wDumpRec } } }
def wDumpRing (n : Nat) : State := { chip := { wChip with rwp := [(Obj.cntDumpRecords, n)], cnt := { latched := some wDumpRec } } }

def wClosed : State := { chip := { wChip with husk := { debugClosed := true } } }

def wRecallM : State := { chip := { wChip with mode := { wChip.mode with current := .recall } } }
def wHeadRw : State := { chip := { wChip with rwp := [(tableKey 0x403, 3)] } }
def wModeCmd : ObjInfo := (objInfo? 0x2800 2).get (by decide)
def wModeCur : ObjInfo := (objInfo? 0x2800 1).get (by decide)
def wStoreCmd : ObjInfo := (objInfo? 0x1010 1).get (by decide)
def wQueue : State := { wSvc with pending := [.idcode, .highz] }
def wQueueNext : State := { wSvc with pending := [.highz] }
def wSlewEdge : State := wTb { tc := 1000, epoch := 7, state := .locked, ahead := 3, edge := 15 }
def wHeadNone : State := { chip := { wChip with rwp := [(tableKey 0x403, 0)] } }

/-- A pending window, not in effect. -/
def wPlain : Window := { cls := .quiet, start := 5000, stop := 6000, tag := 9, noChange := false, evtStart := false, evtEnd := false, absorb := false, absorbMib := 0, line := 0, fence := 0, prologue := 0 }
def wDamWin (c : WinClass) : State := { chip := { wChip with win := { pending := [{ wPlain with cls := c }] } } }
def wDamFilter : State := wCohOwned
def wDamTable : State := { chip := { wTable.chip with hop := { queues := [(0, wLoaded)] } } }
def wDamDirty : State := { chip := { wTabChip with hop := { queues := [(0, { wLoaded with dirty := true })], chans := [(4, { st := .idle, queue := 0 })] } } }

/-- What the page write of the witness finds: the page's records, the lines read, and the line captured. -/
def wPw0 : Chip := (wKilnChip.pruneOlds.useOwn 0).2
def wPw1 : Chip := (wPw0.mergeRead 0 .drain []).2
def wPwCap : Tab Line × Chip := wPw1.captureLines 0 (wPw1.toCapture 0 .drain)
def wPwData : Tab Line := wPwCap.1
def wPw2 : Chip := wPwCap.2
def wPwForm : Bool × Nat := gristForm ((wPw2.mergedPage 0 0 wPwData).storedGrist 0 (wPw2.accessRegion 0))
def wFailed : Chip :=
  ((wProgs.chip.setBlk 0 2 { wProgs.chip.blk 0 2 with suspect := true, opened := false, next := 0 }).setNvm 0
    { wProgs.chip.nvm 0 with programFails := 1 }).retEntry 8 3 0 2 0 (nvmUnit 0 2 65536) 0 0xFF 0

/-- The operation that waits recalls a domain that is not ACTIVE. -/
def wOpGone : State := { chip := { wConf.chip with win := { ops := [⟨.recall 5, 5, 0⟩] } } }
def wCalm : State := wSvc
/-- The journal buffer is full, and entries wait for room in it. -/
def wJournalFull : State := { chip := { wChip with rw := [(Obj.lauterJournalKib, 64)], lauter := { backlog := List.replicate 5000 ⟨5, 1, 0, 0, 0⟩ } } }
/-- CACHE domain 29 leaves ON; one of its ways holds a line. -/
def wDomWays : State := { chip := { (wDomChg 29 0).chip with cache := { lines := [(1, { way := (domainWays 29).headD 0 })] } } }
def wIndebted : State := { chip := { wChip with win := { debtLevel := [(3, 5000), (1, 40)] } } }
def wEdgeDue : State := wOpen false
def wMissing : State := wMisses 0

/-- Page 0 of `wWarm`, long after its last write. -/
def wIdlePage : State := { chip := { wWarmChip with tb := { wWarmChip.tb with tc := 10 ^ 18 } } }

/-! ### Well-formedness: an ill-formed term for each check -/

theorem test_wf_aperture_bytes : (Instr.timelineApertureWrite (.cxl 0) 4095 [1, 2]).wellFormed = false := by decide
theorem test_wf_aperture_empty : (Instr.timelineApertureWrite (.cxl 0) 0 []).wellFormed = false := by decide
theorem test_wf_extent_blocks : (Instr.offerTimeout ⟨4096, 2097152⟩).wellFormed = false := by decide
theorem test_wf_extent_length : (Instr.extentOffer .manager 0 0 3 ⟨0, 0⟩).wellFormed = false := by decide
theorem test_wf_extent_list : (Instr.addDcResponse 0 [⟨0, 2097152⟩, ⟨0, 1⟩]).wellFormed = false := by decide
theorem test_wf_mailbox_input : (Instr.dictionaryRead 0 (List.replicate 4097 0)).wellFormed = false := by decide
theorem test_wf_packet_slots : (Instr.cwb 0 { wPacket 2 with slotsM1 := 4 } {}).wellFormed = false := by decide
theorem test_wf_tier_code : (Instr.patrolOverdue 0).wellFormed = false := by decide
theorem test_wf_pool_tier : (Instr.poolZero ⟨3, 0⟩ 0).wellFormed = false := by decide
theorem test_wf_sweep_step : (Instr.witnessSweep 0 0 5).wellFormed = false := by decide
theorem test_wf_doorbell_bytes : (Instr.doorbellWrite (.cxl 0) 0 30 [1, 2, 3, 4]).wellFormed = false := by decide
theorem test_wf_burst_lines : (Instr.burstIssue 0 0 {}).wellFormed = false := by decide
theorem test_wf_alias_window : (Instr.foldAliasRead 0 0 0x3F0000000000 {}).wellFormed = false := by decide
theorem test_wf_window_buffer : (Instr.windowCmdWrite 0 0x1000 1 0 1 (List.replicate 4097 0)).wellFormed = false := by decide
theorem test_wf_frame_bytes : (Instr.reqRead 5 false (List.replicate 64 0)).wellFormed = false := by decide
theorem test_wf_object_value : (Instr.objectWrite .manager 0x1000 1 []).wellFormed = false := by decide
theorem test_wf_record_kind : (Instr.seedbankAppend 0 0 [] false).wellFormed = false := by decide
theorem test_wf_recall_pages : (Instr.recallEnd 0 true [(3, 0, 0), (3, 0, 0)] true true true).wellFormed = false := by decide
theorem test_wf_boundary_cells : (Instr.preload [true]).wellFormed = false := by decide
theorem test_wf_a_good_one : (Instr.timelineApertureWrite (.cxl 0) 4094 [1, 2]).wellFormed = true := by decide

/-! ### Worked examples of the spec -/

/-- Chapter 11, an entry's retire value: DDR5 channel 5, RANK, sub-channel a, DIMM 1, rank 0. Here the channel has 2 DIMMs of 2 ranks. -/
theorem test_retire_value :
    ({ wChip with dram := { ddr := [(5, { dimms := 2, ranks := 2 })] } } : Chip).ddrUnit 5 3 (2 ^ 14) = 0x2352 := by decide +kernel

/-- Chapter 14, an alias: range 2, SADD16, offset 0x1A40. -/
def wAliasRange : Chip :=
  { wChip with rw := [(objAt Obj.foldAliasTarget 2, 2 ^ 63 + 0x20000000000), (objAt Obj.foldAliasLengthKib 2, 16)] }
theorem test_alias_address : wAliasRange.aliasOf 0x3E2400001A40 = some (4, 0x20000001A40) := by decide +kernel
theorem test_alias_operation_reserved : wAliasRange.aliasOf 0x3E2800001A40 = none := by decide +kernel

/-- Chapter 1, the posting example: TB_CLK of 400 MHz, 24,000 MiB/s, a limit of 4,096 MiB; CALIB debt of 380,000 work-µs. -/
def wWalk : WalkCfg :=
  { accrual := [0, 0, 1000, 0, 0], quiet := [0, 0, 1000000, 0, 0], opn := [0, 0, 250000, 0, 0], max := [0, 0, 600000, 0, 0]
    limit := 4096, drainMbs := 24000, openPct := 25, khz := 400000, ppm := 0 }
def wSpans (last : Nat) : List Span :=
  [⟨.opn, 8000000, 0, 0⟩, ⟨.quiet, 100000000, 0, 0x101⟩, ⟨.burst, 800000000, 3584, 0x102⟩, ⟨.quiet, 60000000, 0, 0x103⟩,
    ⟨.burst, 1600000000, last, 0x104⟩]
def wDebts (calib : Nat) : List Nat := [0, 0, calib * (1000000000 * 400000), 0, 0]
theorem test_walk_refuses_absorb : wWalk.walk 0 (wDebts 380000) (wSpans 4096) = some ⟨none, 0x104⟩ := by decide +kernel
theorem test_walk_accepts_less : wWalk.walk 0 (wDebts 380000) (wSpans 3840) = none := by decide +kernel
theorem test_walk_debts_open : wWalk.debts ⟨.opn, 8000000, 0, 0⟩ 0 (wDebts 380000) = wDebts 375020 := by decide +kernel
theorem test_walk_debts_quiet : wWalk.debts ⟨.quiet, 100000000, 0, 0⟩ 0 (wDebts 375020) = wDebts 125270 := by decide +kernel
theorem test_walk_debts_burst : wWalk.debts ⟨.burst, 800000000, 0, 0⟩ 0 (wDebts 125270) = wDebts 127270 := by decide +kernel

/-- Chapter 12, the NAK across the wrap: flits 4,080 to 25 are held, NAK 4,090 leaves 32 of them. -/
def wWrap : Chip :=
  { wChip with links := [(2, { st := .active, vcs := 8, nextSeq := 26
                               held := (List.range 42).map (fun k => ⟨(4080 + k) % 4096, 0, [], 0, false, false⟩) })] }
theorem test_nak_across_the_wrap : ((wWrap.linkNak 2 4090).link 2).held.length = 32 := by decide +kernel
theorem test_stale_ack_is_ignored : (wWrap.applyAck 2 4079).link 2 = wWrap.link 2 := by decide +kernel
/-- The credit limit 0xFFF0 of VC1 rises to 0x0050, across the wrap. -/
def wCredit : Chip := { wChip with links := [(2, { st := .active, vcs := 8, limit := [(1, 0xFFF0)] })] }
theorem test_credit_across_the_wrap : Tab.get 0 ((wCredit.linkCredit 2 0 (0x50 * 2 ^ 16)).link 2).limit 1 = 0x50 := by decide +kernel

/-- Chapter 14, one fold: byte 56, bit 5 of the bitmap line takes the operand byte 0x20. -/
theorem test_fold_or :
    (foldLine 1 0 (BitVec.ofNat 512 (0x20 * 2 ^ 448)) (BitVec.allOnes 64)).1 = BitVec.ofNat 512 (0x20 * 2 ^ 448) := by decide +kernel
/-- SADD16 saturates (R430). -/
theorem test_fold_saturates : foldField1 4 65535 2 = (65535, true) := by decide

/-- Chapter 15, the description of 0x6120:04 kiln.write_suspend_max: its head, default, minimum and maximum. -/
theorem test_description_head :
    (wChip.describe 0x00046120).take 16
      = [0x20, 0x61, 0x04, 0x12, 0x04, 0x00, 0x08, 0x00, 0x04, 0, 0, 0, 0x20, 0x61, 0x05, 0x00] := by decide +kernel
theorem test_description_numbers :
    ((wChip.describe 0x00046120).drop 16).take 24
      = bytesLE 8 10000 ++ bytesLE 8 100 ++ bytesLE 8 60000 := by decide +kernel
theorem test_description_name :
    ((wChip.describe 0x00046120).drop 0x28).take 23 = (ascii "kiln.write_suspend_max").map (BitVec.ofNat 8) ++ [0] := by decide +kernel
theorem test_description_length : (wChip.describe 0x00046120).length = 96 := by decide +kernel

/-- The exchange on the field bus, its frames 1 to 4: node 42 selects, and offers 96 bytes. -/
def wNode : State := { chip := { wChip with field := { addr := 42 } } }
theorem test_field_select :
    (match exec (.reqWrite 42 false [0x00, 0x18, 0x01, 0x20, 0x61, 0x04, 0x00]) wNode with
      | .next t => decide (t.chip.field.sent = [⟨0xA, 42, [0x02, 0x00, 0x18, 0x01]⟩])
      | _ => false) = true := by decide +kernel
theorem test_field_read_init :
    (match exec (.reqRead 42 false [0x00, 0x18, 0x02]) wNode with
      | .next t => decide (t.chip.field.sent = [⟨0xA, 42, [0x06, 0x00, 0x18, 0x02, 0x60, 0, 0, 0]⟩])
      | _ => false) = true := by decide +kernel

/-- Chapter 10, the flush budget: 8 channels and 25,000 µs allow 240 MiB and more. -/
theorem test_flush_budget : 251658240 ≤ budgetLimit 8 25000 16777216 := by decide +kernel

/-! ### The machine after reset, and its queue -/

theorem test_reset_is_unseated : State.reset.chip.power.st = .unseated ∧ State.reset.pending = [] := by decide +kernel
theorem test_empty_queue_ticks :
    (match step wSvc with | .next t => decide (t.chip.tb.tc = 1001) | _ => false) = true := by decide +kernel
theorem test_front_command_runs :
    (match step { wMisses 0 with pending := [.frameMissed, .tbClkLost] } with
      | .next t => decide (t.chip.tb.misses = 1 ∧ t.pending = [.tbClkLost]) | _ => false) = true := by decide +kernel

/-- Chapter 3, the translation: the page record decodes, and encodes back. -/
theorem test_page_record :
    PageRec.ofPayload 0x03400B4782480C4A
        = { st := .ddr, grist := true, sectors := 4, ch := 3, loc := 0x5A3C1240, heat := 0x40, gen := 3 }
      ∧ (PageRec.ofPayload 0x03400B4782480C4A).payload = 0x03400B4782480C4A := by decide +kernel

/-- Chapter 6, a vector page: a segment's stream of a loop vector, a group of 32 bytes, and its repetition. -/
def wVector (k : Nat) : List Byte := (List.range 40).map (fun j => BitVec.ofNat 8 (100 * k + 3 * j + 1))
def wVectorPlan : GristPlan :=
  { entries := [0, 44, 88, 132, 176, 220, 264, 308, 352, 396, 396, 396, 0x2000, 0x1000, 0x1000, 0x1000]
    fill := 0x5555AAAA5555AAAA
    streams := (List.range 10).flatMap (fun k => 0x67 :: wVector k ++ [0xE0, 0xD7, 0x20]) }
def wVectorPage : List Byte := gristBuild wVectorPlan false 0 []
theorem test_grist_header :
    gristVersion wVectorPage = 1 ∧ gristSealed wVectorPage = false ∧ gristNm1 wVectorPage = 7 ∧ gristBytes wVectorPage = 504
      ∧ (List.range 16).map (gristEntry wVectorPage)
        = [0x40, 0x6C, 0x98, 0xC4, 0xF0, 0x11C, 0x148, 0x174, 0x1A0, 0x1CC, 0x1CC, 0x1CC, 0x2000, 0x1000, 0x1000, 0x1000]
      ∧ gristIntact wVectorPage 8 false = true := by decide +kernel
theorem test_grist_copies :
    decodeStream (0x67 :: wVector 4 ++ [0xE0, 0xD7, 0x20])
      = some (wVector 4 ++ ((List.replicate 7 ((wVector 4).drop 8)).flatten).take 216) := by decide +kernel
theorem test_grist_fetch : gristEnd wVectorPage 460 = 504 ∧ gristFetch wVectorPage false 11 = [0, 7] := by decide +kernel
theorem test_grist_shared_stream : gristSegment wVectorPage 11 = gristSegment wVectorPage 9 := by decide +kernel
theorem test_grist_fill :
    (gristSegment wVectorPage 12).map (·.take 9) = some [0xAA, 0xAA, 0x55, 0x55, 0xAA, 0xAA, 0x55, 0x55, 0xAA] := by decide +kernel

/-- Chapter 6, a sparse fail page: segment 3, segment 9, and streams that break R187. -/
theorem test_grist_sparse :
    decodeStream [0xC2, 0x11, 0x04, 0x12, 0x01, 0xC8, 0x80, 0xFF]
      = some (List.replicate 17 0 ++ [4, 1] ++ List.replicate 181 0 ++ [0x80] ++ List.replicate 55 0) := by decide +kernel
theorem test_grist_literal : decodeStream [0x40, 0x10, 0xFF] = some (0x10 :: List.replicate 255 0) := by decide +kernel
theorem test_grist_offsets_ascend : decodeStream [0xC1, 0x12, 0x01, 0x12, 0x04, 0xFF] = none := by decide +kernel
theorem test_grist_left_over : decodeStream [0xFF, 0x00] = none ∧ decodeStream [0x40, 0x10] = none := by decide +kernel

/-- Chapter 16, the copied record of 0x6120:04: 32 bytes, its crc aside. -/
def wCopied : List Byte :=
  SbRec.bytes { sector := 88, kind := 1, key := 0x00046120, seq := 17, payload := bytesLE 4 15000, commit := true }
theorem test_copied_record :
    wCopied.take 12 = [1, 0, 4, 0, 0x20, 0x61, 4, 0, 0x11, 0, 0, 0]
      ∧ wCopied.drop 14 = [0, 0xA5, 0x98, 0x3A, 0, 0, 0x67, 0xC5, 0xFF, 0xFF] ++ List.replicate 8 0xFF := by decide +kernel

/-- Chapter 11, the HBM code: a burst decodes clean, one wrong symbol is corrected, a poisoned one reads poisoned, and a burst of another
sector does not decode. -/
def wSector : List Byte := (List.range 32).map (fun j => BitVec.ofNat 8 (7 * j + 1))
theorem test_hbm_code :
    hbmDecode 5 0 wSector (hbmCheck 5 0 false wSector) = .good none
      ∧ hbmDecode 5 0 (wSector.set 3 0xFF) (hbmCheck 5 0 false wSector) = .good (some (16, fieldLE wSector 2 2 ^^^ fieldLE (wSector.set 3 0xFF) 2 2))
      ∧ hbmDecode 5 0 wSector (hbmCheck 5 0 true wSector) = .poisoned
      ∧ hbmDecode 6 1 wSector (hbmCheck 5 0 false wSector) = .uncorrectable := by decide +kernel
/-- Chapter 10: a byte's odd parity; an all-zero word of 72 bits fails it. -/
theorem test_parity : parityOk 0 0 = false ∧ (List.range 8).all (parityOk (word72 wSector)) = true := by decide +kernel

/-! ### The hypotheses of the obligations are met -/

/-- The hypotheses of FramePairsSetTheTimebase are met. -/
theorem test_meets_FramePairsSetTheTimebase :
    (∃ (s : State) (f : BitVec 112) (rate : Nat) (interval : Option Nat), frameValid f rate = true
      ∧ s.chip.tb.state = .unlocked
      ∧ 65536 ≤ frameTc f
      ∧ s.chip.tb.prev = some (frameTc f - 65536, frameEpoch f)
      ∧ interval ≠ some 0)
    ∧ (∃ (s : State) (f : BitVec 112) (rate : Nat), frameValid f rate = true
      ∧ s.chip.tb.state = .locked
      ∧ 65536 ≤ frameTc f
      ∧ s.chip.tb.prev = some (frameTc f - 65536, frameEpoch f)
      ∧ frameEpoch f = s.chip.tb.epoch
      ∧ s.chip.tb.tc < (frameTc f + 111) % 2 ^ 64
      ∧ (frameTc f + 111) % 2 ^ 64 - s.chip.tb.tc ≤ 2 ^ 32
      ∧ s.chip.win.pending = [])
    ∧ (∃ (s : State) (f : BitVec 112) (rate : Nat), frameValid f rate = true
      ∧ s.chip.tb.state = .locked
      ∧ 65536 ≤ frameTc f
      ∧ s.chip.tb.prev = some (frameTc f - 65536, frameEpoch f)
      ∧ frameEpoch f = s.chip.tb.epoch
      ∧ (frameTc f + 111) % 2 ^ 64 < s.chip.tb.tc
      ∧ s.chip.tb.tc - (frameTc f + 111) % 2 ^ 64 ≤ 2 ^ 20
      ∧ s.chip.tb.ahead = 0)
    ∧ (∃ (s : State) (f : BitVec 112), frameCrc f ≠ frameCrcOf f
      ∧ s.chip.tb.state = .unlocked) :=
  ⟨⟨wUnlocked, wFrame, 102000, none, by decide +kernel⟩,
    ⟨wPair 1000, wFrame, 102000, by decide +kernel⟩,
    ⟨wPair 200000, wFrame, 102000, by decide +kernel⟩,
    ⟨State.reset, 0x7A35, by decide +kernel⟩⟩

/-- The hypotheses of TimebaseStatesFollowMissesAndTheClock are met. -/
theorem test_meets_TimebaseStatesFollowMissesAndTheClock :
    (∃ (s : State), s.chip.tb.state = .locked
      ∧ s.chip.tb.tc % 65536 = 111
      ∧ s.chip.tb.lastDue ≠ some (s.chip.tb.tc / 65536)
      ∧ s.chip.tb.misses + 1 ≤ s.chip.cfg Obj.timebaseMissLimit)
    ∧ (∃ (s : State), s.chip.tb.state = .locked
      ∧ s.chip.tb.tc % 65536 = 111
      ∧ s.chip.tb.lastDue ≠ some (s.chip.tb.tc / 65536)
      ∧ s.chip.cfg Obj.timebaseMissLimit < s.chip.tb.misses + 1)
    ∧ (∃ (s : State), s.chip.tb.state = .locked)
    ∧ (∃ (s : State), s.chip.tb.state = .holdover)
    ∧ (∃ (s : State), s.chip.tb.slewing = true
      ∧ s.chip.tb.ahead = 0
      ∧ s.chip.tb.state = .locked)
    ∧ (∃ (s : State), (s.chip.tb.tc % 65536 ≠ 111 ∨ s.chip.tb.state = .unlocked))
    ∧ (∃ (s : State), s.chip.tb.ahead ≠ 0) :=
  ⟨⟨wPair 111, by decide +kernel⟩,
    ⟨wMisses 9, by decide +kernel⟩,
    ⟨wPair 1000, by decide +kernel⟩,
    ⟨wHoldover, by decide +kernel⟩,
    ⟨wSlewed, by decide +kernel⟩,
    ⟨State.reset, by decide +kernel⟩,
    ⟨wSlew, by decide +kernel⟩⟩

/-- The hypotheses of PostingDecidesAndKeepsTheResult are met. -/
theorem test_meets_PostingDecidesAndKeepsTheResult :
    (∃ (s : State) (src : Src) (v : BitVec 256), Accepts s.chip src 0x4010 1 32
      ∧ (postRec v.toNat).zero = true
      ∧ (postRec v.toNat).cls ≠ 4
      ∧ (s.chip.decidePost (postRec v.toNat)).1 = Post.accepted)
    ∧ (∃ (s : State) (src : Src) (v : BitVec 256), Accepts s.chip src 0x4010 1 32
      ∧ (postRec v.toNat).zero = true
      ∧ (s.chip.decidePost (postRec v.toNat)).1 ≠ Post.accepted)
    ∧ (∃ (s : State) (h : Fin 4) (d : List Byte), s.chip.serving = true
      ∧ (s.chip.head h).state = .active
      ∧ s.chip.rightDamaged 0x504 h = false
      ∧ s.chip.mayPost h = true
      ∧ d.length = 32
      ∧ (postRec (natLE d)).cls ≠ 4
      ∧ (s.chip.decidePost (postRec (natLE d))).1 = Post.accepted)
    ∧ (∃ (s : State) (src : Src) (tag epoch : BitVec 16) (w : Window), Accepts s.chip src 0x4010 1 32
      ∧ s.chip.mode.current = .service
      ∧ s.chip.tb.state = .locked
      ∧ epoch.toNat = s.chip.tb.epoch
      ∧ s.chip.win.pending.find? (fun w => decide (w.tag = tag.toNat)) = some w
      ∧ w.cls = .opn
      ∧ w.active = false)
    ∧ (∃ (s : State) (src : Src) (v : BitVec 256), Accepts s.chip src 0x4010 1 32
      ∧ (postRec v.toNat).zero = false) :=
  ⟨⟨wSvc, .manager, wRecord 1, by decide +kernel⟩,
    ⟨wSvc, .manager, wRecord 9, by decide +kernel⟩,
    ⟨wSvc, 0, bytesLE 32 (wRecord 1).toNat, by decide +kernel⟩,
    ⟨wOpen false, .manager, 5, 7, wWin .opn false, by decide +kernel⟩,
    ⟨wSvc, .manager, 2 ^ 140, by decide +kernel⟩⟩

/-- The hypotheses of WindowEdgesTakeEffectOnTime are met. -/
theorem test_meets_WindowEdgesTakeEffectOnTime :
    (∃ (s : State) (tag : BitVec 16) (w : Window), s.chip.win.pending.find? (fun w => decide (w.tag = tag.toNat)) = some w
      ∧ w.active = false
      ∧ w.fenced = false
      ∧ w.cls = .burst
      ∧ s.chip.follows w = false
      ∧ s.chip.passedBy w.start (w.fence + 2) = true)
    ∧ (∃ (s : State) (tag : BitVec 16) (w : Window), s.chip.win.pending.find? (fun w => decide (w.tag = tag.toNat)) = some w
      ∧ w.active = false
      ∧ w.prologued = false
      ∧ w.cls = .burst
      ∧ s.chip.follows w = false
      ∧ s.chip.passedBy w.start (w.prologue + 2) = true)
    ∧ (∃ (s : State) (tag : BitVec 16) (w : Window), s.chip.win.pending.find? (fun w => decide (w.tag = tag.toNat)) = some w
      ∧ w.active = false
      ∧ w.cls ≠ .barrier
      ∧ w.evtStart = false
      ∧ s.chip.passedBy w.start 2 = true
      ∧ s.chip.tb.tc < w.stop
      ∧ s.chip.window = none)
    ∧ (∃ (s : State) (tag : BitVec 16) (w : Window), s.chip.win.pending.find? (fun w => decide (w.tag = tag.toNat) && w.active) = some w
      ∧ w.cls ≠ .burst
      ∧ w.evtEnd = false
      ∧ s.chip.passedBy w.stop 2 = true)
    ∧ (∃ (s : State) (tag : BitVec 16) (w : Window), s.chip.win.pending.find? (fun w => decide (w.tag = tag.toNat) && w.active) = some w
      ∧ w.cls = .burst
      ∧ w.evtEnd = false
      ∧ s.chip.passedBy w.stop 2 = true)
    ∧ (∃ (s : State) (tag : BitVec 16) (w : Window), s.chip.win.pending.find? (fun w => decide (w.tag = tag.toNat)) = some w
      ∧ w.active = false
      ∧ w.cls = .barrier
      ∧ w.start ≤ s.chip.tb.tc
      ∧ w.evtStart = false
      ∧ w.evtEnd = false
      ∧ s.chip.barrierClear w.start = true) :=
  ⟨⟨wOpen false, 6, wBurst, by decide +kernel⟩,
    ⟨wOpen false, 6, wBurst, by decide +kernel⟩,
    ⟨wOpen false, 5, wWin .opn false, by decide +kernel⟩,
    ⟨wOpen true, 5, wWin .opn true, by decide +kernel⟩,
    ⟨wBursting, 6, { wBurst with active := true }, by decide +kernel⟩,
    ⟨wOpen false, 8, wBarrier, by decide +kernel⟩⟩

/-- The hypotheses of ScheduledOperationsAndDebts are met. -/
theorem test_meets_ScheduledOperationsAndDebts :
    (∃ (s : State) (o : SchedOp) (r : List SchedOp), s.chip.win.ops = o :: r
      ∧ s.chip.opReady = true
      ∧ s.chip.opStill o.kind = true)
    ∧ (∃ (s : State) (o : SchedOp) (r : List SchedOp), s.chip.win.ops = o :: r
      ∧ s.chip.opReady = true
      ∧ s.chip.opStill o.kind = false)
    ∧ (∃ (s : State) (o : SchedOp), s.chip.win.running = some o
      ∧ (s.chip.opWork o.kind).opDone o.kind = true)
    ∧ (∃ (s : State) (o : SchedOp) (k d : Nat), s.chip.win.running = some o
      ∧ o.kind = .caskDomain k d
      ∧ s.chip.caskClear k = true
      ∧ s.chip.assignCode k d = 0)
    ∧ (∃ (s : State) (k : Fin 5) (level : Nat), k.val ≠ 1
      ∧ s.chip.inBurst = false
      ∧ 0 < s.chip.cfgAt Obj.windowsDebtMax k
      ∧ s.chip.cfgAt Obj.windowsDebtMax k ≤ level)
    ∧ (∃ (s : State) (k : Fin 5) (level : Nat), k.val ≠ 1
      ∧ s.chip.inBurst = true
      ∧ 0 < s.chip.cfgAt Obj.windowsDebtMax k
      ∧ s.chip.cfgAt Obj.windowsDebtMax k < level
      ∧ bitOf s.chip.win.overrun k = false)
    ∧ (∃ (s : State) (k : Fin 5) (level : Nat), k.val ≠ 1
      ∧ 2 * level ≤ s.chip.cfgAt Obj.windowsDebtMax k)
    ∧ (∃ (s : State) (w : Wait), (s.chip.waits.filter (fun w => decide (w.why = .absorb ∨ w.why = .reserve)) = [w])) :=
  ⟨⟨wOps, ⟨.reserve 0 1, 5, 0⟩, [], by decide +kernel⟩,
    ⟨wOpGone, ⟨.recall 5, 5, 0⟩, [], by decide +kernel⟩,
    ⟨wRunning (.linkChange 0 0), ⟨.linkChange 0 0, 5, 0⟩, by decide +kernel⟩,
    ⟨wRunning (.caskDomain 3 1), ⟨.caskDomain 3 1, 5, 0⟩, 3, 1, by decide +kernel⟩,
    ⟨wSvc, 2, 10000000, by decide +kernel⟩,
    ⟨wBursting, 2, 10000001, by decide +kernel⟩,
    ⟨wSvc, 2, 0, by decide +kernel⟩,
    ⟨wWaiting .absorb, wWait .absorb, by decide +kernel⟩⟩

/-- The hypotheses of HeadsTrainFailOverAndReset are met. -/
theorem test_meets_HeadsTrainFailOverAndReset :
    (∃ (s : State) (h : Fin 4) (width rate : Nat) (flit : Fin 4), s.chip.headPresent h = true
      ∧ s.chip.domain (headDomain h) = .on
      ∧ (width = 4 ∨ width = 8 ∨ width = 16)
      ∧ width ≤ s.chip.headLanes h
      ∧ 16 ≤ rate
      ∧ s.chip.trainedOk rate flit true = true
      ∧ s.chip.waits.all (fun w => decide (w.why ≠ .detect)) = true
      ∧ (s.chip.head h).owed = [])
    ∧ (∃ (s : State) (h : Fin 4), (s.chip.head h).state = .active)
    ∧ (∃ (s : State) (h : Fin 4), (s.chip.head h).state = .active
      ∧ (s.chip.head h).detect = true
      ∧ s.chip.waits.all (fun w => decide (w.why ≠ .detect)) = true
      ∧ (s.chip.head h).owed = [])
    ∧ (∃ (s : State) (h n : Fin 4), (s.chip.head h).state = .active
      ∧ (s.chip.head h).detect = true
      ∧ n ≠ h
      ∧ s.chip.headAgent n = s.chip.headAgent h
      ∧ (s.chip.head n).state = .active
      ∧ s.chip.coh.txns = [])
    ∧ (∃ (port : Fin 2) (h : Fin 4), h.val / 2 = port.val)
    ∧ (∃ (s : State) (h stream : Fin 4), stream ≠ 0
      ∧ bitOf (s.chip.head h).ideKeyed stream = true
      ∧ bitOf (s.chip.head h).ideInsecure stream = false) :=
  ⟨⟨wSvc, 0, 4, 16, 1, by decide +kernel⟩,
    ⟨wSvc, 0, by decide +kernel⟩,
    ⟨wDetect, 0, by decide +kernel⟩,
    ⟨wDetect, 0, 2, by decide +kernel⟩,
    ⟨1, 3, by decide +kernel⟩,
    ⟨wIde, 0, 1, by decide +kernel⟩⟩

/-- The hypotheses of ReadsReturnWhatMemoryHolds are met. -/
theorem test_meets_ReadsReturnWhatMemoryHolds :
    (∃ (s : State) (h : Fin 4) (tag : BitVec 16) (dla : BitVec 46) (mv : Meta) (k : Nat), s.chip.memLive h = true
      ∧ 0 < s.chip.readCredit h
      ∧ (s.chip.head h).detect = false
      ∧ dlaWin (lineBase dla.toNat) = .memory
      ∧ s.chip.verdict ⟨h, .byDir, .read, lineBase dla.toNat, 0, 0, false, true, 0, .head h tag.toNat mv⟩ {} = .ok k
      ∧ s.chip.assigning k = false
      ∧ s.chip.caskDomain k = none
      ∧ s.chip.inBurst = false
      ∧ s.chip.waits = []
      ∧ s.chip.map.badRecs = []
      ∧ s.chip.wayOffline (lineBase dla.toNat) = false
      ∧ (s.chip.page (pageNo (lineBase dla.toNat))).st = .unwritten)
    ∧ (∃ (s : State) (h : Fin 4) (tag : BitVec 16) (dla : BitVec 46) (mv : Meta) (k : Nat) (e : CLine), s.chip.memLive h = true
      ∧ 0 < s.chip.readCredit h
      ∧ (s.chip.head h).detect = false
      ∧ dlaWin (lineBase dla.toNat) = .memory
      ∧ s.chip.verdict ⟨h, .byDir, .read, lineBase dla.toNat, 0, 0, false, true, 0, .head h tag.toNat mv⟩ {} = .ok k
      ∧ s.chip.assigning k = false
      ∧ s.chip.caskDomain k = none
      ∧ s.chip.inBurst = false
      ∧ s.chip.waits = []
      ∧ s.chip.map.badRecs = []
      ∧ s.chip.wayOffline (lineBase dla.toNat) = false
      ∧ (s.chip.page (pageNo (lineBase dla.toNat))).st ≠ .poisoned
      ∧ (s.chip.srcRec (pageNo (lineBase dla.toNat))).st ≠ .unwritten
      ∧ s.chip.map.repairing = []
      ∧ s.chip.keyAbsent ⟨h, .byDir, .read, lineBase dla.toNat, 0, 0, false, true, 0, .head h tag.toNat mv⟩ = false
      ∧ Tab.find s.chip.cache.lines (lineNo (lineBase dla.toNat)) = some e
      ∧ s.chip.poisoned (lineBase dla.toNat) = false) :=
  ⟨⟨wMapped, 0, 1, 64, .a, 3, by decide +kernel⟩,
    ⟨wCached, 0, 1, 64, .a, 3, wCLine, by decide +kernel⟩⟩

/-- The hypotheses of WritesStoreTheirMaskedBytes are met. -/
theorem test_meets_WritesStoreTheirMaskedBytes :
    (∃ (s : State) (h : Fin 4) (tag : BitVec 16) (dla : BitVec 46) (mv : Meta) (mask : BitVec 64) (data : Line) (k : Nat), s.chip.memLive h = true
      ∧ dlaWin (lineBase dla.toNat) = .memory
      ∧ s.chip.verdict ⟨h, .byDir, .write, lineBase dla.toNat, mask, data, false, true, 0, .head h tag.toNat mv⟩ {} = .ok k
      ∧ s.chip.caskDomain k = none
      ∧ CachedWrite s.chip ⟨h, .byDir, .write, lineBase dla.toNat, mask, data, false, true, 0, .head h tag.toNat mv⟩
      ∧ s.chip.assigning k = false
      ∧ (s.chip.head h).detect = false) :=
  ⟨wCached, 0, 1, 64, .a, 1, 7, 3, by decide +kernel⟩

/-- The hypotheses of HeadRequestsWithoutData are met. -/
theorem test_meets_HeadRequestsWithoutData :
    (∃ (s : State) (h : Fin 4) (dla : BitVec 46) (e : FilterEnt), s.chip.memLive h = true
      ∧ s.chip.evictDenied h dla.toNat = false
      ∧ s.chip.agentIsDead (s.chip.headAgent h) = false
      ∧ (s.chip.head h).detect = false
      ∧ s.chip.ent (lineNo dla.toNat) = some e
      ∧ e.owner = some (s.chip.headAgent h)
      ∧ s.chip.coh.txns = []
      ∧ s.chip.coh.queue = []
      ∧ s.chip.coh.devQueue = []
      ∧ s.chip.coh.retrySince = 0
      ∧ s.chip.homeIdle = true)
    ∧ (∃ (s : State) (h : Fin 4) (dla : BitVec 46) (t : CohTxn), s.chip.memLive h = true
      ∧ s.chip.agentIsDead (s.chip.headAgent h) = false
      ∧ s.chip.snooped (s.chip.headAgent h) (lineNo dla.toNat) = some t)
    ∧ (∃ (s : State) (h : Fin 4), (s.chip.head h).state = .active
      ∧ s.chip.agentIsDead (s.chip.headAgent h) = false
      ∧ (s.chip.head h).detect = false)
    ∧ (∃ (s : State) (h : Fin 4), (s.chip.head h).up = true)
    ∧ (∃ (s : State) (h : Fin 4) (ways : Nat), (s.chip.head h).up = true
      ∧ ways ≠ 1)
    ∧ (∃ (s : State) (ext : Ext) (e : Extent), s.chip.map.extents.find? (fun e => decide (e.base = ext.base.toNat ∧ e.len = ext.len.toNat ∧ e.st = .offered)) = some e)
    ∧ (∃ (s : State), s.chip.mode.current = .service
      ∧ s.chip.window = none) :=
  ⟨⟨wOwned, 0, 64, ⟨some 0, 0, 1, 0⟩, by decide +kernel⟩,
    ⟨wSnooped, 0, 64, wTxn, by decide +kernel⟩,
    ⟨wSvc, 0, by decide +kernel⟩,
    ⟨wSvc, 0, by decide +kernel⟩,
    ⟨wSvc, 0, 2, by decide +kernel⟩,
    ⟨wOffered, ⟨0, 2097152⟩, ⟨0, 2097152, 3, 0, 0, .offered, []⟩, by decide +kernel⟩,
    ⟨wSvc, by decide +kernel⟩⟩

/-- The hypotheses of MailboxReadsAnswerFromTheState are met. -/
theorem test_meets_MailboxReadsAnswerFromTheState :
    (∃ (s : State) (h : Fin 4), s.chip.dictUp (.mailbox h) = true) :=
  ⟨wSvc, 0, by decide +kernel⟩

/-- The hypotheses of MailboxSettingsAndImages are met. -/
theorem test_meets_MailboxSettingsAndImages :
    (∃ (s : State) (h : Fin 4) (g : EvLog) (n : Nat), s.chip.dictUp (.mailbox h) = true
      ∧ n ≤ ((s.chip.head h).evLog (logIndex g)).recs.length)
    ∧ (∃ (s : State) (h : Fin 4) (g : EvLog) (n : Nat), s.chip.dictUp (.mailbox h) = true
      ∧ ((s.chip.head h).evLog (logIndex g)).recs.length < n)
    ∧ (∃ (s : State) (h : Fin 4), s.chip.dictUp (.mailbox h) = true)
    ∧ (∃ (s : State) (h : Fin 4), s.chip.dictUp (.mailbox h) = true)
    ∧ (∃ (s : State) (h : Fin 4), s.chip.dictUp (.mailbox h) = true)
    ∧ (∃ (s : State) (h : Fin 4), s.chip.dictUp (.mailbox h) = true)
    ∧ (∃ (s : State) (h : Fin 4) (length : BitVec 32), s.chip.dictUp (.mailbox h) = true
      ∧ s.chip.may 0x501 h 3 = true
      ∧ s.chip.otherProtected = false
      ∧ s.chip.sb.st ≠ 2
      ∧ 1 ≤ length.toNat
      ∧ length.toNat ≤ 2097088)
    ∧ (∃ (s : State) (h : Fin 4), s.chip.dictUp (.mailbox h) = true
      ∧ s.chip.may 0x501 h 3 = true
      ∧ s.chip.otherProtected = false
      ∧ s.chip.otherImage.st = .loaded)
    ∧ (∃ (s : State) (h : Fin 4) (x : Ext) (e : Extent), s.chip.dictUp (.mailbox h) = true
      ∧ s.chip.map.extents.find? (fun e => decide (e.base = x.base.toNat ∧ e.len = x.len.toNat ∧ e.st = .offered ∧ e.group = s.chip.cfgAt Obj.headGroup h)) = some e)
    ∧ (∃ (s : State) (h : Fin 4) (x : Ext), s.chip.dictUp (.mailbox h) = true
      ∧ s.chip.map.extents.find? (fun e => decide (e.base = x.base.toNat ∧ e.len = x.len.toNat ∧ e.st = .offered ∧ e.group = s.chip.cfgAt Obj.headGroup h)) = none)
    ∧ (∃ (s : State) (h : Fin 4) (x : Ext) (e : Extent), s.chip.dictUp (.mailbox h) = true
      ∧ s.chip.map.extents.find? (fun e => decide (e.base = x.base.toNat ∧ e.len = x.len.toNat ∧ e.st = .accepted ∧ e.group = s.chip.cfgAt Obj.headGroup h)) = some e
      ∧ s.chip.holdsTable e = false) :=
  ⟨⟨wSvc, 0, .info, 0, by decide +kernel⟩,
    ⟨wSvc, 0, .info, 1, by decide +kernel⟩,
    ⟨wSvc, 0, by decide +kernel⟩,
    ⟨wSvc, 0, by decide +kernel⟩,
    ⟨wSvc, 0, by decide +kernel⟩,
    ⟨wSvc, 0, by decide +kernel⟩,
    ⟨wSvc, 0, 1, by decide +kernel⟩,
    ⟨wImage, 0, by decide +kernel⟩,
    ⟨wOffered, 0, ⟨0, 2097152⟩, ⟨0, 2097152, 3, 0, 0, .offered, []⟩, by decide +kernel⟩,
    ⟨wSvc, 0, ⟨0, 2097152⟩, by decide +kernel⟩,
    ⟨wMapped, 0, ⟨0, 2097152⟩, ⟨0, 2097152, 3, 0, 0, .accepted, []⟩, by decide +kernel⟩⟩

/-- The hypotheses of MailboxPoisonAndVendorCommands are met. -/
theorem test_meets_MailboxPoisonAndVendorCommands :
    (∃ (s : State) (h : Fin 4) (dla : BitVec 46) (k : Nat), s.chip.dictUp (.mailbox h) = true
      ∧ s.chip.poisonCask h dla.toNat = some k
      ∧ s.chip.may k h 3 = true
      ∧ s.chip.extentOf (lineBase dla.toNat) ≠ none
      ∧ (s.chip.extentOf (lineBase dla.toNat)).all (fun e => decide (s.chip.caskDomain e.cask = none ∧ s.chip.assigning e.cask = false)) = true
      ∧ CachedWrite s.chip ⟨0x60, .byDir, .write, lineBase dla.toNat, fullMask, (s.chip.line dla.toNat), true, true, 0, .none⟩)
    ∧ (∃ (s : State) (h : Fin 4) (dla : BitVec 46) (d : Line) (k : Nat), s.chip.dictUp (.mailbox h) = true
      ∧ s.chip.poisonCask h dla.toNat = some k
      ∧ s.chip.may k h 3 = true
      ∧ s.chip.extentOf (lineBase dla.toNat) ≠ none
      ∧ (s.chip.extentOf (lineBase dla.toNat)).all (fun e => decide (s.chip.caskDomain e.cask = none ∧ s.chip.assigning e.cask = false)) = true
      ∧ CachedWrite s.chip ⟨0x60, .byDir, .write, lineBase dla.toNat, fullMask, d, false, true, 0, .none⟩)
    ∧ (∃ (s : State) (h : Fin 4) (input : List Byte) (i : ObjInfo), s.chip.dictUp (.mailbox h) = true
      ∧ input.length = 16
      ∧ s.chip.gate h (inNat input 0 2) (inNat input 2 1) false = .go i
      ∧ inNat input 4 4 < i.size
      ∧ 0 < inNat input 8 2
      ∧ inNat input 8 2 ≤ 4080)
    ∧ (∃ (s : State) (h : Fin 4) (input : List Byte), Accepts s.chip (.mailbox h) (inNat input 0 2) (inNat input 2 1) (inNat input 8 2)
      ∧ input.length = 16 + inNat input 8 2
      ∧ inNat input 4 4 = 0
      ∧ bitOf (inNat input 3 1) 0 = true
      ∧ 0 < inNat input 8 2
      ∧ inNat input 8 2 ≤ 4080)
    ∧ (∃ (s : State) (h : Fin 4) (input : List Byte), s.chip.dictUp (.mailbox h) = true
      ∧ input.length = 32
      ∧ s.chip.mayPost h = true)
    ∧ (∃ (s : State) (h : Fin 4) (input : List Byte), s.chip.dictUp (.mailbox h) = true
      ∧ input.length = 8 + 32 * inNat input 0 2
      ∧ 1 ≤ inNat input 0 2
      ∧ inNat input 0 2 ≤ 64) :=
  ⟨⟨wCached, 0, 64, 3, by decide +kernel⟩,
    ⟨wCached, 0, 64, 9, 3, by decide +kernel⟩,
    ⟨wSvc, 0, wRead, ⟨.text, .const, 16⟩, by decide +kernel⟩,
    ⟨wSvc, 0, wWrite, by decide +kernel⟩,
    ⟨wSvc, 0, bytesLE 32 0, by decide +kernel⟩,
    ⟨wSvc, 0, bytesLE 40 1, by decide +kernel⟩⟩

/-- The hypotheses of DictionaryPathsWriteAndRead are met. -/
theorem test_meets_DictionaryPathsWriteAndRead :
    (∃ (s : State) (h : Fin 4) (idx : BitVec 16) (sub : BitVec 8) (off n : BitVec 32) (i : ObjInfo), s.chip.dictUp (.bar2 h) = true
      ∧ s.chip.gate h idx.toNat sub.toNat false = .go i
      ∧ off.toNat < i.size
      ∧ 1 ≤ n.toNat
      ∧ n.toNat ≤ 4096)
    ∧ (∃ (s : State) (h : Fin 4) (idx : BitVec 16) (sub : BitVec 8) (n : BitVec 32) (buf : List Byte), Accepts s.chip (.bar2 h) idx.toNat sub.toNat n.toNat
      ∧ 1 ≤ n.toNat
      ∧ n.toNat ≤ 4080
      ∧ buf.length = 4096)
    ∧ (∃ (s : State) (h : Fin 4) (idx : BitVec 16) (sub : BitVec 8) (n : BitVec 32) (buf : List Byte) (i : ObjInfo), s.chip.dictUp (.bar2 h) = true
      ∧ s.chip.gate h idx.toNat sub.toNat true = .go i
      ∧ 1 ≤ n.toNat
      ∧ n.toNat < i.size
      ∧ n.toNat ≤ 4096
      ∧ buf.length = 4096
      ∧ s.chip.seqOf (objKey idx.toNat sub.toNat) = none)
    ∧ (∃ (s : State) (idx : BitVec 16) (sub : BitVec 8) (q : PieceSeq), s.chip.seqOf (objKey idx.toNat sub.toNat) = some q
      ∧ s.chip.field.xfer = none)
    ∧ (∃ (s : State) (src : Src) (idx : BitVec 16) (sub : BitVec 8) (value : List Byte), Accepts s.chip src idx.toNat sub.toNat value.length
      ∧ 0 < value.length
      ∧ value.length ≤ 4080)
    ∧ (∃ (s : State) (src : Src), s.chip.dictUp src = false)
    ∧ (∃ (s : State) (src : Src) (v : BitVec 32), Accepts s.chip src 0x1010 1 4
      ∧ v.toNat = 0x5EEDDEF0) :=
  ⟨⟨wSvc, 0, 0x1000, 1, 0, 4, ⟨.text, .const, 16⟩, by decide +kernel⟩,
    ⟨wSvc, 0, 0x1010, 1, 4, List.replicate 4096 0, by decide +kernel⟩,
    ⟨wSvc, 0, 0x1010, 1, 3, List.replicate 4096 0, ⟨.u32, .wo, 4⟩, by decide +kernel⟩,
    ⟨wSeq, 0x1010, 1, ⟨objKey 0x1010 1, 0, 8, [0]⟩, by decide +kernel⟩,
    ⟨wSvc, .manager, 0x1010, 1, [0, 0, 0, 0], by decide +kernel⟩,
    ⟨State.reset, .manager, by decide +kernel⟩,
    ⟨wSvc, .manager, 0x5EEDDEF0, by decide +kernel⟩⟩

/-- The hypotheses of FieldRequestsAnswer are met. -/
theorem test_meets_FieldRequestsAnswer :
    (∃ (s : State) (node : BitVec 7) (rest : List Byte) (i : ObjInfo), s.chip.busUp = true
      ∧ s.chip.field.addr ≠ 0
      ∧ node.toNat = s.chip.field.addr
      ∧ 3 ≤ rest.length
      ∧ s.chip.field.xfer = none
      ∧ s.chip.gate 0x70 (inNat rest 0 2) (inNat rest 2 1) false = .go i
      ∧ 1 ≤ i.size
      ∧ i.size ≤ 60)
    ∧ (∃ (s : State) (node : BitVec 7) (rest : List Byte) (i : ObjInfo), s.chip.busUp = true
      ∧ s.chip.field.addr ≠ 0
      ∧ node.toNat = s.chip.field.addr
      ∧ 3 ≤ rest.length
      ∧ s.chip.field.xfer = none
      ∧ s.chip.gate 0x70 (inNat rest 0 2) (inNat rest 2 1) false = .go i
      ∧ 60 < i.size
      ∧ i.size ≤ 4096)
    ∧ (∃ (s : State) (node : BitVec 7) (rest : List Byte) (n : Nat), s.chip.busUp = true
      ∧ s.chip.field.addr ≠ 0
      ∧ node.toNat = s.chip.field.addr
      ∧ 3 ≤ rest.length
      ∧ Accepts s.chip .field (inNat rest 0 2) (inNat rest 2 1) n
      ∧ 0 < n
      ∧ n ≤ 60
      ∧ n ≤ (rest.drop 3).length
      ∧ (rest.drop 3).length + 4 ≤ canLength (n + 4))
    ∧ (∃ (s : State) (node : BitVec 7) (rest : List Byte) (n : Nat), s.chip.busUp = true
      ∧ s.chip.field.addr ≠ 0
      ∧ node.toNat = s.chip.field.addr
      ∧ 3 ≤ rest.length
      ∧ Accepts s.chip .field (inNat rest 0 2) (inNat rest 2 1) n
      ∧ 60 < n
      ∧ 7 ≤ rest.length
      ∧ inNat (rest.drop 3) 0 4 = n)
    ∧ (∃ (s : State) (node : BitVec 7) (t : Bool) (rest : List Byte) (x : Xfer), s.chip.busUp = true
      ∧ s.chip.field.addr ≠ 0
      ∧ node.toNat = s.chip.field.addr
      ∧ 3 ≤ rest.length
      ∧ s.chip.field.xfer = some x
      ∧ x.read = false ∧ x.idx = inNat rest 0 2 ∧ x.sub = inNat rest 2 1 ∧ x.t = t
      ∧ x.pos + 60 < x.size
      ∧ (rest.drop 3).length = 60)
    ∧ (∃ (s : State) (node : BitVec 7) (t : Bool) (rest : List Byte) (x : Xfer), s.chip.busUp = true
      ∧ s.chip.field.addr ≠ 0
      ∧ node.toNat = s.chip.field.addr
      ∧ 3 ≤ rest.length
      ∧ s.chip.field.xfer = some x
      ∧ x.read = false ∧ x.idx = inNat rest 0 2 ∧ x.sub = inNat rest 2 1 ∧ x.t = t
      ∧ x.pos < x.size
      ∧ x.size ≤ x.pos + 60
      ∧ x.size < 4294967296
      ∧ x.buf.length = x.pos
      ∧ x.size - x.pos ≤ (rest.drop 3).length
      ∧ (rest.drop 3).length + 4 ≤ canLength (x.size - x.pos + 4)
      ∧ Accepts s.chip.endXfer .field (inNat rest 0 2) (inNat rest 2 1) x.size)
    ∧ (∃ (s : State) (node : BitVec 7) (t : Bool) (rest : List Byte) (x : Xfer), s.chip.busUp = true
      ∧ s.chip.field.addr ≠ 0
      ∧ node.toNat = s.chip.field.addr
      ∧ 3 ≤ rest.length
      ∧ s.chip.field.xfer = some x
      ∧ x.read = true ∧ x.idx = inNat rest 0 2 ∧ x.sub = inNat rest 2 1 ∧ x.t = t
      ∧ x.pos < x.size
      ∧ x.size ≤ 4096)
    ∧ (∃ (s : State) (node : BitVec 7) (rest : List Byte), s.chip.busUp = true
      ∧ s.chip.field.addr ≠ 0
      ∧ node.toNat = s.chip.field.addr
      ∧ 3 ≤ rest.length)
    ∧ (∃ (s : State) (node : BitVec 7) (rest : List Byte), s.chip.busUp = true
      ∧ s.chip.field.addr ≠ 0
      ∧ node.toNat = s.chip.field.addr
      ∧ 3 ≤ rest.length)
    ∧ (∃ (s : State) (x : Xfer), s.chip.field.xfer = some x) :=
  ⟨⟨wField, 5, [0x00, 0x10, 1], ⟨.text, .const, 16⟩, by decide +kernel⟩,
    ⟨wField, 5, [0x10, 0x20, 1], ⟨.octets, .rwp, 64⟩, by decide +kernel⟩,
    ⟨wField, 5, [0x10, 0x10, 1, 1, 2, 3, 4], 4, by decide +kernel⟩,
    ⟨wField, 5, [0x10, 0x20, 1, 64, 0, 0, 0], 64, by decide +kernel⟩,
    ⟨wFieldX false, 5, false, [0x10, 0x20, 1] ++ List.replicate 60 7, wXfer false, by decide +kernel⟩,
    ⟨wFieldLast, 5, false, [0x10, 0x20, 1] ++ List.replicate 4 7, wXferLast, by decide +kernel⟩,
    ⟨wFieldX true, 5, false, [0x10, 0x20, 1], wXfer true, by decide +kernel⟩,
    ⟨wFieldX false, 5, [0x10, 0x20, 1], by decide +kernel⟩,
    ⟨wFieldX false, 5, [0x10, 0x20, 1], by decide +kernel⟩,
    ⟨wFieldX false, wXfer false, by decide +kernel⟩⟩

/-- The hypotheses of FieldNodeHeartbeatsAndAddresses are met. -/
theorem test_meets_FieldNodeHeartbeatsAndAddresses :
    (∃ (s : State) (node : BitVec 7) (rest : List Byte), s.chip.busUp = true
      ∧ s.chip.field.addr ≠ 0
      ∧ (node = 0 ∨ node.toNat = s.chip.field.addr)
      ∧ rest.head? = some 0)
    ∧ (∃ (s : State), s.chip.cfg Obj.fieldHeartbeatMs ≠ 0
      ∧ s.chip.busUp = true
      ∧ s.chip.field.addr ≠ 0)
    ∧ (∃ (s : State) (node : BitVec 7) (rest : List Byte) (l : List Nat), s.chip.busUp = true
      ∧ s.chip.field.addr ≠ 0
      ∧ (node = 0 ∨ node.toNat = s.chip.field.addr)
      ∧ rest.head? = some 0
      ∧ l = (List.range 256).filter (fun n => s.chip.sticky n && decide (s.chip.cfg Obj.fieldAlarmMinSeverity ≤ s.chip.severity n))
      ∧ s.chip.field.alarms.length + l.length ≤ 32)
    ∧ (∃ (s : State) (rest : List Byte) (us : Nat), s.chip.busUp = true
      ∧ s.chip.mode.current = .unaddressed
      ∧ 7 ≤ rest.length
      ∧ s.chip.chained = true
      ∧ s.chip.field.addr = 0
      ∧ 1 ≤ inNat rest 0 1
      ∧ inNat rest 0 1 ≤ 126
      ∧ s.chip.field.chainIn = some us
      ∧ 1000 ≤ us
      ∧ s.chip.cfg Obj.modeAutoTrain = 0)
    ∧ (∃ (s : State) (node : BitVec 7), s.chip.busUp = true
      ∧ s.chip.field.addr ≠ 0
      ∧ node.toNat = s.chip.field.addr)
    ∧ (∃ (s : State), s.chip.field.busState ≠ 2)
    ∧ (∃ (s : State), s.chip.field.busState = 2) :=
  ⟨⟨wField, 5, [0], by decide +kernel⟩,
    ⟨wField, by decide +kernel⟩,
    ⟨wField, 5, [0], [], by decide +kernel⟩,
    ⟨wChained, [9, 0, 0, 0, 0, 0, 0], 2000, by decide +kernel⟩,
    ⟨wField, 5, by decide +kernel⟩,
    ⟨wFieldX false, by decide +kernel⟩,
    ⟨wBusOff, by decide +kernel⟩⟩

/-- The hypotheses of CasksFollowTheirStates are met. -/
theorem test_meets_CasksFollowTheirStates :
    (∃ (s : State) (src : Src) (c : Fin 1024), Accepts s.chip src (0x9000 + ↑c) 2 1
      ∧ (s.chip.cask c).state = .free)
    ∧ (∃ (s : State) (src : Src) (c : Fin 1024), Accepts s.chip src (0x9000 + ↑c) 2 1
      ∧ (s.chip.cask c).state ≠ .free)
    ∧ (∃ (s : State) (src : Src) (c : Fin 1024), Accepts s.chip src (0x9000 + ↑c) 2 1
      ∧ (s.chip.cask c).state = .active)
    ∧ (∃ (s : State) (src : Src) (c : Fin 1024), Accepts s.chip src (0x9000 + ↑c) 2 1
      ∧ (s.chip.cask c).state = .quiesced)
    ∧ (∃ (s : State) (src : Src) (c : Fin 1024), Accepts s.chip src (0x9000 + ↑c) 2 1
      ∧ (s.chip.cask c).state = .quiescing)
    ∧ (∃ (s : State) (c : Fin 1024), (s.chip.cask c).state = .quiescing
      ∧ s.chip.caskVisible c = true
      ∧ (s.chip.caskChans c).all (fun ch => decide ((s.chip.hchan ch).inflight = 0)) = true)
    ∧ (∃ (s : State) (c : Fin 1024), (s.chip.cask c).state = .quiescing)
    ∧ (∃ (s : State) (src : Src) (c : Fin 1024), Accepts s.chip src (0x9000 + ↑c) 2 1
      ∧ (s.chip.cask c).state = .quiesced)
    ∧ (∃ (s : State) (c : Fin 1024), (s.chip.cask c).state = .resetting)
    ∧ (∃ (s : State) (src : Src) (c : Fin 1024), Accepts s.chip src (0x9000 + ↑c) 2 1
      ∧ (s.chip.cask c).state = .quiesced
      ∧ s.chip.map.extents.all (fun e => decide (e.cask ≠ c)) = true)
    ∧ (∃ (s : State) (src : Src) (c : Fin 1024), Accepts s.chip src (0x9000 + ↑c) 2 1
      ∧ (s.chip.cask c).state ≠ .free) :=
  ⟨⟨wSvc, .manager, 3, by decide +kernel⟩,
    ⟨wCaskIn .active, .manager, 3, by decide +kernel⟩,
    ⟨wCaskIn .active, .manager, 3, by decide +kernel⟩,
    ⟨wCaskIn .quiesced, .manager, 3, by decide +kernel⟩,
    ⟨wCaskIn .quiescing, .manager, 3, by decide +kernel⟩,
    ⟨wCaskIn .quiescing, 3, by decide +kernel⟩,
    ⟨wCaskIn .quiescing, 3, by decide +kernel⟩,
    ⟨wCaskIn .quiesced, .manager, 3, by decide +kernel⟩,
    ⟨wCaskIn .resetting, 3, by decide +kernel⟩,
    ⟨wCask9, .manager, 9, by decide +kernel⟩,
    ⟨wCaskIn .active, .manager, 3, by decide +kernel⟩⟩

/-- The hypotheses of CaskSettingsRightsAndDiscards are met. -/
theorem test_meets_CaskSettingsRightsAndDiscards :
    (∃ (s : State) (src : Src) (c : Fin 1024) (v : BitVec 32), Accepts s.chip src (0x9000 + ↑c) 3 4
      ∧ bitsOf v.toNat 20 11 = 0
      ∧ (s.chip.cask c).state ≠ .active
      ∧ (s.chip.cask c).state ≠ .quiescing
      ∧ (s.chip.cask c).state ≠ .resetting
      ∧ (bitOf v.toNat 31 = true → s.chip.slotOf (v.toNat % 2 ^ 20) = none ∨ s.chip.slotOf (v.toNat % 2 ^ 20) = some c.val))
    ∧ (∃ (s : State) (src : Src) (c : Fin 1024) (v : BitVec 8), Accepts s.chip src (0x9000 + ↑c) 7 1
      ∧ v.toNat ≤ 1
      ∧ (v.toNat = 1 → s.chip.cfgAt Obj.caskLogBitmapDla c % 64 = 0 ∧ s.chip.cfgAt Obj.caskLogRingDla c % 4096 = 0))
    ∧ (∃ (s : State) (src : Src) (v : BitVec 32), Accepts s.chip src (0x94F0) (1) 4
      ∧ bitsOf v.toNat 28 4 = 0
      ∧ isTarget (bitsOf v.toNat 0 16) = true
      ∧ isMaster (bitsOf v.toNat 16 8) = true
      ∧ (isEngine (bitsOf v.toNat 16 8) = true → bitsOf v.toNat 24 4 = 15)
      ∧ s.chip.may (bitsOf v.toNat 0 16) (srcMaster src) 3 = true)
    ∧ (∃ (s : State) (src : Src) (v : BitVec 32), Accepts s.chip src 0x94F0 1 4
      ∧ bitsOf v.toNat 28 4 = 0
      ∧ isTarget (bitsOf v.toNat 0 16) = true
      ∧ isMaster (bitsOf v.toNat 16 8) = true
      ∧ (isEngine (bitsOf v.toNat 16 8) = true → bitsOf v.toNat 24 4 = 15)
      ∧ s.chip.may (bitsOf v.toNat 0 16) (srcMaster src) 3 = false)
    ∧ (∃ (s : State) (src : Src) (target : BitVec 16) (table : BitVec 1024), Accepts s.chip src (tableKey target.toNat / 256) (tableKey target.toNat % 256) 128
      ∧ isTarget target.toNat = true
      ∧ bitsOf table.toNat 384 16 = 0xFFFF)
    ∧ (∃ (s : State) (src : Src) (dla : BitVec 64) (e : Extent), Accepts s.chip src 0x6800 0x0A 8
      ∧ dla.toNat % 4096 = 0
      ∧ s.chip.extentOf dla.toNat = some e
      ∧ e.st = .accepted
      ∧ s.chip.may e.cask (srcMaster src) 3 = true
      ∧ s.chip.busyPage (pageNo dla.toNat) = false
      ∧ s.chip.cfgAt Obj.caskLogEnable e.cask ≠ 1
      ∧ (s.chip.page (pageNo dla.toNat)).st ≠ .unwritten
      ∧ s.chip.journalRoom 1 = true
      ∧ s.chip.map.badRecs = [])
    ∧ (∃ (s : State) (page : BitVec 34) (e : Extent) (m : Nat), s.chip.map.discards.find? (fun d => decide (d.1 = page.toNat)) = some (page.toNat, m)
      ∧ s.chip.busyPage page.toNat = false
      ∧ s.chip.extentOf (4096 * page.toNat) = some e
      ∧ s.chip.cfgAt Obj.caskLogEnable e.cask ≠ 1
      ∧ (s.chip.page page.toNat).st ≠ .unwritten
      ∧ s.chip.journalRoom 1 = true)
    ∧ (∃ (s : State) (page : BitVec 34), s.chip.map.repairing.contains page.toNat = true)
    ∧ (∃ (s : State) (page : BitVec 34), s.chip.map.repairing.contains page.toNat = true)
    ∧ (∃ (s : State) (page : BitVec 34), s.chip.map.repairing.contains page.toNat = false
      ∧ s.chip.map.repairing.contains (dirRecNo (page.toNat / 512)) = true) :=
  ⟨⟨wSvc, .manager, 3, 0x80000007, by decide +kernel⟩,
    ⟨wSvc, .manager, 3, 1, by decide +kernel⟩,
    ⟨wSvc, .manager, 0x05000003, by decide +kernel⟩,
    ⟨wNoAdmin, .mailbox 1, 0x05000003, by decide +kernel⟩,
    ⟨wSvc, .manager, 3, BitVec.ofNat 1024 (65535 * 2 ^ 384), by decide +kernel⟩,
    ⟨wCached, .manager, 0, ⟨0, 2097152, 3, 0, 0, .accepted, []⟩, by decide +kernel⟩,
    ⟨wDiscard, 0, ⟨0, 2097152, 3, 0, 0, .accepted, []⟩, 0, by decide +kernel⟩,
    ⟨wRepair, 0, by decide +kernel⟩,
    ⟨wRepair, 0, by decide +kernel⟩,
    ⟨wRepairDir, 0, by decide +kernel⟩⟩

/-- The hypotheses of CoherentPacketsOfLinks are met. -/
theorem test_meets_CoherentPacketsOfLinks :
    (∃ (s : State) (l : Fin 8) (p : Packet) (d k : Nat), s.chip.linkLive l = true
      ∧ s.chip.agentIsDead (linkAgent l) = false
      ∧ p.op.toNat = 1
      ∧ s.chip.goodPacket l 9 p = true
      ∧ pktDla p % 64 = 0
      ∧ s.chip.linkDomainOf l p = some d
      ∧ s.chip.verdict (⟨0x10 + ↑l, .pasid (s.chip.slotOf p.pasid.toNat), .read, pktDla p, 0, 0, p.poison, true, 0, .link l p.tag.toNat⟩ : Access) {} = .ok k
      ∧ (s.chip.dom d).state = .active
      ∧ s.chip.coh.txns = []
      ∧ s.chip.coh.queue = []
      ∧ s.chip.coh.devQueue = []
      ∧ s.chip.coh.retrySince = 0
      ∧ s.chip.homeIdle = true
      ∧ Tab.find s.chip.coh.held (lineNo (pktDla p)) = none
      ∧ s.chip.lineAssigning (lineNo (pktDla p)) = false
      ∧ s.chip.waits = []
      ∧ s.chip.map.badRecs = []
      ∧ s.chip.wayOffline (pktDla p) = false
      ∧ s.chip.inBurst = false
      ∧ (s.chip.page (pageNo (pktDla p))).st = .unwritten
      ∧ s.chip.ent (lineNo (pktDla p)) = none
      ∧ s.chip.setCount (lineNo (pktDla p)) + 1 + s.chip.cfg Obj.cohSfReserveWays ≤ 16)
    ∧ (∃ (s : State) (l : Fin 8) (p : Packet) (d k : Nat), s.chip.linkLive l = true
      ∧ s.chip.agentIsDead (linkAgent l) = false
      ∧ p.op.toNat = 2
      ∧ s.chip.goodPacket l 9 p = true
      ∧ pktDla p % 64 = 0
      ∧ s.chip.linkDomainOf l p = some d
      ∧ s.chip.verdict (⟨0x10 + ↑l, .pasid (s.chip.slotOf p.pasid.toNat), .read, pktDla p, 0, 0, p.poison, true, 0, .link l p.tag.toNat⟩ : Access) {} = .ok k
      ∧ (s.chip.dom d).state = .active
      ∧ s.chip.coh.txns = []
      ∧ s.chip.coh.queue = []
      ∧ s.chip.coh.devQueue = []
      ∧ s.chip.coh.retrySince = 0
      ∧ s.chip.homeIdle = true
      ∧ Tab.find s.chip.coh.held (lineNo (pktDla p)) = none
      ∧ s.chip.lineAssigning (lineNo (pktDla p)) = false
      ∧ s.chip.waits = []
      ∧ s.chip.map.badRecs = []
      ∧ s.chip.wayOffline (pktDla p) = false
      ∧ s.chip.inBurst = false
      ∧ (s.chip.page (pageNo (pktDla p))).st = .unwritten
      ∧ s.chip.ent (lineNo (pktDla p)) = none
      ∧ s.chip.setCount (lineNo (pktDla p)) + 1 + s.chip.cfg Obj.cohSfReserveWays ≤ 16)
    ∧ (∃ (s : State) (l : Fin 8) (p : Packet) (d k : Nat), s.chip.linkLive l = true
      ∧ s.chip.agentIsDead (linkAgent l) = false
      ∧ p.op.toNat = 3
      ∧ s.chip.goodPacket l 9 p = true
      ∧ pktDla p % 64 = 0
      ∧ s.chip.linkDomainOf l p = some d
      ∧ s.chip.verdict (⟨0x10 + ↑l, .pasid (s.chip.slotOf p.pasid.toNat), .read, pktDla p, 0, 0, p.poison, true, 0, .link l p.tag.toNat⟩ : Access) {} = .ok k
      ∧ (s.chip.dom d).state = .active
      ∧ s.chip.coh.txns = []
      ∧ s.chip.coh.queue = []
      ∧ s.chip.coh.devQueue = []
      ∧ s.chip.coh.retrySince = 0
      ∧ s.chip.homeIdle = true
      ∧ Tab.find s.chip.coh.held (lineNo (pktDla p)) = none
      ∧ s.chip.lineAssigning (lineNo (pktDla p)) = false
      ∧ s.chip.waits = []
      ∧ s.chip.map.badRecs = []
      ∧ s.chip.wayOffline (pktDla p) = false
      ∧ s.chip.inBurst = false
      ∧ (s.chip.page (pageNo (pktDla p))).st = .unwritten
      ∧ s.chip.ent (lineNo (pktDla p)) = none
      ∧ s.chip.setCount (lineNo (pktDla p)) + 1 + s.chip.cfg Obj.cohSfReserveWays ≤ 16)
    ∧ (∃ (s : State) (l : Fin 8) (p : Packet) (d k : Nat), s.chip.linkLive l = true
      ∧ s.chip.agentIsDead (linkAgent l) = false
      ∧ p.op.toNat = 6
      ∧ s.chip.goodPacket l 9 p = true
      ∧ pktDla p % 64 = 0
      ∧ s.chip.linkDomainOf l p = some d
      ∧ s.chip.verdict (⟨0x10 + ↑l, .pasid (s.chip.slotOf p.pasid.toNat), .write, pktDla p, (BitVec.ofNat 64 (natLE (p.data.take 8))), (lineOf (p.data.drop 16)), p.poison, true, 0, .link l p.tag.toNat⟩ : Access) {} = .ok k
      ∧ (s.chip.dom d).state = .active
      ∧ s.chip.coh.txns = []
      ∧ s.chip.coh.queue = []
      ∧ s.chip.coh.devQueue = []
      ∧ s.chip.coh.retrySince = 0
      ∧ s.chip.homeIdle = true
      ∧ Tab.find s.chip.coh.held (lineNo (pktDla p)) = none
      ∧ s.chip.lineAssigning (lineNo (pktDla p)) = false
      ∧ s.chip.ent (lineNo (pktDla p)) = none
      ∧ CachedWrite s.chip (⟨0x10 + ↑l, .pasid (s.chip.slotOf p.pasid.toNat), .write, pktDla p, (BitVec.ofNat 64 (natLE (p.data.take 8))), (lineOf (p.data.drop 16)), p.poison, true, 0, .link l p.tag.toNat⟩ : Access)
      ∧ s.chip.cfgAt Obj.caskLogEnable k ≠ 1)
    ∧ (∃ (s : State) (l : Fin 8) (p : Packet), s.chip.linkLive l = true
      ∧ s.chip.agentIsDead (linkAgent l) = false
      ∧ p.op.toNat = 4
      ∧ s.chip.goodPacket l 9 p = true
      ∧ s.chip.linkMay l p = true
      ∧ (s.chip.ent (lineNo (pktDla p))).bind (·.owner) = some (linkAgent l)
      ∧ s.chip.coh.txns = []
      ∧ s.chip.coh.queue = []
      ∧ s.chip.coh.devQueue = []
      ∧ s.chip.coh.retrySince = 0
      ∧ s.chip.homeIdle = true
      ∧ CachedWrite s.chip (⟨0x10 + ↑l, .byDir, .write, lineBase (pktDla p), fullMask, lineOf p.data, p.poison, true, 0, .none⟩ : Access)
      ∧ (s.chip.extentOf (lineBase (pktDla p))).all (fun e => decide (s.chip.cfgAt Obj.caskLogEnable e.cask ≠ 1)) = true)
    ∧ (∃ (s : State) (l : Fin 8) (p : Packet) (e : FilterEnt), s.chip.linkLive l = true
      ∧ s.chip.agentIsDead (linkAgent l) = false
      ∧ p.op.toNat = 5
      ∧ s.chip.goodPacket l 9 p = true
      ∧ s.chip.linkMay l p = true
      ∧ s.chip.ent (lineNo (pktDla p)) = some e
      ∧ e.owner = some (linkAgent l)
      ∧ s.chip.coh.txns = []
      ∧ s.chip.coh.queue = []
      ∧ s.chip.coh.devQueue = []
      ∧ s.chip.coh.retrySince = 0
      ∧ s.chip.homeIdle = true)
    ∧ (∃ (s : State) (l : Fin 8) (p : Packet), s.chip.linkLive l = true
      ∧ s.chip.agentIsDead (linkAgent l) = false
      ∧ p.op.toNat = 7
      ∧ s.chip.goodPacket l 9 p = true
      ∧ bitOf s.chip.coh.pulled (linkAgent l) = true)
    ∧ (∃ (s : State) (l : Fin 8) (d : Nat), bitOf s.chip.coh.pulled (linkAgent l) = true
      ∧ ((List.range 64).filter (fun d => s.chip.isMember d (linkAgent l) && decide ((s.chip.dom d).state = .active ∨ (s.chip.dom d).state = .recalling)) = [d])
      ∧ s.chip.coh.filter = []
      ∧ s.chip.coh.txns = []
      ∧ s.chip.coh.queue = []
      ∧ s.chip.coh.devQueue = []
      ∧ s.chip.coh.retrySince = 0) :=
  ⟨⟨wCoh, 0, wPacket 1, 5, 3, by decide +kernel⟩,
    ⟨wCoh, 0, wPacket 2, 5, 3, by decide +kernel⟩,
    ⟨wCoh, 0, wPacket 3, 5, 3, by decide +kernel⟩,
    ⟨wCohCached, 0, { wPacket 6 with slotsM1 := 5, data := List.replicate 80 255 }, 5, 3, by decide +kernel⟩,
    ⟨wCohOwned, 0, { wPacket 4 with slotsM1 := 4, data := List.replicate 64 255 }, by decide +kernel⟩,
    ⟨wCohOwned, 0, wPacket 5, ⟨some 8, 0, 5, 0⟩, by decide +kernel⟩,
    ⟨wPulled, 0, wPacket 7, by decide +kernel⟩,
    ⟨wPulled, 0, 5, by decide +kernel⟩⟩

/-- The hypotheses of DomainsFormAndSnoopsAreAnswered are met. -/
theorem test_meets_DomainsFormAndSnoopsAreAnswered :
    (∃ (s : State) (src : Src) (c : Fin 1024) (d : BitVec 8), Accepts s.chip src (0x8800) 8 1024
      ∧ bitsOf (s.chip.cfg Obj.cohCaskDomain) (8 * c) 8 ≠ d.toNat
      ∧ (d.toNat < 64 ∨ d.toNat = 0xFF)
      ∧ (d.toNat < 64 → s.chip.unsharable c = false)
      ∧ ((s.chip.cask c).state = .free ∨ (s.chip.cask c).state = .quiesced))
    ∧ (∃ (s : State) (src : Src) (d : Fin 64), Accepts s.chip src (0x8840 + ↑d) 2 1
      ∧ (s.chip.dom d).state = .unused
      ∧ agentCountOk (s.chip.cfgAt Obj.cohDomainAgents d) = true
      ∧ (List.range 16).all (fun a => !bitOf (s.chip.cfgAt Obj.cohDomainAgents d) a || !s.chip.agentIsDead a || s.chip.agentUp a) = true)
    ∧ (∃ (s : State) (src : Src) (d : Fin 64), Accepts s.chip src (0x8840 + ↑d) 2 1
      ∧ (s.chip.dom d).state = .down
      ∧ agentCountOk (s.chip.cfgAt Obj.cohDomainAgents d) = true
      ∧ (List.range 16).all (fun a => !bitOf (s.chip.cfgAt Obj.cohDomainAgents d) a || !s.chip.agentIsDead a || s.chip.agentUp a) = true
      ∧ s.chip.coh.filter.all (fun e => decide (e.2.domain ≠ d.val)) = true
      ∧ s.chip.coh.txns = []
      ∧ s.chip.coh.queue = []
      ∧ s.chip.coh.devQueue = []
      ∧ s.chip.coh.retrySince = 0
      ∧ s.chip.homeIdle = true)
    ∧ (∃ (s : State) (src : Src) (d : Fin 64), Accepts s.chip src (0x8840 + ↑d) 2 1
      ∧ (s.chip.dom d).state = .active)
    ∧ (∃ (s : State) (src : Src) (d : Fin 64), Accepts s.chip src (0x8840 + ↑d) 2 1
      ∧ ((s.chip.dom d).state = .active ∨ (s.chip.dom d).state = .down)
      ∧ (List.range 1024).all (fun c => decide (s.chip.caskDomain c ≠ some d.val)) = true)
    ∧ (∃ (s : State) (d : Fin 64), (s.chip.dom d).state = .recalling
      ∧ s.chip.coh.filter.all (fun e => decide (e.2.domain ≠ d.val)) = true
      ∧ s.chip.coh.txns = []
      ∧ s.chip.coh.queue = []
      ∧ s.chip.coh.devQueue = []
      ∧ s.chip.coh.retrySince = 0
      ∧ s.chip.homeIdle = true)
    ∧ (∃ (s : State) (l : Fin 8) (p : Packet) (t : CohTxn), s.chip.linkLive l = true
      ∧ s.chip.agentIsDead (linkAgent l) = false
      ∧ p.op.toNat = 0x18
      ∧ s.chip.goodPacket l 9 p = true
      ∧ s.chip.snooped (linkAgent l) (lineNo (pktDla p)) = some t)
    ∧ (∃ (s : State) (l : Fin 8) (p : Packet) (t : CohTxn), s.chip.linkLive l = true
      ∧ s.chip.agentIsDead (linkAgent l) = false
      ∧ p.op.toNat = 0x19
      ∧ s.chip.goodPacket l 9 p = true
      ∧ s.chip.snooped (linkAgent l) (lineNo (pktDla p)) = some t)
    ∧ (∃ (s : State) (l : Fin 8) (p : Packet) (t : CohTxn), s.chip.linkLive l = true
      ∧ s.chip.agentIsDead (linkAgent l) = false
      ∧ p.op.toNat = 0x1A
      ∧ s.chip.goodPacket l 9 p = true
      ∧ s.chip.snooped (linkAgent l) (lineNo (pktDla p)) = some t)
    ∧ (∃ (s : State) (l : Fin 8) (p : Packet) (t : CohTxn), s.chip.linkLive l = true
      ∧ s.chip.agentIsDead (linkAgent l) = false
      ∧ p.op.toNat = 0x1B
      ∧ s.chip.goodPacket l 9 p = true
      ∧ s.chip.snooped (linkAgent l) (lineNo (pktDla p)) = some t)
    ∧ (∃ (s : State) (l : Fin 8) (p : Packet) (t : CohTxn), s.chip.linkLive l = true
      ∧ s.chip.agentIsDead (linkAgent l) = false
      ∧ p.op.toNat = 0x1C
      ∧ s.chip.goodPacket l 9 p = true
      ∧ s.chip.snooped (linkAgent l) (lineNo (pktDla p)) = some t)
    ∧ (∃ (s : State) (a : Fin 16) (dla : BitVec 46) (d : Nat) (t : CohTxn) (b k tag : Nat), s.chip.txnOf (lineNo dla.toNat) = some t
      ∧ t.owed.any (fun x => decide (x.agent = a) && s.chip.deadlineRuns x) = true
      ∧ s.chip.coh.txns = [t]
      ∧ s.chip.coh.queue = []
      ∧ s.chip.coh.devQueue = []
      ∧ ((List.range 64).filter (fun d => s.chip.isMember d a && decide ((s.chip.dom d).state = .active ∨ (s.chip.dom d).state = .recalling)) = [d])
      ∧ t.domain = d
      ∧ t.replied = false
      ∧ t.req.acc.kind = .read
      ∧ t.req.acc.ret = .link k tag
      ∧ t.req.agent = some b
      ∧ b ≠ a.val
      ∧ s.chip.agentIsDead b = false
      ∧ (t.req.kind = .shared ∨ t.req.kind = .own ∨ t.req.kind = .cur)
      ∧ s.chip.coh.filter.all (fun e => decide (e.2.owner ≠ some a.val)) = true) :=
  ⟨⟨wSvc, .manager, 3, 5, by decide +kernel⟩,
    ⟨wDom .unused, .manager, 5, by decide +kernel⟩,
    ⟨wDom .down, .manager, 5, by decide +kernel⟩,
    ⟨wDom .active, .manager, 5, by decide +kernel⟩,
    ⟨wDom .active, .manager, 5, by decide +kernel⟩,
    ⟨wDom .recalling, 5, by decide +kernel⟩,
    ⟨wSnooping, 0, { wPacket 0x18 with slotsM1 := 0 }, wTxnL, by decide +kernel⟩,
    ⟨wSnooping, 0, { wPacket 0x19 with slotsM1 := 0 }, wTxnL, by decide +kernel⟩,
    ⟨wSnooping, 0, { wPacket 0x1A with slotsM1 := 4 }, wTxnL, by decide +kernel⟩,
    ⟨wSnooping, 0, { wPacket 0x1B with slotsM1 := 4 }, wTxnL, by decide +kernel⟩,
    ⟨wSnooping, 0, { wPacket 0x1C with slotsM1 := 4 }, wTxnL, by decide +kernel⟩,
    ⟨wMissed, 8, 64, 5, wTxnM, 9, 1, 3, by decide +kernel⟩⟩

/-- The hypotheses of MigrationsFollowTheirSteps are met. -/
theorem test_meets_MigrationsFollowTheirSteps :
    (∃ (s : State) (i : Fin 32) (p : BitVec 34) (k : Fin 4) (ch : Fin 8) (loc : BitVec 35), k ≠ 0
      ∧ s.chip.slotReady i p.toNat = true
      ∧ s.chip.mayMove p.toNat k ch = true
      ∧ s.chip.roomAt (tierOfCode k) ch (s.chip.accessRegion (4096 * p.toNat)) = true
      ∧ (tierOfCode k ≠ .ddr ∨ s.chip.stopped ch = false)
      ∧ s.chip.map.badRecs = []
      ∧ (tierOfCode k = .nvm → s.chip.pruneOlds.placeOk ch loc.toNat (s.chip.unitLines p.toNat (if (s.chip.page p.toNat).st = .hbm then gristForm (s.chip.storedGrist p.toNat (s.chip.accessRegion (4096 * p.toNat))) else ((s.chip.page p.toNat).grist, (s.chip.page p.toNat).sectors))) = true))
    ∧ (∃ (s : State) (i : Fin 32) (p : BitVec 34), s.chip.slotReady i p.toNat = true
      ∧ (s.chip.page p.toNat).grist = false
      ∧ (s.chip.page p.toNat).st ≠ .hbm
      ∧ s.chip.writeIdle p.toNat = true
      ∧ s.chip.roomAt (s.chip.page p.toNat).st (s.chip.page p.toNat).ch (s.chip.accessRegion (4096 * p.toNat)) = true
      ∧ s.chip.map.badRecs = [])
    ∧ (∃ (s : State) (p : BitVec 34), s.chip.writeIdle p.toNat = false)
    ∧ (∃ (s : State) (i : Fin 32) (m : Slot) (obs : List (Fin 64 × Obs)) (b : Nat) (u : Chip) (now : Slot), Tab.find s.chip.lauter.slots i = some m
      ∧ m.stage = .copying
      ∧ m.paused = false
      ∧ s.chip.moveTime = true
      ∧ s.chip.endPass m obs = ({ m with bad := b }, u)
      ∧ Tab.find u.lauter.slots i = some now
      ∧ now.paused = false
      ∧ m.repack = false
      ∧ m.changed ≤ s.chip.cfg Obj.lauterSwingMaxLines)
    ∧ (∃ (s : State) (i : Fin 32) (m : Slot) (obs : List (Fin 64 × Obs)) (b : Nat) (u : Chip) (now : Slot), Tab.find s.chip.lauter.slots i = some m
      ∧ m.stage = .copying
      ∧ m.paused = false
      ∧ s.chip.moveTime = true
      ∧ s.chip.endPass m obs = ({ m with bad := b }, u)
      ∧ Tab.find u.lauter.slots i = some now
      ∧ now.paused = false
      ∧ m.repack = false
      ∧ s.chip.cfg Obj.lauterSwingMaxLines < m.changed
      ∧ m.passes < s.chip.cfg Obj.lauterRecopyPasses)
    ∧ (∃ (s : State) (i : Fin 32) (m : Slot) (obs : List (Fin 64 × Obs)) (b : Nat) (u : Chip) (now : Slot), Tab.find s.chip.lauter.slots i = some m
      ∧ m.stage = .copying
      ∧ m.paused = false
      ∧ s.chip.moveTime = true
      ∧ s.chip.endPass m obs = ({ m with bad := b }, u)
      ∧ Tab.find u.lauter.slots i = some now
      ∧ now.paused = false
      ∧ m.repack = false
      ∧ s.chip.cfg Obj.lauterSwingMaxLines < m.changed
      ∧ s.chip.cfg Obj.lauterRecopyPasses ≤ m.passes)
    ∧ (∃ (s : State) (i : Fin 32) (m : Slot) (obs : List (Fin 64 × Obs)) (b : Nat) (u : Chip) (now : Slot), Tab.find s.chip.lauter.slots i = some m
      ∧ m.stage = .copying
      ∧ m.paused = false
      ∧ s.chip.moveTime = true
      ∧ s.chip.endPass m obs = ({ m with bad := b }, u)
      ∧ Tab.find u.lauter.slots i = some now
      ∧ now.paused = false
      ∧ m.repack = true
      ∧ m.mask = 0)
    ∧ (∃ (s : State) (i : Fin 32) (m : Slot) (obs : List (Fin 64 × Obs)) (b : Nat) (u : Chip) (now : Slot), Tab.find s.chip.lauter.slots i = some m
      ∧ m.stage = .copying
      ∧ m.paused = false
      ∧ s.chip.moveTime = true
      ∧ s.chip.endPass m obs = ({ m with bad := b }, u)
      ∧ Tab.find u.lauter.slots i = some now
      ∧ now.paused = false
      ∧ m.repack = true
      ∧ m.mask ≠ 0)
    ∧ (∃ (s : State) (i : Fin 32) (m : Slot) (obs : List (Fin 64 × Obs)) (b : Nat) (v u : Chip) (now : Slot), Tab.find s.chip.lauter.slots i = some m
      ∧ m.stage = .holding
      ∧ m.paused = false
      ∧ s.chip.inBurst = false
      ∧ s.chip.journalRoom 1 = true
      ∧ s.chip.useOwn m.page = (true, v)
      ∧ v.endPass m obs = ({ m with bad := b }, u)
      ∧ Tab.find u.lauter.slots i = some now
      ∧ now.paused = false
      ∧ u.outgrown { m with bad := b } = false)
    ∧ (∃ (s : State) (i : Fin 32) (m : Slot), Tab.find s.chip.lauter.slots i = some m
      ∧ m.stage = .swung) :=
  ⟨⟨wWarm, 3, 0, 1, 0, 0, by decide +kernel⟩,
    ⟨wIdlePage, 3, 0, by decide +kernel⟩,
    ⟨wWarm, 0, by decide +kernel⟩,
    ⟨wSlot0, 3, wSlot0Rec, [], 0, (wSlot0).chip, wSlot0Rec, by decide +kernel⟩,
    ⟨(wSlotW 0), 3, (wSlotWRec 0), [], 0, ((wSlotW 0)).chip, (wSlotWRec 0), by decide +kernel⟩,
    ⟨(wSlotW 16), 3, (wSlotWRec 16), [], 0, ((wSlotW 16)).chip, (wSlotWRec 16), by decide +kernel⟩,
    ⟨(wSlotRep 0), 3, (wSlotRepRec 0), [], 0, ((wSlotRep 0)).chip, (wSlotRepRec 0), by decide +kernel⟩,
    ⟨(wSlotRep 4), 3, (wSlotRepRec 4), [], 0, ((wSlotRep 4)).chip, (wSlotRepRec 4), by decide +kernel⟩,
    ⟨wHold, 3, wHoldRec, [], 0, (wHold.chip.useOwn 0).2, (wHold.chip.useOwn 0).2, wHoldRec, by decide +kernel⟩,
    ⟨wSlot .swung, 3, wSlotRec .swung, by decide +kernel⟩⟩

/-- The hypotheses of HeatJournalAndMapWork are met. -/
theorem test_meets_HeatJournalAndMapWork :
    (∃ (s : State), s.chip.inBurst = false
      ∧ s.chip.workMode = true
      ∧ Tab.wf {} s.chip.map.pages = true
      ∧ s.chip.journalRoom 1 = true)
    ∧ (∃ (s : State) (k : Fin 4), k ≠ 0
      ∧ 100 * s.chip.tierFree (tierOfCode k) < s.chip.tierCap (tierOfCode k) * (1 * s.chip.cfg Obj.lauterFreeLowPct))
    ∧ (∃ (s : State) (w : Wait), s.chip.journalRoom 1 = true
      ∧ s.chip.waits = [w]
      ∧ w.why = .journal)
    ∧ (∃ (s : State), s.chip.journalRoom 1 = false
      ∧ s.chip.journalFill.journalRoom 1 = false)
    ∧ (∃ (s : State), s.chip.inBurst = false
      ∧ s.chip.zoneOnline ≠ []
      ∧ s.chip.lauter.journal ≠ [])
    ∧ (∃ (s : State) (n : Nat) (e : JEntry), s.chip.inBurst = false
      ∧ s.chip.zoneOnline.length = 2
      ∧ (s.chip.newestZone.ring ++ s.chip.lauter.journal.take n).getLast? = some e)
    ∧ (∃ (s : State) (bad : ZoneBad), s.chip.mode.current = .training
      ∧ s.chip.lauter.rebuilt = false
      ∧ (s.chip.readBase bad).2 = [])
    ∧ (∃ (s : State), (s.chip.mode.current ≠ .training ∨ s.chip.lauter.rebuilt = true))
    ∧ (∃ (s : State) (src : Src) (r : Fin 8) (v : BitVec 8), Accepts s.chip src (0x6820 + ↑r) 4 1
      ∧ v.toNat ≤ 1
      ∧ s.chip.tablesFit r = true
      ∧ (s.chip.sbAppend 1 (paramKey (objAt Obj.policyMapResident r)) (bytesLE 1 (v.toNat))).1 = true)
    ∧ (∃ (s : State) (r : Fin 8), s.chip.inBurst = false
      ∧ s.chip.cfgAt Obj.policyMapResident r = 1
      ∧ s.chip.tablesFit r = true)
    ∧ (∃ (s : State) (r : Fin 8), s.chip.inBurst = false
      ∧ s.chip.cfgAt Obj.policyMapResident r = 0
      ∧ bitOf s.chip.map.resident r = true)
    ∧ (∃ (s : State) (r : Fin 8), s.chip.cfgAt Obj.policyMapResident r = 0) :=
  ⟨⟨wWarm, by decide +kernel⟩,
    ⟨wTierLow, 2, by decide +kernel⟩,
    ⟨wWaiting .journal, wWait .journal, by decide +kernel⟩,
    ⟨wJournalFull, by decide +kernel⟩,
    ⟨wJournal, by decide +kernel⟩,
    ⟨wJournal, 1, ⟨5, 1, 0, 0, 0⟩, by decide +kernel⟩,
    ⟨wTraining, {}, by decide +kernel⟩,
    ⟨wCalm, by decide +kernel⟩,
    ⟨wSvc, .manager, 2, 1, by decide +kernel⟩,
    ⟨wResident, 2, by decide +kernel⟩,
    ⟨wResident2, 2, by decide +kernel⟩,
    ⟨wResident2, 2, by decide +kernel⟩⟩

/-- The hypotheses of ChannelsChangeStateAndUnitsRetire are met. -/
theorem test_meets_ChannelsChangeStateAndUnitsRetire :
    (∃ (s : State) (src : Src) (n : Fin 16), Accepts s.chip src (0x6840 + ↑n) 2 1
      ∧ s.chip.chanState n = .offline
      ∧ s.chip.pairSecond n = false
      ∧ s.chip.domain (chanDomain n) = .on
      ∧ s.chip.chanUsable n = true)
    ∧ (∃ (s : State) (src : Src) (n : Fin 16), Accepts s.chip src (0x6840 + ↑n) 2 1
      ∧ s.chip.chanState n = .offline
      ∧ s.chip.pairSecond n = false
      ∧ s.chip.domain (chanDomain n) = .on
      ∧ s.chip.chanUsable n = false)
    ∧ (∃ (s : State) (src : Src) (n : Fin 16), Accepts s.chip src (0x6840 + ↑n) 2 1
      ∧ s.chip.chanState n = .online)
    ∧ (∃ (s : State) (src : Src) (n : Fin 16), Accepts s.chip src (0x6840 + ↑n) 2 1
      ∧ s.chip.chanState n = .evacuating)
    ∧ (∃ (s : State) (src : Src) (n : Fin 16), Accepts s.chip src (0x6840 + ↑n) 2 1
      ∧ (s.chip.chanState n = .evacuated ∨ s.chip.chanState n = .offline)
      ∧ s.chip.pairSecond n = false)
    ∧ (∃ (s : State) (n : Fin 16), s.chip.chanState n = .evacuating
      ∧ s.chip.pagesOn (if n.val < 8 then .ddr else .nvm) (n.val % 8) = []
      ∧ (8 ≤ n.val ∨ s.chip.stopped n = false)
      ∧ s.chip.lauter.slots.all (fun e => decide (¬ (e.2.src.st = (if n.val < 8 then PgState.ddr else .nvm) ∧ e.2.src.ch = n.val % 8))) = true)
    ∧ (∃ (s : State) (src : Src) (v : BitVec 64), Accepts s.chip src (0x6810) 0x10 8
      ∧ retireOk v.toNat = true
      ∧ (s.chip.lauter.retireStatus = 0 ∨ s.chip.lauter.retireStatus = 2))
    ∧ (∃ (s : State) (src : Src) (v : BitVec 64), Accepts s.chip src 0x6810 0x10 8
      ∧ retireOk v.toNat = true
      ∧ (s.chip.lauter.retireStatus = 1 ∨ s.chip.lauter.retireStatus = 3))
    ∧ (∃ (s : State), (s.chip.lauter.retireStatus = 1 ∨ s.chip.lauter.retireStatus = 3)
      ∧ s.chip.map.pages.any (fun e => s.chip.inUnit s.chip.lauter.retireUnit (s.chip.srcRec e.1)) = false)
    ∧ (∃ (s : State), s.chip.lauter.retireStatus = 1
      ∧ s.chip.map.pages.any (fun e => s.chip.inUnit s.chip.lauter.retireUnit (s.chip.srcRec e.1)) = true) :=
  ⟨⟨wChanOff, .manager, 0, by decide +kernel⟩,
    ⟨wChanUnt, .manager, 0, by decide +kernel⟩,
    ⟨wChanOn, .manager, 0, by decide +kernel⟩,
    ⟨wChanEv, .manager, 0, by decide +kernel⟩,
    ⟨wChanOff, .manager, 0, by decide +kernel⟩,
    ⟨wChanEv, 0, by decide +kernel⟩,
    ⟨wSvc, .manager, 0x1102, by decide +kernel⟩,
    ⟨wRetiring, .manager, 0x1102, by decide +kernel⟩,
    ⟨wRetiring, by decide +kernel⟩,
    ⟨wRetirePage, by decide +kernel⟩⟩

/-- The hypotheses of ExtentsAreOfferedReleasedAndFreed are met. -/
theorem test_meets_ExtentsAreOfferedReleasedAndFreed :
    (∃ (s : State) (src : Src) (region : Fin 8) (cask : Fin 1024) (ext : Ext), Accepts s.chip src (0x6830) 1 32
      ∧ ext.len.toNat ≠ 0
      ∧ ext.base.toNat % (s.chip.cfgAt Obj.dcBlockMib region * mib) = 0
      ∧ ext.len.toNat % (s.chip.cfgAt Obj.dcBlockMib region * mib) = 0
      ∧ s.chip.cfgAt Obj.dcBase region ≤ ext.base.toNat
      ∧ ext.base.toNat + ext.len.toNat ≤ s.chip.cfgAt Obj.dcBase region + s.chip.cfgAt Obj.dcLength region
      ∧ (s.chip.cask cask).state ≠ .free
      ∧ (s.chip.caskDomain cask = none ∨ s.chip.sharable region = true)
      ∧ s.chip.map.extents.any (fun e => e.blocks.any (fun k => !e.freed.contains (k - e.base / 2097152) && overlaps (2097152 * k) 2097152 ext.base.toNat ext.len.toNat)) = false)
    ∧ (∃ (s : State) (src : Src) (region : Fin 8) (cask : Fin 1024) (ext : Ext), Accepts s.chip src 0x6830 1 32
      ∧ ext.len.toNat ≠ 0
      ∧ ext.base.toNat % (s.chip.cfgAt Obj.dcBlockMib region * mib) = 0
      ∧ ext.len.toNat % (s.chip.cfgAt Obj.dcBlockMib region * mib) = 0
      ∧ s.chip.cfgAt Obj.dcBase region ≤ ext.base.toNat
      ∧ ext.base.toNat + ext.len.toNat ≤ s.chip.cfgAt Obj.dcBase region + s.chip.cfgAt Obj.dcLength region
      ∧ (s.chip.cask cask).state ≠ .free
      ∧ (s.chip.caskDomain cask = none ∨ s.chip.sharable region = true)
      ∧ s.chip.map.extents.any (fun e => e.blocks.any (fun k => !e.freed.contains (k - e.base / 2097152) && overlaps (2097152 * k) 2097152 ext.base.toNat ext.len.toNat)) = true)
    ∧ (∃ (s : State) (src : Src) (region : Fin 8) (ext : Ext) (e : Extent), Accepts s.chip src (0x6830) 1 32
      ∧ s.chip.extentNamed region ext.base.toNat ext.len.toNat = some e
      ∧ e.st = .offered)
    ∧ (∃ (s : State) (src : Src) (region : Fin 8) (ext : Ext) (e : Extent), Accepts s.chip src 0x6830 1 32
      ∧ s.chip.extentNamed region ext.base.toNat ext.len.toNat = some e
      ∧ e.st ≠ .offered)
    ∧ (∃ (s : State) (src : Src) (region : Fin 8) (ext : Ext) (e : Extent), Accepts s.chip src (0x6830) 1 32
      ∧ s.chip.extentNamed region ext.base.toNat ext.len.toNat = some e
      ∧ e.st = .accepted)
    ∧ (∃ (s : State) (src : Src) (region : Fin 8) (ext : Ext) (e : Extent), Accepts s.chip src (0x6830) 1 32
      ∧ s.chip.extentNamed region ext.base.toNat ext.len.toNat = some e
      ∧ e.st = .accepted)
    ∧ (∃ (s : State) (src : Src) (region : Fin 8) (ext : Ext), Accepts s.chip src 0x6830 1 32
      ∧ s.chip.extentNamed region ext.base.toNat ext.len.toNat = none)
    ∧ (∃ (s : State) (blk : BitVec 25) (e : Extent), s.chip.extentOf (2097152 * blk.toNat) = some e
      ∧ e.st = .releasing
      ∧ s.chip.inBurst = false
      ∧ s.chip.waits.all (fun w => decide (blockNo w.acc.dla ≠ blk.toNat)) = true
      ∧ s.chip.mill.expanding.all (fun x => decide (x.1 / 512 ≠ blk.toNat)) = true
      ∧ e.freed.length + 1 ≠ e.len / 2097152)
    ∧ (∃ (s : State) (blk : BitVec 25) (e : Extent), s.chip.extentOf (2097152 * blk.toNat) = some e
      ∧ e.st = .releasing
      ∧ s.chip.inBurst = false
      ∧ s.chip.waits.all (fun w => decide (blockNo w.acc.dla ≠ blk.toNat)) = true
      ∧ s.chip.mill.expanding.all (fun x => decide (x.1 / 512 ≠ blk.toNat)) = true
      ∧ e.freed.length + 1 = e.len / 2097152) :=
  ⟨⟨wRegion, .manager, 0, 3, ⟨0, 268435456⟩, by decide +kernel⟩,
    ⟨wRegionHeld, .manager, 0, 3, ⟨0, 268435456⟩, by decide +kernel⟩,
    ⟨wOffered, .manager, 0, ⟨0, 2097152⟩, ⟨0, 2097152, 3, 0, 0, .offered, []⟩, by decide +kernel⟩,
    ⟨wMapped, .manager, 0, ⟨0, 2097152⟩, ⟨0, 2097152, 3, 0, 0, .accepted, []⟩, by decide +kernel⟩,
    ⟨wMapped, .manager, 0, ⟨0, 2097152⟩, ⟨0, 2097152, 3, 0, 0, .accepted, []⟩, by decide +kernel⟩,
    ⟨wMapped, .manager, 0, ⟨0, 2097152⟩, ⟨0, 2097152, 3, 0, 0, .accepted, []⟩, by decide +kernel⟩,
    ⟨wMapped, .manager, 1, ⟨0, 2097152⟩, by decide +kernel⟩,
    ⟨wReleasing 4194304, 0, ⟨0, 4194304, 3, 0, 0, .releasing, []⟩, by decide +kernel⟩,
    ⟨wReleasing 2097152, 0, ⟨0, 2097152, 3, 0, 0, .releasing, []⟩, by decide +kernel⟩⟩

/-- The hypotheses of CacheWorkPrefetchesAndScratchUnits are met. -/
theorem test_meets_CacheWorkPrefetchesAndScratchUnits :
    (∃ (s : State) (src : Src) (v : BitVec 8), Accepts s.chip src (0xB000) 6 1
      ∧ v = 1)
    ∧ (∃ (s : State) (dla : BitVec 46) (c : CLine), s.chip.workMode = true
      ∧ s.chip.inBurst = false
      ∧ s.chip.win.prologueOn = false
      ∧ Tab.find s.chip.cache.lines (lineNo dla.toNat) = some c
      ∧ c.dirty = true
      ∧ s.chip.cleanNext (lineNo dla.toNat) c = true
      ∧ s.chip.tierWait (64 * lineNo dla.toNat) = none
      ∧ KeysHold s.chip)
    ∧ (∃ (s : State) (src : Src) (u : BitVec 8), Accepts s.chip src (0xB000) 5 1
      ∧ u.toNat < s.chip.cache.ways)
    ∧ (∃ (s : State) (src : Src) (u : BitVec 8), Accepts s.chip src 0xB000 5 1
      ∧ s.chip.cache.ways ≤ u.toNat)
    ∧ (∃ (s : State) (src : Src) (n : BitVec 8), Accepts s.chip src (0xB000) 2 1
      ∧ n.toNat ≤ 8
      ∧ (changedWays s.chip.cache.ways n.toNat).all (fun w => decide (s.chip.domain (28 + w / 4) = .on)) = true
      ∧ (s.chip.sbAppend 1 (paramKey Obj.cacheScratchWays) (bytesLE 1 n.toNat)).1 = true)
    ∧ (∃ (s : State) (dla : BitVec 46) (w : Wait), s.chip.waits = [w]
      ∧ w.why = .way
      ∧ cacheSet (lineNo w.acc.dla) = cacheSet (lineNo dla.toNat))
    ∧ (∃ (s : State) (m : BitVec 8) (dla : BitVec 46) (t : Tracker), s.chip.workMode = true
      ∧ s.chip.cache.trackers.find? (fun t => decide (t.master = m.toNat ∧ t.page = lineNo dla.toNat / 64 ∧ t.last < lineNo dla.toNat ∧ lineNo dla.toNat ≤ t.last + s.chip.cfg Obj.cachePrefetchDepth) && t.started) = some t
      ∧ ((s.chip.cached dla.toNat).isSome || s.chip.cache.side.contains (lineNo dla.toNat) || s.chip.sharedLine (lineNo dla.toNat)) = false
      ∧ s.chip.cfgAt Obj.cacheRegionPrefetch (s.chip.accessRegion dla.toNat) = 1)
    ∧ (∃ (s : State) (m : BitVec 8) (dla : BitVec 46) (obs : Obs) (t : Tracker) (c : Nat), s.chip.workMode = true
      ∧ s.chip.cache.trackers.find? (fun t => decide (t.master = m.toNat ∧ t.page = lineNo dla.toNat / 64 ∧ t.last < lineNo dla.toNat ∧ lineNo dla.toNat ≤ t.last + s.chip.cfg Obj.cachePrefetchDepth) && t.started) = some t
      ∧ ((s.chip.cached dla.toNat).isSome || s.chip.cache.side.contains (lineNo dla.toNat) || s.chip.sharedLine (lineNo dla.toNat)) = false
      ∧ s.chip.cfgAt Obj.cacheRegionPrefetch (s.chip.accessRegion dla.toNat) = 1
      ∧ s.chip.verdict ⟨m.toNat, t.bind, .read, lineBase dla.toNat, fullMask, 0, false, true, 0, .none⟩ obs = .ok c
      ∧ (s.chip.srcRec (lineNo dla.toNat / 64)).resting = true
      ∧ (({ s.chip with cache := { s.chip.cache with prefIssued := s.chip.cache.prefIssued + 1 } } : Chip).tierRead (lineNo dla.toNat) obs true 0).1 = .good) :=
  ⟨⟨wDirty, .manager, 1, by decide +kernel⟩,
    ⟨wDirty, 64, { way := 0, dirty := true, age := 13 }, by decide +kernel⟩,
    ⟨wScratch, .manager, 1, by decide +kernel⟩,
    ⟨wScratch, .manager, 2, by decide +kernel⟩,
    ⟨wScratch, .manager, 3, by decide +kernel⟩,
    ⟨wWaiting .way, 0, wWait .way, by decide +kernel⟩,
    ⟨wStream, 0, 64, wTracker, by decide +kernel⟩,
    ⟨wStream, 0, 64, {}, wTracker, 3, by decide +kernel⟩⟩

/-- The hypotheses of WaitsForSpaceEndAndPagesExpand are met. -/
theorem test_meets_WaitsForSpaceEndAndPagesExpand :
    (∃ (s : State) (p : BitVec 34) (w : Wait), s.chip.waits = [w]
      ∧ w.onPage .space p.toNat = true)
    ∧ (∃ (s : State) (p : BitVec 34) (w : Wait), s.chip.waits = [w]
      ∧ w.onPage .space p.toNat = true)
    ∧ (∃ (s : State) (p : BitVec 34) (w : Wait), s.chip.waits = [w]
      ∧ w.onPage .mirror p.toNat = true)
    ∧ (∃ (s : State) (p : BitVec 34) (obs : List (Fin 64 × Obs)) (l : List Nat), Tab.find s.chip.mill.expanding p.toNat = some l
      ∧ ((s.chip.page p.toNat).st ≠ .ddr ∨ s.chip.ddrBlocked (s.chip.page p.toNat).ch = false)
      ∧ s.chip.tierRoom .ddr true = true
      ∧ s.chip.expandChans p.toNat ≠ []
      ∧ s.chip.journalRoom 1 = true
      ∧ s.chip.map.badRecs = []
      ∧ ((s.chip.page p.toNat).st ≠ .ddr ∨ ((s.chip.useOwn p.toNat).2.readLines p.toNat (2 ^ 64 - 1) true obs 3).2.ddrBlocked (s.chip.page p.toNat).ch = false)
      ∧ KeysHold ((s.chip.useOwn p.toNat).2.readLines p.toNat (2 ^ 64 - 1) true obs 3).2) :=
  ⟨⟨wWaiting .space, 0, wWait .space, by decide +kernel⟩,
    ⟨wWaiting .space, 0, wWait .space, by decide +kernel⟩,
    ⟨wWaiting .mirror, 0, wWait .mirror, by decide +kernel⟩,
    ⟨wExpanding, 0, [], [1], by decide +kernel⟩⟩

/-- The hypotheses of KeysLoadEraseAndRebuild are met. -/
theorem test_meets_KeysLoadEraseAndRebuild :
    (∃ (s : State) (src : Src) (c : Fin 1024), Accepts s.chip src (0x9000 + ↑c) 0x20 184
      ∧ (s.chip.cask c).state ≠ .free
      ∧ (s.chip.cask c).keyState = .empty)
    ∧ (∃ (s : State) (src : Src) (c : Fin 1024), Accepts s.chip src (0x9000 + ↑c) 0x20 184
      ∧ (s.chip.cask c).state ≠ .free
      ∧ (s.chip.cask c).keyState ≠ .empty)
    ∧ (∃ (s : State) (src : Src) (c : Fin 1024), Accepts s.chip src (0x9000 + ↑c) 0x23 1
      ∧ (s.chip.cask c).state = .quiesced
      ∧ ((s.chip.cask c).keyState = .loaded ∨ (s.chip.cask c).keyState = .fault))
    ∧ (∃ (s : State) (src : Src) (c : Fin 1024), Accepts s.chip src (0x9000 + ↑c) 0x23 1
      ∧ s.chip.mayZeroise c = false)
    ∧ (∃ (s : State) (c : Fin 1024), (s.chip.cask c).keyState = .erasing
      ∧ (s.chip.caskPages c).all (fun p => decide (s.chip.migOf p = none)) = true
      ∧ s.chip.permits .migration = true)
    ∧ (∃ (s : State) (src : Src) (v : BitVec 32), Accepts s.chip src (0xC000) 3 4
      ∧ v = 0xE2A5E000
      ∧ (((s.chip.casks.filter (fun e => decide (e.2.keyState = .loaded ∨ e.2.keyState = .fault))).map (·.1)).all s.chip.mayZeroise = true)
      ∧ (List.range 8).all (fun l => !s.chip.linkEnc l) = true)
    ∧ (∃ (s : State) (c : Fin 1024) (w : Wait) (ok sb : Bool), (s.chip.cask c).keyState = .loaded
      ∧ (ok || (sb && (s.chip.sbLive 3 c).isSome)) = true
      ∧ s.chip.waits = [w]
      ∧ s.chip.waitsKey c w = true)
    ∧ (∃ (s : State) (c : Fin 1024), (s.chip.cask c).keyState = .loaded
      ∧ s.chip.waits.all (fun w => !s.chip.waitsKey c w) = true)
    ∧ (∃ (s : State) (l : Fin 8) (slot : Fin 2), s.chip.slotLoaded l slot = true)
    ∧ (∃ (s : State) (l : Fin 8) (slot : Fin 2), s.chip.slotLoaded l slot = true)
    ∧ (∃ (s : State) (src : Src), Accepts s.chip src (0x7000) 2 32
      ∧ s.chip.mode.current = .configuring
      ∧ s.chip.husk.rootDone = false)
    ∧ (∃ (s : State) (src : Src), Accepts s.chip src (0x7000) 2 32
      ∧ s.chip.mode.current = .configuring
      ∧ s.chip.husk.rootDone = true)
    ∧ (∃ (s : State) (src : Src) (v : BitVec 32), Accepts s.chip src (0xC000) 2 4
      ∧ v = 0xDEB0C105
      ∧ s.chip.mode.current = .configuring)
    ∧ (∃ (s : State) (src : Src) (l : Fin 8) (slot : Fin 2), Accepts s.chip src (0x7020 + ↑l) (2 + ↑slot) 184
      ∧ s.chip.activeSlot l ≠ slot)
    ∧ (∃ (s : State) (src : Src) (l : Fin 8) (v : BitVec 8), Accepts s.chip src (0x7020 + ↑l) 5 1
      ∧ v = 1) :=
  ⟨⟨wCaskIn .active, .manager, 3, by decide +kernel⟩,
    ⟨wKeyed, .manager, 3, by decide +kernel⟩,
    ⟨wKeyedQ, .manager, 3, by decide +kernel⟩,
    ⟨wKeyed, .manager, 3, by decide +kernel⟩,
    ⟨wErasing, 3, by decide +kernel⟩,
    ⟨wKeyedQ, .manager, 0xE2A5E000, by decide +kernel⟩,
    ⟨wKeyWait, 3, wKeyWaiter, true, false, by decide +kernel⟩,
    ⟨wKeyed, 3, by decide +kernel⟩,
    ⟨wSlotIn, 2, 1, by decide +kernel⟩,
    ⟨wSlotIn, 2, 1, by decide +kernel⟩,
    ⟨wConf, .manager, by decide +kernel⟩,
    ⟨wRooted, .manager, by decide +kernel⟩,
    ⟨wConf, .manager, 0xDEB0C105, by decide +kernel⟩,
    ⟨wSvc, .manager, 2, 1, by decide +kernel⟩,
    ⟨wSvc, .manager, 2, 1, by decide +kernel⟩⟩

/-- The hypotheses of SeedbankKeepsItsRecords are met. -/
theorem test_meets_SeedbankKeepsItsRecords :
    (∃ (s : State) (kind : Fin 5) (key : BitVec 32) (payload : List Byte) (k : Nat), (kind = 1 ∨ kind = 3 ∨ (kind = 2 ∧ (key.toNat < 0x100 ∨ 0x1FF < key.toNat)))
      ∧ payload ≠ []
      ∧ payload.length ≤ 4096
      ∧ s.chip.sb.st ≠ 2
      ∧ s.chip.sb.protect ≠ 3
      ∧ s.chip.mode.current ≠ .persist
      ∧ s.chip.openSector = some k
      ∧ (s.chip.sec k).used + recSize payload.length ≤ 65536
      ∧ s.chip.sbNextSeq kind key.toNat ≤ 0xFFFFFFFF
      ∧ s.chip.sbLiveBytes + recSize payload.length ≤ 62 * 65504)
    ∧ (∃ (s : State) (kind : Fin 5) (payload : List Byte) (k : Nat), kind ≠ 0
      ∧ payload ≠ []
      ∧ payload.length ≤ 4096
      ∧ s.chip.sb.st ≠ 2
      ∧ s.chip.sb.protect ≠ 3
      ∧ s.chip.mode.current ≠ .persist
      ∧ s.chip.openSector = some k
      ∧ (s.chip.sec k).used + recSize payload.length ≤ 65536)
    ∧ (∃ (s : State) (payload : List Byte), payload ≠ []
      ∧ payload.length ≤ 4096
      ∧ s.chip.sb.protect = 3)
    ∧ (∃ (s : State) (k : Nat), s.chip.erasedSectors.length ≤ 4
      ∧ s.chip.sb.protect ≠ 3
      ∧ s.chip.sb.st ≠ 2
      ∧ s.chip.mode.current ≠ .update
      ∧ recordSectors.filter (fun k => decide ((s.chip.sec k).st = .full)) = [k])
    ∧ (∃ (s : State) (src : Src) (v : BitVec 8), Accepts s.chip src (0x3000) 3 1
      ∧ v.toNat ≤ 3
      ∧ (s.chip.sb.protect ≤ v.toNat ∨ s.chip.mode.current = .configuring ∨ s.chip.mode.current = .update)
      ∧ s.chip.sb.held = [])
    ∧ (∃ (s : State) (src : Src) (v : BitVec 8), Accepts s.chip src (0x3000) 3 1
      ∧ v.toNat < s.chip.sb.protect
      ∧ v.toNat ≤ 3
      ∧ s.chip.mode.current ≠ .configuring
      ∧ s.chip.mode.current ≠ .update)
    ∧ (∃ (s : State), s.chip.sb.held = []) :=
  ⟨⟨wStore, 3, 5, [1, 2], 64, by decide +kernel⟩,
    ⟨wStore, 4, [1, 2], 64, by decide +kernel⟩,
    ⟨wProtected, [1, 2], by decide +kernel⟩,
    ⟨wFull, 64, by decide +kernel⟩,
    ⟨wStore, .manager, 1, by decide +kernel⟩,
    ⟨wProtected, .manager, 1, by decide +kernel⟩,
    ⟨wStore, by decide +kernel⟩⟩

/-- The hypotheses of SpargePatrolsAndTheLogIsKept are met. -/
theorem test_meets_SpargePatrolsAndTheLogIsKept :
    (∃ (s : State) (dla : BitVec 46), s.chip.scrubTime = true
      ∧ s.chip.onFrozen (lineNo dla.toNat) = false)
    ∧ (∃ (s : State) (dla : BitVec 46) (k : PgState), s.chip.scrubTime = true
      ∧ s.chip.onFrozen (lineNo dla.toNat) = false
      ∧ (s.chip.srcRec (lineNo dla.toNat / 64)).st = k
      ∧ (k = .hbm ∨ k = .ddr)
      ∧ Tab.get 0 s.chip.integ.progress k.code + 1 < s.chip.patrolLines k.code
      ∧ s.chip.husk.hbmOff = [])
    ∧ (∃ (s : State) (dla : BitVec 46) (k : PgState), s.chip.scrubTime = true
      ∧ s.chip.onFrozen (lineNo dla.toNat) = false
      ∧ (s.chip.srcRec (lineNo dla.toNat / 64)).st = k
      ∧ (k = .hbm ∨ k = .ddr)
      ∧ s.chip.patrolLines k.code ≤ Tab.get 0 s.chip.integ.progress k.code + 1
      ∧ s.chip.husk.hbmOff = [])
    ∧ (∃ (k : Fin 4), k ≠ 0)
    ∧ (∃ (s : State), s.chip.inBurst = false
      ∧ s.chip.workMode = true)
    ∧ (∃ (s : State) (ch : Fin 8), s.chip.inBurst = false
      ∧ s.chip.workMode = true
      ∧ (s.chip.onlineChans .ddr).contains ch.val = true)
    ∧ (∃ (before n goal room : Nat), before + n ≤ room
      ∧ n ≤ goal)
    ∧ (∃ (s : State), Tab.wf 0 s.chip.integ.bankCnt = true
      ∧ Tab.wf 0 s.chip.integ.devCnt = true)
    ∧ (∃ (s : State), s.chip.inBurst = false
      ∧ s.chip.retPending ≠ 0) :=
  ⟨⟨wQuiet, 64, by decide +kernel⟩,
    ⟨wQuiet, 64, .hbm, by decide +kernel⟩,
    ⟨wQuietEnd, 64, .hbm, by decide +kernel⟩,
    ⟨2, by decide +kernel⟩,
    ⟨wSvc, by decide +kernel⟩,
    ⟨wChanOn, 0, by decide +kernel⟩,
    ⟨1, 2, 3, 4, by decide +kernel⟩,
    ⟨wSvc, by decide +kernel⟩,
    ⟨wLogged, by decide +kernel⟩⟩

/-- The hypotheses of DramRefreshesRetriesAndFreezes are met. -/
theorem test_meets_DramRefreshesRetriesAndFreezes :
    (∃ (s : State) (ch : Fin 8), s.chip.sameBankRefresh = false
      ∧ (s.chip.ddr ch).freeze = 0)
    ∧ (∃ (s : State) (ch : Fin 8), s.chip.sameBankRefresh = false
      ∧ (s.chip.ddr ch).freeze = 0)
    ∧ (∃ (temp : BitVec 8), temp.toInt ≤ 95)
    ∧ (∃ (temp : BitVec 8), temp.toInt ≤ 95)
    ∧ (∃ (temp : BitVec 8), 95 < temp.toInt)
    ∧ (∃ (temp : BitVec 8), 95 < temp.toInt)
    ∧ (∃ (s : State) (retries : Nat), retries ≤ (if s.chip.inBurst then 1 else s.chip.cfg Obj.ddrRetryLimit))
    ∧ (∃ (s : State) (ch : Fin 8), (s.chip.ddr ch).freeze ≠ 1)
    ∧ (∃ (s : State) (ch : Fin 8), s.chip.frozen ch = true)
    ∧ (∃ (s : State) (ch : Fin 8) (g q : Nat), (s.chip.ddr ch).freeze = 0
      ∧ s.chip.moveTime = true
      ∧ s.chip.partner ch = some q
      ∧ s.chip.ddrAway q = false
      ∧ (s.chip.ddr q).stale.contains g = false
      ∧ s.chip.ddrMoving ch = false) :=
  ⟨⟨wSvc, 2, by decide +kernel⟩,
    ⟨wSvc, 2, by decide +kernel⟩,
    ⟨40, by decide +kernel⟩,
    ⟨90, by decide +kernel⟩,
    ⟨96, by decide +kernel⟩,
    ⟨96, by decide +kernel⟩,
    ⟨wSvc, 1, by decide +kernel⟩,
    ⟨wSvc, 2, by decide +kernel⟩,
    ⟨wFrozen, 2, by decide +kernel⟩,
    ⟨wPair2, 2, 7, 3, by decide +kernel⟩⟩

/-- The hypotheses of Ddr5ChannelsAreReleasedOrLost are met. -/
theorem test_meets_Ddr5ChannelsAreReleasedOrLost :
    (∃ (s : State) (src : Src) (ch : Fin 8), Accepts s.chip src (0x5010 + ↑ch) 9 1
      ∧ s.chip.frozen ch = true)
    ∧ (∃ (s : State) (src : Src) (ch : Fin 8), Accepts s.chip src (0x5010 + ↑ch) 9 1
      ∧ s.chip.frozen ch = true)
    ∧ (∃ (s : State) (src : Src) (ch : Fin 8), Accepts s.chip src (0x5010 + ↑ch) 9 1
      ∧ s.chip.frozen ch = true)
    ∧ (∃ (s : State) (src : Src) (ch : Fin 8), Accepts s.chip src (0x5010 + ↑ch) 9 1
      ∧ s.chip.frozen ch = false)
    ∧ (∃ (s : State) (src : Src) (ch : Fin 8) (q : Nat), Accepts s.chip src (0x5010 + ↑ch) 9 1
      ∧ s.chip.frozen ch = true
      ∧ s.chip.partner ch = some q)
    ∧ (∃ (s : State) (src : Src) (ch : Fin 8), Accepts s.chip src (0x5010 + ↑ch) 9 1
      ∧ s.chip.frozen ch = true
      ∧ bitOf (s.chip.cfg Obj.ddrMirrorPairs) (ch.val / 2) = false
      ∧ s.chip.lauter.slots = [])
    ∧ (∃ (s : State) (src : Src) (v : BitVec 16), Accepts s.chip src (0x5000) 6 2
      ∧ bitsOf v.toNat 9 7 = 0
      ∧ (maskChans (v.toNat % 256)).all (fun n => !s.chip.frozen n && bitOf (s.chip.ddr n).fspOk (bitsOf v.toNat 8 1) && decide (s.chip.domain (chanDomain n) = .on)) = true)
    ∧ (∃ (s : State) (src : Src) (v : BitVec 32), Accepts s.chip src (0x5800) 2 4
      ∧ 64 ≤ v.toNat ∧ v.toNat ≤ 1024 ∧ v.toNat % 64 = 0
      ∧ s.chip.dram.reserveWas = none
      ∧ 4 * s.chip.cfg Obj.lauterJournalKib ≤ v.toNat * 1024
      ∧ s.chip.committedMib ≤ s.chip.cfg Obj.windowsAbsorbLimitMib
      ∧ s.chip.cfg Obj.windowsAbsorbLimitMib ≤ 16384 - v.toNat
      ∧ s.chip.mirrorBytes ≤ (16384 - v.toNat - s.chip.cfg Obj.windowsAbsorbLimitMib) * mib
      ∧ (s.chip.sbAppend 1 (paramKey Obj.hbmPersistReserveMib) (bytesLE 4 v.toNat)).1 = true) :=
  ⟨⟨wFrozen, .manager, 2, by decide +kernel⟩,
    ⟨wFrozen, .manager, 2, by decide +kernel⟩,
    ⟨wFrozen, .manager, 2, by decide +kernel⟩,
    ⟨wSvc, .manager, 2, by decide +kernel⟩,
    ⟨wPair2F, .manager, 2, 3, by decide +kernel⟩,
    ⟨wFrozen, .manager, 2, by decide +kernel⟩,
    ⟨wFsp, .manager, 4, by decide +kernel⟩,
    ⟨wStore, .manager, 128, by decide +kernel⟩⟩

/-- The hypotheses of TrainingHelpersRunAndReport are met. -/
theorem test_meets_TrainingHelpersRunAndReport :
    (∃ (s : State) (src : Src) (args : BitVec 248), Accepts s.chip src (0x5080) 1 32
      ∧ helperOk (1 + args.toNat * 256) = true
      ∧ ((s.chip.chanState (bitsOf (1 + args.toNat * 256) 8 3) = .offline ∧ s.chip.frozen (bitsOf (1 + args.toNat * 256) 8 3) = false) ∨ (s.chip.frozen (bitsOf (1 + args.toNat * 256) 8 3) = true ∧ s.chip.frozenHelper (1 + args.toNat * 256) = true))
      ∧ s.chip.dram.helper.status ≠ 1)
    ∧ (∃ (s : State) (src : Src) (args : BitVec 248), Accepts s.chip src (0x5080) 1 32
      ∧ helperOk (2 + args.toNat * 256) = true
      ∧ ((s.chip.chanState (bitsOf (2 + args.toNat * 256) 8 3) = .offline ∧ s.chip.frozen (bitsOf (2 + args.toNat * 256) 8 3) = false) ∨ (s.chip.frozen (bitsOf (2 + args.toNat * 256) 8 3) = true ∧ s.chip.frozenHelper (2 + args.toNat * 256) = true))
      ∧ s.chip.dram.helper.status ≠ 1)
    ∧ (∃ (s : State) (src : Src) (args : BitVec 248), Accepts s.chip src (0x5080) 1 32
      ∧ helperOk (3 + args.toNat * 256) = true
      ∧ ((s.chip.chanState (bitsOf (3 + args.toNat * 256) 8 3) = .offline ∧ s.chip.frozen (bitsOf (3 + args.toNat * 256) 8 3) = false) ∨ (s.chip.frozen (bitsOf (3 + args.toNat * 256) 8 3) = true ∧ s.chip.frozenHelper (3 + args.toNat * 256) = true))
      ∧ s.chip.dram.helper.status ≠ 1)
    ∧ (∃ (s : State) (src : Src) (args : BitVec 248), Accepts s.chip src (0x5080) 1 32
      ∧ helperOk (4 + args.toNat * 256) = true
      ∧ ((s.chip.chanState (bitsOf (4 + args.toNat * 256) 8 3) = .offline ∧ s.chip.frozen (bitsOf (4 + args.toNat * 256) 8 3) = false) ∨ (s.chip.frozen (bitsOf (4 + args.toNat * 256) 8 3) = true ∧ s.chip.frozenHelper (4 + args.toNat * 256) = true))
      ∧ s.chip.dram.helper.status ≠ 1)
    ∧ (∃ (s : State) (src : Src) (args : BitVec 248), Accepts s.chip src (0x5080) 1 32
      ∧ helperOk (5 + args.toNat * 256) = true
      ∧ ((s.chip.chanState (bitsOf (5 + args.toNat * 256) 8 3) = .offline ∧ s.chip.frozen (bitsOf (5 + args.toNat * 256) 8 3) = false) ∨ (s.chip.frozen (bitsOf (5 + args.toNat * 256) 8 3) = true ∧ s.chip.frozenHelper (5 + args.toNat * 256) = true))
      ∧ s.chip.dram.helper.status ≠ 1)
    ∧ (∃ (s : State) (src : Src) (args : BitVec 248), Accepts s.chip src (0x5080) 1 32
      ∧ helperOk (6 + args.toNat * 256) = true
      ∧ ((s.chip.chanState (bitsOf (6 + args.toNat * 256) 8 3) = .offline ∧ s.chip.frozen (bitsOf (6 + args.toNat * 256) 8 3) = false) ∨ (s.chip.frozen (bitsOf (6 + args.toNat * 256) 8 3) = true ∧ s.chip.frozenHelper (6 + args.toNat * 256) = true))
      ∧ s.chip.dram.helper.status ≠ 1)
    ∧ (∃ (s : State) (src : Src) (args : BitVec 248), Accepts s.chip src (0x5080) 1 32
      ∧ helperOk (6 + args.toNat * 256) = true
      ∧ s.chip.chanState (bitsOf (6 + args.toNat * 256) 8 3) = .offline
      ∧ s.chip.frozen (bitsOf (6 + args.toNat * 256) 8 3) = false
      ∧ s.chip.dram.helper.status = 1)
    ∧ (∃ (s : State) (op ch lane : Nat), s.chip.dram.helper.status = 1
      ∧ op = bitsOf s.chip.dram.helper.cmd 0 8
      ∧ ch = bitsOf s.chip.dram.helper.cmd 8 3
      ∧ lane = bitsOf s.chip.dram.helper.cmd 168 8) :=
  ⟨⟨wChanOff, .manager, 2 ^ 120, by decide +kernel⟩,
    ⟨wChanOff, .manager, 2 ^ 120, by decide +kernel⟩,
    ⟨wChanOff, .manager, 2 ^ 120 + 2 ^ 152 + 2 ^ 200, by decide +kernel⟩,
    ⟨wChanOff, .manager, 2 ^ 152, by decide +kernel⟩,
    ⟨wChanOff, .manager, 0, by decide +kernel⟩,
    ⟨wChanOff, .manager, 0, by decide +kernel⟩,
    ⟨wHelping, .manager, 0, by decide +kernel⟩,
    ⟨wHelping, 6, 0, 0, by decide +kernel⟩⟩

/-- The hypotheses of PagesAreWrittenOutOfPlace are met. -/
theorem test_meets_PagesAreWrittenOutOfPlace :
    (∃ (s : State) (prog : Fin 64) (page : BitVec 34) (why : PgWhy) (ch : Fin 8) (loc : BitVec 35) (obs : List (Fin 64 × Obs)) (u₀ u₁ u : Chip) (bad : Nat) (data : Tab Line) (form : Bool × Nat), Tab.find s.chip.kiln.progs prog = none
      ∧ s.chip.drainable page.toNat = true
      ∧ s.chip.moveTime = true
      ∧ s.chip.pruneOlds.writeReason page.toNat why = true
      ∧ s.chip.pruneOlds.writeChan (s.chip.page page.toNat) ch = true
      ∧ s.chip.progsOn ch < s.chip.cfg Obj.kilnMaxPrograms
      ∧ s.chip.pruneOlds.useOwn page.toNat = (true, u₀)
      ∧ u₀.mergeRead page.toNat why obs = (bad, u₁)
      ∧ u₁.captureLines page.toNat (u₁.toCapture page.toNat why) = (data, u)
      ∧ form = (if why = .verbatim then ((s.chip.page page.toNat).grist, (s.chip.page page.toNat).sectors) else gristForm ((u.mergedPage page.toNat bad data).storedGrist page.toNat (u.accessRegion (4096 * page.toNat))))
      ∧ u.placeOk ch loc.toNat (u.unitLines page.toNat form) = true
      ∧ u.leastBank ch loc.toNat (u.unitLines page.toNat form) = true)
    ∧ (∃ (s : State) (prog : Fin 64) (g : Prog), Tab.find s.chip.kiln.progs prog = some g
      ∧ g.suspended = false
      ∧ s.chip.inBurst = false
      ∧ s.chip.win.prologueOn = false
      ∧ s.chip.page g.page = g.old
      ∧ g.old.st ≠ .migrating
      ∧ s.chip.journalRoom 1 = true)
    ∧ (∃ (s : State) (prog : Fin 64) (g : Prog), Tab.find s.chip.kiln.progs prog = some g
      ∧ g.suspended = false
      ∧ s.chip.inBurst = false
      ∧ s.chip.win.prologueOn = false
      ∧ s.chip.page g.page ≠ g.old)
    ∧ (∃ (s : State) (prog : Fin 64) (g : Prog) (y : Chip), Tab.find s.chip.kiln.progs prog = some g
      ∧ g.suspended = false
      ∧ s.chip.inBurst = false
      ∧ s.chip.win.prologueOn = false
      ∧ y = ((s.chip.setBlk g.ch (g.loc / 32768) { s.chip.blk g.ch (g.loc / 32768) with suspect := true, opened := false, next := 0 }).setNvm g.ch { s.chip.nvm g.ch with programFails := (s.chip.nvm g.ch).programFails + 1 }).retEntry 8 3 g.ch 2 0 (nvmUnit g.ch 2 g.loc) g.page 0xFF 0)
    ∧ (∃ (s : State) (prog : Fin 64) (g : Prog), Tab.find s.chip.kiln.progs prog = some g
      ∧ g.suspended = false)
    ∧ (∃ (s : State) (prog : Fin 64) (g : Prog), Tab.find s.chip.kiln.progs prog = some g
      ∧ g.suspended = true
      ∧ g.pending = false
      ∧ s.chip.inBurst = false
      ∧ s.chip.win.prologueOn = false)
    ∧ (∃ (s : State) (prog : Fin 64) (loc : BitVec 35) (g : Prog), Tab.find s.chip.kiln.progs prog = some g
      ∧ g.suspended = true
      ∧ s.chip.moveTime = true
      ∧ s.chip.win.prologueOn = false
      ∧ s.chip.placeOk g.ch loc.toNat (s.chip.unitLines g.page (g.grist, g.sectors)) = true)
    ∧ (∃ (s : State) (prog : Fin 64) (g : Prog), Tab.find s.chip.kiln.progs prog = some g
      ∧ g.suspended = true
      ∧ (s.chip.moveTime = false ∨ s.chip.win.prologueOn = true)) :=
  ⟨⟨wKiln, 0, 0, .drain, 0, 65536, [], wPw0, wPw1, wPw2, 0, wPwData, wPwForm, by decide +kernel⟩,
    ⟨wProgs, 0, wProg, by decide +kernel⟩,
    ⟨wProgs2, 0, wProg, by decide +kernel⟩,
    ⟨wProgs, 0, wProg, wFailed, by decide +kernel⟩,
    ⟨wProgs, 0, wProg, by decide +kernel⟩,
    ⟨wProgsS, 0, wProgS, by decide +kernel⟩,
    ⟨wProgsS, 0, 65600, wProgS, by decide +kernel⟩,
    ⟨wProgsF, 0, wProgS, by decide +kernel⟩⟩

/-- The hypotheses of BlocksAreSweptRekilnedAndFormatted are met. -/
theorem test_meets_BlocksAreSweptRekilnedAndFormatted :
    (∃ (s : State) (dla : BitVec 46) (r : PageRec), s.chip.mediaTime = true
      ∧ lineNo dla.toNat ∈ s.chip.kiln.rescue
      ∧ s.chip.page (lineNo dla.toNat / 64) = r
      ∧ r.st = .nvm
      ∧ r.loc ≠ pendingLoc)
    ∧ (∃ (s : State) (dla : BitVec 46) (r : PageRec), s.chip.mediaTime = true
      ∧ lineNo dla.toNat ∈ s.chip.kiln.rescue
      ∧ s.chip.page (lineNo dla.toNat / 64) = r
      ∧ r.st = .nvm
      ∧ r.loc ≠ pendingLoc)
    ∧ (∃ (s : State) (ch : Fin 8) (block : BitVec 20) (best : Int), s.chip.mediaTime = true
      ∧ ch * 2 ^ 20 + block.toNat ∈ s.chip.kiln.witness
      ∧ -4 ≤ best
      ∧ best ≤ 4)
    ∧ (∃ (s : State) (ch : Fin 8) (block : BitVec 20) (age : Nat), s.chip.cfg Obj.kilnRekilnAgeH ≤ age
      ∧ s.chip.blockHolds ch block.toNat = true
      ∧ s.chip.inBurst = false
      ∧ (s.chip.inQuiet = true ∨ bitOf s.chip.win.forced 0 = true))
    ∧ (∃ (s : State) (ch : Fin 8) (block : BitVec 20) (age : Nat), s.chip.cfg Obj.kilnRetentionH ≤ age
      ∧ s.chip.blockHolds ch block.toNat = true)
    ∧ (∃ (s : State) (ch : Fin 8) (block : BitVec 20), (s.chip.blk ch block.toNat).opened = false
      ∧ s.chip.blockPages ch block.toNat ≠ []
      ∧ 100 * s.chip.blockLive ch block.toNat < s.chip.cfg Obj.kilnReclaimLivePct * 32760
      ∧ s.chip.inBurst = false
      ∧ (s.chip.inQuiet = true ∨ bitOf s.chip.win.forced 0 = true))
    ∧ (∃ (s : State) (ch : Fin 8) (block : BitVec 20) (openHours : Nat), (s.chip.blk ch block.toNat).opened = true
      ∧ (32760 < (s.chip.blk ch block.toNat).next + 72 ∨ s.chip.cfg Obj.kilnOpenBlockMaxH ≤ openHours))
    ∧ (∃ (s : State) (src : Src) (ch : Fin 8) (m : Nat), Accepts s.chip src (0x6040 + ↑ch) 4 1
      ∧ s.chip.chanState (8 + ch) = .offline
      ∧ s.chip.pagesOn .nvm ch = []
      ∧ s.chip.mediaSet = some m
      ∧ (s.chip.nvm ch).roots ≠ [])
    ∧ (∃ (s : State) (src : Src) (ch : Fin 8), Accepts s.chip src (0x6040 + ↑ch) 4 1
      ∧ ((s.chip.chanState (8 + ch) ≠ .offline ∧ s.chip.chanState (8 + ch) ≠ .absent) ∨ s.chip.pagesOn .nvm ch ≠ []))
    ∧ (∃ (s : State), s.chip.flushReady = true
      ∧ s.chip.mode.current ≠ .persist
      ∧ s.chip.nvmOnline ≠ 0)
    ∧ (∃ (s : State), s.chip.flushReady = true
      ∧ s.chip.mode.current = .persist
      ∧ s.chip.feedOk = true) :=
  ⟨⟨wRescue, 0, wKilnChip.page 0, by decide +kernel⟩,
    ⟨wRescue, 0, wKilnChip.page 0, by decide +kernel⟩,
    ⟨wSweep, 0, 3, -3, by decide +kernel⟩,
    ⟨wSweep, 0, 3, 20000, by decide +kernel⟩,
    ⟨wSweep, 0, 3, 20000, by decide +kernel⟩,
    ⟨wSweep, 0, 3, by decide +kernel⟩,
    ⟨wKiln, 0, 2, 100000, by decide +kernel⟩,
    ⟨wFormat, .manager, 0, 5, by decide +kernel⟩,
    ⟨wKiln, .manager, 0, by decide +kernel⟩,
    ⟨wFlush, by decide +kernel⟩,
    ⟨wFlushP, by decide +kernel⟩⟩

/-- The hypotheses of LinksTrainComeUpAndAreTakenDown are met. -/
theorem test_meets_LinksTrainComeUpAndAreTakenDown :
    (∃ (s : State) (l : Fin 8) (block : BitVec 128), crc8 120 block.toNat = bitsOf block.toNat 120 8
      ∧ bitsOf block.toNat 8 8 = l.val
      ∧ (s.chip.link l).st = .training
      ∧ ((s.chip.link l).step = .detect ∨ (s.chip.link l).step = .lock)
      ∧ bitsOf block.toNat 0 8 = 0x2D
      ∧ bitsOf block.toNat 16 8 < 4)
    ∧ (∃ (s : State) (l : Fin 8) (block : BitVec 128), crc8 120 block.toNat = bitsOf block.toNat 120 8
      ∧ bitsOf block.toNat 8 8 = l.val
      ∧ (s.chip.link l).st = .training
      ∧ (s.chip.link l).step = .lock
      ∧ bitsOf block.toNat 0 8 = 0x45)
    ∧ (∃ (s : State) (l : Fin 8) (block : BitVec 128), crc8 120 block.toNat = bitsOf block.toNat 120 8
      ∧ bitsOf block.toNat 8 8 = l.val
      ∧ (s.chip.link l).st = .training
      ∧ (s.chip.link l).step = .config
      ∧ bitsOf block.toNat 0 8 = 0x45
      ∧ (widest (s.chip.link l).lanes (bitsOf block.toNat 32 3) (s.chip.cfgAt Obj.linkMaxWidth l)) ≠ 0
      ∧ bitOf (bitsOf block.toNat 48 8) 0 = s.chip.linkEnc l
      ∧ (s.chip.linkEnc l = true → s.chip.slotLoaded l 0 = true))
    ∧ (∃ (s : State) (l : Fin 8) (block : BitVec 128), crc8 120 block.toNat = bitsOf block.toNat 120 8
      ∧ bitsOf block.toNat 8 8 = l.val
      ∧ (s.chip.link l).st = .training
      ∧ (s.chip.link l).step = .speed
      ∧ bitsOf block.toNat 0 8 = 0x45
      ∧ highestSpeed (s.chip.link l).peerSpeeds (s.chip.cfgAt Obj.linkMaxSpeed l) ≠ 0)
    ∧ (∃ (s : State) (l : Fin 8) (block : BitVec 128), crc8 120 block.toNat = bitsOf block.toNat 120 8
      ∧ bitsOf block.toNat 8 8 = l.val
      ∧ (s.chip.link l).st = .active
      ∧ (s.chip.link l).want = none
      ∧ bitsOf block.toNat 0 8 = 0x2D
      ∧ bitOf (bitsOf block.toNat 48 8) 2 = true)
    ∧ (∃ (l : Fin 8) (block : BitVec 128), (crc8 120 block.toNat ≠ bitsOf block.toNat 120 8 ∨ bitsOf block.toNat 8 8 ≠ l.val))
    ∧ (∃ (s : State) (l : Fin 8), (s.chip.link l).st = .training
      ∧ ¬ ((s.chip.link l).step = .config ∧ s.chip.linkEnc l = true)
      ∧ ¬ ((s.chip.link l).step = .lock ∧ (s.chip.link l).lanes ≠ 0)
      ∧ (s.chip.link l).tries < 2)
    ∧ (∃ (s : State) (l : Fin 8), (s.chip.link l).st = .training
      ∧ ¬ ((s.chip.link l).step = .config ∧ s.chip.linkEnc l = true)
      ∧ ¬ ((s.chip.link l).step = .lock ∧ (s.chip.link l).lanes ≠ 0)
      ∧ 2 ≤ (s.chip.link l).tries
      ∧ (s.chip.link l).want = none)
    ∧ (∃ (s : State) (l : Fin 8), (s.chip.link l).st = .down
      ∧ s.chip.cfgAt Obj.linkAutoRetrain l = 1
      ∧ s.chip.domain (linkDomain l) = .on)
    ∧ (∃ (s : State) (src : Src) (l : Fin 8), Accepts s.chip src (0x8010 + ↑l) 2 1
      ∧ s.chip.domain (linkDomain l) = .on
      ∧ ((s.chip.link l).st = .disabled ∨ (s.chip.link l).st = .down))
    ∧ (∃ (s : State) (src : Src) (l : Fin 8), Accepts s.chip src (0x8010 + ↑l) 2 1
      ∧ ((s.chip.link l).st = .training ∨ (s.chip.link l).st = .active ∨ (s.chip.link l).st = .changing)
      ∧ (s.chip.link l).want = none)
    ∧ (∃ (s : State) (l : Fin 8), ((s.chip.link l).st = .training ∨ (s.chip.link l).st = .active ∨ (s.chip.link l).st = .changing)
      ∧ (s.chip.link l).want = none)
    ∧ (∃ (s : State) (l : Fin 8), ((s.chip.link l).st = .training ∨ (s.chip.link l).st = .active ∨ (s.chip.link l).st = .changing)
      ∧ (s.chip.link l).want = none) :=
  ⟨⟨wLinkT .detect, 1, wTs 0x2D 1 2 0, by decide +kernel⟩,
    ⟨wLinkT .lock, 1, wTs 0x45 1 2 0, by decide +kernel⟩,
    ⟨wLinkT .config, 1, wTs 0x45 1 2 0, by decide +kernel⟩,
    ⟨wLinkT .speed, 1, wTs 0x45 1 2 0, by decide +kernel⟩,
    ⟨wLinkA, 1, wTs 0x2D 1 2 4, by decide +kernel⟩,
    ⟨1, 0, by decide +kernel⟩,
    ⟨wLinkT .detect, 1, by decide +kernel⟩,
    ⟨wLinkT3, 1, by decide +kernel⟩,
    ⟨wLinkD, 1, by decide +kernel⟩,
    ⟨wLinkD, .manager, 1, by decide +kernel⟩,
    ⟨wLinkA, .manager, 1, by decide +kernel⟩,
    ⟨wLinkA, 1, by decide +kernel⟩,
    ⟨wLinkA, 1, by decide +kernel⟩⟩

/-- The hypotheses of FlitsAreAcceptedReplayedAndCredited are met. -/
theorem test_meets_FlitsAreAcceptedReplayedAndCredited :
    (∃ (s : State) (l : Fin 8) (flit : BitVec 2048), (s.chip.link l).st = .active
      ∧ flitCrc flit = bitsOf flit.toNat 1984 64
      ∧ bitOf flit.toNat 12 = false
      ∧ bitsOf flit.toNat 0 12 = (s.chip.link l).e
      ∧ bitOf flit.toNat 13 = false
      ∧ s.chip.linkEnc l = false
      ∧ bitOf flit.toNat 28 = false
      ∧ (s.chip.link l).partialSlots = []
      ∧ bitOf flit.toNat 32 = true
      ∧ bitsOf (BitVec.ofNat 128 (flit.toNat >>> (64 + 128 * 0))).toNat 24 8 = 0
      ∧ (∀ i : Fin 15, 1 ≤ i.val → BitVec.ofNat 128 (flit.toNat >>> (64 + 128 * i.val)) = 0 ∧ bitOf flit.toNat (32 + i.val) = false)
      ∧ packetOk (s.chip.link l).vcs (s.chip.cohVc l) (packetOf [BitVec.ofNat 128 (flit.toNat >>> (64 + 128 * 0))]) = true)
    ∧ (∃ (s : State) (l : Fin 8) (flit : BitVec 2048), (s.chip.link l).st = .active
      ∧ flitCrc flit ≠ bitsOf flit.toNat 1984 64
      ∧ ((s.chip.link l).errs.filter (fun n => decide ((s.chip.link l).flits + 1 < n + s.chip.cfg Obj.linkDownWindowFlits))).length < s.chip.cfg Obj.linkDownThreshold
      ∧ ((s.chip.link l).crcs.filter (fun n => decide ((s.chip.link l).flits + 1 < n + s.chip.cfg Obj.linkDownWindowFlits))).length + 1 < s.chip.cfg Obj.linkRetrainThreshold)
    ∧ (∃ (s : State) (l : Fin 8) (flit : BitVec 2048), (s.chip.link l).st = .active
      ∧ flitCrc flit = bitsOf flit.toNat 1984 64
      ∧ bitOf flit.toNat 12 = false
      ∧ 0 < (bitsOf flit.toNat 0 12 + 4096 - (s.chip.link l).e) % 4096
      ∧ (bitsOf flit.toNat 0 12 + 4096 - (s.chip.link l).e) % 4096 < 2048
      ∧ bitOf flit.toNat 28 = false)
    ∧ (∃ (s : State) (l : Fin 8) (flit : BitVec 2048), (s.chip.link l).st = .active
      ∧ flitCrc flit = bitsOf flit.toNat 1984 64
      ∧ bitOf flit.toNat 12 = false
      ∧ 2048 ≤ (bitsOf flit.toNat 0 12 + 4096 - (s.chip.link l).e) % 4096
      ∧ bitOf flit.toNat 28 = false)
    ∧ (∃ (s : State) (l : Fin 8) (flit : BitVec 2048), (s.chip.link l).st = .active
      ∧ flitCrc flit = bitsOf flit.toNat 1984 64
      ∧ bitOf flit.toNat 12 = true
      ∧ bitOf flit.toNat 28 = false
      ∧ (∀ i : Nat, i < 15 → bitsOf (bitsOf flit.toNat (64 + 128 * i) 128) (8 * 0) 8 = 0))
    ∧ (∃ (s : State) (l : Fin 8) (flit : BitVec 2048), (s.chip.link l).st = .active
      ∧ (s.chip.link l).want = none
      ∧ flitCrc flit = bitsOf flit.toNat 1984 64
      ∧ bitOf flit.toNat 12 = true
      ∧ bitOf flit.toNat 28 = false
      ∧ bitsOf (bitsOf flit.toNat (64 + 128 * 0) 128) (8 * 0) 8 = 0x0A
      ∧ (∀ i : Fin 15, 1 ≤ i.val → bitsOf (bitsOf flit.toNat (64 + 128 * i.val) 128) (8 * 0) 8 = 0))
    ∧ (∃ (s : State) (l : Fin 8) (n : BitVec 12) (f : TxFlit), (s.chip.link l).st = .active
      ∧ (s.chip.link l).tx = []
      ∧ (s.chip.link l).held.head? = some f
      ∧ ((n.toNat + 4095) % 4096 + 4096 - f.seq) % 4096 < (s.chip.link l).held.length
      ∧ ((s.chip.link l).held.drop (((n.toNat + 4095) % 4096 + 4096 - f.seq) % 4096 + 1)).head?.map (·.seq) = some n.toNat
      ∧ 1 < s.chip.cfg Obj.linkReplayMax)
    ∧ (∃ (s : State) (l : Fin 8), (s.chip.link l).st = .active
      ∧ (s.chip.link l).tx = [])
    ∧ (∃ (s : State) (l : Fin 8) (group : Bool), (s.chip.link l).st = .training
      ∧ (s.chip.link l).step = .init
      ∧ (s.chip.link l).tx = []
      ∧ bitOf ((s.chip.link l).initGot ||| 2 ^ group.toNat) 0 = true
      ∧ ((s.chip.link l).vcs ≤ 4 ∨ bitOf ((s.chip.link l).initGot ||| 2 ^ group.toNat) 1 = true))
    ∧ (∃ (s : State) (l : Fin 8) (limit : BitVec 16) (up : Nat), (s.chip.link l).st = .active
      ∧ up = (limit.toNat + 65536 - (s.chip.link l).readLimit % 65536) % 65536
      ∧ 0 < up
      ∧ up < 32768
      ∧ (s.chip.link l).readLimit + up - (s.chip.link l).readUsed ≤ 48
      ∧ (s.chip.link l).readLimit + up - (s.chip.link l).readUsed + s.chip.answersOwed l ≤ s.chip.readCeiling l)
    ∧ (∃ (s : State) (l : Fin 8) (limit : BitVec 16) (up : Nat), (s.chip.link l).st = .active
      ∧ up = (limit.toNat + 65536 - (s.chip.link l).wbLimit % 65536) % 65536
      ∧ 0 < up
      ∧ up < 32768
      ∧ (s.chip.link l).wbLimit + up - (s.chip.link l).wbUsed ≤ s.chip.cfgAt Obj.linkWbCredits l)
    ∧ (∃ (s : State) (l : Fin 8), (s.chip.link l).st = .active)
    ∧ (∃ (s : State) (l : Fin 8), (s.chip.link l).st = .active
      ∧ (s.chip.link l).held ≠ []
      ∧ (s.chip.link l).resent + 1 < s.chip.cfg Obj.linkReplayMax)
    ∧ (∃ (s : State) (l : Fin 8), (s.chip.link l).st = .active
      ∧ (s.chip.link l).held ≠ []
      ∧ (s.chip.link l).want = none) :=
  ⟨⟨wLinkA, 1, wFlit 1 4294967296, by decide +kernel⟩,
    ⟨wLinkA, 1, 0, by decide +kernel⟩,
    ⟨wLinkA, 1, wFlit 0 5, by decide +kernel⟩,
    ⟨wLinkA, 1, wFlit 0 4090, by decide +kernel⟩,
    ⟨wLinkA, 1, wFlit 0 4096, by decide +kernel⟩,
    ⟨wLinkA, 1, wFlit 10 4096, by decide +kernel⟩,
    ⟨wHeld, 1, 5, wTxFlit 4, by decide +kernel⟩,
    ⟨wLinkA, 1, by decide +kernel⟩,
    ⟨wLinkI, 1, true, by decide +kernel⟩,
    ⟨wLinkA, 1, 20, 20, by decide +kernel⟩,
    ⟨wLinkA, 1, 20, 20, by decide +kernel⟩,
    ⟨wLinkA, 1, by decide +kernel⟩,
    ⟨wHeld, 1, by decide +kernel⟩,
    ⟨wHeld, 1, by decide +kernel⟩⟩

/-- The hypotheses of LinkChangesFollowTheirSteps are met. -/
theorem test_meets_LinkChangesFollowTheirSteps :
    (∃ (s : State) (l : Fin 8) (width speed reason : BitVec 8), (s.chip.link l).st = .active
      ∧ (s.chip.link l).change = none
      ∧ reason = 1
      ∧ s.chip.changeOk l width.toNat speed.toNat = true)
    ∧ (∃ (s : State) (l : Fin 8) (width speed reason : BitVec 8), (s.chip.link l).st = .active
      ∧ (s.chip.link l).change = none
      ∧ reason = 2
      ∧ s.chip.changeOk l width.toNat speed.toNat = true)
    ∧ (∃ (s : State) (l : Fin 8) (width speed reason : BitVec 8), (s.chip.link l).st = .active
      ∧ (s.chip.link l).change = none
      ∧ (reason = 1 ∨ reason = 2)
      ∧ s.chip.changeOk l width.toNat speed.toNat = false)
    ∧ (∃ (s : State) (l : Fin 8) (reason : BitVec 8) (c : LinkChange), (s.chip.link l).st = .active
      ∧ (reason = 1 ∨ reason = 2)
      ∧ (s.chip.link l).change = some c
      ∧ c.leader = true
      ∧ c.acked = false)
    ∧ (∃ (s : State) (l : Fin 8) (id : BitVec 8) (c : LinkChange), (s.chip.link l).change = some c
      ∧ c.leader = true
      ∧ c.acked = false
      ∧ c.id = id.toNat)
    ∧ (∃ (s : State) (l : Fin 8), (s.chip.link l).st = .active
      ∧ ((s.chip.link l).errs.filter (fun n => decide ((s.chip.link l).flits < n + s.chip.cfg Obj.linkDownWindowFlits))).length < s.chip.cfg Obj.linkDownThreshold)
    ∧ (∃ (s : State) (l : Fin 8) (id : BitVec 8) (c : LinkChange), (s.chip.link l).change = some c
      ∧ c.leader = true
      ∧ c.acked = false
      ∧ c.id = id.toNat)
    ∧ (∃ (s : State) (l : Fin 8) (id : BitVec 8) (c : LinkChange), (s.chip.link l).change = some c
      ∧ c.acked = true
      ∧ c.retraining = false
      ∧ c.id = id.toNat)
    ∧ (∃ (s : State) (l : Fin 8) (c : LinkChange), (s.chip.link l).change = some c
      ∧ c.leader = true
      ∧ c.acked = false
      ∧ c.sends < 4)
    ∧ (∃ (s : State) (l : Fin 8) (c : LinkChange), (s.chip.link l).st = .active
      ∧ (s.chip.link l).change = some c
      ∧ c.leader = true
      ∧ c.acked = false
      ∧ 4 ≤ c.sends)
    ∧ (∃ (s : State) (l : Fin 8) (c : LinkChange), (s.chip.link l).change = some c
      ∧ c.acked = true
      ∧ (s.chip.link l).st = .changing
      ∧ (s.chip.link l).want = none)
    ∧ (∃ (s : State) (l : Fin 8) (width speed : BitVec 8) (c : LinkChange), (s.chip.link l).change = some c
      ∧ c.retraining = true
      ∧ (width = 1 ∨ width = 2 ∨ width = 4)
      ∧ width.toNat ≤ c.width
      ∧ speed.toNat = c.speed
      ∧ (s.chip.link l).held = []
      ∧ (s.chip.link l).tx = [])
    ∧ (∃ (s : State) (l : Fin 8) (width speed : BitVec 8) (c : LinkChange), (s.chip.link l).change = some c
      ∧ c.retraining = true
      ∧ (width = 1 ∨ width = 2 ∨ width = 4)
      ∧ width.toNat ≤ c.width
      ∧ speed.toNat = c.speed
      ∧ (s.chip.link l).held ≠ []
      ∧ (s.chip.link l).tx = []
      ∧ (s.chip.link l).resent + 1 < s.chip.cfg Obj.linkReplayMax)
    ∧ (∃ (s : State) (src : Src) (l : Fin 8), Accepts s.chip src (0x8010 + ↑l) 2 1
      ∧ (s.chip.link l).st = .active)
    ∧ (∃ (s : State) (src : Src) (l : Fin 8), Accepts s.chip src (0x8010 + ↑l) 2 1
      ∧ (s.chip.link l).st ≠ .active) :=
  ⟨⟨wLinkA, 1, 2, 16, 1, by decide +kernel⟩,
    ⟨wLinkA, 1, 2, 16, 2, by decide +kernel⟩,
    ⟨wLinkA, 1, 3, 16, 2, by decide +kernel⟩,
    ⟨wChg false false, 1, 2, wLc false false, by decide +kernel⟩,
    ⟨wChg false false, 1, 7, wLc false false, by decide +kernel⟩,
    ⟨wLinkA, 1, by decide +kernel⟩,
    ⟨wChg false false, 1, 7, wLc false false, by decide +kernel⟩,
    ⟨wChg true false, 1, 7, wLc true false, by decide +kernel⟩,
    ⟨wChg false false, 1, wLc false false, by decide +kernel⟩,
    ⟨wChg4, 1, wLc4, by decide +kernel⟩,
    ⟨wChgC true, 1, wLc true true, by decide +kernel⟩,
    ⟨wChgC true, 1, 2, 16, wLc true true, by decide +kernel⟩,
    ⟨wChgH, 1, 2, 16, wLc true true, by decide +kernel⟩,
    ⟨wLinkA, .manager, 1, by decide +kernel⟩,
    ⟨wLinkD, .manager, 1, by decide +kernel⟩⟩

/-- The hypotheses of SemundPacketsReadWriteAndOrder are met. -/
theorem test_meets_SemundPacketsReadWriteAndOrder :
    (∃ (s : State) (l : Fin 8) (p : Packet), s.chip.hasPacket l p = true
      ∧ s.chip.goodPacket l 1 p = true)
    ∧ (∃ (s : State) (l : Fin 8) (p : Packet), s.chip.hasPacket l p = true
      ∧ s.chip.goodPacket l 3 p = true
      ∧ p.data ≠ [])
    ∧ (∃ (s : State) (l : Fin 8) (p : Packet) (obs : Obs) (i : Instr), s.chip.hasPacket l p = true
      ∧ ((i = .rd l p obs ∧ s.chip.goodPacket l 1 p = false) ∨ (i = .wr l p obs ∧ s.chip.goodPacket l 3 p = false) ∨ (i = .wrc l p ∧ s.chip.goodPacket l 4 p = false) ∨ (i = .append l p obs ∧ s.chip.goodPacket l 5 p = false) ∨ (i = .fold l p ∧ s.chip.goodPacket l 6 p = false) ∨ (i = .fence l p ∧ s.chip.goodPacket l 7 p = false) ∨ (i = .evt l p ∧ s.chip.goodPacket l 10 p = false) ∨ (i = .tbe l p ∧ s.chip.goodPacket l 11 p = false))
      ∧ ((s.chip.link l).errs.filter (fun n => decide ((s.chip.link l).flits < n + s.chip.cfg Obj.linkDownWindowFlits))).length < s.chip.cfg Obj.linkDownThreshold)
    ∧ (∃ (s : State) (l : Fin 8) (p : Packet) (t : Nat × Nat × Nat), s.chip.hasPacket l p = true
      ∧ s.chip.goodPacket l 4 p = true
      ∧ (s.chip.link l).wrTags.find? (fun t => decide (t.1 = p.tag.toNat)) = some t
      ∧ p.op = 0)
    ∧ (∃ (s : State) (l : Fin 8) (p : Packet), s.chip.hasPacket l p = true
      ∧ s.chip.goodPacket l 7 p = true
      ∧ (s.chip.link l).fences = []
      ∧ (s.chip.link l).reqs = []
      ∧ s.chip.fold.open = []
      ∧ s.chip.fold.appends = []
      ∧ s.chip.waits = []
      ∧ (s.chip.link l).tx = []
      ∧ (s.chip.link l).limit = []
      ∧ (s.chip.link l).used = [])
    ∧ (∃ (s : State) (l : Fin 8) (p : Packet), s.chip.hasPacket l p = true
      ∧ s.chip.goodPacket l 7 p = true
      ∧ (s.chip.link l).fences = []
      ∧ (∃ r ∈ (s.chip.link l).reqs, r.read = false ∧ r.id < (s.chip.link l).nextReq))
    ∧ (∃ (s : State) (l : Fin 8) (p : Packet), s.chip.hasPacket l p = true
      ∧ s.chip.goodPacket l 10 p = true
      ∧ s.chip.cfgAt Obj.hopperEventLineInput p.op.toNat = 0x20 + l
      ∧ (Tab.find s.chip.hop.lastPulse p.op.toNat ≠ some (s.chip.cnt.clocks * 2 ^ 64 + s.chip.tb.tc) ∨ s.chip.tb.state = .unlocked))
    ∧ (∃ (s : State) (l : Fin 8) (p : Packet), s.chip.hasPacket l p = true
      ∧ s.chip.goodPacket l 10 p = true
      ∧ s.chip.cfgAt Obj.hopperEventLineInput p.op.toNat ≠ 0x20 + l)
    ∧ (∃ (s : State) (l : Fin 8) (p : Packet), s.chip.hasPacket l p = true
      ∧ s.chip.goodPacket l 11 p = true
      ∧ (s.chip.link l).tx = []
      ∧ (s.chip.link l).limit = []
      ∧ (s.chip.link l).used = []) :=
  ⟨⟨wLinkA, 1, wPk 1, by decide +kernel⟩,
    ⟨wLinkA, 1, wPkData 3 8, by decide +kernel⟩,
    ⟨wLinkA, 1, wPk 2, {}, .fence 1 (wPk 2), by decide +kernel⟩,
    ⟨wWrc, 1, wPk 4, (3, 2, 9), by decide +kernel⟩,
    ⟨wLinkA, 1, wPk 7, by decide +kernel⟩,
    ⟨wLinkW, 1, wPk 7, by decide +kernel⟩,
    ⟨wEvt, 1, wPkData 10 16, by decide +kernel⟩,
    ⟨wLinkA, 1, wPkData 10 16, by decide +kernel⟩,
    ⟨wLinkA, 1, wPkData 11 16, by decide +kernel⟩⟩

/-- The hypotheses of FoldsAndCaptureAppends are met. -/
theorem test_meets_FoldsAndCaptureAppends :
    (∃ (s : State) (l : Fin 8) (p : Packet) (k : Nat) (x : QState), s.chip.hasPacket l p = true
      ∧ s.chip.goodPacket l 5 p = true
      ∧ s.chip.slotOf p.pasid.toNat = some k
      ∧ (s.chip.cask k).state = .active
      ∧ s.chip.queue (bitsOf p.addr.toNat 0 20) = some x
      ∧ x.cached = true
      ∧ x.fault = false
      ∧ x.kind = 4
      ∧ x.pv = true
      ∧ x.pasid = p.pasid.toNat
      ∧ s.chip.may k (0x10 + l) 1 = true
      ∧ s.chip.fold.appends = []
      ∧ x.hasRoom p = true)
    ∧ (∃ (s : State) (l : Fin 8) (p : Packet) (k : Nat) (x : QState), s.chip.hasPacket l p = true
      ∧ s.chip.goodPacket l 5 p = true
      ∧ s.chip.slotOf p.pasid.toNat = some k
      ∧ (s.chip.cask k).state = .active
      ∧ s.chip.queue (bitsOf p.addr.toNat 0 20) = some x
      ∧ x.cached = true
      ∧ x.fault = false
      ∧ x.kind = 4
      ∧ x.pv = true
      ∧ x.pasid = p.pasid.toNat
      ∧ s.chip.may k (0x10 + l) 1 = true
      ∧ x.hasRoom p = false
      ∧ s.chip.cfgAt Obj.captureLinkFullPolicy l = 1)
    ∧ (∃ (s : State) (l : Fin 8) (p : Packet), s.chip.hasPacket l p = true
      ∧ s.chip.goodPacket l 6 p = true)
    ∧ (∃ (s : State) (h : Fin 4) (dla : BitVec 46) (mask : BitVec 64) (op t : Nat), s.chip.memLive h = true
      ∧ dlaWin (lineBase dla.toNat) = .foldAlias
      ∧ dlaWin dla.toNat = .foldAlias
      ∧ s.chip.aliasOf (lineBase dla.toNat) = some (op, t)
      ∧ op ≠ 15
      ∧ wholeFields op mask ≠ 0)
    ∧ (∃ (s : State) (h : Fin 4) (dla : BitVec 46) (op t : Nat), s.chip.memLive h = true
      ∧ dlaWin (lineBase dla.toNat) = .foldAlias
      ∧ dlaWin dla.toNat = .foldAlias
      ∧ s.chip.aliasOf (lineBase dla.toNat) = some (op, t)
      ∧ op ≠ 15
      ∧ 0 < s.chip.readCredit h)
    ∧ (∃ (s : State) (h : Fin 4) (dla : BitVec 46) (read : Bool) (t : Nat), s.chip.memLive h = true
      ∧ dlaWin (lineBase (fenceAlias dla.toNat)) = .foldAlias
      ∧ dlaWin dla.toNat = .foldAlias
      ∧ s.chip.aliasOf (lineBase (fenceAlias dla.toNat)) = some (15, t)
      ∧ (read = true → 0 < s.chip.readCredit h))
    ∧ (∃ (s : State) (h : Fin 4) (f : FoldFence), s.chip.fold.fences.find? (fun f => decide (f.h = ↑h)) = some f
      ∧ f.read = false
      ∧ s.chip.fold.open.all (fun q => decide (f.upto ≤ q.id)) = true
      ∧ (s.chip.head h).detect = false)
    ∧ (∃ (s : State) (n : Nat) (q : FoldReq), s.chip.fold.queue[n]? = some q
      ∧ (s.chip.fold.queue.take n ++ s.chip.fold.running).all (fun x => decide (lineNo x.dla ≠ lineNo q.dla)) = true)
    ∧ (∃ (s : State) (l : Fin 8) (a : Nat × Nat × Packet), s.chip.fold.appends.find? (fun a => decide (a.1 = ↑l)) = some a
      ∧ (s.chip.link l).fences = [])
    ∧ (∃ (s : State) (l : Fin 8) (id : Nat) (p : Packet) (x : QState), s.chip.fold.appends.find? (fun a => decide (a.1 = ↑l)) = some (↑l, id, p)
      ∧ s.chip.queue (bitsOf p.addr.toNat 0 20) = some x
      ∧ x.hasRoom p = true) :=
  ⟨⟨wCap 4096, 1, wPkApp, 3, wCapQ 4096, by decide +kernel⟩,
    ⟨wCap 32, 1, wPkApp3, 3, wCapQ 32, by decide +kernel⟩,
    ⟨wLinkA, 1, wPkFold, by decide +kernel⟩,
    ⟨wAlias, 0, 0x3E0300000000, 255, 3, 0, by decide +kernel⟩,
    ⟨wAlias, 0, 0x3E0300000000, 3, 0, by decide +kernel⟩,
    ⟨wAlias, 0, 0x3E0F00000000, true, 0, by decide +kernel⟩,
    ⟨wFenced, 0, wFence, by decide +kernel⟩,
    ⟨wFolds, 1, wFoldReq 64, by decide +kernel⟩,
    ⟨wAppWait, 1, (1, 0, wPkApp), by decide +kernel⟩,
    ⟨wAppWait, 1, 0, wPkApp, wCapQ 4096, by decide +kernel⟩⟩

/-- The hypotheses of HopperQueuesDoorbellsAndEventLines are met. -/
theorem test_meets_HopperQueuesDoorbellsAndEventLines :
    (∃ (s : State) (src : Src) (q : Fin 1048576) (x : QState), Accepts s.chip src (0x7800) 3 4
      ∧ s.chip.queue q = none
      ∧ s.chip.readEntry q = some x
      ∧ s.chip.statesCached < 8192)
    ∧ (∃ (s : State) (src : Src) (q : Fin 1048576), Accepts s.chip src (0x7800) 3 4
      ∧ (s.chip.queue q).isSome = true)
    ∧ (∃ (s : State) (src : Src) (q : Fin 1048576), Accepts s.chip src (0x7800) 3 4
      ∧ s.chip.queue q = none
      ∧ s.chip.readEntry q = none)
    ∧ (∃ (s : State) (src : Src) (q : Fin 1048576) (x : QState), Accepts s.chip src (0x7800) 3 4
      ∧ s.chip.queue q = some x
      ∧ x.cached = true
      ∧ x.fault = false
      ∧ s.chip.entryDla q % 64 = 0
      ∧ CachedWrite s.chip ⟨0x60, .byDir, .write, s.chip.entryDla q, fullMask, BitVec.ofNat 512 x.entry, false, true, 0, .none⟩
      ∧ s.chip.inProgress q true = false
      ∧ s.chip.inProgress q false = false
      ∧ s.chip.hop.chans.any (fun e => decide (e.2.queue = ↑q ∧ e.2.st ≠ .off)) = false)
    ∧ (∃ (s : State) (src : Src) (q : Fin 1048576) (x : QState), Accepts s.chip src (0x7800) 3 4
      ∧ s.chip.queue q = some x
      ∧ x.fault = false
      ∧ s.chip.hop.chans.any (fun e => decide (e.2.queue = ↑q ∧ e.2.st ≠ .off)) = true)
    ∧ (∃ (s : State) (src : Src) (q : Fin 1048576) (x : QState), Accepts s.chip src (0x7800) 3 4
      ∧ s.chip.queue q = some x
      ∧ x.cached = true
      ∧ x.fault = false
      ∧ s.chip.entryDla q % 64 = 0
      ∧ CachedWrite s.chip ⟨0x60, .byDir, .write, s.chip.entryDla q, fullMask, BitVec.ofNat 512 x.entry, false, true, 0, .none⟩)
    ∧ (∃ (s : State) (src : DbSrc) (q : Fin 1048576) (off : BitVec 5) (data : List Byte) (x : QState), s.chip.doorbellCheck (dbMaster src) (s.chip.dbBind src) q 1 = none
      ∧ s.chip.queue q = some x
      ∧ x.cached = true
      ∧ data.length = 8
      ∧ (off.toNat = 0 ∨ off.toNat = 8)
      ∧ x.fault = false
      ∧ s.chip.doorbellOwns q off.toNat x = true
      ∧ diff64 (natLE data) (if off.toNat = 0 then x.prod else x.cons) < 2 ^ 63
      ∧ (if off.toNat = 0 then { x with prod := natLE data } else { x with cons := natLE data }).fill ≤ x.capacity)
    ∧ (∃ (s : State) (src : DbSrc) (q : Fin 1048576) (data : List Byte) (x : QState), s.chip.doorbellCheck (dbMaster src) (s.chip.dbBind src) q 1 = none
      ∧ s.chip.queue q = some x
      ∧ x.cached = true
      ∧ data.length ≠ 8)
    ∧ (∃ (s : State) (src : DbSrc) (q : Fin 1048576) (k : Nat), s.chip.doorbellCheck (dbMaster src) (s.chip.dbBind src) q 1 = some k
      ∧ s.chip.rightDamaged k (dbMaster src) = false)
    ∧ (∃ (s : State) (q : Fin 1048576) (x : QState) (m : Nat) (b : Binding) (k off : Nat) (d : List Byte), s.chip.queue q = some x
      ∧ x.cached = true
      ∧ s.chip.queueActive q = false
      ∧ s.chip.hop.waiting = [.doorbell m b k off d .none])
    ∧ (∃ (s : State) (src : Src) (line : BitVec 8), Accepts s.chip src (0x7880) 1 1
      ∧ (Tab.find s.chip.hop.lastPulse line.toNat ≠ some (s.chip.cnt.clocks * 2 ^ 64 + s.chip.tb.tc) ∨ s.chip.tb.state = .unlocked))
    ∧ (∃ (s : State) (pin : Fin 8) (n : Nat), (List.range 256).find? (fun n => decide (s.chip.cfgAt Obj.hopperEventLineInput n = 0x10 + ↑pin)) = some n
      ∧ (Tab.find s.chip.hop.lastPulse n ≠ some (s.chip.cnt.clocks * 2 ^ 64 + s.chip.tb.tc) ∨ s.chip.tb.state = .unlocked)) :=
  ⟨⟨wTable, .manager, 0, wLoaded, by decide +kernel⟩,
    ⟨wQueued, .manager, 0, by decide +kernel⟩,
    ⟨wSvc, .manager, 0, by decide +kernel⟩,
    ⟨wQueued, .manager, 0, wLoaded, by decide +kernel⟩,
    ⟨wQOwned, .manager, 0, wLoaded, by decide +kernel⟩,
    ⟨wQueued, .manager, 0, wLoaded, by decide +kernel⟩,
    ⟨wQueued, .cxl 0, 0, 0, bytesLE 8 7, wLoaded, by decide +kernel⟩,
    ⟨wQueued, .cxl 0, 0, [], wLoaded, by decide +kernel⟩,
    ⟨wSvc, .link 1 7, 0, 0x40D, by decide +kernel⟩,
    ⟨wQWait, 0, wLoaded, 0, .byDir, 1, 0, [], by decide +kernel⟩,
    ⟨wSvc, .manager, 9, by decide +kernel⟩,
    ⟨wEvtPin, 2, 7, by decide +kernel⟩⟩

/-- The hypotheses of HopperChannelsRunTheirDescriptors are met. -/
theorem test_meets_HopperChannelsRunTheirDescriptors :
    (∃ (s : State) (src : Src) (ch : Fin 64) (x : QState), Accepts s.chip src (0x7840 + ↑ch) 5 1
      ∧ (s.chip.hchan ch).st = .off
      ∧ bitOf (s.chip.cfgAt Obj.hopperChanQueue ch) 31 = true
      ∧ s.chip.queue (bitsOf (s.chip.cfgAt Obj.hopperChanQueue ch) 0 20) = some x
      ∧ x.kind = 1
      ∧ x.fault = false
      ∧ s.chip.hop.chans.any (fun e => decide (e.1 ≠ ↑ch ∧ e.2.st ≠ .off ∧ e.2.queue = (bitsOf (s.chip.cfgAt Obj.hopperChanQueue ch) 0 20))) = false)
    ∧ (∃ (s : State) (src : Src) (ch : Fin 64) (x : QState), Accepts s.chip src (0x7840 + ↑ch) 5 1
      ∧ (s.chip.hchan ch).st ≠ .off
      ∧ s.chip.queue (bitsOf (s.chip.cfgAt Obj.hopperChanQueue ch) 0 20) = some x)
    ∧ (∃ (s : State) (src : Src) (ch : Fin 64) (x : QState), Accepts s.chip src (0x7840 + ↑ch) 5 1
      ∧ (s.chip.hchan ch).st = .off
      ∧ bitOf (s.chip.cfgAt Obj.hopperChanQueue ch) 31 = true
      ∧ s.chip.queue (bitsOf (s.chip.cfgAt Obj.hopperChanQueue ch) 0 20) = some x
      ∧ x.kind = 1
      ∧ x.fault = false
      ∧ s.chip.hop.chans.any (fun e => decide (e.1 ≠ ↑ch ∧ e.2.st ≠ .off ∧ e.2.queue = (bitsOf (s.chip.cfgAt Obj.hopperChanQueue ch) 0 20))) = true)
    ∧ (∃ (s : State) (src : Src) (ch : Fin 64), Accepts s.chip src (0x7840 + ↑ch) 5 1
      ∧ ((s.chip.hchan ch).st = .idle ∨ (s.chip.hchan ch).st = .run ∨ (s.chip.hchan ch).st = .stalled)
      ∧ (s.chip.hchan ch).bursts = [])
    ∧ (∃ (s : State) (src : Src) (ch : Fin 64), Accepts s.chip src (0x7840 + ↑ch) 5 1
      ∧ ((s.chip.hchan ch).st = .idle ∨ (s.chip.hchan ch).st = .run ∨ (s.chip.hchan ch).st = .stalled)
      ∧ (s.chip.hchan ch).bursts ≠ [])
    ∧ (∃ (s : State) (ch : Fin 64), (s.chip.hchan ch).stopping = true
      ∧ (s.chip.hchan ch).bursts = [])
    ∧ (∃ (s : State) (src : Src) (ch : Fin 64), Accepts s.chip src (0x7840 + ↑ch) 5 1
      ∧ (s.chip.hchan ch).stopped = true)
    ∧ (∃ (s : State) (src : Src) (ch : Fin 64), Accepts s.chip src (0x7840 + ↑ch) 5 1
      ∧ (s.chip.hchan ch).stopped = true)
    ∧ (∃ (s : State) (src : Src) (ch : Fin 64), Accepts s.chip src (0x7840 + ↑ch) 5 1
      ∧ ((s.chip.hchan ch).st = .off ∨ (s.chip.hchan ch).stopped = true))
    ∧ (∃ (s : State) (ch : Fin 64) (q : QState), s.chip.descQueue ch = some q
      ∧ q.cached = true
      ∧ q.fault = false
      ∧ s.chip.workMode = true
      ∧ ((s.chip.hchan ch).st = .idle ∨ (s.chip.hchan ch).st = .run)
      ∧ (s.chip.hchan ch).stopping = false
      ∧ (s.chip.hchan ch).descs.any (fun r => decide (r.index = (s.chip.hchan ch).issue)) = false
      ∧ 0 < diff64 q.prod (s.chip.hchan ch).issue
      ∧ (s.chip.hchan ch).fetchReady = true
      ∧ s.chip.caskServes ch = true
      ∧ (s.chip.hchan ch).bursts.any (fun b => b.fetch) = false)
    ∧ (∃ (s : State) (ch : Fin 64) (n : Nat) (obs : Obs) (r : DescRun), (s.chip.hchan ch).current = some r
      ∧ s.chip.chosen ch = true
      ∧ s.chip.burstOk r.d (s.chip.hchan ch).element n = true
      ∧ r.d.src.kind = 0
      ∧ r.d.dst.kind = 0
      ∧ (List.range n).all (fun i => (s.chip.elemStop r.d (s.chip.hchan ch).element ((s.chip.hchan ch).element + i)).isNone) = true
      ∧ (r.d.src.n = 0 ∨ (s.chip.hchan ch).element + n < r.d.src.n)
      ∧ obs.damage = .none)
    ∧ (∃ (s : State) (ch : Fin 64) (b : Nat) (x : Burst), (s.chip.hchan ch).bursts.find? (fun y => decide (y.id = b)) = some x
      ∧ x.wrote = true
      ∧ x.left = 0
      ∧ x.failed = 0
      ∧ x.fetch = false) :=
  ⟨⟨wHopOff, .manager, 4, wLoaded, by decide +kernel⟩,
    ⟨wHopOn, .manager, 4, wLoaded, by decide +kernel⟩,
    ⟨wHopOn5, .manager, 4, wLoaded, by decide +kernel⟩,
    ⟨wHopOn, .manager, 4, by decide +kernel⟩,
    ⟨wHopBurst, .manager, 4, by decide +kernel⟩,
    ⟨wHopStopping, 4, by decide +kernel⟩,
    ⟨wHopErr, .manager, 4, by decide +kernel⟩,
    ⟨wHopErr, .manager, 4, by decide +kernel⟩,
    ⟨wHopErr, .manager, 4, by decide +kernel⟩,
    ⟨wHopFetch, 4, wFetchQ, by decide +kernel⟩,
    ⟨wHopIssue, 4, 2, {}, wDescRun, by decide +kernel⟩,
    ⟨wHopDur, 4, 9, wDurBurst, by decide +kernel⟩⟩

/-- The hypotheses of PowerEntersInStepsAndWatchesItsFeeds are met. -/
theorem test_meets_PowerEntersInStepsAndWatchesItsFeeds :
    (∃ (s : State), s.chip.power.lost = false
      ∧ s.chip.power.st = .unseated
      ∧ s.chip.feedOk = true)
    ∧ (∃ (s : State) (a b : Bool), s.chip.power.lost = false
      ∧ s.chip.power.st = .seating
      ∧ (a && b) = false)
    ∧ (∃ (s : State), s.chip.power.st = .seating
      ∧ s.chip.power.seatRuns = true
      ∧ s.chip.seated = true
      ∧ s.chip.feedOk = true)
    ∧ (∃ (s : State) (rise current diode : Int), s.chip.power.st = .precheck
      ∧ s.chip.power.checksPassed = false
      ∧ -2000 ≤ current ∧ current ≤ 2000
      ∧ -40 ≤ diode ∧ diode ≤ 200
      ∧ rise < 500
      ∧ s.chip.seated = true
      ∧ s.chip.feedOk = true
      ∧ s.chip.power.cooldown = false
      ∧ ({ s.chip with power := { s.chip.power with current := current, diode := diode, diodeBad := false } } : Chip).coolEnough = true)
    ∧ (∃ (s : State) (rise current diode : Int), s.chip.power.st = .precheck
      ∧ s.chip.power.checksPassed = false
      ∧ -2000 ≤ current ∧ current ≤ 2000
      ∧ -40 ≤ diode ∧ diode ≤ 200
      ∧ rise < 500
      ∧ s.chip.seated = true
      ∧ s.chip.feedOk = true
      ∧ (s.chip.power.cooldown = true ∨ ({ s.chip with power := { s.chip.power with current := current, diode := diode, diodeBad := false } } : Chip).coolEnough = false))
    ∧ (∃ (s : State) (rise current diode : Int), s.chip.power.st = .precheck
      ∧ s.chip.power.checksPassed = false
      ∧ -2000 ≤ current ∧ current ≤ 2000
      ∧ -40 ≤ diode ∧ diode ≤ 200
      ∧ 500 ≤ rise)
    ∧ (∃ (s : State) (rise current diode : Int), s.chip.power.st = .precheck
      ∧ s.chip.power.checksPassed = false
      ∧ (current < -2000 ∨ 2000 < current)
      ∧ -40 ≤ diode ∧ diode ≤ 200
      ∧ rise < 500)
    ∧ (∃ (s : State), s.chip.power.lost = false
      ∧ s.chip.coolEnough = true
      ∧ s.chip.power.st = .precheck
      ∧ s.chip.power.checksPassed = true
      ∧ s.chip.seated = true
      ∧ s.chip.feedOk = true)
    ∧ (∃ (s : State), s.chip.power.lost = false
      ∧ s.chip.coolEnough = true
      ∧ s.chip.power.st = .tripped
      ∧ s.chip.power.noRetry = false
      ∧ s.chip.seated = true)
    ∧ (∃ (s : State) (vout vbus : Nat), s.chip.power.st = .ramp
      ∧ vbus ≤ vout + 300)
    ∧ (∃ (s : State) (vgs : Nat), s.chip.power.st = .enhance
      ∧ s.chip.sreg Obj.powerGateOnMv ≤ vgs)
    ∧ (∃ (s : State), s.chip.power.st.gate = true)
    ∧ (∃ (s : State), s.chip.power.lost = false
      ∧ s.chip.seated = false
      ∧ (s.chip.power.st = .seating ∨ s.chip.power.st = .precheck ∨ s.chip.power.st = .ramp ∨ s.chip.power.st = .enhance ∨ s.chip.power.st = .tripped))
    ∧ (∃ (s : State), s.chip.power.lost = false
      ∧ s.chip.seated = false
      ∧ s.chip.power.st = .on)
    ∧ (∃ (s : State), s.chip.power.st = .on)
    ∧ (∃ (s : State) (secs : Nat), s.chip.power.pg = true
      ∧ s.chip.sreg Obj.powerRetryClearS ≤ secs)
    ∧ (∃ (s : State) (f : Fin 2) (mv : Nat), s.chip.power.lost = false
      ∧ s.chip.feedInRange mv = false
      ∧ s.chip.feedValidBit f = true
      ∧ bitOf s.chip.power.status (1 - f) = true)
    ∧ (∃ (s : State) (mv : Nat), s.chip.power.lost = false
      ∧ s.chip.feedInRange mv = true
      ∧ s.chip.power.st = .on
      ∧ s.chip.power.away = false)
    ∧ (∃ (s : State) (feed vbus : Nat), s.chip.power.lost = false
      ∧ feed + 10 ≤ vbus)
    ∧ (∃ (s : State) (x : PwrSample), s.chip.power.lost = false
      ∧ s.chip.power.st = .unseated
      ∧ s.chip.power.away = false
      ∧ s.chip.feedInRange x.feedA = true
      ∧ s.chip.feedInRange x.feedB = true
      ∧ s.chip.sreg Obj.powerFetTempSource = 0
      ∧ -2000 ≤ x.current ∧ x.current ≤ 2000
      ∧ x.seatA = true
      ∧ x.seatB = true) :=
  ⟨⟨wPwr .unseated, by decide +kernel⟩,
    ⟨wPwr .seating, true, false, by decide +kernel⟩,
    ⟨wPwr .seating, by decide +kernel⟩,
    ⟨wPwr .precheck, 0, 0, 25, by decide +kernel⟩,
    ⟨wPwrHot .precheck, 0, 0, 25, by decide +kernel⟩,
    ⟨wPwr .precheck, 600, 0, 25, by decide +kernel⟩,
    ⟨wPwr .precheck, 0, 9000, 25, by decide +kernel⟩,
    ⟨wPwrC .precheck, by decide +kernel⟩,
    ⟨wPwr .tripped, by decide +kernel⟩,
    ⟨wPwr .ramp, 12000, 12000, by decide +kernel⟩,
    ⟨wPwr .enhance, 11000, by decide +kernel⟩,
    ⟨wPwr .on, by decide +kernel⟩,
    ⟨wPwrAway .ramp, by decide +kernel⟩,
    ⟨wPwrAway .on, by decide +kernel⟩,
    ⟨wPwr .on, by decide +kernel⟩,
    ⟨wPwrPg, 100000, by decide +kernel⟩,
    ⟨wPwrBoth, 1, 90000, by decide +kernel⟩,
    ⟨wPwr .on, 12000, by decide +kernel⟩,
    ⟨wPwr .on, 11000, 12000, by decide +kernel⟩,
    ⟨wPwr .unseated, ⟨12000, 12000, 0, 25, true, true⟩, by decide +kernel⟩⟩

/-- The hypotheses of PassFetTripsAreRecordedAndRetriedOrLatched are met. -/
theorem test_meets_PassFetTripsAreRecordedAndRetriedOrLatched :
    (∃ (s : State), s.chip.power.st = .ramp)
    ∧ (∃ (s : State), s.chip.power.st = .enhance)
    ∧ (∃ (s : State) (k : Fin 8), s.chip.power.st.gate = true
      ∧ (curvePoint (s.chip.sreg Obj.powerCurve) k).1 ≠ 0
      ∧ (curvePoint (s.chip.sreg Obj.powerCurve) k).2 ≤ Tab.get 0 s.chip.power.timers k)
    ∧ (∃ (s : State) (current : Int), s.chip.power.st.gate = true
      ∧ (s.chip.sreg Obj.powerInstantMa : Int) ≤ current)
    ∧ (∃ (s : State), s.chip.power.st.gate = true
      ∧ s.chip.overTemp = true)
    ∧ (∃ (s : State) (vout : Nat), s.chip.power.st = .on
      ∧ vout < s.chip.sreg Obj.powerBrownoutMv) :=
  ⟨⟨wPwr .ramp, by decide +kernel⟩,
    ⟨wPwr .enhance, by decide +kernel⟩,
    ⟨wPwrCurve, 0, by decide +kernel⟩,
    ⟨wPwr .on, 1000000, by decide +kernel⟩,
    ⟨wPwrBurn, by decide +kernel⟩,
    ⟨wPwr .on, 0, by decide +kernel⟩⟩

/-- The hypotheses of ModesChangeByCommandAndTraining are met. -/
theorem test_meets_ModesChangeByCommandAndTraining :
    (∃ (s : State) (src : Src), Accepts s.chip src (0x2800) 2 1
      ∧ s.chip.mode.current = .unaddressed
      ∧ s.chip.cfg Obj.modeAutoTrain ≠ 1)
    ∧ (∃ (s : State) (src : Src), Accepts s.chip src (0x2800) 2 1
      ∧ s.chip.mode.current = .unaddressed
      ∧ s.chip.cfg Obj.modeAutoTrain = 1
      ∧ (∀ h : Nat, h < 4 → bitOf (s.chip.cfg Obj.portsBifurcationA % 2 + s.chip.cfg Obj.portsBifurcationB % 2 * 2) (h / 2) = bitOf s.chip.bifur (h / 2) ∨ (s.chip.head h).state ≠ .active))
    ∧ (∃ (s : State) (src : Src), Accepts s.chip src (0x2800) 2 1
      ∧ s.chip.mode.current = .configuring
      ∧ (∀ h : Nat, h < 4 → bitOf (s.chip.cfg Obj.portsBifurcationA % 2 + s.chip.cfg Obj.portsBifurcationB % 2 * 2) (h / 2) = bitOf s.chip.bifur (h / 2) ∨ (s.chip.head h).state ≠ .active))
    ∧ (∃ (s : State) (src : Src), Accepts s.chip src (0x2800) 2 1
      ∧ s.chip.mode.current ≠ .configuring)
    ∧ (∃ (s : State), s.chip.mode.current = .training
      ∧ s.chip.links.all (fun e => decide (e.2.st ≠ .training)) = true)
    ∧ (∃ (s : State), s.chip.mode.current = .training)
    ∧ (∃ (s : State) (src : Src), Accepts s.chip src (0x2800) 2 1
      ∧ s.chip.mayDrain = true)
    ∧ (∃ (s : State) (src : Src), Accepts s.chip src (0x2800) 2 1
      ∧ s.chip.mayDrain = false)
    ∧ (∃ (s : State), s.chip.mode.current = .drain
      ∧ s.chip.mode.drainState = 1
      ∧ s.chip.quiet = true)
    ∧ (∃ (s : State), s.chip.mode.current = .drain
      ∧ s.chip.mode.drainState = 2
      ∧ s.chip.reserveClean = true
      ∧ s.chip.kiln.progs = []
      ∧ s.chip.nvmOnline ≠ 0)
    ∧ (∃ (s : State), s.chip.mode.current = .drain
      ∧ s.chip.mode.drainState = 3
      ∧ s.chip.kiln.absorbed = []
      ∧ s.chip.kiln.progs = [])
    ∧ (∃ (s : State) (src : Src), Accepts s.chip src (0x2800) 2 1
      ∧ s.chip.mode.current = .drain
      ∧ s.chip.seated = true
      ∧ s.chip.fault.safeHeld = false
      ∧ (s.chip.mode.previous = .service ∨ s.chip.mode.previous = .diagnosis))
    ∧ (∃ (s : State) (src : Src), Accepts s.chip src (0x2800) 2 1
      ∧ s.chip.mode.current = .drain
      ∧ s.chip.seated = true
      ∧ s.chip.fault.safeHeld = true)
    ∧ (∃ (s : State) (src : Src), Accepts s.chip src (0x2800) 2 1
      ∧ (s.chip.mode.current ≠ .drain ∨ s.chip.seated = false))
    ∧ (∃ (s : State) (src : Src), Accepts s.chip src (0x2800) 2 1
      ∧ (s.chip.mode.current = .configuring ∨ s.chip.mode.current = .service ∨ s.chip.mode.current = .diagnosis ∨ s.chip.mode.current = .safe))
    ∧ (∃ (s : State) (src : Src), Accepts s.chip src (0x2800) 2 1
      ∧ s.chip.mode.current = .update
      ∧ s.chip.mode.bootUpdate = false
      ∧ (s.chip.mode.updateFrom = .service ∨ s.chip.mode.updateFrom = .diagnosis ∨ s.chip.mode.updateFrom = .safe))
    ∧ (∃ (s : State) (src : Src), Accepts s.chip src (0x2800) 2 1
      ∧ (s.chip.mode.current ≠ .update ∨ s.chip.mode.bootUpdate = true)) :=
  ⟨⟨wUnaddr 0, .manager, by decide +kernel⟩,
    ⟨wUnaddr 1, .manager, by decide +kernel⟩,
    ⟨wConf, .manager, by decide +kernel⟩,
    ⟨wSvc, .manager, by decide +kernel⟩,
    ⟨wTraining, by decide +kernel⟩,
    ⟨wTraining, by decide +kernel⟩,
    ⟨wSvc, .manager, by decide +kernel⟩,
    ⟨wConf, .manager, by decide +kernel⟩,
    ⟨wDrain .on 1, by decide +kernel⟩,
    ⟨wDrainN 2, by decide +kernel⟩,
    ⟨wDrain .on 3, by decide +kernel⟩,
    ⟨wDrain .on 4, .manager, by decide +kernel⟩,
    ⟨wDrainSafe, .manager, by decide +kernel⟩,
    ⟨wSvc, .manager, by decide +kernel⟩,
    ⟨wSvc, .manager, by decide +kernel⟩,
    ⟨wUpdate, .manager, by decide +kernel⟩,
    ⟨wSvc, .manager, by decide +kernel⟩⟩

/-- The hypotheses of DomainsChangeByCommand are met. -/
theorem test_meets_DomainsChangeByCommand :
    (∃ (s : State) (src : Src) (n : Fin 31), Accepts s.chip src (0x2810 + ↑n) 2 1
      ∧ s.chip.noDomain n = false
      ∧ (s.chip.mode.current = .configuring ∨ s.chip.mode.current = .training)
      ∧ s.chip.domainBusy n = false
      ∧ s.chip.domain n ≠ .off
      ∧ 2 < n.val
      ∧ (s.chip.domain n = .on ∨ s.chip.domain n = .onHeld → s.chip.leaveOn n = 0))
    ∧ (∃ (s : State) (src : Src) (n : Fin 31), Accepts s.chip src (0x2810 + ↑n) 2 1
      ∧ s.chip.noDomain n = false
      ∧ (s.chip.mode.current = .configuring ∨ s.chip.mode.current = .training)
      ∧ s.chip.domainBusy n = false
      ∧ s.chip.domain n ≠ .retention
      ∧ 2 < n.val
      ∧ (s.chip.domain n = .on ∨ s.chip.domain n = .onHeld → s.chip.leaveOn n = 0))
    ∧ (∃ (s : State) (src : Src) (n : Fin 31), Accepts s.chip src (0x2810 + ↑n) 2 1
      ∧ s.chip.noDomain n = false
      ∧ (s.chip.mode.current = .configuring ∨ s.chip.mode.current = .training)
      ∧ s.chip.domainBusy n = false
      ∧ s.chip.domain n ≠ .on ∧ s.chip.domain n ≠ .onHeld
      ∧ 2 < n.val)
    ∧ (∃ (s : State) (src : Src) (n : Fin 31), Accepts s.chip src (0x2810 + ↑n) 2 1
      ∧ s.chip.noDomain n = false
      ∧ (s.chip.mode.current = .service ∨ s.chip.mode.current = .diagnosis)
      ∧ s.chip.domainBusy n = false
      ∧ s.chip.domain n ≠ .off
      ∧ 2 < n.val
      ∧ (s.chip.domain n = .on ∨ s.chip.domain n = .onHeld → s.chip.leaveOn n = 0))
    ∧ (∃ (s : State) (src : Src) (n : Fin 31), Accepts s.chip src (0x2810 + ↑n) 2 1
      ∧ s.chip.noDomain n = false
      ∧ (s.chip.mode.current = .service ∨ s.chip.mode.current = .diagnosis)
      ∧ s.chip.domainBusy n = false
      ∧ s.chip.domain n ≠ .retention
      ∧ 2 < n.val
      ∧ (s.chip.domain n = .on ∨ s.chip.domain n = .onHeld → s.chip.leaveOn n = 0))
    ∧ (∃ (s : State) (src : Src) (n : Fin 31), Accepts s.chip src (0x2810 + ↑n) 2 1
      ∧ s.chip.noDomain n = false
      ∧ (s.chip.mode.current = .service ∨ s.chip.mode.current = .diagnosis)
      ∧ s.chip.domainBusy n = false
      ∧ s.chip.domain n ≠ .on ∧ s.chip.domain n ≠ .onHeld
      ∧ 2 < n.val)
    ∧ (∃ (s : State) (src : Src) (n : Fin 31), Accepts s.chip src (0x2810 + ↑n) 2 1
      ∧ s.chip.noDomain n = false
      ∧ (s.chip.mode.current = .configuring ∨ s.chip.mode.current = .training ∨ s.chip.mode.current = .service ∨ s.chip.mode.current = .diagnosis)
      ∧ s.chip.domainBusy n = false
      ∧ s.chip.domain n ≠ .off
      ∧ n.val ≤ 2)
    ∧ (∃ (s : State) (src : Src) (n : Fin 31), Accepts s.chip src (0x2810 + ↑n) 2 1
      ∧ s.chip.noDomain n = false
      ∧ (¬ (s.chip.mode.current = .configuring ∨ s.chip.mode.current = .training ∨ s.chip.mode.current = .service ∨ s.chip.mode.current = .diagnosis)))
    ∧ (∃ (s : State) (src : Src) (n : Fin 31), Accepts s.chip src (0x2810 + ↑n) 2 1
      ∧ s.chip.noDomain n = false
      ∧ (s.chip.mode.current = .configuring ∨ s.chip.mode.current = .training ∨ s.chip.mode.current = .service ∨ s.chip.mode.current = .diagnosis)
      ∧ s.chip.domainBusy n = false
      ∧ 2 < n.val
      ∧ (s.chip.domain n = .on ∨ s.chip.domain n = .onHeld)
      ∧ s.chip.leaveOn n ≠ 0)
    ∧ (∃ (s : State) (src : Src) (n : Fin 31), Accepts s.chip src (0x2810 + ↑n) 2 1
      ∧ s.chip.noDomain n = true)
    ∧ (∃ (s : State) (src : Src) (n : Fin 31), Accepts s.chip src (0x2810 + ↑n) 2 1
      ∧ s.chip.noDomain n = false
      ∧ (s.chip.mode.current = .configuring ∨ s.chip.mode.current = .training ∨ s.chip.mode.current = .service ∨ s.chip.mode.current = .diagnosis)
      ∧ s.chip.domainBusy n = true)
    ∧ (∃ (s : State) (src : Src) (n : Fin 31), Accepts s.chip src (0x2810 + ↑n) 2 1
      ∧ s.chip.noDomain n = false
      ∧ (s.chip.mode.current = .configuring ∨ s.chip.mode.current = .training ∨ s.chip.mode.current = .service ∨ s.chip.mode.current = .diagnosis)
      ∧ s.chip.domainBusy n = false
      ∧ (s.chip.domain n = .on ∨ s.chip.domain n = .onHeld))
    ∧ (∃ (s : State) (n : Fin 31), s.chip.domain n = .changing
      ∧ Tab.get 0 s.chip.mode.target n = 0
      ∧ (29 ≤ n.val → s.chip.waysEmpty (domainWays n) = true))
    ∧ (∃ (s : State) (n : Fin 31), s.chip.domain n = .changing
      ∧ Tab.get 0 s.chip.mode.target n = 1
      ∧ (29 ≤ n.val → s.chip.waysEmpty (domainWays n) = true))
    ∧ (∃ (s : State) (n : Fin 31), s.chip.domain n = .changing
      ∧ Tab.get 0 s.chip.mode.target n = 3)
    ∧ (∃ (s : State) (n : Fin 31), s.chip.domain n = .changing
      ∧ Tab.get 0 s.chip.mode.target n = 4)
    ∧ (∃ (s : State) (n : Fin 31), s.chip.domain n = .changing
      ∧ 29 ≤ n.val
      ∧ Tab.get 0 s.chip.mode.target n ≤ 1
      ∧ s.chip.waysEmpty (domainWays n) = false)
    ∧ (∃ (s : State) (src : Src) (v : BitVec 8), Accepts s.chip src (0x2800) 0x0B 1
      ∧ padDomain v.toNat = true
      ∧ s.chip.domain v.toNat = .onHeld
      ∧ (s.chip.mode.current = .configuring ∨ s.chip.mode.current = .training))
    ∧ (∃ (s : State) (src : Src) (v : BitVec 8), Accepts s.chip src (0x2800) 0x0B 1
      ∧ padDomain v.toNat = true
      ∧ s.chip.domain v.toNat = .onHeld
      ∧ (s.chip.mode.current = .service ∨ s.chip.mode.current = .diagnosis))
    ∧ (∃ (s : State) (src : Src) (v : BitVec 8), Accepts s.chip src (0x2800) 0x0B 1
      ∧ padDomain v.toNat = true
      ∧ s.chip.domain v.toNat ≠ .onHeld) :=
  ⟨⟨wDomOn, .manager, 5, by decide +kernel⟩,
    ⟨wDomOn, .manager, 29, by decide +kernel⟩,
    ⟨wDomOff, .manager, 9, by decide +kernel⟩,
    ⟨wDomSvc, .manager, 26, by decide +kernel⟩,
    ⟨wDomSvc, .manager, 26, by decide +kernel⟩,
    ⟨wDomSvcOff, .manager, 9, by decide +kernel⟩,
    ⟨wDomSvc, .manager, 1, by decide +kernel⟩,
    ⟨wDomDrain, .manager, 9, by decide +kernel⟩,
    ⟨wDomHead, .manager, 3, by decide +kernel⟩,
    ⟨wDomSvc, .manager, 13, by decide +kernel⟩,
    ⟨wDomBusy, .manager, 9, by decide +kernel⟩,
    ⟨wDomSvc, .manager, 9, by decide +kernel⟩,
    ⟨wDomChg 9 0, 9, by decide +kernel⟩,
    ⟨wDomChg 9 1, 9, by decide +kernel⟩,
    ⟨wDomChg 9 3, 9, by decide +kernel⟩,
    ⟨wDomChg 9 4, 9, by decide +kernel⟩,
    ⟨wDomWays, 29, by decide +kernel⟩,
    ⟨wDomHeld .configuring, .manager, 9, by decide +kernel⟩,
    ⟨wDomHeld .service, .manager, 9, by decide +kernel⟩,
    ⟨wDomSvc, .manager, 9, by decide +kernel⟩⟩

/-- The hypotheses of ResetsTakeAwayAndKeepWhatTheirRowSays are met. -/
theorem test_meets_ResetsTakeAwayAndKeepWhatTheirRowSays :
    (∃ (s : State), s.chip.mode.current = .inserting
      ∧ s.chip.power.pg = true
      ∧ s.chip.mode.railsUp = false
      ∧ s.chip.mode.strapsTaken = false)
    ∧ (∃ (s : State), s.chip.mode.current = .inserting
      ∧ s.chip.power.pg = true
      ∧ s.chip.mode.railsUp = false
      ∧ s.chip.mode.strapsTaken = true)
    ∧ (∃ (s : State), s.chip.mode.railsUp = true)
    ∧ (∃ (s : State) (src : Src), Accepts s.chip src (0x2800) 2 1
      ∧ s.chip.mode.current ≠ .unseated
      ∧ s.chip.mode.current ≠ .inserting
      ∧ s.chip.mode.current ≠ .persist)
    ∧ (∃ (s : State) (src : Src), Accepts s.chip src (0x2800) 2 1
      ∧ s.chip.mode.current ≠ .unseated
      ∧ s.chip.mode.current ≠ .inserting
      ∧ s.chip.mode.current ≠ .persist)
    ∧ (∃ (s : State), (s.chip.mode.current = .unseated ∨ s.chip.mode.current = .inserting ∨ s.chip.mode.current = .persist))
    ∧ (∃ (s : State) (imageA imageB : Bool), s.chip.mode.current = .recall
      ∧ s.chip.chained = true
      ∧ s.chip.field.addr = 0
      ∧ s.chip.bootChoice imageA imageB ≠ none)
    ∧ (∃ (s : State) (imageA imageB : Bool), s.chip.mode.current = .recall
      ∧ 1 ≤ s.chip.pkg.slot
      ∧ s.chip.pkg.slot ≤ 0x7E
      ∧ s.chip.bootChoice imageA imageB ≠ none
      ∧ (∀ h : Nat, h < 4 → (s.chip.head h).state ≠ .active))
    ∧ (∃ (s : State) (imageA imageB : Bool), s.chip.mode.current = .recall
      ∧ s.chip.bootChoice imageA imageB = none) :=
  ⟨⟨wInsert false, by decide +kernel⟩,
    ⟨wInsert true, by decide +kernel⟩,
    ⟨wSvc, by decide +kernel⟩,
    ⟨wSvc, .manager, by decide +kernel⟩,
    ⟨wSvc, .manager, by decide +kernel⟩,
    ⟨wPersistHead, by decide +kernel⟩,
    ⟨wRecall 0x7F, true, false, by decide +kernel⟩,
    ⟨wRecall 5, true, false, by decide +kernel⟩,
    ⟨wRecall 5, false, false, by decide +kernel⟩⟩

/-- The hypotheses of FaultsClearEditAndCountersDump are met. -/
theorem test_meets_FaultsClearEditAndCountersDump :
    (∃ (s : State) (src : Src) (v : BitVec 16), Accepts s.chip src (0xA000) 3 2
      ∧ v.toNat < 256)
    ∧ (∃ (s : State) (src : Src) (v : BitVec 16), Accepts s.chip src (0xA000) 3 2
      ∧ v.toNat = 0xFFFF)
    ∧ (∃ (s : State) (src : Src) (v : BitVec 16), Accepts s.chip src (0xA000) 3 2
      ∧ 255 < v.toNat
      ∧ v.toNat ≠ 0xFFFF)
    ∧ (∃ (s : State) (src : Src) (v : BitVec 16), Accepts s.chip src (0xA000) 4 2
      ∧ s.chip.faultByteOk (bitsOf v.toNat 0 8) (bitsOf v.toNat 8 8) = true
      ∧ (s.chip.sbAppend 1 (paramKey Obj.faultConfig) (bytesLE 256 (setField (s.chip.cfg Obj.faultConfig) (8 * bitsOf v.toNat 0 8) 8 (bitsOf v.toNat 8 8)))).1 = true
      ∧ Tab.find s.chip.rw Obj.faultConfig = none)
    ∧ (∃ (s : State) (src : Src) (v : BitVec 16), Accepts s.chip src (0xA000) 4 2
      ∧ s.chip.faultByteOk (bitsOf v.toNat 0 8) (bitsOf v.toNat 8 8) = false)
    ∧ (∃ (s : State), (s.chip.mode.current = .service ∨ s.chip.mode.current = .diagnosis ∨ s.chip.mode.current = .configuring ∨ s.chip.mode.current = .training ∨ s.chip.mode.current = .recall ∨ s.chip.mode.current = .unaddressed))
    ∧ (∃ (s : State), (s.chip.mode.current = .drain ∨ s.chip.mode.current = .persist))
    ∧ (∃ (s : State) (src : Src), Accepts s.chip src (0xA800) 20 1
      ∧ s.chip.cnt.latched = none)
    ∧ (∃ (s : State) (src : Src), Accepts s.chip src (0xA800) 20 1
      ∧ s.chip.cnt.latched ≠ none)
    ∧ (∃ (s : State) (d : Nat), s.chip.dueNow = some d
      ∧ s.chip.tb.state ≠ .unlocked
      ∧ d ≤ s.chip.tb.tc + 2
      ∧ s.chip.cnt.latched = none)
    ∧ (∃ (s : State) (d : Nat), s.chip.dueNow = some d
      ∧ s.chip.tb.state ≠ .unlocked
      ∧ d ≤ s.chip.tb.tc + 2
      ∧ s.chip.cnt.latched ≠ none)
    ∧ (∃ (s : State) (r : DumpRec), s.chip.cnt.latched = some r
      ∧ s.chip.inBurst = false
      ∧ s.chip.dumpFull = false)
    ∧ (∃ (s : State) (r : DumpRec), s.chip.cnt.latched = some r
      ∧ s.chip.inBurst = false
      ∧ s.chip.dumpFull = true)
    ∧ (∃ (s : State), s.chip.inBurst = true)
    ∧ (∃ (s : State) (src : Src) (v : BitVec 16), Accepts s.chip src (0xA800) 17 2
      ∧ dumpRecordsOk v.toNat = true
      ∧ s.chip.cfg Obj.cntDumpPeriodTc = 0
      ∧ s.chip.mirrorBytes + 16384 * v.toNat ≤ s.chip.residentMib * mib
      ∧ (s.chip.sbAppend 1 (paramKey Obj.cntDumpRecords) (bytesLE 2 v.toNat)).1 = true)
    ∧ (∃ (s : State) (src : Src) (v : BitVec 16), Accepts s.chip src (0xA800) 17 2
      ∧ dumpRecordsOk v.toNat = true
      ∧ s.chip.cfg Obj.cntDumpPeriodTc ≠ 0)
    ∧ (∃ (s : State) (src : Src) (v : BitVec 64), Accepts s.chip src (0xA800) 19 8
      ∧ (v.toNat = 0 ∨ (65536 ≤ v.toNat ∧ v.toNat ≤ 2 ^ 37)))
    ∧ (∃ (s : State) (src : Src), Accepts s.chip src (0xA800) 18 8)
    ∧ (∃ (s : State) (src : Src) (value : List Byte) (f : Fin 32), Accepts s.chip src (0xA820 + ↑f) 1 32
      ∧ value.length = 32
      ∧ filterOk (natLE value) = true
      ∧ Tab.find s.chip.rw (objAt Obj.cntFilter ↑f) = none
      ∧ (s.chip.sbAppend 1 (paramKey (objAt Obj.cntFilter ↑f)) (bytesLE 32 (natLE value))).1 = true)
    ∧ (∃ (s : State) (src : Src) (value : List Byte), Accepts s.chip src (0xA800) 2 2048
      ∧ value.length = 2048
      ∧ filterSelectOk (natLE value) = true
      ∧ Tab.find s.chip.rw Obj.cntFilterSelect = none
      ∧ (s.chip.sbAppend 1 (paramKey (Obj.cntFilterSelect)) (bytesLE 2048 (natLE value))).1 = true)
    ∧ (∃ (s : State) (src : Src) (value : List Byte) (c : Fin 1024), Accepts s.chip src (0x9000 + ↑c) 0x30 1
      ∧ value.length = 1
      ∧ natLE value ≤ 15) :=
  ⟨⟨wFaulty, .manager, 7, by decide +kernel⟩,
    ⟨wFaulty, .manager, 0xFFFF, by decide +kernel⟩,
    ⟨wFaulty, .manager, 256, by decide +kernel⟩,
    ⟨wStore, .manager, 0x0505, by decide +kernel⟩,
    ⟨wFaulty, .manager, 0x8005, by decide +kernel⟩,
    ⟨wSvc, by decide +kernel⟩,
    ⟨wDrain .on 1, by decide +kernel⟩,
    ⟨wSvc, .manager, by decide +kernel⟩,
    ⟨wLatched, .manager, by decide +kernel⟩,
    ⟨wDue, 1000, by decide +kernel⟩,
    ⟨wDueLatched, 1000, by decide +kernel⟩,
    ⟨wDumpRing 8, wDumpRec, by decide +kernel⟩,
    ⟨wDumpRing 0, wDumpRec, by decide +kernel⟩,
    ⟨wBursting, by decide +kernel⟩,
    ⟨wStore, .manager, 8, by decide +kernel⟩,
    ⟨wDue, .manager, 8, by decide +kernel⟩,
    ⟨wSvc, .manager, 65536, by decide +kernel⟩,
    ⟨wSvc, .manager, by decide +kernel⟩,
    ⟨wStore, .manager, List.replicate 32 0, 3, by decide +kernel⟩,
    ⟨wStore, .manager, List.replicate 2048 0, by decide +kernel⟩,
    ⟨wSvc, .manager, [5], 3, by decide +kernel⟩⟩

/-- The hypotheses of TapInstructionsSelectTheirRegister are met. -/
theorem test_meets_TapInstructionsSelectTheirRegister :
    (∃ (s : State), s.chip.mode.railsUp = true)
    ∧ (∃ (s : State), s.chip.mode.railsUp = true)
    ∧ (∃ (s : State), s.chip.mode.railsUp = true)
    ∧ (∃ (s : State), s.chip.mode.railsUp = true)
    ∧ (∃ (s : State), s.chip.mode.railsUp = true)
    ∧ (∃ (s : State), s.chip.mode.railsUp = true)
    ∧ (∃ (s : State), s.chip.mode.railsUp = true)
    ∧ (∃ (s : State), s.chip.mode.railsUp = true)
    ∧ (∃ (s : State) (code : BitVec 8), s.chip.mode.railsUp = true
      ∧ privateCode code = true
      ∧ s.chip.husk.debugClosed = true)
    ∧ (∃ (s : State) (code : BitVec 8), s.chip.mode.railsUp = true
      ∧ privateCode code = true
      ∧ s.chip.husk.debugClosed = false)
    ∧ (∃ (s : State), s.chip.mode.railsUp = false) :=
  ⟨⟨wSvc, by decide +kernel⟩,
    ⟨wSvc, by decide +kernel⟩,
    ⟨wSvc, by decide +kernel⟩,
    ⟨wSvc, by decide +kernel⟩,
    ⟨wSvc, by decide +kernel⟩,
    ⟨wSvc, by decide +kernel⟩,
    ⟨wSvc, by decide +kernel⟩,
    ⟨wSvc, by decide +kernel⟩,
    ⟨wClosed, 0x40, by decide +kernel⟩,
    ⟨wSvc, 0x40, by decide +kernel⟩,
    ⟨wInsert true, by decide +kernel⟩⟩

/-- The hypotheses of CommandedTripIsForDrainWithTheGateOn are met. -/
theorem test_meets_CommandedTripIsForDrainWithTheGateOn :
    (∃ (s : State) (src : Src), Accepts s.chip src (0x2000) 2 1
      ∧ s.chip.mode.current = .drain
      ∧ s.chip.power.st = .on)
    ∧ (∃ (s : State) (src : Src), Accepts s.chip src (0x2000) 2 1
      ∧ s.chip.mode.current ≠ .drain)
    ∧ (∃ (s : State) (src : Src), Accepts s.chip src (0x2000) 2 1
      ∧ s.chip.mode.current = .drain
      ∧ s.chip.power.st ≠ .on) :=
  ⟨⟨wPwrDrain, .manager, by decide +kernel⟩,
    ⟨wPwr .on, .manager, by decide +kernel⟩,
    ⟨wPwrDrainOff, .manager, by decide +kernel⟩⟩

/-- The hypotheses of DictionaryChecksActInTheirOrder are met. -/
theorem test_meets_DictionaryChecksActInTheirOrder :
    (∃ (s : State) (src : Src), s.chip.dictUp src = true
      ∧ (src = .field → s.chip.field.xfer = none)
      ∧ s.chip.mode.current = .recall
      ∧ s.chip.pasidDenied (srcPasid src) = false)
    ∧ (∃ (s : State) (src : Src) (idx : BitVec 16), s.chip.dictUp src = true
      ∧ (src = .field → s.chip.field.xfer = none)
      ∧ s.chip.mode.current ≠ .recall
      ∧ idx.toNat < 0x1000
      ∧ s.chip.pasidDenied (srcPasid src) = false)
    ∧ (∃ (s : State) (src : Src) (idx : BitVec 16), s.chip.dictUp src = true
      ∧ (src = .field → s.chip.field.xfer = none)
      ∧ s.chip.mode.current ≠ .recall
      ∧ 0x1000 ≤ idx.toNat
      ∧ s.chip.rangeServed idx.toNat = true
      ∧ s.chip.may (rangeTarget idx.toNat) (srcMaster src) 1 = false
      ∧ s.chip.pasidDenied (srcPasid src) = false)
    ∧ (∃ (s : State) (src : Src) (idx : BitVec 16), s.chip.dictUp src = true
      ∧ (src = .field → s.chip.field.xfer = none)
      ∧ s.chip.mode.current ≠ .recall
      ∧ 0x1000 ≤ idx.toNat
      ∧ s.chip.rangeServed idx.toNat = true
      ∧ s.chip.may (rangeTarget idx.toNat) (srcMaster src) 1 = true
      ∧ objIndexExists idx.toNat = false
      ∧ s.chip.pasidDenied (srcPasid src) = false)
    ∧ (∃ (s : State) (src : Src) (idx : BitVec 16) (sub : BitVec 8), s.chip.dictUp src = true
      ∧ (src = .field → s.chip.field.xfer = none)
      ∧ s.chip.mode.current ≠ .recall
      ∧ 0x1000 ≤ idx.toNat
      ∧ s.chip.rangeServed idx.toNat = true
      ∧ s.chip.may (rangeTarget idx.toNat) (srcMaster src) 1 = true
      ∧ objIndexExists idx.toNat = true
      ∧ objInfo? idx.toNat sub.toNat = none
      ∧ s.chip.pasidDenied (srcPasid src) = false)
    ∧ (∃ (s : State) (src : Src) (idx : BitVec 16) (sub : BitVec 8) (i : ObjInfo) (t b : Nat), s.chip.dictUp src = true
      ∧ (src = .field → s.chip.field.xfer = none)
      ∧ s.chip.mode.current ≠ .recall
      ∧ 0x1000 ≤ idx.toNat
      ∧ s.chip.rangeServed idx.toNat = true
      ∧ s.chip.may (rangeTarget idx.toNat) (srcMaster src) 1 = true
      ∧ objIndexExists idx.toNat = true
      ∧ objInfo? idx.toNat sub.toNat = some i
      ∧ furtherRight idx.toNat sub.toNat = some (t, b)
      ∧ s.chip.may t (srcMaster src) b = false
      ∧ s.chip.pasidDenied (srcPasid src) = false)
    ∧ (∃ (s : State) (src : Src) (idx : BitVec 16) (sub : BitVec 8) (i : ObjInfo), s.chip.dictUp src = true
      ∧ (src = .field → s.chip.field.xfer = none)
      ∧ s.chip.mode.current ≠ .recall
      ∧ 0x1000 ≤ idx.toNat
      ∧ s.chip.rangeServed idx.toNat = true
      ∧ s.chip.may (rangeTarget idx.toNat) (srcMaster src) 1 = true
      ∧ objIndexExists idx.toNat = true
      ∧ objInfo? idx.toNat sub.toNat = some i
      ∧ furtherRight idx.toNat sub.toNat = none
      ∧ (i.acc = .ro ∨ i.acc = .const)
      ∧ s.chip.pasidDenied (srcPasid src) = false)
    ∧ (∃ (s : State) (src : Src) (idx : BitVec 16) (sub : BitVec 8) (value : List Byte) (i : ObjInfo), s.chip.dictUp src = true
      ∧ (src = .field → s.chip.field.xfer = none)
      ∧ s.chip.gate (srcMaster src) idx.toNat sub.toNat true = .go i
      ∧ 0 < i.size
      ∧ value.length ≠ i.size
      ∧ s.chip.pasidDenied (srcPasid src) = false)
    ∧ (∃ (s : State) (src : Src), s.chip.dictUp src = true
      ∧ s.chip.pasidDenied (srcPasid src) = true) :=
  ⟨⟨wRecallM, .manager, by decide +kernel⟩,
    ⟨wSvc, .manager, 0x0FFF, by decide +kernel⟩,
    ⟨wHeadNone, .mailbox 0, 0x2800, by decide +kernel⟩,
    ⟨wSvc, .manager, 0x17FF, by decide +kernel⟩,
    ⟨wSvc, .manager, 0x1010, 0x77, by decide +kernel⟩,
    ⟨wHeadRw, .mailbox 0, 0x2800, 2, wModeCmd, 0x403, 3, by decide +kernel⟩,
    ⟨wSvc, .manager, 0x2800, 1, wModeCur, by decide +kernel⟩,
    ⟨wSvc, .manager, 0x1010, 1, [0], wStoreCmd, by decide +kernel⟩,
    ⟨wSvc, .bar2 0 (some 7), by decide +kernel⟩⟩

/-- The hypotheses of StepTakesTheFrontCommand are met. -/
theorem test_meets_StepTakesTheFrontCommand :
    (∃ (s : State) (c : Instr) (r : List Instr), s.pending = c :: r) :=
  ⟨wQueue, .idcode, [.highz], by decide +kernel⟩

/-- The hypotheses of AnEmptyQueueLetsOneCycleOfTcPass are met. -/
theorem test_meets_AnEmptyQueueLetsOneCycleOfTcPass :
    (∃ (s : State), s.pending = []
      ∧ s.chip.tb.state ≠ .unlocked
      ∧ (s.chip.tb.atDue = false ∨ s.chip.tb.lastDue = some (s.chip.tb.tc / 65536))
      ∧ s.chip.win.pending = []
      ∧ s.chip.tb.slewing = false
      ∧ s.chip.tb.ahead = 0)
    ∧ (∃ (s : State), s.pending = []
      ∧ s.chip.tb.state ≠ .unlocked
      ∧ (s.chip.tb.atDue = false ∨ s.chip.tb.lastDue = some (s.chip.tb.tc / 65536))
      ∧ s.chip.win.pending = []
      ∧ s.chip.tb.slewing = true
      ∧ s.chip.tb.ahead ≠ 0
      ∧ s.chip.tb.edge ≠ 15)
    ∧ (∃ (s : State), s.pending = []
      ∧ s.chip.tb.state ≠ .unlocked
      ∧ (s.chip.tb.atDue = false ∨ s.chip.tb.lastDue = some (s.chip.tb.tc / 65536))
      ∧ s.chip.win.pending = []
      ∧ s.chip.tb.ahead ≠ 0
      ∧ s.chip.tb.edge = 15)
    ∧ (∃ (s : State), s.pending = []
      ∧ s.chip.tb.state ≠ .unlocked
      ∧ (s.chip.tb.atDue = false ∨ s.chip.tb.lastDue = some (s.chip.tb.tc / 65536))
      ∧ s.chip.win.pending = []
      ∧ s.chip.tb.slewing = true
      ∧ s.chip.tb.ahead = 0)
    ∧ (∃ (s : State) (k : Nat), s.pending = []
      ∧ s.chip.tb.state ≠ .unlocked
      ∧ (s.chip.tb.atDue = false ∨ s.chip.tb.lastDue = some (s.chip.tb.tc / 65536))
      ∧ s.chip.win.pending = []
      ∧ s.chip.lauter.copied = []
      ∧ s.chip.tb.measuredKhz ≠ 0
      ∧ (k = 0 ∨ k = 2 ∨ k = 3 ∨ k = 4))
    ∧ (∃ (s : State), s.pending = []
      ∧ s.chip.tb.state ≠ .unlocked
      ∧ (s.chip.tb.atDue = false ∨ s.chip.tb.lastDue = some (s.chip.tb.tc / 65536))
      ∧ s.chip.win.pending = []
      ∧ s.chip.lauter.copied = []
      ∧ s.chip.tb.measuredKhz ≠ 0)
    ∧ (∃ (s : State) (c : Chip), s.pending = []
      ∧ s.chip.tb.state ≠ .unlocked
      ∧ (s.chip.tb.atDue = false ∨ s.chip.tb.lastDue = some (s.chip.tb.tc / 65536))
      ∧ s.chip.win.pending ≠ []
      ∧ c = { s.chip with cnt := { s.chip.cnt with clocks := s.chip.cnt.clocks + 1 }, tb := s.chip.tb.edgeOn })
    ∧ (∃ (s : State), s.pending = []
      ∧ s.chip.tb.atDue = true
      ∧ s.chip.tb.lastDue ≠ some (s.chip.tb.tc / 65536)
      ∧ s.chip.tb.state = .locked
      ∧ s.chip.tb.misses + 1 ≤ s.chip.cfg Obj.timebaseMissLimit
      ∧ s.chip.win.pending = [])
    ∧ (∃ (s : State), s.pending = []
      ∧ s.chip.tb.state = .unlocked) :=
  ⟨⟨wSvc, by decide +kernel⟩,
    ⟨wSlew, by decide +kernel⟩,
    ⟨wSlewEdge, by decide +kernel⟩,
    ⟨wSlewed, by decide +kernel⟩,
    ⟨wIndebted, 3, by decide +kernel⟩,
    ⟨wIndebted, by decide +kernel⟩,
    ⟨wEdgeDue, { wEdgeDue.chip with cnt := { wEdgeDue.chip.cnt with clocks := wEdgeDue.chip.cnt.clocks + 1 }, tb := wEdgeDue.chip.tb.edgeOn }, by decide +kernel⟩,
    ⟨wMissing, by decide +kernel⟩,
    ⟨wUnlocked, by decide +kernel⟩⟩

/-- The hypotheses of CalmDeviceSettlesAtOnce are met. -/
theorem test_meets_CalmDeviceSettlesAtOnce :
    (∃ (c : Chip), c.calm = true)
    ∧ (∃ (i : Instr) (s : State) (c : Chip), Effect i s c
      ∧ c.calm = true) :=
  ⟨⟨wChip, by decide +kernel⟩,
    ⟨.faultIntegrityScan true, wSvc, wChip, ⟨rfl, by decide⟩⟩⟩

/-- The hypotheses of RaisedSourcesSetTheirBitAndAskTheirReactions are met. -/
theorem test_meets_RaisedSourcesSetTheirBitAndAskTheirReactions :
    (∃ (c : Chip), c.coreOn = true
      ∧ c.mode.current ≠ .recall)
    ∧ (∃ (c : Chip), c.coreOn = true
      ∧ c.mode.current ≠ .recall)
    ∧ (∃ (c : Chip), c.coreOn = true
      ∧ c.mode.current ≠ .recall)
    ∧ (∃ (c : Chip), c.coreOn = true
      ∧ c.mode.current ≠ .recall)
    ∧ (∃ (c : Chip), (c.coreOn = false ∨ c.mode.current = .recall)) :=
  ⟨⟨wChip, by decide +kernel⟩,
    ⟨wChip, by decide +kernel⟩,
    ⟨wChip, by decide +kernel⟩,
    ⟨wChip, by decide +kernel⟩,
    ⟨wRecallM.chip, by decide +kernel⟩⟩

/-- The hypotheses of TestPortStaysConsistent are met. -/
theorem test_meets_TestPortStaysConsistent :
    (∃ (s t : State), s.tap.Ok
      ∧ step s = .next t) :=
  ⟨wQueue, wQueueNext, ⟨⟨fun _ => ⟨rfl, rfl⟩, by decide, by decide⟩, rfl⟩⟩

/-- The hypotheses of EachStepTakesOneCommandAndNoCommandQueuesAnother are met. -/
theorem test_meets_EachStepTakesOneCommandAndNoCommandQueuesAnother :
    (∃ (s t : State), step s = .next t) :=
  ⟨wQueue, wQueueNext, rfl⟩

/-- The hypotheses of DamageOfHeldStateIsHandledConservatively are met. -/
theorem test_meets_DamageOfHeldStateIsHandledConservatively :
    (∃ (s : State) (ch : Fin 64) (k : Nat) (w : Window), (s.chip.hchan ch).current = none
      ∧ s.chip.win.pending[k]? = some w
      ∧ w.active = false
      ∧ w.cls ≠ .burst)
    ∧ (∃ (s : State) (ch : Fin 64) (k : Nat) (w : Window), (s.chip.hchan ch).current = none
      ∧ s.chip.win.pending[k]? = some w
      ∧ w.active = false
      ∧ w.cls = .burst
      ∧ s.chip.win.pending.find? (fun v => decide (v.cls = .burst ∧ v.start = w.stop ∧ !v.active)) = none)
    ∧ (∃ (s : State) (ch : Fin 64), (s.chip.hchan ch).current = none)
    ∧ (∃ (s : State) (ch : Fin 64), (s.chip.hchan ch).current = none)
    ∧ (∃ (s : State) (ch : Fin 64), (s.chip.hchan ch).current = none)
    ∧ (∃ (s : State) (ch : Fin 64), (s.chip.hchan ch).current = none)
    ∧ (∃ (s : State) (ch : Fin 64), (s.chip.hchan ch).current = none)
    ∧ (∃ (s : State) (ch : Fin 64) (dla : BitVec 46), (s.chip.hchan ch).current = none
      ∧ s.chip.domainsInSet (lineNo dla.toNat) = [])
    ∧ (∃ (s : State) (ch : Fin 64) (dla : BitVec 46), (((s.chip.domainsInSet (lineNo dla.toNat)).foldl (fun c d => c.recallDomain d false) (s.chip.raise 66)).hchan ch).current = none)
    ∧ (∃ (s : State) (ch : Fin 64) (q : Fin 1048576) (x y : QState), (s.chip.hchan ch).current = none
      ∧ s.chip.queue q = some x
      ∧ x.cached = true
      ∧ x.fault = false
      ∧ x.dirty = false
      ∧ s.chip.readEntry q = some y)
    ∧ (∃ (s : State) (ch : Fin 64) (q : Fin 1048576) (x : QState), (s.chip.hchan ch).current = none
      ∧ s.chip.queue q = some x
      ∧ x.cached = true
      ∧ x.fault = false
      ∧ x.dirty = true)
    ∧ (∃ (s : State) (ch : Fin 64), (s.chip.hchan ch).current = none)
    ∧ (∃ (s : State) (ch : Fin 64), (s.chip.hchan ch).current = none)
    ∧ (∃ (s : State) (ch : Fin 64), (s.chip.hchan ch).current = none)
    ∧ (∃ (s : State) (ch : Fin 64) (dir : Bool) (page : BitVec 34) (r : Nat), (s.chip.hchan ch).current = none
      ∧ r = (if dir then dirRecNo (page.toNat / 512) else page.toNat)) :=
  ⟨⟨wDamWin .quiet, 4, 0, wPlain, by decide +kernel⟩,
    ⟨wDamWin .burst, 4, 0, { wPlain with cls := .burst }, by decide +kernel⟩,
    ⟨wSvc, 4, by decide +kernel⟩,
    ⟨wSvc, 4, by decide +kernel⟩,
    ⟨wSvc, 4, by decide +kernel⟩,
    ⟨wSvc, 4, by decide +kernel⟩,
    ⟨wSvc, 4, by decide +kernel⟩,
    ⟨wSvc, 4, 64, by decide +kernel⟩,
    ⟨wDamFilter, 4, 64, by decide +kernel⟩,
    ⟨wDamTable, 5, 0, wLoaded, wLoaded, by decide +kernel⟩,
    ⟨wDamDirty, 5, 0, { wLoaded with dirty := true }, by decide +kernel⟩,
    ⟨wSvc, 4, by decide +kernel⟩,
    ⟨wSvc, 4, by decide +kernel⟩,
    ⟨wSvc, 4, by decide +kernel⟩,
    ⟨wSvc, 4, false, 7, 7, by decide +kernel⟩⟩

/-- The hypotheses of EveryCommandCompletes are met. -/
theorem test_meets_EveryCommandCompletes :
    (∃ (i : Instr) (s : State), (∀ code : BitVec 8, i = .bypass code → privateCode code = false ∨ s.chip.husk.debugClosed = true ∨ s.chip.mode.railsUp = false))
    ∧ (∃ (code : BitVec 8) (s : State), privateCode code = true
      ∧ s.chip.husk.debugClosed = false
      ∧ s.chip.mode.railsUp = true) :=
  ⟨⟨.bypass 0xFF, wSvc, fun code h => by injection h with h; subst h; decide⟩,
    ⟨0x40, wSvc, by decide +kernel⟩⟩


end Sys2Proof.Tests
end

section
/-!
PROOFS. Posting of window records (R21 to R27): what a posting past the access check does, as it is decided ACCEPTED or not, what a CANCEL
record holds and does, and what a posting of a Hopper channel leaves behind.
-/
namespace Sys2Proof.Machine

/-! ### A posting past the access check -/

/-- The device once a record that names a window is posted: it is the last of the pending windows, and counted in the result word (R25). -/
theorem Chip.postWindow_accepted (s : Chip) (m v : Nat) (window : (postRec v).cls ≠ 4)
    (ok : (s.decidePost (postRec v)).1 = Post.accepted) :
    s.postWindow m v = { s with win := { s.win with
      pending := s.win.pending ++ [s.asWindow (postRec v)]
      results := Tab.put 0 s.win.results m (resultWord (s.decidePost (postRec v)) (postRec v).tag (s.win.pending.length + 1)) } } := by
  simp only [Chip.postWindow, ok, if_true, Chip.applyPost, window, if_false, Chip.setResult, List.length_append, List.length_singleton]

/-- A record with any other decision leaves its result word alone (R25, R26). -/
theorem Chip.postWindow_refused (s : Chip) (m v : Nat) (no : (s.decidePost (postRec v)).1 ≠ Post.accepted) :
    s.postWindow m v = { s with win := { s.win with
      results := Tab.put 0 s.win.results m (resultWord (s.decidePost (postRec v)) (postRec v).tag s.win.pending.length) } } := by
  simp only [Chip.postWindow, no, if_false, Chip.setResult]

/-- Keeping a result word changes the windows' unit alone. -/
theorem Chip.setResult_win_only (s : Chip) (m v : Nat) : Frame [.win] (s.setResult m v) s := Frame.set_win (by decide) s _

/-- The result word that a master reads is the one kept last for it (R23). -/
@[simp] theorem Chip.resultOf_setResult (s : Chip) (m v : Nat) : (s.setResult m v).resultOf m = v := Tab.get_put_same 0 s.win.results m v

@[simp] theorem Chip.pending_setResult (s : Chip) (m v : Nat) : (s.setResult m v).win.pending = s.win.pending := rfl

/-! ### Posting through windows.post -/

/-- A record without a reserved bit is posted, and answered with code 0 (R23). -/
theorem Chip.dictCmd_posts (s : Chip) (src : Src) (m v : Nat) (acc : Accepts s src 0x4010 1 32) (zero : (postRec v).zero = true) :
    s.dictCmd src 0x4010 1 32 v (fun c => c.postObject m v) = (s.postWindow m v).answerWrite src 0x4010 1 (bytesLE 32 v) 0 := by
  rw [s.dictCmd_accepts src 0x4010 1 32 v _ acc (by decide) (by decide)]
  simp only [Chip.postObject, zero, if_true]

/-- A record with a reserved bit set is out of range, and nothing is posted (R3, R4). -/
theorem Chip.dictCmd_post_reserved (s : Chip) (src : Src) (m v : Nat) (acc : Accepts s src 0x4010 1 32)
    (reserved : (postRec v).zero = false) :
    s.dictCmd src 0x4010 1 32 v (fun c => c.postObject m v) = s.answerWrite src 0x4010 1 (bytesLE 32 v) Abort.outOfRange := by
  rw [s.dictCmd_accepts src 0x4010 1 32 v _ acc (by decide) (by decide)]
  simp only [Chip.postObject, reserved, Bool.false_eq_true, if_false]

/-- WINDOWS_POST of a record without a reserved bit posts it. -/
theorem windowsPost_posts (s : State) (src : Src) (v : BitVec 256) (acc : Accepts s.chip src 0x4010 1 32)
    (zero : (postRec v.toNat).zero = true) :
    Effect (.windowsPost src v) s ((s.chip.postWindow (srcMaster src) v.toNat).answerWrite src 0x4010 1 (bytesLE 32 v.toNat) 0) :=
  congrArg (fun c => Host.Outcome.next (s.done c)) (s.chip.dictCmd_posts src _ _ acc zero)

/-! ### Posting through a timeline aperture -/

/-- 32 bytes at offset 0 of the aperture, from a master with the post right, are a posting (R23, R24). -/
theorem Chip.apertureWrite_posts (s : Chip) (m : Nat) (d : List Byte) (sound : s.rightDamaged 0x504 m = false)
    (may : s.mayPost m = true) (len : d.length = 32) : s.apertureWrite m 0 d = s.postWindow m (natLE d) := by
  simp [Chip.apertureWrite, sound, may, len]

/-- TIMELINE_APERTURE_WRITE over CXL.mem of an active head posts the record (R24). -/
theorem timelineApertureWrite_cxl_posts (s : State) (h : Fin 4) (d : List Byte) (serving : s.chip.serving = true)
    (active : (s.chip.head h).state = .active) (sound : s.chip.rightDamaged 0x504 h = false) (may : s.chip.mayPost h = true)
    (len : d.length = 32) : Effect (.timelineApertureWrite (.cxl h) 0 d) s (s.chip.postWindow h (natLE d)) := by
  refine congrArg (fun c => Host.Outcome.next (s.done c)) ?_
  calc s.chip.timelineWrite (.cxl h) (0 : BitVec 12).toNat d
    _ = s.chip.apertureWrite h 0 d := if_pos ⟨serving, active⟩
    _ = s.chip.postWindow h (natLE d) := s.chip.apertureWrite_posts h d sound may len

/-- A posting of a Hopper channel raises the violation of its class, and its word reads NONE (R25, R112): it is no port's, so none counts
it. -/
theorem Chip.postViolation_hopper (s : Chip) (ch : Fin 64) :
    (s.postViolation (0x20 + ch)).win = (s.setResult (0x20 + ch) 0).win ∧ (s.postViolation (0x20 + ch)).sticky 34 = true
    ∧ Frame [.win, .fault, .heads, .field] (s.postViolation (0x20 + ch)) s := by
  have raised : s.postViolation (0x20 + ch) = (s.setResult (0x20 + ch) 0).raise 34 (0x20 + ch) := by
    have source : violationSource (0x20 + ch) = 34 := by
      unfold violationSource
      rw [if_neg (by omega), if_neg (by omega), if_pos (by omega)]
    unfold Chip.postViolation Chip.violation
    rw [if_neg (by omega), if_neg (by omega), source]
  have frame : Frame [.fault, .heads, .field] ((s.setResult (0x20 + ch) 0).raise 34 (0x20 + ch)) (s.setResult (0x20 + ch) 0) :=
    (Chip.raise_eq _ _ _ _ _ _).frame
  rw [raised]
  exact ⟨frame .win (by decide), Chip.raise_sticky _ _ _ _ _ _,
    (frame.mono (by decide)).trans ((s.setResult_win_only _ _).mono (by decide))⟩

/-! ### CANCEL -/

/-- The fields of a CANCEL record: its class, the epoch and the tag, and nothing else (R21, R27). -/
theorem postRec_cancelRecord (tag epoch : BitVec 16) :
    postRec (cancelRecord tag.toNat epoch.toNat)
      = { start := 0, stop := 0, cls := 4, flags := 0, epoch := epoch.toNat, mib := 0, tag := tag.toNat, line := 0, zero := true } := by
  have ht := tag.isLt
  have he := epoch.isLt
  generalize tag.toNat = t at *
  generalize epoch.toNat = e at *
  simp only [postRec, cancelRecord, bitsOf_eq, PostRec.mk.injEq, decide_eq_true_eq]
  and_intros <;> omega

/-- A CANCEL record is well formed (R22). -/
theorem Chip.wellFormed_cancelRecord (s : Chip) (tag epoch : BitVec 16) :
    s.wellFormed (postRec (cancelRecord tag.toNat epoch.toNat)) = true := by
  rw [postRec_cancelRecord]
  simp [Chip.wellFormed, bitOf]

/-- In SERVICE, with the timebase locked and of the device's epoch, a CANCEL of a pending window that is not QUIET is accepted (R26, R27). -/
theorem Chip.decidePost_cancelRecord (s : Chip) (tag epoch : BitVec 16) (w : Window) (service : s.mode.current = .service)
    (locked : s.tb.state = .locked) (now : epoch.toNat = s.tb.epoch)
    (found : s.win.pending.find? (fun w => decide (w.tag = tag.toNat)) = some w) (loud : w.cls ≠ .quiet) :
    s.decidePost (postRec (cancelRecord tag.toNat epoch.toNat)) = (Post.accepted, 0xFF, 0) := by
  have formed := s.wellFormed_cancelRecord tag epoch
  rw [postRec_cancelRecord, now] at formed ⊢
  simp [Chip.decidePost, formed, service, locked, Chip.decideCancel, found, loud]

/-- A window that is no BURST and not in effect goes, and only the fences are taken anew (R27, R37). -/
theorem Chip.cancelOne_waiting (s : Chip) (w : Window) (single : w.cls ≠ .burst) (waiting : w.active = false) :
    s.cancelOne w = (s.dropWindow w.tag).refreshFence := by
  simp [Chip.cancelOne, single, waiting, Chip.unfence]

/-- An accepted CANCEL cancels the window of its tag. -/
theorem Chip.postWindow_cancelRecord (s : Chip) (m : Nat) (tag epoch : BitVec 16) (w : Window)
    (found : s.win.pending.find? (fun w => decide (w.tag = tag.toNat)) = some w)
    (ok : s.decidePost (postRec (cancelRecord tag.toNat epoch.toNat)) = (Post.accepted, 0xFF, 0)) :
    s.postWindow m (cancelRecord tag.toNat epoch.toNat)
      = (s.cancelOne w).setResult m (resultWord (Post.accepted, 0xFF, 0) tag.toNat (s.cancelOne w).win.pending.length) := by
  rw [postRec_cancelRecord] at ok
  simp only [Chip.postWindow, postRec_cancelRecord, ok, if_true, Chip.applyPost, found]

/-- CANCEL_WINDOW is a posting of its CANCEL record (R27). -/
theorem cancelWindow_posts (s : State) (src : Src) (tag epoch : BitVec 16) (acc : Accepts s.chip src 0x4010 1 32) :
    Effect (.cancelWindow src tag epoch) s ((s.chip.postWindow (srcMaster src) (cancelRecord tag.toNat epoch.toNat)).answerWrite
      src 0x4010 1 (bytesLE 32 (cancelRecord tag.toNat epoch.toNat)) 0) :=
  congrArg (fun c => Host.Outcome.next (s.done c)) (s.chip.dictCmd_posts src _ _ acc (by rw [postRec_cancelRecord]))

/-- A CANCEL of a pending OPEN window that is not in effect removes the windows of its tag, and keeps ACCEPTED for the master (R27). -/
theorem Chip.postWindow_cancels_open (s : Chip) (m : Nat) (tag epoch : BitVec 16) (w : Window) (service : s.mode.current = .service)
    (locked : s.tb.state = .locked) (now : epoch.toNat = s.tb.epoch)
    (found : s.win.pending.find? (fun w => decide (w.tag = tag.toNat)) = some w) (opn : w.cls = .opn) (waiting : w.active = false) :
    s.postWindow m (cancelRecord tag.toNat epoch.toNat)
      = (s.dropWindow tag.toNat).refreshFence.setResult m
          (resultWord (Post.accepted, 0xFF, 0) tag.toNat (s.dropWindow tag.toNat).refreshFence.win.pending.length) := by
  have same : w.tag = tag.toNat := by simpa using List.find?_some found
  have loud : w.cls ≠ .quiet := by simp [opn]
  have single : w.cls ≠ .burst := by simp [opn]
  rw [s.postWindow_cancelRecord m tag epoch w found (s.decidePost_cancelRecord tag epoch w service locked now found loud),
    s.cancelOne_waiting w single waiting, same]

end Sys2Proof.Machine

open Sys2Proof Sys2Proof.Machine

/-- Settles O3: each path leads to `Chip.postWindow`, whose effect follows from the decision; a Hopper channel's posting is a violation. -/
theorem postingDecidesAndKeepsTheResult : Obligations.PostingDecidesAndKeepsTheResult := by
  unfold Obligations.PostingDecidesAndKeepsTheResult
  refine ⟨?accepted, ?refused, ?aperture, ?cancel, ?hopper, ?reserved⟩
  case accepted =>
    intro s src v acc zero window ok
    rw [← s.chip.postWindow_accepted (srcMaster src) v.toNat window ok]
    exact windowsPost_posts s src v acc zero
  case refused =>
    intro s src v acc zero no
    rw [← s.chip.postWindow_refused (srcMaster src) v.toNat no]
    exact windowsPost_posts s src v acc zero
  case aperture =>
    intro s h d serving active sound may len window ok
    rw [← s.chip.postWindow_accepted h (natLE d) window ok]
    exact timelineApertureWrite_cxl_posts s h d serving active sound may len
  case cancel =>
    intro s src tag epoch w acc service locked now found opn waiting
    have posted := s.chip.postWindow_cancels_open (srcMaster src) tag epoch w service locked now found opn waiting
    refine ⟨_, cancelWindow_posts s src tag epoch acc, ?_⟩
    rw [posted]
    have dropped : Frame [.win] (s.chip.dropWindow tag.toNat).refreshFence s.chip :=
      (Frame.set_win (by decide) _ _).trans (Frame.set_win (by decide) _ _)
    exact ⟨rfl, Chip.resultOf_setResult _ _ _, (Chip.setResult_win_only _ _ _).trans dropped⟩
  case hopper =>
    intro s ch off d
    obtain ⟨win, sticky, frame⟩ := s.chip.postViolation_hopper ch
    refine ⟨s.chip.postViolation (0x20 + ch), rfl, ?_, ?_, sticky, frame⟩
    · rw [win, Chip.pending_setResult]
    · rw [Chip.resultOf, win]
      exact Chip.resultOf_setResult _ _ _
  case reserved =>
    intro s src v acc reserved
    exact congrArg (fun c => Host.Outcome.next (s.done c)) (s.chip.dictCmd_post_reserved src _ _ acc reserved)

end

section
/-!
PROOFS. Settling of a calm device (R38, R545), and the timebase (R8 to R16): what a valid frame of a pair does to TC, what a frame that
fails its CRC does, and how missed frames and the clock move the states.
-/
namespace Sys2Proof.Machine

/-! ### The effect of a command -/

/-- A command's effect may be named by any equal device. -/
theorem Effect.of_eq {i : Instr} {s : State} {c d : Chip} (run : Effect i s d) (same : d = c) : Effect i s c := same ▸ run

/-- Nothing follows what leads to a calm device. -/
theorem Chip.finish_of_calm (old c : Chip) (calm : c.calm = true) : Chip.finish old c = c := if_pos calm

/-- An effect on a calm device is the whole change. -/
theorem State.done_of_calm (s : State) (c : Chip) (calm : c.calm = true) : s.done c = { s with chip := c } := by
  rw [State.done, Chip.finish_of_calm s.chip c calm]

/-! ### A frame that follows its predecessor (R12, R13) -/

/-- The device once a second valid frame of a pair has come, before its value is applied: the rate is that of a timed interval, or else
the one held, or else that of 1 µs (R587; log entry 139). -/
def Chip.heard (s : Chip) (f e rate : Nat) (interval : Option Nat) : Chip :=
  { s with tb := { s.tb with
    prev := some (f, e), measuredKhz := interval.getD (if s.tb.measuredKhz = 0 then rate else s.tb.measuredKhz), clk := true
    misses := if s.tb.atDue then 0 else s.tb.misses, lastDue := if s.tb.atDue then some (s.tb.tc / 65536) else s.tb.lastDue } }

/-- What a pair does once its value is applied: its edge counts as met, and a drift of the rate raises source 3 (R12, R42). -/
def Chip.pairApplied (u : Chip) : Chip :=
  let v : Chip := { u with tb := { u.tb with lastDue := some (u.tb.tc / 65536) } }
  if v.rateDrift then v.raise 3 else v

/-- A valid frame leads to `goodFrame` (R12). -/
theorem Chip.syncFrame_valid (s : Chip) (f : BitVec 112) (rate : Nat) (interval : Option Nat) (valid : frameValid f rate = true) :
    s.syncFrame f rate interval = s.goodFrame (frameTc f) (frameEpoch f) rate interval := by
  obtain ⟨-, crc, -, low, high⟩ := of_decide_eq_true valid
  simp only [Chip.syncFrame, crc, valid, ne_eq, not_true_eq_false, if_false, if_true]
  rw [if_neg (by omega)]

/-- The second frame of a pair applies the pair's value (R12, R13). -/
theorem Chip.goodFrame_pair (s : Chip) (f e rate : Nat) (interval : Option Nat) (low : 65536 ≤ f) (high : f < 2 ^ 64)
    (prev : s.tb.prev = some (f - 65536, e)) (timed : interval ≠ some 0) :
    s.goodFrame f e rate interval
      = ((s.heard f e rate interval).applyPair ((f + 111) % 2 ^ 64) e).pairApplied := by
  have pair : decide (s.tb.prev = some ((f + 18446744073709486080) % 18446744073709551616, e)) = true := by
    have before : (f + 18446744073709486080) % 18446744073709551616 = f - 65536 := by omega
    rw [prev, before, decide_eq_true rfl]
  unfold Chip.goodFrame
  dsimp only
  rw [pair]
  simp only [Bool.true_and, decide_eq_true_eq, prev]
  cases interval with
  | none => rfl
  | some k =>
    have k0 : k ≠ 0 := fun z => timed (congrArg some z)
    simp only [if_neg k0]
    rfl

/-- The field tc of a frame has 64 bits (R9). -/
theorem frameTc_lt (f : BitVec 112) : frameTc f < 2 ^ 64 := by
  unfold frameTc
  rw [bitsOf_eq]
  exact Nat.mod_lt _ (by decide)

/-- SYNC: the second valid frame of a pair applies its value (R12, R13). -/
theorem Chip.syncFrame_pair (s : Chip) (f : BitVec 112) (rate : Nat) (interval : Option Nat) (valid : frameValid f rate = true)
    (low : 65536 ≤ frameTc f) (prev : s.tb.prev = some (frameTc f - 65536, frameEpoch f)) (timed : interval ≠ some 0) :
    s.syncFrame f rate interval
      = ((s.heard (frameTc f) (frameEpoch f) rate interval).applyPair ((frameTc f + 111) % 2 ^ 64) (frameEpoch f)).pairApplied := by
  rw [s.syncFrame_valid f rate interval valid]
  exact s.goodFrame_pair _ _ _ _ low (frameTc_lt f) prev timed

/-- Whether or not the rate has drifted, the timebase keeps what the pair gave it, and only the fault collector's parts may change. -/
theorem Chip.pairApplied_facts (u : Chip) : u.pairApplied.tb = { u.tb with lastDue := some (u.tb.tc / 65536) }
    ∧ Frame [.tb, .fault, .heads, .field] u.pairApplied u := by
  have set : Frame [.tb, .fault, .heads, .field] ({ u with tb := { u.tb with lastDue := some (u.tb.tc / 65536) } } : Chip) u :=
    Frame.set_tb (by decide) _ _
  unfold Chip.pairApplied
  dsimp only
  split
  · have raised := Chip.raise_eq ({ u with tb := { u.tb with lastDue := some (u.tb.tc / 65536) } } : Chip) 3 0xFF 0 .none [0, 1, 2, 3]
    exact ⟨raised.frame .tb (by decide), (raised.frame.mono (by decide)).trans set⟩
  · exact ⟨rfl, set⟩

/-- Without a drift only the timebase changes. -/
theorem Chip.pairApplied_steady (u : Chip) (steady : u.tb.lockKhz = u.tb.measuredKhz) :
    u.pairApplied = { u with tb := { u.tb with lastDue := some (u.tb.tc / 65536) } } := by
  unfold Chip.pairApplied
  dsimp only
  rw [if_neg]
  simp [Chip.rateDrift, steady]

/-! ### The value of a pair (R13, R16) -/

/-- While UNLOCKED, the value is taken, and the unit locks. -/
theorem Chip.applyPair_unlocked (s : Chip) (v e : Nat) (unlocked : s.tb.state = .unlocked) :
    s.applyPair v e = { s with tb := { s.tb.lock with tc := v, epoch := e } } := if_pos unlocked

/-- Without a pending window no edge acts. -/
theorem Chip.passEdges_none (s : Chip) (none : s.win.pending = []) : s.passEdges = s := by
  simp [Chip.passEdges, none, byStart]

/-- A value ahead by at most 2^32 is taken at once, and counted. -/
theorem Chip.applyPair_ahead (s : Chip) (v e : Nat) (locked : s.tb.state = .locked) (same : e = s.tb.epoch)
    (less : s.tb.tc < v) (near : v - s.tb.tc ≤ 2 ^ 32)
    (none : s.win.pending = []) :
    s.applyPair v e = { s with tb := { s.tb.lock with tc := v, realigns := s.tb.realigns + 1 } } := by
  have apart : v ≠ s.tb.tc := by omega
  simp only [Chip.applyPair, locked, same, reduceCtorEq, if_false, true_and, apart]
  rw [if_pos ⟨less, near⟩]
  exact Chip.passEdges_none _ none

/-- A value behind by at most 2^20 starts a backward slew of the difference. -/
theorem Chip.applyPair_behind (s : Chip) (v e : Nat) (locked : s.tb.state = .locked) (same : e = s.tb.epoch)
    (less : v < s.tb.tc) (near : s.tb.tc - v ≤ 2 ^ 20) :
    s.applyPair v e = { s with tb := { s.tb with
      misses := 0, realigns := if s.tb.slewing then s.tb.realigns else s.tb.realigns + 1, ahead := s.tb.tc - v, slewing := true
      edge := if s.tb.slewing then s.tb.edge else 0 } } := by
  have apart : v ≠ s.tb.tc := by omega
  simp only [Chip.applyPair, locked, same, reduceCtorEq, if_false, true_and, apart]
  rw [if_neg (by omega), if_pos ⟨less, near⟩]

/-- While UNLOCKED no frame is due. -/
theorem Chip.missFrame_unlocked (s : Chip) (unlocked : s.tb.state = .unlocked) : s.missFrame = s := by
  simp [Chip.missFrame, Timebase.atDue, unlocked]

/-- While UNLOCKED, the loss of the clock raises nothing. -/
theorem Chip.clkLost_unlocked (s : Chip) (unlocked : s.tb.state = .unlocked) :
    s.clkLost = { s with tb := { s.tb with clk := false, prev := none } } := by
  simp [Chip.clkLost, unlocked]

/-- A frame that fails its CRC while UNLOCKED is counted and ends the pair, and a rate outside its limits loses the clock (R12, R14, R15). -/
theorem Chip.syncFrame_badCrc (s : Chip) (f : BitVec 112) (rate : Nat) (interval : Option Nat) (bad : frameCrc f ≠ frameCrcOf f)
    (unlocked : s.tb.state = .unlocked) :
    s.syncFrame f rate interval = { s with tb := { s.tb with
      crcErrors := s.tb.crcErrors + 1, prev := none, clk := s.tb.clk && decide (49000 ≤ rate ∧ rate ≤ 408000) } } := by
  have invalid : ¬ frameValid f rate = true := by simp [frameValid, bad]
  unfold Chip.syncFrame
  dsimp only
  rw [if_neg invalid, if_pos bad]
  by_cases lost : rate < 49000 ∨ 408000 < rate
  · have out : decide (49000 ≤ rate ∧ rate ≤ 408000) = false := decide_eq_false (by omega)
    rw [if_pos lost, Chip.clkLost_unlocked { s with tb := { s.tb with crcErrors := s.tb.crcErrors + 1 } } unlocked, out, Bool.and_false]
    exact Chip.missFrame_unlocked { s with tb := { s.tb with crcErrors := s.tb.crcErrors + 1, clk := false, prev := none } } unlocked
  · have within : decide (49000 ≤ rate ∧ rate ≤ 408000) = true := decide_eq_true (by omega)
    rw [if_neg lost, within, Bool.and_true]
    exact Chip.missFrame_unlocked { s with tb := { s.tb with crcErrors := s.tb.crcErrors + 1, prev := none } } unlocked

/-! ### Missed frames, the clock and the end of a slew (R12 to R16) -/

/-- A source raised as the timebase takes a value: the timebase has it, the source's bit is set, and the collector's parts may differ. -/
theorem Chip.raise_with_tb (s : Chip) (t : Timebase) (n : Nat) :
    (Chip.raise { s with tb := t } n).tb = t ∧ (Chip.raise { s with tb := t } n).sticky n = true
    ∧ Frame [.tb, .fault, .heads, .field] (Chip.raise { s with tb := t } n) s := by
  have raised := Chip.raise_eq { s with tb := t } n 0xFF 0 .none [0, 1, 2, 3]
  exact ⟨raised.frame .tb (by decide), Chip.raise_sticky _ _ _ _ _ _, (raised.frame.mono (by decide)).trans (Frame.set_tb (by decide) s t)⟩

/-- A due frame that has not come counts, and past the limit a LOCKED unit enters HOLDOVER (R12, R14). -/
theorem Chip.missFrame_due (s : Chip) (runs : s.tb.state ≠ .unlocked) (edge : s.tb.tc % 65536 = 111)
    (new : s.tb.lastDue ≠ some (s.tb.tc / 65536)) :
    s.missFrame = if s.tb.state = .locked ∧ s.cfg Obj.timebaseMissLimit < s.tb.misses + 1
      then Chip.raise { s with tb := { s.tb with misses := s.tb.misses + 1, lastDue := some (s.tb.tc / 65536), state := .holdover } } 0
      else { s with tb := { s.tb with misses := s.tb.misses + 1, lastDue := some (s.tb.tc / 65536) } } := by
  have due : s.tb.atDue = true := decide_eq_true ⟨runs, edge⟩
  unfold Chip.missFrame
  dsimp only
  rw [if_neg (by simp [due, new])]
  rfl

/-- At an edge at which no frame is due, none is missed. -/
theorem Chip.missFrame_early (s : Chip) (early : s.tb.tc % 65536 ≠ 111 ∨ s.tb.state = .unlocked) : s.missFrame = s := by
  have due : s.tb.atDue = false := decide_eq_false fun ⟨runs, edge⟩ => early.elim (· edge) runs
  unfold Chip.missFrame
  dsimp only
  rw [if_pos (Or.inl (by rw [due]; rfl))]

/-- A LOCKED unit that loses TB_CLK enters HOLDOVER (R14, R15). -/
theorem Chip.clkLost_locked (s : Chip) (locked : s.tb.state = .locked) :
    s.clkLost = Chip.raise { s with tb := { s.tb with state := .holdover, clk := false, prev := none } } 0 := if_pos locked

/-- The lock of a LOCKED unit whose values agree ends its slew. -/
theorem Timebase.lock_agreed (t : Timebase) (locked : t.state = .locked) (agree : t.ahead = 0) :
    t.lock = { t with slewing := false, edge := 0, misses := 0 } := by
  simp [Timebase.lock, locked, agree]

end Sys2Proof.Machine

open Sys2Proof Sys2Proof.Machine

/-- Settles O54: finishing tests first whether the device is calm. -/
theorem calmDeviceSettlesAtOnce : Obligations.CalmDeviceSettlesAtOnce := by
  unfold Obligations.CalmDeviceSettlesAtOnce
  refine ⟨Chip.finish_of_calm, fun i s c run calm => ?_⟩
  rw [run, s.done_of_calm c calm]

/-- Settles O1: the second frame of a pair applies its value, by the state and by where TC stands. -/
theorem framePairsSetTheTimebase : Obligations.FramePairsSetTheTimebase := by
  unfold Obligations.FramePairsSetTheTimebase
  refine ⟨?locks, ?ahead, ?behind, ?badCrc⟩
  case locks =>
    intro s f rate interval valid unlocked low prev timed
    have run := s.chip.syncFrame_pair f rate interval valid low prev timed
    rw [(s.chip.heard _ _ _ _).applyPair_unlocked _ _ unlocked, Chip.pairApplied_steady] at run
    · exact ⟨_, Effect.of_eq rfl run, rfl, rfl, rfl, rfl, rfl, Frame.set_tb (by decide) s.chip _⟩
    · simp [Timebase.lock, Chip.heard, unlocked]
  case ahead =>
    intro s f rate valid locked low prev epoch less near noWindow
    have run := s.chip.syncFrame_pair f rate none valid low prev (by simp)
    rw [(s.chip.heard _ _ _ _).applyPair_ahead _ _ locked epoch less near noWindow] at run
    obtain ⟨tb, frame⟩ := Chip.pairApplied_facts _
    refine ⟨_, Effect.of_eq rfl run, ?_, ?_, ?_, ?_, frame.trans (Frame.set_tb (by decide) s.chip _)⟩ <;> rw [tb] <;> rfl
  case behind =>
    intro s f rate valid locked low prev epoch less near noSlew
    have run := s.chip.syncFrame_pair f rate none valid low prev (by simp)
    rw [(s.chip.heard _ _ _ _).applyPair_behind _ _ locked epoch less near] at run
    obtain ⟨tb, frame⟩ := Chip.pairApplied_facts _
    refine ⟨_, Effect.of_eq rfl run, ?_, ?_, ?_, frame.trans (Frame.set_tb (by decide) s.chip _)⟩ <;> rw [tb]
    exacts [rfl, locked, rfl]
  case badCrc =>
    intro s f rate interval bad unlocked
    exact Effect.of_eq rfl (s.chip.syncFrame_badCrc f rate interval bad unlocked)

/-- Settles O2: a missed frame counts at its due edge alone, and each change of state raises its source. -/
theorem timebaseStatesFollowMissesAndTheClock : Obligations.TimebaseStatesFollowMissesAndTheClock := by
  unfold Obligations.TimebaseStatesFollowMissesAndTheClock
  refine ⟨?counts, ?holdover, ?lost, fun s => rfl, ?expires, ?slewed, ?early, ?apart⟩
  case counts =>
    intro s locked edge new few
    refine Effect.of_eq rfl ((s.chip.missFrame_due (by simp [locked]) edge new).trans (if_neg ?_))
    exact fun ⟨_, many⟩ => absurd many (by omega)
  case holdover =>
    intro s locked edge new many
    obtain ⟨tb, raised, frame⟩ := s.chip.raise_with_tb
      { s.chip.tb with misses := s.chip.tb.misses + 1, lastDue := some (s.chip.tb.tc / 65536), state := .holdover } 0
    refine ⟨_, Effect.of_eq rfl ((s.chip.missFrame_due (by simp [locked]) edge new).trans (if_pos ⟨locked, many⟩)), ?_, ?_, raised, frame⟩
      <;> rw [tb]
  case lost =>
    intro s locked
    exact ⟨_, Effect.of_eq rfl (s.chip.clkLost_locked locked), s.chip.raise_with_tb _ 0⟩
  case expires =>
    intro s holds
    exact ⟨_, Effect.of_eq rfl (if_pos holds), s.chip.raise_with_tb { s.chip.tb with state := .expired } 1⟩
  case slewed =>
    intro s slewing agree locked
    refine Effect.of_eq rfl ((if_pos ⟨slewing, agree, by simp [locked]⟩).trans ?_)
    rw [s.chip.tb.lock_agreed locked agree]
  case early =>
    intro s early
    exact Effect.of_eq rfl (s.chip.missFrame_early early)
  case apart =>
    intro s differ
    exact Effect.of_eq rfl (if_neg fun ⟨_, agree, _⟩ => differ agree)

end

section
/-!
PROOFS. A step on an empty queue is one rising edge of TB_CLK (R8, R12, R16, R17, R41, R351; log entry 3): what the edge makes of TC, what of
the windows, and what of the debts.
-/
namespace Sys2Proof.Machine

/-! ### The step -/

/-- On an empty queue a step is one edge, and at most one ALARM goes out after it (R475). -/
theorem step_empty (s : State) (empty : s.pending = []) : step s = .next (s.done s.chip.tick.sendAlarm) := by
  unfold step
  rw [empty]
  rfl

/-- An ALARM that goes out is the field port's own matter. -/
theorem Chip.sendAlarm_frame (s : Chip) : Frame [.field] s.sendAlarm s := by
  unfold Chip.sendAlarm
  split
  · exact Frame.refl _ _
  · split
    · exact Frame.refl _ _
    · exact (Frame.set_field (by decide) _ _).trans (Frame.set_field (by decide) s _)

/-- What an edge makes of the device outside the field port is what the step makes of it. -/
theorem Chip.sendAlarm_after {l : List Part} {t s : Chip} (frame : Frame l t s) (field : Part.field ∈ l) : Frame l t.sendAlarm s :=
  (t.sendAlarm_frame.mono (by simpa using field)).trans frame

/-! ### TC over one edge (R8, R16) -/

/-- Outside a slew TC advances by one. -/
theorem Timebase.edgeOn_free (t : Timebase) (runs : t.state ≠ .unlocked) (free : t.slewing = false) (agree : t.ahead = 0) :
    t.edgeOn = { t with tc := (t.tc + 1) % 2 ^ 64, edge := 0 } := by
  simp [Timebase.edgeOn, runs, free, agree]

/-- In a backward slew TC advances on fifteen edges of sixteen. -/
theorem Timebase.edgeOn_slewing (t : Timebase) (runs : t.state ≠ .unlocked) (slewing : t.slewing = true) (differ : t.ahead ≠ 0)
    (before : t.edge ≠ 15) : t.edgeOn = { t with tc := (t.tc + 1) % 2 ^ 64, edge := t.edge + 1 } := by
  simp [Timebase.edgeOn, runs, slewing, differ, before]

/-- On the sixteenth TC holds, and the lead falls by one. -/
theorem Timebase.edgeOn_holds (t : Timebase) (runs : t.state ≠ .unlocked) (differ : t.ahead ≠ 0) (last : t.edge = 15) :
    t.edgeOn = { t with ahead := t.ahead - 1, edge := 0 } := by
  simp [Timebase.edgeOn, runs, differ, last]

/-- At the first edge after a slew the unit locks. -/
theorem Timebase.edgeOn_locks (t : Timebase) (runs : t.state ≠ .unlocked) (slewing : t.slewing = true) (agree : t.ahead = 0) :
    t.edgeOn = { t.lock with tc := (t.tc + 1) % 2 ^ 64, edge := 0 } := by
  simp [Timebase.edgeOn, runs, slewing, agree, Timebase.lock]

/-- While UNLOCKED nothing advances. -/
theorem Timebase.edgeOn_unlocked (t : Timebase) (unlocked : t.state = .unlocked) : t.edgeOn = t := if_pos unlocked

/-- No edge changes the rate measured. -/
theorem Timebase.edgeOn_measuredKhz (t : Timebase) : t.edgeOn.measuredKhz = t.measuredKhz := by
  unfold Timebase.edgeOn
  split
  · rfl
  · split
    · rfl
    · dsimp only
      split <;> rfl

/-! ### The device over one edge -/

/-- The device after TC has passed one edge, before what the edge reaches acts. -/
def Chip.edgePassed (c : Chip) : Chip := { c with cnt := { c.cnt with clocks := c.cnt.clocks + 1 }, tb := c.tb.edgeOn }

/-- No frame is missed at this edge: none is due, or the one that was has been counted (R12). -/
def Chip.noMiss (c : Chip) : Prop := c.tb.atDue = false ∨ c.tb.lastDue = some (c.tb.tc / 65536)

/-- The debts of the tiers do not read what the edge has changed (R351). -/
theorem Chip.edgePassed_tierTicks (c : Chip) (r den : Nat) : c.edgePassed.tierTicks r den = (c.tierTicks r den).edgePassed := by
  have one : ∀ (d : Chip) (t : Nat), d.edgePassed.tierTick r den t = (d.tierTick r den t).edgePassed := fun _ _ => rfl
  simp only [Chip.tierTicks, List.foldl_cons, List.foldl_nil, one]

/-- Nor do the rates of repayment (R41). -/
theorem Chip.edgePassed_repayRate (c : Chip) (k : Nat) : c.edgePassed.repayRate k = c.repayRate k := rfl

/-- Without a pending window an edge moves TC and counts a clock, and the rest of it is the debts' and the allowance's (R41, R495). -/
theorem Chip.tick_noWindow (c : Chip) (runs : c.tb.state ≠ .unlocked) (met : c.noMiss) (quiet : c.win.pending = []) :
    c.tick.win.pending = [] ∧ Frame [.lauter, .win, .integ, .sb] c.tick c.edgePassed := by
  obtain ⟨p, at', -, frame, same⟩ := c.tick_facts c.edgePassed runs met rfl
  rw [if_pos (by rw [show c.edgePassed.win.pending = [] from quiet]; rfl)] at at'
  subst at'
  exact ⟨same.trans quiet, frame⟩

/-- Passing the edge changes the timebase and counts the clock. -/
theorem Chip.edgePassed_frame (c : Chip) : Frame [.tb, .cnt] c.edgePassed c :=
  (Frame.set_tb (by decide) { c with cnt := { c.cnt with clocks := c.cnt.clocks + 1 } } _).trans (Frame.set_cnt (by decide) c _)

/-- A step on an empty queue without a pending window. -/
theorem step_noWindow (s : State) (empty : s.pending = []) (runs : s.chip.tb.state ≠ .unlocked) (met : s.chip.noMiss)
    (quiet : s.chip.win.pending = []) :
    ∃ t : Chip, step s = .next (s.done t) ∧ t.tb = s.chip.tb.edgeOn ∧ t.cnt = { s.chip.cnt with clocks := s.chip.cnt.clocks + 1 }
      ∧ t.win.pending = [] ∧ Frame [.tb, .cnt, .field, .lauter, .win, .integ, .sb] t s.chip := by
  obtain ⟨none, frame⟩ := s.chip.tick_noWindow runs met quiet
  have alarm := s.chip.tick.sendAlarm_frame
  refine ⟨_, step_empty s empty, (alarm .tb (by decide)).trans (frame .tb (by decide)), (alarm .cnt (by decide)).trans (frame .cnt (by decide)),
    ?_, Chip.sendAlarm_after ((frame.mono (by decide)).trans (s.chip.edgePassed_frame.mono (by decide))) (by decide)⟩
  rw [show s.chip.tick.sendAlarm.win = s.chip.tick.win from alarm .win (by decide), none]

/-- With neither a pending window nor a copy in the last 60 s, an edge does the debts and then the allowance. -/
theorem Chip.tick_debts (c : Chip) (runs : c.tb.state ≠ .unlocked) (met : c.noMiss) (quiet : c.win.pending = [])
    (still : c.lauter.copied = []) :
    c.tick = ([0, 1, 2, 3, 4].foldl (fun s k => s.debtTick k) c.edgePassed).allowTick := by
  obtain ⟨p, at', run, -⟩ := c.tick_facts c.edgePassed runs met rfl
  rw [if_pos (by rw [show c.edgePassed.win.pending = [] from quiet]; rfl)] at at'
  subst at'
  rwa [if_pos (by rw [show c.edgePassed.lauter.copied = [] from still]; rfl)] at run

/-- The allowance is Seedbank's. -/
theorem Chip.allowTick_frame (c : Chip) : Frame [.sb] c.allowTick c := by
  unfold Chip.allowTick
  dsimp only
  split
  · exact Frame.refl _ _
  · exact Frame.set_sb (by decide) _ _

/-- The debts of a step without a pending window and without a copy in the last 60 s (R41, R351). -/
theorem step_debts (s : State) (empty : s.pending = []) (runs : s.chip.tb.state ≠ .unlocked) (met : s.chip.noMiss)
    (quiet : s.chip.win.pending = []) (still : s.chip.lauter.copied = []) (rated : s.chip.tb.measuredKhz ≠ 0) :
    ∃ t : Chip, step s = .next (s.done t)
      ∧ (∀ k : Nat, k = 0 ∨ k = 2 ∨ k = 3 ∨ k = 4 → (Tab.get 0 t.win.debtLevel k, Tab.get 0 t.win.debtRest k)
        = debtStep (Tab.get 0 s.chip.win.debtLevel k) (Tab.get 0 s.chip.win.debtRest k) (Tab.get 0 s.chip.win.debtAccrual k)
          (s.chip.repayRate k) (1000 * s.chip.tb.measuredKhz))
      ∧ t.integ = (s.chip.tierTicks (s.chip.repayRate 1) (1000 * s.chip.tb.measuredKhz)).integ
      ∧ Tab.get 0 t.win.debtLevel 1 = t.scrubLevel
      ∧ Frame [.tb, .cnt, .field, .lauter, .win, .integ, .sb] t s.chip := by
  have rate : s.chip.edgePassed.tb.measuredKhz = s.chip.tb.measuredKhz := s.chip.tb.edgeOn_measuredKhz
  obtain ⟨w, i, debts, -, tiers, scrub, classes⟩ := s.chip.edgePassed.debts_facts (by rwa [rate])
  rw [rate, Chip.edgePassed_repayRate, Chip.edgePassed_tierTicks] at tiers scrub
  simp only [rate, Chip.edgePassed_repayRate] at classes
  have run := s.chip.tick_debts runs met quiet still
  rw [debts] at run
  obtain ⟨-, edge⟩ := s.chip.tick_noWindow runs met quiet
  have after : Frame [.field, .sb] s.chip.tick.sendAlarm { s.chip.edgePassed with win := w, integ := i } := by
    rw [run]
    exact (Chip.sendAlarm_frame _).mono (by decide) |>.trans ((Chip.allowTick_frame _).mono (by decide))
  have win : s.chip.tick.sendAlarm.win = w := after .win (by decide)
  have integ : s.chip.tick.sendAlarm.integ = i := after .integ (by decide)
  refine ⟨_, step_empty s empty, ?_, ?_, ?_,
    Chip.sendAlarm_after ((edge.mono (by decide)).trans (s.chip.edgePassed_frame.mono (by decide))) (by decide)⟩
  · rw [win]
    exact classes
  · rw [integ]
    exact tiers
  · rw [win, scrub]
    unfold Chip.scrubLevel Chip.tierDebt
    rw [integ, tiers]

/-- At an edge where a due frame is missed within the limit, the edge goes on with the miss counted (R12, R14). -/
theorem Chip.tick_missed (c : Chip) (due : c.tb.atDue = true) (new : c.tb.lastDue ≠ some (c.tb.tc / 65536))
    (few : c.tb.misses + 1 ≤ c.cfg Obj.timebaseMissLimit) :
    c.tick = Chip.tick { c with tb := { c.tb with misses := c.tb.misses + 1, lastDue := some (c.tb.tc / 65536) } } := by
  obtain ⟨runs, edge⟩ := of_decide_eq_true due
  have counted := Chip.missFrame_due { c with cnt := { c.cnt with clocks := c.cnt.clocks + 1 } } runs edge new
  rw [if_neg fun ⟨_, many⟩ => absurd (show c.cfg Obj.timebaseMissLimit < c.tb.misses + 1 from many) (by omega)] at counted
  have met : Chip.missFrame { c with
      cnt := { c.cnt with clocks := c.cnt.clocks + 1 }
      tb := { c.tb with misses := c.tb.misses + 1, lastDue := some (c.tb.tc / 65536) } } = _ := if_pos (Or.inr rfl)
  rw [Chip.tick_eq, Chip.tick_eq, counted, met]

/-- While UNLOCKED an edge counts a clock, and no more. -/
theorem Chip.tick_unlocked (c : Chip) (unlocked : c.tb.state = .unlocked) :
    c.tick = { c with cnt := { c.cnt with clocks := c.cnt.clocks + 1 } } := by
  rw [Chip.tick_eq, Chip.missFrame_unlocked { c with cnt := { c.cnt with clocks := c.cnt.clocks + 1 } } unlocked, Chip.afterFrame,
    show ({ c with cnt := { c.cnt with clocks := c.cnt.clocks + 1 } } : Chip).tb.edgeOn = c.tb from c.tb.edgeOn_unlocked unlocked]
  exact if_pos unlocked

end Sys2Proof.Machine

open Sys2Proof Sys2Proof.Machine

/-- Settles O53: TC moves as `Timebase.edgeOn` says, the debts as `debtStep` says, and the windows as every edge that TC reaches acts. -/
theorem anEmptyQueueLetsOneCycleOfTcPass : Obligations.AnEmptyQueueLetsOneCycleOfTcPass := by
  unfold Obligations.AnEmptyQueueLetsOneCycleOfTcPass
  refine ⟨?free, ?slewing, ?holds, ?locks, ?classes, ?tiers, ?windows, ?missed, ?unlocked⟩
  case free =>
    intro s empty runs met quiet free agree
    rw [← s.chip.tb.edgeOn_free runs free agree]
    exact step_noWindow s empty runs met quiet
  case slewing =>
    intro s empty runs met quiet slewing differ before
    rw [← s.chip.tb.edgeOn_slewing runs slewing differ before]
    exact step_noWindow s empty runs met quiet
  case holds =>
    intro s empty runs met quiet differ last
    rw [← s.chip.tb.edgeOn_holds runs differ last]
    exact step_noWindow s empty runs met quiet
  case locks =>
    intro s empty runs met quiet slewing agree
    rw [← s.chip.tb.edgeOn_locks runs slewing agree]
    exact step_noWindow s empty runs met quiet
  case classes =>
    intro s k empty runs met quiet still rated which
    obtain ⟨t, run, classes, -, -, frame⟩ := step_debts s empty runs met quiet still rated
    exact ⟨t, run, classes k which, frame⟩
  case tiers =>
    intro s empty runs met quiet still rated
    obtain ⟨t, run, -, tiers, level, frame⟩ := step_debts s empty runs met quiet still rated
    exact ⟨t, run, tiers, level, frame⟩
  case windows =>
    intro s c empty runs met some at'
    obtain ⟨p, acts, -, frame, same⟩ := s.chip.tick_facts c runs met at'.symm
    have pending : c.win.pending = s.chip.win.pending := by rw [at']
    rw [if_neg (by rw [pending, List.isEmpty_iff]; exact some)] at acts
    subst acts
    have alarm := s.chip.tick.sendAlarm_frame
    refine ⟨_, step_empty s empty, ?_, Chip.sendAlarm_after (frame.mono (by decide)) (by decide)⟩
    rw [show s.chip.tick.sendAlarm.win = s.chip.tick.win from alarm .win (by decide), same]
  case missed =>
    intro s empty due new locked few quiet
    have run := step_empty s empty
    rw [s.chip.tick_missed due new few] at run
    generalize counted : ({ s.chip with tb := { s.chip.tb with misses := s.chip.tb.misses + 1, lastDue := some (s.chip.tb.tc / 65536) } } : Chip)
      = c at run
    have tb : c.tb = { s.chip.tb with misses := s.chip.tb.misses + 1, lastDue := some (s.chip.tb.tc / 65536) } := by rw [← counted]
    obtain ⟨-, frame⟩ := c.tick_noWindow (by rw [tb, locked]; simp) (Or.inr (by rw [tb])) (by rw [← counted]; exact quiet)
    have counts : Frame [.tb] c s.chip := counted ▸ Frame.set_tb (by decide) s.chip _
    refine ⟨_, run, ?_, Chip.sendAlarm_after ((frame.mono (by decide)).trans
      ((c.edgePassed_frame.mono (by decide)).trans (counts.mono (by decide)))) (by decide)⟩
    rw [show c.tick.sendAlarm.tb = c.tick.tb from c.tick.sendAlarm_frame .tb (by decide), ← tb]
    exact frame .tb (by decide)
  case unlocked =>
    intro s empty unlocked
    have run := step_empty s empty
    rw [s.chip.tick_unlocked unlocked] at run
    have alarm := Chip.sendAlarm_frame { s.chip with cnt := { s.chip.cnt with clocks := s.chip.cnt.clocks + 1 } }
    exact ⟨_, run, alarm .tb (by decide), alarm .cnt (by decide),
      (alarm.mono (by decide)).trans (Frame.set_cnt (by decide) s.chip _)⟩

end

section
/-!
PROOFS. The edges of a pending window (R20, R29, R37, R45, R273): its fence, its prologue, its start, its end, and the retirement of a BARRIER.
-/
namespace Sys2Proof.Machine

/-! ### A fence and a prologue (R37) -/

/-- A pending BURST that waits with its fence passed puts the fence in effect. -/
theorem Chip.refreshFence_fenceOn (s : Chip) (w : Window) (mem : w ∈ s.win.pending) (burst : w.cls = .burst) (waiting : w.active = false)
    (fenced : w.fenced = true) : s.refreshFence.win.fenceOn = true :=
  List.any_eq_true.mpr ⟨w, List.mem_filter.mpr ⟨mem, by simp [burst, waiting]⟩, fenced⟩

/-- So does one with its prologue passed for the prologue. -/
theorem Chip.refreshFence_prologueOn (s : Chip) (w : Window) (mem : w ∈ s.win.pending) (burst : w.cls = .burst) (waiting : w.active = false)
    (passed : w.prologued = true) : s.refreshFence.win.prologueOn = true :=
  List.any_eq_true.mpr ⟨w, List.mem_filter.mpr ⟨mem, by simp [burst, waiting]⟩, passed⟩

/-- Issuing what is owed leaves no channel that is not frozen with a debt of refreshes (R273). -/
theorem Chip.settleRefresh_owes_none (s : Chip) : ∀ e ∈ (s.settleRefresh false).dram.ddr, e.2.freeze = 0 → 0 ≤ e.2.balance := by
  intro e mem
  obtain ⟨mem, -⟩ := List.mem_filter.mp mem
  obtain ⟨⟨n, x⟩, -, rfl⟩ := List.mem_map.mp mem
  by_cases frozen : x.freeze ≠ 0
  · simp [frozen]
  · simp [frozen]

/-- Changing the pending window that a tag finds keeps the number of windows, and what it becomes is pending. -/
theorem Chip.modWindow_facts (s : Chip) (tag : Nat) (f : Window → Window) (w : Window)
    (found : s.win.pending.find? (fun w => decide (w.tag = tag)) = some w) :
    f w ∈ (s.modWindow tag f).win.pending ∧ (s.modWindow tag f).win.pending.length = s.win.pending.length
    ∧ Frame [.win] (s.modWindow tag f) s :=
  let ⟨mem, len⟩ := modFirst_find _ _ f w found
  ⟨mem, len, Frame.set_win (by decide) s _⟩

/-- WRITE_FENCE at its point is the window's fence (R37). -/
theorem Chip.writeFence_due (s : Chip) (tag : Nat) (w : Window) (found : s.win.pending.find? (fun w => decide (w.tag = tag)) = some w)
    (waiting : w.active = false) (unfenced : w.fenced = false) (burst : w.cls = .burst) (first : s.follows w = false)
    (point : s.passedBy w.start (w.fence + 2) = true) : s.writeFence tag = s.fenceWindow tag := by
  unfold Chip.writeFence
  rw [s.waiting_of_find tag w found waiting]
  exact if_pos ⟨burst, by simp [first], by simp [unfenced], point⟩

/-- PROLOGUE at its point is the window's prologue (R37). -/
theorem Chip.windowPrologue_due (s : Chip) (tag : Nat) (w : Window) (found : s.win.pending.find? (fun w => decide (w.tag = tag)) = some w)
    (waiting : w.active = false) (before : w.prologued = false) (burst : w.cls = .burst) (first : s.follows w = false)
    (point : s.passedBy w.start (w.prologue + 2) = true) : s.windowPrologue tag = s.prologueWindow tag := by
  unfold Chip.windowPrologue
  rw [s.waiting_of_find tag w found waiting]
  exact if_pos ⟨burst, by simp [first], by simp [before], point⟩

/-! ### Start and end (R20, R37, R45) -/

/-- WINDOW_START at its edge, with no window in effect, makes the window active (R37). -/
theorem Chip.windowStart_due (s : Chip) (tag : Nat) (w : Window) (found : s.win.pending.find? (fun w => decide (w.tag = tag)) = some w)
    (waiting : w.active = false) (span : w.cls ≠ .barrier) (silent : w.evtStart = false) (point : s.passedBy w.start 2 = true)
    (before : s.tb.tc < w.stop) (free : s.window = none) :
    s.windowStart tag = (s.modWindow tag (fun w => { w with active := true })).refreshFence := by
  have same : w.tag = tag := by simpa using List.find?_some found
  unfold Chip.windowStart
  rw [s.waiting_of_find tag w found waiting]
  dsimp only
  rw [if_neg span, if_pos ⟨point, before⟩, free]
  simp only [Chip.startWindow, silent, same, Bool.false_eq_true, if_false]

/-- The window that WINDOW_END finds carries its tag. -/
theorem Chip.tag_of_active_find (s : Chip) (tag : Nat) (w : Window)
    (found : s.win.pending.find? (fun w => decide (w.tag = tag) && w.active) = some w) : w.tag = tag := by
  have is := List.find?_some found
  simp only [Bool.and_eq_true, decide_eq_true_eq] at is
  exact is.1

/-- WINDOW_END at its edge ends the active window of the tag (R37). -/
theorem Chip.windowEnd_due (s : Chip) (tag : Nat) (w : Window)
    (found : s.win.pending.find? (fun w => decide (w.tag = tag) && w.active) = some w) (point : s.passedBy w.stop 2 = true) :
    s.windowEnd tag = s.endWindow w (s.followed w) := by
  unfold Chip.windowEnd
  rw [found]
  exact if_pos point

/-- The end of a window that is no BURST and asks for no pulse removes it, and no more. -/
theorem Chip.endWindow_plain (s : Chip) (w : Window) (stay : Bool) (plain : w.cls ≠ .burst) (silent : w.evtEnd = false) :
    s.endWindow w stay = s.dropWindow w.tag := by
  simp only [Chip.endWindow, if_neg plain, silent, Bool.false_eq_true, if_false]

/-- That of a BURST leaves the BURST too (R37, R45). -/
theorem Chip.endWindow_burst (s : Chip) (w : Window) (stay : Bool) (burst : w.cls = .burst) (silent : w.evtEnd = false) :
    s.endWindow w stay = (s.dropWindow w.tag).leaveBurst stay := by
  simp only [Chip.endWindow, if_pos burst, silent, Bool.false_eq_true, if_false]

/-- BARRIER_RETIRE of a BARRIER whose conditions hold and that asks for no pulse (R29). -/
theorem Chip.barrierRetire_clear (s : Chip) (tag : Nat) (w : Window) (found : s.win.pending.find? (fun w => decide (w.tag = tag)) = some w)
    (waiting : w.active = false) (barrier : w.cls = .barrier) (reached : w.start ≤ s.tb.tc) (noStart : w.evtStart = false)
    (noEnd : w.evtEnd = false) (clear : s.barrierClear w.start = true) :
    s.barrierRetire tag = { s.dropWindow tag with win := { (s.dropWindow tag).win with barriers := s.win.barriers + 1 } } := by
  unfold Chip.barrierRetire
  rw [s.waiting_of_find tag w found waiting]
  dsimp only
  rw [if_pos ⟨barrier, reached, clear⟩]
  simp only [noStart, noEnd, Bool.false_eq_true, false_and, if_false]
  rfl

end Sys2Proof.Machine

open Sys2Proof Sys2Proof.Machine

/-- Settles O4: each edge acts on the window that its tag finds, and on what R37 names for its class. -/
theorem windowEdgesTakeEffectOnTime : Obligations.WindowEdgesTakeEffectOnTime := by
  unfold Obligations.WindowEdgesTakeEffectOnTime
  refine ⟨?fence, ?prologue, ?start, ?plainEnd, ?burstEnd, ?retire⟩
  case fence =>
    intro s tag w found waiting unfenced burst first point
    obtain ⟨mem, len, frame⟩ := s.chip.modWindow_facts tag.toNat (fun w => { w with fenced := true }) w found
    exact ⟨_, Effect.of_eq rfl (s.chip.writeFence_due tag.toNat w found waiting unfenced burst first point),
      Chip.refreshFence_fenceOn _ _ mem burst waiting rfl, len, Chip.settleRefresh_owes_none _,
      (Frame.set_dram (by decide) _ _).trans ((Frame.set_win (by decide) _ _).trans (frame.mono (by decide)))⟩
  case prologue =>
    intro s tag w found waiting before burst first point
    obtain ⟨mem, len, frame⟩ := s.chip.modWindow_facts tag.toNat (fun w => { w with prologued := true }) w found
    exact ⟨_, Effect.of_eq rfl (s.chip.windowPrologue_due tag.toNat w found waiting before burst first point),
      Chip.refreshFence_prologueOn _ _ mem burst waiting rfl, len, rfl,
      (Frame.set_kiln (by decide) _ _).trans ((Frame.set_win (by decide) _ _).trans (frame.mono (by decide)))⟩
  case start =>
    intro s tag w found waiting span silent point before free
    obtain ⟨mem, len, frame⟩ := s.chip.modWindow_facts tag.toNat (fun w => { w with active := true }) w found
    exact ⟨_, Effect.of_eq rfl (s.chip.windowStart_due tag.toNat w found waiting span silent point before free), mem, len,
      (Frame.set_win (by decide) _ _).trans frame⟩
  case plainEnd =>
    intro s tag w found plain silent point
    refine Effect.of_eq rfl ((s.chip.windowEnd_due tag.toNat w found point).trans ?_)
    rw [s.chip.endWindow_plain w _ plain silent, s.chip.tag_of_active_find tag.toNat w found]
    rfl
  case burstEnd =>
    intro s tag w found burst silent point
    have run := (s.chip.windowEnd_due tag.toNat w found point).trans (s.chip.endWindow_burst w _ burst silent)
    rw [s.chip.tag_of_active_find tag.toNat w found] at run
    obtain ⟨frame, win⟩ := (s.chip.dropWindow tag.toNat).leaveBurst_facts (s.chip.followed w)
    refine ⟨_, Effect.of_eq rfl run, ?_, ?_, ?_, frame.trans (Frame.set_win (by decide) s.chip _)⟩ <;> rw [win] <;> rfl
  case retire =>
    intro s tag w found waiting barrier reached noStart noEnd clear
    exact Effect.of_eq rfl (s.chip.barrierRetire_clear tag.toNat w found waiting barrier reached noStart noEnd clear)

end

section
/-!
PROOFS. Scheduled operations (R38, R117), the debts of deferred work (R41, R44, R45, R351), and the accesses that wait for absorb space (R48).
-/
namespace Sys2Proof.Machine

/-! ### Scheduled operations (R38) -/

/-- The device with the operation at the front of its queue taken off. -/
def Chip.opTaken (s : Chip) (r : List SchedOp) : Chip := { s with win := { s.win with ops := r } }

/-- The device with no operation running. -/
def Chip.opFreed (s : Chip) : Chip := { s with win := { s.win with running := none } }

/-- SCHEDULED_OP_START of an operation that may start and whose conditions still hold starts it. -/
theorem Chip.scheduledStart_starts (s : Chip) (o : SchedOp) (r : List SchedOp) (front : s.win.ops = o :: r) (ready : s.opReady = true)
    (still : s.opStill o.kind = true) :
    s.scheduledStart = Chip.opBegin { s with win := { s.win with ops := r, running := some { o with since := s.tb.tc } } } o.kind := by
  have still' : (s.opTaken r).opStill o.kind = true := still
  unfold Chip.scheduledStart Chip.startOp
  rw [if_pos ready, front]
  exact if_pos still'

/-- One whose conditions no longer hold is dropped (log entry 157). -/
theorem Chip.scheduledStart_drops (s : Chip) (o : SchedOp) (r : List SchedOp) (front : s.win.ops = o :: r) (ready : s.opReady = true)
    (gone : s.opStill o.kind = false) : s.scheduledStart = s.opTaken r := by
  have gone' : ¬ (s.opTaken r).opStill o.kind = true := by
    rw [show (s.opTaken r).opStill o.kind = s.opStill o.kind from rfl, gone]
    exact Bool.false_ne_true
  unfold Chip.scheduledStart Chip.startOp
  rw [if_pos ready, front]
  exact if_neg gone'

/-- SCHEDULED_OP_END of the running operation goes on with its work and, that being done, frees the unit and applies it. -/
theorem Chip.scheduledEnd_applies (s : Chip) (o : SchedOp) (failed : Nat) (running : s.win.running = some o)
    (done : (s.opWork o.kind).opDone o.kind = true) : s.scheduledEnd failed = (s.opWork o.kind).opFreed.opEffect o.kind failed := by
  unfold Chip.scheduledEnd
  rw [running]
  exact if_pos done

/-- A cask's assignment that is still allowed takes its byte of coh.cask_domain, and what waits at the home goes its new way (R117). -/
theorem Chip.opEffect_caskDomain (s : Chip) (k d failed : Nat) (allowed : s.assignCode k d = 0) :
    s.opEffect (.caskDomain k d) failed
      = (s.setRw Obj.cohCaskDomain (setField (s.cfg Obj.cohCaskDomain) (8 * k) 8 d)).rerouteCask k := by
  unfold Chip.opEffect
  dsimp only
  rw [if_pos allowed]

/-! ### Debts (R41, R44, R45) -/

/-- A class's debt stands above its maximum in a BURST, and has not been counted there (R45). -/
abbrev Chip.overrunDue (s : Chip) (k : Nat) : Prop :=
  s.inBurst ∧ 0 < s.cfgAt Obj.windowsDebtMax k ∧ s.cfgAt Obj.windowsDebtMax k < Tab.get 0 s.win.debtLevel k ∧ !bitOf s.win.overrun k

/-- The device with one more overrun of the class. -/
def Chip.overrunCounted (s : Chip) (k : Nat) : Chip :=
  { s with win := { s.win with debtOverruns := Tab.upd 0 s.win.debtOverruns k (· + 1), overrun := setBit s.win.overrun k true } }

/-- The device with the class under forced repayment, or not. -/
def Chip.withForced (s : Chip) (k : Nat) (b : Bool) : Chip := { s with win := { s.win with forced := setBit s.win.forced k b } }

/-- Where no overrun is due, a debt asks for forced repayment at its maximum outside a BURST, and for its end at half of it (R44). -/
theorem Chip.debtCheck_within (s : Chip) (k : Nat) (none : ¬ s.overrunDue k) :
    s.debtCheck k = if !s.inBurst ∧ 0 < s.cfgAt Obj.windowsDebtMax k ∧ s.cfgAt Obj.windowsDebtMax k ≤ Tab.get 0 s.win.debtLevel k
      then s.withForced k true
      else if 2 * Tab.get 0 s.win.debtLevel k ≤ s.cfgAt Obj.windowsDebtMax k then s.withForced k false else s := by
  unfold Chip.debtCheck
  dsimp only
  rw [if_neg none]
  rfl

/-- A debt above its maximum in a BURST counts one overrun, and asks for nothing else (R45). -/
theorem Chip.debtCheck_overruns (s : Chip) (k : Nat) (due : s.overrunDue k) : s.debtCheck k = s.overrunCounted k := by
  obtain ⟨burst, -, above, -⟩ := id due
  have stay : ¬ ((!(s.overrunCounted k).inBurst) = true ∧ 0 < s.cfgAt Obj.windowsDebtMax k
      ∧ s.cfgAt Obj.windowsDebtMax k ≤ Tab.get 0 s.win.debtLevel k) := by
    rw [show (s.overrunCounted k).inBurst = true from burst]
    simp
  have high : ¬ 2 * Tab.get 0 s.win.debtLevel k ≤ s.cfgAt Obj.windowsDebtMax k := by omega
  unfold Chip.debtCheck
  dsimp only
  rw [if_pos due]
  exact (if_neg stay).trans (if_neg high)

/-- Outside a BURST, a debt at its maximum puts its class under forced repayment (R44). -/
theorem Chip.debtCheck_forces (s : Chip) (k : Nat) (calm : s.inBurst = false) (limited : 0 < s.cfgAt Obj.windowsDebtMax k)
    (reached : s.cfgAt Obj.windowsDebtMax k ≤ Tab.get 0 s.win.debtLevel k) : s.debtCheck k = s.withForced k true :=
  (s.debtCheck_within k (by simp [Chip.overrunDue, calm])).trans (if_pos ⟨by simp [calm], limited, reached⟩)

/-- A debt at half its maximum or less ends forced repayment (R44). -/
theorem Chip.debtCheck_ends (s : Chip) (k : Nat) (half : 2 * Tab.get 0 s.win.debtLevel k ≤ s.cfgAt Obj.windowsDebtMax k) :
    s.debtCheck k = s.withForced k false := by
  rw [s.debtCheck_within k (fun due => absurd due.2.2.1 (by omega)), if_neg (by omega), if_pos half]

/-- What a class other than SCRUB publishes (R41, R151). -/
theorem Chip.publishDebt_class (s : Chip) (k level accrual : Nat) (class_ : k ≠ 1) :
    s.publishDebt k level accrual = { s with win := { s.win with
      debtLevel := Tab.put 0 s.win.debtLevel k level
      debtAccrual := if k = 3 then s.win.debtAccrual else Tab.put 0 s.win.debtAccrual k accrual
      debtRest := Tab.put 0 s.win.debtRest k 0 } } := if_neg class_

/-- The level that a class other than SCRUB publishes is its level. -/
theorem Chip.publishDebt_level (s : Chip) (k level accrual : Nat) (class_ : k ≠ 1) :
    Tab.get 0 (s.publishDebt k level accrual).win.debtLevel k = level := by
  rw [s.publishDebt_class k level accrual class_]
  exact Tab.get_put_same 0 _ k level

/-- Publishing changes no maximum and no window. -/
theorem Chip.publishDebt_reads (s : Chip) (k level accrual j : Nat) :
    (s.publishDebt k level accrual).cfgAt Obj.windowsDebtMax j = s.cfgAt Obj.windowsDebtMax j
    ∧ (s.publishDebt k level accrual).inBurst = s.inBurst ∧ (s.publishDebt k level accrual).win.overrun = s.win.overrun := by
  unfold Chip.publishDebt
  split <;> exact ⟨rfl, rfl, rfl⟩

/-! ### Absorb space (R48, R263) -/

/-- One access that waits for absorb or reserve space is tried again, and keeps the TC of its acceptance (R29). -/
theorem Chip.rerun_one (s : Chip) (ok : Wait → Bool) (w : Wait) (one : s.waits.filter ok = [w]) (why : w.why ≠ .order) :
    s.rerun ok = (Chip.below { s with waits := s.waits.filter (fun w => !ok w) } w.acc { w.obs with keyBad := false } false).keepTc
      (s.waits.filter (fun w => !ok w)).length w.tc := by
  unfold Chip.rerun
  dsimp only
  rw [one, List.foldl_cons, List.foldl_nil, if_neg why]

end Sys2Proof.Machine

open Sys2Proof Sys2Proof.Machine

/-- Settles O5: the front operation starts or is dropped, the running one is applied, and a published debt asks for what its level asks. -/
theorem scheduledOperationsAndDebts : Obligations.ScheduledOperationsAndDebts := by
  unfold Obligations.ScheduledOperationsAndDebts
  refine ⟨?starts, ?drops, ?ends, ?assigns, ?forces, ?overruns, ?repaid, ?absorb, fun s level accrual => ⟨rfl, rfl, rfl⟩⟩
  case starts =>
    intro s o r front ready still
    exact Effect.of_eq rfl (s.chip.scheduledStart_starts o r front ready still)
  case drops =>
    intro s o r front ready gone
    exact Effect.of_eq rfl (s.chip.scheduledStart_drops o r front ready gone)
  case ends =>
    intro s o m running done
    exact ⟨Effect.of_eq rfl (s.chip.scheduledEnd_applies o m.toNat running done),
      Effect.of_eq rfl (s.chip.scheduledEnd_applies o 0 running done)⟩
  case assigns =>
    intro s o k d running kind clear allowed
    have run := s.chip.scheduledEnd_applies o 0 running (by rw [kind]; exact clear)
    rw [kind, show s.chip.opWork (.caskDomain k d) = s.chip from rfl, s.chip.opFreed.opEffect_caskDomain k d 0 allowed] at run
    exact ⟨_, Effect.of_eq rfl run, rfl, Chip.cfg_setRw _ _ _,
      (Frame.set_rw (by decide) s.chip.opFreed _).trans (Frame.set_win (by decide) s.chip _)⟩
  case forces =>
    intro s k level accrual class_ calm limited reached
    obtain ⟨limit, burst, -⟩ := s.chip.publishDebt_reads k level accrual k
    have run := (s.chip.publishDebt k level accrual).debtCheck_forces k (burst.trans calm) (by rwa [limit])
      (by rwa [limit, s.chip.publishDebt_level k level accrual class_])
    exact Effect.of_eq rfl (run.trans (by rw [s.chip.publishDebt_class k level accrual class_]; rfl))
  case overruns =>
    intro s k level accrual class_ inside limited above first
    obtain ⟨limit, burst, counted⟩ := s.chip.publishDebt_reads k level accrual k
    have run := (s.chip.publishDebt k level accrual).debtCheck_overruns k ⟨burst.trans inside, by rwa [limit],
      by rwa [limit, s.chip.publishDebt_level k level accrual class_], by simp [counted, first]⟩
    exact Effect.of_eq rfl (run.trans (by rw [s.chip.publishDebt_class k level accrual class_]; rfl))
  case repaid =>
    intro s k level accrual class_ half
    obtain ⟨limit, -, -⟩ := s.chip.publishDebt_reads k level accrual k
    have run := (s.chip.publishDebt k level accrual).debtCheck_ends k (by rwa [limit, s.chip.publishDebt_level k level accrual class_])
    exact Effect.of_eq rfl (run.trans (by rw [s.chip.publishDebt_class k level accrual class_]; rfl))
  case absorb =>
    intro s w one
    have mem : w ∈ s.chip.waits.filter (fun w => decide (w.why = .absorb ∨ w.why = .reserve)) :=
      one ▸ List.mem_singleton_self w
    have why : w.why ≠ .order := by
      rcases of_decide_eq_true (List.mem_filter.mp mem).2 with why | why <;> simp [why]
    exact Effect.of_eq rfl (s.chip.rerun_one _ w one why)

end

section
/-!
PROOFS. The fault collector's commands and self-checks (R544 to R551), counter snapshots and the dump ring (R39, R562, R563), and the counter
filters (R555 to R557).
-/
namespace Sys2Proof.Machine

/-! ### Two parts set at once -/

theorem Frame.set_cnt_free (s : Chip) (x : CntUnit) (n : Nat) : Frame [.cnt, .free] { s with cnt := x, free := n } s :=
  (Frame.set_free (by decide) { s with cnt := x } n).trans (Frame.set_cnt (by decide) s x)

theorem Frame.set_fault_free (s : Chip) (x : FaultUnit) (n : Nat) : Frame [.fault, .free] { s with fault := x, free := n } s :=
  (Frame.set_free (by decide) { s with fault := x } n).trans (Frame.set_fault (by decide) s x)

/-! ### Commands of the dictionary -/

/-- A command whose write passes the checks has its handler's effect, and is answered with its handler's code. -/
theorem dictCmd_effect {i : Instr} {s : State} {src : Src} {idx sub n v : Nat} {h : Chip → Nat × Chip} {code : Nat} {t : Chip}
    (run : Effect i s (s.chip.dictCmd src idx sub n v h)) (acc : Accepts s.chip src idx sub n) (pos : 0 < n) (small : n ≤ 4080)
    (does : h s.chip = (code, t)) : Effect i s (t.answerWrite src idx sub (bytesLE n v) code) :=
  Effect.of_eq run (by rw [s.chip.dictCmd_accepts src idx sub n v h acc pos small, does])

/-- An RWP object whose record is committed takes its value (R454). -/
theorem Chip.commitRwp_ok (s : Chip) (key size v : Nat) (ok : (s.sbAppend 1 (paramKey key) (bytesLE size v)).1 = true) :
    s.commitRwp key size v = (0, (s.sbAppend 1 (paramKey key) (bytesLE size v)).2.setRwp key v) := if_pos ok

/-- An RWP object that reads no RW value reads what was committed; every other object reads as before, and only Seedbank, its allowance's
source and the values change (R453, R454, R495). -/
theorem Chip.committed_facts (s : Chip) (key size v : Nat) :
    let t := (s.sbAppend 1 (paramKey key) (bytesLE size v)).2.setRwp key v
    Frame [.sb, .fault, .heads, .field, .rwp] t s ∧ Tab.find t.rwp key = some v ∧ (∀ k, k ≠ key → t.cfg k = s.cfg k)
      ∧ (Tab.find s.rw key = none → t.cfg key = v) := by
  have frame := s.sbAppend_frame 1 (paramKey key) (bytesLE size v)
  generalize (s.sbAppend 1 (paramKey key) (bytesLE size v)).2 = u at *
  have stored : Tab.find (u.setRwp key v).rwp key = some v := Tab.find_set_same _ _ _
  refine ⟨(Frame.set_rwp (by decide) u _).trans (frame.mono (by decide)), stored, fun k other => ?_, fun free => ?_⟩
  · rw [u.cfg_setRwp_other v other, Chip.cfg_of_frame frame (by decide) (by decide)]
  · have none : Tab.find (u.setRwp key v).rw key = none := (congrArg (Tab.find · key) (frame .rw (by decide))).trans free
    unfold Chip.cfg
    rw [none, stored]

/-! ### The fault collector (R544, R547, R550) -/

/-- A clear of one source clears its bit and no other (R547). -/
theorem Chip.faultClear_one (s : Chip) (v : Nat) (source : v < 256) :
    s.faultClear v = (0, { s with fault := { s.fault with sticky := setBit s.fault.sticky v false } }) := by
  unfold Chip.faultClear
  rw [if_neg (by omega), if_neg (by omega)]

/-- A value that names no source and not all of them is out of range. -/
theorem Chip.faultClear_outOfRange (s : Chip) (v : Nat) (high : 255 < v) (notAll : v ≠ 0xFFFF) :
    s.faultClear v = (Abort.outOfRange, s) := by
  unfold Chip.faultClear
  rw [if_neg notAll, if_pos high]

/-- A byte that the source may have is committed in its place among the bytes (R544). -/
theorem Chip.faultEdit_ok (s : Chip) (v : Nat) (ok : s.faultByteOk (bitsOf v 0 8) (bitsOf v 8 8) = true) :
    s.faultEdit v = s.commitRwp Obj.faultConfig 256 (setField (s.cfg Obj.faultConfig) (8 * bitsOf v 0 8) 8 (bitsOf v 8 8)) := by
  unfold Chip.faultEdit
  dsimp only
  rw [if_neg (by simp [ok])]

/-- Another byte is out of range. -/
theorem Chip.faultEdit_outOfRange (s : Chip) (v : Nat) (no : s.faultByteOk (bitsOf v 0 8) (bitsOf v 8 8) = false) :
    s.faultEdit v = (Abort.outOfRange, s) := by
  unfold Chip.faultEdit
  dsimp only
  rw [if_pos (by simp [no])]

/-- Once one byte of the configuration has changed, its source reads it and every other source its own (R544). -/
theorem Chip.faultByte_edited (s t : Chip) (n b : Nat) (small : b < 256)
    (edited : t.cfg Obj.faultConfig = setField (s.cfg Obj.faultConfig) (8 * n) 8 b) :
    t.faultByte n = b ∧ ∀ m, m ≠ n → t.faultByte m = s.faultByte m := by
  unfold Chip.faultByte
  rw [edited]
  refine ⟨(bitsOf_setField _ _ _ _).trans (Nat.mod_eq_of_lt small), fun m other => bitsOf_setField_other _ _ _ _ _ _ ?_⟩
  omega

/-- The device once a self-check has found a mismatch: it is counted, the word is repaired, and source 192 is raised (R550). -/
def Chip.mismatchFound (s : Chip) : Chip :=
  Chip.raise { s with
    fault := { s.fault with
      integrityErrors := wrap32 (s.fault.integrityErrors + 1)
      sticky := if s.takeNat.1 % 2 = 0 then s.fault.sticky else s.fault.sticky ||| ((2 ^ 32 - 1) * 2 ^ (32 * (s.takeNat.1 / 2 % 8))) }
    free := s.free + 1 } 192

/-- A failed self-check asks for SAFE once the mismatch is found (R550). -/
theorem Chip.integrityScan_fails (s : Chip) : s.integrityScan false = s.mismatchFound.requestSafe := rfl

/-- What is found of a mismatch changes the collector's parts alone, sets source 192, and is counted. -/
theorem Chip.mismatchFound_facts (s : Chip) : Frame [.fault, .heads, .field, .free] s.mismatchFound s ∧ s.mismatchFound.sticky 192 = true
    ∧ s.mismatchFound.fault.integrityErrors = wrap32 (s.fault.integrityErrors + 1) := by
  refine ⟨?_, Chip.raise_sticky _ _ _ _ _ _, Chip.raise_errors _ _ _ _ _ _⟩
  exact ((Chip.raise_eq _ _ _ _ _ _).frame.mono (by decide)).trans ((Frame.set_fault_free s _ _).mono (by decide))

/-! ### Snapshots (R39, R562) -/

/-- The record that a snapshot latches: the sequence number, the timebase, the window's class, and every counter that has a number. -/
def Chip.snapshotRec (s : Chip) (commanded : Bool) (clocks rest : Nat) : DumpRec :=
  { seq := s.cnt.nextSeq, epoch := s.tb.epoch, tbState := s.tb.code, commanded := commanded, tc := s.tb.tc, clocks := clocks
    window := s.windowClass, skipped := 0, filterGen := s.cnt.filterGen, rest := rest, counters := s.cnt.vals }

/-- The device with a snapshot latched. -/
def Chip.latchedAs (s : Chip) (commanded : Bool) (clocks rest : Nat) : Chip :=
  { s with
    cnt := { s.cnt with nextSeq := wrap32 (s.cnt.nextSeq + 1), latched := some (s.snapshotRec commanded clocks rest) }
    free := s.free + 2 }

/-- Latching changes the counter unit, and takes its free values. -/
theorem Chip.latchedAs_frame (s : Chip) (commanded : Bool) (clocks rest : Nat) :
    Frame [.cnt, .free] (s.latchedAs commanded clocks rest) s := Frame.set_cnt_free s _ _

/-- With none waiting, a snapshot is latched under the next sequence number. -/
theorem Chip.snapshot_latches (s : Chip) (commanded : Bool) (free : s.cnt.latched = none) :
    ∃ clocks rest, s.snapshot commanded = s.latchedAs commanded clocks rest :=
  ⟨Config.freeNat s.free % 2 ^ 64, Config.freeNat (s.free + 1), if_neg (by simp [free])⟩

/-- With one waiting, it is skipped and counted. -/
theorem Chip.snapshot_skips (s : Chip) (commanded : Bool) (waits : s.cnt.latched ≠ none) :
    s.snapshot commanded = { s with cnt := { s.cnt with
      nextSeq := wrap32 (s.cnt.nextSeq + 1), skipped := wrap32 (s.cnt.skipped + 1), skippedSince := wrap32 (s.cnt.skippedSince + 1) } } :=
  if_pos (Option.isSome_iff_ne_none.mpr waits)

/-- At its due point a snapshot is taken, and the due point moves on a period (R562). -/
theorem Chip.snapshotDue_acts (s : Chip) (d : Nat) (due : s.dueNow = some d) (runs : s.tb.state ≠ .unlocked) (now : d ≤ s.tb.tc + 2) :
    s.snapshotDue = { s.snapshot false with cnt := { (s.snapshot false).cnt with
      nextDue := some (d + (s.snapshot false).cfg Obj.cntDumpPeriodTc) } } := by
  have acts : ¬ (s.tb.state = .unlocked ∨ s.tb.tc + 2 < d) := by
    rintro (unlocked | early)
    exacts [runs unlocked, absurd early (by omega)]
  unfold Chip.snapshotDue
  rw [due]
  exact if_neg acts

/-- cnt.dump_now latches a snapshot where none waits. -/
theorem Chip.dumpNow_latches (s : Chip) (free : s.cnt.latched = none) : s.dumpNow 1 = (0, s.snapshot true) := by
  simp [Chip.dumpNow, free]

/-- Where one waits, it answers resource-owned. -/
theorem Chip.dumpNow_owned (s : Chip) (waits : s.cnt.latched ≠ none) : s.dumpNow 1 = (Abort.resourceOwned, s) := by
  unfold Chip.dumpNow
  rw [if_neg (by decide), if_pos (Option.isSome_iff_ne_none.mpr waits)]

/-! ### The dump ring (R39, R562, R563) -/

/-- The latched record is written out into a ring with room. -/
theorem Chip.dumpWriteOut_writes (s : Chip) (r : DumpRec) (latched : s.cnt.latched = some r) (calm : s.inBurst = false)
    (room : s.dumpFull = false) :
    s.dumpWriteOut = { s with cnt := { s.cnt with
      ring := Tab.set s.cnt.ring (s.cnt.producer % s.cfg Obj.cntDumpRecords) { r with skipped := s.cnt.skippedSince }
      latched := none, skippedSince := 0, producer := wrap32 (s.cnt.producer + 1) } } := by
  unfold Chip.dumpWriteOut
  rw [latched]
  exact (if_neg (by simp [Chip.permits, calm])).trans (if_neg (by simp [room]))

/-- A full ring discards it. -/
theorem Chip.dumpWriteOut_discards (s : Chip) (r : DumpRec) (latched : s.cnt.latched = some r) (calm : s.inBurst = false)
    (full : s.dumpFull = true) :
    s.dumpWriteOut = { s with cnt := { s.cnt with
      latched := none, skipped := wrap32 (s.cnt.skipped + 1), skippedSince := wrap32 (s.cnt.skippedSince + 1) } } := by
  unfold Chip.dumpWriteOut
  rw [latched]
  exact (if_neg (by simp [Chip.permits, calm])).trans (if_pos full)

/-- In a BURST it waits. -/
theorem Chip.dumpWriteOut_waits (s : Chip) (burst : s.inBurst = true) : s.dumpWriteOut = s := by
  unfold Chip.dumpWriteOut
  split
  · rfl
  · exact if_pos (by simp [Chip.permits, burst])

/-- A ring size that fits is committed, and the ring starts empty. -/
theorem Chip.setDumpRecords_ok (s : Chip) (v : Nat) (ok : dumpRecordsOk v = true) (stopped : s.cfg Obj.cntDumpPeriodTc = 0)
    (fits : s.mirrorBytes + 16384 * v ≤ s.residentMib * mib)
    (stored : (s.sbAppend 1 (paramKey Obj.cntDumpRecords) (bytesLE 2 v)).1 = true) :
    let u := ((s.sbAppend 1 (paramKey Obj.cntDumpRecords) (bytesLE 2 v)).2.setRwp Obj.cntDumpRecords v).setRw Obj.cntDumpConsumer 0
    s.setDumpRecords v = (0, { u with cnt := { u.cnt with producer := 0, ring := [] } }) := by
  have go : ¬ (s.cfg Obj.cntDumpPeriodTc ≠ 0 ∨ s.residentMib * mib < s.mirrorBytes + 16384 * v) := by
    rintro (runs | big)
    exacts [runs stopped, absurd big (by omega)]
  unfold Chip.setDumpRecords
  dsimp only
  rw [if_neg (by simp [ok]), if_neg go, s.commitRwp_ok _ _ _ stored]
  exact if_neg (by simp)

/-- While a schedule runs the ring is owned. -/
theorem Chip.setDumpRecords_owned (s : Chip) (v : Nat) (ok : dumpRecordsOk v = true) (runs : s.cfg Obj.cntDumpPeriodTc ≠ 0) :
    s.setDumpRecords v = (Abort.resourceOwned, s) := by
  unfold Chip.setDumpRecords
  rw [if_neg (by simp [ok]), if_pos (Or.inl runs)]

/-- A schedule value that R562 allows is taken, and the schedule starts from the write. -/
theorem Chip.setDumpSchedule_ok (s : Chip) (period : Bool) (v : Nat) (ok : period = true → v = 0 ∨ (65536 ≤ v ∧ v ≤ 2 ^ 37)) :
    let t := s.setRw (if period then Obj.cntDumpPeriodTc else Obj.cntDumpStartTc) v
    s.setDumpSchedule period v = (0, { t with cnt := { t.cnt with
      nextDue := if t.cfg Obj.cntDumpPeriodTc = 0 then none
        else some (firstDue (t.cfg Obj.cntDumpStartTc) (t.cfg Obj.cntDumpPeriodTc) t.tb.tc) } }) := by
  have go : ¬ (period = true ∧ v ≠ 0 ∧ (v < 65536 ∨ 2 ^ 37 < v)) := fun ⟨is, nonzero, out⟩ => by
    rcases ok is with zero | within
    exacts [nonzero zero, by omega]
  exact if_neg go

/-! ### Filters (R555 to R557) -/

/-- A filter object's whole write that passes the checks is its special write's, and is answered (R557). -/
theorem filterWrite_effect (s : State) (src : Src) (idx : BitVec 16) (sub : BitVec 8) (value : List Byte) (code : Nat) (t : Chip)
    (object : isFilterObject idx.toNat sub.toNat = true) (acc : Accepts s.chip src idx.toNat sub.toNat value.length)
    (pos : 0 < value.length) (small : value.length ≤ 4080)
    (does : s.chip.specialWrite (srcMaster src) idx.toNat sub.toNat (natLE value) = some (code, t)) :
    Effect (.filterWrite src idx sub value) s (t.answerWrite src idx.toNat sub.toNat value code) := by
  refine Effect.of_eq (d := if isFilterObject idx.toNat sub.toNat then s.chip.objectWrite src idx.toNat sub.toNat value else s.chip) rfl ?_
  rw [if_pos object, Chip.objectWrite, s.chip.dictPut_accepts _ _ _ _ _ acc pos small]
  unfold Chip.writeValue
  rw [does]

/-- What a committed filter object's write comes to: the values, and one more filter write counted. -/
theorem Chip.filterCommitted_facts (s : Chip) (key size v : Nat) (free : Tab.find s.rw key = none) :
    let t := ((s.sbAppend 1 (paramKey key) (bytesLE size v)).2.setRwp key v).filterWritten
    t.cnt = { s.cnt with filterGen := wrap32 (s.cnt.filterGen + 1) } ∧ t.cfg key = v ∧ (∀ k : Nat, k ≠ key → t.cfg k = s.cfg k)
      ∧ Frame [.sb, .fault, .heads, .field, .rwp, .cnt] t s := by
  obtain ⟨frame, -, others, own⟩ := s.committed_facts key size v
  refine ⟨?_, own free, others, (Frame.set_cnt (by decide) _ _).trans (frame.mono (by decide))⟩
  have cnt : ((s.sbAppend 1 (paramKey key) (bytesLE size v)).2.setRwp key v).cnt = s.cnt := frame .cnt (by decide)
  unfold Chip.filterWritten
  rw [cnt]

/-- A filter set that R555 allows is committed. -/
theorem Chip.setFilter_ok (s : Chip) (f v : Nat) (ok : filterOk v = true)
    (stored : (s.sbAppend 1 (paramKey (objAt Obj.cntFilter f)) (bytesLE 32 v)).1 = true) :
    s.setFilter f v
      = (0, ((s.sbAppend 1 (paramKey (objAt Obj.cntFilter f)) (bytesLE 32 v)).2.setRwp (objAt Obj.cntFilter f) v).filterWritten) := by
  unfold Chip.setFilter
  rw [if_neg (by simp [ok]), s.commitRwp_ok _ _ _ stored]
  rfl

/-- So is a selection. -/
theorem Chip.setFilterSelect_ok (s : Chip) (v : Nat) (ok : filterSelectOk v = true)
    (stored : (s.sbAppend 1 (paramKey Obj.cntFilterSelect) (bytesLE 2048 v)).1 = true) :
    s.setFilterSelect v
      = (0, ((s.sbAppend 1 (paramKey Obj.cntFilterSelect) (bytesLE 2048 v)).2.setRwp Obj.cntFilterSelect v).filterWritten) := by
  unfold Chip.setFilterSelect
  rw [if_neg (by simp [ok]), s.commitRwp_ok _ _ _ stored]
  rfl

end Sys2Proof.Machine

open Sys2Proof Sys2Proof.Machine

/-- Settles O46: each command's handler says what it changes, and its answer follows by the dictionary's own rule. -/
theorem faultsClearEditAndCountersDump : Obligations.FaultsClearEditAndCountersDump := by
  unfold Obligations.FaultsClearEditAndCountersDump
  refine ⟨?clearOne, ?clearAll, ?clearOut, ?edit, ?editOut, ?scanServing, ?scanDrain, ?lockstep, ?dumpNow, ?dumpOwned, ?due, ?skipped,
    ?writes, ?discards, fun s burst => Effect.of_eq rfl (s.chip.dumpWriteOut_waits burst), ?ring, ?ringOwned, ?period, ?start, ?filter,
    ?select, ?marks⟩
  case clearOne =>
    intro s src v acc source
    exact ⟨_, dictCmd_effect rfl acc (by decide) (by decide) (s.chip.faultClear_one v.toNat source), rfl,
      bitOf_setBit_val s.chip.fault.sticky v.toNat false,
      fun n other => bitOf_clear_other _ other, Frame.set_fault (by decide) s.chip _⟩
  case clearAll =>
    intro s src v acc all
    exact ⟨_, dictCmd_effect rfl acc (by decide) (by decide) (if_pos all), rfl, Frame.set_fault (by decide) s.chip _⟩
  case clearOut =>
    intro s src v acc high notAll
    exact dictCmd_effect rfl acc (by decide) (by decide) (s.chip.faultClear_outOfRange v.toNat high notAll)
  case edit =>
    intro s src v acc ok stored free
    obtain ⟨frame, -, others, own⟩ := s.chip.committed_facts Obj.faultConfig 256
      (setField (s.chip.cfg Obj.faultConfig) (8 * bitsOf v.toNat 0 8) 8 (bitsOf v.toNat 8 8))
    have small : bitsOf v.toNat 8 8 < 256 := by
      rw [bitsOf_eq]
      exact Nat.mod_lt _ (by decide)
    obtain ⟨byte, rest⟩ := Chip.faultByte_edited _ _ _ _ small (own free)
    exact ⟨_, dictCmd_effect rfl acc (by decide) (by decide) ((s.chip.faultEdit_ok v.toNat ok).trans (s.chip.commitRwp_ok _ _ _ stored)),
      byte, rest, others, frame⟩
  case editOut =>
    intro s src v acc no
    exact dictCmd_effect rfl acc (by decide) (by decide) (s.chip.faultEdit_outOfRange v.toNat no)
  case scanServing =>
    intro s serves
    obtain ⟨found, -, -⟩ := s.chip.mismatchFound_facts
    obtain ⟨frame, -, safe⟩ := s.chip.mismatchFound.requestSafe_facts
    have mode : s.chip.mismatchFound.mode = s.chip.mode := found .mode (by decide)
    rw [mode] at safe
    exact ⟨_, Effect.of_eq rfl s.chip.integrityScan_fails, safe serves, (frame.mono (by decide)).trans (found.mono (by decide))⟩
  case scanDrain =>
    intro s drains
    obtain ⟨found, raised, counted⟩ := s.chip.mismatchFound_facts
    obtain ⟨-, held, -⟩ := s.chip.mismatchFound.requestSafe_facts
    have mode : s.chip.mismatchFound.mode = s.chip.mode := found .mode (by decide)
    rw [mode] at held
    obtain ⟨fault, same⟩ := held drains
    refine ⟨_, Effect.of_eq rfl s.chip.integrityScan_fails, same, ?_, ?_, ?_⟩
    · rw [fault]
    · rw [Chip.sticky, fault]
      exact raised
    · rw [fault]
      exact counted
  case lockstep =>
    intro s
    exact ⟨s.chip.raise 193, rfl, Chip.raise_sticky _ _ _ _ _ _, fun n other => Chip.raise_sticky_other _ _ _ _ _ other,
      (Chip.raise_eq _ _ _ _ _ _).frame⟩
  case dumpNow =>
    intro s src acc free
    obtain ⟨clocks, rest, taken⟩ := s.chip.snapshot_latches true free
    exact ⟨_, dictCmd_effect rfl acc (by decide) (by decide) ((s.chip.dumpNow_latches free).trans (congrArg (Prod.mk 0) taken)),
      ⟨clocks, rest, rfl⟩, rfl, rfl, rfl, rfl, s.chip.latchedAs_frame true clocks rest⟩
  case dumpOwned =>
    intro s src acc waits
    exact dictCmd_effect rfl acc (by decide) (by decide) (s.chip.dumpNow_owned waits)
  case due =>
    intro s d due runs now free
    obtain ⟨clocks, rest, taken⟩ := s.chip.snapshot_latches false free
    have run := s.chip.snapshotDue_acts d due runs now
    rw [taken] at run
    exact ⟨_, Effect.of_eq rfl run, ⟨clocks, rest, rfl⟩, rfl, rfl, rfl, rfl,
      (Frame.set_cnt (by decide) (s.chip.latchedAs false clocks rest) _).trans (s.chip.latchedAs_frame false clocks rest)⟩
  case skipped =>
    intro s d due runs now waits
    have run := s.chip.snapshotDue_acts d due runs now
    rw [s.chip.snapshot_skips false waits] at run
    exact ⟨_, Effect.of_eq rfl run, rfl, Frame.set_cnt (by decide) s.chip _⟩
  case writes =>
    intro s r latched calm room
    exact ⟨_, Effect.of_eq rfl (s.chip.dumpWriteOut_writes r latched calm room), rfl, Frame.set_cnt (by decide) s.chip _⟩
  case discards =>
    intro s r latched calm full
    exact ⟨_, Effect.of_eq rfl (s.chip.dumpWriteOut_discards r latched calm full), rfl, Frame.set_cnt (by decide) s.chip _⟩
  case ring =>
    intro s src v acc ok stopped fits stored
    obtain ⟨frame, committed, -, -⟩ := s.chip.committed_facts Obj.cntDumpRecords 2 v.toNat
    refine ⟨_, dictCmd_effect rfl acc (by decide) (by decide) (s.chip.setDumpRecords_ok v.toNat ok stopped fits stored), committed,
      Chip.cfg_setRw _ _ _, ?_,
      (Frame.set_cnt (by decide) (Chip.setRw _ _ _) _).trans ((Frame.set_rw (by decide) (Chip.setRwp _ _ _) _).trans (frame.mono (by decide)))⟩
    have cnt : ((s.chip.sbAppend 1 (paramKey Obj.cntDumpRecords) (bytesLE 2 v.toNat)).2.setRwp Obj.cntDumpRecords v.toNat).cnt
      = s.chip.cnt := frame .cnt (by decide)
    exact congrArg (fun c : CntUnit => { c with producer := 0, ring := [] }) cnt
  case ringOwned =>
    intro s src v acc ok runs
    exact dictCmd_effect rfl acc (by decide) (by decide) (s.chip.setDumpRecords_owned v.toNat ok runs)
  case period =>
    intro s src v acc ok
    exact ⟨_, dictCmd_effect rfl acc (by decide) (by decide) (s.chip.setDumpSchedule_ok true v.toNat (fun _ => ok)), rfl, rfl,
      (Frame.set_cnt (by decide) (Chip.setRw _ _ _) _).trans (Frame.set_rw (by decide) s.chip _)⟩
  case start =>
    intro s src v acc
    exact ⟨_, dictCmd_effect rfl acc (by decide) (by decide) (s.chip.setDumpSchedule_ok false v.toNat nofun), rfl, rfl,
      (Frame.set_cnt (by decide) (Chip.setRw _ _ _) _).trans (Frame.set_rw (by decide) s.chip _)⟩
  case filter =>
    intro s src value f acc len ok free stored
    have hf := f.isLt
    have idx : (BitVec.ofNat 16 (0xA820 + ↑f)).toNat = 0xA820 + ↑f := by simp; omega
    have run := filterWrite_effect s src (BitVec.ofNat 16 (0xA820 + ↑f)) 1 value 0 _ (by rw [idx]; simp [isFilterObject]; omega)
      (by rw [idx, len]; exact acc) (by omega) (by omega)
      (by rw [idx]; exact (s.chip.specialWrite_filter _ _ f).trans (congrArg some (s.chip.setFilter_ok f _ ok stored)))
    rw [idx] at run
    exact ⟨_, run, s.chip.filterCommitted_facts _ 32 _ free⟩
  case select =>
    intro s src value acc len ok free stored
    exact ⟨_, filterWrite_effect s src (BitVec.ofNat 16 0xA800) 2 value 0 _ rfl (by rw [len]; exact acc) (by omega) (by omega)
      ((s.chip.specialWrite_select _ _).trans (congrArg some (s.chip.setFilterSelect_ok _ ok stored))),
      s.chip.filterCommitted_facts _ 2048 _ free⟩
  case marks =>
    intro s src value c acc len small
    have hc := c.isLt
    have idx : (BitVec.ofNat 16 (0x9000 + ↑c)).toNat = 0x9000 + ↑c := by simp; omega
    have run := filterWrite_effect s src (BitVec.ofNat 16 (0x9000 + ↑c)) 0x30 value 0 _ (by rw [idx]; simp [isFilterObject]; omega)
      (by rw [idx, len]; exact acc) (by omega) (by omega)
      (by rw [idx]; exact (s.chip.specialWrite_marks _ _ c).trans (congrArg some (if_neg (by omega))))
    rw [idx] at run
    exact ⟨_, run, rfl, Chip.cfg_setRw _ _ _, fun k other => Chip.cfg_setRw_other _ _ other,
      (Frame.set_cnt (by decide) (Chip.setRw _ _ _) _).trans (Frame.set_rw (by decide) s.chip _)⟩

end

section
/-!
PROOFS. The mailbox's poison commands (R64, R66), its dictionary commands (R68, R69) and its posts of windows (R23, R71).
-/
namespace Sys2Proof.Machine

/-! ### A command of a mailbox that is up -/

/-- A mailbox that takes commands answers with what the command gives. -/
theorem Chip.mboxStd_up (s : Chip) (h : Fin 4) (opcode : Nat) (f : Chip → MboxRc × MboxOut × Chip) {rc : MboxRc} {out : MboxOut} {t : Chip}
    (up : s.dictUp (.mailbox h) = true) (gives : f s = (rc, out, t)) : s.mboxStd h opcode f = t.mboxAnswer h opcode rc out := by
  unfold Chip.mboxStd Chip.mboxUp
  rw [up, gives]
  rfl

/-- A command that needs admin right on a target is carried out for a head that has it (R66). -/
theorem Chip.needAdmin_may (s : Chip) (t : Nat) (h : Fin 4) (f : Chip → MboxRc × Chip) (may : s.may t h 3 = true) :
    s.needAdmin t h f = ((f s).1, .none, (f s).2) := if_pos may

/-! ### Poison (R64, R66) -/

/-- The device's own write of a whole line. -/
abbrev ownLine (dla : Nat) (d : Line) (poison : Bool) : Access := ⟨0x60, .byDir, .write, lineBase dla, fullMask, d, poison, true, 0, .none⟩

theorem lineBase_lineBase (dla : Nat) : lineBase (lineBase dla) = lineBase dla := by
  unfold lineBase
  omega

/-- A line is read at its first byte. -/
theorem Chip.line_lineBase (s : Chip) (dla : Nat) : s.line (lineBase dla) = s.line dla := by
  unfold Chip.line
  rw [lineBase_lineBase]

/-- An engine's access to an extent of a cask that is in no coherence domain, nor on its way into one, enters below the home (R111, R117). -/
theorem Chip.access_engine (s : Chip) (a : Access) (engine : isEngine a.master = true) {e : Extent} (ext : s.extentOf a.dla = some e)
    (alone : s.caskDomain e.cask = none) (still : s.assigning e.cask = false) : s.access a {} = s.enter a {} := by
  have ok : s.verdict a {} = .ok e.cask := by
    unfold Chip.verdict
    rw [ext]
    exact if_pos engine
  unfold Chip.access
  simp only [ok, still, alone, Bool.false_eq_true, if_false]

/-- A line that the device writes whole where a cache way holds it: it takes the data and the poison, and no other byte changes. -/
theorem Chip.setLine_cached (s : Chip) (dla : Nat) (d : Line) (poison : Bool) (ext : s.extentOf (lineBase dla) ≠ none)
    (alone : (s.extentOf (lineBase dla)).all (fun e => decide (s.caskDomain e.cask = none ∧ s.assigning e.cask = false)) = true)
    (cached : CachedWrite s (ownLine dla d poison)) :
    (s.setLine dla d poison).line dla = d ∧ (s.setLine dla d poison).poisoned (lineBase dla) = poison
      ∧ ∀ a, a < lineBase dla ∨ lineBase dla + 64 ≤ a → Tab.get 0 (s.setLine dla d poison).mem a = Tab.get 0 s.mem a := by
  obtain ⟨e, found⟩ := Option.ne_none_iff_exists'.mp ext
  rw [found] at alone
  obtain ⟨domain, still⟩ : s.caskDomain e.cask = none ∧ s.assigning e.cask = false := by simpa using alone
  obtain ⟨x, c, fill, enters⟩ := s.enter_cached (ownLine dla d poison) cached rfl
  have keys : KeysHold { s with map := { s.map with cache := x } } := by
    obtain ⟨-, -, -, -, -, -, -, -, -, -, -, keys, -⟩ := cached
    exact keys
  obtain ⟨line, mark, others, -, -⟩ := Chip.cachedWrite_facts { s with map := { s.map with cache := x } } c (ownLine dla d poison)
    (lineBase_lineBase dla) keys fill (mergeLine (s.line (lineBase dla)) d fullMask) 0x60 (c.policyOf (lineBase dla)) _ rfl
  have writes : s.setLine dla d poison = (c.putLine (lineBase dla) (mergeLine (s.line (lineBase dla)) d fullMask) poison).applyPolicy
      (lineNo (lineBase dla)) 0x60 (c.policyOf (lineBase dla)) :=
    (s.access_engine (ownLine dla d poison) rfl found domain still).trans enters
  rw [writes]
  exact ⟨(Chip.line_lineBase _ dla).symm.trans (line.trans (mergeLine_full _ _)), mark, others⟩

/-- A command that writes a line whole is carried out and succeeds, and what the write leaves of memory stays. -/
theorem lineCommand_effect {i : Instr} {s : State} {h : Fin 4} {opcode dla : Nat} {d : Line} {poison : Bool} {f : Chip → MboxRc × MboxOut × Chip}
    (run : Effect i s (s.chip.mboxStd h opcode f)) (up : s.chip.dictUp (.mailbox h) = true)
    (gives : f s.chip = (.success, .none, s.chip.setLine dla d poison)) (ext : s.chip.extentOf (lineBase dla) ≠ none)
    (alone : (s.chip.extentOf (lineBase dla)).all (fun e => decide (s.chip.caskDomain e.cask = none ∧ s.chip.assigning e.cask = false)) = true)
    (cached : CachedWrite s.chip (ownLine dla d poison)) :
    ∃ c, Effect i s c ∧ c.line dla = d ∧ c.poisoned (lineBase dla) = poison ∧ (c.head h).mbox.rc = .success
      ∧ ∀ a : Nat, a < lineBase dla ∨ lineBase dla + 64 ≤ a → Tab.get 0 c.mem a = Tab.get 0 s.chip.mem a := by
  obtain ⟨line, mark, others⟩ := s.chip.setLine_cached dla d poison ext alone cached
  obtain ⟨rc, -, -, frame⟩ := (s.chip.setLine dla d poison).mboxAnswer_facts h opcode .success .none
  have mem : ((s.chip.setLine dla d poison).mboxAnswer h opcode .success .none).mem = (s.chip.setLine dla d poison).mem := frame .mem (by decide)
  exact ⟨_, Effect.of_eq run (s.chip.mboxStd_up h opcode f up gives), (frame.line (by decide) dla).trans line,
    (frame.poisoned (by decide) _).trans mark, rc, fun a out => by rw [mem, others a out]⟩

/-! ### Windows (R23, R71) -/

/-- A head that may post has its record decided (R23). -/
theorem Chip.postOne_may (s : Chip) (h : Fin 4) (v : Nat) (may : s.mayPost h = true) : s.postOne h v = s.postWindow h v := if_pos may

end Sys2Proof.Machine

open Sys2Proof Sys2Proof.Machine

/-- Settles O12. The write of a poison command is an engine's write of a cached line (R111, R236); the dictionary commands are reads and
pieces that the checks let through (R455, R460); the posts are those of the model for a head that may post. -/
theorem mailboxPoisonAndVendorCommands : Obligations.MailboxPoisonAndVendorCommands := by
  refine ⟨?inject, ?clear, ?read, ?write, ?post, ?batch⟩
  case inject =>
    intro s h dla k up cask may ext alone cached
    refine lineCommand_effect (f := fun s => match s.poisonCask h dla.toNat with
      | none => (.invalidInput, .none, s)
      | some c => s.needAdmin c h (fun s => (.success, s.setLine dla.toNat (s.line dla.toNat) true))) rfl up ?_ ext alone cached
    simp only [cask, Chip.needAdmin_may _ _ _ _ may]
  case clear =>
    intro s h dla d k up cask may ext alone cached
    refine lineCommand_effect (f := fun s => match s.poisonCask h dla.toNat with
      | none => (.invalidInput, .none, s)
      | some c => s.needAdmin c h (fun s => (.success, s.setLine dla.toNat d false))) rfl up ?_ ext alone cached
    simp only [cask, Chip.needAdmin_may _ _ _ _ may]
  case read =>
    intro s h input i up length goes inside pos small
    refine Effect.of_eq rfl (Chip.mboxStd_up s.chip h 0xC000 _ up ?_)
    rw [if_neg (not_not.mpr length),
      s.chip.readObject_go (.mailbox h) _ _ _ _ i goes inside pos (small.trans (pathMax_ge (.mailbox h)))]
    rfl
  case write =>
    intro s h input acc length whole final pos small
    have rest : (input.drop 16).length = inNat input 8 2 := by rw [List.length_drop, length]; omega
    refine Effect.of_eq rfl (Chip.mboxStd_up s.chip h 0xC001 _ acc.1 ?_)
    rw [← rest] at acc pos small
    rw [if_neg (by rw [length]; omega), whole, final]
    dsimp only
    rw [s.chip.piece_accepts (.mailbox h) _ _ _ _ acc pos small]
  case post =>
    intro s h input up length may
    refine Effect.of_eq rfl (Chip.mboxStd_up s.chip h 0xC010 _ up ?_)
    rw [if_neg (not_not.mpr length), s.chip.postOne_may h _ may]
  case batch =>
    intro s h input up length least few
    refine ⟨_, _, rfl, Effect.of_eq rfl (Chip.mboxStd_up s.chip h 0xC011 _ up ?_)⟩
    rw [if_neg (by rw [length]; omega)]

end

section
/-!
PROOFS. Coherence domains: their commands (R142), recalls (R143), snoop answers (R124, R132, R133) and dead agents (R140, R141).
-/
namespace Sys2Proof.Machine

/-! ### Parts of the home -/

/-- A domain takes a value, and every other domain and part keeps its own. -/
theorem Chip.setDom_facts (s : Chip) (d : Nat) (x : CohDomain) :
    (s.setDom d x).dom d = x ∧ (∀ j, j ≠ d → (s.setDom d x).dom j = s.dom j) ∧ Frame [.coh] (s.setDom d x) s :=
  ⟨s.dom_setDom d x, fun _ other => s.dom_setDom_other x other, Frame.set_coh (by decide) s _⟩

/-- The end of a transaction changes the home and what waits. -/
theorem Chip.endTxn_frame (s : Chip) (ln : Nat) : Frame [.coh, .waits] (s.endTxn ln) s :=
  (Frame.set_waits (by decide) { s with coh := { s.coh with txns := s.coh.txns.filter (fun u => decide (u.line ≠ ln)) } } _).trans
    (Frame.set_coh (by decide) s _)

/-- Reviving a domain's agents changes the home alone. -/
theorem Chip.revive_frame (s : Chip) (d : Nat) : Frame [.coh] (s.revive d) s := Frame.set_coh (by decide) s _

/-- A scheduled operation is queued, and nothing else changes (R38). -/
theorem Chip.requestOp_facts (s : Chip) (k : OpKind) (us : Nat) :
    (s.requestOp k us).win = { s.win with ops := s.win.ops ++ [⟨k, us, 0⟩] } ∧ Frame [.win] (s.requestOp k us) s :=
  ⟨rfl, Frame.set_win (by decide) s _⟩

/-! ### Commands of a domain (R117, R142) -/

/-- A changed byte of coh.cask_domain that the cask may take requests the scheduled operation for it (R117). -/
theorem Chip.setCaskDomain_requests (s : Chip) (c d : Nat) (changed : bitsOf (s.cfg Obj.cohCaskDomain) (8 * c) 8 ≠ d)
    (valid : d < 64 ∨ d = 0xFF) (sharable : d < 64 → s.unsharable c = false)
    (still : (s.cask c).state = .free ∨ (s.cask c).state = .quiesced) :
    s.setCaskDomain c d = (0, s.requestOp (.caskDomain c d) (s.assignUs c)) := by
  have allowed : ¬ ((64 ≤ d ∧ d ≠ 0xFF) ∨ (d < 64 ∧ s.unsharable c = true)) := by
    rintro (⟨high, notNone⟩ | ⟨low, un⟩)
    · exact notNone (valid.resolve_left (by omega))
    · exact absurd un (by simp [sharable low])
  have code : s.assignCode c d = 0 := by
    unfold Chip.assignCode
    rw [if_neg allowed, if_pos still]
  unfold Chip.setCaskDomain
  rw [if_neg changed, code]
  rfl

/-- An UNUSED domain whose agents can form it becomes ACTIVE, and they live again (R140, R142). -/
theorem Chip.domForm_ok (s : Chip) (d : Nat) (unused : (s.dom d).state = .unused) (agents : s.agentsOk d = true) :
    s.domForm d = (0, (s.revive d).setDom d { s.dom d with state := .active }) := by
  unfold Chip.domForm
  rw [if_neg (not_not.mpr unused), if_neg (by simp [agents])]
  rfl

/-- A DOWN domain whose agents can form it is recalled for its return (R142, R143). -/
theorem Chip.domReform_ok (s : Chip) (d : Nat) (down : (s.dom d).state = .down) (agents : s.agentsOk d = true) :
    s.domReform d = (0, ((s.revive d).setDom d { s.dom d with state := .recalling, reform := true }).cohPump) := by
  unfold Chip.domReform
  rw [if_neg (not_not.mpr down), if_neg (by simp [agents])]
  rfl

/-- The recall of an ACTIVE domain is a scheduled operation (R143). -/
theorem Chip.domRecall_ok (s : Chip) (d : Nat) (active : (s.dom d).state = .active) :
    s.domRecall d = (0, s.requestOp (.recall d) (s.recallUs d)) := by
  unfold Chip.domRecall
  rw [if_neg (not_not.mpr active)]

/-- The filter without the entries of a domain. -/
def Chip.unfiltered (s : Chip) (d : Nat) : Chip :=
  { s with coh := { s.coh with filter := s.coh.filter.filter (fun e => decide (e.2.domain ≠ d)) } }

/-- An ACTIVE or DOWN domain without casks is disbanded: its filter entries are dropped (R142). -/
theorem Chip.domDisband_ok (s : Chip) (d : Nat) (formed : (s.dom d).state = .active ∨ (s.dom d).state = .down)
    (bare : (List.range 1024).all (fun c => decide (s.caskDomain c ≠ some d)) = true) :
    s.domDisband d = (0, (s.unfiltered d).setDom d { s.dom d with state := .unused }) := by
  have free : ¬ (((s.dom d).state ≠ .active ∧ (s.dom d).state ≠ .down)
      ∨ (List.range 1024).any (fun c => decide (s.caskDomain c = some d)) = true) := by
    rintro (⟨notActive, notDown⟩ | assigned)
    · exact formed.elim notActive notDown
    · obtain ⟨c, low, is⟩ := List.any_eq_true.mp assigned
      exact of_decide_eq_true (List.all_eq_true.mp bare c low) (of_decide_eq_true is)
  unfold Chip.domDisband
  rw [if_neg free]
  rfl

/-! ### An idle home stays idle (R122, R143) -/

/-- A home whose dead agents are others. -/
def Chip.withDead (s : Chip) (dead : Nat) : Chip := { s with coh := { s.coh with dead := dead } }

/-- A home that is quiet stays quiet as a domain that tracks no line changes its state, whoever is dead. -/
theorem Chip.homeQuiet_setDom (s : Chip) (d dead : Nat) (x : CohDomain) (quiet : s.homeQuiet)
    (untracked : s.coh.filter.all (fun e => decide (e.2.domain ≠ d)) = true) : ((s.withDead dead).setDom d x).homeQuiet := by
  obtain ⟨txns, queue, devQueue, retry, idle⟩ := quiet
  refine ⟨txns, queue, devQueue, retry, ?_⟩
  rw [Chip.homeIdle_iff ((s.withDead dead).setDom d x) txns queue devQueue]
  rw [Chip.homeIdle_iff s txns queue devQueue] at idle
  intro e mem
  obtain ⟨room, calm⟩ := idle e mem
  have other : e.2.domain ≠ d := by simpa using List.all_eq_true.mp untracked e mem
  have kept : ((s.withDead dead).setDom d x).dom e.2.domain = s.dom e.2.domain := Chip.dom_setDom_other _ x other
  refine ⟨room, Eq.trans ?_ calm⟩
  unfold Chip.recalled
  rw [kept]
  rfl

/-- The recall of a domain that tracks no line moves nothing else (R143). -/
theorem Chip.recall_untracked (s : Chip) (d : Nat) (x : CohDomain) (quiet : s.homeQuiet)
    (untracked : s.coh.filter.all (fun e => decide (e.2.domain ≠ d)) = true) :
    ((s.revive d).setDom d x).cohPump = (s.revive d).setDom d x :=
  Chip.cohPump_idle _ (s.homeQuiet_setDom d (s.revive d).coh.dead x quiet untracked)

/-- A RECALLING domain that tracks no line and has no transaction becomes ACTIVE (R143). -/
theorem Chip.recallComplete_acts (s : Chip) (d : Nat) (recalling : (s.dom d).state = .recalling) (quiet : s.homeQuiet)
    (untracked : s.coh.filter.all (fun e => decide (e.2.domain ≠ d)) = true) :
    s.recallComplete d = s.setDom d { s.dom d with state := .active, reform := false } := by
  have none : s.coh.txns.all (fun t => decide (t.domain ≠ d)) = true := by
    rw [quiet.1]
    rfl
  unfold Chip.recallComplete
  rw [if_pos ⟨recalling, untracked, none⟩]
  exact Chip.cohPump_idle _ (s.homeQuiet_setDom d s.coh.dead _ quiet untracked)

/-! ### Snoop answers (R124, R132, R133) -/

/-- The snoop answer in packet `p` of link `l` is counted, leaves the receive buffer, and its agent owes its transaction nothing any more. -/
def Chip.answerTaken (s : Chip) (l : Nat) (p : Packet) : Chip :=
  ((s.countLink l 5 1).takeRx l p).modTxn (lineNo (pktDla p)) (fun u => { u with owed := u.owed.filter (fun x => decide (x.agent ≠ linkAgent l)) })

theorem Chip.answerTaken_frame (s : Chip) (l : Nat) (p : Packet) : Frame [.coh, .links, .cnt] (s.answerTaken l p) s := by
  have taken : Frame [.links] ((s.countLink l 5 1).takeRx l p) (s.countLink l 5 1) := Frame.set_links (by decide) _ _
  exact (Frame.set_coh (by decide) ((s.countLink l 5 1).takeRx l p) _).trans
    ((taken.mono (by decide)).trans ((s.countLink_facts l 5 1).1.mono (by decide)))

/-- A snoop answer that a transaction owes, from a live link, is taken as done (R124): `keep` is the copy that its code leaves, and `data`
what it returns. -/
theorem Chip.cohIn_owed (s : Chip) (l code : Nat) (p : Packet) (t : CohTxn) (keep : Nat) (data : Option (Line × Bool))
    (live : s.linkLive l = true) (alive : s.agentIsDead (linkAgent l) = false) (op : p.op.toNat = code) (good : s.goodPacket l 9 p = true)
    (owes : s.snooped (linkAgent l) (lineNo (pktDla p)) = some t)
    (arm : ∀ c : Chip, c.linkLive l = true → c.agentIsDead (linkAgent l) = false →
      c.linkSrsp l p {} = (c.takeRx l p).snoopAnswer (linkAgent l) (lineNo (pktDla p)) keep data {}) :
    s.cohIn l code p (fun k => k.linkSrsp l p {})
      = (((s.countLink l 5 1).takeRx l p).snoopDone (linkAgent l) keep t data {}).cohPump := by
  have goes : ¬ ((!s.linkLive l) = true ∨ p.op.toNat ≠ code) := by simp [live, op]
  have still : ((s.countLink l 5 1).takeRx l p).snooped (linkAgent l) (lineNo (pktDla p)) = some t := owes
  unfold Chip.cohIn
  rw [if_neg goes, if_pos good]
  refine (arm (s.countLink l 5 1) live alive).trans ?_
  unfold Chip.snoopAnswer
  rw [still]

/-- The transaction that a snoop answer meets is its line's. -/
theorem Chip.snooped_line {s : Chip} {a ln : Nat} {t : CohTxn} (owes : s.snooped a ln = some t) : t.line = ln := by
  unfold Chip.snooped Chip.txnOf at owes
  obtain ⟨found, -⟩ := Option.filter_eq_some_iff.mp owes
  simpa using List.find?_some found

/-- The copy that an agent keeps once a snoop is answered: none where the snoop took it back (R129). -/
def keptCopy (t : CohTxn) (a keep : Nat) : Nat := if t.owed.any (fun x => decide (x.agent = a ∧ x.kind = 0)) then 0 else keep

/-- An answer without data leaves the agent the copy that it names. -/
theorem Chip.snoopDone_bare (s : Chip) (l : Nat) (p : Packet) (t : CohTxn) (keep : Nat) (line : t.line = lineNo (pktDla p)) :
    ((s.countLink l 5 1).takeRx l p).snoopDone (linkAgent l) keep t none {}
      = (s.answerTaken l p).keepCopy (linkAgent l) (lineNo (pktDla p)) (keptCopy t (linkAgent l) keep) := by
  unfold Chip.snoopDone
  rw [line]
  rfl

/-- An answer with data also hands it to the transaction and stores it (R130, R132). -/
theorem Chip.snoopDone_data (s : Chip) (l : Nat) (p : Packet) (t : CohTxn) (keep : Nat) (d : Line × Bool) (line : t.line = lineNo (pktDla p)) :
    ((s.countLink l 5 1).takeRx l p).snoopDone (linkAgent l) keep t (some d) {}
      = (((s.answerTaken l p).keepCopy (linkAgent l) (lineNo (pktDla p)) (keptCopy t (linkAgent l) keep)).modTxn (lineNo (pktDla p))
          (fun u => { u with data := some d })).storeHeld (ownerStore (linkAgent l) (lineNo (pktDla p)) d) {} := by
  unfold Chip.snoopDone
  rw [line]
  rfl

/-- A snoop answer of a live link without data, by its code. -/
theorem Chip.linkSrsp_bare {c : Chip} {l : Nat} {p : Packet} {code keep : Nat} (code_eq : (code = 0x18 ∧ keep = 0) ∨ (code = 0x19 ∧ keep = 1))
    (op : p.op.toNat = code) (live : c.linkLive l = true) (alive : c.agentIsDead (linkAgent l) = false) :
    c.linkSrsp l p {} = (c.takeRx l p).snoopAnswer (linkAgent l) (lineNo (pktDla p)) keep none {} := by
  obtain ⟨rfl, rfl⟩ | ⟨rfl, rfl⟩ := code_eq <;>
    simp only [Chip.linkSrsp, live, alive, op, Bool.not_true, Bool.false_eq_true, or_self, if_false]

/-- One with data, by its code. -/
theorem Chip.linkSrsp_data {c : Chip} {l : Nat} {p : Packet} {code keep : Nat}
    (code_eq : (code = 0x1A ∧ keep = 0) ∨ (code = 0x1B ∧ keep = 1) ∨ (code = 0x1C ∧ keep = 2))
    (op : p.op.toNat = code) (live : c.linkLive l = true) (alive : c.agentIsDead (linkAgent l) = false) :
    c.linkSrsp l p {} = (c.takeRx l p).snoopAnswer (linkAgent l) (lineNo (pktDla p)) keep (some (lineOf p.data, p.poison)) {} := by
  obtain ⟨rfl, rfl⟩ | ⟨rfl, rfl⟩ | ⟨rfl, rfl⟩ := code_eq <;>
    simp only [Chip.linkSrsp, live, alive, op, Bool.not_true, Bool.false_eq_true, or_self, if_false]

/-- The effect of a snoop answer without data that a transaction owes. -/
theorem bareAnswer_effect {i : Instr} {s : State} {l : Fin 8} {p : Packet} {t : CohTxn} {code keep : Nat}
    (run : Effect i s (s.chip.cohIn l code p (fun k => k.linkSrsp l p {})))
    (live : s.chip.linkLive l = true) (alive : s.chip.agentIsDead (linkAgent l) = false) (op : p.op.toNat = code)
    (good : s.chip.goodPacket l 9 p = true) (owes : s.chip.snooped (linkAgent l) (lineNo (pktDla p)) = some t)
    (code_eq : (code = 0x18 ∧ keep = 0) ∨ (code = 0x19 ∧ keep = 1)) :
    Effect i s ((s.chip.answerTaken l p).keepCopy (linkAgent l) (lineNo (pktDla p)) (keptCopy t (linkAgent l) keep)).cohPump :=
  Effect.of_eq run ((s.chip.cohIn_owed l code p t keep none live alive op good owes (fun _ => Chip.linkSrsp_bare code_eq op)).trans
    (congrArg Chip.cohPump (s.chip.snoopDone_bare l p t keep (Chip.snooped_line owes))))

/-- The effect of one with data. -/
theorem dataAnswer_effect {i : Instr} {s : State} {l : Fin 8} {p : Packet} {t : CohTxn} {code keep : Nat}
    (run : Effect i s (s.chip.cohIn l code p (fun k => k.linkSrsp l p {})))
    (live : s.chip.linkLive l = true) (alive : s.chip.agentIsDead (linkAgent l) = false) (op : p.op.toNat = code)
    (good : s.chip.goodPacket l 9 p = true) (owes : s.chip.snooped (linkAgent l) (lineNo (pktDla p)) = some t)
    (code_eq : (code = 0x1A ∧ keep = 0) ∨ (code = 0x1B ∧ keep = 1) ∨ (code = 0x1C ∧ keep = 2)) :
    Effect i s ((((s.chip.answerTaken l p).keepCopy (linkAgent l) (lineNo (pktDla p)) (keptCopy t (linkAgent l) keep)).modTxn
      (lineNo (pktDla p)) (fun u => { u with data := some (lineOf p.data, p.poison) })).storeHeld
        (ownerStore (linkAgent l) (lineNo (pktDla p)) (lineOf p.data, p.poison)) {}).cohPump :=
  Effect.of_eq run ((s.chip.cohIn_owed l code p t keep (some (lineOf p.data, p.poison)) live alive op good owes
      (fun _ => Chip.linkSrsp_data code_eq op)).trans
    (congrArg Chip.cohPump (s.chip.snoopDone_data l p t keep (lineOf p.data, p.poison) (Chip.snooped_line owes))))

/-! ### Dead agents (R133, R140, R141) -/

/-- The home once agent `a` is dead. -/
def Chip.dying (s : Chip) (a : Nat) : Chip :=
  { s with coh := { s.coh with dead := setBit s.coh.dead a true, pulled := setBit s.coh.pulled a false } }

/-- What is left of the filter as a domain goes DOWN: no copy of the dead agent in that domain (R141). -/
def Chip.filterLeft (s : Chip) (d a : Nat) : Tab FilterEnt :=
  s.coh.filter.filterMap (fun (ln, e) =>
    if e.domain = d then
      if e.owner = some a then none
      else if e.owner = none ∧ setBit e.sharers a false = 0 then none
      else some (ln, { e with sharers := setBit e.sharers a false })
    else some (ln, e))

/-- The value of a domain that goes DOWN (R141). -/
def Chip.downDom (s : Chip) (d a cause : Nat) : CohDomain :=
  { s.dom d with state := .down, cause := cause, dead := a, downTc := s.tb.tc, downs := (s.dom d).downs + 1, reform := false }

/-- A request is for a line of the domain. -/
def Chip.asksDomain (s : Chip) (d : Nat) (q : CohReq) : Bool := decide (s.lineDomain (lineNo q.acc.dla) = some d)

/-- The device once domain `d` is DOWN, before its transactions end: what is left of the filter, and the queues without its requests. -/
def Chip.downed (s : Chip) (d a cause : Nat) : Chip :=
  let c := s.setDom d (s.downDom d a cause)
  { c with coh := { c.coh with
    filter := s.filterLeft d a, queue := c.coh.queue.filter (fun q => !c.asksDomain d q)
    devQueue := c.coh.devQueue.filter (fun q => !c.asksDomain d q) } }

theorem Chip.downed_facts (s : Chip) (d a cause : Nat) : (s.downed d a cause).dom d = s.downDom d a cause
    ∧ (∀ j, j ≠ d → (s.downed d a cause).dom j = s.dom j) ∧ (s.downed d a cause).coh.dead = s.coh.dead
    ∧ (s.downed d a cause).coh.txns = s.coh.txns ∧ Frame [.coh] (s.downed d a cause) s :=
  ⟨s.dom_setDom d (s.downDom d a cause), fun _ other => s.dom_setDom_other (s.downDom d a cause) other, rfl, rfl,
    Frame.set_coh (by decide) s _⟩

/-- The death of an agent of one domain that serves takes that domain down (R140). -/
theorem Chip.agentDead_one (s : Chip) (a cause d : Nat)
    (only : (List.range 64).filter (fun d => s.isMember d a && decide ((s.dom d).state = .active ∨ (s.dom d).state = .recalling)) = [d]) :
    s.agentDead a cause = (s.dying a).domainDown d a cause :=
  congrArg (List.foldl (fun c d => Chip.domainDown c d a cause) (s.dying a)) only

/-- A domain of one transaction and no line of the dead agent's own goes DOWN: its transaction fails, and the source is raised (R141). -/
theorem Chip.domainDown_one (s : Chip) (d a cause : Nat) (t : CohTxn) (ownsNone : s.coh.filter.all (fun e => decide (e.2.owner ≠ some a)) = true)
    (txns : s.coh.txns = [t]) (queue : s.coh.queue = []) (devQueue : s.coh.devQueue = []) (mine : t.domain = d) :
    s.domainDown d a cause = ((s.downed d a cause).failTxn d t).raise (if cause = 4 then 65 else 64) (agentMaster a) := by
  have owned : s.coh.filter.filter (fun e => decide (e.2.domain = d ∧ e.2.owner = some a)) = [] := by
    refine List.filter_eq_nil_iff.mpr (fun e mem both => ?_)
    exact of_decide_eq_true (List.all_eq_true.mp ownsNone e mem) (of_decide_eq_true both).2
  have one : s.coh.txns.filter (fun t => decide (t.domain = d)) = [t] := by simp [txns, mine]
  have noRequest : (s.coh.queue ++ s.coh.devQueue).filter ((s.setDom d (s.downDom d a cause)).asksDomain d) = [] := by
    rw [queue, devQueue]
    rfl
  have downs : s.domainDown d a cause = Chip.raise
      (((s.coh.queue ++ s.coh.devQueue).filter ((s.setDom d (s.downDom d a cause)).asksDomain d)).foldl
        (fun s q => if q.kind = .evict ∨ q.kind = .recall then s else s.cohError d q)
        ((s.coh.txns.filter (fun t => decide (t.domain = d))).foldl (fun s t => s.failTxn d t) (s.downed d a cause)))
      (if cause = 4 then 65 else 64) (agentMaster a) := by
    unfold Chip.domainDown
    rw [owned]
    rfl
  rw [downs, one, noRequest]
  rfl

/-- A read that a domain drops is counted where it asks for ownership (R141). -/
theorem Chip.dropRequest_read (s : Chip) (d : Nat) (q : CohReq) (read : q.acc.kind = .read) :
    (s.dropRequest d q).dom d = { s.dom d with dropped := (s.dom d).dropped + if q.kind = .own then 1 else 0 }
      ∧ (∀ j, j ≠ d → (s.dropRequest d q).dom j = s.dom j) ∧ (s.dropRequest d q).coh.txns = s.coh.txns
      ∧ (s.dropRequest d q).coh.dead = s.coh.dead ∧ Frame [.coh] (s.dropRequest d q) s := by
  by_cases own : q.kind = .own
  · have counts : s.dropRequest d q = s.setDom d { s.dom d with dropped := (s.dom d).dropped + 1 } := if_pos (.inr own)
    obtain ⟨same, others, frame⟩ := s.setDom_facts d { s.dom d with dropped := (s.dom d).dropped + 1 }
    rw [counts, if_pos own]
    exact ⟨same, others, rfl, rfl, frame⟩
  · have stays : s.dropRequest d q = s := if_neg (fun h => h.elim (· read) own)
    rw [stays, if_neg own]
    exact ⟨rfl, fun _ _ => rfl, rfl, rfl, Frame.refl _ _⟩

/-- A link's read that a live agent waits for fails with ERR (R141). -/
theorem Chip.failTxn_read (s : Chip) (d : Nat) (t : CohTxn) (b k tag : Nat) (waiting : t.replied = false)
    (reads : t.req.kind = .shared ∨ t.req.kind = .own ∨ t.req.kind = .cur) (agent : t.req.agent = some b) (alive : s.agentIsDead b = false)
    (ret : t.req.acc.ret = .link k tag) :
    s.failTxn d t = ((s.endTxn t.line).dropRequest d t.req).cohSend k 0x26 tag (lineBase t.req.acc.dla) none := by
  have fails : s.failTxn d t = (s.endTxn t.line).cohError d t.req := by
    unfold Chip.failTxn
    obtain kind | kind | kind := reads <;> rw [kind] <;> simp only [waiting, Bool.false_eq_true, if_false]
  have hears : ((s.endTxn t.line).dropRequest d t.req).agentIsDead b = false := by
    unfold Chip.dropRequest
    split <;> exact alive
  rw [fails]
  unfold Chip.cohError
  simp only [agent, ret, Option.any_some, hears, Bool.false_eq_true, if_false]

/-- What remains of the device as the one transaction of a domain that goes DOWN fails, before its requester is answered. -/
def Chip.readDropped (s : Chip) (d a cause : Nat) (t : CohTxn) : Chip := (((s.dying a).downed d a cause).endTxn t.line).dropRequest d t.req

/-- The domain is DOWN with its cause, the dropped read counted where it asked for ownership; the transaction and its memory reads are gone
(R131, R141). -/
theorem Chip.readDropped_facts (s : Chip) (d a cause : Nat) (t : CohTxn) (txns : s.coh.txns = [t]) (read : t.req.acc.kind = .read) :
    let x := s.readDropped d a cause t
    x.dom d = { s.dom d with
        state := .down, cause := cause, dead := a, downTc := s.tb.tc, downs := (s.dom d).downs + 1, reform := false
        dropped := (s.dom d).dropped + if t.req.kind = .own then 1 else 0 }
      ∧ (∀ j, j ≠ d → x.dom j = s.dom j) ∧ x.coh.txns = [] ∧ bitOf x.coh.dead a = true
      ∧ x.waits = s.waits.filter (fun w => decide (w.acc.ret ≠ .coh t.line)) ∧ Frame [.coh, .waits] x s := by
  obtain ⟨down, downOthers, downDead, downTxns, downFrame⟩ := (s.dying a).downed_facts d a cause
  obtain ⟨drop, dropOthers, dropTxns, dropDead, dropFrame⟩ := (((s.dying a).downed d a cause).endTxn t.line).dropRequest_read d t.req read
  have ended : Frame [.coh, .waits] (((s.dying a).downed d a cause).endTxn t.line) ((s.dying a).downed d a cause) :=
    Chip.endTxn_frame ((s.dying a).downed d a cause) t.line
  have dies : Frame [.coh] (s.dying a) s := Frame.set_coh (by decide) s _
  refine ⟨drop.trans ?_, fun j other => (dropOthers j other).trans (downOthers j other), dropTxns.trans ?_, ?_, dropFrame .waits (by decide), ?_⟩
  · rw [show (((s.dying a).downed d a cause).endTxn t.line).dom d = _ from down]
    rfl
  · show ((s.dying a).downed d a cause).coh.txns.filter (fun u => decide (u.line ≠ t.line)) = []
    rw [downTxns, show (s.dying a).coh.txns = [t] from txns]
    simp
  · unfold Chip.readDropped
    rw [dropDead, show (((s.dying a).downed d a cause).endTxn t.line).coh.dead = _ from downDead]
    exact bitOf_setBit s.coh.dead a
  · exact (dropFrame.mono (by decide)).trans (ended.trans ((downFrame.trans dies).mono (by decide)))

/-- A snoop deadline that is missed by an agent of one domain, which waits for no other line: the agent is dead, the domain DOWN, and the
read that waits is answered ERR (R133, R140, R141). -/
theorem Chip.snoopMiss_acts (s : Chip) (a ln d : Nat) (t : CohTxn) (b k tag : Nat) (active : s.txnOf ln = some t)
    (missed : t.owed.any (fun x => decide (x.agent = a) && s.deadlineRuns x) = true) (txns : s.coh.txns = [t]) (queue : s.coh.queue = [])
    (devQueue : s.coh.devQueue = [])
    (only : (List.range 64).filter (fun d => s.isMember d a && decide ((s.dom d).state = .active ∨ (s.dom d).state = .recalling)) = [d])
    (mine : t.domain = d) (waiting : t.replied = false) (ret : t.req.acc.ret = .link k tag) (agent : t.req.agent = some b) (other : b ≠ a)
    (alive : s.agentIsDead b = false) (reads : t.req.kind = .shared ∨ t.req.kind = .own ∨ t.req.kind = .cur)
    (ownsNone : s.coh.filter.all (fun e => decide (e.2.owner ≠ some a)) = true) :
    s.snoopMiss a ln
      = (((s.readDropped d a 2 t).cohSend k 0x26 tag (lineBase t.req.acc.dla) none).raise 64 (agentMaster a)).cohPump := by
  have lives : ((s.dying a).downed d a 2).agentIsDead b = false := (bitOf_setBit_other s.coh.dead other).trans alive
  have downs : s.agentDead a 2 = ((s.readDropped d a 2 t).cohSend k 0x26 tag (lineBase t.req.acc.dla) none).raise 64 (agentMaster a) := by
    rw [s.agentDead_one a 2 d only, (s.dying a).domainDown_one d a 2 t ownsNone txns queue devQueue mine,
      Chip.failTxn_read _ d t b k tag waiting reads agent lives ret]
    rfl
  unfold Chip.snoopMiss
  rw [active]
  exact (if_pos missed).trans (congrArg Chip.cohPump downs)

end Sys2Proof.Machine

open Sys2Proof Sys2Proof.Machine

/-- Settles O19. The commands of a domain are read off the model, and a home that tracks nothing of the domain finds no work (R143); a
snoop answer is taken as done by one argument for its five codes; a missed deadline takes the agent's one domain down. -/
theorem domainsFormAndSnoopsAreAnswered : Obligations.DomainsFormAndSnoopsAreAnswered := by
  refine ⟨?cask, ?form, ?reform, ?asked, ?disband, ?complete, ?i, ?s, ?id, ?sd, ?curD, ?missed⟩
  case cask =>
    intro s src c d acc changed valid sharable still
    obtain ⟨ops, frame⟩ := s.chip.requestOp_facts (.caskDomain c d.toNat) (s.chip.assignUs c)
    have requests := s.chip.setCaskDomain_requests c d.toNat changed valid sharable still
    exact ⟨_, dictCmd_effect rfl acc (by decide) (by decide) requests, ops, frame⟩
  case form =>
    intro s src d acc unused count live
    obtain ⟨same, others, frame⟩ := (s.chip.revive d).setDom_facts d { s.chip.dom d with state := .active }
    have forms := s.chip.domForm_ok d unused (Bool.and_eq_true_iff.mpr ⟨count, live⟩)
    exact ⟨_, dictCmd_effect rfl acc (by decide) (by decide) forms, same, others, rfl, frame.trans (s.chip.revive_frame d)⟩
  case reform =>
    intro s src d acc down count live untracked txns queue devQueue retry idle
    have reforms := s.chip.domReform_ok d down (Bool.and_eq_true_iff.mpr ⟨count, live⟩)
    rw [s.chip.recall_untracked d _ ⟨txns, queue, devQueue, retry, idle⟩ untracked] at reforms
    obtain ⟨same, others, frame⟩ := (s.chip.revive d).setDom_facts d { s.chip.dom d with state := .recalling, reform := true }
    exact ⟨_, dictCmd_effect rfl acc (by decide) (by decide) reforms, same, others, rfl, frame.trans (s.chip.revive_frame d)⟩
  case asked =>
    intro s src d acc active
    obtain ⟨ops, frame⟩ := s.chip.requestOp_facts (.recall d) (s.chip.recallUs d)
    exact ⟨_, dictCmd_effect rfl acc (by decide) (by decide) (s.chip.domRecall_ok d active), ops, frame⟩
  case disband =>
    intro s src d acc formed bare
    obtain ⟨same, others, frame⟩ := (s.chip.unfiltered d).setDom_facts d { s.chip.dom d with state := .unused }
    exact ⟨_, dictCmd_effect rfl acc (by decide) (by decide) (s.chip.domDisband_ok d formed bare), same, others, rfl,
      frame.trans (Frame.set_coh (by decide) s.chip _)⟩
  case complete =>
    intro s d recalling untracked txns queue devQueue retry idle
    obtain ⟨same, others, frame⟩ := s.chip.setDom_facts d { s.chip.dom d with state := .active, reform := false }
    exact ⟨_, Effect.of_eq rfl (s.chip.recallComplete_acts d recalling ⟨txns, queue, devQueue, retry, idle⟩ untracked), same, others, frame⟩
  case i =>
    intro s l p t live alive op good owes
    exact ⟨s.chip.answerTaken l p, bareAnswer_effect rfl live alive op good owes (.inl ⟨rfl, rfl⟩), rfl, s.chip.answerTaken_frame l p⟩
  case s =>
    intro s l p t live alive op good owes
    exact ⟨s.chip.answerTaken l p, bareAnswer_effect rfl live alive op good owes (.inr ⟨rfl, rfl⟩), rfl, s.chip.answerTaken_frame l p⟩
  case id =>
    intro s l p t live alive op good owes
    exact ⟨s.chip.answerTaken l p, dataAnswer_effect rfl live alive op good owes (.inl ⟨rfl, rfl⟩), rfl, s.chip.answerTaken_frame l p⟩
  case sd =>
    intro s l p t live alive op good owes
    exact ⟨s.chip.answerTaken l p, dataAnswer_effect rfl live alive op good owes (.inr (.inl ⟨rfl, rfl⟩)), rfl, s.chip.answerTaken_frame l p⟩
  case curD =>
    intro s l p t live alive op good owes
    exact ⟨s.chip.answerTaken l p, dataAnswer_effect rfl live alive op good owes (.inr (.inr ⟨rfl, rfl⟩)), rfl, s.chip.answerTaken_frame l p⟩
  case missed =>
    intro s a dla d t b k tag active missed txns queue devQueue only mine waiting read ret agent other alive reads ownsNone
    obtain ⟨down, others, ended, dead, waits, frame⟩ := s.chip.readDropped_facts d a 2 t txns read
    exact ⟨s.chip.readDropped d a 2 t, _,
      Effect.of_eq rfl (s.chip.snoopMiss_acts a _ d t b k tag active missed txns queue devQueue only mine waiting ret agent other alive reads
        ownsNone),
      (Chip.raise_eq _ _ _ _ _ _).frame, Chip.raise_sticky _ _ _ _ _ _, down, others, ended, dead, waits, frame⟩

end

section
/-!
PROOFS. Migrations and repacks (R152 to R160, R195): what each step of a page's move does.
-/
namespace Sys2Proof.Machine

/-! ### Entering a slot (R152, R195) -/

/-- Only the non-volatile tier can lack a place for a page that moves (R308). -/
theorem Chip.destination_isSome (s : Chip) (p : Nat) (t : PgState) (ch loc : Nat) (form : Bool × Nat)
    (place : t = .nvm → s.pruneOlds.placeOk ch loc (s.unitLines p form) = true) : ∃ x c, s.destination p t ch loc form = some (x, c) := by
  unfold Chip.destination
  by_cases nvm : t = .nvm
  · dsimp only
    rw [if_neg (not_not.mpr nvm), if_neg (by simp [place nvm])]
    exact ⟨_, _, rfl⟩
  · exact ⟨_, _, if_pos nvm⟩

/-- It lacks one where Kiln refuses it. -/
theorem Chip.destination_none (s : Chip) (p : Nat) (ch loc : Nat) (form : Bool × Nat)
    (no : s.pruneOlds.placeOk ch loc (s.unitLines p form) = false) : s.destination p .nvm ch loc form = none := by
  unfold Chip.destination
  dsimp only
  rw [if_neg (not_not.mpr rfl), if_pos (by simp [no])]

/-- A map whose records have another cache. -/
def Chip.mapCached (s : Chip) (x : Tab (List Nat)) : Chip := { s with map := { s.map with cache := x } }

theorem Chip.mapCached_frame (s : Chip) (x : Tab (List Nat)) : Frame [.map] (s.mapCached x) s := Frame.set_map (by decide) s _

/-- The slot of page `p`, once it has entered. -/
def Chip.newSlot (s : Chip) (p : Nat) (dst : PageRec) (repack : Bool) : Slot :=
  { page := p, src := s.page p, dst := dst, repack := repack, since := s.tb.tc }

/-- The parts that a page's entry into a slot may change. -/
abbrev entryParts : List Part := [.lauter, .kiln, .map, .win, .fault, .heads, .field, .free]

/-- A page that enters slot `i` from a device `s`, whose record was used and whose destination taken: its slot, its record, the other pages
and slots, and the journal (R152 steps 1 and 2). -/
theorem Chip.entered_facts (s c : Chip) (i p : Nat) (x : Tab (List Nat)) (dst : PageRec) (repack : Bool)
    (room : s.journalRoom 1 = true) (frame : Frame [.map, .kiln, .fault, .heads, .field, .free] c (s.mapCached x))
    (pages : ∀ q, c.page q = (s.mapCached x).page q) :
    let t := (c.enterSlot i p dst repack).watchCapacity s
    Tab.find t.lauter.slots i = some (s.newSlot p dst repack) ∧ (∀ j, j ≠ i → Tab.find t.lauter.slots j = Tab.find s.lauter.slots j)
      ∧ t.page p = { s.page p with st := .migrating } ∧ (∀ q, q ≠ p → t.page q = s.page q)
      ∧ (∃ e, t.lauter.journal = s.lauter.journal ++ [e] ∧ e.kind = 4) ∧ Frame entryParts t s := by
  have lauter : c.lauter = s.lauter := frame.lauter (by decide)
  have tb : c.tb = s.tb := frame .tb (by decide)
  have room' : c.journalRoom 1 = true := by
    unfold Chip.journalRoom Chip.journalBytes at room ⊢
    rw [Chip.cfg_of_frame frame (by decide) (by decide), lauter]
    exact room
  obtain ⟨entered, slots, page, others, journal⟩ := c.enterSlot_facts i p dst repack room'
  have watched := (c.enterSlot i p dst repack).watchCapacity_frame s
  have engine : ((c.enterSlot i p dst repack).watchCapacity s).lauter = (c.enterSlot i p dst repack).lauter := watched.lauter (by decide)
  dsimp only
  rw [engine, slots, lauter]
  refine ⟨?_, fun j other => Tab.find_set_other _ _ other, ?_, fun q other => ?_, ?_, ?_⟩
  · rw [Tab.find_set_same, pages, tb]
    rfl
  · rw [watched.page (by decide), page, pages]
    rfl
  · rw [watched.page (by decide), others q other, pages]
    rfl
  · rw [lauter] at journal
    exact journal
  · exact (watched.mono (by decide)).trans ((entered.mono (by decide)).trans
      ((frame.mono (by decide)).trans ((s.mapCached_frame x).mono (by decide))))

/-- The form in which a page enters its destination (R152, R154). -/
def Chip.moveForm (s : Chip) (p : Nat) (tier : PgState) : Bool × Nat :=
  if tier = .hbm then (false, 63)
  else if (s.page p).st = .hbm then gristForm (s.storedGrist p (s.accessRegion (4096 * p))) else ((s.page p).grist, (s.page p).sectors)

/-- Kiln's places do not depend on the map's cache. -/
theorem Chip.movePlace (s : Chip) (p : Nat) (x : Tab (List Nat)) (ch loc : Nat) {t : PgState}
    (place : t = .nvm → s.pruneOlds.placeOk ch loc (s.unitLines p
      (if (s.page p).st = .hbm then gristForm (s.storedGrist p (s.accessRegion (4096 * p))) else ((s.page p).grist, (s.page p).sectors))) = true)
    (nvm : t = .nvm) : (s.mapCached x).pruneOlds.placeOk ch loc ((s.mapCached x).unitLines p (s.moveForm p t)) = true := by
  subst nvm
  exact place rfl

/-- A code names one of the three tiers. -/
theorem tierOfCode_mem (k : Nat) : tierOfCode k = .hbm ∨ tierOfCode k = .ddr ∨ tierOfCode k = .nvm := by
  unfold tierOfCode
  split
  · exact .inl rfl
  · split
    exacts [.inr (.inl rfl), .inr (.inr rfl)]

/-- A page that may enter a slot rests on a tier, and the journal has room for its entry. -/
theorem Chip.slotReady_facts {s : Chip} {i p : Nat} (ready : s.slotReady i p = true) :
    s.journalRoom 1 = true ∧ ((s.page p).st = .hbm ∨ (s.page p).st = .ddr ∨ (s.page p).st = .nvm) := by
  unfold Chip.slotReady Chip.movable PageRec.resting at ready
  simp only [Bool.and_eq_true, decide_eq_true_eq] at ready
  tauto

/-- A migration that may start enters its slot at the destination that its tier gives (R152). -/
theorem Chip.migrationStart_enters (s : Chip) (i p t ch loc : Nat) (x : Tab (List Nat)) (tier : t ≠ 0) (ready : s.slotReady i p = true)
    (may : s.mayMove p t ch = true) (room : s.roomAt (tierOfCode t) ch (s.accessRegion (4096 * p)) = true)
    (serves : tierOfCode t ≠ .ddr ∨ s.stopped ch = false) (own : s.useOwn p = (true, s.mapCached x)) {dst : PageRec} {c : Chip}
    (dest : (s.mapCached x).destination p (tierOfCode t) ch loc (s.moveForm p (tierOfCode t)) = some (dst, c)) :
    s.migrationStart i p t ch loc = (c.enterSlot i p dst false).watchCapacity s := by
  have goes : ¬ (t = 0 ∨ (!s.slotReady i p) = true ∨ (!s.mayMove p t ch) = true
      ∨ (!s.roomAt (tierOfCode t) ch (s.accessRegion (4096 * p))) = true ∨ (tierOfCode t = .ddr ∧ s.stopped ch = true)) := by
    simp only [tier, ready, may, room, Bool.not_true, Bool.false_eq_true, false_or]
    rintro ⟨ddr, stopped⟩
    exact serves.elim (fun notDdr => notDdr ddr) (fun runs => absurd stopped (by simp [runs]))
  unfold Chip.moveForm at dest
  unfold Chip.migrationStart
  dsimp only
  rw [if_neg goes, own]
  dsimp only
  rw [if_pos rfl, dest]

/-- A page that has been written since stays where it is (R195). -/
theorem Chip.repackStart_written (s : Chip) (i p loc : Nat) (written : s.writeIdle p = false) : s.repackStart i p loc = s :=
  if_pos (by simp [written])

/-- Mill has a grist form of the page that gains enough (R195). -/
abbrev Chip.gains (s : Chip) (p : Nat) (g : List Byte) : Prop :=
  g ≠ [] ∧ gristSectors g + s.cfg Obj.millMinGainSectors ≤ s.unitLines p (false, 63)

/-- A page that may be repacked but would not gain enough stays where it is. -/
theorem Chip.repackStart_gainless (s : Chip) (i p loc : Nat)
    (less : ¬ s.gains p (s.storedGrist p (s.accessRegion (4096 * p)))) : s.repackStart i p loc = s := by
  refine if_pos ?_
  by_cases bare : s.storedGrist p (s.accessRegion (4096 * p)) = []
  · exact .inr (.inr (.inr (.inl bare)))
  · exact .inr (.inr (.inr (.inr (.inl (Nat.lt_of_not_le (fun le => less ⟨bare, le⟩))))))

/-- A plain page off HBM, long not written, may be repacked where its tier and channel have room; the use of its record leaves `x` in the
map's cache (R195). -/
abbrev Chip.mayRepack (s : Chip) (i p : Nat) (x : Tab (List Nat)) : Prop :=
  s.slotReady i p = true ∧ (s.page p).grist = false ∧ (s.page p).st ≠ .hbm ∧ s.writeIdle p = true
    ∧ s.roomAt (s.page p).st (s.page p).ch (s.accessRegion (4096 * p)) = true ∧ s.useOwn p = (true, s.mapCached x)

/-- A page whose repack gains enough asks for a destination on its own tier and channel (R195). -/
theorem Chip.repackStart_uses (s : Chip) (i p loc : Nat) (x : Tab (List Nat)) (may : s.mayRepack i p x)
    (gain : s.gains p (s.storedGrist p (s.accessRegion (4096 * p)))) :
    s.repackStart i p loc
      = match (s.mapCached x).destination p (s.page p).st (s.page p).ch loc (gristForm (s.storedGrist p (s.accessRegion (4096 * p)))) with
        | none => s.mapCached x
        | some (dst, c) => (c.enterSlot i p dst true).watchCapacity s := by
  obtain ⟨grist, enough⟩ := gain
  obtain ⟨ready, plain, off, idle, room, own⟩ := may
  unfold Chip.repackStart
  dsimp only
  rw [if_neg (by simp [ready, plain, off, idle, room, grist, enough]), own]
  rfl

/-- A grist form of Mill's, and the media lines it takes. -/
theorem gristForm_some {g : List Byte} (grist : g ≠ []) : gristForm g = (true, gristSectors g - 1) := if_neg grist

/-- A page of the non-volatile tier that Kiln places nowhere stays where it is; its record's use alone is noted. -/
theorem Chip.repackStart_placeless (s : Chip) (i p loc : Nat) (x : Tab (List Nat)) (may : s.mayRepack i p x)
    (gain : s.gains p (s.storedGrist p (s.accessRegion (4096 * p))))
    (noPlace : ¬ ((s.page p).st = .nvm → s.pruneOlds.placeOk (s.page p).ch loc
      (gristSectors (s.storedGrist p (s.accessRegion (4096 * p))) - 1 + 1) = true)) : s.repackStart i p loc = s.mapCached x := by
  obtain ⟨nvm, refused⟩ := Classical.not_imp.mp noPlace
  rw [s.repackStart_uses i p loc x may gain, nvm, gristForm_some gain.1,
    (s.mapCached x).destination_none p (s.page p).ch loc
      (true, gristSectors (s.storedGrist p (s.accessRegion (4096 * p))) - 1) (Bool.eq_false_iff.mpr refused)]

/-- A repack that gains enough and has its place enters its slot with the grist form as its destination (R195). -/
theorem Chip.repackStart_enters (s : Chip) (i p loc : Nat) (x : Tab (List Nat)) (may : s.mayRepack i p x)
    (gain : s.gains p (s.storedGrist p (s.accessRegion (4096 * p))))
    (place : (s.page p).st = .nvm → s.pruneOlds.placeOk (s.page p).ch loc
      (gristSectors (s.storedGrist p (s.accessRegion (4096 * p))) - 1 + 1) = true) :
    ∃ dst c, s.repackStart i p loc = (c.enterSlot i p dst true).watchCapacity s ∧ dst.st = (s.page p).st ∧ dst.ch = (s.page p).ch
      ∧ dst.grist = true ∧ dst.sectors = gristSectors (s.storedGrist p (s.accessRegion (4096 * p))) - 1
      ∧ Frame [.map, .kiln, .fault, .heads, .field, .free] c (s.mapCached x) ∧ ∀ q, c.page q = (s.mapCached x).page q := by
  have uses := s.repackStart_uses i p loc x may gain
  obtain ⟨ready, -, off, -⟩ := may
  obtain ⟨dst, c, dest⟩ := (s.mapCached x).destination_isSome p (s.page p).st (s.page p).ch loc
    (true, gristSectors (s.storedGrist p (s.accessRegion (4096 * p))) - 1) place
  obtain ⟨tier, form, -, -, frame, pages⟩ := Chip.destination_facts _ _ _ _ _ _ _ _ (Chip.slotReady_facts ready).2 dest
  obtain ⟨chan, grist, sectors⟩ := form off
  refine ⟨dst, c, ?_, tier, chan, grist, sectors, frame, pages⟩
  rw [uses, gristForm_some gain.1, dest]

/-! ### The end of a copy pass (R153, R155, R195) -/

/-- The slot `i` takes a value. -/
def Chip.putSlot (s : Chip) (i : Nat) (x : Slot) : Chip := { s with lauter := { s.lauter with slots := Tab.set s.lauter.slots i x } }

/-- Another pass begins: it copies the lines that changed, with an empty mask (R153). -/
def Chip.nextPass (s : Chip) (i : Nat) (m x : Slot) : Chip :=
  (s.putSlot i { x with mask := 0, pass := m.mask }).queueCopy (if m.mask = 0 then 0 else passBytes m m.mask)

/-- What the end of a pass leads to, once its lines are read (R155, R195). -/
def Chip.passEnded (s : Chip) (i : Nat) (m x : Slot) : Chip :=
  if m.repack then (if m.mask = 0 then s.putSlot i { x with stage := .holding, pass := 0 } else s.abandon i)
  else if m.changed ≤ s.cfg Obj.lauterSwingMaxLines then s.nextPass i m { x with stage := .holding }
  else if s.cfg Obj.lauterRecopyPasses ≤ m.passes then s.abandon i
  else s.nextPass i m { x with passes := m.passes + 1 }

/-- A copy pass that ends: its lines are read, and what follows is decided, unless a read paused it (R158). -/
theorem Chip.copyPassEnd_acts (s : Chip) (i : Nat) (obs : List (Fin 64 × Obs)) (m x now : Slot) (u : Chip)
    (slot : Tab.find s.lauter.slots i = some m) (copying : m.stage = .copying) (runs : m.paused = false) (time : s.moveTime = true)
    (reads : s.endPass m obs = (x, u)) (still : Tab.find u.lauter.slots i = some now) (goes : now.paused = false) :
    s.copyPassEnd i obs = u.passEnded i m x := by
  unfold Chip.copyPassEnd
  rw [slot]
  dsimp only
  rw [if_neg (by simp [copying, runs, time]), reads]
  dsimp only
  rw [still]
  dsimp only
  rw [if_neg (by simp [goes])]
  rfl

/-- Reading the lines of a pass keeps the configuration, and may change what reads may. -/
theorem Chip.endPass_facts (s : Chip) (m x : Slot) (obs : List (Fin 64 × Obs)) (u : Chip) (reads : s.endPass m obs = (x, u)) :
    Frame readParts u s ∧ ∀ k, u.cfg k = s.cfg k := by
  have frame := (s.endPass_read m obs).1
  rw [reads] at frame
  exact ⟨frame, fun k => Chip.cfg_of_frame frame (by decide) (by decide) k⟩

/-! ### The swing (R152 steps 5 and 6) -/

/-- The swing's changes before its record: the lines found bad are poisoned, and what Husk and Kiln hold of the source is dropped. -/
def Chip.swingReady (s : Chip) (m : Slot) : Chip :=
  let s := s.poisonLines m.page m.bad
  let s := if m.transforms then s.freshMacs m.page else s
  if m.src.st = .nvm ∧ m.dst.st ≠ .nvm then s.dropAbsorbed m.page else s

/-- Two units of the engine set at once. -/
theorem Frame.set_lauter_mill (s : Chip) (x : LauterUnit) (y : MillUnit) : Frame [.lauter, .mill] { s with lauter := x, mill := y } s :=
  (Frame.set_mill (by decide) { s with lauter := x } y).trans (Frame.set_lauter (by decide) s x)

/-- The record that a swing gives the page (R152). -/
def Chip.swungRec (s : Chip) (m : Slot) : PageRec := { m.dst with heat := (s.page m.page).heat, gen := (m.src.gen + 1) % 16 }

theorem Chip.freshMacs_frame (s : Chip) (p : Nat) : Frame [.macs] (s.freshMacs p) s := Frame.set_macs (by decide) s _

theorem Chip.swingReady_facts (s : Chip) (m : Slot) : Frame [.poison, .integ, .macs, .kiln] (s.swingReady m) s
    ∧ ∀ k, k < 64 → bitOf m.bad k = true → (s.swingReady m).poisoned (64 * (64 * m.page + k)) = true := by
  have rest : Frame [.macs, .kiln] (s.swingReady m) (s.poisonLines m.page m.bad) :=
    (Frame.ite _ ((Chip.dropAbsorbed_frame _ _).mono (by decide)) (Frame.refl _ _)).trans
      (Frame.ite _ ((Chip.freshMacs_frame _ _).mono (by decide)) (Frame.refl _ _))
  refine ⟨(rest.mono (by decide)).trans ((s.poisonLines_frame m.page m.bad).mono (by decide)), fun k low bad => ?_⟩
  rw [rest.poisoned (by decide)]
  exact s.poisonLines_marks m.page m.bad k low bad

/-- A held slot outside BURST swings once its last lines are read, where its stored form still fits (R152, R155). -/
theorem Chip.swing_acts (s : Chip) (i : Nat) (obs : List (Fin 64 × Obs)) (m x now : Slot) (v u : Chip)
    (slot : Tab.find s.lauter.slots i = some m) (holds : m.stage = .holding) (runs : m.paused = false) (calm : s.inBurst = false)
    (room : s.journalRoom 1 = true) (own : s.useOwn m.page = (true, v)) (reads : v.endPass m obs = (x, u))
    (still : Tab.find u.lauter.slots i = some now) (goes : now.paused = false) (fits : u.outgrown x = false) :
    s.swing i obs = u.swingNow i x := by
  unfold Chip.swing
  rw [slot]
  dsimp only
  rw [if_neg (by simp [holds, runs, calm, room]), own]
  dsimp only
  rw [if_pos rfl, reads]
  dsimp only
  rw [still]
  dsimp only
  rw [if_neg (by simp [goes]), if_neg (by simp [fits])]

/-- The swing: the page's record, the other pages, the slot, the counts and the poisoned lines (R152, R153). -/
theorem Chip.swingNow_facts (s : Chip) (i : Nat) (m : Slot) :
    let t := s.swingNow i m
    t.page m.page = s.swungRec m ∧ (∀ q, q ≠ m.page → t.page q = s.page q) ∧ Tab.find t.lauter.slots i = some { m with stage := .swung }
      ∧ t.lauter.migrations = s.lauter.migrations + 1 ∧ t.mill.repacks = s.mill.repacks + (if m.repack then 1 else 0)
      ∧ (∀ k, k < 64 → bitOf m.bad k = true → t.poisoned (64 * (64 * m.page + k)) = true)
      ∧ Frame [.lauter, .kiln, .map, .mill, .poison, .integ, .macs] t s := by
  obtain ⟨ready, marks⟩ := s.swingReady_facts m
  have committed := (s.swingReady m).commitPage_frame m.page (s.swungRec m)
  obtain ⟨j, b, n, engine⟩ := (s.swingReady m).commitPage_journal m.page (s.swungRec m)
  have lauter : (s.swingReady m).lauter = s.lauter := ready.lauter (by decide)
  have mill : ((s.swingReady m).commitPage m.page (s.swungRec m)).mill = s.mill :=
    (committed .mill (by decide)).trans (ready .mill (by decide))
  have last : Frame [.lauter, .mill] (s.swingNow i m) ((s.swingReady m).commitPage m.page (s.swungRec m)) :=
    Frame.set_lauter_mill ((s.swingReady m).commitPage m.page (s.swungRec m)) (s.swingNow i m).lauter (s.swingNow i m).mill
  have same : ∀ q, (s.swingNow i m).page q = ((s.swingReady m).commitPage m.page (s.swungRec m)).page q := last.page (by decide)
  refine ⟨(same _).trans (Chip.commitPage_page _ _ _), fun q other => ?_, Tab.find_set_same _ _ _, ?_, ?_, fun k low bad => ?_, ?_⟩
  · rw [same, Chip.commitPage_other _ _ _ other, ready.page (by decide)]
  · show ((s.swingReady m).commitPage m.page (s.swungRec m)).lauter.migrations + 1 = _
    rw [engine, lauter]
  · show ((s.swingReady m).commitPage m.page (s.swungRec m)).mill.repacks + _ = _
    rw [mill]
  · rw [last.poisoned (by decide), committed.poisoned (by decide)]
    exact marks k low bad
  · exact (last.mono (by decide)).trans ((committed.mono (by decide)).trans (ready.mono (by decide)))

/-- A swung slot is freed (R152 step 7). -/
theorem Chip.sourceRelease_frees (s : Chip) (i : Nat) (m : Slot) (slot : Tab.find s.lauter.slots i = some m) (swung : m.stage = .swung) :
    s.sourceRelease i = { s with lauter := { s.lauter with slots := Tab.del s.lauter.slots i } } := by
  unfold Chip.sourceRelease
  rw [slot]
  exact if_pos swung

end Sys2Proof.Machine

open Sys2Proof Sys2Proof.Machine

/-- Settles O20. A page that enters a slot does so by one lemma for a migration and a repack; the end of a pass is decided as the model
decides it; the swing's record, marks and frame are those of its parts. -/
theorem migrationsFollowTheirSteps : Obligations.MigrationsFollowTheirSteps := by
  refine ⟨?start, ?repack, ?written, ?hold, ?again, ?abandon, ?repackHold, ?repackAbandon, ?swing, ?release⟩
  case start =>
    intro s i p k ch loc code ready may room serves clean place
    obtain ⟨x, own⟩ := s.chip.useOwn_clean p.toNat clean
    obtain ⟨dst, c, dest⟩ := (s.chip.mapCached x).destination_isSome p.toNat (tierOfCode k) ch loc.toNat
      (s.chip.moveForm p.toNat (tierOfCode k)) (s.chip.movePlace p.toNat _ ch loc.toNat place)
    obtain ⟨tier, form, placed, -, frame, pages⟩ := Chip.destination_facts _ _ _ _ _ _ _ _ (tierOfCode_mem k) dest
    obtain ⟨slot, slots, page, others, journal, entered⟩ :=
      s.chip.entered_facts c i p.toNat x dst false (Chip.slotReady_facts ready).1 frame pages
    exact ⟨_, s.chip.newSlot p.toNat dst false,
      Effect.of_eq rfl (s.chip.migrationStart_enters i p.toNat k ch loc.toNat x (Fin.val_ne_of_ne code) ready may room serves own dest),
      slot, rfl, rfl, tier, fun off => (form off).1, placed, rfl, rfl, rfl, rfl, rfl, slots, page, others, journal, entered⟩
  case repack =>
    intro s i p loc ready plain off idle room clean
    obtain ⟨x, own⟩ := s.chip.useOwn_clean p.toNat clean
    by_cases gain : s.chip.gains p.toNat (s.chip.storedGrist p.toNat (s.chip.accessRegion (4096 * p.toNat)))
    · by_cases place : (s.chip.page p.toNat).st = .nvm → s.chip.pruneOlds.placeOk (s.chip.page p.toNat).ch loc.toNat
          (gristSectors (s.chip.storedGrist p.toNat (s.chip.accessRegion (4096 * p.toNat))) - 1 + 1) = true
      · obtain ⟨dst, c, enters, tier, chan, grist, sectors, frame, pages⟩ :=
          s.chip.repackStart_enters i p.toNat loc.toNat x ⟨ready, plain, off, idle, room, own⟩ gain place
        obtain ⟨slot, slots, page, others, -, entered⟩ :=
          s.chip.entered_facts c i p.toNat x dst true (Chip.slotReady_facts ready).1 frame pages
        refine ⟨_, Effect.of_eq rfl enters, entered, others, ?_⟩
        rintro g rfl
        rw [if_pos ⟨gain.1, gain.2, place⟩]
        exact ⟨s.chip.newSlot p.toNat dst true, slot, rfl, rfl, tier, chan, grist, sectors, rfl, rfl, rfl, slots, page⟩
      · have stays := s.chip.repackStart_placeless i p.toNat loc.toNat x ⟨ready, plain, off, idle, room, own⟩ gain place
        refine ⟨_, Effect.of_eq rfl stays, (s.chip.mapCached_frame x).mono (by decide), fun q other => rfl, ?_⟩
        rintro g rfl
        rw [if_neg (fun all => place all.2.2)]
        exact ⟨rfl, rfl⟩
    · refine ⟨_, Effect.of_eq rfl (s.chip.repackStart_gainless i p.toNat loc.toNat gain), Frame.refl _ _, fun _ _ => rfl, ?_⟩
      rintro g rfl
      rw [if_neg (fun all => gain ⟨all.1, all.2.1⟩)]
      exact ⟨rfl, rfl⟩
  case written =>
    intro s i p loc written
    exact Effect.of_eq rfl (s.chip.repackStart_written i p.toNat loc.toNat written)
  case hold =>
    intro s i m obs b u now slot copying runs time reads still goes moves few
    obtain ⟨frame, cfg⟩ := s.chip.endPass_facts m _ obs u reads
    refine ⟨Effect.of_eq rfl ((s.chip.copyPassEnd_acts i obs m _ now u slot copying runs time reads still goes).trans ?_), frame⟩
    unfold Chip.passEnded
    rw [if_neg (by simp [moves]), if_pos (by rw [cfg]; exact few)]
    rfl
  case again =>
    intro s i m obs b u now slot copying runs time reads still goes moves many left
    obtain ⟨frame, cfg⟩ := s.chip.endPass_facts m _ obs u reads
    refine ⟨Effect.of_eq rfl ((s.chip.copyPassEnd_acts i obs m _ now u slot copying runs time reads still goes).trans ?_), frame⟩
    unfold Chip.passEnded
    rw [if_neg (by simp [moves]), if_neg (by rw [cfg]; omega), if_neg (by rw [cfg]; omega)]
    rfl
  case abandon =>
    intro s i m obs b u now slot copying runs time reads still goes moves many none
    obtain ⟨frame, cfg⟩ := s.chip.endPass_facts m _ obs u reads
    obtain ⟨kept, slots, count, barred, pages, -⟩ := u.abandon_facts i now still
    refine ⟨u.abandon i, Effect.of_eq rfl ((s.chip.copyPassEnd_acts i obs m _ now u slot copying runs time reads still goes).trans ?_),
      slots, count, barred, pages, kept, frame⟩
    unfold Chip.passEnded
    rw [if_neg (by simp [moves]), if_neg (by rw [cfg]; omega), if_pos (by rw [cfg]; exact none)]
  case repackHold =>
    intro s i m obs b u now slot copying runs time reads still goes repack unchanged
    obtain ⟨frame, -⟩ := s.chip.endPass_facts m _ obs u reads
    refine ⟨Effect.of_eq rfl ((s.chip.copyPassEnd_acts i obs m _ now u slot copying runs time reads still goes).trans ?_), frame⟩
    unfold Chip.passEnded
    rw [if_pos repack, if_pos unchanged]
    rfl
  case repackAbandon =>
    intro s i m obs b u now slot copying runs time reads still goes repack changed
    obtain ⟨frame, -⟩ := s.chip.endPass_facts m _ obs u reads
    obtain ⟨kept, slots, count, barred, pages, -⟩ := u.abandon_facts i now still
    refine ⟨u.abandon i, Effect.of_eq rfl ((s.chip.copyPassEnd_acts i obs m _ now u slot copying runs time reads still goes).trans ?_),
      slots, count, barred, pages, kept, frame⟩
    unfold Chip.passEnded
    rw [if_pos repack, if_neg changed]
  case swing =>
    intro s i m obs b v u now slot holds runs calm room own reads still goes fits
    obtain ⟨page, others, swung, count, repacks, marks, frame⟩ := u.swingNow_facts i { m with bad := b }
    refine ⟨_, Effect.of_eq rfl (s.chip.swing_acts i obs m _ now v u slot holds runs calm room own reads still goes fits), ?_, ?_, ?_, ?_, ?_,
      others, swung, count, repacks, marks, frame, (v.endPass_facts m _ obs u reads).1⟩ <;> exact (congrArg _ page).trans rfl
  case release =>
    intro s i m slot swung
    exact Effect.of_eq rfl (s.chip.sourceRelease_frees i m slot swung)

end

section
/-!
PROOFS. The heads: training (R50 to R52), detection and failover (R76, R77), resets (R539) and IDE streams (R72, R228).
-/
namespace Sys2Proof.Machine

/-! ### Training and detection (R51, R52, R76) -/

/-- HEAD_TRAINED: a present head whose link may carry CXL.mem is ACTIVE, and nothing waited for it (R52). -/
theorem Chip.headTrained_active (s : Chip) (h width rate flit : Nat) (present : s.headPresent h = true)
    (on : s.domain (headDomain h) = .on) (wide : width = 4 ∨ width = 8 ∨ width = 16) (lanes : width ≤ s.headLanes h) (fast : 16 ≤ rate)
    (ok : s.trainedOk rate flit true = true) (free : s.waits.all (fun w => decide (w.why ≠ .detect)) = true) (unowed : (s.head h).owed = []) :
    s.headTrained h width rate flit true
      = s.setHead h { s.head h with width := width, rate := rate, flit := flit, state := .active, detect := false } := by
  have listed : [1, 2, 4, 8, 16].contains width = true := by rcases wide with rfl | rfl | rfl <;> rfl
  have least : 4 ≤ width := by omega
  unfold Chip.headTrained
  rw [if_pos ⟨present, on, lanes, listed, ok⟩, if_pos ⟨rfl, fast, least⟩]
  exact Chip.resume_none _ h free (by rw [Chip.head_setHead]; exact unowed)

/-- HEAD_LINK_DOWN of an ACTIVE head begins its detection interval (R76). -/
theorem Chip.headLinkDown_active (s : Chip) (h : Nat) (active : (s.head h).state = .active) :
    s.headLinkDown h = s.setHead h { s.head h with detect := true } := by
  unfold Chip.headLinkDown
  simp only [active]

/-- HEAD_LINK_UP within the interval ends it, and nothing waited for it (R76). -/
theorem Chip.headLinkUp_detect (s : Chip) (h : Nat) (active : (s.head h).state = .active) (detect : (s.head h).detect = true)
    (free : s.waits.all (fun w => decide (w.why ≠ .detect)) = true) (unowed : (s.head h).owed = []) :
    s.headLinkUp h = s.setHead h { s.head h with detect := false } := by
  unfold Chip.headLinkUp
  rw [if_pos ⟨active, detect⟩]
  exact Chip.resume_none _ h free (by rw [Chip.head_setHead]; exact unowed)

/-! ### Failover (R77) -/

/-- A group with an ACTIVE head has a head to answer through, which is not one that is lost. -/
theorem Chip.groupHead_survives (s : Chip) (g h : Nat) (n : Fin 4) (mine : s.headAgent n = g) (active : (s.head n).state = .active)
    (lost : (s.head h).state ≠ .active) : ∃ m, s.groupHead g = some m ∧ m ≠ h := by
  have up {m : Nat} {l : List Nat} (found : l.find? (fun k => decide (s.headAgent k = g ∧ (s.head k).state = .active)) = some m) : m ≠ h := by
    rintro rfl
    have both := List.find?_some found
    exact lost (of_decide_eq_true both).2
  unfold Chip.groupHead
  dsimp only
  split
  next m found =>
    refine ⟨m, rfl, ?_⟩
    rintro rfl
    have both := List.find?_some found
    rw [Bool.and_eq_true] at both
    exact lost (of_decide_eq_true both.1).2
  next =>
    have listed : (n : Nat) ∈ [0, 1, 2, 3] := by fin_cases n <;> decide
    have some : ([0, 1, 2, 3].find? (fun k => decide (s.headAgent k = g ∧ (s.head k).state = .active))).isSome = true :=
      List.find?_isSome.mpr ⟨n, listed, by simp [mine, active]⟩
    obtain ⟨m, found⟩ := Option.isSome_iff_exists.mp some
    exact ⟨m, found, up found⟩

/-- With no transaction open no snoop goes out again (R77). -/
theorem Chip.resnoop_none (s : Chip) (g h n : Nat) (none : s.coh.txns = []) : s.resnoop g h n = s := by
  have same : ({ s with coh := { s.coh with txns := [] } } : Chip) = s := by rw [← none]
  unfold Chip.resnoop
  simp only [none, List.flatMap_nil, List.map_nil, List.foldl_nil]
  exact same

/-- A head that is lost while another of its group serves (R77): it is counted and recorded, the source is raised, and memory stays. -/
theorem Chip.loseHead_survived (s : Chip) (h n : Fin 4) (st : HeadState) (other : n ≠ h) (group : s.headAgent n = s.headAgent h)
    (active : (s.head n).state = .active) (none : s.coh.txns = []) (lost : st ≠ .active) :
    ((s.loseHead h st).head h).state = st ∧ ((s.loseHead h st).head h).failovers = (s.head h).failovers + 1
      ∧ ((s.loseHead h st).head h).failRec ≠ .none ∧ (s.loseHead h st).sticky 17 = true ∧ (s.loseHead h st).mem = s.mem := by
  have differ : (n : Nat) ≠ h := fun e => other (Fin.ext e)
  obtain ⟨f, dropped⟩ := (s.setHead h { s.head h with state := st, detect := false }).dropOutstanding_same h
  rw [Chip.head_setHead] at dropped
  have survivor := (s.setHead h { s.head h with state := st, detect := false }).dropOutstanding_other h n differ
  rw [Chip.head_setHead_other _ _ differ] at survivor
  have open' := (s.setHead h { s.head h with state := st, detect := false }).dropOutstanding_txns h none
  unfold Chip.loseHead
  dsimp only
  generalize hd : (s.setHead h { s.head h with state := st, detect := false }).dropOutstanding h = d at *
  have mem : d.mem = s.mem := by rw [← hd]; rfl
  have agent : d.headAgent n = s.headAgent h := by rw [← hd]; exact group
  obtain ⟨m, found, away⟩ := d.groupHead_survives (s.headAgent h) h n agent (by rw [survivor]; exact active)
    (by rw [dropped]; exact lost)
  rw [found]
  dsimp only
  rw [d.resnoop_none _ _ _ open', Chip.head_setHead]
  have same (x : Head) : (d.setHead m x).head h = d.head h := Chip.head_setHead_other d x (Ne.symm away)
  refine ⟨?_, ?_, ?_, Chip.raise_sticky _ 17 _ _ _ _, ?_⟩
  · simp [same, dropped]
  · simp [same, dropped]
  · simp [same, dropped]
  · simp [mem]

/-! ### Resets of a port or a head (R539) -/

/-- A link that goes down changes its own head only. -/
theorem Chip.headLinkDown_facts (s : Chip) (h : Nat) : Frame [.heads] (s.headLinkDown h) s
    ∧ ∀ j, j ≠ h → (s.headLinkDown h).head j = s.head j := by
  unfold Chip.headLinkDown
  dsimp only
  split
  · exact ⟨Frame.set_heads (by decide) _ _, fun j other => Chip.head_setHead_other _ _ other⟩
  · exact ⟨Frame.set_heads (by decide) _ _, fun j other => Chip.head_setHead_other _ _ other⟩
  · exact ⟨Frame.refl _ _, fun _ _ => rfl⟩

/-- A conventional reset of a head takes its mailbox, window and decoders, and nothing of another head. -/
theorem Chip.resetFunction_facts (s : Chip) (h : Nat) : Frame [.heads] (s.resetFunction h) s
    ∧ ((s.resetFunction h).head h).mbox = {} ∧ ((s.resetFunction h).head h).bar2 = {} ∧ ((s.resetFunction h).head h).hdm = []
    ∧ ∀ j, j ≠ h → (s.resetFunction h).head j = s.head j := by
  unfold Chip.resetFunction
  rw [Chip.head_setHead]
  exact ⟨Frame.set_heads (by decide) _ _, rfl, rfl, rfl, fun j other => Chip.head_setHead_other _ _ other⟩

/-- PERST_ASSERT resets both heads of the port, and nothing else (R539). -/
theorem Chip.perst_facts (s : Chip) (port h : Nat) (mine : h / 2 = port) : Frame [.heads] (s.perst port) s
    ∧ ((s.perst port).head h).mbox = {} ∧ ((s.perst port).head h).bar2 = {} ∧ ((s.perst port).head h).hdm = [] := by
  have run : s.perst port = (((s.headLinkDown (2 * port)).resetFunction (2 * port)).headLinkDown (2 * port + 1)).resetFunction (2 * port + 1) := rfl
  rw [run]
  obtain ⟨down, -⟩ := s.headLinkDown_facts (2 * port)
  obtain ⟨reset, mbox, bar2, hdm, -⟩ := (s.headLinkDown (2 * port)).resetFunction_facts (2 * port)
  generalize (s.headLinkDown (2 * port)).resetFunction (2 * port) = t at reset mbox bar2 hdm
  obtain ⟨down', apart⟩ := t.headLinkDown_facts (2 * port + 1)
  obtain ⟨reset', mbox', bar2', hdm', apart'⟩ := (t.headLinkDown (2 * port + 1)).resetFunction_facts (2 * port + 1)
  refine ⟨reset'.trans (down'.trans (reset.trans down)), ?_⟩
  obtain rfl | rfl : h = 2 * port ∨ h = 2 * port + 1 := by omega
  · rw [apart' _ (by omega), apart _ (by omega)]
    exact ⟨mbox, bar2, hdm⟩
  · exact ⟨mbox', bar2', hdm'⟩

/-! ### IDE streams (R228) -/

/-- An integrity failure of a stream other than that of CXL.mem takes the stream alone (R228). -/
theorem Chip.ideFailure_stream (s : Chip) (h stream : Nat) (cache : stream ≠ 0) (keyed : bitOf (s.head h).ideKeyed stream = true)
    (secure : bitOf (s.head h).ideInsecure stream = false) :
    s.ideFailure h stream = (s.setHead h { s.head h with
      ideInsecure := setBit (s.head h).ideInsecure stream true, ras := setBit (s.head h).ras 0 true }).raise 19 h 0 (.head h) := by
  unfold Chip.ideFailure
  simp [cache, keyed, secure]

end Sys2Proof.Machine

open Sys2Proof Sys2Proof.Machine

/-- Settles O6. The commands of a link and the resets act on their heads alone; a lost head's group answers on through another head, and with no
transaction open no snoop is sent again. -/
theorem headsTrainFailOverAndReset : Obligations.HeadsTrainFailOverAndReset := by
  refine ⟨?trained, ?down, ?up, ?lost, ?perst, ?flr, ?key, ?failure⟩
  case trained =>
    intro s h width rate flit present on wide lanes fast ok free unowed
    exact Effect.of_eq rfl (s.chip.headTrained_active h width rate flit present on wide lanes fast ok free unowed)
  case down =>
    intro s h active
    exact Effect.of_eq rfl (s.chip.headLinkDown_active h active)
  case up =>
    intro s h active detect free unowed
    exact Effect.of_eq rfl (s.chip.headLinkUp_detect h active detect free unowed)
  case lost =>
    intro s h n active detect other group serves none
    exact ⟨s.chip.loseHead h .lost, Effect.of_eq rfl (if_pos ⟨active, detect⟩),
      s.chip.loseHead_survived h n .lost other group serves none (by decide)⟩
  case perst =>
    intro s port h mine
    obtain ⟨frame, mbox, bar2, hdm⟩ := s.chip.perst_facts port h mine
    exact ⟨_, rfl, mbox, bar2, hdm, frame⟩
  case flr =>
    intro s h
    rfl
  case key =>
    intro s h stream contain
    rfl
  case failure =>
    intro s h stream cache keyed secure
    have raised := Chip.raise_eq (s.chip.setHead h { s.chip.head h with
      ideInsecure := setBit (s.chip.head h).ideInsecure stream true, ras := setBit (s.chip.head h).ras 0 true }) 19 h 0 (.head h) [0, 1, 2, 3]
    refine ⟨_, Effect.of_eq rfl (s.chip.ideFailure_stream h stream (fun z => cache (Fin.ext z)) keyed secure), ?_, Chip.raise_sticky _ _ _ _ _ _, ?_,
      (raised.frame.mono (by decide)).trans (Frame.set_heads (by decide) _ _)⟩
    · simp
    · simp

end

section
/-!
PROOFS. CXL.mem reads and writes of a head (R61): past the checks, below a home that has no domain for the line, and back to the head.
-/
namespace Sys2Proof.Machine

/-! ### The request and its answer -/

/-- What a head asks of memory at `dla`. -/
abbrev headAcc (h : Fin 4) (k : AccKind) (dla : Nat) (mask : BitVec 64) (data : Line) (tag : Nat) (mv : Meta) : Access :=
  ⟨h, .byDir, k, lineBase dla, mask, data, false, true, 0, .head h tag mv⟩

/-- The counters take a value. -/
def Chip.counted (s : Chip) (x : CntUnit) : Chip := { s with cnt := x }

/-- A counted request changes the counters alone (R554). -/
theorem Chip.countAsk_eq (s : Chip) (k : Nat) (q : Ask) (n : Nat) : ∃ x, s.countAsk k q n = s.counted x := by
  unfold Chip.countAsk
  split
  · exact ⟨_, rfl⟩
  · exact ⟨s.cnt, rfl⟩

/-- A checked access to the memory window whose cask has no domain, nor is on its way into one, enters below the home (R111, R117). -/
theorem Chip.request_ok (s : Chip) (a : Access) (o : Obs) {k : Nat} (memory : dlaWin a.dla = .memory) (ok : s.verdict a o = .ok k)
    (still : s.assigning k = false) (alone : s.caskDomain k = none) : s.request a o = s.enter a o := by
  unfold Chip.request Chip.requestAt Chip.access
  simp only [memory, ok, still, alone, Bool.false_eq_true, if_false]

/-- A head's read completes: it is counted, and answered (R61, R554). -/
theorem Chip.finishRead_head (s : Chip) (h : Fin 4) (dla tag : Nat) (mv : Meta) (d : Line) (up : (s.head h).detect = false) :
    ((s.finishRead (headAcc h .read dla 0 0 tag mv) {} d false).head h).sent
      = (s.head h).sent ++ [.data tag d false (decide (mv = .i))]
    ∧ Frame [.heads, .cnt] (s.finishRead (headAcc h .read dla 0 0 tag mv) {} d false) s := by
  obtain ⟨x, counts⟩ : ∃ x, s.readStats (headAcc h .read dla 0 0 tag mv) {} = s.counted x := by
    obtain ⟨x, e⟩ := s.countAsk_eq (64 * h + 2) (s.askOf (headAcc h .read dla 0 0 tag mv)) 1
    refine ⟨x, ?_⟩
    unfold Chip.readStats
    rw [if_pos h.isLt]
    dsimp only
    rw [e]
    rfl
  unfold Chip.finishRead
  simp only [Ret.isHome, Bool.false_eq_true, if_false, counts]
  exact ⟨Chip.deliver_head_sent _ _ _ _ _ _ _ _ up,
    ((s.counted x).deliver_head_frame h tag mv .read (lineBase dla) d false).trans (Frame.set_cnt (by decide) s x)⟩

/-- A head's write completes: it is counted, and answered (R61, R554). -/
theorem Chip.finishWrite_head (s : Chip) (h : Fin 4) (dla tag : Nat) (mv : Meta) (mask : BitVec 64) (data : Line)
    (up : (s.head h).detect = false) :
    ((s.finishWrite (headAcc h .write dla mask data tag mv)).head h).sent = (s.head h).sent ++ [.cmp tag]
    ∧ Frame [.heads, .cnt] (s.finishWrite (headAcc h .write dla mask data tag mv)) s := by
  obtain ⟨x, counts⟩ := s.countAsk_eq (64 * h + 3) (s.askOf (headAcc h .write dla mask data tag mv)) 1
  have run : s.finishWrite (headAcc h .write dla mask data tag mv) = (s.counted x).deliver (.head h tag mv) .write (lineBase dla) 0 false := by
    unfold Chip.finishWrite
    simp [h.isLt, counts]
  rw [run]
  exact ⟨Chip.deliver_head_sent _ _ _ _ _ _ _ _ up,
    ((s.counted x).deliver_head_frame h tag mv .write (lineBase dla) 0 false).trans (Frame.set_cnt (by decide) s x)⟩

/-! ### Reads (R85, R236) -/

/-- The map cache takes a value. -/
def Chip.mapUsed (s : Chip) (x : Tab (List Nat)) : Chip := { s with map := { s.map with cache := x } }

/-- A read of an unwritten page is zeros at once (R85). -/
theorem Chip.readBelow_unwritten (s : Chip) (a : Access) (o : Obs) (unwritten : (s.page (pageNo a.dla)).st = .unwritten) :
    s.readBelow a o = s.finishRead a o 0 false := by
  have source : s.srcRec (pageNo a.dla) = s.page (pageNo a.dla) := by
    unfold Chip.srcRec
    simp [unwritten]
  unfold Chip.readBelow
  simp only [source, unwritten, reduceCtorEq, if_false, if_true]

/-- A demand moves the stream trackers of the cache alone (R248). -/
theorem Chip.trackDemand_frame (s : Chip) (master ln : Nat) (bind : Binding) (miss : Bool) :
    Frame [.cache] (s.trackDemand master ln bind miss) s := by
  unfold Chip.trackDemand
  dsimp only
  split
  · exact Frame.refl _ _
  · split
    · exact Frame.ite _ (Frame.set_cache (by decide) s _) (Frame.refl _ _)
    · exact Frame.ite _ (Frame.set_cache (by decide) s _) (Frame.refl _ _)

/-- A bound master's read of a written page, whose key is there, that finds its line in a cache way is answered from memory's line (R236). -/
theorem Chip.readBelow_cached (s : Chip) (a : Access) {e : CLine} (bound : a.bind ≠ .raw) (sound : (s.page (pageNo a.dla)).st ≠ .poisoned)
    (written : (s.srcRec (pageNo a.dla)).st ≠ .unwritten) (whole : s.map.repairing = []) (key : s.keyAbsent a = false)
    (cached : Tab.find s.cache.lines (lineNo a.dla) = some e) (clean : s.poisoned a.dla = false) :
    ∃ t, Frame [.cache] t s ∧ s.readBelow a {} = t.finishRead a {} (s.line a.dla) false := by
  have intact : s.underRepair (pageNo a.dla) = false := by simp [Chip.underRepair, whole]
  obtain ⟨x, fill⟩ : ∃ x, s.fill (lineNo a.dla) = some { s with cache := x } := by
    unfold Chip.fill
    rw [cached]
    exact ⟨_, rfl⟩
  have frame := (Chip.trackDemand_frame { s with cache := x } a.master (lineNo a.dla) a.bind false).trans (Frame.set_cache (by decide) s x)
  refine ⟨_, frame, ?_⟩
  unfold Chip.readBelow
  simp only [if_neg sound, if_neg written, intact, Bool.false_eq_true, if_false, if_neg bound, key]
  unfold Chip.readCached
  simp only [cached, fill, ne_eq, not_true_eq_false, false_and, if_false, Option.getD_some, frame.poisoned (by decide) a.dla, clean,
    Bool.false_eq_true, frame.line (by decide) a.dla]

/-- MEM_READ of a live head with credit outside BURST windows is counted, and makes its request (R61, R79). -/
theorem Chip.memRead_live (s : Chip) (h : Fin 4) (tag dla : Nat) (mv : Meta) (live : s.memLive h = true) (credit : 0 < s.readCredit h)
    (calm : s.inBurst = false) : ∃ x, s.memRead h tag dla mv {} = (s.counted x).request (headAcc h .read dla 0 0 tag mv) {} := by
  obtain ⟨x, counts⟩ := s.countAsk_eq (64 * h) (s.headAsk h dla 0) 1
  have calm' : (s.counted x).inBurst = false := calm
  refine ⟨x, ?_⟩
  unfold Chip.memRead
  rw [if_pos ⟨live, credit⟩]
  simp only [counts, calm', Bool.false_eq_true, if_false, Chip.noteRead, Bool.false_and]

/-- MEM_READ past the checks, where nothing waits and no record is known to be damaged, reads below the home (R62, R88). -/
theorem Chip.memRead_below (s : Chip) (h : Fin 4) (tag dla : Nat) (mv : Meta) (k : Nat) (live : s.memLive h = true)
    (credit : 0 < s.readCredit h) (memory : dlaWin (lineBase dla) = .memory)
    (ok : s.verdict (headAcc h .read dla 0 0 tag mv) {} = .ok k) (still : s.assigning k = false) (alone : s.caskDomain k = none)
    (calm : s.inBurst = false) (none : s.waits = []) (good : s.map.badRecs = []) (online : s.wayOffline (lineBase dla) = false) :
    ∃ x y, s.memRead h tag dla mv {} = ((s.counted x).mapUsed y).readBelow (headAcc h .read dla 0 0 tag mv) {} := by
  obtain ⟨x, asks⟩ := s.memRead_live h tag dla mv live credit calm
  obtain ⟨y, enters⟩ := (s.counted x).enter_clean (headAcc h .read dla 0 0 tag mv) none good
  have online' : ((s.counted x).mapUsed y).wayOffline (lineBase dla) = false := online
  refine ⟨x, y, ?_⟩
  have goes := (s.counted x).request_ok (headAcc h .read dla 0 0 tag mv) {} memory ok still alone
  rw [asks, goes, enters]
  exact (if_neg (ne_true_of_eq_false online')).trans (if_pos rfl)

/-! ### Writes (R236, R238) -/

/-- MEM_WRITE of a whole write by a live head is counted, and makes its request (R61). -/
theorem Chip.memWrite_live (s : Chip) (h : Fin 4) (tag dla : Nat) (mv : Meta) (mask : BitVec 64) (data : Line) (live : s.memLive h = true) :
    ∃ x, s.memWrite h tag dla mv mask data false true {} = (s.counted x).request (headAcc h .write dla mask data tag mv) {} := by
  obtain ⟨x, counts⟩ := s.countAsk_eq (64 * h + 1) (s.headAsk h dla 1) 1
  refine ⟨x, ?_⟩
  unfold Chip.memWrite
  rw [if_pos live]
  simp only [counts, if_true]

/-- No dirty-page log records what a head writes (R103). -/
theorem headAcc_write_logged (h : Fin 4) (dla : Nat) (mask : BitVec 64) (data : Line) (tag : Nat) (mv : Meta) :
    (headAcc h .write dla mask data tag mv).logged = false := by
  have low : ¬ 0x10 ≤ (h : Nat) := by omega
  simp [Access.logged, low]

end Sys2Proof.Machine

open Sys2Proof Sys2Proof.Machine

/-- Settles O7. The request passes the checks and enters below the home at once; there an unwritten page is zeros, and a cached line is read
as memory holds it. -/
theorem readsReturnWhatMemoryHolds : Obligations.ReadsReturnWhatMemoryHolds := by
  refine ⟨?unwritten, ?cached⟩
  case unwritten =>
    intro s h tag dla mv k live credit up memory ok still alone calm none good online unwritten
    obtain ⟨x, y, reads⟩ := s.chip.memRead_below h tag.toNat dla.toNat mv k live credit memory ok still alone calm none good online
    obtain ⟨sent, frame⟩ := ((s.chip.counted x).mapUsed y).finishRead_head h dla.toNat tag.toNat mv 0 up
    refine ⟨_, Effect.of_eq rfl (reads.trans (Chip.readBelow_unwritten _ _ _ unwritten)), sent, ?_⟩
    exact (frame.mono (by decide)).trans ((Frame.set_map (by decide) _ _).trans (Frame.set_cnt (by decide) _ _))
  case cached =>
    intro s h tag dla mv k e live credit up memory ok still alone calm none good online sound written whole key cached clean
    obtain ⟨x, y, reads⟩ := s.chip.memRead_below h tag.toNat dla.toNat mv k live credit memory ok still alone calm none good online
    obtain ⟨t, way, answer⟩ := ((s.chip.counted x).mapUsed y).readBelow_cached (headAcc h .read dla.toNat 0 0 tag.toNat mv)
      (fun raw => by cases raw) sound written whole key cached clean
    have head : t.head h = s.chip.head h := way.head (by decide) h
    obtain ⟨sent, frame⟩ := t.finishRead_head h dla.toNat tag.toNat mv (s.chip.line dla.toNat) (by rw [head]; exact up)
    have line : ((s.chip.counted x).mapUsed y).line (lineBase dla.toNat) = s.chip.line dla.toNat := s.chip.line_lineBase dla.toNat
    rw [line] at answer
    refine ⟨_, Effect.of_eq rfl (reads.trans answer), by rw [sent, head], ?_⟩
    exact (frame.mono (by decide)).trans ((way.mono (by decide)).trans
      ((Frame.set_map (by decide) _ _).trans (Frame.set_cnt (by decide) _ _)))

/-- Settles O8. The write enters below the home at once and is stored in the cache way that holds its line; its completion follows. -/
theorem writesStoreTheirMaskedBytes : Obligations.WritesStoreTheirMaskedBytes := by
  intro s h tag dla mv mask data k live memory ok alone cached still up
  obtain ⟨x, asks⟩ := s.chip.memWrite_live h tag.toNat dla.toNat mv mask data live
  obtain ⟨y, d, fill, enters⟩ := (s.chip.counted x).enter_cached (headAcc h .write dla.toNat mask data tag.toNat mv) cached
    (headAcc_write_logged _ _ _ _ _ _)
  have keys : KeysHold ((s.chip.counted x).mapUsed y) := by
    obtain ⟨-, -, -, -, -, -, -, -, -, -, -, keys, -⟩ := cached
    exact keys
  obtain ⟨line, -, others, store, -⟩ := Chip.cachedWrite_facts ((s.chip.counted x).mapUsed y) d (headAcc h .write dla.toNat mask data tag.toNat mv)
    (lineBase_lineBase _) keys fill (mergeLine (s.chip.line (lineBase dla.toNat)) data mask) h (d.policyOf (lineBase dla.toNat)) _ rfl
  generalize stored : (d.putLine (lineBase dla.toNat) (mergeLine (s.chip.line (lineBase dla.toNat)) data mask) false).applyPolicy
    (lineNo (lineBase dla.toNat)) h (d.policyOf (lineBase dla.toNat)) = c at line others store
  have head : c.head h = s.chip.head h := store.head (by decide) h
  obtain ⟨sent, answer⟩ := c.finishWrite_head h dla.toNat tag.toNat mv mask data (by rw [head]; exact up)
  have run : s.chip.memWrite h tag.toNat dla.toNat mv mask data false true {} = c.finishWrite (headAcc h .write dla.toNat mask data tag.toNat mv) := by
    have goes := (s.chip.counted x).request_ok (headAcc h .write dla.toNat mask data tag.toNat mv) {} memory ok still alone
    rw [asks, goes, enters, ← stored]
    rfl
  refine ⟨_, Effect.of_eq rfl run, ?_, fun a out => ?_, by rw [sent, head], ?_⟩
  · rw [answer.line (by decide), ← Chip.line_lineBase, line, Chip.line_lineBase]
  · exact (congrArg (fun m => Tab.get 0 m a) (answer .mem (by decide))).trans (others a out)
  · exact (answer.mono (by decide)).trans ((store.mono (by decide)).trans
      ((Frame.set_map (by decide) _ _).trans (Frame.set_cnt (by decide) _ _)))

end

section
/-!
PROOFS. What a head asks without data: evictions and snoop answers (R125, R133), conflicts (R135), decoders (R60), offers (R57) and the
persistent flush (R330).
-/
namespace Sys2Proof.Machine

/-! ### Evictions and snoop answers (R59, R125) -/

/-- A line leaves the snoop filter. -/
def Chip.unlisted (s : Chip) (ln : Nat) : Chip := { s with coh := { s.coh with filter := Tab.del s.coh.filter ln } }

/-- Where the owner drops its line, the filter forgets the line (R121). -/
theorem Chip.dropCopy_owner (s : Chip) (a ln : Nat) (e : FilterEnt) (listed : s.ent ln = some e) (owner : e.owner = some a) :
    s.dropCopy a ln = s.unlisted ln := by
  unfold Chip.dropCopy
  rw [listed]
  exact (if_pos owner).trans (if_pos ⟨rfl, rfl⟩)

/-- A quiet home stays quiet as a line leaves its filter, and what is sent to a head asks nothing of it. -/
theorem Chip.homeQuiet_unlisted (s c : Chip) (ln : Nat) (quiet : s.homeQuiet) (frame : Frame [.heads, .cnt] c (s.unlisted ln)) :
    c.homeQuiet := by
  obtain ⟨txns, queue, dev, retry, idle⟩ := quiet
  have coh : c.coh = { s.coh with filter := Tab.del s.coh.filter ln } := frame .coh (by decide)
  have map : c.map = s.map := frame .map (by decide)
  have win : c.win = s.win := frame .win (by decide)
  have rw' : c.rw = s.rw := frame .rw (by decide)
  have cfg : c.cfg Obj.cohSfReserveWays = s.cfg Obj.cohSfReserveWays := Chip.cfg_of_frame frame (by decide) (by decide) _
  have filter : c.coh.filter = Tab.del s.coh.filter ln := by rw [coh]
  have domains : c.coh.domains = s.coh.domains := by rw [coh]
  have txns' : c.coh.txns = [] := by rw [coh]; exact txns
  have queue' : c.coh.queue = [] := by rw [coh]; exact queue
  have dev' : c.coh.devQueue = [] := by rw [coh]; exact dev
  exact ⟨txns', queue', dev', by rw [coh]; exact retry,
    s.homeIdle_del c ln txns queue dev txns' queue' dev' filter cfg (Chip.recalled_eq (MapKept.of_eq map) win rw' domains) idle⟩

/-- MEM_CLEAN_EVICT by the owner of a line, at a quiet home: the line is forgotten, and the drop is answered (R125). -/
theorem Chip.memCleanEvict_owner (s : Chip) (h tag dla : Nat) (e : FilterEnt) (live : s.memLive h = true) (may : s.evictDenied h dla = false)
    (alive : s.agentIsDead (s.headAgent h) = false) (listed : s.ent (lineNo dla) = some e) (owner : e.owner = some (s.headAgent h))
    (quiet : s.homeQuiet) : s.memCleanEvict h tag dla = (s.unlisted (lineNo dla)).deliver (.head h tag .i) .write dla 0 false := by
  unfold Chip.memCleanEvict
  simp only [live, may, alive, if_true, Bool.false_eq_true, if_false, s.dropCopy_owner _ _ e listed owner]
  exact Chip.cohPump_idle _ (s.homeQuiet_unlisted _ _ quiet (Chip.deliver_head_frame _ _ _ _ _ _ _ _))

/-- A snoop answer without data that a transaction owes leaves the agent the copy that it names, and the home goes on (R124, R129). -/
theorem Chip.snoopAnswer_bare (s : Chip) (a ln keep : Nat) (t : CohTxn) (owes : s.snooped a ln = some t) :
    s.snoopAnswer a ln keep none {} = Chip.cohPump ((s.modTxn ln
      (fun u => { u with owed := u.owed.filter (fun x => decide (x.agent ≠ a)) })).keepCopy a ln (keptCopy t a keep)) := by
  unfold Chip.snoopAnswer Chip.snoopDone
  rw [owes]
  dsimp only
  rw [Chip.snooped_line owes]
  rfl

/-! ### Conflicts (R135) -/

/-- BI_CONFLICT of an ACTIVE head whose agent lives is acknowledged and counted. -/
theorem Chip.biConflict_active (s : Chip) (h dla : Nat) (active : (s.head h).state = .active) (alive : s.agentIsDead (s.headAgent h) = false) :
    s.biConflict h dla = (s.sendHead h (.conflictAck dla)).countHead h 9 1 := by
  unfold Chip.biConflict
  simp [active, alive]

/-! ### Decoders and the persistent flush (R60, R330) -/

/-- HDM_DECODER_COMMIT over an up link commits a decoder of one way, and no other. -/
theorem Chip.hdmCommit_up (s : Chip) (h dec base len ways : Nat) (bi : Bool) (up : (s.head h).up = true) :
    s.hdmCommit h dec base len ways bi = s.setHead h { s.head h with
      hdm := Tab.put {} (s.head h).hdm dec (if ways = 1 then ⟨base, len, true, false⟩ else ⟨base, len, false, true⟩), bi := bi } :=
  if_pos up

/-- GPF_PHASE2 in SERVICE, with no window in effect, starts and counts the flush. -/
theorem Chip.gpfPhase2_service (s : Chip) (service : s.mode.current = .service) (none : s.window = none) :
    s.gpfPhase2 = { s with kiln := { s.kiln with gpfFlushes := s.kiln.gpfFlushes + 1, flushing := true, gpf := true } } := by
  unfold Chip.gpfPhase2
  simp only [service, none, ne_eq, not_true_eq_false, false_and, if_false]

end Sys2Proof.Machine

open Sys2Proof Sys2Proof.Machine

/-- Settles O9. An eviction leaves a quiet home quiet; a snoop answer is taken as the home takes it; the others act on the head, the map or the
flush alone. -/
theorem headRequestsWithoutData : Obligations.HeadRequestsWithoutData := by
  refine ⟨?evict, ?snoop, ?conflict, ?commit, ?refuse, ?offer, ?phase1, ?phase2⟩
  case evict =>
    intro s h tag dla e live may alive up listed owner txns queue dev retry idle
    have frame := (s.chip.unlisted (lineNo dla.toNat)).deliver_head_frame h tag.toNat .i .write dla.toNat 0 false
    refine ⟨_, Effect.of_eq rfl (s.chip.memCleanEvict_owner h tag.toNat dla.toNat e live may alive listed owner ⟨txns, queue, dev, retry, idle⟩),
      ?_, Chip.deliver_head_sent _ _ _ _ _ _ _ _ up, (frame.mono (by decide)).trans (Frame.set_coh (by decide) _ _)⟩
    unfold Chip.ent
    rw [frame .coh (by decide)]
    exact Tab.find_del_same _ _
  case snoop =>
    intro s h dla rsp t live alive owes
    have heard : s.chip.biResponse h dla.toNat rsp = s.chip.snoopAnswer (s.chip.headAgent h) (lineNo dla.toNat)
        (match rsp with | .i => 0 | .s => 1 | .e => 2) none {} := if_pos ⟨live, by rw [alive]; rfl⟩
    exact Effect.of_eq rfl (heard.trans (s.chip.snoopAnswer_bare _ _ _ t owes))
  case conflict =>
    intro s h dla active alive up
    exact ⟨_, Effect.of_eq rfl (s.chip.biConflict_active h dla.toNat active alive), rfl, Chip.sendHead_sent _ _ _ up,
      (Frame.set_cnt (by decide) _ _).trans ((s.chip.sendHead_frame h _).mono (by decide))⟩
  case commit =>
    intro s h dec base len bi up
    exact Effect.of_eq rfl (s.chip.hdmCommit_up h dec base.toNat len.toNat 1 bi up)
  case refuse =>
    intro s h dec base len ways bi up many
    refine Effect.of_eq rfl ((s.chip.hdmCommit_up h dec base.toNat len.toNat ways bi up).trans ?_)
    rw [if_neg many]
  case offer =>
    intro s ext e offered
    obtain ⟨⟨x, map⟩, frame⟩ := s.chip.dropExtent_facts e
    have drops : s.chip.offerTimeout ext.base.toNat ext.len.toNat = s.chip.dropExtent e := by
      unfold Chip.offerTimeout
      rw [offered]
    exact ⟨_, Effect.of_eq rfl drops, by rw [map], frame⟩
  case phase1 =>
    intro s
    rfl
  case phase2 =>
    intro s service none
    exact Effect.of_eq rfl (s.chip.gpfPhase2_service service none)

end

section
/-!
PROOFS. The mailbox's reading commands (R66, R78), and those that write: logs, policy and time (R65, R66), images (R485) and dynamic
capacity (R57, R58, R172).
-/
namespace Sys2Proof.Machine

/-! ### A command's answer (R55, R66) -/

/-- A command of a mailbox that is up answers what it gives; what it changes beside the answer is framed with it. -/
theorem mailbox_replies {i : Instr} {s : State} {h : Fin 4} {opcode : Nat} {f : Chip → MboxRc × MboxOut × Chip} {rc : MboxRc} {out : MboxOut}
    {t : Chip} {parts : List Part} (run : Effect i s (s.chip.mboxStd h opcode f)) (up : s.chip.dictUp (.mailbox h) = true)
    (gives : f s.chip = (rc, out, t)) (frame : Frame parts t s.chip) (heads : Part.heads ∈ parts) (counters : Part.cnt ∈ parts) :
    Replies i s h rc out parts := by
  obtain ⟨code, output, vector, answered⟩ := t.mboxAnswer_facts h opcode rc out
  refine ⟨_, Effect.of_eq run (s.chip.mboxStd_up h opcode f up gives), code, output, vector, (answered.mono ?_).trans frame⟩
  intro p answer
  fin_cases answer
  · exact heads
  · exact counters

/-- One that reads changes nothing beside its answer. -/
theorem mailbox_reads {i : Instr} {s : State} {h : Fin 4} {opcode : Nat} {f : Chip → MboxRc × MboxOut × Chip} {rc : MboxRc} {out : MboxOut}
    (run : Effect i s (s.chip.mboxStd h opcode f)) (up : s.chip.dictUp (.mailbox h) = true) (gives : f s.chip = (rc, out, s.chip)) :
    Replies i s h rc out [.heads, .cnt] :=
  mailbox_replies run up gives (Frame.refl _ _) (by decide) (by decide)

/-- One that succeeds with a change of the device, which its answer leaves as it is but for the head's mailbox, its vectors and the counters. -/
theorem mailbox_succeeds {i : Instr} {s : State} {h : Fin 4} {opcode : Nat} {f : Chip → MboxRc × MboxOut × Chip} {t : Chip}
    (run : Effect i s (s.chip.mboxStd h opcode f)) (up : s.chip.dictUp (.mailbox h) = true) (gives : f s.chip = (.success, .none, t)) :
    ∃ c, Effect i s c ∧ (c.head h).mbox.rc = .success ∧ (∃ m v, c.head h = { t.head h with mbox := m, msix := v })
      ∧ Frame [.heads, .cnt] c t := by
  obtain ⟨code, -, -, answered⟩ := t.mboxAnswer_facts h opcode .success .none
  refine ⟨_, Effect.of_eq run (s.chip.mboxStd_up h opcode f up gives), code, ⟨_, _, Chip.head_setHead _ _ _⟩, answered⟩

/-- The answer of a command that gives a return code and no output. -/
def codeAnswer (r : MboxRc × Chip) : MboxRc × MboxOut × Chip := (r.1, .none, r.2)

/-! ### Logs (R65) -/

/-- A log replaced reads as it was set. -/
@[simp] theorem Head.evLog_setEvLog (x : Head) (g : EvLog) (l : EvLogSt) : (x.setEvLog (logIndex g) l).evLog (logIndex g) = l := by
  cases g <;> rfl

/-- A log reads the same whatever the mailbox and the pending vectors hold. -/
theorem Head.evLog_answered (x : Head) (m : Mbox) (v : Nat) (g : EvLog) :
    ({ x with mbox := m, msix := v } : Head).evLog (logIndex g) = x.evLog (logIndex g) := by
  cases g <;> rfl

/-! ### Images (R485) -/

/-- The image that is not running is replaced, in Seedbank alone. -/
theorem Chip.setOther_facts (s : Chip) (x : Image) : (if s.sb.boot = 0 then (s.setOther x).sb.imgB else (s.setOther x).sb.imgA) = x
    ∧ Frame [.sb] (s.setOther x) s := by
  unfold Chip.setOther
  split
  · exact ⟨rfl, Frame.set_sb (by decide) _ _⟩
  · exact ⟨rfl, Frame.set_sb (by decide) _ _⟩

/-- An image that verifies and has a legal length is loaded (R485). -/
theorem Chip.transferImage_loads (s : Chip) (seq length : Nat) (version : BitVec 256) (open' : s.otherProtected = false) (quiet : s.sb.st ≠ 2)
    (least : 1 ≤ length) (most : length ≤ 2097088) :
    s.transferImage seq length version true = (.success, s.setOther ⟨.loaded, seq, length, version, true⟩) := by
  unfold Chip.transferImage
  simp [open', quiet, least, most]

/-- A loaded image becomes the one to boot (R485). -/
theorem Chip.activateImage_loaded (s : Chip) (open' : s.otherProtected = false) (loaded : s.otherImage.st = .loaded) :
    s.activateImage = (.success, s.setOther { s.otherImage with st := .activated, seq := wrap32 (s.runningImage.seq + 1) }) := by
  unfold Chip.activateImage
  simp [open', loaded]

/-! ### Dynamic capacity (R57, R58, R172) -/

/-- An extent that is listed and found stands in its new state once it is replaced. -/
theorem replaced_mem {l : List Extent} {p : Extent → Bool} {e : Extent} (found : l.find? p = some e) (x : Extent) :
    x ∈ l.map (fun y => if y = e then x else y) :=
  List.mem_map.mpr ⟨e, List.mem_of_find?_eq_some found, if_pos rfl⟩

/-- An extent takes a new value in the map and the journal. -/
theorem Chip.commitSet_facts (s : Chip) (e x : Extent) :
    ((s.setExtent e x).commitExtent e).map.extents = s.map.extents.map (fun y => if y = e then x else y)
    ∧ Frame [.map, .lauter, .kiln] ((s.setExtent e x).commitExtent e) s := by
  obtain ⟨b, map, frame⟩ := (s.setExtent e x).commitExtent_eq e
  exact ⟨by rw [map]; rfl, (frame.mono (by decide)).trans (Frame.set_map (by decide) s _)⟩

/-- An offered extent of the group is accepted (R57). -/
theorem Chip.addDcResponse_offered (s : Chip) (h base len : Nat) {e : Extent} (offered : s.map.extents.find? (fun e =>
      decide (e.base = base ∧ e.len = len ∧ e.st = .offered ∧ e.group = s.cfgAt Obj.headGroup h)) = some e) :
    s.addDcResponse h [(base, len)] = (.success, (s.setExtent e { e with st := .accepted }).commitExtent e) := by
  unfold Chip.addDcResponse
  simp only [List.all_cons, List.all_nil, offered, Option.isSome_some, Bool.and_true, if_true, List.foldl_cons, List.foldl_nil]

/-- One that is not offered is Invalid Input (R57). -/
theorem Chip.addDcResponse_none (s : Chip) (h base len : Nat) (none : s.map.extents.find? (fun e =>
      decide (e.base = base ∧ e.len = len ∧ e.st = .offered ∧ e.group = s.cfgAt Obj.headGroup h)) = none) :
    s.addDcResponse h [(base, len)] = (.invalidInput, s) := by
  unfold Chip.addDcResponse
  simp only [List.all_cons, none, Option.isSome_none, Bool.false_and, Bool.false_eq_true, if_false]

/-- An accepted extent of the group that holds no part of the queue table starts its release (R58). -/
theorem Chip.releaseDc_accepted (s : Chip) (h base len : Nat) {e : Extent} (accepted : s.map.extents.find? (fun e =>
      decide (e.base = base ∧ e.len = len ∧ e.st = .accepted ∧ e.group = s.cfgAt Obj.headGroup h)) = some e) (free : s.holdsTable e = false) :
    s.releaseDc h [(base, len)] = (.success, s.startRelease e) := by
  unfold Chip.releaseDc
  simp only [List.all_cons, List.all_nil, accepted, free, Bool.not_false, Bool.and_true, if_true, List.foldl_cons, List.foldl_nil]

end Sys2Proof.Machine

open Sys2Proof Sys2Proof.Machine

/-- Settles O10: each command is one that reads, and its answer is computed from the state. -/
theorem mailboxReadsAnswerFromTheState : Obligations.MailboxReadsAnswerFromTheState := by
  intro s h g x b op up
  and_intros <;> exact mailbox_reads rfl up rfl

/-- Settles O11. A command that succeeds leaves its change of the log, the image or the map as it made it, beside its answer; the others are
answers alone. -/
theorem mailboxSettingsAndImages : Obligations.MailboxSettingsAndImages := by
  refine ⟨?clear, ?tooMany, ?policy, ?setTime, ?getTime, ?log, ?transfer, ?activate, ?add, ?unoffered, ?release⟩
  case clear =>
    intro s h g n up few
    obtain ⟨c, run, code, ⟨m, v, head⟩, frame⟩ := mailbox_succeeds (i := .clearEventRecords h g n) (s := s) rfl up (if_neg (not_lt.mpr few))
    refine ⟨c, run, ?_, code, frame.trans (Frame.set_heads (by decide) _ _)⟩
    rw [head, Head.evLog_answered, Chip.head_setHead, Head.evLog_setEvLog]
  case tooMany =>
    intro s h g n up many
    exact mailbox_reads rfl up (if_pos many)
  case policy =>
    intro s h p up
    obtain ⟨c, run, code, ⟨m, v, head⟩, frame⟩ := mailbox_succeeds (i := .setEventInterruptPolicy h p) (s := s) rfl up rfl
    exact ⟨c, run, by rw [head, Chip.head_setHead], code, frame.trans (Frame.set_heads (by decide) _ _)⟩
  case setTime =>
    intro s h t up
    obtain ⟨c, run, code, ⟨m, v, head⟩, frame⟩ := mailbox_succeeds (i := .setTimestamp h t) (s := s) rfl up rfl
    exact ⟨c, run, by rw [head, Chip.head_setHead], code, frame.trans (Frame.set_heads (by decide) _ _)⟩
  case getTime =>
    intro s h up
    exact ⟨_, mailbox_replies rfl up rfl ((Frame.set_heads (by decide) _ _).trans (Frame.set_free (by decide) _ _)) (by decide) (by decide)⟩
  case log =>
    intro s h o l up
    exact ⟨_, mailbox_replies rfl up rfl (Frame.set_free (by decide) _ _) (by decide) (by decide)⟩
  case transfer =>
    intro s h seq length version up may open' quiet least most
    have gives := (s.chip.needAdmin_may 0x501 h (fun c => c.transferImage seq.toNat length.toNat version true) may).trans
      (congrArg codeAnswer (s.chip.transferImage_loads _ _ version open' quiet least most))
    obtain ⟨c, run, code, -, frame⟩ := mailbox_succeeds (i := .transferFw h seq length version true) rfl up gives
    obtain ⟨image, bank⟩ := s.chip.setOther_facts ⟨.loaded, seq.toNat, length.toNat, version, true⟩
    have sb : c.sb = _ := frame .sb (by decide)
    exact ⟨c, run, code, by rw [sb]; exact image, (frame.mono (by decide)).trans (bank.mono (by decide))⟩
  case activate =>
    intro s h up may open' loaded
    have gives := (s.chip.needAdmin_may 0x501 h (fun c => c.activateImage) may).trans
      (congrArg codeAnswer (s.chip.activateImage_loaded open' loaded))
    obtain ⟨c, run, code, -, frame⟩ := mailbox_succeeds (i := .activateFw h) rfl up gives
    obtain ⟨image, bank⟩ := s.chip.setOther_facts { s.chip.otherImage with st := .activated, seq := wrap32 (s.chip.runningImage.seq + 1) }
    have sb : c.sb = _ := frame .sb (by decide)
    exact ⟨c, run, code, by rw [sb]; exact image, (frame.mono (by decide)).trans (bank.mono (by decide))⟩
  case add =>
    intro s h x e up offered
    have gives := s.chip.addDcResponse_offered h x.base.toNat x.len.toNat offered
    obtain ⟨c, run, code, -, frame⟩ := mailbox_succeeds (i := .addDcResponse h [x]) rfl up (congrArg codeAnswer gives)
    obtain ⟨extents, committed⟩ := s.chip.commitSet_facts e { e with st := .accepted }
    exact ⟨c, run, by rw [frame.map (by decide), extents]; exact replaced_mem offered _, code, (frame.mono (by decide)).trans (committed.mono (by decide))⟩
  case unoffered =>
    intro s h x up none
    exact mailbox_reads rfl up (congrArg codeAnswer (s.chip.addDcResponse_none h x.base.toNat x.len.toNat none))
  case release =>
    intro s h x e up accepted free
    have gives := s.chip.releaseDc_accepted h x.base.toNat x.len.toNat accepted free
    obtain ⟨c, run, code, -, frame⟩ := mailbox_succeeds (i := .releaseDc h [x]) rfl up (congrArg codeAnswer gives)
    obtain ⟨extents, -, released⟩ := s.chip.startRelease_facts e
    exact ⟨c, run, by rw [frame.map (by decide), extents]; exact replaced_mem accepted _, code, (frame.mono (by decide)).trans (released.mono (by decide))⟩

end

section
/-!
PROOFS. Device modes (R526 to R532): the commands written to mode.command, the end of training, and the steps of DRAIN.
-/
namespace Sys2Proof.Machine

/-! ### A command of mode.command (R527) -/

/-- A mode command whose write passes the checks is carried out, and answered with its code. -/
theorem modeCommand_effect {i : Instr} {s : State} {src : Src} {v : Nat} {f : Chip → Nat × Chip} {code : Nat} {t : Chip}
    (run : Effect i s (s.chip.dictCmd src 0x2800 2 1 v f)) (acc : Accepts s.chip src 0x2800 2 1) (does : f s.chip = (code, t)) :
    Effect i s (t.answerWrite src 0x2800 2 (bytesLE 1 v) code) :=
  dictCmd_effect run acc (by decide) (by decide) does

/-- The frozen channels are read off the DDR5 channels alone. -/
theorem Frame.frozenMask {l : List Part} {a b : Chip} (h : Frame l a b) (n : Part.dram ∉ l) : a.frozenMask = b.frozenMask := by
  have dram : a.dram = b.dram := h .dram n
  unfold Chip.frozenMask Chip.frozen Chip.ddr
  rw [dram]

/-- The mode of a device that serves: SERVICE, or DIAGNOSIS while a channel is frozen (R527). -/
def Chip.serviceMode (s : Chip) : Mode := if s.frozenMask ≠ 0 then .diagnosis else .service

/-- From either of the two the rule gives the same mode (R527). -/
theorem Chip.refreshDiagnosis_serving (s : Chip) (serving : s.mode.current = .service ∨ s.mode.current = .diagnosis) :
    s.refreshDiagnosis.mode = { s.mode with current := s.serviceMode } := by
  obtain ⟨-, mode⟩ := s.refreshDiagnosis_facts
  rw [mode]
  unfold Chip.serviceMode
  rcases serving with now | now <;> by_cases frozen : s.frozenMask = 0 <;> simp [now, frozen]

/-- In another mode the rule does nothing. -/
theorem Chip.refreshDiagnosis_other (s : Chip) (service : s.mode.current ≠ .service) (diagnosis : s.mode.current ≠ .diagnosis) :
    s.refreshDiagnosis = s := by
  unfold Chip.refreshDiagnosis
  rw [if_neg (fun both => service both.1), if_neg (fun both => diagnosis both.1)]

/-! ### Training (R50, R524, R527) -/

/-- CONFIGURE of an UNADDRESSED device, with mode.auto_train other than 1. -/
theorem Chip.configureCmd_manual (s : Chip) (unaddressed : s.mode.current = .unaddressed) (manual : s.cfg Obj.modeAutoTrain ≠ 1) :
    s.configureCmd = (0, s.setMode .configuring) :=
  (if_pos unaddressed).trans (congrArg (Prod.mk 0) (if_neg manual))

/-- CONFIGURE of an UNADDRESSED device, with mode.auto_train 1. -/
theorem Chip.configureCmd_auto (s : Chip) (unaddressed : s.mode.current = .unaddressed) (auto : s.cfg Obj.modeAutoTrain = 1) :
    s.configureCmd = (0, (s.setMode .configuring).enterTraining) :=
  (if_pos unaddressed).trans (congrArg (Prod.mk 0) (if_pos auto))

/-- What training leaves of a DDR5 channel (R267, R527): one whose domain is not ON is untrained, one that was found is as it was found,
and one that was not reads `miss`. -/
def Chip.TrainedAs (s t : Chip) (ddr : List DdrFound) (miss : Nat) : Prop :=
  ∀ n : Nat, n < 8 → (s.domain (chanDomain n) ≠ .on → (t.ddr n).train = 0)
    ∧ (s.domain (chanDomain n) = .on → ∀ f, ddr.find? (fun f => decide (f.ch.val = n)) = some f →
        (t.ddr n).dimms = f.dimms ∧ (t.ddr n).train = (if f.dimms = 0 then 3
          else if f.allowed && (decide (s.fsp0Mts n f.dimms = 0) || f.fsp0) && (decide (s.cfgAt Obj.ddrChanFsp1Mts n = 0) || f.fsp1) then 1 else 2))
    ∧ (s.domain (chanDomain n) = .on → ddr.find? (fun f => decide (f.ch.val = n)) = none → (t.ddr n).train = miss)

/-- What becomes of a DDR5 channel that nothing was found of at the end of training: it is ABSENT (log entry 89). -/
def Chip.foundAbsent (s : Chip) (n : Nat) : Chip :=
  (s.setDdr n { s.ddr n with dimms := 0, gib := 0, train := 3, fspOk := 0 }).setChanState n .absent

/-- What becomes of one at the limit of training: it has failed (R527). -/
def Chip.foundFailed (s : Chip) (n : Nat) : Chip := (s.setDdr n { s.ddr n with train := 2, fspOk := 0 }).setChanState n .offline

/-- A channel record and its state change together, and no other channel's. -/
theorem Chip.setDdr_setChanState_facts (s : Chip) (n : Nat) (x : DdrChan) (st : ChanState) :
    Frame [.dram, .lauter] ((s.setDdr n x).setChanState n st) s
    ∧ (∀ j, j ≠ n → ((s.setDdr n x).setChanState n st).ddr j = s.ddr j) ∧ ((s.setDdr n x).setChanState n st).ddr n = x :=
  ⟨(Frame.set_lauter (by decide) _ _).trans (Frame.set_dram (by decide) _ _), fun _ other => Chip.ddr_setDdr_other _ _ other,
    Chip.ddr_setDdr _ _ _⟩

/-- What training finds of the channels, for a `miss` that changes one channel and gives its train status. -/
theorem Chip.trainChannels_trainedAs (s : Chip) (ddr : List DdrFound) (nvm : List NvmFound) (miss : Chip → Nat → Chip) (status : Nat)
    (one : ∀ d n, Frame [.dram, .lauter] (miss d n) d ∧ ∀ j, j ≠ n → (miss d n).ddr j = d.ddr j) (gives : ∀ d n, ((miss d n).ddr n).train = status) :
    Frame (.dram :: .integ :: rootParts) (s.trainChannels ddr nvm miss) s ∧ s.TrainedAs (s.trainChannels ddr nvm miss) ddr status := by
  obtain ⟨frame, channels⟩ := s.trainChannels_facts ddr nvm miss one
  refine ⟨frame, fun n small => ?_⟩
  obtain ⟨off, found, none⟩ := channels n small
  refine ⟨off, found, fun on missing => ?_⟩
  obtain ⟨d, same⟩ := none on missing
  rw [same, gives]

/-- What is found stays found as long as the DDR5 channels stay. -/
theorem Chip.TrainedAs.of_frame {s t u : Chip} {ddr : List DdrFound} {miss : Nat} {l : List Part} (trained : s.TrainedAs t ddr miss)
    (frame : Frame l u t) (n : Part.dram ∉ l) : s.TrainedAs u ddr miss := by
  have dram : u.dram = t.dram := frame .dram n
  have same (k : Nat) : u.ddr k = t.ddr k := by
    unfold Chip.ddr
    rw [dram]
  intro k small
  rw [same k]
  exact trained k small

/-- TRAINING_END with no link in training (R527). -/
theorem Chip.trainingEnd_ends (s : Chip) (ddr : List DdrFound) (nvm : List NvmFound) (training : s.mode.current = .training)
    (ended : s.links.all (fun e => decide (e.2.st ≠ .training)) = true) :
    s.trainingEnd ddr nvm = (s.trainChannels ddr nvm Chip.foundAbsent).enterService := by
  have none : s.links.any (fun e => decide (e.2.st = .training)) = false := by simpa using ended
  unfold Chip.trainingEnd
  rw [if_neg (by simp [training, none])]
  rfl

/-- The links that still train at the limit are taken down, with cause 2 (R527). -/
def Chip.linksTimedOut (s : Chip) : Chip :=
  (List.range 8).foldl (fun s l => if (s.link l).st = .training then s.wantDown l 2 else s) s

/-- A link that still trains is to go down with cause 2, and nothing but the links changes. -/
theorem Chip.linksTimedOut_facts (s : Chip) : Frame [.links] s.linksTimedOut s
    ∧ ∀ l : Nat, l < 8 → (s.link l).st = .training → (s.link l).want = none → (s.linksTimedOut.link l).want = some 2 := by
  obtain ⟨frame, -, each⟩ := foldl_at (P := [.links]) Chip.link (fun (s : Chip) l => if (s.link l).st = .training then s.wantDown l 2 else s)
    (fun u n => Frame.ite _ (u.wantDown_facts n 2).1.2 (Frame.refl _ _))
    (fun u n j other => by
      split
      · exact (u.wantDown_facts n 2).1.1 j other
      · rfl) (List.range 8) s List.nodup_range
  refine ⟨frame, fun l small training free => ?_⟩
  obtain ⟨u, -, same, last⟩ := each l (List.mem_range.mpr small)
  have down : u.wantDown l 2 = u.setLink l { u.link l with want := some 2 } := by
    unfold Chip.wantDown
    rw [same]
    exact if_pos ⟨free, .inl training⟩
  unfold Chip.linksTimedOut
  rw [last, same, if_pos training, down, Chip.link_setLink]

/-- TRAIN_LIMIT_EXPIRY (R527). -/
theorem Chip.trainLimit_ends (s : Chip) (ddr : List DdrFound) (nvm : List NvmFound) (training : s.mode.current = .training) :
    s.trainLimit ddr nvm = (s.trainChannels ddr nvm Chip.foundFailed).linksTimedOut.enterService :=
  if_neg (not_not.mpr training)

/-- SERVICE, or DIAGNOSIS, is entered from a device that keeps the mode so far: the new mode is read off its DDR5 channels (R527). -/
theorem Chip.enterService_after {s u : Chip} {l : List Part} (frame : Frame l u s) (n : Part.mode ∉ l) :
    u.enterService.mode = { s.mode with current := if u.enterService.frozenMask ≠ 0 then .diagnosis else .service }
      ∧ Frame (.mode :: l) u.enterService s := by
  obtain ⟨service, mode⟩ := u.enterService_facts
  have before : u.mode = s.mode := frame .mode n
  refine ⟨?_, (service.mono (by simp)).trans (frame.mono (fun p h => List.mem_cons_of_mem _ h))⟩
  rw [mode, before, service.frozenMask (by decide)]

/-! ### DRAIN and RESUME (R527, R528, R530) -/

/-- DRAIN from a mode that takes it. -/
theorem Chip.drainCmd_may (s : Chip) (may : s.mayDrain = true) : s.drainCmd = (0, s.enterDrain) := if_pos may

/-- The step that mode.drain_state names is done, and the next one begins. -/
def Chip.drainAt (s : Chip) (n : Nat) : Chip := { s with mode := { s.mode with drainState := n } }

/-- Step 1 is done once the device is quiet. -/
theorem Chip.drainStep_quiet (s : Chip) (drain : s.mode.current = .drain) (step : s.mode.drainState = 1) (quiet : s.quiet = true) :
    s.drainStep = s.drainAt 2 := by
  unfold Chip.drainStep
  rw [if_neg (not_not.mpr drain), step]
  exact if_pos quiet

/-- Step 2 is done once the persist reserve is clean and no program runs; the zone roots are written (R327). -/
theorem Chip.drainStep_reserve (s : Chip) (drain : s.mode.current = .drain) (step : s.mode.drainState = 2) (clean : s.reserveClean = true)
    (idle : s.kiln.progs = []) (online : s.nvmOnline ≠ 0) :
    s.drainStep = s.cleanRoots.drainAt (if s.cfg Obj.modeDrainAbsorb = 1 then 3 else 4) := by
  unfold Chip.drainStep
  rw [if_neg (not_not.mpr drain), step]
  exact if_pos (by simp [clean, idle, online])

/-- Step 3 is done once no line is absorbed and no program runs; the zone roots are written (R327). -/
theorem Chip.drainStep_absorbed (s : Chip) (drain : s.mode.current = .drain) (step : s.mode.drainState = 3) (none : s.kiln.absorbed = [])
    (idle : s.kiln.progs = []) : s.drainStep = s.cleanRoots.drainAt 4 := by
  unfold Chip.drainStep
  rw [if_neg (not_not.mpr drain), step]
  exact if_pos ⟨none, idle⟩

/-- The next step over clean zone roots changes the step of the mode, the journal and the media. -/
theorem Chip.cleanRoots_drainAt (s : Chip) (n : Nat) : (s.cleanRoots.drainAt n).mode = { s.mode with drainState := n }
    ∧ Frame [.mode, .lauter, .kiln] (s.cleanRoots.drainAt n) s := by
  obtain ⟨frame, -⟩ := s.cleanRoots_facts
  have mode : s.cleanRoots.mode = s.mode := frame .mode (by decide)
  refine ⟨?_, (Frame.set_mode (by decide) _ _).trans (frame.mono (by decide))⟩
  unfold Chip.drainAt
  rw [mode]

/-- A channel's START changes Hopper alone (R408). -/
theorem Chip.chanStart_frame (s : Chip) (ch : Nat) : Frame [.hop] (s.chanStart ch).2 s := by
  unfold Chip.chanStart
  dsimp only
  split
  · exact Frame.refl _ _
  · split
    · exact Frame.refl _ _
    · split
      · exact Frame.refl _ _
      · exact Frame.set_hop (by decide) s _

/-- DRAIN is left for `goal`, and what asked for SAFE meanwhile is forgotten (R527). -/
def Chip.drainLeft (s : Chip) (goal : Mode) : Chip :=
  { s with mode := { s.mode with current := goal, drainState := 0, drainStopped := [] }, fault := { s.fault with safeHeld := false } }

theorem Chip.drainLeft_frame (s : Chip) (goal : Mode) : Frame [.mode, .fault] (s.drainLeft goal) s :=
  (Frame.set_fault (by decide) ({ s with mode := { s.mode with current := goal, drainState := 0, drainStopped := [] } } : Chip) _).trans
    (Frame.set_mode (by decide) _ _)

/-- The channels that DRAIN stopped start again, and migrations go on (R530). -/
def Chip.workResumed (s : Chip) (stopped : List Nat) : Chip := (stopped.foldl (fun s ch => (s.chanStart ch).2) s).resumeSlots

theorem Chip.workResumed_frame (s : Chip) (stopped : List Nat) : Frame [.hop, .lauter] (s.workResumed stopped) s := by
  have started : Frame [.hop] (stopped.foldl (fun s ch => (s.chanStart ch).2) s) s := Frame.foldl _ _ (fun c ch => c.chanStart_frame ch) _
  exact (Frame.set_lauter (by decide) _ _).trans (started.mono (by decide))

/-- RESUME takes a seated device in DRAIN (R527). -/
theorem Chip.resumeCmd_takes (s : Chip) (drain : s.mode.current = .drain) (seated : s.seated = true) :
    ¬ (s.mode.current ≠ .drain ∨ (!s.power.seatA) = true ∨ (!s.power.seatB) = true) := by
  have pins : s.power.seatA = true ∧ s.power.seatB = true := by simpa [Chip.seated] using seated
  simp [drain, pins]

/-- RESUME to SERVICE or DIAGNOSIS (R527). -/
theorem Chip.resumeCmd_serving (s : Chip) (drain : s.mode.current = .drain) (seated : s.seated = true) (free : s.fault.safeHeld = false)
    (serving : s.mode.previous = .service ∨ s.mode.previous = .diagnosis) :
    s.resumeCmd = (0, ((s.drainLeft s.mode.previous).workResumed s.mode.drainStopped).refreshDiagnosis) := by
  have safe : s.mode.previous ≠ .safe := by rcases serving with now | now <;> simp [now]
  unfold Chip.resumeCmd
  rw [if_neg (s.resumeCmd_takes drain seated)]
  simp only [free, Bool.false_eq_true, if_false, if_neg safe]
  rfl

/-- RESUME to SAFE, where a request is held (R528). -/
theorem Chip.resumeCmd_held (s : Chip) (drain : s.mode.current = .drain) (seated : s.seated = true) (held : s.fault.safeHeld = true) :
    s.resumeCmd = (0, s.drainLeft .safe) := by
  unfold Chip.resumeCmd
  rw [if_neg (s.resumeCmd_takes drain seated)]
  simp only [held, if_true]
  rfl

/-- RESUME elsewhere, or with a pin unseated, is refused (R527). -/
theorem Chip.resumeCmd_refused (s : Chip) (no : s.mode.current ≠ .drain ∨ s.seated = false) : s.resumeCmd = (Abort.wrongMode, s) := by
  have pins : s.mode.current ≠ .drain ∨ (!s.power.seatA) = true ∨ (!s.power.seatB) = true := by simpa [Chip.seated, imp_iff_not_or] using no
  exact if_pos pins

/-! ### UPDATE (R527, R532) -/

/-- UPDATE is entered from the mode that stands. -/
def Chip.updateEntered (s : Chip) : Chip :=
  { s with mode := { s.mode with previous := s.mode.current, updateFrom := s.mode.current, current := .update, bootUpdate := false } }

/-- What precedes UPDATE: windows are cancelled, and what SAFE paused goes on (log entry 85). -/
def Chip.updateStarted (s : Chip) : Chip := if s.leaveWindows.mode.current = .safe then s.leaveWindows.resumeSlots else s.leaveWindows

theorem Chip.updateStarted_facts (s : Chip) : Frame (.lauter :: leaveParts) s.updateStarted s
    ∧ (s.mode.current = .service ∨ s.mode.current = .diagnosis → s.updateStarted.win.pending = []) := by
  obtain ⟨left, pending⟩ := s.leaveWindows_facts
  have ready : Frame [.lauter] s.updateStarted s.leaveWindows := Frame.ite _ (Frame.set_lauter (by decide) _ _) (Frame.refl _ _)
  refine ⟨(ready.mono (by decide)).trans (left.mono (by decide)), fun serving => ?_⟩
  rw [show s.updateStarted.win = _ from ready .win (by decide)]
  exact pending serving

/-- UPDATE from a mode that takes it (R527). -/
theorem Chip.updateCmd_enters (s : Chip) (may : s.mode.current = .configuring ∨ s.mode.current = .service ∨ s.mode.current = .diagnosis
      ∨ s.mode.current = .safe) : s.updateCmd = (0, s.updateStarted.updateEntered) := by
  unfold Chip.updateCmd
  rcases may with now | now | now | now <;> rw [now] <;> rfl

/-- Appends that were held proceed, in Seedbank and with its alarms (R495). -/
theorem Chip.sbRelease_frame (s : Chip) : Frame sbParts s.sbRelease s := by
  unfold Chip.sbRelease
  split
  · exact Frame.refl _ _
  · exact (Frame.foldl _ _ (fun c ⟨k, key, p⟩ => c.sbAppend_frame k key p) _).trans (Frame.set_sb (by decide) _ _)

/-- UPDATE is left for `goal`, in which SAFE pauses what moves (R531, R532). -/
def Chip.updateLeft (s : Chip) (goal : Mode) : Chip := ((if goal = .safe then s.pauseSlots else s).setMode goal).refreshDiagnosis

theorem Chip.updateLeft_facts (s : Chip) (goal : Mode) (may : goal = .service ∨ goal = .diagnosis ∨ goal = .safe) :
    (s.updateLeft goal).mode = { s.mode with current := if goal = .safe then .safe else s.serviceMode }
    ∧ Frame [.lauter, .mode] (s.updateLeft goal) s := by
  have paused : Frame [.lauter, .mode] ((if goal = .safe then s.pauseSlots else s).setMode goal) s :=
    (Frame.set_mode (by decide) _ _).trans (Frame.ite _ (Frame.set_lauter (by decide) _ _) (Frame.refl _ _))
  refine ⟨?_, ((Chip.refreshDiagnosis_frame _).mono (by decide)).trans paused⟩
  rcases may with rfl | rfl | rfl
  · exact Chip.refreshDiagnosis_serving (s.setMode .service) (.inl rfl)
  · exact Chip.refreshDiagnosis_serving (s.setMode .diagnosis) (.inr rfl)
  · exact congrArg Chip.mode (Chip.refreshDiagnosis_other (s.pauseSlots.setMode .safe)
      (fun service => by cases service) (fun diagnosis => by cases diagnosis))

/-- EXIT_UPDATE of an UPDATE that was commanded in a mode other than CONFIGURING (R532). -/
theorem Chip.exitUpdateCmd_leaves (s : Chip) (update : s.mode.current = .update) (commanded : s.mode.bootUpdate = false)
    (away : s.mode.updateFrom ≠ .configuring) : s.exitUpdateCmd = (0, (s.updateLeft s.mode.updateFrom).sbRelease) := by
  unfold Chip.exitUpdateCmd
  rw [if_neg (by simp [update, commanded])]
  simp only [if_neg away]
  rfl

end Sys2Proof.Machine

open Sys2Proof Sys2Proof.Machine

/-- Settles O43. Each command is what its handler does, or its refusal; training and the steps of DRAIN follow from what they do to the
channels, the links and the zone; SERVICE and DIAGNOSIS are one rule. -/
theorem modesChangeByCommandAndTraining : Obligations.ModesChangeByCommandAndTraining := by
  refine ⟨?configure, ?configureAuto, ?train, ?trainElsewhere, ?trainingEnd, ?trainLimit, ?drain, ?drainElsewhere, ?quiet, ?reserve, ?absorbed,
    ?resume, ?resumeHeld, ?resumeElsewhere, ?update, ?exitUpdate, ?exitElsewhere⟩
  case configure =>
    intro s src acc unaddressed manual
    exact ⟨_, modeCommand_effect rfl acc (s.chip.configureCmd_manual unaddressed manual), rfl, Frame.set_mode (by decide) _ _⟩
  case configureAuto =>
    intro s src acc unaddressed auto up
    obtain ⟨frame, mode, -⟩ := (s.chip.setMode .configuring).enterTraining_facts up
    exact ⟨_, modeCommand_effect rfl acc (s.chip.configureCmd_auto unaddressed auto), mode, frame.trans (Frame.set_mode (by decide) _ _)⟩
  case train =>
    intro s src acc configuring up
    obtain ⟨frame, mode, bifur, heads, links⟩ := s.chip.enterTraining_facts up
    exact ⟨_, modeCommand_effect rfl acc (if_pos configuring), mode, bifur, heads, links, frame⟩
  case trainElsewhere =>
    intro s src acc other
    exact modeCommand_effect rfl acc (if_neg other)
  case trainingEnd =>
    intro s ddr nvm training ended
    have absent (d : Chip) (n : Nat) := d.setDdr_setChanState_facts n { d.ddr n with dimms := 0, gib := 0, train := 3, fspOk := 0 } .absent
    obtain ⟨frame, trained⟩ := s.chip.trainChannels_trainedAs ddr nvm Chip.foundAbsent 3 (fun d n => ⟨(absent d n).1, (absent d n).2.1⟩)
      (fun d n => congrArg DdrChan.train (absent d n).2.2)
    obtain ⟨mode, whole⟩ := Chip.enterService_after frame (by decide)
    exact ⟨_, Effect.of_eq rfl (s.chip.trainingEnd_ends ddr nvm training ended), mode,
      trained.of_frame (Chip.enterService_facts _).1 (by decide), whole.mono (by decide)⟩
  case trainLimit =>
    intro s ddr nvm training
    have failed (d : Chip) (n : Nat) := d.setDdr_setChanState_facts n { d.ddr n with train := 2, fspOk := 0 } .offline
    obtain ⟨frame, trained⟩ := s.chip.trainChannels_trainedAs ddr nvm Chip.foundFailed 2 (fun d n => ⟨(failed d n).1, (failed d n).2.1⟩)
      (fun d n => congrArg DdrChan.train (failed d n).2.2)
    obtain ⟨links, down⟩ := (s.chip.trainChannels ddr nvm Chip.foundFailed).linksTimedOut_facts
    obtain ⟨mode, whole⟩ := Chip.enterService_after (l := .links :: .dram :: .integ :: rootParts)
      ((links.mono (by decide)).trans (frame.mono (by decide))) (by decide)
    refine ⟨_, Effect.of_eq rfl (s.chip.trainLimit_ends ddr nvm training), mode,
      (trained.of_frame links (by decide)).of_frame (Chip.enterService_facts _).1 (by decide), fun l small trains free => ?_, whole.mono (by decide)⟩
    have before := Chip.link_of_frame frame (by decide) l
    rw [Chip.link_of_frame (Chip.enterService_facts _).1 (by decide) l]
    exact down l small (by rw [before]; exact trains) (by rw [before]; exact free)
  case drain =>
    intro s src acc may
    obtain ⟨frame, mode, windows, paused⟩ := s.chip.enterDrain_facts
    exact ⟨_, modeCommand_effect rfl acc (s.chip.drainCmd_may may), mode, windows, paused, frame⟩
  case drainElsewhere =>
    intro s src acc may
    exact modeCommand_effect rfl acc (if_neg (ne_true_of_eq_false may))
  case quiet =>
    intro s drain step quiet
    exact ⟨_, Effect.of_eq rfl (s.chip.drainStep_quiet drain step quiet), rfl, Frame.set_mode (by decide) _ _⟩
  case reserve =>
    intro s drain step clean idle online
    obtain ⟨mode, frame⟩ := s.chip.cleanRoots_drainAt (if s.chip.cfg Obj.modeDrainAbsorb = 1 then 3 else 4)
    obtain ⟨-, journal, backlog, zones⟩ := s.chip.cleanRoots_facts
    exact ⟨_, Effect.of_eq rfl (s.chip.drainStep_reserve drain step clean idle online), mode, journal, backlog, zones,
      fun n zone => s.chip.cleanRoots_roots n zone, frame⟩
  case absorbed =>
    intro s drain step none idle
    obtain ⟨mode, frame⟩ := s.chip.cleanRoots_drainAt 4
    obtain ⟨-, journal, -⟩ := s.chip.cleanRoots_facts
    exact ⟨_, Effect.of_eq rfl (s.chip.drainStep_absorbed drain step none idle), mode, journal, frame⟩
  case resume =>
    intro s src acc drain seated free serving
    have left := s.chip.drainLeft_frame s.chip.mode.previous
    have resumed := (s.chip.drainLeft s.chip.mode.previous).workResumed_frame s.chip.mode.drainStopped
    have mode : ((s.chip.drainLeft s.chip.mode.previous).workResumed s.chip.mode.drainStopped).mode = _ := resumed .mode (by decide)
    refine ⟨_, modeCommand_effect rfl acc (s.chip.resumeCmd_serving drain seated free serving), ?_,
      ((Chip.refreshDiagnosis_frame _).mono (by decide)).trans ((resumed.mono (by decide)).trans (left.mono (by decide)))⟩
    rw [Chip.refreshDiagnosis_serving _ (by rw [mode]; exact serving), mode, Chip.serviceMode, resumed.frozenMask (by decide), left.frozenMask (by decide)]
    rfl
  case resumeHeld =>
    intro s src acc drain seated held
    exact ⟨_, modeCommand_effect rfl acc (s.chip.resumeCmd_held drain seated held), rfl, rfl, s.chip.drainLeft_frame .safe⟩
  case resumeElsewhere =>
    intro s src acc no
    exact modeCommand_effect rfl acc (s.chip.resumeCmd_refused no)
  case update =>
    intro s src acc may
    obtain ⟨frame, windows⟩ := s.chip.updateStarted_facts
    have mode : s.chip.updateStarted.mode = s.chip.mode := frame .mode (by decide)
    refine ⟨_, modeCommand_effect rfl acc (s.chip.updateCmd_enters may), ?_, windows,
      (Frame.set_mode (by decide) _ _).trans (frame.mono (by decide))⟩
    unfold Chip.updateEntered
    rw [mode]
  case exitUpdate =>
    intro s src acc update commanded may
    obtain ⟨mode, left⟩ := s.chip.updateLeft_facts s.chip.mode.updateFrom may
    have released := (s.chip.updateLeft s.chip.mode.updateFrom).sbRelease_frame
    have away : s.chip.mode.updateFrom ≠ .configuring := by rcases may with now | now | now <;> simp [now]
    exact ⟨_, modeCommand_effect rfl acc (s.chip.exitUpdateCmd_leaves update commanded away), (released .mode (by decide)).trans mode,
      (released.mono (by decide)).trans (left.mono (by decide))⟩
  case exitElsewhere =>
    intro s src acc no
    exact modeCommand_effect rfl acc (if_pos no)

end

section
/-!
PROOFS. Cask commands (R98 to R102): what a command does in the state it needs, how RESET empties a cask's channels and queues, and what
REMOVE leaves of its slot.
-/
namespace Sys2Proof.Machine

/-! ### A cask slot takes a value -/

/-- One slot takes a value, and every other keeps its own. -/
theorem Chip.setCask_facts (s : Chip) (c : Nat) (x : Cask) :
    (s.setCask c x).cask c = x ∧ (∀ j, j ≠ c → (s.setCask c x).cask j = s.cask j) ∧ Frame [.casks] (s.setCask c x) s :=
  ⟨s.cask_setCask c x, fun _ other => s.cask_setCask_other x other, Frame.set_casks (by decide) s _⟩

/-- A write to cask.command that passes the checks has its handler's effect, and is answered with its handler's code (R99). -/
theorem caskCommand_effect {i : Instr} {s : State} {src : Src} {c : Fin 1024} {v : Nat} {f : Chip → Nat × Chip} {code : Nat} {t : Chip}
    (run : Effect i s (s.chip.dictCmd src (0x9000 + c) 2 1 v f)) (acc : Accepts s.chip src (0x9000 + c) 2 1) (does : f s.chip = (code, t)) :
    Effect i s (t.answerWrite src (0x9000 + c) 2 (bytesLE 1 v) code) :=
  dictCmd_effect run acc (by decide) (by decide) does

/-- A command that gives its slot a value changes no more. -/
theorem caskSet_effect {i : Instr} {s : State} {src : Src} {c : Fin 1024} {v : Nat} {f : Chip → Nat × Chip} {x : Cask}
    (run : Effect i s (s.chip.dictCmd src (0x9000 + c) 2 1 v f)) (acc : Accepts s.chip src (0x9000 + c) 2 1)
    (does : f s.chip = (0, s.chip.setCask c x)) :
    ∃ t : Chip, Effect i s (t.answerWrite src (0x9000 + c) 2 (bytesLE 1 v) 0) ∧ t.cask c = x
      ∧ (∀ j : Nat, j ≠ c → t.cask j = s.chip.cask j) ∧ Frame [.casks] t s.chip :=
  ⟨_, caskCommand_effect run acc does, s.chip.setCask_facts c x⟩

/-- The same of an event. -/
theorem caskEvent_effect {i : Instr} {s : State} {c : Fin 1024} {d : Chip} {x : Cask} (run : Effect i s d) (does : d = s.chip.setCask c x) :
    ∃ t : Chip, Effect i s t ∧ t.cask c = x ∧ (∀ j : Nat, j ≠ c → t.cask j = s.chip.cask j) ∧ Frame [.casks] t s.chip :=
  ⟨_, Effect.of_eq run does, s.chip.setCask_facts c x⟩

/-! ### CREATE and LOG_CLEAR_OVERFLOW (R99, R115) -/

theorem Frame.set_rw_accBad (s : Chip) (x : Tab Nat) (y : List (Nat × Nat)) : Frame [.rw, .accBad] { s with rw := x, accBad := y } s :=
  (Frame.set_accBad (by decide) { s with rw := x } y).trans (Frame.set_rw (by decide) s x)

/-- A cask's access table reads its reset values, and none of them is known to be damaged. -/
def Chip.tableReset (s : Chip) (c : Nat) : Chip :=
  { s with rw := Tab.del s.rw (objAt Obj.caskAccess c), accBad := s.accBad.filter (fun e => decide (e.1 ≠ c)) }

theorem Chip.tableReset_facts (s : Chip) (c : Nat) : Tab.find (s.tableReset c).rw (objAt Obj.caskAccess c) = none
    ∧ (∀ k, k ≠ objAt Obj.caskAccess c → (s.tableReset c).cfg k = s.cfg k) ∧ Frame [.rw, .accBad] (s.tableReset c) s := by
  refine ⟨Tab.find_del_same _ _, fun k other => ?_, Frame.set_rw_accBad s _ _⟩
  unfold Chip.cfg Chip.tableReset
  rw [Tab.find_del_other _ other]

/-- CREATE of a FREE slot. -/
theorem Chip.caskCreate_free (s : Chip) (c : Nat) (free : (s.cask c).state = .free) :
    s.caskCreate c = (0, (s.tableReset c).setCask c { s.cask c with state := .active }) := if_neg (not_not_intro free)

/-- LOG_CLEAR_OVERFLOW of a slot in use. -/
theorem Chip.caskLogClear_used (s : Chip) (c : Nat) (used : (s.cask c).state ≠ .free) :
    s.caskLogClear c = (0, s.setCask c { s.cask c with status := setBit (s.cask c).status 0 false }) := if_neg used

/-! ### RESET (R101, R410, R447) -/

/-- No loaded queue is a CAPTURE queue, so a RESET writes none back (R447). -/
def Chip.noCapture (s : Chip) : Bool := s.hop.queues.all (fun e => decide (e.2.kind ≠ 4))

theorem Chip.noCapture_queue (s : Chip) (plain : s.noCapture = true) {q : Nat} {x : QState} (loaded : s.queue q = some x) : x.kind ≠ 4 :=
  of_decide_eq_true (List.all_eq_true.mp plain _ (Tab.find_mem loaded))

theorem Chip.noCapture_setQueue (s : Chip) (plain : s.noCapture = true) (q : Nat) (x : QState) (other : x.kind ≠ 4) :
    (s.setQueue q x).noCapture = true := by
  refine List.all_eq_true.mpr fun e mem => ?_
  rcases Tab.mem_set mem with rfl | old
  · exact decide_eq_true other
  · exact List.all_eq_true.mp plain e old

/-- A doorbell reads the queue that is loaded, at the indices of its entry (R403). -/
theorem Chip.doorbellQueue_kind (s : Chip) {q : Nat} {x : QState} (read : s.doorbellQueue q = some x) :
    ∃ y, s.queue q = some y ∧ x.kind = y.kind := by
  unfold Chip.doorbellQueue at read
  split at read
  · cases read
  · next y loaded =>
    refine ⟨y, loaded, ?_⟩
    split at read <;> cases read <;> rfl

/-- RESET of a queue, with no CAPTURE queue loaded, is Hopper's alone. -/
theorem Chip.resetQueue_plain (s : Chip) (q : Nat) (plain : s.noCapture = true) :
    Frame [.hop] (s.resetQueue q) s ∧ (s.resetQueue q).noCapture = true := by
  unfold Chip.resetQueue
  split
  · exact ⟨Frame.refl _ _, plain⟩
  · next x read =>
    obtain ⟨y, loaded, same⟩ := s.doorbellQueue_kind read
    have kind : y.kind ≠ 4 := s.noCapture_queue plain loaded
    simp only [same, if_neg kind, loaded]
    exact ⟨Frame.set_hop (by decide) s _, s.noCapture_setQueue plain q _ kind⟩

theorem Chip.resetQueues_plain (qs : List Nat) : ∀ s : Chip, s.noCapture = true →
    Frame [.hop] (qs.foldl (fun s q => s.resetQueue q) s) s := by
  induction qs with
  | nil => exact fun s _ => Frame.refl _ s
  | cons q qs ih =>
    intro s plain
    obtain ⟨frame, still⟩ := s.resetQueue_plain q plain
    exact (ih _ still).trans frame

/-- RESET of one channel: its context is emptied, and where it is not OFF it is idle. -/
def Chip.idleChan (s : Chip) (ch : Nat) : Chip :=
  if ((s.emptyContext ch).hchan ch).st = .off then s.emptyContext ch
  else (s.emptyContext ch).setHchan ch { (s.emptyContext ch).hchan ch with st := .idle }

theorem Chip.idleChan_facts (s : Chip) (ch : Nat) : Frame [.hop] (s.idleChan ch) s ∧ (s.idleChan ch).hop.queues = s.hop.queues := by
  have empty : Frame [.hop] (s.emptyContext ch) s := Frame.set_hop (by decide) s _
  unfold Chip.idleChan
  split
  · exact ⟨empty, rfl⟩
  · exact ⟨(Frame.set_hop (by decide) _ _).trans empty, rfl⟩

theorem Chip.idleChans_facts (chs : List Nat) : ∀ s : Chip,
    Frame [.hop] (chs.foldl Chip.idleChan s) s ∧ (chs.foldl Chip.idleChan s).hop.queues = s.hop.queues := by
  induction chs with
  | nil => exact fun s => ⟨Frame.refl _ s, rfl⟩
  | cons ch chs ih =>
    intro s
    obtain ⟨frame, queues⟩ := s.idleChan_facts ch
    obtain ⟨rest, same⟩ := ih (s.idleChan ch)
    exact ⟨rest.trans frame, same.trans queues⟩

/-- The loaded queues of a cask. -/
def Chip.caskQueues (s : Chip) (c : Nat) : List Nat :=
  (s.hop.queues.filter (fun e => e.2.pv && decide (s.slotOf e.2.pasid = some c))).map (·.1)

/-- What RESET does to Hopper: the cask's channels are emptied, and then its queues. -/
def Chip.hopReset (s : Chip) (c : Nat) : Chip :=
  let u := (s.caskChans c).foldl Chip.idleChan s
  (u.caskQueues c).foldl (fun s q => s.resetQueue q) u

theorem Chip.hopReset_plain (s : Chip) (c : Nat) (plain : s.noCapture = true) : Frame [.hop] (s.hopReset c) s := by
  obtain ⟨frame, queues⟩ := Chip.idleChans_facts (s.caskChans c) s
  refine (Chip.resetQueues_plain _ _ ?_).trans frame
  unfold Chip.noCapture
  rw [queues]
  exact plain

/-- The cask's log is off and starts again at 0 (R101). -/
def Chip.logReset (s : Chip) (c : Nat) : Chip :=
  (s.setRw (objAt Obj.caskLogEnable c) 0).setCask c { s.cask c with state := .resetting, producer := 0 }

theorem Chip.logReset_facts (s : Chip) (c : Nat) : (s.logReset c).cask c = { s.cask c with state := .resetting, producer := 0 }
    ∧ (s.logReset c).cfgAt Obj.caskLogEnable c = 0 ∧ Frame [.casks, .rw] (s.logReset c) s :=
  ⟨Chip.cask_setCask _ _ _, Chip.cfg_setRw s _ 0, (Frame.set_casks (by decide) (s.setRw _ 0) _).trans (Frame.set_rw (by decide) s _)⟩

/-- RESET of a QUIESCED cask. -/
theorem Chip.caskReset_quiesced (s : Chip) (c : Nat) (quiesced : (s.cask c).state = .quiesced) :
    s.caskReset c = (0, (s.hopReset c).logReset c) := if_neg (not_not_intro quiesced)

/-! ### REMOVE (R99, R102, R222) -/

/-- The objects of a slot read their defaults, its access table among them. -/
def Chip.slotCleared (s : Chip) (c : Nat) : Chip :=
  { s with rw := s.rw.filter (fun e => !decide (e.1 / 256 = 0x9000 + c)), accBad := s.accBad.filter (fun e => decide (e.1 ≠ c)) }

theorem Chip.slotCleared_facts (s : Chip) (c : Nat) : (∀ k, k / 256 = 0x9000 + c → Tab.find (s.slotCleared c).rw k = none)
    ∧ (∀ k, k / 256 ≠ 0x9000 + c → (s.slotCleared c).cfg k = s.cfg k) ∧ Frame [.rw, .accBad] (s.slotCleared c) s := by
  have find (k : Nat) : Tab.find (s.slotCleared c).rw k = if (!decide (k / 256 = 0x9000 + c)) = true then Tab.find s.rw k else none :=
    Tab.find_filter s.rw (fun k => !decide (k / 256 = 0x9000 + c)) k
  refine ⟨fun k mine => ?_, fun k other => ?_, Frame.set_rw_accBad s _ _⟩
  · rw [find, if_neg (by simp [mine])]
  · unfold Chip.cfg
    rw [find, if_pos (by simp [other])]
    rfl

/-- A cask's blob is gone from the store and from Seedbank. -/
theorem Chip.destroyBlobs_facts (s : Chip) (c : Nat) : (∀ r ∈ (s.destroyBlobs c).sb.recs, ¬ (r.kind = 3 ∧ r.key = c))
    ∧ (∀ j, j ≠ c → (s.destroyBlobs c).cask j = s.cask j) ∧ Frame [.casks, .sb] (s.destroyBlobs c) s := by
  refine ⟨fun r mem => ?_, fun j other => s.cask_setCask_other _ other,
    (Frame.set_sb (by decide) (s.setCask c _) _).trans (Frame.set_casks (by decide) s _)⟩
  simpa [imp_iff_not_or] using (List.mem_filter.mp mem).2

/-- REMOVE of a QUIESCED cask that holds no extent. -/
theorem Chip.caskRemove_quiesced (s : Chip) (c : Nat) (quiesced : (s.cask c).state = .quiesced)
    (bare : s.map.extents.all (fun e => decide (e.cask ≠ c)) = true) :
    s.caskRemove c = (0, ((s.destroyBlobs c).setCask c {}).slotCleared c) := by
  have none : ¬ s.map.extents.any (fun e => decide (e.cask = c)) = true := by
    intro any
    obtain ⟨e, mem, mine⟩ := List.any_eq_true.mp any
    exact of_decide_eq_true (List.all_eq_true.mp bare e mem) (of_decide_eq_true mine)
  exact (if_neg (not_not_intro quiesced)).trans (if_neg none)

end Sys2Proof.Machine

open Sys2Proof Sys2Proof.Machine

/-- Settles O16. Each command is its handler in the state it needs: most give the slot one value; CREATE and REMOVE clear objects beside it,
and RESET empties the cask's part of Hopper first. -/
theorem casksFollowTheirStates : Obligations.CasksFollowTheirStates := by
  unfold Obligations.CasksFollowTheirStates
  refine ⟨?create, ?createUsed, ?quiesce, ?resume, ?abort, ?quiesced, ?timeout, ?reset, ?resetComplete, ?remove, ?clear⟩
  case create =>
    intro s src c acc free
    obtain ⟨table, others, frame⟩ := s.chip.tableReset_facts c
    obtain ⟨mine, casks, set⟩ := (s.chip.tableReset c).setCask_facts c { s.chip.cask c with state := .active }
    exact ⟨_, caskCommand_effect rfl acc (s.chip.caskCreate_free c free), mine, casks, table, others,
      (set.mono (by decide)).trans (frame.mono (by decide))⟩
  case createUsed =>
    intro s src c acc used
    exact caskCommand_effect (v := 1) rfl acc (if_pos used)
  case quiesce =>
    intro s src c acc active
    exact caskSet_effect rfl acc (if_pos active)
  case resume =>
    intro s src c acc quiesced
    exact caskSet_effect rfl acc (if_pos quiesced)
  case abort =>
    intro s src c acc quiescing
    exact caskSet_effect rfl acc (if_pos quiescing)
  case quiesced =>
    intro s c quiescing visible stopped
    exact caskEvent_effect rfl (if_pos ⟨quiescing, visible, stopped⟩)
  case timeout =>
    intro s c quiescing
    have frame := (s.chip.raise_eq 54 0xFF 0 .none [0, 1, 2, 3]).frame
    refine ⟨_, Effect.of_eq rfl (if_pos quiescing), s.chip.raise_sticky _ _ _ _ _, fun j => ?_, frame⟩
    exact congrArg (Tab.get {} · j) (frame .casks (by decide))
  case reset =>
    intro s src c acc quiesced
    obtain ⟨mine, log, frame⟩ := (s.chip.hopReset c).logReset_facts c
    refine ⟨_, caskCommand_effect rfl acc (s.chip.caskReset_quiesced c quiesced), ?_, ?_, log, fun plain => ?_⟩
    · rw [mine]
    · rw [mine]
    · exact (frame.mono (by decide)).trans ((s.chip.hopReset_plain c plain).mono (by decide))
  case resetComplete =>
    intro s c resetting
    exact caskEvent_effect rfl (if_pos resetting)
  case remove =>
    intro s src c acc quiesced bare
    obtain ⟨blobs, others, destroyed⟩ := s.chip.destroyBlobs_facts c
    obtain ⟨mine, casks, set⟩ := (s.chip.destroyBlobs c).setCask_facts c {}
    obtain ⟨defaults, kept, cleared⟩ := ((s.chip.destroyBlobs c).setCask c {}).slotCleared_facts c
    exact ⟨_, caskCommand_effect rfl acc (s.chip.caskRemove_quiesced c quiesced bare), mine, fun j other => (casks j other).trans (others j other),
      defaults, kept, blobs, (cleared.mono (by decide)).trans ((set.mono (by decide)).trans (destroyed.mono (by decide)))⟩
  case clear =>
    intro s src c acc used
    exact caskSet_effect rfl acc (s.chip.caskLogClear_used c used)

end

section
/-!
PROOFS. Settings of a cask (R94, R107), access tables (R110 to R116), page discards (R93) and record repairs (R88).
-/
namespace Sys2Proof.Machine

/-! ### PASID bindings and logs (R94, R107) -/

/-- A command that gives one RW object a value changes no other, and nothing else. -/
theorem rwSet_effect {i : Instr} {s : State} {src : Src} {idx sub n v key : Nat} {f : Chip → Nat × Chip}
    (run : Effect i s (s.chip.dictCmd src idx sub n v f)) (acc : Accepts s.chip src idx sub n) (pos : 0 < n) (small : n ≤ 4080)
    (does : f s.chip = (0, s.chip.setRw key v)) :
    ∃ t : Chip, Effect i s (t.answerWrite src idx sub (bytesLE n v) 0) ∧ t.cfg key = v
      ∧ (∀ k : Nat, k ≠ key → t.cfg k = s.chip.cfg k) ∧ Frame [.rw] t s.chip :=
  ⟨_, dictCmd_effect run acc pos small does, s.chip.cfg_setRw key v, fun _ other => s.chip.cfg_setRw_other v other, Frame.set_rw (by decide) _ _⟩

/-- A binding of a cask that is not active, to a PASID that no other cask has. -/
theorem Chip.setPasid_ok (s : Chip) (c v : Nat) (zero : bitsOf v 20 11 = 0) (active : (s.cask c).state ≠ .active)
    (quiescing : (s.cask c).state ≠ .quiescing) (resetting : (s.cask c).state ≠ .resetting)
    (own : bitOf v 31 = true → s.slotOf (v % 2 ^ 20) = none ∨ s.slotOf (v % 2 ^ 20) = some c) :
    s.setPasid c v = (0, s.setRw (objAt Obj.caskPasid c) v) := by
  have still : ¬ ((s.cask c).state = .active ∨ (s.cask c).state = .quiescing ∨ (s.cask c).state = .resetting) := by
    simp [active, quiescing, resetting]
  have free : ¬ (bitOf v 31 && (match s.slotOf (v % 2 ^ 20) with | some k => decide (k ≠ c) | none => false)) = true := by
    intro taken
    obtain ⟨binds, other⟩ := Bool.and_eq_true_iff.mp taken
    rcases own binds with none | mine
    · rw [none] at other
      cases other
    · rw [mine] at other
      exact of_decide_eq_true other rfl
  exact (if_neg (not_not_intro zero)).trans ((if_neg still).trans (if_neg free))

/-- A log is switched on where its bitmap and ring are aligned, and off always. -/
theorem Chip.setLogEnable_ok (s : Chip) (c v : Nat) (flag : v ≤ 1)
    (aligned : v = 1 → s.cfgAt Obj.caskLogBitmapDla c % 64 = 0 ∧ s.cfgAt Obj.caskLogRingDla c % 4096 = 0) :
    s.setLogEnable c v = (0, s.setRw (objAt Obj.caskLogEnable c) v) := by
  have fits : ¬ (v = 1 ∧ (s.cfgAt Obj.caskLogBitmapDla c % 64 ≠ 0 ∨ s.cfgAt Obj.caskLogRingDla c % 4096 ≠ 0)) := by
    rintro ⟨on, bitmap | ring⟩
    exacts [bitmap (aligned on).1, ring (aligned on).2]
  exact (if_neg (by omega)).trans (if_neg fits)

/-! ### Access tables (R114, R116) -/

/-- What a command does that stores the table of target `t`: at once for a cask, once Seedbank holds it for another target (R115). -/
theorem storeTable_effect {i : Instr} {s : State} {src : Src} {idx sub n w t v : Nat} {f : Chip → Nat × Chip}
    (run : Effect i s (s.chip.dictCmd src idx sub n w f)) (acc : Accepts s.chip src idx sub n) (pos : 0 < n) (small : n ≤ 4080)
    (does : f s.chip = s.chip.storeTable t v) :
    ∃ (code : Nat) (d : Chip), Effect i s (d.answerWrite src idx sub (bytesLE n w) code)
      ∧ (t < 0x400 → code = 0 ∧ Tab.find d.rw (tableKey t) = some v)
      ∧ (0x400 ≤ t → code = 0 → Tab.find d.rwp (tableKey t) = some v) ∧ (code ≠ 0 → d = s.chip)
      ∧ (∀ k : Nat, k ≠ tableKey t → d.cfg k = s.chip.cfg k) ∧ Frame [.rw, .rwp, .accBad, .sb, .fault, .heads, .field] d s.chip :=
  ⟨_, _, dictCmd_effect run acc pos small does, s.chip.storeTable_facts t v⟩

/-- A value of access.edit that names a target, a master and rights that it may have is in range. -/
theorem accessEdit_inRange {v : Nat} (zero : bitsOf v 28 4 = 0) (target : isTarget (bitsOf v 0 16) = true)
    (master : isMaster (bitsOf v 16 8) = true) (engine : isEngine (bitsOf v 16 8) = true → bitsOf v 24 4 = 15) :
    ¬ (bitsOf v 28 4 ≠ 0 ∨ (!isTarget (bitsOf v 0 16)) = true ∨ (!isMaster (bitsOf v 16 8)) = true
      ∨ (isEngine (bitsOf v 16 8) = true ∧ bitsOf v 24 4 ≠ 15)) := by
  rintro (reserved | none | none | ⟨is, less⟩)
  · exact reserved zero
  · simp [target] at none
  · simp [master] at none
  · exact less (engine is)

/-- With admin right, an edit stores the table with one nibble changed. -/
theorem Chip.accessEdit_may (s : Chip) (w v : Nat) (zero : bitsOf v 28 4 = 0) (target : isTarget (bitsOf v 0 16) = true)
    (master : isMaster (bitsOf v 16 8) = true) (engine : isEngine (bitsOf v 16 8) = true → bitsOf v 24 4 = 15)
    (may : s.may (bitsOf v 0 16) w 3 = true) :
    s.accessEdit w v
      = s.storeTable (bitsOf v 0 16) (setField (s.cfg (tableKey (bitsOf v 0 16))) (4 * bitsOf v 16 8) 4 (bitsOf v 24 4)) :=
  (if_neg (accessEdit_inRange zero target master engine)).trans (if_neg (by simp [may]))

/-- Without it, the edit is a violation that answers success (R112, R116). -/
theorem Chip.accessEdit_denied (s : Chip) (w v : Nat) (zero : bitsOf v 28 4 = 0) (target : isTarget (bitsOf v 0 16) = true)
    (master : isMaster (bitsOf v 16 8) = true) (engine : isEngine (bitsOf v 16 8) = true → bitsOf v 24 4 = 15)
    (no : s.may (bitsOf v 0 16) w 3 = false) : s.accessEdit w v = (0, s.deny (bitsOf v 0 16) w) :=
  (if_neg (accessEdit_inRange zero target master engine)).trans (if_pos (by simp [no]))

/-- A whole table is written to its target's object (R116). -/
theorem accessTableWrite_dict (s : State) (src : Src) (target : BitVec 16) (table : BitVec 1024) (is : isTarget target.toNat = true) :
    Effect (.accessTableWrite src target table) s (s.chip.dictCmd src (tableKey target.toNat / 256) (tableKey target.toNat % 256) 128 table.toNat
      (fun k => k.setTable target.toNat table.toNat)) := by
  have key : (if isTarget target.toNat = true then tableKey target.toNat else 0x941701) = tableKey target.toNat := if_pos is
  refine Effect.of_eq (d := s.chip.dictCmd src ((if isTarget target.toNat = true then tableKey target.toNat else 0x941701) / 256)
    ((if isTarget target.toNat = true then tableKey target.toNat else 0x941701) % 256) 128 table.toNat
    (fun k => k.setTable target.toNat table.toNat)) rfl ?_
  rw [key]

/-! ### Discards (R89, R93) -/

/-- A page discarded: its record is that of a page never written, and its storage is freed. -/
def Chip.pageDiscarded (s : Chip) (p : Nat) : Chip := (s.commitPage p {}).wipePage p

/-- What a discard may change. -/
abbrev discardParts : List Part := [.map, .mem, .poison, .macs, .mill, .lauter, .kiln, .cache]

theorem Chip.pageDiscarded_facts (s : Chip) (p : Nat) : (s.pageDiscarded p).page p = {}
    ∧ (∀ q, q ≠ p → (s.pageDiscarded p).page q = s.page q) ∧ (s.pageDiscarded p).map.extents = s.map.extents
    ∧ (∀ a, Tab.get 0 (s.pageDiscarded p).mem a = if a / 4096 = p then 0 else Tab.get 0 s.mem a)
    ∧ Frame discardParts (s.pageDiscarded p) s := by
  obtain ⟨bytes, -, wiped⟩ := Chip.wipePages_facts [p] (s.commitPage p {})
  have committed := s.commitPage_frame p {}
  have page (q : Nat) : (s.pageDiscarded p).page q = (s.commitPage p {}).page q := wiped.page (by decide) q
  refine ⟨(page p).trans (s.commitPage_page p {}), fun q other => (page q).trans (s.commitPage_other p {} other), ?_, fun a => ?_,
    (wiped.mono (by decide)).trans (committed.mono (by decide))⟩
  · exact (congrArg MapUnit.extents (wiped.map (by decide))).trans rfl
  · exact (bytes a).trans (by simp only [List.mem_singleton]; rfl)

/-- A cask without a log has nothing to note of a page. -/
theorem Chip.logPage_off (s : Chip) (c p m : Nat) (off : s.cfgAt Obj.caskLogEnable c ≠ 1) : s.logPage c p m = some s := if_pos off

/-- A discard of a written page, with room in the journal, of a cask without a log. -/
theorem Chip.discardNow_unlogged (s : Chip) (c p m : Nat) (written : (s.page p).st ≠ .unwritten) (room : s.journalRoom 1 = true)
    (off : s.cfgAt Obj.caskLogEnable c ≠ 1) : s.discardNow c p m = s.pageDiscarded p := by
  have quiet : (s.pageDiscarded p).cfgAt Obj.caskLogEnable c ≠ 1 := by
    rw [Chip.cfgAt, Chip.cfg_of_frame (s.pageDiscarded_facts p).2.2.2.2 (by decide) (by decide)]
    exact off
  unfold Chip.discardNow
  simp only [written, room, if_false, Bool.not_true, Bool.false_eq_true, and_false]
  exact congrArg (Option.getD · _) ((s.pageDiscarded p).logPage_off c p m quiet)

/-- What a discard leaves, seen from a device that differs in what else the map knows. -/
theorem Chip.discarded_from {u s : Chip} (p : Nat) (frame : Frame [.map] u s) (pages : u.map.pages = s.map.pages)
    (extents : u.map.extents = s.map.extents) :
    ((u.pageDiscarded p).page p).st = .unwritten ∧ (∀ a : Nat, a / 4096 = p → Tab.get 0 (u.pageDiscarded p).mem a = 0)
    ∧ (∀ a : Nat, a / 4096 ≠ p → Tab.get 0 (u.pageDiscarded p).mem a = Tab.get 0 s.mem a)
    ∧ (∀ q : Nat, q ≠ p → (u.pageDiscarded p).page q = s.page q) ∧ (u.pageDiscarded p).map.extents = s.map.extents
    ∧ Frame [.map, .mem, .poison, .macs, .mill, .lauter, .kiln, .cache, .casks] (u.pageDiscarded p) s := by
  obtain ⟨gone, others, kept, bytes, parts⟩ := u.pageDiscarded_facts p
  have mem : u.mem = s.mem := frame .mem (by decide)
  refine ⟨by rw [gone], fun a mine => (bytes a).trans (if_pos mine), fun a other => ?_, fun q other => ?_, kept.trans extents,
    (parts.mono (by decide)).trans (frame.mono (by decide))⟩
  · rw [bytes, if_neg other, mem]
  · exact (others q other).trans (congrArg (Tab.get ({} : PageRec) · q) pages)

/-- map.discard_page of a page of an accepted extent that is not busy, by a master with admin right on its cask, discards it: what the map
knows more is what its cache holds. -/
theorem Chip.discardPage_now (s : Chip) (m dla : Nat) (e : Extent) (aligned : dla % 4096 = 0) (found : s.extentOf dla = some e)
    (accepted : e.st = .accepted) (may : s.may e.cask m 3 = true) (still : s.busyPage (pageNo dla) = false)
    (off : s.cfgAt Obj.caskLogEnable e.cask ≠ 1) (written : (s.page (pageNo dla)).st ≠ .unwritten) (room : s.journalRoom 1 = true)
    (sound : s.map.badRecs = []) : ∃ x, s.discardPage m dla = (0, (s.mapCached x).pageDiscarded (pageNo dla)) := by
  obtain ⟨x, own⟩ := s.useOwn_clean (pageNo dla) sound
  have start : s.startDiscard e.cask (pageNo dla) m = (s.mapCached x).pageDiscarded (pageNo dla) := by
    have idle : ¬ (s.mapCached x).busyPage (pageNo dla) = true := by
      rw [show (s.mapCached x).busyPage (pageNo dla) = s.busyPage (pageNo dla) from rfl, still]
      decide
    unfold Chip.startDiscard
    rw [own]
    exact (if_neg idle).trans ((s.mapCached x).discardNow_unlogged e.cask (pageNo dla) m written room off)
  refine ⟨x, ?_⟩
  unfold Chip.discardPage
  rw [if_neg (not_not_intro aligned), found]
  simp only [accepted, may, ne_eq, not_true, if_false, Bool.not_true, Bool.false_eq_true, start]

/-- A discard that waited is taken off the list. -/
def Chip.discardTaken (s : Chip) (p : Nat) : Chip :=
  { s with map := { s.map with discards := s.map.discards.filter (fun d => decide (d.1 ≠ p)) } }

/-- DEFERRED_DISCARD of a page that is no longer busy. -/
theorem Chip.deferredDiscard_now (s : Chip) (p m : Nat) (e : Extent)
    (waits : s.map.discards.find? (fun d => decide (d.1 = p)) = some (p, m)) (still : s.busyPage p = false)
    (found : s.extentOf (4096 * p) = some e) (off : s.cfgAt Obj.caskLogEnable e.cask ≠ 1) (written : (s.page p).st ≠ .unwritten)
    (room : s.journalRoom 1 = true) : s.deferredDiscard p = (s.discardTaken p).pageDiscarded p := by
  have same : (s.discardTaken p).extentOf (4096 * p) = some e := found
  unfold Chip.deferredDiscard
  rw [waits]
  dsimp only
  rw [if_neg (by simp [still])]
  change (match (s.discardTaken p).extentOf (4096 * p) with
    | some e => (s.discardTaken p).discardNow e.cask p m
    | none => s.discardTaken p) = _
  rw [same]
  exact (s.discardTaken p).discardNow_unlogged e.cask p m written room off

/-! ### Record repairs (R88) -/

/-- Both mirrors of record `k` are mended from the map zone. -/
def Chip.recordMended (s : Chip) (k : Nat) : Chip :=
  { s with map := { s.map with
    repairing := s.map.repairing.filter (fun q => decide (q ≠ k))
    recordErrors := wrap32 (s.map.recordErrors + 2)
    badRecs := Tab.del s.map.badRecs k } }

theorem Chip.mapRecordRepair_mends (s : Chip) (p : Nat) (repairs : s.map.repairing.contains p = true) :
    s.mapRecordRepair p true = (s.recordMended p).raise 48 0xFF (4096 * p) := if_pos repairs

/-- Record `k` is lost: all three of its copies have failed. -/
def Chip.recordLost (s : Chip) (k : Nat) : Chip :=
  { s with map := { s.map with
    repairing := s.map.repairing.filter (fun q => decide (q ≠ k))
    recordsLost := wrap32 (s.map.recordsLost + 1)
    badRecs := Tab.del s.map.badRecs k } }

/-- Pages of the list become POISONED, one after another. -/
def Chip.poisonPages (s : Chip) (ps : List Nat) : Chip := ps.foldl (fun s p => s.poisonPage p) s

/-- They are POISONED, no other page changes, and no more records count as lost. -/
theorem Chip.poisonPages_facts (ps : List Nat) : ∀ s : Chip, (∀ q ∈ ps, ((s.poisonPages ps).page q).st = .poisoned)
    ∧ (∀ q, q ∉ ps → (s.poisonPages ps).page q = s.page q) ∧ (s.poisonPages ps).map.recordsLost = s.map.recordsLost
    ∧ Frame [.lauter, .kiln, .map] (s.poisonPages ps) s := by
  induction ps with
  | nil => exact fun s => ⟨fun q mem => absurd mem List.not_mem_nil, fun _ _ => rfl, rfl, Frame.refl _ s⟩
  | cons p ps ih =>
    intro s
    obtain ⟨poisoned, others, lost, frame⟩ := ih (s.poisonPage p)
    refine ⟨fun q mem => ?_, fun q out => ?_, lost.trans rfl, frame.trans (s.commitPage_frame p _)⟩
    · by_cases again : q ∈ ps
      · exact poisoned q again
      · have own : q = p := (List.mem_cons.mp mem).resolve_right again
        subst own
        exact (congrArg PageRec.st (others q again)).trans (congrArg PageRec.st (s.commitPage_page q _))
    · obtain ⟨other, rest⟩ := not_or.mp (mt List.mem_cons.mpr out)
      exact (others q rest).trans (s.commitPage_other p _ other)

/-- The pages of block `b` (R81). -/
def pagesOfBlock (b : Nat) : List Nat := (List.range 512).map (fun i => 512 * b + i)

theorem mem_pagesOfBlock (b q : Nat) : q ∈ pagesOfBlock b ↔ q / 512 = b := by
  simp only [pagesOfBlock, List.mem_map, List.mem_range]
  constructor
  · rintro ⟨i, small, rfl⟩
    omega
  · intro block
    exact ⟨q % 512, by omega, by omega⟩

theorem Chip.poisonBlock_pages (s : Chip) (b : Nat) : s.poisonBlock b = s.poisonPages (pagesOfBlock b) := by
  unfold Chip.poisonBlock Chip.poisonPages pagesOfBlock
  rw [List.foldl_map]

/-- A lost record's pages are POISONED once the loss is counted and raised. -/
def Chip.pagesLost (s : Chip) (k p : Nat) (ps : List Nat) : Chip := ((s.recordLost k).raise 49 0xFF (4096 * p)).poisonPages ps

theorem Chip.pagesLost_facts (s : Chip) (k p : Nat) (ps : List Nat) : (∀ q ∈ ps, ((s.pagesLost k p ps).page q).st = .poisoned)
    ∧ (∀ q, q ∉ ps → (s.pagesLost k p ps).page q = s.page q) ∧ (s.pagesLost k p ps).map.recordsLost = wrap32 (s.map.recordsLost + 1)
    ∧ (s.pagesLost k p ps).sticky 49 = true ∧ Frame [.map, .fault, .heads, .field, .lauter, .kiln] (s.pagesLost k p ps) s := by
  have raised := ((s.recordLost k).raise_eq 49 0xFF (4096 * p) .none [0, 1, 2, 3]).frame
  have map : ((s.recordLost k).raise 49 0xFF (4096 * p)).map = (s.recordLost k).map := raised .map (by decide)
  obtain ⟨poisoned, others, lost, frame⟩ := Chip.poisonPages_facts ps ((s.recordLost k).raise 49 0xFF (4096 * p))
  refine ⟨poisoned, fun q out => (others q out).trans ((raised.page (by decide) q).trans rfl), ?_, ?_,
    (frame.mono (by decide)).trans ((raised.mono (by decide)).trans (Frame.set_map (by decide) s _))⟩
  · exact (lost.trans (congrArg MapUnit.recordsLost map)).trans rfl
  · exact (congrArg (fun f : FaultUnit => bitOf f.sticky 49) (frame .fault (by decide))).trans (Chip.raise_sticky _ _ _ _ _ _)

/-- A page whose own record is lost is lost. -/
theorem Chip.mapRecordRepair_page (s : Chip) (p : Nat) (repairs : s.map.repairing.contains p = true) :
    s.mapRecordRepair p false = s.pagesLost p p [p] := (if_pos repairs).trans (if_pos rfl)

/-- A block whose directory entry is lost is lost whole: no page of R85's numbers is a directory entry's record. -/
theorem Chip.mapRecordRepair_block (s : Chip) (p : Nat) (page : p < 2 ^ 34) (not : s.map.repairing.contains p = false)
    (repairs : s.map.repairing.contains (dirRecNo (p / 512)) = true) :
    s.mapRecordRepair p false = s.pagesLost (dirRecNo (p / 512)) p (pagesOfBlock (p / 512)) := by
  have differ : dirRecNo (p / 512) ≠ p := by
    unfold dirRecNo
    omega
  unfold Chip.mapRecordRepair
  rw [if_neg (ne_true_of_eq_false not), if_pos repairs]
  exact (if_neg differ).trans (Chip.poisonBlock_pages _ _)

end Sys2Proof.Machine

open Sys2Proof Sys2Proof.Machine

/-- Settles O17. A setting is one RW object's new value, and a table is stored by the rule of its target; a discard commits the record of a
page never written and frees its storage; a repair mends a record, or loses its pages. -/
theorem caskSettingsRightsAndDiscards : Obligations.CaskSettingsRightsAndDiscards := by
  unfold Obligations.CaskSettingsRightsAndDiscards
  refine ⟨?pasid, ?log, ?edit, ?denied, ?table, ?discard, ?deferred, ?mended, ?page, ?block⟩
  case pasid =>
    intro s src c v acc zero active quiescing resetting own
    exact rwSet_effect rfl acc (by decide) (by decide) (s.chip.setPasid_ok c v.toNat zero active quiescing resetting own)
  case log =>
    intro s src c v acc flag aligned
    exact rwSet_effect rfl acc (by decide) (by decide) (s.chip.setLogEnable_ok c v.toNat flag aligned)
  case edit =>
    intro s src v acc zero target master engine may
    exact storeTable_effect rfl acc (by decide) (by decide) (s.chip.accessEdit_may (srcMaster src) v.toNat zero target master engine may)
  case denied =>
    intro s src v acc zero target master engine no
    have frame := s.chip.deny_frame (bitsOf v.toNat 0 16) (srcMaster src)
    have mem : (s.chip.deny (bitsOf v.toNat 0 16) (srcMaster src)).mem = s.chip.mem := frame .mem (by decide)
    exact ⟨_, dictCmd_effect rfl acc (by decide) (by decide) (s.chip.accessEdit_denied (srcMaster src) v.toNat zero target master engine no),
      fun k => Chip.cfg_of_frame frame (by decide) (by decide) k, fun a => congrArg (Tab.get 0 · a) mem, frame⟩
  case table =>
    intro s src target table acc is engines
    exact storeTable_effect (accessTableWrite_dict s src target table is) acc (by decide) (by decide) (if_neg (not_not_intro engines))
  case discard =>
    intro s src dla e acc aligned found accepted may still off written room sound
    obtain ⟨x, does⟩ := s.chip.discardPage_now (srcMaster src) dla.toNat e aligned found accepted may still off written room sound
    exact ⟨_, dictCmd_effect rfl acc (by decide) (by decide) does,
      Chip.discarded_from (pageNo dla.toNat) (s.chip.mapCached_frame x) rfl rfl⟩
  case deferred =>
    intro s page e m waits still found off written room
    exact ⟨_, Effect.of_eq rfl (s.chip.deferredDiscard_now page.toNat m e waits still found off written room),
      Chip.discarded_from page.toNat (Frame.set_map (by decide) s.chip _) rfl rfl⟩
  case mended =>
    intro s page repairs
    have raised := ((s.chip.recordMended page.toNat).raise_eq 48 0xFF (4096 * page.toNat) .none [0, 1, 2, 3]).frame
    exact ⟨_, Effect.of_eq rfl (s.chip.mapRecordRepair_mends page.toNat repairs), raised .map (by decide), Chip.raise_sticky _ _ _ _ _ _,
      (raised.mono (by decide)).trans (Frame.set_map (by decide) s.chip _)⟩
  case page =>
    intro s page repairs
    obtain ⟨poisoned, others, lost, sticky, frame⟩ := s.chip.pagesLost_facts page.toNat page.toNat [page.toNat]
    exact ⟨_, Effect.of_eq rfl (s.chip.mapRecordRepair_page page.toNat repairs), poisoned _ List.mem_cons_self, lost, sticky,
      fun q other => others q (mt List.mem_singleton.mp other), frame⟩
  case block =>
    intro s page not repairs
    obtain ⟨poisoned, others, lost, sticky, frame⟩ :=
      s.chip.pagesLost_facts (dirRecNo (page.toNat / 512)) page.toNat (pagesOfBlock (page.toNat / 512))
    exact ⟨_, Effect.of_eq rfl (s.chip.mapRecordRepair_block page.toNat page.isLt not repairs),
      fun q mine => poisoned q ((mem_pagesOfBlock _ q).mpr mine), fun q other => others q (mt (mem_pagesOfBlock _ q).mp other), lost, sticky, frame⟩

end

section
/-!
PROOFS. Damage found in the device's own state (R83, R114, R204, R336, R345 to R347, R404, R409): what BURST_ISSUE of a channel with no
descriptor to issue comes to, and what handling each kind of damage leaves.
-/
namespace Sys2Proof.Machine

/-! ### The command that finds the damage -/

/-- Where the channel has no descriptor to issue once the damage is handled, its handling is all that BURST_ISSUE does (R417). -/
theorem burstIssue_handles (s : State) (ch : Fin 64) (n : Nat) (d : Damage) (idle : ((s.chip.damaged d).hchan ch).current = none) :
    Effect (.burstIssue ch n { damage := d }) s (s.chip.damaged d) :=
  Effect.of_eq rfl ((s.chip.damaged d).burstIssue_none ch n { damage := d } idle)

/-- So it is where the damage is none of Hopper's, and the channel had none before. -/
theorem burstIssue_handles_frame {s : State} {ch : Fin 64} (n : Nat) {d : Damage} {l : List Part} (idle : (s.chip.hchan ch).current = none)
    (frame : Frame l (s.chip.damaged d) s.chip) (hop : Part.hop ∉ l) : Effect (.burstIssue ch n { damage := d }) s (s.chip.damaged d) :=
  burstIssue_handles s ch n d (by rw [frame.hchan hop]; exact idle)

/-! ### Window records and debts (R346, R351) -/

/-- A BURST window that waits with none directly after it leaves the queue, and its fence with it (R37). -/
theorem Chip.cancelOne_unfollowed (s : Chip) (w : Window) (burst : w.cls = .burst) (waiting : w.active = false)
    (none : s.win.pending.find? (fun v => decide (v.cls = .burst ∧ v.start = w.stop ∧ !v.active)) = none) : s.cancelOne w = s.unfence w := by
  unfold Chip.cancelOne
  rw [if_pos burst, none]
  exact if_neg (by simp [waiting])

/-- A damaged record is cancelled and raises scheduler integrity; one of BURST is a breach as well. -/
theorem Chip.windowDamaged_found (s : Chip) {k : Nat} {w : Window} (found : s.win.pending[k]? = some w) :
    s.windowDamaged k = if w.cls = .burst then ((s.cancelOne w).raise 5).raise 4 else (s.cancelOne w).raise 5 := by
  unfold Chip.windowDamaged
  rw [found]

theorem Chip.windowDamaged_single (s : Chip) {k : Nat} {w : Window} (found : s.win.pending[k]? = some w) (single : w.cls ≠ .burst)
    (waiting : w.active = false) : s.windowDamaged k = ((s.dropWindow w.tag).refreshFence).raise 5 := by
  rw [s.windowDamaged_found found, if_neg single, s.cancelOne_waiting w single waiting]

theorem Chip.windowDamaged_burst (s : Chip) {k : Nat} {w : Window} (found : s.win.pending[k]? = some w) (burst : w.cls = .burst)
    (waiting : w.active = false)
    (none : s.win.pending.find? (fun v => decide (v.cls = .burst ∧ v.start = w.stop ∧ !v.active)) = none) :
    s.windowDamaged k = ((s.unfence w).raise 5).raise 4 := by
  rw [s.windowDamaged_found found, if_pos burst, s.cancelOne_unfollowed w burst waiting none]

/-- Every tier's debt reads the level that all were set to. -/
theorem Chip.tierDebt_setTierDebts (s : Chip) (v n : Nat) (tier : n = 1 ∨ n = 2 ∨ n = 3) : (s.setTierDebts v).tierDebt n = v := by
  unfold Chip.tierDebt Chip.setTierDebts
  rcases tier with rfl | rfl | rfl <;> simp [Tab.get_put]

/-- A debt's level is its maximum; SCRUB's takes every tier's with it. -/
def Chip.debtAtMax (s : Chip) (k : Nat) : Chip :=
  { s with
    win := { s.win with debtLevel := Tab.put 0 s.win.debtLevel k (s.cfgAt Obj.windowsDebtMax k) }
    integ := (if k = 1 then s.setTierDebts (s.cfgAt Obj.windowsDebtMax 1) else s).integ }

theorem Chip.debtAtMax_frame (s : Chip) (k : Nat) : Frame [.win, .integ] (s.debtAtMax k) s :=
  (Frame.set_integ (by decide) { s with win := { s.win with debtLevel := Tab.put 0 s.win.debtLevel k (s.cfgAt Obj.windowsDebtMax k) } } _).trans
    (Frame.set_win (by decide) s _)

theorem Chip.debtDamaged_eq (s : Chip) (k : Nat) : s.debtDamaged k = (s.debtAtMax k).raise 5 := by
  unfold Chip.debtDamaged Chip.debtAtMax
  split <;> rfl

/-! ### DDR5, the snoop filter and rights (R114, R346, R347) -/

/-- A refresh balance that is damaged is −4, and no other channel changes. -/
theorem Chip.balanceDamaged_facts (s : Chip) (n : Nat) : (s.balanceDamaged n).ddr n = { s.ddr n with balance := -4 }
    ∧ (∀ j, j ≠ n → (s.balanceDamaged n).ddr j = s.ddr j) ∧ (s.balanceDamaged n).sticky 110 = true
    ∧ Frame [.dram, .fault, .heads, .field] (s.balanceDamaged n) s := by
  unfold Chip.balanceDamaged
  have raised := (s.setDdr n { s.ddr n with balance := -4 }).raise_hop 110
  have ddr (j : Nat) : ((s.setDdr n { s.ddr n with balance := -4 }).raise 110).ddr j = (s.setDdr n { s.ddr n with balance := -4 }).ddr j :=
    congrArg (fun d : DramUnit => Tab.get ({} : DdrChan) d.ddr j) (raised .dram (by decide))
  refine ⟨(ddr n).trans (s.ddr_setDdr n _), fun j other => (ddr j).trans (s.ddr_setDdr_other _ other), Chip.raise_sticky _ _ _ _ _ _,
    (raised.mono (by decide)).trans (Frame.set_dram (by decide) s _)⟩

/-- With no ACTIVE domain's lines in the set, an uncorrectable entry is raised alone. -/
theorem Chip.filterDamaged_untracked (s : Chip) (ln : Nat) (none : s.domainsInSet ln = []) : s.filterDamaged ln = s.raise 66 := by
  unfold Chip.filterDamaged
  rw [none]
  rfl

/-- A damaged rights value joins those known, and permits nothing to a master that is no engine. -/
theorem Chip.markDamaged_facts (s : Chip) (t m : Nat) :
    (isEngine m = false → (s.markDamaged t m).rightDamaged t m = true ∧ ∀ b, (s.markDamaged t m).may t m b = false)
    ∧ ∀ e, e ∈ s.accBad → e ∈ (s.markDamaged t m).accBad := by
  have marked : (s.markDamaged t m).accBad.contains (t, m) = true := by
    unfold Chip.markDamaged
    dsimp only
    split
    · next known => exact known
    · simp
  refine ⟨fun master => ?_, fun e known => ?_⟩
  · have bad : (s.markDamaged t m).rightDamaged t m = true := by
      unfold Chip.rightDamaged
      rw [master, marked]
      rfl
    exact ⟨bad, fun b => by simp [Chip.may, bad]⟩
  · unfold Chip.markDamaged
    dsimp only
    split
    · exact known
    · exact List.mem_append_left _ known

/-! ### Queue states and channel contexts (R404, R409) -/

/-- A clean state is read again from its entry, at its place in the order of use, and counted. -/
def Chip.stateReread (s : Chip) (q : Nat) (x y : QState) : Chip :=
  ({ s with integ := { s.integ with parityClean := s.integ.parityClean + 1 } } : Chip).setQueue q { y with lru := x.lru }

theorem Chip.stateReread_frame (s : Chip) (q : Nat) (x y : QState) : Frame [.hop, .integ] (s.stateReread q x y) s :=
  (Frame.set_hop (by decide) { s with integ := { s.integ with parityClean := s.integ.parityClean + 1 } } _).trans (Frame.set_integ (by decide) s _)

theorem Chip.queueDamaged_clean (s : Chip) {q : Nat} {x y : QState} (loaded : s.queue q = some x) (cached : x.cached = true)
    (sound : x.fault = false) (clean : x.dirty = false) (read : s.readEntry q = some y) :
    s.queueDamaged q = (s.stateReread q x y).raise 128 := by
  unfold Chip.queueDamaged
  simp only [loaded, cached, sound, clean, read, Bool.not_true, Bool.or_self, Bool.false_eq_true, if_false]
  rfl

/-- A dirty one is lost, and its queue goes to FAULT. -/
theorem Chip.queueDamaged_dirty (s : Chip) {q : Nat} {x : QState} (loaded : s.queue q = some x) (cached : x.cached = true)
    (sound : x.fault = false) (dirty : x.dirty = true) : s.queueDamaged q = (s.parityLost 0 0xFF 0).queueFault q x := by
  unfold Chip.queueDamaged
  simp only [loaded, cached, sound, dirty, Bool.not_true, Bool.or_self, Bool.false_eq_true, if_false, if_true]

/-- A queue fault leaves each channel's descriptors. -/
theorem Chip.queueFault_current (s : Chip) (q : Nat) (x : QState) (j : Nat) : ((s.queueFault q x).hchan j).current = (s.hchan j).current := by
  rcases (s.queueFault_hchan q x j).1 with stopped | same
  · rw [stopped]
    rfl
  · rw [same]

/-- A damaged context stops its channel with kind 0x34, and no other; it is counted and raised. -/
theorem Chip.contextDamaged_facts (s : Chip) (c : Nat) :
    (s.contextDamaged c).hchan c = { s.hchan c with st := .error, reason := 0x34, stopAddr := 0, tc := s.tcRec, epoch := s.tb.epoch }
    ∧ (∀ j, j ≠ c → (s.contextDamaged c).hchan j = s.hchan j) ∧ (s.contextDamaged c).integ.parityDirty = s.integ.parityDirty + 1
    ∧ (s.contextDamaged c).sticky 129 = true ∧ Frame [.hop, .integ, .fault, .heads, .field] (s.contextDamaged c) s := by
  obtain ⟨lost, sticky, count⟩ := (s.chanStop c .error 0x34 0).parityLost_facts 0 (0x20 + c) 0
  have chan (j : Nat) : (s.contextDamaged c).hchan j = _ := (lost.hchan (by decide) j).trans (s.chanStop_hchan c j .error 0x34 0)
  exact ⟨(chan c).trans (if_pos rfl), fun j other => (chan j).trans (if_neg other), count, sticky,
    (lost.mono (by decide)).trans (Frame.set_hop (by decide) s _)⟩

end Sys2Proof.Machine

open Sys2Proof Sys2Proof.Machine

/-- Settles O59. BURST_ISSUE on an idle channel comes to the handling of the damage, and each kind's handling is read off the model; Hopper's
own damage leaves a channel's descriptors. -/
theorem damageOfHeldStateIsHandledConservatively : Obligations.DamageOfHeldStateIsHandledConservatively := by
  unfold Obligations.DamageOfHeldStateIsHandledConservatively
  refine ⟨?window, ?burst, ?debt, ?debtMax, ?balance, ?block, ?word, ?entry, ?recalled, ?clean, ?dirty, ?context, ?rights, ?key, ?record⟩
  case window =>
    intro s ch n k w idle found waiting single
    have run := s.chip.windowDamaged_single found single waiting
    have raised := ((s.chip.dropWindow w.tag).refreshFence).raise_hop 5
    have win := raised .win (by decide)
    have frame : Frame [.win, .fault, .heads, .field] (s.chip.damaged (.window k)) s.chip := by
      rw [Chip.damaged, run]
      exact (raised.mono (by decide)).trans ((Frame.set_win (by decide) _ _).trans (Frame.set_win (by decide) _ _))
    refine ⟨_, burstIssue_handles_frame n idle frame (by decide), ?_, ?_, ?_, frame⟩ <;> rw [Chip.damaged, run]
    · exact congrArg WinUnit.pending win
    · exact (congrArg WinUnit.debtLevel win).trans rfl
    · exact Chip.raise_sticky _ _ _ _ _ _
  case burst =>
    intro s ch n k w idle found waiting burst none
    have run := s.chip.windowDamaged_burst found burst waiting none
    obtain ⟨unfenced, pending⟩ := s.chip.unfence_facts w
    have raised := (((s.chip.unfence w).raise 5).raise_hop 4).trans ((s.chip.unfence w).raise_hop 5)
    have frame : Frame [.win, .dram, .kiln, .fault, .heads, .field] (s.chip.damaged (.window k)) s.chip := by
      rw [Chip.damaged, run]
      exact (raised.mono (by decide)).trans (unfenced.mono (by decide))
    refine ⟨_, burstIssue_handles_frame n idle frame (by decide), ?_, ?_, ?_, frame⟩ <;> rw [Chip.damaged, run]
    · exact (congrArg WinUnit.pending (raised .win (by decide))).trans pending
    · rw [Chip.raise_sticky_other _ _ _ _ _ (by decide)]
      exact Chip.raise_sticky _ _ _ _ _ _
    · exact Chip.raise_sticky _ _ _ _ _ _
  case debt =>
    intro s ch n k idle
    have run : s.chip.damaged (.debtLevel k) = (s.chip.debtAtMax k).raise 5 := s.chip.debtDamaged_eq k
    have raised := (s.chip.debtAtMax k).raise_hop 5
    have frame : Frame [.win, .integ, .fault, .heads, .field] (s.chip.damaged (.debtLevel k)) s.chip :=
      run ▸ (raised.mono (by decide)).trans ((s.chip.debtAtMax_frame k).mono (by decide))
    have win : (s.chip.damaged (.debtLevel k)).win = (s.chip.debtAtMax k).win := run ▸ raised .win (by decide)
    have integ : (s.chip.damaged (.debtLevel k)).integ = (s.chip.debtAtMax k).integ := run ▸ raised .integ (by decide)
    refine ⟨_, burstIssue_handles_frame n idle frame (by decide), ?_, fun j other => ?_, fun scrub n tier => ?_, fun other => ?_, ?_, ?_, frame⟩
    · rw [win]
      exact Tab.get_put_same _ _ _ _
    · rw [win]
      exact Tab.get_put_other _ _ _ other
    · subst scrub
      rw [Chip.tierDebt, integ]
      exact s.chip.tierDebt_setTierDebts _ n tier
    · have single : k.val ≠ 1 := fun scrub => other (Fin.ext scrub)
      rw [integ]
      unfold Chip.debtAtMax
      rw [if_neg single]
    · rw [win]
      rfl
    · rw [run]
      exact Chip.raise_sticky _ _ _ _ _ _
  case debtMax =>
    intro s ch n k idle
    have frame := s.chip.raise_hop 5
    exact ⟨_, burstIssue_handles_frame (d := .debtMax k) n idle frame (by decide), Chip.cfg_of_frame frame (by decide) (by decide) _,
      Chip.raise_sticky _ _ _ _ _ _, frame⟩
  case balance =>
    intro s ch n c idle
    obtain ⟨mine, others, sticky, frame⟩ := s.chip.balanceDamaged_facts c
    exact ⟨_, burstIssue_handles_frame (d := .refreshBalance c) n idle frame (by decide), mine, others, sticky, frame⟩
  case block =>
    intro s ch n c b idle
    have frame := s.chip.raise_hop 110
    exact ⟨_, burstIssue_handles_frame (d := .blockRecord c b) n idle frame (by decide), Chip.raise_sticky _ _ _ _ _ _, frame⟩
  case word =>
    intro s ch n idle
    exact ⟨_, burstIssue_handles_frame (d := .filterWord) n idle (Frame.set_integ (l := [.integ]) (by decide) s.chip _) (by decide), rfl,
      Frame.set_integ (by decide) s.chip _⟩
  case entry =>
    intro s ch n dla idle none
    have run : s.chip.damaged (.filterEntry dla) = s.chip.raise 66 := s.chip.filterDamaged_untracked _ none
    have frame := run ▸ s.chip.raise_hop 66
    exact ⟨_, burstIssue_handles_frame n idle frame (by decide), run ▸ Chip.raise_sticky _ _ _ _ _ _, frame⟩
  case recalled =>
    intro s ch n dla idle
    exact burstIssue_handles s ch n (.filterEntry dla) idle
  case clean =>
    intro s ch n q x y idle loaded cached sound clean read
    have run : s.chip.damaged (.queueState q) = _ := s.chip.queueDamaged_clean loaded cached sound clean read
    have raised := (s.chip.stateReread q x y).raise_hop 128
    have hop : (s.chip.damaged (.queueState q)).hop = (s.chip.stateReread q x y).hop := run ▸ raised .hop (by decide)
    have queue (j : Nat) : (s.chip.damaged (.queueState q)).queue j = (s.chip.stateReread q x y).queue j :=
      congrArg (fun h : HopUnit => Tab.find h.queues j) hop
    have chan : (s.chip.damaged (.queueState q)).hchan ch = s.chip.hchan ch :=
      (congrArg (fun h : HopUnit => Tab.get ({} : HopChan) h.chans ch) hop).trans rfl
    refine ⟨_, burstIssue_handles s ch n _ (by rw [chan]; exact idle), (queue q).trans (Chip.queue_setQueue _ _ _),
      fun j other => (queue j).trans (Chip.queue_setQueue_other _ _ other), (congrArg HopUnit.chans hop).trans rfl, ?_, ?_, ?_⟩ <;> rw [run]
    · exact raised .integ (by decide)
    · exact Chip.raise_sticky _ _ _ _ _ _
    · exact (raised.mono (by decide)).trans ((s.chip.stateReread_frame q x y).mono (by decide))
  case dirty =>
    intro s ch n q x idle loaded cached sound dirty
    have run : s.chip.damaged (.queueState q) = _ := s.chip.queueDamaged_dirty loaded cached sound dirty
    obtain ⟨lost, -, count⟩ := s.chip.parityLost_facts 0 0xFF 0
    obtain ⟨frame, sticky, mine, others⟩ := (s.chip.parityLost 0 0xFF 0).queueFault_facts q x
    have chan (j : Nat) : (s.chip.parityLost 0 0xFF 0).hchan j = s.chip.hchan j := lost.hchan (by decide) j
    have hop : (s.chip.parityLost 0 0xFF 0).hop = s.chip.hop := lost .hop (by decide)
    refine ⟨_, burstIssue_handles s ch n _ ?_, ?_, fun j other => ?_, fun c listed runs names => ?_, ?_, ?_, ?_⟩ <;> rw [run]
    · rw [Chip.queueFault_current, chan]
      exact idle
    · exact mine
    · exact (others j other).trans (congrArg (fun h : HopUnit => Tab.find h.queues j) hop)
    · rw [((s.chip.parityLost 0 0xFF 0).queueFault_hchan q x c).2 (by rw [chan, hop]; exact listed) (by rw [chan]; exact runs)
        (by rw [chan]; exact names)]
      exact ⟨rfl, rfl⟩
    · exact (congrArg IntegUnit.parityDirty (frame .integ (by decide))).trans count
    · exact sticky
    · exact (frame.mono (by decide)).trans (lost.mono (by decide))
  case context =>
    intro s ch n c idle
    obtain ⟨mine, others, count, sticky, frame⟩ := s.chip.contextDamaged_facts c
    have same : ((s.chip.damaged (.context c)).hchan ch).current = none := by
      by_cases own : ch.val = c.val
      · exact (congrArg (fun j => ((s.chip.contextDamaged c).hchan j).current) own).trans
          ((congrArg HopChan.current mine).trans ((congrArg (fun j => (s.chip.hchan j).current) own.symm).trans idle))
      · exact (congrArg HopChan.current (others ch own)).trans idle
    exact ⟨_, burstIssue_handles s ch n _ same, mine, others, count, sticky, frame⟩
  case rights =>
    intro s ch n k m idle
    obtain ⟨denies, kept⟩ := s.chip.markDamaged_facts k.toNat m.toNat
    have frame : Frame [.accBad] (s.chip.markDamaged k.toNat m.toNat) s.chip := Frame.set_accBad (by decide) s.chip _
    exact ⟨_, burstIssue_handles_frame (d := .rights k m) n idle frame (by decide), denies, kept, frame⟩
  case key =>
    intro s ch n i x idle
    have frame : Frame [.husk] (s.chip.damaged (.hbmKey i x)) s.chip := Frame.set_husk (by decide) s.chip _
    exact ⟨_, burstIssue_handles_frame n idle frame (by decide), Tab.get_put_same _ _ _ _, fun j other => Tab.get_put_other _ _ _ other, frame⟩
  case record =>
    intro s ch n dir page copies r idle rec
    subst rec
    have frame : Frame [.map] (s.chip.damaged (.record dir page copies)) s.chip := Frame.set_map (by decide) s.chip _
    exact ⟨_, burstIssue_handles_frame n idle frame (by decide), Tab.get_put_same _ _ _ _, fun j other => Tab.get_put_other _ _ _ other,
      rfl, frame⟩

end

section
/-!
PROOFS. Coherent packets of links at an idle home (R121, R124, R129, R132), and the answers to PULL (R137, R140).
-/
namespace Sys2Proof.Machine

/-! ### A coherent packet arrives (R124, R371) -/

/-- A device whose links and counters have other values. -/
def Chip.linked (s : Chip) (y : Tab Link) (z : CntUnit) : Chip := { s with links := y, cnt := z }

theorem Chip.linked_frame (s : Chip) (y : Tab Link) (z : CntUnit) : Frame [.links, .cnt] (s.linked y z) s :=
  (Frame.set_links (by decide) ({ s with cnt := z } : Chip) y).trans (Frame.set_cnt (by decide) s z)

/-- A good packet with the code of its row, from a live link, is counted and handled as its row says: the link is served, and as the packet
leaves the receive buffer, the links and the counters alone have changed. -/
theorem Chip.cohIn_good (s : Chip) (l code : Nat) (p : Packet) (f : Chip → Chip) (live : s.linkLive l = true)
    (alive : s.agentIsDead (linkAgent l) = false) (op : p.op.toNat = code) (good : s.goodPacket l 9 p = true) :
    ∃ c y z, s.cohIn l code p f = f c ∧ ¬ ((!c.linkLive l) = true ∨ c.agentIsDead (linkAgent l) = true) ∧ c.takeRx l p = s.linked y z := by
  have live' : (s.countLink l 5 1).linkLive l = true := live
  have alive' : (s.countLink l 5 1).agentIsDead (linkAgent l) = false := alive
  refine ⟨s.countLink l 5 1, _, _, ?_, by simp [live', alive'], rfl⟩
  unfold Chip.cohIn
  rw [if_neg (by simp [live, op]), if_pos good]

/-! ### Requests (R127, R129) -/

/-- What a coherent request of link `l` asks of memory: a CWR its bytes under their mask, a read its line. -/
def Chip.linkAcc (s : Chip) (l : Nat) (p : Packet) (k : CohKind) : Access :=
  let write := decide (k = .write)
  ⟨0x10 + l, .pasid (s.slotOf p.pasid.toNat), if write then .write else .read, pktDla p,
    if write then BitVec.ofNat 64 (natLE (p.data.take 8)) else 0, if write then lineOf (p.data.drop 16) else 0, p.poison, true, 0,
    .link l p.tag.toNat⟩

/-- The request of link `l` for a tracker. -/
def Chip.linkReq (s : Chip) (l : Nat) (p : Packet) (k : CohKind) : CohReq :=
  { agent := some (linkAgent l), kind := k, acc := s.linkAcc l p k, tc := s.tb.tc }

/-- The request in packet `p` of link `l` is no more one that was answered RETRY and has not come again (R137). -/
def Chip.retryTaken (s : Chip) (l : Nat) (p : Packet) : Chip :=
  let owed := (Tab.get [] s.coh.retried (linkAgent l)).erase (p.op.toNat, p.tag.toNat, lineBase (pktDla p))
  { s with coh := { s.coh with retried := Tab.put [] s.coh.retried (linkAgent l) owed } }

/-- The home with one request in its queues. -/
def Chip.oneQueued (s : Chip) (q : CohReq) : Chip := { s with coh := { s.coh with queue := [q] } }

/-- The device as the home takes up a coherent request of link `l`, with the links and counters as the packet leaves them. -/
def Chip.cohAsked (s : Chip) (l : Nat) (p : Packet) (k : CohKind) (y : Tab Link) (z : CntUnit) : Chip :=
  ((s.linked y z).retryTaken l p).oneQueued (s.linkReq l p k)

theorem Chip.cohAsked_frame (s : Chip) (l : Nat) (p : Packet) (k : CohKind) (y : Tab Link) (z : CntUnit) :
    Frame [.coh, .links, .cnt] (s.cohAsked l p k y z) s :=
  (Frame.set_coh (by decide) ((s.linked y z).retryTaken l p) _).trans
    ((Frame.set_coh (by decide) (s.linked y z) _).trans ((s.linked_frame y z).mono (by decide)))

/-- A live link of domain `d` may ask an idle home for the line of a good packet: the domain is ACTIVE, and nobody holds the line. -/
structure Chip.CohIdleFor (s : Chip) (l : Nat) (p : Packet) (d : Nat) : Prop where
  live : s.linkLive l = true
  alive : s.agentIsDead (linkAgent l) = false
  good : s.goodPacket l 9 p = true
  aligned : pktDla p % 64 = 0
  member : s.linkDomainOf l p = some d
  active : (s.dom d).state = .active
  quiet : s.homeQuiet
  unheld : Tab.find s.coh.held (lineNo (pktDla p)) = none
  still : s.lineAssigning (lineNo (pktDla p)) = false
  untracked : s.ent (lineNo (pktDla p)) = none

/-- An address at the start of a line is its line's. -/
theorem lineBase_of_aligned {dla : Nat} (aligned : dla % 64 = 0) : lineBase dla = dla := by
  unfold lineBase
  omega

/-- The domain that a link asks in is that of the line (R117, R119). -/
theorem Chip.lineDomain_of_linkDomainOf (s : Chip) (l : Nat) (p : Packet) (d : Nat) (aligned : pktDla p % 64 = 0)
    (member : s.linkDomainOf l p = some d) : s.lineDomain (lineNo (pktDla p)) = some d := by
  have start : 64 * lineNo (pktDla p) = pktDla p := by
    unfold lineNo
    omega
  unfold Chip.linkDomainOf at member
  unfold Chip.lineDomain
  rw [start]
  cases ext : s.extentOf (pktDla p) with
  | none => simp [ext] at member
  | some e =>
    simp only [ext] at member
    split at member
    · exact (Option.filter_eq_some_iff.mp member).1
    · cases member

/-- The cask that a check names is its extent's (R111). -/
theorem Chip.verdict_ok_cask (s : Chip) {a : Access} {o : Obs} {cask : Nat} {e : Extent} (ok : s.verdict a o = .ok cask)
    (ext : s.extentOf a.dla = some e) : e.cask = cask := by
  unfold Chip.verdict at ok
  simp only [ext] at ok
  split_ifs at ok
  · exact Verdict.ok.inj ok
  · exact Verdict.ok.inj ok

/-- A read outside BURST windows is bound by no latency (R32). -/
theorem Chip.noteRead_calm (s : Chip) (m dla : Nat) (calm : s.inBurst = false) : s.noteRead m dla {} = {} := by
  unfold Chip.noteRead
  simp [calm]

/-- A coherent request that passes its checks at an idle home takes a tracker, and the home goes on with it alone (R127, R136). -/
theorem Chip.cohIn_request (s : Chip) (l code : Nat) (p : Packet) (k : CohKind) (d cask : Nat) (idle : s.CohIdleFor l p d)
    (op : p.op.toNat = code) (ok : s.verdict (s.linkAcc l p k) {} = .ok cask) (calm : k = .write ∨ s.inBurst = false) :
    ∃ y z, s.cohIn l code p (fun x => x.linkCoh l false p k {}) = (s.cohAsked l p k y z).cohPump := by
  obtain ⟨live, alive, good, aligned, member, active, ⟨txns, queue, devQueue, -, -⟩, -, -, -⟩ := idle
  obtain ⟨heard, y, z, hears, serves, took⟩ := s.cohIn_good l code p _ live alive op good
  refine ⟨y, z, hears.trans ?_⟩
  have base := lineBase_of_aligned aligned
  unfold Chip.linkCoh
  rw [if_neg serves]
  extract_lets taken dla tag write acc me old answer home asked home' c q
  have taken_eq : taken = s.linked y z := took
  clear_value taken
  subst taken_eq
  have c_eq : c = (s.linked y z).retryTaken l p := rfl
  have acc_eq : acc = s.linkAcc l p k := by
    simp only [acc, dla, base]
    rfl
  have member' : ((s.linked y z).retryTaken l p).linkDomainOf l p = some d := member
  have ok' : ((s.linked y z).retryTaken l p).verdict (s.linkAcc l p k) {} = .ok cask := ok
  have domain : ((s.linked y z).retryTaken l p).domServes d = true := by
    have active' : (((s.linked y z).retryTaken l p).dom d).state = .active := active
    unfold Chip.domServes
    rw [active']
  have tracker : ((s.linked y z).retryTaken l p).sharedTrackers < 4084 := by
    have none : ((s.linked y z).retryTaken l p).sharedTrackers = 0 := by
      show countIf _ s.coh.txns + countIf _ s.coh.queue + s.coh.devQueue.length = 0
      rw [txns, queue, devQueue]
      rfl
    omega
  have q_eq : q = s.linkReq l p k := by
    have obs : (if write = true then {} else c.noteRead (0x10 + l) (pktDla p) {}) = ({} : Obs) := by
      obtain rfl | calm := calm
      · rfl
      · rw [c.noteRead_calm _ _ calm, ite_self]
    simp only [q, acc_eq, dla, base, obs]
    rfl
  have empty : c.coh.queue = [] := queue
  clear_value acc c q
  subst acc_eq c_eq q_eq
  rw [if_neg (by simp)]
  simp only [member', ok', domain]
  rw [if_neg (by simp), if_pos (by simp [tracker]), empty]
  rfl

/-- The home without its one request is idle. -/
theorem Chip.cohAsked_idle (s : Chip) (l : Nat) (p : Packet) (k : CohKind) (y : Tab Link) (z : CntUnit) (quiet : s.homeQuiet) :
    Chip.homeIdle { s.cohAsked l p k y z with coh := { (s.cohAsked l p k y z).coh with queue := [] } } = true := by
  obtain ⟨txns, queue, devQueue, -, idle⟩ := quiet
  exact Chip.homeIdle_same s _ txns queue devQueue txns rfl devQueue rfl rfl (fun _ _ => rfl) idle

/-- Outside BURST windows a read of an unwritten page, for whose line the set has room, finds no access or record that delays it. -/
structure Chip.ReadsZero (s : Chip) (dla : Nat) : Prop where
  unwaited : s.waits = []
  records : s.map.badRecs = []
  online : s.wayOffline dla = false
  calm : s.inBurst = false
  unwritten : (s.page (pageNo dla)).st = .unwritten
  room : s.setCount (lineNo dla) + 1 + s.cfg Obj.cohSfReserveWays ≤ 16

/-- The filter entry that a read grants in domain `d` (R129). -/
def Chip.granted (s : Chip) (k : CohKind) (a d : Nat) : Option FilterEnt :=
  match k with
  | .shared => some ⟨none, setBit 0 a true, d, s.coh.clock⟩
  | .own => some ⟨some a, 0, d, s.coh.clock⟩
  | _ => none

/-- A coherent read of an unwritten page at an idle home is answered with zeros, and the link gets the copy that it asked for (R129, R131). -/
theorem coherentRead_effect {i : Instr} {s : State} {l code : Nat} {p : Packet} {k : CohKind} {d cask : Nat}
    (run : Effect i s (s.chip.cohIn l code p (fun x => x.linkCoh l false p k {}))) (idle : s.chip.CohIdleFor l p d)
    (zero : s.chip.ReadsZero (pktDla p)) (op : p.op.toNat = code) (ok : s.chip.verdict (s.chip.linkAcc l p k) {} = .ok cask)
    (reads : k = .shared ∨ k = .own ∨ k = .cur) :
    ∃ t u : Chip, Effect i s u ∧ t.ent (lineNo (pktDla p)) = s.chip.granted k (linkAgent l) d
      ∧ Frame [.coh] u (t.cohSend l (cmpCode k) p.tag.toNat (pktDla p) (some (0, false))) ∧ u.coh = { t.coh with txns := [] }
      ∧ t.coh.queue = [] ∧ Frame [.coh, .map, .links, .cnt] t s.chip := by
  obtain ⟨y, z, asks⟩ := s.chip.cohIn_request l code p k d cask idle op ok (.inr zero.calm)
  have isRead : (s.chip.linkAcc l p k).kind = .read := by
    obtain rfl | rfl | rfl := reads <;> rfl
  obtain ⟨txns, -, devQueue, retry, -⟩ := idle.quiet
  have serving : (s.chip.dom d).state ≠ .recalling := by
    rw [idle.active]
    decide
  obtain ⟨t, u, pumps, frame, -, ent, -, answered, coh, queue, -, -⟩ := Chip.cohPump_read (s.chip.cohAsked l p k y z)
    (s.chip.linkReq l p k) l p.tag.toNat (linkAgent l) d reads txns rfl devQueue retry
    (s.chip.cohAsked_idle l p k y z idle.quiet) zero.unwaited zero.records idle.unheld zero.online rfl rfl isRead
    (by show 4 ≤ 0x10 + l; omega) rfl (lineBase_of_aligned idle.aligned) (s.chip.lineDomain_of_linkDomainOf l p d idle.aligned idle.member)
    serving idle.still zero.calm zero.unwritten idle.untracked zero.room
  exact ⟨t, u, Effect.of_eq run (asks.trans pumps), ent, answered, coh, queue,
    (frame.mono (by decide)).trans ((s.chip.cohAsked_frame l p k y z).mono (by decide))⟩

/-- A CWR to a cached line at an idle home merges its bytes, and is answered CMP (R129). -/
theorem Chip.cohIn_write (s : Chip) (l code : Nat) (p : Packet) (d cask : Nat) (idle : s.CohIdleFor l p d)
    (op : p.op.toNat = code) (ok : s.verdict (s.linkAcc l p .write) {} = .ok cask) (cached : CachedWrite s (s.linkAcc l p .write))
    (unlogged : s.cfgAt Obj.caskLogEnable cask ≠ 1) :
    ∃ t u : Chip, s.cohIn l code p (fun x => x.linkCoh l false p .write {}) = u
      ∧ t.line (pktDla p) = mergeLine (s.line (pktDla p)) (lineOf (p.data.drop 16)) (BitVec.ofNat 64 (natLE (p.data.take 8)))
      ∧ (∀ y : Nat, y < pktDla p ∨ pktDla p + 64 ≤ y → Tab.get 0 t.mem y = Tab.get 0 s.mem y) ∧ t.ent (lineNo (pktDla p)) = none
      ∧ Frame [.coh] u (t.cohSend l 0x23 p.tag.toNat (pktDla p) none) ∧ u.coh = { t.coh with txns := [] }
      ∧ Frame (.coh :: .links :: .cnt :: storeParts) t s := by
  obtain ⟨y, z, asks⟩ := s.cohIn_request l code p .write d cask idle op ok (.inl rfl)
  obtain ⟨txns, -, devQueue, retry, -⟩ := idle.quiet
  have serving : (s.dom d).state ≠ .recalling := by
    rw [idle.active]
    decide
  have frame₀ := s.cohAsked_frame l p .write y z
  have unlogged' : ∀ e, s.extentOf (pktDla p) = some e → (s.cohAsked l p .write y z).cfgAt Obj.caskLogEnable e.cask ≠ 1 := by
    intro e ext
    rw [s.verdict_ok_cask ok ext]
    unfold Chip.cfgAt at unlogged ⊢
    rw [Chip.cfg_of_frame frame₀ (by decide) (by decide)]
    exact unlogged
  obtain ⟨t, u, pumps, line, others, ent, -, frame, -, answered, coh, -⟩ := Chip.cohPump_write (s.cohAsked l p .write y z)
    (s.linkReq l p .write) l p.tag.toNat (linkAgent l) d rfl txns rfl devQueue retry
    (s.cohAsked_idle l p .write y z idle.quiet) idle.unheld rfl rfl (by show 4 ≤ 0x10 + l; omega) rfl (lineBase_of_aligned idle.aligned)
    (s.lineDomain_of_linkDomainOf l p d idle.aligned idle.member) serving idle.still cached idle.untracked unlogged'
  exact ⟨t, u, asks.trans pumps, line, others, ent, answered, coh, (frame.mono (by decide)).trans (frame₀.mono (by decide))⟩

/-! ### Writebacks and drops (R124, R129, R132) -/

/-- A quiet home stays quiet as a line leaves its filter, whatever data it holds for its lines. -/
theorem Chip.homeQuiet_dropped (s c : Chip) (ln : Nat) (held : Tab (Line × Bool)) (quiet : s.homeQuiet)
    (coh : c.coh = { s.coh with filter := Tab.del s.coh.filter ln, held := held }) (map : MapKept c s) {parts : List Part}
    (frame : Frame parts c s) (win : Part.win ∉ parts) (rw' : Part.rw ∉ parts) (rwp : Part.rwp ∉ parts) : c.homeQuiet := by
  obtain ⟨txns, queue, devQueue, retry, idle⟩ := quiet
  have txns' : c.coh.txns = [] := by rw [coh]; exact txns
  have queue' : c.coh.queue = [] := by rw [coh]; exact queue
  have devQueue' : c.coh.devQueue = [] := by rw [coh]; exact devQueue
  refine ⟨txns', queue', devQueue', by rw [coh]; exact retry, s.homeIdle_del c ln txns queue devQueue txns' queue' devQueue' (by rw [coh])
    (Chip.cfg_of_frame frame rw' rwp _) (Chip.recalled_eq map (frame .win win) (frame .rw rw') (by rw [coh])) idle⟩

/-- The home holds a line's data until it is stored (R130). -/
def Chip.holding (s : Chip) (ln : Nat) (x : Line × Bool) : Chip := { s with coh := { s.coh with held := Tab.set s.coh.held ln x } }

/-- The data of a line is stored, and the home holds it no more. -/
def Chip.released (s : Chip) (ln : Nat) : Chip := { s with coh := { s.coh with held := Tab.del s.coh.held ln } }

/-- The write of data that the home holds ends with its hold (R130). -/
theorem Chip.finishWrite_held (s : Chip) (a : Access) (ln : Nat) : s.finishWrite { a with ret := .held ln } = s.released ln := by
  unfold Chip.finishWrite
  simp only [Bool.not_true, Bool.false_eq_true, and_false, if_false]
  rfl

/-- The owner's whole line at a home without transactions, where nothing waits: the owner's copy is gone, and the line goes to memory while the
home holds it (R130, R132). -/
theorem Chip.ownerWrite_whole (s : Chip) (a : Nat) (acc : Access) (e : FilterEnt) (txns : s.coh.txns = []) (unwaited : s.waits = [])
    (listed : s.ent (lineNo acc.dla) = some e) (owner : e.owner = some a) (whole : acc.mask = fullMask) (bare : acc.ret = .none) :
    s.ownerWrite a acc {} 0 = ((s.unlisted (lineNo acc.dla)).holding (lineNo acc.dla) (acc.data, acc.poison)).enter
      { acc with ret := .held (lineNo acc.dla) } {} := by
  have unsnooped : s.snooped a (lineNo acc.dla) = none := by simp [Chip.snooped, Chip.txnOf, txns]
  have drops : s.keepCopy a (lineNo acc.dla) 0 = s.unlisted (lineNo acc.dla) := s.dropCopy_owner a _ e listed owner
  have line (c : Chip) : c.ownerLine { acc with ret := .none } = (acc.data, acc.poison) := if_pos whole
  have stores : (s.unlisted (lineNo acc.dla)).storeHeld { acc with ret := .none } {}
      = ((s.unlisted (lineNo acc.dla)).holding (lineNo acc.dla) (acc.data, acc.poison)).enter { acc with ret := .held (lineNo acc.dla) } {} := by
    have none : (s.unlisted (lineNo acc.dla)).waits = [] := unwaited
    unfold Chip.storeHeld
    rw [line]
    refine (if_neg ?_).trans rfl
    rw [none]
    exact Bool.false_ne_true
  unfold Chip.ownerWrite
  simp only [unsnooped, drops, stores, bare]
  rfl

/-- The write that a CWB makes. -/
def linkStore (l : Nat) (p : Packet) : Access :=
  ⟨0x10 + l, .byDir, .write, lineBase (pktDla p), fullMask, lineOf p.data, p.poison, true, 0, .none⟩

/-- The same, as the home makes it for data that it holds. -/
def heldStore (l : Nat) (p : Packet) : Access := { linkStore l p with ret := .held (lineNo (pktDla p)) }

/-- The device as a line that link `l` returned goes to memory: its owner's copy is gone, and the home holds the line. -/
def Chip.storing (s : Chip) (p : Packet) : Chip :=
  (s.unlisted (lineNo (pktDla p))).holding (lineNo (pktDla p)) (lineOf p.data, p.poison)

theorem Chip.storing_frame (s : Chip) (p : Packet) : Frame [.coh] (s.storing p) s :=
  (Frame.set_coh (by decide) (s.unlisted (lineNo (pktDla p))) _).trans (Frame.set_coh (by decide) s _)

/-- The number of a line's first byte is the line's own. -/
theorem lineNo_lineBase (dla : Nat) : lineNo (lineBase dla) = lineNo dla := by
  unfold lineNo lineBase
  omega

/-- A returned line that is cached, of a cask without a dirty-page log, is stored and held no more. -/
theorem Chip.ownerWrite_cached (s : Chip) (l : Nat) (p : Packet) (e : FilterEnt) (txns : s.coh.txns = [])
    (listed : s.ent (lineNo (pktDla p)) = some e) (owner : e.owner = some (linkAgent l)) (cached : CachedWrite s (linkStore l p))
    (unlogged : ∀ e, s.extentOf (lineBase (pktDla p)) = some e → s.cfgAt Obj.caskLogEnable e.cask ≠ 1) :
    ∃ t, s.ownerWrite (linkAgent l) (linkStore l p) {} 0 = t ∧ t.line (pktDla p) = lineOf p.data
      ∧ (∀ y : Nat, y < lineBase (pktDla p) ∨ lineBase (pktDla p) + 64 ≤ y → Tab.get 0 t.mem y = Tab.get 0 s.mem y)
      ∧ (∃ held, t.coh = { s.coh with filter := Tab.del s.coh.filter (lineNo (pktDla p)), held := held })
      ∧ Frame (.coh :: storeParts) t s ∧ MapKept t s := by
  have unwaited : s.waits = [] := by
    obtain ⟨-, -, -, -, -, -, -, -, -, -, -, -, unwaited, -, -⟩ := cached
    exact unwaited
  have keys : KeysHold s := by
    obtain ⟨-, -, -, -, -, -, -, -, -, -, -, keys, -, -, -⟩ := cached
    exact keys
  have same : lineNo (linkStore l p).dla = lineNo (pktDla p) := lineNo_lineBase _
  have stores : s.ownerWrite (linkAgent l) (linkStore l p) {} 0 = (s.storing p).enter (heldStore l p) {} := by
    have whole := s.ownerWrite_whole (linkAgent l) (linkStore l p) e txns unwaited (by rw [same]; exact listed) owner rfl rfl
    rw [same] at whole
    exact whole
  have unlogged' : ∀ e, (s.storing p).extentOf (heldStore l p).dla = some e → (s.storing p).cfgAt Obj.caskLogEnable e.cask ≠ 1 := by
    intro e ext
    unfold Chip.cfgAt
    rw [Chip.cfg_of_frame (s.storing_frame p) (by decide) (by decide)]
    exact unlogged e ext
  obtain ⟨x, filled, c, fill, made, enters⟩ := (s.storing p).enter_nolog (heldStore l p) cached
    (fun c => by rw [heldStore, c.finishWrite_held]; exact ⟨rfl, rfl⟩) unlogged'
  obtain ⟨line, -, others, frame, kept⟩ := Chip.cachedWrite_facts ((s.storing p).mapUsed x) filled (heldStore l p)
    (lineBase_lineBase _) keys fill _ _ _ c made
  have coh : c.coh = (s.storing p).coh := frame .coh (by decide)
  refine ⟨c.released (lineNo (pktDla p)), stores.trans (enters.trans (c.finishWrite_held _ _)), ?_, others,
    ⟨_, congrArg (fun x : CohUnit => { x with held := Tab.del x.held (lineNo (pktDla p)) }) coh⟩, ?_, kept⟩
  · have whole := line.trans (mergeLine_full _ _)
    exact (c.line_lineBase _).symm.trans whole
  · exact (Frame.set_coh (by decide) c _).trans ((frame.mono (by decide)).trans
      ((Frame.set_map (by decide) (s.storing p) _).trans ((s.storing_frame p).mono (by decide))))

/-- CWB by the owner of a cached line, at a quiet home: the line is stored and forgotten, and the writeback is answered (R129, R132). -/
theorem Chip.cohIn_cwb (s : Chip) (l : Nat) (p : Packet) (live : s.linkLive l = true) (alive : s.agentIsDead (linkAgent l) = false)
    (op : p.op.toNat = 4) (good : s.goodPacket l 9 p = true) (may : s.linkMay l p = true)
    (owner : (s.ent (lineNo (pktDla p))).bind (·.owner) = some (linkAgent l)) (quiet : s.homeQuiet) (cached : CachedWrite s (linkStore l p))
    (unlogged : ∀ e, s.extentOf (lineBase (pktDla p)) = some e → s.cfgAt Obj.caskLogEnable e.cask ≠ 1) :
    ∃ t, s.cohIn l 4 p (fun x => x.linkCwb l p {}) = t.cohSend l 0x23 p.tag.toNat (lineBase (pktDla p)) none
      ∧ t.line (pktDla p) = lineOf p.data
      ∧ (∀ y : Nat, y < lineBase (pktDla p) ∨ lineBase (pktDla p) + 64 ≤ y → Tab.get 0 t.mem y = Tab.get 0 s.mem y)
      ∧ t.ent (lineNo (pktDla p)) = none ∧ Frame (.coh :: .links :: .cnt :: storeParts) t s := by
  obtain ⟨e, listed, owns⟩ := Option.bind_eq_some_iff.mp owner
  obtain ⟨c, y, z, hears, serves, took⟩ := s.cohIn_good l 4 p _ live alive op good
  have base : 64 * lineNo (pktDla p) = lineBase (pktDla p) := Nat.mul_comm _ _
  have may' : (s.linked y z).linkMay l p = true := may
  have owner' : ((s.linked y z).ent (lineNo (pktDla p))).bind (·.owner) = some (linkAgent l) := owner
  have unlogged' : ∀ e, (s.linked y z).extentOf (lineBase (pktDla p)) = some e → (s.linked y z).cfgAt Obj.caskLogEnable e.cask ≠ 1 := unlogged
  obtain ⟨t, stores, line, others, ⟨held, coh⟩, frame, kept⟩ := (s.linked y z).ownerWrite_cached l p e quiet.1 listed owns cached unlogged'
  refine ⟨t, hears.trans ?_, line, others, ?_, (frame.mono (by decide)).trans ((s.linked_frame y z).mono (by decide))⟩
  · unfold Chip.linkCwb
    rw [if_neg serves]
    have acc : (⟨0x10 + l, .byDir, .write, lineBase (pktDla p), fullMask, lineOf p.data, p.poison, true, 0, .none⟩ : Access)
        = linkStore l p := rfl
    simp only [took, may', owner', base, Bool.not_true, Bool.false_eq_true, ne_eq, not_true_eq_false, if_false, acc, stores]
    have sent := t.cohSend_frame l 0x23 p.tag.toNat (lineBase (pktDla p)) none
    refine Chip.cohPump_idle _ ((s.linked y z).homeQuiet_dropped _ (lineNo (pktDla p)) held quiet ((sent .coh (by decide)).trans coh)
      ((MapKept.of_eq (sent .map (by decide))).trans kept) (parts := .coh :: txParts ++ storeParts) ?_ (by decide) (by decide) (by decide))
    exact (sent.mono (by decide)).trans (frame.mono (by decide))
  · unfold Chip.ent
    rw [coh]
    exact Tab.find_del_same _ _

/-- CEV by the owner of a line, at a quiet home: the line is forgotten, and the drop is answered (R121, R124). -/
theorem Chip.cohIn_cev (s : Chip) (l : Nat) (p : Packet) (e : FilterEnt) (live : s.linkLive l = true)
    (alive : s.agentIsDead (linkAgent l) = false) (op : p.op.toNat = 5) (good : s.goodPacket l 9 p = true) (may : s.linkMay l p = true)
    (listed : s.ent (lineNo (pktDla p)) = some e) (owner : e.owner = some (linkAgent l)) (quiet : s.homeQuiet) :
    ∃ y z, s.cohIn l 5 p (fun x => x.linkCev l p)
      = ((s.linked y z).unlisted (lineNo (pktDla p))).cohSend l 0x23 p.tag.toNat (lineBase (pktDla p)) none := by
  obtain ⟨c, y, z, hears, serves, took⟩ := s.cohIn_good l 5 p _ live alive op good
  refine ⟨y, z, hears.trans ?_⟩
  have base : 64 * lineNo (pktDla p) = lineBase (pktDla p) := Nat.mul_comm _ _
  have may' : (s.linked y z).linkMay l p = true := may
  unfold Chip.linkCev
  rw [if_neg serves]
  simp only [took, may', if_true, base, (s.linked y z).dropCopy_owner _ _ e listed owner]
  have sent := ((s.linked y z).unlisted (lineNo (pktDla p))).cohSend_frame l 0x23 p.tag.toNat (lineBase (pktDla p)) none
  refine Chip.cohPump_idle _ (s.homeQuiet_dropped _ (lineNo (pktDla p)) s.coh.held quiet (sent .coh (by decide))
    (MapKept.of_eq (sent .map (by decide))) (parts := .coh :: txParts) ?_ (by decide) (by decide) (by decide))
  exact (sent.mono (by decide)).trans ((Frame.set_coh (by decide) (s.linked y z) _).trans ((s.linked_frame y z).mono (by decide)))

/-! ### The answers to PULL (R137, R140, R141) -/

/-- CREL answers a PULL: no retried request of the link waits any more (R137). -/
theorem Chip.cohIn_crel (s : Chip) (l : Nat) (p : Packet) (live : s.linkLive l = true) (alive : s.agentIsDead (linkAgent l) = false)
    (op : p.op.toNat = 7) (good : s.goodPacket l 9 p = true) (pulled : bitOf s.coh.pulled (linkAgent l) = true) :
    ∃ t, s.cohIn l 7 p (fun x => x.linkCrel l p) = t ∧ t.coh = { s.coh with
        pulled := setBit s.coh.pulled (linkAgent l) false, retrySince := setBit s.coh.retrySince (linkAgent l) false
        retried := Tab.put [] s.coh.retried (linkAgent l) [] }
      ∧ Frame [.coh, .links, .cnt] t s := by
  obtain ⟨c, y, z, hears, serves, took⟩ := s.cohIn_good l 7 p _ live alive op good
  rw [hears]
  unfold Chip.linkCrel
  rw [if_neg serves, took]
  refine ⟨_, if_pos pulled, rfl, (Frame.set_coh (by decide) (s.linked y z) _).trans ((s.linked_frame y z).mono (by decide))⟩

/-- A domain that tracks no line, at a home that holds no request, goes DOWN with nothing to end: its source is raised (R141). -/
theorem Chip.domainDown_bare (s : Chip) (d a cause : Nat) (filter : s.coh.filter = []) (txns : s.coh.txns = []) (queue : s.coh.queue = [])
    (devQueue : s.coh.devQueue = []) : s.domainDown d a cause = (s.downed d a cause).raise (if cause = 4 then 65 else 64) (agentMaster a) := by
  have owned : s.coh.filter.filter (fun e => decide (e.2.domain = d ∧ e.2.owner = some a)) = [] := by
    rw [filter]
    rfl
  have noRequest : (s.coh.queue ++ s.coh.devQueue).filter ((s.setDom d (s.downDom d a cause)).asksDomain d) = [] := by
    rw [queue, devQueue]
    rfl
  have noTxn : s.coh.txns.filter (fun t => decide (t.domain = d)) = [] := by
    rw [txns]
    rfl
  have downs : s.domainDown d a cause = Chip.raise
      (((s.coh.queue ++ s.coh.devQueue).filter ((s.setDom d (s.downDom d a cause)).asksDomain d)).foldl
        (fun s q => if q.kind = .evict ∨ q.kind = .recall then s else s.cohError d q)
        ((s.coh.txns.filter (fun t => decide (t.domain = d))).foldl (fun s t => s.failTxn d t) (s.downed d a cause)))
      (if cause = 4 then 65 else 64) (agentMaster a) := by
    unfold Chip.domainDown
    rw [owned]
    rfl
  rw [downs, noTxn, noRequest]
  rfl

/-- A home that tracks no line and holds no request is quiet. -/
theorem Chip.homeQuiet_bare (s : Chip) (filter : s.coh.filter = []) (txns : s.coh.txns = []) (queue : s.coh.queue = [])
    (devQueue : s.coh.devQueue = []) (retry : s.coh.retrySince = 0) : s.homeQuiet := by
  refine ⟨txns, queue, devQueue, retry, ?_⟩
  unfold Chip.homeIdle
  rw [filter]
  rfl

/-- A home that is the same has the same domains. -/
theorem Chip.dom_of_coh {c s : Chip} (coh : c.coh = s.coh) (j : Nat) : c.dom j = s.dom j := by
  unfold Chip.dom
  rw [coh]

/-- The device as domain `d` goes DOWN with agent `a`, whose answer to PULL is missed. -/
def Chip.pullLost (s : Chip) (a d : Nat) : Chip := (s.dying a).downed d a 3

/-- The agent is dead, and its domain DOWN with cause 3 (R140, R141). -/
theorem Chip.pullLost_facts (s : Chip) (a d : Nat) : bitOf (s.pullLost a d).coh.dead a = true
    ∧ (s.pullLost a d).dom d = { s.dom d with
      state := .down, cause := 3, dead := a, downTc := s.tb.tc, downs := (s.dom d).downs + 1, reform := false }
    ∧ (∀ j : Nat, j ≠ d → (s.pullLost a d).dom j = s.dom j) ∧ Frame [.coh] (s.pullLost a d) s := by
  obtain ⟨down, others, -, -, frame⟩ := (s.dying a).downed_facts d a 3
  exact ⟨bitOf_setBit s.coh.dead a, down, others, frame.trans (Frame.set_coh (by decide) s _)⟩

/-- A PULL deadline that is missed by an agent of one domain, at a home that tracks no line: the agent is dead, and the domain DOWN
(R137, R140, R141). -/
theorem Chip.pullMiss_acts (s : Chip) (l d : Nat) (pulled : bitOf s.coh.pulled (linkAgent l) = true)
    (only : (List.range 64).filter (fun d => s.isMember d (linkAgent l)
      && decide ((s.dom d).state = .active ∨ (s.dom d).state = .recalling)) = [d])
    (filter : s.coh.filter = []) (txns : s.coh.txns = []) (queue : s.coh.queue = []) (devQueue : s.coh.devQueue = [])
    (retry : s.coh.retrySince = 0) :
    s.pullMiss l = (s.pullLost (linkAgent l) d).raise 64 (agentMaster (linkAgent l)) := by
  have coh := (Chip.raise_eq (s.pullLost (linkAgent l) d) 64 (agentMaster (linkAgent l)) 0 .none [0, 1, 2, 3]).frame .coh (by decide)
  have quiet : ((s.pullLost (linkAgent l) d).raise 64 (agentMaster (linkAgent l))).homeQuiet := by
    refine Chip.homeQuiet_bare _ ?_ ?_ ?_ ?_ ?_ <;> rw [coh]
    · exact congrArg (List.filterMap _) filter
    · exact txns
    · exact congrArg (List.filter _) queue
    · exact congrArg (List.filter _) devQueue
    · exact retry
  have downs := (s.dying (linkAgent l)).domainDown_bare d (linkAgent l) 3 filter txns queue devQueue
  unfold Chip.pullMiss
  rw [if_pos pulled, s.agentDead_one (linkAgent l) 3 d only, downs]
  exact Chip.cohPump_idle _ quiet

end Sys2Proof.Machine

open Sys2Proof Sys2Proof.Machine

/-- Settles O18. A request passes its checks and takes the one tracker, and the idle home carries it to its answer; an owner's writeback or
drop leaves a quiet home quiet, with the line stored or forgotten; a missed PULL takes the agent's one domain down. -/
theorem coherentPacketsOfLinks : Obligations.CoherentPacketsOfLinks := by
  refine ⟨?crdS, ?crdE, ?crdCur, ?cwr, ?cwb, ?cev, ?crel, ?missed⟩
  case crdS =>
    intro s l p d k live alive op good aligned member ok active txns queue devQueue retry idle unheld still unwaited records online calm
      unwritten untracked room
    exact coherentRead_effect (k := .shared) rfl
      ⟨live, alive, good, aligned, member, active, ⟨txns, queue, devQueue, retry, idle⟩, unheld, still, untracked⟩
      ⟨unwaited, records, online, calm, unwritten, room⟩ op ok (.inl rfl)
  case crdE =>
    intro s l p d k live alive op good aligned member ok active txns queue devQueue retry idle unheld still unwaited records online calm
      unwritten untracked room
    exact coherentRead_effect (k := .own) rfl
      ⟨live, alive, good, aligned, member, active, ⟨txns, queue, devQueue, retry, idle⟩, unheld, still, untracked⟩
      ⟨unwaited, records, online, calm, unwritten, room⟩ op ok (.inr (.inl rfl))
  case crdCur =>
    intro s l p d k live alive op good aligned member ok active txns queue devQueue retry idle unheld still unwaited records online calm
      unwritten untracked room
    exact coherentRead_effect (k := .cur) rfl
      ⟨live, alive, good, aligned, member, active, ⟨txns, queue, devQueue, retry, idle⟩, unheld, still, untracked⟩
      ⟨unwaited, records, online, calm, unwritten, room⟩ op ok (.inr (.inr rfl))
  case cwr =>
    intro s l p d k live alive op good aligned member ok active txns queue devQueue retry idle unheld still untracked cached unlogged
    obtain ⟨t, u, run, line, others, ent, answered, coh, frame⟩ := s.chip.cohIn_write l 6 p d k
      ⟨live, alive, good, aligned, member, active, ⟨txns, queue, devQueue, retry, idle⟩, unheld, still, untracked⟩ op ok cached unlogged
    exact ⟨t, u, Effect.of_eq rfl run, line, others, ent, answered, coh, frame⟩
  case cwb =>
    intro s l p live alive op good may owner txns queue devQueue retry idle cached unlogged
    have unlogged' : ∀ e, s.chip.extentOf (lineBase (pktDla p)) = some e → s.chip.cfgAt Obj.caskLogEnable e.cask ≠ 1 := fun e ext => by
      rw [ext] at unlogged
      exact of_decide_eq_true unlogged
    obtain ⟨t, run, facts⟩ := s.chip.cohIn_cwb l p live alive op good may owner ⟨txns, queue, devQueue, retry, idle⟩ cached unlogged'
    exact ⟨t, Effect.of_eq rfl run, facts⟩
  case cev =>
    intro s l p e live alive op good may listed owner txns queue devQueue retry idle
    obtain ⟨y, z, run⟩ := s.chip.cohIn_cev l p e live alive op good may listed owner ⟨txns, queue, devQueue, retry, idle⟩
    exact ⟨_, Effect.of_eq rfl run, Tab.find_del_same _ _, fun k other => Tab.find_del_other _ other,
      (Frame.set_coh (by decide) (s.chip.linked y z) _).trans ((s.chip.linked_frame y z).mono (by decide))⟩
  case crel =>
    intro s l p live alive op good pulled
    obtain ⟨t, run, coh, frame⟩ := s.chip.cohIn_crel l p live alive op good pulled
    exact ⟨t, Effect.of_eq rfl run, coh, frame⟩
  case missed =>
    intro s l d pulled only filter txns queue devQueue retry
    obtain ⟨dead, down, others, frame⟩ := s.chip.pullLost_facts (linkAgent l) d
    have raised := (Chip.raise_eq (s.chip.pullLost (linkAgent l) d) 64 (agentMaster (linkAgent l)) 0 .none [0, 1, 2, 3]).frame
    have coh := raised .coh (by decide)
    exact ⟨_, Effect.of_eq rfl (s.chip.pullMiss_acts l d pulled only filter txns queue devQueue retry), by rw [coh]; exact dead,
      (Chip.dom_of_coh coh d).trans down, fun j other => (Chip.dom_of_coh coh j).trans (others j other),
      Chip.raise_sticky _ _ _ _ _ _, (raised.mono (by decide)).trans (frame.mono (by decide))⟩

end

section
/-!
PROOFS. Heat (R148, R150, R151), the journal and the map zone (R163 to R165), the rebuild of the map (R166) and the residence of page tables
(R147).
-/
namespace Sys2Proof.Machine

/-! ### Heat and candidates (R148, R150, R151) -/

/-- A page belongs to a region by the extents and the regions' bounds (R84). -/
theorem Chip.accessRegion_of {a b : Chip} (extents : a.map.extents = b.map.extents) (cfg : ∀ k, a.cfg k = b.cfg k) (dla : Nat) :
    a.accessRegion dla = b.accessRegion dla := by
  unfold Chip.accessRegion Chip.extentOf Chip.regionOf Chip.cfgAt
  simp only [extents, cfg]

/-- Which tiers a region may use hangs on the configuration. -/
theorem Chip.tierUp_of {a b : Chip} (cfg : ∀ k, a.cfg k = b.cfg k) (r t : Nat) : a.tierUp r t = b.tierUp r t := by
  unfold Chip.tierUp Chip.tierAllowed Chip.cfgAt
  simp only [cfg]

/-- The recorded pages that move for heat. -/
def Chip.heatPages (s : Chip) : List Nat := (s.map.pages.map (·.1)).filter (fun p => s.heatRegion (s.accessRegion (4096 * p)))

theorem Chip.mem_heatPages (s : Chip) (q : Nat) : q ∈ s.heatPages ↔
    (Tab.find s.map.pages q).isSome = true ∧ s.heatRegion (s.accessRegion (4096 * q)) = true := by
  rw [← Tab.find_isSome]
  simp only [Chip.heatPages, List.mem_filter, List.mem_map]

/-- A page's heat after a decay pass. -/
def Chip.cooled (s : Chip) (p : Nat) : PageRec :=
  { s.page p with heat := min 255 (((s.page p).heat * s.cfg Obj.lauterDecayKeep) / 16 + s.heatOf p) }

/-- The records after a decay pass. -/
def Chip.decayed (s : Chip) : Chip :=
  let keep := s.cfg Obj.lauterDecayKeep
  s.heatPages.foldl (fun (s : Chip) p =>
    let r := s.page p
    let h := min 255 ((r.heat * keep) >>> 4 + s.heatOf p)
    if h = r.heat then s else s.commitPage p { r with heat := h }) s

theorem Chip.decayed_facts (s : Chip) (wf : Tab.wf {} s.map.pages = true) :
    (∀ q, s.decayed.page q = if q ∈ s.heatPages then s.cooled q else s.page q) ∧ s.decayed.map.extents = s.map.extents
    ∧ s.decayed.lauter.slots = s.lauter.slots ∧ Frame [.lauter, .kiln, .map] s.decayed s := by
  obtain ⟨frame, ⟨j, b, n, lauter⟩, pages⟩ :=
    Chip.decay_facts (s.cfg Obj.lauterDecayKeep) s.heatPages s ((Tab.keys_nodup _ _ wf).filter _)
  refine ⟨fun q => (pages q).trans ?_, ?_, (congrArg LauterUnit.slots lauter).trans rfl, frame⟩
  · simp only [Nat.shiftRight_eq_div_pow]
    rfl
  · refine (List.foldl_hom (fun c : Chip => c.map.extents) (g₂ := fun x _ => x) fun c p => ?_).symm.trans (List.foldl_fixed _)
    dsimp only
    split
    · rfl
    · rfl

/-- What has been counted starts anew, and the candidates for promotion and demotion are named among `ps`. -/
def Chip.candidatesNamed (s : Chip) (ps : List Nat) : Chip :=
  let up := ps.filter (fun p => (s.page p).resting && decide (s.cfg Obj.lauterPromoteHeat ≤ (s.page p).heat)
    && (s.tierUp (s.accessRegion (4096 * p)) (s.page p).st.code).isSome)
  let down := ps.filter (fun p => (s.page p).resting && decide ((s.page p).heat ≤ s.cfg Obj.lauterDemoteHeat)
    && decide ((s.page p).st.code < s.cfgAt Obj.policyHome (s.accessRegion (4096 * p))))
  { s with lauter := { s.lauter with
    heat := [], spill := [], promote := s.byHeat true up, demote := s.byHeat false down, barred := [] } }

theorem Chip.mem_candidatesNamed (s : Chip) (ps : List Nat) (q : Nat) : q ∈ (s.candidatesNamed ps).lauter.promote ↔
    q ∈ ps ∧ (s.page q).resting = true ∧ s.cfg Obj.lauterPromoteHeat ≤ (s.page q).heat
      ∧ (s.tierUp (s.accessRegion (4096 * q)) (s.page q).st.code).isSome = true := by
  refine (s.byHeat_mem true q _).trans (List.mem_filter.trans ?_)
  simp only [Bool.and_eq_true, decide_eq_true_eq, and_assoc]

theorem Chip.heatDecayPass_acts (s : Chip) (calm : s.inBurst = false) (works : s.workMode = true) (room : s.journalRoom 1 = true) :
    s.heatDecayPass = if (List.range 16).any (s.decayed.candidatesNamed s.heatPages).evacBlocked
      then (s.decayed.candidatesNamed s.heatPages).raise 56 else s.decayed.candidatesNamed s.heatPages := by
  unfold Chip.heatDecayPass
  rw [if_neg (by simp [calm, works, room])]
  rfl

/-- After a decay pass: the counts are empty, the heat of HEAT regions' pages has decayed, and those at the promotion heat are named. -/
theorem Chip.heatDecayPass_facts (s : Chip) (calm : s.inBurst = false) (works : s.workMode = true)
    (wf : Tab.wf {} s.map.pages = true) (room : s.journalRoom 1 = true) :
    let t := s.heatDecayPass
    t.lauter.heat = [] ∧ t.lauter.spill = [] ∧ t.lauter.barred = [] ∧ (∀ q, t.page q = if q ∈ s.heatPages then s.cooled q else s.page q)
      ∧ (∀ q, q ∈ t.lauter.promote ↔ q ∈ s.heatPages ∧ (t.page q).resting = true ∧ s.cfg Obj.lauterPromoteHeat ≤ (t.page q).heat
        ∧ (s.tierUp (s.accessRegion (4096 * q)) (t.page q).st.code).isSome = true)
      ∧ t.lauter.slots = s.lauter.slots ∧ Frame [.map, .lauter, .kiln, .fault, .heads, .field] t s := by
  intro t
  obtain ⟨pages, extents, slots, frame⟩ := s.decayed_facts wf
  have raised : Frame [.fault, .heads, .field] t (s.decayed.candidatesNamed s.heatPages) := by
    rw [show t = _ from s.heatDecayPass_acts calm works room]
    exact Frame.ite _ (Chip.raise_eq _ _ _ _ _ _).frame (Frame.refl _ _)
  have lauter := raised.lauter (by decide)
  have page (q : Nat) : t.page q = s.decayed.page q := raised.page (by decide) q
  have cfg (k : Nat) : s.decayed.cfg k = s.cfg k := Chip.cfg_of_frame frame (by decide) (by decide) k
  refine ⟨congrArg LauterUnit.heat lauter, congrArg LauterUnit.spill lauter, congrArg LauterUnit.barred lauter,
    fun q => (page q).trans (pages q), fun q => ?_, (congrArg LauterUnit.slots lauter).trans slots,
    (raised.mono (by decide)).trans ((Frame.set_lauter (by decide) s.decayed _).trans (frame.mono (by decide)))⟩
  rw [lauter, page, Chip.mem_candidatesNamed, cfg, Chip.accessRegion_of extents cfg, Chip.tierUp_of cfg]

/-- The pages that low space on a tier adds to its candidates. -/
def Chip.lowPages (s : Chip) (tier : PgState) : List Nat :=
  (s.map.pages.filter (fun e => e.2.resting && decide (e.2.st = tier)
    && s.heatRegion (s.accessRegion (4096 * e.1)) && !s.lauter.low.contains e.1)).map (·.1)

theorem Chip.mem_lowPages (s : Chip) (tier : PgState) (q : Nat) : q ∈ s.lowPages tier ↔
    q ∉ s.lauter.low ∧ s.heatRegion (s.accessRegion (4096 * q)) = true
      ∧ ∃ r, (q, r) ∈ s.map.pages ∧ r.resting = true ∧ r.st = tier := by
  simp only [Chip.lowPages, List.mem_map, List.mem_filter, Bool.and_eq_true, decide_eq_true_eq, Bool.not_eq_true', List.contains_eq_mem,
    decide_eq_false_iff_not]
  constructor
  · rintro ⟨⟨p, r⟩, ⟨mem, ⟨⟨rests, on⟩, heat⟩, new⟩, rfl⟩
    exact ⟨new, heat, r, mem, rests, on⟩
  · rintro ⟨new, heat, r, mem, rests, on⟩
    exact ⟨(q, r), ⟨mem, ⟨⟨rests, on⟩, heat⟩, new⟩, rfl⟩

theorem Chip.freeSpaceLow_below (s : Chip) (k : Nat) (tier : k ≠ 0) (low : s.spaceLow (tierOfCode k) 1 = true) :
    s.freeSpaceLow k = { s with lauter := { s.lauter with low := s.lauter.low ++ s.byHeat false (s.lowPages (tierOfCode k)) } } := by
  unfold Chip.freeSpaceLow
  dsimp only
  rw [if_neg (by simp [tier, low])]
  rfl

/-! ### The journal and its zone (R163 to R165) -/

/-- The buffer has room ahead of none that waits. -/
theorem Chip.backlog_of_room {s : Chip} (room : s.journalRoom 1 = true) : s.lauter.backlog = [] := by
  unfold Chip.journalRoom at room
  simp only [Bool.and_eq_true, List.isEmpty_iff] at room
  exact room.1

/-- An entry comes last of those in the buffer and of those that wait for it. -/
theorem Chip.jAppend_queue (s : Chip) (kind aux target payload : Nat) :
    (s.jAppend kind aux target payload).lauter.journal ++ (s.jAppend kind aux target payload).lauter.backlog
      = s.lauter.journal ++ s.lauter.backlog ++ [⟨s.lauter.jseq, kind, aux, target, payload⟩] := by
  rw [Chip.jAppend_lauter]
  dsimp only
  by_cases room : s.journalRoom 1 = true
  · simp [room, Chip.backlog_of_room room]
  · simp [room]

theorem Chip.journalSpaceFreed_goes (s : Chip) (w : Wait) (room : s.journalRoom 1 = true) (waits : s.waits = [w]) (why : w.why = .journal) :
    s.journalSpaceFreed = (Chip.below { s with waits := [] } w.acc { w.obs with keyBad := false } false).keepTc 0 w.tc := by
  have none := s.journalFill_facts.2.2.2 (Chip.backlog_of_room room)
  have one : s.waits.filter (fun w => decide (w.why = .journal)) = [w] := by simp [waits, why]
  have left : s.waits.filter (fun w => !decide (w.why = .journal)) = [] := by simp [waits, why]
  have run := s.rerun_one _ w one (by simp [why])
  unfold Chip.journalSpaceFreed
  dsimp only
  rw [none, if_pos room, run, left]
  rfl

/-- The ONLINE zone channels hang on the configuration and the channel states. -/
theorem Chip.zoneOnline_of {a b : Chip} (cfg : ∀ k, a.cfg k = b.cfg k) (chan : a.lauter.chan = b.lauter.chan) :
    a.zoneOnline = b.zoneOnline := by
  unfold Chip.zoneOnline Chip.zoneChans Chip.chanState
  rw [cfg, chan]

/-- A copy of the zone with the `n` oldest entries of the journal in its ring. -/
def Chip.ringed (s : Chip) (n : Nat) : Zone := { s.newestZone with ring := s.newestZone.ring ++ s.lauter.journal.take n }

/-- The journal's `n` oldest entries are in the zone's ring, and entries that waited have entered the journal. -/
def Chip.drained (s : Chip) (n : Nat) : Chip :=
  let z := s.zoneWrite (s.ringed n)
  ({ z with lauter := { z.lauter with journal := z.lauter.journal.drop n } } : Chip).journalFill

theorem Chip.drained_facts (s : Chip) (n : Nat) :
    (∀ k, (s.drained n).zone k = if k ∈ s.zoneOnline then { s.ringed n with stamp := s.newestZone.stamp + 1 } else s.zone k)
    ∧ (s.zoneOnline ≠ [] → (s.drained n).newestZone = { s.ringed n with stamp := s.newestZone.stamp + 1 })
    ∧ (s.drained n).lauter.journal ++ (s.drained n).lauter.backlog = s.lauter.journal.drop n ++ s.lauter.backlog
    ∧ (s.drained n).lauter.jseq = s.lauter.jseq ∧ (s.drained n).zoneOnline = s.zoneOnline ∧ Frame [.lauter] (s.drained n) s := by
  obtain ⟨zone, ⟨t, written⟩, kept, newest⟩ := s.zoneWrite_facts (s.ringed n)
  generalize fed : ({ s.zoneWrite (s.ringed n) with lauter := { (s.zoneWrite (s.ringed n)).lauter with
    journal := (s.zoneWrite (s.ringed n)).lauter.journal.drop n } } : Chip) = u
  have drains : s.drained n = u.journalFill := congrArg Chip.journalFill fed
  obtain ⟨queue, ⟨j, b, filled⟩, frame, -⟩ := u.journalFill_facts
  have lauter : u.journalFill.lauter = { s.lauter with zones := t, journal := j, backlog := b } := by
    rw [filled, ← fed]
    dsimp only
    rw [written]
  have zones : u.journalFill.lauter.zones = (s.zoneWrite (s.ringed n)).lauter.zones := by rw [lauter, written]
  have all : Frame [.lauter] u.journalFill s := by
    refine frame.trans (Frame.trans ?_ kept)
    rw [← fed]
    exact Frame.set_lauter (by decide) _ _
  rw [drains]
  refine ⟨fun k => (congrArg (Tab.get ({} : Zone) · k) zones).trans (zone k), fun ne => ?_, ?_, by rw [lauter],
    Chip.zoneOnline_of (Chip.cfg_of_frame all (by decide) (by decide)) (by rw [lauter]), all⟩
  · rw [← newest ne]
    unfold Chip.newestZone
    rw [zones]
  · rw [queue, ← fed]
    dsimp only
    rw [written]

theorem Chip.journalDrain_drains (s : Chip) (n : Nat) (checkpoint : Bool) (calm : s.inBurst = false) (online : s.zoneOnline ≠ [])
    (some' : s.lauter.journal ≠ [] ∨ checkpoint = true) :
    s.journalDrain n checkpoint = if checkpoint
      then (if s.zoneOnline.length = 1 then (s.drained n).raise 51 else s.drained n).checkpointNow
      else if s.zoneOnline.length = 1 then (s.drained n).raise 51 else s.drained n := by
  unfold Chip.journalDrain
  rw [if_neg (by rcases some' with some' | some' <;> simp [calm, online, some'])]
  rw [← (s.drained_facts n).2.2.2.2.1]
  rfl

/-- A checkpoint: the base tables take the ring, which drops what they cover, and the buffer takes the CHECKPOINT entry. -/
theorem Chip.checkpointNow_facts (s : Chip) (e : JEntry) (last : s.newestZone.ring.getLast? = some e) :
    (∀ k ∈ s.zoneOnline, s.checkpointNow.zone k = {
      ring := keepAfter e.seq s.newestZone.ring
      head := wrap32 (s.newestZone.head + (s.newestZone.ring.length - (keepAfter e.seq s.newestZone.ring).length))
      base := applyEntries s.newestZone.base s.newestZone.ring, stamp := s.newestZone.stamp + 1 })
    ∧ s.checkpointNow.lauter.checkpoint = e.seq
    ∧ s.checkpointNow.lauter.journal ++ s.checkpointNow.lauter.backlog
      = s.lauter.journal ++ s.lauter.backlog ++ [⟨s.lauter.jseq, 3, 0, e.seq, 0⟩]
    ∧ Frame [.lauter, .kiln] s.checkpointNow s := by
  generalize now : ({ s.newestZone with
    base := applyEntries s.newestZone.base s.newestZone.ring, ring := keepAfter e.seq s.newestZone.ring
    head := wrap32 (s.newestZone.head + (s.newestZone.ring.length - (keepAfter e.seq s.newestZone.ring).length)) } : Zone) = z
  obtain ⟨zone, ⟨t, written⟩, kept, -⟩ := s.zoneWrite_facts z
  generalize marked : ({ s.zoneWrite z with lauter := { (s.zoneWrite z).lauter with checkpoint := e.seq } } : Chip) = u
  have run : s.checkpointNow = (u.zoneRoots false).jAppend 3 0 e.seq 0 := by
    unfold Chip.checkpointNow
    dsimp only
    rw [last, ← marked, ← now]
  have roots := u.zoneRoots_frame false
  have lauter : (u.zoneRoots false).lauter = { s.lauter with zones := t, checkpoint := e.seq } := by
    rw [roots.lauter (by decide), ← marked, written]
  have zones : s.checkpointNow.lauter.zones = (s.zoneWrite z).lauter.zones := by
    rw [run, Chip.jAppend_lauter, lauter, written]
  refine ⟨fun k mem => ?_, ?_, ?_, ?_⟩
  · refine (congrArg (Tab.get ({} : Zone) · k) zones).trans ((zone k).trans ?_)
    rw [if_pos mem, ← now]
  · rw [run, Chip.jAppend_lauter, lauter]
  · rw [run, Chip.jAppend_queue, lauter]
  · rw [run]
    refine (Chip.jAppend_frame _ _ _ _ _).trans ((roots.mono (by decide)).trans (Frame.trans ?_ (kept.mono (by decide))))
    rw [← marked]
    exact Frame.set_lauter (by decide) _ _

/-! ### The rebuild of the map (R166) -/

/-- The map as a rebuild leaves it, with no migration in a slot. -/
def Chip.mapTaken (s : Chip) (exts : List Extent) (tables : Tab Nat) (pages : Tab PageRec) (skipped : Nat) : Chip :=
  { s with
    lauter := { s.lauter with slots := [], rebuilt := true }
    map := { s.map with
      extents := exts, tables := tables, pages := pages, cache := [], badRecs := [], repairing := []
      recordErrors := wrap32 (s.map.recordErrors + skipped) } }

/-- The entries that the replay takes, and how many it skips. -/
def Chip.replay (s : Chip) (bad : ZoneBad) : List JEntry × Nat := replayEntries (s.newestZone.ring ++ s.lauter.journal) bad

/-- The records that a rebuild finds: the base tables, with the replayed entries written in place. -/
def Chip.recordsFound (s : Chip) (bad : ZoneBad) : Tab Nat := applyEntries (s.readBase bad).1 (s.replay bad).1

/-- The page tables that the records' directory entries name. -/
def Chip.tablesOf (s : Chip) (t : Tab Nat) : Tab Nat :=
  ((s.dirsOf t).filter (fun d => decide (d.2 % 4 = 2))).foldl (fun ts d => Tab.set ts d.1 (bitsOf d.2 20 25)) []

/-- The page records that a rebuild finds. -/
def Chip.pagesFound (s : Chip) (bad : ZoneBad) : Tab PageRec := pagesOfBase (s.recordsFound bad) (s.tablesOf (s.recordsFound bad))

/-- The content of pages that have lost their record is gone. -/
def Chip.unrecordedWiped (s : Chip) (bad : ZoneBad) : Chip :=
  ((s.map.pages.map (·.1)).filter (fun p => (Tab.find (s.pagesFound bad) p).isNone)).foldl (fun s p => s.wipePage p) s

/-- The device with its map rebuilt. -/
def Chip.remapped (s : Chip) (bad : ZoneBad) : Chip :=
  (s.unrecordedWiped bad).mapTaken ((s.dirsOf (s.recordsFound bad)).foldl s.joinBlock []).reverse (s.tablesOf (s.recordsFound bad))
    (s.pagesFound bad) (s.replay bad).2

theorem Chip.remapped_facts (s : Chip) (bad : ZoneBad) : (s.remapped bad).lauter = { s.lauter with slots := [], rebuilt := true }
    ∧ (s.remapped bad).map.recordErrors = wrap32 (s.map.recordErrors + (s.replay bad).2)
    ∧ Frame [.map, .lauter, .mem, .poison, .macs, .mill, .kiln, .cache] (s.remapped bad) s := by
  obtain ⟨-, -, wiped⟩ : _ ∧ _ ∧ Frame [.mem, .poison, .macs, .mill, .kiln, .cache] (s.unrecordedWiped bad) s := Chip.wipePages_facts _ s
  have lauter : (s.unrecordedWiped bad).lauter = s.lauter := wiped.lauter (by decide)
  have map : (s.unrecordedWiped bad).map = s.map := wiped.map (by decide)
  refine ⟨?_, ?_, Frame.trans (b := s.unrecordedWiped bad) ?_ (wiped.mono (by decide))⟩
  · rw [← lauter]
    rfl
  · rw [← map]
    rfl
  · exact (Frame.set_lauter (by decide) { s.unrecordedWiped bad with map := (s.remapped bad).map } _).trans (Frame.set_map (by decide) _ _)

/-- A first rebuild in TRAINING that finds every base record takes the map, and raises source 50 for what the replay skipped. -/
theorem Chip.mapRebuild_whole (s : Chip) (bad : ZoneBad) (training : s.mode.current = .training) (fresh : s.lauter.rebuilt = false)
    (none : (s.readBase bad).2 = []) :
    s.mapRebuild bad = if 0 < (s.replay bad).2 then (s.remapped bad).raise 50 else s.remapped bad := by
  unfold Chip.mapRebuild
  rw [if_neg (by simp [training, fresh])]
  dsimp only
  rw [none]
  rfl

theorem Chip.mapRebuild_idle (s : Chip) (bad : ZoneBad) (done : s.mode.current ≠ .training ∨ s.lauter.rebuilt = true) :
    s.mapRebuild bad = s := by
  unfold Chip.mapRebuild
  rw [if_pos done.symm]

/-! ### Map residence (R147) -/

theorem Chip.setMapResident_fits (s : Chip) (r v : Nat) (flag : v ≤ 1) (fits : s.tablesFit r = true) :
    s.setMapResident r v = s.commitRwp (objAt Obj.policyMapResident r) 1 v := by
  unfold Chip.setMapResident
  rw [if_neg (by omega), if_neg (by simp [fits])]

/-- The page tables of a region are resident, or are not. -/
def Chip.withResident (s : Chip) (r : Nat) (b : Bool) : Chip := { s with map := { s.map with resident := setBit s.map.resident r b } }

/-- The object's value takes effect outside BURST, where the tables fit if they are to be resident. -/
theorem Chip.mapResidentEffect_acts (s : Chip) (r : Nat) (v : Bool) (calm : s.inBurst = false)
    (object : decide (s.cfgAt Obj.policyMapResident r = 1) = v) (fits : v = true → s.tablesFit r = true) :
    s.mapResidentEffect r = if v = bitOf s.map.resident r then s else s.withResident r v := by
  unfold Chip.mapResidentEffect
  dsimp only
  rw [object]
  by_cases same : v = bitOf s.map.resident r
  · rw [if_pos same, if_pos (.inl same)]
  · rw [if_neg same, if_neg]
    · rfl
    · rintro (no | burst | ⟨one, no⟩)
      · exact same no
      · simp [calm] at burst
      · simp [fits one] at no

/-- A region whose object is 1 and whose tables are resident is map-resident, and no other region's residence changes. -/
theorem Chip.withResident_facts (s : Chip) (r : Nat) (one : s.cfgAt Obj.policyMapResident r = 1) :
    (s.withResident r true).mapResident r = true ∧ ∀ j, j ≠ r → (s.withResident r true).mapResident j = s.mapResident j := by
  refine ⟨?_, fun j other => ?_⟩
  · exact (Bool.and_eq_true _ _).mpr ⟨bitOf_setBit _ _, decide_eq_true one⟩
  · exact congrArg (· && decide (s.cfgAt Obj.policyMapResident j = 1)) (bitOf_setBit_other _ other)

end Sys2Proof.Machine

open Sys2Proof Sys2Proof.Machine

/-- Settles O21. A decay pass and low space name their candidates among the recorded pages; a drain is one write of the zone, with a checkpoint
a second; a rebuild takes what the zone and the journal read; residence follows its object. -/
theorem heatJournalAndMapWork : Obligations.HeatJournalAndMapWork := by
  refine ⟨?decay, ?low, ?freed, ?waits, ?drain, ?checkpoint, ?rebuild, ?idle, ?write, ?one, ?zero, ?not⟩
  case decay =>
    intro s calm works wf room
    obtain ⟨heat, spill, barred, pages, promote, slots, frame⟩ := s.chip.heatDecayPass_facts calm works wf room
    refine ⟨_, Effect.of_eq rfl rfl, heat, spill, barred, fun q => ?_, fun q => ?_, slots, frame⟩
    · simpa only [s.chip.mem_heatPages, Chip.cooled] using pages q
    · simpa only [s.chip.mem_heatPages] using promote q
  case low =>
    intro s k tier low
    refine ⟨_, Effect.of_eq rfl (s.chip.freeSpaceLow_below k (Fin.val_ne_of_ne tier) (decide_eq_true low)), fun q => ?_⟩
    exact (s.chip.byHeat_mem false q _).trans (s.chip.mem_lowPages _ q)
  case freed =>
    intro s w room waits why
    exact Effect.of_eq rfl (s.chip.journalSpaceFreed_goes w room waits why)
  case waits =>
    intro s full still
    obtain ⟨queue, -, frame, -⟩ := s.chip.journalFill_facts
    exact ⟨_, Effect.of_eq rfl (if_neg (Bool.eq_false_iff.mp still)), queue, frame⟩
  case drain =>
    intro s n calm online some'
    obtain ⟨zone, -, queue, -, -, frame⟩ := s.chip.drained_facts n
    generalize run : (if s.chip.zoneOnline.length = 1 then (s.chip.drained n).raise 51 else s.chip.drained n) = t
    have raised : Frame [.fault, .heads, .field] t (s.chip.drained n) := by
      rw [← run]
      exact Frame.ite _ (Chip.raise_eq _ _ _ _ _ _).frame (Frame.refl _ _)
    have lauter := raised.lauter (by decide)
    refine ⟨t, Effect.of_eq rfl ((s.chip.journalDrain_drains n false calm online (.inl some')).trans run), fun k => ?_,
      by rw [lauter]; exact queue, fun one => ?_, (raised.mono (by decide)).trans (frame.mono (by decide))⟩
    · exact (congrArg (fun l : LauterUnit => Tab.get ({} : Zone) l.zones k) lauter).trans (zone k)
    · rw [← run, if_pos one]
      exact Chip.raise_sticky _ _ _ _ _ _
  case checkpoint =>
    intro s n e calm two last
    obtain ⟨-, newest, queue, jseq, online, frame⟩ := s.chip.drained_facts n
    have some' : s.chip.zoneOnline ≠ [] := fun none => by simp [none] at two
    have run := s.chip.journalDrain_drains n true calm some' (.inr rfl)
    rw [if_pos rfl, if_neg (by omega)] at run
    have now := newest some'
    obtain ⟨zone, checkpoint, entries, kept⟩ := (s.chip.drained n).checkpointNow_facts e (by rw [now]; exact last)
    refine ⟨_, Effect.of_eq rfl run, fun k mem => ?_, checkpoint, by rw [entries, queue, jseq], kept.trans (frame.mono (by decide))⟩
    have copy := zone k (by rw [online]; exact mem)
    rw [now] at copy
    exact copy
  case rebuild =>
    intro s bad training fresh none
    obtain ⟨lauter, errors, frame⟩ := s.chip.remapped_facts bad
    have run := s.chip.mapRebuild_whole bad training fresh none
    have raised : Frame [.fault, .heads, .field] (s.chip.mapRebuild bad) (s.chip.remapped bad) := by
      rw [run]
      exact Frame.ite _ (Chip.raise_eq _ _ _ _ _ _).frame (Frame.refl _ _)
    have map : (s.chip.mapRebuild bad).map = (s.chip.remapped bad).map := raised.map (by decide)
    refine ⟨_, Effect.of_eq rfl rfl, (raised.lauter (by decide)).trans lauter, (congrArg MapUnit.recordErrors map).trans errors, fun skips => ?_,
      ?_, congrArg MapUnit.cache map, congrArg MapUnit.badRecs map, congrArg MapUnit.repairing map,
      (raised.mono (by decide)).trans (frame.mono (by decide))⟩
    · rw [run.trans (if_pos skips)]
      exact Chip.raise_sticky _ _ _ _ _ _
    · rw [map]
      rfl
  case idle =>
    intro s bad done
    exact Effect.of_eq rfl (s.chip.mapRebuild_idle bad done)
  case write =>
    intro s src r v acc flag fits ok
    obtain ⟨frame, stored, others, -⟩ := s.chip.committed_facts (objAt Obj.policyMapResident r) 1 v.toNat
    exact ⟨_, dictCmd_effect rfl acc (by decide) (by decide) ((s.chip.setMapResident_fits r v.toNat flag fits).trans
      (s.chip.commitRwp_ok _ 1 v.toNat ok)), stored, others, frame⟩
  case one =>
    intro s r calm one fits
    have run := s.chip.mapResidentEffect_acts r true calm (decide_eq_true one) (fun _ => fits)
    by_cases resident : true = bitOf s.chip.map.resident r
    · rw [if_pos resident] at run
      exact ⟨_, Effect.of_eq rfl run, (Bool.and_eq_true _ _).mpr ⟨resident.symm, decide_eq_true one⟩, fun _ _ => rfl, Frame.refl _ _⟩
    · rw [if_neg resident] at run
      obtain ⟨set, others⟩ := s.chip.withResident_facts r one
      exact ⟨_, Effect.of_eq rfl run, set, others, Frame.set_map (by decide) s.chip _⟩
  case zero =>
    intro s r calm zero resident
    have run := s.chip.mapResidentEffect_acts r false calm (by rw [zero]; rfl) (fun no => absurd no Bool.false_ne_true)
    rw [if_neg (by simp [resident])] at run
    exact Effect.of_eq rfl run
  case not =>
    intro s r zero
    simp [Chip.mapResident, zero]

end

section
/-!
PROOFS. Channels that Lauter brings online, empties and takes offline (R167, R168), and the retirement of a smaller unit (R169).
-/
namespace Sys2Proof.Machine

/-! ### A channel's state (R167) -/

/-- Two devices with the same channel states say the same of every channel. -/
theorem Chip.chanState_of_chan {a b : Chip} (same : a.lauter.chan = b.lauter.chan) (j : Nat) : a.chanState j = b.chanState j :=
  congrArg (Tab.get ChanState.absent · j) same

/-- What keeps the channel states of a device once one channel has a new state: that channel has it, and the others keep theirs. -/
theorem Chip.setChanState_states {t s : Chip} {n : Nat} {x : ChanState} (same : t.lauter.chan = (s.setChanState n x).lauter.chan) :
    t.chanState n = x ∧ ∀ j, j ≠ n → t.chanState j = s.chanState j :=
  ⟨(Chip.chanState_of_chan same n).trans (s.chanState_setChanState n x),
    fun j other => (Chip.chanState_of_chan same j).trans (s.chanState_setChanState_other x other)⟩

theorem Chip.setChanState_lauter (s : Chip) (n : Nat) (x : ChanState) : Frame [.lauter] (s.setChanState n x) s :=
  Frame.set_lauter (by decide) s _

/-- A channel that joins its tier, with its capacity. -/
def Chip.chanJoined (s : Chip) (n : Nat) : Chip :=
  { s.setChanState n .online with lauter := { (s.setChanState n .online).lauter with capPages := Tab.put 0 s.lauter.capPages n (s.chanCap n) } }

theorem Chip.chanOnline_usable (s : Chip) (n : Nat) (offline : s.chanState n = .offline) (single : s.pairSecond n = false)
    (on : s.domain (chanDomain n) = .on) (usable : s.chanUsable n = true) : s.chanOnline n = (0, s.chanJoined n) := by
  unfold Chip.chanOnline
  rw [if_neg (by simp [offline, single, on]), if_neg (by simp [usable])]
  rfl

theorem Chip.chanOnline_unusable (s : Chip) (n : Nat) (offline : s.chanState n = .offline) (single : s.pairSecond n = false)
    (on : s.domain (chanDomain n) = .on) (no : s.chanUsable n = false) : s.chanOnline n = (Abort.resourceOwned, s) := by
  unfold Chip.chanOnline
  rw [if_neg (by simp [offline, single, on]), if_pos (by simp [no])]

theorem Chip.chanCancel_evacuating (s : Chip) (n : Nat) (evacuating : s.chanState n = .evacuating) :
    s.chanCancel n = (0, s.setChanState n .online) := if_neg (not_not_intro evacuating)

/-- A lauter.retire value names a unit of channel `n` (R169). -/
def retiredOn (n v : Nat) : Bool := decide (bitsOf v 0 4 = (if n < 8 then 2 else 3) ∧ bitsOf v 4 4 = n % 8)

/-- A channel that is OFFLINE, with the units retired on it allowed again. -/
def Chip.chanLeft (s : Chip) (n : Nat) : Chip :=
  { s.setChanState n .offline with lauter := { (s.setChanState n .offline).lauter with
    excluded := s.lauter.excluded.filter (fun v => !retiredOn n v) } }

theorem Chip.chanOffline_leaves (s : Chip) (n : Nat) (empty : s.chanState n = .evacuated ∨ s.chanState n = .offline)
    (single : s.pairSecond n = false) : s.chanOffline n = (0, s.chanLeft n) := by
  unfold Chip.chanOffline
  rw [if_neg (by rcases empty with empty | empty <;> simp [empty, single])]
  rfl

/-! ### Evacuation (R158, R168) -/

/-- The slots of the migrations to channel `n` that have not swung. -/
def Chip.slotsTo (s : Chip) (n : Nat) : List Nat :=
  (s.lauter.slots.filter (fun e => decide (e.2.stage ≠ .swung ∧ e.2.dst.st ≠ .hbm ∧ tierChan e.2.dst.st e.2.dst.ch = n))).map (·.1)

/-- The device once a channel is EVACUATING, before the migrations to it are abandoned. -/
def Chip.evacuating (s : Chip) (n : Nat) : Chip := (s.setChanState n .evacuating).watchCapacity s

theorem Chip.evacuating_facts (s : Chip) (n : Nat) : (s.evacuating n).lauter = (s.setChanState n .evacuating).lauter
    ∧ Frame [.lauter, .fault, .heads, .field] (s.evacuating n) s :=
  have watched := (s.setChanState n .evacuating).watchCapacity_frame s
  ⟨watched.lauter (by decide), (watched.mono (by decide)).trans ((s.setChanState_lauter n .evacuating).mono (by decide))⟩

/-- The device once the migrations to an EVACUATING channel are abandoned. -/
def Chip.slotsDropped (s : Chip) (n : Nat) : Chip := (s.slotsTo n).foldl (fun s i => s.abandon i) (s.evacuating n)

theorem Chip.chanEvacuate_online (s : Chip) (n : Nat) (online : s.chanState n = .online) :
    s.chanEvacuate n = (0, if (s.slotsDropped n).evacBlocked n then (s.slotsDropped n).raise 56 else s.slotsDropped n) := by
  have slots : (s.evacuating n).lauter.slots = s.lauter.slots := by
    rw [(s.evacuating_facts n).1]
    rfl
  have dropped : s.slotsDropped n = ((s.evacuating n).lauter.slots.filter (fun e => decide (e.2.stage ≠ .swung ∧ e.2.dst.st ≠ .hbm
      ∧ tierChan e.2.dst.st e.2.dst.ch = n))).foldl (fun s e => s.abandon e.1) (s.evacuating n) := by
    rw [slots]
    exact List.foldl_map
  rw [dropped]
  unfold Chip.chanEvacuate
  rw [if_neg (not_not_intro online)]
  rfl

/-- Evacuation changes the channel's state and frees the slots of migrations to it; source 56 can follow (R158, R168). -/
theorem Chip.chanEvacuate_facts (s : Chip) (n : Nat) (online : s.chanState n = .online) :
    ∃ t, s.chanEvacuate n = (0, t) ∧ t.chanState n = .evacuating ∧ (∀ j, j ≠ n → t.chanState j = s.chanState j)
      ∧ (∀ i, Tab.find t.lauter.slots i = if i ∈ s.slotsTo n then none else Tab.find s.lauter.slots i)
      ∧ Frame [.lauter, .kiln, .map, .fault, .heads, .field] t s := by
  obtain ⟨lauter, frame⟩ := s.evacuating_facts n
  obtain ⟨left, chan, -, slots⟩ := Chip.abandonAll_facts (s.slotsTo n) (s.evacuating n)
  have raised : Frame [.fault, .heads, .field]
      (if (s.slotsDropped n).evacBlocked n then (s.slotsDropped n).raise 56 else s.slotsDropped n) (s.slotsDropped n) :=
    Frame.ite _ (Chip.raise_eq _ _ _ _ _ _).frame (Frame.refl _ _)
  have same := raised.lauter (by decide)
  obtain ⟨state, others⟩ := Chip.setChanState_states ((congrArg LauterUnit.chan same).trans (chan.trans (congrArg LauterUnit.chan lauter)))
  refine ⟨_, s.chanEvacuate_online n online, state, others, fun i => ?_,
    (raised.mono (by decide)).trans ((left.mono (by decide)).trans (frame.mono (by decide)))⟩
  rw [same]
  refine (slots i).trans ?_
  rw [lauter]
  rfl

theorem Chip.evacuationComplete_empties (s : Chip) (n : Nat) (evacuating : s.chanState n = .evacuating)
    (empty : s.pagesOn (if n < 8 then .ddr else .nvm) (n % 8) = []) (reach : 8 ≤ n ∨ s.stopped n = false)
    (still : s.lauter.slots.all (fun e => decide (¬ (e.2.src.st = (if n < 8 then PgState.ddr else .nvm) ∧ e.2.src.ch = n % 8))) = true) :
    s.evacuationComplete n = if 8 ≤ n then (s.setChanState n .evacuated).moveZone (n - 8) else s.setChanState n .evacuated := by
  have none : ¬ s.lauter.slots.any (fun e => decide (e.2.src.st = (if n < 8 then PgState.ddr else .nvm) ∧ e.2.src.ch = n % 8)) = true := by
    intro any
    obtain ⟨e, mem, source⟩ := List.any_eq_true.mp any
    exact of_decide_eq_true (List.all_eq_true.mp still e mem) (of_decide_eq_true source)
  have open' : ¬ ((if n < 8 then PgState.ddr else .nvm) = .ddr ∧ s.stopped n = true) := by
    rcases reach with nvm | serves
    · rw [if_neg (by omega)]
      simp
    · simp [serves]
  unfold Chip.evacuationComplete
  dsimp only
  rw [if_neg]
  rintro (no | no | no | no)
  · exact no evacuating
  · exact no empty
  · exact open' no
  · exact none no

/-- A channel that holds no copy of the map zone moves none (R168). -/
theorem Chip.moveZone_none (s : Chip) (n : Nat) (none : n ∉ s.zoneChans) : s.moveZone n = s := by
  unfold Chip.moveZone
  dsimp only
  rw [if_pos (by simpa using none)]

/-- An emptied channel is EVACUATED; beyond its state, only a map zone that moves changes anything (R168). -/
theorem Chip.evacuated_facts (s : Chip) (n : Nat) :
    let t := if 8 ≤ n then (s.setChanState n .evacuated).moveZone (n - 8) else s.setChanState n .evacuated
    t.chanState n = .evacuated ∧ (∀ j, j ≠ n → t.chanState j = s.chanState j) ∧ t.lauter.slots = s.lauter.slots
      ∧ (n < 8 ∨ n - 8 ∉ s.zoneChans → t = s.setChanState n .evacuated)
      ∧ Frame [.lauter, .kiln, .rwp, .sb, .fault, .heads, .field, .free] t s := by
  have set := (s.setChanState_lauter n .evacuated).mono (m := [.lauter, .kiln, .rwp, .sb, .fault, .heads, .field, .free]) (by decide)
  intro t
  by_cases nvm : 8 ≤ n
  · have moved : t = (s.setChanState n .evacuated).moveZone (n - 8) := if_pos nvm
    obtain ⟨z, lauter⟩ := (s.setChanState n .evacuated).moveZone_lauter (n - 8)
    rw [← moved] at lauter
    obtain ⟨state, others⟩ := Chip.setChanState_states (t := t) (s := s) (n := n) (x := .evacuated) (by rw [lauter])
    exact ⟨state, others, by rw [lauter]; rfl, fun none => moved.trans (Chip.moveZone_none _ _ (none.resolve_left (by omega))),
      moved ▸ (Chip.moveZone_frame _ _).trans set⟩
  · have only : t = s.setChanState n .evacuated := if_neg nvm
    obtain ⟨state, others⟩ := Chip.setChanState_states (t := t) (s := s) (n := n) (x := .evacuated) (by rw [only])
    exact ⟨state, others, by rw [only]; rfl, fun _ => only, only ▸ set⟩

/-! ### Retirement of a smaller unit (R169, R356) -/

/-- The unit `v` starts to retire: it takes no page any more. -/
def Chip.retireStarted (s : Chip) (v : Nat) : Chip :=
  { s with lauter := { s.lauter with
    retireStatus := 1, retireUnit := v, retireTc := s.tb.tc
    excluded := if s.lauter.excluded.contains v then s.lauter.excluded else s.lauter.excluded ++ [v] } }

theorem Chip.retire_starts (s : Chip) (v : Nat) (ok : retireOk v = true) (none : s.lauter.retireStatus = 0 ∨ s.lauter.retireStatus = 2) :
    s.retire v = (0, s.retireStarted v) := by
  unfold Chip.retire
  rw [if_neg (by simp [ok]), if_neg (by omega)]
  rfl

theorem Chip.retire_owned (s : Chip) (v : Nat) (ok : retireOk v = true) (runs : s.lauter.retireStatus = 1 ∨ s.lauter.retireStatus = 3) :
    s.retire v = (Abort.resourceOwned, s) := by
  unfold Chip.retire
  rw [if_neg (by simp [ok]), if_pos runs]

theorem Chip.retireStarted_excluded (s : Chip) (v : Nat) :
    v ∈ (s.retireStarted v).lauter.excluded ∧ ∀ u ∈ s.lauter.excluded, u ∈ (s.retireStarted v).lauter.excluded := by
  have list : (s.retireStarted v).lauter.excluded =
      if s.lauter.excluded.contains v then s.lauter.excluded else s.lauter.excluded ++ [v] := rfl
  rw [list]
  split
  · next known => exact ⟨by simpa using known, fun u mem => mem⟩
  · exact ⟨by simp, fun u mem => List.mem_append_left _ mem⟩

/-- A retirement's status, with the log entry that says it (R356). -/
def Chip.retireLogged (s : Chip) (status kind : Nat) : Chip :=
  Chip.retEntry { s with lauter := { s.lauter with retireStatus := status } } kind (bitsOf s.lauter.retireUnit 0 4)
    (bitsOf s.lauter.retireUnit 4 4) 3 0 s.lauter.retireUnit 0 0xFF 0

/-- The log and the status are all that changes; with room in a log that has lost nothing, the entry stands at the producer's place. -/
theorem Chip.retireLogged_facts (s : Chip) (status kind : Nat) :
    (s.retireLogged status kind).lauter = { s.lauter with retireStatus := status }
    ∧ (s.retRoom = true → s.integ.lostSince = 0 → (s.retireLogged status kind).integ.producer = wrap32 (s.integ.producer + 1)
      ∧ ∃ e, Tab.find (s.retireLogged status kind).integ.ring (s.integ.producer % 4096) = some e ∧ e.kind = kind
        ∧ e.retire = s.lauter.retireUnit)
    ∧ Frame [.lauter, .integ] (s.retireLogged status kind) s := by
  have appended := Chip.retAppend_frame { s with lauter := { s.lauter with retireStatus := status } }
    ⟨0, kind, bitsOf s.lauter.retireUnit 0 4, bitsOf s.lauter.retireUnit 4 4, 3, 0, s.tcRec, s.lauter.retireUnit, 0, 0xFF, 0⟩
  refine ⟨appended.lauter (by decide), fun room none => ?_, (appended.mono (by decide)).trans (Frame.set_lauter (by decide) s _)⟩
  have placed : s.retireLogged status kind = Chip.retPlace { s with lauter := { s.lauter with retireStatus := status } }
      ⟨0, kind, bitsOf s.lauter.retireUnit 0 4, bitsOf s.lauter.retireUnit 4 4, 3, 0, s.tcRec, s.lauter.retireUnit, 0, 0xFF, 0⟩ :=
    Chip.retAppend_room _ _ room none
  rw [placed]
  exact ⟨rfl, _, Tab.find_set_same _ _ _, rfl, rfl⟩

theorem Chip.retireComplete_empty (s : Chip) (runs : s.lauter.retireStatus = 1 ∨ s.lauter.retireStatus = 3)
    (empty : s.map.pages.any (fun e => s.inUnit s.lauter.retireUnit (s.srcRec e.1)) = false) :
    s.retireComplete false = (s.retireLogged 2 10).useSpare s.lauter.retireUnit := by
  unfold Chip.retireComplete
  dsimp only
  rw [if_neg (by omega), if_neg Bool.false_ne_true, if_neg (by simp [empty])]
  rfl

theorem Chip.retireComplete_blocked (s : Chip) (runs : s.lauter.retireStatus = 1)
    (full : s.map.pages.any (fun e => s.inUnit s.lauter.retireUnit (s.srcRec e.1)) = true) :
    s.retireComplete true = s.retireLogged 3 11 := by
  unfold Chip.retireComplete
  dsimp only
  rw [if_neg (by omega), if_pos rfl, if_pos ⟨runs, full⟩]
  rfl

end Sys2Proof.Machine

open Sys2Proof Sys2Proof.Machine

/-- Settles O22. A channel's command is its handler in the state it needs, and beyond the state it changes what the state entails; a
retirement's end is its status and its log entry. -/
theorem channelsChangeStateAndUnitsRetire : Obligations.ChannelsChangeStateAndUnitsRetire := by
  refine ⟨?online, ?unusable, ?evacuate, ?cancel, ?offline, ?evacuated, ?retire, ?owned, ?complete, ?blocked⟩
  case online =>
    intro s src n acc offline single on usable
    obtain ⟨state, others⟩ := Chip.setChanState_states (t := s.chip.chanJoined n) (s := s.chip) (n := n) (x := .online) rfl
    exact ⟨_, dictCmd_effect rfl acc (by decide) (by decide) (s.chip.chanOnline_usable n offline single on usable), state, others,
      Tab.get_put_same 0 _ _ _, (Frame.set_lauter (by decide) _ _).trans (s.chip.setChanState_lauter n .online)⟩
  case unusable =>
    intro s src n acc offline single on no
    have refused := dictCmd_effect (i := .chanOnline src n) rfl acc (by decide) (by decide) (s.chip.chanOnline_unusable n offline single on no)
    rwa [show bytesLE 1 1 = [1] from rfl] at refused
  case evacuate =>
    intro s src n acc online
    obtain ⟨t, does, facts⟩ := s.chip.chanEvacuate_facts n online
    exact ⟨t, dictCmd_effect rfl acc (by decide) (by decide) does, facts⟩
  case cancel =>
    intro s src n acc evacuating
    exact ⟨_, dictCmd_effect rfl acc (by decide) (by decide) (s.chip.chanCancel_evacuating n evacuating),
      s.chip.chanState_setChanState n .online, fun j other => s.chip.chanState_setChanState_other .online other,
      s.chip.setChanState_lauter n .online⟩
  case offline =>
    intro s src n acc empty single
    obtain ⟨state, others⟩ := Chip.setChanState_states (t := s.chip.chanLeft n) (s := s.chip) (n := n) (x := .offline) rfl
    refine ⟨_, dictCmd_effect rfl acc (by decide) (by decide) (s.chip.chanOffline_leaves n empty single), state, others, fun v => ?_,
      (Frame.set_lauter (by decide) _ _).trans (s.chip.setChanState_lauter n .offline)⟩
    refine List.mem_filter.trans (and_congr_right fun _ => ?_)
    simp only [retiredOn, Bool.not_eq_true', decide_eq_false_iff_not]
  case evacuated =>
    intro s n evacuating empty reach still
    exact ⟨_, Effect.of_eq rfl (s.chip.evacuationComplete_empties n evacuating empty reach still), s.chip.evacuated_facts n⟩
  case retire =>
    intro s src v acc ok none
    obtain ⟨excluded, kept⟩ := s.chip.retireStarted_excluded v.toNat
    exact ⟨_, dictCmd_effect rfl acc (by decide) (by decide) (s.chip.retire_starts v.toNat ok none), rfl, rfl, rfl, excluded, kept,
      Frame.set_lauter (by decide) s.chip _⟩
  case owned =>
    intro s src v acc ok runs
    exact dictCmd_effect rfl acc (by decide) (by decide) (s.chip.retire_owned v.toNat ok runs)
  case complete =>
    intro s runs empty
    obtain ⟨lauter, logged, frame⟩ := s.chip.retireLogged_facts 2 10
    obtain ⟨spare, capPages, only⟩ := (s.chip.retireLogged 2 10).useSpare_frame s.chip.lauter.retireUnit
    have integ : ((s.chip.retireLogged 2 10).useSpare s.chip.lauter.retireUnit).integ = (s.chip.retireLogged 2 10).integ :=
      spare .integ (by decide)
    refine ⟨_, Effect.of_eq rfl (s.chip.retireComplete_empty runs empty), by rw [only, lauter], by rw [only, lauter], by rw [only, lauter],
      by rw [integ]; exact logged, (spare.mono (by decide)).trans (frame.mono (by decide))⟩
  case blocked =>
    intro s runs full
    obtain ⟨lauter, logged, frame⟩ := s.chip.retireLogged_facts 3 11
    exact ⟨_, Effect.of_eq rfl (s.chip.retireComplete_blocked runs full), by rw [lauter], by rw [lauter], by rw [lauter], logged,
      frame.mono (by decide)⟩

end

section
/-!
PROOFS. Extents: offers and withdrawals (R171, R172), release asked for and forced (R173, R174), and the storage of a releasing extent freed
block by block (R174).
-/
namespace Sys2Proof.Machine

/-- A dynamic capacity record goes to heads alone (R57). -/
theorem Chip.postDc_frame (s : Chip) (kind : DcKind) (e : Extent) : Frame [.heads] (s.postDc kind e) s := by
  unfold Chip.postDc
  rw [Chip.postEvent_frame]
  exact Frame.set_heads (by decide) s _

/-! ### Offers and withdrawals (R171, R172) -/

/-- A block that stands in an extent lies in the space of `len` bytes from `base`. -/
def Chip.spaceHeld (s : Chip) (base len : Nat) : Bool :=
  s.map.extents.any (fun e => e.blocks.any (fun k => !e.freed.contains (k - e.base / 2097152) && overlaps (2097152 * k) 2097152 base len))

/-- The map with one more extent. -/
def Chip.extentAdded (s : Chip) (e : Extent) : Chip := { s with map := { s.map with extents := s.map.extents ++ [e] } }

/-- An offer of whole blocks inside the region, for a cask that is not FREE and that the region may serve, is made where no extent stands,
and else refused. -/
theorem Chip.extentOffer_inRegion (s : Chip) (region cask group : Nat) {base len : Nat} (some' : len ≠ 0)
    (aligned : base % (s.cfgAt Obj.dcBlockMib region * mib) = 0) (whole : len % (s.cfgAt Obj.dcBlockMib region * mib) = 0)
    (low : s.cfgAt Obj.dcBase region ≤ base) (high : base + len ≤ s.cfgAt Obj.dcBase region + s.cfgAt Obj.dcLength region)
    (used : (s.cask cask).state ≠ .free) (serves : s.caskDomain cask = none ∨ s.sharable region = true) :
    s.extentOffer region cask group base len = if s.spaceHeld base len then (Abort.resourceOwned, s)
      else (0, ((s.extentAdded ⟨base, len, cask, group, region, .offered, []⟩).commitExtent
        ⟨base, len, cask, group, region, .offered, []⟩).postDc .add ⟨base, len, cask, group, region, .offered, []⟩) := by
  unfold Chip.extentOffer
  dsimp only
  rw [if_neg, if_neg used, if_neg]
  · rfl
  · rintro ⟨member, no⟩
    rcases serves with none | shares
    · simp [none] at member
    · simp [shares] at no
  · rintro (zero | unaligned | part | below | above)
    · exact some' zero
    · exact unaligned aligned
    · exact part whole
    · omega
    · omega

/-- An offered extent joins the map, is journalled, and is told to the heads of its group. -/
theorem Chip.offered_facts (s : Chip) (e : Extent) :
    (∃ x, (((s.extentAdded e).commitExtent e).postDc .add e).map = { s.map with extents := s.map.extents ++ [e], badRecs := x })
    ∧ Frame [.map, .lauter, .kiln, .heads] (((s.extentAdded e).commitExtent e).postDc .add e) s := by
  obtain ⟨x, map, frame⟩ := (s.extentAdded e).commitExtent_eq e
  have told := ((s.extentAdded e).commitExtent e).postDc_frame .add e
  exact ⟨⟨x, (told.map (by decide)).trans map⟩,
    (told.mono (by decide)).trans ((frame.mono (by decide)).trans (Frame.set_map (by decide) s _))⟩

theorem Chip.extentWithdraw_named (s : Chip) {region base len : Nat} {e : Extent} (named : s.extentNamed region base len = some e) :
    s.extentWithdraw region base len = if e.st = .offered then (0, s.dropExtent e) else (Abort.resourceOwned, s) := by
  unfold Chip.extentWithdraw
  rw [named]

/-! ### Releases (R173, R174) -/

theorem Chip.extentRequestRelease_accepted (s : Chip) {region base len : Nat} {e : Extent} (named : s.extentNamed region base len = some e)
    (accepted : e.st = .accepted) : s.extentRequestRelease region base len = (0, s.postDc .release e) := by
  unfold Chip.extentRequestRelease
  rw [named]
  exact if_pos accepted

theorem Chip.extentForceRelease_accepted (s : Chip) {region base len : Nat} {e : Extent} (named : s.extentNamed region base len = some e)
    (accepted : e.st = .accepted) :
    s.extentForceRelease region base len = (0, ((s.postDc .forced e).raise 57 0xFF e.base).startRelease e) := by
  unfold Chip.extentForceRelease
  rw [named]
  exact if_pos accepted

theorem Chip.extentForceRelease_none (s : Chip) {region base len : Nat} (none : s.extentNamed region base len = none) :
    s.extentForceRelease region base len = (Abort.outOfRange, s) := by
  unfold Chip.extentForceRelease
  rw [none]

/-- A forced release is told to the heads and raised, and starts at once. -/
theorem Chip.forced_facts (s : Chip) (e : Extent) :
    let t := ((s.postDc .forced e).raise 57 0xFF e.base).startRelease e
    t.map.extents = s.map.extents.map (fun x => if x = e then { e with st := .releasing } else x) ∧ t.sticky 57 = true
      ∧ (∀ k, lineNo e.base ≤ k → k < lineNo e.base + e.len / 64 → Tab.find t.cache.lines k = none)
      ∧ Frame [.map, .lauter, .kiln, .cache, .fault, .heads, .field] t s := by
  have raised : Frame [.fault, .heads, .field] ((s.postDc .forced e).raise 57 0xFF e.base) s :=
    (Chip.raise_eq _ _ _ _ _ _).frame.trans ((s.postDc_frame .forced e).mono (by decide))
  obtain ⟨extents, lines, frame⟩ := ((s.postDc .forced e).raise 57 0xFF e.base).startRelease_facts e
  refine ⟨by rw [extents, raised.map (by decide)], ?_, lines, (frame.mono (by decide)).trans (raised.mono (by decide))⟩
  exact (congrArg (fun f : FaultUnit => bitOf f.sticky 57) (frame .fault (by decide))).trans (Chip.raise_sticky _ 57 _ _ _ _)

/-! ### The storage of a block (R174) -/

/-- Page `p` lies outside block `b`. -/
def outside (b p : Nat) : Bool := !decide (p / 512 = b)

/-- The recorded pages of a block. -/
def Chip.pagesIn (s : Chip) (b : Nat) : List Nat := (s.map.pages.map (·.1)).filter (fun p => !outside b p)

theorem Chip.mem_pagesIn (s : Chip) (b p : Nat) : p ∈ s.pagesIn b ↔ p / 512 = b ∧ (Tab.find s.map.pages p).isSome = true := by
  rw [← Tab.find_isSome]
  simp only [Chip.pagesIn, outside, List.mem_filter, List.mem_map, Bool.not_not, decide_eq_true_eq]
  exact and_comm

/-- The content of a block's pages is gone. -/
def Chip.blockWiped (s : Chip) (b : Nat) : Chip := (s.pagesIn b).foldl (fun s p => s.wipePage p) s

/-- The map and the tier engine know nothing more of a block's pages. -/
def Chip.blockForgotten (s : Chip) (b : Nat) : Chip :=
  let out := outside b
  let s := s.blockWiped b
  { s with
    map := { s.map with
      pages := s.map.pages.filter (fun x => out x.1), tables := Tab.del s.map.tables b, wrote := s.map.wrote.filter (fun x => out x.1)
      discards := s.map.discards.filter (fun x => out x.1), repairing := s.map.repairing.filter out }
    lauter := { s.lauter with
      heat := s.lauter.heat.filter (fun x => out x.1), spill := s.lauter.spill.filter (fun x => out x.1)
      promote := s.lauter.promote.filter out, demote := s.lauter.demote.filter out, low := s.lauter.low.filter out
      barred := s.lauter.barred.filter out
      slots := s.lauter.slots.filter (fun x => out x.2.page) } }

/-- The block's recorded pages read zero and are UNWRITTEN; the other bytes, records and the extents are as before. -/
theorem Chip.blockForgotten_facts (s : Chip) (b : Nat) :
    (∀ x, Tab.get 0 (s.blockForgotten b).mem x
        = if x / 2097152 = b ∧ (Tab.find s.map.pages (x / 4096)).isSome = true then 0 else Tab.get 0 s.mem x)
    ∧ (∀ p, (s.blockForgotten b).page p = if p / 512 = b then {} else s.page p)
    ∧ (s.blockForgotten b).map.extents = s.map.extents
    ∧ Frame [.map, .lauter, .mem, .poison, .macs, .mill, .kiln, .cache] (s.blockForgotten b) s := by
  obtain ⟨mem, -, wiped⟩ := Chip.wipePages_facts (s.pagesIn b) s
  have map : (s.blockWiped b).map = s.map := wiped.map (by decide)
  refine ⟨fun x => (mem x).trans ?_, fun p => ?_, (congrArg MapUnit.extents map :), ?_⟩
  · simp only [s.mem_pagesIn, Nat.div_div_eq_div_mul]
  · refine (Tab.get_filter ({} : PageRec) (s.blockWiped b).map.pages (outside b) p).trans ?_
    rw [map]
    by_cases mine : p / 512 = b <;> simp [outside, mine, Chip.page]
  · refine Frame.trans (b := s.blockWiped b) ?_ (wiped.mono (by decide))
    exact (Frame.set_lauter (by decide) { s.blockWiped b with map := (s.blockForgotten b).map } _).trans (Frame.set_map (by decide) _ _)

/-- An extent that has lost block `b` as well. -/
def Extent.without (e : Extent) (b : Nat) : Extent := { e with freed := e.freed ++ [b - e.base / 2097152] }

/-- The extent goes on without the block. -/
def Chip.blockFreed (s : Chip) (b : Nat) (e : Extent) : Chip := (s.blockForgotten b).setExtent e (e.without b)

/-- The map without extent `e`. -/
def Chip.extentGone (s : Chip) (e : Extent) : Chip :=
  { s with map := { s.map with extents := s.map.extents.filter (fun k => decide (k ≠ e)) } }

/-- A block of a releasing extent that nothing waits for is freed outside BURST; with its last block the extent is gone. -/
theorem Chip.blockStorageFree_frees (s : Chip) {b : Nat} {e : Extent} (found : s.extentOf (2097152 * b) = some e)
    (releasing : e.st = .releasing) (calm : s.inBurst = false) (unwaited : s.waits.all (fun w => decide (blockNo w.acc.dla ≠ b)) = true)
    (still : s.mill.expanding.all (fun x => decide (x.1 / 512 ≠ b)) = true) :
    s.blockStorageFree b = if e.freed.length + 1 = e.len / 2097152
      then (((s.blockFreed b e).extentGone (e.without b)).commitDir b).keyEmpty e.cask else (s.blockFreed b e).commitDir b := by
  have waits : ¬ s.waits.any (fun w => decide (blockNo w.acc.dla = b)) = true := by simpa using unwaited
  have expands : ¬ s.mill.expanding.any (fun x => decide (x.1 / 512 = b)) = true := by simpa using still
  have count : e.freed.length + 1 = (e.without b).freed.length := by simp [Extent.without]
  rw [count]
  unfold Chip.blockStorageFree
  simp only [found]
  rw [if_neg]
  · rfl
  · rintro (no | burst | no | no)
    · exact no releasing
    · simp [calm] at burst
    · exact waits no
    · exact expands no

/-- To replace an element and then drop its replacement is to drop both. -/
theorem filter_replaced (l : List Extent) (e x : Extent) :
    (l.map (fun y => if y = e then x else y)).filter (fun k => decide (k ≠ x)) = l.filter (fun y => decide (y ≠ e ∧ y ≠ x)) := by
  induction l with
  | nil => rfl
  | cons y r ih =>
    by_cases same : y = e
    · simpa [same] using ih
    · by_cases new : y = x
      · simpa [same, new] using ih
      · simpa [same, new] using ih

/-- What follows on a forgotten block, and leaves all of the map but its extents and what is known of damaged copies, leaves its memory and
its records. -/
theorem Chip.blockForgotten_then {t s : Chip} {b : Nat} {l : List Extent} (frame : Frame [.lauter, .kiln, .map, .casks] t (s.blockForgotten b))
    (map : ∃ y, t.map = { (s.blockForgotten b).map with extents := l, badRecs := y }) :
    (∀ x, Tab.get 0 t.mem x = if x / 2097152 = b ∧ (Tab.find s.map.pages (x / 4096)).isSome = true then 0 else Tab.get 0 s.mem x)
    ∧ (∀ p, t.page p = if p / 512 = b then {} else s.page p) ∧ t.map.extents = l
    ∧ Frame [.map, .lauter, .mem, .poison, .macs, .mill, .kiln, .cache, .casks] t s := by
  obtain ⟨mem, pages, -, forgotten⟩ := s.blockForgotten_facts b
  obtain ⟨y, map⟩ := map
  refine ⟨fun x => ?_, fun p => ?_, by rw [map], (frame.mono (by decide)).trans (forgotten.mono (by decide))⟩
  · rw [show t.mem = (s.blockForgotten b).mem from frame .mem (by decide)]
    exact mem x
  · refine Eq.trans ?_ (pages p)
    unfold Chip.page
    rw [map]

/-- With blocks left, the extent stays in its place without the one freed. -/
theorem Chip.blockFreed_facts (s : Chip) (b : Nat) (e : Extent) :
    Frame [.lauter, .kiln, .map, .casks] ((s.blockFreed b e).commitDir b) (s.blockForgotten b)
    ∧ ∃ y, ((s.blockFreed b e).commitDir b).map = { (s.blockForgotten b).map with
        extents := s.map.extents.map (fun x => if x = e then e.without b else x), badRecs := y } := by
  obtain ⟨y, map, frame⟩ := (s.blockFreed b e).commitDir_eq b
  refine ⟨(frame.mono (by decide)).trans (Frame.set_map (by decide) _ _), y, map.trans ?_⟩
  rw [← (s.blockForgotten_facts b).2.2.1]
  rfl

/-- With the last block the extent is gone, and the keys of its cask may become EMPTY (R84, R221). -/
theorem Chip.lastBlockFreed_facts (s : Chip) (b : Nat) (e : Extent) :
    let t := (((s.blockFreed b e).extentGone (e.without b)).commitDir b).keyEmpty e.cask
    Frame [.lauter, .kiln, .map, .casks] t (s.blockForgotten b)
      ∧ ∃ y, t.map = { (s.blockForgotten b).map with
          extents := s.map.extents.filter (fun x => decide (x ≠ e ∧ x ≠ e.without b)), badRecs := y } := by
  obtain ⟨y, map, frame⟩ := ((s.blockFreed b e).extentGone (e.without b)).commitDir_eq b
  have keys := (((s.blockFreed b e).extentGone (e.without b)).commitDir b).keyEmpty_frame e.cask
  refine ⟨(keys.mono (by decide)).trans ((frame.mono (by decide)).trans
    ((Frame.set_map (by decide) (s.blockFreed b e) _).trans (Frame.set_map (by decide) _ _))), y, ?_⟩
  rw [keys.map (by decide), map, ← filter_replaced, ← (s.blockForgotten_facts b).2.2.1]
  rfl

end Sys2Proof.Machine

open Sys2Proof Sys2Proof.Machine

/-- Settles O23. Each command is its handler on the extent that it names; what a block's freeing does to memory and the records does not
depend on whether the extent goes with it. -/
theorem extentsAreOfferedReleasedAndFreed : Obligations.ExtentsAreOfferedReleasedAndFreed := by
  refine ⟨?offer, ?held, ?withdraw, ?accepted, ?request, ?force, ?unnamed, ?block, ?last⟩
  case offer =>
    intro s src region cask group ext acc some' aligned whole low high used serves free
    have does := s.chip.extentOffer_inRegion region cask group some' aligned whole low high used serves
    exact ⟨_, dictCmd_effect rfl acc (by decide) (by decide) (does.trans (if_neg (Bool.eq_false_iff.mp free))), s.chip.offered_facts _⟩
  case held =>
    intro s src region cask group ext acc some' aligned whole low high used serves held
    have does := s.chip.extentOffer_inRegion region cask group some' aligned whole low high used serves
    exact dictCmd_effect rfl acc (by decide) (by decide) (does.trans (if_pos held))
  case withdraw =>
    intro s src region ext e acc named offered
    exact ⟨_, dictCmd_effect rfl acc (by decide) (by decide) ((s.chip.extentWithdraw_named named).trans (if_pos offered)),
      s.chip.dropExtent_facts e⟩
  case accepted =>
    intro s src region ext e acc named accepted
    exact dictCmd_effect rfl acc (by decide) (by decide) ((s.chip.extentWithdraw_named named).trans (if_neg accepted))
  case request =>
    intro s src region ext e acc named accepted
    have told := s.chip.postDc_frame .release e
    exact ⟨_, dictCmd_effect rfl acc (by decide) (by decide) (s.chip.extentRequestRelease_accepted named accepted),
      told.map (by decide), told⟩
  case force =>
    intro s src region ext e acc named accepted
    exact ⟨_, dictCmd_effect rfl acc (by decide) (by decide) (s.chip.extentForceRelease_accepted named accepted), s.chip.forced_facts e⟩
  case unnamed =>
    intro s src region ext acc none
    exact dictCmd_effect rfl acc (by decide) (by decide) (s.chip.extentForceRelease_none none)
  case block =>
    intro s blk e found releasing calm unwaited still more
    have does := s.chip.blockStorageFree_frees found releasing calm unwaited still
    obtain ⟨frame, map⟩ := s.chip.blockFreed_facts blk.toNat e
    exact ⟨_, Effect.of_eq rfl (does.trans (if_neg more)), Chip.blockForgotten_then frame map⟩
  case last =>
    intro s blk e found releasing calm unwaited still all
    have does := s.chip.blockStorageFree_frees found releasing calm unwaited still
    obtain ⟨frame, map⟩ := s.chip.lastBlockFreed_facts blk.toNat e
    exact ⟨_, Effect.of_eq rfl (does.trans (if_pos all)), Chip.blockForgotten_then frame map⟩

end

section
/-!
PROOFS. The waits for space and for the map mirror that end (R199, R262), and the expansion of a grist page that is written (R193).
-/
namespace Sys2Proof.Machine

/-! ### Waits that end (R199, R262) -/

/-- The device with nothing waiting. -/
def Chip.unwaited (s : Chip) : Chip := { s with waits := [] }

theorem Chip.unwaited_frame (s : Chip) : Frame [.waits] s.unwaited s := Frame.set_waits (by decide) s _

/-- The access that waits alone, for space or the mirror on page `p`, goes on, and keeps the TC of its acceptance (R29). -/
theorem Chip.rerun_onPage (s : Chip) {why : WaitWhy} {p : Nat} {w : Wait} (one : s.waits = [w]) (on : w.onPage why p = true)
    (turn : why ≠ .order) :
    s.rerun (fun w => w.onPage why p) = (s.unwaited.below w.acc { w.obs with keyBad := false } false).keepTc 0 w.tc := by
  have goes : s.waits.filter (fun w => w.onPage why p) = [w] := by simp [one, on]
  have rest : s.waits.filter (fun w => !w.onPage why p) = [] := by simp [one, on]
  have reason : w.why = why := (of_decide_eq_true on).1
  have run := s.rerun_one _ w goes (reason ▸ turn)
  rw [rest] at run
  exact run

/-- A page that waited too long is POISONED, and the access that waited for it goes on. -/
theorem Chip.expirePage_alone (s : Chip) {why : WaitWhy} {p : Nat} {w : Wait} (one : s.waits = [w]) (on : w.onPage why p = true)
    (turn : why ≠ .order) :
    s.expirePage why p = ((s.poisonPage p).unwaited.below w.acc { w.obs with keyBad := false } false).keepTc 0 w.tc :=
  (s.poisonPage p).rerun_onPage (((s.commitPage_frame p _) .waits (by decide)).trans one) on turn

/-- What the device is when that access goes on: one page POISONED, and nothing waiting (R85). -/
theorem Chip.poisonPage_unwaited (s : Chip) (p : Nat) :
    let x := (s.poisonPage p).unwaited
    (x.page p).st = .poisoned ∧ x.waits = [] ∧ (∀ q, q ≠ p → x.page q = s.page q) ∧ Frame [.waits, .lauter, .kiln, .map] x s := by
  have quiet := (s.poisonPage p).unwaited_frame
  refine ⟨?_, rfl, fun q other => ?_, (quiet.mono (by decide)).trans ((s.commitPage_frame p _).mono (by decide))⟩
  · rw [quiet.page (by decide)]
    exact congrArg _ (s.commitPage_page p _)
  · exact (quiet.page (by decide) q).trans (s.commitPage_other p _ other)

/-- A wait on a page is one that its expiry looks for. -/
theorem Wait.any_onPage {ws : List Wait} {why : WaitWhy} {p : Nat} {w : Wait} (one : ws = [w]) (on : w.onPage why p = true) :
    ws.any (fun w => w.onPage why p) = true := by
  simp [one, on]

/-! ### Lines cleaned (R243) -/

/-- The lines whose writeback started the expansion are cleaned: no page's record changes, and no byte of memory. -/
theorem Chip.cleanLines_facts (lines : List Nat) : ∀ s : Chip, KeysHold s →
    let t := lines.foldl (fun s ln => s.cleanLine ln) s
    Frame tierParts t s ∧ ∀ q, t.page q = s.page q := by
  induction lines with
  | nil => exact fun s _ => ⟨Frame.refl _ _, fun _ => rfl⟩
  | cons ln lines ih =>
    intro s keys
    have frame := s.cleanLine_frame ln keys
    obtain ⟨rest, pages⟩ := ih (s.cleanLine ln) (frame.keys keys)
    refine ⟨rest.trans frame, fun q => (pages q).trans ?_⟩
    unfold Chip.page
    rw [s.cleanLine_map ln keys]

/-! ### Expansion (R193) -/

theorem Chip.chooseChan_frame (s : Chip) (l : List Nat) : Frame [.free] (s.chooseChan l).2 s := by
  unfold Chip.chooseChan
  split
  · exact Frame.refl _ _
  · exact Frame.refl _ _
  · exact Frame.set_free (by decide) s _

/-- The plain place on DDR5 that an expansion takes for page `p`, on a channel that placement may choose. -/
def Chip.expandPlace (s : Chip) (p : Nat) : PageRec × Chip :=
  let (c, t) := s.chooseChan (s.expandChans p)
  t.placeAt p .ddr (t.poolChan (c.getD 0) (s.expandChans p)) (false, 63) (s.page p)

/-- That place is plain and on DDR5, keeps the heat, and leaves every page's record. -/
theorem Chip.expandPlace_facts (s : Chip) (p : Nat) :
    let x := s.expandPlace p
    x.1.st = .ddr ∧ x.1.grist = false ∧ x.1.sectors = 63 ∧ x.1.heat = (s.page p).heat
      ∧ Frame [.map, .fault, .heads, .field, .free] x.2 s ∧ ∀ q, x.2.page q = s.page q := by
  have chosen := s.chooseChan_frame (s.expandChans p)
  unfold Chip.expandPlace
  generalize s.chooseChan (s.expandChans p) = x at chosen
  obtain ⟨c, t⟩ := x
  obtain ⟨tier, plain, -, frame, pages⟩ :=
    t.placeAt_facts p .ddr (t.poolChan (c.getD 0) (s.expandChans p)) (false, 63) (s.page p) (.inr rfl)
  obtain ⟨-, grist, sectors⟩ := plain rfl
  exact ⟨tier, grist, sectors, t.placeAt_heat _ _ _ _ _, frame.trans (chosen.mono (by decide)),
    fun q => (pages q).trans (chosen.page (by decide) q)⟩

/-- A page rests plain under the record `r`: its grist is gone, the lines `bad` are poisoned, and its MACs are Husk's own (R210). -/
def Chip.storedPlain (s : Chip) (p bad : Nat) (r : PageRec) : Chip :=
  (((s.commitPage p r).setGrist p []).poisonLines p bad).freshMacs p

theorem Chip.storedPlain_facts (s : Chip) (p bad : Nat) (r : PageRec) :
    let t := s.storedPlain p bad r
    t.page p = r ∧ (∀ q, q ≠ p → t.page q = s.page q)
      ∧ (∀ k, k < 64 → bitOf bad k = true → t.poisoned (64 * (64 * p + k)) = true)
      ∧ t.mill = { s.mill with pages := Tab.put [] s.mill.pages p [] }
      ∧ Frame [.lauter, .kiln, .map, .mill, .poison, .integ, .macs] t s := by
  have committed := s.commitPage_frame p r
  have plain : Frame [.mill] ((s.commitPage p r).setGrist p []) (s.commitPage p r) := Frame.set_mill (by decide) _ _
  have marked := ((s.commitPage p r).setGrist p []).poisonLines_frame p bad
  have fresh := (((s.commitPage p r).setGrist p []).poisonLines p bad).freshMacs_frame p
  have pages : ∀ q, (s.storedPlain p bad r).page q = (s.commitPage p r).page q := fun q =>
    (fresh.page (by decide) q).trans ((marked.page (by decide) q).trans (plain.page (by decide) q))
  refine ⟨(pages p).trans (s.commitPage_page p r), fun q other => (pages q).trans (s.commitPage_other p r other), fun k low set => ?_, ?_,
    (fresh.mono (by decide)).trans ((marked.mono (by decide)).trans ((plain.mono (by decide)).trans (committed.mono (by decide))))⟩
  · rw [Chip.storedPlain, fresh.poisoned (by decide)]
    exact Chip.poisonLines_marks _ p bad k low set
  · exact (fresh .mill (by decide)).trans (marked .mill (by decide))

/-- The expansion of page `p` is over, and counted. -/
def Chip.expansionOver (s : Chip) (p : Nat) : Chip :=
  { s with mill := { s.mill with
      expanding := Tab.del s.mill.expanding p, expandTc := Tab.del s.mill.expandTc p, expansions := s.mill.expansions + 1 } }

theorem Chip.expansionOver_frame (s : Chip) (p : Nat) : Frame [.mill] (s.expansionOver p) s := Frame.set_mill (by decide) s _

/-- The record that an expansion gives its page. -/
def Chip.expandedRec (s : Chip) (p : Nat) : PageRec := { (s.expandPlace p).1 with gen := ((s.page p).gen + 1) % 16 }

/-- An expansion that takes effect places the page, stores it plain, ends, and cleans the lines that started it. -/
theorem Chip.expandNow_steps (s : Chip) (p bad : Nat) (lines : List Nat) :
    s.expandNow p bad lines = lines.foldl (fun s ln => s.cleanLine ln)
      (((s.expandPlace p).2.storedPlain p bad (s.expandedRec p)).expansionOver p) := rfl

/-- The parts that an expansion that takes effect may change. -/
abbrev expansionParts : List Part :=
  [.map, .mill, .lauter, .kiln, .poison, .macs, .integ, .cache, .dram, .fault, .heads, .field, .free]

/-- What it leaves: the page's record and the others, its poisoned lines, and Mill's account of it. -/
theorem Chip.expandNow_facts (s : Chip) (p bad : Nat) (lines : List Nat) (keys : KeysHold s) :
    let t := s.expandNow p bad lines
    t.page p = s.expandedRec p ∧ (∀ q, q ≠ p → t.page q = s.page q)
      ∧ (∀ k, k < 64 → bitOf bad k = true → t.poisoned (64 * (64 * p + k)) = true)
      ∧ Tab.find t.mill.expanding p = none ∧ t.mill.expansions = s.mill.expansions + 1 ∧ Frame expansionParts t s := by
  obtain ⟨-, -, -, -, placed, same⟩ := s.expandPlace_facts p
  obtain ⟨page, others, marks, mill, stored⟩ := (s.expandPlace p).2.storedPlain_facts p bad (s.expandedRec p)
  have ended := ((s.expandPlace p).2.storedPlain p bad (s.expandedRec p)).expansionOver_frame p
  have whole : Frame expansionParts (((s.expandPlace p).2.storedPlain p bad (s.expandedRec p)).expansionOver p) s :=
    (ended.mono (by decide)).trans ((stored.mono (by decide)).trans (placed.mono (by decide)))
  obtain ⟨cleaned, pages⟩ := Chip.cleanLines_facts lines _ (whole.keys keys)
  have engine : (s.expandNow p bad lines).mill = _ := cleaned .mill (by decide)
  refine ⟨?_, fun q other => ?_, fun k low set => ?_, ?_, ?_, (cleaned.mono (by decide)).trans whole⟩
  · exact (pages p).trans ((ended.page (by decide) p).trans page)
  · exact (pages q).trans ((ended.page (by decide) q).trans ((others q other).trans (same q)))
  · exact (cleaned.poisoned (by decide) _).trans ((ended.poisoned (by decide) _).trans (marks k low set))
  · rw [engine]
    exact Tab.find_del_same _ p
  · rw [engine, Chip.expansionOver, mill, placed .mill (by decide)]

/-- An expansion that has its room, its channel and its record takes effect once its lines are read, where its channel still serves. -/
theorem Chip.expansionComplete_expands (s : Chip) (p : Nat) (obs : List (Fin 64 × Obs)) (lines : List Nat) (v u : Chip) (bad : Nat)
    (expanding : Tab.find s.mill.expanding p = some lines)
    (serves : (s.page p).st ≠ .ddr ∨ s.ddrBlocked (s.page p).ch = false)
    (room : s.tierRoom .ddr true = true) (chans : s.expandChans p ≠ []) (journal : s.journalRoom 1 = true)
    (own : s.useOwn p = (true, v)) (reads : v.readLines p (2 ^ 64 - 1) true obs 3 = (bad, u))
    (still : (s.page p).st ≠ .ddr ∨ u.ddrBlocked (s.page p).ch = false) :
    s.expansionComplete p obs = (u.expandNow p bad lines).watchCapacity s := by
  have opens : ∀ {b : Bool}, (s.page p).st ≠ .ddr ∨ b = false → ¬ ((s.page p).st = .ddr ∧ b = true) := by
    rintro b off ⟨ddr, blocked⟩
    exact off.elim (fun other => other ddr) (fun runs => absurd blocked (by simp [runs]))
  unfold Chip.expansionComplete
  rw [expanding]
  dsimp only
  rw [if_neg (by simp [opens serves, room, chans, journal]), own]
  dsimp only
  rw [if_pos rfl, reads]
  dsimp only
  rw [if_neg (by simp [opens still])]

end Sys2Proof.Machine

open Sys2Proof Sys2Proof.Machine

/-- Settles O25. A wait that ends runs its one access again, after its page is poisoned where it waited too long; an expansion places the
page, stores it plain and cleans the lines that started it. -/
theorem waitsForSpaceEndAndPagesExpand : Obligations.WaitsForSpaceEndAndPagesExpand := by
  refine ⟨?space, ?spaceExpiry, ?mirrorExpiry, ?expansion⟩
  case space =>
    intro s p w one on
    exact Effect.of_eq rfl (s.chip.rerun_onPage one on (by decide))
  case spaceExpiry =>
    intro s p w one on
    obtain ⟨page, quiet, others, frame⟩ := Chip.poisonPage_unwaited
      { s.chip with mill := { s.chip.mill with spacePoisoned := s.chip.mill.spacePoisoned + 1 } } p.toNat
    refine ⟨_, Effect.of_eq rfl ((if_pos (Wait.any_onPage one on)).trans (Chip.expirePage_alone _ one on (by decide))), page, ?_, quiet,
      others, (frame.mono (by decide)).trans (Frame.set_mill (by decide) s.chip _)⟩
    exact congrArg (·.spacePoisoned) (frame .mill (by decide))
  case mirrorExpiry =>
    intro s p w one on
    exact ⟨_, Effect.of_eq rfl ((if_pos (Wait.any_onPage one on)).trans (s.chip.expirePage_alone one on (by decide))),
      s.chip.poisonPage_unwaited p.toNat⟩
  case expansion =>
    intro s p obs lines expanding serves room chans journal clean still keys
    obtain ⟨x, own⟩ := s.chip.useOwn_clean p.toNat clean
    generalize ({ s.chip with map := { s.chip.map with cache := x } } : Chip) = v at own
    rw [own] at still keys ⊢
    dsimp only at still keys ⊢
    rcases reads : v.readLines p.toNat (2 ^ 64 - 1) true obs 3 with ⟨bad, u⟩
    rw [reads] at still keys
    obtain ⟨tier, grist, sectors, heat, -, -⟩ := u.expandPlace_facts p.toNat
    obtain ⟨page, others, marks, ended, count, frame⟩ := u.expandNow_facts p.toNat bad lines keys
    have watched := (u.expandNow p.toNat bad lines).watchCapacity_frame s.chip
    have pages := watched.page (by decide)
    have mill : ((u.expandNow p.toNat bad lines).watchCapacity s.chip).mill = _ := watched .mill (by decide)
    refine ⟨_, Effect.of_eq rfl (s.chip.expansionComplete_expands p.toNat obs lines v u bad expanding serves room chans journal own reads still),
      ?_, ?_, ?_, ?_, ?_, fun q other => (pages q).trans (others q other),
      fun k low set => (watched.poisoned (by decide) _).trans (marks k low set), ?_, ?_, (watched.mono (by decide)).trans frame⟩
    · rw [pages, page]; exact tier
    · rw [pages, page]; exact grist
    · rw [pages, page]; exact sectors
    · rw [pages, page]; exact heat
    · rw [pages, page]; rfl
    · rw [mill]; exact ended
    · rw [mill]; exact count

end

section
/-!
PROOFS. The test access port (R226, R584), and that every command completes: an answer is the command's effect on the device, with or without
the rails in its hand, or a change of the port; BYPASS of a vendor code before closure alone has none.
-/
namespace Sys2Proof.Machine

/-! ### The port (R584) -/

/-- Once the rails are up, a TAP command changes the port. -/
theorem State.tapDo_up (s : State) (f : Tap → Tap) (up : s.chip.mode.railsUp = true) : s.tapDo f = { s with tap := f s.tap } := if_pos up

/-- Before chip power-on it changes nothing. -/
theorem State.tapDo_down (s : State) (f : Tap → Tap) (down : s.chip.mode.railsUp = false) : s.tapDo f = s := by
  rw [State.tapDo, down, if_neg Bool.false_ne_true]

/-- A TAP command leaves the queue alone. -/
@[simp] theorem State.tapDo_pending (s : State) (f : Tap → Tap) : (s.tapDo f).pending = s.pending := by
  unfold State.tapDo
  split <;> rfl

/-- A command that acts on the port answers with it changed, once the rails are up. -/
theorem exec_tap {i : Instr} {s : State} (f : Tap → Tap) (run : exec i s = .next (s.tapDo f)) (up : s.chip.mode.railsUp = true) :
    exec i s = .next { s with tap := f s.tap } := by
  rw [run, s.tapDo_up f up]

/-- It answers the state as it was, before that. -/
theorem exec_tap_down {i : Instr} {s : State} {f : Tap → Tap} (run : exec i s = .next (s.tapDo f)) (down : s.chip.mode.railsUp = false) :
    exec i s = .next s := by
  rw [run, s.tapDo_down f down]

/-! ### BYPASS (R226, R584) -/

/-- What BYPASS does to the port: a vendor code acts as BYPASS itself, and another one as the instruction it names. -/
def Tap.bypassCode (code : BitVec 8) (t : Tap) : Tap := if privateCode code then t.bypass else t.runCode code

theorem Tap.bypassCode_vendor {code : BitVec 8} (t : Tap) (vendor : privateCode code = true) : t.bypassCode code = t.bypass := if_pos vendor

/-- Code 0xFF is the BYPASS of IEEE 1149.1. -/
theorem Tap.bypassCode_ff (t : Tap) : t.bypassCode 0xFF = t.bypass := rfl

/-- A vendor code stops before closure, where the rails are up. -/
theorem exec_bypass_refused {code : BitVec 8} {s : State} (vendor : privateCode code = true) (isOpen : s.chip.husk.debugClosed = false)
    (up : s.chip.mode.railsUp = true) : exec (.bypass code) s = .refused .privateTapInstruction :=
  if_pos (by rw [vendor, isOpen, up]; rfl)

/-- Any other BYPASS acts on the port. -/
theorem exec_bypass {code : BitVec 8} {s : State}
    (allowed : privateCode code = false ∨ s.chip.husk.debugClosed = true ∨ s.chip.mode.railsUp = false) :
    exec (.bypass code) s = .next (s.tapDo (Tap.bypassCode code)) := by
  refine if_neg ?_
  rcases allowed with known | closed | down
  · simp [known]
  · simp [closed]
  · simp [down]

/-! ### Every command's answer -/

/-- A command answers with its effect on the device settled, with that and the port as the rails leave it, or with the port changed; BYPASS is
asked not to stop. The commands of the port and of the rails are named, and every other one is its effect. -/
theorem exec_answers (i : Instr) (s : State)
    (allowed : ∀ code : BitVec 8, i = .bypass code → privateCode code = false ∨ s.chip.husk.debugClosed = true ∨ s.chip.mode.railsUp = false) :
    (∃ c, Effect i s c) ∨ (∃ c, exec i s = .next (s.doneRails c)) ∨ ∃ f, exec i s = .next (s.tapDo f) := by
  cases i
  case tapReset | extest | idcode | sample | preload | clamp | highz => exact .inr (.inr ⟨_, rfl⟩)
  case bypass code => exact .inr (.inr ⟨_, exec_bypass (allowed code rfl)⟩)
  case sentryPowerOnReset | sentryPowerLoss | railLoss | chipPowerOn => exact .inr (.inl ⟨_, rfl⟩)
  all_goals exact .inl ⟨_, rfl⟩

end Sys2Proof.Machine

open Sys2Proof Sys2Proof.Machine

/-- Settles O47: each instruction is its change of the port, which chip power-on lets through. -/
theorem tapInstructionsSelectTheirRegister : Obligations.TapInstructionsSelectTheirRegister := by
  unfold Obligations.TapInstructionsSelectTheirRegister
  refine ⟨fun _ => exec_tap Tap.resetTap rfl, fun _ => exec_tap Tap.idcode rfl, fun _ => exec_tap Tap.extest rfl,
    fun _ => exec_tap Tap.clamp rfl, fun _ pins => exec_tap (·.sample pins) rfl, fun _ cells => exec_tap (·.preload cells) rfl,
    fun _ => exec_tap Tap.highz rfl, ?bypass, ?closed, ?isOpen, ?down⟩
  case bypass =>
    intro s up
    rw [exec_tap _ (exec_bypass (.inl (by decide))) up, Tap.bypassCode_ff]
    rfl
  case closed =>
    intro s code up vendor closed
    rw [exec_tap _ (exec_bypass (.inr (.inl closed))) up, s.tap.bypassCode_vendor vendor]
    rfl
  case isOpen => exact fun s code up vendor isOpen => exec_bypass_refused vendor isOpen up
  case down =>
    exact fun s down => ⟨exec_tap_down rfl down, exec_tap_down rfl down, exec_tap_down rfl down, exec_tap_down rfl down,
      exec_tap_down rfl down⟩

/-- Settles O60: none of the three forms of an answer touches the queue. -/
theorem everyCommandCompletes : Obligations.EveryCommandCompletes := by
  unfold Obligations.EveryCommandCompletes
  refine ⟨fun i s allowed => ?completes, fun code s => exec_bypass_refused⟩
  case completes =>
    rcases exec_answers i s allowed with ⟨c, effect⟩ | ⟨c, rails⟩ | ⟨f, port⟩
    · exact ⟨s.done c, effect, rfl⟩
    · exact ⟨s.doneRails c, rails, rfl⟩
    · exact ⟨s.tapDo f, port, s.tapDo_pending f⟩

end

section
/-!
PROOFS. Keys (R215 to R231): blobs that load or are refused, ZEROISE and ZEROISE_ALL with their cut points, the end of an erase walk,
KEY_REBUILD, the owner root and closure, and the two key slots of a link.
-/
namespace Sys2Proof.Machine

/-! ### Blobs (R218, R219, R221, R231) -/

theorem Frame.cask {l : List Part} {a b : Chip} (h : Frame l a b) (n : Part.casks ∉ l) (j : Nat) : a.cask j = b.cask j := by
  have same : a.casks = b.casks := h .casks n
  unfold Chip.cask
  rw [same]

/-- A source raised as Husk takes a value: Husk has it, the source's bit is set, and the collector's parts may differ. -/
theorem Chip.raise_with_husk (s : Chip) (x : HuskUnit) (n : Nat) :
    (Chip.raise { s with husk := x } n).husk = x ∧ (Chip.raise { s with husk := x } n).sticky n = true
    ∧ Frame [.husk, .fault, .heads, .field] (Chip.raise { s with husk := x } n) s := by
  have raised := (Chip.raise_eq { s with husk := x } n 0xFF 0 .none [0, 1, 2, 3]).frame
  exact ⟨raised .husk (by decide), Chip.raise_sticky _ _ _ _ _ _, (raised.mono (by decide)).trans (Frame.set_husk (by decide) s x)⟩

/-- What a refused blob leaves: key-unwrap, one more failure, and source 82 (R218). -/
theorem Chip.refuseBlob_facts (s : Chip) : s.refuseBlob.1 = Abort.keyUnwrap
    ∧ s.refuseBlob.2.husk.unwrapFailures = s.husk.unwrapFailures + 1 ∧ s.refuseBlob.2.sticky 82 = true
    ∧ Frame [.husk, .fault, .heads, .field] s.refuseBlob.2 s := by
  obtain ⟨husk, facts⟩ := s.raise_with_husk { s.husk with unwrapFailures := s.husk.unwrapFailures + 1 } 82
  exact ⟨rfl, congrArg HuskUnit.unwrapFailures husk, facts⟩

/-- A write of a blob that passes the checks loads what the blob unwraps to, or is refused. -/
theorem blobLoad_effect {i : Instr} {s : State} {src : Src} {idx sub : Nat} {blob : BitVec 1472} {f : Chip → Nat × Chip} {opened : Option Nat}
    {good : Nat → Chip} {P : Nat → Chip → Prop} (run : Effect i s (s.chip.dictCmd src idx sub 184 blob.toNat f))
    (acc : Accepts s.chip src idx sub 184) (opens : ∀ w, opened = some w → f s.chip = (0, good w))
    (refused : opened = none → f s.chip = s.chip.refuseBlob) (facts : ∀ w, P w (good w)) :
    ∃ (code : Nat) (t : Chip), Effect i s (t.answerWrite src idx sub (bytesLE 184 blob.toNat) code)
      ∧ (∀ w, opened = some w → code = 0 ∧ P w t)
      ∧ (opened = none → code = Abort.keyUnwrap ∧ t.husk.unwrapFailures = s.chip.husk.unwrapFailures + 1 ∧ t.sticky 82 = true
        ∧ Frame [.husk, .fault, .heads, .field] t s.chip) := by
  rcases opened with _ | w
  · exact ⟨_, s.chip.refuseBlob.2, dictCmd_effect run acc (by decide) (by decide) (refused rfl), nofun, fun _ => s.chip.refuseBlob_facts⟩
  · refine ⟨0, good w, dictCmd_effect run acc (by decide) (by decide) (opens w rfl), fun v same => ?_, nofun⟩
    obtain rfl := Option.some.inj same
    exact ⟨rfl, facts w⟩

/-- The device once the keys of an unwrapped CASK blob are the cask's, and the blob is kept in Seedbank (R219). -/
def Chip.keysLoaded (s : Chip) (c : Nat) (blob : BitVec 1472) (w : Nat) : Chip :=
  ((s.takeKeys c w blob).sbAppend 3 c (bytesLE 184 (seedbankBlob blob w).toNat)).2

theorem Chip.keysLoaded_facts (s : Chip) (c : Nat) (blob : BitVec 1472) (w : Nat) :
    (∀ j, j ≠ c → (s.keysLoaded c blob w).cask j = s.cask j) ∧ Frame [.casks, .sb, .fault, .heads, .field] (s.keysLoaded c blob w) s
    ∧ (s.keysLoaded c blob w).cask c
      = { s.cask c with keyState := .loaded, keyId := bitsOf w 32 32, keys := some (keySetOf w), blob := some blob } := by
  obtain ⟨own, others, cut⟩ := s.setCask_facts c
    { s.cask c with keyState := .loaded, keyId := bitsOf w 32 32, keys := some (keySetOf w), blob := some blob }
  have kept := (s.takeKeys c w blob).sbAppend_frame 3 c (bytesLE 184 (seedbankBlob blob w).toNat)
  exact ⟨fun j other => (kept.cask (by decide) j).trans (others j other), (kept.mono (by decide)).trans (cut.mono (by decide)),
    (kept.cask (by decide) c).trans own⟩

/-- A blob for a cask in use without keys is loaded where it unwraps, -/
theorem Chip.loadBlob_opens (s : Chip) {c w : Nat} {blob : BitVec 1472} (used : (s.cask c).state ≠ .free) (empty : (s.cask c).keyState = .empty)
    (opens : s.unwrapBlob 1 blob = some w) : s.loadBlob c blob = (0, s.keysLoaded c blob w) := by
  simp only [Chip.loadBlob, used, empty, opens, ne_eq, not_true_eq_false, if_false, Chip.keysLoaded]

/-- and refused where it does not (R218). -/
theorem Chip.loadBlob_refused (s : Chip) {c : Nat} {blob : BitVec 1472} (used : (s.cask c).state ≠ .free) (empty : (s.cask c).keyState = .empty)
    (shut : s.unwrapBlob 1 blob = none) : s.loadBlob c blob = s.refuseBlob := by
  simp only [Chip.loadBlob, used, empty, shut, ne_eq, not_true_eq_false, if_false]

/-- A cask whose keys are not EMPTY takes none (R221). -/
theorem Chip.loadBlob_owned (s : Chip) {c : Nat} (blob : BitVec 1472) (used : (s.cask c).state ≠ .free) (keyed : (s.cask c).keyState ≠ .empty) :
    s.loadBlob c blob = (Abort.resourceOwned, s) := (if_neg used).trans (if_pos keyed)

/-- A link's key slot as an unwrapped LINK blob fills it (R217, R231). -/
def slotOfBlob (w : Nat) : LinkSlot :=
  { loaded := true, keyId := bitsOf w 32 32, down := BitVec.ofNat 256 (bitsOf w 64 256), up := BitVec.ofNat 256 (bitsOf w 320 256)
    saltDown := bitsOf w 576 32, saltUp := bitsOf w 608 32 }

/-- The device with one key slot of a link filled. -/
def Chip.slotFilled (s : Chip) (k w : Nat) : Chip :=
  { s with husk := { s.husk with linkSlots := Tab.put {} s.husk.linkSlots k (slotOfBlob w) } }

theorem Chip.slotFilled_facts (s : Chip) (k w : Nat) : Tab.get {} (s.slotFilled k w).husk.linkSlots k = slotOfBlob w
    ∧ (∀ j, j ≠ k → Tab.get {} (s.slotFilled k w).husk.linkSlots j = Tab.get {} s.husk.linkSlots j) ∧ Frame [.husk] (s.slotFilled k w) s :=
  ⟨Tab.get_put_same {} s.husk.linkSlots k (slotOfBlob w), fun _ other => Tab.get_put_other {} s.husk.linkSlots (slotOfBlob w) other,
    Frame.set_husk (by decide) s _⟩

/-- A blob for the slot that is not in use fills it where it unwraps, -/
theorem Chip.loadSlot_opens (s : Chip) {l slot w : Nat} {blob : BitVec 1472} (idle : s.activeSlot l ≠ slot)
    (opens : s.unwrapBlob 2 blob = some w) : s.loadSlot l slot blob = (0, s.slotFilled (2 * l + slot) w) := by
  simp only [Chip.loadSlot, idle, opens, if_false, Chip.slotFilled, slotOfBlob]

/-- and is refused where it does not (R218, R231). -/
theorem Chip.loadSlot_refused (s : Chip) {l slot : Nat} {blob : BitVec 1472} (idle : s.activeSlot l ≠ slot)
    (shut : s.unwrapBlob 2 blob = none) : s.loadSlot l slot blob = s.refuseBlob := by
  simp only [Chip.loadSlot, idle, shut, if_false]

/-! ### ZEROISE and ZEROISE_ALL (R221, R222, R224) -/

theorem Chip.zeroise_may (s : Chip) {c : Nat} (may : s.mayZeroise c = true) : s.zeroise c = (0, s.cutKeys c) := if_pos may

theorem Chip.zeroise_mayNot (s : Chip) {c : Nat} (no : s.mayZeroise c = false) : s.zeroise c = (Abort.caskState, s) :=
  if_neg (Bool.eq_false_iff.mp no)

/-- The casks that hold keys, in FAULT or not. -/
def Chip.keyedCasks (s : Chip) : List Nat :=
  (s.casks.filter (fun e => decide (e.2.keyState = .loaded ∨ e.2.keyState = .fault))).map (·.1)

theorem Chip.mem_keyedCasks (s : Chip) {c : Nat} (keyed : (s.cask c).keyState = .loaded ∨ (s.cask c).keyState = .fault) :
    c ∈ s.keyedCasks := by
  rcases listed : Tab.find s.casks c with _ | k
  · simp [Chip.cask, Tab.get, listed] at keyed
  · have same : s.cask c = k := by simp [Chip.cask, Tab.get, listed]
    rw [same] at keyed
    exact List.mem_map.mpr ⟨(c, k), List.mem_filter.mpr ⟨Tab.find_mem listed, decide_eq_true keyed⟩, rfl⟩

/-- Every value of a table changed in one way reads so, where the value that is not listed stays (R2). -/
theorem Tab.get_mapv {α : Type} (d : α) (t : Tab α) (f : α → α) (keeps : f d = d) (k : Nat) :
    Tab.get d (t.map (fun e => (e.1, f e.2))) k = f (Tab.get d t k) := by
  unfold Tab.get
  rw [Tab.find_mapv]
  cases Tab.find t k with
  | none => exact keeps.symm
  | some v => rfl

/-- Husk, the casks and Seedbank set at once. -/
theorem Frame.set_keys (s : Chip) (x : HuskUnit) (y : Tab Cask) (z : SbUnit) :
    Frame [.casks, .sb, .husk] { s with husk := x, casks := y, sb := z } s :=
  (Frame.set_sb (by decide) { s with husk := x, casks := y } z).trans
    ((Frame.set_casks (by decide) { s with husk := x } y).trans (Frame.set_husk (by decide) s x))

/-- The device once the keys of the casks that hold some are cut. -/
def Chip.caskKeysCut (s : Chip) : Chip := s.keyedCasks.foldl (fun s c => s.cutKeys c) s

/-- A cask without its blob. -/
def Cask.unblobbed (k : Cask) : Cask := { k with blob := none }

/-- The cut point of ZEROISE_ALL (R224): all keys are cut, and every blob and every link slot goes with them. -/
def Chip.allCut (s : Chip) : Chip :=
  { s.caskKeysCut with
    husk := { s.caskKeysCut.husk with linkSlots := [] }
    casks := s.caskKeysCut.casks.map (fun e => (e.1, e.2.unblobbed))
    sb := { s.caskKeysCut.sb with recs := s.caskKeysCut.sb.recs.filter (fun r => decide (r.kind ≠ 3)) } }

theorem Chip.allCut_cask (s : Chip) (c : Nat) : s.allCut.cask c = (s.caskKeysCut.cask c).unblobbed :=
  Tab.get_mapv (α := Cask) {} s.caskKeysCut.casks Cask.unblobbed rfl c

theorem Chip.allCut_frame (s : Chip) : Frame [.casks, .sb, .husk] s.allCut s := by
  obtain ⟨-, -, cut⟩ := Chip.cutAll_facts s.keyedCasks s
  exact (Frame.set_keys s.caskKeysCut _ _ _).trans (cut.mono (by decide))

/-- Keys that stood are ERASING and cleared, and no cask keeps a blob or changes its state. -/
theorem Chip.allCut_facts (s : Chip) :
    (∀ c, (s.cask c).keyState = .loaded ∨ (s.cask c).keyState = .fault →
      (s.allCut.cask c).keyState = .erasing ∧ (s.allCut.cask c).keys = none)
    ∧ ∀ c, (s.allCut.cask c).blob = none ∧ (s.allCut.cask c).state = (s.cask c).state := by
  obtain ⟨cut, kept, -⟩ := Chip.cutAll_facts s.keyedCasks s
  refine ⟨fun c keyed => ?_, fun c => ?_⟩ <;> rw [s.allCut_cask c]
  · obtain ⟨erasing, cleared, -⟩ := cut c (s.mem_keyedCasks keyed)
    exact ⟨erasing, cleared⟩
  · refine ⟨rfl, ?_⟩
    by_cases keyed : c ∈ s.keyedCasks
    · exact (cut c keyed).2.2
    · exact congrArg (fun k => k.unblobbed.state) (kept c keyed)

/-- ZEROISE_ALL where every cask with keys may be zeroised and no link is encrypted (R224). -/
theorem Chip.zeroiseAll_cuts (s : Chip) (may : s.keyedCasks.all s.mayZeroise = true)
    (plain : (List.range 8).all (fun l => !s.linkEnc l) = true) : s.zeroiseAll 0xE2A5E000 = (0, s.allCut) := by
  have stay : (List.range 8).foldl (fun (s : Chip) l => if s.linkEnc l then s.wantDown l 6 else s) s.allCut = s.allCut := by
    refine foldl_same _ _ _ fun l member => if_neg ?_
    have off : s.linkEnc l = false := by simpa using List.all_eq_true.mp plain l member
    have same : s.allCut.linkEnc l = s.linkEnc l := by
      unfold Chip.linkEnc Chip.cfgAt
      rw [Chip.cfg_of_frame s.allCut_frame (by decide) (by decide)]
    simp [same, off]
  have all : ¬ (!s.keyedCasks.all s.mayZeroise) = true := by simp [may]
  have run : s.zeroiseAll 0xE2A5E000
      = (0, (List.range 8).foldl (fun (s : Chip) l => if s.linkEnc l then s.wantDown l 6 else s) s.allCut) := by
    unfold Chip.zeroiseAll
    exact (if_neg (not_not.mpr rfl)).trans (if_neg all)
  rw [run, stay]

/-! ### The end of an erase walk (R222) -/

/-- The device once the walk has met every page of the cask. -/
def Chip.pagesErased (s : Chip) (c : Nat) : Chip := (s.caskPages c).foldl (fun s p => s.erasePage p) s

/-- The cask's keys are ERASED. -/
def Chip.keysErased (s : Chip) (c : Nat) : Chip := s.setCask c { s.cask c with keyState := .erased }

theorem Chip.eraseWalkEnd_ends (s : Chip) {c : Nat} (erasing : (s.cask c).keyState = .erasing) (runs : s.permits .migration = true) :
    s.eraseWalkEnd c = ((s.pagesErased c).keysErased c).keyEmpty c := if_neg (by simp [erasing, runs])

/-- ERASED keys of a cask without extents are EMPTY (R221). -/
theorem Chip.keyEmpty_keyState (s : Chip) (c : Nat) (erased : (s.cask c).keyState = .erased) :
    ((s.keyEmpty c).cask c).keyState = if s.map.extents.any (fun e => decide (e.cask = c)) then .erased else .empty := by
  unfold Chip.keyEmpty
  cases s.map.extents.any (fun e => decide (e.cask = c)) <;> simp [erased]

theorem Chip.keyEmpty_other (s : Chip) {c j : Nat} (other : j ≠ c) : (s.keyEmpty c).cask j = s.cask j := by
  unfold Chip.keyEmpty
  dsimp only
  split
  · exact s.cask_setCask_other _ other
  · rfl

/-- What ends with the walk: the cask's keys, and no part of the device but the casks. -/
theorem Chip.keysErased_facts (s : Chip) (c : Nat) :
    (((s.keysErased c).keyEmpty c).cask c).keyState = (if s.map.extents.any (fun e => decide (e.cask = c)) then .erased else .empty)
    ∧ (∀ j, j ≠ c → ((s.keysErased c).keyEmpty c).cask j = s.cask j) ∧ Frame [.casks] ((s.keysErased c).keyEmpty c) s := by
  obtain ⟨own, others, frame⟩ := s.setCask_facts c { s.cask c with keyState := .erased }
  exact ⟨(s.keysErased c).keyEmpty_keyState c (congrArg Cask.keyState own),
    fun j other => ((s.keysErased c).keyEmpty_other other).trans (others j other), ((s.keysErased c).keyEmpty_frame c).trans frame⟩

/-! ### KEY_REBUILD (R219, R220) -/

/-- One more error of the key vault is counted. -/
def Chip.vaultCounted (s : Chip) : Chip := { s with husk := { s.husk with vaultErrors := s.husk.vaultErrors + 1 } }

theorem Chip.vaultCounted_frame (s : Chip) : Frame [.husk] s.vaultCounted s := Frame.set_husk (by decide) s _

/-- From a good copy of the blob the keys stand again, and the access that waited for them alone goes on. -/
theorem Chip.caskRebuild_goes (s : Chip) {c : Nat} {w : Wait} {ok sb : Bool} (loaded : (s.cask c).keyState = .loaded)
    (copy : (ok || (sb && (s.sbLive 3 c).isSome)) = true) (one : s.waits = [w]) (mine : s.waitsKey c w = true) :
    s.caskRebuild c ok sb = (s.vaultCounted.unwaited.below w.acc { w.obs with keyBad := false } false).keepTc 0 w.tc := by
  have why : w.why = .key := by
    simp only [Chip.waitsKey, Bool.and_eq_true, decide_eq_true_eq] at mine
    exact mine.1
  have goes : s.waits.filter (s.waitsKey c) = [w] := by simp [one, mine]
  have rest : s.waits.filter (fun w => !s.waitsKey c w) = [] := by simp [one, mine]
  have run := s.vaultCounted.rerun_one (s.waitsKey c) w goes (by simp [why])
  rw [show s.vaultCounted.waits = s.waits from rfl, rest] at run
  exact (if_neg (not_not.mpr loaded)).trans ((if_pos copy).trans run)

/-- The keys of a cask are in FAULT. -/
def Chip.keysFaulted (s : Chip) (c : Nat) : Chip := s.setCask c { s.cask c with keyState := .fault, keys := none }

/-- Without a good copy they are in FAULT; nothing is stored as poisoned where nothing waits for them. -/
theorem Chip.caskRebuild_faults (s : Chip) {c : Nat} (loaded : (s.cask c).keyState = .loaded)
    (unwaited : s.waits.all (fun w => !s.waitsKey c w) = true) :
    s.caskRebuild c false false = (s.vaultCounted.keysFaulted c).raise 83 := by
  have none : s.waits.filter (s.waitsKey c) = [] := by
    simpa [List.filter_eq_nil_iff] using unwaited
  have all : s.waits.filter (fun w => !s.waitsKey c w) = s.waits := by
    simpa [List.filter_eq_self] using unwaited
  have run : s.caskRebuild c false false = (((s.waits.filter (s.waitsKey c)).foldl
      (fun (s : Chip) w => ((s.putLine w.acc.dla (s.line w.acc.dla) true).dropFold w.acc).finishWrite w.acc)
      { s.vaultCounted with waits := s.waits.filter (fun w => !s.waitsKey c w) }).keysFaulted c).raise 83 :=
    if_neg (not_not.mpr loaded)
  rw [none, all] at run
  exact run

theorem Chip.keysFaulted_facts (s : Chip) (c : Nat) :
    let t := (s.vaultCounted.keysFaulted c).raise 83
    t.cask c = { s.cask c with keyState := .fault, keys := none } ∧ (∀ j, j ≠ c → t.cask j = s.cask j)
    ∧ t.husk.vaultErrors = s.husk.vaultErrors + 1 ∧ t.sticky 83 = true ∧ t.waits = s.waits
    ∧ Frame [.casks, .husk, .fault, .heads, .field] t s := by
  obtain ⟨own, others, set⟩ := s.vaultCounted.setCask_facts c { s.cask c with keyState := .fault, keys := none }
  have raised := (Chip.raise_eq (s.vaultCounted.keysFaulted c) 83 0xFF 0 .none [0, 1, 2, 3]).frame
  have frame : Frame [.casks, .husk, .fault, .heads, .field] ((s.vaultCounted.keysFaulted c).raise 83) s :=
    (raised.mono (by decide)).trans ((set.mono (by decide)).trans (s.vaultCounted_frame.mono (by decide)))
  exact ⟨(raised.cask (by decide) c).trans own, fun j other => (raised.cask (by decide) j).trans (others j other),
    congrArg HuskUnit.vaultErrors (raised .husk (by decide)), Chip.raise_sticky _ _ _ _ _ _, raised .waits (by decide), frame⟩

/-- A link's slot stands again from its blob. -/
theorem Chip.linkRebuild_stands (s : Chip) {l slot : Nat} (loaded : s.slotLoaded l slot = true) :
    s.linkRebuild l slot true = s.vaultCounted :=
  (if_neg (by simp [loaded] : ¬ (!s.slotLoaded l slot) = true)).trans (if_pos rfl)

/-- Husk with one key slot of a link empty, and the error that emptied it counted. -/
def HuskUnit.slotLost (h : HuskUnit) (k : Nat) : HuskUnit :=
  { h with vaultErrors := h.vaultErrors + 1, linkSlots := Tab.del h.linkSlots k }

/-- Without it the slot is empty. -/
theorem Chip.linkRebuild_empties (s : Chip) {l slot : Nat} (loaded : s.slotLoaded l slot = true) :
    s.linkRebuild l slot false = Chip.raise { s with husk := s.husk.slotLost (2 * l + slot) } 83 :=
  (if_neg (by simp [loaded] : ¬ (!s.slotLoaded l slot) = true)).trans (if_neg Bool.false_ne_true)

theorem HuskUnit.slotLost_other (h : HuskUnit) {k j : Nat} (other : j ≠ k) :
    Tab.get {} (h.slotLost k).linkSlots j = Tab.get {} h.linkSlots j := by
  unfold Tab.get HuskUnit.slotLost
  rw [Tab.find_del_other _ other]

theorem HuskUnit.slotLost_same (h : HuskUnit) (k : Nat) : Tab.get {} (h.slotLost k).linkSlots k = {} := by
  unfold Tab.get HuskUnit.slotLost
  rw [Tab.find_del_same]
  rfl

/-! ### The owner root, closure and SWITCH (R215, R226, R231) -/

theorem Chip.programRoot_once (s : Chip) (root : BitVec 256) (configuring : s.mode.current = .configuring) (fresh : s.husk.rootDone = false) :
    s.programRoot root = (0, { s with husk := { s.husk with rootDone := true, root := root } }) := by
  simp only [Chip.programRoot, configuring, fresh, ne_eq, not_true_eq_false, if_false, Bool.false_eq_true]

theorem Chip.programRoot_again (s : Chip) (root : BitVec 256) (configuring : s.mode.current = .configuring) (done : s.husk.rootDone = true) :
    s.programRoot root = (Abort.resourceOwned, s) := (if_neg (not_not.mpr configuring)).trans (if_pos done)

theorem Chip.debugClose_configuring (s : Chip) (configuring : s.mode.current = .configuring) :
    s.debugClose 0xDEB0C105 = (0, { s with husk := { s.husk with debugClosed := true } }) :=
  (if_neg (not_not.mpr rfl)).trans (if_neg (not_not.mpr configuring))

/-- The device once a link's active slot is the other one, and the switch is announced. -/
def Chip.slotSwitched (s : Chip) (l : Nat) : Chip :=
  { s with husk := { s.husk with active := setBit s.husk.active l (!bitOf s.husk.active l), switching := setBit s.husk.switching l true } }

theorem Chip.switchSlot_switches (s : Chip) (l : Nat) : s.switchSlot l 1 = (0, s.slotSwitched l) := if_neg (not_not.mpr rfl)

theorem Chip.slotSwitched_activeSlot (s : Chip) (l : Nat) : (s.slotSwitched l).activeSlot l = 1 - s.activeSlot l := by
  simp only [Chip.activeSlot, Chip.slotSwitched, bitOf_setBit_val]
  cases bitOf s.husk.active l <;> rfl

end Sys2Proof.Machine

open Sys2Proof Sys2Proof.Machine

/-- Settles O26. Each command is its handler in the state it needs; what cutting keys and walking pages do is told of one cask and one page,
and then of all. -/
theorem keysLoadEraseAndRebuild : Obligations.KeysLoadEraseAndRebuild := by
  unfold Obligations.KeysLoadEraseAndRebuild
  refine ⟨?load, ?owned, ?zeroise, ?mayNot, ?walk, ?all, ?stands, ?faults, ?slotStands, ?slotLost, ?root, ?rootAgain, ?close, ?slot, ?switch⟩
  case load =>
    intro s src c blob acc used empty
    exact blobLoad_effect rfl acc (fun _ opens => s.chip.loadBlob_opens used empty opens) (fun shut => s.chip.loadBlob_refused used empty shut)
      (s.chip.keysLoaded_facts c blob)
  case owned =>
    intro s src c blob acc used keyed
    exact dictCmd_effect rfl acc (by decide) (by decide) (s.chip.loadBlob_owned blob used keyed)
  case zeroise =>
    intro s src c acc quiesced keyed
    have may : s.chip.mayZeroise c = true := by simp [Chip.mayZeroise, quiesced, keyed]
    obtain ⟨own, others, sb, frame⟩ := s.chip.cutKeys_facts c
    refine ⟨_, dictCmd_effect rfl acc (by decide) (by decide) (s.chip.zeroise_may may), own, others, fun r => ?_, frame⟩
    rw [sb]
    refine List.mem_filter.trans (and_congr_right fun _ => ?_)
    simp only [Bool.not_eq_true', decide_eq_false_iff_not]
  case mayNot =>
    intro s src c acc no
    exact dictCmd_effect rfl acc (by decide) (by decide) (s.chip.zeroise_mayNot no)
  case walk =>
    intro s c erasing still runs
    have apart : ∀ p ∈ s.chip.caskPages c, s.chip.migOf p = none := fun p member => of_decide_eq_true (List.all_eq_true.mp still p member)
    obtain ⟨pages, extents, lines, walked⟩ := Chip.eraseAll_facts (s.chip.caskPages c) s.chip apart
    obtain ⟨own, others, frame⟩ := (s.chip.pagesErased c).keysErased_facts c
    refine ⟨_, Effect.of_eq rfl (s.chip.eraseWalkEnd_ends erasing runs), ?_, fun p => (frame.page (by decide) p).trans (pages p),
      fun k member => ?_, fun j other => (others j other).trans (walked.cask (by decide) j),
      (frame.mono (by decide)).trans (walked.mono (by decide))⟩
    · rw [own, show (s.chip.pagesErased c).map.extents = s.chip.map.extents from extents]
    · have cache : (((s.chip.pagesErased c).keysErased c).keyEmpty c).cache = (s.chip.pagesErased c).cache := frame .cache (by decide)
      rw [cache]
      exact (lines k).trans (if_pos member)
  case all =>
    rintro s src v acc rfl may plain
    obtain ⟨cut, kept⟩ := s.chip.allCut_facts
    exact ⟨_, dictCmd_effect rfl acc (by decide) (by decide) (s.chip.zeroiseAll_cuts may plain), cut, kept, rfl,
      fun r member => of_decide_eq_true (List.mem_filter.mp member).2, s.chip.allCut_frame⟩
  case stands =>
    intro s c w ok sb loaded copy one mine
    exact Effect.of_eq rfl (s.chip.caskRebuild_goes loaded copy one mine)
  case faults =>
    intro s c loaded unwaited
    exact ⟨_, Effect.of_eq rfl (s.chip.caskRebuild_faults loaded unwaited), s.chip.keysFaulted_facts c⟩
  case slotStands =>
    intro s l slot sb loaded
    exact Effect.of_eq rfl (s.chip.linkRebuild_stands loaded)
  case slotLost =>
    intro s l slot sb loaded
    obtain ⟨husk, raised, frame⟩ := s.chip.raise_with_husk (s.chip.husk.slotLost (2 * l + slot)) 83
    refine ⟨_, Effect.of_eq rfl (s.chip.linkRebuild_empties loaded), ?_, fun k other => ?_, ?_, raised, frame⟩
    · rw [Chip.slotLoaded, husk, HuskUnit.slotLost_same]
    · rw [husk, HuskUnit.slotLost_other _ other]
    · rw [husk]
      rfl
  case root =>
    intro s src root acc configuring fresh
    exact ⟨_, dictCmd_effect rfl acc (by decide) (by decide) (s.chip.programRoot_once root configuring fresh), rfl,
      Frame.set_husk (by decide) s.chip _⟩
  case rootAgain =>
    intro s src root acc configuring done
    exact dictCmd_effect rfl acc (by decide) (by decide) (s.chip.programRoot_again root configuring done)
  case close =>
    rintro s src v acc rfl configuring
    exact ⟨_, dictCmd_effect rfl acc (by decide) (by decide) (s.chip.debugClose_configuring configuring), rfl,
      Frame.set_husk (by decide) s.chip _⟩
  case slot =>
    intro s src l slot blob acc idle
    exact blobLoad_effect rfl acc (fun _ opens => s.chip.loadSlot_opens idle opens) (fun shut => s.chip.loadSlot_refused idle shut)
      (s.chip.slotFilled_facts (2 * l + slot))
  case switch =>
    rintro s src l v acc rfl
    exact ⟨_, dictCmd_effect rfl acc (by decide) (by decide) (s.chip.switchSlot_switches l), s.chip.slotSwitched_activeSlot l,
      bitOf_setBit _ _, rfl, Frame.set_husk (by decide) s.chip _⟩

end

section
/-!
PROOFS. The cache's flush and cleaner (R244, R252), scratch units (R253 to R256), writes that wait for a way (R242), and stream prefetches
(R248, R249).
-/
namespace Sys2Proof.Machine

/-! ### Flush and cleaner (R244, R252) -/

/-- A flush goes on while a dirty line is left, and nothing else of the cache depends on that (R252). -/
theorem Chip.flushDone_facts (s : Chip) :
    s.flushDone.cache = { s.cache with flushing := s.cache.flushing && decide (s.dirtyLines ≠ 0) } ∧ Frame [.cache] s.flushDone s := by
  unfold Chip.flushDone
  split
  · next done => exact ⟨by simp [done], Frame.set_cache (by decide) s _⟩
  · next more =>
    have same : (s.cache.flushing && decide (s.dirtyLines ≠ 0)) = s.cache.flushing := by
      cases flushing : s.cache.flushing
      · rfl
      · exact decide_eq_true fun none => more ⟨flushing, none⟩
    rw [same]
    exact ⟨rfl, Frame.refl _ _⟩

/-- The device under a flush. -/
def Chip.flushAsked (s : Chip) : Chip := { s with cache := { s.cache with flushing := true } }

theorem Chip.cacheFlush_one (s : Chip) : s.cacheFlush 1 = (0, s.flushAsked.flushDone) := if_neg (not_not_intro rfl)

/-- A dirty line cleaned is clean in its way (R243). -/
theorem Chip.cleanLine_dirty (s : Chip) {ln : Nat} {c : CLine} (found : Tab.find s.cache.lines ln = some c) (dirty : c.dirty = true) :
    Tab.find (s.cleanLine ln).cache.lines ln = some { c with dirty := false, heavy := false } := by
  unfold Chip.cleanLine
  rw [found]
  dsimp only
  rw [if_pos dirty]
  exact Tab.find_set_same _ _ _

/-- The cleaner cleans the next line, where its tier takes it (R244). -/
theorem Chip.cleanerWriteback_cleans (s : Chip) {dla : Nat} {c : CLine} (work : s.workMode = true) (calm : s.inBurst = false)
    (open' : s.win.prologueOn = false) (found : Tab.find s.cache.lines (lineNo dla) = some c) (next : s.cleanNext (lineNo dla) c = true)
    (takes : s.tierWait (64 * lineNo dla) = none) : s.cleanerWriteback dla = (s.cleanLine (lineNo dla)).flushDone := by
  have cached : s.cached dla = some c := found
  have written : s.writeback (lineNo dla) = s.cleanLine (lineNo dla) := by
    unfold Chip.writeback
    rw [takes]
  unfold Chip.cleanerWriteback
  rw [cached, ← written]
  exact (if_neg (by simp [work, calm, open'])).trans (if_pos next)

/-! ### Scratch units (R253 to R256) -/

theorem Chip.scratchClear_unit (s : Chip) {u : Nat} (used : u < s.cache.ways) : s.scratchClear u = (0, s.clearUnit u) :=
  if_neg (by omega)

theorem Chip.scratchClear_outOfRange (s : Chip) {u : Nat} (unused : s.cache.ways ≤ u) : s.scratchClear u = (Abort.outOfRange, s) :=
  if_pos unused

theorem Frame.set_cache_mem_poison (s : Chip) (x : CacheUnit) (m : Tab Byte) (p : Tab Bool) :
    Frame [.cache, .mem, .poison] { s with cache := x, mem := m, poison := p } s :=
  (Frame.set_poison (by decide) { s with cache := x, mem := m } p).trans
    ((Frame.set_mem (by decide) { s with cache := x } m).trans (Frame.set_cache (by decide) s x))

/-- The bytes of a cleared unit read zero and its words are invalid; no other byte and no other word changes (R255). -/
theorem Chip.clearUnit_facts (s : Chip) (u : Nat) :
    (∀ x, Tab.get 0 (s.clearUnit u).mem x = if unitBase u ≤ x ∧ x < unitBase u + 0x400000 then 0 else Tab.get 0 s.mem x)
    ∧ (∀ w, Tab.get false (s.clearUnit u).cache.words w
        = if unitBase u ≤ 8 * w ∧ 8 * w < unitBase u + 0x400000 then false else Tab.get false s.cache.words w)
    ∧ Frame [.cache, .mem, .poison] (s.clearUnit u) s := by
  refine ⟨fun x => ?_, fun w => ?_, ?_⟩
  · refine (Tab.get_filter 0 s.mem (fun a => !decide (unitBase u ≤ a ∧ a < unitBase u + 0x400000)) x).trans ?_
    simp only [Bool.not_eq_true', decide_eq_false_iff_not, ite_not]
  · refine (Tab.get_filter false s.cache.words (fun a => !decide (unitBase u ≤ 8 * a ∧ 8 * a < unitBase u + 0x400000)) w).trans ?_
    simp only [Bool.not_eq_true', decide_eq_false_iff_not, ite_not]
  · exact Frame.set_cache_mem_poison s _ _ _

/-- The number of units is committed, and the conversion is requested (R256). -/
theorem Chip.setScratchWays_requests (s : Chip) {n : Nat} (few : n ≤ 8)
    (on : (changedWays s.cache.ways n).all (fun w => decide (s.domain (28 + w / 4) = .on)) = true)
    (ok : (s.sbAppend 1 (paramKey Obj.cacheScratchWays) (bytesLE 1 n)).1 = true) :
    s.setScratchWays n = (0, ((s.sbAppend 1 (paramKey Obj.cacheScratchWays) (bytesLE 1 n)).2.setRwp Obj.cacheScratchWays n).requestOp
      (.scratchWays s.cache.ways n) (s.scratchUs (changedWays s.cache.ways n))) := by
  have none : ¬ (changedWays s.cache.ways n).any (fun w => decide (s.domain (28 + w / 4) ≠ .on)) = true := by
    simpa using on
  unfold Chip.setScratchWays
  dsimp only
  rw [if_neg (by omega), if_neg none, s.commitRwp_ok _ 1 n ok]
  rfl

/-! ### A way becomes eligible (R242) -/

/-- The access that waits alone, and whose time has come, goes on, and keeps the TC of its acceptance (R29). -/
theorem Chip.rerun_alone (s : Chip) {ok : Wait → Bool} {w : Wait} (one : s.waits = [w]) (goes : ok w = true) (turn : w.why ≠ .order) :
    s.rerun ok = (s.unwaited.below w.acc { w.obs with keyBad := false } false).keepTc 0 w.tc := by
  have run := s.rerun_one ok w (by simp [one, goes]) turn
  rw [show s.waits.filter (fun w => !ok w) = [] by simp [one, goes]] at run
  exact run

/-! ### Stream prefetch (R248, R249, R560) -/

/-- The started tracker of master `m` that reaches the line at `dla` (R248). -/
abbrev Chip.trackerAt (s : Chip) (m dla : Nat) : Option Tracker :=
  s.cache.trackers.find? (fun t => decide (t.master = m ∧ t.page = lineNo dla / 64 ∧ t.last < lineNo dla
    ∧ lineNo dla ≤ t.last + s.cfg Obj.cachePrefetchDepth) && t.started)

/-- The line at `dla` is one to prefetch: neither cached, prefetched nor shared-coherent, and its region prefetches (R248). -/
abbrev Chip.prefetchable (s : Chip) (dla : Nat) : Prop :=
  ((s.cached dla).isSome || s.cache.side.contains (lineNo dla) || s.sharedLine (lineNo dla)) = false
  ∧ s.cfgAt Obj.cacheRegionPrefetch (s.accessRegion dla) = 1

/-- The read of the line at `dla` that tracker `t` asks for in master `m`'s name (R249). -/
abbrev Tracker.read (t : Tracker) (m dla : Nat) : Access := ⟨m, t.bind, .read, lineBase dla, fullMask, 0, false, true, 0, .none⟩

/-- The device with one more prefetch issued. -/
def Chip.prefetchIssued (s : Chip) : Chip := { s with cache := { s.cache with prefIssued := s.cache.prefIssued + 1 } }

/-- None of what drops a prefetch without a read holds of such a line (R248). -/
theorem Chip.prefetch_wanted (s : Chip) {m dla : Nat} {t : Tracker} (work : s.workMode = true) (reaches : s.trackerAt m dla = some t)
    (fits : s.prefetchable dla) :
    ¬ ((!s.workMode) = true ∨ (s.trackerAt m dla).isNone = true
      ∨ ((s.cached dla).isSome || s.cache.side.contains (lineNo dla) || s.sharedLine (lineNo dla)) = true
      ∨ s.cfgAt Obj.cacheRegionPrefetch (s.accessRegion dla) ≠ 1) := by
  obtain ⟨absent, prefetches⟩ := fits
  rw [work, reaches, absent, prefetches]
  simp

theorem Chip.streamPrefetch_killed (s : Chip) {m dla : Nat} {t : Tracker} (o : Obs) (work : s.workMode = true)
    (reaches : s.trackerAt m dla = some t) (fits : s.prefetchable dla) : s.streamPrefetch m dla true o = s.prefetchKilled m :=
  (if_neg (s.prefetch_wanted work reaches fits)).trans (if_pos rfl)

/-- The device with one more prefetch killed. -/
def Chip.killCounted (s : Chip) : Chip := { s with cache := { s.cache with prefKilled := s.cache.prefKilled + 1 } }

/-- A killed prefetch is counted, and charged to its port up to 255 (R249, R560). -/
theorem Chip.prefetchKilled_facts (s : Chip) (m : Nat) :
    (s.prefetchKilled m).cache = { s.cache with prefKilled := s.cache.prefKilled + 1 }
    ∧ (∀ p, portOf m = some p → Tab.get 0 (s.prefetchKilled m).cnt.kills p = min 255 (Tab.get 0 s.cnt.kills p + 1))
    ∧ Frame [.cache, .cnt] (s.prefetchKilled m) s := by
  unfold Chip.prefetchKilled
  cases portOf m with
  | none => exact ⟨rfl, nofun, Frame.set_cache (by decide) s _⟩
  | some p =>
    refine ⟨rfl, fun q named => ?_,
      (Frame.set_cnt (by decide) s.killCounted _).trans (Frame.set_cache (by decide) s _)⟩
    cases named
    exact Tab.get_upd_same 0 s.cnt.kills p (fun n => min 255 (n + 1))

/-- A prefetch that the master may read, of a line that its tier gives, fills the side buffer (R248, R249). -/
theorem Chip.streamPrefetch_fills (s : Chip) {m dla c : Nat} {t : Tracker} {o : Obs} (work : s.workMode = true)
    (reaches : s.trackerAt m dla = some t) (fits : s.prefetchable dla) (may : s.verdict (t.read m dla) o = .ok c)
    (resting : (s.srcRec (lineNo dla / 64)).resting = true) (good : (s.prefetchIssued.tierRead (lineNo dla) o true 0).1 = .good) :
    s.streamPrefetch m dla false o = (s.prefetchIssued.tierRead (lineNo dla) o true 0).2.sideAdd (lineNo dla) := by
  have allowed : s.verdict ⟨m, ((s.trackerAt m dla).map (·.bind)).getD .raw, .read, lineBase dla, fullMask, 0, false, true, 0, .none⟩ o
      = .ok c := by
    rw [reaches]
    exact may
  unfold Chip.streamPrefetch
  refine (if_neg (s.prefetch_wanted work reaches fits)).trans ((if_neg Bool.false_ne_true).trans ((if_neg ?passes).trans
    ((if_pos resting).trans ?read)))
  case passes =>
    rw [allowed]
    simp
  case read =>
    unfold Chip.prefetchIssued at good ⊢
    dsimp only at good ⊢
    rw [good]

end Sys2Proof.Machine

open Sys2Proof Sys2Proof.Machine

/-- Settles O24. Each command is its handler in the state it needs: a flush is over with the last dirty line, a unit's clearing is told of one
byte and of one word, and a prefetch that passes its guard is killed or read. -/
theorem cacheWorkPrefetchesAndScratchUnits : Obligations.CacheWorkPrefetchesAndScratchUnits := by
  unfold Obligations.CacheWorkPrefetchesAndScratchUnits
  refine ⟨?flush, ?clean, ?clear, ?unused, ?ways, ?eligible, ?killed, ?prefetch⟩
  case flush =>
    rintro s src v acc rfl
    obtain ⟨cache, frame⟩ := s.chip.flushAsked.flushDone_facts
    exact ⟨_, dictCmd_effect rfl acc (by decide) (by decide) s.chip.cacheFlush_one, cache,
      frame.trans (Frame.set_cache (by decide) s.chip _)⟩
  case clean =>
    intro s dla c work calm open' found dirty next takes keys
    obtain ⟨cache, frame⟩ := (s.chip.cleanLine (lineNo dla.toNat)).flushDone_facts
    have lines := congrArg CacheUnit.lines cache
    obtain ⟨-, others, -⟩ := s.chip.cleanLine_ways (lineNo dla.toNat)
    exact ⟨_, Effect.of_eq rfl (s.chip.cleanerWriteback_cleans work calm open' found next takes),
      (congrArg (Tab.find · _) lines).trans (s.chip.cleanLine_dirty found dirty),
      fun k other => (congrArg (Tab.find · k) lines).trans (others k other),
      (frame.mono (by decide)).trans (s.chip.cleanLine_frame _ keys)⟩
  case clear =>
    intro s src u acc used
    exact ⟨_, dictCmd_effect rfl acc (by decide) (by decide) (s.chip.scratchClear_unit used), s.chip.clearUnit_facts u.toNat⟩
  case unused =>
    intro s src u acc unused
    exact dictCmd_effect rfl acc (by decide) (by decide) (s.chip.scratchClear_outOfRange unused)
  case ways =>
    intro s src n acc few on ok
    obtain ⟨committed, stored, -, -⟩ := s.chip.committed_facts Obj.cacheScratchWays 1 n.toNat
    have same := s.chip.sbAppend_frame 1 (paramKey Obj.cacheScratchWays) (bytesLE 1 n.toNat) .win (by decide)
    obtain ⟨win, requested⟩ := Chip.requestOp_facts
      ((s.chip.sbAppend 1 (paramKey Obj.cacheScratchWays) (bytesLE 1 n.toNat)).2.setRwp Obj.cacheScratchWays n.toNat)
      (.scratchWays s.chip.cache.ways n.toNat) (s.chip.scratchUs (changedWays s.chip.cache.ways n.toNat))
    refine ⟨_, dictCmd_effect rfl acc (by decide) (by decide) (s.chip.setScratchWays_requests few on ok), stored, ?_,
      (requested.mono (by decide)).trans (committed.mono (by decide))⟩
    rw [win]
    exact congrArg (fun w : WinUnit => w.ops ++ _) same
  case eligible =>
    intro s dla w one why set
    exact Effect.of_eq rfl (s.chip.rerun_alone one (decide_eq_true ⟨why, set⟩) (by simp [why]))
  case killed =>
    intro s m dla obs t work reaches absent prefetches
    exact ⟨_, Effect.of_eq rfl (s.chip.streamPrefetch_killed obs work reaches ⟨absent, prefetches⟩),
      s.chip.prefetchKilled_facts m.toNat⟩
  case prefetch =>
    intro s m dla obs t c work reaches absent prefetches may resting good
    exact Effect.of_eq rfl (s.chip.streamPrefetch_fills work reaches ⟨absent, prefetches⟩ may resting good)

end

section
/-!
PROOFS. DRAM refresh and temperature (R259, R265, R272), DDR5 errors that retry or freeze a channel (R275, R281 to R283), and resilvering
(R280).
-/
namespace Sys2Proof.Machine

theorem Chip.ddr_of_dram {a b : Chip} (same : a.dram = b.dram) (j : Nat) : a.ddr j = b.ddr j := by
  unfold Chip.ddr
  rw [same]

/-- What leaves the DRAM controllers alone leaves every DDR5 channel as it was. -/
theorem Frame.ddr {l : List Part} {a b : Chip} (h : Frame l a b) (n : Part.dram ∉ l) (j : Nat) : a.ddr j = b.ddr j :=
  Chip.ddr_of_dram (h .dram n) j

/-! ### Refresh (R259, R272 to R274) -/

theorem Chip.hbmRefresh_facts (s : Chip) (pc : Nat) :
    Tab.get 0 (s.hbmRefresh pc).dram.hbmRefreshes pc = Tab.get 0 s.dram.hbmRefreshes pc + 1
    ∧ (∀ j, j ≠ pc → Tab.get 0 (s.hbmRefresh pc).dram.hbmRefreshes j = Tab.get 0 s.dram.hbmRefreshes j)
    ∧ (∀ j, (s.hbmRefresh pc).ddr j = s.ddr j) ∧ Frame [.dram] (s.hbmRefresh pc) s :=
  ⟨Tab.get_upd_same 0 s.dram.hbmRefreshes pc (· + 1), fun _ other => Tab.get_put_other 0 s.dram.hbmRefreshes (_ + 1) other,
    fun _ => rfl, Frame.set_dram (by decide) s _⟩

/-- Outside a BURST window and its fence, a channel that is neither frozen nor lost keeps its own balance of refreshes (R273, R274). -/
theorem Chip.ddrRefresh_free (s : Chip) {n : Nat} (apart : s.sameBankRefresh = false) (free : (s.ddr n).freeze = 0) :
    ¬ ((!s.permits .allBankRefresh) = true ∨ (s.ddr n).freeze = 2 ∨ ((s.ddr n).freeze = 1 ∧ (s.ddr n).cause ≠ 1)) := by
  simp [Chip.permits, apart, free]

theorem Chip.ddrRefresh_busy (s : Chip) {n : Nat} (apart : s.sameBankRefresh = false) (free : (s.ddr n).freeze = 0) :
    s.ddrRefresh n .busy = s.setDdr n { s.ddr n with balance := max (-4) ((s.ddr n).balance - 1) } := if_neg (s.ddrRefresh_free apart free)

theorem Chip.ddrRefresh_idle (s : Chip) {n : Nat} (apart : s.sameBankRefresh = false) (free : (s.ddr n).freeze = 0) :
    s.ddrRefresh n .idle = s.setDdr n { s.ddr n with balance := min 4 ((s.ddr n).balance + 1) } := if_neg (s.ddrRefresh_free apart free)

/-! ### Temperature (R265, R272) -/

/-- A DIMM's temperature is recorded. -/
def Chip.dimmRead (s : Chip) (n : Nat) (t : Int) : Chip := s.setDdr n { s.ddr n with temp := t }

/-- The HBM's temperature is recorded, and doubles its refresh above 85 degrees. -/
def Chip.hbmRead (s : Chip) (t : Int) : Chip := { s with dram := { s.dram with hbmTemp := t, doubled := decide (85 < t) } }

theorem Chip.dimmTemp_low (s : Chip) (n : Nat) {t : Int} (low : t ≤ 95) : s.dimmTemp n t = s.dimmRead n t := if_neg (by omega)

theorem Chip.dimmTemp_high (s : Chip) (n : Nat) {t : Int} (high : 95 < t) : s.dimmTemp n t = (s.dimmRead n t).raise 98 := if_pos high

theorem Chip.hbmTemp_low (s : Chip) {t : Int} (low : t ≤ 95) : s.hbmTemp t = s.hbmRead t := if_neg (by omega)

theorem Chip.hbmTemp_high (s : Chip) {t : Int} (high : 95 < t) : s.hbmTemp t = (s.hbmRead t).raise 99 := if_pos high

/-- A source raised on a changed DRAM unit keeps the change. -/
theorem Chip.raise_on_dram {u s : Chip} (frame : Frame [.dram] u s) (n : Nat) :
    (u.raise n).dram = u.dram ∧ (u.raise n).sticky n = true ∧ Frame [.dram, .fault, .heads, .field] (u.raise n) s := by
  have raised := (u.raise_eq n 0xFF 0 .none [0, 1, 2, 3]).frame
  exact ⟨raised .dram (by decide), Chip.raise_sticky _ _ _ _ _ _, (raised.mono (by decide)).trans (frame.mono (by decide))⟩

/-! ### Retry and freeze (R275, R281, R283) -/

/-- The cause that a freeze records of a DDR5 error (R281). -/
def freezeCause : DdrErr → Nat
  | .caParity => 2
  | .writeCrc => 3

/-- Retries that an alert may take (R275): one in a BURST window. -/
abbrev Chip.retryLimit (s : Chip) : Nat := if s.inBurst then 1 else s.cfg Obj.ddrRetryLimit

/-- An alert's retries are counted, up to the limit. -/
def Chip.retried (s : Chip) (n retries : Nat) : Chip := s.setDdr n { s.ddr n with retries := (s.ddr n).retries + min retries s.retryLimit }

/-- Retries within the limit that clear the error are all that an alert leaves (R275). -/
theorem Chip.ddrAlert_cleared (s : Chip) (n : Nat) (e : DdrErr) {retries : Nat} (within : retries ≤ s.retryLimit) :
    s.ddrAlert n e retries true = s.setDdr n { s.ddr n with retries := (s.ddr n).retries + retries } := by
  have counted : s.retried n retries = s.setDdr n { s.ddr n with retries := (s.ddr n).retries + retries } := by
    unfold Chip.retried
    rw [Nat.min_eq_left within]
  exact (if_pos (by simpa using within)).trans counted

/-- An error that stays freezes its channel (R281), with a free number for the failing command (log entry 8). -/
theorem Chip.ddrAlert_freezes (s : Chip) (n : Nat) (e : DdrErr) (retries : Nat) :
    ∃ sector, s.ddrAlert n e retries false = (s.retried n retries).takeNat.2.freeze n (freezeCause e) sector := by
  unfold Chip.ddrAlert
  simp only [Bool.false_and, Bool.false_eq_true, if_false]
  cases e <;> exact ⟨_, rfl⟩

/-- The alert's effect: the channel is frozen with its cause, and its retries are counted (R275, R281). -/
theorem Chip.ddrAlert_facts (s : Chip) {n : Nat} (small : n < 8) (e : DdrErr) (retries : Nat) (free : (s.ddr n).freeze ≠ 1) :
    (∃ snap, (s.ddrAlert n e retries false).ddr n = { s.ddr n with
      retries := (s.ddr n).retries + min retries s.retryLimit, freeze := 1, cause := freezeCause e, limit := false
      snapshot := snap, freezes := (s.ddr n).freezes + 1 })
    ∧ (∀ j, j ≠ n → (s.ddrAlert n e retries false).ddr j = s.ddr j) ∧ (s.ddrAlert n e retries false).sticky 96 = true
    ∧ (s.mode.current = .service → (s.ddrAlert n e retries false).mode.current = .diagnosis)
    ∧ Frame [.dram, .lauter, .fault, .heads, .field, .mode, .free] (s.ddrAlert n e retries false) s := by
  obtain ⟨sector, same⟩ := s.ddrAlert_freezes n e retries
  have taken : (s.retried n retries).takeNat.2.ddr n = { s.ddr n with retries := (s.ddr n).retries + min retries s.retryLimit } :=
    s.ddr_setDdr n _
  obtain ⟨⟨snap, own⟩, others, raised, mode, frame⟩ :=
    (s.retried n retries).takeNat.2.freeze_facts n (freezeCause e) sector small (by rw [taken]; exact free)
  have before : Frame [.dram, .free] (s.retried n retries).takeNat.2 s :=
    (Frame.set_free (by decide) _ _).trans (Frame.set_dram (by decide) s _)
  rw [same]
  rw [taken] at own
  exact ⟨⟨snap, own⟩, fun j other => (others j other).trans (s.ddr_setDdr_other _ other), raised, mode,
    frame.trans (before.mono (by decide))⟩

/-! ### Resilvering (R280) -/

theorem Chip.resilver_copies (s : Chip) {n g q : Nat} (free : (s.ddr n).freeze = 0) (time : s.moveTime = true) (pair : s.partner n = some q)
    (serves : s.ddrAway q = false) (holds : (s.ddr q).stale.contains g = false) (still : s.ddrMoving n = false) :
    s.resilver n g = s.setDdr n { s.ddr n with stale := (s.ddr n).stale.filter (fun k => decide (k ≠ g)) } := by
  unfold Chip.resilver
  rw [pair]
  dsimp only
  rw [if_pos ⟨free, by simp [still], time, by rw [serves, holds]; rfl⟩]

end Sys2Proof.Machine

open Sys2Proof Sys2Proof.Machine

/-- Settles O29. Refreshes and temperatures are the DRAM unit's own records; an alert that stays is a freeze of its channel, with the retries
counted before. -/
theorem dramRefreshesRetriesAndFreezes : Obligations.DramRefreshesRetriesAndFreezes := by
  unfold Obligations.DramRefreshesRetriesAndFreezes
  refine ⟨?hbmRefresh, ?busy, ?idle, ?dimm, ?hbm, ?dimmHot, ?hbmHot, ?cleared, ?frozen, ?limit, ?resilver⟩
  case hbmRefresh =>
    intro s pc
    exact ⟨_, rfl, s.chip.hbmRefresh_facts pc⟩
  case busy =>
    intro s ch apart free
    exact Effect.of_eq rfl (s.chip.ddrRefresh_busy apart free)
  case idle =>
    intro s ch apart free
    exact Effect.of_eq rfl (s.chip.ddrRefresh_idle apart free)
  case dimm =>
    intro s ch temp low
    exact Effect.of_eq rfl (s.chip.dimmTemp_low ch low)
  case hbm =>
    intro s temp low
    exact Effect.of_eq rfl (s.chip.hbmTemp_low low)
  case dimmHot =>
    intro s ch temp high
    obtain ⟨dram, raised, frame⟩ := Chip.raise_on_dram (u := s.chip.dimmRead ch temp.toInt) (Frame.set_dram (by decide) s.chip _) 98
    refine ⟨_, Effect.of_eq rfl (s.chip.dimmTemp_high ch high), ?_, raised, frame⟩
    exact congrArg DdrChan.temp ((Chip.ddr_of_dram dram ch).trans (s.chip.ddr_setDdr ch _))
  case hbmHot =>
    intro s temp high
    obtain ⟨dram, raised, frame⟩ := Chip.raise_on_dram (u := s.chip.hbmRead temp.toInt) (Frame.set_dram (by decide) s.chip _) 99
    exact ⟨_, Effect.of_eq rfl (s.chip.hbmTemp_high high), congrArg DramUnit.hbmTemp dram,
      (congrArg DramUnit.doubled dram).trans (decide_eq_true (by omega)), raised, frame⟩
  case cleared =>
    intro s ch e retries within
    exact Effect.of_eq rfl (s.chip.ddrAlert_cleared ch e within)
  case frozen =>
    intro s ch e retries free
    obtain ⟨own, rest⟩ := s.chip.ddrAlert_facts ch.isLt e retries free
    exact ⟨_, rfl, own, rest⟩
  case limit =>
    intro s ch frozen
    exact Effect.of_eq rfl (if_pos frozen)
  case resilver =>
    intro s ch g q free time pair serves holds still
    exact Effect.of_eq rfl (s.chip.resilver_copies free time pair serves holds still)

end

section
/-!
PROOFS. Frozen DDR5 channels that are released or declared lost (R284), the DDR5 set points (R287), and the size of the persist reserve (R264).
-/
namespace Sys2Proof.Machine

/-! ### A command of ddr.chan.command (R284) -/

/-- A command of a channel that succeeds is answered with its own byte. -/
theorem channelCommand_effect {i : Instr} {s : State} {src : Src} {ch : Fin 8} {v : Nat} {f : Chip → Nat × Chip} {t : Chip} {d : List Byte}
    (run : Effect i s (s.chip.dictCmd src (0x5010 + ch) 9 1 v f)) (acc : Accepts s.chip src (0x5010 + ch) 9 1) (does : f s.chip = (0, t))
    (byte : bytesLE 1 v = d) : Effect i s (t.answerWrite src (0x5010 + ch) 9 d 0) :=
  byte ▸ dictCmd_effect run acc (by decide) (by decide) does

/-! ### Release (R284) -/

theorem Chip.ddrRelease_frozen (s : Chip) {n : Nat} (frozen : s.frozen n = true) : s.ddrRelease n = (0, s.unfreeze n) := if_pos frozen

theorem Chip.ddrRelease_serving (s : Chip) {n : Nat} (serves : s.frozen n = false) : s.ddrRelease n = (Abort.channelState, s) :=
  if_neg (by simp [serves])

/-- The device whose retraining of channel `n` has failed (R284, R281). -/
def Chip.retrainFailed (s : Chip) (n : Nat) : Chip := s.setDdr n { s.ddr n with cause := 4 }

theorem Chip.ddrRetrain_frozen (s : Chip) {n : Nat} (passed : Bool) (frozen : s.frozen n = true) :
    s.ddrRetrain n passed = (0, if passed then s.unfreeze n else s.retrainFailed n) := by
  refine (if_neg (by simp [frozen])).trans ?_
  cases passed <;> rfl

/-! ### A channel is lost (R284) -/

/-- What every loss of channel `n` ends with, from the device `before`: the channel serves no more, its poison list is over, and the capacity,
the paused migrations and the mode are looked at again (R158, R197, R528). -/
def Chip.lostSince (u before : Chip) (n : Nat) : Chip :=
  (((u.setDdr n { u.ddr n with freeze := 2, limit := false, poisonList := [] }).watchCapacity before).unpause).refreshDiagnosis

/-- With a partner, the partner carries the pair alone. -/
theorem Chip.ddrLost_mirrored (s : Chip) {n q : Nat} (frozen : s.frozen n = true) (pair : s.partner n = some q) :
    s.ddrLost n = (0, ((s.carryAlone n).lostSince s n).wake) := by
  unfold Chip.ddrLost
  dsimp only
  rw [if_neg (by simp [frozen]), pair]
  rfl

/-- A channel outside the mirrored pairs is lost with all its pages. -/
theorem Chip.ddrLost_single (s : Chip) {n : Nat} (frozen : s.frozen n = true) (single : bitOf (s.cfg Obj.ddrMirrorPairs) (n / 2) = false) :
    s.ddrLost n = (0, ((s.loseChannel n).lostSince s n).wake) := by
  have none : s.partner n = none := by
    unfold Chip.partner
    rw [single]
    rfl
  have name : (if s.copies n = [n] ∧ bitOf (s.cfg Obj.ddrMirrorPairs) (n / 2) = true then n / 2 * 2 else n) = n :=
    if_neg (by simp [single])
  unfold Chip.ddrLost
  dsimp only
  rw [if_neg (by simp [frozen]), none, name]
  rfl

/-- A source raised already stays raised when the capacity is looked at (R197). -/
theorem Chip.watchCapacity_sticky (s before : Chip) {k : Nat} (other : k ≠ 58) : (s.watchCapacity before).sticky k = s.sticky k := by
  unfold Chip.watchCapacity
  split
  · exact Chip.raise_sticky_other _ _ _ _ _ other
  · rfl

theorem Chip.unpause_frame (s : Chip) : Frame [.lauter] s.unpause s := Frame.set_lauter (by decide) s _

/-- The end of a loss changes the channel's record and no other part of the DRAM unit, and no channel's state. -/
theorem Chip.lostSince_facts (u before : Chip) (n : Nat) :
    (u.lostSince before n).ddr n = { u.ddr n with freeze := 2, limit := false, poisonList := [] }
    ∧ (∀ j, j ≠ n → (u.lostSince before n).ddr j = u.ddr j) ∧ (u.lostSince before n).dram.alone = u.dram.alone
    ∧ (u.lostSince before n).lauter.chan = u.lauter.chan ∧ (∀ k, k ≠ 58 → (u.lostSince before n).sticky k = u.sticky k)
    ∧ Frame [.dram, .lauter, .mode, .fault, .heads, .field] (u.lostSince before n) u := by
  unfold Chip.lostSince
  generalize set : u.setDdr n { u.ddr n with freeze := 2, limit := false, poisonList := [] } = v
  have watched := v.watchCapacity_frame before
  have ended : Frame [.lauter, .mode] (v.watchCapacity before).unpause.refreshDiagnosis (v.watchCapacity before) :=
    ((Chip.refreshDiagnosis_frame _).mono (by decide)).trans ((Chip.unpause_frame _).mono (by decide))
  have dram : (v.watchCapacity before).unpause.refreshDiagnosis.dram = v.dram :=
    Eq.trans (ended .dram (by decide)) (watched .dram (by decide))
  have unpaused : (v.watchCapacity before).unpause.lauter.chan = (v.watchCapacity before).lauter.chan := rfl
  have chan : (v.watchCapacity before).unpause.refreshDiagnosis.lauter.chan = v.lauter.chan :=
    (congrArg LauterUnit.chan ((Chip.refreshDiagnosis_frame _).lauter (by decide))).trans
      (unpaused.trans (congrArg LauterUnit.chan (watched.lauter (by decide))))
  have sticky (k : Nat) (other : k ≠ 58) : (v.watchCapacity before).unpause.refreshDiagnosis.sticky k = v.sticky k :=
    Eq.trans (congrArg (fun f : FaultUnit => bitOf f.sticky k) (ended .fault (by decide))) (v.watchCapacity_sticky before other)
  have frame : Frame [.dram] v u := set ▸ Frame.set_dram (by decide) u _
  refine ⟨(Chip.ddr_of_dram dram n).trans ?_, fun j other => (Chip.ddr_of_dram dram j).trans ?_,
    (congrArg DramUnit.alone dram).trans ?_, chan.trans ?_, fun k other => (sticky k other).trans ?_,
    (ended.mono (by decide)).trans ((watched.mono (by decide)).trans (frame.mono (by decide)))⟩ <;> subst set
  · exact u.ddr_setDdr n _
  · exact u.ddr_setDdr_other _ other
  all_goals rfl

/-- The pair's bit is set, and source 97 raised. -/
theorem Chip.carryAlone_facts (s : Chip) (n : Nat) :
    (∀ j, (s.carryAlone n).ddr j = s.ddr j) ∧ bitOf (s.carryAlone n).dram.alone (n / 2) = true ∧ (s.carryAlone n).sticky 97 = true
    ∧ Frame [.dram, .fault, .heads, .field] (s.carryAlone n) s := by
  obtain ⟨dram, raised, frame⟩ := Chip.raise_on_dram (u := { s with dram := { s.dram with alone := setBit s.dram.alone (n / 2) true } })
    (Frame.set_dram (by decide) s _) 97
  exact ⟨Chip.ddr_of_dram (b := { s with dram := { s.dram with alone := setBit s.dram.alone (n / 2) true } }) dram,
    (congrArg (fun d : DramUnit => bitOf d.alone (n / 2)) dram).trans (bitOf_setBit _ _), raised, frame⟩

/-- Pages made POISONED keep the rest of their records. -/
theorem Chip.poisonPages_page (ps : List Nat) : ∀ (s : Chip) (q : Nat),
    (s.poisonPages ps).page q = if q ∈ ps then { s.page q with st := .poisoned } else s.page q := by
  induction ps with
  | nil => exact fun s q => (if_neg List.not_mem_nil).symm
  | cons p ps ih =>
    intro s q
    have one : (s.poisonPages (p :: ps)).page q = ((s.poisonPage p).poisonPages ps).page q := rfl
    rw [one, ih]
    by_cases own : q = p
    · subst own
      simp [Chip.poisonPage]
    · have same : (s.poisonPage p).page q = s.page q := s.commitPage_other p _ own
      simp [own, same]

/-- With no migration, the channel's pages are made POISONED and the channel OFFLINE. -/
theorem Chip.loseChannel_facts (s : Chip) (n : Nat) (still : s.lauter.slots = []) :
    (∀ p, (s.loseChannel n).page p = if p ∈ (s.pagesOn .ddr n).map (·.1) then { s.page p with st := .poisoned } else s.page p)
    ∧ (s.loseChannel n).chanState n = .offline ∧ Frame [.lauter, .kiln, .map] (s.loseChannel n) s := by
  have lost : s.loseChannel n = (s.poisonPages ((s.pagesOn .ddr n).map (·.1))).setChanState n .offline := by
    unfold Chip.loseChannel
    dsimp only
    rw [still]
    rfl
  have set := Chip.setChanState_lauter (s.poisonPages ((s.pagesOn .ddr n).map (·.1))) n .offline
  obtain ⟨-, -, -, frame⟩ := Chip.poisonPages_facts ((s.pagesOn .ddr n).map (·.1)) s
  rw [lost]
  exact ⟨fun p => (set.page (by decide) p).trans (s.poisonPages_page _ p), Chip.chanState_setChanState _ _ _,
    (set.mono (by decide)).trans frame⟩

/-! ### Set points (R287) -/

theorem Chip.freqRequest_requests (s : Chip) {v : Nat} (zero : bitsOf v 9 7 = 0)
    (ready : (maskChans (v % 256)).all (fun n => !s.frozen n && bitOf (s.ddr n).fspOk (bitsOf v 8 1)
      && decide (s.domain (chanDomain n) = .on)) = true) :
    s.freqRequest v = (0, s.requestOp (.ddrFreq (v % 256) (bitsOf v 8 1)) (s.cfg Obj.ddrFreqChangeUs)) := by
  have none : (maskChans (v % 256)).any (fun n => s.frozen n || !bitOf (s.ddr n).fspOk (bitsOf v 8 1)
      || decide (s.domain (chanDomain n) ≠ .on)) = false := by
    rw [← Bool.not_eq_true', List.not_any_eq_all_not, ← ready]
    simp
  unfold Chip.freqRequest
  dsimp only
  rw [if_neg (not_not_intro zero), none]
  rfl

/-! ### The persist reserve (R264) -/

/-- A size that the limits allow: the absorb limit stands with it, and the journal and what is committed fit (R264). -/
abbrev Chip.reserveFits (s : Chip) (v : Nat) : Prop :=
  4 * s.cfg Obj.lauterJournalKib ≤ v * 1024 ∧ s.committedMib ≤ s.cfg Obj.windowsAbsorbLimitMib
    ∧ s.cfg Obj.windowsAbsorbLimitMib ≤ 16384 - v ∧ s.mirrorBytes ≤ (16384 - v - s.cfg Obj.windowsAbsorbLimitMib) * mib

/-- A device that has noted the size its reserve changes from, and requested the change. -/
def Chip.reserveMoves (u : Chip) (old v us : Nat) : Chip :=
  Chip.requestOp { u with dram := { u.dram with reserveWas := some old } } (.reserve old v) us

theorem Chip.setReserve_requests (s : Chip) {v : Nat} (size : 64 ≤ v ∧ v ≤ 1024 ∧ v % 64 = 0) (idle : s.dram.reserveWas = none)
    (fits : s.reserveFits v) (ok : (s.sbAppend 1 (paramKey Obj.hbmPersistReserveMib) (bytesLE 4 v)).1 = true) :
    s.setReserve v = (0, ((s.sbAppend 1 (paramKey Obj.hbmPersistReserveMib) (bytesLE 4 v)).2.setRwp Obj.hbmPersistReserveMib v).reserveMoves
      (s.cfg Obj.hbmPersistReserveMib) v s.reserveChangeUs) := by
  obtain ⟨journal, committed, absorb, mirror⟩ := fits
  unfold Chip.setReserve
  dsimp only
  rw [Nat.min_eq_left absorb, if_neg (by omega), if_neg (by simp only [idle, Option.isSome_none, Bool.false_eq_true, false_or]; omega),
    s.commitRwp_ok _ 4 v ok]
  simp only [ne_eq, not_true_eq_false, if_false, if_true]
  rfl

/-- The change is queued, its old size noted, and of the DRAM unit nothing else changes. -/
theorem Chip.reserveMoves_facts (u : Chip) (old v us : Nat) :
    (u.reserveMoves old v us).dram = { u.dram with reserveWas := some old }
    ∧ (u.reserveMoves old v us).win.ops = u.win.ops ++ [⟨.reserve old v, us, 0⟩] ∧ Frame [.dram, .win] (u.reserveMoves old v us) u :=
  ⟨rfl, rfl, (Frame.set_win (by decide) { u with dram := { u.dram with reserveWas := some old } } _).trans (Frame.set_dram (by decide) u _)⟩

end Sys2Proof.Machine

open Sys2Proof Sys2Proof.Machine

/-- Settles O30. Each command is its handler in the state it needs; a loss ends alike for both kinds of channel, after its partner has taken
over or its pages are POISONED. -/
theorem ddr5ChannelsAreReleasedOrLost : Obligations.Ddr5ChannelsAreReleasedOrLost := by
  unfold Obligations.Ddr5ChannelsAreReleasedOrLost
  refine ⟨?release, ?retrains, ?fails, ?serving, ?mirrored, ?single, ?freq, ?reserve⟩
  case release =>
    intro s src ch acc frozen
    obtain ⟨x, woken, facts⟩ := s.chip.unfreeze_facts ch
    exact ⟨x, channelCommand_effect rfl acc ((s.chip.ddrRelease_frozen frozen).trans (congrArg (Prod.mk 0) woken)) rfl, facts⟩
  case retrains =>
    intro s src ch acc frozen
    obtain ⟨x, woken, facts⟩ := s.chip.unfreeze_facts ch
    exact ⟨x, channelCommand_effect rfl acc ((s.chip.ddrRetrain_frozen true frozen).trans (congrArg (Prod.mk 0) woken)) rfl, facts⟩
  case fails =>
    intro s src ch acc frozen
    exact ⟨_, dictCmd_effect rfl acc (by decide) (by decide) (s.chip.ddrRetrain_frozen false frozen), s.chip.ddr_setDdr ch _,
      fun j other => s.chip.ddr_setDdr_other _ other, Frame.set_dram (by decide) s.chip _⟩
  case serving =>
    intro s src ch acc serves
    exact dictCmd_effect rfl acc (by decide) (by decide) (s.chip.ddrRelease_serving serves)
  case mirrored =>
    intro s src ch q acc frozen pair
    obtain ⟨channels, alone, raised, carried⟩ := s.chip.carryAlone_facts ch
    obtain ⟨own, others, kept, -, sticky, ended⟩ := (s.chip.carryAlone ch).lostSince_facts s.chip ch
    have frame := (ended.mono (by decide)).trans (carried.mono (m := [.dram, .lauter, .mode, .fault, .heads, .field]) (by decide))
    refine ⟨_, channelCommand_effect rfl acc (s.chip.ddrLost_mirrored frozen pair) rfl, ?_,
      fun j other => (others j other).trans (channels j), frame.page (by decide), ?_, (sticky 97 (by decide)).trans raised, frame⟩
    · rw [own, channels]
    · rw [kept]
      exact alone
  case single =>
    intro s src ch acc frozen single still
    obtain ⟨pages, offline, lost⟩ := s.chip.loseChannel_facts ch still
    obtain ⟨own, others, -, chan, -, ended⟩ := (s.chip.loseChannel ch).lostSince_facts s.chip ch
    refine ⟨_, channelCommand_effect rfl acc (s.chip.ddrLost_single frozen single) rfl, ?_,
      fun j other => (others j other).trans (lost.ddr (by decide) j), fun p => (ended.page (by decide) p).trans (pages p),
      (Chip.chanState_of_chan chan ch).trans offline, (ended.mono (by decide)).trans (lost.mono (by decide))⟩
    rw [own, lost.ddr (by decide)]
  case freq =>
    intro s src v acc zero ready
    obtain ⟨win, frame⟩ := s.chip.requestOp_facts (.ddrFreq (v.toNat % 256) (bitsOf v.toNat 8 1)) (s.chip.cfg Obj.ddrFreqChangeUs)
    exact ⟨_, dictCmd_effect rfl acc (by decide) (by decide) (s.chip.freqRequest_requests zero ready), win, frame⟩
  case reserve =>
    intro s src v acc size idle journal committed absorb mirror ok
    obtain ⟨stored, value, -, -⟩ := s.chip.committed_facts Obj.hbmPersistReserveMib 4 v.toNat
    obtain ⟨dram, ops, moved⟩ := Chip.reserveMoves_facts
      ((s.chip.sbAppend 1 (paramKey Obj.hbmPersistReserveMib) (bytesLE 4 v.toNat)).2.setRwp Obj.hbmPersistReserveMib v.toNat)
      (s.chip.cfg Obj.hbmPersistReserveMib) v.toNat s.chip.reserveChangeUs
    refine ⟨_, dictCmd_effect rfl acc (by decide) (by decide) (s.chip.setReserve_requests size idle ⟨journal, committed, absorb, mirror⟩ ok),
      (congrArg (Tab.find · _) (moved .rwp (by decide))).trans value, ?_, ?_, (moved.mono (by decide)).trans (stored.mono (by decide))⟩
    · rw [dram]
      exact congrArg (fun d : DramUnit => { d with reserveWas := some (s.chip.cfg Obj.hbmPersistReserveMib) }) (stored .dram (by decide))
    · rw [ops]
      exact congrArg (fun w : WinUnit => w.ops ++ _) (stored .win (by decide))

end

section
/-!
PROOFS. Training helpers: the command that starts one, and what a completed one publishes and sets (R289, R290).
-/
namespace Sys2Proof.Machine

/-! ### Start (R289) -/

/-- The channel of helper command `v` may take it: it is OFFLINE and not frozen, or frozen and the command one that a frozen channel takes. -/
abbrev Chip.takesHelper (s : Chip) (v : Nat) : Prop :=
  (s.chanState (bitsOf v 8 3) = .offline ∧ s.frozen (bitsOf v 8 3) = false) ∨ (s.frozen (bitsOf v 8 3) = true ∧ s.frozenHelper v = true)

/-- The device whose helper runs command `v`. -/
def Chip.helping (s : Chip) (v : Nat) : Chip :=
  { s with dram := { s.dram with helper := { s.dram.helper with status := 1, cmd := v, steps := 0, value := 0, lanes := [] } } }

/-- A legal command that its channel may take starts, unless one runs. -/
theorem Chip.helperCommand_taken (s : Chip) {v : Nat} (ok : helperOk v = true) (takes : s.takesHelper v) :
    s.helperCommand v = if s.dram.helper.status = 1 then (Abort.resourceOwned, s) else (0, s.helping v) := by
  have may : ¬ (!(decide (s.chanState (bitsOf v 8 3) = .offline ∧ !s.frozen (bitsOf v 8 3)) || (s.frozen (bitsOf v 8 3) && s.frozenHelper v)))
      = true := by
    rcases takes with ⟨offline, thawed⟩ | ⟨frozen, area⟩
    · simp [offline, thawed]
    · simp [frozen, area]
  unfold Chip.helperCommand
  dsimp only
  rw [if_neg (by simp [ok]), if_neg may]
  rfl

/-- Each of the six helper commands starts so. -/
theorem helperCommand_effect {i : Instr} {s : State} {src : Src} {v : Nat}
    (run : Effect i s (s.chip.dictCmd src 0x5080 1 32 v (fun k => k.helperCommand v))) (acc : Accepts s.chip src 0x5080 1 32)
    (ok : helperOk v = true) (takes : s.chip.takesHelper v) (idle : s.chip.dram.helper.status ≠ 1) :
    ∃ t : Chip, Effect i s (t.answerWrite src 0x5080 1 (bytesLE 32 v) 0)
      ∧ t.dram.helper = { s.chip.dram.helper with status := 1, cmd := v, steps := 0, value := 0, lanes := [] }
      ∧ (∀ j : Nat, t.ddr j = s.chip.ddr j) ∧ Frame [.dram] t s.chip :=
  ⟨s.chip.helping v, dictCmd_effect run acc (by decide) (by decide) ((s.chip.helperCommand_taken ok takes).trans (if_neg idle)), rfl,
    fun _ => rfl, Frame.set_dram (by decide) s.chip _⟩

/-! ### Completion (R290) -/

/-- The lanes that a command's lane field names: one, or all 40. -/
def helperLanes (lane : Nat) : List Nat := if lane = 255 then List.range 40 else [lane]

theorem mem_helperLanes {lane l : Nat} (named : if lane = 255 then l < 40 else l = lane) : l ∈ helperLanes lane := by
  unfold helperLanes
  split at named
  · next all => simpa [all] using named
  · next one => simp [one, named]

/-- The parameters after a command with operation `op`: SET_DELAY has set its own on its lanes. -/
def Chip.helperParams (s : Chip) (cmd op ch lane : Nat) : Tab Nat :=
  if op = 4 then (helperLanes lane).foldl (fun t l => Tab.set t (paramSlot ch (s.ddr ch).fsp (bitsOf cmd 11 1) (bitsOf cmd 160 8) l)
    (bitsOf cmd 176 16)) s.dram.helper.params
  else s.dram.helper.params

/-- The mode registers after a command with operation `op`: MRW has set its own. -/
def Chip.helperRegs (s : Chip) (cmd op ch : Nat) : Tab Nat :=
  if op = 5 then Tab.set s.dram.helper.modeRegs ((ch * 256 + bitsOf cmd 16 8) * 256 + bitsOf cmd 32 8) (bitsOf cmd 40 8)
  else s.dram.helper.modeRegs

/-- The device once the helper that runs has completed as `run` says. -/
def Chip.helperDone (s : Chip) (run : HelperRun) (cmd op ch lane : Nat) : Chip :=
  { s with dram := { s.dram with helper := {
      status := 2, cmd := cmd, steps := run.steps.toNat, value := if op = 6 then run.value.toNat else 0, lanes := run.lanes.take 40
      params := s.helperParams cmd op ch lane, modeRegs := s.helperRegs cmd op ch } } }

theorem Chip.helperComplete_runs (s : Chip) (run : HelperRun) {op ch lane : Nat} (runs : s.dram.helper.status = 1)
    (opcode : op = bitsOf s.dram.helper.cmd 0 8) (channel : ch = bitsOf s.dram.helper.cmd 8 3) (lanes : lane = bitsOf s.dram.helper.cmd 168 8) :
    s.helperComplete run = s.helperDone run s.dram.helper.cmd op ch lane := by
  subst opcode channel lanes
  exact if_neg (not_not_intro runs)

/-- One value set at the key of each member of a list is read at each of those keys. -/
theorem Tab.find_setEach {α : Type} (v : α) (key : Nat → Nat) : ∀ (ls : List Nat) (t : Tab α) {l : Nat}, l ∈ ls →
    Tab.find (ls.foldl (fun t l => Tab.set t (key l) v) t) (key l) = some v := by
  intro ls
  induction ls using List.reverseRecOn with
  | nil => exact fun _ _ mem => absurd mem List.not_mem_nil
  | append_singleton ls a ih =>
    intro t l mem
    rw [List.foldl_append, List.foldl_cons, List.foldl_nil]
    by_cases same : key l = key a
    · rw [same, Tab.find_set_same]
    · rw [Tab.find_set_other _ _ same]
      have earlier : l ∈ ls := (List.mem_append.mp mem).resolve_right fun last => same (congrArg key (List.mem_singleton.mp last))
      exact ih t earlier

theorem Chip.helperParams_setDelay (s : Chip) (cmd ch : Nat) {lane l : Nat} (named : if lane = 255 then l < 40 else l = lane) :
    Tab.find (s.helperParams cmd 4 ch lane) (paramSlot ch (s.ddr ch).fsp (bitsOf cmd 11 1) (bitsOf cmd 160 8) l)
      = some (bitsOf cmd 176 16) :=
  Tab.find_setEach _ (paramSlot ch (s.ddr ch).fsp (bitsOf cmd 11 1) (bitsOf cmd 160 8)) _ _ (mem_helperLanes named)

end Sys2Proof.Machine

open Sys2Proof Sys2Proof.Machine

/-- Settles O31. The six commands start by one lemma, each with its own operation code; a completion is `Chip.helperDone`, whose tables change for
SET_DELAY and MRW alone. -/
theorem trainingHelpersRunAndReport : Obligations.TrainingHelpersRunAndReport := by
  unfold Obligations.TrainingHelpersRunAndReport
  refine ⟨fun _ _ _ => helperCommand_effect rfl, fun _ _ _ => helperCommand_effect rfl, fun _ _ _ => helperCommand_effect rfl,
    fun _ _ _ => helperCommand_effect rfl, fun _ _ _ => helperCommand_effect rfl, fun _ _ _ => helperCommand_effect rfl, ?owned, ?complete⟩
  case owned =>
    intro s src args acc ok offline thawed runs
    exact dictCmd_effect rfl acc (by decide) (by decide) ((s.chip.helperCommand_taken ok (.inl ⟨offline, thawed⟩)).trans (if_pos runs))
  case complete =>
    intro s run op ch lane runs opcode channel lanes
    refine ⟨_, Effect.of_eq rfl (s.chip.helperComplete_runs run runs opcode channel lanes), rfl, rfl, rfl, rfl, ?_,
      fun other => if_neg other, ?_, fun other => if_neg other, fun _ => rfl, Frame.set_dram (by decide) s.chip _⟩
    · rintro rfl l named
      exact s.chip.helperParams_setDelay _ _ named
    · rintro rfl
      exact Tab.find_set_same _ _ _

end

section
/-!
PROOFS. Page writes of the non-volatile tier (R305, R307 to R309, R317 to R320, R323): how a program starts, commits, repeats, pauses and is
aborted.
-/
namespace Sys2Proof.Machine

/-! ### A program and its place (R308, R317) -/

/-- The device without program `i`. -/
def Chip.dropProg (s : Chip) (i : Nat) : Chip := { s with kiln := { s.kiln with progs := Tab.del s.kiln.progs i } }

theorem Chip.modProg_frame (s : Chip) (i : Nat) (g : Prog) : Frame [.kiln] (s.modProg i g) s := Frame.set_kiln (by decide) s _

/-- A program noted and its unit placed: of Kiln, the programs and the blocks alone change, and the unit's block goes on after it (R308). -/
theorem Chip.placedProg_facts (s : Chip) (i : Nat) (g : Prog) (ch loc n : Nat) :
    let t := (s.modProg i g).placeUnit ch loc n
    t.kiln.progs = Tab.set s.kiln.progs i g ∧ t.kiln.absorbed = s.kiln.absorbed ∧ t.kiln.suspendAborts = s.kiln.suspendAborts
      ∧ (t.blk ch (loc / 32768)).opened = true ∧ (t.blk ch (loc / 32768)).next = loc % 32768 + n
      ∧ Frame [.kiln, .fault, .heads, .field] t s := by
  obtain ⟨only, opened, next⟩ := (s.modProg i g).placeUnit_facts ch loc n
  obtain ⟨progs, absorbed, aborts⟩ := only.same
  exact ⟨progs, absorbed, aborts, opened, next, only.1.trans ((s.modProg_frame i g).mono (by decide))⟩

/-! ### PAGE_WRITE (R309, R317, R323) -/

/-- A write of page `p` may start as program `i`: the program is free, the page, the time, the reason and the channel are right, and the channel
has room for one more. -/
abbrev Chip.mayWrite (s : Chip) (i p : Nat) (why : PgWhy) (ch : Nat) : Prop :=
  Tab.find s.kiln.progs i = none ∧ s.drainable p = true ∧ s.moveTime = true ∧ s.pruneOlds.writeReason p why = true
    ∧ s.pruneOlds.writeChan (s.page p) ch = true ∧ s.progsOn ch < s.cfg Obj.kilnMaxPrograms

/-- The grist that Mill builds of the page with the captured lines `data` over it and the lines `bad` poisoned (R309 step 3). -/
abbrev Chip.mergedGrist (s : Chip) (p bad : Nat) (data : Tab Line) : List Byte :=
  (s.mergedPage p bad data).storedGrist p (s.accessRegion (4096 * p))

/-- The form in which a page is written: a verbatim copy keeps its own (R309 step 3, R311). -/
abbrev Chip.writeForm (s : Chip) (r : PageRec) (p : Nat) (why : PgWhy) (bad : Nat) (data : Tab Line) : Bool × Nat :=
  if why = .verbatim then (r.grist, r.sectors) else gristForm (s.mergedGrist p bad data)

/-- The program of a write of page `p`, whose record is `old`; `merged` is the device whose lines are captured, and `s` the device after. -/
def Chip.newProg (s merged : Chip) (old : PageRec) (p : Nat) (why : PgWhy) (ch loc bad : Nat) (data : Tab Line) : Prog :=
  { page := p, why := why, old := old, ch := ch, loc := loc
    grist := (s.writeForm old p why bad data).1, sectors := (s.writeForm old p why bad data).2
    captured := merged.toCapture p why, changed := 0, data := data
    poison := (List.range 64).filter (fun k => bitOf bad k)
      ++ (List.range 64).filter (fun k => bitOf (merged.toCapture p why) k && merged.poisoned (64 * (64 * p + k)))
    since := s.tb.tc
    image := if why = .verbatim then s.gristOf p else s.mergedGrist p bad data }

theorem Chip.newProg_poison (s merged : Chip) (old : PageRec) (p : Nat) (why : PgWhy) (ch loc bad : Nat) (data : Tab Line) {k : Nat}
    (low : k < 64) (lost : bitOf bad k = true) : k ∈ (s.newProg merged old p why ch loc bad data).poison :=
  List.mem_append_left _ (List.mem_filter.mpr ⟨List.mem_range.mpr low, lost⟩)

/-- A write that may start, whose records are whole and which the rules give the place `loc`, starts its program there. -/
theorem Chip.pageWrite_starts (s : Chip) (i p : Nat) (why : PgWhy) (ch loc : Nat) (obs : List (Fin 64 × Obs)) {used merged u : Chip} {bad : Nat}
    {data : Tab Line} (may : s.mayWrite i p why ch) (own : s.pruneOlds.useOwn p = (true, used)) (reads : used.mergeRead p why obs = (bad, merged))
    (captures : merged.captureLines p (merged.toCapture p why) = (data, u))
    (place : u.placeOk ch loc (u.unitLines p (u.writeForm (s.page p) p why bad data)) = true)
    (bank : u.leastBank ch loc (u.unitLines p (u.writeForm (s.page p) p why bad data)) = true) :
    s.pageWrite i p why ch loc obs = (u.modProg i (u.newProg merged (s.page p) p why ch loc bad data)).placeUnit ch loc
      (u.unitLines p (u.writeForm (s.page p) p why bad data)) := by
  obtain ⟨free, rests, time, reason, chan, room⟩ := may
  have goes : ¬ ((Tab.find s.pruneOlds.kiln.progs i).isSome ∨ !s.pruneOlds.drainable p ∨ !s.pruneOlds.moveTime
      ∨ !s.pruneOlds.writeReason p why ∨ !s.pruneOlds.writeChan (s.pruneOlds.page p) ch
      ∨ s.pruneOlds.cfg Obj.kilnMaxPrograms ≤ s.pruneOlds.progsOn ch) := by
    rw [reason, show s.pruneOlds.writeChan (s.pruneOlds.page p) ch = true from chan, show Tab.find s.pruneOlds.kiln.progs i = none from free,
      show s.pruneOlds.drainable p = true from rests, show s.pruneOlds.moveTime = true from time]
    have few : s.pruneOlds.progsOn ch < s.pruneOlds.cfg Obj.kilnMaxPrograms := room
    simpa using few
  have form : (if why = .verbatim then ((s.page p).grist, (s.page p).sectors)
      else gristForm (if why = .verbatim then u.gristOf p else u.mergedGrist p bad data)) = u.writeForm (s.page p) p why bad data := by
    by_cases copy : why = .verbatim <;> simp [copy]
  unfold Chip.pageWrite
  dsimp only
  rw [if_neg goes, own]
  dsimp only
  rw [if_pos rfl, reads]
  dsimp only
  rw [captures]
  dsimp only
  rw [show s.pruneOlds.page p = s.page p from rfl, form, if_neg (by simp), if_neg (by simp [place, bank])]
  rfl

/-! ### PROGRAM_COMPLETE (R307, R309) -/

/-- STATUS of program `g` may be read: it runs, outside a BURST window and its prologue (R319). -/
abbrev Chip.mayComplete (s : Chip) (g : Prog) : Prop := g.suspended = false ∧ s.inBurst = false ∧ s.win.prologueOn = false

/-- The page record that program `g` commits (R309 step 5). -/
abbrev Chip.writtenRec (s : Chip) (g : Prog) : PageRec :=
  { s.page g.page with ch := g.ch, loc := g.loc, grist := g.grist, sectors := g.sectors, gen := ((s.page g.page).gen + 1) % 16 }

/-- A completion goes on to the end of its program. -/
theorem Chip.programComplete_goes (s : Chip) {i : Nat} {g : Prog} (run : Tab.find s.kiln.progs i = some g) (may : s.mayComplete g) (loc : Nat) :
    s.programComplete i true loc = if s.page g.page ≠ g.old then s.dropProg i else if !s.journalRoom 1 then s
      else ((s.commitWrite g).dropProg i).watchCapacity s := by
  obtain ⟨runs, calm, after⟩ := may
  unfold Chip.programComplete
  rw [run]
  dsimp only
  rw [if_neg (by simp [runs, calm, after])]
  rfl

/-- The commit of a verified program, as the device shows it: the record, the journal entry, the old place, the programs and the absorbed lines
(R309 steps 5 to 7). -/
theorem Chip.commitWrite_dropProg_facts (s : Chip) (i : Nat) (g : Prog) (rests : (s.page g.page).st ≠ .migrating) (room : s.journalRoom 1 = true) :
    let t := ((s.commitWrite g).dropProg i).watchCapacity s
    t.page g.page = s.writtenRec g ∧ (∀ q, q ≠ g.page → t.page q = s.page q)
    ∧ t.lauter.journal = s.lauter.journal ++ [⟨s.lauter.jseq, 1, 0, s.pageTarget g.page, (s.writtenRec g).payload⟩]
    ∧ t.kiln.olds = s.kiln.olds ++ [s.oldPlace g s.lauter.jseq]
    ∧ (∀ j, Tab.find t.kiln.progs j = if j = i then none else Tab.find s.kiln.progs j)
    ∧ (∀ q, q ≠ g.page → Tab.find t.kiln.absorbed q = Tab.find s.kiln.absorbed q)
    ∧ (∀ x, Tab.find s.kiln.absorbed g.page = some x → ∃ m, (∀ k, k < 64 →
          bitOf m k = (bitOf x.mask k && !(bitOf g.captured k && !bitOf g.changed k)))
        ∧ Tab.find t.kiln.absorbed g.page = if m = 0 then none else some { x with mask := m })
    ∧ Frame [.lauter, .kiln, .map, .poison, .integ, .macs, .mill, .fault, .heads, .field] t s := by
  intro t
  obtain ⟨frame, page, others, lauter, progs, olds, absorbed, mask⟩ := s.commitWrite_facts g
  have drops : Frame [.kiln] ((s.commitWrite g).dropProg i) (s.commitWrite g) := Frame.set_kiln (by decide) _ _
  have watched : Frame [.fault, .heads, .field] t ((s.commitWrite g).dropProg i) := Chip.watchCapacity_frame _ s
  have pages (q : Nat) : t.page q = (s.commitWrite g).page q := (watched.page (by decide) q).trans (drops.page (by decide) q)
  have engine : t.lauter = (s.commitPage g.page (s.writtenRec g)).lauter :=
    (watched.lauter (by decide)).trans ((drops.lauter (by decide)).trans lauter)
  have kiln : t.kiln = ((s.commitWrite g).dropProg i).kiln := watched .kiln (by decide)
  refine ⟨(pages _).trans page, fun q other => (pages q).trans (others q other), ?_, ?_, fun j => ?_, fun q other => ?_, fun x held => ?_,
    (watched.mono (by decide)).trans ((drops.mono (by decide)).trans (frame.mono (by decide)))⟩
  · rw [engine, s.commitPage_lauter g.page (s.writtenRec g) room, if_neg rests, if_neg rests]
  · rw [kiln]
    exact olds
  · rw [kiln]
    exact (Tab.find_del _ i j).trans (congrArg (fun ps => if j = i then none else Tab.find ps j) progs)
  · rw [kiln]
    exact absorbed q other
  · rw [kiln]
    exact mask x held

/-- The device once program `g` has failed its verify: its block is SUSPECT and closed, and the failure is counted and logged (R307). -/
abbrev Chip.failedProg (s : Chip) (g : Prog) : Chip :=
  ((s.setBlk g.ch (g.loc / 32768) { s.blk g.ch (g.loc / 32768) with suspect := true, opened := false, next := 0 }).setNvm g.ch
    { s.nvm g.ch with programFails := (s.nvm g.ch).programFails + 1 }).retEntry 8 3 g.ch 2 0 (nvmUnit g.ch 2 g.loc) g.page 0xFF 0

/-- The log's entries leave all but the log alone. -/
theorem Chip.retEntry_frame (s : Chip) (kind tier ch origin symbols retire page device count : Nat) :
    Frame [.integ] (s.retEntry kind tier ch origin symbols retire page device count) s := s.retAppend_frame _

theorem Chip.blk_of_kiln {a b : Chip} (same : a.kiln = b.kiln) (ch n : Nat) : a.blk ch n = b.blk ch n := by
  unfold Chip.blk
  rw [same]

theorem Chip.nvm_of_chans {a b : Chip} (same : a.kiln.chans = b.kiln.chans) (n : Nat) : a.nvm n = b.nvm n := by
  unfold Chip.nvm
  rw [same]

theorem Chip.failedProg_facts (s : Chip) (g : Prog) :
    (s.failedProg g).blk g.ch (g.loc / 32768) = { s.blk g.ch (g.loc / 32768) with suspect := true, opened := false, next := 0 }
    ∧ (s.failedProg g).nvm g.ch = { s.nvm g.ch with programFails := (s.nvm g.ch).programFails + 1 }
    ∧ (s.failedProg g).kiln.progs = s.kiln.progs ∧ Frame [.kiln, .integ] (s.failedProg g) s := by
  have logged := Chip.retEntry_frame ((s.setBlk g.ch (g.loc / 32768)
    { s.blk g.ch (g.loc / 32768) with suspect := true, opened := false, next := 0 }).setNvm g.ch
    { s.nvm g.ch with programFails := (s.nvm g.ch).programFails + 1 }) 8 3 g.ch 2 0 (nvmUnit g.ch 2 g.loc) g.page 0xFF 0
  have kiln := logged .kiln (by decide)
  simp only [Part.same] at kiln
  exact ⟨(Chip.blk_of_kiln kiln _ _).trans (s.blk_setBlk _ _ _), (Chip.nvm_of_chans (congrArg KilnUnit.chans kiln) _).trans (Chip.nvm_setNvm _ _ _),
    (congrArg KilnUnit.progs kiln).trans rfl,
    (logged.mono (by decide)).trans ((Frame.set_kiln (by decide) _ _).trans (Frame.set_kiln (by decide) s _))⟩

/-- A program that failed is programmed again at the place given, or goes where nothing may be placed there (R307). -/
theorem Chip.programComplete_failed (s : Chip) {i : Nat} {g : Prog} (run : Tab.find s.kiln.progs i = some g) (may : s.mayComplete g) (loc : Nat) :
    s.programComplete i false loc
      = if !(s.failedProg g).placeOk g.ch loc ((s.failedProg g).unitLines g.page (g.grist, g.sectors)) then (s.failedProg g).dropProg i
        else ((s.failedProg g).modProg i { g with loc := loc }).placeUnit g.ch loc ((s.failedProg g).unitLines g.page (g.grist, g.sectors)) := by
  obtain ⟨runs, calm, after⟩ := may
  unfold Chip.programComplete
  rw [run]
  dsimp only
  rw [if_neg (by simp [runs, calm, after]), if_pos (by rfl)]
  rfl

/-! ### Suspend, resume and abort (R318 to R320) -/

theorem Chip.programSuspend_runs (s : Chip) {i : Nat} {g : Prog} (run : Tab.find s.kiln.progs i = some g) (runs : g.suspended = false) :
    s.programSuspend i = { s with kiln := { s.kiln with
      suspends := s.kiln.suspends + 1, progs := Tab.set s.kiln.progs i { g with suspended := true } } } := by
  unfold Chip.programSuspend
  rw [run]
  exact if_neg (by simp [runs])

theorem Chip.programResume_waits (s : Chip) {i : Nat} {g : Prog} (run : Tab.find s.kiln.progs i = some g) (waits : g.suspended = true)
    (stays : g.pending = false) (calm : s.inBurst = false) (after : s.win.prologueOn = false) :
    s.programResume i = s.modProg i { g with suspended := false } := by
  unfold Chip.programResume
  rw [run]
  exact if_neg (by simp [waits, stays, calm, after])

theorem Chip.programAbort_again (s : Chip) {i loc : Nat} {g : Prog} (run : Tab.find s.kiln.progs i = some g) (waits : g.suspended = true)
    (time : s.moveTime = true) (after : s.win.prologueOn = false)
    (place : s.placeOk g.ch loc (s.unitLines g.page (g.grist, g.sectors)) = true) :
    s.programAbort i loc = (({ s with kiln := { s.kiln with suspendAborts := s.kiln.suspendAborts + 1 } } : Chip).modProg i
      { g with loc := loc, suspended := false, pending := false }).placeUnit g.ch loc (s.unitLines g.page (g.grist, g.sectors)) := by
  unfold Chip.programAbort
  rw [run]
  dsimp only
  rw [if_neg (by simp [waits]), if_neg (by simp [time, after]), if_neg (by simp [place])]

/-- From the write fence of a BURST window to its end an abort is kept for later (R320). -/
theorem Chip.programAbort_pends (s : Chip) (loc : Nat) {i : Nat} {g : Prog} (run : Tab.find s.kiln.progs i = some g) (waits : g.suspended = true)
    (burst : s.moveTime = false ∨ s.win.prologueOn = true) : s.programAbort i loc = s.modProg i { g with pending := true } := by
  unfold Chip.programAbort
  rw [run]
  dsimp only
  rw [if_neg (by simp [waits]), if_pos (by simpa using burst)]

end Sys2Proof.Machine

open Sys2Proof Sys2Proof.Machine

/-- Settles O32. A write, a repeat and an abort end alike, with a program noted and its unit placed; a verified program is `Chip.commitWrite`. -/
theorem pagesAreWrittenOutOfPlace : Obligations.PagesAreWrittenOutOfPlace := by
  unfold Obligations.PagesAreWrittenOutOfPlace
  refine ⟨?starts, ?commits, ?stale, ?failed, ?alert, ?suspend, ?resume, ?again, ?pends⟩
  case starts =>
    rintro s prog page why ch loc obs used merged u bad data form free rests time reason chan room own reads captures rfl place bank
    obtain ⟨progs, absorbed, -, opened, next, frame⟩ := u.placedProg_facts prog
      (u.newProg merged (s.chip.page page.toNat) page.toNat why ch loc.toNat bad data) ch loc.toNat
      (u.unitLines page.toNat (u.writeForm (s.chip.page page.toNat) page.toNat why bad data))
    refine ⟨_, u.newProg merged (s.chip.page page.toNat) page.toNat why ch loc.toNat bad data, Effect.of_eq rfl
      (s.chip.pageWrite_starts prog page.toNat why ch loc.toNat obs ⟨free, rests, time, reason, chan, room⟩ own reads captures place bank),
      ?_, rfl, rfl, rfl, rfl, rfl, rfl, rfl, rfl, rfl, fun k low lost => u.newProg_poison _ _ _ _ _ _ _ _ low lost, fun new => if_neg new,
      fun j other => ?_, absorbed, opened, next, frame⟩
    · rw [progs]
      exact Tab.find_set_same _ _ _
    · rw [progs]
      exact Tab.find_set_other _ _ other
  case commits =>
    intro s prog loc g run runs calm after same rests room
    obtain ⟨page, others, journal, rest⟩ := s.chip.commitWrite_dropProg_facts prog g (same ▸ rests) room
    refine ⟨_, Effect.of_eq rfl ((s.chip.programComplete_goes run ⟨runs, calm, after⟩ loc.toNat).trans
      ((if_neg (not_not_intro same)).trans (if_neg (by simp [room])))), page, others, ?_, rest⟩
    rw [page]
    exact journal
  case stale =>
    intro s prog loc g run runs calm after changed
    exact Effect.of_eq rfl ((s.chip.programComplete_goes run ⟨runs, calm, after⟩ loc.toNat).trans (if_pos changed))
  case failed =>
    rintro s prog loc g y run runs calm after rfl
    obtain ⟨block, count, progs, frame⟩ := s.chip.failedProg_facts g
    have ends := s.chip.programComplete_failed run ⟨runs, calm, after⟩ loc.toNat
    by_cases place : (s.chip.failedProg g).placeOk g.ch loc.toNat ((s.chip.failedProg g).unitLines g.page (g.grist, g.sectors)) = true
    · obtain ⟨set, -, -, opened, next, placed⟩ := (s.chip.failedProg g).placedProg_facts prog { g with loc := loc.toNat } g.ch loc.toNat
        ((s.chip.failedProg g).unitLines g.page (g.grist, g.sectors))
      exact ⟨_, Effect.of_eq rfl (ends.trans (if_neg (by simp [place]))), block, count, frame,
        fun _ => ⟨set.trans (congrArg (Tab.set · _ _) progs), opened, next⟩, fun no => absurd place (by simp [no]), placed⟩
    · refine ⟨_, Effect.of_eq rfl (ends.trans (if_pos (by simp [place]))), block, count, frame, fun yes => absurd yes place, fun _ => ?_,
        Frame.set_kiln (by decide) _ _⟩
      rw [← progs]
      rfl
  case alert => exact fun _ _ _ => rfl
  case suspend =>
    intro s prog g run runs
    exact Effect.of_eq rfl (s.chip.programSuspend_runs run runs)
  case resume =>
    intro s prog g run waits stays calm after
    exact Effect.of_eq rfl (s.chip.programResume_waits run waits stays calm after)
  case again =>
    intro s prog loc g run waits time after place
    obtain ⟨progs, absorbed, aborts, -, -, frame⟩ := Chip.placedProg_facts
      { s.chip with kiln := { s.chip.kiln with suspendAborts := s.chip.kiln.suspendAborts + 1 } } prog
      { g with loc := loc.toNat, suspended := false, pending := false } g.ch loc.toNat (s.chip.unitLines g.page (g.grist, g.sectors))
    refine ⟨_, Effect.of_eq rfl (s.chip.programAbort_again run waits time after place), ?_, fun j other => ?_, aborts, absorbed,
      frame.trans (Frame.set_kiln (by decide) s.chip _)⟩
    · rw [progs]
      exact Tab.find_set_same _ _ _
    · rw [progs]
      exact Tab.find_set_other _ _ other
  case pends =>
    intro s prog loc g run waits burst
    exact Effect.of_eq rfl (s.chip.programAbort_pends loc.toNat run waits burst)

end

section
/-!
PROOFS. Care of the non-volatile media (R306, R308, R311, R314, R315), FORMAT (R333) and the end of a flush (R327, R527).
-/
namespace Sys2Proof.Machine

/-! ### MEDIA_RESCUE (R306) -/

/-- The device that has taken line `ln` of page `p`, whose record is `r`, off the rescue queue, marked the page to be written again, and queued
its block for a sweep. -/
def Chip.rescueTaken (s : Chip) (ln p : Nat) (r : PageRec) : Chip :=
  Chip.queueWitness { s with kiln := { s.kiln with
    rescue := s.kiln.rescue.filter (fun k => decide (k ≠ ln))
    rewrites := if s.kiln.rewrites.contains p then s.kiln.rewrites else s.kiln.rewrites ++ [p] } } (blkKey r.ch (r.loc + ln % 64))

/-- A block joins the queue of sweeps unless the queue is full; of Kiln nothing else changes but the count of those dropped (R314). -/
theorem Chip.queueWitness_facts (s : Chip) (b : Nat) :
    (∃ w n, (s.queueWitness b).kiln = { s.kiln with witness := w, witnessDropped := n } ∧ (b ∈ w ∨ 256 ≤ s.kiln.witness.length))
    ∧ Frame [.kiln] (s.queueWitness b) s := by
  unfold Chip.queueWitness
  by_cases queued : b ∈ s.kiln.witness
  · rw [if_pos (List.contains_iff_mem.mpr queued)]
    exact ⟨⟨_, _, rfl, .inl queued⟩, Frame.refl _ _⟩
  · rw [if_neg (by simpa using queued)]
    by_cases room : s.kiln.witness.length < 256
    · rw [if_pos room]
      exact ⟨⟨_, _, rfl, .inl (by simp)⟩, Frame.set_kiln (by decide) s _⟩
    · rw [if_neg room]
      exact ⟨⟨_, _, rfl, .inr (by omega)⟩, Frame.set_kiln (by decide) s _⟩

/-- What the taking leaves: the queues, the channels, the absorbed lines, and nothing but Kiln changed. -/
theorem Chip.rescueTaken_facts (s : Chip) (ln p : Nat) (r : PageRec) :
    let t := s.rescueTaken ln p r
    ln ∉ t.kiln.rescue ∧ p ∈ t.kiln.rewrites ∧ (blkKey r.ch (r.loc + ln % 64) ∈ t.kiln.witness ∨ 256 ≤ s.kiln.witness.length)
      ∧ t.kiln.chans = s.kiln.chans ∧ t.kiln.absorbed = s.kiln.absorbed ∧ Frame [.kiln] t s := by
  intro t
  obtain ⟨⟨w, n, kiln, queued⟩, frame⟩ := Chip.queueWitness_facts { s with kiln := { s.kiln with
    rescue := s.kiln.rescue.filter (fun k => decide (k ≠ ln))
    rewrites := if s.kiln.rewrites.contains p then s.kiln.rewrites else s.kiln.rewrites ++ [p] } } (blkKey r.ch (r.loc + ln % 64))
  have same : t.kiln = _ := kiln
  rw [same]
  refine ⟨by simp, ?_, queued, rfl, rfl, frame.trans (Frame.set_kiln (by decide) s _)⟩
  by_cases marked : p ∈ s.kiln.rewrites <;> simp [marked]

theorem Chip.rescueTaken_nvm (s : Chip) (ln p : Nat) (r : PageRec) (n : Nat) : (s.rescueTaken ln p r).nvm n = s.nvm n := by
  obtain ⟨-, -, -, chans, -, -⟩ := s.rescueTaken_facts ln p r
  exact Chip.nvm_of_chans chans n

/-- The device whose rescue of line `ln` is counted in the record `x` of its channel, and logged. -/
def Chip.rescueCounted (s : Chip) (ln : Nat) (r : PageRec) (x : NvmChan) (kind : Nat) : Chip :=
  ((s.rescueTaken ln (ln / 64) r).setNvm r.ch x).retEntry kind 3 r.ch 2 0 (nvmUnit r.ch 1 r.loc) (ln / 64) 0xFF 0

theorem Chip.rescueCounted_facts (s : Chip) (ln : Nat) (r : PageRec) (x : NvmChan) (kind : Nat) :
    let t := s.rescueCounted ln r x kind
    ln ∉ t.kiln.rescue ∧ ln / 64 ∈ t.kiln.rewrites ∧ (blkKey r.ch (r.loc + ln % 64) ∈ t.kiln.witness ∨ 256 ≤ s.kiln.witness.length)
      ∧ t.nvm r.ch = x ∧ t.kiln.absorbed = s.kiln.absorbed ∧ Frame [.kiln, .integ] t s := by
  intro t
  obtain ⟨off, marked, queued, -, absorbed, taken⟩ := s.rescueTaken_facts ln (ln / 64) r
  have logged : Frame [.integ] t ((s.rescueTaken ln (ln / 64) r).setNvm r.ch x) := Chip.retEntry_frame _ _ _ _ _ _ _ _ _ _
  have kiln : t.kiln = ((s.rescueTaken ln (ln / 64) r).setNvm r.ch x).kiln := logged .kiln (by decide)
  rw [Chip.nvm_of_chans (congrArg KilnUnit.chans kiln), kiln]
  exact ⟨off, marked, queued, Chip.nvm_setNvm _ _ _, absorbed,
    (logged.mono (by decide)).trans ((Frame.set_kiln (by decide) _ _).trans (taken.mono (by decide)))⟩

/-- A queued line of a page on the media is rescued outside a BURST window and its prologue. -/
abbrev Chip.mayRescue (s : Chip) (ln : Nat) (r : PageRec) : Prop :=
  s.mediaTime = true ∧ ln ∈ s.kiln.rescue ∧ s.page (ln / 64) = r ∧ r.st = .nvm ∧ r.loc ≠ pendingLoc

/-- Such a rescue counts the line as rescued where a re-read decodes it, else as uncorrectable, with the line poisoned as the medium holds it. -/
theorem Chip.mediaRescue_acts (s : Chip) (dla : Nat) (decoded : Bool) {r : PageRec} (may : s.mayRescue (lineNo dla) r) :
    s.mediaRescue dla decoded =
      if decoded then s.rescueCounted (lineNo dla) r { s.nvm r.ch with rescued := (s.nvm r.ch).rescued + 1 } 6
      else (s.rescueCounted (lineNo dla) r { s.nvm r.ch with uncorrectable := (s.nvm r.ch).uncorrectable + 1 } 7).poisonStored dla := by
  obtain ⟨time, queued, rfl, rests, placed⟩ := may
  unfold Chip.mediaRescue
  dsimp only
  rw [if_neg (by simp [time, queued]), if_neg (by simp [rests, placed]),
    ← s.rescueTaken_nvm (lineNo dla) (lineNo dla / 64) (s.page (lineNo dla / 64))]
  rfl

theorem Chip.poisoned_setPoison (s : Chip) (a : Nat) (b : Bool) : (s.setPoison a b).poisoned a = b := by
  unfold Chip.setPoison Chip.poisoned
  exact Tab.get_put_same false _ _ _

/-- A line whose newer version is neither absorbed nor dirty in the cache is poisoned itself; any other as the medium holds it (R306). -/
theorem Chip.poisonStored_marks (s : Chip) (dla : Nat) :
    (s.isAbsorbed dla = false ∧ s.cachedDirty dla = false → (s.poisonStored dla).poisoned dla = true)
    ∧ (s.isAbsorbed dla = true ∨ s.cachedDirty dla = true → Tab.find (s.poisonStored dla).kiln.mediaPoison (lineNo dla) = some true) := by
  unfold Chip.poisonStored
  constructor
  · rintro ⟨absorbed, dirty⟩
    rw [if_neg (by simp [absorbed, dirty])]
    exact s.poisoned_setPoison dla true
  · intro newer
    rw [if_pos (by simpa using newer)]
    exact Tab.find_set_same _ _ _

/-- Poison on what the medium holds leaves Kiln's queues and its channels as they were. -/
theorem Chip.poisonStored_queues (s : Chip) (dla : Nat) :
    (s.poisonStored dla).kiln.rescue = s.kiln.rescue ∧ (s.poisonStored dla).kiln.rewrites = s.kiln.rewrites
      ∧ (s.poisonStored dla).kiln.witness = s.kiln.witness ∧ (s.poisonStored dla).kiln.chans = s.kiln.chans := by
  obtain ⟨-, m, kiln⟩ := s.poisonStored_frame dla
  rw [kiln]
  exact ⟨rfl, rfl, rfl, rfl⟩

/-- A line found uncorrectable: it is off its queue and poisoned as the medium holds it, its page and block are marked, and it is counted. -/
theorem Chip.rescueLost_facts (s : Chip) (dla : Nat) (r : PageRec) (x : NvmChan) (kind : Nat) :
    let t := (s.rescueCounted (lineNo dla) r x kind).poisonStored dla
    lineNo dla ∉ t.kiln.rescue ∧ lineNo dla / 64 ∈ t.kiln.rewrites
      ∧ (blkKey r.ch (r.loc + lineNo dla % 64) ∈ t.kiln.witness ∨ 256 ≤ s.kiln.witness.length) ∧ t.nvm r.ch = x
      ∧ (s.isAbsorbed dla = false ∧ s.cachedDirty dla = false → t.poisoned dla = true)
      ∧ (s.isAbsorbed dla = true ∨ s.cachedDirty dla = true → Tab.find t.kiln.mediaPoison (lineNo dla) = some true)
      ∧ Frame [.kiln, .integ, .poison] t s := by
  obtain ⟨off, marked, sweep, count, absorbed, frame⟩ := s.rescueCounted_facts (lineNo dla) r x kind
  have cache : (s.rescueCounted (lineNo dla) r x kind).cache = s.cache := frame .cache (by decide)
  generalize s.rescueCounted (lineNo dla) r x kind = u at *
  obtain ⟨poisons, -⟩ := u.poisonStored_frame dla
  obtain ⟨rescue, rewrites, witness, chans⟩ := u.poisonStored_queues dla
  obtain ⟨itself, stored⟩ := u.poisonStored_marks dla
  rw [Chip.isAbsorbed_congr absorbed, Chip.cachedDirty_congr cache] at itself stored
  exact ⟨rescue ▸ off, rewrites ▸ marked, witness ▸ sweep, (Chip.nvm_of_chans chans r.ch).trans count, itself, stored,
    (poisons.mono (by decide)).trans (frame.mono (by decide))⟩

/-! ### Sweeps, ages and blocks (R308, R311, R314, R315) -/

/-- The record of a block whose sweep found the best offset `best` (R314). -/
def Blk.swept (x : Blk) (best : Int) : Blk :=
  { x with trim := clampTrim (x.trim + best), moved := x.moved + (clampTrim (x.trim + best) - x.trim).natAbs }

theorem Chip.witnessSweep_acts (s : Chip) (ch b : Nat) (best : Int) (time : s.mediaTime = true) (queued : ch * 2 ^ 20 + b ∈ s.kiln.witness)
    (low : -4 ≤ best) (high : best ≤ 4) : s.witnessSweep ch b best
      = ({ s with kiln := { s.kiln with witness := s.kiln.witness.filter (fun w => decide (w ≠ ch * 2 ^ 20 + b)) } } : Chip).setBlk ch b
        ((s.blk ch b).swept best) := by
  refine (if_neg ?_).trans rfl
  simp only [time, List.contains_iff_mem.mpr queued, Bool.not_true, Bool.false_eq_true, false_or]
  omega

/-- Rekilning runs outside BURST windows, in QUIET time or forced (R36, R44). -/
theorem Chip.permits_rekilning (s : Chip) (calm : s.inBurst = false) (time : s.inQuiet = true ∨ bitOf s.win.forced 0 = true) :
    s.permits .rekilning = true := by
  simpa [Chip.permits, calm] using time

/-! ### FORMAT (R333) -/

/-- Roots for the packages of a channel, one after the other, each with the next generation. -/
def Chip.formatRoots (s : Chip) (ch : Nat) (rs : List RootRec) : List RootRec × Chip :=
  rs.foldl (fun (acc : List RootRec × Chip) r =>
    let (k, s) := acc.2.freshRoot ch acc.1.length (match r.newest with | some o => wrap32 (o.generation + 1) | none => 1)
    (acc.1 ++ [k], s)) ([], s)

/-- The device once channel `ch` has its new roots: its zone copy is gone, and its blocks are as new but for their wear. -/
def Chip.formatted (s : Chip) (ch : Nat) (x : NvmChan) : Chip :=
  let u := s.setNvm ch x
  ({ u with lauter := { u.lauter with zones := Tab.del u.lauter.zones ch } } : Chip).resetBlocks ch

theorem Chip.settleMediaSet_known (s : Chip) (fs : List NvmFound) {m : Nat} (known : s.mediaSet = some m) : s.settleMediaSet fs = s := by
  unfold Chip.settleMediaSet
  dsimp only
  rw [known]

theorem Chip.kilnFormat_formats (s : Chip) {ch m : Nat} (offline : s.chanState (8 + ch) = .offline) (bare : s.pagesOn .nvm ch = [])
    (known : s.mediaSet = some m) (packages : (s.nvm ch).roots ≠ []) :
    s.kilnFormat ch = (0, (s.formatRoots ch (s.nvm ch).roots).2.formatted ch
      { s.nvm ch with roots := (s.formatRoots ch (s.nvm ch).roots).1, rootState := 2, passed := true }) := by
  unfold Chip.kilnFormat
  dsimp only
  rw [if_neg (by simp [offline, bare]), s.settleMediaSet_known _ known, if_neg packages, decide_eq_true packages, if_neg (by simp [offline])]
  rfl

theorem Chip.kilnFormat_refused (s : Chip) {ch : Nat}
    (serves : (s.chanState (8 + ch) ≠ .offline ∧ s.chanState (8 + ch) ≠ .absent) ∨ s.pagesOn .nvm ch ≠ []) :
    s.kilnFormat ch = (Abort.channelState, s) := if_pos serves

/-- The blocks after FORMAT: those of the channel keep their wear alone, and those of every other channel are as they were. -/
theorem Chip.formatted_blocks (s : Chip) (ch : Nat) (x : NvmChan) :
    (∀ e ∈ (s.formatted ch x).kiln.blocks, e.1 / 2 ^ 20 = ch → e.2 = { lines := e.2.lines })
    ∧ ∀ e ∈ s.kiln.blocks, e.1 / 2 ^ 20 ≠ ch → e.2 ≠ {} → e ∈ (s.formatted ch x).kiln.blocks := by
  constructor
  · intro e mem own
    obtain ⟨⟨k, b⟩, -, rfl⟩ := List.mem_map.mp (List.mem_filter.mp mem).1
    dsimp only at own ⊢
    rw [if_pos own]
  · rintro ⟨k, b⟩ mem other used
    refine List.mem_filter.mpr ⟨List.mem_map.mpr ⟨(k, b), mem, ?_⟩, decide_eq_true used⟩
    dsimp only at other ⊢
    rw [if_neg other]

/-- Of the rest of the device, FORMAT sets the channel's record and drops its zone copy. -/
theorem Chip.formatted_facts (s : Chip) (ch : Nat) (x : NvmChan) : (s.formatted ch x).nvm ch = x
    ∧ (s.formatted ch x).lauter = { s.lauter with zones := Tab.del s.lauter.zones ch } ∧ Frame [.kiln, .lauter] (s.formatted ch x) s :=
  ⟨s.nvm_setNvm ch x, rfl, (Frame.set_kiln (by decide) _ _).trans ((Frame.set_lauter (by decide) _ _).trans (Frame.set_kiln (by decide) s _))⟩

/-- The fresh roots of a channel: one for each package, intact, of the device's set, and of the next generation. -/
theorem Chip.formatRoots_facts (s : Chip) (ch : Nat) (rs : List RootRec) {m : Nat} (known : s.mediaSet = some m) :
    Frame [.free] (s.formatRoots ch rs).2 s ∧ (s.formatRoots ch rs).1.length = rs.length
    ∧ ∀ (i : Nat) (x : RootRec), rs[i]? = some x → ∃ r : Root, (s.formatRoots ch rs).1[i]? = some { formatted := true, copyA := r.image }
      ∧ r.channel = ch ∧ r.package = i ∧ r.mediaSet = m
      ∧ r.generation = (match x.newest with | some o => wrap32 (o.generation + 1) | none => 1)
      ∧ r.zone = s.zoneChans.contains ch ∧ r.clean = true := by
  obtain ⟨frame, count, -, fresh⟩ := Chip.freshRoots_facts ch
    (fun r => match r.newest with | some o => wrap32 (o.generation + 1) | none => 1) (some m) s.zoneChans rs ([], s) known rfl
  refine ⟨frame, count.trans (Nat.zero_add _), fun i x root => ?_⟩
  obtain ⟨r, stands, channel, package, rest⟩ := fresh i x root
  rw [List.length_nil, Nat.zero_add] at stands package
  exact ⟨r, stands, channel, package, rest⟩

/-! ### The end of a flush (R327, R527) -/

theorem Chip.flushEnd_ready (s : Chip) (ready : s.flushReady = true) :
    s.flushEnd = let u := if s.nvmOnline = 0 then s else s.cleanRoots
      { u with kiln := { u.kiln with flushing := false, gpf := false } } := if_neg (by simp [ready])

theorem Chip.flushEnd_frame (s : Chip) : Frame [.lauter, .kiln] s.flushEnd s := by
  unfold Chip.flushEnd
  exact Frame.ite _ (Frame.refl _ _)
    ((Frame.set_kiln (by decide) _ _).trans (Frame.ite _ (Frame.refl _ _) s.cleanRoots_facts.1))

/-- Outside PERSIST the flush just ends. -/
theorem Chip.persistFlushEnd_ends (s : Chip) (mode : s.mode.current ≠ .persist) : s.persistFlushEnd = s.flushEnd := by
  have same : s.flushEnd.mode = s.mode := s.flushEnd_frame .mode (by decide)
  exact if_neg (by simp [same, mode])

/-- In PERSIST with a feed valid a chip reset follows (R527). -/
theorem Chip.persistFlushEnd_resets (s : Chip) (ready : s.flushReady = true) (mode : s.mode.current = .persist) (feed : s.feedOk = true) :
    s.persistFlushEnd = s.flushEnd.chipResetNow 4 := by
  have same : s.flushEnd.mode = s.mode := s.flushEnd_frame .mode (by decide)
  have fed : s.flushEnd.feedOk = true := by
    unfold Chip.feedOk at feed ⊢
    rw [show s.flushEnd.power = s.power from s.flushEnd_frame .power (by decide)]
    exact feed
  exact if_pos (by simp [ready, same, mode, fed])

end Sys2Proof.Machine

open Sys2Proof Sys2Proof.Machine

/-- Settles O33. Both ends of a rescue follow the same taking of the line, FORMAT is a fold of fresh roots with the blocks reset after it, and a
flush ends with `Chip.cleanRoots` wherever a channel is ONLINE. -/
theorem blocksAreSweptRekilnedAndFormatted : Obligations.BlocksAreSweptRekilnedAndFormatted := by
  unfold Obligations.BlocksAreSweptRekilnedAndFormatted
  refine ⟨?decoded, ?lost, ?sweep, ?rekiln, ?retention, ?reclaim, ?close, ?format, ?refused, ?flush, ?resets⟩
  case decoded =>
    intro s dla r time queued record rests placed
    obtain ⟨off, marked, sweep, count, -, frame⟩ := s.chip.rescueCounted_facts (lineNo dla.toNat) r
      { s.chip.nvm r.ch with rescued := (s.chip.nvm r.ch).rescued + 1 } 6
    exact ⟨_, Effect.of_eq rfl ((s.chip.mediaRescue_acts dla.toNat true ⟨time, queued, record, rests, placed⟩).trans (if_pos rfl)), off, marked,
      sweep, count, frame⟩
  case lost =>
    intro s dla r time queued record rests placed
    exact ⟨_, Effect.of_eq rfl
      ((s.chip.mediaRescue_acts dla.toNat false ⟨time, queued, record, rests, placed⟩).trans (if_neg Bool.false_ne_true)),
      s.chip.rescueLost_facts dla.toNat r { s.chip.nvm r.ch with uncorrectable := (s.chip.nvm r.ch).uncorrectable + 1 } 7⟩
  case sweep =>
    intro s ch block best time queued low high
    exact ⟨_, Effect.of_eq rfl (s.chip.witnessSweep_acts ch block.toNat best time queued low high), rfl, Chip.blk_setBlk _ _ _ _,
      (Chip.setBlk_frame _ _ _ _).trans (Frame.set_kiln (by decide) s.chip _)⟩
  case rekiln =>
    intro s ch block age old holds calm time
    exact Effect.of_eq rfl (if_pos ⟨old, holds, s.chip.permits_rekilning calm time⟩)
  case retention =>
    intro s ch block age old holds
    have raised := (Chip.raise_eq (s.chip.setBlk ch block.toNat { s.chip.blk ch block.toNat with age := age, rewrite := true })
      106 0xFF 0 .none [0, 1, 2, 3]).frame
    exact ⟨_, Effect.of_eq rfl (if_pos ⟨old, holds⟩), (Chip.blk_of_kiln (raised .kiln (by decide)) _ _).trans (Chip.blk_setBlk _ _ _ _),
      Chip.raise_sticky _ _ _ _ _ _, (raised.mono (by decide)).trans ((s.chip.setBlk_frame _ _ _).mono (by decide))⟩
  case reclaim =>
    intro s ch block closed holds few calm time
    exact Effect.of_eq rfl (if_pos ⟨by simp [closed], holds, few, by simp [calm], time⟩)
  case close =>
    intro s ch block openHours opened full
    exact Effect.of_eq rfl (if_pos ⟨opened, full⟩)
  case format =>
    intro s src ch m acc offline bare known packages
    obtain ⟨drawn, count, fresh⟩ := s.chip.formatRoots_facts ch (s.chip.nvm ch).roots known
    have run := s.chip.kilnFormat_formats offline bare known packages
    generalize s.chip.formatRoots ch (s.chip.nvm ch).roots = made at *
    obtain ⟨roots, u⟩ := made
    dsimp only at drawn count fresh run
    obtain ⟨worn, others⟩ := u.formatted_blocks ch { s.chip.nvm ch with roots := roots, rootState := 2, passed := true }
    obtain ⟨own, engine, frame⟩ := u.formatted_facts ch { s.chip.nvm ch with roots := roots, rootState := 2, passed := true }
    rw [drawn.lauter (by decide)] at engine
    rw [show u.kiln = s.chip.kiln from drawn .kiln (by decide)] at others
    have byte : bytesLE 1 1 = [1] := rfl
    exact ⟨_, roots, byte ▸ dictCmd_effect (v := 1) rfl acc (by decide) (by decide) run, own, count, fresh, worn, others, engine,
      (frame.mono (by decide)).trans (drawn.mono (by decide))⟩
  case refused =>
    intro s src ch acc serves
    exact dictCmd_effect rfl acc (by decide) (by decide) (s.chip.kilnFormat_refused serves)
  case flush =>
    intro s ready mode online
    obtain ⟨frame, journal, backlog, zones⟩ := s.chip.cleanRoots_facts
    have ends : s.chip.persistFlushEnd = { s.chip.cleanRoots with kiln := { s.chip.cleanRoots.kiln with flushing := false, gpf := false } } := by
      rw [s.chip.persistFlushEnd_ends mode, s.chip.flushEnd_ready ready, if_neg online]
    refine ⟨_, Effect.of_eq rfl ends, rfl, rfl, journal, backlog, fun n on => ?_, fun n on => s.chip.cleanRoots_roots n on,
      (Frame.set_kiln (by decide) s.chip.cleanRoots _).trans frame⟩
    obtain ⟨zone, -⟩ := s.chip.zoneWrite_facts
      { s.chip.newestZone with ring := s.chip.newestZone.ring ++ s.chip.lauter.journal ++ s.chip.lauter.backlog }
    exact (congrArg (Tab.get ({} : Zone) · n) zones).trans ((zone n).trans (if_pos on))
  case resets =>
    intro s ready mode feed
    exact Effect.of_eq rfl (s.chip.persistFlushEnd_resets ready mode feed)

end

section
/-!
PROOFS. What every step keeps: the test access port stays consistent (R584), and the queue gives up its front command alone. The state after
reset (R523).
-/
namespace Sys2Proof.Machine

/-! ### The port under each of its changes (R584) -/

/-- The port at its reset value is consistent. -/
theorem Tap.ok_reset : Tap.Ok {} := by simp [Tap.Ok]

/-- What the test access port may become in one command: as it was, in reset, or with the change of one command of the port. -/
inductive Tap.Next (t : Tap) : Tap → Prop where
  | same : t.Next t
  | off : t.Next {}
  | reset : t.Next t.resetTap
  | idcode : t.Next t.idcode
  | extest : t.Next t.extest
  | clamp : t.Next t.clamp
  | highz : t.Next t.highz
  | bypass : t.Next t.bypass
  | sample (pins : List Bool) : t.Next (t.sample pins)
  | preload (cells : List Bool) : t.Next (t.preload cells)
  | sampleCode : t.Next { t with instr := .sample, drLen := boundaryLen, driving := false, floating := false }
  | preloadCode : t.Next { t with instr := .preload, drLen := boundaryLen, driving := false, floating := false }

/-- Each change leaves the port consistent: it sets the instruction together with what drives and what floats. -/
theorem Tap.Ok.next {t u : Tap} (ok : t.Ok) (change : t.Next u) : u.Ok := by
  cases change
  case same => exact ok
  case off => exact Tap.ok_reset
  all_goals simp [Tap.Ok, Tap.resetTap, Tap.idcode, Tap.extest, Tap.clamp, Tap.highz, Tap.bypass, Tap.sample, Tap.preload]

/-- A public code acts as the instruction it names. -/
theorem Tap.next_runCode (t : Tap) (code : BitVec 8) : t.Next (t.runCode code) := by
  unfold Tap.runCode
  split_ifs
  · exact .extest
  · exact .idcode
  · exact .sampleCode
  · exact .preloadCode
  · exact .clamp
  · exact .highz
  · exact .bypass

/-- Every BYPASS code does one of the changes. -/
theorem Tap.next_bypassCode (t : Tap) (code : BitVec 8) : t.Next (t.bypassCode code) := by
  unfold Tap.bypassCode
  split
  · exact .bypass
  · exact t.next_runCode code

/-- A command of the port makes its change, or none before chip power-on. -/
theorem State.next_tapDo (s : State) {f : Tap → Tap} (change : s.tap.Next (f s.tap)) : s.tap.Next (s.tapDo f).tap := by
  unfold State.tapDo
  split
  · exact change
  · exact .same

/-- A command that may take the supplies away leaves the port, or leaves it in reset. -/
theorem State.next_doneRails (s : State) (c : Chip) : s.tap.Next (s.doneRails c).tap := by
  show s.tap.Next (if c.mode.railsUp then s.tap else {})
  split
  · exact .same
  · exact .off

/-! ### One inversion for every command -/

/-- What a command that answers a next state does to the port and to the queue: one change of the port, and the queue as it was. -/
theorem exec_next {i : Instr} {s t : State} (answers : exec i s = .next t) : s.tap.Next t.tap ∧ t.pending = s.pending := by
  have port {f : Tap → Tap} (change : s.tap.Next (f s.tap)) (run : exec i s = .next (s.tapDo f)) : s.tap.Next t.tap ∧ t.pending = s.pending := by
    cases run.symm.trans answers
    exact ⟨s.next_tapDo change, s.tapDo_pending f⟩
  have rails {c : Chip} (run : exec i s = .next (s.doneRails c)) : s.tap.Next t.tap ∧ t.pending = s.pending := by
    cases run.symm.trans answers
    exact ⟨s.next_doneRails c, rfl⟩
  have effect {c : Chip} (run : exec i s = .next (s.done c)) : s.tap.Next t.tap ∧ t.pending = s.pending := by
    cases run.symm.trans answers
    exact ⟨.same, rfl⟩
  cases i
  case tapReset => exact port .reset rfl
  case extest => exact port .extest rfl
  case idcode => exact port .idcode rfl
  case sample pins => exact port (.sample pins) rfl
  case preload cells => exact port (.preload cells) rfl
  case clamp => exact port .clamp rfl
  case highz => exact port .highz rfl
  case bypass code =>
    by_cases stops : (privateCode code && !s.chip.husk.debugClosed && s.chip.mode.railsUp) = true
    · exact nomatch answers.symm.trans (if_pos stops)
    · exact port (s.tap.next_bypassCode code) (if_neg stops)
  case sentryPowerOnReset | sentryPowerLoss | railLoss | chipPowerOn => exact rails rfl
  all_goals exact effect rfl

/-- A step leaves the port as its front command does, and the queue's rest; on an empty queue it leaves both. -/
theorem step_next {s t : State} (run : step s = .next t) : s.tap.Next t.tap ∧ t.pending = s.pending.tail := by
  cases queue : s.pending with
  | nil =>
    cases (step_empty s queue).symm.trans run
    exact ⟨.same, queue⟩
  | cons c r => exact exec_next (s := { s with pending := r }) (by simpa [step, queue] using run)

end Sys2Proof.Machine

open Sys2Proof Sys2Proof.Machine

/-- Settles O56: a step makes one change of the port, and each change keeps it consistent. -/
theorem testPortStaysConsistent : Obligations.TestPortStaysConsistent :=
  fun _ _ ok run => ok.next (step_next run).1

/-- Settles O57: no form of an answer touches the queue, whose front the step took. -/
theorem eachStepTakesOneCommandAndNoCommandQueuesAnother : Obligations.EachStepTakesOneCommandAndNoCommandQueuesAnother :=
  fun _ _ run => (step_next run).2

/-- Settles O52: the step by its definition, on a queue with a front command. -/
theorem stepTakesTheFrontCommand : Obligations.StepTakesTheFrontCommand := by
  intro s c r queue
  simp only [step, queue]

/-- Settles O58: a domain but SENTRY's is read from an empty table, and every other part is at its default. -/
theorem resetIsTheSentrysPowerOn : Obligations.ResetIsTheSentrysPowerOn := by
  unfold Obligations.ResetIsTheSentrysPowerOn
  have domains : ∀ n : Nat, 0 < n → State.reset.chip.domain n = .off := fun n pos => State.reset.chip.domain_pos n pos
  exact ⟨rfl, Tap.ok_reset, rfl, rfl, domains, rfl, rfl, rfl, rfl, by decide, rfl, rfl, fun _ => rfl, rfl, rfl⟩

end

section
/-!
PROOFS. What a reader of the dictionary sees of the mode and the fault pin (R526, R548); the reactions of a raised source (R543 to R546); the
command of the power entry (R518); and the checks that a write of an object meets in their order (R460, R461).
-/
namespace Sys2Proof.Machine

/-! ### Values read -/

/-- mode.current reads the mode's code (R526). -/
theorem Chip.objValue_modeCurrent (c : Chip) (m : Nat) : c.objValue m 0x2800 1 = (c.mode.current.code, c) := rfl

/-- fault.fault_n reads the pin (R548). -/
theorem Chip.objValue_faultN (c : Chip) (m : Nat) : c.objValue m 0xA000 6 = (c.faultN.toNat, c) := rfl

/-- The heartbeat begins with the mode's code (R474, R526). -/
theorem Chip.heartbeatBytes_head (c : Chip) : c.heartbeatBytes.head? = some (BitVec.ofNat 8 c.mode.current.code) := rfl

/-- FAULT_N is asserted by a source with FAULT_PIN whose sticky bit is set, or by SAFE (R548). -/
theorem Chip.faultN_iff (c : Chip) : c.faultN = true ↔
    (∃ n : Nat, n < 256 ∧ c.sticky n = true ∧ bitOf (c.faultByte n) 6 = true) ∨ c.mode.current = .safe := by
  simp only [Chip.faultN, Bool.or_eq_true, decide_eq_true_eq, List.any_eq_true, List.mem_range, Bool.and_eq_true]
  exact or_comm

/-! ### A raise where the core is dark (R546) -/

/-- The occurrence sets its sticky bit, and a first one waits for the end of RECALL. -/
theorem Chip.raise_dark (c : Chip) (n m d : Nat) (b : Block) (hs : List Nat) (dark : c.coreOn = false ∨ c.mode.current = .recall) :
    c.raise n m d b hs = { c with fault := { c.fault with
      sticky := setBit c.fault.sticky n true, dark := if c.sticky n then c.fault.dark else setBit c.fault.dark n true } } := by
  have waits : (({ c with fault := { c.fault with sticky := setBit c.fault.sticky n true } } : Chip).coreOn && decide (c.mode.current ≠ .recall)) = false := by
    rcases dark with off | recalling
    · rw [show ({ c with fault := { c.fault with sticky := setBit c.fault.sticky n true } } : Chip).coreOn = c.coreOn from rfl, off]
      rfl
    · simp [recalling]
  unfold Chip.raise
  dsimp only
  rw [waits, if_neg Bool.false_ne_true]
  cases c.sticky n <;> rfl

/-! ### power.command (R518) -/

/-- A write of 1 to power.command that passes the checks is carried out, and answered with its code. -/
theorem commandedTrip_effect {s : State} {src : Src} {code : Nat} {t : Chip} (acc : Accepts s.chip src 0x2000 2 1)
    (does : s.chip.powerCmd 1 = (code, t)) : Effect (.commandedTrip src 1) s (t.answerWrite src 0x2000 2 (bytesLE 1 1) code) :=
  dictCmd_effect rfl acc (by decide) (by decide) does

theorem Chip.powerCmd_trips (s : Chip) (drain : s.mode.current = .drain) (on : s.power.st = .on) : s.powerCmd 1 = (0, s.trip 9) := by
  simp [Chip.powerCmd, drain, on]

theorem Chip.powerCmd_wrongMode (s : Chip) (other : s.mode.current ≠ .drain) : s.powerCmd 1 = (Abort.wrongMode, s) := by
  simp [Chip.powerCmd, other]

theorem Chip.powerCmd_channelState (s : Chip) (drain : s.mode.current = .drain) (off : s.power.st ≠ .on) :
    s.powerCmd 1 = (Abort.channelState, s) := by
  simp [Chip.powerCmd, drain, off]

/-! ### The checks of R460 in their order -/

/-- Past the index, steps 3 to 7 decide. -/
theorem Chip.gate_served (s : Chip) {m idx sub : Nat} (awake : s.mode.current ≠ .recall) (index : 0x1000 ≤ idx) (served : s.rangeServed idx = true) :
    s.gate m idx sub true =
      if !s.may (rangeTarget idx) m 1 then .deny (rangeTarget idx)
      else if !objIndexExists idx then .abort Abort.objectAbsent
      else match objInfo? idx sub with
        | none => .abort Abort.subAbsent
        | some i => match furtherRight idx sub with
          | some (t, b) => if s.may t m b then classGate i true else .deny t
          | none => classGate i true := by
  unfold Chip.gate
  rw [if_neg awake, if_neg (by simp [served]; omega)]
  rfl

theorem Chip.gate_recall (s : Chip) (m idx sub : Nat) (recalling : s.mode.current = .recall) : s.gate m idx sub true = .abort Abort.busyRecall :=
  if_pos recalling

theorem Chip.gate_lowIndex (s : Chip) {m idx : Nat} (sub : Nat) (awake : s.mode.current ≠ .recall) (low : idx < 0x1000) :
    s.gate m idx sub true = .abort Abort.objectAbsent := by
  unfold Chip.gate
  rw [if_neg awake, if_pos (.inl low)]

/-- The class refuses a write of a value that nobody may write (R453). -/
theorem classGate_readOnly {i : ObjInfo} (fixed : i.acc = .ro ∨ i.acc = .const) : classGate i true = .abort Abort.readOnly :=
  if_pos ⟨rfl, fixed⟩

/-- A write that a check aborts changes nothing but its answer. -/
theorem Chip.piece_aborted (s : Chip) (src : Src) {idx sub code : Nat} (off : Nat) (d : List Byte) (final : Bool) (h : Nat → Chip → Nat × Chip)
    (aborts : s.gate (srcMaster src) idx sub true = .abort code) : s.piece src idx sub off d final h = (code, s) := by
  simp only [Chip.piece, aborts]

/-- A write that a right forbids is a silent violation, answered as accepted (R461). -/
theorem Chip.piece_denied (s : Chip) (src : Src) {idx sub t : Nat} (off : Nat) (d : List Byte) (final : Bool) (h : Nat → Chip → Nat × Chip)
    (denies : s.gate (srcMaster src) idx sub true = .deny t) : s.piece src idx sub off d final h = (0, s.denyWrite t (srcMaster src) idx sub) := by
  simp only [Chip.piece, denies]

/-- Step 8 of R460: a whole write has the object's length. -/
theorem Chip.piece_length (s : Chip) (src : Src) {idx sub : Nat} (d : List Byte) (h : Nat → Chip → Nat × Chip) {i : ObjInfo}
    (goes : s.gate (srcMaster src) idx sub true = .go i) (pos : 0 < i.size) (other : d.length ≠ i.size) :
    s.piece src idx sub 0 d true h = (Abort.length, s) := by
  simp only [Chip.piece, goes]
  rw [if_neg (by omega), if_pos (.inr (.inr (.inr ⟨trivial, by omega⟩)))]

/-- A write over a path that is up, with no transfer on it and its PASID bound, is answered with what the checks and its handler say. -/
theorem objectWrite_effect {s : State} {src : Src} {idx : BitVec 16} {sub : BitVec 8} {value : List Byte} {code : Nat} {t : Chip}
    (up : s.chip.dictUp src = true) (idle : src = .field → s.chip.field.xfer = none) (bound : s.chip.pasidDenied (srcPasid src) = false)
    (does : ∀ h, s.chip.piece src idx.toNat sub.toNat 0 value true h = (code, t)) :
    Effect (.objectWrite src idx sub value) s (t.answerWrite src idx.toNat sub.toNat value code) := by
  have still : (if src = .field then s.chip.abandonXfer else s.chip) = s.chip := by
    split
    · next field => exact s.chip.abandonXfer_none (idle field)
    · rfl
  refine Effect.of_eq (d := s.chip.objectWrite src idx.toNat sub.toNat value) rfl ?_
  unfold Chip.objectWrite Chip.dictPut
  simp only [up, bound, Bool.not_true, Bool.false_eq_true, if_false, still, does]

end Sys2Proof.Machine

open Sys2Proof Sys2Proof.Machine

/-- Settles O50: the value read is `Mode.code`, whose cases are the table's. -/
theorem modeCodesReadAsTheTableSays : Obligations.ModeCodesReadAsTheTableSays := by
  unfold Obligations.ModeCodesReadAsTheTableSays
  refine ⟨fun c m => (c.objValue_modeCurrent m).trans ?table, fun c => ⟨c.heartbeatBytes_head, fun _ => rfl⟩⟩
  case table => cases c.mode.current <;> rfl

/-- Settles O49: the pin by its definition, and its object reads it. -/
theorem faultPinFollowsItsSourcesAndSafe : Obligations.FaultPinFollowsItsSourcesAndSafe := by
  unfold Obligations.FaultPinFollowsItsSourcesAndSafe
  refine ⟨Chip.faultN_iff, fun c m => (c.objValue_faultN m).trans ?value⟩
  case value => cases c.faultN <;> rfl

/-- Settles O55: where the core works an occurrence asks for what its byte says, and where it is dark the first one waits. -/
theorem raisedSourcesSetTheirBitAndAskTheirReactions : Obligations.RaisedSourcesSetTheirBitAndAskTheirReactions := by
  unfold Obligations.RaisedSourcesSetTheirBitAndAskTheirReactions
  refine ⟨fun c n m d b hs => ⟨c.raise_sticky n m d b hs, fun k other => c.raise_sticky_other m d b hs other, (c.raise_eq n m d b hs).frame⟩,
    ?nmi, ?blocks, ?chip, ?safe, ?dark⟩
  case nmi => exact fun c n m d b hs on awake => by rw [c.raise_asks n m d b hs on awake]
  case blocks => exact fun c n m d b hs on awake => by rw [c.raise_asks n m d b hs on awake]
  case chip => exact fun c n m d b hs on awake => by rw [c.raise_asks n m d b hs on awake]
  case safe => exact fun c n m d b hs on awake => by rw [c.raise_asks n m d b hs on awake]
  case dark => exact fun c n m d b hs dark => by rw [c.raise_dark n m d b hs dark]; exact ⟨rfl, rfl, rfl⟩

/-- Settles O48: the handler asks for DRAIN first and for ON next. -/
theorem commandedTripIsForDrainWithTheGateOn : Obligations.CommandedTripIsForDrainWithTheGateOn := by
  unfold Obligations.CommandedTripIsForDrainWithTheGateOn
  exact ⟨fun s src acc drain on => ⟨s.chip.trip 9, commandedTrip_effect acc (s.chip.powerCmd_trips drain on), s.chip.trip_facts 9⟩,
    fun s src acc other => commandedTrip_effect acc (s.chip.powerCmd_wrongMode other),
    fun s src acc drain off => commandedTrip_effect acc (s.chip.powerCmd_channelState drain off)⟩

/-- Settles O51: each clause names the check of R460 that ends the write, and what it answers. -/
theorem dictionaryChecksActInTheirOrder : Obligations.DictionaryChecksActInTheirOrder := by
  unfold Obligations.DictionaryChecksActInTheirOrder
  refine ⟨?recalling, ?index, ?right, ?absent, ?sub, ?further, ?class_, ?length, ?pasid⟩
  case recalling =>
    intro s src idx sub value up idle recalling bound
    exact objectWrite_effect up idle bound fun h => s.chip.piece_aborted src 0 value true h (s.chip.gate_recall _ _ _ recalling)
  case index =>
    intro s src idx sub value up idle awake low bound
    exact objectWrite_effect up idle bound fun h => s.chip.piece_aborted src 0 value true h (s.chip.gate_lowIndex _ awake low)
  case right =>
    intro s src idx sub value up idle awake high served no bound
    exact objectWrite_effect up idle bound fun h => s.chip.piece_denied src 0 value true h (by simp [s.chip.gate_served awake high served, no])
  case absent =>
    intro s src idx sub value up idle awake high served may none bound
    exact objectWrite_effect up idle bound fun h => s.chip.piece_aborted src 0 value true h (by simp [s.chip.gate_served awake high served, may, none])
  case sub =>
    intro s src idx sub value up idle awake high served may exists_ none bound
    exact objectWrite_effect up idle bound fun h =>
      s.chip.piece_aborted src 0 value true h (by simp [s.chip.gate_served awake high served, may, exists_, none])
  case further =>
    intro s src idx sub value i t b up idle awake high served may exists_ info further no bound
    exact objectWrite_effect up idle bound fun h =>
      s.chip.piece_denied src 0 value true h (by simp [s.chip.gate_served awake high served, may, exists_, info, further, no])
  case class_ =>
    intro s src idx sub value i up idle awake high served may exists_ info free fixed bound
    exact objectWrite_effect up idle bound fun h => s.chip.piece_aborted src 0 value true h
      (by simp [s.chip.gate_served awake high served, may, exists_, info, free, classGate_readOnly fixed])
  case length =>
    intro s src idx sub value i up idle goes pos other bound
    exact objectWrite_effect up idle bound fun h => s.chip.piece_length src value h goes pos other
  case pasid =>
    intro s src idx sub value up denied
    refine Effect.of_eq (d := s.chip.objectWrite src idx.toNat sub.toNat value) rfl ?_
    simp [Chip.objectWrite, Chip.dictPut, up, denied]

end

section
/-!
PROOFS. Seedbank's appends, compaction and protection (R487 to R495), and Sparge: patrol and scrub writes, the pools, the halving of counts, and
the retirement log's way to Seedbank (R348 to R358).
-/
namespace Sys2Proof.Machine

/-! ### Appends (R489) -/

/-- The RWP object that a committed record of kind 1 names takes its value (R454, R487). -/
def Chip.valueTaken (s : Chip) (ok : Bool) (kind key : Nat) (payload : List Byte) : Chip :=
  match kind, rwpRow? key with
  | 1, some r => if ok ∧ payload.length = r.size then s.setRwp (paramObj key) (natLE payload) else s
  | _, _ => s

theorem Chip.valueTaken_frame (s : Chip) (ok : Bool) (kind key : Nat) (payload : List Byte) :
    Frame [.rwp] (s.valueTaken ok kind key payload) s := by
  unfold Chip.valueTaken
  split
  · exact Frame.ite _ (Frame.set_rwp (by decide) s _) (Frame.refl _ _)
  · exact Frame.refl _ _

/-- A record of another kind gives no object a value. -/
theorem Chip.valueTaken_other (s : Chip) (ok : Bool) {kind : Nat} (key : Nat) (payload : List Byte) (other : kind ≠ 1) :
    s.valueTaken ok kind key payload = s := by
  unfold Chip.valueTaken
  split
  · exact absurd rfl other
  · rfl

/-- The object that a committed record of its size names reads that value. -/
theorem Chip.valueTaken_stores (s : Chip) {key : Nat} {payload : List Byte} {r : ObjRow} (row : rwpRow? key = some r)
    (size : payload.length = r.size) : Tab.find (s.valueTaken true 1 key payload).rwp (paramObj key) = some (natLE payload) := by
  simp [Chip.valueTaken, row, size, Chip.setRwp, Tab.find_set_same]

/-- A verified record that is no log and no count slice is appended, and its object takes the value. -/
theorem Chip.seedbankAppend_verified (s : Chip) {kind key : Nat} {payload : List Byte}
    (class_ : kind = 1 ∨ kind = 3 ∨ (kind = 2 ∧ (key < 0x100 ∨ 0x1FF < key))) (some' : 0 < payload.length) (short : payload.length ≤ 4096) :
    s.seedbankAppend kind key payload true
      = (s.sbAppend kind key payload).2.valueTaken (s.sbAppend kind key payload).1 kind key payload := by
  unfold Chip.seedbankAppend
  rw [if_neg (by omega), if_neg (by simp), if_neg (by omega)]
  rfl

/-- A record that does not verify stays torn: it is placed without its commit word (R489). -/
theorem Chip.seedbankAppend_torn (s : Chip) {kind key k : Nat} {payload : List Byte} (some' : 0 < payload.length) (short : payload.length ≤ 4096)
    (named : kind ≠ 0) (works : s.sb.st ≠ 2) (free : s.sb.protect ≠ 3) (mode : s.mode.current ≠ .persist) (opened : s.openSector = some k)
    (room : (s.sec k).used + recSize payload.length ≤ 65536) :
    (s.seedbankAppend kind key payload false).sb.recs = s.sb.recs ++ [⟨k, kind, key, s.sbNextSeq kind key, payload, false, true⟩]
      ∧ (s.seedbankAppend kind key payload false).sb.allowance = s.sb.allowance - recSize payload.length
      ∧ Frame [.sb, .fault, .heads, .field] (s.seedbankAppend kind key payload false) s := by
  obtain ⟨d, placed, recs, allowance, -, -, frame⟩ := s.sbPlace_open k kind key (s.sbNextSeq kind key) payload false opened room
  have goes : s.seedbankAppend kind key payload false = d.sbSpend (recSize payload.length) := by
    unfold Chip.seedbankAppend
    rw [if_neg (by omega), if_pos (by rfl), if_neg (by simp [works, free, mode]), placed]
  rw [goes, d.sbSpend_sb]
  exact ⟨recs, by rw [← allowance], (d.sbSpend_frame _).trans (frame.mono (by decide))⟩

/-- A log record is held on chip while the area is protected, and counted (R494). -/
theorem Chip.seedbankAppend_held (s : Chip) (key : Nat) {payload : List Byte} (some' : 0 < payload.length) (short : payload.length ≤ 4096)
    (protected_ : s.sb.protect = 3) : s.seedbankAppend 4 key payload true
      = { s with sb := { s.sb with held := s.sb.held ++ [(4, key, payload)], deferred := s.sb.deferred + 1 } } := by
  unfold Chip.seedbankAppend
  rw [if_neg (by omega), if_neg (by simp), if_pos (.inl rfl), Chip.sbLog, if_pos (by simp [Chip.sbHolds, protected_])]

/-! ### Compaction and protection (R493, R494) -/

/-- With one FULL sector and at most four erased, that sector is copied out and erased. -/
theorem Chip.compaction_one (s : Chip) {k : Nat} (few : s.erasedSectors.length ≤ 4) (free : s.sb.protect ≠ 3) (works : s.sb.st ≠ 2)
    (mode : s.mode.current ≠ .update) (full : recordSectors.filter (fun k => decide ((s.sec k).st = .full)) = [k]) :
    s.compaction = { s.retireSector k with sb := { (s.retireSector k).sb with compactions := (s.retireSector k).sb.compactions + 1 } } := by
  unfold Chip.compaction
  rw [if_neg (by simp [few, free, works, mode])]
  dsimp only
  rw [full]
  rfl

/-- With nothing held, there is nothing to let proceed. -/
theorem Chip.sbRelease_none (s : Chip) (none : s.sb.held = []) : s.sbRelease = s := by
  unfold Chip.sbRelease
  split
  · rfl
  · rw [none]
    show { s with sb := { s.sb with held := [] } } = s
    rw [← none]

/-- The protection level and the store's state that a write of the level leaves (R494). -/
def Chip.protectedAt (s : Chip) (v : Nat) : Chip :=
  { s with sb := { s.sb with protect := v, st := if s.sb.st = 1 ∧ v = 3 then 3 else if s.sb.st = 3 ∧ v < 3 then 1 else s.sb.st } }

theorem Chip.protectSet_takes (s : Chip) {v : Nat} (level : v ≤ 3)
    (may : s.sb.protect ≤ v ∨ s.mode.current = .configuring ∨ s.mode.current = .update) (none : s.sb.held = []) :
    s.protectSet v = (0, s.protectedAt v) := by
  unfold Chip.protectSet
  rw [if_neg (by omega), if_neg (by rcases may with up | mode | mode <;> simp [*])]
  exact congrArg (Prod.mk 0) ((s.protectedAt v).sbRelease_none none)

/-- The store reads protected only where it did, or at level 3. -/
theorem Chip.protectedAt_st (s : Chip) {v : Nat} (now : (s.protectedAt v).sb.st = 3) : s.sb.st = 3 ∨ v = 3 := by
  simp only [Chip.protectedAt] at now
  split_ifs at now <;> omega

theorem Chip.protectSet_lower (s : Chip) {v : Nat} (lower : v < s.sb.protect) (level : v ≤ 3) (configuring : s.mode.current ≠ .configuring)
    (update : s.mode.current ≠ .update) : s.protectSet v = (Abort.wrongMode, s) := by
  unfold Chip.protectSet
  rw [if_neg (by omega), if_pos ⟨lower, configuring, update⟩]

theorem protectSet_effect {s : State} {src : Src} {v : BitVec 8} {code : Nat} {t : Chip} (acc : Accepts s.chip src 0x3000 3 1)
    (does : s.chip.protectSet v.toNat = (code, t)) : Effect (.protectSet src v) s (t.answerWrite src 0x3000 3 (bytesLE 1 v.toNat) code) :=
  dictCmd_effect rfl acc (by decide) (by decide) does

/-! ### Patrol (R348 to R350) -/

theorem Chip.scrubWrite_repairs (s : Chip) (dla : Nat) (time : s.scrubTime = true) (serves : s.onFrozen (lineNo dla) = false) :
    s.scrubWrite dla = s.repaired (lineNo dla) :=
  if_neg (by simp [time, serves])

/-- A line of HBM or DDR5 that decodes leaves nothing behind: the key of HBM stands, and no error is counted (R349). -/
theorem Chip.patrolResult_ok (s : Chip) (ln : Nat) (tier : (s.srcRec (ln / 64)).st = .hbm ∨ (s.srcRec (ln / 64)).st = .ddr)
    (keys : s.husk.hbmOff = []) : s.patrolResult ln .ok = s := by
  have key : s.useHbmKey = (true, s) := by simp [Chip.useHbmKey, HuskUnit.hbmVote, keys, Tab.get, Tab.find]
  unfold Chip.patrolResult
  dsimp only
  split
  · rfl
  · rcases tier with hbm | ddr
    · rw [hbm]
      simp [Chip.readHbm, key]
    · rw [ddr]
      simp only [Chip.readDdr]
      split <;> rfl

/-- Patrol over such a line is one more line of its tier's pass. -/
theorem Chip.patrolRead_ok (s : Chip) (dla : Nat) {k : PgState} (time : s.scrubTime = true) (serves : s.onFrozen (lineNo dla) = false)
    (rests : (s.srcRec (lineNo dla / 64)).st = k) (tier : k = .hbm ∨ k = .ddr) (keys : s.husk.hbmOff = []) :
    s.patrolRead dla .ok = s.patrolled k.code := by
  have result := s.patrolResult_ok (lineNo dla) (by rw [rests]; exact tier) keys
  have goes : (!s.scrubTime || s.onFrozen (lineNo dla) || !(s.srcRec (lineNo dla / 64)).resting
      || decide ((s.srcRec (lineNo dla / 64)).st = .nvm ∧ (s.srcRec (lineNo dla / 64)).loc = pendingLoc)) = false := by
    rcases tier with rfl | rfl <;> simp [time, serves, PageRec.resting, rests]
  unfold Chip.patrolRead
  dsimp only
  rw [goes, if_neg Bool.false_ne_true, result, rests]

theorem Chip.patrolled_within (s : Chip) {t : Nat} (within : Tab.get 0 s.integ.progress t + 1 < s.patrolLines t) :
    s.patrolled t = { s with integ := { s.integ with progress := Tab.put 0 s.integ.progress t (Tab.get 0 s.integ.progress t + 1) } } :=
  if_neg (by omega)

theorem Chip.patrolled_last (s : Chip) {t : Nat} (last : s.patrolLines t ≤ Tab.get 0 s.integ.progress t + 1) :
    s.patrolled t = { s with integ := { s.integ with
      progress := Tab.put 0 s.integ.progress t 0, lastPass := Tab.put 0 s.integ.lastPass t s.tcRec } } :=
  if_pos last

/-! ### Pools (R353) -/

theorem Chip.zeroing_may (s : Chip) (calm : s.inBurst = false) (works : s.workMode = true) : (!s.permits .zeroing || !s.spargeMode) = false := by
  simp [Chip.permits, Chip.spargeMode, calm, works]

theorem Chip.poolZero_hbm (s : Chip) (ch n : Nat) (calm : s.inBurst = false) (works : s.workMode = true) :
    s.poolZero 1 ch n = { s with map := { s.map with
      poolHbm := poolFill s.map.poolHbm n (s.cfg Obj.mapPoolTargetHbm - s.map.poolHbm) (s.tierFree .hbm) } } :=
  if_neg (by rw [s.zeroing_may calm works]; exact Bool.false_ne_true)

theorem Chip.poolZero_ddr (s : Chip) {ch : Nat} (n : Nat) (calm : s.inBurst = false) (works : s.workMode = true)
    (online : (s.onlineChans .ddr).contains ch = true) :
    s.poolZero 2 ch n = { s with map := { s.map with
      poolDdr := Tab.put 0 s.map.poolDdr ch
        (poolFill (s.poolShare ch) n (s.cfg Obj.mapPoolTargetDdr - s.poolLevelDdr) (s.chanFree ch)) } } := by
  unfold Chip.poolZero
  rw [s.zeroing_may calm works, if_neg Bool.false_ne_true]
  exact if_pos online

/-! ### The retirement log (R358) -/

/-- A log or count-slice append changes what an append may. -/
theorem Chip.sbLog_frame (s : Chip) (kind key : Nat) (payload : List Byte) : Frame sbParts (s.sbLog kind key payload) s := by
  unfold Chip.sbLog
  exact Frame.ite _ (Frame.set_sb (by decide) s _) (s.sbAppend_frame kind key payload)

/-- Outside BURST the oldest entries not yet kept go to Seedbank, and the kept index passes them. -/
theorem Chip.retlogPersist_keeps (s : Chip) (calm : s.inBurst = false) (pending : s.retPending ≠ 0) :
    s.retlogPersist.integ = { s.integ with kept := wrap32 (s.integ.kept + s.retPending) }
      ∧ Frame [.integ, .sb, .fault, .heads, .field, .free] s.retlogPersist s := by
  unfold Chip.retlogPersist
  dsimp only
  rw [calm, if_neg Bool.false_ne_true, if_neg pending]
  have slice := s.takeNat.2.sbLog_frame 2 0x100 (bytesLE 64 s.takeNat.1)
  generalize s.takeNat.2.sbLog 2 0x100 (bytesLE 64 s.takeNat.1) = u at slice
  have log := u.sbLog_frame 4 1 ((List.range s.retPending).flatMap (fun i => u.ringBytes (u.integ.kept + i)))
  generalize u.sbLog 4 1 ((List.range s.retPending).flatMap (fun i => u.ringBytes (u.integ.kept + i))) = v at log
  have taken : Frame [.free] s.takeNat.2 s := Frame.set_free (by decide) s _
  have frame : Frame [.sb, .fault, .heads, .field, .free] v s :=
    (log.mono (by decide)).trans ((slice.mono (by decide)).trans (taken.mono (by decide)))
  have integ : v.integ = s.integ := frame .integ (by decide)
  exact ⟨by rw [integ], (Frame.set_integ (by decide) v _).trans (frame.mono (by decide))⟩

end Sys2Proof.Machine

open Sys2Proof Sys2Proof.Machine

/-- Settles O27. An append that may start finds its place in the open sector; a compaction is the copying out of one sector; and with nothing
held a new protection level lets nothing proceed. -/
theorem seedbankKeepsItsRecords : Obligations.SeedbankKeepsItsRecords := by
  unfold Obligations.SeedbankKeepsItsRecords
  refine ⟨?verified, ?torn, ?log, ?compacts, ?takes, ?lower, ?restored⟩
  case verified =>
    intro s kind key payload k class_ some' short works free mode opened room seq live
    have class' : kind.val = 1 ∨ kind.val = 3 ∨ (kind.val = 2 ∧ (key.toNat < 0x100 ∨ 0x1FF < key.toNat)) :=
      class_.imp (congrArg Fin.val) (Or.imp (congrArg Fin.val) (And.imp_left (congrArg Fin.val)))
    have goes := s.chip.seedbankAppend_verified class' (List.length_pos_iff.mpr some') short
    obtain ⟨ok, recs, allowance, held⟩ := s.chip.sbAppend_open k kind key.toNat payload works free mode seq live opened room
    have frame := s.chip.sbAppend_frame kind key.toNat payload
    rw [ok] at goes
    generalize (s.chip.sbAppend kind key.toNat payload).2 = u at *
    have taken := u.valueTaken_frame true kind key.toNat payload
    have sb : (u.valueTaken true kind key.toNat payload).sb = u.sb := taken .sb (by decide)
    refine ⟨u.valueTaken true kind key.toNat payload, Effect.of_eq rfl goes, by rw [sb]; exact recs, by rw [sb]; exact allowance,
      by rw [sb]; exact held, ?value, ?others, (taken.mono (by decide)).trans (frame.mono (by decide))⟩
    case value =>
      rintro rfl r row size
      exact u.valueTaken_stores row size
    case others =>
      intro other
      rw [u.valueTaken_other true _ _ (fun same => other (Fin.ext same))]
      exact frame .rwp (by decide)
  case torn =>
    intro s kind key payload k named some' short works free mode opened room
    exact ⟨_, rfl, s.chip.seedbankAppend_torn (List.length_pos_iff.mpr some') short (fun zero => named (Fin.ext zero)) works free mode opened room⟩
  case log =>
    intro s key payload some' short protected_
    exact Effect.of_eq rfl (s.chip.seedbankAppend_held key.toNat (List.length_pos_iff.mpr some') short protected_)
  case compacts =>
    intro s k few free works mode full
    obtain ⟨gone, erased, empty, count, frame⟩ := s.chip.retireSector_facts k
    exact ⟨_, Effect.of_eq rfl (s.chip.compaction_one few free works mode full), gone, erased, empty, by rw [count],
      (Frame.set_sb (by decide) _ _).trans frame⟩
  case takes =>
    intro s src v acc level may none
    exact ⟨_, protectSet_effect acc (s.chip.protectSet_takes level may none), rfl, rfl, s.chip.protectedAt_st, Frame.set_sb (by decide) _ _⟩
  case lower =>
    intro s src v acc lower level configuring update
    exact protectSet_effect acc (s.chip.protectSet_lower lower level configuring update)
  case restored =>
    intro s none
    exact Effect.of_eq rfl (Chip.sbRelease_none _ none)

/-- Settles O28. A line read without error leaves the device to the pass of its tier; the pools fill by `poolFill`; and what goes to Seedbank
leaves the integrity unit but for the kept index. -/
theorem spargePatrolsAndTheLogIsKept : Obligations.SpargePatrolsAndTheLogIsKept := by
  unfold Obligations.SpargePatrolsAndTheLogIsKept
  refine ⟨?scrubs, ?within, ?last, ?overdue, ?hbm, ?ddr, ?fills, ?halves, ?keeps⟩
  case scrubs =>
    intro s dla time serves
    exact Effect.of_eq rfl (s.chip.scrubWrite_repairs dla.toNat time serves)
  case within =>
    intro s dla k time serves rests tier within keys
    exact Effect.of_eq rfl ((s.chip.patrolRead_ok dla.toNat time serves rests tier keys).trans (s.chip.patrolled_within within))
  case last =>
    intro s dla k time serves rests tier last keys
    exact Effect.of_eq rfl ((s.chip.patrolRead_ok dla.toNat time serves rests tier keys).trans (s.chip.patrolled_last last))
  case overdue =>
    intro s k named
    exact ⟨s.chip.raise 131, Effect.of_eq rfl (if_neg (fun zero => named (Fin.ext zero))), s.chip.raise_sticky _ _ _ _ _,
      (s.chip.raise_eq _ _ _ _ _).frame⟩
  case hbm =>
    intro s ch n calm works
    exact Effect.of_eq rfl (s.chip.poolZero_hbm ch n calm works)
  case ddr =>
    intro s ch n calm works online
    exact Effect.of_eq rfl (s.chip.poolZero_ddr n calm works online)
  case fills =>
    intro before n goal room free within
    unfold poolFill
    omega
  case halves =>
    intro s banks devices
    exact ⟨s.chip.countHalving, rfl, fun k => Tab.half_get _ k banks, fun k => Tab.half_get _ k devices, rfl, Frame.set_integ (by decide) _ _⟩
  case keeps =>
    intro s calm pending
    exact ⟨_, rfl, s.chip.retlogPersist_keeps calm pending⟩

end

section
/-!
PROOFS. Training of a Semund link, its retrains, and what takes it down (R361 to R363, R387, R389, R391).
-/
namespace Sys2Proof.Machine

/-! ### Training blocks (R362, R363) -/

/-- A training block that a link takes: its CRC is right, and it names the link. -/
def goodBlock (l : Nat) (b : BitVec 128) : Prop := ¬ (crc8 120 b.toNat ≠ bitsOf b.toNat 120 8 ∨ bitsOf b.toNat 8 8 ≠ l)

theorem goodBlock_of {l : Nat} {b : BitVec 128} (crc : crc8 120 b.toNat = bitsOf b.toNat 120 8) (link : bitsOf b.toNat 8 8 = l) : goodBlock l b :=
  fun bad => bad.elim (· crc) (· link)

theorem Chip.tsBlock_bad (s : Chip) {l : Nat} {b : BitVec 128} (bad : crc8 120 b.toNat ≠ bitsOf b.toNat 120 8 ∨ bitsOf b.toNat 8 8 ≠ l) :
    s.tsBlock l b = s :=
  if_pos bad

/-- A TS1 in DETECT or LOCK locks its lane. -/
theorem Chip.tsBlock_locks (s : Chip) {l : Nat} {b : BitVec 128} (good : goodBlock l b) (training : (s.link l).st = .training)
    (early : (s.link l).step = .detect ∨ (s.link l).step = .lock) (ts1 : bitsOf b.toNat 0 8 = 0x2D) (lane : bitsOf b.toNat 16 8 < 4) :
    s.tsBlock l b = s.setLink l { s.link l with step := .lock, lanes := setBit (s.link l).lanes (bitsOf b.toNat 16 8) true } := by
  unfold Chip.tsBlock
  rw [if_neg good]
  rcases early with detect | lock
  · simp only [training, ts1, detect, lane, if_true]
  · simp only [training, ts1, lock, lane, if_true]

/-- The first TS2 ends LOCK. -/
theorem Chip.tsBlock_configures (s : Chip) {l : Nat} {b : BitVec 128} (good : goodBlock l b) (training : (s.link l).st = .training)
    (lock : (s.link l).step = .lock) (ts2 : bitsOf b.toNat 0 8 = 0x45) :
    s.tsBlock l b = s.setLink l { s.link l with step := .config } := by
  unfold Chip.tsBlock
  rw [if_neg good]
  simp [training, ts2, lock]

/-- A TS2 in CONFIG with a common width, the same ENC flag and the key where the link encrypts settles the link's parameters. -/
theorem Chip.tsBlock_settles (s : Chip) {l : Nat} {b : BitVec 128} (good : goodBlock l b) (training : (s.link l).st = .training)
    (config : (s.link l).step = .config) (ts2 : bitsOf b.toNat 0 8 = 0x45)
    (common : widest (s.link l).lanes (bitsOf b.toNat 32 3) (s.cfgAt Obj.linkMaxWidth l) ≠ 0)
    (same : bitOf (bitsOf b.toNat 48 8) 0 = s.linkEnc l) (key : s.linkEnc l = true → s.slotLoaded l 0 = true) :
    s.tsBlock l b = s.setLink l { s.link l with
      step := .speed, width := widest (s.link l).lanes (bitsOf b.toNat 32 3) (s.cfgAt Obj.linkMaxWidth l)
      vcs := min (s.cfgAt Obj.linkVcOffer l) (bitsOf b.toNat 40 8), endpointId := bitsOf b.toNat 64 32
      peerSpeeds := bitsOf b.toNat 24 3 } := by
  have may : ¬ (widest (s.link l).lanes (bitsOf b.toNat 32 3) (s.cfgAt Obj.linkMaxWidth l) = 0 ∨ bitOf (bitsOf b.toNat 48 8) 0 ≠ s.linkEnc l
      ∨ (s.linkEnc l = true ∧ (!s.slotLoaded l 0) = true)) := by
    rintro (none | other | ⟨enc, empty⟩)
    · exact common none
    · exact other same
    · simp [key enc] at empty
  unfold Chip.tsBlock
  rw [if_neg good]
  simp only [training, ts2, config, may, Nat.reduceEqDiff, if_true, if_false]

/-- The next TS2 brings the link to INIT at the highest common speed. -/
theorem Chip.tsBlock_inits (s : Chip) {l : Nat} {b : BitVec 128} (good : goodBlock l b) (training : (s.link l).st = .training)
    (speed : (s.link l).step = .speed) (ts2 : bitsOf b.toNat 0 8 = 0x45)
    (common : highestSpeed (s.link l).peerSpeeds (s.cfgAt Obj.linkMaxSpeed l) ≠ 0) :
    s.tsBlock l b = s.enterInit l (highestSpeed (s.link l).peerSpeeds (s.cfgAt Obj.linkMaxSpeed l)) := by
  unfold Chip.tsBlock
  rw [if_neg good]
  simp [training, ts2, speed, common]

/-- On an ACTIVE link a TS1 with REPAIR starts a retrain (R387). -/
theorem Chip.tsBlock_retrains (s : Chip) {l : Nat} {b : BitVec 128} (good : goodBlock l b) (active : (s.link l).st = .active)
    (ts1 : bitsOf b.toNat 0 8 = 0x2D) (repair : bitOf (bitsOf b.toNat 48 8) 2 = true) : s.tsBlock l b = s.retrain l false := by
  unfold Chip.tsBlock
  rw [if_neg good]
  simp [active, ts1, repair]

/-! ### Limits and commands (R363, R389, R391) -/

/-- A step that overruns its limit, but for a CONFIG that encrypts and a LOCK with lanes locked, is a failure of training. -/
theorem Chip.trainingTimeout_fails (s : Chip) {l : Nat} (training : (s.link l).st = .training)
    (config : ¬ ((s.link l).step = .config ∧ s.linkEnc l = true)) (lock : ¬ ((s.link l).step = .lock ∧ (s.link l).lanes ≠ 0)) :
    s.trainingTimeout l = if 2 ≤ (s.link l).tries then (s.setLink l { s.link l with tries := 0 }).wantDown l 2
      else s.startTraining l ((s.link l).tries + 1) := by
  unfold Chip.trainingTimeout
  dsimp only
  rw [if_neg (not_not.mpr training), if_neg (fun waits => config ⟨waits.1, waits.2.1⟩), if_neg lock]

/-- The link has something to take down: it trains or is up. -/
def Link.running (k : Link) : Prop := k.st = .training ∨ k.st = .active ∨ k.st = .changing

/-- The first cause that takes a running link down is kept (R389). -/
theorem Chip.wantDown_first (s : Chip) {l : Nat} (cause : Nat) (runs : (s.link l).running) (free : (s.link l).want = none) :
    s.wantDown l cause = s.setLink l { s.link l with want := some cause } :=
  if_pos ⟨free, runs⟩

theorem Chip.autoRetrain_starts (s : Chip) {l : Nat} (down : (s.link l).st = .down) (allowed : s.cfgAt Obj.linkAutoRetrain l = 1)
    (on : s.domain (linkDomain l) = .on) : s.autoRetrain l = s.startTraining l 0 :=
  if_pos ⟨down, allowed, on⟩

theorem Chip.linkUpCmd_starts (s : Chip) {l : Nat} (on : s.domain (linkDomain l) = .on) (rests : (s.link l).st = .disabled ∨ (s.link l).st = .down) :
    s.linkUpCmd l = (0, s.startTraining l 0) := by
  unfold Chip.linkUpCmd Chip.linkUp
  rw [if_neg (not_not.mpr on), if_pos rests]

theorem Chip.linkDownCmd_asks (s : Chip) {l : Nat} (runs : (s.link l).running) : s.linkDownCmd l = (0, s.wantDown l 4) := by
  refine if_neg ?_
  rcases runs with st | st | st <;> simp [st]

/-- A command of link.command whose write passes the checks is carried out, and answered with its code. -/
theorem linkCommand_effect {i : Instr} {s : State} {src : Src} {l : Fin 8} {v : Nat} {f : Chip → Nat × Chip} {code : Nat} {t : Chip}
    (run : Effect i s (s.chip.dictCmd src (0x8010 + l) 2 1 v f)) (acc : Accepts s.chip src (0x8010 + l) 2 1) (does : f s.chip = (code, t)) :
    Effect i s (t.answerWrite src (0x8010 + l) 2 (bytesLE 1 v) code) :=
  dictCmd_effect run acc (by decide) (by decide) does

end Sys2Proof.Machine

open Sys2Proof Sys2Proof.Machine

/-- Settles O34: each block and each command is one update of its link, a retrain or the entry into INIT. -/
theorem linksTrainComeUpAndAreTakenDown : Obligations.LinksTrainComeUpAndAreTakenDown := by
  unfold Obligations.LinksTrainComeUpAndAreTakenDown
  refine ⟨?locks, ?configures, ?settles, ?inits, ?retrains, ?bad, ?again, ?third, ?auto, ?up, ?down, ?loss, ?record⟩
  case locks =>
    intro s l b crc link training early ts1 lane
    exact Effect.of_eq rfl (s.chip.tsBlock_locks (goodBlock_of crc link) training early ts1 lane)
  case configures =>
    intro s l b crc link training lock ts2
    exact Effect.of_eq rfl (s.chip.tsBlock_configures (goodBlock_of crc link) training lock ts2)
  case settles =>
    intro s l b crc link training config ts2 common same key
    exact Effect.of_eq rfl (s.chip.tsBlock_settles (goodBlock_of crc link) training config ts2 common same key)
  case inits =>
    intro s l b crc link training speed ts2 common
    obtain ⟨⟨others, frame⟩, st, step, sp, width, e, seq, held, used, limit, read⟩ := s.chip.enterInit_facts l
      (highestSpeed (s.chip.link l).peerSpeeds (s.chip.cfgAt Obj.linkMaxSpeed l))
    exact ⟨_, Effect.of_eq rfl (s.chip.tsBlock_inits (goodBlock_of crc link) training speed ts2 common), st.trans training, step, sp, width, e, seq,
      held, used, limit, read, others, frame⟩
  case retrains =>
    intro s l b crc link active _ ts1 repair
    obtain ⟨⟨w, x, r, at_⟩, raised, others, frame⟩ := s.chip.retrain_facts l false (.inl active)
    exact ⟨_, Effect.of_eq rfl (s.chip.tsBlock_retrains (goodBlock_of crc link) active ts1 repair), by rw [at_], by rw [at_],
      ⟨_, by rw [at_], rfl, rfl, rfl, rfl⟩, raised, others, frame⟩
  case bad =>
    intro s l b bad
    exact Effect.of_eq rfl (s.chip.tsBlock_bad bad)
  case again =>
    intro s l training config lock few
    exact Effect.of_eq rfl ((s.chip.trainingTimeout_fails training config lock).trans (if_neg (by omega)))
  case third =>
    intro s l training config lock many free
    refine Effect.of_eq rfl (((s.chip.trainingTimeout_fails training config lock).trans (if_pos many)).trans ?_)
    rw [Chip.wantDown_first _ 2 (by rw [Chip.link_setLink]; exact .inl training) (by rw [Chip.link_setLink]; exact free), Chip.link_setLink]
  case auto =>
    intro s l down allowed on
    exact Effect.of_eq rfl (s.chip.autoRetrain_starts down allowed on)
  case up =>
    intro s src l acc on rests
    obtain ⟨others, frame⟩ := s.chip.setLink_only l { s.chip.link l with
      st := .training, step := .detect, tries := 0, lanes := 0, initGot := 0, width := 0, speed := 0, vcs := 0
      sent := (s.chip.link l).sent ++ [.ts 0x2D 0] }
    exact ⟨_, linkCommand_effect rfl acc (s.chip.linkUpCmd_starts on rests), s.chip.link_setLink _ _, others, frame⟩
  case down =>
    intro s src l acc runs free
    have does := s.chip.linkDownCmd_asks runs
    rw [s.chip.wantDown_first 4 runs free] at does
    obtain ⟨others, frame⟩ := s.chip.setLink_only l { s.chip.link l with want := some 4 }
    exact ⟨_, linkCommand_effect rfl acc does, s.chip.link_setLink _ _, others, frame⟩
  case loss =>
    intro s l runs free
    exact Effect.of_eq rfl (s.chip.wantDown_first 7 runs free)
  case record =>
    intro s l cause runs free
    exact Effect.of_eq rfl (s.chip.wantDown_first 5 runs free)

end

section
/-!
PROOFS. Flits, acknowledgement, replay and credits of a Semund link (R363, R367, R368, R374 to R380, R388, R389).
-/
namespace Sys2Proof.Machine

/-- Only link `l` and the counters differ. -/
def LinkCounted (l : Nat) (a b : Chip) : Prop := (∀ j, j ≠ l → a.link j = b.link j) ∧ Frame [.links, .cnt] a b

theorem LinkCounted.trans {l : Nat} {a b c : Chip} (h : LinkCounted l a b) (g : LinkCounted l b c) : LinkCounted l a c :=
  ⟨fun j other => (h.1 j other).trans (g.1 j other), h.2.trans g.2⟩

theorem LinkOnly.counted {l : Nat} {a b : Chip} (h : LinkOnly l a b) : LinkCounted l a b := ⟨h.1, h.2.mono (by decide)⟩

theorem Chip.charge_counted (s : Chip) (l p d k n : Nat) : LinkCounted l (s.charge p d k n) s :=
  ⟨fun j _ => s.link_charge p d k n j, (s.charge_cnt p d k n).mono (by decide)⟩

theorem Chip.countLink_counted (s : Chip) (l e n : Nat) : LinkCounted l (s.countLink l e n) s :=
  ⟨fun j _ => s.link_countLink l e n j, (s.countLink_facts l e n).1.mono (by decide)⟩

theorem LinkCounted.cfg {l : Nat} {a b : Chip} (h : LinkCounted l a b) (k : Nat) : a.cfg k = b.cfg k :=
  Chip.cfg_of_frame h.2 (by decide) (by decide) k

/-- A control record goes out, with the link's last acceptance. -/
theorem Chip.link_sendCtl (s : Chip) (l : Nat) (r : CtlRec) : (s.sendCtl l r).link l =
    { s.link l with sent := (s.link l).sent ++ [.ctl r (((s.link l).e + 4095) % 4096)] } :=
  Chip.link_setLink _ _ _

theorem Chip.sendCtl_counted (s : Chip) (l : Nat) (r : CtlRec) : LinkCounted l (s.sendCtl l r) s := (s.sendCtl_facts l r).1.counted

/-! ### Data flits (R374) -/

/-- The link has seen one more flit. -/
def Chip.flitSeen (s : Chip) (l : Nat) : Chip := s.setLink l { s.link l with flits := (s.link l).flits + 1 }

theorem Chip.link_flitSeen (s : Chip) (l : Nat) : (s.flitSeen l).link l = { s.link l with flits := (s.link l).flits + 1 } := s.link_setLink l _

theorem Chip.flitSeen_counted (s : Chip) (l : Nat) : LinkCounted l (s.flitSeen l) s := (s.setLink_only l _).counted

/-- The flit and its charge are counted: what the discard of a flit begins with. -/
def Chip.flitCharged (s : Chip) (l : Nat) : Chip := (s.flitSeen l).charge (4 + l) 1 2 1

theorem Chip.link_flitCharged (s : Chip) (l : Nat) : (s.flitCharged l).link l = { s.link l with flits := (s.link l).flits + 1 } :=
  (Chip.link_charge _ _ _ _ _ _).trans (s.link_flitSeen l)

theorem Chip.flitCharged_counted (s : Chip) (l : Nat) : LinkCounted l (s.flitCharged l) s :=
  (Chip.charge_counted _ l _ _ _ _).trans (s.flitSeen_counted l)

/-- How far a flit is ahead of the next one expected. -/
def Chip.flitAhead (s : Chip) (l : Nat) (f : BitVec 2048) : Nat := (bitsOf f.toNat 0 12 + 4096 - (s.link l).e) % 4096

/-- A data flit of good CRC, without an acknowledgement. -/
structure DataFlitOk (f : BitVec 2048) : Prop where
  crc : flitCrc f = bitsOf f.toNat 1984 64
  data : bitOf f.toNat 12 = false
  noAck : bitOf f.toNat 28 = false

theorem Chip.dataFlit_bad (s : Chip) {l : Nat} {f : BitVec 2048} (active : (s.link l).st = .active) (bad : flitCrc f ≠ bitsOf f.toNat 1984 64) :
    s.dataFlit l f = ((s.flitCharged l).linkError l false true).sendNak l := by
  unfold Chip.dataFlit
  refine (if_pos (.inl active)).trans ?_
  exact if_pos bad

/-- What follows a flit that is the next in sequence. -/
def Chip.flitNext (s : Chip) (l : Nat) (f : BitVec 2048) : Chip :=
  if bitOf f.toNat 13 ≠ (s.flitSeen l).linkEnc l then ((s.flitCharged l).linkError l false true).nakNow l
  else match (s.flitSeen l).openFlit l f.toNat with
    | none =>
      let u : Chip := { s.flitSeen l with husk := { (s.flitSeen l).husk with tagFailures := Tab.upd 0 (s.flitSeen l).husk.tagFailures l (· + 1) } }
      (((u.charge (4 + l) 1 2 1).raise 81 (0x10 + l) 0 (.link l)).linkError l false true).nakNow l
    | some (slots, u) =>
      let n := (u.link l).rx.length
      let u := u.setLink l { u.link l with e := ((s.link l).e + 1) % 4096, nakSent := false }
      let u := (slots.zip (List.range 15)).foldl (fun s (x, i) => s.takeSlot l x (bitOf f.toNat (32 + i))) u
      (u.charge (4 + l) 1 (flitCharge ((u.link l).rx.drop n) slots) 1).sendCtl l .empty

/-- A data flit of good CRC without an acknowledgement is the next one, ahead, or old. -/
theorem Chip.dataFlit_sound (s : Chip) {l : Nat} {f : BitVec 2048} (active : (s.link l).st = .active) (ok : DataFlitOk f) :
    s.dataFlit l f = if s.flitAhead l f = 0 then s.flitNext l f
      else if s.flitAhead l f < 2048 then (s.flitCharged l).sendNak l else (s.flitCharged l).sendCtl l .empty := by
  have noAck : ∀ c : Chip, (if bitOf f.toNat 28 then c.applyAck l (bitsOf f.toNat 16 12) else c) = c := fun c => by
    rw [ok.noAck, if_neg Bool.false_ne_true]
  unfold Chip.dataFlit
  refine (if_pos (.inl active)).trans ?_
  refine (if_neg (not_not.mpr ok.crc)).trans ?_
  refine (if_neg (show ¬ bitOf f.toNat 12 = true by rw [ok.data]; exact Bool.false_ne_true)).trans ?_
  simp only [noAck]
  rfl

theorem Chip.dataFlit_ahead (s : Chip) {l : Nat} {f : BitVec 2048} (active : (s.link l).st = .active) (ok : DataFlitOk f)
    (ahead : 0 < s.flitAhead l f) (near : s.flitAhead l f < 2048) : s.dataFlit l f = (s.flitCharged l).sendNak l := by
  rw [s.dataFlit_sound active ok, if_neg (by omega), if_pos near]

theorem Chip.dataFlit_older (s : Chip) {l : Nat} {f : BitVec 2048} (active : (s.link l).st = .active) (ok : DataFlitOk f)
    (older : 2048 ≤ s.flitAhead l f) : s.dataFlit l f = (s.flitCharged l).sendCtl l .empty := by
  rw [s.dataFlit_sound active ok, if_neg (by omega), if_neg (by omega)]

/-- The slot of a plain flit at position `i`. -/
def flitSlot (f : BitVec 2048) (i : Nat) : BitVec 128 := BitVec.ofNat 128 (f.toNat >>> (64 + 128 * i))

/-- The flit was the next one: `e` advances. -/
def Chip.flitTaken (s : Chip) (l : Nat) : Chip :=
  (s.flitSeen l).setLink l { (s.flitSeen l).link l with e := ((s.link l).e + 1) % 4096, nakSent := false }

theorem Chip.link_flitTaken (s : Chip) (l : Nat) : (s.flitTaken l).link l =
    { s.link l with flits := (s.link l).flits + 1, e := ((s.link l).e + 1) % 4096, nakSent := false } := by
  rw [Chip.flitTaken, Chip.link_setLink, s.link_flitSeen l]

theorem Chip.flitTaken_counted (s : Chip) (l : Nat) : LinkCounted l (s.flitTaken l) s :=
  ((Chip.setLink_only _ l _).counted).trans (s.flitSeen_counted l)

/-- The slots of a flit are taken in their order, each with its starts bit (R367). -/
def Chip.takeSlots (s : Chip) (l : Nat) (f : BitVec 2048) : Chip :=
  (((List.range 15).map (flitSlot f)).zip (List.range 15)).foldl (fun s (x, i) => s.takeSlot l x (bitOf f.toNat (32 + i))) s

/-- The next flit in sequence of a link without encryption is accepted: its slots are taken, its charge counted, and an ack goes out. -/
theorem Chip.dataFlit_next (s : Chip) {l : Nat} {f : BitVec 2048} (active : (s.link l).st = .active) (ok : DataFlitOk f)
    (next : bitsOf f.toNat 0 12 = (s.link l).e) (plain : bitOf f.toNat 13 = false) (clear : s.linkEnc l = false) :
    ∃ kind, s.dataFlit l f = (((s.flitTaken l).takeSlots l f).charge (4 + l) 1 kind 1).sendCtl l .empty := by
  have ahead : s.flitAhead l f = 0 := by
    unfold Chip.flitAhead
    rw [next, Nat.add_sub_cancel_left]
  have opened : (s.flitSeen l).openFlit l f.toNat = some ((List.range 15).map (flitSlot f), s.flitSeen l) :=
    if_neg (show ¬ s.linkEnc l = true by rw [clear]; exact Bool.false_ne_true)
  have plain' : ¬ bitOf f.toNat 13 ≠ (s.flitSeen l).linkEnc l := by
    rw [plain, show (s.flitSeen l).linkEnc l = s.linkEnc l from rfl, clear]
    exact not_not.mpr rfl
  refine ⟨flitCharge ((((s.flitTaken l).takeSlots l f).link l).rx.drop ((s.flitSeen l).link l).rx.length) ((List.range 15).map (flitSlot f)), ?_⟩
  rw [s.dataFlit_sound active ok, if_pos ahead]
  unfold Chip.flitNext
  rw [if_neg plain', opened]
  rfl

/-- A packet of one slot that keeps its limits joins the receive buffer (R369, R371). -/
theorem Chip.takeSlot_single (s : Chip) {l : Nat} {x : BitVec 128} (none : (s.link l).partialSlots = []) (single : bitsOf x.toNat 24 8 = 0)
    (ok : packetOk (s.link l).vcs (s.cohVc l) (packetOf [x]) = true) :
    LinkCounted l (s.takeSlot l x true) s ∧ ∃ r w u, (s.takeSlot l x true).link l = { s.link l with
      partialSlots := [], resync := false, rx := (s.link l).rx ++ [packetOf [x]], recv := r, wbUsed := w, readUsed := u } := by
  have starts : s.takeSlot l x true = (s.setLink l { s.link l with partialSlots := [], resync := false }).takePacket l (packetOf [x]) := by
    unfold Chip.takeSlot
    dsimp only
    rw [none, if_pos rfl]
    exact if_pos single
  rw [starts]
  have at_ := s.link_setLink l { s.link l with partialSlots := [], resync := false }
  have only := s.setLink_only l { s.link l with partialSlots := [], resync := false }
  have vc : (s.setLink l { s.link l with partialSlots := [], resync := false }).cohVc l = s.cohVc l := rfl
  generalize s.setLink l { s.link l with partialSlots := [], resync := false } = c at *
  unfold Chip.takePacket
  dsimp only
  rw [if_pos (by rw [at_, vc]; exact ok), Chip.link_setLink, at_]
  exact ⟨((c.setLink_only l _).trans only).counted, _, _, _, rfl⟩

/-- An idle slot between packets leaves the link alone. -/
theorem Chip.takeSlot_idle (s : Chip) {l : Nat} (none : (s.link l).partialSlots = []) : s.takeSlot l 0 false = s := by
  unfold Chip.takeSlot
  dsimp only
  rw [none, if_neg Bool.false_ne_true]
  exact if_pos (.inr rfl)

/-- Slots that are idle leave the link alone. -/
theorem Chip.takeSlots_idle (s : Chip) {l : Nat} (f : BitVec 2048) (none : (s.link l).partialSlots = []) (is : List Nat)
    (idle : ∀ i ∈ is, flitSlot f i = 0 ∧ bitOf f.toNat (32 + i) = false) :
    is.foldl (fun s i => s.takeSlot l (flitSlot f i) (bitOf f.toNat (32 + i))) s = s := by
  induction is with
  | nil => rfl
  | cons i is ih =>
    obtain ⟨zero, off⟩ := idle i (by simp)
    rw [List.foldl_cons, zero, off, s.takeSlot_idle none]
    exact ih fun j mem => idle j (List.mem_cons_of_mem _ mem)

/-- A list paired with a map of it. -/
theorem zip_map_self {α β : Type} (g : α → β) (l : List α) : (l.map g).zip l = l.map fun a => (g a, a) := by
  induction l with
  | nil => rfl
  | cons a l ih => rw [List.map_cons, List.zip_cons_cons, ih, List.map_cons]

/-- The slots of a flit are taken from the first on. -/
theorem Chip.takeSlots_eq (s : Chip) (l : Nat) (f : BitVec 2048) : s.takeSlots l f =
    ((List.range 14).map Nat.succ).foldl (fun s i => s.takeSlot l (flitSlot f i) (bitOf f.toNat (32 + i)))
      (s.takeSlot l (flitSlot f 0) (bitOf f.toNat 32)) := by
  rw [Chip.takeSlots, zip_map_self, List.foldl_map, List.range_succ_eq_map, List.foldl_cons]

/-- A flit whose slot 0 starts a packet of one slot and whose other slots are idle brings that packet. -/
theorem Chip.takeSlots_single (s : Chip) {l : Nat} (f : BitVec 2048) (none : (s.link l).partialSlots = []) (start : bitOf f.toNat 32 = true)
    (single : bitsOf (flitSlot f 0).toNat 24 8 = 0) (idle : ∀ i : Fin 15, 1 ≤ i.val → flitSlot f i = 0 ∧ bitOf f.toNat (32 + i) = false)
    (ok : packetOk (s.link l).vcs (s.cohVc l) (packetOf [flitSlot f 0]) = true) :
    LinkCounted l (s.takeSlots l f) s ∧ ∃ r w u, (s.takeSlots l f).link l = { s.link l with
      partialSlots := [], resync := false, rx := (s.link l).rx ++ [packetOf [flitSlot f 0]], recv := r, wbUsed := w, readUsed := u } := by
  have first : s.takeSlots l f = s.takeSlot l (flitSlot f 0) true := by
    obtain ⟨-, r, w, u, at_⟩ := s.takeSlot_single none single ok
    rw [s.takeSlots_eq, start]
    refine Chip.takeSlots_idle _ f (by rw [at_]) _ fun i mem => ?_
    obtain ⟨j, small, rfl⟩ := List.mem_map.mp mem
    exact idle ⟨j + 1, by have := List.mem_range.mp small; omega⟩ (Nat.le_add_left 1 j)
  rw [first]
  exact s.takeSlot_single none single ok

/-! ### Control flits (R368) -/

/-- A control flit of good CRC without an acknowledgement. -/
structure ControlFlitOk (f : BitVec 2048) : Prop where
  crc : flitCrc f = bitsOf f.toNat 1984 64
  control : bitOf f.toNat 12 = true
  noAck : bitOf f.toNat 28 = false

/-- The record in slot `i` of a control flit. -/
def flitRecord (f : BitVec 2048) (i : Nat) : Nat := bitsOf f.toNat (64 + 128 * i) 128

/-- Its records are taken in slot order. -/
theorem Chip.controlFlit_sound (s : Chip) {l : Nat} {f : BitVec 2048} (active : (s.link l).st = .active) (ok : ControlFlitOk f) :
    s.controlFlit l f = (List.range 15).foldl (fun s i => s.ctlRecord l (flitRecord f i)) (s.flitSeen l) := by
  unfold Chip.controlFlit
  refine (if_pos (.inl active)).trans ?_
  refine (if_neg (not_not.mpr ok.crc)).trans ?_
  refine (if_neg (show ¬ (!bitOf f.toNat 12) = true by rw [ok.control]; exact Bool.false_ne_true)).trans ?_
  dsimp only
  rw [ok.noAck, if_neg Bool.false_ne_true]
  rfl

/-- An EMPTY record says nothing. -/
theorem Chip.ctlRecord_empty (s : Chip) (l : Nat) {r : Nat} (empty : bitsOf r (8 * 0) 8 = 0) : s.ctlRecord l r = s := by
  unfold Chip.ctlRecord
  simp only [empty]

/-- A DOWN record asks the link down with cause 5. -/
theorem Chip.ctlRecord_down (s : Chip) (l : Nat) {r : Nat} (down : bitsOf r (8 * 0) 8 = 0x0A) : s.ctlRecord l r = s.wantDown l 5 := by
  unfold Chip.ctlRecord
  simp only [down]

theorem Chip.ctlRecords_empty (s : Chip) (l : Nat) (f : BitVec 2048) (is : List Nat) (empty : ∀ i ∈ is, bitsOf (flitRecord f i) (8 * 0) 8 = 0) :
    is.foldl (fun s i => s.ctlRecord l (flitRecord f i)) s = s :=
  foldl_same is _ s fun i mem => s.ctlRecord_empty l (empty i mem)

/-! ### NAK and replay (R375 to R377) -/

/-- An acknowledgement of held flits releases them, and nothing that waits is sent. -/
theorem Chip.applyAck_releases (s : Chip) {l a : Nat} {f : TxFlit} (first : (s.link l).held.head? = some f) (idle : (s.link l).tx = [])
    (held : (a + 4096 - f.seq) % 4096 < (s.link l).held.length) :
    s.applyAck l a = s.setLink l { s.link l with held := (s.link l).held.drop ((a + 4096 - f.seq) % 4096 + 1), resent := 0 } := by
  obtain ⟨rest, shape⟩ : ∃ rest, (s.link l).held = f :: rest := by
    cases h : (s.link l).held with
    | nil => rw [h] at first; cases first
    | cons a rest => rw [h] at first; cases first; exact ⟨rest, rfl⟩
  unfold Chip.applyAck
  dsimp only
  rw [shape] at held ⊢
  refine (if_pos held).trans ?_
  exact Chip.pump_idle _ l (by rw [Chip.link_setLink]; exact idle)

/-- A list whose first element fails the test loses none to it. -/
theorem dropWhile_of_head {α : Type} {p : α → Bool} {l : List α} {a : α} (first : l.head? = some a) (no : p a = false) : l.dropWhile p = l := by
  cases l with
  | nil => cases first
  | cons b l => cases first; simp [no]

/-- The flits that a NAK for `n` leaves held: those from `n` on. -/
def Link.heldFrom (k : Link) (f : TxFlit) (n : Nat) : List TxFlit := k.held.drop (((n + 4095) % 4096 + 4096 - f.seq) % 4096 + 1)

/-- A NAK for a held flit releases those before it, and sends every one from it on again. -/
theorem Chip.linkNak_replays (s : Chip) {l n : Nat} {f : TxFlit} (active : (s.link l).st = .active) (idle : (s.link l).tx = [])
    (first : (s.link l).held.head? = some f) (held : ((n + 4095) % 4096 + 4096 - f.seq) % 4096 < (s.link l).held.length)
    (from_ : ((s.link l).heldFrom f n).head?.map (·.seq) = some n) :
    s.linkNak l n = ((s.countLink l 10 1).setLink l { s.link l with held := (s.link l).heldFrom f n, resent := 0 }).replayFrom l
      ((s.link l).heldFrom f n) := by
  obtain ⟨g, head, seq⟩ : ∃ g, ((s.link l).heldFrom f n).head? = some g ∧ g.seq = n := by
    cases h : ((s.link l).heldFrom f n).head? with
    | none => rw [h] at from_; cases from_
    | some g => rw [h] at from_; exact ⟨g, rfl, Option.some.inj from_⟩
  have ack : (s.countLink l 10 1).applyAck l ((n + 4095) % 4096)
      = (s.countLink l 10 1).setLink l { s.link l with held := (s.link l).heldFrom f n, resent := 0 } :=
    Chip.applyAck_releases _ first idle held
  have now : (((s.countLink l 10 1).setLink l { s.link l with held := (s.link l).heldFrom f n, resent := 0 }).link l).held
      = (s.link l).heldFrom f n := by rw [Chip.link_setLink]
  have whole : ((s.link l).heldFrom f n).dropWhile (fun f => decide (f.seq ≠ n)) = (s.link l).heldFrom f n :=
    dropWhile_of_head head (by simp [seq])
  unfold Chip.linkNak
  refine (if_pos (.inl active)).trans ?_
  dsimp only
  rw [ack, now, whole, if_neg]
  intro none
  rw [none] at head
  cases head

/-- REPLAY_TIMEOUT without a parity error sends every held flit again. -/
theorem Chip.replayTimeout_replays (s : Chip) {l : Nat} (active : (s.link l).st = .active) (held : (s.link l).held ≠ []) :
    s.replayTimeout l false = s.replayFrom l (s.link l).held :=
  if_pos ⟨active, held⟩

theorem Chip.sticky_setLink (s : Chip) (l : Nat) (k : Link) (n : Nat) : (s.setLink l k).sticky n = s.sticky n := rfl

theorem Chip.integ_setLink (s : Chip) (l : Nat) (k : Link) : (s.setLink l k).integ = s.integ := rfl

/-! ### Credits (R379, R380) -/

/-- The limits that a CREDIT record leaves. -/
def Link.limitsTaken (k : Link) (g limits : Nat) : Tab Nat :=
  (List.range 4).foldl (fun t i =>
    let v := 4 * g + i
    let n := bitsOf limits (16 * i) 16
    if v < k.vcs ∧ (n + 65536 - Tab.get 0 t v) % 65536 < 32768 then Tab.put 0 t v n else t) k.limit

/-- Each limit of a negotiated channel is taken if newer. -/
theorem Link.get_limitsTaken (k : Link) (g limits : Nat) {v : Nat} (small : v < 4) (negotiated : 4 * g + v < k.vcs) :
    Tab.get 0 (k.limitsTaken g limits) (4 * g + v) =
      if (bitsOf limits (16 * v) 16 + 65536 - Tab.get 0 k.limit (4 * g + v)) % 65536 < 32768 then bitsOf limits (16 * v) 16
      else Tab.get 0 k.limit (4 * g + v) := by
  refine (creditFold k.vcs g limits (List.range 4) k.limit v List.nodup_range).trans ?_
  simp only [List.mem_range, small, negotiated, true_and]

/-- On an ACTIVE link a CREDIT record does no more. -/
theorem Chip.linkCredit_active (s : Chip) {l : Nat} (g limits : Nat) (active : (s.link l).st = .active) (idle : (s.link l).tx = []) :
    s.linkCredit l g limits = s.setLink l { s.link l with limit := (s.link l).limitsTaken g limits, initGot := (s.link l).initGot ||| 2 ^ g } := by
  unfold Chip.linkCredit
  refine (if_pos (.inl active)).trans ?_
  simp only [active, reduceCtorEq, false_and, if_false]
  exact Chip.pump_idle _ l (by rw [Chip.link_setLink]; exact idle)

/-- In INIT the last group of CREDIT records brings the link up. -/
theorem Chip.linkCredit_up (s : Chip) {l : Nat} (g limits : Nat) (training : (s.link l).st = .training) (init : (s.link l).step = .init)
    (idle : (s.link l).tx = []) (low : bitOf ((s.link l).initGot ||| 2 ^ g) 0 = true)
    (high : (s.link l).vcs ≤ 4 ∨ bitOf ((s.link l).initGot ||| 2 ^ g) 1 = true) :
    s.linkCredit l g limits = s.setLink l { s.link l with
      limit := (s.link l).limitsTaken g limits, initGot := (s.link l).initGot ||| 2 ^ g, st := .active, step := .none, tries := 0 } := by
  unfold Chip.linkCredit
  refine (if_pos (.inr (.inr ⟨training, init⟩))).trans ?_
  simp only [training, low, high, and_self, if_true]
  exact Chip.pump_idle _ l (by rw [Chip.link_setLink]; exact idle)

/-- How far a 16-bit limit is above a counter. -/
def raisedBy (n old : Nat) : Nat := (n + 65536 - old % 65536) % 65536

/-- A read limit within the ceiling is raised, and its record goes out. -/
theorem Chip.raiseReadLimit_raises (s : Chip) {l n : Nat} (active : (s.link l).st = .active) (up : 0 < raisedBy n (s.link l).readLimit)
    (newer : raisedBy n (s.link l).readLimit < 32768) (ahead : (s.link l).readLimit + raisedBy n (s.link l).readLimit - (s.link l).readUsed ≤ 48)
    (ceiling : (s.link l).readLimit + raisedBy n (s.link l).readLimit - (s.link l).readUsed + s.answersOwed l ≤ s.readCeiling l) :
    s.raiseReadLimit l n
      = (s.setLink l { s.link l with readLimit := (s.link l).readLimit + raisedBy n (s.link l).readLimit }).sendCtl l (.creditRd n) :=
  if_pos ⟨active, up, newer, ahead, ceiling⟩

theorem Chip.raiseWbLimit_raises (s : Chip) {l n : Nat} (active : (s.link l).st = .active) (up : 0 < raisedBy n (s.link l).wbLimit)
    (newer : raisedBy n (s.link l).wbLimit < 32768)
    (ahead : (s.link l).wbLimit + raisedBy n (s.link l).wbLimit - (s.link l).wbUsed ≤ s.cfgAt Obj.linkWbCredits l) :
    s.raiseWbLimit l n
      = (s.setLink l { s.link l with wbLimit := (s.link l).wbLimit + raisedBy n (s.link l).wbLimit }).sendCtl l (.creditWb n) :=
  if_pos ⟨active, up, newer, ahead⟩

end Sys2Proof.Machine

open Sys2Proof Sys2Proof.Machine

/-- Settles O35: each flit, record and limit is one of the link layer's own updates, told for link `l` and for the others. -/
theorem flitsAreAcceptedReplayedAndCredited : Obligations.FlitsAreAcceptedReplayedAndCredited := by
  unfold Obligations.FlitsAreAcceptedReplayedAndCredited
  refine ⟨?accepted, ?bad, ?ahead, ?older, ?empty, ?down, ?nak, ?credit, ?up, ?read, ?wb, ?refresh, ?replay, ?parity⟩
  case accepted =>
    intro s l f active crc data next plain clear noAck none start single idle ok
    obtain ⟨kind, does⟩ := s.chip.dataFlit_next active ⟨crc, data, noAck⟩ next plain clear
    have taken := s.chip.flitTaken_counted l
    have at_ := s.chip.link_flitTaken l
    have vc : (s.chip.flitTaken l).cohVc l = s.chip.cohVc l := rfl
    generalize s.chip.flitTaken l = a at *
    obtain ⟨slots, r, w, u, got⟩ := a.takeSlots_single f (by rw [at_]; exact none) start single idle (by rw [at_, vc]; exact ok)
    generalize a.takeSlots l f = b at *
    have charged := b.charge_counted l (4 + l) 1 kind 1
    have same := b.link_charge (4 + l) 1 kind 1 l
    generalize b.charge (4 + l) 1 kind 1 = c at *
    obtain ⟨others, frame⟩ := (c.sendCtl_counted l .empty).trans (charged.trans (slots.trans taken))
    refine ⟨_, Effect.of_eq rfl does, ?_, ?_, ?_, ?_, ?_, ?_, ?_, others, frame⟩ <;> rw [c.link_sendCtl, same, got, at_]
    · rfl
    · exact active
  case bad =>
    intro s l f active bad errs crcs
    have does := s.chip.dataFlit_bad active bad
    have charged := s.chip.flitCharged_counted l
    have at_ := s.chip.link_flitCharged l
    have cfg := charged.cfg
    generalize s.chip.flitCharged l = a at *
    obtain ⟨⟨e, r, counted⟩, only⟩ := a.linkError_facts l false true (by rw [at_, cfg, cfg]; exact errs) (fun _ => by rw [at_, cfg, cfg]; exact crcs)
    generalize a.linkError l false true = b at *
    obtain ⟨⟨sent, nak, out⟩, others, frame⟩ := b.sendNak_facts l
    obtain ⟨others, frame⟩ := LinkCounted.trans ⟨others, frame⟩ (only.counted.trans charged)
    rw [counted, at_] at nak out
    refine ⟨_, Effect.of_eq rfl does, ?_, ?_, ?_, ?_, ?_, ?_, ?_, others, frame⟩ <;> rw [nak]
    · exact out
    · exact active
  case ahead =>
    intro s l f active crc data ahead near noAck
    have does := s.chip.dataFlit_ahead active ⟨crc, data, noAck⟩ ahead near
    have charged := s.chip.flitCharged_counted l
    have at_ := s.chip.link_flitCharged l
    generalize s.chip.flitCharged l = a at *
    obtain ⟨⟨sent, nak, out⟩, others, frame⟩ := a.sendNak_facts l
    obtain ⟨others, frame⟩ := LinkCounted.trans ⟨others, frame⟩ charged
    rw [at_] at nak out
    refine ⟨_, Effect.of_eq rfl does, ?_, ?_, ?_, ?_, ?_, others, frame⟩ <;> rw [nak]
    exact out
  case older =>
    intro s l f active crc data older noAck
    have does := s.chip.dataFlit_older active ⟨crc, data, noAck⟩ older
    have charged := s.chip.flitCharged_counted l
    have at_ := s.chip.link_flitCharged l
    generalize s.chip.flitCharged l = a at *
    obtain ⟨others, frame⟩ := (a.sendCtl_counted l .empty).trans charged
    refine ⟨_, Effect.of_eq rfl does, ?_, ?_, ?_, ?_, others, frame⟩ <;> rw [a.link_sendCtl, at_]
  case empty =>
    intro s l f active crc control noAck empty
    exact Effect.of_eq rfl ((s.chip.controlFlit_sound active ⟨crc, control, noAck⟩).trans
      (Chip.ctlRecords_empty _ l f _ fun i mem => empty i (List.mem_range.mp mem)))
  case down =>
    intro s l f active free crc control noAck down empty
    have does := s.chip.controlFlit_sound active ⟨crc, control, noAck⟩
    have at_ := s.chip.link_flitSeen l
    have seen := s.chip.setLink_only l { s.chip.link l with flits := (s.chip.link l).flits + 1 }
    change LinkOnly l (s.chip.flitSeen l) s.chip at seen
    generalize s.chip.flitSeen l = a at *
    rw [List.range_succ_eq_map, List.foldl_cons, a.ctlRecord_down l (r := flitRecord f 0) down, Chip.ctlRecords_empty _ l f _ fun i mem => by
        obtain ⟨j, small, rfl⟩ := List.mem_map.mp mem
        exact empty ⟨j + 1, by have := List.mem_range.mp small; omega⟩ (Nat.le_add_left 1 j),
      a.wantDown_first 5 (by rw [at_]; exact .inr (.inl active)) (by rw [at_]; exact free)] at does
    obtain ⟨others, frame⟩ := (a.setLink_only l { a.link l with want := some 5 }).trans seen
    exact ⟨_, Effect.of_eq rfl does, by rw [Chip.link_setLink, at_], others, frame⟩
  case nak =>
    intro s l n f active idle first held from_ calm
    have does := s.chip.linkNak_replays active idle first held from_
    have counted := (s.chip.countLink_counted l 10 1)
    have released := ((s.chip.countLink l 10 1).setLink_only l { s.chip.link l with held := (s.chip.link l).heldFrom f n.toNat, resent := 0 }).counted
    have at_ := (s.chip.countLink l 10 1).link_setLink l { s.chip.link l with held := (s.chip.link l).heldFrom f n.toNat, resent := 0 }
    have base := released.trans counted
    have cfg := base.cfg
    clear released counted
    generalize (s.chip.countLink l 10 1).setLink l { s.chip.link l with held := (s.chip.link l).heldFrom f n.toNat, resent := 0 } = a at *
    obtain ⟨⟨r, again⟩, others, frame⟩ := a.replayFrom_calm l ((s.chip.link l).heldFrom f n.toNat) (by rw [at_, cfg]; exact calm)
    obtain ⟨others, frame⟩ := LinkCounted.trans ⟨others, frame⟩ base
    exact ⟨_, r, Effect.of_eq rfl does, by rw [again, at_]; rfl, others, frame⟩
  case credit =>
    intro s l g limits active idle
    obtain ⟨others, frame⟩ := s.chip.setLink_only l { s.chip.link l with
      limit := (s.chip.link l).limitsTaken g.toNat limits.toNat, initGot := (s.chip.link l).initGot ||| 2 ^ g.toNat }
    refine ⟨_, Effect.of_eq rfl (s.chip.linkCredit_active g.toNat limits.toNat active idle), fun v small negotiated => ?_,
      ⟨_, _, s.chip.link_setLink _ _⟩, others, frame⟩
    rw [Chip.link_setLink]
    exact (s.chip.link l).get_limitsTaken g.toNat limits.toNat small negotiated
  case up =>
    intro s l g limits training init idle low high
    have does := s.chip.linkCredit_up g.toNat limits.toNat training init idle low high
    obtain ⟨others, frame⟩ := s.chip.setLink_only l { s.chip.link l with
      limit := (s.chip.link l).limitsTaken g.toNat limits.toNat, initGot := (s.chip.link l).initGot ||| 2 ^ g.toNat
      st := .active, step := .none, tries := 0 }
    refine ⟨_, Effect.of_eq rfl does, ?_, ?_, ?_, ⟨_, _, s.chip.link_setLink _ _⟩, others, frame⟩ <;> rw [Chip.link_setLink]
  case read =>
    rintro s l limit _ active rfl up newer ahead ceiling
    obtain ⟨others, frame⟩ := ((Chip.sendCtl_facts _ l (.creditRd limit.toNat)).1).trans (s.chip.setLink_only l
      { s.chip.link l with readLimit := (s.chip.link l).readLimit + raisedBy limit.toNat (s.chip.link l).readLimit })
    exact ⟨_, Effect.of_eq rfl (s.chip.raiseReadLimit_raises active up newer ahead ceiling),
      by rw [Chip.link_sendCtl, Chip.link_setLink]; rfl, others, frame⟩
  case wb =>
    rintro s l limit _ active rfl up newer ahead
    obtain ⟨others, frame⟩ := ((Chip.sendCtl_facts _ l (.creditWb limit.toNat)).1).trans (s.chip.setLink_only l
      { s.chip.link l with wbLimit := (s.chip.link l).wbLimit + raisedBy limit.toNat (s.chip.link l).wbLimit })
    exact ⟨_, Effect.of_eq rfl (s.chip.raiseWbLimit_raises active up newer ahead),
      by rw [Chip.link_sendCtl, Chip.link_setLink]; rfl, others, frame⟩
  case refresh =>
    intro s l active
    obtain ⟨adv, x, y, at_, never⟩ := s.chip.sendCredits_sent l
    obtain ⟨⟨others, frame⟩, -⟩ := s.chip.sendCredits_facts l
    exact ⟨_, x, y, Effect.of_eq rfl (if_pos active), by rw [at_], fun v small negotiated => by rw [at_]; exact never v small negotiated,
      ⟨adv, by rw [at_]⟩, others, frame⟩
  case replay =>
    intro s l active held calm
    obtain ⟨⟨r, at_⟩, others, frame⟩ := s.chip.replayFrom_calm l (s.chip.link l).held calm
    exact ⟨_, r, Effect.of_eq rfl (s.chip.replayTimeout_replays active held), at_, others, frame⟩
  case parity =>
    intro s l active held free
    obtain ⟨lost, raised, count⟩ := s.chip.parityLost_facts 0 (0x10 + l) 0
    have same := s.chip.parityLost_link 0 (0x10 + l) 0
    have does : Effect (.replayTimeout l true) s _ := Effect.of_eq rfl (s.chip.replayTimeout_parity l active held free)
    obtain ⟨others, frame⟩ := (s.chip.parityLost 0 (0x10 + l) 0).setLink_only l { s.chip.link l with want := some 8 }
    exact ⟨_, does, Chip.link_setLink _ _ _, (Chip.sticky_setLink _ _ _ _).trans raised,
      (congrArg IntegUnit.parityDirty (Chip.integ_setLink _ _ _)).trans count, fun j other => (others j other).trans (same j),
      (frame.mono (by decide)).trans (lost.mono (by decide))⟩

end

section
/-!
PROOFS. Width and speed changes of a Semund link (R381 to R387).
-/
namespace Sys2Proof.Machine

/-! ### What the endpoint asks (R383, R384) -/

/-- A scheduled operation other than a change of link `l`. -/
def SchedOp.spares (l : Nat) (o : SchedOp) : Bool := match o.kind with | .linkChange j _ => decide (j ≠ l) | _ => true

/-- The operations with the change of link `l` at their end, in place of an older one. -/
def Chip.opsDeferred (s : Chip) (l v : Nat) : List SchedOp := s.win.ops.filter (SchedOp.spares l) ++ [⟨.linkChange l v, 15, 0⟩]

/-- A planned change that both ends can take is deferred. -/
theorem Chip.changeReq_defers (s : Chip) {l id w sp : Nat} (active : (s.link l).st = .active) (free : (s.link l).change = none)
    (ok : s.changeOk l w sp = true) : ∃ t : Chip, s.changeReq l id w sp 1 = t ∧ t.link l = { s.link l with
      queued := some (w, sp), sent := (s.link l).sent ++ [.ctl (.changeDefer id) (((s.link l).e + 4095) % 4096)] }
      ∧ t.win.ops = s.opsDeferred l (w + 256 * sp) ∧ (∀ j, j ≠ l → t.link j = s.link j) ∧ Frame [.links, .win] t s := by
  let a : Chip := s.setLink l { s.link l with queued := some (w, sp) }
  let b : Chip := { a with win := { a.win with ops := a.win.ops.filter (SchedOp.spares l) } }
  have does : s.changeReq l id w sp 1 = (b.sendCtl l (.changeDefer id)).requestOp (.linkChange l (w + 256 * sp)) 15 := by
    unfold Chip.changeReq
    refine (if_neg (by simp [active])).trans ((if_neg (by simp)).trans ?_)
    split
    · next c some => exact nomatch free.symm.trans some
    · exact (if_neg (by simp [active])).trans ((if_neg (by simp [ok])).trans (if_pos rfl))
  have at_ : b.link l = { s.link l with queued := some (w, sp) } := s.link_setLink l _
  obtain ⟨others, frame⟩ := ((b.sendCtl_facts l (.changeDefer id)).1)
  obtain ⟨others', frame'⟩ := s.setLink_only l { s.link l with queued := some (w, sp) }
  refine ⟨_, does, ?_, rfl, fun j other => (others j other).trans (others' j other),
    (Frame.set_win (by decide) _ _).trans ((frame.mono (by decide)).trans ((Frame.set_win (by decide) _ _).trans (frame'.mono (by decide))))⟩
  show (b.sendCtl l (.changeDefer id)).link l = _
  rw [Chip.link_sendCtl, at_]

/-- A repair is acknowledged and begun. -/
theorem Chip.changeReq_repairs (s : Chip) {l id w sp : Nat} (active : (s.link l).st = .active) (free : (s.link l).change = none)
    (ok : s.changeOk l w sp = true) : s.changeReq l id w sp 2
      = (s.sendCtl l (.changeAck id)).goChange l { id := id, width := w, speed := sp, planned := false, leader := false } := by
  unfold Chip.changeReq
  refine (if_neg (by simp [active])).trans ((if_neg (by simp)).trans ?_)
  simp [free, active, ok]

/-- A target that one end cannot take is refused. -/
theorem Chip.changeReq_refuses (s : Chip) {l id w sp reason : Nat} (active : (s.link l).st = .active) (free : (s.link l).change = none)
    (known : reason = 1 ∨ reason = 2) (bad : s.changeOk l w sp = false) : s.changeReq l id w sp reason = s.sendCtl l (.changeRefuse id) := by
  unfold Chip.changeReq
  refine (if_neg (by simp [active])).trans ((if_neg (by omega)).trans ?_)
  simp [free, active, bad]

/-- A request that crosses the leader's own is counted. -/
theorem Chip.changeReq_crosses (s : Chip) {l id w sp reason : Nat} {c : LinkChange} (active : (s.link l).st = .active)
    (known : reason = 1 ∨ reason = 2) (own : (s.link l).change = some c) (leader : c.leader = true) (open_ : c.acked = false) :
    s.changeReq l id w sp reason = s.setLink l { s.link l with changeCrossed := (s.link l).changeCrossed + 1 } := by
  unfold Chip.changeReq
  refine (if_neg (by simp [active])).trans ((if_neg (by omega)).trans ?_)
  simp [own, leader, open_]

/-! ### The steps of a change (R382, R385) -/

/-- GO leaves with the next sequence number, and new flits stop. -/
theorem Chip.goChange_facts (s : Chip) (l : Nat) (c : LinkChange) : LinkOnly l (s.goChange l c) s ∧ (s.goChange l c).link l = { s.link l with
    st := .changing, change := some { c with acked := true }
    sent := (s.link l).sent ++ [.ctl (.changeGo c.id (s.link l).nextSeq) (((s.link l).e + 4095) % 4096)] } := by
  refine ⟨((Chip.sendCtl_facts _ l _).1).trans (s.setLink_only l _), ?_⟩
  unfold Chip.goChange
  rw [Chip.link_sendCtl, Chip.link_setLink]

theorem Chip.changeAck_goes (s : Chip) {l id : Nat} {c : LinkChange} (own : (s.link l).change = some c) (leader : c.leader = true)
    (open_ : c.acked = false) (same : c.id = id) : s.changeAck l id = s.goChange l c := by
  unfold Chip.changeAck
  simp [own, leader, open_, same]

theorem Chip.changeRefuse_ends (s : Chip) {l id : Nat} {c : LinkChange} (own : (s.link l).change = some c) (leader : c.leader = true)
    (open_ : c.acked = false) (same : c.id = id) : s.changeRefuse l id = s.setLink l { s.link l with change := none, changeResult := 2 } := by
  unfold Chip.changeRefuse
  simp [own, leader, open_, same]

theorem Chip.changeGo_retrains (s : Chip) {l id : Nat} {c : LinkChange} (own : (s.link l).change = some c) (acked : c.acked = true)
    (waits : c.retraining = false) (same : c.id = id) : s.changeGo l id = s.setLink l { s.link l with
      st := .changing, step := .lock, lanes := 0, change := some { c with retraining := true }, sent := (s.link l).sent ++ [.ts 0x2D 2] } := by
  unfold Chip.changeGo
  simp [own, acked, waits, same]

theorem Chip.changeReqTimeout_resends (s : Chip) {l : Nat} {c : LinkChange} (own : (s.link l).change = some c) (leader : c.leader = true)
    (open_ : c.acked = false) (few : c.sends < 4) : s.changeReqTimeout l
      = (s.setLink l { s.link l with change := some { c with sends := c.sends + 1 } }).sendCtl l (.changeReq c.id c.width c.speed 1) := by
  unfold Chip.changeReqTimeout
  simp [own, leader, open_, few]

theorem Chip.changeReqTimeout_retrains (s : Chip) {l : Nat} {c : LinkChange} (own : (s.link l).change = some c) (leader : c.leader = true)
    (open_ : c.acked = false) (many : 4 ≤ c.sends) : s.changeReqTimeout l = s.retrain l true := by
  unfold Chip.changeReqTimeout
  simp [own, leader, open_, many]

theorem Chip.changeTimeout_fails (s : Chip) {l : Nat} {c : LinkChange} (own : (s.link l).change = some c) (acked : c.acked = true) :
    s.changeTimeout l = (s.setLink l { s.link l with
      changeResult := if c.planned ∧ c.leader then 3 else (s.link l).changeResult }).wantDown l 3 := by
  unfold Chip.changeTimeout
  simp only [own, acked, if_true]

/-- The link at the end of a change: ACTIVE at the width that works. -/
def Link.changed (k : Link) (c : LinkChange) (w sp : Nat) : Link :=
  { k with
    st := .active, step := .none, width := w, speed := sp, change := none, nakSent := false
    changeResult := if c.planned ∧ c.leader then 1 else k.changeResult }

/-- A retraining change completes: held flits are replayed, and waiting packets leave. -/
theorem Chip.changeComplete_ends (s : Chip) {l w sp : Nat} {c : LinkChange} (own : (s.link l).change = some c) (retrains : c.retraining = true)
    (width : w = 1 ∨ w = 2 ∨ w = 4) (narrow : w ≤ c.width) (speed : sp = c.speed) : s.changeComplete l w sp =
      (if (s.link l).held = [] then s.setLink l ((s.link l).changed c w sp)
        else (s.setLink l ((s.link l).changed c w sp)).replayFrom l (s.link l).held).pump l := by
  unfold Chip.changeComplete
  simp only [own]
  exact if_pos ⟨retrains, width, narrow, speed⟩

/-- A code of a width, read as a number. -/
theorem width_toNat {w : BitVec 8} (width : w = 1 ∨ w = 2 ∨ w = 4) : w.toNat = 1 ∨ w.toNat = 2 ∨ w.toNat = 4 := by
  rcases width with rfl | rfl | rfl <;> decide

end Sys2Proof.Machine

open Sys2Proof Sys2Proof.Machine

/-- Settles O36: each message and time limit is one step of the change of link `l`. -/
theorem linkChangesFollowTheirSteps : Obligations.LinkChangesFollowTheirSteps := by
  unfold Obligations.LinkChangesFollowTheirSteps
  refine ⟨?defers, ?repairs, ?refuses, ?crosses, ?acks, ?wrongWay, ?refused, ?goes, ?resends, ?gives, ?overruns, ?ends, ?replays, ?commanded, ?rests⟩
  case defers =>
    rintro s l id w sp _ active free rfl ok
    obtain ⟨t, does, rest⟩ := s.chip.changeReq_defers (id := id.toNat) active free ok
    exact ⟨t, Effect.of_eq rfl does, rest⟩
  case repairs =>
    rintro s l id w sp _ active free rfl ok
    have does := s.chip.changeReq_repairs (id := id.toNat) active free ok
    obtain ⟨go, at_⟩ := (s.chip.sendCtl l (.changeAck id.toNat)).goChange_facts l
      { id := id.toNat, width := w.toNat, speed := sp.toNat, planned := false, leader := false }
    obtain ⟨others, frame⟩ := go.trans (s.chip.sendCtl_facts l (.changeAck id.toNat)).1
    refine ⟨_, Effect.of_eq rfl does, ?_, others, frame⟩
    rw [at_, Chip.link_sendCtl, List.append_assoc]
    rfl
  case refuses =>
    intro s l id w sp reason active free known bad
    have known' : reason.toNat = 1 ∨ reason.toNat = 2 := by rcases known with rfl | rfl <;> decide
    obtain ⟨others, frame⟩ := (s.chip.sendCtl_facts l (.changeRefuse id.toNat)).1
    exact ⟨_, Effect.of_eq rfl (s.chip.changeReq_refuses active free known' bad), s.chip.link_sendCtl l _, others, frame⟩
  case crosses =>
    intro s l id w sp reason c active known own leader open_
    have known' : reason.toNat = 1 ∨ reason.toNat = 2 := by rcases known with rfl | rfl <;> decide
    exact Effect.of_eq rfl (s.chip.changeReq_crosses active known' own leader open_)
  case acks =>
    intro s l id c own leader open_ same
    obtain ⟨⟨others, frame⟩, at_⟩ := s.chip.goChange_facts l c
    exact ⟨_, Effect.of_eq rfl (s.chip.changeAck_goes own leader open_ same), at_, others, frame⟩
  case wrongWay =>
    intro s l id active calm
    obtain ⟨⟨e, r, at_⟩, others, frame⟩ := s.chip.linkError_facts l true false calm (fun no => nomatch no)
    exact ⟨_, Effect.of_eq rfl (if_pos (.inl active)), ⟨e, r, at_⟩, others, frame⟩
  case refused =>
    intro s l id c own leader open_ same
    exact Effect.of_eq rfl (s.chip.changeRefuse_ends own leader open_ same)
  case goes =>
    intro s l id seq c own acked waits same
    exact Effect.of_eq rfl (s.chip.changeGo_retrains own acked waits same)
  case resends =>
    intro s l c own leader open_ few
    obtain ⟨others, frame⟩ := ((Chip.sendCtl_facts _ l (.changeReq c.id c.width c.speed 1)).1).trans
      (s.chip.setLink_only l { s.chip.link l with change := some { c with sends := c.sends + 1 } })
    exact ⟨_, Effect.of_eq rfl (s.chip.changeReqTimeout_resends own leader open_ few), by rw [Chip.link_sendCtl, Chip.link_setLink], others, frame⟩
  case gives =>
    intro s l c active own leader open_ many
    obtain ⟨⟨w, x, r, at_⟩, raised, others, frame⟩ := s.chip.retrain_facts l true (.inl active)
    exact ⟨_, Effect.of_eq rfl (s.chip.changeReqTimeout_retrains own leader open_ many), by rw [at_], by rw [at_], by rw [at_], by rw [at_],
      raised, others, frame⟩
  case overruns =>
    intro s l c own acked changing free
    have does := s.chip.changeTimeout_fails own acked
    rw [Chip.wantDown_first _ 3 (by rw [Chip.link_setLink]; exact .inr (.inr changing)) (by rw [Chip.link_setLink]; exact free)] at does
    obtain ⟨others, frame⟩ := (Chip.setLink_only _ l _).trans (s.chip.setLink_only l { s.chip.link l with
      changeResult := if c.planned ∧ c.leader then 3 else (s.chip.link l).changeResult })
    exact ⟨_, Effect.of_eq rfl does, by rw [Chip.link_setLink, Chip.link_setLink], others, frame⟩
  case ends =>
    intro s l w sp c own retrains width narrow speed none idle
    have does := s.chip.changeComplete_ends own retrains (width_toNat width) narrow speed
    rw [if_pos none, Chip.pump_idle _ l (by rw [Chip.link_setLink]; exact idle)] at does
    exact Effect.of_eq rfl does
  case replays =>
    intro s l w sp c own retrains width narrow speed some idle calm
    have does := s.chip.changeComplete_ends own retrains (width_toNat width) narrow speed
    obtain ⟨⟨r, again⟩, others, frame⟩ := (s.chip.setLink l ((s.chip.link l).changed c w.toNat sp.toNat)).replayFrom_calm l (s.chip.link l).held
      (by rw [Chip.link_setLink, (s.chip.setLink_only l _).counted.cfg]; exact calm)
    rw [Chip.link_setLink] at again
    rw [if_neg some, Chip.pump_idle _ l (by rw [again]; exact idle)] at does
    obtain ⟨others, frame⟩ := LinkCounted.trans ⟨others, frame⟩ (s.chip.setLink_only l _).counted
    exact ⟨_, r, Effect.of_eq rfl does, again, others, frame⟩
  case commanded =>
    intro s src l acc active
    have does : s.chip.linkChangeCmd l = (0, s.chip.requestOp (.linkChange l ((targetOf (s.chip.cfgAt Obj.linkChangeTarget l)).1
        + 256 * (targetOf (s.chip.cfgAt Obj.linkChangeTarget l)).2)) (s.chip.cfg Obj.linkChangeUs)) := if_neg (not_not.mpr active)
    exact ⟨_, linkCommand_effect rfl acc does, rfl, Frame.set_win (by decide) _ _⟩
  case rests =>
    intro s src l acc rests
    exact linkCommand_effect rfl acc (show s.chip.linkChangeCmd l = (Abort.channelState, s.chip) from if_pos rests)

end

section
/-!
PROOFS. Packets of a Semund endpoint (R370 to R373, R388, R393, R394, R421, R426).
-/
namespace Sys2Proof.Machine

theorem lineParts_ne_nil {start : Nat} {d : List Byte} (some : d ≠ []) : lineParts start d ≠ [] := by
  have long : d.length ≠ 0 := fun zero => some (List.length_eq_zero_iff.mp zero)
  unfold lineParts
  rw [if_neg long]
  simp

/-- The packet can be delivered and keeps the limits of its kind. -/
structure PacketGood (s : Chip) (l kind : Nat) (p : Packet) : Prop where
  delivered : s.hasPacket l p = true
  good : s.goodPacket l kind p = true

/-- A row of packet kind `kind` carries a good packet out. -/
theorem PacketGood.row {s : Chip} {l kind : Nat} {p : Packet} (good : PacketGood s l kind p) (done : Chip) :
    (if !s.hasPacket l p then s else if !s.goodPacket l kind p then s.badPacket l p else done) = done := by
  simp [good.delivered, good.good]

/-- A row of packet kind `kind` discards a packet that breaks its limits. -/
theorem badPacket_row {s : Chip} {l kind : Nat} {p : Packet} (delivered : s.hasPacket l p = true) (bad : s.goodPacket l kind p = false) (done : Chip) :
    (if !s.hasPacket l p then s else if !s.goodPacket l kind p then s.badPacket l p else done) = s.badPacket l p := by
  simp [delivered, bad]

/-- A discarded packet leaves the buffer and is a protocol error (R371, R388). -/
theorem Chip.badPacket_facts (s : Chip) (l : Nat) (p : Packet)
    (calm : ((s.link l).errs.filter (fun n => decide ((s.link l).flits < n + s.cfg Obj.linkDownWindowFlits))).length < s.cfg Obj.linkDownThreshold) :
    LinkOnly l (s.badPacket l p) s ∧ ((s.badPacket l p).link l).protocolErrors = (s.link l).protocolErrors + 1
      ∧ ((s.badPacket l p).link l).rx = (s.link l).rx.erase p := by
  obtain ⟨only, at_⟩ := s.takeRx_facts l p
  have cfg := only.counted.cfg
  unfold Chip.badPacket
  generalize s.takeRx l p = a at *
  obtain ⟨⟨e, r, counted⟩, only'⟩ := a.linkError_facts l true false (by rw [at_, cfg, cfg]; exact calm) (fun no => nomatch no)
  refine ⟨only'.trans only, ?_, ?_⟩ <;> rw [counted, at_]
  rfl

/-! ### RD and WR (R370, R372) -/

theorem Chip.countAsk_counted (s : Chip) (l k : Nat) (q : Ask) : LinkCounted l (s.countAsk k q) s :=
  ⟨fun j _ => Chip.link_of_frame (s.countAsk_frame k q 1) (by decide) j, (s.countAsk_frame k q 1).mono (by decide)⟩

theorem Chip.link_countAsk (s : Chip) (k : Nat) (q : Ask) (j : Nat) : (s.countAsk k q).link j = s.link j :=
  Chip.link_of_frame (s.countAsk_frame k q 1) (by decide) j

/-- The packet is taken and counted as a read, and as a read of a BURST in one. -/
def Chip.rdTaken (s : Chip) (l : Nat) (p : Packet) : Chip :=
  let c := (s.takeRx l p).countAsk (256 + 64 * l) (s.packetAsk l p 0)
  if c.inBurst then c.countAsk (256 + 64 * l + 12) (s.packetAsk l p 0) else c

theorem Chip.rdTaken_facts (s : Chip) (l : Nat) (p : Packet) :
    LinkCounted l (s.rdTaken l p) s ∧ (s.rdTaken l p).link l = { s.link l with rx := (s.link l).rx.erase p } := by
  obtain ⟨only, at_⟩ := s.takeRx_facts l p
  have first := (Chip.countAsk_counted _ l (256 + 64 * l) (s.packetAsk l p 0)).trans only.counted
  unfold Chip.rdTaken
  dsimp only
  split
  · exact ⟨(Chip.countAsk_counted _ l _ _).trans first, by rw [Chip.link_countAsk, Chip.link_countAsk, at_]⟩
  · exact ⟨first, by rw [Chip.link_countAsk, at_]⟩

/-- The packet is taken and counted as a write. -/
def Chip.wrTaken (s : Chip) (l : Nat) (p : Packet) : Chip := (s.takeRx l p).countAsk (256 + 64 * l + 1) (s.packetAsk l p 1)

theorem Chip.wrTaken_facts (s : Chip) (l : Nat) (p : Packet) :
    LinkCounted l (s.wrTaken l p) s ∧ (s.wrTaken l p).link l = { s.link l with rx := (s.link l).rx.erase p } := by
  obtain ⟨only, at_⟩ := s.takeRx_facts l p
  exact ⟨(Chip.countAsk_counted _ l _ _).trans only.counted, by rw [Chip.wrTaken, Chip.link_countAsk, at_]⟩

/-- The request of a read packet. -/
def packetReadReq (p : Packet) (id : Nat) : LinkReq :=
  { id := id, vc := p.vc.toNat, tag := p.tag.toNat, read := true, cmp := false, addr := pktDla p, len := p.lenM1.toNat + 1
    left := (lineAddrs (pktDla p) (p.lenM1.toNat + 1)).length }

/-- The request of a write packet. -/
def packetWriteReq (p : Packet) (id : Nat) : LinkReq :=
  { id := id, vc := p.vc.toNat, tag := p.tag.toNat, read := false, cmp := p.cmpreq, addr := pktDla p, len := p.lenM1.toNat + 1
    left := (lineParts (pktDla p) (p.data.take (p.lenM1.toNat + 1))).length }

/-- A read packet reads each line it spans, in ascending order. -/
theorem Chip.linkRd_reads (s : Chip) {l : Nat} {p : Packet} (o : Obs) (good : PacketGood s l 1 p) :
    s.linkRd l p o = (lineAddrs (pktDla p) (p.lenM1.toNat + 1)).foldl
      (fun c x => c.request ⟨0x10 + l, .pasid (c.slotOf p.pasid.toNat), .read, x, 0, 0, false, true, 0, .link l (s.link l).nextReq⟩
        (((s.rdTaken l p).newReq l (packetReadReq p (s.link l).nextReq)).noteRead (0x10 + l) (pktDla p) o))
      ((s.rdTaken l p).newReq l (packetReadReq p (s.link l).nextReq)) := by
  have id : ((s.rdTaken l p).link l).nextReq = (s.link l).nextReq := by rw [(s.rdTaken_facts l p).2]
  rw [← id]
  exact good.row _

/-- A write packet writes each part of a line. -/
theorem Chip.linkWr_writes (s : Chip) {l : Nat} {p : Packet} (o : Obs) (good : PacketGood s l 3 p) (some : p.data ≠ []) :
    s.linkWr l p o = (lineParts (pktDla p) (p.data.take (p.lenM1.toNat + 1))).foldl
      (fun c x => c.request ⟨0x10 + l, .pasid (c.slotOf p.pasid.toNat), .write, x.addr, x.mask, x.data, p.poison, true, 0,
        .link l (s.link l).nextReq⟩ o)
      ((s.wrTaken l p).newReq l (packetWriteReq p (s.link l).nextReq)) := by
  have id : ((s.wrTaken l p).link l).nextReq = (s.link l).nextReq := by rw [(s.wrTaken_facts l p).2]
  have parts : lineParts (pktDla p) (p.data.take (p.lenM1.toNat + 1)) ≠ [] :=
    lineParts_ne_nil (fun none => some ((List.take_eq_nil_iff.mp none).resolve_left (Nat.succ_ne_zero _)))
  rw [← id]
  exact (good.row _).trans (if_neg parts)

/-- A new request stands behind the link's others. -/
theorem Chip.newReq_facts (s : Chip) (l : Nat) (r : LinkReq) : LinkOnly l (s.newReq l r) s
    ∧ (s.newReq l r).link l = { s.link l with reqs := (s.link l).reqs ++ [r], nextReq := (s.link l).nextReq + 1 } :=
  ⟨s.setLink_only l _, s.link_setLink l _⟩

/-! ### WRC, FENCE, EVT and TBE (R373, R393, R394, R421, R426) -/

/-- The WRC of a leader's WR takes its tag off and counts its burst down. -/
theorem Chip.linkWrc_counts (s : Chip) {l : Nat} {p : Packet} {t : Nat × Nat × Nat} (good : PacketGood s l 4 p)
    (tag : (s.link l).wrTags.find? (fun t => decide (t.1 = p.tag.toNat)) = some t) (done : p.op = 0) : s.linkWrc l p =
      ((s.takeRx l p).setLink l { (s.takeRx l p).link l with wrTags := ((s.takeRx l p).link l).wrTags.erase t }).modBurst t.2.1 t.2.2
        (fun b => { b with left := b.left - 1 }) := by
  have tag' : ((s.takeRx l p).link l).wrTags.find? (fun t => decide (t.1 = p.tag.toNat)) = some t := by rw [(s.takeRx_facts l p).2]; exact tag
  refine (good.row _).trans ?_
  simp only [tag']
  exact if_pos done

theorem Chip.modBurst_facts (s : Chip) (c b : Nat) (f : Burst → Burst) :
    (s.modBurst c b f).hchan c = { s.hchan c with bursts := modFirst (fun x => decide (x.id = b)) f (s.hchan c).bursts }
      ∧ (∀ j, j ≠ c → (s.modBurst c b f).hchan j = s.hchan j) ∧ Frame [.hop] (s.modBurst c b f) s :=
  ⟨s.hchan_setHchan c _, fun _ other => s.hchan_setHchan_other _ other, Frame.set_hop (by decide) _ _⟩

/-- A fence of a link is due: nothing accepted before it is unfinished (R373). -/
def Chip.fenceDue (s : Chip) (l : Nat) (f : LinkFence) : Bool :=
  (s.link l).reqs.all (fun r => r.read || decide (f.req ≤ r.id))
    && s.fold.open.all (fun q => decide (q.master ≠ 0x10 + l) || decide (f.fold ≤ q.id))
    && s.fold.appends.all (fun a => decide (a.1 ≠ l ∨ f.req ≤ a.2.1))
    && s.waits.all (fun w => !w.acc.ret.appendBelow l f.req)

/-- A link's only fence is answered when it is due. -/
theorem Chip.answerFences_due (s : Chip) {l : Nat} {f : LinkFence} (only : (s.link l).fences = [f]) (due : s.fenceDue l f = true) :
    s.answerFences l = (s.setLink l { s.link l with fences := [] }).queuePacket l (mkPacket 0x08 f.vc 0 f.tag 0 0 [] 1) := by
  have go : (s.link l).fences.filter (s.fenceDue l) = [f] := by rw [only]; simp [due]
  have rest : (s.link l).fences.filter (fun g => !s.fenceDue l g) = [] := by rw [only]; simp [due]
  show ((s.link l).fences.filter (s.fenceDue l)).foldl _ (s.setLink l { s.link l with fences := (s.link l).fences.filter (fun g => !s.fenceDue l g) }) = _
  rw [go, rest]
  rfl

/-- A link's only fence waits until it is due. -/
theorem Chip.answerFences_waits (s : Chip) {l : Nat} {f : LinkFence} (only : (s.link l).fences = [f]) (not : s.fenceDue l f = false) :
    s.answerFences l = s.setLink l { s.link l with fences := [f] } := by
  have go : (s.link l).fences.filter (s.fenceDue l) = [] := by rw [only]; simp [not]
  have rest : (s.link l).fences.filter (fun g => !s.fenceDue l g) = [f] := by rw [only]; simp [not]
  show ((s.link l).fences.filter (s.fenceDue l)).foldl _ (s.setLink l { s.link l with fences := (s.link l).fences.filter (fun g => !s.fenceDue l g) }) = _
  rw [go, rest]
  rfl

/-- The fence of a FENCE packet. -/
def Chip.fenceOf (s : Chip) (l : Nat) (p : Packet) : LinkFence := ⟨p.vc.toNat, p.tag.toNat, (s.link l).nextReq, s.fold.nextId⟩

/-- The packet is taken, and its fence stands alone. -/
def Chip.fenceTaken (s : Chip) (l : Nat) (p : Packet) : Chip := (s.takeRx l p).setLink l { (s.takeRx l p).link l with
  fences := ((s.takeRx l p).link l).fences ++ [(s.takeRx l p).fenceOf l p] }

theorem Chip.linkFence_good (s : Chip) {l : Nat} {p : Packet} (good : PacketGood s l 7 p) : s.linkFence l p = (s.fenceTaken l p).answerFences l :=
  good.row _

theorem Chip.fenceTaken_facts (s : Chip) {l : Nat} (p : Packet) (none : (s.link l).fences = []) : LinkOnly l (s.fenceTaken l p) s
    ∧ (s.fenceTaken l p).link l = { s.link l with rx := (s.link l).rx.erase p, fences := [s.fenceOf l p] } := by
  obtain ⟨only, at_⟩ := s.takeRx_facts l p
  refine ⟨(Chip.setLink_only _ l _).trans only, ?_⟩
  rw [Chip.fenceTaken, Chip.link_setLink, Chip.fenceOf, at_, none]
  rfl

/-- An EVT packet is taken and counted. -/
def Chip.evtTaken (s : Chip) (l : Nat) (p : Packet) : Chip := (s.takeRx l p).countLink l 7 1

theorem Chip.evtTaken_facts (s : Chip) (l : Nat) (p : Packet) :
    LinkCounted l (s.evtTaken l p) s ∧ (s.evtTaken l p).link l = { s.link l with rx := (s.link l).rx.erase p } :=
  ⟨((s.takeRx l p).countLink_counted l 7 1).trans (s.takeRx_facts l p).1.counted,
    ((s.takeRx l p).link_countLink l 7 1 l).trans (s.takeRx_facts l p).2⟩

/-- An EVT on a line whose input is this link pulses it. -/
theorem Chip.linkEvt_pulses (s : Chip) {l : Nat} {p : Packet} (good : PacketGood s l 10 p)
    (input : s.cfgAt Obj.hopperEventLineInput p.op.toNat = 0x20 + l) : s.linkEvt l p = (s.evtTaken l p).pulse p.op.toNat :=
  (good.row _).trans (if_pos input)

/-- An EVT on another line is rejected. -/
theorem Chip.linkEvt_rejects (s : Chip) {l : Nat} {p : Packet} (good : PacketGood s l 10 p)
    (other : s.cfgAt Obj.hopperEventLineInput p.op.toNat ≠ 0x20 + l) :
    s.linkEvt l p = { s.evtTaken l p with hop := { (s.evtTaken l p).hop with rejected := (s.evtTaken l p).hop.rejected + 1 } } :=
  (good.row _).trans (if_neg other)

/-- The answer to a TBE packet: the echo, the TC twice, the epoch and the state. -/
def Chip.tbeAnswer (s : Chip) (p : Packet) : Packet :=
  mkPacket 0x0B p.vc.toNat 1 p.tag.toNat 0 0 (bytesLE 8 (natLE (p.data.take 8)) ++ bytesLE 8 s.tcRec ++ bytesLE 8 s.tcRec ++ bytesLE 2 s.tb.epoch
    ++ bytesLE 1 s.tb.code ++ bytesLE 5 0) 3

theorem Chip.linkTbe_answers (s : Chip) {l : Nat} {p : Packet} (good : PacketGood s l 11 p) :
    s.linkTbe l p = (s.takeRx l p).queuePacket l (s.tbeAnswer p) :=
  good.row _

end Sys2Proof.Machine

open Sys2Proof Sys2Proof.Machine

/-- Settles O37: the packet is taken, and each kind does its own part. -/
theorem semundPacketsReadWriteAndOrder : Obligations.SemundPacketsReadWriteAndOrder := by
  unfold Obligations.SemundPacketsReadWriteAndOrder
  refine ⟨?reads, ?writes, ?bad, ?counts, ?fenced, ?waits, ?pulses, ?rejects, ?echoes⟩
  case reads =>
    intro s l p obs has good
    obtain ⟨taken, at_⟩ := s.chip.rdTaken_facts l p
    obtain ⟨new, at_'⟩ := (s.chip.rdTaken l p).newReq_facts l (packetReadReq p (s.chip.link l).nextReq)
    obtain ⟨others, frame⟩ := new.counted.trans taken
    exact ⟨_, Effect.of_eq rfl (s.chip.linkRd_reads obs ⟨has, good⟩), by rw [at_', at_]; rfl, others, frame⟩
  case writes =>
    intro s l p obs has good some
    obtain ⟨taken, at_⟩ := s.chip.wrTaken_facts l p
    obtain ⟨new, at_'⟩ := (s.chip.wrTaken l p).newReq_facts l (packetWriteReq p (s.chip.link l).nextReq)
    obtain ⟨others, frame⟩ := new.counted.trans taken
    exact ⟨_, Effect.of_eq rfl (s.chip.linkWr_writes obs ⟨has, good⟩ some), by rw [at_', at_]; rfl, others, frame⟩
  case bad =>
    intro s l p obs i has kinds calm
    have discards : Effect i s (s.chip.badPacket l p) := by
      rcases kinds with ⟨rfl, bad⟩ | ⟨rfl, bad⟩ | ⟨rfl, bad⟩ | ⟨rfl, bad⟩ | ⟨rfl, bad⟩ | ⟨rfl, bad⟩ | ⟨rfl, bad⟩ | ⟨rfl, bad⟩ <;>
        exact Effect.of_eq rfl (badPacket_row has bad _)
    obtain ⟨⟨others, frame⟩, errors, rx⟩ := s.chip.badPacket_facts l p calm
    exact ⟨_, discards, errors, rx, others, frame⟩
  case counts =>
    intro s l p t has good tag done
    have does := s.chip.linkWrc_counts ⟨has, good⟩ tag done
    obtain ⟨only, at_⟩ := s.chip.takeRx_facts l p
    obtain ⟨others, frame⟩ := (Chip.setLink_only _ l _).trans only
    obtain ⟨mine, rest, frame'⟩ := ((s.chip.takeRx l p).setLink l { (s.chip.takeRx l p).link l with
      wrTags := ((s.chip.takeRx l p).link l).wrTags.erase t }).modBurst_facts t.2.1 t.2.2 (fun b => { b with left := b.left - 1 })
    refine ⟨_, Effect.of_eq rfl does, mine, rest, ?_, fun j other => (Chip.link_of_frame frame' (by decide) j).trans (others j other),
      (frame'.mono (by decide)).trans (frame.mono (by decide))⟩
    rw [Chip.link_of_frame frame' (by decide), Chip.link_setLink, at_]
  case fenced =>
    intro s l p has good none noReqs noFolds noAppends noWaits idle noLimit noUse
    have does := s.chip.linkFence_good ⟨has, good⟩
    obtain ⟨only, at_⟩ := s.chip.fenceTaken_facts p none
    have due : (s.chip.fenceTaken l p).fenceDue l (s.chip.fenceOf l p) = true := by
      have fold : (s.chip.fenceTaken l p).fold = s.chip.fold := rfl
      have waits : (s.chip.fenceTaken l p).waits = s.chip.waits := rfl
      simp [Chip.fenceDue, at_, fold, waits, noReqs, noFolds, noAppends, noWaits]
    generalize s.chip.fenceTaken l p = a at *
    rw [a.answerFences_due (by rw [at_]) due, Chip.queuePacket_waits _ l _ (by rw [Chip.link_setLink, at_]; exact idle)
      (by rw [Chip.link_setLink, at_]; exact noLimit) (by rw [Chip.link_setLink, at_]; exact noUse)] at does
    obtain ⟨others, frame⟩ := ((Chip.setLink_only _ l _).trans (a.setLink_only l _)).trans only
    refine ⟨_, Effect.of_eq rfl does, ?_, others, frame⟩
    rw [Chip.link_setLink, Chip.link_setLink, at_, ← none]
    rfl
  case waits =>
    intro s l p has good none unfinished
    have does := s.chip.linkFence_good ⟨has, good⟩
    obtain ⟨only, at_⟩ := s.chip.fenceTaken_facts p none
    have not : (s.chip.fenceTaken l p).fenceDue l (s.chip.fenceOf l p) = false := by
      obtain ⟨r, mem, write, before⟩ := unfinished
      have : ((s.chip.fenceTaken l p).link l).reqs.all (fun r => r.read || decide ((s.chip.fenceOf l p).req ≤ r.id)) = false := by
        rw [at_, List.all_eq_false]
        exact ⟨r, mem, by rw [write, Bool.false_or, decide_eq_true_iff]; exact Nat.not_le.mpr before⟩
      simp only [Chip.fenceDue, this, Bool.false_and]
    generalize s.chip.fenceTaken l p = a at *
    rw [a.answerFences_waits (by rw [at_]) not] at does
    obtain ⟨others, frame⟩ := (a.setLink_only l _).trans only
    refine ⟨_, Effect.of_eq rfl does, ?_, others, frame⟩
    rw [Chip.link_setLink, at_]
    rfl
  case pulses =>
    intro s l p has good input new
    have does := s.chip.linkEvt_pulses ⟨has, good⟩ input
    obtain ⟨⟨-, taken⟩, -⟩ := s.chip.evtTaken_facts l p
    obtain ⟨frame, m, q, hop⟩ := (s.chip.evtTaken l p).pulse_facts p.op.toNat new
    exact ⟨_, Effect.of_eq rfl does, ⟨m, q, hop⟩, (frame.mono (by decide)).trans (taken.mono (by decide))⟩
  case rejects =>
    intro s l p has good other
    have does := s.chip.linkEvt_rejects ⟨has, good⟩ other
    obtain ⟨⟨others, taken⟩, at_⟩ := s.chip.evtTaken_facts l p
    exact ⟨_, Effect.of_eq rfl does, rfl, at_, others, (Frame.set_hop (by decide) _ _).trans (taken.mono (by decide))⟩
  case echoes =>
    intro s l p has good idle noLimit noUse
    have does := s.chip.linkTbe_answers ⟨has, good⟩
    obtain ⟨only, at_⟩ := s.chip.takeRx_facts l p
    rw [Chip.queuePacket_waits _ l _ (by rw [at_]; exact idle) (by rw [at_]; exact noLimit) (by rw [at_]; exact noUse)] at does
    obtain ⟨others, frame⟩ := (Chip.setLink_only _ l _).trans only
    exact ⟨_, Effect.of_eq rfl does, by rw [Chip.link_setLink, at_]; rfl, others, frame⟩

end

section
/-!
PROOFS. Folds, fold aliases and capture appends (R432, R436 to R440, R444 to R446).
-/
namespace Sys2Proof.Machine

/-! ### Appends (R444 to R446) -/

/-- The state of a queue that is in use. -/
def Chip.touched (s : Chip) (q : Nat) (x : QState) : Chip :=
  { s with hop := { s.hop with queues := Tab.set s.hop.queues q { x with lru := s.hop.clock }, clock := s.hop.clock + 1 } }

theorem Chip.touchQueue_touched (s : Chip) {q : Nat} {x : QState} (loaded : s.queue q = some x) : s.touchQueue q = s.touched q x := by
  unfold Chip.touchQueue
  rw [loaded]
  rfl

theorem Chip.bringIn_touched (s : Chip) {q : Nat} (first : Bool) {x : QState} (loaded : s.queue q = some x) (cached : x.cached = true) :
    s.bringIn q first = (true, s.touched q x) := by
  unfold Chip.bringIn
  rw [loaded]
  exact (if_pos cached).trans (by rw [s.touchQueue_touched loaded])

theorem Chip.queue_touched (s : Chip) (q : Nat) (x : QState) : (s.touched q x).queue q = some { x with lru := s.hop.clock } := Tab.find_set_same _ _ _

theorem Chip.queue_touched_other (s : Chip) {q j : Nat} (x : QState) (other : j ≠ q) : (s.touched q x).queue j = s.queue j :=
  Tab.find_set_other _ _ other

/-- The queue of an APPEND packet. -/
def appendQueue (p : Packet) : Nat := bitsOf p.addr.toNat 0 20

/-- The checks of R444 but the room pass: the PASID's cask is ACTIVE and may write, and the queue is a cached CAPTURE queue bound to the PASID. -/
structure AppendChecked (s : Chip) (l : Nat) (p : Packet) (k : Nat) (x : QState) : Prop where
  slot : s.slotOf p.pasid.toNat = some k
  active : (s.cask k).state = .active
  queue : s.queue (appendQueue p) = some x
  cached : x.cached = true
  sound : x.fault = false
  capture : x.kind = 4
  bound : x.pv = true
  pasid : x.pasid = p.pasid.toNat
  may : s.may k (0x10 + l) 1 = true

/-- An append that passes the other checks waits or is dropped where there is no room, and is stored else. -/
theorem Chip.appendCheck_checked (s : Chip) {l k : Nat} {p : Packet} {x : QState} (id : Nat) (o : Obs) (ok : AppendChecked s l p k x) :
    s.appendCheck l id p o true =
      if s.fold.appends.any (fun a => decide (a.1 = l ∧ a.2.2.vc = p.vc)) = true ∨ (!x.hasRoom p) = true then
        (if s.cfgAt Obj.captureLinkFullPolicy l = 1 then
          { s.touched (appendQueue p) x with fold := { s.fold with appends := s.fold.appends ++ [(l, id, p)] } }
        else (s.touched (appendQueue p) x).appendDrop l p)
      else (s.touched (appendQueue p) x).appendStore l id p o := by
  have in_ : s.bringIn (bitsOf p.addr.toNat 0 20) true = (true, s.touched (appendQueue p) x) := s.bringIn_touched true ok.queue ok.cached
  have at_ : (s.touched (appendQueue p) x).queue (bitsOf p.addr.toNat 0 20) = some { x with lru := s.hop.clock } := s.queue_touched _ x
  unfold Chip.appendCheck
  simp only [ok.slot, in_, at_]
  refine (if_neg (not_not.mpr ok.active)).trans ?_
  refine (if_neg (by simp)).trans ((if_neg ?_).trans ((if_neg ?_).trans ((if_neg ?_).trans rfl)))
  · rintro (fault | kind)
    · exact Bool.false_ne_true (ok.sound.symm.trans fault)
    · exact kind ok.capture
  · rintro (free | other)
    · rw [ok.bound] at free
      exact Bool.false_ne_true free
    · exact other ok.pasid
  · show ¬ (!s.may k (0x10 + l) 1) = true
    rw [ok.may]
    exact Bool.false_ne_true

/-- The records' ring space is taken, and they are counted. -/
def Chip.spaceTaken (s : Chip) (p : Packet) (x : QState) : Chip :=
  let c := s.setQueue (appendQueue p) { x with accepted := (x.accepted + 16 * appendRecords p) % 2 ^ 64, dirty := true }
  { c with fold := { c.fold with records := c.fold.records + appendRecords p } }

theorem Chip.queue_spaceTaken (s : Chip) (p : Packet) (x : QState) : (s.spaceTaken p x).queue (appendQueue p)
    = some { x with accepted := (x.accepted + 16 * appendRecords p) % 2 ^ 64, dirty := true } :=
  s.queue_setQueue _ _

theorem Chip.queue_spaceTaken_other (s : Chip) {p : Packet} (x : QState) {j : Nat} (other : j ≠ appendQueue p) :
    (s.spaceTaken p x).queue j = s.queue j :=
  s.queue_setQueue_other _ other

theorem Chip.spaceTaken_frame (s : Chip) (p : Packet) (x : QState) : Frame [.hop, .fold] (s.spaceTaken p x) s :=
  (Frame.set_fold (by decide) _ _).trans (Frame.set_hop (by decide) _ _)

/-- The records of an append are written at their places from the accepted position on. -/
def Chip.recordsWritten (s : Chip) (l id : Nat) (p : Packet) (o : Obs) (x : QState) : Chip :=
  (List.range (appendRecords p)).foldl (fun c i =>
    (lineParts (x.base + (x.accepted + 16 * i) % 2 ^ 64 % x.ring) ((p.data.drop (16 * i)).take 16)).foldl (fun c y =>
      c.request ⟨0x10 + l, .pasid (c.slotOf p.pasid.toNat), .append, y.addr, y.mask, y.data, p.poison, true, 0,
        .append (appendQueue p) ((x.accepted + 16 * i) % 2 ^ 64) l id⟩ o) c) s

theorem Chip.appendStore_writes (s : Chip) (l id : Nat) {p : Packet} (o : Obs) {x : QState} (loaded : s.queue (appendQueue p) = some x) :
    s.appendStore l id p o = ((s.spaceTaken p x).recordsWritten l id p o x).answerFences l := by
  unfold Chip.appendStore
  simp only [show s.queue (bitsOf p.addr.toNat 0 20) = some x from loaded]
  rfl

/-- An APPEND packet is taken, counted and numbered. -/
def Chip.appendTaken (s : Chip) (l : Nat) (p : Packet) (n : CntUnit) : Chip :=
  ((s.takeRx l p).counted n).setLink l { ((s.takeRx l p).counted n).link l with nextReq := (((s.takeRx l p).counted n).link l).nextReq + 1 }

theorem Chip.appendTaken_facts (s : Chip) (l : Nat) (p : Packet) (n : CntUnit) : LinkCounted l (s.appendTaken l p n) s
    ∧ (s.appendTaken l p n).link l = { s.link l with rx := (s.link l).rx.erase p, nextReq := (s.link l).nextReq + 1 } := by
  obtain ⟨only, at_⟩ := s.takeRx_facts l p
  have counts : LinkCounted l ((s.takeRx l p).counted n) (s.takeRx l p) := ⟨fun _ _ => rfl, Frame.set_cnt (by decide) _ _⟩
  have same : ((s.takeRx l p).counted n).link l = (s.takeRx l p).link l := rfl
  refine ⟨((Chip.setLink_only _ l _).counted).trans (counts.trans only.counted), ?_⟩
  rw [Chip.appendTaken, Chip.link_setLink, same, at_]

theorem Chip.linkAppend_checks (s : Chip) {l : Nat} {p : Packet} (o : Obs) (good : PacketGood s l 5 p) :
    ∃ n, s.linkAppend l p o = (s.appendTaken l p n).appendCheck l (s.link l).nextReq p o true := by
  obtain ⟨n, counts⟩ := (s.takeRx l p).countAsk_eq (256 + 64 * l + 3) (s.packetAsk l p 3) (appendRecords p)
  refine ⟨n, (good.row _).trans ?_⟩
  have id : (((s.takeRx l p).counted n).link l).nextReq = (s.link l).nextReq := by
    show ((s.takeRx l p).link l).nextReq = _
    rw [(s.takeRx_facts l p).2]
  rw [counts, ← id]
  rfl

theorem Chip.appendTaken_eq (s : Chip) (l : Nat) (p : Packet) (n : CntUnit) : ∃ L, s.appendTaken l p n = { s with links := L, cnt := n } := by
  unfold Chip.appendTaken Chip.takeRx Chip.counted Chip.setLink
  exact ⟨_, rfl⟩

theorem AppendChecked.taken {s : Chip} {l k : Nat} {p : Packet} {x : QState} (ok : AppendChecked s l p k x) (n : CntUnit) :
    AppendChecked (s.appendTaken l p n) l p k x := by
  obtain ⟨L, taken⟩ := s.appendTaken_eq l p n
  rw [taken]
  exact ⟨ok.slot, ok.active, ok.queue, ok.cached, ok.sound, ok.capture, ok.bound, ok.pasid, ok.may⟩

theorem Chip.cfgAt_appendTaken (s : Chip) (l : Nat) (p : Packet) (n : CntUnit) (b i : Nat) : (s.appendTaken l p n).cfgAt b i = s.cfgAt b i := by
  obtain ⟨L, taken⟩ := s.appendTaken_eq l p n
  rw [taken]
  rfl

/-- The packet is taken, its queue in use, and its ring space taken. -/
def Chip.appendReady (s : Chip) (l : Nat) (p : Packet) (n : CntUnit) (x : QState) : Chip :=
  ((s.appendTaken l p n).touched (appendQueue p) x).spaceTaken p { x with lru := s.hop.clock }

/-- An APPEND that passes its checks, with room and none waiting, is stored. -/
theorem Chip.linkAppend_stores (s : Chip) {l k : Nat} {p : Packet} {x : QState} (o : Obs) (good : PacketGood s l 5 p) (ok : AppendChecked s l p k x)
    (none : s.fold.appends = []) (room : x.hasRoom p = true) :
    ∃ n, s.linkAppend l p o = ((s.appendReady l p n x).recordsWritten l (s.link l).nextReq p o x).answerFences l := by
  obtain ⟨n, does⟩ := s.linkAppend_checks o good
  have checked := ok.taken n
  have free : ¬ ((s.appendTaken l p n).fold.appends.any (fun a => decide (a.1 = l ∧ a.2.2.vc = p.vc)) = true ∨ (!x.hasRoom p) = true) := by
    rw [show (s.appendTaken l p n).fold.appends = [] from none, room]
    simp
  refine ⟨n, ?_⟩
  rw [does, Chip.appendCheck_checked _ _ _ checked, if_neg free, Chip.appendStore_writes _ _ _ _ (Chip.queue_touched _ _ x)]
  rfl

theorem Chip.appendReady_facts (s : Chip) (l : Nat) (p : Packet) (n : CntUnit) (x : QState) :
    (s.appendReady l p n x).queue (appendQueue p)
        = some { x with lru := s.hop.clock, accepted := (x.accepted + 16 * appendRecords p) % 2 ^ 64, dirty := true }
    ∧ (∀ j, j ≠ appendQueue p → (s.appendReady l p n x).queue j = s.queue j)
    ∧ (s.appendReady l p n x).fold = { s.fold with records := s.fold.records + appendRecords p }
    ∧ (s.appendReady l p n x).link l = { s.link l with rx := (s.link l).rx.erase p, nextReq := (s.link l).nextReq + 1 }
    ∧ (∀ j, j ≠ l → (s.appendReady l p n x).link j = s.link j) ∧ Frame [.links, .cnt, .hop, .fold] (s.appendReady l p n x) s := by
  obtain ⟨⟨others, frame⟩, at_⟩ := s.appendTaken_facts l p n
  have fold : (s.appendTaken l p n).fold = s.fold := frame .fold (by decide)
  have hop : (s.appendTaken l p n).hop = s.hop := frame .hop (by decide)
  unfold Chip.appendReady
  generalize s.appendTaken l p n = a at *
  have space := (a.touched (appendQueue p) x).spaceTaken_frame p { x with lru := s.hop.clock }
  have touch : Frame [.hop] (a.touched (appendQueue p) x) a := Frame.set_hop (by decide) _ _
  have links (j : Nat) := (Chip.link_of_frame space (by decide) j).trans (Chip.link_of_frame touch (by decide) j)
  refine ⟨?_, fun j other => ?_, ?_, (links l).trans at_, fun j other => (links j).trans (others j other),
    (space.mono (by decide)).trans ((touch.mono (by decide)).trans (frame.mono (by decide)))⟩
  · exact Chip.queue_spaceTaken _ _ _
  · rw [Chip.queue_spaceTaken_other _ _ other, Chip.queue_touched_other _ x other, Chip.queue, hop, Chip.queue]
  · rw [← fold]
    rfl

/-- The packet is taken, its queue in use, and it waits for room. -/
def Chip.appendHeld (s : Chip) (l : Nat) (p : Packet) (n : CntUnit) (x : QState) : Chip :=
  { (s.appendTaken l p n).touched (appendQueue p) x with
    fold := { (s.appendTaken l p n).fold with appends := (s.appendTaken l p n).fold.appends ++ [(l, (s.link l).nextReq, p)] } }

theorem Chip.appendHeld_facts (s : Chip) (l : Nat) (p : Packet) (n : CntUnit) (x : QState) :
    (s.appendHeld l p n x).fold = { s.fold with appends := s.fold.appends ++ [(l, (s.link l).nextReq, p)] }
    ∧ (∀ j, j ≠ appendQueue p → (s.appendHeld l p n x).queue j = s.queue j)
    ∧ (s.appendHeld l p n x).queue (appendQueue p) = some { x with lru := s.hop.clock }
    ∧ (s.appendHeld l p n x).link l = { s.link l with rx := (s.link l).rx.erase p, nextReq := (s.link l).nextReq + 1 }
    ∧ (∀ j, j ≠ l → (s.appendHeld l p n x).link j = s.link j) ∧ Frame [.links, .cnt, .hop, .fold] (s.appendHeld l p n x) s := by
  obtain ⟨⟨others, frame⟩, at_⟩ := s.appendTaken_facts l p n
  have fold : (s.appendTaken l p n).fold = s.fold := frame .fold (by decide)
  have hop : (s.appendTaken l p n).hop = s.hop := frame .hop (by decide)
  unfold Chip.appendHeld
  generalize s.appendTaken l p n = a at *
  refine ⟨by rw [fold], fun j other => ?_, ?_, at_, others,
    (Frame.set_fold (by decide) _ _).trans ((Frame.set_hop (by decide) _ _).trans (frame.mono (by decide)))⟩
  · exact (Chip.queue_touched_other a x other).trans (by rw [Chip.queue, hop, Chip.queue])
  · exact (a.queue_touched _ x).trans (by rw [hop])

/-- On a full queue under the wait policy it waits. -/
theorem Chip.linkAppend_waits (s : Chip) {l k : Nat} {p : Packet} {x : QState} (o : Obs) (good : PacketGood s l 5 p) (ok : AppendChecked s l p k x)
    (full : x.hasRoom p = false) (policy : s.cfgAt Obj.captureLinkFullPolicy l = 1) :
    ∃ n, s.linkAppend l p o = s.appendHeld l p n x := by
  obtain ⟨n, does⟩ := s.linkAppend_checks o good
  have checked := ok.taken n
  refine ⟨n, ?_⟩
  rw [does, Chip.appendCheck_checked _ _ _ checked, if_pos (.inr (by rw [full]; rfl)), s.cfgAt_appendTaken, if_pos policy]
  rfl

/-- The oldest waiting APPEND of a link, taken off. -/
theorem Chip.takeAppend_some (s : Chip) {l : Nat} {a : Nat × Nat × Packet} (oldest : s.fold.appends.find? (fun a => decide (a.1 = l)) = some a) :
    s.takeAppend l = some (a.2, { s with fold := { s.fold with appends := s.fold.appends.erase a } }) := by
  unfold Chip.takeAppend
  rw [oldest]

theorem Chip.sticky_of_frame {a b : Chip} {parts : List Part} (frame : Frame parts a b) (out : Part.fault ∉ parts) (n : Nat) :
    a.sticky n = b.sticky n := by
  have same : a.fault = b.fault := frame .fault out
  unfold Chip.sticky
  rw [same]

theorem Chip.fold_of_frame {a b : Chip} {parts : List Part} (frame : Frame parts a b) (out : Part.fold ∉ parts) : a.fold = b.fold :=
  frame .fold out

/-- Dropped records are counted with sticky bit 151 (R446). -/
theorem Chip.appendDrop_facts (s : Chip) (l : Nat) (p : Packet) (none : (s.link l).fences = []) :
    (s.appendDrop l p).sticky 151 = true
    ∧ (s.appendDrop l p).fold = { s.fold with
        recDropped := s.fold.recDropped + appendRecords p, linkDropped := Tab.upd 0 s.fold.linkDropped l (· + appendRecords p) }
    ∧ (∀ j, (s.appendDrop l p).link j = s.link j) ∧ Frame [.fold, .links, .fault, .heads, .field] (s.appendDrop l p) s := by
  unfold Chip.appendDrop
  dsimp only
  generalize counted : ({ s with fold := { s.fold with
    recDropped := s.fold.recDropped + appendRecords p, linkDropped := Tab.upd 0 s.fold.linkDropped l (· + appendRecords p) } } : Chip) = a
  have fold : a.fold = { s.fold with
      recDropped := s.fold.recDropped + appendRecords p, linkDropped := Tab.upd 0 s.fold.linkDropped l (· + appendRecords p) } := by rw [← counted]
  have base : Frame [.fold] a s := by rw [← counted]; exact Frame.set_fold (by decide) _ _
  have raised := (a.raise_eq 151 (0x10 + l) 0 (.link l) [0, 1, 2, 3]).frame
  have set := a.raise_sticky 151 (0x10 + l) 0 (.link l) [0, 1, 2, 3]
  have links (j : Nat) : (a.raise 151 (0x10 + l) 0 (.link l)).link j = s.link j :=
    (Chip.link_of_frame raised (by decide) j).trans (Chip.link_of_frame base (by decide) j)
  obtain ⟨⟨others, frame⟩, mine⟩ := (a.raise 151 (0x10 + l) 0 (.link l)).answerFences_calm l (by rw [links]; exact none)
  refine ⟨?_, ?_, fun j => ?_, (frame.mono (by decide)).trans ((raised.mono (by decide)).trans (base.mono (by decide)))⟩
  · rw [Chip.sticky_of_frame frame (by decide)]
    exact set
  · rw [Chip.fold_of_frame frame (by decide), Chip.fold_of_frame raised (by decide), fold]
  · by_cases same : j = l
    · subst same
      exact mine.trans (links j)
    · exact (others j same).trans (links j)

/-! ### Folds (R432, R439, R440) -/

/-- The line fold of a part of a FOLD packet. -/
def Chip.foldReqOf (s : Chip) (l : Nat) (p : Packet) (id : Nat) (x : LinePart) : FoldReq :=
  ⟨id, 0x10 + l, .pasid (s.slotOf p.pasid.toNat), x.addr, p.op.toNat, x.mask, x.data, p.poison, .none, s.tb.tc, p.vc.toNat⟩

/-- The line folds of a packet are queued. -/
def Chip.foldsQueued (s : Chip) (l : Nat) (p : Packet) (xs : List LinePart) : Chip :=
  xs.foldl (fun s x => s.queueFold (0x10 + l) (s.packetBind p) x.addr p.op.toNat x.mask x.data p.poison .none p.vc.toNat) s

/-- They go behind those that have not started, in order. -/
theorem Chip.foldsQueued_facts (l : Nat) (p : Packet) (xs : List LinePart) : ∀ s : Chip, Frame [.fold] (s.foldsQueued l p xs) s
    ∧ (s.foldsQueued l p xs).fold.line = s.fold.line ++ xs.mapIdx (fun i x => s.foldReqOf l p (s.fold.nextId + i) x)
    ∧ (s.foldsQueued l p xs).fold.running = s.fold.running ∧ (s.foldsQueued l p xs).fold.fences = s.fold.fences := by
  induction xs with
  | nil => exact fun s => ⟨Frame.refl _ _, (List.append_nil _).symm, rfl, rfl⟩
  | cons x xs ih =>
    intro s
    obtain ⟨frame, line, next, q, w, fold⟩ := s.queueFold_facts (0x10 + l) (s.packetBind p) x.addr p.op.toNat x.mask x.data p.poison .none p.vc.toNat
    have step : s.foldsQueued l p (x :: xs)
      = (s.queueFold (0x10 + l) (s.packetBind p) x.addr p.op.toNat x.mask x.data p.poison .none p.vc.toNat).foldsQueued l p xs := rfl
    rw [step]
    generalize s.queueFold (0x10 + l) (s.packetBind p) x.addr p.op.toNat x.mask x.data p.poison .none p.vc.toNat = a at *
    obtain ⟨frame', line', running, fences⟩ := ih a
    have req (id : Nat) (y : LinePart) : a.foldReqOf l p id y = s.foldReqOf l p id y := by
      have tb : a.tb = s.tb := frame .tb (by decide)
      unfold Chip.foldReqOf
      rw [Chip.slotOf_of_frame frame (by decide), tb]
    refine ⟨frame'.trans frame, ?_, by rw [running, fold], by rw [fences, fold]⟩
    rw [line', line, List.mapIdx_cons, List.append_assoc, next]
    simp only [req, Nat.add_zero, Nat.add_assoc, Nat.add_comm 1]
    rfl

/-- A FOLD packet is taken and counted. -/
def Chip.foldTaken (s : Chip) (l : Nat) (p : Packet) (n : CntUnit) : Chip := (s.takeRx l p).counted n

theorem Chip.foldTaken_facts (s : Chip) (l : Nat) (p : Packet) (n : CntUnit) :
    LinkCounted l (s.foldTaken l p n) s ∧ (s.foldTaken l p n).link l = { s.link l with rx := (s.link l).rx.erase p } := by
  obtain ⟨only, at_⟩ := s.takeRx_facts l p
  have counts : LinkCounted l (s.foldTaken l p n) (s.takeRx l p) := ⟨fun _ _ => rfl, Frame.set_cnt (by decide) _ _⟩
  exact ⟨counts.trans only.counted, at_⟩

theorem Chip.linkFold_queues (s : Chip) {l : Nat} {p : Packet} (good : PacketGood s l 6 p) :
    ∃ n, s.linkFold l p = (s.foldTaken l p n).foldsQueued l p (lineParts (pktDla p) (p.data.take (p.lenM1.toNat + 1))) := by
  obtain ⟨n, counts⟩ := (s.takeRx l p).countAsk_eq (256 + 64 * l + 4) (s.packetAsk l p 2) 1
  refine ⟨n, (good.row _).trans ?_⟩
  rw [counts]
  rfl

/-- The access of a line fold. -/
def FoldReq.access (q : FoldReq) : Access := ⟨q.master, q.bind, .fold, lineBase q.dla, q.mask, q.data, q.poison, true, q.op, .fold q.id⟩

/-- A line fold with none to its line before it starts. -/
theorem Chip.lineFold_starts (s : Chip) {n : Nat} {q : FoldReq} (o : Obs) (at_ : s.fold.queue[n]? = some q)
    (first : (s.fold.queue.take n ++ s.fold.running).all (fun x => decide (lineNo x.dla ≠ lineNo q.dla)) = true) :
    s.lineFold n o = (({ s with fold := { s.fold with
      queue := s.fold.queue.eraseIdx n, running := s.fold.running ++ [q] } } : Chip).requestAt q.access o).foldRefill := by
  have none : ¬ ((s.fold.queue.take n).any (fun x => decide (lineNo x.dla = lineNo q.dla))
      || s.fold.running.any (fun x => decide (lineNo x.dla = lineNo q.dla))) = true := by
    simp only [List.all_append, Bool.and_eq_true, List.all_eq_true, decide_eq_true_eq] at first
    simp only [Bool.or_eq_true, List.any_eq_true, decide_eq_true_eq]
    rintro (⟨x, mem, same⟩ | ⟨x, mem, same⟩)
    · exact first.1 x mem same
    · exact first.2 x mem same
  unfold Chip.lineFold
  rw [at_]
  exact if_neg none

/-! ### Aliases and fences (R436 to R438) -/

/-- A head's access to an address of the window of aliases goes to what is aliased there. -/
theorem Chip.request_alias (s : Chip) {h : Fin 4} {a : Access} (o : Obs) {op t d : Nat} (at_ : a.dla = d) (window : dlaWin d = .foldAlias)
    (head : a.master = h) (kind : a.kind ≠ .fold) (alias_ : s.aliasOf d = some (op, t)) : s.request a o =
      if op = 15 then s.foldFence a o else if a.kind = .read then s.requestAt { a with dla := t } o else s.aliasWrite a := by
  unfold Chip.request Chip.aliasAccess
  simp only [at_, window, alias_]
  exact if_neg (by rw [head]; simp [kind])

/-- An aliased write queues a line fold at the target with the wholly enabled fields. -/
theorem Chip.aliasWrite_queues (s : Chip) {a : Access} {op t d : Nat} (at_ : a.dla = d) (alias_ : s.aliasOf d = some (op, t)) (fold : op ≠ 15)
    (some_ : wholeFields op a.mask ≠ 0) : s.aliasWrite a = ({ s with fold := { s.fold with
      aliasPartial := s.fold.aliasPartial + foldPartial op a.mask } } : Chip).queueFold a.master a.bind t op (wholeFields op a.mask) a.data
        a.poison a.ret := by
  unfold Chip.aliasWrite
  simp only [at_, alias_]
  exact (if_neg fold).trans (if_neg some_)

/-- A fold fence is kept behind the others, and counted. -/
theorem Chip.foldFence_waits (s : Chip) {a : Access} (o : Obs) {t h tag d : Nat} {mv : Meta} (at_ : a.dla = d)
    (alias_ : s.aliasOf d = some (15, t))
    (ret : a.ret = .head h tag mv) : s.foldFence a o = { s with fold := { s.fold with
      fences := s.fold.fences ++ [⟨h, tag, t, decide (a.kind = .read), s.fold.nextId, o.burst, o.bound⟩]
      fenceCount := s.fold.fenceCount + 1 } } := by
  unfold Chip.foldFence
  rw [at_, alias_, ret]
  rfl

/-- A head's read, once counted, is requested. -/
theorem Chip.memRead_requests (s : Chip) {h : Nat} (tag dla : Nat) (mv : Meta) (o : Obs) (live : s.memLive h = true) (credit : 0 < s.readCredit h) :
    ∃ n, s.memRead h tag dla mv o = (s.counted n).request ⟨h, .byDir, .read, lineBase dla, 0, 0, false, true, 0, .head h tag mv⟩
      ((s.counted n).noteRead h (lineBase dla) o) := by
  obtain ⟨n, counts⟩ := s.countAsk_eq (64 * h) (s.headAsk h dla 0) 1
  obtain ⟨m, counts'⟩ := (s.counted n).countAsk_eq (64 * h + 4) (s.headAsk h dla 0) 1
  have taken : s.memRead h tag dla mv o =
      (if (s.counted n).inBurst then (s.counted n).countAsk (64 * h + 4) (s.headAsk h dla 0) else s.counted n).request
        ⟨h, .byDir, .read, lineBase dla, 0, 0, false, true, 0, .head h tag mv⟩
        ((if (s.counted n).inBurst then (s.counted n).countAsk (64 * h + 4) (s.headAsk h dla 0) else s.counted n).noteRead h (lineBase dla) o) := by
    rw [← counts]
    exact if_pos ⟨live, credit⟩
  rw [taken, counts']
  split
  · exact ⟨m, rfl⟩
  · exact ⟨n, rfl⟩

/-- A head's whole write, once counted, is requested. -/
theorem Chip.memWrite_requests (s : Chip) {h : Nat} (tag dla : Nat) (mv : Meta) (mask : BitVec 64) (data : Line) (poison : Bool) (o : Obs)
    (live : s.memLive h = true) : ∃ n, s.memWrite h tag dla mv mask data poison true o =
      (s.counted n).request ⟨h, .byDir, .write, lineBase dla, mask, data, poison, true, 0, .head h tag mv⟩ o := by
  obtain ⟨n, counts⟩ := s.countAsk_eq (64 * h + 1) (s.headAsk h dla 1) 1
  refine ⟨n, ?_⟩
  rw [← counts]
  exact (if_pos live).trans (if_pos rfl)

/-- A head's write of the window of aliases, once counted, is a fence or an aliased write. -/
theorem Chip.memWrite_alias (s : Chip) {h : Fin 4} {tag dla op t : Nat} {mv : Meta} {mask : BitVec 64} {data : Line} {poison : Bool} (o : Obs)
    (live : s.memLive h = true) (window : dlaWin (lineBase dla) = .foldAlias) (alias_ : s.aliasOf (lineBase dla) = some (op, t)) :
    ∃ n, (s.counted n).aliasOf (lineBase dla) = some (op, t) ∧ s.memWrite h tag dla mv mask data poison true o =
      if op = 15 then (s.counted n).foldFence ⟨h, .byDir, .write, lineBase dla, mask, data, poison, true, 0, .head h tag mv⟩ o
      else (s.counted n).aliasWrite ⟨h, .byDir, .write, lineBase dla, mask, data, poison, true, 0, .head h tag mv⟩ := by
  obtain ⟨n, does⟩ := s.memWrite_requests tag dla mv mask data poison o live
  have counted : (s.counted n).aliasOf (lineBase dla) = some (op, t) := alias_
  refine ⟨n, counted, ?_⟩
  rw [does, Chip.request_alias (h := h) (d := lineBase dla) _ o rfl window rfl (by simp) counted, if_neg (c := AccKind.write = AccKind.read) (by simp)]

/-- A head's read of the window of aliases, once counted, is a fence or a read of the target. -/
theorem Chip.memRead_alias (s : Chip) {h : Fin 4} {tag dla op t : Nat} {mv : Meta} (o : Obs)
    (live : s.memLive h = true) (credit : 0 < s.readCredit h) (window : dlaWin (lineBase dla) = .foldAlias)
    (alias_ : s.aliasOf (lineBase dla) = some (op, t)) :
    ∃ n, (s.counted n).aliasOf (lineBase dla) = some (op, t) ∧ s.memRead h tag dla mv o =
      if op = 15 then (s.counted n).foldFence ⟨h, .byDir, .read, lineBase dla, 0, 0, false, true, 0, .head h tag mv⟩
        ((s.counted n).noteRead h (lineBase dla) o)
      else (s.counted n).requestAt ⟨h, .byDir, .read, t, 0, 0, false, true, 0, .head h tag mv⟩ ((s.counted n).noteRead h (lineBase dla) o) := by
  obtain ⟨n, does⟩ := s.memRead_requests tag dla mv o live credit
  have counted : (s.counted n).aliasOf (lineBase dla) = some (op, t) := alias_
  refine ⟨n, counted, ?_⟩
  rw [does, Chip.request_alias (h := h) (d := lineBase dla) _ _ rfl window rfl (by simp) counted, if_pos (c := AccKind.read = AccKind.read) rfl]

/-- The answer of a write to a head leaves alone. -/
theorem Chip.deliver_completion (s : Chip) (h tag a : Nat) (mv : Meta) (d : Line) (p : Bool) :
    s.deliver (.head h tag mv) .write a d p = s.sendHead h (.cmp tag) := by
  simp only [Chip.deliver, Chip.deliverTo, reduceCtorEq, false_and, if_false]

/-- A fence by a write whose line folds are visible is answered by a completion. -/
theorem Chip.foldFenceDone_completes (s : Chip) {h : Nat} (o : Obs) {f : FoldFence} (oldest : s.fold.fences.find? (fun f => decide (f.h = h)) = some f)
    (write : f.read = false) (visible : s.fold.open.all (fun q => decide (f.upto ≤ q.id)) = true) :
    s.foldFenceDone h o = ({ s with fold := { s.fold with fences := s.fold.fences.erase f } } : Chip).sendHead h (.cmp f.tag) := by
  unfold Chip.foldFenceDone
  rw [oldest]
  refine (if_pos visible).trans ((if_neg (show ¬ f.read = true by rw [write]; exact Bool.false_ne_true)).trans ?_)
  exact Chip.deliver_completion _ _ _ _ _ _ _

theorem Chip.sendHead_other (s : Chip) {h j : Nat} (m : HeadMsg) (other : j ≠ h) : (s.sendHead h m).head j = s.head j := by
  unfold Chip.sendHead
  dsimp only
  split <;> exact Chip.head_setHead_other _ _ other

end Sys2Proof.Machine

open Sys2Proof Sys2Proof.Machine

/-- Settles O38: appends, folds and fences are told by what each leaves in the fold unit and its queue. -/
theorem foldsAndCaptureAppends : Obligations.FoldsAndCaptureAppends := by
  unfold Obligations.FoldsAndCaptureAppends
  refine ⟨?stores, ?waits, ?folds, ?aliasWrites, ?aliasReads, ?fences, ?answers, ?starts, ?drops, ?room⟩
  case stores =>
    intro s l p obs k x has good slot active queue cached sound capture bound pasid may none room
    obtain ⟨n, does⟩ := s.chip.linkAppend_stores obs ⟨has, good⟩ ⟨slot, active, queue, cached, sound, capture, bound, pasid, may⟩ none room
    exact ⟨s.chip.appendReady l p n x, _, Effect.of_eq rfl does, rfl, s.chip.appendReady_facts l p n x⟩
  case waits =>
    intro s l p obs k x has good slot active queue cached sound capture bound pasid may full policy
    obtain ⟨n, does⟩ := s.chip.linkAppend_waits obs ⟨has, good⟩ ⟨slot, active, queue, cached, sound, capture, bound, pasid, may⟩ full policy
    exact ⟨s.chip.appendHeld l p n x, Effect.of_eq rfl does, s.chip.appendHeld_facts l p n x⟩
  case folds =>
    intro s l p has good
    obtain ⟨n, does⟩ := s.chip.linkFold_queues ⟨has, good⟩
    obtain ⟨⟨others, frame⟩, at_⟩ := s.chip.foldTaken_facts l p n
    obtain ⟨frame', line, running, fences⟩ := Chip.foldsQueued_facts l p (lineParts (pktDla p) (p.data.take (p.lenM1.toNat + 1)))
      (s.chip.foldTaken l p n)
    have links (j : Nat) := Chip.link_of_frame frame' (by decide) j
    exact ⟨_, Effect.of_eq rfl does, line, running, fences, (links l).trans at_, fun j other => (links j).trans (others j other),
      (frame'.mono (by decide)).trans (frame.mono (by decide))⟩
  case aliasWrites =>
    intro s h tag dla mask data poison op t live window whole alias_ fold some_
    obtain ⟨n, counted, does⟩ := s.chip.memWrite_alias (tag := tag.toNat) (mv := .i) (mask := mask) (data := data) (poison := poison) {}
      live window alias_
    rw [if_neg fold, Chip.aliasWrite_queues (d := lineBase dla.toNat) _ rfl counted fold some_] at does
    obtain ⟨frame, line, -, q, w, unit⟩ := ({ s.chip.counted n with fold := { s.chip.fold with
      aliasPartial := s.chip.fold.aliasPartial + foldPartial op mask } } : Chip).queueFold_facts h .byDir t op (wholeFields op mask) data poison
        (.head h tag.toNat .i) 0
    have counts := congrArg FoldUnit.aliasPartial unit
    have runs := congrArg FoldUnit.running unit
    exact ⟨_, Effect.of_eq rfl ((if_pos whole).trans does), line, counts, runs,
      (frame.mono (by decide)).trans ((Frame.set_fold (by decide) _ _).trans (Frame.set_cnt (by decide) _ _))⟩
  case aliasReads =>
    intro s h tag dla obs op t live window whole alias_ fold credit
    obtain ⟨n, -, does⟩ := s.chip.memRead_alias (tag := tag.toNat) (mv := .a) obs live credit window alias_
    rw [if_neg fold] at does
    exact ⟨s.chip.counted n, Effect.of_eq rfl ((if_pos whole).trans does), Frame.set_cnt (by decide) _ _⟩
  case fences =>
    intro s h tag dla read t live window whole alias_ credit
    have frame (n : CntUnit) (x : FoldUnit) : Frame [.cnt, .fold] { s.chip.counted n with fold := x } s.chip :=
      (Frame.set_fold (by decide) _ _).trans (Frame.set_cnt (by decide) _ _)
    cases read with
    | false =>
      obtain ⟨n, counted, does⟩ := s.chip.memWrite_alias (tag := tag.toNat) (mv := .i) (mask := 0) (data := 0) (poison := false) {} live window alias_
      rw [if_pos rfl, Chip.foldFence_waits (d := lineBase (fenceAlias dla.toNat)) _ _ rfl counted rfl] at does
      exact ⟨_, {}, Effect.of_eq rfl ((if_pos whole).trans does), rfl, rfl, frame n _⟩
    | true =>
      obtain ⟨n, counted, does⟩ := s.chip.memRead_alias (tag := tag.toNat) (mv := .a) {} live (credit rfl) window alias_
      rw [if_pos rfl, Chip.foldFence_waits (d := lineBase (fenceAlias dla.toNat)) _ _ rfl counted rfl] at does
      exact ⟨_, _, Effect.of_eq rfl ((if_pos whole).trans does), rfl, rfl, frame n _⟩
  case answers =>
    intro s h obs f oldest write visible up
    have does := s.chip.foldFenceDone_completes obs oldest write visible
    have frame := ({ s.chip with fold := { s.chip.fold with fences := s.chip.fold.fences.erase f } } : Chip).sendHead_frame h (.cmp f.tag)
    exact ⟨_, Effect.of_eq rfl does, Chip.fold_of_frame frame (by decide), Chip.sendHead_sent _ _ _ up, fun j other => Chip.sendHead_other _ _ other,
      (frame.mono (by decide)).trans (Frame.set_fold (by decide) _ _)⟩
  case starts =>
    intro s n obs q at_ first
    exact ⟨_, Effect.of_eq rfl (s.chip.lineFold_starts obs at_ first), rfl, Frame.set_fold (by decide) _ _⟩
  case drops =>
    intro s l a oldest none
    have does : s.chip.appendExpiry l = ({ s.chip with fold := { s.chip.fold with appends := s.chip.fold.appends.erase a } } : Chip).appendDrop l a.2.2 := by
      unfold Chip.appendExpiry
      rw [s.chip.takeAppend_some oldest]
    obtain ⟨set, fold, links, frame⟩ := ({ s.chip with fold := { s.chip.fold with appends := s.chip.fold.appends.erase a } } : Chip).appendDrop_facts l
      a.2.2 none
    exact ⟨_, Effect.of_eq rfl does, set, fold, links, frame.trans (Frame.set_fold (by decide) _ _)⟩
  case room =>
    intro s l obs id p x oldest loaded room
    let c : Chip := { s.chip with fold := { s.chip.fold with appends := s.chip.fold.appends.erase (↑l, id, p) } }
    have does : s.chip.appendRoom l obs = c.appendStore l id p obs := by
      unfold Chip.appendRoom
      rw [s.chip.takeAppend_some oldest]
      simp only [loaded]
      exact if_pos room
    rw [c.appendStore_writes l id obs loaded] at does
    exact ⟨_, Effect.of_eq rfl does, c.queue_spaceTaken p x, fun j other => c.queue_spaceTaken_other x other, rfl,
      (c.spaceTaken_frame p x).trans (Frame.set_fold (by decide) _ _)⟩

end

section
/-!
PROOFS. Hopper queues, doorbells and event lines (R400 to R403, R425, R426, R428).
-/
namespace Sys2Proof.Machine

/-! ### Queue commands (R400) -/

/-- A LOAD that finds its entry good and a slot free loads the state. -/
theorem Chip.queueLoad_loads (s : Chip) {q : Nat} {x : QState} (absent : s.queue q = none) (entry : s.readEntry q = some x)
    (room : s.statesCached < 8192) : s.queueLoad q = (0, (s.setQueue q x).touched q x) := by
  have slot : s.makeSlot = some s := if_pos room
  unfold Chip.queueLoad
  simp only [absent, entry, slot, Option.isSome_none, Bool.false_eq_true, if_false]
  rw [Chip.touchQueue_touched _ (s.queue_setQueue q x)]

theorem Chip.queueLoad_owned (s : Chip) {q : Nat} (loaded : (s.queue q).isSome = true) : s.queueLoad q = (Abort.resourceOwned, s) := if_pos loaded

theorem Chip.queueLoad_bad (s : Chip) {q : Nat} (absent : s.queue q = none) (bad : s.readEntry q = none) :
    s.queueLoad q = (Abort.outOfRange, s) := by
  unfold Chip.queueLoad
  simp only [absent, bad, Option.isSome_none, Bool.false_eq_true, if_false]

/-- The write of a state to its entry in the queue table. -/
def Chip.entryWrite (s : Chip) (q : Nat) (x : QState) : Access :=
  ⟨0x60, .byDir, .write, s.entryDla q, fullMask, BitVec.ofNat 512 x.entry, false, true, 0, .none⟩

/-- A cached, sound state is written back to its entry: the entry's line, and no other byte. -/
theorem Chip.saveQueue_writes (s : Chip) {q : Nat} {x : QState} (loaded : s.queue q = some x) (cached : x.cached = true) (sound : x.fault = false)
    (aligned : s.entryDla q % 64 = 0) (held : CachedWrite s (s.entryWrite q x)) :
    ∃ w : Chip, s.saveQueue q = w.setQueue q { x with dirty := false } ∧ w.line (s.entryDla q) = BitVec.ofNat 512 x.entry
      ∧ (∀ y, y < s.entryDla q ∨ s.entryDla q + 64 ≤ y → Tab.get 0 w.mem y = Tab.get 0 s.mem y) ∧ Frame storeParts w s := by
  obtain ⟨line, -, bytes, frame⟩ := s.logWrite_cached (s.entryDla q) (bytesLE 64 x.entry) aligned (bytesLE_length 64 _)
    (by rw [ofNat_entry]; exact held)
  refine ⟨_, ?_, line.trans (ofNat_entry _), bytes, frame⟩
  unfold Chip.saveQueue
  rw [loaded]
  exact if_pos (by rw [cached, sound]; rfl)

theorem Chip.queue_of_frame {a b : Chip} {parts : List Part} (frame : Frame parts a b) (out : Part.hop ∉ parts) (q : Nat) : a.queue q = b.queue q := by
  have same : a.hop = b.hop := frame .hop out
  unfold Chip.queue
  rw [same]

/-- The queue table has lost queue `q`. -/
def Chip.unloaded (s : Chip) (q : Nat) : Chip := { s with hop := { s.hop with queues := Tab.del s.hop.queues q } }

/-- A queue that a channel runs, or a descriptor names. -/
def Chip.queueOwned (s : Chip) (q : Nat) : Bool :=
  s.inProgress q true || s.inProgress q false || s.hop.chans.any (fun e => decide (e.2.queue = q ∧ e.2.st ≠ .off))

theorem Chip.queueDisable_unloads (s : Chip) {q : Nat} {x : QState} (loaded : s.queue q = some x) (free : s.queueOwned q = false) :
    s.queueDisable q = (0, (s.saveQueue q).unloaded q) := by
  unfold Chip.queueDisable
  rw [loaded]
  exact if_neg (show ¬ (s.queueOwned q && !x.fault) = true by rw [free]; exact Bool.false_ne_true)

theorem Chip.queueDisable_owned (s : Chip) {q : Nat} {x : QState} (loaded : s.queue q = some x) (owned : s.queueOwned q = true)
    (sound : x.fault = false) : s.queueDisable q = (Abort.resourceOwned, s) := by
  unfold Chip.queueDisable
  rw [loaded]
  exact if_pos (show (s.queueOwned q && !x.fault) = true by rw [owned, sound]; rfl)

/-! ### Doorbells (R401, R402) -/

theorem Chip.deliver_none (s : Chip) (k : AccKind) (a : Nat) (d : Line) (p : Bool) : s.deliver .none k a d p = s := rfl

/-- A doorbell write of a cached queue that passes its check is applied. -/
theorem Chip.doorbellWrite_cached (s : Chip) {src : DbSrc} {q : Nat} (off : Nat) (d : List Byte) {x : QState}
    (may : s.doorbellCheck (dbMaster src) (s.dbBind src) q 1 = none) (loaded : s.queue q = some x) (cached : x.cached = true) :
    s.doorbellWrite src q off d = (s.touched q x).applyDoorbell q off d := by
  unfold Chip.doorbellWrite Chip.doorbellPut
  simp only [may, s.bringIn_touched true loaded cached, if_true]
  exact Chip.deliver_none _ _ _ _ _

/-- The state with an index moved. -/
def QState.moved (x : QState) (off v : Nat) : QState := if off = 0 then { x with prod := v, dirty := true } else { x with cons := v, dirty := true }

/-- An index that the doorbell owns moves, if the fill stays within the capacity. -/
theorem Chip.applyDoorbell_moves (s : Chip) {q off : Nat} {d : List Byte} {x : QState} (loaded : s.queue q = some x) (whole : d.length = 8)
    (index : off = 0 ∨ off = 8) (sound : x.fault = false) (owns : s.doorbellOwns q off x = true)
    (ahead : diff64 (natLE d) (if off = 0 then x.prod else x.cons) < 2 ^ 63) (fits : (x.moved off (natLE d)).fill ≤ x.capacity) :
    s.applyDoorbell q off d = s.setQueue q (x.moved off (natLE d)) := by
  unfold Chip.applyDoorbell
  rw [loaded]
  exact if_pos ⟨whole, index, by rw [sound]; rfl, owns, ahead, fits⟩

/-- A write of another length is ignored. -/
theorem Chip.applyDoorbell_ignores (s : Chip) {q off : Nat} {d : List Byte} {x : QState} (loaded : s.queue q = some x) (other : d.length ≠ 8) :
    s.applyDoorbell q off d = s.doorbellIgnored := by
  unfold Chip.applyDoorbell
  rw [loaded]
  exact if_neg fun all => other all.1

theorem Chip.touched_frame (s : Chip) (q : Nat) (x : QState) : Frame [.hop] (s.touched q x) s := Frame.set_hop (by decide) _ _

theorem Chip.doorbellIgnored_facts (s : Chip) : s.doorbellIgnored.hop = { s.hop with queueErrors := s.hop.queueErrors + 1 }
    ∧ s.doorbellIgnored.sticky 146 = true ∧ Frame [.hop, .fault, .heads, .field] s.doorbellIgnored s := by
  unfold Chip.doorbellIgnored
  generalize counted : ({ s with hop := { s.hop with queueErrors := s.hop.queueErrors + 1 } } : Chip) = a
  have hop : a.hop = { s.hop with queueErrors := s.hop.queueErrors + 1 } := by rw [← counted]
  have base : Frame [.hop] a s := by rw [← counted]; exact Frame.set_hop (by decide) _ _
  have raised := a.raise_hop 146
  have same : (a.raise 146).hop = a.hop := raised .hop (by decide)
  exact ⟨same.trans hop, a.raise_sticky _ _ _ _ _, (raised.mono (by decide)).trans (base.mono (by decide))⟩

/-- A violation sets the sticky bit of its source (R112). -/
theorem Chip.violation_sticky (s : Chip) (m : Nat) : (s.violation m).sticky (violationSource m) = true := Chip.raise_sticky _ _ _ _ _ _

/-- A doorbell write without its right is a violation. -/
theorem Chip.doorbellWrite_denied (s : Chip) {src : DbSrc} {q k : Nat} (off : Nat) (d : List Byte)
    (missing : s.doorbellCheck (dbMaster src) (s.dbBind src) q 1 = some k) (sound : s.rightDamaged k (dbMaster src) = false) :
    s.doorbellWrite src q off d = s.violation (dbMaster src) := by
  unfold Chip.doorbellWrite Chip.doorbellPut
  simp only [missing]
  refine (Chip.deliver_none _ _ _ _ _).trans ?_
  unfold Chip.deny
  rw [sound, if_neg Bool.false_ne_true]

/-! ### Waiting states and event lines (R403, R425, R426, R428) -/

/-- A state that is idle lets the one doorbell write that waited go on. -/
theorem Chip.stateRelease_doorbell (s : Chip) {q : Nat} {x : QState} {m k off : Nat} {b : Binding} {d : List Byte} (loaded : s.queue q = some x)
    (cached : x.cached = true) (idle : s.queueActive q = false) (waits : s.hop.waiting = [.doorbell m b k off d .none]) :
    s.stateRelease q = ({ s with hop := { s.hop with waiting := [] } } : Chip).doorbellPut m b k off d .none false := by
  unfold Chip.stateRelease
  rw [loaded]
  refine (if_pos (show (x.cached && !s.queueActive q) = true by rw [cached, idle]; rfl)).trans ?_
  rw [waits]
  rfl

theorem Chip.eventPulse_pulses (s : Chip) (line : BitVec 8) : s.eventPulse line.toNat = (0, s.pulse line.toNat) :=
  if_neg (by have := line.isLt; omega)

theorem Chip.evtIn_pulses (s : Chip) {pin n : Nat}
    (line : (List.range 256).find? (fun n => decide (s.cfgAt Obj.hopperEventLineInput n = 0x10 + pin)) = some n) : s.evtIn pin = s.pulse n := by
  unfold Chip.evtIn
  rw [line]

end Sys2Proof.Machine

open Sys2Proof Sys2Proof.Machine

/-- Settles O39: each command and doorbell is one update of the queue table or of its fabric. -/
theorem hopperQueuesDoorbellsAndEventLines : Obligations.HopperQueuesDoorbellsAndEventLines := by
  unfold Obligations.HopperQueuesDoorbellsAndEventLines
  refine ⟨?loads, ?owned, ?bad, ?disables, ?keeps, ?saves, ?moves, ?ignores, ?denies, ?releases, ?pulses, ?edges, ?ends⟩
  case loads =>
    intro s src q x acc absent entry room
    refine ⟨_, dictCmd_effect rfl acc (by decide) (by decide) (s.chip.queueLoad_loads absent entry room), Chip.queue_touched _ _ x,
      fun j other => ?_, (Chip.touched_frame _ _ x).trans (Frame.set_hop (by decide) _ _)⟩
    exact (Chip.queue_touched_other _ x other).trans (s.chip.queue_setQueue_other x other)
  case owned =>
    intro s src q acc loaded
    exact dictCmd_effect rfl acc (by decide) (by decide) (s.chip.queueLoad_owned loaded)
  case bad =>
    intro s src q acc absent bad
    exact dictCmd_effect rfl acc (by decide) (by decide) (s.chip.queueLoad_bad absent bad)
  case disables =>
    intro s src q x acc loaded cached sound aligned held noSrc noDst noChan
    have free : s.chip.queueOwned q = false := by rw [Chip.queueOwned, noSrc, noDst, noChan]; rfl
    obtain ⟨w, saved, line, bytes, frame⟩ := s.chip.saveQueue_writes loaded cached sound aligned held
    have does := s.chip.queueDisable_unloads loaded free
    rw [saved] at does
    refine ⟨_, dictCmd_effect rfl acc (by decide) (by decide) does, Tab.find_del_same _ _, fun j other => ?_, line, bytes,
      (Frame.set_hop (by decide) _ _).trans ((Frame.set_hop (by decide) _ _).trans (frame.mono (by decide)))⟩
    exact (Tab.find_del_other _ other).trans ((w.queue_setQueue_other _ other).trans (Chip.queue_of_frame frame (by decide) j))
  case keeps =>
    intro s src q x acc loaded sound chan
    have owned : s.chip.queueOwned q = true := by rw [Chip.queueOwned, chan, Bool.or_true]
    exact dictCmd_effect rfl acc (by decide) (by decide) (s.chip.queueDisable_owned loaded owned sound)
  case saves =>
    intro s src q x acc loaded cached sound aligned held
    obtain ⟨w, saved, line, bytes, frame⟩ := s.chip.saveQueue_writes loaded cached sound aligned held
    have does : s.chip.queueWriteback q = (0, w.setQueue q { x with dirty := false }) := congrArg (Prod.mk 0) saved
    refine ⟨_, dictCmd_effect rfl acc (by decide) (by decide) does, w.queue_setQueue _ _, fun j other => ?_, line, bytes,
      (Frame.set_hop (by decide) _ _).trans (frame.mono (by decide))⟩
    exact (w.queue_setQueue_other _ other).trans (Chip.queue_of_frame frame (by decide) j)
  case moves =>
    intro s src q off data x may loaded cached whole index sound owns ahead fits
    have does := (s.chip.doorbellWrite_cached off.toNat data may loaded cached).trans
      (Chip.applyDoorbell_moves _ (Chip.queue_touched _ _ x) whole index sound owns ahead (by
        unfold QState.moved
        rcases index with zero | eight
        · rw [zero] at fits ⊢
          exact fits
        · rw [eight] at fits ⊢
          exact fits))
    refine ⟨_, Effect.of_eq rfl does, ?_, fun j other => ?_, (Frame.set_hop (by decide) _ _).trans (Chip.touched_frame _ _ x)⟩
    · refine (Chip.queue_setQueue _ _ _).trans ?_
      unfold QState.moved
      split <;> rfl
    · exact (Chip.queue_setQueue_other _ _ other).trans (Chip.queue_touched_other _ x other)
  case ignores =>
    intro s src q off data x may loaded cached other
    have does := (s.chip.doorbellWrite_cached off.toNat data may loaded cached).trans
      (Chip.applyDoorbell_ignores (off := off.toNat) _ (Chip.queue_touched _ _ x) other)
    obtain ⟨hop, raised, frame⟩ := (s.chip.touched q x).doorbellIgnored_facts
    have queue (j : Nat) : (s.chip.touched q x).doorbellIgnored.queue j = (s.chip.touched q x).queue j := by rw [Chip.queue, hop, Chip.queue]
    exact ⟨_, Effect.of_eq rfl does, congrArg HopUnit.queueErrors hop, raised, (queue q).trans (Chip.queue_touched _ _ x),
      fun j other => (queue j).trans (Chip.queue_touched_other _ x other), frame.trans ((Chip.touched_frame _ _ x).mono (by decide))⟩
  case denies =>
    intro s src q off data k missing sound
    exact ⟨_, Effect.of_eq rfl (s.chip.doorbellWrite_denied off.toNat data missing sound), s.chip.violation_sticky _, s.chip.violation_frame _⟩
  case releases =>
    intro s q x m b k off d loaded cached idle waits
    exact ⟨_, Effect.of_eq rfl (s.chip.stateRelease_doorbell loaded cached idle waits), rfl, Frame.set_hop (by decide) _ _⟩
  case pulses =>
    intro s src line acc new
    obtain ⟨frame, m, p, hop⟩ := s.chip.pulse_facts line.toNat new
    exact ⟨_, dictCmd_effect rfl acc (by decide) (by decide) (s.chip.eventPulse_pulses line), ⟨m, p, hop⟩, frame⟩
  case edges =>
    intro s pin n line new
    obtain ⟨frame, m, p, hop⟩ := s.chip.pulse_facts n new
    exact ⟨_, Effect.of_eq rfl (s.chip.evtIn_pulses line), ⟨m, p, hop⟩, frame⟩
  case ends =>
    intro s pin
    exact ⟨s.chip.evtOutEnd pin, Effect.of_eq rfl rfl, rfl, bitOf_setBit_val s.chip.hop.pins pin false, fun k other => bitOf_clear_other _ other,
      Frame.set_hop (by decide) _ _⟩

end

section
/-!
PROOFS. Hopper channels: commands, fetches and bursts (R406 to R409, R415, R417, R418, R421).
-/
namespace Sys2Proof.Machine

/-- Only Hopper channel `ch` differs, and what the Hopper holds. -/
def ChanOnly (ch : Nat) (a b : Chip) : Prop := (∀ j, j ≠ ch → a.hchan j = b.hchan j) ∧ Frame [.hop] a b

theorem ChanOnly.trans {ch : Nat} {a b c : Chip} (h : ChanOnly ch a b) (g : ChanOnly ch b c) : ChanOnly ch a c :=
  ⟨fun j other => (h.1 j other).trans (g.1 j other), h.2.trans g.2⟩

theorem Chip.setHchan_only (s : Chip) (ch : Nat) (c : HopChan) : ChanOnly ch (s.setHchan ch c) s :=
  ⟨fun _ other => s.hchan_setHchan_other c other, Frame.set_hop (by decide) _ _⟩

/-! ### START (R408) -/

/-- The queue that a channel is set to run. -/
def Chip.chanQueue (s : Chip) (ch : Nat) : Nat := bitsOf (s.cfgAt Obj.hopperChanQueue ch) 0 20

/-- A channel may run: it is OFF, and its object names a valid DESCRIPTOR queue. -/
structure StartFit (s : Chip) (ch : Nat) (x : QState) : Prop where
  off : (s.hchan ch).st = .off
  valid : bitOf (s.cfgAt Obj.hopperChanQueue ch) 31 = true
  queue : s.queue (s.chanQueue ch) = some x
  kind : x.kind = 1
  sound : x.fault = false

/-- Another channel runs the queue. -/
def Chip.chanQueueTaken (s : Chip) (ch : Nat) : Bool :=
  s.hop.chans.any (fun e => decide (e.1 ≠ ch ∧ e.2.st ≠ .off ∧ e.2.queue = s.chanQueue ch))

/-- The context that a channel starts with: the kept one of this queue, else the consumer index. -/
def HopChan.startContext (c : HopChan) (q : Nat) (x : QState) : HopChan :=
  if c.kept ∧ c.queue = q then c else { c with done := x.cons, issue := x.cons, element := 0 }

/-- The channel at its start. -/
def HopChan.started (c : HopChan) (q : Nat) (x : QState) : HopChan :=
  { c.startContext q x with
    st := .idle, reason := 0, stopAddr := 0, tc := 0, epoch := 0, queue := q, kept := false, descs := [], stopping := false
    fetchReady := decide (x.high ≤ diff64 x.prod (c.startContext q x).issue), lastSrc := none, lastDst := none }

theorem Chip.chanStart_fit (s : Chip) {ch : Nat} {x : QState} (fit : StartFit s ch x) : s.chanStart ch =
    if s.chanQueueTaken ch then (Abort.resourceOwned, s) else (0, s.setHchan ch ((s.hchan ch).started (s.chanQueue ch) x)) := by
  have queue : s.queue (bitsOf (s.cfgAt Obj.hopperChanQueue ch) 0 20) = some x := fit.queue
  unfold Chip.chanStart
  simp only [queue]
  refine (if_neg ?_).trans rfl
  rintro (other | invalid | kind | fault)
  · exact other fit.off
  · rw [fit.valid] at invalid
    exact Bool.false_ne_true invalid
  · exact kind fit.kind
  · exact Bool.false_ne_true (fit.sound.symm.trans fault)

theorem Chip.chanStart_running (s : Chip) {ch : Nat} {x : QState} (runs : (s.hchan ch).st ≠ .off) (queue : s.queue (s.chanQueue ch) = some x) :
    s.chanStart ch = (Abort.channelState, s) := by
  have queue : s.queue (bitsOf (s.cfgAt Obj.hopperChanQueue ch) 0 20) = some x := queue
  unfold Chip.chanStart
  simp only [queue]
  exact if_pos (.inl runs)

/-! ### STOP, RESUME, SKIP and CLEAR (R408, R409) -/

/-- A channel that runs. -/
def HopChan.runs (c : HopChan) : Prop := c.st = .idle ∨ c.st = .run ∨ c.st = .stalled

theorem Chip.chanStopCmd_now (s : Chip) {ch : Nat} (runs : (s.hchan ch).runs) (none : (s.hchan ch).bursts = []) :
    s.chanStopCmd ch = (0, s.chanOff ch) :=
  (if_pos runs).trans (by rw [if_pos none])

theorem Chip.chanStopCmd_waits (s : Chip) {ch : Nat} (runs : (s.hchan ch).runs) (some_ : (s.hchan ch).bursts ≠ []) :
    s.chanStopCmd ch = (0, s.setHchan ch { s.hchan ch with stopping := true }) :=
  (if_pos runs).trans (by rw [if_neg some_])

theorem Chip.chanStopped_ends (s : Chip) {ch : Nat} (stopping : (s.hchan ch).stopping = true) (none : (s.hchan ch).bursts = []) :
    s.chanStopped ch = s.chanOff ch :=
  if_pos ⟨stopping, none⟩

theorem Chip.hchan_chanOff (s : Chip) (ch : Nat) :
    (s.chanOff ch).hchan ch = { s.hchan ch with st := .off, stopping := false, kept := true, descs := [] } :=
  s.hchan_setHchan ch _

/-- The channel as RESUME leaves it: the descriptor at issue_index is to be fetched again. -/
def HopChan.resumed (c : HopChan) : HopChan :=
  { c with
    st := .idle, reason := 0, stopAddr := 0, tc := 0, epoch := 0
    descs := c.descs.map (fun r => if r.index = c.issue then { r with refetch := true } else r)
    bursts := c.bursts.map (fun b => if b.dead then { b with gone := true, dead := false } else b) }

theorem Chip.chanResume_stopped (s : Chip) {ch : Nat} (stopped : (s.hchan ch).stopped = true) :
    s.chanResume ch = (0, s.setHchan ch (s.hchan ch).resumed) :=
  if_pos stopped

theorem HopChan.resumed_refetches (c : HopChan) : ∀ r ∈ c.resumed.descs, r.index = c.issue → r.refetch = true := by
  intro r mem at_
  obtain ⟨d, -, rfl⟩ := List.mem_map.mp mem
  by_cases same : d.index = c.issue
  · rw [if_pos same]
  · rw [if_neg same] at at_
    exact absurd at_ same

/-- The descriptors as SKIP leaves them: the one at issue_index is abandoned. -/
def HopChan.skippedDescs (c : HopChan) : List DescRun :=
  if c.descs.any (fun r => decide (r.index = c.issue)) then
    c.descs.map (fun r => if r.index = c.issue then { r with issued := true, abandoned := true, refetch := false } else r)
  else c.descs ++ [{ index := c.issue, d := ⟨3, false, 0, 0, 0, 0, ⟨0, 0, 0, 0, 0, 0, 0, 0, 0, 0⟩, ⟨0, 0, 0, 0, 0, 0, 0, 0, 0, 0⟩⟩, srcReady := true
                     dstReady := true, issued := true, abandoned := true }]

/-- The channel as SKIP leaves it: at the next descriptor. -/
def HopChan.skippedOn (c : HopChan) : HopChan :=
  { c with
    st := .idle, reason := 0, stopAddr := 0, tc := 0, epoch := 0, descs := c.skippedDescs, issue := (c.issue + 1) % 2 ^ 64, element := 0
    bursts := c.bursts.map (fun b =>
      if b.dead then (if b.index = c.issue then { b with dead := false } else { b with gone := true, dead := false }) else b) }

theorem Chip.chanSkip_stopped (s : Chip) {ch : Nat} (stopped : (s.hchan ch).stopped = true) :
    s.chanSkip ch = (0, s.setHchan ch (s.hchan ch).skippedOn) :=
  if_pos stopped

theorem HopChan.skipped_abandoned (c : HopChan) : ∃ r ∈ c.skippedDescs, r.index = c.issue ∧ r.abandoned = true ∧ r.issued = true := by
  unfold HopChan.skippedDescs
  split
  · next held =>
    obtain ⟨r, mem, at_⟩ := List.any_eq_true.mp held
    have at_ := of_decide_eq_true at_
    exact ⟨{ r with issued := true, abandoned := true, refetch := false }, List.mem_map.mpr ⟨r, mem, if_pos at_⟩, at_, rfl, rfl⟩
  · exact ⟨_, List.mem_append_right _ (List.mem_singleton.mpr rfl), rfl, rfl, rfl⟩

theorem Chip.chanClear_empties (s : Chip) {ch : Nat} (rests : (s.hchan ch).st = .off ∨ (s.hchan ch).stopped = true) :
    s.chanClear ch = (0, (s.setHchan ch { s.hchan ch with st := .off }).emptyContext ch) :=
  if_pos rests

/-- The consumer index of a queue; zero where it is not loaded. -/
def Chip.consOf (s : Chip) (q : Nat) : Nat := match s.queue q with | some x => x.cons | none => 0

/-- An empty context stands at the consumer index of its queue. -/
theorem Chip.emptyContext_facts (s : Chip) (ch : Nat) : ChanOnly ch (s.emptyContext ch) s ∧ ∃ bs, (s.emptyContext ch).hchan ch = { s.hchan ch with
    done := s.consOf (s.hchan ch).queue, issue := s.consOf (s.hchan ch).queue, element := 0, kept := false, reason := 0, stopAddr := 0, tc := 0
    epoch := 0, descs := [], stopping := false, bursts := bs, lastSrc := none, lastDst := none, fetchReady := false } :=
  ⟨s.setHchan_only ch _, _, s.hchan_setHchan ch _⟩

/-! ### Fetches and bursts (R406, R415, R417, R421) -/

/-- The use of a queue's state leaves every channel's binding. -/
theorem Chip.chanBind_touched (s : Chip) {q : Nat} {x : QState} (ch : Nat) (loaded : s.queue q = some x) :
    (s.touched q x).chanBind ch = s.chanBind ch := by
  have chan : (s.touched q x).hchan ch = s.hchan ch := rfl
  unfold Chip.chanBind Chip.descQueue
  rw [chan]
  by_cases same : (s.hchan ch).queue = q
  · rw [same, loaded, s.queue_touched q x]
    rfl
  · rw [s.queue_touched_other x same]
    rfl

/-- The fetch of the descriptor at issue_index. -/
def Chip.fetchBurst (s : Chip) (ch : Nat) (q : QState) : Burst :=
  { id := s.hop.nextBurst, index := (s.hchan ch).issue, first := 0, count := 0
    srcAddr := q.base + 128 * ((s.hchan ch).issue % q.capacity), dstAddr := 0, bytes := 128, bind := s.chanBind ch, left := 2, fetch := true }

/-- A burst joins its channel, which runs. -/
def Chip.burstJoined (s : Chip) (ch : Nat) (c : HopChan) : Chip :=
  ({ s with hop := { s.hop with nextBurst := s.hop.nextBurst + 1 } } : Chip).setHchan ch c

theorem Chip.burstJoined_facts (s : Chip) (ch : Nat) (c : HopChan) : (s.burstJoined ch c).hchan ch = c ∧ ChanOnly ch (s.burstJoined ch c) s :=
  ⟨Chip.hchan_setHchan _ _ _, (Chip.setHchan_only _ ch c).trans ⟨fun _ _ => rfl, Frame.set_hop (by decide) _ _⟩⟩

/-- What lets a channel fetch (R415). -/
structure FetchDue (s : Chip) (ch : Nat) (q : QState) : Prop where
  queue : s.descQueue ch = some q
  cached : q.cached = true
  sound : q.fault = false
  works : s.workMode = true
  runs : (s.hchan ch).st = .idle ∨ (s.hchan ch).st = .run
  going : (s.hchan ch).stopping = false
  absent : (s.hchan ch).descs.any (fun r => decide (r.index = (s.hchan ch).issue)) = false
  filled : 0 < diff64 q.prod (s.hchan ch).issue
  ready : (s.hchan ch).fetchReady = true
  serves : s.caskServes ch = true
  alone : (s.hchan ch).bursts.any (fun b => b.fetch) = false

/-- A due fetch reads the descriptor at issue_index. -/
theorem Chip.descriptorFetch_reads (s : Chip) {ch : Nat} {q : QState} (o : Obs) (due : FetchDue s ch q) :
    s.descriptorFetch ch o = ((s.touched (s.hchan ch).queue q).burstJoined ch { s.hchan ch with
      bursts := (s.hchan ch).bursts ++ [s.fetchBurst ch q], st := .run }).burstReads ch (s.fetchBurst ch q) o := by
  have loaded : s.queue (s.hchan ch).queue = some q := due.queue
  have have_ : (s.hchan ch).descs.any (fun r => decide (r.index = (s.hchan ch).issue) && !r.refetch) = false := by
    rw [List.any_eq_false]
    intro r mem both
    exact (List.any_eq_false.mp due.absent r mem) (Bool.and_eq_true_iff.mp both).1
  have in_ := s.bringIn_touched (decide ((s.hchan ch).st ≠ .stalled)) loaded due.cached
  have again : (s.touched (s.hchan ch).queue q).descQueue ch = some { q with lru := s.hop.clock } := s.queue_touched _ q
  have run : (if (s.hchan ch).st = .idle then ChState.run else (s.hchan ch).st) = .run := by
    rcases due.runs with st | st <;> rw [st] <;> rfl
  have bind := s.chanBind_touched ch loaded
  unfold Chip.descriptorFetch
  simp only [due.queue]
  refine (if_pos ⟨due.works, ?_, ?_, ?_, ?_, ⟨due.filled, .inr due.ready⟩, due.serves, ?_⟩).trans ?_
  · rw [in_]
    simp only [again]
    refine (if_neg (by simp)).trans ((if_neg (by rw [due.sound]; exact Bool.false_ne_true)).trans ?_)
    have chan : (s.touched (s.hchan ch).queue q).hchan ch = s.hchan ch := rfl
    simp only [chan, run, bind]
    rfl
  · exact due.runs.elim .inl (fun st => .inr (.inl st))
  · rw [due.going]; rfl
  · rw [due.sound]; rfl
  · rw [have_]; rfl
  · rw [due.alone]; rfl

/-- The chosen channel's burst between memory sides, which no element stops, goes out (R417, R418). -/
structure BurstGoes (s : Chip) (ch n : Nat) (r : DescRun) : Prop where
  current : (s.hchan ch).current = some r
  chosen : s.chosen ch = true
  fits : s.burstOk r.d (s.hchan ch).element n = true
  src : r.d.src.kind = 0
  dst : r.d.dst.kind = 0
  free : (List.range n).all (fun i => (s.elemStop r.d (s.hchan ch).element ((s.hchan ch).element + i)).isNone) = true
  more : r.d.src.n = 0 ∨ (s.hchan ch).element + n < r.d.src.n

/-- The turn passes to the channel at its priority. -/
def Chip.turned (s : Chip) (ch : Nat) : Chip := { s with hop := { s.hop with rr := Tab.set s.hop.rr (s.cfgAt Obj.hopperChanPriority ch) ch } }

theorem Chip.burstIssue_sends (s : Chip) {ch n : Nat} {r : DescRun} (o : Obs) (goes : BurstGoes s ch n r) :
    s.burstIssue ch n o = (s.turned ch).sendBurst ch r n o := by
  have sides : ([r.d.src, r.d.dst].filter (fun x => decide (x.kind = 1))) = [] := by simp [goes.src, goes.dst]
  have stops : (List.range n).find? (fun i => ((s.turned ch).elemStop r.d (s.hchan ch).element ((s.hchan ch).element + i)).isSome) = none := by
    rw [List.find?_eq_none]
    intro i mem stop
    have none := List.all_eq_true.mp goes.free i mem
    have same : (s.turned ch).elemStop r.d (s.hchan ch).element ((s.hchan ch).element + i)
      = s.elemStop r.d (s.hchan ch).element ((s.hchan ch).element + i) := rfl
    rw [same, Option.isSome_iff_ne_none] at stop
    exact stop (Option.isNone_iff_eq_none.mp none)
  unfold Chip.burstIssue
  simp only [goes.current]
  refine (if_neg (by simp [goes.chosen, goes.fits])).trans ?_
  rw [sides]
  refine (if_neg (by simp)).trans ((if_neg (by simp)).trans ?_)
  have stops' : (List.range n).find? (fun i => (({ s with hop := { s.hop with
      rr := Tab.set s.hop.rr (s.cfgAt Obj.hopperChanPriority ch) ch } } : Chip).elemStop r.d (s.hchan ch).element ((s.hchan ch).element + i)).isSome)
      = none := stops
  simp only [List.foldl_nil, stops']
  rfl

/-- The burst of `n` elements between memory sides. -/
def Chip.memBurst (s : Chip) (ch n : Nat) (r : DescRun) : Burst :=
  { id := s.hop.nextBurst, index := r.index, first := (s.hchan ch).element, count := n
    srcAddr := r.d.src.addr r.d.esize (s.hchan ch).element, dstAddr := r.d.dst.addr r.d.esize (s.hchan ch).element
    bytes := n * r.d.esize, bind := s.chanBind ch
    pasid := match s.descQueue ch with | some q => if q.pv then q.pasid else 0 | none => 0
    foldOp := if r.d.op = 2 then r.d.foldOp else 0, link := none, srcQ := none, dstQ := none
    left := (lineAddrs (r.d.src.addr r.d.esize (s.hchan ch).element) (n * r.d.esize)).length }

/-- A burst that is not the last of its descriptor joins its channel, and the element position advances. -/
theorem Chip.sendBurst_mem (s : Chip) {ch n : Nat} {r : DescRun} (o : Obs) (src : r.d.src.kind = 0) (dst : r.d.dst.kind = 0)
    (more : r.d.src.n = 0 ∨ (s.hchan ch).element + n < r.d.src.n) : s.sendBurst ch r n o =
      (s.burstJoined ch { s.hchan ch with
        bursts := (s.hchan ch).bursts ++ [s.memBurst ch n r], element := (s.hchan ch).element + n, st := .run }).burstReads ch
          (s.memBurst ch n r) o := by
  have last : decide (r.d.src.n ≠ 0 ∧ (s.hchan ch).element + n = r.d.src.n) = false := by
    rw [decide_eq_false_iff_not]
    omega
  have from_ : s.elemAddr r.d true (s.hchan ch).element (s.hchan ch).element = r.d.src.addr r.d.esize (s.hchan ch).element :=
    if_neg (show ¬ r.d.src.kind = 1 by rw [src]; decide)
  have into_ : s.elemAddr r.d false (s.hchan ch).element (s.hchan ch).element = r.d.dst.addr r.d.esize (s.hchan ch).element :=
    if_neg (show ¬ r.d.dst.kind = 1 by rw [dst]; decide)
  unfold Chip.sendBurst
  simp only [last, from_, into_, src, dst, Bool.false_eq_true, OfNat.zero_ne_ofNat, zero_ne_one, if_false]
  rfl

/-- A burst whose writes are all done becomes durable (R421). -/
theorem Chip.burstDurable_marks (s : Chip) {ch b : Nat} {x : Burst} (found : (s.hchan ch).bursts.find? (fun y => decide (y.id = b)) = some x)
    (wrote : x.wrote = true) (done : x.left = 0) (well : x.failed = 0) (data : x.fetch = false) :
    s.burstDurable ch b = s.modBurst ch b (fun y => { y with durable := true }) := by
  unfold Chip.burstDurable
  rw [found]
  exact if_pos ⟨wrote, done, well, by rw [data]; rfl⟩

end Sys2Proof.Machine

open Sys2Proof Sys2Proof.Machine

/-- Settles O40: each command, fetch and burst is one update of its channel. -/
theorem hopperChannelsRunTheirDescriptors : Obligations.HopperChannelsRunTheirDescriptors := by
  unfold Obligations.HopperChannelsRunTheirDescriptors
  refine ⟨?starts, ?runs, ?taken, ?stops, ?waits, ?stopped, ?resumes, ?skips, ?clears, ?fetches, ?issues, ?durable⟩
  case starts =>
    intro s src ch x acc off valid queue kind sound free
    have does := s.chip.chanStart_fit ⟨off, valid, queue, kind, sound⟩
    rw [if_neg (show ¬ s.chip.chanQueueTaken ch = true by rw [Chip.chanQueueTaken, Chip.chanQueue, free]; exact Bool.false_ne_true)] at does
    obtain ⟨others, frame⟩ := s.chip.setHchan_only ch ((s.chip.hchan ch).started (s.chip.chanQueue ch) x)
    refine ⟨_, dictCmd_effect rfl acc (by decide) (by decide) does, ?_, fun fresh => ?_, fun kept => ?_, others, frame⟩ <;>
      rw [Chip.hchan_setHchan]
    · exact ⟨rfl, rfl⟩
    · have context : (s.chip.hchan ch).startContext (s.chip.chanQueue ch) x = _ := if_neg fresh
      simp only [HopChan.started, context, and_self]
    · have context : (s.chip.hchan ch).startContext (s.chip.chanQueue ch) x = _ := if_pos kept
      simp only [HopChan.started, context, and_self]
  case runs =>
    intro s src ch x acc runs queue
    exact dictCmd_effect rfl acc (by decide) (by decide) (s.chip.chanStart_running runs queue)
  case taken =>
    intro s src ch x acc off valid queue kind sound taken
    have does := s.chip.chanStart_fit ⟨off, valid, queue, kind, sound⟩
    rw [if_pos (show s.chip.chanQueueTaken ch = true from taken)] at does
    exact dictCmd_effect rfl acc (by decide) (by decide) does
  case stops =>
    intro s src ch acc runs none
    obtain ⟨others, frame⟩ := s.chip.setHchan_only ch { s.chip.hchan ch with st := .off, stopping := false, kept := true, descs := [] }
    exact ⟨_, dictCmd_effect rfl acc (by decide) (by decide) (s.chip.chanStopCmd_now runs none), s.chip.hchan_chanOff ch, others, frame⟩
  case waits =>
    intro s src ch acc runs some_
    obtain ⟨others, frame⟩ := s.chip.setHchan_only ch { s.chip.hchan ch with stopping := true }
    exact ⟨_, dictCmd_effect rfl acc (by decide) (by decide) (s.chip.chanStopCmd_waits runs some_), s.chip.hchan_setHchan ch _, others, frame⟩
  case stopped =>
    intro s ch stopping none
    obtain ⟨others, frame⟩ := s.chip.setHchan_only ch { s.chip.hchan ch with st := .off, stopping := false, kept := true, descs := [] }
    exact ⟨_, Effect.of_eq rfl (s.chip.chanStopped_ends stopping none), s.chip.hchan_chanOff ch, others, frame⟩
  case resumes =>
    intro s src ch acc stopped
    obtain ⟨others, frame⟩ := s.chip.setHchan_only ch (s.chip.hchan ch).resumed
    refine ⟨_, dictCmd_effect rfl acc (by decide) (by decide) (s.chip.chanResume_stopped stopped), ?_, ?_, ?_, others, frame⟩ <;>
      rw [Chip.hchan_setHchan]
    · exact ⟨rfl, rfl, rfl⟩
    · exact ⟨rfl, rfl, rfl⟩
    · exact (s.chip.hchan ch).resumed_refetches
  case skips =>
    intro s src ch acc stopped
    obtain ⟨others, frame⟩ := s.chip.setHchan_only ch (s.chip.hchan ch).skippedOn
    refine ⟨_, dictCmd_effect rfl acc (by decide) (by decide) (s.chip.chanSkip_stopped stopped), ?_, ?_, ?_, others, frame⟩ <;>
      rw [Chip.hchan_setHchan]
    · exact ⟨rfl, rfl, rfl⟩
    · exact ⟨rfl, rfl, rfl⟩
    · exact (s.chip.hchan ch).skipped_abandoned
  case clears =>
    intro s src ch acc rests
    have off := s.chip.setHchan_only ch { s.chip.hchan ch with st := .off }
    obtain ⟨empty, bs, at_⟩ := (s.chip.setHchan ch { s.chip.hchan ch with st := .off }).emptyContext_facts ch
    obtain ⟨others, frame⟩ := empty.trans off
    rw [Chip.hchan_setHchan] at at_
    refine ⟨_, dictCmd_effect rfl acc (by decide) (by decide) (s.chip.chanClear_empties rests), ?_, ?_, fun q queue => ?_, others, frame⟩ <;> rw [at_]
    · exact ⟨rfl, rfl, rfl, rfl, rfl, rfl⟩
    · show s.chip.consOf (s.chip.hchan ch).queue = q.cons
      rw [Chip.consOf, queue]
  case fetches =>
    intro s ch o q queue cached sound works runs going absent filled ready serves alone
    have does := s.chip.descriptorFetch_reads o ⟨queue, cached, sound, works, runs, going, absent, filled, ready, serves, alone⟩
    obtain ⟨at_, others, frame⟩ := (s.chip.touched (s.chip.hchan ch).queue q).burstJoined_facts ch { s.chip.hchan ch with
      bursts := (s.chip.hchan ch).bursts ++ [s.chip.fetchBurst ch q], st := .run }
    exact ⟨s.chip.fetchBurst ch q, _, Effect.of_eq rfl does, rfl, rfl, rfl, rfl, rfl, rfl, at_, others, frame.trans (Chip.touched_frame _ _ _)⟩
  case issues =>
    intro s ch n o r current chosen fits src dst free more undamaged
    have does := (s.chip.burstIssue_sends o ⟨current, chosen, fits, src, dst, free, more⟩).trans
      ((s.chip.turned ch).sendBurst_mem o src dst more)
    obtain ⟨at_, others, frame⟩ := (s.chip.turned ch).burstJoined_facts ch { s.chip.hchan ch with
      bursts := (s.chip.hchan ch).bursts ++ [(s.chip.turned ch).memBurst ch n r], element := (s.chip.hchan ch).element + n, st := .run }
    have run : Effect (.burstIssue ch n o) s (s.chip.burstIssue ch n o) := by
      have same : s.chip.damaged o.damage = s.chip := by rw [undamaged]; rfl
      refine Effect.of_eq rfl ?_
      rw [same]
    exact ⟨(s.chip.turned ch).memBurst ch n r, _, Effect.of_eq run does, rfl, rfl, rfl, rfl, rfl, rfl, rfl, rfl, rfl, at_, others,
      frame.trans (Frame.set_hop (by decide) _ _)⟩
  case durable =>
    intro s ch b x found wrote done well data
    obtain ⟨at_, others, frame⟩ := s.chip.modBurst_facts ch b (fun y => { y with durable := true })
    refine ⟨_, Effect.of_eq rfl (s.chip.burstDurable_marks found wrote done well data), at_, ?_, others, frame⟩
    rw [at_]
    exact modFirst_find_same _ (fun y : Burst => decide (y.id = b)) (fun y => { y with durable := true }) x found (List.find?_some found :)

end

section
/-!
PROOFS. The dictionary's window, whole writes and pieces (R453, R455, R456, R460, R462, R463, R481).
-/
namespace Sys2Proof.Machine

/-! ### The BAR2 window (R462, R463) -/

/-- The window shows the code, the size and the bytes of an answer. -/
theorem Chip.bar2Answer_facts (s : Chip) (h idx sub off n code size ty : Nat) (d : List Byte) :
    let b := ((s.bar2Answer h idx sub off n code size ty (some d.length) d).head h).bar2
    (b.abort = code ∧ b.len = d.length ∧ b.buffer.take d.length = d ∧ b.size = size)
      ∧ Frame [.heads] (s.bar2Answer h idx sub off n code size ty (some d.length) d) s := by
  refine ⟨?_, Frame.set_heads (by decide) _ _⟩
  unfold Chip.bar2Answer
  simp

/-- A READ that the checks let through puts the object's bytes into the window. -/
theorem Chip.windowRead_reads (s : Chip) {h : Fin 4} {idx sub off n : Nat} {i : ObjInfo} (up : s.dictUp (.bar2 h) = true)
    (goes : s.gate h idx sub false = .go i) (inside : off < i.size) (pos : 0 < n) (fit : n ≤ 4096) :
    s.windowRead h idx sub off n = (s.objBytes h idx sub i.size off (min n (i.size - off))).2.bar2Answer h idx sub off n 0 i.size i.ty.code
      (some (s.objBytes h idx sub i.size off (min n (i.size - off))).1.length) (s.objBytes h idx sub i.size off (min n (i.size - off))).1 := by
  unfold Chip.windowRead
  rw [if_neg (by rw [up]; decide), s.readObject_go (.bar2 h) idx sub off n i goes inside pos fit]
  rfl

/-- The first `n` bytes of a whole buffer. -/
theorem bufferTake {buf : List Byte} {n : Nat} (whole : buf.length = 4096) (fit : n ≤ 4096) :
    (buf.take 4096 ++ List.replicate (min n 4097) 0).take (min n 4097) = buf.take n ∧ buf.take 4096 = buf := by
  have all : buf.take 4096 = buf := List.take_of_length_le (by omega)
  refine ⟨?_, all⟩
  rw [all, Nat.min_eq_left (by omega), List.take_append_of_le_length (by omega)]

/-- A command of the window that is up writes the first `n` bytes of its buffer. -/
theorem Chip.windowWrite_pieces (s : Chip) {h : Fin 4} {idx sub off n : Nat} {buf : List Byte} (final : Bool) (up : s.dictUp (.bar2 h) = true)
    (whole : buf.length = 4096) (fit : n ≤ 4096) : s.windowWrite h idx sub off n buf final =
      (s.piece (.bar2 h) idx sub off (buf.take n) final (fun v s => s.writeValue h idx sub v)).2.bar2Answer h idx sub off n
        (s.piece (.bar2 h) idx sub off (buf.take n) final (fun v s => s.writeValue h idx sub v)).1 (objShape idx sub).1 (objShape idx sub).2
        none buf := by
  obtain ⟨some_, all⟩ := bufferTake whole fit
  unfold Chip.windowWrite
  rw [if_neg (by rw [up]; decide)]
  dsimp only
  rw [some_, all]

/-! ### Sequences of pieces (R456) -/

/-- A first piece that is not the whole value is stored as a sequence. -/
theorem Chip.piece_first (s : Chip) (src : Src) {idx sub : Nat} {d : List Byte} (h : Nat → Chip → Nat × Chip) {i : ObjInfo}
    (goes : s.gate (srcMaster src) idx sub true = .go i) (pos : 0 < d.length) (part : d.length < i.size) (fit : d.length ≤ pathMax src)
    (free : s.seqOf (objKey idx sub) = none) : s.piece src idx sub 0 d false h
      = (0, { s with dict := { s.dict with seqs := s.dict.seqs ++ [⟨objKey idx sub, srcMaster src, srcPath src, d⟩] } }) := by
  have taken : ¬ s.seqTaken src (objKey idx sub) = true := by simp [Chip.seqTaken, free]
  have length : ¬ (d.length = 0 ∨ pathMax src < d.length ∨ i.size < 0 + d.length ∨ (false = true ∧ 0 + d.length ≠ i.size)) := by
    rintro (none | long | past | ⟨no, -⟩)
    · omega
    · omega
    · omega
    · exact Bool.false_ne_true no
  have stored : s.setSeq ⟨objKey idx sub, srcMaster src, srcPath src, d⟩
      = { s with dict := { s.dict with seqs := s.dict.seqs ++ [⟨objKey idx sub, srcMaster src, srcPath src, d⟩] } } := by
    unfold Chip.setSeq
    dsimp only
    rw [s.dropSeq_none _ free]
  unfold Chip.piece
  simp only [goes, free]
  refine (if_neg (by omega)).trans ((if_neg length).trans ((if_neg taken).trans ((if_neg (by simp)).trans ?_)))
  rw [if_neg Bool.false_ne_true, List.nil_append, stored]

/-- A sequence that no transfer of the field port holds ends, and is counted. -/
theorem Chip.pieceTimeout_ends (s : Chip) {idx sub : Nat} {q : PieceSeq} (runs : s.seqOf (objKey idx sub) = some q) (idle : s.field.xfer = none) :
    s.pieceTimeout idx sub = { s with dict := { s.dict with
      seqs := s.dict.seqs.filter (fun q => decide (q.key ≠ objKey idx sub)), abandoned := wrap32 (s.dict.abandoned + 1) } } := by
  let t := s.dropSeq (objKey idx sub)
  have still : { t.field with xfer := none } = t.field := by rw [← show t.field.xfer = none from idle]
  calc s.pieceTimeout idx sub
      = { t with dict := { t.dict with abandoned := wrap32 (t.dict.abandoned + 1) }, field := { t.field with xfer := none } } := by
        have idle' : (s.dropSeq (objKey idx sub)).field.xfer = none := idle
        unfold Chip.pieceTimeout
        simp only [runs, idle']
        rfl
    _ = _ := by
        rw [still]
        rfl

/-! ### Defaults (R481) -/

/-- RESTORE_DEFAULTS with its key word appends records; no value changes now. -/
theorem Chip.restoreCmd_keeps (s : Chip) {v : Nat} (key : v = 0x5EEDDEF0) :
    SameConfig (s.restoreCmd v).2 s ∧ Frame [.sb, .fault, .heads, .field] (s.restoreCmd v).2 s := by
  have does : s.restoreCmd v = s.restoreDefaults := if_pos key
  have frame : Frame [.sb, .fault, .heads, .field] s.restoreDefaults.2 s := s.restoreDefaults_frame
  rw [does]
  exact ⟨fun k => Chip.cfg_of_frame frame (by decide) (by decide) k, frame⟩

end Sys2Proof.Machine

open Sys2Proof Sys2Proof.Machine

/-- Settles O13: each path carries the checked value to `writeValue`, and the window and the sequences keep what they hold. -/
theorem dictionaryPathsWriteAndRead : Obligations.DictionaryPathsWriteAndRead := by
  unfold Obligations.DictionaryPathsWriteAndRead
  refine ⟨?reads, ?final, ?first, ?ends, ?writes, ?down, ?defaults⟩
  case reads =>
    intro s h idx sub off n i up goes inside pos fit
    obtain ⟨⟨abort, len, take, size⟩, frame⟩ := (s.chip.objBytes h idx.toNat sub.toNat i.size off.toNat (min n.toNat (i.size - off.toNat))).2.bar2Answer_facts
      h idx.toNat sub.toNat off.toNat n.toNat 0 i.size i.ty.code (s.chip.objBytes h idx.toNat sub.toNat i.size off.toNat (min n.toNat (i.size - off.toNat))).1
    exact ⟨_, _, _, rfl, Effect.of_eq rfl (s.chip.windowRead_reads up goes inside pos fit), rfl, abort, len, take, size, frame⟩
  case final =>
    intro s h idx sub n buf acc pos small whole
    have length : (buf.take n.toNat).length = n.toNat := by rw [List.length_take, whole]; omega
    have does := s.chip.windowWrite_pieces (idx := idx.toNat) (sub := sub.toNat) (off := 0) true acc.1 whole (show n.toNat ≤ 4096 by omega)
    rw [s.chip.piece_accepts (.bar2 h) idx.toNat sub.toNat (buf.take n.toNat) _ (by rw [length]; exact acc) (by omega) (by omega)] at does
    exact Effect.of_eq rfl does
  case first =>
    intro s h idx sub n buf i up goes pos part fit whole free
    have length : (buf.take n.toNat).length = n.toNat := by rw [List.length_take, whole]; omega
    have does := s.chip.windowWrite_pieces (idx := idx.toNat) (sub := sub.toNat) (off := 0) false up whole fit
    rw [s.chip.piece_first (.bar2 h) _ goes (by omega) (by omega) (by rw [length]; exact fit) free] at does
    exact ⟨_, Effect.of_eq rfl does, rfl, by rw [Chip.bar2Answer, Chip.head_setHead],
      (Frame.set_heads (by decide) _ _).trans (Frame.set_dict (by decide) _ _)⟩
  case ends =>
    intro s idx sub q runs idle
    exact Effect.of_eq rfl (s.chip.pieceTimeout_ends runs idle)
  case writes =>
    intro s src idx sub value acc pos small
    exact Effect.of_eq (d := s.chip.objectWrite src idx.toNat sub.toNat value) rfl (s.chip.dictPut_accepts src _ _ value _ acc pos small)
  case down =>
    intro s src idx sub value down
    exact Effect.of_eq (d := s.chip.objectWrite src idx.toNat sub.toNat value) rfl (s.chip.dictPut_down src _ _ value _ down)
  case defaults =>
    intro s src v acc key
    exact ⟨_, _, dictCmd_effect rfl acc (by decide) (by decide) rfl, s.chip.restoreCmd_keeps key⟩

end

section
/-!
PROOFS. Requests and segmented transfers of the field port (R466 to R472).
-/
namespace Sys2Proof.Machine

/-! ### Requests (R466 to R468) -/

/-- A REQ frame that the field port takes: the port works and holds the address that the frame names, and the header is whole. -/
structure ReqTaken (s : Chip) (node : Nat) (rest : List Byte) : Prop where
  up : s.busUp = true
  addressed : s.field.addr ≠ 0
  mine : node = s.field.addr
  whole : 3 ≤ rest.length

/-- The index and sub-index that a REQ frame names. -/
def reqIndex (rest : List Byte) : Nat := inNat rest 0 2
def reqSub (rest : List Byte) : Nat := inNat rest 2 1

/-- A taken frame with its further bytes goes to its command. -/
theorem ReqTaken.frame {s : Chip} {node : Nat} {rest : List Byte} (taken : ReqTaken s node rest) {need : Nat} (long : 3 + need ≤ rest.length)
    (f : Nat → Nat → List Byte → Chip → Chip) : s.reqFrame node rest need f = f (reqIndex rest) (reqSub rest) (rest.drop 3) s := by
  unfold Chip.reqFrame
  rw [if_neg (by simp [taken.up, taken.addressed, taken.mine]), if_neg (by omega)]
  rfl

/-- An answer changes what the field port sent, and no more. -/
theorem Chip.rsp_facts (s : Chip) (cmd : Nat) (t : Bool) (idx sub : Nat) (d : List Byte) :
    Answered (s.rsp cmd t idx sub d) s cmd t idx sub d ∧ (s.rsp cmd t idx sub d).field.xfer = s.field.xfer ∧ Frame [.field] (s.rsp cmd t idx sub d) s :=
  ⟨s.rsp_answered s cmd t idx sub d rfl rfl, rfl, Frame.set_field (by decide) _ _⟩

/-- A write's answer: that it was done, or its abort code. -/
def Chip.writeAnswered (s : Chip) (cmd : Nat) (t : Bool) (idx sub code : Nat) : Chip :=
  if code = 0 then s.rsp cmd t idx sub [] else s.rspAbort idx sub code

theorem Chip.writeAnswered_facts (s : Chip) (cmd : Nat) (t : Bool) (idx sub code : Nat) :
    (code = 0 → Answered (s.writeAnswered cmd t idx sub code) s cmd t idx sub [])
    ∧ (code ≠ 0 → Answered (s.writeAnswered cmd t idx sub code) s 0x3F false idx sub (bytesLE 4 code))
    ∧ Frame [.field] (s.writeAnswered cmd t idx sub code) s := by
  unfold Chip.writeAnswered
  by_cases ok : code = 0
  · rw [if_pos ok]
    obtain ⟨answered, -, frame⟩ := s.rsp_facts cmd t idx sub []
    exact ⟨fun _ => answered, fun no => absurd ok no, frame⟩
  · rw [if_neg ok]
    obtain ⟨answered, -, frame⟩ := s.rsp_facts 0x3F false idx sub (bytesLE 4 code)
    exact ⟨fun yes => absurd yes ok, fun _ => answered, frame⟩

/-! ### READ and WRITE (R469, R470) -/

/-- A read of the field port, of an object that one copy holds, reads all of it. -/
theorem Chip.readObject_field (s : Chip) {idx sub : Nat} {i : ObjInfo} (goes : s.gate 0x70 idx sub false = .go i) (some_ : 1 ≤ i.size)
    (fit : i.size ≤ 4096) : s.readObject .field idx sub 0 (min 4096 (max 1 (objShape idx sub).1)) =
      ({ size := i.size, ty := i.ty.code, data := (s.objBytes 0x70 idx sub i.size 0 i.size).1 }, (s.objBytes 0x70 idx sub i.size 0 i.size).2) := by
  have whole : min 4096 (max 1 (objShape idx sub).1) = i.size := by
    rw [s.objShape_go 0x70 idx sub false i goes]
    omega
  have max_ : i.size ≤ pathMax .field := fit.trans (by decide)
  rw [whole, s.readObject_go .field idx sub 0 i.size i goes some_ some_ max_, Nat.sub_zero, Nat.min_self]
  rfl

/-- A READ of an object of at most 60 bytes is answered with its bytes. -/
theorem Chip.reqRead_short (s : Chip) {node : Nat} {rest : List Byte} {i : ObjInfo} (taken : ReqTaken s node rest) (idle : s.field.xfer = none)
    (goes : s.gate 0x70 (reqIndex rest) (reqSub rest) false = .go i) (some_ : 1 ≤ i.size) (short : i.size ≤ 60) :
    s.reqRead node rest = (s.objBytes 0x70 (reqIndex rest) (reqSub rest) i.size 0 i.size).2.rsp 0x01 false (reqIndex rest) (reqSub rest)
      (s.objBytes 0x70 (reqIndex rest) (reqSub rest) i.size 0 i.size).1 := by
  refine (taken.frame taken.whole _).trans ?_
  simp only [s.abandonXfer_none idle, s.readObject_field goes some_ (by omega)]
  exact (if_neg (by simp)).trans (if_pos short)

/-- Above 60 bytes it is answered with the size, and a copy is held. -/
theorem Chip.reqRead_long (s : Chip) {node : Nat} {rest : List Byte} {i : ObjInfo} (taken : ReqTaken s node rest) (idle : s.field.xfer = none)
    (goes : s.gate 0x70 (reqIndex rest) (reqSub rest) false = .go i) (long : 60 < i.size) (fit : i.size ≤ 4096) :
    let u := (s.objBytes 0x70 (reqIndex rest) (reqSub rest) i.size 0 i.size).2
    s.reqRead node rest = ({ u with field := { u.field with
      xfer := some ⟨true, reqIndex rest, reqSub rest, i.size, (s.objBytes 0x70 (reqIndex rest) (reqSub rest) i.size 0 i.size).1, 0, false⟩ } }
        : Chip).rsp 0x06 false (reqIndex rest) (reqSub rest) (bytesLE 4 i.size) := by
  refine (taken.frame taken.whole _).trans ?_
  simp only [s.abandonXfer_none idle, s.readObject_field goes (by omega) fit]
  refine (if_neg (by simp)).trans ((if_neg (by omega)).trans ?_)
  rw [if_pos fit]

/-- The shape of an object that a checked write of `n` bytes names. -/
theorem Accepts.shape {s : Chip} {src : Src} {idx sub n : Nat} (acc : Accepts s src idx sub n) : (objShape idx sub).1 = n := by
  obtain ⟨-, goes, -⟩ := acc
  cases gate : s.gate (srcMaster src) idx sub true with
  | abort c => simp [gate, Gate.goes] at goes
  | deny t => simp [gate, Gate.goes] at goes
  | go i =>
    have size : i.size = n := by simpa [gate, Gate.goes] using goes
    rw [s.objShape_go _ _ _ _ i gate, size]

/-- A WRITE of the object's size, with padding behind it, is carried out and answered. -/
theorem Chip.reqWrite_writes (s : Chip) {node n : Nat} {rest : List Byte} (taken : ReqTaken s node rest)
    (acc : Accepts s .field (reqIndex rest) (reqSub rest) n) (pos : 0 < n) (short : n ≤ 60) (whole : n ≤ (rest.drop 3).length)
    (padded : (rest.drop 3).length + 4 ≤ canLength (n + 4)) :
    s.reqWrite node rest = (s.writeValue 0x70 (reqIndex rest) (reqSub rest) (natLE ((rest.drop 3).take n))).2.writeAnswered 0x02 false
      (reqIndex rest) (reqSub rest) (s.writeValue 0x70 (reqIndex rest) (reqSub rest) (natLE ((rest.drop 3).take n))).1 := by
  have length : ((rest.drop 3).take n).length = n := by rw [List.length_take]; omega
  have carried := s.piece_accepts .field (reqIndex rest) (reqSub rest) ((rest.drop 3).take n)
    (fun v s => s.writeValue 0x70 (reqIndex rest) (reqSub rest) v) (by rw [length]; exact acc) (by omega) (by omega)
  refine (taken.frame taken.whole _).trans ?_
  simp only [s.abandonXfer_none (acc.2.2.2.1 rfl), acc.shape]
  have fits : 0 < n ∧ n ≤ 60 ∧ n ≤ (rest.drop 3).length ∧ (rest.drop 3).length + 4 ≤ canLength (n + 4) := ⟨pos, short, whole, padded⟩
  simp only [if_pos fits, if_neg (show ¬ 60 < n by omega), carried]
  rfl

/-! ### Segmented writes and reads (R470, R471) -/

theorem Chip.frame_dict_field (s : Chip) (d : DictUnit) (f : FieldUnit) : Frame [.field, .dict] { s with
    dict := d
    field := f } s :=
  (Frame.set_field (by decide) { s with dict := d } f).trans (Frame.set_dict (by decide) s d)

/-- A sequence of its own begins. -/
theorem Chip.setSeq_new (s : Chip) (q : PieceSeq) (free : s.seqOf q.key = none) :
    s.setSeq q = { s with dict := { s.dict with seqs := s.dict.seqs ++ [q] } } := by
  unfold Chip.setSeq
  dsimp only
  rw [s.dropSeq_none _ free]

/-- WRITE_INIT with the size of an object above 60 bytes starts a sequence and a transfer. -/
theorem Chip.writeInit_starts (s : Chip) {node n : Nat} {rest : List Byte} (taken : ReqTaken s node rest)
    (acc : Accepts s .field (reqIndex rest) (reqSub rest) n) (long : 60 < n) (size : 7 ≤ rest.length) (total : inNat (rest.drop 3) 0 4 = n) :
    s.writeInit node rest = ({ s with
      dict := { s.dict with seqs := s.dict.seqs ++ [⟨objKey (reqIndex rest) (reqSub rest), 0x70, srcPath .field, []⟩] }
      field := { s.field with xfer := some ⟨false, reqIndex rest, reqSub rest, n, [], 0, false⟩ } } : Chip).rsp 0x03 false
        (reqIndex rest) (reqSub rest) [] := by
  obtain ⟨-, goes, free, idle, -⟩ := acc
  refine (taken.frame (need := 4) size _).trans ?_
  simp only [s.abandonXfer_none (idle rfl)]
  cases gate : s.gate 0x70 (reqIndex rest) (reqSub rest) true with
  | abort c => simp [srcMaster, gate, Gate.goes] at goes
  | deny t => simp [srcMaster, gate, Gate.goes] at goes
  | go i =>
    have size : i.size = n := by simpa [srcMaster, gate, Gate.goes] using goes
    have untaken : ¬ s.seqTaken .field (objKey (reqIndex rest) (reqSub rest)) = true := by simp [Chip.seqTaken, free]
    refine (if_neg (by omega)).trans ((if_neg untaken).trans ?_)
    rw [s.setSeq_new ⟨objKey (reqIndex rest) (reqSub rest), 0x70, srcPath .field, []⟩ free, size]

/-- A segment of the transfer in progress: its direction, object and toggle are right. -/
structure SegTaken (x : Xfer) (read : Bool) (rest : List Byte) (t : Bool) : Prop where
  read : x.read = read
  idx : x.idx = reqIndex rest
  sub : x.sub = reqSub rest
  toggle : x.t = t

/-- A segment with its bytes, and padding that one frame holds, is taken. -/
theorem SegTaken.whole {x : Xfer} {rest : List Byte} {t : Bool} (seg : SegTaken x false rest t) {n len : Nat} (bytes : n ≤ len)
    (padded : len + 4 ≤ canLength (n + 4)) : ¬ (x.read = true ∨ x.idx ≠ reqIndex rest ∨ x.sub ≠ reqSub rest ∨ x.t ≠ t ∨ len < n
      ∨ canLength (n + 4) < len + 4) := by
  rintro (read | idx | sub | toggle | short | long)
  · exact Bool.false_ne_true (seg.read.symm.trans read)
  · exact idx seg.idx
  · exact sub seg.sub
  · exact toggle seg.toggle
  · omega
  · omega

/-- A segment that is not the last is kept. -/
theorem Chip.writeSeg_keeps (s : Chip) {node : Nat} {t : Bool} {rest : List Byte} {x : Xfer} (taken : ReqTaken s node rest)
    (runs : s.field.xfer = some x) (seg : SegTaken x false rest t) (more : x.pos + 60 < x.size) (full : (rest.drop 3).length = 60) :
    s.writeSeg node t rest = ({ s with field := { s.field with
      xfer := some { x with buf := x.buf ++ rest.drop 3, pos := x.pos + 60, t := !t } } } : Chip).rsp 0x04 t (reqIndex rest) (reqSub rest) [] := by
  have n : min 60 (x.size - x.pos) = 60 := by omega
  have all : (rest.drop 3).take 60 = rest.drop 3 := List.take_of_length_le (by omega)
  refine (taken.frame taken.whole _).trans ?_
  simp only [runs, n, all]
  exact (if_neg (seg.whole (by omega) (by rw [full]; decide))).trans (if_pos more)

/-- The last segment ends the transfer, and the object takes the whole value. -/
theorem Chip.writeSeg_ends (s : Chip) {node : Nat} {t : Bool} {rest : List Byte} {x : Xfer} (taken : ReqTaken s node rest)
    (runs : s.field.xfer = some x) (seg : SegTaken x false rest t) (more : x.pos < x.size) (last : x.size ≤ x.pos + 60) (small : x.size < 4294967296)
    (kept : x.buf.length = x.pos) (bytes : x.size - x.pos ≤ (rest.drop 3).length) (padded : (rest.drop 3).length + 4 ≤ canLength (x.size - x.pos + 4))
    (acc : Accepts s.endXfer .field (reqIndex rest) (reqSub rest) x.size) :
    let d := x.buf ++ (rest.drop 3).take (x.size - x.pos)
    s.writeSeg node t rest = (s.endXfer.writeValue 0x70 (reqIndex rest) (reqSub rest) (natLE d)).2.writeAnswered 0x04 t (reqIndex rest) (reqSub rest)
      (s.endXfer.writeValue 0x70 (reqIndex rest) (reqSub rest) (natLE d)).1 := by
  have n : min 60 (x.size - x.pos) = x.size - x.pos := by omega
  have length : (x.buf ++ (rest.drop 3).take (x.size - x.pos)).length = x.size := by
    rw [List.length_append, List.length_take, kept]
    omega
  have fit : (x.buf ++ (rest.drop 3).take (x.size - x.pos)).length ≤ pathMax .field := by
    rw [length]
    exact small.le
  have carried := s.endXfer.piece_whole .field (reqIndex rest) (reqSub rest) (x.buf ++ (rest.drop 3).take (x.size - x.pos))
    (fun v s => s.writeValue 0x70 (reqIndex rest) (reqSub rest) v) (by rw [length]; exact acc) (by omega) fit
  refine (taken.frame taken.whole _).trans ?_
  simp only [runs, n]
  refine (if_neg (seg.whole bytes padded)).trans ((if_neg (by omega)).trans ?_)
  rw [carried]
  rfl

/-- The transfer after one more segment of the copy: it goes on, or it is at its end. -/
def Xfer.readNext (x : Xfer) (t : Bool) : Option Xfer :=
  if x.pos + min 60 (x.size - x.pos) < x.size then some { x with pos := x.pos + min 60 (x.size - x.pos), t := !t } else none

/-- READ_SEG answers the next bytes of the copy, and goes on or ends. -/
theorem Chip.readSeg_answers (s : Chip) {node : Nat} {t : Bool} {rest : List Byte} {x : Xfer} (taken : ReqTaken s node rest)
    (runs : s.field.xfer = some x) (seg : SegTaken x true rest t) (fit : x.size ≤ 4096) :
    s.readSeg node t rest = ({ s with field := { s.field with xfer := x.readNext t } } : Chip).rsp
      0x05 t (reqIndex rest) (reqSub rest) ((x.buf.drop x.pos).take (min 60 (x.size - x.pos))) := by
  have right : ¬ ((!x.read) = true ∨ x.idx ≠ reqIndex rest ∨ x.sub ≠ reqSub rest ∨ x.t ≠ t) := by
    simp [seg.read, seg.idx, seg.sub, seg.toggle]
  refine (taken.frame taken.whole _).trans ?_
  simp only [runs, if_pos fit]
  exact if_neg right

end Sys2Proof.Machine

open Sys2Proof Sys2Proof.Machine

/-- Settles O14: each request is its command on the state, and an answer sent after it. -/
theorem fieldRequestsAnswer : Obligations.FieldRequestsAnswer := by
  unfold Obligations.FieldRequestsAnswer
  refine ⟨?short, ?long, ?write, ?init, ?keeps, ?ends, ?reads, ?aborts, ?reserved, ?timeout⟩
  case short =>
    intro s node t rest i up addressed mine whole idle goes some_ short
    have does := s.chip.reqRead_short ⟨up, addressed, mine, whole⟩ idle goes some_ short
    obtain ⟨answered, xfer, frame⟩ := (s.chip.objBytes 0x70 (reqIndex rest) (reqSub rest) i.size 0 i.size).2.rsp_facts 0x01 false (reqIndex rest)
      (reqSub rest) (s.chip.objBytes 0x70 (reqIndex rest) (reqSub rest) i.size 0 i.size).1
    exact ⟨_, _, _, rfl, Effect.of_eq rfl does, answered, xfer, frame⟩
  case long =>
    intro s node t rest i up addressed mine whole idle goes long fit
    have does := s.chip.reqRead_long ⟨up, addressed, mine, whole⟩ idle goes long fit
    exact ⟨_, _, _, rfl, Effect.of_eq rfl does, Chip.rsp_answered _ _ _ _ _ _ _ rfl rfl, rfl,
      (Frame.set_field (l := [.field]) (by decide) _ _).trans (Frame.set_field (by decide) _ _)⟩
  case write =>
    intro s node t rest n up addressed mine whole acc pos short bytes padded
    have does := s.chip.reqWrite_writes ⟨up, addressed, mine, whole⟩ acc pos short bytes padded
    exact ⟨_, _, _, rfl, Effect.of_eq rfl does, Chip.writeAnswered_facts _ _ _ _ _ _⟩
  case init =>
    intro s node t rest n up addressed mine whole acc long size total
    have does := s.chip.writeInit_starts ⟨up, addressed, mine, whole⟩ acc long size total
    exact ⟨_, Effect.of_eq rfl does, Chip.rsp_answered _ _ _ _ _ _ _ rfl rfl, rfl, rfl,
      (Frame.set_field (l := [.field, .dict]) (by decide) _ _).trans
        (s.chip.frame_dict_field _ _)⟩
  case keeps =>
    intro s node t rest x up addressed mine whole runs seg more full
    obtain ⟨read, idx, sub, toggle⟩ := seg
    have does := s.chip.writeSeg_keeps ⟨up, addressed, mine, whole⟩ runs ⟨read, idx, sub, toggle⟩ more full
    exact ⟨_, Effect.of_eq rfl does, Chip.rsp_answered _ _ _ _ _ _ _ rfl rfl, rfl,
      (Frame.set_field (l := [.field]) (by decide) _ _).trans (Frame.set_field (by decide) _ _)⟩
  case ends =>
    intro s node t rest x up addressed mine whole runs seg more last small kept bytes padded acc
    obtain ⟨read, idx, sub, toggle⟩ := seg
    have does := s.chip.writeSeg_ends ⟨up, addressed, mine, whole⟩ runs ⟨read, idx, sub, toggle⟩ more last small kept bytes padded acc
    obtain ⟨done, refused, frame⟩ := Chip.writeAnswered_facts (s.chip.endXfer.writeValue 0x70 (reqIndex rest) (reqSub rest)
      (natLE (x.buf ++ (rest.drop 3).take (x.size - x.pos)))).2 0x04 t (reqIndex rest) (reqSub rest)
      (s.chip.endXfer.writeValue 0x70 (reqIndex rest) (reqSub rest) (natLE (x.buf ++ (rest.drop 3).take (x.size - x.pos)))).1
    exact ⟨_, _, _, rfl, Effect.of_eq rfl does, done, refused, congrArg FieldUnit.xfer s.chip.endXfer_facts.1, frame⟩
  case reads =>
    intro s node t rest x up addressed mine whole runs seg more fit
    obtain ⟨read, idx, sub, toggle⟩ := seg
    have does := s.chip.readSeg_answers ⟨up, addressed, mine, whole⟩ runs ⟨read, idx, sub, toggle⟩ fit
    refine ⟨_, Effect.of_eq rfl does, Chip.rsp_answered _ _ _ _ _ _ _ rfl rfl, fun goesOn => ?_, fun last => ?_,
      (Frame.set_field (l := [.field]) (by decide) _ _).trans (Frame.set_field (by decide) _ _)⟩
    · have n : min 60 (x.size - x.pos) = 60 := by omega
      rw [n]
      refine (if_pos (show x.pos + min 60 (x.size - x.pos) < x.size by omega)).trans ?_
      rw [n]
    · exact if_neg (by omega)
  case aborts =>
    intro s node t rest up addressed mine whole
    obtain ⟨field, -, frame⟩ := s.chip.endXfer_facts
    have taken : ReqTaken s.chip node.toNat rest := ⟨up, addressed, mine, whole⟩
    exact ⟨Effect.of_eq rfl (taken.frame taken.whole _), field, frame⟩
  case reserved =>
    intro s node cmd t rest up addressed mine whole
    have taken : ReqTaken s.chip node.toNat rest := ⟨up, addressed, mine, whole⟩
    exact ⟨_, Effect.of_eq rfl (taken.frame taken.whole _), s.chip.rsp_facts _ _ _ _ _⟩
  case timeout =>
    intro s x runs
    obtain ⟨field, -, frame⟩ := s.chip.endXfer_facts
    have does : s.chip.transferTimeout = s.chip.endXfer.rspAbort x.idx x.sub Abort.transferTimeout := by
      unfold Chip.transferTimeout
      rw [runs]
    refine ⟨_, Effect.of_eq rfl does, Chip.rsp_answered _ _ _ _ _ _ _ (by rw [field]) (by rw [field]), congrArg FieldUnit.xfer field, rfl,
      (Frame.set_field (by decide) _ _).trans frame⟩

end

section
/-!
PROOFS. The field port as a node: heartbeats, alarms sent again, the chain's address, conflicts and bus-off (R473 to R479).
-/
namespace Sys2Proof.Machine

/-! ### Heartbeats (R474, R476) -/

theorem Chip.heartbeatBytes_length (s : Chip) : s.heartbeatBytes.length = 8 := by
  simp [Chip.heartbeatBytes]

/-- The port after a heartbeat: its frame is sent, and its number steps. -/
def Chip.beatSent (s : Chip) : Chip :=
  { s with field := { s.field with
    hbSeq := (s.field.hbSeq + 1) % 65536
    sent := s.field.sent ++ [⟨0xE, s.field.addr, s.heartbeatBytes⟩] } }

/-- A heartbeat's 8 bytes need no padding. -/
theorem Chip.heartbeat_sends (s : Chip) (up : s.busUp = true) (addressed : s.field.addr ≠ 0) : s.heartbeat = s.beatSent := by
  have plain : s.heartbeatBytes ++ List.replicate (canLength s.heartbeatBytes.length - s.heartbeatBytes.length) 0 = s.heartbeatBytes := by
    rw [s.heartbeatBytes_length]
    exact List.append_nil _
  refine (if_neg (by simp [up, addressed])).trans ?_
  unfold Chip.sendFrame Chip.beatSent
  rw [plain]

theorem Chip.beatSent_frame (s : Chip) : Frame [.field] s.beatSent s := Frame.set_field (by decide) _ _

/-- Whether or not it goes out, a heartbeat changes no more than its number and the frames sent. -/
theorem Chip.heartbeat_facts (s : Chip) : (∃ n sent, s.heartbeat.field = { s.field with
    hbSeq := n
    sent := sent }) ∧ Frame [.field] s.heartbeat s := by
  unfold Chip.heartbeat
  split
  · exact ⟨⟨_, _, rfl⟩, Frame.refl _ _⟩
  · exact ⟨⟨_, _, rfl⟩, (Frame.set_field (l := [.field]) (by decide) _ _).trans (Frame.set_field (by decide) _ _)⟩

/-- A CONTROL frame to this node or to all, with its reserved byte there, does its command. -/
theorem Chip.controlFrame_goes (s : Chip) {node : BitVec 7} {rest : List Byte} (up : s.busUp = true) (addressed : s.field.addr ≠ 0)
    (mine : node = 0 ∨ node.toNat = s.field.addr) (byte : rest.head? = some 0) (f : Chip → Chip) : s.controlFrame node.toNat rest f = f s := by
  have here : ¬ (node.toNat ≠ 0 ∧ node.toNat ≠ s.field.addr) := by
    rintro ⟨some_, other⟩
    rcases mine with all | this
    · exact some_ (by rw [all]; rfl)
    · exact other this
  refine (if_neg (by simp [up, addressed, here])).trans ?_
  cases rest with
  | nil => cases byte
  | cons b bs => rfl

/-! ### Alarms sent again (R476) -/

/-- Alarms that fit the queue join it in their order. -/
theorem Chip.queueAlarms_fit (l : List Nat) : ∀ (s : Chip), s.field.alarms.length + l.length ≤ 32
    → l.foldl (fun s n => s.queueAlarm (s.alarmBytes n 0xFF)) s
      = { s with field := { s.field with alarms := s.field.alarms ++ l.map (fun n => s.alarmBytes n 0xFF) } } := by
  induction l with
  | nil =>
    intro s _
    simp
  | cons n l ih =>
    intro s room
    have room' : s.field.alarms.length < 32 := by
      rw [List.length_cons] at room
      omega
    have queued : s.queueAlarm (s.alarmBytes n 0xFF)
        = { s with field := { s.field with alarms := s.field.alarms ++ [s.alarmBytes n 0xFF] } } := if_pos room'
    rw [List.foldl_cons, queued, ih _ (by simp only [List.length_append, List.length_cons, List.length_nil] at room ⊢; omega), List.map_cons]
    simp only [List.append_assoc, List.singleton_append]
    rfl

/-! ### The node address (R477 to R479) -/

/-- The bus is up as far as the mode and the bus state say. -/
theorem Chip.busUp_congr {s t : Chip} (mode : t.mode.current = s.mode.current) (bus : t.field.busState = s.field.busState) : t.busUp = s.busUp := by
  unfold Chip.busUp
  rw [mode, bus]

/-- The chip that an accepted OFFER gives its address, the claim sent. -/
def Chip.claimed (s : Chip) (a : Nat) : Chip :=
  { s with field := { s.field with
    addr := a
    source := 2
    chainOut := true
    sent := s.field.sent ++ [⟨0x3, a, bytesLE 1 2 ++ bytesLE 1 a ++ List.replicate 6 0 ++ bytesLE 8 Config.serial.toNat⟩] } }

/-- An OFFER that a device without an address accepts: the claim, a heartbeat, and CONFIGURING. -/
theorem Chip.chainOffer_accepts (s : Chip) {rest : List Byte} {us : Nat} (up : s.busUp = true) (mode : s.mode.current = .unaddressed)
    (whole : 7 ≤ rest.length) (chained : s.chained = true) (free : s.field.addr = 0) (low : 1 ≤ inNat rest 0 1) (high : inNat rest 0 1 ≤ 126)
    (chain : s.field.chainIn = some us) (long : 1000 ≤ us) (manual : s.cfg Obj.modeAutoTrain = 0) :
    s.chainOffer 0 rest = (s.claimed (inNat rest 0 1)).beatSent.setMode .configuring := by
  have claim : ∀ d : List Byte, d.length = 16 → d ++ List.replicate (canLength d.length - d.length) 0 = d := by
    intro d length
    rw [length]
    exact List.append_nil d
  have beat := (s.claimed (inNat rest 0 1)).heartbeat_sends ((Chip.busUp_congr rfl rfl).trans up)
    (show inNat rest 0 1 ≠ 0 by omega)
  refine (if_neg (by simp [up, mode])).trans ((if_neg (by omega)).trans ?_)
  refine (if_neg (by simp only [chained, free]; simp; omega)).trans ?_
  have goes : ∀ x : Option Nat, x = some us → ∀ c d : Chip, (match x with
      | none => c
      | some us => if us < 1000 then c else d) = d := by
    rintro _ rfl c d
    exact if_neg (by omega)
  refine (goes _ chain _ _).trans ?_
  simp only [Chip.sendFrame]
  rw [claim _ (by simp)]
  refine (congrArg Chip.addressHeld beat).trans ?_
  have held : (s.claimed (inNat rest 0 1)).beatSent.mode.current = .unaddressed ∧ (s.claimed (inNat rest 0 1)).beatSent.field.addr ≠ 0 :=
    ⟨mode, show inNat rest 0 1 ≠ 0 by omega⟩
  refine (if_pos held).trans (if_neg ?_)
  show ¬ s.cfg Obj.modeAutoTrain = 1
  omega

/-- The chain's input is noted, and a strapped device with an address passes an asserted one on. -/
theorem Chip.chainInput_eq (s : Chip) (us : Option Nat) : s.chainInput us = { s with field := { s.field with
    chainIn := us
    chainOut := s.field.chainOut || (!s.chained && decide (s.field.addr ≠ 0) && us.isSome) } } := by
  unfold Chip.chainInput Chip.passChain
  by_cases passes : !s.chained ∧ s.field.addr ≠ 0 ∧ us.isSome
  · have goes : (!s.chained && decide (s.field.addr ≠ 0) && us.isSome) = true := by
      rw [Bool.and_eq_true, Bool.and_eq_true, decide_eq_true_eq, and_assoc]
      exact passes
    rw [goes, Bool.or_true]
    exact if_pos passes
  · have stays : (!s.chained && decide (s.field.addr ≠ 0) && us.isSome) = false := by
      rw [← Bool.not_eq_true, Bool.and_eq_true, Bool.and_eq_true, decide_eq_true_eq]
      exact fun ⟨⟨strapped, addressed⟩, asserted⟩ => passes ⟨strapped, addressed, asserted⟩
    rw [stays, Bool.or_false]
    exact if_neg passes

/-- A conflict counts, raises source 161, and takes a chain device's address with its transfer. -/
theorem Chip.addressConflict_facts (s : Chip) (up : s.busUp = true) (addressed : s.field.addr ≠ 0) :
    (s.addressConflict s.field.addr).field.conflicts = wrap32 (s.field.conflicts + 1) ∧ (s.addressConflict s.field.addr).sticky 161 = true
    ∧ (s.field.source = 2 → (s.addressConflict s.field.addr).field.addr = 0 ∧ (s.addressConflict s.field.addr).field.source = 0
      ∧ (s.addressConflict s.field.addr).field.xfer = none)
    ∧ (s.field.source ≠ 2 → (s.addressConflict s.field.addr).field.addr = s.field.addr
      ∧ (s.addressConflict s.field.addr).field.source = s.field.source ∧ (s.addressConflict s.field.addr).field.xfer = s.field.xfer
      ∧ (s.addressConflict s.field.addr).dict = s.dict)
    ∧ Frame [.field, .fault, .heads, .dict] (s.addressConflict s.field.addr) s := by
  have does : s.addressConflict s.field.addr = _ := if_neg (by simp [up, addressed])
  rw [does]
  dsimp only
  generalize counted : ({ s with field := { s.field with conflicts := wrap32 (s.field.conflicts + 1) } } : Chip) = a
  have field : a.field = { s.field with conflicts := wrap32 (s.field.conflicts + 1) } := by rw [← counted]
  have frame : Frame [.field, .fault, .heads, .dict] a s := by
    rw [← counted]
    exact Frame.set_field (by decide) _ _
  have raised := (a.raise_eq 161 0xFF 0 .none [0, 1, 2, 3]).frame
  have alarms := a.raise_field 161 0xFF 0 .none [0, 1, 2, 3]
  have sticky := a.raise_sticky 161 0xFF 0 .none [0, 1, 2, 3]
  generalize a.raise 161 = b at raised alarms sticky ⊢
  have kept : b.field.source = s.field.source ∧ b.field.addr = s.field.addr ∧ b.field.xfer = s.field.xfer
      ∧ b.field.conflicts = wrap32 (s.field.conflicts + 1) := by
    rw [alarms, field]
    exact ⟨rfl, rfl, rfl, rfl⟩
  obtain ⟨source, addr, xfer, conflicts⟩ := kept
  have whole := (raised.mono (m := [.field, .fault, .heads, .dict]) (by decide)).trans frame
  by_cases chain : s.field.source = 2
  · obtain ⟨ended, fault, ends⟩ := b.endXfer_facts
    rw [if_pos (source.trans chain)]
    refine ⟨?_, ?_, fun _ => ⟨rfl, rfl, congrArg FieldUnit.xfer ended⟩, fun no => absurd chain no,
      (Frame.set_field (by decide) _ _).trans ((ends.mono (by decide)).trans whole)⟩
    · exact (congrArg FieldUnit.conflicts ended).trans conflicts
    · exact (congrArg (fun f : FaultUnit => bitOf f.sticky 161) fault).trans sticky
  · rw [if_neg (fun yes => chain (source.symm.trans yes))]
    have dict : b.dict = s.dict := (raised .dict (by decide)).trans (by rw [← counted])
    exact ⟨conflicts, sticky, fun yes => absurd yes chain, fun _ => ⟨addr, source, xfer, dict⟩, whole⟩

/-! ### Bus-off (R473) -/

/-- An abandoned transfer is gone, its sequence with it. -/
theorem Chip.abandonXfer_facts (s : Chip) : s.abandonXfer.field.xfer = none ∧ s.abandonXfer.field.busOffs = s.field.busOffs
    ∧ Frame [.field, .dict] s.abandonXfer s := by
  cases runs : s.field.xfer with
  | none =>
    rw [s.abandonXfer_none runs]
    exact ⟨runs, rfl, Frame.refl _ _⟩
  | some x =>
    unfold Chip.abandonXfer
    simp only [runs]
    refine ⟨trivial, ?_, (Frame.set_field (by decide) _ _).trans ?_⟩
    · cases x.read <;> rfl
    · cases x.read
      · exact Frame.set_dict (by decide) _ _
      · exact Frame.refl _ _

/-- BUS_OFF counts, abandons the transfer in progress and raises source 160. -/
theorem Chip.busOff_facts (s : Chip) (works : s.field.busState ≠ 2) :
    s.busOff.field.busState = 2 ∧ s.busOff.field.busOffs = wrap32 (s.field.busOffs + 1) ∧ s.busOff.field.xfer = none ∧ s.busOff.sticky 160 = true
    ∧ Frame [.field, .fault, .heads, .dict] s.busOff s := by
  have does : s.busOff = _ := if_neg works
  rw [does]
  obtain ⟨xfer, count, frame⟩ := s.abandonXfer_facts
  generalize s.abandonXfer = a at xfer count frame ⊢
  have alarms := ({ a with field := { a.field with
      busState := 2
      busOffs := wrap32 (a.field.busOffs + 1)
      alarms := a.field.alarms.drop 1 } } : Chip).raise_field 160 0xFF 0 .none [0, 1, 2, 3]
  have raised := (Chip.raise_eq { a with field := { a.field with
      busState := 2
      busOffs := wrap32 (a.field.busOffs + 1)
      alarms := a.field.alarms.drop 1 } } 160 0xFF 0 .none [0, 1, 2, 3]).frame
  refine ⟨congrArg FieldUnit.busState alarms, ?_, (congrArg FieldUnit.xfer alarms).trans xfer, Chip.raise_sticky _ _ _ _ _ _,
    (raised.mono (by decide)).trans ((Frame.set_field (by decide) _ _).trans (frame.mono (by decide)))⟩
  rw [← count]
  exact congrArg FieldUnit.busOffs alarms

end Sys2Proof.Machine

open Sys2Proof Sys2Proof.Machine

/-- Settles O15: each frame or event of the bus is its own operation of the field port. -/
theorem fieldNodeHeartbeatsAndAddresses : Obligations.FieldNodeHeartbeatsAndAddresses := by
  unfold Obligations.FieldNodeHeartbeatsAndAddresses
  refine ⟨?asked, ?timer, ?alarms, ?offer, ?chain, ?conflict, ?off, ?recovery⟩
  case asked =>
    intro s node rest up addressed mine byte
    have does : s.chip.heartbeatRequest node.toNat rest = s.chip.beatSent :=
      (s.chip.controlFrame_goes up addressed mine byte _).trans (s.chip.heartbeat_sends up addressed)
    exact ⟨_, Effect.of_eq rfl does, rfl, s.chip.beatSent_frame⟩
  case timer =>
    intro s period up addressed
    have does : s.chip.heartbeatTimer = s.chip.beatSent := (if_neg period).trans (s.chip.heartbeat_sends up addressed)
    exact ⟨_, Effect.of_eq rfl does, rfl, s.chip.beatSent_frame⟩
  case alarms =>
    intro s node rest l up addressed mine byte qualify room
    have does : s.chip.alarmResend node.toNat rest = _ := s.chip.controlFrame_goes up addressed mine byte _
    rw [← qualify, Chip.queueAlarms_fit l s.chip room] at does
    exact ⟨_, Effect.of_eq rfl does, rfl, Frame.set_field (by decide) _ _⟩
  case offer =>
    intro s rest us up mode whole chained free low high chain long manual
    have does := s.chip.chainOffer_accepts up mode whole chained free low high chain long manual
    refine ⟨_, Effect.of_eq rfl does, rfl, rfl, rfl, rfl, ⟨_, rfl, List.append_assoc _ _ _⟩, ?_⟩
    exact (Frame.set_mode (by decide) _ _).trans
      (((Chip.beatSent_frame _).mono (by decide)).trans (Frame.set_field (by decide) _ _))
  case chain => exact fun s us => Effect.of_eq rfl (s.chip.chainInput_eq us)
  case conflict =>
    intro s node up addressed mine
    exact ⟨_, Effect.of_eq rfl (congrArg s.chip.addressConflict mine), s.chip.addressConflict_facts up addressed⟩
  case off => exact fun s works => ⟨_, Effect.of_eq rfl rfl, s.chip.busOff_facts works⟩
  case recovery =>
    intro s off
    have does : s.chip.busRecovery = _ := if_neg (fun no => no off)
    obtain ⟨⟨n, sent, field⟩, frame⟩ := ({ s.chip with field := { s.chip.field with
      busState := 0
      txErr := 0
      rxErr := 0 } } : Chip).heartbeat_facts
    refine ⟨_, Effect.of_eq rfl does, ?_, ?_, ?_, ?_, frame.trans (Frame.set_field (by decide) _ _)⟩ <;> rw [field]

end

section
/-!
PROOFS. The power entry controller: its steps, its samples, its feeds and pins, and its trips (R499 to R517, R525).
-/
namespace Sys2Proof.Machine

/-! ### The controller's registers and its state -/

/-- The mode that a power state leaves behind (R527). -/
def Chip.modeAt (s : Chip) (st : PwrState) : ModeUnit :=
  { s.mode with current :=
      if s.mode.current = .inserting ∧ st.gate = false then .unseated
      else if s.mode.current = .unseated ∧ st = .ramp then .inserting else s.mode.current }

/-- The registers take values, and then power.state does. -/
theorem Chip.setPwr_from (s : Chip) (u : PowerUnit) (st : PwrState) :
    (({ s with power := u } : Chip).setPwr st).power = { u with st := st }
    ∧ (({ s with power := u } : Chip).setPwr st).mode = s.modeAt st ∧ Frame [.power, .mode] (({ s with power := u } : Chip).setPwr st) s := by
  obtain ⟨power, frame, mode⟩ := ({ s with power := u } : Chip).setPwr_facts st
  exact ⟨power, mode, frame.trans (Frame.set_power (by decide) _ _)⟩

/-- A feed's voltage is kept in its own register. -/
def PowerUnit.withFeed (u : PowerUnit) (f mv : Nat) : PowerUnit :=
  { u with
    feedA := if f = 0 then mv else u.feedA
    feedB := if f = 0 then u.feedB else mv }

theorem Chip.keepFeed_eq (s : Chip) (f mv : Nat) : s.keepFeed f mv = { s with power := s.power.withFeed f mv } := by
  unfold Chip.keepFeed PowerUnit.withFeed
  split <;> rfl

/-- The register of feed `f` holds what was kept in it. -/
theorem PowerUnit.withFeed_reads (u : PowerUnit) (f : Fin 2) (mv : Nat) :
    (if f = 0 then (u.withFeed f mv).feedA else (u.withFeed f mv).feedB) = mv := by
  unfold PowerUnit.withFeed
  by_cases first : f = 0
  · rw [if_pos first, if_pos (by rw [first]; rfl)]
  · rw [if_neg first]
    exact if_neg (fun zero => first (Fin.ext zero))

/-! ### Seating (R503, R517) -/

/-- Seat pins that both read seated in UNSEATED, with a valid feed, begin SEATING. -/
theorem Chip.seatPins_begin (s : Chip) (st : s.power.st = .unseated) (feed : s.feedOk = true) :
    s.seatPins true true = ({ s with power := { s.power with
      seatA := true
      seatB := true
      seatRuns := true
      away := false
      retries := if s.power.away then 0 else s.power.retries } } : Chip).setPwr .seating := by
  have feed' : s.power.status % 4 ≠ 0 := of_decide_eq_true feed
  unfold Chip.seatPins
  cases away : s.power.away with
  | false => simp [st, away, Chip.feedOk, feed']
  | true => simp [st, away, Chip.feedOk, feed']

/-- An unseated pin in SEATING stops its timer. -/
theorem Chip.seatPins_stop (s : Chip) (a b : Bool) (st : s.power.st = .seating) (open_ : (a && b) = false) :
    s.seatPins a b = { s with power := { s.power with
      seatA := a
      seatB := b
      seatRuns := false } } := by
  unfold Chip.seatPins
  simp [st, open_]

/-- Pins read again as they are, in ON, change nothing of a card that is not away. -/
theorem Chip.seatPins_on (s : Chip) (st : s.power.st = .on) (away : s.power.away = false) : s.seatPins s.power.seatA s.power.seatB = s := by
  have still : ¬ (s.power.seatA && s.power.seatB && s.power.away) = true := by simp [away]
  unfold Chip.seatPins
  dsimp only
  rw [if_neg still]
  split
  · next off => exact absurd (off.symm.trans st) (by decide)
  · next off => exact absurd (off.symm.trans st) (by decide)
  · rfl

/-- UNSEAT before ON, and while TRIPPED, leaves UNSEATED. -/
theorem Chip.unseat_off (s : Chip) (lost : s.power.lost = false) (seated : s.seated = false)
    (st : s.power.st = .seating ∨ s.power.st = .precheck ∨ s.power.st = .ramp ∨ s.power.st = .enhance ∨ s.power.st = .tripped) :
    s.unseat = ({ s with power := { s.power with
      away := true
      seatRuns := false
      checksPassed := false
      noRetry := false
      exhausted := false
      vgsUs := 0 } } : Chip).setPwr .unseated := by
  refine (if_neg (by simp [lost, seated])).trans ?_
  rcases st with st | st | st | st | st <;> simp only [st]

/-- UNSEAT in ON is signalled, with the FET kept on. -/
theorem Chip.unseat_on (s : Chip) (lost : s.power.lost = false) (seated : s.seated = false) (st : s.power.st = .on) :
    s.unseat = ({ s with power := { s.power with away := true } } : Chip).unseatSignal := by
  refine (if_neg (by simp [lost, seated])).trans ?_
  simp only [st]

/-- The signal raises source 185, and begins DRAIN where the mode takes it. -/
theorem Chip.unseatSignal_facts (s : Chip) :
    s.unseatSignal.power = s.power
    ∧ (s.mayDrain = true → ∃ r, s.unseatSignal.mode = { s.mode with
        previous := s.mode.current
        current := .drain
        drainState := 1
        drainStopped := r })
    ∧ (s.mayDrain = false → s.unseatSignal.mode = s.mode ∧ s.unseatSignal.sticky 185 = true)
    ∧ Frame [.lauter, .mode, .win, .hop, .links, .husk, .cnt, .dram, .kiln, .fault, .heads, .field] s.unseatSignal s := by
  unfold Chip.unseatSignal
  dsimp only
  obtain ⟨power, mode⟩ := s.raise_power 185 0xFF 0 .none [0, 1, 2, 3]
  have raised := (s.raise_eq 185 0xFF 0 .none [0, 1, 2, 3]).frame
  have sticky := s.raise_sticky 185 0xFF 0 .none [0, 1, 2, 3]
  generalize s.raise 185 = a at power mode raised sticky ⊢
  have may : a.mayDrain = s.mayDrain := by
    unfold Chip.mayDrain
    rw [mode]
  rw [may]
  cases s.mayDrain with
  | false => exact ⟨power, nofun, fun _ => ⟨mode, sticky⟩, raised.mono (by decide)⟩
  | true =>
    obtain ⟨frame, ⟨r, drain⟩, -, -⟩ := a.enterDrain_facts
    refine ⟨(frame .power (by decide)).trans power, fun _ => ⟨r, drain.trans (by rw [mode])⟩, nofun, ?_⟩
    exact (frame.mono (by decide)).trans (raised.mono (by decide))

/-! ### PRECHECK and cooldown (R504, R516) -/

/-- A diode in its range is no sense fault: a reading is one by its current alone. -/
theorem Chip.senseCheck_diode (s : Chip) (current diode : Int) (range : -40 ≤ diode ∧ diode ≤ 200) :
    s.senseCheck current diode = (decide (current < -2000 ∨ 2000 < current), { s with power := { s.power with
      current := current
      diode := diode
      diodeBad := false } }) := by
  have good : diodeOut diode = false := by
    unfold diodeOut
    exact decide_eq_false (by omega)
  unfold Chip.senseCheck
  simp [good]

/-- PRECHECK with its current and its diode read: what the checks come to. -/
def Chip.prechecked (s : Chip) (current diode : Int) : Chip :=
  { s with power := { s.power with
    current := current
    diode := diode
    diodeBad := false } }

/-- PRECHECK whose readings pass ramps where cooldown is met, and else waits. -/
theorem Chip.precheckEnd_passes (s : Chip) {rise current diode : Int} (st : s.power.st = .precheck) (fresh : s.power.checksPassed = false)
    (small : -2000 ≤ current ∧ current ≤ 2000) (range : -40 ≤ diode ∧ diode ≤ 200) (low : rise < 500) (seated : s.seated = true)
    (feed : s.feedOk = true) :
    s.precheckEnd rise current diode = if (s.prechecked current diode).coolEnough && !s.power.cooldown then (s.prechecked current diode).enterRamp
      else { s.prechecked current diode with power := { (s.prechecked current diode).power with checksPassed := true } } := by
  refine (if_neg (by simp [st, fresh])).trans ?_
  have sense : decide (current < -2000 ∨ 2000 < current) = false := decide_eq_false (by omega)
  have short : decide (500 ≤ rise) = false := decide_eq_false (by omega)
  rw [s.senseCheck_diode current diode range, sense]
  dsimp only
  rw [short]
  refine (if_neg Bool.false_ne_true).trans ((if_neg ?_).trans rfl)
  show ¬ (!s.seated || !s.feedOk) = true
  simp [seated, feed]

/-- PRECHECK whose readings fail latches. -/
theorem Chip.precheckEnd_fails (s : Chip) {rise current diode : Int} (st : s.power.st = .precheck) (fresh : s.power.checksPassed = false)
    (range : -40 ≤ diode ∧ diode ≤ 200) (fails : (decide (500 ≤ rise) || decide (current < -2000 ∨ 2000 < current)) = true) :
    s.precheckEnd rise current diode = (s.prechecked current diode).latchOff (decide (500 ≤ rise)) (decide (current < -2000 ∨ 2000 < current)) := by
  refine (if_neg (by simp [st, fresh])).trans ?_
  rw [s.senseCheck_diode current diode range]
  exact if_pos fails

/-- The causes of a check that failed with the gate off. -/
def latchCauses (short sense : Bool) : Nat := (if short then 128 else 0) + (if sense then 256 else 0)

/-- A failed check latches, with its record and its sources, and keeps the trip counters (R514). -/
theorem Chip.latchOff_facts (s : Chip) (short sense : Bool) :
    (s.latchOff short sense).power = { s.power with
      trip := s.tripRec (latchCauses short sense) 0
      exhausted := false
      st := .latched }
    ∧ (short = true → (s.latchOff short sense).sticky 182 = true) ∧ (sense = true → (s.latchOff short sense).sticky 183 = true)
    ∧ Frame [.power, .mode, .fault, .heads, .field] (s.latchOff short sense) s := by
  unfold Chip.latchOff
  dsimp only
  obtain ⟨power, -, frame⟩ := s.setPwr_from { s.power with
    trip := s.tripRec (latchCauses short sense) 0
    exhausted := false } .latched
  unfold latchCauses at power frame ⊢
  generalize Chip.setPwr _ PwrState.latched = a at power frame ⊢
  obtain ⟨shortFrame, shortPower, shortSticky, -⟩ := a.raise_if (short = true) 182
  generalize (if short = true then a.raise 182 else a) = b at shortFrame shortPower shortSticky ⊢
  obtain ⟨senseFrame, sensePower, senseSticky, kept⟩ := b.raise_if (sense = true) 183
  exact ⟨sensePower.trans (shortPower.trans power), fun yes => kept _ (shortSticky yes), senseSticky,
    (senseFrame.mono (by decide)).trans ((shortFrame.mono (by decide)).trans (frame.mono (by decide)))⟩

/-- COOLDOWN_MET lets a PRECHECK that waits ramp. -/
theorem Chip.cooldownMet_ramps (s : Chip) (lost : s.power.lost = false) (cool : s.coolEnough = true) (st : s.power.st = .precheck)
    (passed : s.power.checksPassed = true) (seated : s.seated = true) (feed : s.feedOk = true) :
    s.cooldownMet = ({ s with power := { s.power with
      cooldown := false
      checksPassed := false } } : Chip).setPwr .ramp := by
  have held : (({ s with power := { s.power with cooldown := false } } : Chip).seated
      && ({ s with power := { s.power with cooldown := false } } : Chip).feedOk) = true := by
    show (s.seated && s.feedOk) = true
    rw [seated, feed]
    rfl
  refine (if_neg (by simp [lost, cool])).trans ?_
  simp only [st, passed]
  exact if_pos held

/-- It lets TRIPPED check again. -/
theorem Chip.cooldownMet_retries (s : Chip) (lost : s.power.lost = false) (cool : s.coolEnough = true) (st : s.power.st = .tripped)
    (retry : s.power.noRetry = false) (seated : s.seated = true) :
    s.cooldownMet = ({ s with power := { s.power with
      cooldown := false
      checksPassed := false } } : Chip).setPwr .precheck := by
  have goes : ¬ (s.power.noRetry = true ∨ (!({ s with power := { s.power with cooldown := false } } : Chip).seated) = true) := by
    show ¬ (s.power.noRetry = true ∨ (!s.seated) = true)
    simp [retry, seated]
  refine (if_neg (by simp [lost, cool])).trans ?_
  simp only [st]
  exact if_neg goes

/-! ### Feeds (R499 to R501) -/

/-- The status of a feed that is dropped: neither valid nor conducting, and high or not. -/
def droppedStatus (status f : Nat) (high : Bool) : Nat := setBit (setBit (setBit status f false) (2 + f) high) (4 + f) false

/-- The status of a feed that is taken. -/
def takenStatus (status f : Nat) (on : Bool) : Nat := setBit (setBit (setBit status f true) (2 + f) false) (4 + f) on

/-- A bit reads as before where another was set to any value. -/
theorem bitOf_setBit_else (v : Nat) {i j : Nat} (b : Bool) (other : j ≠ i) : bitOf (setBit v i b) j = bitOf v j := by
  cases b
  · exact bitOf_clear_other v other
  · exact bitOf_setBit_other v other

theorem droppedStatus_bits (status f : Nat) (high : Bool) (two : f < 2) :
    bitOf (droppedStatus status f high) f = false ∧ bitOf (droppedStatus status f high) (4 + f) = false
    ∧ bitOf (droppedStatus status f high) (2 + f) = high ∧ bitOf (droppedStatus status f high) (1 - f) = bitOf status (1 - f) := by
  unfold droppedStatus
  refine ⟨?_, bitOf_setBit_val _ _ _, ?_, ?_⟩
  · rw [bitOf_setBit_else _ _ (by omega), bitOf_setBit_else _ _ (by omega), bitOf_setBit_val]
  · rw [bitOf_setBit_else _ _ (by omega), bitOf_setBit_val]
  · rw [bitOf_setBit_else _ _ (by omega), bitOf_setBit_else _ _ (by omega), bitOf_setBit_else _ _ (by omega)]

theorem takenStatus_bits (status f : Nat) (on : Bool) (two : f < 2) :
    bitOf (takenStatus status f on) f = true ∧ bitOf (takenStatus status f on) (2 + f) = false
    ∧ bitOf (takenStatus status f on) (4 + f) = on ∧ bitOf (takenStatus status f on) (1 - f) = bitOf status (1 - f) := by
  unfold takenStatus
  refine ⟨?_, ?_, bitOf_setBit_val _ _ _, ?_⟩
  · rw [bitOf_setBit_else _ _ (by omega), bitOf_setBit_else _ _ (by omega), bitOf_setBit_val]
  · rw [bitOf_setBit_else _ _ (by omega), bitOf_setBit_val]
  · rw [bitOf_setBit_else _ _ (by omega), bitOf_setBit_else _ _ (by omega), bitOf_setBit_else _ _ (by omega)]

/-- A valid bit among the two makes the feed path up. -/
theorem Chip.feedOk_of_bit (s : Chip) {f : Nat} (two : f < 2) (valid : bitOf s.power.status f = true) : s.feedOk = true := by
  unfold Chip.feedOk
  refine decide_eq_true (fun none => ?_)
  have low : (s.power.status % 2 ^ 2).testBit f = s.power.status.testBit f := by
    rw [Nat.testBit_mod_two_pow, decide_eq_true two, Bool.true_and]
  unfold bitOf at valid
  rw [valid, show s.power.status % 2 ^ 2 = 0 from none, Nat.zero_testBit] at low
  exact Bool.false_ne_true low

/-- Both valid bits set read as 3. -/
theorem mod_four_of_bits {v : Nat} (first : bitOf v 0 = true) (second : bitOf v 1 = true) : v % 4 = 3 := by
  unfold bitOf at first second
  rw [Nat.testBit_zero, decide_eq_true_eq] at first
  rw [Nat.testBit_succ, Nat.testBit_zero, decide_eq_true_eq] at second
  omega

/-- A feed that was valid and is dropped: its bits, its voltage and its sources. -/
theorem Chip.dropFeed_facts (s : Chip) (f mv : Nat) (was : s.feedValidBit f = true) :
    (s.dropFeed f mv).power
      = ({ s.power with status := droppedStatus s.power.status f (decide (s.sreg Obj.powerFeedOvMv < mv)) } : PowerUnit).withFeed f mv
    ∧ (s.dropFeed f mv).sticky (176 + f) = true
    ∧ (s.sreg Obj.powerFeedOvMv < mv → bitOf s.power.status (2 + f) = false → (s.dropFeed f mv).sticky 178 = true)
    ∧ Frame [.power, .fault, .heads, .field] (s.dropFeed f mv) s := by
  unfold Chip.dropFeed
  dsimp only
  rw [Chip.keepFeed_eq, if_pos was]
  generalize dropped : ({ s with power := ({ s.power with
    status := droppedStatus s.power.status f (decide (s.sreg Obj.powerFeedOvMv < mv)) } : PowerUnit).withFeed f mv } : Chip) = a
  have power : a.power = ({ s.power with
      status := droppedStatus s.power.status f (decide (s.sreg Obj.powerFeedOvMv < mv)) } : PowerUnit).withFeed f mv := by rw [← dropped]
  have frame : Frame [.power] a s := by
    rw [← dropped]
    exact Frame.set_power (by decide) _ _
  replace dropped : ({ ({ s with power := { s.power with
      status := setBit (setBit (setBit s.power.status f false) (2 + f) (decide (s.sreg Obj.powerFeedOvMv < mv))) (4 + f) false } } : Chip) with
      power := ({ s.power with
        status := setBit (setBit (setBit s.power.status f false) (2 + f) (decide (s.sreg Obj.powerFeedOvMv < mv))) (4 + f) false }
          : PowerUnit).withFeed f mv } : Chip) = a := dropped
  rw [dropped]
  obtain ⟨raisedPower, -⟩ := a.raise_power (176 + f) 0xFF 0 .none [0, 1, 2, 3]
  have raised := (a.raise_eq (176 + f) 0xFF 0 .none [0, 1, 2, 3]).frame
  have sticky := a.raise_sticky (176 + f) 0xFF 0 .none [0, 1, 2, 3]
  generalize a.raise (176 + f) = b at raisedPower raised sticky ⊢
  obtain ⟨highFrame, highPower, highSticky, kept⟩ :=
    b.raise_if ((decide (s.sreg Obj.powerFeedOvMv < mv) && !bitOf s.power.status (2 + f)) = true) 178
  refine ⟨highPower.trans (raisedPower.trans power), kept _ sticky, fun high wasLow => highSticky (by simp [high, wasLow]),
    (highFrame.mono (by decide)).trans ((raised.mono (by decide)).trans (frame.mono (by decide)))⟩

/-- The registers after a feed is taken: its bits and its voltage. -/
def PowerUnit.taken (u : PowerUnit) (f mv : Nat) : PowerUnit :=
  ({ u with status := takenStatus u.status f (bitOf u.status (4 + f) || decide (u.vbus + 50 ≤ mv)) } : PowerUnit).withFeed f mv

theorem Chip.takeFeed_eq (s : Chip) (f mv : Nat) : s.takeFeed f mv = { s with power := s.power.taken f mv } := by
  unfold Chip.takeFeed
  rw [Chip.keepFeed_eq]
  rfl

/-! ### Samples (R507, R509, R512, R525) -/

/-- Both feeds in range, SENTRY_WAKE takes both. -/
def Chip.bothFeeds (s : Chip) (a b : Nat) : Chip := (s.takeFeed 0 a).takeFeed 1 b

theorem Chip.bothFeeds_facts (s : Chip) (a b : Nat) :
    (s.bothFeeds a b).power = { s.power with
      status := (s.bothFeeds a b).power.status
      feedA := a
      feedB := b }
    ∧ (s.bothFeeds a b).power.status % 4 = 3 ∧ Frame [.power] (s.bothFeeds a b) s := by
  unfold Chip.bothFeeds
  rw [Chip.takeFeed_eq, Chip.takeFeed_eq]
  refine ⟨rfl, mod_four_of_bits ?_ (takenStatus_bits _ 1 _ (by decide)).1,
    (Frame.set_power (l := [.power]) (by decide) _ _).trans (Frame.set_power (by decide) s _)⟩
  exact (takenStatus_bits _ 1 _ (by decide)).2.2.2.trans (takenStatus_bits _ 0 _ (by decide)).1

/-- With the modelled temperature alone, a current in range is no sense fault. -/
theorem Chip.senseCheck_model (s : Chip) (current diode : Int) (source : s.sreg Obj.powerFetTempSource = 0)
    (small : -2000 ≤ current ∧ current ≤ 2000) : s.senseCheck current diode = (false, { s with power := { s.power with
      current := current
      diode := diode
      diodeBad := false } }) := by
  have range : ¬ (current < -2000 ∨ 2000 < current) := by omega
  unfold Chip.senseCheck
  simp [source, range]

/-- The model and its kept temperature change these two registers alone. -/
theorem Chip.thermal_facts (s : Chip) (p : Int) (us : Nat) : ∃ m temp : Int, (s.thermalStep p us).keepTemp = { s with power := { s.power with
    tModel := m
    fetTemp := temp } } := ⟨_, _, rfl⟩

/-- SENTRY_WAKE of an unpowered slot whose feeds and current are in range. -/
theorem Chip.sentryWake_unseated (s : Chip) {x : PwrSample} (lost : s.power.lost = false) (st : s.power.st = .unseated)
    (feedA : s.feedInRange x.feedA = true) (feedB : s.feedInRange x.feedB = true) (source : s.sreg Obj.powerFetTempSource = 0)
    (small : -2000 ≤ x.current ∧ x.current ≤ 2000) :
    ∃ m temp : Int, s.sentryWake x = ({ s.bothFeeds x.feedA x.feedB with power := { (s.bothFeeds x.feedA x.feedB).power with
      current := x.current
      diodeBad := false
      tModel := m
      fetTemp := temp } } : Chip).seatPins x.seatA x.seatB := by
  obtain ⟨power, -, -⟩ := s.bothFeeds_facts x.feedA x.feedB
  have second : (s.takeFeed 0 x.feedA).feedInRange x.feedB = true := by
    rw [Chip.takeFeed_eq]
    exact feedB
  have source' : (s.bothFeeds x.feedA x.feedB).sreg Obj.powerFetTempSource = 0 :=
    (Chip.sreg_congr (by rw [power]) _).trans source
  have sense := (s.bothFeeds x.feedA x.feedB).senseCheck_model x.current (s.bothFeeds x.feedA x.feedB).power.diode source' small
  obtain ⟨m, temp, model⟩ := ({ s.bothFeeds x.feedA x.feedB with power := { (s.bothFeeds x.feedA x.feedB).power with
    current := x.current
    diodeBad := false } } : Chip).thermal_facts 0 1000
  refine ⟨m, temp, ?_⟩
  unfold Chip.sentryWake
  simp only [st, lost, feedA, second, if_true, Bool.false_eq_true, if_false]
  rw [show (s.takeFeed 0 x.feedA).takeFeed 1 x.feedB = s.bothFeeds x.feedA x.feedB from rfl]
  rw [if_pos source', sense]
  exact congrArg (fun c : Chip => c.seatPins x.seatA x.seatB) model

end Sys2Proof.Machine

open Sys2Proof Sys2Proof.Machine

/-- Settles O42: each of these is a trip with its code. -/
theorem passFetTripsAreRecordedAndRetriedOrLatched : Obligations.PassFetTripsAreRecordedAndRetriedOrLatched := by
  unfold Obligations.PassFetTripsAreRecordedAndRetriedOrLatched
  refine ⟨?ramp, ?enhance, ?curve, ?instant, ?heat, ?brownout⟩
  case ramp => exact fun s vout st => ⟨_, Effect.of_eq rfl (if_pos st), Chip.trip_facts _ _⟩
  case enhance => exact fun s st => ⟨_, Effect.of_eq rfl (if_pos st), Chip.trip_facts _ _⟩
  case curve =>
    intro s k gate used out
    have point : s.chip.curveOut.contains k.val = true := by
      unfold Chip.curveOut
      rw [List.contains_iff_mem, List.mem_filter, List.mem_range]
      exact ⟨k.isLt, decide_eq_true ⟨used, out⟩⟩
    exact ⟨_, Effect.of_eq rfl (if_pos ⟨gate, point⟩), Chip.trip_facts _ _⟩
  case instant => exact fun s current gate limit => ⟨_, Effect.of_eq rfl (if_pos ⟨gate, limit⟩), Chip.trip_facts _ _⟩
  case heat => exact fun s gate limit => ⟨_, Effect.of_eq rfl (if_pos ⟨gate, limit⟩), Chip.trip_facts _ _⟩
  case brownout => exact fun s vout st low => ⟨_, Effect.of_eq rfl (if_pos ⟨st, low⟩), Chip.trip_facts _ _⟩

/-- Settles O41: each step of the controller is a change of its registers and of power.state. -/
theorem powerEntersInStepsAndWatchesItsFeeds : Obligations.PowerEntersInStepsAndWatchesItsFeeds := by
  unfold Obligations.PowerEntersInStepsAndWatchesItsFeeds
  refine ⟨?seats, ?stops, ?seatEnds, ?ramps, ?waits, ?shorts, ?senses, ?cooled, ?retries, ?rampEnds, ?enhanced, ?samples, ?unseats, ?signals,
    ?gateLow, ?clears, ?invalid, ?valid, ?reverse, ?wakes⟩
  case seats =>
    intro s lost st feed
    have does : s.chip.seatPinEdge true true = _ := (if_neg (by simp [lost])).trans (s.chip.seatPins_begin st feed)
    exact ⟨_, Effect.of_eq rfl does, s.chip.setPwr_from _ _⟩
  case stops =>
    intro s a b lost st open_
    have does : s.chip.seatPinEdge a b = _ := (if_neg (by simp [lost])).trans (s.chip.seatPins_stop a b st open_)
    exact ⟨_, Effect.of_eq rfl does, rfl, Frame.set_power (by decide) _ _⟩
  case seatEnds =>
    intro s st runs seated feed
    exact ⟨_, Effect.of_eq rfl (if_pos ⟨st, runs, seated, feed⟩), s.chip.setPwr_from _ _⟩
  case ramps =>
    intro s rise current diode st fresh small range low seated feed met cool
    have does := s.chip.precheckEnd_passes st fresh small range low seated feed
    have cool' : ((s.chip.prechecked current diode).coolEnough && !s.chip.power.cooldown) = true := by
      rw [met, Bool.not_false, Bool.and_true]
      exact cool
    exact ⟨_, Effect.of_eq rfl (does.trans (if_pos cool')), s.chip.setPwr_from _ _⟩
  case waits =>
    intro s rise current diode st fresh small range low seated feed warm
    have does := s.chip.precheckEnd_passes st fresh small range low seated feed
    have warm' : ¬ ((s.chip.prechecked current diode).coolEnough && !s.chip.power.cooldown) = true := by
      rw [Bool.and_eq_true, Bool.not_eq_true']
      rintro ⟨cool, met⟩
      rcases warm with hot | hot
      · exact Bool.false_ne_true (met.symm.trans hot)
      · exact Bool.false_ne_true (hot.symm.trans cool)
    exact ⟨_, Effect.of_eq rfl (does.trans (if_neg warm')), rfl,
      (Frame.set_power (l := [.power]) (by decide) _ _).trans (Frame.set_power (by decide) s.chip _)⟩
  case shorts =>
    intro s rise current diode st fresh small range high
    have yes : decide (500 ≤ rise) = true := decide_eq_true high
    have no : decide (current < -2000 ∨ 2000 < current) = false := decide_eq_false (by omega)
    have does := s.chip.precheckEnd_fails (rise := rise) st fresh range (by rw [yes, no]; rfl)
    rw [yes, no] at does
    obtain ⟨power, sticky, -, frame⟩ := (s.chip.prechecked current diode).latchOff_facts true false
    refine ⟨_, Effect.of_eq rfl does, ?_, ?_, ?_, ?_, ?_, ?_, sticky rfl, frame.trans (Frame.set_power (by decide) s.chip _)⟩ <;> rw [power] <;> rfl
  case senses =>
    intro s rise current diode st fresh out range low
    have no : decide (500 ≤ rise) = false := decide_eq_false (by omega)
    have yes : decide (current < -2000 ∨ 2000 < current) = true := decide_eq_true out
    have does := s.chip.precheckEnd_fails (rise := rise) st fresh range (by rw [yes, no]; rfl)
    rw [yes, no] at does
    obtain ⟨power, -, sticky, frame⟩ := (s.chip.prechecked current diode).latchOff_facts false true
    refine ⟨_, Effect.of_eq rfl does, ?_, ?_, ?_, ?_, ?_, ?_, sticky rfl, frame.trans (Frame.set_power (by decide) s.chip _)⟩ <;> rw [power] <;> rfl
  case cooled =>
    intro s lost cool st passed seated feed
    exact ⟨_, Effect.of_eq rfl (s.chip.cooldownMet_ramps lost cool st passed seated feed), s.chip.setPwr_from _ _⟩
  case retries =>
    intro s lost cool st retry seated
    exact ⟨_, Effect.of_eq rfl (s.chip.cooldownMet_retries lost cool st retry seated), s.chip.setPwr_from _ _⟩
  case rampEnds => exact fun s vout vbus st near => ⟨_, Effect.of_eq rfl (if_pos ⟨st, near⟩), s.chip.setPwr_from _ _⟩
  case enhanced => exact fun s vgs st full => ⟨_, Effect.of_eq rfl (if_pos ⟨st, full⟩), s.chip.setPwr_from _ _⟩
  case samples =>
    intro s x gate
    exact ⟨_, _, Effect.of_eq rfl (if_pos gate), rfl, Frame.set_power (by decide) s.chip _⟩
  case unseats =>
    intro s lost seated st
    exact ⟨_, Effect.of_eq rfl (s.chip.unseat_off lost seated st), s.chip.setPwr_from _ _⟩
  case signals =>
    intro s lost seated st
    obtain ⟨power, drains, stays, frame⟩ := ({ s.chip with power := { s.chip.power with away := true } } : Chip).unseatSignal_facts
    exact ⟨_, Effect.of_eq rfl (s.chip.unseat_on lost seated st), power, drains, stays,
      (frame.mono (by decide)).trans (Frame.set_power (by decide) _ _)⟩
  case gateLow =>
    intro s st
    exact ⟨_, Effect.of_eq rfl (if_pos st), (s.chip.raise_power 181 _ _ _ _).1, s.chip.raise_sticky 181 _ _ _ _, (s.chip.raise_eq 181 _ _ _ _).frame⟩
  case clears => exact fun s secs pg long => ⟨_, Effect.of_eq rfl (if_pos ⟨pg, long⟩), rfl, Frame.set_power (by decide) _ _⟩
  case invalid =>
    intro s f mv lost out was other
    obtain ⟨power, sticky, high, frame⟩ := s.chip.dropFeed_facts f mv was
    obtain ⟨valid, conducts, high', rest⟩ := droppedStatus_bits s.chip.power.status f (decide (s.chip.sreg Obj.powerFeedOvMv < mv)) f.isLt
    have feed : (s.chip.dropFeed f mv).feedOk = true := by
      refine Chip.feedOk_of_bit _ (f := 1 - f.val) (by omega) ?_
      rw [power]
      exact rest.trans other
    have does : s.chip.feedInvalid f mv = s.chip.dropFeed f mv := by
      refine (if_neg (by simp [lost, out])).trans (if_neg ?_)
      rw [feed]
      simp
    refine ⟨_, Effect.of_eq rfl does, ?_, ?_, ?_, ?_, ?_, ?_, sticky, high, frame⟩ <;> rw [power]
    · exact valid
    · exact conducts
    · exact high'
    · exact rest.trans other
    · rfl
    · rfl
  case valid =>
    intro s f mv lost range st away
    have does : s.chip.feedValid f mv = s.chip.takeFeed f mv := by
      refine (if_neg (by simp [lost, range])).trans ?_
      rw [Chip.takeFeed_eq]
      exact Chip.seatPins_on _ st away
    rw [Chip.takeFeed_eq] at does
    obtain ⟨valid, high, on, -⟩ := takenStatus_bits s.chip.power.status f
      (bitOf s.chip.power.status (4 + f) || decide (s.chip.power.vbus + 50 ≤ mv)) f.isLt
    exact ⟨_, Effect.of_eq rfl does, valid, high, on, st, rfl, PowerUnit.withFeed_reads _ f mv, Frame.set_power (by decide) _ _⟩
  case reverse =>
    intro s f feed vbus lost lead
    have does : s.chip.oringReverse f feed vbus = _ := (if_neg (by simp [lost]; omega)).trans (Chip.keepFeed_eq _ f feed)
    exact ⟨_, Effect.of_eq rfl does, rfl, rfl, rfl, rfl, PowerUnit.withFeed_reads _ f feed, Frame.set_power (by decide) s.chip _⟩
  case wakes =>
    intro s x lost st away feedA feedB source small seatA seatB
    obtain ⟨m, temp, does⟩ := s.chip.sentryWake_unseated lost st feedA feedB source small
    obtain ⟨power, valid, frame⟩ := s.chip.bothFeeds_facts x.feedA x.feedB
    generalize s.chip.bothFeeds x.feedA x.feedB = u at does power valid frame
    have off : u.power.st = .unseated := (congrArg PowerUnit.st power).trans st
    have up : u.power.status % 4 ≠ 0 := by
      rw [valid]
      decide
    rw [seatA, seatB] at does
    replace does := does.trans (Chip.seatPins_begin _ off (decide_eq_true up))
    refine ⟨_, Effect.of_eq rfl does, congrArg PowerUnit.st (Chip.setPwr_from _ _ _).1, congrArg PowerUnit.seatA (Chip.setPwr_from _ _ _).1,
      congrArg PowerUnit.seatB (Chip.setPwr_from _ _ _).1, congrArg PowerUnit.seatRuns (Chip.setPwr_from _ _ _).1,
      (congrArg PowerUnit.feedA (Chip.setPwr_from _ _ _).1).trans (congrArg PowerUnit.feedA power),
      (congrArg PowerUnit.feedB (Chip.setPwr_from _ _ _).1).trans (congrArg PowerUnit.feedB power),
      (congrArg (fun p : PowerUnit => p.status % 4) (Chip.setPwr_from _ _ _).1).trans valid,
      congrArg PowerUnit.current (Chip.setPwr_from _ _ _).1, (Chip.setPwr_from _ _ _).2.2.trans ?_⟩
    exact (Frame.set_power (by decide) u _).trans (frame.mono (by decide))

end

section
/-!
PROOFS. Commands of power domains, the ends of their changes, and the pads' release (R533 to R538).
-/
namespace Sys2Proof.Machine

/-! ### domain.command (R533, R535, R537) -/

/-- The domain is in the state that code `v` asks for. -/
abbrev Chip.domainIs (s : Chip) (n v : Nat) : Prop :=
  (v = 0 ∧ s.domain n = .off) ∨ (v = 1 ∧ s.domain n = .retention) ∨ (v = 2 ∧ (s.domain n = .on ∨ s.domain n = .onHeld))

/-- The modes that a change begins in at once. -/
abbrev Chip.changesNow (s : Chip) : Prop := s.mode.current = .configuring ∨ s.mode.current = .training

/-- The modes that a change is planned in. -/
abbrev Chip.changesPlanned (s : Chip) : Prop := s.mode.current = .service ∨ s.mode.current = .diagnosis

/-- No mode does both. -/
theorem Chip.not_now_and_planned {s : Chip} (now : s.changesNow) (planned : s.changesPlanned) : False := by
  rcases now with now | now <;> rcases planned with planned | planned <;> exact absurd (now.symm.trans planned) (by decide)

/-- A mode is one of the four that take domain commands: of the two that begin a change, or of the two that plan one. -/
theorem Chip.takesChange_of {s : Chip} (mode : s.mode.current = .configuring ∨ s.mode.current = .training ∨ s.mode.current = .service
    ∨ s.mode.current = .diagnosis) : s.changesNow ∨ s.changesPlanned := or_assoc.mpr mode

section
variable {s : Chip} {n v : Nat}

/-- A domain that the build has not is out of range. -/
theorem Chip.domainCmd_absent (absent : s.noDomain n = true) : s.domainCmd n v = (Abort.outOfRange, s) := if_pos (.inr absent)

/-- Other modes take no domain command. -/
theorem Chip.domainCmd_wrongMode (small : v ≤ 2) (has : s.noDomain n = false) (closed : ¬ (s.changesNow ∨ s.changesPlanned)) :
    s.domainCmd n v = (Abort.wrongMode, s) := by
  have fits : ¬ (2 < v ∨ s.noDomain n = true) := by simp [has, small]
  have other : (!decide s.changesNow) = true ∧ (!decide s.changesPlanned) = true := by
    rw [Bool.not_eq_true', Bool.not_eq_true', decide_eq_false_iff_not, decide_eq_false_iff_not]
    exact not_or.mp closed
  exact (if_neg fits).trans (if_pos other)

/-- A command that the build and the mode let through: what is left to check. -/
theorem Chip.domainCmd_open (small : v ≤ 2) (has : s.noDomain n = false) (mode : s.changesNow ∨ s.changesPlanned) :
    s.domainCmd n v = if s.domainBusy n then (Abort.resourceOwned, s)
      else if decide (s.domainIs n v) then (0, s)
      else if n ≤ 2 then (Abort.wrongMode, s)
      else if v ≠ 2 ∧ (s.domain n = .on ∨ s.domain n = .onHeld) ∧ s.leaveOn n ≠ 0 then (s.leaveOn n, s)
      else if decide s.changesNow then (0, s.beginDomain n v)
      else (0, s.requestOp (.domain n v) (s.domainUs n v)) := by
  have fits : ¬ (2 < v ∨ s.noDomain n = true) := by simp [has, small]
  have takes : ¬ ((!decide s.changesNow) = true ∧ (!decide s.changesPlanned) = true) := by
    rw [Bool.not_eq_true', Bool.not_eq_true', decide_eq_false_iff_not, decide_eq_false_iff_not]
    exact fun ⟨now, planned⟩ => mode.elim now planned
  exact (if_neg fits).trans (if_neg takes)

variable (small : v ≤ 2) (has : s.noDomain n = false) (mode : s.changesNow ∨ s.changesPlanned)
include small has mode

/-- A domain whose change waits or runs is owned. -/
theorem Chip.domainCmd_busy (busy : s.domainBusy n = true) : s.domainCmd n v = (Abort.resourceOwned, s) :=
  (Chip.domainCmd_open small has mode).trans (if_pos busy)

variable (free : s.domainBusy n = false)
include free

/-- A command for the state that the domain is in does nothing. -/
theorem Chip.domainCmd_same (there : s.domainIs n v) : s.domainCmd n v = (0, s) :=
  (Chip.domainCmd_open small has mode).trans ((if_neg (by simp [free])).trans (if_pos (decide_eq_true there)))

variable (other : ¬ s.domainIs n v)
include other

/-- CORE, MGMT and SENTRY take no command. -/
theorem Chip.domainCmd_fixed (low : n ≤ 2) : s.domainCmd n v = (Abort.wrongMode, s) :=
  (Chip.domainCmd_open small has mode).trans ((if_neg (by simp [free])).trans
    ((if_neg (fun there => other (of_decide_eq_true there))).trans (if_pos low)))

variable (high : 2 < n)
include high

/-- A domain that must stay ON is refused with the code of its row. -/
theorem Chip.domainCmd_stays (leaves : v ≠ 2) (on : s.domain n = .on ∨ s.domain n = .onHeld) (stays : s.leaveOn n ≠ 0) :
    s.domainCmd n v = (s.leaveOn n, s) :=
  (Chip.domainCmd_open small has mode).trans ((if_neg (by simp [free])).trans
    ((if_neg (fun there => other (of_decide_eq_true there))).trans ((if_neg (by omega)).trans (if_pos ⟨leaves, on, stays⟩))))

variable (may : v ≠ 2 → s.domain n = .on ∨ s.domain n = .onHeld → s.leaveOn n = 0)
include may

/-- Every check passed, the change begins or is planned. -/
theorem Chip.domainCmd_passes : s.domainCmd n v = if decide s.changesNow then (0, s.beginDomain n v)
    else (0, s.requestOp (.domain n v) (s.domainUs n v)) :=
  (Chip.domainCmd_open small has mode).trans ((if_neg (by simp [free])).trans
    ((if_neg (fun there => other (of_decide_eq_true there))).trans ((if_neg (by omega)).trans
      (if_neg (fun ⟨leaves, on, stays⟩ => stays (may leaves on))))))

theorem Chip.domainCmd_begins (now : s.changesNow) : s.domainCmd n v = (0, s.beginDomain n v) :=
  (Chip.domainCmd_passes small has mode free other high may).trans (if_pos (decide_eq_true now))

theorem Chip.domainCmd_plans (planned : s.changesPlanned) : s.domainCmd n v = (0, s.requestOp (.domain n v) (s.domainUs n v)) :=
  (Chip.domainCmd_passes small has mode free other high may).trans
    (if_neg (fun now => Chip.not_now_and_planned (of_decide_eq_true now) planned))

end

/-- What OFF and RETENTION ask for is never the state ON. -/
theorem Chip.not_domainIs_zero {s : Chip} {n : Nat} (other : s.domain n ≠ .off) : ¬ s.domainIs n 0 := by
  rintro (⟨-, there⟩ | ⟨no, -⟩ | ⟨no, -⟩)
  · exact other there
  · omega
  · omega

theorem Chip.not_domainIs_one {s : Chip} {n : Nat} (other : s.domain n ≠ .retention) : ¬ s.domainIs n 1 := by
  rintro (⟨no, -⟩ | ⟨-, there⟩ | ⟨no, -⟩)
  · omega
  · exact other there
  · omega

theorem Chip.not_domainIs_two {s : Chip} {n : Nat} (other : s.domain n ≠ .on ∧ s.domain n ≠ .onHeld) : ¬ s.domainIs n 2 := by
  rintro (⟨no, -⟩ | ⟨no, -⟩ | ⟨-, there⟩)
  · omega
  · omega
  · exact there.elim other.1 other.2

/-! ### The pads' release (R538) -/

/-- The domain whose pads are released: it is CHANGING, its pads are not held, and it goes ON from OFF. -/
def Chip.padsReleased (s : Chip) (v : Nat) : Chip :=
  { s with mode := { s.mode with
    domains := Tab.put .off s.mode.domains v .changing
    padsHeld := setBit s.mode.padsHeld v false
    target := Tab.set s.mode.target v 4 } }

/-- PAD_RELEASE of a domain ON_HELD begins its bring-up, in SERVICE and DIAGNOSIS as a scheduled operation. -/
theorem Chip.padRelease_held {s : Chip} {v : Nat} (pad : padDomain v = true) (held : s.domain v = .onHeld)
    (mode : s.changesNow ∨ s.changesPlanned) :
    s.padRelease v = (0, if decide s.changesPlanned then (s.padsReleased v).requestOp (.bringUp v) (bringUpUs v) else s.padsReleased v) := by
  have takes : ¬ ((!decide s.changesPlanned) = true ∧ s.mode.current ≠ .configuring ∧ s.mode.current ≠ .training) := by
    rw [Bool.not_eq_true', decide_eq_false_iff_not]
    exact fun ⟨planned, configuring, training⟩ => mode.elim (fun now => now.elim configuring training) planned
  exact (if_neg (by simp [pad])).trans ((if_neg (not_not_intro held)).trans (if_neg takes))

/-- Elsewhere it answers channel-state. -/
theorem Chip.padRelease_channelState {s : Chip} {v : Nat} (pad : padDomain v = true) (other : s.domain v ≠ .onHeld) :
    s.padRelease v = (Abort.channelState, s) :=
  (if_neg (by simp [pad])).trans (if_pos other)

/-! ### The end of a change (R257, R536) -/

/-- A CACHE domain whose ways still hold lines cleans them again. -/
theorem Chip.domainChangeEnd_cleans {s : Chip} {n : Nat} {ddr : List DdrFound} {nvm : List NvmFound} (changing : s.domain n = .changing)
    (cache : 29 ≤ n) (leaves : Tab.get 0 s.mode.target n ≤ 1) (holds : s.waysEmpty (domainWays n) = false) :
    s.domainChangeEnd n ddr nvm = s.cleanWays (domainWays n) :=
  (if_neg (not_not_intro changing)).trans (if_pos ⟨cache, leaves, by simp [holds]⟩)

end Sys2Proof.Machine

open Sys2Proof Sys2Proof.Machine

/-- Settles O44: each command is what `domainCmd` answers after its checks, and each end is what `domainChangeEnd_facts` says. -/
theorem domainsChangeByCommand : Obligations.DomainsChangeByCommand := by
  unfold Obligations.DomainsChangeByCommand
  refine ⟨?off, ?retention, ?on, ?plansOff, ?plansRetention, ?plansOn, ?fixed, ?wrongMode, ?stays, ?absent, ?busy, ?same, ?endsOff,
    ?endsRetention, ?endsHeld, ?endsOn, ?cleans, ?releases, ?plansRelease, ?notHeld⟩
  case off =>
    intro s src n acc has now free other high may
    have does := Chip.domainCmd_begins (by omega : 0 ≤ 2) has (.inl now) free (Chip.not_domainIs_zero other) high (fun _ => may) now
    obtain ⟨changing, others, target, current, small, -, frame, clean, down⟩ := s.chip.beginDomain_facts n 0 (by omega)
    exact ⟨_, dictCmd_effect rfl acc (by decide) (by decide) does, changing, others, current, target,
      fun on => clean (by omega) (.inl on), fun on => down (by omega) (.inl on), small, frame⟩
  case retention =>
    intro s src n acc has now free other high may
    have does := Chip.domainCmd_begins (by omega : 1 ≤ 2) has (.inl now) free (Chip.not_domainIs_one other) high (fun _ => may) now
    obtain ⟨changing, others, target, current, small, -, frame, clean, down⟩ := s.chip.beginDomain_facts n 1 (by omega)
    exact ⟨_, dictCmd_effect rfl acc (by decide) (by decide) does, changing, others, current, target,
      fun on => clean (by omega) (.inl on), fun on => down (by omega) (.inl on), small, frame⟩
  case on =>
    intro s src n acc has now free other high
    have does := Chip.domainCmd_begins (Nat.le_refl 2) has (.inl now) free (Chip.not_domainIs_two other) high (fun no => absurd rfl no) now
    obtain ⟨changing, others, target, current, -, frame, -, -, -⟩ := s.chip.beginDomain_facts n 2 (by omega)
    exact ⟨_, dictCmd_effect rfl acc (by decide) (by decide) does, changing, others, current, target, frame rfl⟩
  case plansOff =>
    intro s src n acc has planned free other high may
    have does := Chip.domainCmd_plans (by omega : 0 ≤ 2) has (.inr planned) free (Chip.not_domainIs_zero other) high (fun _ => may) planned
    exact ⟨_, dictCmd_effect rfl acc (by decide) (by decide) does, s.chip.requestOp_facts _ _⟩
  case plansRetention =>
    intro s src n acc has planned free other high may
    have does := Chip.domainCmd_plans (by omega : 1 ≤ 2) has (.inr planned) free (Chip.not_domainIs_one other) high (fun _ => may) planned
    exact ⟨_, dictCmd_effect rfl acc (by decide) (by decide) does, s.chip.requestOp_facts _ _⟩
  case plansOn =>
    intro s src n acc has planned free other high
    have does := Chip.domainCmd_plans (Nat.le_refl 2) has (.inr planned) free (Chip.not_domainIs_two other) high (fun no => absurd rfl no) planned
    exact ⟨_, dictCmd_effect rfl acc (by decide) (by decide) does, s.chip.requestOp_facts _ _⟩
  case fixed =>
    intro s src n acc has mode free other low
    exact dictCmd_effect rfl acc (by decide) (by decide)
      (Chip.domainCmd_fixed (by omega) has (Chip.takesChange_of mode) free (Chip.not_domainIs_zero other) low)
  case wrongMode =>
    intro s src n acc has closed
    exact dictCmd_effect rfl acc (by decide) (by decide)
      (Chip.domainCmd_wrongMode (by omega) has (fun mode => closed (or_assoc.mp mode)))
  case stays =>
    intro s src n acc has mode free high on stays
    have other : s.chip.domain n ≠ .off := fun off => by rcases on with on | on <;> exact absurd (off.symm.trans on) (by decide)
    exact dictCmd_effect rfl acc (by decide) (by decide)
      (Chip.domainCmd_stays (by omega) has (Chip.takesChange_of mode) free (Chip.not_domainIs_zero other) high (by omega) on stays)
  case absent => exact fun s src n acc absent => dictCmd_effect rfl acc (by decide) (by decide) (Chip.domainCmd_absent absent)
  case busy =>
    intro s src n acc has mode busy
    exact dictCmd_effect rfl acc (by decide) (by decide) (Chip.domainCmd_busy (Nat.le_refl 2) has (Chip.takesChange_of mode) busy)
  case same =>
    intro s src n acc has mode free on
    exact ⟨_, dictCmd_effect rfl acc (by decide) (by decide)
      (Chip.domainCmd_same (Nat.le_refl 2) has (Chip.takesChange_of mode) free (.inr (.inr ⟨rfl, on⟩))), rfl⟩
  case endsOff =>
    intro s n ddr nvm changing target empty
    obtain ⟨ends, others, -, -, frame, -, train, keys, -⟩ := s.chip.domainChangeEnd_facts n ddr nvm changing (fun cache _ => empty cache)
    rw [target] at ends
    exact ⟨_, Effect.of_eq rfl rfl, ends, others, train target, keys target, frame⟩
  case endsRetention =>
    intro s n ddr nvm changing target empty
    obtain ⟨ends, others, -, pads, -, frame, -⟩ := s.chip.domainChangeEnd_facts n ddr nvm changing (fun cache _ => empty cache)
    rw [target] at ends pads
    obtain ⟨frame, cache⟩ := frame (.inl target)
    exact ⟨_, Effect.of_eq rfl rfl, ends, others, pads, cache, frame⟩
  case endsHeld =>
    intro s n ddr nvm changing target
    obtain ⟨ends, others, -, pads, -, frame, -⟩ := s.chip.domainChangeEnd_facts n ddr nvm changing (fun _ low => by omega)
    rw [target] at ends pads
    obtain ⟨frame, cache⟩ := frame (.inr target)
    exact ⟨_, Effect.of_eq rfl rfl, ends, others, pads, cache, frame⟩
  case endsOn =>
    intro s n ddr nvm changing target
    obtain ⟨ends, others, -, -, frame, -, -, -, found⟩ := s.chip.domainChangeEnd_facts n ddr nvm changing (fun _ low => by omega)
    rw [target] at ends
    exact ⟨_, Effect.of_eq rfl rfl, ends, others, found target, frame⟩
  case cleans =>
    intro s n ddr nvm changing cache leaves holds
    obtain ⟨frame, gone, kept⟩ := s.chip.cleanWays_facts (domainWays n)
    have same := Chip.domain_of_frame frame (by decide) (by decide)
    exact ⟨_, Effect.of_eq rfl (Chip.domainChangeEnd_cleans changing cache leaves holds), (same n).trans changing, fun k _ => same k, gone, kept, frame⟩
  case releases =>
    intro s src v acc pad held now
    have does := Chip.padRelease_held pad held (.inl now)
    rw [if_neg (fun planned => Chip.not_now_and_planned now (of_decide_eq_true planned))] at does
    exact ⟨_, dictCmd_effect rfl acc (by decide) (by decide) does, rfl, Frame.set_mode (by decide) _ _⟩
  case plansRelease =>
    intro s src v acc pad held planned
    have does := Chip.padRelease_held pad held (.inr planned)
    rw [if_pos (decide_eq_true planned)] at does
    exact ⟨_, dictCmd_effect rfl acc (by decide) (by decide) does, rfl, rfl,
      (Frame.set_win (by decide) (s.chip.padsReleased v.toNat) _).trans (Frame.set_mode (by decide) s.chip _)⟩
  case notHeld =>
    exact fun s src v acc pad other => dictCmd_effect rfl acc (by decide) (by decide) (Chip.padRelease_channelState pad other)

end

section
/-!
PROOFS. Resets of the sentry, the rails and the chip, and the end of RECALL (R477, R485, R523, R524, R527, R539, R570).
-/
namespace Sys2Proof.Machine

/-! ### The sentry's resets and the rails (R523, R539, R570, R574) -/

/-- The sentry's power-on reset leaves every part cold, and the die of Seedbank as it was. -/
theorem Chip.sentryReset_facts (s : Chip) : Cold s.sentryReset ∧ SameDie s.sentryReset s := by
  obtain ⟨cold, die, -⟩ := s.coreReset_facts 0
  unfold Chip.sentryReset
  generalize s.coreReset 0 = k at cold die ⊢
  exact ⟨cold, die⟩

/-- Without power, the sentry holds no more. -/
theorem Chip.sentryLoss_facts (s : Chip) : Cold s.sentryLoss ∧ SameDie s.sentryLoss s := by
  obtain ⟨cold, die⟩ := s.sentryReset_facts
  unfold Chip.sentryLoss
  generalize s.sentryReset = k at cold die ⊢
  exact ⟨cold, die⟩

/-- The straps as the first chip power-on after a sentry reset latches them (R570). -/
def Chip.strapsLatched (s : Chip) (slot build unstable : Nat) : Chip :=
  { s with
    mode := { s.mode with
      strapsTaken := true
      build := if bitOf unstable 7 then 1 else build }
    pkg := { s.pkg with
      slot := (slot ||| unstable) % 128
      strapUnstable := s.pkg.strapUnstable + countIf (fun i => bitOf unstable i) (List.range 8) } }

/-- The rails come up. -/
def Chip.railed (s : Chip) : Chip := { s with mode := { s.mode with railsUp := true } }

section
variable {s : Chip} (slot build unstable : Nat) (inserting : s.mode.current = .inserting) (pg : s.power.pg = true)
  (dark : s.mode.railsUp = false)
include inserting pg dark

/-- The first chip power-on latches the straps. -/
theorem Chip.chipPowerOn_first (fresh : s.mode.strapsTaken = false) :
    s.chipPowerOn slot build unstable = (s.strapsLatched slot build unstable).railed.coreReset 1 := by
  have latches : (if s.mode.strapsTaken = true then s else s.strapsLatched slot build unstable) = s.strapsLatched slot build unstable :=
    if_neg (by simp [fresh])
  exact (if_neg (by simp [inserting, pg, dark])).trans (congrArg (fun c : Chip => c.railed.coreReset 1) latches)

/-- A later one keeps them. -/
theorem Chip.chipPowerOn_later (taken : s.mode.strapsTaken = true) : s.chipPowerOn slot build unstable = s.railed.coreReset 1 := by
  have keeps : (if s.mode.strapsTaken = true then s else s.strapsLatched slot build unstable) = s := if_pos taken
  exact (if_neg (by simp [inserting, pg, dark])).trans (congrArg (fun c : Chip => c.railed.coreReset 1) keeps)

end

/-- CHIP_POWER_ON leads to what it comes to on the device, and keeps the port while the rails are up. -/
theorem State.chipPowerOn_runs (s : State) {slot : BitVec 7} {build : Bool} {unstable : BitVec 8} {c : Chip}
    (does : s.chip.chipPowerOn slot.toNat build.toNat unstable.toNat = c) : exec (.chipPowerOn slot build unstable) s = .next (s.doneRails c) :=
  does ▸ rfl

/-- A loss of the rails leaves every part cold, INSERTING while the feed path is up and else UNSEATED, and no domain but SENTRY powered. -/
theorem Chip.railLoss_facts (s : Chip) (up : s.mode.railsUp = true) :
    Cold s.railLoss ∧ SameDie s.railLoss s ∧ s.railLoss.power = s.power ∧ s.railLoss.pkg = { s.pkg with tjPeak := s.pkg.tj }
    ∧ s.railLoss.fault = { sticky := s.fault.sticky, history := s.fault.history, dark := s.fault.dark }
    ∧ s.railLoss.mode.current = (if s.power.st = .ramp ∨ s.power.st = .enhance ∨ s.power.st = .on then .inserting else .unseated)
    ∧ (∀ n : Nat, 0 < n → s.railLoss.domain n = .off) ∧ s.railLoss.mode.railsUp = false ∧ s.railLoss.mode.build = s.mode.build
    ∧ s.railLoss.mode.resetCause = s.mode.resetCause := by
  have does : s.railLoss = _ := if_neg (by simp [up])
  rw [does]
  obtain ⟨cold, die, power, pkg, fault, mode, -⟩ := s.coreReset_facts s.mode.resetCause
  dsimp only
  generalize s.coreReset s.mode.resetCause = k at cold die power pkg fault mode ⊢
  refine ⟨cold, die, power, pkg, fault, ?_, fun n pos => (Chip.domain_pos _ n pos).trans rfl, rfl, (congrArg ModeUnit.build mode :),
    (congrArg ModeUnit.resetCause mode :)⟩
  simp only [decide_eq_true_eq]

/-! ### CHIP_RESET (R527, R539) -/

/-- A chip reset is carried out in every mode that serves the dictionary. -/
theorem Chip.chipResetCmd_serves (s : Chip) (flushed : Bool) (seated : s.mode.current ≠ .unseated) (in_ : s.mode.current ≠ .inserting)
    (serves : s.mode.current ≠ .persist) : s.chipResetCmd flushed = (0, s.chipReset 2 flushed) := by
  unfold Chip.chipResetCmd
  split
  · next no => exact absurd no seated
  · next no => exact absurd no in_
  · next no => exact absurd no serves
  · rfl

/-- Where no path is up, a write reaches nothing. -/
theorem Chip.dictUp_unserved (s : Chip) (src : Src) (mode : s.mode.current = .unseated ∨ s.mode.current = .inserting ∨ s.mode.current = .persist) :
    s.dictUp src = false := by
  unfold Chip.dictUp
  rcases mode with mode | mode | mode <;> rw [mode] <;> rfl

/-- A chip reset whose flush does not finish keeps the power entry, the latches and Seedbank, and outside SERVICE and DIAGNOSIS what the fault
collector keeps. -/
theorem Chip.chipReset_unflushed (s : Chip) (n : Nat) :
    Cold (s.chipReset n false) ∧ SameDie (s.chipReset n false) s ∧ (s.chipReset n false).power = s.power
    ∧ (s.chipReset n false).pkg = { s.pkg with tjPeak := s.pkg.tj }
    ∧ (s.chipReset n false).mode = { current := .recall, build := s.mode.build, strapsTaken := s.mode.strapsTaken, resetCause := n
                                     resetCount := wrap32 (s.mode.resetCount + 1), domains := [(1, .on), (2, .on)], railsUp := s.mode.railsUp }
    ∧ (s.mode.current ≠ .service → s.mode.current ≠ .diagnosis →
      (s.chipReset n false).fault = { sticky := s.fault.sticky, history := s.fault.history, dark := s.fault.dark }) := by
  obtain ⟨left, -⟩ := s.leaveWindows_facts
  have stays : s.mode.current ≠ .service → s.mode.current ≠ .diagnosis → s.leaveWindows = s := fun service diagnosis =>
    if_neg (not_or.mpr ⟨service, diagnosis⟩)
  obtain ⟨cold, die, power, pkg, fault, mode⟩ := s.leaveWindows.chipResetNow_facts n
  change Cold (s.leaveWindows.chipResetNow n) ∧ SameDie (s.leaveWindows.chipResetNow n) s ∧ (s.leaveWindows.chipResetNow n).power = s.power
    ∧ (s.leaveWindows.chipResetNow n).pkg = _ ∧ (s.leaveWindows.chipResetNow n).mode = _
    ∧ (_ → _ → (s.leaveWindows.chipResetNow n).fault = _)
  generalize s.leaveWindows.chipResetNow n = k at cold die power pkg fault mode ⊢
  have sb : s.leaveWindows.sb = s.sb := left .sb (by decide)
  have modes : s.leaveWindows.mode = s.mode := left .mode (by decide)
  unfold SameDie at die ⊢
  rw [sb] at die
  rw [modes] at mode
  refine ⟨cold, die, power.trans (left .power (by decide)), pkg.trans ?_, mode, fun service diagnosis => fault.trans ?_⟩
  · rw [show s.leaveWindows.pkg = s.pkg from left .pkg (by decide)]
  · rw [stays service diagnosis]

/-- With a finished flush every part is cold as well, in RECALL. -/
theorem Chip.chipReset_flushed (s : Chip) (n : Nat) :
    Cold (s.chipReset n true) ∧ (s.chipReset n true).mode.current = .recall ∧ (s.chipReset n true).mode.resetCause = n := by
  obtain ⟨cold, -, -, -, -, mode⟩ := s.leaveWindows.flushAll.chipResetNow_facts n
  change Cold (s.leaveWindows.flushAll.chipResetNow n) ∧ (s.leaveWindows.flushAll.chipResetNow n).mode.current = _
    ∧ (s.leaveWindows.flushAll.chipResetNow n).mode.resetCause = _
  generalize s.leaveWindows.flushAll.chipResetNow n = k at cold mode ⊢
  exact ⟨cold, congrArg ModeUnit.current mode, congrArg ModeUnit.resetCause mode⟩

/-! ### The end of RECALL (R477, R485, R524) -/

/-- What the end of RECALL leaves before its mode is taken: the image, the recalled values and the domains. -/
structure Recalled (s : Chip) (dieOk imageA imageB : Bool) (t : Chip) : Prop where
  boot : t.sb.boot = (s.bootChoice imageA imageB).getD 0
  values : t.rwp = if dieOk then t.recalledValues else []
  domains : ∀ n : Nat, 3 ≤ n → n < 31 → t.domain n = if s.noDomain n then s.domain n else .on

/-- These stay while Seedbank, the values, and the domains' states do. -/
theorem Recalled.of_same {s u t : Chip} {dieOk imageA imageB : Bool} (recalled : Recalled s dieOk imageA imageB u) (sb : t.sb = u.sb)
    (rwp : t.rwp = u.rwp) (domains : t.mode.domains = u.mode.domains) : Recalled s dieOk imageA imageB t := by
  refine ⟨(congrArg SbUnit.boot sb).trans recalled.boot, ?_, fun n low high => ?_⟩
  · rw [rwp, Chip.recalledValues_congr (congrArg SbUnit.recs sb) (congrArg SbUnit.sectors sb)]
    exact recalled.values
  · rw [← recalled.domains n low high, Chip.domain_pos _ _ (by omega), Chip.domain_pos _ _ (by omega), domains]

/-- A held address leaves UNADDRESSED for CONFIGURING, or with mode.auto_train for TRAINING. -/
theorem Chip.addressHeld_facts (s : Chip) (mode : s.mode.current = .unaddressed) (addressed : s.field.addr ≠ 0)
    (heads : ∀ h : Nat, h < 4 → (s.head h).state ≠ .active) :
    s.addressHeld.mode = { s.mode with current := if s.cfg Obj.modeAutoTrain = 1 then .training else .configuring }
    ∧ Frame [.mode, .bifur, .heads, .links] s.addressHeld s := by
  have does : s.addressHeld = s.enterConfiguring := if_pos ⟨mode, addressed⟩
  rw [does]
  by_cases auto : s.cfg Obj.modeAutoTrain = 1
  · have trains : s.enterConfiguring = (s.setMode .configuring).enterTraining := if_pos auto
    obtain ⟨frame, mode, -⟩ := (s.setMode .configuring).enterTraining_facts (fun h four => .inr (heads h four))
    rw [trains, if_pos auto]
    exact ⟨mode, frame.trans (Frame.set_mode (by decide) _ _)⟩
  · have stays : s.enterConfiguring = s.setMode .configuring := if_neg auto
    rw [stays, if_neg auto]
    exact ⟨rfl, Frame.set_mode (by decide) _ _⟩

/-- Where an image verifies, RECALL ends as its scan leaves it, in UNADDRESSED, with the reactions that waited and a strap address. -/
theorem Chip.recallEnd_boots (s : Chip) (ms : Nat) {dieOk : Bool} (flips : List (Nat × Nat × Byte)) {imageA imageB : Bool} (entropyOk : Bool)
    (mode : s.mode.current = .recall) (boots : s.bootChoice imageA imageB ≠ none) :
    ∃ v : Chip, s.recallEnd ms dieOk flips imageA imageB entropyOk = v.addressHeld ∧ v.mode.current = .unaddressed
      ∧ Recalled s dieOk imageA imageB v ∧ Frame recallParts v s ∧ (∀ h : Nat, (v.head h).state = (s.head h).state)
      ∧ (1 ≤ s.pkg.slot ∧ s.pkg.slot ≤ 0x7E → v.field.addr = s.pkg.slot ∧ v.field.source = 1)
      ∧ (¬ (1 ≤ s.pkg.slot ∧ s.pkg.slot ≤ 0x7E) → v.field.addr = s.field.addr) := by
  obtain ⟨u, ⟨frame, alarms, heads⟩, -, domains, boot, values, -, does⟩ :=
    s.recallEnd_facts ms dieOk flips imageA imageB entropyOk mode
  obtain ⟨image, chosen⟩ := Option.ne_none_iff_exists'.mp boots
  have recalled : Recalled s dieOk imageA imageB (u.setMode .unaddressed) :=
    Recalled.of_same ⟨boot, values, domains⟩ rfl rfl rfl
  obtain ⟨⟨strapped, states⟩, held, free⟩ := (u.setMode .unaddressed).strapped_facts
  have slot : (u.setMode .unaddressed).pkg = s.pkg := frame .pkg (by decide)
  have addr : (u.setMode .unaddressed).field.addr = s.field.addr := (congrArg FieldUnit.addr alarms :)
  rw [slot] at held free
  rw [chosen] at does
  refine ⟨_, does, (congrArg ModeUnit.current (strapped .mode (by decide))).trans rfl,
    recalled.of_same (strapped .sb (by decide)) (strapped .rwp (by decide)) (congrArg ModeUnit.domains (strapped .mode (by decide))),
    (strapped.mono (by decide)).trans ((Frame.set_mode (by decide) u _).trans frame), fun h => (states h).trans (heads h), held,
    fun no => (free no).trans addr⟩

/-- Where none does, it ends in UPDATE with source 166. -/
theorem Chip.recallEnd_noImage (s : Chip) (ms : Nat) {dieOk : Bool} (flips : List (Nat × Nat × Byte)) {imageA imageB : Bool} (entropyOk : Bool)
    (mode : s.mode.current = .recall) (none_ : s.bootChoice imageA imageB = none) :
    (s.recallEnd ms dieOk flips imageA imageB entropyOk).mode.current = .update
    ∧ (s.recallEnd ms dieOk flips imageA imageB entropyOk).mode.bootUpdate = true
    ∧ (s.recallEnd ms dieOk flips imageA imageB entropyOk).sticky 166 = true
    ∧ Recalled s dieOk imageA imageB (s.recallEnd ms dieOk flips imageA imageB entropyOk)
    ∧ Frame recallParts (s.recallEnd ms dieOk flips imageA imageB entropyOk) s := by
  obtain ⟨u, ⟨frame, -, -⟩, -, domains, boot, values, -, does⟩ := s.recallEnd_facts ms dieOk flips imageA imageB entropyOk mode
  rw [none_] at does
  rw [does]
  dsimp only
  generalize failed : ({ u with mode := { u.mode with
    current := .update
    bootUpdate := true } } : Chip) = v
  have recalled : Recalled s dieOk imageA imageB v := by
    rw [← failed]
    exact Recalled.of_same ⟨boot, values, domains⟩ rfl rfl rfl
  have entered : v.mode.current = .update ∧ v.mode.bootUpdate = true ∧ Frame recallParts v s := by
    rw [← failed]
    exact ⟨rfl, rfl, (Frame.set_mode (by decide) u _).trans frame⟩
  obtain ⟨current, bootUpdate, update⟩ := entered
  obtain ⟨⟨strapped, -⟩, -, -⟩ := v.strapped_facts
  have whole : Frame [.fault, .heads, .field] (v.lightUp.strapAddress.raise 166) v := (Chip.raise_eq _ _ _ _ _ _).frame.trans strapped
  have modes : (v.lightUp.strapAddress.raise 166).mode = v.mode := whole .mode (by decide)
  exact ⟨(congrArg ModeUnit.current modes).trans current, (congrArg ModeUnit.bootUpdate modes).trans bootUpdate, Chip.raise_sticky _ _ _ _ _ _,
    recalled.of_same (whole .sb (by decide)) (whole .rwp (by decide)) (congrArg ModeUnit.domains modes), (whole.mono (by decide)).trans update⟩

/-- The image that runs, as RECALL chose it. -/
theorem Recalled.image {s t : Chip} {dieOk imageA imageB : Bool} (recalled : Recalled s dieOk imageA imageB t)
    (boots : s.bootChoice imageA imageB ≠ none) : some t.sb.boot = s.bootChoice imageA imageB := by
  obtain ⟨image, chosen⟩ := Option.ne_none_iff_exists'.mp boots
  rw [recalled.boot, chosen]
  rfl

end Sys2Proof.Machine

open Sys2Proof Sys2Proof.Machine

/-- Settles O45: each reset is `coreReset` on what it keeps, and RECALL's end is its scan with the mode that follows. -/
theorem resetsTakeAwayAndKeepWhatTheirRowSays : Obligations.ResetsTakeAwayAndKeepWhatTheirRowSays := by
  unfold Obligations.ResetsTakeAwayAndKeepWhatTheirRowSays
  refine ⟨?sentry, ?unpowered, ?first, ?later, ?rails, ?unflushed, ?flushed, ?unserved, ?chain, ?strap, ?update⟩
  case sentry =>
    intro s
    obtain ⟨cold, die⟩ := s.chip.sentryReset_facts
    exact ⟨_, rfl, cold, die, rfl, rfl, rfl, rfl, rfl⟩
  case unpowered =>
    intro s
    obtain ⟨cold, die⟩ := s.chip.sentryLoss_facts
    exact ⟨_, rfl, cold, die, rfl, rfl, rfl, rfl, rfl⟩
  case first =>
    intro s slot build unstable inserting pg dark fresh
    have does := Chip.chipPowerOn_first slot.toNat build.toNat unstable.toNat inserting pg dark fresh
    obtain ⟨cold, die, power, pkg, fault, mode, -, -⟩ :=
      (s.chip.strapsLatched slot.toNat build.toNat unstable.toNat).railed.coreReset_facts 1
    exact ⟨_, s.chipPowerOn_runs does, cold, die, power, congrArg PkgUnit.slot pkg, mode, fault,
      if_pos (congrArg ModeUnit.railsUp mode)⟩
  case later =>
    intro s slot build unstable inserting pg dark taken
    have does := Chip.chipPowerOn_later slot.toNat build.toNat unstable.toNat inserting pg dark taken
    obtain ⟨cold, die, power, pkg, fault, mode, husk, -⟩ := s.chip.railed.coreReset_facts 1
    have straps : (s.chip.railed.coreReset 1).mode.strapsTaken = true := (congrArg ModeUnit.strapsTaken mode).trans taken
    refine ⟨_, s.chipPowerOn_runs does, cold, die, power, pkg, mode.trans ?_, fault, _, husk⟩
    rw [show s.chip.railed.mode.strapsTaken = true from taken]
    rfl
  case rails =>
    intro s up
    obtain ⟨cold, die, power, pkg, fault, mode, domains, down, build, cause⟩ := s.chip.railLoss_facts up
    exact ⟨_, rfl, cold, die, power, pkg, fault, mode, domains, down, build, cause, if_neg (by simp [down])⟩
  case unflushed =>
    intro s src acc seated in_ serves
    exact ⟨_, dictCmd_effect rfl acc (by decide) (by decide) (s.chip.chipResetCmd_serves false seated in_ serves), s.chip.chipReset_unflushed 2⟩
  case flushed =>
    intro s src acc seated in_ serves
    exact ⟨_, dictCmd_effect rfl acc (by decide) (by decide) (s.chip.chipResetCmd_serves true seated in_ serves), s.chip.chipReset_flushed 2⟩
  case unserved =>
    intro s src f mode
    exact Effect.of_eq (d := s.chip.dictCmd src 0x2800 2 1 6 (fun k => k.chipResetCmd f)) rfl
      (s.chip.dictPut_down src _ _ _ _ (s.chip.dictUp_unserved src mode))
  case chain =>
    intro s ms dieOk flips imageA imageB entropyOk mode chained free boots
    obtain ⟨v, does, unaddressed, recalled, frame, -, -, keeps⟩ := s.chip.recallEnd_boots ms (dieOk := dieOk) flips entropyOk mode boots
    have none_ : v.field.addr = 0 := (keeps (by
      have slot : s.chip.pkg.slot = 0 ∨ s.chip.pkg.slot = 0x7F := of_decide_eq_true chained
      omega)).trans free
    have stays : v.addressHeld = v := if_neg (fun held => held.2 none_)
    rw [stays] at does
    obtain ⟨starts, addr, -⟩ := Chip.fieldStart_facts s.chip v
    have recalled' := recalled.of_same (starts .sb (by decide)) (starts .rwp (by decide)) (congrArg ModeUnit.domains (starts .mode (by decide)))
    exact ⟨_, Effect.of_eq rfl (congrArg (Chip.fieldStart s.chip) does), (congrArg ModeUnit.current (starts .mode (by decide))).trans unaddressed,
      recalled'.image boots, recalled'.values, recalled'.domains, addr.trans none_, (starts.mono (by decide)).trans frame⟩
  case strap =>
    intro s ms dieOk flips imageA imageB entropyOk mode low high boots heads
    obtain ⟨v, does, unaddressed, recalled, frame, states, straps, -⟩ := s.chip.recallEnd_boots ms (dieOk := dieOk) flips entropyOk mode boots
    obtain ⟨addr, source⟩ := straps ⟨low, high⟩
    obtain ⟨current, entered⟩ := v.addressHeld_facts unaddressed (by omega) (fun h four => by rw [states]; exact heads h four)
    obtain ⟨starts, sameAddr, sameSource⟩ := Chip.fieldStart_facts s.chip v.addressHeld
    have field : v.addressHeld.field = v.field := entered .field (by decide)
    have whole : Frame [.field, .mode, .bifur, .heads, .links] (Chip.fieldStart s.chip v.addressHeld) v :=
      (starts.mono (by decide)).trans (entered.mono (by decide))
    have modes : (Chip.fieldStart s.chip v.addressHeld).mode = _ := (starts .mode (by decide)).trans current
    have recalled' := recalled.of_same (whole .sb (by decide)) (whole .rwp (by decide)) (congrArg ModeUnit.domains modes :)
    refine ⟨_, Effect.of_eq rfl (congrArg (Chip.fieldStart s.chip) does), ?_, recalled'.image boots, recalled'.values, recalled'.domains,
      sameAddr.trans ((congrArg FieldUnit.addr field).trans addr), sameSource.trans ((congrArg FieldUnit.source field).trans source),
      (whole.mono (by decide)).trans (frame.mono (by decide))⟩
    rw [Chip.cfg_of_frame whole (by decide) (by decide)]
    exact congrArg ModeUnit.current modes
  case update =>
    intro s ms dieOk flips imageA imageB entropyOk mode none_
    obtain ⟨current, bootUpdate, sticky, recalled, frame⟩ := s.chip.recallEnd_noImage ms (dieOk := dieOk) flips entropyOk mode none_
    obtain ⟨starts, -⟩ := Chip.fieldStart_facts s.chip (s.chip.recallEnd ms dieOk flips imageA imageB entropyOk)
    have modes := starts .mode (by decide)
    have fault := starts .fault (by decide)
    have recalled' := recalled.of_same (starts .sb (by decide)) (starts .rwp (by decide)) (congrArg ModeUnit.domains modes)
    exact ⟨_, rfl, (congrArg ModeUnit.current modes).trans current, (congrArg ModeUnit.bootUpdate modes).trans bootUpdate,
      (congrArg (fun f : FaultUnit => bitOf f.sticky 166) fault).trans sticky, recalled'.values, recalled'.domains,
      (starts.mono (by decide)).trans frame⟩

end
